-- ==== Sys2Proof/Word.lean ====
section
/-! DEFINITION. The words of the machine: register, address, byte and lane-mask types, and the 32-lane
vectors (R5, R6). A lane vector is a `Vector`, so its length is part of its type; the combinators below go
through lists, so that the kernel can evaluate them. -/

namespace Sys2Proof

/-- A 64-bit register value, address or instruction word. -/
abbrev Word := BitVec 64

/-- One byte of memory (R7). -/
abbrev Byte := BitVec 8

/-- A mask with one bit per lane of a warp. -/
abbrev Mask := BitVec 32

/-- One value per lane. -/
abbrev Lanes (α : Type) := Vector α 32

/-- A value for each of `n` indices, as a vector. -/
def tabulate {α : Type} (n : Nat) (f : Fin n → α) : Vector α n :=
  ⟨⟨List.ofFn f⟩, by simp⟩

/-- The same value at each of `n` indices. -/
def always {α : Type} (n : Nat) (x : α) : Vector α n :=
  ⟨⟨List.replicate n x⟩, by simp⟩

/-- Bit `l` of a lane mask. -/
def Mask.has (m : Mask) (l : Nat) : Bool := m.getLsbD l

/-- The lane mask of the lanes for which `f` holds. -/
def Mask.ofFn (f : Fin 32 → Bool) : Mask :=
  (List.finRange 32).foldl (fun m l => if f l then m ||| BitVec.ofNat 32 (2 ^ l.val) else m) 0#32

/-- The lanes of a mask, lowest first. -/
def Mask.lanes (m : Mask) : List (Fin 32) :=
  (List.finRange 32).filter fun l => m.getLsbD l

/-- The lowest lane of a mask. -/
def Mask.lowest (m : Mask) : Option (Fin 32) := m.lanes.head?

/-- How many lanes a mask holds. -/
def Mask.count (m : Mask) : Nat := m.lanes.length

/-- Replace bits `[lo + n - 1 : lo]` of a word by the low `n` bits of `x`. -/
def putBits (w : Word) (lo n : Nat) (x : Nat) : Word :=
  let keep : Nat := w.toNat - ((w.toNat >>> lo) % 2 ^ n) * 2 ^ lo
  BitVec.ofNat 64 (keep + (x % 2 ^ n) * 2 ^ lo)

/-- Bits `[lo + n - 1 : lo]` of a word, as a number. -/
def bitsOf (w : Word) (lo n : Nat) : Nat := (w.toNat >>> lo) % 2 ^ n

/-- The value of the low `n` bits of a number read as two's complement. -/
def signedOf (n : Nat) (x : Nat) : Int :=
  let y := x % 2 ^ n
  if 2 * y < 2 ^ n then (y : Int) else (y : Int) - (2 ^ n : Nat)

/-- The low `n` bits of an integer, as a number. -/
def lowBits (n : Nat) (x : Int) : Nat := (x % (2 ^ n : Nat)).toNat

/-- A word from an integer, modulo 2^64. -/
def wordOfInt (x : Int) : Word := BitVec.ofNat 64 (lowBits 64 x)

/-- The bytes of the low `8 n` bits of a number, lowest first (R7). -/
def bytesOf : Nat → Nat → List Byte
  | 0, _ => []
  | n + 1, x => BitVec.ofNat 8 x :: bytesOf n (x / 256)

/-- The number whose bytes, lowest first, are the list (R7). -/
def ofBytes : List Byte → Nat
  | [] => 0
  | b :: r => b.toNat + 256 * ofBytes r

/-- Ceiling of a division. -/
def ceilDiv (a b : Nat) : Nat := (a + b - 1) / b

end Sys2Proof
end

