-- ==== Sys2Proof/Syntax.lean ====
section
/-! DEFINITION. The steps of the A920 as data: `Instr` has one constructor per row of the spec's table of
operations and events. A constructor of an instruction holds its decoded fields (R256-R269); a constructor
of an event holds what the outside world, or the schedule, gives that event. -/

namespace Sys2Proof

/-- Type codes (R268). -/
inductive Ty where
  | i8 | n8 | i16 | n16 | i32 | n32 | i64 | n64 | f16 | bf16 | f32 | f64 | e4m3 | e5m2 | i4 | b64
  deriving DecidableEq, Repr

/-- Rounding modes of the RND field (R188). -/
inductive Rnd where
  | rne | rtz | rdn | rup
  deriving DecidableEq, Repr

/-- The guard fields GP and GI (R257). -/
structure Guard where
  pred : Fin 8
  inv : Bool
  deriving DecidableEq, Repr

/-- A 9-bit source specifier (R260). `int k` is the constant k - 16. -/
inductive Src where
  | v (r : Fin 256)
  | s (r : Fin 128)
  | int (k : Fin 64)
  | fp (k : Fin 16)
  | lane (k : Fin 8)
  | imm
  deriving DecidableEq, Repr

/-- An 8-bit scalar specifier (R263). `int k` is the constant k - 16, `warp k` the special value 0xC0 + k. -/
inductive SSrc where
  | s (r : Fin 128)
  | int (k : Fin 64)
  | warp (k : Fin 17)
  | w1
  deriving DecidableEq, Repr

/-- Which source of an F-V instruction is chained (CSRC, R261). -/
inductive CSrc where
  | none | a | b | c
  deriving DecidableEq, Repr

/-- The chain fields of an F-V second word (R261). -/
structure Chain where
  csrc : CSrc
  cch : Fin 4
  km1 : Fin 8
  pub : Option (Fin 4)
  deriving DecidableEq, Repr

/-- No chained source and no publish. -/
def Chain.off : Chain := { csrc := .none, cch := 0, km1 := 0, pub := Option.none }

/-- The fields of an F-V instruction (R259, R261). Positions that a form does not use hold `.v 0`. -/
structure VOp where
  g : Guard
  rnd : Rnd
  sat : Bool
  ty : Ty
  d : Fin 256
  a : Src
  b : Src
  c : Src
  imm : BitVec 32
  chain : Chain
  deriving DecidableEq, Repr

/-- Conditions of `vcmp` and `scmp` (R269, R289). -/
inductive Cond where
  | eq | ne | lt | le | gt | ge | ord | unord
  deriving DecidableEq, Repr

/-- MX element formats of the MX conversions (R299). -/
inductive MxFmt where
  | mxint8 | e4m3 | e3m2 | e2m1
  deriving DecidableEq, Repr

/-- Operations of `vscan` and `vred` (R309). -/
inductive RedOp where
  | add | min | max | and | or | xor
  deriving DecidableEq, Repr

/-- A raw predicate operand (R311). -/
structure PSrc where
  p : Fin 8
  inv : Bool
  deriving DecidableEq, Repr

/-- The fields of a predicate-group instruction (R311). -/
structure POp where
  g : Guard
  d : Fin 256
  a : PSrc
  b : PSrc
  deriving DecidableEq, Repr

/-- The fields of an F-S instruction (R262). -/
structure SOp where
  g : Guard
  sat : Bool
  ty : Ty
  d : Fin 128
  a : SSrc
  b : SSrc
  c : SSrc
  w1 : Word
  deriving DecidableEq, Repr

/-- The displacement of an F-M instruction: IMM15, or W1[31:0] when W1 is present (R265). -/
inductive Disp where
  | short (i : BitVec 15)
  | long (i : BitVec 32)
  deriving DecidableEq, Repr

/-- The fields of an F-M instruction (R264). `n` is the register count minus one. -/
structure MOp where
  g : Guard
  ty : Ty
  e : Bool
  n : Fin 8
  h : Fin 4
  oe : Bool
  off : Fin 256
  base : Fin 128
  data : Fin 256
  disp : Disp
  deriving DecidableEq, Repr

/-- Operations of the atomic forms (R269, R325). -/
inductive AtomOp where
  | add | min | max | and | or | xor | xchg | cas
  deriving DecidableEq, Repr

/-- ORD of `fence` (R164). -/
inductive FenceOrd where
  | acq | rel | ar
  deriving DecidableEq, Repr

/-- Sharing and fence scopes, narrowest first (R4). -/
inductive Scope where
  | core | die | package | domain | system
  deriving DecidableEq, Repr

/-- The common fields of a copy instruction (R340). -/
structure COp where
  g : Guard
  ssp : Bool
  dsp : Bool
  h : Fin 4
  ty : Ty
  sd : Fin 128
  sc : Fin 128
  sb : Fin 128
  sa : Fin 128
  hn : Fin 16
  deriving DecidableEq, Repr

/-- Operations of `cpy.red` (R345). -/
inductive CRedOp where
  | add | min | max | and | or | xor
  deriving DecidableEq, Repr

/-- Term formats of `cpy.cvt` and term pages (R131). -/
inductive TFmt where
  | int8 | int4 | mxint8 | e4m3 | e3m2 | e2m1
  deriving DecidableEq, Repr

/-- The common fields of a matrix instruction (R349). -/
structure XOp where
  g : Guard
  e : Fin 8
  t : Fin 8
  hn : Fin 16
  sa : Fin 128
  sb : Fin 128
  sc : Fin 128
  sd : Fin 128
  deriving DecidableEq, Repr

/-- The four mask registers of the event forms (R361). -/
structure EvOp where
  g : Guard
  sa : Fin 128
  sb : Fin 128
  sc : Fin 128
  sd : Fin 128
  deriving DecidableEq, Repr

/-- The guard and the register of `cancel.job`, which it does not read (R361, R365). -/
structure CancelOp where
  g : Guard
  sa : Fin 128
  deriving DecidableEq, Repr

/-- Selectors of `cntrd` (R366). -/
inductive CntSel where
  | lcount | lstatus | graph | phase | job | abort | cph | ev | unit | warp
  deriving DecidableEq, Repr

/-- The system registers (R247). -/
inductive SysReg where
  | trec (k : Fin 8) | tepc | tmask | route | tvec | svec
  deriving DecidableEq, Repr

/-! ### What events carry -/

/-- What a start of one die finds (R43-R48): whether the two signatures of the firmware image verify, its
security version, the digests measured, whether repair and training succeed, and the widths that the ports train at. -/
structure StartFacts where
  rsaOk : Bool
  slhOk : Bool
  secVer : Nat
  recRsaOk : Bool
  recSlhOk : Bool
  recSecVer : Nat
  romDigest : BitVec 384
  fwDigest : BitVec 384
  recDigest : BitVec 384
  repairDigest : BitVec 384
  ucodeDigest : BitVec 384
  savedOk : Bool
  serialsMatch : Bool
  repairOk : Bool
  hbmTrains : Bool
  bridgeTrains : Bool
  ports : Vector (BitVec 8) 8
  ready : Bool
  deriving DecidableEq, Repr

/-- The resource in which a memory error is found (R53). -/
inductive ErrRes where
  | core (c : Fin 192)
  | l2way (slice : Fin 64) (way : Fin 24)
  | channel (stack : Fin 12) (pc : Fin 64)
  deriving DecidableEq, Repr

/-- A location with a memory error: the resource and a place in it, which for a way or a channel is the sector, PA / 64 (log 62). -/
structure ErrLoc where
  res : ErrRes
  place : Nat
  deriving DecidableEq, Repr

/-- Who consumes uncorrectable data (R52). -/
inductive ErrUse where
  | nobody
  | warp (w : Nat) (sp : Fin 8) (lane : Fin 32) (va : Word)
  | copy (op : Nat) (va : Word)
  deriving DecidableEq, Repr

/-- What Colbuef measures over a window: average power in milliwatts (R22), and whether a die is still at a temperature that throttles it
(R23). -/
structure PowerAvg where
  die0 : Nat
  die1 : Nat
  hbm : Nat
  rest : Nat
  hot0 : Bool
  hot1 : Bool
  deriving DecidableEq, Repr

/-- A UALink request from another package (R33). -/
inductive UaReq where
  | read (addr : BitVec 41) (bytes : Nat)
  | write (addr : BitVec 41) (data : List Byte) (enable : List Bool)
  | atomic (op : AtomOp) (ty : Ty) (addr : BitVec 41) (x y : Word)
  | other (kind : Nat)
  deriving DecidableEq, Repr

/-- A packet of another package's traffic passing through a relay (R31). -/
structure UaPkt where
  src : BitVec 12
  dst : BitVec 12
  resp : Bool
  tag : Nat
  req : UaReq
  deriving DecidableEq, Repr

/-- How a PCI Express completion ends (R40). -/
inductive CplStatus where
  | ok | ur | ca
  deriving DecidableEq, Repr

/-- Where a register write lands: a block of PF BAR0 or of VF BAR0 (R37, R55). `fn` 0 is the PF. -/
structure BarAddr where
  fn : Fin 25
  off : Nat
  deriving DecidableEq, Repr

/-- What a host read reads: a register of a BAR0, or memory through BAR2, by its offset (R37, R41, R55). -/
inductive HostRead where
  | register (a : BarAddr)
  | aperture (off : Nat)
  deriving DecidableEq, Repr

/-- One constructor per row of the spec's table: the events, then the instructions. -/
inductive Instr where
  -- events (rows 0 to 73)
  | powerOn (f0 f1 : StartFacts)
  | resetRequest (cold : Bool) (f0 f1 : StartFacts)
  | startTimeout (d : Fin 2)
  | correctedError (d : Fin 2) (loc : ErrLoc) (hour : Nat)
  | uncorrectableError (d : Fin 2) (loc : ErrLoc) (use : ErrUse)
  | patrolScrub (d : Fin 2) (fixed bad : List ErrLoc) (hour : Nat)
  | powerBudgetWindow (avg : PowerAvg) (clk0 clk1 : List (BitVec 8))
  | overshootLimit (d : Fin 2) (clk : List (BitVec 8))
  | junctionOver100 (d : Fin 2) (clk : List (BitVec 8))
  | hbmOver85 (d : Fin 2) (stack : Fin 12)
  | hbmOver95 (d : Fin 2) (stack : Fin 12) (clk : List (BitVec 8))
  | coresOfflineRequest (d : Fin 2)
  | dieOfflineRequest (d : Fin 2)
  | bringUpRequest (d : Fin 2) (f : StartFacts)
  | onlineRequest (d : Fin 2)
  | bridgePacket (i : Nat)
  | bridgeAcknowledge (dir : Fin 2) (seq : Nat)
  | bridgeFlitError (dir : Fin 2)
  | bridgeRetrain (ok : Bool)
  | bridgeLaneFailure (d : Fin 2) (module : Fin 96) (spare : Bool)
  | ualinkLaneFailure (d : Fin 2) (port : Fin 8) (trains : Bool)
  | domainRequestReceived (src : BitVec 12) (tag : Nat) (r : UaReq)
  | relayForward (p : UaPkt)
  | domainCompletion (tag : Nat) (ok : Bool) (data : List Byte)
  | systemCompletion (tag : Nat) (st : CplStatus) (data : List Byte)
  | inboundHostWrite (off : Nat) (data : List Byte)
  | inboundHostRead (a : HostRead) (bytes : Nat)
  | partitionEntryWrite (n : Fin 24) (reg : Fin 8) (v : Word)
  | contextEntryWrite (c : Fin 64) (reg : Fin 8) (v : Word)
  | contextCreate (c : Fin 64)
  | contextHalt (c : Fin 64)
  | contextResume (c : Fin 64)
  | contextExport (c : Fin 64)
  | contextImport (c : Fin 64)
  | contextDestroy (c : Fin 64)
  | contextCancelJob (c : Fin 64)
  | startArgWrite (fn : Fin 25) (c : Fin 64) (entry : Option Word) (arg : Word)
  | identityRegisterWrite (d : Fin 2) (v : Word)
  | fbaseWrite (d : Fin 2) (v : Word)
  | fretWrite (d : Fin 2) (v : Word)
  | registerWrite (a : BarAddr) (bytes : Nat) (v : Word)
  | jobWarpStart (d : Fin 2)
  | faultServiceStart (d : Fin 2)
  | unitDispatch (c : Fin 64)
  | dispatchReservation (c : Fin 64)
  | unitRetire (u : Nat)
  | carveComplete (core : Fin 384)
  | overdueSplit (w : Nat) (sp : Fin 8)
  | safePointDrought (w : Nat) (sp : Fin 8)
  | coreSwapStart (core : Fin 384) (c : Fin 64)
  | coreSwapDone (core : Fin 384) (c : Fin 64)
  | unitRestore (c : Fin 64)
  | pageWalk (d : Fin 2) (i : Fin 64)
  | tlbinvComplete (op : Nat)
  | loadDataReturn (id : Nat)
  | chainBufferFill (u : Nat) (rank : Fin 32) (ch : Fin 4) (occ : Nat)
  | mailboxFill (u : Nat) (ch : Fin 4) (occ : Nat)
  | waitvReread (w : Nat) (sp : Fin 8)
  | copyElement (op : Nat)
  | dirtyclrWord (op : Nat)
  | mldwRowWrite (op : Nat)
  -- vector integer group, OP 0x00
  | vadd (o : VOp) | vsub (o : VOp) | vmul (o : VOp) | vmulh (o : VOp) | vmulw (o : VOp)
  | vmad (o : VOp) | vabs (o : VOp) | vneg (o : VOp) | vmin (o : VOp) | vmax (o : VOp)
  | vavg (o : VOp) | vsad (o : VOp) | vdot4 (o : VOp) | vand (o : VOp) | vor (o : VOp)
  | vxor (o : VOp) | vnot (o : VOp) | vbool (o : VOp) | vshl (o : VOp) | vshr (o : VOp)
  | vsra (o : VOp) | vrot (o : VOp) | vbfe (o : VOp) | vbfi (o : VOp) | vpopc (o : VOp)
  | vclz (o : VOp) | vctz (o : VOp) | vbrev (o : VOp) | vsel (o : VOp) (p : Fin 8)
  | vmov (o : VOp) | vpack (o : VOp) | vunpkLo (o : VOp) | vunpkHi (o : VOp)
  -- floating point, OP 0x01
  | vfadd (o : VOp) | vfsub (o : VOp) | vfmul (o : VOp) | vfma (o : VOp) | vfmin (o : VOp)
  | vfmax (o : VOp) | vfabs (o : VOp) | vfneg (o : VOp) | vfsgn (o : VOp) | vfrnd (o : VOp)
  | vfclass (o : VOp) | vfdot2 (o : VOp)
  -- special functions, OP 0x02
  | vrcp (o : VOp) | vrsq (o : VOp) | vsqrt (o : VOp) | vexp2 (o : VOp) | vlog2 (o : VOp)
  | vsinpi (o : VOp) | vcospi (o : VOp) | vtanh (o : VOp)
  -- compare and conversions, OP 0x03 and 0x04
  | vcmp (cond : Cond) (o : VOp)
  | vcvt (o : VOp) (src : Ty)
  | vcvtMx (o : VOp) (f : MxFmt)
  | vcvtTomx (o : VOp) (f : MxFmt)
  | vscaleMx (o : VOp) (f : MxFmt)
  -- cross-lane, OP 0x05
  | shuf (o : VOp) | shufRot (o : VOp) | shufBcast (o : VOp) | shufBfly (o : VOp) | shufMirror (o : VOp)
  | vpermSub (o : VOp) | xsel (o : VOp) (cnt : Fin 256)
  | vscan (o : VOp) (op : RedOp) (excl : Bool) | vred (o : VOp) (op : RedOp) | matchv (o : VOp)
  -- predicates, OP 0x06
  | pand (o : POp) | por (o : POp) | pxor (o : POp) | pnot (o : POp) | pmov (o : POp)
  | ballot (o : POp) | voteAny (o : POp) | voteAll (o : POp) | voteSame (o : POp)
  | pcount (o : POp) | pfirst (o : POp)
  -- expand, OP 0x07
  | xbegin (x : Fin 4) (g : Guard) (start len : Fin 256) (n : Src) (imm : BitVec 32)
  | xnext (x : Fin 4) (d : Fin 256) (pe : Fin 8)
  | xred (x : Fin 4) (g : Guard) (op : RedOp) (ty : Ty) (sat : Bool) (vdst : Fin 256) (val : Src)
      (imm : BitVec 32) (hn : Fin 16)
  | xsync (x : Fin 4)
  | xend (x : Fin 4)
  | xquery (x : Fin 4) (g : Guard) (d : Fin 256) (sel : Fin 4)
  -- scalar, OP 0x08 and 0x09
  | sadd (o : SOp) | ssub (o : SOp) | smul (o : SOp) | smulh (o : SOp) | smin (o : SOp) | smax (o : SOp)
  | sand (o : SOp) | sor (o : SOp) | sxor (o : SOp) | snot (o : SOp) | sshl (o : SOp) | sshr (o : SOp)
  | ssra (o : SOp) | sbfe (o : SOp) | sbfi (o : SOp) | spopc (o : SOp) | sclz (o : SOp) | sctz (o : SOp)
  | smov (o : SOp) | ssel (o : SOp) | scmp (cond : Cond) (o : SOp)
  | srd (g : Guard) (d : Fin 128) (k : Fin 17)
  | srdFlags (g : Guard) (d : Fin 128)
  | srdFlagsClr (g : Guard) (d : Fin 128) (b : SSrc) (w1 : Word)
  | vtos (g : Guard) (d : Fin 128) (va : Fin 256) (b : SSrc) (w1 : Word)
  -- chain, OP 0x0A
  | cdef (g : Guard) (c : Fin 4) (b : SSrc) (w1 : Word)
  | cdrop (g : Guard) (c : Fin 4)
  | cquery (g : Guard) (d : Fin 128) (c : Fin 4) (sel : Fin 3)
  -- handles, OP 0x0B
  | hwait (g : Guard) (n : Fin 16)
  | htest (g : Guard) (d : Fin 128) (n : Fin 16)
  | hcancel (g : Guard) (n : Fin 16)
  | hmovToHandle (g : Guard) (n : Fin 16) (a : SSrc) (w1 : Word)
  | hmovFromHandle (g : Guard) (d : Fin 128) (n : Fin 16)
  | hwaitany (g : Guard) (d : Fin 128) (a : SSrc) (w1 : Word)
  -- memory, OP 0x10 to 0x15
  | ld (o : MOp) | ldAcq (o : MOp) | ldSp (o : MOp) | ldS (o : MOp)
  | st (o : MOp) | stRel (o : MOp) | stSp (o : MOp)
  | atom (op : AtomOp) (o : MOp) | red (op : AtomOp) (o : MOp) | atomSp (op : AtomOp) (o : MOp)
  | fence (g : Guard) (ord : FenceOrd) (sc : Scope)
  | prefetch (o : MOp) | waitv (o : MOp)
  | l1flush (g : Guard) | l1flushInv (g : Guard)
  -- control flow and barriers, OP 0x18 and 0x19
  | bra (g : Guard) (disp : BitVec 28)
  | brd (g : Guard) (disp rejoin : BitVec 28)
  | jmpv (g : Guard) (a : Src) (rejoin : BitVec 28)
  | call (g : Guard) (disp : BitVec 28)
  | callv (g : Guard) (a : Src)
  | ret (g : Guard)
  | exit (g : Guard)
  | safept (idx : BitVec 16)
  | nop (g : Guard)
  | bar (g : Guard) (b : Fin 16) | barArv (g : Guard) (b : Fin 16) | barWt (g : Guard) (b : Fin 16)
  -- copy engines, OP 0x20
  | cpy (o : COp) | cpy2d (o : COp)
  | cpyGth (o : COp) (isp iw : Bool) | cpySct (o : COp) (isp iw : Bool)
  | cpyRed (o : COp) (op : CRedOp) | cpyFill (o : COp)
  | cpyCvt (o : COp) (sat dec wide : Bool) (f : TFmt)
  -- term engines, OP 0x21
  | mcfg (o : XOp)
  | mldw (o : XOp) (rows row0 : BitVec 8) (ssp : Bool) (bank : Fin 2) (bfmt : BitVec 4)
  | mldwNorm (o : XOp) (ssp : Bool)
  | mma (o : XOp) (row0 : BitVec 8) (kbm1 : Fin 4) (bank : Fin 2)
  | mzero (o : XOp)
  | mst (o : XOp) (ty : Ty) (scaled relu long : Bool)
  | mmovFromTile (o : XOp) (j : Fin 8) (m : Fin 32) (vr : Fin 256)
  | mmovToTile (o : XOp) (j : Fin 8) (m : Fin 32) (vr : Fin 256)
  | mtopk (o : XOp) (k : BitVec 5) (near : Bool)
  | mdist (o : XOp)
  | mbound (o : XOp) (kbm1 : Fin 4)
  | mcount (o : XOp) (kbm1 : Fin 4)
  -- work group, OP 0x28
  | launch (g : Guard) (hn : Fin 16) (sa : Fin 128)
  | evwait (o : EvOp) | evset (o : EvOp) | evclr (o : EvOp)
  | cancelLaunch (g : Guard) (sa : Fin 128) | cancelGraph (g : Guard) (sa : Fin 128)
  | cancelPhase (g : Guard) (sa : Fin 128) | cancelJob (o : CancelOp)
  | cntrd (sel : CntSel) (o : EvOp)
  | jobend (sa : Fin 128)
  -- system group, OP 0x30
  | trap (g : Guard) (a : SSrc) (w1 : Word)
  | sysrd (g : Guard) (d : Fin 128) (n : SysReg)
  | syswr (g : Guard) (n : SysReg) (b : SSrc) (w1 : Word)
  | tlbinv (g : Guard) (hn : Fin 16) (a b : SSrc) (w1 : Word)
  | ptwr (g : Guard) (d : Fin 128) (a b : SSrc) (w1 : Word)
  | carve (g : Guard) (hn : Fin 16) (a b : SSrc) (w1 : Word)
  | dirtyclr (g : Guard) (hn : Fin 16) (a b c : SSrc) (w1 : Word)
  -- restart of a faulted operation by its handler (R126, R253)
  | handlerRestart (w : Nat) (h : BitVec 32)
  -- events and instructions without fields: an event of this list names the first thing it can apply to
  | spdmRequest | thermalTrip | bridgeDown | hostLinkDown | hostLinkUp
  | domainCompletionTimeout | systemReadTimeout
  | sfuResult | vtosResult | mcountResult | chainResultWrite
  | matrixOpStart | matrixOpComplete
  | allon | alloff | phase | rett | fltnext | halt
  deriving DecidableEq, Repr

end Sys2Proof
end

