-- ==== Sys2Proof/Machine/Forms.lean ====
section
/-! DEFINITION. The forms of the instructions: for each instruction its major opcode, function code, accepted
types and modifiers, and the type of each operand position (R259-R269, R282-R318). Both the well-formedness
check and the encoder read these tables. -/

namespace Sys2Proof.Machine

/-! ### Type codes -/

/-- The 4-bit code of a type (R268). -/
def tyCode : Ty → Nat
  | .i8 => 0 | .n8 => 1 | .i16 => 2 | .n16 => 3 | .i32 => 4 | .n32 => 5 | .i64 => 6 | .n64 => 7
  | .f16 => 8 | .bf16 => 9 | .f32 => 10 | .f64 => 11 | .e4m3 => 12 | .e5m2 => 13 | .i4 => 14 | .b64 => 15

/-- The type of a 4-bit code; every code is defined (R268). -/
def tyOfCode (n : Nat) : Ty :=
  match n % 16 with
  | 0 => .i8 | 1 => .n8 | 2 => .i16 | 3 => .n16 | 4 => .i32 | 5 => .n32 | 6 => .i64 | 7 => .n64
  | 8 => .f16 | 9 => .bf16 | 10 => .f32 | 11 => .f64 | 12 => .e4m3 | 13 => .e5m2 | 14 => .i4 | _ => .b64

/-- The width of a type in bits (R268). -/
def tyWidth : Ty → Nat
  | .i4 => 4
  | .i8 | .n8 | .e4m3 | .e5m2 => 8
  | .i16 | .n16 | .f16 | .bf16 => 16
  | .i32 | .n32 | .f32 => 32
  | .i64 | .n64 | .f64 | .b64 => 64

/-- size(T) in bytes; 1 for i4 (R268). -/
def tySize : Ty → Nat
  | .i4 => 1
  | t => tyWidth t / 8

/-- Whether sub-elements are read as signed values (R283). -/
def tySigned : Ty → Bool
  | .i4 | .i8 | .i16 | .i32 | .i64 => true
  | _ => false

/-- Whether a type is an integer type or b64, which R283 reads as an integer. -/
def tyInteger : Ty → Bool
  | .f16 | .bf16 | .f32 | .f64 | .e4m3 | .e5m2 => false
  | _ => true

/-- The type of twice the width and the same signedness; i8 for i4 (R293). -/
def tyWider : Ty → Ty
  | .i4 => .i8 | .i8 => .i16 | .n8 => .n16 | .i16 => .i32 | .n16 => .n32 | .i32 => .i64 | .n32 => .n64
  | t => t

/-- The sets of types of R284. -/
def setInt : List Ty := [.i8, .n8, .i16, .n16, .i32, .n32, .i64, .n64, .b64]
/-- The set int4 (R284). -/
def setInt4 : List Ty := .i4 :: setInt
/-- The set sint (R284). -/
def setSint : List Ty := [.i4, .i8, .i16, .i32, .i64]
/-- The set half (R284). -/
def setHalf : List Ty := [.i4, .i8, .n8, .i16, .n16, .i32, .n32]
/-- The set fp (R284). -/
def setFp : List Ty := [.f16, .bf16, .f32]
/-- The set any (R284). -/
def setAny : List Ty := .f64 :: .e4m3 :: .e5m2 :: setFp ++ setInt4
/-- The types of a conversion (R298). -/
def setCvt : List Ty := [.i4, .i8, .n8, .i16, .n16, .i32, .n32, .i64, .n64, .f16, .bf16, .f32, .e4m3, .e5m2]
/-- The types of an atomic form (R318). -/
def setAtom : List Ty := [.i32, .n32, .i64, .n64]

/-! ### Codes of small fields -/

/-- RND (R259). -/
def rndCode : Rnd → Nat
  | .rne => 0 | .rtz => 1 | .rdn => 2 | .rup => 3

/-- The rounding mode of a 2-bit code. -/
def rndOfCode (n : Nat) : Rnd :=
  match n % 4 with
  | 0 => .rne | 1 => .rtz | 2 => .rdn | _ => .rup

/-- The code of a vector specifier (R260). -/
def srcCode : Src → Nat
  | .v r => r.val
  | .s r => 0x100 + r.val
  | .int k => 0x180 + k.val
  | .fp k => 0x1C0 + k.val
  | .lane k => 0x1D0 + k.val
  | .imm => 0x1E0

/-- The specifier of a 9-bit code; reserved codes have none (R260). -/
def srcOfCode (n : Nat) : Option Src :=
  if n < 0x100 then some (.v (Fin.ofNat 256 n))
  else if n < 0x180 then some (.s (Fin.ofNat 128 (n - 0x100)))
  else if n < 0x1C0 then some (.int (Fin.ofNat 64 (n - 0x180)))
  else if n < 0x1D0 then some (.fp (Fin.ofNat 16 (n - 0x1C0)))
  else if n < 0x1D8 then some (.lane (Fin.ofNat 8 (n - 0x1D0)))
  else if n = 0x1E0 then some .imm
  else none

/-- The code of a scalar specifier (R263). -/
def ssrcCode : SSrc → Nat
  | .s r => r.val
  | .int k => 0x80 + k.val
  | .warp k => 0xC0 + k.val
  | .w1 => 0xFE

/-- The scalar specifier of an 8-bit code; reserved codes have none (R263). -/
def ssrcOfCode (n : Nat) : Option SSrc :=
  if n < 0x80 then some (.s (Fin.ofNat 128 n))
  else if n < 0xC0 then some (.int (Fin.ofNat 64 (n - 0x80)))
  else if n < 0xD1 then some (.warp (Fin.ofNat 17 (n - 0xC0)))
  else if n = 0xFE then some .w1
  else none

/-- CSRC (R261). -/
def csrcCode : CSrc → Nat
  | .none => 0 | .a => 1 | .b => 2 | .c => 3

/-- The chained position of a 2-bit code. -/
def csrcOfCode (n : Nat) : CSrc :=
  match n % 4 with
  | 0 => .none | 1 => .a | 2 => .b | _ => .c

/-- The condition's FN in `vcmp` (R269). -/
def condCode : Cond → Nat
  | .eq => 0 | .ne => 1 | .lt => 2 | .le => 3 | .gt => 4 | .ge => 5 | .ord => 6 | .unord => 7

/-- The condition of a code. -/
def condOfCode (n : Nat) : Cond :=
  match n % 8 with
  | 0 => .eq | 1 => .ne | 2 => .lt | 3 => .le | 4 => .gt | 5 => .ge | 6 => .ord | _ => .unord

/-- The format code of the MX forms (R299). -/
def mxCode : MxFmt → Nat
  | .mxint8 => 3 | .e4m3 => 4 | .e3m2 => 5 | .e2m1 => 6

/-- The MX format of a code. -/
def mxOfCode (n : Nat) : Option MxFmt :=
  match n with
  | 3 => some .mxint8 | 4 => some .e4m3 | 5 => some .e3m2 | 6 => some .e2m1 | _ => none

/-- The op field of `vscan` and `vred` (R309). -/
def redCode : RedOp → Nat
  | .add => 0 | .min => 1 | .max => 2 | .and => 3 | .or => 4 | .xor => 5

/-- The reduction of a code. -/
def redOfCode (n : Nat) : Option RedOp :=
  match n with
  | 0 => some .add | 1 => some .min | 2 => some .max | 3 => some .and | 4 => some .or | 5 => some .xor
  | _ => none

/-- FN of the atomic forms (R269). -/
def atomCode : AtomOp → Nat
  | .add => 0 | .min => 1 | .max => 2 | .and => 3 | .or => 4 | .xor => 5 | .xchg => 6 | .cas => 7

/-- The atomic operation of a code. -/
def atomOfCode (n : Nat) : AtomOp :=
  match n % 8 with
  | 0 => .add | 1 => .min | 2 => .max | 3 => .and | 4 => .or | 5 => .xor | 6 => .xchg | _ => .cas

/-- X of `cpy.red` (R345). -/
def credCode : CRedOp → Nat
  | .add => 0 | .min => 1 | .max => 2 | .and => 3 | .or => 4 | .xor => 5

/-- The reduction of `cpy.red` of a code. -/
def credOfCode (n : Nat) : Option CRedOp :=
  match n with
  | 0 => some .add | 1 => some .min | 2 => some .max | 3 => some .and | 4 => some .or | 5 => some .xor
  | _ => none

/-- FMT of a term format (R131). -/
def tfmtCode : TFmt → Nat
  | .int8 => 1 | .int4 => 2 | .mxint8 => 3 | .e4m3 => 4 | .e3m2 => 5 | .e2m1 => 6

/-- The term format of a code. -/
def tfmtOfCode (n : Nat) : Option TFmt :=
  match n with
  | 1 => some .int8 | 2 => some .int4 | 3 => some .mxint8 | 4 => some .e4m3 | 5 => some .e3m2
  | 6 => some .e2m1 | _ => none

/-- SCOPE (R131, R164). -/
def scopeCode : Scope → Nat
  | .core => 0 | .die => 1 | .package => 2 | .domain => 3 | .system => 4

/-- The scope of a code. -/
def scopeOfCode (n : Nat) : Option Scope :=
  match n with
  | 0 => some .core | 1 => some .die | 2 => some .package | 3 => some .domain | 4 => some .system
  | _ => none

/-- ORD of `fence` (R164). -/
def ordCode : FenceOrd → Nat
  | .acq => 1 | .rel => 2 | .ar => 3

/-- The order of a code. -/
def ordOfCode (n : Nat) : Option FenceOrd :=
  match n with
  | 1 => some .acq | 2 => some .rel | 3 => some .ar | _ => none

/-- MODE of `cntrd` (R366). -/
def cntCode : CntSel → Nat
  | .lcount => 0 | .lstatus => 1 | .graph => 2 | .phase => 3 | .job => 4 | .abort => 5 | .cph => 6
  | .ev => 7 | .unit => 8 | .warp => 9

/-- The selector of a code. -/
def cntOfCode (n : Nat) : Option CntSel :=
  match n with
  | 0 => some .lcount | 1 => some .lstatus | 2 => some .graph | 3 => some .phase | 4 => some .job
  | 5 => some .abort | 6 => some .cph | 7 => some .ev | 8 => some .unit | 9 => some .warp | _ => none

/-- The number of a system register (R247). -/
def sysCode : SysReg → Nat
  | .trec k => k.val
  | .tepc => 8 | .tmask => 9 | .route => 0x10 | .tvec => 0x11 | .svec => 0x12

/-- The system register of a number. -/
def sysOfCode (n : Nat) : Option SysReg :=
  if n < 8 then some (.trec (Fin.ofNat 8 n))
  else if n = 8 then some .tepc
  else if n = 9 then some .tmask
  else if n = 0x10 then some .route
  else if n = 0x11 then some .tvec
  else if n = 0x12 then some .svec
  else none

/-! ### F-V forms -/

/-- How an F-V form uses its fields (R259, R282): `nsrc` source positions, the raw contents of C where C is
not a source, the accepted types, whether SAT is accepted, whether A must be a v-register, how many
destinations exist, and the types of the positions. -/
structure VForm where
  op : Nat
  fn : Nat
  o : VOp
  nsrc : Nat
  craw : Nat
  tys : List Ty
  sat : Bool
  avreg : Bool
  dmax : Nat
  ta : Ty
  tb : Ty
  tc : Ty

/-- A form whose positions all have the form's type. -/
def vplain (op fn nsrc : Nat) (tys : List Ty) (sat : Bool) (o : VOp) : VForm :=
  { op := op, fn := fn, o := o, nsrc := nsrc, craw := 0, tys := tys, sat := sat, avreg := false, dmax := 256
    ta := o.ty, tb := o.ty, tc := o.ty }

/-- Types a `vscan` or `vred` op accepts (R309). -/
def redTys : RedOp → List Ty
  | .add | .min | .max => .f32 :: setInt
  | .and | .or | .xor => setInt

/-- SAT in OP 0x05 (R306): only op add with an integer T other than b64. -/
def redSat (op : RedOp) (t : Ty) : Bool :=
  match op with
  | .add => tyInteger t
  | _ => false

/-- The F-V form of an instruction of OP 0x00 to 0x05 (R269, R292-R303, R306). -/
def vform : Instr → Option VForm
  | .vadd o => some (vplain 0 0x00 2 setInt4 true o)
  | .vsub o => some (vplain 0 0x01 2 setInt4 true o)
  | .vmul o => some (vplain 0 0x02 2 setInt true o)
  | .vmulh o => some (vplain 0 0x03 2 setInt false o)
  | .vmulw o => some (vplain 0 0x04 2 (setHalf.erase .i4) false o)
  | .vmad o => some (vplain 0 0x05 3 setInt true o)
  | .vabs o => some (vplain 0 0x06 1 setSint true o)
  | .vneg o => some (vplain 0 0x07 1 setSint true o)
  | .vmin o => some (vplain 0 0x08 2 setInt4 false o)
  | .vmax o => some (vplain 0 0x09 2 setInt4 false o)
  | .vavg o => some (vplain 0 0x0A 2 setInt false o)
  | .vsad o => some (vplain 0 0x0B 3 setInt true o)
  | .vdot4 o => some { vplain 0 0x0C 3 [.i8, .n8] true o with tc := if o.ty = .i8 then .i32 else .n32 }
  | .vand o => some (vplain 0 0x0D 2 setInt false o)
  | .vor o => some (vplain 0 0x0E 2 setInt false o)
  | .vxor o => some (vplain 0 0x0F 2 setInt false o)
  | .vnot o => some (vplain 0 0x10 1 setInt false o)
  | .vbool o => some (vplain 0 0x11 3 [.b64] false o)
  | .vshl o => some (vplain 0 0x12 2 setInt true o)
  | .vshr o => some (vplain 0 0x13 2 setInt false o)
  | .vsra o => some (vplain 0 0x14 2 setInt false o)
  | .vrot o => some (vplain 0 0x15 2 setInt false o)
  | .vbfe o => some { vplain 0 0x16 2 setInt false o with tb := .b64 }
  | .vbfi o => some { vplain 0 0x17 3 setInt false o with tc := .b64 }
  | .vpopc o => some (vplain 0 0x18 1 setInt false o)
  | .vclz o => some (vplain 0 0x19 1 setInt false o)
  | .vctz o => some (vplain 0 0x1A 1 setInt false o)
  | .vbrev o => some (vplain 0 0x1B 1 setInt false o)
  | .vsel o p => some { vplain 0 0x1C 2 setAny false o with craw := p.val }
  | .vmov o => some (vplain 0 0x1D 1 setAny false o)
  | .vpack o => some { vplain 0 0x1E 2 setHalf true o with ta := tyWider o.ty, tb := tyWider o.ty }
  | .vunpkLo o => some (vplain 0 0x1F 1 setHalf false o)
  | .vunpkHi o => some (vplain 0 0x20 1 setHalf false o)
  | .vfadd o => some (vplain 1 0x00 2 (.f64 :: setFp) true o)
  | .vfsub o => some (vplain 1 0x01 2 setFp true o)
  | .vfmul o => some (vplain 1 0x02 2 (.f64 :: setFp) true o)
  | .vfma o => some (vplain 1 0x03 3 (.f64 :: setFp) true o)
  | .vfmin o => some (vplain 1 0x04 2 (.f64 :: setFp) false o)
  | .vfmax o => some (vplain 1 0x05 2 (.f64 :: setFp) false o)
  | .vfabs o => some (vplain 1 0x06 1 setFp false o)
  | .vfneg o => some (vplain 1 0x07 1 setFp false o)
  | .vfsgn o => some (vplain 1 0x08 2 setFp false o)
  | .vfrnd o => some (vplain 1 0x09 1 setFp false o)
  | .vfclass o => some (vplain 1 0x0A 1 setFp false o)
  | .vfdot2 o => some { vplain 1 0x0B 3 [.f16, .bf16] true o with tc := .f32 }
  | .vrcp o => some (vplain 2 0x00 1 setFp false o)
  | .vrsq o => some (vplain 2 0x01 1 setFp false o)
  | .vsqrt o => some (vplain 2 0x02 1 setFp false o)
  | .vexp2 o => some (vplain 2 0x03 1 setFp false o)
  | .vlog2 o => some (vplain 2 0x04 1 setFp false o)
  | .vsinpi o => some (vplain 2 0x05 1 setFp false o)
  | .vcospi o => some (vplain 2 0x06 1 setFp false o)
  | .vtanh o => some (vplain 2 0x07 1 setFp false o)
  | .vcmp c o =>
      some { vplain 3 (condCode c) 2
              (if c = .ord ∨ c = .unord then setFp else setFp ++ setInt.erase .b64) false o with dmax := 8 }
  | .vcvt o t => some { vplain 4 0 1 (if t ∈ setCvt then setCvt else []) true o with craw := tyCode t, ta := t }
  | .vcvtMx o f => some { vplain 4 1 2 setFp true o with craw := mxCode f, tb := .b64 }
  | .vcvtTomx o f => some { vplain 4 2 2 setFp true o with craw := mxCode f, tb := .b64 }
  | .vscaleMx o f => some { vplain 4 3 1 setFp false o with craw := mxCode f }
  | .shuf o => some { vplain 5 0 2 [.b64] false o with avreg := true }
  | .shufRot o => some { vplain 5 1 2 [.b64] false o with avreg := true }
  | .shufBcast o => some { vplain 5 2 2 [.b64] false o with avreg := true }
  | .shufBfly o => some { vplain 5 3 2 [.b64] false o with avreg := true }
  | .shufMirror o => some { vplain 5 4 2 [.b64] false o with avreg := true }
  | .vpermSub o => some (vplain 5 5 2 setInt4 false o)
  | .xsel o n => some { vplain 5 6 2 [.b64] false o with avreg := true, craw := n.val }
  | .vscan o op x => some { vplain 5 7 1 (redTys op) (redSat op o.ty) o with craw := redCode op + (if x then 8 else 0) }
  | .vred o op => some { vplain 5 8 1 (redTys op) (redSat op o.ty) o with craw := redCode op }
  | .matchv o => some (vplain 5 9 1 setInt false o)
  | _ => none

/-! ### F-S forms of OP 0x08 -/

/-- How a scalar-group form uses its fields (R262, R289). -/
structure SForm where
  fn : Nat
  o : SOp
  nsrc : Nat
  craw : Nat
  sat : Bool

/-- The scalar-group form of an instruction (R269, R289). -/
def sform : Instr → Option SForm
  | .sadd o => some ⟨0x00, o, 2, 0, true⟩
  | .ssub o => some ⟨0x01, o, 2, 0, true⟩
  | .smul o => some ⟨0x02, o, 2, 0, true⟩
  | .smulh o => some ⟨0x03, o, 2, 0, false⟩
  | .smin o => some ⟨0x04, o, 2, 0, false⟩
  | .smax o => some ⟨0x05, o, 2, 0, false⟩
  | .sand o => some ⟨0x06, o, 2, 0, false⟩
  | .sor o => some ⟨0x07, o, 2, 0, false⟩
  | .sxor o => some ⟨0x08, o, 2, 0, false⟩
  | .snot o => some ⟨0x09, o, 1, 0, false⟩
  | .sshl o => some ⟨0x0A, o, 2, 0, true⟩
  | .sshr o => some ⟨0x0B, o, 2, 0, false⟩
  | .ssra o => some ⟨0x0C, o, 2, 0, false⟩
  | .sbfe o => some ⟨0x0D, o, 2, 0, false⟩
  | .sbfi o => some ⟨0x0E, o, 3, 0, false⟩
  | .spopc o => some ⟨0x0F, o, 1, 0, false⟩
  | .sclz o => some ⟨0x10, o, 1, 0, false⟩
  | .sctz o => some ⟨0x11, o, 1, 0, false⟩
  | .smov o => some ⟨0x12, o, 1, 0, false⟩
  | .ssel o => some ⟨0x13, o, 3, 0, false⟩
  | .scmp c o => some ⟨0x14, o, 2, 0x90 + condCode c, false⟩
  | _ => none

/-! ### Legality -/

/-- The guard of an unguarded form: GP = 7, GI = 0 (R257). -/
def guardNone : Guard := { pred := 7, inv := false }

/-- The reserved guard is GP = 7 with GI = 1 (R257). -/
def guardOk (g : Guard) : Bool := !(g.pred == 7 && g.inv)

/-- Whether a specifier may stand in a position of a type (R260): no integer constant in an 8-bit float
position, FP constants only in f16, bf16, f32 and f64 positions. -/
def srcOk (t : Ty) : Src → Bool
  | .int _ => !(t == .e4m3 || t == .e5m2)
  | .fp _ => t == .f16 || t == .bf16 || t == .f32 || t == .f64
  | _ => true

/-- Whether a specifier is a v-register. -/
def srcIsV : Src → Bool
  | .v _ => true
  | _ => false

/-- Whether an F-V instruction holds a second word (R261). -/
def vLong (o : VOp) : Bool :=
  o.a == .imm || o.b == .imm || o.c == .imm || o.chain.csrc != .none || o.chain.pub.isSome

/-- The specifier of a chained position. -/
def vChained (o : VOp) : Option Src :=
  match o.chain.csrc with
  | .none => Option.none
  | .a => some o.a
  | .b => some o.b
  | .c => some o.c

/-- The chain fields an instruction of an opcode may hold (R234, R261). -/
def chainOk (op nsrc : Nat) (o : VOp) : Bool :=
  (match o.chain.csrc with
   | .none => o.chain.cch == 0 && o.chain.km1 == 0
   | .a => op ≤ 4 && srcIsV o.a
   | .b => op ≤ 4 && 2 ≤ nsrc && srcIsV o.b
   | .c => op ≤ 4 && 3 ≤ nsrc && srcIsV o.c) &&
  (o.chain.pub.isNone || op == 0 || op == 1 || op == 4)

/-- Whether an F-V instruction is one that R258 lets issue. -/
def vlegal (f : VForm) : Bool :=
  guardOk f.o.g && f.tys.contains f.o.ty
    && (f.op == 1 || f.op == 4 || f.o.rnd == .rne)
    && (!f.o.sat || (f.sat && f.o.ty != .b64))
    && decide (f.o.d.val < f.dmax)
    && srcOk f.ta f.o.a && (2 ≤ f.nsrc || f.o.b == .v 0) && (f.nsrc < 2 || srcOk f.tb f.o.b)
    && (3 ≤ f.nsrc || f.o.c == .v 0) && (f.nsrc < 3 || srcOk f.tc f.o.c)
    && (!f.avreg || srcIsV f.o.a)
    && (f.o.a == .imm || f.o.b == .imm || f.o.c == .imm || f.o.imm == 0)
    && chainOk f.op f.nsrc f.o

/-- Whether an F-S operand list holds a second word (R263). -/
def sLong (o : SOp) : Bool := o.a == .w1 || o.b == .w1 || o.c == .w1

/-- Whether a scalar-group instruction is one that R258 and R289 let issue. -/
def slegal (f : SForm) : Bool :=
  guardOk f.o.g && setInt.contains f.o.ty && (!f.o.sat || (f.sat && f.o.ty != .b64))
    && (2 ≤ f.nsrc || f.o.b == .s 0) && (3 ≤ f.nsrc || f.o.c == .s 0)
    && (sLong f.o || f.o.w1 == 0)

/-- Legality of a predicate-group instruction (R311): unused B is zero, and a predicate or s-register
destination lies in range. -/
def plegal (o : POp) (two : Bool) (dmax : Nat) : Bool :=
  guardOk o.g && (two || o.b == { p := 0, inv := false }) && decide (o.d.val < dmax)

/-- Legality of the common F-M fields (R264, R265, R318). -/
def mcommon (o : MOp) : Bool :=
  guardOk o.g && (o.oe || o.off == 0) && (!o.e || (o.n == 0 && o.ty != .i4))

/-- Legality of a load or store (R318): any T but f64, and hint zero in scratch. -/
def ldstLegal (o : MOp) (scratch : Bool) : Bool :=
  mcommon o && o.ty != .f64 && (!scratch || o.h == 0)

/-- Legality of an atomic form (R264, R318). -/
def atomLegal (op : AtomOp) (o : MOp) (scratch : Bool) : Bool :=
  mcommon o && o.e && (setAtom.contains o.ty || (o.ty == .f32 && op == .add)) && (!scratch || o.h == 0)

/-- W1 of an F-S form with one w1-capable operand. -/
def w1Ok (specs : List SSrc) (w1 : Word) : Bool := specs.contains .w1 || w1 == 0

/-- Types of the raw copy forms (R343). -/
def setCopy : List Ty := [.n8, .n16, .n32, .n64, .b64]

/-- The plain types of `cpy.cvt` (R346). -/
def cvtTys (f : TFmt) (dec : Bool) : List Ty :=
  match f, dec with
  | .int8, false => [.i8]
  | .int8, true => [.i8, .i16, .i32, .f16, .bf16, .f32]
  | .int4, false => [.i4]
  | .int4, true => [.i4, .i8, .i16, .i32, .f16, .bf16, .f32]
  | _, _ => [.f16, .bf16, .f32]

/-- Legality of a copy instruction: guard, type, and an operand register left unused. -/
def clegal (o : COp) (tys : List Ty) (sdUsed : Bool) : Bool :=
  guardOk o.g && tys.contains o.ty && (sdUsed || o.sd == 0)

/-- Legality of a matrix instruction: guard and the fields a form does not name (R349, R350). -/
def xlegal (o : XOp) (tile hn sa sb sc sd : Bool) : Bool :=
  guardOk o.g && (tile || o.t == 0) && (hn || o.hn == 0) && (sa || o.sa == 0) && (sb || o.sb == 0)
    && (sc || o.sc == 0) && (sd || o.sd == 0)

/-- Whether an instruction is one that the words of R258 let issue. Events hold. -/
def legal (i : Instr) : Bool :=
  match vform i, sform i with
  | some f, _ => vlegal f
  | _, some f =>
    slegal f && (match i with
      | .scmp .ord _ | .scmp .unord _ => false
      | _ => true)
  | none, none =>
    match i with
    | .pand o | .por o | .pxor o => plegal o true 8
    | .pnot o | .pmov o | .voteAny o | .voteAll o | .voteSame o => plegal o false 8
    | .ballot o | .pfirst o => plegal o false 128
    | .pcount o => plegal o false 256
    | .xbegin _ g _ _ n imm => guardOk g && srcOk .b64 n && (n == .imm || imm == 0)
    | .xred _ g op ty sat _ val imm _ =>
      guardOk g && [Ty.i32, .n32, .i64, .n64, .f32].contains ty && (op == .add || op == .min || op == .max)
        && (!sat || (op == .add && ty != .f32)) && srcOk ty val && (val == .imm || imm == 0)
    | .xquery _ g _ _ => guardOk g
    | .srd g _ _ | .srdFlags g _ => guardOk g
    | .srdFlagsClr g _ b w | .cdef g _ b w => guardOk g && w1Ok [b] w
    | .vtos g _ _ b w => guardOk g && w1Ok [b] w
    | .cdrop g _ | .cquery g _ _ _ => guardOk g
    | .hwait g _ | .htest g _ _ | .hcancel g _ | .hmovFromHandle g _ _ => guardOk g
    | .hmovToHandle g _ a w | .hwaitany g _ a w => guardOk g && w1Ok [a] w
    | .ld o | .ldAcq o | .st o | .stRel o => ldstLegal o false
    | .ldSp o | .stSp o => ldstLegal o true
    | .ldS o => ldstLegal o false && !o.oe && o.n == 0 && decide (o.data.val < 128)
    | .atom op o | .red op o => atomLegal op o false
    | .atomSp op o => atomLegal op o true
    | .fence g _ _ => guardOk g
    | .prefetch o => mcommon o && o.e && o.ty != .f64 && o.data == 0
    | .waitv o => mcommon o && o.e && setAtom.contains o.ty && o.h == 0
    | .l1flush g | .l1flushInv g => guardOk g
    | .bra g _ | .brd g _ _ | .call g _ | .ret g | .exit g | .nop g => guardOk g
    | .bar g _ | .barArv g _ | .barWt g _ => guardOk g
    | .jmpv g a _ | .callv g a => guardOk g && (srcIsV a || match a with | .s _ => true | _ => false)
    | .cpy o => clegal o setCopy false
    | .cpy2d o | .cpyGth o _ _ | .cpySct o _ _ => clegal o setCopy true
    | .cpyFill o => clegal o setCopy false && !o.ssp
    | .cpyRed o op => clegal o (if op = .add then .f32 :: setAtom else setAtom) false
    | .cpyCvt o sat dec wide f =>
      clegal o (cvtTys f dec) false && (!sat || !(f == .int8 || f == .int4))
        && (!wide || (if dec then o.ssp else o.dsp))
    | .mcfg o => xlegal o false false true false false false
    | .mldw o _ _ _ _ _ => xlegal o false true true true true false
    | .mldwNorm o _ => xlegal o false true true false false false
    | .mma o _ _ _ => xlegal o true true true true false false
    | .mzero o => xlegal o true true false false false false
    | .mst o ty scaled relu long =>
      xlegal o true true true true scaled scaled && [Ty.i8, .e4m3, .bf16, .f32].contains ty
        && (long || (!scaled && !relu))
    | .mmovFromTile o _ _ _ | .mmovToTile o _ _ _ => xlegal o true true false false false false
    | .mtopk o _ _ => xlegal o true true true true false false
    | .mdist o => xlegal o true true true false false false
    | .mbound o _ => xlegal o false false false false false true
    | .mcount o _ => xlegal o false false true true false true
    | .launch g _ _ => guardOk g
    | .evwait o | .evset o | .evclr o => guardOk o.g
    | .cancelLaunch g _ | .cancelGraph g _ | .cancelPhase g _ => guardOk g
    | .cancelJob o => guardOk o.g
    | .cntrd _ o => guardOk o.g
    | .trap g a w => guardOk g && w1Ok [a] w
    | .sysrd g _ _ => guardOk g
    | .syswr g n b w =>
      guardOk g && w1Ok [b] w && (match n with
        | .trec _ | .tmask => false
        | _ => true)
    | .tlbinv g _ a b w | .ptwr g _ a b w | .carve g _ a b w => guardOk g && w1Ok [a, b] w
    | .dirtyclr g _ a b c w => guardOk g && w1Ok [a, b, c] w
    | _ => true

end Sys2Proof.Machine
end

