-- ==== Sys2Proof/WellFormed.lean ====
section
/-! DEFINITION. Well-formed instructions: those that some words may hold and issue (R258). An event is well
formed; it has no words. -/

namespace Sys2Proof

/-- Whether an instruction is one that R258 lets issue. The rows of the table are in `Machine.legal`. -/
def wellFormed (i : Instr) : Bool := Machine.legal i

end Sys2Proof
end

