-- ==== Sys2Proof/Decode.lean ====
section
/-! DEFINITION. From words to instructions and back (R256-R269). A format is a list of field widths, lowest
first; `pack` and `unpack` go between field values and a word. The decoder reads the fields, finds the form
that the opcode map of R269 gives, and takes it only where the words are that form's words bit for bit. -/

namespace Sys2Proof

open Sys2Proof.Machine

/-! ### Fields and words -/

/-- The number whose fields of the given widths, lowest first, hold the given values. -/
def pack : List Nat → List Nat → Nat
  | w :: ws, v :: vs => v % 2 ^ w + 2 ^ w * pack ws vs
  | _, _ => 0

/-- The fields of the given widths of a number, lowest first. -/
def unpack : List Nat → Nat → List Nat
  | [], _ => []
  | w :: ws, x => x % 2 ^ w :: unpack ws (x / 2 ^ w)

/-- The word with the given field values. -/
def wordOf (ws vs : List Nat) : Word := BitVec.ofNat 64 (pack ws vs)

/-- A Boolean field. -/
def bit (b : Bool) : Nat := if b then 1 else 0

/-- F-V: L, OP, GP, GI, D, A, B, C, T, FN, SAT, RND, reserved (R257, R259). -/
def fmtV : List Nat := [1, 7, 3, 1, 8, 9, 9, 9, 4, 8, 1, 2, 2]
/-- W1 of F-V: IMM32, KM1, CCH, CSRC, PUB, PCH, reserved (R261). -/
def fmtV1 : List Nat := [32, 3, 2, 2, 1, 2, 22]
/-- F-S: L, OP, GP, GI, D, reserved, A, B, C, T, FN, SAT, reserved (R262). -/
def fmtS : List Nat := [1, 7, 3, 1, 7, 1, 8, 8, 8, 4, 8, 1, 7]
/-- F-M: L, OP, GP, GI, DATA, BASE, OFF, OE, T, H, N, E, FN, IMM15 (R264). -/
def fmtM : List Nat := [1, 7, 3, 1, 8, 7, 8, 1, 4, 2, 3, 1, 3, 15]
/-- F-B: L, OP, GP, GI, DISP, A, FN, reserved (R266). -/
def fmtB : List Nat := [1, 7, 3, 1, 28, 9, 7, 8]
/-- F-A: L, OP, GP, GI, HN, SA, SB, SC, SD, T, FN, MODE (R267). -/
def fmtA : List Nat := [1, 7, 3, 1, 4, 7, 7, 7, 7, 4, 8, 8]
/-- W1 of `cpy.cvt`: FMT, CLASS, DIR, reserved, SAT, reserved (R346). -/
def fmtCvt : List Nat := [4, 1, 1, 1, 1, 56]
/-- W1 of `mldw`: BFMT, BANK, SSP, NORM, reserved, ROW0, ROWS, reserved (R352). -/
def fmtLdw : List Nat := [4, 1, 1, 1, 1, 8, 8, 40]
/-- W1 of `mma`: BANK, reserved, KBM1, reserved, ROW0, reserved (R353). -/
def fmtMma : List Nat := [1, 3, 2, 2, 8, 48]
/-- W1 of `mst`: SCALED, RELU, reserved (R355). -/
def fmtMst : List Nat := [1, 1, 62]
/-- W1 of `mmov`: VR, M, J, DIR, reserved (R354). -/
def fmtMov : List Nat := [8, 5, 3, 1, 47]
/-- W1 of `mtopk`: k, NEAR, reserved (R356). -/
def fmtTopk : List Nat := [5, 1, 58]
/-- W1 of `mbound` and `mcount`: zero, KBM1, zero (R358). -/
def fmtKb : List Nat := [4, 2, 58]
/-- W1 of `brd` and `jmpv`: rejoin, reserved (R266, R312); and of F-M: displacement, zero (R265). -/
def fmtRejoin : List Nat := [28, 36]
/-- W1 of F-M: displacement, zero (R265). -/
def fmtDisp : List Nat := [32, 32]

/-! ### The decoder's forms -/

/-- Why a decoder refuses words (R258). -/
inductive Reject where
  /-- The major opcode is reserved (R269). -/
  | reservedOp
  /-- The function, a specifier or another field holds a value that its form does not accept (R258). -/
  | illegal
  deriving DecidableEq, Repr

/-- What the decoder answers. -/
inductive Decoded where
  | ok (i : Instr)
  | bad (r : Reject)
  deriving DecidableEq, Repr

/-- The functions of OP 0x00 (R269). `c` is the raw third specifier. -/
def cand00 (fn : Nat) (o : VOp) (c : Nat) : Option Instr :=
  match fn with
  | 0 => some (.vadd o)
  | 1 => some (.vsub o)
  | 2 => some (.vmul o)
  | 3 => some (.vmulh o)
  | 4 => some (.vmulw o)
  | 5 => some (.vmad o)
  | 6 => some (.vabs o)
  | 7 => some (.vneg o)
  | 8 => some (.vmin o)
  | 9 => some (.vmax o)
  | 10 => some (.vavg o)
  | 11 => some (.vsad o)
  | 12 => some (.vdot4 o)
  | 13 => some (.vand o)
  | 14 => some (.vor o)
  | 15 => some (.vxor o)
  | 16 => some (.vnot o)
  | 17 => some (.vbool o)
  | 18 => some (.vshl o)
  | 19 => some (.vshr o)
  | 20 => some (.vsra o)
  | 21 => some (.vrot o)
  | 22 => some (.vbfe o)
  | 23 => some (.vbfi o)
  | 24 => some (.vpopc o)
  | 25 => some (.vclz o)
  | 26 => some (.vctz o)
  | 27 => some (.vbrev o)
  | 28 => some (.vsel { o with c := .v 0 } (Fin.ofNat 8 c))
  | 29 => some (.vmov o)
  | 30 => some (.vpack o)
  | 31 => some (.vunpkLo o)
  | 32 => some (.vunpkHi o)
  | _ => none

/-- The functions of OP 0x01 (R269). -/
def cand01 (fn : Nat) (o : VOp) : Option Instr :=
  match fn with
  | 0 => some (.vfadd o)
  | 1 => some (.vfsub o)
  | 2 => some (.vfmul o)
  | 3 => some (.vfma o)
  | 4 => some (.vfmin o)
  | 5 => some (.vfmax o)
  | 6 => some (.vfabs o)
  | 7 => some (.vfneg o)
  | 8 => some (.vfsgn o)
  | 9 => some (.vfrnd o)
  | 10 => some (.vfclass o)
  | 11 => some (.vfdot2 o)
  | _ => none

/-- The functions of OP 0x02 (R269). -/
def cand02 (fn : Nat) (o : VOp) : Option Instr :=
  match fn with
  | 0 => some (.vrcp o)
  | 1 => some (.vrsq o)
  | 2 => some (.vsqrt o)
  | 3 => some (.vexp2 o)
  | 4 => some (.vlog2 o)
  | 5 => some (.vsinpi o)
  | 6 => some (.vcospi o)
  | 7 => some (.vtanh o)
  | _ => none

/-- The functions of OP 0x08 but `scmp` (R269). -/
def cand08 (fn : Nat) (o : SOp) : Option Instr :=
  match fn with
  | 0 => some (.sadd o)
  | 1 => some (.ssub o)
  | 2 => some (.smul o)
  | 3 => some (.smulh o)
  | 4 => some (.smin o)
  | 5 => some (.smax o)
  | 6 => some (.sand o)
  | 7 => some (.sor o)
  | 8 => some (.sxor o)
  | 9 => some (.snot o)
  | 10 => some (.sshl o)
  | 11 => some (.sshr o)
  | 12 => some (.ssra o)
  | 13 => some (.sbfe o)
  | 14 => some (.sbfi o)
  | 15 => some (.spopc o)
  | 16 => some (.sclz o)
  | 17 => some (.sctz o)
  | 18 => some (.smov o)
  | 19 => some (.ssel o)
  | _ => none

/-- A guard from its fields. -/
def guardOf (gp gi : Nat) : Guard := { pred := Fin.ofNat 8 gp, inv := gi == 1 }

/-- The functions of OP 0x04 (R269, R298, R299); `c` is raw. -/
def cand04 (fn : Nat) (o : VOp) (c : Nat) : Option Instr :=
  match fn with
  | 0 => some (.vcvt o (tyOfCode c))
  | 1 => (mxOfCode c).map fun f => .vcvtMx o f
  | 2 => (mxOfCode c).map fun f => .vcvtTomx o f
  | 3 => (mxOfCode c).map fun f => .vscaleMx o f
  | _ => none

/-- The functions of OP 0x05 (R269, R306); `c` is raw. -/
def cand05 (fn : Nat) (o : VOp) (c : Nat) : Option Instr :=
  match fn with
  | 0 => some (.shuf o)
  | 1 => some (.shufRot o)
  | 2 => some (.shufBcast o)
  | 3 => some (.shufBfly o)
  | 4 => some (.shufMirror o)
  | 5 => some (.vpermSub o)
  | 6 => some (.xsel o (Fin.ofNat 256 c))
  | 7 => (redOfCode (c % 8)).map fun r => .vscan o r (c / 8 == 1)
  | 8 => (redOfCode (c % 8)).map fun r => .vred o r
  | 9 => some (.matchv o)
  | _ => none

/-- An F-V instruction of OP 0x00 to 0x05 (R259-R261, R269). -/
def candV : List Nat → List Nat → Option Instr
  | [_, op, gp, gi, d, a, b, c, t, fn, sat, rnd, _], [imm, km1, cch, csrc, pub, pch, _] =>
    (srcOfCode a).bind fun sa => (srcOfCode b).bind fun sb =>
      let raw := op == 4 || op == 5
      (if raw then some (.v 0) else srcOfCode c).bind fun sc =>
        let o : VOp :=
          { g := guardOf gp gi, rnd := rndOfCode rnd, sat := sat == 1, ty := tyOfCode t, d := Fin.ofNat 256 d
            a := sa, b := sb, c := sc, imm := BitVec.ofNat 32 imm
            chain := { csrc := csrcOfCode csrc, cch := Fin.ofNat 4 cch, km1 := Fin.ofNat 8 km1
                       pub := if pub = 1 then some (Fin.ofNat 4 pch) else none } }
        match op with
        | 0 => cand00 fn o c
        | 1 => cand01 fn o
        | 2 => cand02 fn o
        | 3 => some (.vcmp (condOfCode fn) o)
        | 4 => cand04 fn o c
        | _ => cand05 fn o c
  | _, _ => none

/-- A raw predicate operand (R311). -/
def psrcOf (n : Nat) : PSrc := { p := Fin.ofNat 8 n, inv := (n / 8) % 2 == 1 }

/-- A predicate-group instruction, OP 0x06 (R311). -/
def candP : List Nat → Option Instr
  | [_, _, gp, gi, d, a, b, _, _, fn, _, _, _] =>
    let o : POp := { g := guardOf gp gi, d := Fin.ofNat 256 d, a := psrcOf a, b := psrcOf b }
    match fn with
    | 0 => some (.pand o)
    | 1 => some (.por o)
    | 2 => some (.pxor o)
    | 3 => some (.pnot o)
    | 4 => some (.pmov o)
    | 5 => some (.ballot o)
    | 6 => some (.voteAny o)
    | 7 => some (.voteAll o)
    | 8 => some (.voteSame o)
    | 9 => some (.pcount o)
    | 10 => some (.pfirst o)
    | _ => none
  | _ => none

/-- An expand instruction, OP 0x07 (R229). -/
def candX : List Nat → Nat → Option Instr
  | [_, _, gp, gi, d, a, b, c, t, fn, sat, rnd, _], imm =>
    let g := guardOf gp gi
    let x := Fin.ofNat 4 rnd
    match fn with
    | 0 => (srcOfCode c).map fun n => .xbegin x g (Fin.ofNat 256 a) (Fin.ofNat 256 b) n (BitVec.ofNat 32 imm)
    | 1 => some (.xnext x (Fin.ofNat 256 d) (Fin.ofNat 8 b))
    | 2 =>
      (srcOfCode a).bind fun v => (redOfCode b).map fun op =>
        .xred x g op (tyOfCode t) (sat == 1) (Fin.ofNat 256 d) v (BitVec.ofNat 32 imm) (Fin.ofNat 16 c)
    | 3 => some (.xsync x)
    | 4 => some (.xend x)
    | 5 => some (.xquery x g (Fin.ofNat 256 d) (Fin.ofNat 4 b))
    | _ => none
  | _, _ => none

/-- An F-S instruction (R262, R263, R289-R291, R241, R334, R368). -/
def candS : List Nat → Word → Option Instr
  | [_, op, gp, gi, d, _, a, b, c, t, fn, sat, _], w1 =>
    let g := guardOf gp gi
    let sd := Fin.ofNat 128 d
    let hd := Fin.ofNat 16 d
    match op, fn with
    | 8, 20 =>
      (ssrcOfCode a).bind fun sa => (ssrcOfCode b).map fun sb =>
        .scmp (condOfCode (c - 0x90)) { g := g, sat := sat == 1, ty := tyOfCode t, d := sd, a := sa, b := sb, c := .s 0, w1 := w1 }
    | 8, fn =>
      (ssrcOfCode a).bind fun sa => (ssrcOfCode b).bind fun sb => (ssrcOfCode c).bind fun sc =>
        cand08 fn { g := g, sat := sat == 1, ty := tyOfCode t, d := sd, a := sa, b := sb, c := sc, w1 := w1 }
    | 9, 0 =>
      if a = 0x90 then some (.srdFlags g sd)
      else if a = 0x91 then (ssrcOfCode b).map fun sb => .srdFlagsClr g sd sb w1
      else some (.srd g sd (Fin.ofNat 17 (a - 0xC0)))
    | 9, 1 => (ssrcOfCode b).map fun sb => .vtos g sd (Fin.ofNat 256 a) sb w1
    | 10, 0 => (ssrcOfCode b).map fun sb => .cdef g (Fin.ofNat 4 (a - 0x90)) sb w1
    | 10, 1 => some (.cdrop g (Fin.ofNat 4 (a - 0x90)))
    | 10, 2 => some (.cquery g sd (Fin.ofNat 4 (a - 0x90)) (Fin.ofNat 3 (b - 0x90)))
    | 11, 0 => some (.hwait g (Fin.ofNat 16 a))
    | 11, 1 => some (.htest g sd (Fin.ofNat 16 a))
    | 11, 2 => some (.hcancel g (Fin.ofNat 16 a))
    | 11, 3 =>
      if b = 0x90 then (ssrcOfCode a).map fun sa => .hmovToHandle g hd sa w1
      else some (.hmovFromHandle g sd (Fin.ofNat 16 a))
    | 11, 4 => (ssrcOfCode a).map fun sa => .hwaitany g sd sa w1
    | 48, 0 => (ssrcOfCode a).map fun sa => .trap g sa w1
    | 48, 1 => some .rett
    | 48, 2 => (sysOfCode (a - 0x90)).map fun n => .sysrd g sd n
    | 48, 3 => (sysOfCode (a - 0x90)).bind fun n => (ssrcOfCode b).map fun sb => .syswr g n sb w1
    | 48, 4 => (ssrcOfCode a).bind fun sa => (ssrcOfCode b).map fun sb => .tlbinv g hd sa sb w1
    | 48, 5 => (ssrcOfCode a).bind fun sa => (ssrcOfCode b).map fun sb => .ptwr g sd sa sb w1
    | 48, 6 => (ssrcOfCode a).bind fun sa => (ssrcOfCode b).map fun sb => .carve g hd sa sb w1
    | 48, 7 =>
      (ssrcOfCode a).bind fun sa => (ssrcOfCode b).bind fun sb => (ssrcOfCode c).map fun sc =>
        .dirtyclr g hd sa sb sc w1
    | 48, 8 => some .fltnext
    | 48, 9 => some .halt
    | _, _ => none
  | _, _ => none

/-- An F-M instruction (R164, R264, R265, R318, R329). -/
def candM : List Nat → Option Nat → Option Instr
  | [_, op, gp, gi, data, base, off, oe, t, h, n, e, fn, imm], w1 =>
    let o : MOp :=
      { g := guardOf gp gi, ty := tyOfCode t, e := e == 1, n := Fin.ofNat 8 n, h := Fin.ofNat 4 h, oe := oe == 1
        off := Fin.ofNat 256 off, base := Fin.ofNat 128 base, data := Fin.ofNat 256 data
        disp := match w1 with
          | none => .short (BitVec.ofNat 15 imm)
          | some x => .long (BitVec.ofNat 32 x) }
    match op, fn with
    | 16, 0 => some (.ld o)
    | 16, 1 => some (.ldAcq o)
    | 16, 2 => some (.ldSp o)
    | 16, 3 => some (.ldS o)
    | 17, 0 => some (.st o)
    | 17, 1 => some (.stRel o)
    | 17, 2 => some (.stSp o)
    | 18, fn => some (.atom (atomOfCode fn) o)
    | 19, fn => some (.red (atomOfCode fn) o)
    | 20, fn => some (.atomSp (atomOfCode fn) o)
    | 21, 0 =>
      (ordOfCode (imm / 8)).bind fun ord => (scopeOfCode (imm % 8)).map fun sc => .fence o.g ord sc
    | 21, 1 => some (.prefetch o)
    | 21, 2 => some (.waitv o)
    | 21, 3 => some (if imm = 1 then .l1flushInv o.g else .l1flush o.g)
    | _, _ => none
  | _, _ => none

/-- An F-B instruction (R266, R312, R330). -/
def candB : List Nat → Nat → Option Instr
  | [_, op, gp, gi, disp, a, fn, _], rejoin =>
    let g := guardOf gp gi
    let dw := BitVec.ofNat 28 disp
    match op, fn with
    | 24, 0 => some (.bra g dw)
    | 24, 1 => some (.brd g dw (BitVec.ofNat 28 rejoin))
    | 24, 2 => (srcOfCode a).map fun sa => .jmpv g sa (BitVec.ofNat 28 rejoin)
    | 24, 3 => some (.call g dw)
    | 24, 4 => (srcOfCode a).map fun sa => .callv g sa
    | 24, 5 => some (.ret g)
    | 24, 6 => some (.exit g)
    | 24, 7 => some .allon
    | 24, 8 => some .alloff
    | 24, 9 => some (.safept (BitVec.ofNat 16 disp))
    | 24, 10 => some (.nop g)
    | 25, 0 => some (.bar g (Fin.ofNat 16 disp))
    | 25, 1 => some (.barArv g (Fin.ofNat 16 disp))
    | 25, 2 => some (.barWt g (Fin.ofNat 16 disp))
    | _, _ => none
  | _, _ => none

/-- A copy instruction, OP 0x20 (R340-R346). -/
def candC : List Nat → List Nat → Option Instr
  | [_, _, gp, gi, hn, sa, sb, sc, sd, t, fn, mode], [fmt, wide, dir, _, sat, _] =>
    let o : COp :=
      { g := guardOf gp gi, ssp := (mode / 64) % 2 == 1, dsp := (mode / 32) % 2 == 1, h := Fin.ofNat 4 (mode / 8)
        ty := tyOfCode t, sd := Fin.ofNat 128 sd, sc := Fin.ofNat 128 sc, sb := Fin.ofNat 128 sb
        sa := Fin.ofNat 128 sa, hn := Fin.ofNat 16 hn }
    let isp := (mode / 4) % 2 == 1
    let iw := (mode / 2) % 2 == 1
    match fn with
    | 0 => some (.cpy o)
    | 1 => some (.cpy2d o)
    | 2 => some (.cpyGth o isp iw)
    | 3 => some (.cpySct o isp iw)
    | 4 => (credOfCode (mode % 8)).map fun op => .cpyRed o op
    | 5 => some (.cpyFill o)
    | 6 => (tfmtOfCode fmt).map fun f => .cpyCvt o (sat == 1) (dir == 1) (wide == 1) f
    | _ => none
  | _, _ => none

/-- A matrix instruction, OP 0x21 (R349-R358). -/
def candX2 : List Nat → Nat → Bool → Option Instr
  | [_, _, gp, gi, hn, sa, sb, sc, sd, t, fn, mode], w1, long =>
    let o : XOp :=
      { g := guardOf gp gi, e := Fin.ofNat 8 mode, t := Fin.ofNat 8 (mode / 8), hn := Fin.ofNat 16 hn
        sa := Fin.ofNat 128 sa, sb := Fin.ofNat 128 sb, sc := Fin.ofNat 128 sc, sd := Fin.ofNat 128 sd }
    match fn with
    | 0 => some (.mcfg o)
    | 1 =>
      match unpack fmtLdw w1 with
      | [bfmt, bank, ssp, norm, _, row0, rows, _] =>
        if norm = 1 then some (.mldwNorm o (ssp == 1))
        else some (.mldw o (BitVec.ofNat 8 rows) (BitVec.ofNat 8 row0) (ssp == 1) (Fin.ofNat 2 bank) (BitVec.ofNat 4 bfmt))
      | _ => none
    | 2 =>
      match unpack fmtMma w1 with
      | [bank, _, kbm1, _, row0, _] => some (.mma o (BitVec.ofNat 8 row0) (Fin.ofNat 4 kbm1) (Fin.ofNat 2 bank))
      | _ => none
    | 3 => some (.mzero o)
    | 4 =>
      match unpack fmtMst w1 with
      | [scaled, relu, _] => some (.mst o (tyOfCode t) (scaled == 1) (relu == 1) long)
      | _ => none
    | 5 =>
      match unpack fmtMov w1 with
      | [vr, m, j, dir, _] =>
        if dir = 0 then some (.mmovFromTile o (Fin.ofNat 8 j) (Fin.ofNat 32 m) (Fin.ofNat 256 vr))
        else some (.mmovToTile o (Fin.ofNat 8 j) (Fin.ofNat 32 m) (Fin.ofNat 256 vr))
      | _ => none
    | 6 =>
      match unpack fmtTopk w1 with
      | [k, near, _] => some (.mtopk o (BitVec.ofNat 5 k) (near == 1))
      | _ => none
    | 7 => some (.mdist o)
    | 8 =>
      match unpack fmtKb w1 with
      | [_, kbm1, _] => some (.mbound o (Fin.ofNat 4 kbm1))
      | _ => none
    | 9 =>
      match unpack fmtKb w1 with
      | [_, kbm1, _] => some (.mcount o (Fin.ofNat 4 kbm1))
      | _ => none
    | _ => none
  | _, _, _ => none

/-- A work instruction, OP 0x28 (R361-R367). -/
def candW : List Nat → Option Instr
  | [_, _, gp, gi, hn, sa, sb, sc, sd, _, fn, mode] =>
    let o : EvOp :=
      { g := guardOf gp gi, sa := Fin.ofNat 128 sa, sb := Fin.ofNat 128 sb, sc := Fin.ofNat 128 sc, sd := Fin.ofNat 128 sd }
    match fn with
    | 0 => some (.launch o.g (Fin.ofNat 16 hn) o.sa)
    | 1 => some (.evwait o)
    | 2 => some (.evset o)
    | 3 => some (.evclr o)
    | 4 =>
      match mode with
      | 0 => some (.cancelLaunch o.g o.sa)
      | 1 => some (.cancelGraph o.g o.sa)
      | 2 => some (.cancelPhase o.g o.sa)
      | 3 => some (.cancelJob { g := o.g, sa := o.sa })
      | _ => none
    | 5 => (cntOfCode mode).map fun s => .cntrd s o
    | 6 => some .phase
    | 7 => some (.jobend o.sa)
    | _ => none
  | _ => none

/-- The instruction whose form the opcode map gives to two words; its fields are not yet checked (R269). -/
def candidate (w0 : Word) (w1 : Option Word) : Option Instr :=
  let op := bitsOf w0 1 7
  let x := w0.toNat
  let y := (w1.getD 0).toNat
  if op ≤ 5 then candV (unpack fmtV x) (unpack fmtV1 y)
  else if op = 6 then candP (unpack fmtV x)
  else if op = 7 then candX (unpack fmtV x) (y % 2 ^ 32)
  else if op ≤ 11 ∨ op = 48 then candS (unpack fmtS x) (w1.getD 0)
  else if op ≤ 21 then candM (unpack fmtM x) (w1.map fun z => z.toNat % 2 ^ 32)
  else if op ≤ 25 then candB (unpack fmtB x) (y % 2 ^ 28)
  else if op = 32 then candC (unpack fmtA x) (unpack fmtCvt y)
  else if op = 33 then candX2 (unpack fmtA x) y w1.isSome
  else if op = 40 then candW (unpack fmtA x)
  else none

/-- The defined major opcodes (R269). -/
def opDefined (op : Nat) : Bool :=
  op ≤ 11 || (16 ≤ op && op ≤ 21) || op == 24 || op == 25 || op == 32 || op == 33 || op == 40 || op == 48

/-! ### The encoder -/

/-- The two words of an instruction. -/
abbrev Words := Word × Option Word

/-- The words of an F-V instruction of OP 0x00 to 0x05 (R259-R261). -/
def encV (f : VForm) : Words :=
  (wordOf fmtV
    [bit (vLong f.o), f.op, f.o.g.pred.val, bit f.o.g.inv, f.o.d.val, srcCode f.o.a, srcCode f.o.b,
      (if f.nsrc < 3 then f.craw else srcCode f.o.c), tyCode f.o.ty, f.fn, bit f.o.sat, rndCode f.o.rnd, 0],
   if vLong f.o then
     some (wordOf fmtV1
       [f.o.imm.toNat, f.o.chain.km1.val, f.o.chain.cch.val, csrcCode f.o.chain.csrc, bit f.o.chain.pub.isSome,
        (f.o.chain.pub.getD 0).val, 0])
   else none)

/-- The code of a raw predicate operand (R311). -/
def psrcCode (a : PSrc) : Nat := a.p.val + 8 * bit a.inv

/-- The words of a predicate-group instruction (R311). -/
def encP (fn : Nat) (o : POp) : Words :=
  (wordOf fmtV [0, 6, o.g.pred.val, bit o.g.inv, o.d.val, psrcCode o.a, psrcCode o.b, 0, 15, fn, 0, 0, 0], none)

/-- The words of an expand instruction (R229): its fields and whether an immediate follows. -/
def encX (fn : Nat) (x : Fin 4) (g : Guard) (d a b c t sat : Nat) (long : Bool) (imm : BitVec 32) : Words :=
  (wordOf fmtV [bit long, 7, g.pred.val, bit g.inv, d, a, b, c, t, fn, sat, x.val, 0],
   if long then some (wordOf fmtV1 [imm.toNat, 0, 0, 0, 0, 0, 0]) else none)

/-- The words of an F-S instruction (R262, R263). -/
def encS (op fn : Nat) (g : Guard) (d a b c t sat : Nat) (long : Bool) (w1 : Word) : Words :=
  (wordOf fmtS [bit long, op, g.pred.val, bit g.inv, d, 0, a, b, c, t, fn, sat, 0], if long then some w1 else none)

/-- The words of an F-M instruction (R264, R265). -/
def encM (op fn : Nat) (o : MOp) : Words :=
  match o.disp with
  | .short i =>
    (wordOf fmtM [0, op, o.g.pred.val, bit o.g.inv, o.data.val, o.base.val, o.off.val, bit o.oe, tyCode o.ty,
      o.h.val, o.n.val, bit o.e, fn, i.toNat], none)
  | .long i =>
    (wordOf fmtM [1, op, o.g.pred.val, bit o.g.inv, o.data.val, o.base.val, o.off.val, bit o.oe, tyCode o.ty,
      o.h.val, o.n.val, bit o.e, fn, 0], some (wordOf fmtDisp [i.toNat, 0]))

/-- The words of an F-M instruction without operands: `fence` and `l1flush` (R164, R329). -/
def encF (fn : Nat) (g : Guard) (imm : Nat) : Words :=
  (wordOf fmtM [0, 21, g.pred.val, bit g.inv, 0, 0, 0, 0, 0, 0, 0, 0, fn, imm], none)

/-- The words of an F-B instruction (R266). -/
def encB (op fn : Nat) (g : Guard) (disp a : Nat) (rejoin : Option (BitVec 28)) : Words :=
  (wordOf fmtB [bit rejoin.isSome, op, g.pred.val, bit g.inv, disp, a, fn, 0],
   rejoin.map fun r => wordOf fmtRejoin [r.toNat, 0])

/-- The words of an F-A instruction (R267). -/
def encA (op fn : Nat) (g : Guard) (hn sa sb sc sd t mode : Nat) (w1 : Option Word) : Words :=
  (wordOf fmtA [bit w1.isSome, op, g.pred.val, bit g.inv, hn, sa, sb, sc, sd, t, fn, mode], w1)

/-- The words of a copy instruction (R340). -/
def encC (fn : Nat) (o : COp) (x : Nat) (w1 : Option Word) : Words :=
  encA 32 fn o.g o.hn.val o.sa.val o.sb.val o.sc.val o.sd.val (tyCode o.ty)
    (x + 8 * o.h.val + 32 * bit o.dsp + 64 * bit o.ssp) w1

/-- The words of a matrix instruction (R349). -/
def encX2 (fn : Nat) (o : XOp) (t : Nat) (w1 : Option Word) : Words :=
  encA 33 fn o.g o.hn.val o.sa.val o.sb.val o.sc.val o.sd.val t (o.e.val + 8 * o.t.val) w1

/-- The words of a work instruction (R361). -/
def encW (fn : Nat) (g : Guard) (hn mode : Nat) (sa sb sc sd : Fin 128) : Words :=
  encA 40 fn g hn sa.val sb.val sc.val sd.val 15 mode none

/-- Whether some specifier is the second word (R263). -/
def usesW1 (l : List SSrc) : Bool := l.contains .w1

/-- The words of an instruction outside the F-V groups 0 to 5 and the scalar group; an event has none. -/
def encRest : Instr → Option Words
  | .pand o => some (encP 0 o)
  | .por o => some (encP 1 o)
  | .pxor o => some (encP 2 o)
  | .pnot o => some (encP 3 o)
  | .pmov o => some (encP 4 o)
  | .ballot o => some (encP 5 o)
  | .voteAny o => some (encP 6 o)
  | .voteAll o => some (encP 7 o)
  | .voteSame o => some (encP 8 o)
  | .pcount o => some (encP 9 o)
  | .pfirst o => some (encP 10 o)
  | .xbegin x g st ln n imm => some (encX 0 x g 0 st.val ln.val (srcCode n) 15 0 (n == .imm) imm)
  | .xnext x d pe => some (encX 1 x guardNone d.val 0 pe.val 0 15 0 false 0)
  | .xred x g op ty sat vd v imm hn =>
    some (encX 2 x g vd.val (srcCode v) (redCode op) hn.val (tyCode ty) (bit sat) (v == .imm) imm)
  | .xsync x => some (encX 3 x guardNone 0 0 0 0 15 0 false 0)
  | .xend x => some (encX 4 x guardNone 0 0 0 0 15 0 false 0)
  | .xquery x g d sel => some (encX 5 x g d.val 0 sel.val 0 15 0 false 0)
  | .srd g d k => some (encS 9 0 g d.val (0xC0 + k.val) 0 0 15 0 false 0)
  | .srdFlags g d => some (encS 9 0 g d.val 0x90 0 0 15 0 false 0)
  | .srdFlagsClr g d b w => some (encS 9 0 g d.val 0x91 (ssrcCode b) 0 15 0 (usesW1 [b]) w)
  | .vtos g d va b w => some (encS 9 1 g d.val va.val (ssrcCode b) 0 15 0 (usesW1 [b]) w)
  | .cdef g c b w => some (encS 10 0 g 0 (0x90 + c.val) (ssrcCode b) 0 15 0 (usesW1 [b]) w)
  | .cdrop g c => some (encS 10 1 g 0 (0x90 + c.val) 0 0 15 0 false 0)
  | .cquery g d c sel => some (encS 10 2 g d.val (0x90 + c.val) (0x90 + sel.val) 0 15 0 false 0)
  | .hwait g n => some (encS 11 0 g 0 n.val 0 0 15 0 false 0)
  | .htest g d n => some (encS 11 1 g d.val n.val 0 0 15 0 false 0)
  | .hcancel g n => some (encS 11 2 g 0 n.val 0 0 15 0 false 0)
  | .hmovToHandle g n a w => some (encS 11 3 g n.val (ssrcCode a) 0x90 0 15 0 (usesW1 [a]) w)
  | .hmovFromHandle g d n => some (encS 11 3 g d.val n.val 0x91 0 15 0 false 0)
  | .hwaitany g d a w => some (encS 11 4 g d.val (ssrcCode a) 0 0 15 0 (usesW1 [a]) w)
  | .ld o => some (encM 16 0 o)
  | .ldAcq o => some (encM 16 1 o)
  | .ldSp o => some (encM 16 2 o)
  | .ldS o => some (encM 16 3 o)
  | .st o => some (encM 17 0 o)
  | .stRel o => some (encM 17 1 o)
  | .stSp o => some (encM 17 2 o)
  | .atom op o => some (encM 18 (atomCode op) o)
  | .red op o => some (encM 19 (atomCode op) o)
  | .atomSp op o => some (encM 20 (atomCode op) o)
  | .fence g ord sc => some (encF 0 g (scopeCode sc + 8 * ordCode ord))
  | .prefetch o => some (encM 21 1 o)
  | .waitv o => some (encM 21 2 o)
  | .l1flush g => some (encF 3 g 0)
  | .l1flushInv g => some (encF 3 g 1)
  | .bra g d => some (encB 24 0 g d.toNat 0 none)
  | .brd g d r => some (encB 24 1 g d.toNat 0 (some r))
  | .jmpv g a r => some (encB 24 2 g 0 (srcCode a) (some r))
  | .call g d => some (encB 24 3 g d.toNat 0 none)
  | .callv g a => some (encB 24 4 g 0 (srcCode a) none)
  | .ret g => some (encB 24 5 g 0 0 none)
  | .exit g => some (encB 24 6 g 0 0 none)
  | .allon => some (encB 24 7 guardNone 0 0 none)
  | .alloff => some (encB 24 8 guardNone 0 0 none)
  | .safept i => some (encB 24 9 guardNone i.toNat 0 none)
  | .nop g => some (encB 24 10 g 0 0 none)
  | .bar g b => some (encB 25 0 g b.val 0 none)
  | .barArv g b => some (encB 25 1 g b.val 0 none)
  | .barWt g b => some (encB 25 2 g b.val 0 none)
  | .cpy o => some (encC 0 o 0 none)
  | .cpy2d o => some (encC 1 o 0 none)
  | .cpyGth o isp iw => some (encC 2 o (2 * bit iw + 4 * bit isp) none)
  | .cpySct o isp iw => some (encC 3 o (2 * bit iw + 4 * bit isp) none)
  | .cpyRed o op => some (encC 4 o (credCode op) none)
  | .cpyFill o => some (encC 5 o 0 none)
  | .cpyCvt o sat dec wide f =>
    some (encC 6 o 0 (some (wordOf fmtCvt [tfmtCode f, bit wide, bit dec, 0, bit sat, 0])))
  | .mcfg o => some (encX2 0 o 15 none)
  | .mldw o rows row0 ssp bank bfmt =>
    some (encX2 1 o 15 (some (wordOf fmtLdw [bfmt.toNat, bank.val, bit ssp, 0, 0, row0.toNat, rows.toNat, 0])))
  | .mldwNorm o ssp => some (encX2 1 o 15 (some (wordOf fmtLdw [0, 0, bit ssp, 1, 0, 0, 0, 0])))
  | .mma o row0 kbm1 bank => some (encX2 2 o 15 (some (wordOf fmtMma [bank.val, 0, kbm1.val, 0, row0.toNat, 0])))
  | .mzero o => some (encX2 3 o 15 none)
  | .mst o ty scaled relu long =>
    some (encX2 4 o (tyCode ty) (if long then some (wordOf fmtMst [bit scaled, bit relu, 0]) else none))
  | .mmovFromTile o j m vr => some (encX2 5 o 15 (some (wordOf fmtMov [vr.val, m.val, j.val, 0, 0])))
  | .mmovToTile o j m vr => some (encX2 5 o 15 (some (wordOf fmtMov [vr.val, m.val, j.val, 1, 0])))
  | .mtopk o k near => some (encX2 6 o 15 (some (wordOf fmtTopk [k.toNat, bit near, 0])))
  | .mdist o => some (encX2 7 o 15 none)
  | .mbound o kbm1 => some (encX2 8 o 15 (some (wordOf fmtKb [0, kbm1.val, 0])))
  | .mcount o kbm1 => some (encX2 9 o 15 (some (wordOf fmtKb [0, kbm1.val, 0])))
  | .launch g hn sa => some (encW 0 g hn.val 0 sa 0 0 0)
  | .evwait o => some (encW 1 o.g 0 0 o.sa o.sb o.sc o.sd)
  | .evset o => some (encW 2 o.g 0 0 o.sa o.sb o.sc o.sd)
  | .evclr o => some (encW 3 o.g 0 0 o.sa o.sb o.sc o.sd)
  | .cancelLaunch g sa => some (encW 4 g 0 0 sa 0 0 0)
  | .cancelGraph g sa => some (encW 4 g 0 1 sa 0 0 0)
  | .cancelPhase g sa => some (encW 4 g 0 2 sa 0 0 0)
  | .cancelJob o => some (encW 4 o.g 0 3 o.sa 0 0 0)
  | .cntrd sel o => some (encW 5 o.g 0 (cntCode sel) o.sa o.sb o.sc o.sd)
  | .phase => some (encW 6 guardNone 0 0 0 0 0 0)
  | .jobend sa => some (encW 7 guardNone 0 0 sa 0 0 0)
  | .trap g a w => some (encS 48 0 g 0 (ssrcCode a) 0 0 15 0 (usesW1 [a]) w)
  | .rett => some (encS 48 1 guardNone 0 0 0 0 15 0 false 0)
  | .sysrd g d n => some (encS 48 2 g d.val (0x90 + sysCode n) 0 0 15 0 false 0)
  | .syswr g n b w => some (encS 48 3 g 0 (0x90 + sysCode n) (ssrcCode b) 0 15 0 (usesW1 [b]) w)
  | .tlbinv g hn a b w => some (encS 48 4 g hn.val (ssrcCode a) (ssrcCode b) 0 15 0 (usesW1 [a, b]) w)
  | .ptwr g d a b w => some (encS 48 5 g d.val (ssrcCode a) (ssrcCode b) 0 15 0 (usesW1 [a, b]) w)
  | .carve g hn a b w => some (encS 48 6 g hn.val (ssrcCode a) (ssrcCode b) 0 15 0 (usesW1 [a, b]) w)
  | .dirtyclr g hn a b c w =>
    some (encS 48 7 g hn.val (ssrcCode a) (ssrcCode b) (ssrcCode c) 15 0 (usesW1 [a, b, c]) w)
  | .fltnext => some (encS 48 8 guardNone 0 0 0 0 15 0 false 0)
  | .halt => some (encS 48 9 guardNone 0 0 0 0 15 0 false 0)
  | _ => none

/-- The words of an instruction; an event has none. -/
def encode (i : Instr) : Option Words :=
  match vform i, sform i with
  | some f, _ => some (encV f)
  | _, some f =>
    some (encS 8 f.fn f.o.g f.o.d.val (ssrcCode f.o.a) (ssrcCode f.o.b) (if f.nsrc < 3 then f.craw else ssrcCode f.o.c)
      (tyCode f.o.ty) (bit f.o.sat) (sLong f.o) f.o.w1)
  | none, none => encRest i

/-- The instruction of a first word and, where its L is 1, the word after it (R256, R258). -/
def decode (w0 w1 : Word) : Decoded :=
  let y := if bitsOf w0 0 1 = 1 then some w1 else none
  match candidate w0 y with
  | some i => if wellFormed i && encode i == some (w0, y) then .ok i else .bad .illegal
  | none => .bad (if opDefined (bitsOf w0 1 7) then .illegal else .reservedOp)

/-- The instruction at the head of a list of bytes, each word lowest byte first (R7, R256), and the bytes after
it. -/
def decodeBytes (bs : List Byte) : Decoded × List Byte :=
  let w0 : Word := BitVec.ofNat 64 (ofBytes (bs.take 8))
  let w1 : Word := BitVec.ofNat 64 (ofBytes ((bs.drop 8).take 8))
  (decode w0 w1, bs.drop (if bitsOf w0 0 1 = 1 then 16 else 8))

/-- The instruction the decoder reads from an instruction whose bits are `w`, bit 0 the lowest of its first
word. -/
def decodeTableWord (nbits w : Nat) : Option Instr :=
  match (decodeBytes (bytesOf 16 (w % 2 ^ nbits))).1 with
  | .ok i => some i
  | .bad _ => none

end Sys2Proof
end

