-- ==== Sys2Proof/Config.lean ====
section
/-! DEFINITION. What is fixed for the machine: the sizes of R1, R2 and the chapters, and the free values, which
the spec leaves open. A free value is opaque: nothing in Lean can compute it or prove what it is, so a claim
about it holds for every value. -/

namespace Sys2Proof.Config

/-- Cores of one die (R1, R2). -/
def coresPerDie : Nat := 192

/-- Populated bytes of one die's package memory, 768 * 10^9 (R13). -/
def dieBytes : Nat := 768000000000

/-- Pool units of one core (R87). -/
def poolUnits : Nat := 96

/-- Cycles after which a ready split is overdue (R94). -/
def overdueAfter : Nat := 15

/-- Cycles after which the Drover reserves a core (R83). -/
def reserveAfter : Nat := 65536

/-- Instructions a halting split may issue without a safe point (R97). -/
def droughtLimit : Nat := 1024

/-- Cycles that the entry to a handler takes (R252). -/
def entryCycles : Nat := 16

/-- Slots of a die's fault buffer (R249). -/
def faultSlots : Nat := 4096

/-- Entries of a context's handle table (R126). -/
def handleSlots : Nat := 4096

/-- FREE. Which of several enabled steps comes next (log 2). -/
opaque choice : Nat → Nat

/-- FREE. The bits an SFU function (0 to 7 as FN of R269) returns for an input of a type, where R201 bounds the
result but does not fix it (log 9). -/
opaque sfuBits : Nat → Ty → Nat → Nat

/-- FREE. SHA-384, which the spec names and does not define (log 12). -/
opaque sha384 : List Byte → BitVec 384

/-- FREE. A 64-bit value that the spec calls undefined or unspecified; its arguments tell one such value from another
(log 10). -/
opaque freeWord : List Nat → Word

/-- FREE. The signature of an SPDM response (log 12). -/
opaque signP384 : List (BitVec 384) → BitVec 768

/-- FREE. The certificate chain of slot 0 (R45; log 12). -/
opaque certChain : List Byte

/-- FREE. Nanoseconds between two cycles of the model; no rule fixes the term clock at each moment (log 1). -/
opaque elapsed : Nat → Nat → Nat

/-- FREE. The set of a slice that a line lies in, which the spec does not give (log 8). -/
opaque l2Set : Nat → Nat

end Sys2Proof.Config
end

