-- ==== Sys2Proof/Machine/Flags.lean ====
section
/-! DEFINITION. The flag word's bits (R193), integer results and their reduction (R180, R288), and sub-elements of
a register (R6, R283). -/

namespace Sys2Proof.Machine

/-- A result's bits and the flags it sets. -/
abbrev Res1 := Nat × BitVec 16

/-- NX (R193). -/
def flagNX : BitVec 16 := 1
/-- UF (R193). -/
def flagUF : BitVec 16 := 2
/-- OF (R193). -/
def flagOF : BitVec 16 := 4
/-- DZ (R193). -/
def flagDZ : BitVec 16 := 8
/-- NV (R193). -/
def flagNV : BitVec 16 := 16
/-- SI (R193). -/
def flagSI : BitVec 16 := 32

/-- A flag where a condition holds. -/
def flagIf (b : Bool) (f : BitVec 16) : BitVec 16 := if b then f else 0

/-! ### Sub-elements (R6) -/

/-- The first `n` sub-elements of width `w` of a register value. -/
def subs (w n : Nat) (x : Word) : List Nat := (List.range n).map fun i => bitsOf x (i * w) w

/-- The number whose fields of width `w` are the given values, lowest first. -/
def joinSubs (w : Nat) : List Nat → Nat
  | [] => 0
  | x :: r => x % 2 ^ w + 2 ^ w * joinSubs w r

/-- The register value of some results, with their flags together. -/
def joinRes (w : Nat) (l : List Res1) : Word × BitVec 16 :=
  (BitVec.ofNat 64 (joinSubs w (l.map (·.1))), l.foldl (fun f x => f ||| x.2) 0)

/-! ### Integers (R179, R180, R288) -/

/-- A w-bit value as its type reads it (R283). -/
def intOf (t : Ty) (x : Nat) : Int :=
  if tySigned t then signedOf (tyWidth t) x else ((x % 2 ^ tyWidth t : Nat) : Int)

/-- Least value of an integer type (R179). -/
def intMin (t : Ty) : Int := if tySigned t then -((2 ^ (tyWidth t - 1) : Nat) : Int) else 0

/-- Largest value of an integer type (R179). -/
def intMax (t : Ty) : Int :=
  if tySigned t then ((2 ^ (tyWidth t - 1) : Nat) : Int) - 1 else ((2 ^ tyWidth t : Nat) : Int) - 1

/-- Reduce an exact result to a type (R180): the low bits, or a clamp that sets SI where it changes the value. -/
def reduceInt (t : Ty) (sat : Bool) (v : Int) : Res1 :=
  if sat then
    let c := if v < intMin t then intMin t else if intMax t < v then intMax t else v
    (lowBits (tyWidth t) c, flagIf (c != v) flagSI)
  else (lowBits (tyWidth t) v, 0)

/-- A w-bit result with no flag. -/
def plainInt (w : Nat) (x : Nat) : Res1 := (x % 2 ^ w, 0)

/-- How many 1 bits the low `n` bits of a number have. -/
def popCount (n x : Nat) : Nat := ((List.range n).filter fun i => (x >>> i) % 2 == 1).length

/-- Leading zero bits of a w-bit value; `w` for zero. -/
def leadZeros : Nat → Nat → Nat
  | 0, _ => 0
  | w + 1, x => if (x >>> w) % 2 = 1 then 0 else 1 + leadZeros w x

/-- Trailing zero bits of a w-bit value; `w` for zero. -/
def trailZeros : Nat → Nat → Nat
  | 0, _ => 0
  | w + 1, x => if x % 2 = 1 then 0 else 1 + trailZeros w (x / 2)

/-- Bits of a w-bit value in the opposite order. -/
def revBits (w x : Nat) : Nat :=
  (List.range w).foldl (fun a j => a + ((x >>> j) % 2) * 2 ^ (w - 1 - j)) 0

/-- A rotation toward the higher bits by k mod w. -/
def rotBits (w x k : Nat) : Nat :=
  let k := k % w
  (x % 2 ^ w * 2 ^ k) % 2 ^ w + x % 2 ^ w / 2 ^ (w - k)

/-- The position and length that a bit-field operand describes (R288). -/
def fieldOf (w : Nat) (q : Word) : Nat × Nat :=
  let p := min (bitsOf q 0 8) w
  (p, min (bitsOf q 8 8) (w - p))

/-- bfe (R288). -/
def bfeInt (t : Ty) (a : Nat) (q : Word) : Nat :=
  let w := tyWidth t
  let (p, m) := fieldOf w q
  let x := (a % 2 ^ w / 2 ^ p) % 2 ^ m
  if tySigned t && m != 0 then lowBits w (signedOf m x) else x

/-- bfi (R288). -/
def bfiInt (t : Ty) (a b : Nat) (q : Word) : Nat :=
  let w := tyWidth t
  let (p, m) := fieldOf w q
  let x := a % 2 ^ w
  x - (x / 2 ^ p % 2 ^ m) * 2 ^ p + b % 2 ^ m * 2 ^ p

/-- The functions of R288 and R292 on two or three w-bit operands. -/
inductive IntFn where
  | add | sub | mul | mulh | mad | abs | neg | min | max | avg | sad | and | or | xor | not | shl | shr | sra | rot
  | popc | clz | ctz | brev
  deriving DecidableEq, Repr

/-- The result of an integer function of R288 and R292 on one sub-element. -/
def intFn (fn : IntFn) (t : Ty) (sat : Bool) (a b c : Nat) : Res1 :=
  let w := tyWidth t
  let x := intOf t a
  let y := intOf t b
  let z := intOf t c
  let ua := a % 2 ^ w
  let ub := b % 2 ^ w
  match fn with
  | .add => reduceInt t sat (x + y)
  | .sub => reduceInt t sat (x - y)
  | .mul => reduceInt t sat (x * y)
  | .mulh => (lowBits w (x * y / (2 ^ w : Nat)), 0)
  | .mad => reduceInt t sat (x * y + z)
  | .abs => reduceInt t sat (if x < 0 then -x else x)
  | .neg => reduceInt t sat (-x)
  | .min => (if x ≤ y then ua else ub, 0)
  | .max => (if x ≤ y then ub else ua, 0)
  | .avg => (lowBits w ((x + y + 1) / 2), 0)
  | .sad => reduceInt t sat (z + (if x - y < 0 then y - x else x - y))
  | .and => (ua &&& ub, 0)
  | .or => (ua ||| ub, 0)
  | .xor => (ua ^^^ ub, 0)
  | .not => (2 ^ w - 1 - ua, 0)
  | .shl =>
    if sat then
      -- a shift of the width or more leaves no value in range but zero
      if ub ≤ w then reduceInt t true (x * (2 ^ ub : Nat))
      else if x = 0 then (0, 0)
      else reduceInt t true (x * (2 ^ (2 * w) : Nat))
    else if ub < w then plainInt w (ua * 2 ^ ub)
    else (0, 0)
  | .shr => (if ub < w then ua / 2 ^ ub else 0, 0)
  | .sra =>
    let s := signedOf w a
    (lowBits w (s / (2 ^ (if ub < w then ub else w) : Nat)), 0)
  | .rot => (rotBits w a ub, 0)
  | .popc => (popCount w a, 0)
  | .clz => (leadZeros w a, 0)
  | .ctz => (trailZeros w a, 0)
  | .brev => (revBits w a, 0)

/-- A value extended to 64 bits as its type reads it (R289). -/
def extendInt (t : Ty) (x : Nat) : Word := wordOfInt (intOf t x)

end Sys2Proof.Machine
end

