-- ==== Sys2Proof/Machine/Float.lean ====
section
/-! DEFINITION. Floating-point numbers (R181-R197, R200, R201): a value is a sign, a whole number and a power of two, a
result is computed exactly and rounded once. -/

namespace Sys2Proof.Machine

/-- How a format ends: with infinities and NaNs, with one NaN code, or with neither (R181, R183). -/
inductive FEnd where
  | ieee | nanOnly | finite
  deriving DecidableEq, Repr

/-- A binary format: exponent bits, fraction bits, bias, and its end (R181, R183). -/
structure Fmt where
  eb : Nat
  mb : Nat
  bias : Nat
  fin : FEnd
  deriving DecidableEq, Repr

/-- f16 (R181). -/
def fmtF16 : Fmt := ⟨5, 10, 15, .ieee⟩
/-- bf16 (R181). -/
def fmtBF16 : Fmt := ⟨8, 7, 127, .ieee⟩
/-- f32 (R181). -/
def fmtF32 : Fmt := ⟨8, 23, 127, .ieee⟩
/-- f64 (R181). -/
def fmtF64 : Fmt := ⟨11, 52, 1023, .ieee⟩
/-- E4M3 (R183). -/
def fmtE4M3 : Fmt := ⟨4, 3, 7, .nanOnly⟩
/-- E5M2 (R183). -/
def fmtE5M2 : Fmt := ⟨5, 2, 15, .ieee⟩
/-- E3M2 (R183). -/
def fmtE3M2 : Fmt := ⟨3, 2, 3, .finite⟩
/-- E2M1 (R183). -/
def fmtE2M1 : Fmt := ⟨2, 1, 1, .finite⟩

/-- The format of a floating type; the other types have none and read as f32. -/
def fmtOf : Ty → Fmt
  | .f16 => fmtF16 | .bf16 => fmtBF16 | .f64 => fmtF64 | .e4m3 => fmtE4M3 | .e5m2 => fmtE5M2 | _ => fmtF32

/-- Whether a type is a floating type. -/
def tyFloat (t : Ty) : Bool := !tyInteger t

/-- The value of a floating-point datum; a number is m * 2^e with a sign. -/
inductive FVal where
  | nan
  | inf (neg : Bool)
  | num (neg : Bool) (m : Nat) (e : Int)
  deriving DecidableEq, Repr

/-- The sign bit. -/
def fNeg (f : Fmt) (x : Nat) : Bool := (x >>> (f.eb + f.mb)) % 2 == 1

/-- The value of a datum (R181, R183). -/
def fVal (f : Fmt) (x : Nat) : FVal :=
  let e := (x >>> f.mb) % 2 ^ f.eb
  let m := x % 2 ^ f.mb
  let s := fNeg f x
  let top := e == 2 ^ f.eb - 1
  if top && f.fin == .ieee then (if m = 0 then .inf s else .nan)
  else if top && f.fin == .nanOnly && m == 2 ^ f.mb - 1 then .nan
  else if e = 0 then .num s m (1 - (f.bias : Int) - f.mb)
  else .num s (2 ^ f.mb + m) ((e : Int) - f.bias - f.mb)

/-- Whether a datum is a signalling NaN (R181). -/
def fSnan (f : Fmt) (x : Nat) : Bool :=
  f.fin == .ieee && fVal f x == .nan && (x >>> (f.mb - 1)) % 2 == 0

/-- Whether a datum is a NaN. -/
def fNan (f : Fmt) (x : Nat) : Bool := fVal f x == .nan

/-- A NaN made quiet (R195). -/
def fQuiet (f : Fmt) (x : Nat) : Nat :=
  if f.fin == .ieee then x % 2 ^ (f.eb + f.mb + 1) ||| 2 ^ (f.mb - 1) else x % 2 ^ (f.eb + f.mb + 1)

/-- The generated NaN of a format and cause (R194). -/
def genNan (f : Fmt) (cc : Nat) : Nat :=
  match f.fin with
  | .ieee => (2 ^ f.eb - 1) * 2 ^ f.mb + 2 ^ (f.mb - 1) + (if f.mb ≤ 3 then 0 else cc)
  | .nanOnly => 2 ^ (f.eb + f.mb) - 1
  | .finite => 0

/-- The bits of the largest finite value (R189). -/
def maxBits (f : Fmt) : Nat :=
  match f.fin with
  | .ieee => (2 ^ f.eb - 1) * 2 ^ f.mb - 1
  | .nanOnly => 2 ^ (f.eb + f.mb) - 2
  | .finite => 2 ^ (f.eb + f.mb) - 1

/-- The bits with a sign. -/
def withSign (f : Fmt) (neg : Bool) (x : Nat) : Nat := x + (if neg then 2 ^ (f.eb + f.mb) else 0)

/-- Infinity. -/
def infBits (f : Fmt) (neg : Bool) : Nat := withSign f neg ((2 ^ f.eb - 1) * 2 ^ f.mb)

/-- The number of bits of a number. -/
def bitLen (x : Nat) : Nat := if x = 0 then 0 else Nat.log2 x + 1

/-- Whether a magnitude between `q` and `q + 1` quanta is rounded up (R188): `rem` of `2^d` parts remain, and
`sticky` a bit more. -/
def roundsUp (r : Rnd) (neg : Bool) (q rem d : Nat) (sticky : Bool) : Bool :=
  let some_ := rem != 0 || sticky
  match r with
  | .rne => decide (2 ^ d < 2 * rem) || (2 * rem == 2 ^ d && d != 0 && (sticky || q % 2 == 1))
  | .rtz => false
  | .rdn => some_ && neg
  | .rup => some_ && !neg

/-- A magnitude m * 2^e, and a bit more where `sticky`, in whole quanta of 2^q: the quanta after rounding, and
whether anything was lost. -/
def quanta (r : Rnd) (neg : Bool) (m : Nat) (e q : Int) (sticky : Bool) : Nat × Bool :=
  if q ≤ e then
    let n := m * 2 ^ (e - q).toNat
    (if roundsUp r neg n 0 0 sticky then n + 1 else n, sticky)
  else
    let d := (q - e).toNat
    if bitLen m + 2 ≤ d then
      -- less than a quarter of a quantum
      (if roundsUp r neg 0 (if m = 0 then 0 else 1) 2 sticky then 1 else 0, m != 0 || sticky)
    else
    let n := m / 2 ^ d
    let rem := m % 2 ^ d
    (if roundsUp r neg n rem d sticky then n + 1 else n, rem != 0 || sticky)

/-- An overflow (R189). -/
def overflow (f : Fmt) (r : Rnd) (sat neg : Bool) : Res1 :=
  let toInf := match r with
    | .rne => true
    | .rtz => false
    | .rdn => neg
    | .rup => !neg
  let fl := flagOF ||| flagNX
  if !toInf || sat then (withSign f neg (maxBits f), fl)
  else
    match f.fin with
    | .ieee => (infBits f neg, fl)
    | .nanOnly => (genNan f 0, fl ||| flagNV)
    | .finite => (withSign f neg (maxBits f), fl)

/-- Round a magnitude once to a format (R188-R190). -/
def roundMag (f : Fmt) (r : Rnd) (sat neg : Bool) (m : Nat) (e : Int) (sticky : Bool) : Res1 :=
  if m = 0 && !sticky then (withSign f neg 0, 0)
  else
    let p : Int := e + bitLen m - 1
    let low : Int := 1 - (f.bias : Int) - f.mb
    let q : Int := if p - f.mb < low then low else p - f.mb
    let (n, inexact) := quanta r neg m e q sticky
    -- with exponent field E = q + mb + bias, the bits are (E - 1) 2^mb + n
    let bits := (q - low).toNat * 2 ^ f.mb + n
    if maxBits f < bits then overflow f r sat neg
    else
      -- tininess after rounding: the value rounded with no least exponent is below the least normal
      let (n', _) := quanta r neg m e (p - f.mb) sticky
      let tiny := decide (p < 1 - (f.bias : Int)) && !(decide (p = -(f.bias : Int)) && n' == 2 ^ (f.mb + 1))
      (withSign f neg bits, flagIf inexact flagNX ||| flagIf (inexact && tiny) flagUF)

/-- Round a value of a list of exact terms (R190, R197). -/
def sumTerms (f : Fmt) (r : Rnd) (sat : Bool) (ts : List (Bool × Nat × Int)) : Res1 :=
  let e := ts.foldl (fun (a : Int) t => if t.2.2 < a then t.2.2 else a) 0
  let v := ts.foldl (fun (a : Int) t =>
    let x : Int := (t.2.1 * 2 ^ (t.2.2 - e).toNat : Nat)
    if t.1 then a - x else a + x) 0
  if v = 0 then
    let neg :=
      if ts.all (fun t => t.1) then true
      else if ts.all (fun t => !t.1) then false
      else r == .rdn
    (withSign f neg 0, 0)
  else roundMag f r sat (decide (v < 0)) v.natAbs e false

/-- A product of two values, as a value; `nan` where it is zero times Inf or an operand is NaN. -/
def mulVal : FVal → FVal → FVal
  | .num s m e, .num t n d => .num (s != t) (m * n) (e + d)
  | .inf s, .num t n _ => if n = 0 then .nan else .inf (s != t)
  | .num s m _, .inf t => if m = 0 then .nan else .inf (s != t)
  | .inf s, .inf t => .inf (s != t)
  | _, _ => .nan

/-- Whether a product is zero times Inf (R197). -/
def zeroInf : FVal → FVal → Bool
  | .inf _, .num _ n _ => n == 0
  | .num _ m _, .inf _ => m == 0
  | _, _ => false

/-- A sum of products and addends, rounded once (R190, R194, R195, R197): `nan` is the first NaN input, already quiet in
the result's format, and `snan` says that an input NaN signals. -/
def fusedSum (f : Fmt) (r : Rnd) (sat : Bool) (prods : List (FVal × FVal)) (adds : List FVal)
    (nan : Option Nat) (snan : Bool) : Res1 :=
  let bad := prods.any fun p => zeroInf p.1 p.2
  let vs := prods.map (fun p => mulVal p.1 p.2) ++ adds
  let pos := vs.any fun v => v == .inf false
  let neg := vs.any fun v => v == .inf true
  match nan with
  | some x => (x, flagIf (snan || bad || (pos && neg)) flagNV)
  | none =>
    if bad then (genNan f 4, flagNV)
    else if pos && neg then (genNan f 3, flagNV)
    else if pos then (infBits f false, 0)
    else if neg then (infBits f true, 0)
    else sumTerms f r sat (vs.filterMap fun v => match v with | .num s m e => some (s, m, e) | _ => none)

/-- The first NaN of some operands, made quiet (R195). -/
def firstNan (f : Fmt) (xs : List Nat) : Option Nat := (xs.find? (fNan f)).map (fQuiet f)

/-- A value with its sign inverted. -/
def negVal : FVal → FVal
  | .nan => .nan
  | .inf s => .inf (!s)
  | .num s m e => .num (!s) m e

/-- vfadd (R295). -/
def fAdd (f : Fmt) (r : Rnd) (sat : Bool) (a b : Nat) : Res1 :=
  fusedSum f r sat [] [fVal f a, fVal f b] (firstNan f [a, b]) (fSnan f a || fSnan f b)

/-- vfsub (R295). -/
def fSub (f : Fmt) (r : Rnd) (sat : Bool) (a b : Nat) : Res1 :=
  fusedSum f r sat [] [fVal f a, negVal (fVal f b)] (firstNan f [a, b]) (fSnan f a || fSnan f b)

/-- vfmul (R295). -/
def fMul (f : Fmt) (r : Rnd) (sat : Bool) (a b : Nat) : Res1 :=
  fusedSum f r sat [(fVal f a, fVal f b)] [] (firstNan f [a, b]) (fSnan f a || fSnan f b)

/-- vfma (R197, R295). -/
def fMa (f : Fmt) (r : Rnd) (sat : Bool) (a b c : Nat) : Res1 :=
  fusedSum f r sat [(fVal f a, fVal f b)] [fVal f c] (firstNan f [a, b, c]) (fSnan f a || fSnan f b || fSnan f c)

/-- Order of two numbers, -0 below +0: whether the first is less (R196). -/
def ltNum : FVal → FVal → Bool
  | .inf s, .inf t => s && !t
  | .inf s, .num _ _ _ => s
  | .num _ _ _, .inf t => !t
  | .num s m e, .num t n d =>
    let lo := if e < d then e else d
    let x : Int := (m * 2 ^ (e - lo).toNat : Nat)
    let y : Int := (n * 2 ^ (d - lo).toNat : Nat)
    let x' := if s then -x else x
    let y' := if t then -y else y
    decide (x' < y') || (x' == y' && m == 0 && s && !t)
  | _, _ => false

/-- vfmin and vfmax (R196). -/
def fMinMax (f : Fmt) (max_ : Bool) (a b : Nat) : Res1 :=
  let fl := flagIf (fSnan f a || fSnan f b) flagNV
  if fNan f a && fNan f b then (fQuiet f a, fl)
  else if fNan f a then (b, fl)
  else if fNan f b then (a, fl)
  else
    let less := ltNum (fVal f a) (fVal f b)
    (if less == max_ then b else a, fl)

/-- Whether two numbers are equal, -0 and +0 included (R297). -/
def eqNum (x y : FVal) : Bool :=
  match x, y with
  | .num _ 0 _, .num _ 0 _ => true
  | _, _ => !ltNum x y && !ltNum y x && x != .nan && y != .nan

/-- A floating compare (R196, R297): whether the condition holds, and the flags. -/
def fCmp (f : Fmt) (c : Cond) (a b : Nat) : Bool × BitVec 16 :=
  let un := fNan f a || fNan f b
  let sn := fSnan f a || fSnan f b
  let x := fVal f a
  let y := fVal f b
  let eq := eqNum x y
  let lt := ltNum x y && !eq
  let gt := ltNum y x && !eq
  match c with
  | .eq => (!un && eq, flagIf sn flagNV)
  | .ne => (un || !eq, flagIf sn flagNV)
  | .lt => (!un && lt, flagIf un flagNV)
  | .le => (!un && (lt || eq), flagIf un flagNV)
  | .gt => (!un && gt, flagIf un flagNV)
  | .ge => (!un && (gt || eq), flagIf un flagNV)
  | .ord => (!un, flagIf sn flagNV)
  | .unord => (un, flagIf sn flagNV)

/-- An integer compare (R289, R297). -/
def iCmp (c : Cond) (a b : Int) : Bool :=
  match c with
  | .eq => a == b | .ne => a != b | .lt => decide (a < b) | .le => decide (a ≤ b)
  | .gt => decide (b < a) | .ge => decide (b ≤ a) | .ord => true | .unord => false

/-- vfclass (R296). -/
def fClass (f : Fmt) (x : Nat) : Nat :=
  let e := (x >>> f.mb) % 2 ^ f.eb
  match fVal f x with
  | .nan => if fSnan f x then 2 ^ 8 else 2 ^ 9
  | .inf s => if s then 2 ^ 0 else 2 ^ 7
  | .num s m _ =>
    if m = 0 then (if s then 2 ^ 3 else 2 ^ 4)
    else if e = 0 then (if s then 2 ^ 2 else 2 ^ 5)
    else (if s then 2 ^ 1 else 2 ^ 6)

/-- A magnitude rounded to a whole number, and whether it was inexact (R192). -/
def roundWhole (r : Rnd) (neg : Bool) (m : Nat) (e : Int) : Nat × Bool := quanta r neg m e 0 false

/-- vfrnd (R295). -/
def fRnd (f : Fmt) (r : Rnd) (x : Nat) : Res1 :=
  match fVal f x with
  | .nan => (fQuiet f x, flagIf (fSnan f x) flagNV)
  | .inf _ => (x, 0)
  | .num s m e => ((roundMag f .rtz false s (roundWhole r s m e).1 0 false).1, 0)

/-- A NaN carried to another IEEE format (R195), or the generated NaN of an 8-bit format. -/
def carryNan (f g : Fmt) (x : Nat) : Nat :=
  if g.fin == .ieee && 3 < g.mb then
    withSign g (fNeg f x) ((2 ^ g.eb - 1) * 2 ^ g.mb + 2 ^ (g.mb - 1) + (x % 2 ^ (f.mb - 1)) % 2 ^ (g.mb - 1))
  else genNan g 0

/-- Inf into a format (R192). -/
def carryInf (g : Fmt) (sat neg : Bool) : Res1 :=
  match g.fin with
  | .ieee => (infBits g neg, 0)
  | .nanOnly => if sat then (withSign g neg (maxBits g), 0) else (genNan g 0, flagNV)
  | .finite => (withSign g neg (maxBits g), 0)

/-- A floating conversion (R192, R195, R298). -/
def fToF (s d : Ty) (r : Rnd) (sat : Bool) (x : Nat) : Res1 :=
  let f := fmtOf s
  let g := fmtOf d
  if s = d then (if fSnan f x then (fQuiet f x, flagNV) else (x % 2 ^ tyWidth d, 0))
  else
    match fVal f x with
    | .nan =>
      if s = .e4m3 ∨ s = .e5m2 then (genNan g 1, flagNV)
      else (carryNan f g x, flagIf (fSnan f x || d == .e4m3 || d == .e5m2) flagNV)
    | .inf n => carryInf g sat n
    | .num n m e => roundMag g r sat n m e false

/-- A floating value as an integer (R192). -/
def fToI (s d : Ty) (r : Rnd) (x : Nat) : Res1 :=
  match fVal (fmtOf s) x with
  | .nan => (0, flagNV)
  | .inf n => (lowBits (tyWidth d) (if n then intMin d else intMax d), flagNV)
  | .num n m e =>
    let (q, inexact) := roundWhole r n m e
    let v : Int := if n then -(q : Int) else q
    if v < intMin d then (lowBits (tyWidth d) (intMin d), flagNV)
    else if intMax d < v then (lowBits (tyWidth d) (intMax d), flagNV)
    else (lowBits (tyWidth d) v, flagIf inexact flagNX)

/-- An integer as a floating value (R192). -/
def iToF (s d : Ty) (r : Rnd) (sat : Bool) (x : Nat) : Res1 :=
  let v := intOf s x
  roundMag (fmtOf d) r sat (decide (v < 0)) v.natAbs 0 false

/-- One element of `vcvt` (R191, R192, R298). -/
def convert (s d : Ty) (r : Rnd) (sat : Bool) (x : Nat) : Res1 :=
  if tyInteger s then (if tyInteger d then reduceInt d sat (intOf s x) else iToF s d r sat x)
  else if tyInteger d then fToI s d r x
  else fToF s d r sat x

/-! ### MX elements (R183, R184, R299-R302) -/

/-- The format of an MX floating element. -/
def mxFmt : MxFmt → Fmt
  | .e4m3 => fmtE4M3 | .e3m2 => fmtE3M2 | .e2m1 => fmtE2M1 | .mxint8 => fmtE4M3

/-- The width of an MX code in registers (R299). -/
def mxWidth : MxFmt → Nat
  | .e2m1 => 4 | _ => 8

/-- emax (R299). -/
def mxEmax : MxFmt → Int
  | .mxint8 => 0 | .e4m3 => 8 | .e3m2 => 4 | .e2m1 => 2

/-- The value of an MX code (R183); the two upper bits of an E3M2 code are ignored. -/
def mxVal (k : MxFmt) (x : Nat) : FVal :=
  match k with
  | .mxint8 => let v := signedOf 8 x; .num (decide (v < 0)) v.natAbs (-6)
  | .e3m2 => fVal fmtE3M2 (x % 64)
  | _ => fVal (mxFmt k) x

/-- One element of `vcvt.mx` (R300). -/
def mxDecode (k : MxFmt) (t : Ty) (r : Rnd) (sat : Bool) (x s : Nat) : Res1 :=
  let g := fmtOf t
  if s = 0xFF then (genNan g 2, flagNV)
  else
    match mxVal k x with
    | .nan => (genNan g 1, flagNV)
    | .inf n => carryInf g sat n
    | .num n m e => roundMag g r sat n m (e + (s : Int) - 127) false

/-- A number as an MXINT8 code: rounded, clamped to -127..127 (R192). -/
def toMxint (r : Rnd) (neg : Bool) (m : Nat) (e : Int) : Res1 :=
  let (q, inexact) := quanta r neg m e (-6) false
  let c := min q 127
  (lowBits 8 (if neg then -(c : Int) else c), flagIf (127 < q) (flagOF ||| flagNX) ||| flagIf inexact flagNX)

/-- One element of `vcvt.tomx` (R301). -/
def mxEncode (k : MxFmt) (t : Ty) (r : Rnd) (sat : Bool) (x s : Nat) : Res1 :=
  let none_ := if k = .e4m3 then 0x7F else 0
  match fVal (fmtOf t) x with
  | .nan => (none_, flagNV)
  | v =>
    if s = 0xFF then (none_, flagIf (k == .e4m3) flagNV)
    else
      match v with
      | .inf n =>
        if k = .mxint8 then (lowBits 8 (if n then -127 else 127), 0) else carryInf (mxFmt k) sat n
      | .num n m e =>
        let e' := e + 127 - (s : Int)
        if k = .mxint8 then toMxint r n m e'
        else
          let g := mxFmt k
          let (b, fl) := roundMag g r sat n m e' false
          (if b % 2 ^ (g.eb + g.mb) = 0 then 0 else b, fl)
      | .nan => (none_, flagNV)

/-- floor(log2 |x|) of a number that is not zero. -/
def ilog2 : FVal → Int
  | .num _ m e => e + bitLen m - 1
  | _ => 0

/-- The shared scale of a block (R302). -/
def mxScale (k : MxFmt) (vs : List FVal) : Nat :=
  if vs.any fun v => match v with | .num _ _ _ => false | _ => true then 0xFF
  else
    let nz := vs.filter fun v => match v with | .num _ m _ => m != 0 | _ => false
    match nz with
    | [] => 0x7F
    | v :: r =>
      let e := r.foldl (fun (a : Int) x => if a < ilog2 x then ilog2 x else a) (ilog2 v)
      let s := e - mxEmax k + 127
      if s < 0 then 0 else if 254 < s then 254 else s.toNat

/-! ### Special functions (R200, R201) -/

/-- The eight functions of OP 0x02, by FN. -/
inductive SfuFn where
  | rcp | rsq | sqrt | exp2 | log2 | sinpi | cospi | tanh
  deriving DecidableEq, Repr

/-- FN of a special function (R269). -/
def sfuCode : SfuFn → Nat
  | .rcp => 0 | .rsq => 1 | .sqrt => 2 | .exp2 => 3 | .log2 => 4 | .sinpi => 5 | .cospi => 6 | .tanh => 7

/-- Whole square root by bits, from the highest down. -/
def isqrtFrom (x : Nat) : Nat → Nat → Nat
  | 0, a => a
  | k + 1, a => let b := a + 2 ^ k; isqrtFrom x k (if b * b ≤ x then b else a)

/-- The whole square root of a number. -/
def isqrt (x : Nat) : Nat := isqrtFrom x (bitLen x / 2 + 1) 0

/-- The exact quotient or root m * 2^e, with 80 bits or more and a sticky bit. -/
def rootVal (m : Nat) (e : Int) : Nat × Int × Bool :=
  let k : Nat := if (e - 200) % 2 = 0 then 200 else 201
  let x := m * 2 ^ k
  let q := isqrt x
  (q, (e - k) / 2, q * q != x)

/-- The reciprocal of m * 2^e, with a sticky bit. -/
def recipVal (m : Nat) (e : Int) : Nat × Int × Bool :=
  let k := 200 + bitLen m
  (2 ^ k / m, -(e + k), 2 ^ k % m != 0)

/-! #### Fixed-point values: whole numbers of 2^-256 -/

/-- The natural logarithm of 2. -/
def fixLn2 : Nat := 0xb17217f7d1cf79abc9e3b39803f2f6af40f343267298b62d8a0d175b8baafa2b
/-- The number pi. -/
def fixPi : Nat := 0x3243f6a8885a308d313198a2e03707344a4093822299f31d0082efa98ec4e6c89

/-- The product of two. -/
def fixMul (a b : Nat) : Nat := a * b / 2 ^ 256

/-- m * 2^e, cut off. -/
def fixOf (m : Nat) (e : Int) : Nat := if 0 ≤ e + 256 then m * 2 ^ (e + 256).toNat else m / 2 ^ (-(e + 256)).toNat

/-- 2^r for r below 1, by the series of the exponential. -/
def fixPow2 (r : Nat) : Nat :=
  let x := fixMul r fixLn2
  ((List.range 64).foldl (fun (a : Nat × Nat) i => (a.1 + a.2, fixMul a.2 x / (i + 1))) (0, 2 ^ 256)).1

/-- log2 z for z from 1 to 2, by the series of the inverse hyperbolic tangent. -/
def fixLog2 (z : Nat) : Nat :=
  let u := (z - 2 ^ 256) * 2 ^ 256 / (z + 2 ^ 256)
  let q := fixMul u u
  let s := ((List.range 84).foldl (fun (a : Nat × Nat) i => (a.1 + a.2 / (2 * i + 1), fixMul a.2 q)) (0, u)).1
  2 * s * 2 ^ 256 / fixLn2

/-- sin (pi r) for r up to 1/2, by its series. -/
def fixSin (r : Nat) : Nat :=
  let x := fixMul r fixPi
  let q := fixMul x x
  ((List.range 40).foldl (fun (a : Int × Nat) i =>
    (if i % 2 = 0 then a.1 + a.2 else a.1 - a.2, fixMul a.2 q / ((2 * i + 2) * (2 * i + 3)))) (0, x)).1.toNat

/-- sin (pi r) for r below 2: whether it is negative, and its magnitude. -/
def fixSinPi (r : Nat) : Bool × Nat :=
  let one : Nat := 2 ^ 256
  let h := r % one
  (decide (one ≤ r), fixSin (if 2 * h ≤ one then h else one - h))

/-- tanh of a positive number: one at 128 and beyond, where it differs by less than 2^-256. -/
def fixTanh (m : Nat) (e : Int) : Nat :=
  let one : Nat := 2 ^ 256
  if 8 ≤ e + bitLen m then one
  else
    let z := 2 * fixOf m e * one / fixLn2
    let r := z % one
    let p := if r = 0 then one / 2 ^ (z / one) else fixPow2 (one - r) / 2 ^ (z / one + 1)
    (one - p) * one / (one + p)

/-! #### Results within a bound (R201; log 9) -/

/-- A number as a signed multiple of a power of two: the infinities stand for the power of two past the largest number. -/
def signedNum (f : Fmt) (x : Nat) : Option (Int × Int) :=
  match fVal f x with
  | .nan => none
  | .inf n => some (if n then -1 else 1, (f.bias : Int) + 1)
  | .num n m e => some (if n then -(m : Int) else (m : Int), e)

/-- Whether two numbers differ by no more than a third. -/
def nearNum (a b c : Int × Int) : Bool :=
  let e := min a.2 (min b.2 c.2)
  let at_ := fun (x : Int × Int) => x.1 * 2 ^ (x.2 - e).toNat
  decide ((at_ a - at_ b).natAbs ≤ (at_ c).natAbs)

/-- The unit in the last place of the result format at m * 2^e, as its exponent: that of the subnormals below the normal
range (R201). -/
def ulpExp (f : Fmt) (m : Nat) (e : Int) : Int := max (e + bitLen m - 1) (1 - (f.bias : Int)) - f.mb

/-- The bits that a function may return for a value (-1)^neg * m * 2^e: the free ones where they lie within the bound, `k` units in the
last place or, where it is given, the width 2^w, and otherwise the nearest number. With `sticky` the value is m * 2^e only nearly. The
flags follow from the result (R189, R190). -/
def bounded (f : Fmt) (k : Nat) (w : Option Int) (neg : Bool) (m : Nat) (e : Int) (sticky : Bool) (free : Nat) : Res1 :=
  let near := roundMag f .rne false neg m e sticky
  let width := fun (b : Int × Int) (y : Int × Int) => match w with
    | some w => match signedNum f free with | some x => nearNum x y b || nearNum x y (1, w) | none => false
    | none => match signedNum f free with | some x => nearNum x y b | none => false
  let sign := fun (n : Nat) => (if neg then -(n : Int) else (n : Int), e)
  let slack := if sticky then 4096 else 0
  let ulp : Int × Int := ((k : Int), ulpExp f m e)
  let r := if width ulp (sign (m - slack)) || width ulp (sign (m + slack)) then free else near.1
  let exact := !sticky && (match signedNum f r with | some x => nearNum x (sign m) (0, 0) | none => false)
  if r = near.1 then (r, if sticky then near.2 ||| flagNX else near.2)
  else if exact then (r, 0)
  else
    match fVal f r with
    | .inf _ => (r, flagOF ||| flagNX)
    | .num _ x _ => (r, flagNX ||| flagIf (decide (x < 2 ^ f.mb)) flagUF)
    | .nan => near

/-- Whether m * 2^e is a whole number. -/
def isWhole (m : Nat) (e : Int) : Bool := decide (0 ≤ e) || m % 2 ^ (-e).toNat == 0

/-- Whether the whole number m * 2^e is odd. -/
def wholeOdd (m : Nat) (e : Int) : Bool :=
  if 0 < e then false else (m / 2 ^ (-e).toNat) % 2 == 1

/-- A special function of one sub-element (R200, R201, R303). -/
def sfu (fn : SfuFn) (t : Ty) (x : Nat) : Res1 :=
  let f := fmtOf t
  let free := Config.sfuBits (sfuCode fn) t x % 2 ^ tyWidth t
  let one := f.bias * 2 ^ f.mb
  let ulps := if t = .f32 then 2 else 1
  let near := fun (neg : Bool) (y : Nat) => bounded f ulps none neg y (-256) true free
  match fVal f x with
  | .nan => (fQuiet f x, flagIf (fSnan f x) flagNV)
  | .inf n =>
    match fn with
    | .rcp => (withSign f n 0, 0)
    | .rsq => if n then (genNan f 5, flagNV) else (0, 0)
    | .sqrt => if n then (genNan f 5, flagNV) else (x, 0)
    | .exp2 => if n then (0, 0) else (x, 0)
    | .log2 => if n then (genNan f 5, flagNV) else (x, 0)
    | .sinpi => (genNan f 6, flagNV)
    | .cospi => (genNan f 6, flagNV)
    | .tanh => (withSign f n one, 0)
  | .num n m e =>
    match fn with
    | .rcp =>
      if m = 0 then (infBits f n, flagDZ)
      else let (q, d, st) := recipVal m e; bounded f 1 none n q d st free
    | .rsq =>
      if m = 0 then (infBits f n, flagDZ)
      else if n then (genNan f 5, flagNV)
      else
        let (q, d, st) := rootVal m e
        let (q', d', st') := recipVal q d
        bounded f 1 none false q' d' (st || st') free
    | .sqrt =>
      if m = 0 then (x, 0)
      else if n then (genNan f 5, flagNV)
      else let (q, d, st) := rootVal m e; roundMag f .rne false false q d st
    | .exp2 =>
      if isWhole m e then
        let k : Int := ((m * 2 ^ e.toNat / 2 ^ (-e).toNat : Nat) : Int)
        roundMag f .rne false false 1 (if n then -k else k) false
      else if !n && decide ((f.eb : Int) ≤ e + bitLen m) then overflow f .rne false false
      else if n && decide ((f.eb : Int) + 3 ≤ e + bitLen m) then bounded f ulps none false 1 (-1024) false free
      else
        let y := fixOf m e
        let r := y % 2 ^ 256
        let k : Nat := y / 2 ^ 256
        if n then bounded f ulps none false (fixPow2 (2 ^ 256 - r)) (-257 - (k : Int)) true free
        else bounded f ulps none false (fixPow2 r) ((k : Int) - 256) true free
    | .log2 =>
      if m = 0 then (infBits f true, flagDZ)
      else if n then (genNan f 5, flagNV)
      else if m = 2 ^ (bitLen m - 1) then
        let k := e + bitLen m - 1
        roundMag f .rne false (decide (k < 0)) k.natAbs 0 false
      else
        let k := e + bitLen m - 1
        let y : Int := k * 2 ^ 256 + ((fixLog2 (fixOf m (1 - (bitLen m : Int))) : Nat) : Int)
        bounded f ulps (if t = .f32 && (k == -1 || k == 0) then some (-22) else none) (decide (y < 0)) y.natAbs (-256) true free
    | .sinpi =>
      let y := fixSinPi (fixOf m e % 2 ^ 257)
      if m = 0 then (x, 0)
      else if isWhole m e then (withSign f n 0, 0)
      else if isWhole m (e + 1) then (withSign f (n != y.1) one, 0)
      else near (n != y.1) y.2
    | .cospi =>
      if isWhole m e then (withSign f (wholeOdd m e) one, 0)
      else if isWhole m (e + 1) then (0, 0)
      else let y := fixSinPi ((fixOf m e + 2 ^ 255) % 2 ^ 257); near y.1 y.2
    | .tanh => if m = 0 then (x, 0) else near n (fixTanh m e)

end Sys2Proof.Machine
end

