-- ==== Sys2Proof/Machine/State.lean ====
section
/-! DEFINITION. The state of the package as plain data (R1-R376): dies, cores, contexts, warps, units, engines,
links and package memory, and the state right after reset. Each field's rule and reset value is listed in
INVENTORY.md; "(model)" marks a field that is the model's own. -/

namespace Sys2Proof.Machine

/-- Bytes, words or slots by address, sparse: addresses rise strictly and no entry is zero. -/
abbrev Sparse (n : Nat) := List (Nat × BitVec n)

/-- Package memory by physical address, and scratchpads by offset. -/
abbrev Memory := List Host.Cell

/-- Why a step stops. -/
inductive Fault where
  /-- An instruction is executed in a state that names no issuing warp and split for it. Raised by the shared
  issue operation only; no step of the machine reaches it. Safe. -/
  | noIssuer
  deriving DecidableEq, Repr

/-- Why a step has no meaning. -/
inductive Refusal where
  /-- The instruction has no meaning yet in the model. Raised by arms of `exec` only. Safe. -/
  | notModelled (mnemonic : String)
  deriving DecidableEq, Repr

/-- States of a die (R19). -/
inductive DState where
  | online | coresOffline | dieOffline
  deriving DecidableEq, Repr

/-- States of a voltage and frequency island (R17). -/
inductive IslandSt where
  | on | gated | off
  deriving DecidableEq, Repr

/-- Kinds of start, field START (R50). -/
inductive StartKind where
  | cold | warm | recovery | romHold
  deriving DecidableEq, Repr

/-- A cached leaf (R135). `base` and `size` are the virtual range, `pte` the leaf as cached, `leafAt` the physical address
of its entry (R134). -/
structure TlbEntry where
  ctx : Fin 64
  base : Nat
  size : Nat
  pte : Word
  leafAt : Nat
  deriving DecidableEq, Repr

/-- A cached non-leaf entry of a level (R130, R135): `base` is the virtual address from which it maps, `pte` the pointer
entry as cached. -/
structure NodeEntry where
  ctx : Fin 64
  level : Nat
  base : Nat
  pte : Word
  deriving DecidableEq, Repr

/-- A miss waiting for a walker (R136), for the 64 KiB page number `page`; `cores` wait for it, for the splits of `splits`, each a warp and its
split, and the engine operations of `ops`. -/
structure WalkReq where
  ctx : Fin 64
  page : Nat
  cores : List (Fin 384)
  splits : List (Nat × Fin 8)
  ops : List Nat
  deriving DecidableEq, Repr

/-- A walk that ended in a fault, with its cause, kept until the instruction or operation that missed takes it (R27, R132). -/
structure WalkFail where
  ctx : Fin 64
  page : Nat
  cause : Nat
  pte : Word
  deriving DecidableEq, Repr

/-- States of an L2 sector (R149). -/
inductive L2St where
  | s | e | m | f
  deriving DecidableEq, Repr

/-- A line that a die's L2 holds (R148-R150): `line` is PA / 256, and `st` the state of each sector, `none` for I. `data` is
the data of sectors that another die answers for; those of the holder are package memory's (log 8). `compact` tells that
only the sectors held count against the slice, as for a term page (R149), and `mc` is MC. `due` lists the contexts whose writes of
package scope or wider the line took while it was migrated: it is recalled for them (R161). A list of lines stands in the order of their
last use, the latest first. -/
structure L2Line where
  line : Nat
  st : Vector (Option L2St) 4
  data : BitVec 2048
  hint : Fin 4
  compact : Bool
  mc : Fin 16
  due : List (Fin 64)
  deriving DecidableEq, Repr

/-- What one fault reports (R243-R248). `ecc` is the die on which the consumer of a fault of cause 0x0014 finds data in error
again, and which counts it (R50, R52). -/
structure FaultInfo where
  cause : Nat
  va : Word
  pte : Word
  handle : BitVec 32
  elem : Nat
  hnd : Bool
  late : Bool
  lanes : Mask
  ecc : Option (Fin 2)
  deriving DecidableEq, Repr

/-- A fault-buffer slot in use (R137, R249). -/
structure SlotRec where
  slot : Nat
  ctx : Fin 64
  cause : Nat
  va : Word
  route : Nat
  words : List Word
  splits : List (Nat × Fin 8)
  handle : BitVec 32
  elem : Nat
  deriving DecidableEq, Repr

/-- A fault on its way to a slot of the fault buffer (R137 step 5): with `ends`, its context ends once the record is written
(R250). -/
structure WaitFault where
  ctx : Fin 64
  cause : Nat
  va : Word
  route : Nat
  words : List Word
  split : Nat × Fin 8
  handle : BitVec 32
  elem : Nat
  ends : Bool
  deriving DecidableEq, Repr

/-- A fault that arose while its context was halting, and is delivered after the resume (R100, R108): the die of its core, its
record, the lanes for TMASK, and the address at which its split goes on. -/
structure Await where
  die : Fin 2
  q : WaitFault
  act : Mask
  lanes : Mask
  again : Word
  deriving DecidableEq, Repr

/-- One die (R10-R23, R29, R30, R43-R54, R249). `saved` is the digest of the repair and training values that a warm start
uses again (R46). `closing` tells that its close for die-offline has begun (R21). `engFails` lists the failed walks of engine operations, by
their ids. `served` lists the records of another part that fault-service warps imported from it serve (R68). -/
structure Die where
  dstate : DState
  closing : Bool
  islands : Vector IslandSt 16
  clock : Vector (BitVec 8) 12
  meas : Vector (BitVec 384) 8
  start : StartKind
  starting : Option (StartKind × Nat)
  fails : Fin 4
  rr : Bool
  trip : Bool
  retCores : BitVec 192
  pendCores : BitVec 192
  modules : BitVec 96
  ports : Vector (BitVec 8) 8
  corr : Word
  uncorr : Word
  retWays : Vector (BitVec 24) 64
  retPcs : Vector (BitVec 64) 12
  errLog : List (ErrLoc × Nat)
  refresh2x : BitVec 12
  throttled : Bool
  minVer : Nat
  saved : Option (BitVec 384)
  ident : Word
  windows : Sparse 64
  fbase : Word
  slots : List SlotRec
  faultQ : List WaitFault
  tlb : List TlbEntry
  nodes : List NodeEntry
  walks : List WalkReq
  engFails : List (Nat × WalkFail)
  served : List SlotRec
  l2 : List L2Line
  fwd : List Nat
  deriving DecidableEq, Repr

/-- A line of L1 (R146, R147); `line` is PA / 256, `dirty` has one bit per byte, and `scope` is the SCOPE of the
page of the last access to it (R165). `owner` is the context that stored to it last, `poison` marks the sectors that
hold data in error, and `renewed` the bytes stored there since (R52). -/
structure L1Line where
  line : Nat
  scope : Scope
  data : BitVec 2048
  valid : BitVec 4
  dirty : BitVec 256
  hint : Fin 4
  used : Nat
  owner : Option (Fin 64)
  poison : BitVec 4
  renewed : BitVec 256
  deriving DecidableEq, Repr

/-- What a core's slot of shadow storage holds (R102, R105): the context whose units it keeps, the core's word at the halt, where the
control image of each unit lies, as the unit, its offset and its length in KiB, and the engines whose macros were moved. The granules lie at
their pool positions; their contents stand with the units. -/
structure Shadow where
  ctx : Fin 64
  word : BitVec 32
  images : List (Nat × Nat × Nat)
  macros : BitVec 8
  deriving DecidableEq, Repr

/-- One core (R86-R90, R94, R102, R135, R146). `fails` lists the failed walks of the split that tries to issue, while it does (model). -/
structure Core where
  ppw : BitVec 32
  l1 : List L1Line
  tlb : List TlbEntry
  fails : List WalkFail
  issue : Vector (BitVec 32) 4
  lastIssue : Vector (Option Nat) 4
  cyc0 : Nat
  slot : Option Shadow
  swap : Option (Fin 64 × Nat)
  deriving DecidableEq, Repr

/-- A partition table entry (R56). -/
structure Part where
  valid : Bool
  isl1 : BitVec 12
  isl0 : BitVec 12
  vf : Nat
  dbase : Word
  deriving DecidableEq, Repr

/-- A launch record, field by field (R76). -/
structure LRec where
  entry : Word
  items : Nat
  wpu : Nat
  emask : BitVec 8
  prio : Nat
  chm : BitVec 4
  te : Bool
  xc : Bool
  trapen : Bool
  chain : Bool
  ppw : BitVec 32
  args : Word
  cdef : Word
  graph : Nat
  phase : Nat
  scrk : Nat
  tv : Nat
  ts : Nat
  vregs : Nat
  acct : Nat
  resv : Bool
  wait : BitVec 256
  set : BitVec 256
  words : List Word
  deriving DecidableEq, Repr

/-- A chain default block (R233). -/
structure ChainDef where
  defs : Vector Word 4
  km1 : Vector Nat 4
  area : Word
  bad : Bool
  deriving DecidableEq, Repr

/-- States of a launch (R80, R366). -/
inductive LState where
  | held | ready | running | done | cancelled | refused
  deriving DecidableEq, Repr

/-- A launch of a context (R80). `id` is its place among the job's launches, and `age` orders the launches of all
contexts (R83). `fin` tells that the steps of R79 are done. -/
structure Launch where
  id : Nat
  age : Nat
  r : LRec
  cd : ChainDef
  st : LState
  status : Nat
  handle : BitVec 32
  total : Nat
  next : Nat
  retired : Nat
  cancel : Bool
  fin : Bool
  deriving DecidableEq, Repr

/-- States of a handle-table entry (R126). -/
inductive HState where
  | free | pending | done | faulted | cancelled
  deriving DecidableEq, Repr

/-- Who owns a handle: a unit, or a job or fault-service warp (R126). -/
inductive Owner where
  | unit (u : Nat)
  | warp (w : Nat)
  deriving DecidableEq, Repr

/-- An entry of a context's handle table (R125, R126). -/
structure HEntry where
  slot : Nat
  gen : BitVec 9
  st : HState
  cls : Nat
  eng : Nat
  owner : Owner
  creator : Nat
  status : Nat
  cause : Nat
  va : Word
  pte : Word
  elem : Nat
  finalAt : Nat
  cancelReq : Bool
  wscope : Scope
  deriving DecidableEq, Repr

/-- States of a context, field STATE (R58). -/
inductive CState where
  | free | idle | running | halting | halted | ended
  deriving DecidableEq, Repr

/-- One context (R58-R63, R74, R78, R80, R126, R246). `held` is a held start: ENTRY, ARG and SEQ. `jobWait` tells that an
accepted start waits for a place, and `jobEntry` and `jobArg` are those of the job. `resvUnit` counts for the first unit
of the examination order: its launch and index, and the cycle since which no core can take it; `resvCore` lists the units
that have a core reserved, each with its core (R83). `jobEnd` is the END of a job whose cancel goes on (R60, R80). -/
structure Ctx where
  st : CState
  mode : Bool
  die : Fin 2
  part : Fin 32
  vec : Fin 16
  root : Word
  image : Word
  entry : Word
  arg : Word
  caddr : Word
  seq : BitVec 32
  last : BitVec 8
  held : Option (Word × Word × BitVec 32)
  jobWait : Bool
  jobEntry : Word
  jobArg : Word
  before : CState
  spilled : Bool
  clock : Nat
  clockAt : Nat
  ev : BitVec 256
  cph : Nat
  abort : Bool
  launches : List Launch
  launchCount : Nat
  handles : List HEntry
  route : Word
  tvec : Word
  svec : Word
  resvUnit : Option (Nat × Nat × Nat)
  resvCore : List (Nat × Nat × Fin 384)
  await : List Await
  jobEnd : Option Nat
  deriving DecidableEq, Repr

/-- States of a unit (R92). A retired unit of a chained launch stays listed, with no resource, until its launch is
done: later units read past its closed items (R235). -/
inductive UState where
  | resident | retiring | swapped | retired
  deriving DecidableEq, Repr

/-- KIND of a tile (R212). -/
inductive TKind where
  | empty | int | fp
  deriving DecidableEq, Repr

/-- An accumulator tile: slot (m, n) at key 256 m + n, and its flags byte (R212). -/
structure Tile where
  slots : Sparse 64
  kind : TKind
  cv : Bool
  nv : Bool
  ovf : Bool
  satf : Bool
  deriving DecidableEq, Repr

/-- A bank of a weight macro: cell (row, n) at key 256 row + n; scale byte at key 256 b + n; tag (R202). -/
structure Bank where
  cells : Sparse 8
  scales : Sparse 8
  tag : Option (Fin 16)
  deriving DecidableEq, Repr

/-- A term engine's state (R202, R204). -/
structure Eng where
  banks : Vector Bank 2
  norm : Sparse 32
  cfg : BitVec 16
  deriving DecidableEq, Repr

/-- A unit barrier (R331). -/
structure Bar where
  gen : BitVec 32
  arr : Mask
  deriving DecidableEq, Repr

/-- States of an expand context (R222). -/
inductive XState where
  | free | gathering | opened
  deriving DecidableEq, Repr

/-- A participant of an expand context: its warp, rounds executed (rw + 1), next ordinal, whether it ended,
and the lanes it brought (R223-R227). -/
structure XPart where
  warp : Nat
  rank : Nat
  rounds : Nat
  ord : Nat
  ended : Bool
  live : Mask
  start : Lanes Word
  len : Lanes Nat
  split : Fin 8
  deriving DecidableEq, Repr

/-- A reduction step (R225): contributions are (participant, position, owner, value). -/
structure XStep where
  round : Nat
  ord : Nat
  op : RedOp
  ty : Ty
  sat : Bool
  vdst : Fin 256
  parts : List Nat
  contrib : List (Nat × Nat × Nat × Word)
  handles : List (BitVec 32)
  deriving DecidableEq, Repr

/-- An expand context (R222, R231). -/
structure XCtx where
  st : XState
  g : Nat
  parts : List XPart
  steps : List XStep
  deriving DecidableEq, Repr

/-- A filled slot of a chain buffer or mailbox line (R238, R239): `none` at a value is a default mark. -/
structure CFill where
  bnd : Nat
  ch : Fin 4
  occ : Nat
  vals : List (Option Word)
  deriving DecidableEq, Repr

/-- A pending mailbox fault of a fill (R239). -/
structure MailFault where
  ch : Fin 4
  occ : Nat
  cause : Nat
  va : Word
  pte : Word
  deriving DecidableEq, Repr

/-- A resident, retiring or swapped unit (R81, R92). `bnd` of a chain-buffer fill is the rank before it. `regs`, `scr` and
`acc` mark the 1 KiB granules of the core's pool that it holds, bit i for the i-th KiB. Its warps run from the cycle `since` on, which a
return from shadow storage sets (R102, R106), `placed` orders the placements on a core, and `unsaved` counts
the bytes of its warps' registers that the last swap did not move (R102). -/
structure UnitSt where
  id : Nat
  ctx : Fin 64
  launch : Nat
  index : Nat
  core : Fin 384
  st : UState
  regs : BitVec 1536
  scr : BitVec 1536
  acc : BitVec 1536
  scratch : Memory
  tiles : Vector Tile 8
  engs : Vector Eng 8
  bars : Vector Bar 16
  xctx : Vector XCtx 4
  cdefs : Vector Word 4
  cbufs : List CFill
  mailFault : List MailFault
  cancel : Bool
  since : Nat
  placed : Nat
  unsaved : Nat
  deriving DecidableEq, Repr

/-- STATE of a split (R115). -/
inductive SplitSt where
  | runnable | parked | blocked
  deriving DecidableEq, Repr

/-- Where a split stands at a safe point (R96, R99): after a `safept` of a halting warp, or at a blocking instruction
that waits. -/
inductive Stop where
  | no | safept (idx : BitVec 16) | blocking
  deriving DecidableEq, Repr

/-- A split-table entry (R115). `count` is R97's, `idle` the cycles it was ready and not chosen, `overdue`
that it is overdue (R94), `held` that a chained result is outstanding (R123), `susp` that it is suspended on a fault (R137), `timer` the cycle of
a waiting `waitv`'s last read and `wtimer` that of its last read of a window (R328). `fails` lists the failed walks of the instruction that
waits (R132, R137), and `ewait` the mask of a waiting `evwait`, zero once it has held (R364). -/
structure Split where
  age : BitVec 32
  pc : Word
  rpc : Word
  st : SplitSt
  depth : Nat
  record : Option (Fin 16)
  dr : Bool
  mask : Mask
  count : Nat
  idle : Nat
  overdue : Bool
  held : Bool
  susp : Bool
  stop : Stop
  timer : Nat
  wtimer : Nat
  fails : List WalkFail
  ewait : Option (BitVec 256)
  deriving DecidableEq, Repr

/-- A rejoin record (R115). `dset` is DF with DMASK and DPC. -/
structure Rejoin where
  rpc : Word
  dset : Option (Mask × Word)
  depth : Nat
  parent : Option (Fin 16)
  memb : Nat
  arrn : Nat
  done : Mask
  deriving DecidableEq, Repr

/-- A return-stack entry (R120). -/
structure RetEntry where
  link : Word
  mask : Mask
  deriving DecidableEq, Repr

/-- What a warp is: a warp of a unit, the job warp, or a fault-service warp of a slot (R62, R91, R251). A slot of 4,096 or more is that slot
less 4,096 of the part that the warp was imported from (R68). -/
inductive WKind where
  | unit (u : Nat)
  | job
  | service (die : Fin 2) (slot : Option Nat)
  deriving DecidableEq, Repr

/-- Chain state of one channel of a warp: counts, closed lanes, the held occurrences (R235, R237), how many fills of the boundary
after it are made, and the occurrences whose values have settled since, with the cycle (R238). -/
structure ChanSt where
  counts : Lanes Nat
  closed : Mask
  occs : List (Fin 32 × Nat × Word)
  filled : Nat
  settled : List (Nat × Nat)
  deriving DecidableEq, Repr

/-- An expand tag (R224, R232). -/
structure Tag where
  x : Fin 4
  owner : Nat
  j : Nat
  round : Nat
  deriving DecidableEq, Repr

/-- A failed domain or system access not yet reported (R35), with the lanes that it failed for. -/
structure LateFault where
  cause : Nat
  va : Word
  lanes : Mask
  deriving DecidableEq, Repr

/-- A warp (R5, R91, R109-R127, R193, R247, R331). `p` holds p0-p6 at 0-6. `sub` is the warp slot of a job or fault-service warp on its
dispatch core, and its sub-slot of shadow storage (R75, R104). From the cycle `entered` on its handler issues (R252). -/
structure Warp where
  id : Nat
  ctx : Fin 64
  core : Fin 384
  quad : Fin 4
  kind : WKind
  rank : Nat
  sub : Option (Fin 16)
  launched : Mask
  live : Mask
  vcount : Nat
  v : Vector (Lanes Word) 256
  s : Vector Word 128
  p : Vector Mask 8
  h : Vector (BitVec 32) 16
  splits : Vector (Option Split) 8
  recs : Vector (Option Rejoin) 16
  rstack : List RetEntry
  bracket : Option (Fin 8 × Mask)
  vpend : BitVec 256
  spend : BitVec 128
  flags : BitVec 16
  handler : Option (Fin 8)
  entered : Nat
  trec : Vector Word 8
  tepc : Word
  tmask : Word
  last : Vector (Option (BitVec 32)) 16
  chain : Vector ChanSt 4
  tags : Vector (Option Tag) 32
  late : List LateFault
  halting : Bool
  halted : Bool
  ended : Bool
  deriving DecidableEq, Repr

/-- What a copy-engine operation does (R343-R347). -/
inductive CKind where
  | plain | twoD | gather (isp iw : Bool) | scatter (isp iw : Bool) | reduce (op : CRedOp) | fill
  | encode (sat wide : Bool) (f : TFmt) | decode (sat wide : Bool) (f : TFmt)
  deriving DecidableEq, Repr

/-- A copy-engine operation with its operands as saved at issue (R341, R348). `slot` is the slot size of its term side.
For the element it is at: `tags` the link accesses outstanding, `buf` what its link reads returned, `sent` that its
write went out, `bad` that one failed. `sysw` is the physical address of its last write to the system window that no flushing read
has covered (R39). `ending` is the final state, and the fault, that its handle takes once its committed writes have been
performed (R172). `checked` is the block of a decode whose checks have been made (R347). -/
structure CopyOp where
  id : Nat
  ctx : Fin 64
  handle : BitVec 32
  eng : Nat
  unit : Option Nat
  core : Fin 384
  kind : CKind
  ssp : Bool
  dsp : Bool
  h : Fin 4
  ty : Ty
  a : Word
  b : Word
  c : Word
  d : Word
  i : Nat
  slot : Option Nat
  faulted : Bool
  tags : List Nat
  buf : List Word
  sent : Bool
  sysw : Option Nat
  bad : Option LateFault
  ending : Option (HState × FaultInfo)
  checked : Option Nat
  deriving DecidableEq, Repr

/-- What a matrix operation does (R352-R357). -/
inductive MKind where
  | ldw (rows row0 : Nat) (ssp : Bool) (bfmt : Nat)
  | norm (ssp : Bool)
  | mma (row0 kb : Nat)
  | zero
  | st (ty : Ty) (scaled relu : Bool)
  | fromTile (j m vr : Nat)
  | toTile (j m : Nat) (data : Lanes Word)
  | topk (k : Nat) (near : Bool)
  | dist
  deriving DecidableEq, Repr

/-- A matrix operation in an engine's queue (R213). `due` is set when it starts, and `blks` are the A blocks read then, each with
its row (R214); `row` is the next row of an `mldw`; `bad` a fault found at its start. For the row it is at: `tags` the link accesses outstanding, `buf` what its
link reads returned, `fail` a failed one. -/
structure MatOp where
  id : Nat
  ctx : Fin 64
  unit : Nat
  e : Fin 8
  kind : MKind
  tile : Option (Fin 8)
  bank : Option (Fin 2)
  handle : BitVec 32
  warp : Nat
  active : Mask
  cfg : BitVec 16
  a : Word
  b : Word
  c : Word
  d : Word
  due : Option Nat
  row : Nat
  blks : List (Nat × Nat)
  bad : Option (Nat × Word × Word)
  faulted : Bool
  tags : List Nat
  buf : List Word
  fail : Option LateFault
  quad : Fin 4
  issued : Nat
  deriving DecidableEq, Repr

/-- An MMU-maintenance operation (R372, R374). -/
inductive MaintKind where
  | tlbinv (lo len : Word)
  | dirtyclr (first count buf : Word)
  deriving DecidableEq, Repr

/-- An MMU-maintenance operation in flight; `i` is the next element of a `dirtyclr`, whose buffer lies on a link where
`tags` holds the accesses outstanding, `old` the word that is being written, and `bad` a failed access; `sysw` and `ending` are as
in a copy. -/
structure Maint where
  id : Nat
  ctx : Fin 64
  handle : BitVec 32
  kind : MaintKind
  i : Nat
  faulted : Bool
  core : Fin 384
  tags : List Nat
  old : Option Word
  sysw : Option Nat
  bad : Option LateFault
  ending : Option (HState × FaultInfo)
  deriving DecidableEq, Repr

/-- A pending `carve` (R90). -/
structure CarveOp where
  core : Fin 384
  ctx : Fin 64
  ppw : BitVec 32
  handle : BitVec 32
  deriving DecidableEq, Repr

/-- Paths on which a result returns to registers (R123, R237, R291, R303, R358). -/
inductive RKind where
  | load | sfu | vtos | mcount | chain | link | fetch
  deriving DecidableEq, Repr

/-- A result on its way: lane values of v-registers, an s-register value, a predicate, and the tags of link
accesses still outstanding; a `link` result waits for the instruction that issued it to take it, and a `fetch` result
for the fetch, at the address in `sw`; `bad` is a failed access among them; `due` is the cycle of a fixed latency, `holds` that it holds
its split (R123). -/
structure Result where
  id : Nat
  kind : RKind
  warp : Nat
  sp : Fin 8
  due : Option Nat
  mask : Mask
  vw : List (Fin 256 × Lanes Word)
  sw : Option (Fin 128 × Word)
  pw : Option (Fin 8 × Mask)
  tags : List Nat
  ty : Ty
  whole : Bool
  bad : Option LateFault
  holds : Bool
  deriving DecidableEq, Repr

/-- Kinds of domain and system accesses (R33, R40). -/
inductive LinkKind where
  | read | write | atomic | flush
  deriving DecidableEq, Repr

/-- What a read that lanes share brings to one of them: part `reg` of the lane's access, `bytes` bytes from `off` on of what
was read (R33). -/
structure Want where
  lane : Fin 32
  reg : Nat
  off : Nat
  bytes : Nat
  deriving DecidableEq, Repr

/-- A domain or system access outstanding (R33-R35, R39, R40), sent from a die for a context. It belongs to a lane of a warp, or
to an engine operation, whose id is `copy`; `reg` counts the 8-byte parts of a lane's access, and `wants` lists what a read
brings to each lane. `since` is the cycle it was sent. An operation that the link carries as a read and then
compare-and-swaps keeps its operands, and in `expect` the value it last read. `flushed` lists the warps whose flushing read
has covered a system write, and `pages` the bases and sizes of the leaf pages that it was translated through (R135). -/
structure LinkOp where
  tag : Nat
  sys : Bool
  kind : LinkKind
  warp : Nat
  lane : Fin 32
  reg : Nat
  result : Option Nat
  copy : Option Nat
  va : Word
  pa : Nat
  bytes : Nat
  since : Nat
  op : AtomOp
  ty : Ty
  x : Word
  y : Word
  expect : Option Word
  die : Fin 2
  ctx : Fin 64
  wants : List Want
  flushed : List Nat
  pages : List (Nat × Nat)
  deriving DecidableEq, Repr

/-- What a bridge packet carries (R25): a request or a response, a migration transfer or a message of a Drover, which have
their effect in the step that sends them, or the invalidation of a copy of a sector, which has it where it arrives (log 16).
`owner` is the context whose write it follows. -/
inductive PktBody where
  | request | response
  | migrate (line : Nat)
  | drover
  | inval (sector : Nat) (owner : Option (Fin 64))
  deriving DecidableEq, Repr

/-- A packet crossing the bridge (R25, R26). `again` marks a replay of one that the receiver has accepted. -/
structure Packet where
  dir : Fin 2
  src : Nat
  dst : Nat
  seq : Nat
  flits : Nat
  body : PktBody
  again : Bool
  deriving DecidableEq, Repr

/-- The Yelot bridge (R24-R27). `queue` holds the packets that wait to cross; `replay` those delivered and not yet
acknowledged. `retrain` is set from a failed training attempt to the next good one, and `attempts` counts the failed. -/
structure Bridge where
  down : Bool
  retrain : Option Nat
  attempts : Nat
  seq : Vector Nat 2
  queue : List Packet
  replay : List Packet
  deriving DecidableEq, Repr

/-- What the package sends to its host (R36, R38, R39, R63, R249). `fn` is the Requester ID: the PF as 0, or a VF (R38). An
access of the host is answered by `readData`, or by `readError` where its memory cannot be reached. -/
inductive HostMsg where
  | read (fn : Nat) (tag : Nat) (addr bytes : Nat)
  | atomicOp (fn : Nat) (tag : Nat) (op : AtomOp) (ty : Ty) (addr : Nat) (x y : Word)
  | msix (fn : Nat) (vector : Nat)
  | completion (fn : Nat) (addr : Word) (word : Word) (vector : Nat)
  | write (fn : Nat) (tag : Nat) (addr : Nat) (data : List Byte)
  | readData (data : List Byte)
  | readError
  | spdm (cert : List Byte) (meas : List (Nat × BitVec 384)) (sig : BitVec 768)
  | hotplug (arrival : Bool)
  | refused (why : String)
  | linkDown
  deriving DecidableEq, Repr

/-- A message that waits on its way to the host: on die 1 for the bridge (R26), on die 0 for the link (R42). `owner` is the context that it
is sent for. -/
structure HeldMsg where
  die : Fin 2
  owner : Option (Fin 64)
  msg : HostMsg
  deriving DecidableEq, Repr

/-- The host port (R10, R36, R41, R42). `held` lists the messages that wait, and `owed` the completions that wait at their Drover for a
place of their function's 64. `bar2` is the base of the BAR2 window. -/
structure HostPort where
  up : Bool
  held : List HeldMsg
  owed : List HeldMsg
  bar2 : Word
  deriving DecidableEq, Repr

/-- What the package sends over UALink (R31, R33). -/
inductive UaMsg where
  | request (die : Fin 2) (port : Nat) (p : UaPkt)
  | response (die : Fin 2) (port : Nat) (src dst : BitVec 12) (tag : Nat) (ok : Bool) (data : List Byte)
  deriving DecidableEq, Repr

/-- Validity of a mailbox line, kept in its home slice (R239). -/
structure Mail where
  ctx : Fin 64
  launch : Nat
  fill : CFill
  deriving DecidableEq, Repr

/-- A start that waits for a place on a dispatch core of a die, in order of acceptance (R62, R251). -/
inductive StartReq where
  | job (c : Fin 64)
  | service (c : Fin 64) (slot : Nat)
  deriving DecidableEq, Repr

/-- The state a save image carries (R66, R108). -/
structure Snapshot where
  ctx : Ctx
  units : List UnitSt
  warps : List Warp
  copies : List CopyOp
  mops : List MatOp
  maints : List Maint
  carves : List CarveOp
  results : List Result
  mails : List Mail
  again : List Await
  served : List (Fin 2 × SlotRec)
  deriving DecidableEq, Repr

/-- A save image the part has written or received, at physical address `pa`, with the digest of its body and the islands that it names. -/
structure Image where
  pa : Nat
  digest : BitVec 384
  size : Nat
  isl0 : Nat
  isl1 : Nat
  snap : Snapshot
  deriving DecidableEq, Repr

/-- Who acts next, when it is settled (model). -/
inductive Turn where
  | issue (w : Nat) (sp : Fin 8)
  | event (i : Instr)
  deriving DecidableEq, Repr

/-- The package. -/
structure State where
  now : Nat
  choices : Nat
  serial : Nat
  turn : Option Turn
  inbox : List Instr
  mem : Memory
  bad : List Nat
  dies : Vector Die 2
  cores : Vector Core 384
  parts : Vector Part 24
  refusal : Word
  ctxs : Vector Ctx 64
  warps : List Warp
  units : List UnitSt
  copies : List CopyOp
  mops : List MatOp
  maints : List Maint
  carves : List CarveOp
  results : List Result
  links : List LinkOp
  mails : List Mail
  dups : List TlbEntry
  starts : Vector (List StartReq) 2
  bridge : Bridge
  host : HostPort
  hostOut : List HostMsg
  uaOut : List UaMsg
  images : List Image
  deriving DecidableEq, Repr

/-- A tile as a new unit has it (R212). -/
def Tile.reset : Tile := { slots := [], kind := .empty, cv := false, nv := false, ovf := false, satf := false }

/-- A weight-macro bank as a new unit has it: invalid, scales zero (R202). -/
def Bank.reset : Bank := { cells := [], scales := [], tag := none }

/-- A term engine as a new unit has it (R202). -/
def Eng.reset : Eng := { banks := always 2 Bank.reset, norm := [], cfg := 0 }

/-- A free expand context (R222). -/
def XCtx.reset : XCtx := { st := .free, g := 0, parts := [], steps := [] }

/-- A die before its first start: only the always-on island is on (R17, R19; log 5). -/
def Die.reset : Die :=
  { dstate := .dieOffline, closing := false
    islands := tabulate 16 fun i => if i.val = 15 then .on else .off
    clock := always 12 40#8
    meas := always 8 0
    start := .cold, starting := none, fails := 0, rr := false, trip := false
    retCores := 0, pendCores := 0, modules := BitVec.allOnes 96, ports := always 8 4#8
    corr := 0, uncorr := 0, retWays := always 64 0, retPcs := always 12 0, errLog := []
    refresh2x := 0, throttled := false, minVer := 0, saved := none
    ident := 0, windows := [], fbase := 0, slots := [], faultQ := []
    tlb := [], nodes := [], walks := [], engFails := [], served := [], l2 := [], fwd := [] }

/-- A core held in reset: no partition word adopted, L1 and TLB empty (R89, R107). -/
def Core.reset : Core :=
  { ppw := 0, l1 := [], tlb := [], fails := [], issue := always 4 0, lastIssue := always 4 none
    cyc0 := 0, slot := none, swap := none }

/-- An undefined partition entry (R56). -/
def Part.reset : Part := { valid := false, isl1 := 0, isl0 := 0, vf := 0, dbase := 0 }

/-- The routing word of a new context and a new job: every cause field 3, reserved bits zero (R246). -/
def routeReset : Word := 0x000FFFFFFFFFFFFC#64

/-- A free context (R58, R60). -/
def Ctx.reset : Ctx :=
  { st := .free, mode := false, die := 0, part := 0, vec := 0, root := 0, image := 0
    entry := 0, arg := 0, caddr := 0, seq := 0, last := 0, held := none, jobWait := false, jobEntry := 0, jobArg := 0
    before := .idle, spilled := false, clock := 0, clockAt := 0
    ev := 0, cph := 0, abort := false, launches := [], launchCount := 0, handles := []
    route := routeReset, tvec := 0, svec := 0, resvUnit := none, resvCore := [], await := [], jobEnd := none }

/-- The Yelot bridge with nothing in flight (R24). -/
def Bridge.reset : Bridge :=
  { down := false, retrain := none, attempts := 0, seq := always 2 0, queue := [], replay := [] }

/-- The package right after reset: nothing started, no context, memory with nothing listed (R43, R249). -/
def State.reset : State :=
  { now := 0, choices := 0, serial := 0, turn := none, inbox := []
    mem := [], bad := [], dies := always 2 Die.reset, cores := always 384 Core.reset
    parts := always 24 Part.reset, refusal := 0, ctxs := always 64 Ctx.reset
    warps := [], units := [], copies := [], mops := [], maints := [], carves := [], results := []
    links := [], mails := [], dups := [], starts := always 2 [], bridge := Bridge.reset
    host := { up := true, held := [], owed := [], bar2 := 0 }, hostOut := [], uaOut := [], images := [] }

end Sys2Proof.Machine
end

