-- ==== Sys2Proof/Machine/Cells.lean ====
section
/-! DEFINITION. Sparse memory: package memory, scratchpads, accumulator slots and weight cells as lists of pairs
in one canonical form, keys strictly rising and no zero entry. An unlisted place reads as zero (log 4). Wider
values lie lowest byte first (R7). -/

namespace Sys2Proof.Machine

/-- The value at a place. -/
def look {n : Nat} : Sparse n → Nat → BitVec n
  | [], _ => 0
  | (k, x) :: r, a => if a < k then 0 else if a = k then x else look r a

/-- Replace the value at a place. A zero removes the entry. -/
def put {n : Nat} : Sparse n → Nat → BitVec n → Sparse n
  | [], a, x => if x = 0 then [] else [(a, x)]
  | (k, y) :: r, a, x =>
    if a < k then (if x = 0 then (k, y) :: r else (a, x) :: (k, y) :: r)
    else if a = k then (if x = 0 then r else (a, x) :: r)
    else (k, y) :: put r a x

/-- Keys rise strictly from a bound on, and no entry is zero. -/
def risingFrom {n : Nat} : Nat → Sparse n → Bool
  | _, [] => true
  | lo, (k, x) :: r => decide (lo ≤ k) && !(x == 0) && risingFrom (k + 1) r

/-- The canonical form of a sparse list. -/
def Sparse.wf {n : Nat} (m : Sparse n) : Bool := risingFrom 0 m

/-- The canonical form of memory. -/
def Memory.wf (m : Memory) : Bool := Sparse.wf (n := 8) m

/-- One byte of memory. -/
def readByte (m : Memory) (a : Nat) : Byte := look (n := 8) m a

/-- The value of `n` bytes from `a` on, lowest first. -/
def readN (m : Memory) (a : Nat) : Nat → Nat
  | 0 => 0
  | n + 1 => (readByte m a).toNat + 256 * readN m (a + 1) n

/-- Write the low `n` bytes of a number from `a` on, lowest first. -/
def writeN (m : Memory) (a : Nat) : Nat → Nat → Memory
  | 0, _ => m
  | n + 1, x => writeN (put (n := 8) m a (BitVec.ofNat 8 x)) (a + 1) n (x / 256)

/-- Write the bytes of a number whose mask bit is set. -/
def writeMasked (m : Memory) (a : Nat) (x mask : Nat) : Nat → Memory
  | 0 => m
  | n + 1 =>
    let m' := if mask % 2 = 1 then put (n := 8) m a (BitVec.ofNat 8 x) else m
    writeMasked m' (a + 1) (x / 256) (mask / 2) n

/-- Write a list of bytes. -/
def writeList (m : Memory) (a : Nat) : List Byte → Memory
  | [] => m
  | b :: r => writeList (put (n := 8) m a b) (a + 1) r

/-- The `n` bytes from `a` on. -/
def readList (m : Memory) (a : Nat) : Nat → List Byte
  | 0 => []
  | n + 1 => readByte m a :: readList m (a + 1) n

/-- A 64-bit word of memory. -/
def readWord (m : Memory) (a : Nat) : Word := BitVec.ofNat 64 (readN m a 8)

/-- How many bits of a vector are set. -/
def bitCount {n : Nat} (x : BitVec n) : Nat := ((List.range n).filter fun i => x.getLsbD i).length

/-- Drop the entries whose key fails a test. -/
def keep {n : Nat} (p : Nat → Bool) (m : Sparse n) : Sparse n := m.filter fun e => p e.1

end Sys2Proof.Machine
end

