-- ==== Sys2Proof/Machine/Cache.lean ====
section
/-! DEFINITION. The caches: L1 of a core (R146, R147), the L2 sectors and lines of a die (R148-R150), and the
accesses that reach a home slice. The value at a home slice is package memory's: L2 and HBM are one place in the
model (log 8). What L2 adds that a program can see, the copies one die holds of the other die's sectors, is kept
with its data; an invalidation of such a copy crosses the bridge as a packet. -/

namespace Sys2Proof.Machine

/-! ### Physical addresses -/

/-- Kinds of a physical address (R12). -/
inductive Region where
  | package | domain | system | hole
  deriving DecidableEq, Repr

/-- The region of a physical address, populated package memory included (R12, R13). -/
def regionOf (pa : Nat) : Region :=
  let sel := (pa >>> 41) % 2 ^ 15
  if sel = 0 then (if pa % 2 ^ 40 < Config.dieBytes then .package else .hole)
  else if sel = 2 ∨ sel = 3 then .system
  else if sel / 2 ^ 12 = 4 then .domain
  else .hole

/-- The die of a package-memory address (R2). -/
def dieOf (pa : Nat) : Fin 2 := if (pa >>> 40) % 2 = 1 then 1 else 0

/-- The other die. -/
def otherDie (d : Fin 2) : Fin 2 := if d = 0 then 1 else 0

/-- The die of a package core number (R2). -/
def coreDie (c : Fin 384) : Fin 2 := if c.val < 192 then 0 else 1

/-- The home slice of a package-memory address (R148). -/
def homeSlice (pa : Nat) : Fin 64 :=
  let f := fun n => (pa >>> n) % 64
  Fin.ofNat 64 (((((f 8 ^^^ f 14) ^^^ f 20) ^^^ f 26) ^^^ f 32) ^^^ ((pa >>> 38) % 4))

/-! ### Updates of a die and a core -/

/-- Change one die. -/
def modDie (s : State) (d : Fin 2) (f : Die → Die) : State :=
  { s with dies := s.dies.set d.val (f s.dies[d]) d.isLt }

/-- Change one core. -/
def modCore (s : State) (c : Fin 384) (f : Core → Core) : State :=
  { s with cores := s.cores.set c.val (f s.cores[c]) c.isLt }

/-- A fresh number of the model's own, for ids. -/
def fresh (s : State) : Nat × State := (s.serial, { s with serial := s.serial + 1 })

/-- What an access brings to the caches: its hint, whether it counts towards migration, its page's scope, whether the page is a
term page of wide slots or a read-duplicate page, and the context it is made for. -/
structure Acc where
  hint : Fin 4
  may : Bool
  scope : Scope
  wide : Bool
  repl : Bool
  owner : Option (Fin 64)
  deriving DecidableEq, Repr

/-- An access of the part itself, of the host or of another package. -/
def Acc.plain : Acc := { hint := 0, may := false, scope := .system, wide := false, repl := false, owner := none }

/-- An access that the part makes for a context. -/
def Acc.of (c : Fin 64) : Acc := { Acc.plain with owner := some c }

/-! ### Crossings of the bridge (R25-R27) -/

/-- The agents of a die that packets go between (R25): its 64 slices are 0 to 63. -/
def hostAgent : Nat := 64
/-- The agent of a UALink port. -/
def portAgent (p : Nat) : Nat := 65 + p
/-- The agent of a Drover. -/
def droverAgent : Nat := 73
/-- The agent of a die's register blocks. -/
def mmioAgent : Nat := 74

/-- Flits of packets delivered in a direction and not yet acknowledged. -/
def heldFlits (b : Bridge) (dir : Fin 2) : Nat := ((b.replay.filter fun p => p.dir == dir).map (·.flits)).sum

/-- Whether crossings stall: the bridge retrains, or a replay buffer of 8,192 flits has no room for a packet each way (R26). -/
def bridgeStalled (b : Bridge) : Bool :=
  b.retrain.isSome || decide (8192 < heldFlits b 0 + 4) || decide (8192 < heldFlits b 1 + 4)

/-- How a crossing from a die to a die stands. -/
inductive Cross where
  | free | stalled | down
  deriving DecidableEq, Repr

/-- Whether an agent of a die may reach the other now (R26, R27). -/
def crossing (s : State) (a b : Fin 2) : Cross :=
  if a = b then .free else if s.bridge.down then .down else if bridgeStalled s.bridge then .stalled else .free

/-- Whether a packet goes in a direction from an agent to its like. -/
def Packet.between (p : Packet) (dir : Fin 2) (at_ : Nat) : Bool := p.dir == dir && p.src == at_ && p.dst == at_

/-- Whether a packet may cross now (R25, R26): the bridge is trained, the replay buffer has room, and none of its pair waits before it. -/
def mayCross (b : Bridge) (dir : Fin 2) (at_ : Nat) : Bool :=
  b.retrain.isNone && decide (heldFlits b dir + 1 ≤ 8192) && !(b.queue.any fun p => p.between dir at_)

/-- A packet leaves a die: it crosses, and waits for its acknowledgement, or it waits in the sender's queue (R25, R26). -/
def sendPacket (s : State) (dir : Fin 2) (at_ : Nat) (body : PktBody) (now : Bool) : State :=
  let q := s.bridge.seq[dir]
  let p : Packet := { dir := dir, src := at_, dst := at_, seq := q, flits := 1, body := body, again := false }
  let go := now && mayCross s.bridge dir at_
  { s with bridge := { s.bridge with
      seq := s.bridge.seq.set dir.val (q + 1) dir.isLt
      queue := if go then s.bridge.queue else s.bridge.queue ++ [p]
      replay := if go then s.bridge.replay ++ [p] else s.bridge.replay } }

/-- Whether a packet is an invalidation that has not arrived. -/
def Packet.invalidates (p : Packet) : Bool := match p.body with | .inval _ _ => !p.again | _ => false

/-- Whether no invalidation of a sector copy waits to cross the bridge (R149, R161). -/
def noInval (s : State) : Bool := s.bridge.queue.all fun p => !p.invalidates

/-! ### L2: the lines of a slice (R147, R148) -/

/-- The home slice of a line (R148). -/
def lineSlice (line : Nat) : Fin 64 := homeSlice (line * 256)

/-- The line that a die's L2 holds. -/
def l2Find (s : State) (d : Fin 2) (line : Nat) : Option L2Line :=
  s.dies[d].l2.find? fun e => e.line == line

/-- The state of a sector in a line. -/
def L2Line.sector (e : L2Line) (sector : Nat) : Option L2St := e.st[Fin.ofNat 4 sector]

/-- The state of a sector in a die's L2. -/
def l2State (s : State) (d : Fin 2) (sector : Nat) : Option L2St := (l2Find s d (sector / 4)).bind (·.sector sector)

/-- Change the line that a die's L2 holds. A line without a sector is not held. -/
def l2Mod (s : State) (d : Fin 2) (line : Nat) (f : L2Line → L2Line) : State :=
  modDie s d fun x => { x with
    l2 := (x.l2.map fun y => if y.line == line then f y else y).filter fun y => y.st.toList.any (·.isSome) }

/-- Hold a line no longer. -/
def l2Remove (s : State) (d : Fin 2) (line : Nat) : State :=
  modDie s d fun x => { x with l2 := x.l2.filter fun y => y.line != line }

/-- A line with the state of one sector replaced. -/
def L2Line.mark (e : L2Line) (sector : Nat) (st : Option L2St) : L2Line :=
  { e with st := e.st.set (sector % 4) st (Nat.mod_lt _ (by decide)) }

/-- A line with the data of one sector replaced. -/
def L2Line.fill (e : L2Line) (sector : Nat) (v : BitVec 512) : L2Line :=
  let sh := 512 * (sector % 4)
  let old := e.data.toNat
  { e with data := BitVec.ofNat 2048 (old - ((old >>> sh) % 2 ^ 512) * 2 ^ sh + v.toNat * 2 ^ sh) }

/-- Hold a sector no longer. -/
def l2Drop (s : State) (d : Fin 2) (sector : Nat) : State := l2Mod s d (sector / 4) (·.mark sector none)

/-! ### Arrivals (R25) -/

/-- What a packet does where it arrives (R149): a copy of a sector is invalidated. The other packets had their effect in the step that
sent them (log 16). -/
def deliverPacket (s : State) (p : Packet) : State :=
  match p.body with
  | .inval sector _ => l2Drop s (otherDie p.dir) sector
  | .request | .response | .migrate _ | .drover => s

/-- What waits to cross between an agent and its like arrives: a later packet of the pair does not pass it (R25). -/
def arrivePacket (s : State) (dir : Fin 2) (at_ : Nat) : State :=
  let here := fun (p : Packet) => p.between dir at_ && p.invalidates
  let s := (s.bridge.queue.filter here).foldl deliverPacket s
  { s with bridge := { s.bridge with queue := s.bridge.queue.map fun p => if here p then { p with again := true } else p } }

/-- A request of a die crosses to the other die and its response returns (R25). -/
def crossed (s : State) (a b : Fin 2) (at_ : Nat) : State :=
  if a = b then s else sendPacket (sendPacket (arrivePacket (arrivePacket s a at_) b at_) a at_ .request true) b at_ .response true

/-! ### Allocation in a slice (R147, R148) -/

/-- Ways of a slice that serve (R53, R148). -/
def l2Ways (x : Die) (sl : Fin 64) : Nat := 24 - bitCount x.retWays[sl]

/-- What a line counts against its slice, in sectors (R149). -/
def l2Weight (e : L2Line) : Nat := if e.compact then (e.st.toList.filter (·.isSome)).length else 4

/-- The other lines of a line's slice. -/
def l2Slice (x : Die) (line : Nat) : List L2Line :=
  x.l2.filter fun y => y.line != line && lineSlice y.line == lineSlice line

/-- Whether two lines of a slice lie in one set of its 2,048, which is a free value (log 8). -/
def sameSet (a b : Nat) : Bool := Config.l2Set a % 2048 == Config.l2Set b % 2048

/-- The other lines of a line's set, where they are too many for it to hold a line of a weight beside them. -/
def l2Crowd (x : Die) (line need : Nat) : List L2Line :=
  let full := fun (ls : List L2Line) => decide (4 * l2Ways x (lineSlice line) < (ls.map l2Weight).sum + need)
  let sl := l2Slice x line
  if full sl then
    let set := sl.filter fun y => sameSet y.line line
    if full set then set else []
  else []

/-- Whether a line's set has no sticky way left for it: 12 at most (R147). -/
def l2StickyFull (x : Die) (line : Nat) : Bool :=
  let st := (l2Slice x line).filter fun y => y.hint == 2
  decide (12 ≤ st.length) && decide (12 ≤ (st.filter fun y => sameSet y.line line).length)

/-- The line that replacement takes: the least recently used that is not sticky, a sticky one where all are (R147). -/
def l2Victim (ls : List L2Line) : Option L2Line :=
  match (ls.filter fun l => l.hint != 2).getLast? with
  | some l => some l
  | none => ls.getLast?

/-- The die that answers for a line: its home, or the other die while it is migrated (R150). -/
def holderOf (s : State) (line : Nat) : Fin 2 :=
  let h := dieOf (line * 256)
  if s.dies[h].fwd.contains line then otherDie h else h

/-- Keep a forwarding entry of a line at its home, or remove it (R150). -/
def setForward (s : State) (line : Nat) (on : Bool) : State :=
  modDie s (dieOf (line * 256)) fun x => { x with
    fwd := if on then line :: x.fwd.filter (· != line) else x.fwd.filter (· != line) }

/-- The die that answers for a line learns that the other one holds no copy of it any more: what was in F is the only copy (R149). -/
def l2Alone (s : State) (line : Nat) : State :=
  l2Mod s (holderOf s line) line fun e => { e with st := e.st.map fun t => t.map fun u => if u = .f then .e else u }

/-- Evict a line. A migrated one is written back to its home, and its forwarding entry removed (R150); the eviction of a copy leaves the
holder's as the only one (R149). -/
def l2Evict (s : State) (d : Fin 2) (line : Nat) : State :=
  let s := l2Remove s d line
  let h := dieOf (line * 256)
  if holderOf s line = d then (if d ≠ h then setForward (crossed s d h (lineSlice line).val) line false else s) else l2Alone s line

/-- Make room for a line of a weight in its set. -/
def l2Room (s : State) (d : Fin 2) (line need : Nat) : Nat → State
  | 0 => s
  | fuel + 1 =>
    match l2Victim (l2Crowd s.dies[d] line need) with
    | none => s
    | some v => l2Room (l2Evict s d v.line) d line need fuel

/-- The lines of a set, and whether the slice's ways hold them all no longer. -/
def l2Over (x : Die) (line : Nat) : Bool :=
  let set := x.l2.filter fun y => lineSlice y.line == lineSlice line && sameSet y.line line
  decide (4 * l2Ways x (lineSlice line) < (set.map l2Weight).sum)

/-- Evict what the ways of a slice hold no longer, once one of them is retired (R53): which lines it held is not fixed, and replacement's
victims go (log 8). -/
def l2Trim (s : State) (d : Fin 2) (sl : Fin 64) : Nat → State
  | 0 => s
  | fuel + 1 =>
    match s.dies[d].l2.find? fun e => lineSlice e.line == sl && l2Over s.dies[d] e.line with
    | none => s
    | some e =>
      match l2Victim (s.dies[d].l2.filter fun y => lineSlice y.line == sl && sameSet y.line e.line) with
      | none => s
      | some v => l2Trim (l2Evict s d v.line) d sl fuel

/-- Use a line of a die's L2: allocate it, or record the hit (R147). -/
def l2Touch (s : State) (d : Fin 2) (line : Nat) (q : Acc) : State :=
  let hint := fun (x : Die) => if q.hint = 2 && l2StickyFull x line then 0 else q.hint
  match l2Find s d line with
  | some e =>
    let s := if e.compact then l2Room s d line (min 4 (l2Weight e + 1)) 96 else s
    let h := hint s.dies[d]
    let e := { e with hint := if q.hint = 3 then e.hint else h, compact := e.compact && q.wide }
    if q.hint = 1 || q.hint = 3 then l2Mod s d line fun _ => e
    else modDie s d fun x => { x with l2 := e :: x.l2.filter fun y => y.line != line }
  | none =>
    let s := l2Room s d line (if q.wide then 1 else 4) 96
    if l2Ways s.dies[d] (lineSlice line) = 0 then s
    else
      let h := hint s.dies[d]
      let late : Bool := h = 1 || h = 3
      let e : L2Line :=
        { line := line, st := always 4 none, data := 0, hint := if h = 3 then 1 else h, compact := q.wide, mc := 0, due := [] }
      modDie s d fun x => { x with l2 := if late then x.l2 ++ [e] else e :: x.l2 }

/-! ### Migration (R150, R151) -/

/-- Move a line with its state from the die that holds it to the other one, and reset MC. -/
def moveLine (s : State) (line : Nat) : State :=
  let h := holderOf s line
  let o := otherDie h
  match l2Find s h line with
  | none => setForward s line false
  | some e =>
    let e := { e with
      mc := 0
      due := []
      st := tabulate 4 fun k => e.st[k].map fun t => match t with | .m => L2St.m | _ => .e }
    let s := l2Room (l2Remove (l2Remove s h line) o line) o line (l2Weight e) 96
    let s := modDie s o fun x => { x with l2 := e :: x.l2 }
    setForward (sendPacket (arrivePacket s h (lineSlice line).val) h (lineSlice line).val (.migrate line) true) line (o != dieOf (line * 256))

/-- Count an access of a die's core to a line that may migrate, at the slice that holds it; at 15 the line moves (R150). -/
def countAccess (s : State) (r : Fin 2) (line : Nat) (may : Bool) : State :=
  let h := holderOf s line
  match l2Find s h line with
  | none => s
  | some e =>
    if !may then s
    else if r = h then l2Mod s h line fun y => { y with mc := Fin.ofNat 16 (y.mc.val - 1) }
    else if 14 ≤ e.mc.val && l2Ways s.dies[r] (lineSlice line) != 0 then moveLine s line
    else l2Mod s h line fun y => { y with mc := Fin.ofNat 16 (min 15 (y.mc.val + 1)) }

/-- Do something that a stall of the bridge only delays (R26): its packets wait to cross. -/
def pastStall (s : State) (f : State → State) : State :=
  let b := s.bridge
  if bridgeStalled b then
    let t := f { s with bridge := { b with retrain := none, replay := [] } }
    { t with bridge := { t.bridge with retrain := b.retrain, replay := b.replay, queue := t.bridge.queue ++ t.bridge.replay } }
  else f s

/-- Recall a migrated line to its home (R150, R151). -/
def recallLine (s : State) (line : Nat) : State :=
  if s.dies[dieOf (line * 256)].fwd.contains line then moveLine s line else s

/-- The migrated lines that wait to be recalled for a context (R161). -/
def dueLines (s : State) (p : Fin 64 → Bool) : List Nat :=
  (s.dies[(0 : Fin 2)].fwd ++ s.dies[(1 : Fin 2)].fwd).filter fun line =>
    match l2Find s (holderOf s line) line with | some e => e.due.any p | none => false

/-- Recall the lines that took writes of package scope while they were migrated, where the bridge can carry them (R26, R161). -/
def recallDue (s : State) : State := (dueLines s fun _ => true).foldl (fun s line => if crossing s 0 1 = .free then recallLine s line else s) s

/-- Whether the writes of a context are performed at package scope as far as the caches go (R161): no copy of what it wrote waits for its
invalidation, and no migrated line for its recall. -/
def acrossDone (s : State) (c : Fin 64) : Bool := noInval s && (dueLines s (· == c)).isEmpty

/-- Recall the lines of `n` bytes from an address on. -/
def recallAt (s : State) (a n : Nat) : State :=
  (List.range ((a + n - 1) / 256 - a / 256 + 1)).foldl (fun s k => recallLine s (a / 256 + k)) s

/-! ### Accesses at the home slice (R149, R153) -/

/-- The 64 bytes of a sector in package memory. -/
def sectorData (m : Memory) (sector : Nat) : BitVec 512 := BitVec.ofNat 512 (readN m (sector * 64) 64)

/-- Whether a sector of a term page is one that its block does not use (R143, R149): the second of a wide slot whose T is 64 or
less. It reads as zero, and is neither held nor written back. -/
def unusedSector (m : Memory) (wide : Bool) (sector : Nat) : Bool :=
  wide && sector % 2 == 1 && decide ((readByte m ((sector - 1) * 64 + 13)).toNat ≤ 64)

/-- What the home slice answers for a sector. -/
def sectorValue (m : Memory) (wide : Bool) (sector : Nat) : BitVec 512 :=
  if unusedSector m wide sector then 0 else sectorData m sector

/-- The copy of a sector that a die holds of a line another die answers for. -/
def l2Copy (s : State) (r : Fin 2) (sector : Nat) : Option (BitVec 512) :=
  match l2Find s r (sector / 4) with
  | none => none
  | some e => if (e.sector sector).isSome then some (BitVec.ofNat 512 (e.data.toNat >>> (512 * (sector % 4)))) else none

/-- Whether a line lies in a copy of a page that a TLB of a die maps as read-duplicate (R131, R153). -/
def replLine (s : State) (line : Nat) : Bool :=
  (s.dies[(0 : Fin 2)].tlb ++ s.dies[(1 : Fin 2)].tlb).any fun e =>
    let frame := bitsOf e.pte 17 40 * 2 ^ 16 % 2 ^ 40
    bitsOf e.pte 13 2 == 1 && decide (frame ≤ line * 256 % 2 ^ 40) && decide (line * 256 % 2 ^ 40 < frame + e.size)

/-- The lines of a read-duplicate page are held in S or E only (R153). -/
def l2Shared (s : State) (d : Fin 2) (line : Nat) (repl : Bool) : State :=
  if repl then
    l2Mod s d line fun y => { y with
      st := tabulate 4 fun k => y.st[k].map fun t => match t with | .m | .e => L2St.e | .f | .s => .s }
  else s

/-- Whether both dies are online: otherwise no copy lies across the bridge (R177). -/
def bothOnline (s : State) : Bool := s.dies[(0 : Fin 2)].dstate == .online && s.dies[(1 : Fin 2)].dstate == .online

/-- Use the line of a sector in a die's L2 and set the sector's state there; a sector that its block does not use is not held. -/
def l2Hold (s : State) (d : Fin 2) (sector : Nat) (q : Acc) (f : L2Line → L2Line) : State :=
  if unusedSector s.mem q.wide sector then s else l2Mod (l2Touch s d (sector / 4) q) d (sector / 4) f

/-- A line in which a sector that is not held yet takes a state. -/
def L2Line.enter (e : L2Line) (sector : Nat) (st : L2St) : L2Line :=
  match e.sector sector with
  | some _ => e
  | none => e.mark sector (some st)

/-- Read a sector for an agent of die `r` (R149, R150): its value and the caches after. A home slice that has forwarded its line
keeps no copy of it. -/
def l2Read (s : State) (r : Fin 2) (sector : Nat) (q : Acc) : BitVec 512 × State :=
  let line := sector / 4
  let h := holderOf s line
  let v := sectorValue s.mem q.wide sector
  if r = h then
    let other := (l2State s (otherDie h) sector).isSome
    let s := l2Hold s h sector q (·.enter sector (if other then .f else .e))
    (v, countAccess (l2Shared s h line q.repl) r line q.may)
  else
    match l2Copy s r sector with
    | some x => (x, l2Touch s r line q)
    | none =>
      let s := crossed s r h (lineSlice line).val
      let s :=
        if r = dieOf (line * 256) || !bothOnline s then l2Hold s h sector q (·.enter sector .e)
        else l2Hold (l2Hold s h sector q (·.mark sector (some .f))) r sector q fun e => (e.mark sector (some .s)).fill sector v
      (v, countAccess s r line q.may)

/-- Note a write of package scope or wider that a migrated line takes for a context (R161). -/
def noteDue (s : State) (line : Nat) (q : Acc) : State :=
  let h := holderOf s line
  match q.owner with
  | some c =>
    if h ≠ dieOf (line * 256) ∧ q.scope ≠ .core ∧ q.scope ≠ .die then
      l2Mod s h line fun e => { e with due := if e.due.contains c then e.due else c :: e.due }
    else s
  | none => s

/-- A write of a sector has been performed at its holder for an agent of die `r`: the holder's copy becomes the
only one. A copy on the other die is dropped at once where the writer is there or the access is an atomic, and
otherwise by a packet over the bridge (R149-R151). -/
def l2Wrote (s : State) (r : Fin 2) (sector : Nat) (q : Acc) (atomic : Bool) : State :=
  let line := sector / 4
  let h := holderOf s line
  let o := otherDie h
  let at_ := (lineSlice line).val
  let s :=
    match l2State s o sector with
    | none => s
    | some _ =>
      if atomic then l2Drop (crossed s h o at_) o sector
      else if r = o then l2Drop s o sector
      else sendPacket s h at_ (.inval sector q.owner) false
  let s := crossed s r h at_
  let s := l2Hold s h sector q (·.mark sector (some (if replLine s line then .e else .m)))
  countAccess (noteDue s line q) r line q.may

/-- How many bytes from `a` on, at most `n`, lie in one sector. -/
def inSector (a n : Nat) : Nat := min n (64 - a % 64)

/-- Read `n` bytes at a home slice for an agent of die `r`; `fuel` bounds the sectors crossed. -/
def homeRead (s : State) (r : Fin 2) (q : Acc) : Nat → Nat → Nat → Nat × State
  | 0, _, _ => (0, s)
  | fuel + 1, a, n =>
    if n = 0 then (0, s)
    else
      let k := inSector a n
      let (d, s) := l2Read s r (a / 64) q
      let v := (d.toNat >>> (8 * (a % 64))) % 2 ^ (8 * k)
      let (w, s) := homeRead s r q fuel (a + k) (n - k)
      (v + 2 ^ (8 * k) * w, s)

/-- A sector holds data in error from now on (R52). -/
def harmSector (s : State) (sector : Nat) : State :=
  { s with bad := if s.bad.contains sector then s.bad else sector :: s.bad }

/-- A write of a whole sector replaces data in error (R52). -/
def healSector (s : State) (sector : Nat) : State := { s with bad := s.bad.filter (· != sector) }

/-- Mark the sectors of `n` bytes as written at their home slices. -/
def homeTouch (s : State) (r : Fin 2) (q : Acc) (atomic : Bool) : Nat → Nat → Nat → State
  | 0, _, _ => s
  | fuel + 1, a, n =>
    if n = 0 then s
    else
      let s := if inSector a n = 64 then healSector s (a / 64) else s
      homeTouch (l2Wrote s r (a / 64) q atomic) r q atomic fuel (a + inSector a n) (n - inSector a n)

/-- Write the low `n` bytes of a number, sector after sector, but for the sectors that a term block does not use (R149). -/
def usedWrite (m : Memory) : Nat → Nat → Nat → Nat → Memory
  | 0, _, _, _ => m
  | fuel + 1, a, n, x =>
    if n = 0 then m
    else
      let k := inSector a n
      let m := if unusedSector m true (a / 64) then m else writeN m a k x
      usedWrite m fuel (a + k) (n - k) (x >>> (8 * k))

/-- Package memory after a write at a home slice. -/
def homeMem (m : Memory) (q : Acc) (a n x : Nat) : Memory := if q.wide then usedWrite m (n + 1) a n x else writeN m a n x

/-- Write the low `n` bytes of a number at a home slice for an agent of die `r`. -/
def homeWrite (s : State) (r : Fin 2) (q : Acc) (atomic : Bool) (a n x : Nat) : State :=
  homeTouch { s with mem := homeMem s.mem q a n x } r q atomic (n + 1) a n

/-! ### L1 -/

/-- Ways of L1 under a core's partition word (R86, R87). -/
def l1Ways (ppw : BitVec 32) : Nat :=
  96 - (ppw.toNat % 128 + (ppw.toNat >>> 7) % 128 + (ppw.toNat >>> 14) % 128)

/-- The set of a line (R146). -/
def l1Set (line : Nat) : Nat := line % 64

/-- Whether an agent of a die reaches the slice that answers for a line (R21, R27). -/
def lineReach (s : State) (d : Fin 2) (line : Nat) : Bool :=
  s.dies[dieOf (line * 256)].dstate != .dieOffline && (d == holderOf s line || !s.bridge.down)

/-- The dirty bytes of a sector of a line, as a mask of 64 bits. -/
def dirtyOf (l : L1Line) (k : Nat) : Nat := (l.dirty.toNat >>> (64 * k)) % 2 ^ 64

/-- Whether a line's dirty bytes can go to their home slice now: the slice is within reach, and no crossing stalls. -/
def lineFree (s : State) (d : Fin 2) (l : L1Line) : Bool :=
  l.dirty == 0 || (lineReach s d l.line && crossing s d (holderOf s l.line) == .free)

/-- What a sector of a line that is written back leaves at its home slice of data in error (R52): a sector in error is written with its
check bits unchanged, and a whole one replaces what was there. -/
def wroteError (s : State) (l : L1Line) (k : Nat) : State :=
  if l.poison.getLsbD k then harmSector s (l.line * 4 + k)
  else if dirtyOf l k + 1 = 2 ^ 64 then healSector s (l.line * 4 + k) else s

/-- Write the dirty bytes of a line to its home slice (R146), where they can go there. -/
def writeBack (s : State) (d : Fin 2) (l : L1Line) : State :=
  if l.dirty = 0 || !lineFree s d l then s
  else
    let q : Acc := { Acc.plain with hint := l.hint, scope := l.scope, owner := l.owner }
    let s := { s with mem := writeMasked s.mem (l.line * 256) l.data.toNat l.dirty.toNat 256 }
    (List.range 4).foldl
      (fun s k => if dirtyOf l k = 0 then s else l2Wrote (wroteError s l k) d (l.line * 4 + k) q false) s

/-- The line of L1 that replacement takes from a full set: the least recently used one that is not sticky, or the
least recently used where every way is sticky (R147). Of lines used in one cycle, the one put first. -/
def victim (ls : List L1Line) : Option L1Line :=
  let pick := fun (xs : List L1Line) =>
    xs.foldl (fun (b : Option L1Line) x =>
      match b with
      | none => some x
      | some y => if x.used ≤ y.used then some x else some y) none
  match pick (ls.filter fun l => l.hint != 2) with
  | some l => some l
  | none => pick ls

/-- Replace one line of a core's L1, or add it. -/
def l1Put (s : State) (c : Fin 384) (l : L1Line) : State :=
  modCore s c fun x => { x with l1 := l :: x.l1.filter fun y => y.line != l.line }

/-- The line of a core's L1. -/
def l1Find (s : State) (c : Fin 384) (line : Nat) : Option L1Line :=
  s.cores[c].l1.find? fun l => l.line == line

/-- The other lines of a line's set in a core's L1. -/
def l1Peers (s : State) (c : Fin 384) (line : Nat) : List L1Line :=
  s.cores[c].l1.filter fun l => l.line != line && l1Set l.line == l1Set line

/-- The hint that an access records in a line: of a set's ways at most half are sticky (R147). -/
def l1Hint (s : State) (c : Fin 384) (line : Nat) (h : Fin 4) : Fin 4 :=
  if h = 2 && l1Ways s.cores[c].ppw / 2 ≤ ((l1Peers s c line).filter fun l => l.hint == 2).length then 0 else h

/-- Use a line of a core's L1 (R147): a hit records its recency and, unless it is a bypass, its hint; otherwise the line is
allocated, in place of another where its set is full. A set with no ways, or with none that could be written back now,
allocates nothing. -/
def l1Touch (s : State) (c : Fin 384) (line : Nat) (q : Acc) : State :=
  let h := l1Hint s c line q.hint
  match l1Find s c line with
  | some l =>
    l1Put s c { l with
      scope := q.scope
      hint := if q.hint = 3 then l.hint else h
      used := if q.hint = 1 then l.used else s.now + 1 }
  | none =>
    let ways := l1Ways s.cores[c].ppw
    let here := l1Peers s c line
    let out := if here.length < ways then none else victim (here.filter (lineFree s (coreDie c)))
    let s :=
      match out with
      | none => s
      | some v => modCore (writeBack s (coreDie c) v) c fun x => { x with l1 := x.l1.filter fun y => y.line != v.line }
    if ways ≤ here.length && out.isNone then s
    else
      l1Put s c
        { line := line, scope := q.scope, data := 0, valid := 0, dirty := 0, hint := h, used := if h = 1 then 0 else s.now + 1
          owner := none, poison := 0, renewed := 0 }

/-- The bytes of a sector of a line. -/
def sectorMask (k : Nat) : BitVec 256 := BitVec.ofNat 256 ((2 ^ 64 - 1) * 2 ^ (64 * k))

/-- Make a sector present in a core's L1 (R146, R147); data in error comes as it is (R52). -/
def l1Fill (s : State) (c : Fin 384) (sector : Nat) (q : Acc) : State :=
  let s := l1Touch s c (sector / 4) q
  match l1Find s c (sector / 4) with
  | none => s
  | some l =>
    if l.valid.getLsbD (sector % 4) then s
    else
      let (d, s) := l2Read s (coreDie c) sector q
      let sh := 512 * (sector % 4)
      let old := l.data.toNat
      let new := old - ((old >>> sh) % 2 ^ 512) * 2 ^ sh + d.toNat * 2 ^ sh
      let bit := BitVec.ofNat 4 (2 ^ (sector % 4))
      l1Put s c { l with
        data := BitVec.ofNat 2048 new, valid := l.valid ||| bit
        poison := if s.bad.contains sector then l.poison ||| bit else l.poison &&& ~~~bit
        renewed := l.renewed &&& ~~~sectorMask (sector % 4) }

/-- Whether a core's L1 holds a sector. -/
def l1Holds (s : State) (c : Fin 384) (sector : Nat) : Bool :=
  match l1Find s c (sector / 4) with
  | some l => l.valid.getLsbD (sector % 4)
  | none => false

/-- The bytes of a line from an offset on. -/
def l1Bytes (l : L1Line) (off n : Nat) : Nat := (l.data.toNat >>> (8 * off)) % 2 ^ (8 * n)

/-- Read a sector through a core's L1 (R146, R147). -/
def l1Sector (s : State) (c : Fin 384) (q : Acc) (sec : Nat) : BitVec 512 × State :=
  if q.hint = 3 && !l1Holds s c sec then l2Read s (coreDie c) sec q
  else
    let s := l1Fill s c sec q
    match l1Find s c (sec / 4) with
    | some l => (BitVec.ofNat 512 (l1Bytes l (sec % 4 * 64) 64), s)
    | none => l2Read s (coreDie c) sec q

/-- A load of `n` bytes through a core's L1 (R146, R147). -/
def l1Read (s : State) (c : Fin 384) (q : Acc) : Nat → Nat → Nat → Nat × State
  | 0, _, _ => (0, s)
  | fuel + 1, a, n =>
    if n = 0 then (0, s)
    else
      let k := inSector a n
      let (d, s) := l1Sector s c q (a / 64)
      let v := (d.toNat >>> (8 * (a % 64))) % 2 ^ (8 * k)
      let (w, s) := l1Read s c q fuel (a + k) (n - k)
      (v + 2 ^ (8 * k) * w, s)

/-- The 64 bytes of a sector at its home slice, under the bytes that a core's L1 holds dirty: a read of the home slice by a lane
returns no write older than one the lane has made (R162). -/
def ownBytes (s : State) (c : Fin 384) (sec : Nat) (home : BitVec 512) : BitVec 512 :=
  match l1Find s c (sec / 4) with
  | none => home
  | some l =>
    let held := BitVec.ofNat 512 (l1Bytes l (sec % 4 * 64) 64)
    let mask := BitVec.ofNat 512 ((List.range 64).foldl
      (fun (m : Nat) k => if l.dirty.getLsbD (sec % 4 * 64 + k) then m + 255 * 2 ^ (8 * k) else m) 0)
    (held &&& mask) ||| (home &&& ~~~mask)

/-- Whether a sector that a core reads holds data in error (R52): in its L1, where it holds the sector, or else at the home slice. -/
def badSector (s : State) (c : Fin 384) (home : Bool) (sec : Nat) : Bool :=
  match l1Find s c (sec / 4) with
  | some l => if l.valid.getLsbD (sec % 4) && !home then l.poison.getLsbD (sec % 4) else s.bad.contains sec
  | none => s.bad.contains sec

/-- A sector of a line whose bytes have all been stored since is in error no more (R52). -/
def L1Line.renew (l : L1Line) (k : Nat) : L1Line :=
  if l.renewed &&& sectorMask k = sectorMask k then { l with poison := l.poison &&& ~~~BitVec.ofNat 4 (2 ^ k) } else l

/-- Replace bytes of a sector of a line, and mark them dirty or clean. -/
def l1Set1 (l : L1Line) (off n x : Nat) (dirty : Bool) : L1Line :=
  let sh := 8 * off
  let old := l.data.toNat
  let new := old - ((old >>> sh) % 2 ^ (8 * n)) * 2 ^ sh + (x % 2 ^ (8 * n)) * 2 ^ sh
  let m := BitVec.ofNat 256 ((2 ^ n - 1) * 2 ^ off)
  L1Line.renew { l with
    data := BitVec.ofNat 2048 new, dirty := if dirty then l.dirty ||| m else l.dirty &&& ~~~m, renewed := l.renewed ||| m } (off / 64)

/-- A store of `n` bytes through a core's L1 (R146, R147). -/
def l1Write (s : State) (c : Fin 384) (q : Acc) : Nat → Nat → Nat → Nat → State
  | 0, _, _, _ => s
  | fuel + 1, a, n, x =>
    if n = 0 then s
    else
      let k := inSector a n
      let sec := a / 64
      let s :=
        if q.hint = 3 then
          let s := homeWrite s (coreDie c) q false a k x
          match l1Find s c (sec / 4) with
          | some l => if l.valid.getLsbD (sec % 4) then l1Put s c (l1Set1 l (a % 256) k x false) else s
          | none => s
        else
          let s := l1Fill s c sec q
          match l1Find s c (sec / 4) with
          | some l => l1Put s c { l1Set1 l (a % 256) k x true with owner := q.owner }
          | none => homeWrite s (coreDie c) q false a k x
      l1Write s c q fuel (a + k) (n - k) (x >>> (8 * k))

/-- Update the held copy of bytes a home-slice access has written, and leave them clean (R371). -/
def l1Refresh (s : State) (c : Fin 384) (a n x : Nat) : State :=
  match l1Find s c (a / 256) with
  | some l => if l.valid.getLsbD (a / 64 % 4) then l1Put s c (l1Set1 l (a % 256) n x false) else s
  | none => s

/-- Whether a core's L1 has a dirty line that a test takes and that the stalled bridge keeps from its home slice (R26). -/
def l1Stalled (s : State) (c : Fin 384) (p : L1Line → Bool) : Bool :=
  s.cores[c].l1.any fun l => p l && l.dirty != 0 && lineReach s (coreDie c) l.line && !lineFree s (coreDie c) l

/-- A dirty line of a core's L1 that a test takes and that cannot reach its home slice any more (R21, R27). -/
def l1Lost (s : State) (c : Fin 384) (p : L1Line → Bool) : Option L1Line :=
  s.cores[c].l1.find? fun l => p l && l.dirty != 0 && !lineReach s (coreDie c) l.line

/-- Write back a line of a core's L1 where it can go now, and leave it clean. -/
def l1CleanLine (s : State) (c : Fin 384) (l : L1Line) : State :=
  if lineFree s (coreDie c) l then
    modCore (writeBack s (coreDie c) l) c fun x => { x with l1 := x.l1.map fun y => if y = l then { y with dirty := 0 } else y }
  else s

/-- Write back every dirty line of a core's L1 that a test takes and that can go, one after the other, and leave it clean (R146,
R329). -/
def l1Clean (s : State) (c : Fin 384) (p : L1Line → Bool) : State :=
  (s.cores[c].l1.filter fun l => p l && l.dirty != 0).foldl (fun s l => l1CleanLine s c l) s

/-- Write back every dirty line of a core's L1 that can reach its home slice, and leave it clean; a stall of the bridge only delays it
(R26). -/
def l1CleanNow (s : State) (c : Fin 384) : State := s.cores[c].l1.foldl (fun s l => pastStall s fun s => l1CleanLine s c l) s

/-- Drop the lines of a core's L1 that a test takes; dirty bytes are lost, so callers clean first (R101, R329). -/
def l1Drop (s : State) (c : Fin 384) (p : L1Line → Bool) : State :=
  modCore s c fun x => { x with l1 := x.l1.filter fun l => !p l }

/-- Invalidate the clean sectors of the lines that a test takes; a sector with a dirty byte stays (R79, R165). -/
def l1DropClean (s : State) (c : Fin 384) (p : L1Line → Bool) : State :=
  let one := fun (l : L1Line) =>
    let keepBits := (List.range 4).foldl
      (fun (v : Nat) k => if (l.dirty.toNat >>> (64 * k)) % 2 ^ 64 = 0 then v else v + 2 ^ k) 0
    { l with valid := l.valid &&& BitVec.ofNat 4 keepBits }
  modCore s c fun x =>
    { x with l1 := (x.l1.map fun l => if p l then one l else l).filter fun l => l.valid != 0 }

end Sys2Proof.Machine
end

