-- ==== Sys2Proof/Machine/Translate.lean ====
section
/-! DEFINITION. Virtual addresses: the fields of entries (R130, R131), the five-level walk (R129, R132), the TLBs
and the walkers' queue (R135, R136), the A and D bits and the dirty bitmap (R64, R65, R134). -/

namespace Sys2Proof.Machine

/-! ### Entry fields -/

/-- V (R130, R131). -/
def pteV (p : Word) : Bool := p.getLsbD 0
/-- leaf (R130, R131). -/
def pteLeaf (p : Word) : Bool := p.getLsbD 1
/-- W (R131). -/
def pteW (p : Word) : Bool := p.getLsbD 2
/-- X (R131). -/
def pteX (p : Word) : Bool := p.getLsbD 3
/-- DTE (R131). -/
def pteDte (p : Word) : Bool := p.getLsbD 4
/-- SCOPE (R131). -/
def pteScope (p : Word) : Nat := bitsOf p 5 3
/-- FMT (R131). -/
def pteFmt (p : Word) : Nat := bitsOf p 8 4
/-- CLASS (R131). -/
def pteClass (p : Word) : Nat := bitsOf p 12 1
/-- REPL (R131). -/
def pteRepl (p : Word) : Nat := bitsOf p 13 2
/-- A (R131). -/
def pteA (p : Word) : Bool := p.getLsbD 15
/-- D (R131). -/
def pteD (p : Word) : Bool := p.getLsbD 16
/-- FRAME (R131). -/
def pteFrame (p : Word) : Nat := bitsOf p 17 40
/-- The scope of a leaf; a walk refuses the reserved values. -/
def leafScope (p : Word) : Scope :=
  match pteScope p with
  | 0 => .core | 1 => .die | 2 => .package | 3 => .domain | _ => .system
/-- The next node of a pointer entry (R130). -/
def pteNode (p : Word) : Nat := pteFrame p * 2 ^ 16 + bitsOf p 4 8 * 2 ^ 8

/-- The bytes of a page whose leaf lies at a level (R129). -/
def pageSize (level : Nat) : Nat :=
  if level = 2 then 2 ^ 30 else if level = 1 then 2 ^ 21 else 2 ^ 16

/-- Whether an address lies in populated package memory that a context may name (R13, R14, R132). -/
def pkgOk (x : Ctx) (pa : Nat) : Bool :=
  regionOf pa == .package && (!x.mode || dieOf pa == x.die)

/-- Whether a pointer entry at a level is well formed (R130, R132). -/
def pointerOk (x : Ctx) (level : Nat) (p : Word) : Bool :=
  level != 0 && bitsOf p 57 7 == 0 && bitsOf p 12 5 == 0 && bitsOf p 2 2 == 0
    && (level == 1 || bitsOf p 4 4 == 0) && pkgOk x (pteNode p)

/-- Whether a leaf at a level is well formed (R131, R132). -/
def leafOk (x : Ctx) (level : Nat) (p : Word) : Bool :=
  decide (level ≤ 2) && bitsOf p 57 7 == 0
    && pteFrame p % (if level = 2 then 16384 else if level = 1 then 32 else 1) == 0
    && decide (pteRepl p ≤ 1) && decide (pteFmt p ≤ 6) && decide (pteScope p ≤ 4)
    && (pteClass p == 0 || pteFmt p != 0) && !(pteScope p == 2 && x.mode)
    && (pteRepl p == 0 || (!x.mode && regionOf (pteFrame p * 2 ^ 16) == .package))
    && ((pteFmt p == 0 && pteRepl p == 0)
        || !(regionOf (pteFrame p * 2 ^ 16) == .domain || regionOf (pteFrame p * 2 ^ 16) == .system))

/-- How a walk ends: a leaf with the address of its entry and its level, or a cause with the entry it stopped at. `via` lists
the pointer entries it went through, with their levels. -/
inductive Walked where
  | leaf (at_ : Nat) (pte : Word) (level : Nat) (via : List (Nat × Word))
  | stop (cause : Nat) (pte : Word)
  deriving DecidableEq, Repr

/-- The index of an address in a node of a level (R129). -/
def nodeIndex (level va : Nat) : Nat :=
  if level = 0 then (va >>> 16) % 32 else (va >>> (21 + 9 * (level - 1))) % 512

/-- What keeps a walker of a die from reading an entry: its die is closed, cause 0x0003 (R21), the bridge is down (R27), or the
data is in error (R52), both cause 0x0014. -/
def entryFault (s : State) (d : Fin 2) (a : Nat) : Option Nat :=
  if s.dies[dieOf a].dstate == .dieOffline then some 3
  else if d != holderOf s (a / 256) && s.bridge.down then some 0x14
  else if s.bad.contains (a / 64) then some 0x14
  else none

/-- Walk from a node of a level, which the entry `from_` named (R129, R132). -/
def walkFrom (s : State) (d : Fin 2) (x : Ctx) (va : Nat) (from_ : Word) (via : List (Nat × Word)) : Nat → Nat → Walked
  | 0, node =>
    let a := node + 8 * nodeIndex 0 va
    match entryFault s d a with
    | some cause => .stop cause from_
    | none =>
      let p := readWord s.mem a
      if pteV p && pteLeaf p && leafOk x 0 p then .leaf a p 0 via else .stop 3 p
  | level + 1, node =>
    let a := node + 8 * nodeIndex (level + 1) va
    match entryFault s d a with
    | some cause => .stop cause from_
    | none =>
      let p := readWord s.mem a
      if !pteV p then .stop 3 p
      else if pteLeaf p then (if leafOk x (level + 1) p then .leaf a p (level + 1) via else .stop 3 p)
      else if pointerOk x (level + 1) p then walkFrom s d x va p ((level + 1, p) :: via) level (pteNode p)
      else .stop 3 p

/-- The virtual range that an entry of a level covers (R129). -/
def levelSize (level : Nat) : Nat := if level = 0 then 2 ^ 16 else 2 ^ (21 + 9 * (level - 1))

/-- The deepest non-leaf entry that a die caches for an address (R135). -/
def nodeFind (t : List NodeEntry) (c : Fin 64) (va : Nat) : Option NodeEntry :=
  (t.filter fun e => e.ctx == c && e.base == va / levelSize e.level * levelSize e.level).foldl
    (fun (b : Option NodeEntry) e =>
      match b with
      | none => some e
      | some y => if e.level < y.level then some e else some y) none

/-- The walk of an address of a context by a walker of a die (R129, R135): from the deepest cached entry, or from ROOT. A top
node outside populated memory maps nothing. -/
def walk (s : State) (d : Fin 2) (c : Fin 64) (va : Nat) : Walked :=
  let x := s.ctxs[c]
  match nodeFind s.dies[d].nodes c va with
  | some e => walkFrom s d x va e.pte [] (e.level - 1) (pteNode e.pte)
  | none => if pkgOk x x.root.toNat then walkFrom s d x va 0 [] 4 x.root.toNat else .stop 3 0

/-- Whether a walk of an address must cross a bridge that stalls (R26): in unified mode its nodes may lie on either die. -/
def walkStalled (s : State) (c : Fin 64) : Bool := !s.ctxs[c].mode && !s.bridge.down && bridgeStalled s.bridge

/-! ### TLBs -/

/-- The entry of a TLB that covers an address (R135). -/
def tlbFind (t : List TlbEntry) (c : Fin 64) (va : Nat) : Option TlbEntry :=
  t.find? fun e => e.ctx == c && decide (e.base ≤ va) && decide (va < e.base + e.size)

/-- The TLB entry of a leaf. -/
def tlbOf (c : Fin 64) (va level : Nat) (pte : Word) (at_ : Nat) : TlbEntry :=
  { ctx := c, base := va / pageSize level * pageSize level, size := pageSize level, pte := pte, leafAt := at_ }

/-- Enter a translation in a TLB of a size; which entry a full TLB gives up is not fixed, and the model gives up
the one entered first (log 8). -/
def tlbEnter (n : Nat) (t : List TlbEntry) (e : TlbEntry) : List TlbEntry :=
  (e :: t.filter fun y => !(y.ctx == e.ctx && y.base == e.base && y.size == e.size)).take n

/-- Enter a translation in the TLB of a core. -/
def coreEnter (s : State) (core : Fin 384) (e : TlbEntry) : State :=
  modCore s core fun x => { x with tlb := tlbEnter 1024 x.tlb e }

/-- Enter a translation in the shared TLB of a die. -/
def dieEnter (s : State) (d : Fin 2) (e : TlbEntry) : State :=
  modDie s d fun x => { x with tlb := tlbEnter 65536 x.tlb e }

/-- Enter the pointer entries of a walk in the non-leaf cache of a die. The spec gives it no size; the model's holds 4,096
entries (log 8). -/
def nodesEnter (s : State) (d : Fin 2) (c : Fin 64) (va : Nat) (via : List (Nat × Word)) : State :=
  modDie s d fun x => { x with
    nodes := (via.map (fun p => ({ ctx := c, level := p.1, base := va / levelSize p.1 * levelSize p.1, pte := p.2 } : NodeEntry))
      ++ x.nodes.filter fun e => !(via.any fun p => e.ctx == c && e.level == p.1 && e.base == va / levelSize p.1 * levelSize p.1)).take 4096 }

/-- What an address translates to for a core now. -/
inductive Trans where
  | ok (pa : Nat) (e : TlbEntry)
  | miss
  | bad (cause : Nat) (pte : Word)
  deriving DecidableEq, Repr

/-- The physical address that a leaf gives a virtual address, for an agent of a die: a read-duplicate page has a
copy on each die (R131, R153). -/
def physical (e : TlbEntry) (va : Nat) (d : Fin 2) : Nat :=
  let pa := pteFrame e.pte * 2 ^ 16 + (va - e.base)
  if pteRepl e.pte = 1 then pa % 2 ^ 40 + d.val * 2 ^ 40 else pa

/-- Translate an address for a core through the TLBs (R129, R135): a miss waits for a walker, unless a walk for it
has just ended in a fault. -/
def translate (s : State) (core : Fin 384) (c : Fin 64) (va : Word) : Trans :=
  let v := va.toNat
  if 2 ^ 57 ≤ v then .bad 3 0
  else
    match tlbFind s.cores[core].tlb c v with
    | some e => .ok (physical e v (coreDie core)) e
    | none =>
      match tlbFind s.dies[coreDie core].tlb c v with
      | some e => .ok (physical e v (coreDie core)) e
      | none =>
        match s.cores[core].fails.find? fun f => f.ctx == c && f.page == v / 2 ^ 16 with
        | some f => .bad f.cause f.pte
        | none => .miss

/-- The same for an operation of an engine of a die, through the shared TLB. -/
def translateEng (s : State) (d : Fin 2) (id : Nat) (c : Fin 64) (va : Word) : Trans :=
  let v := va.toNat
  if 2 ^ 57 ≤ v then .bad 3 0
  else
    match tlbFind s.dies[d].tlb c v with
    | some e => .ok (physical e v d) e
    | none =>
      match s.dies[d].engFails.find? fun f => f.1 == id && f.2.ctx == c && f.2.page == v / 2 ^ 16 with
      | some f => .bad f.2.cause f.2.pte
      | none => .miss

/-- Whether two pages of a context lie under one leaf, as a walk of one of them finds it now (R136). -/
def sameLeafPage (s : State) (d : Fin 2) (c : Fin 64) (p q : Nat) : Bool :=
  p == q ||
  match walk s d c (p * 2 ^ 16) with
  | .leaf _ _ level _ => p / (pageSize level / 2 ^ 16) == q / (pageSize level / 2 ^ 16)
  | .stop _ _ => false

/-- Whether a miss of a page joins a walk that is asked for (R136). -/
def joinsWalk (s : State) (d : Fin 2) (c : Fin 64) (page : Nat) (r : WalkReq) : Bool :=
  r.ctx == c && sameLeafPage s d c r.page page

/-- Who waits for a walk: a split of a warp on a core, or an operation of an engine. -/
inductive Asker where
  | split (core : Fin 384) (w : Nat) (sp : Fin 8)
  | op (id : Nat)
  deriving DecidableEq, Repr

/-- A walk with one more that waits for it. -/
def WalkReq.join (r : WalkReq) : Asker → WalkReq
  | .split core w sp => { r with
      cores := if r.cores.contains core then r.cores else core :: r.cores
      splits := if r.splits.contains (w, sp) then r.splits else (w, sp) :: r.splits }
  | .op id => { r with ops := if r.ops.contains id then r.ops else id :: r.ops }

/-- Ask a walker of a die for a page; a miss whose leaf is already asked for joins that walk (R136). A full queue takes nothing. -/
def askWalkFor (s : State) (d : Fin 2) (who : Asker) (c : Fin 64) (page : Nat) : State :=
  modDie s d fun x =>
    if x.walks.any (joinsWalk s d c page) then
      { x with walks := x.walks.map fun r => if joinsWalk s d c page r then r.join who else r }
    else if x.walks.length < 4160 then
      { x with walks := x.walks ++ [WalkReq.join { ctx := c, page := page, cores := [], splits := [], ops := [] } who] }
    else x

/-- Ask a walker for a page for a split of a core. -/
def askWalk (s : State) (core : Fin 384) (w : Nat) (sp : Fin 8) (c : Fin 64) (page : Nat) : State :=
  askWalkFor s (coreDie core) (.split core w sp) c page

/-- A split of a warp with one more failed walk. -/
def Warp.failed (x : Warp) (who : List (Nat × Fin 8)) (f : WalkFail) : Warp :=
  { x with splits := tabulate 8 fun k => x.splits[k].map fun (y : Split) =>
      if who.contains (x.id, k) && y.st == .blocked then { y with fails := f :: y.fails } else y }

/-- Set bits of an entry at its home slice, for a walker of a die (R134). -/
def setEntry (s : State) (d : Fin 2) (c : Fin 64) (at_ : Nat) (p : Word) : State :=
  homeWrite (recallAt s at_ 8) d (Acc.of c) true at_ 8 p.toNat

/-- A leaf of a read-duplicate page has been read (R153, R154): the lines of its copies are held in S or E only, at home, and the part
knows which lines a collapse will drop. -/
def shareCopies (s : State) (e : TlbEntry) : State :=
  if pteRepl e.pte ≠ 1 then s
  else
    let frame := pteFrame e.pte * 2 ^ 16 % 2 ^ 40
    let here := fun (line : Nat) => decide (frame ≤ line * 256 % 2 ^ 40) && decide (line * 256 % 2 ^ 40 < frame + e.size)
    let s := (List.finRange 2).foldl (fun s d => (s.dies[d].fwd.filter here).foldl (fun s line => pastStall s (recallLine · line)) s) s
    let s := (List.finRange 2).foldl (fun s d => ((s.dies[d].l2.map (·.line)).filter here).foldl (fun s line => l2Shared s d line true) s) s
    { s with dups := if s.dups.contains e then s.dups else e :: s.dups }

/-- Walk now for an agent of a die, through its shared TLB, setting A (R134, R135). -/
def walkNow (s : State) (d : Fin 2) (c : Fin 64) (va : Word) : Trans × State :=
  let v := va.toNat
  if 2 ^ 57 ≤ v then (.bad 3 0, s)
  else
    match tlbFind s.dies[d].tlb c v with
    | some e => (.ok (physical e v d) e, s)
    | none =>
      match walk s d c v with
      | .stop cause p => (.bad cause p, s)
      | .leaf a p level via =>
        let p' := p ||| 0x8000#64
        let s := crossed s d (holderOf s (a / 256)) (lineSlice (a / 256)).val
        let s := if pteA p then s else setEntry s d c a p'
        let e := tlbOf c v level p' a
        (.ok (physical e v d) e, shareCopies (dieEnter (nodesEnter s d c v via) d e) e)

/-- Carry out a queued walk (R132, R134-R136): the TLBs of the die and of the waiting cores get the leaf, or the instructions and operations
that wait learn of the fault. A walk that must cross a bridge that stalls waits. -/
def runWalk (s : State) (d : Fin 2) (r : WalkReq) : State :=
  if walkStalled s r.ctx then s
  else
    let s := modDie s d fun x => { x with walks := x.walks.filter fun y => !(y.ctx == r.ctx && y.page == r.page) }
    let (t, s) := walkNow s d r.ctx (BitVec.ofNat 64 (r.page * 2 ^ 16))
    match t with
    | .ok _ e => r.cores.foldl (fun s c => coreEnter s c e) s
    | .bad cause p =>
      let f : WalkFail := { ctx := r.ctx, page := r.page, cause := cause, pte := p }
      let s := { s with warps := if r.splits.isEmpty then s.warps else s.warps.map (·.failed r.splits f) }
      modDie s d fun x => { x with engFails := r.ops.map (fun id => (id, f)) ++ x.engFails }
    | .miss => s

/-- Forget the walks of an operation that ended in a fault, once it takes the fault or ends: its restart translates afresh (R137). -/
def forgetEngFails (s : State) (d : Fin 2) (id : Nat) : State :=
  modDie s d fun x => { x with engFails := x.engFails.filter fun f => f.1 != id }

/-- Forget every walk of a context that ended in a fault. -/
def forgetWalks (s : State) (c : Fin 64) : State :=
  let one := fun (x : Die) => { x with engFails := x.engFails.filter fun f => f.2.ctx != c }
  let calm := fun (x : Warp) =>
    if x.ctx = c then { x with splits := tabulate 8 fun k => x.splits[k].map fun (y : Split) => { y with fails := [] } } else x
  { modDie (modDie s 0 one) 1 one with warps := s.warps.map calm }

/-! ### D and the dirty bitmap -/

/-- Two leaves that differ at most in A and D. -/
def sameLeaf (p q : Word) : Bool := p ||| 0x18000#64 == q ||| 0x18000#64

/-- The bit of the dirty bitmap that a write to a frame sets, as a byte address and a mask (R64). -/
def bitmapBit (s : State) (x : Ctx) (pa : Nat) : Option (Nat × Nat) :=
  if h : x.part.val < 24 then
    if regionOf pa = .package then some (s.parts[x.part.val].dbase.toNat + pa / 2 ^ 16 / 8, 2 ^ (pa / 2 ^ 16 % 8)) else none
  else none

/-- Whether an agent of a die reaches the home slice of an address, and a line that has migrated from it (R21, R27). -/
def homeReach (s : State) (d : Fin 2) (a : Nat) : Bool :=
  s.dies[dieOf a].dstate != .dieOffline && ((d == dieOf a && d == holderOf s (a / 256)) || !s.bridge.down)

/-- What keeps a write from being marked before it is performed (R65): the bitmap lies on a closed die, cause 0x0003 (R21), or behind a
bridge that is down, cause 0x0014 (R27). -/
def markFault (s : State) (d : Fin 2) (c : Fin 64) (e : TlbEntry) (pa : Nat) : Option Nat :=
  if !pteDte e.pte then none
  else
    match bitmapBit s s.ctxs[c] pa with
    | some (a, b) =>
      if (readByte s.mem a).toNat &&& b = b || homeReach s d a then none
      else some (if s.dies[dieOf a].dstate = .dieOffline then 3 else 0x14)
    | none => none

/-- Mark a frame in the partition's dirty bitmap, for a page with DTE (R65): each write whose frame has its bit clear sets it. -/
def markBitmap (s : State) (d : Fin 2) (c : Fin 64) (e : TlbEntry) (pa : Nat) : State :=
  if pteDte e.pte then
    match bitmapBit s s.ctxs[c] pa with
    | some (a, b) =>
      let old := (readByte s.mem a).toNat
      if old &&& b = b then s
      else homeWrite (recallAt s a 1) d (Acc.of c) true a 1 (old ||| b)
    | none => s
  else s

/-- Give the cached copies of a translation D = 1. -/
def cacheDirty (t : List TlbEntry) (e : TlbEntry) : List TlbEntry :=
  t.map fun y => if y.ctx == e.ctx && y.base == e.base && y.size == e.size then { y with pte := y.pte ||| 0x10000#64 } else y

/-- What a write through a translation does before it is performed (R65, R134): its frame is marked, and the first one sets D
in the entry that the walker read. `none` where that entry has changed since it was cached, so that the walk restarts. -/
def setDirty (s : State) (core : Option (Fin 384)) (d : Fin 2) (c : Fin 64) (e : TlbEntry) (pa : Nat) : Option State :=
  if pteD e.pte then some (markBitmap s d c e pa)
  else
    let p := readWord s.mem e.leafAt
    if sameLeaf p e.pte && homeReach s d e.leafAt then
      let s := setEntry s d c e.leafAt (p ||| 0x18000#64)
      let s := modDie s d fun x => { x with tlb := cacheDirty x.tlb e }
      let s := match core with
        | some k => modCore s k fun x => { x with tlb := cacheDirty x.tlb e }
        | none => s
      some (markBitmap s d c e pa)
    else none

/-- Forget the cached translation of an address in a core and its die. -/
def tlbForget (s : State) (core : Option (Fin 384)) (d : Fin 2) (c : Fin 64) (va : Nat) : State :=
  let drop := fun (t : List TlbEntry) => t.filter fun e => !(e.ctx == c && decide (e.base ≤ va) && decide (va < e.base + e.size))
  let s := modDie s d fun x => { x with tlb := drop x.tlb }
  match core with
  | some k => modCore s k fun x => { x with tlb := drop x.tlb }
  | none => s

/-- Whether a range of `size` bytes from `base` on overlaps one of a `tlbinv`; a length of zero covers all (R372). -/
def coversRange (lo len base size : Nat) : Bool := len == 0 || (decide (base < lo + len) && decide (lo < base + size))

/-- Whether a line lies in a copy of a page that was read-duplicate, and that the tables map no more (R154): the page is single now, and its
frame is the other copy. -/
def droppedCopy (s : State) (d : Fin 2) (ts : List TlbEntry) (line : Nat) : Bool :=
  let pa := line * 256
  ts.any fun e =>
    let frame := pteFrame e.pte * 2 ^ 16 % 2 ^ 40
    pteRepl e.pte == 1 && decide (frame ≤ pa % 2 ^ 40) && decide (pa % 2 ^ 40 < frame + e.size) &&
    let va := e.base + (pa % 2 ^ 40 - frame)
    match walk s d e.ctx va with
    | .leaf a p level _ => pteRepl p == 0 && physical (tlbOf e.ctx va level p a) va d != pa
    | .stop _ _ => false

/-- Whether a read-duplicate page that was read is mapped so no more at its first address, so that nothing needs to be remembered of it:
its blocks have leaves of their own. -/
def stale (s : State) (e : TlbEntry) : Bool :=
  match walk s 0 e.ctx e.base with
  | .leaf _ p level _ => pteRepl p == 0 && pageSize level == e.size
  | .stop _ _ => false

/-- Remove the translations of a context that overlap a range from every TLB, every non-leaf entry of the context (R135, R372), what walks of
its old entries found, and the L2 lines of the copies that a collapse has dropped (R154). -/
def tlbInvalidate (s : State) (c : Fin 64) (lo len : Nat) : State :=
  let hit := fun (e : TlbEntry) => e.ctx == c && coversRange lo len e.base e.size
  let drop := fun (t : List TlbEntry) => t.filter fun e => !hit e
  let old := s.dups.filter hit
  let one := fun (x : Die) => { x with
    tlb := drop x.tlb
    nodes := x.nodes.filter fun e => e.ctx != c }
  let s := modDie (modDie s 0 one) 1 one
  let s := (List.finRange 2).foldl (fun s d => modDie s d fun x => { x with
    l2 := x.l2.filter fun e => !droppedCopy s d old e.line }) s
  let s := forgetWalks { s with dups := s.dups.filter fun e => !(hit e && stale s e) } c
  (List.finRange 384).foldl (fun s k => if s.cores[k].tlb.isEmpty then s else modCore s k fun x => { x with tlb := drop x.tlb }) s

/-- Forget the cached D of the translations that a test takes (R374). -/
def tlbClean (s : State) (p : TlbEntry → Bool) : State :=
  let one := fun (e : TlbEntry) => if p e then { e with pte := e.pte &&& ~~~0x10000#64 } else e
  let s := modDie (modDie s 0 fun x => { x with tlb := x.tlb.map one }) 1 fun x => { x with tlb := x.tlb.map one }
  (List.finRange 384).foldl (fun s k => if s.cores[k].tlb.isEmpty then s else modCore s k fun x => { x with tlb := x.tlb.map one }) s

end Sys2Proof.Machine
end

