-- ==== Sys2Proof/Machine/Ops.lean ====
section
/-! DEFINITION. The named operations over registers, splits, handles and contexts, and the taking of an exception
(R109-R127, R137, R243-R255). -/

namespace Sys2Proof.Machine

/-! ### Parts of the state -/

/-- The warp of an id. -/
def findWarp (s : State) (w : Nat) : Option Warp := s.warps.find? fun x => x.id == w

/-- Change the warp of an id. -/
def modWarp (s : State) (w : Nat) (f : Warp → Warp) : State :=
  { s with warps := s.warps.map fun x => if x.id == w then f x else x }

/-- The unit of an id. -/
def findUnit (s : State) (u : Nat) : Option UnitSt := s.units.find? fun x => x.id == u

/-- Change the unit of an id. -/
def modUnit (s : State) (u : Nat) (f : UnitSt → UnitSt) : State :=
  { s with units := s.units.map fun x => if x.id == u then f x else x }

/-- Change one context. -/
def modCtx (s : State) (c : Fin 64) (f : Ctx → Ctx) : State :=
  { s with ctxs := s.ctxs.set c.val (f s.ctxs[c]) c.isLt }

/-- The unit that a warp belongs to. -/
def unitOf (s : State) (w : Warp) : Option UnitSt :=
  match w.kind with
  | .unit u => findUnit s u
  | _ => none

/-- The launch of a context. -/
def findLaunch (x : Ctx) (id : Nat) : Option Launch := x.launches.find? fun l => l.id == id

/-- Change one launch of a context. -/
def modLaunch (s : State) (c : Fin 64) (id : Nat) (f : Launch → Launch) : State :=
  modCtx s c fun x => { x with launches := x.launches.map fun l => if l.id == id then f l else l }

/-- The launch of a unit. -/
def launchOf (s : State) (u : UnitSt) : Option Launch := findLaunch s.ctxs[u.ctx] u.launch

/-- Whether a warp runs on a dispatch core: a job or fault-service warp (R75). -/
def onDispatch (w : Warp) : Bool :=
  match w.kind with
  | .unit _ => false
  | _ => true

/-- Whether a warp is a job warp. -/
def isJob (w : Warp) : Bool :=
  match w.kind with
  | .job => true
  | _ => false

/-- Whether a warp is a fault-service warp. -/
def isService (w : Warp) : Bool :=
  match w.kind with
  | .service _ _ => true
  | _ => false

/-! ### Registers (R5, R109) -/

/-- A v-register of a lane. -/
def vreg (w : Warp) (r : Fin 256) (l : Fin 32) : Word := w.v[r][l]

/-- An s-register; `s0` reads zero (R5). -/
def sreg (w : Warp) (r : Fin 128) : Word := if r = 0 then 0 else w.s[r]

/-- A predicate over the lanes; `p7` is true in every lane (R5). -/
def preg (w : Warp) (r : Fin 8) : Mask := if r = 7 then BitVec.allOnes 32 else w.p[r]

/-- Write a v-register in the lanes of a mask. -/
def setV (w : Warp) (r : Fin 256) (m : Mask) (f : Fin 32 → Word) : Warp :=
  { w with v := w.v.set r.val (tabulate 32 fun l => if m.getLsbD l.val then f l else w.v[r][l]) r.isLt }

/-- Write an s-register; a write to `s0` is discarded (R5). -/
def setS (w : Warp) (r : Fin 128) (x : Word) : Warp :=
  if r = 0 then w else { w with s := w.s.set r.val x r.isLt }

/-- Write a predicate in the lanes of a mask; a write to `p7` is discarded (R5). -/
def setP (w : Warp) (r : Fin 8) (m x : Mask) : Warp :=
  if r = 7 then w else { w with p := w.p.set r.val ((w.p[r] &&& ~~~m) ||| (x &&& m)) r.isLt }

/-- Write a handle register. -/
def setH (w : Warp) (r : Fin 16) (x : BitVec 32) : Warp := { w with h := w.h.set r.val x r.isLt }

/-- Set flags of the flag word (R193). -/
def setFlags (w : Warp) (x : BitVec 16) : Warp := { w with flags := w.flags ||| x }

/-- The mask of the lanes whose guard holds: p[GP] xor GI (R257). -/
def guardMask (w : Warp) (g : Guard) : Mask := if g.inv then ~~~(preg w g.pred) else preg w g.pred

/-- Set the pending bit of a v-register (R123). -/
def pendV (w : Warp) (r : Fin 256) : Warp := { w with vpend := w.vpend ||| BitVec.ofNat 256 (2 ^ r.val) }

/-- Clear the pending bit of a v-register. -/
def clearV (w : Warp) (r : Fin 256) : Warp := { w with vpend := w.vpend &&& ~~~BitVec.ofNat 256 (2 ^ r.val) }

/-- Set the pending bit of an s-register; `s0` has no result to wait for (R5, R123). -/
def pendS (w : Warp) (r : Fin 128) : Warp :=
  if r = 0 then w else { w with spend := w.spend ||| BitVec.ofNat 128 (2 ^ r.val) }

/-- Clear the pending bit of an s-register. -/
def clearS (w : Warp) (r : Fin 128) : Warp := { w with spend := w.spend &&& ~~~BitVec.ofNat 128 (2 ^ r.val) }

/-- Item index of a lane (R72, R114): the lane number in a job or fault-service warp. -/
def itemOf (s : State) (w : Warp) (l : Nat) : Nat :=
  match unitOf s w with
  | some u =>
    match launchOf s u with
    | some la => (u.index * la.r.wpu + w.rank) * 32 + l
    | none => l
  | none => l

/-! ### Splits and rejoin records (R115-R118) -/

/-- The split of a number. -/
def splitAt (w : Warp) (k : Fin 8) : Option Split := w.splits[k]

/-- Replace a split entry. -/
def setSplit (w : Warp) (k : Fin 8) (x : Option Split) : Warp := { w with splits := w.splits.set k.val x k.isLt }

/-- Change a split entry that is valid. -/
def modSplit (w : Warp) (k : Fin 8) (f : Split → Split) : Warp :=
  match w.splits[k] with
  | some x => setSplit w k (some (f x))
  | none => w

/-- Replace a rejoin record. -/
def setRec (w : Warp) (k : Fin 16) (x : Option Rejoin) : Warp := { w with recs := w.recs.set k.val x k.isLt }

/-- Change a record that is valid. -/
def modRec (w : Warp) (k : Fin 16) (f : Rejoin → Rejoin) : Warp :=
  match w.recs[k] with
  | some x => setRec w k (some (f x))
  | none => w

/-- The valid split entries, lowest first. -/
def validSplits (w : Warp) : List (Fin 8 × Split) :=
  (List.finRange 8).filterMap fun k => w.splits[k].map fun x => (k, x)

/-- The free split entries, lowest first. -/
def freeSplits (w : Warp) : List (Fin 8) := (List.finRange 8).filter fun k => w.splits[k].isNone

/-- The member splits of a record, lowest first. -/
def membersOf (w : Warp) (r : Fin 16) : List (Fin 8 × Split) :=
  (validSplits w).filter fun x => x.2.record == some r

/-- Whether a split parks where it stands (R117): at the RPC of its record, with no chained result outstanding (R123), not suspended on a
fault (R137) nor stopped by a `halt` or `safept` (R96), and not the split of an open bracket. -/
def parks (w : Warp) (k : Fin 8) (x : Split) : Bool :=
  x.st != .parked && !x.held && !x.susp && x.stop == .no && x.record.isSome && x.pc == x.rpc
    && !(match w.bracket with | some (b, _) => b == k | none => false)

/-- Park a split (R117). Its `timer` orders the parkings of the warp. -/
def park (w : Warp) (k : Fin 8) (x : Split) : Warp :=
  let last := (validSplits w).foldl (fun m y => if y.2.st == .parked then max m y.2.timer else m) 0
  let w := setSplit w k (some { x with st := .parked, timer := last + 1 })
  match x.record with
  | some r => modRec w r fun y => { y with arrn := y.arrn + 1 }
  | none => w

/-- Whether a release finds an entry for its split, where it makes one: that of a member, or a free one. -/
def hasSeat (w : Warp) (r : Fin 16) (x : Rejoin) : Bool :=
  !(membersOf w r).isEmpty || !(freeSplits w).isEmpty || (x.dset.isNone && x.done == 0)

/-- Whether a record is released now (R117): every member has arrived, at the record's depth. One whose members have all exited, with
every entry of the warp in use, waits for an entry (log 78). -/
def releasable (w : Warp) (r : Fin 16) (x : Rejoin) : Bool :=
  x.arrn == x.memb && ((membersOf w r).all fun m => m.2.depth == x.depth) && hasSeat w r x

/-- The record a record lies in loses a member. -/
def loseMember (w : Warp) (r : Option (Fin 16)) : Warp :=
  match r with
  | some p => modRec w p fun y => { y with memb := y.memb - 1 }
  | none => w

/-- Release a record (R117, steps 2 to 4); `age` is the quadrant's issue count. A split that no parked split goes into, the members having all
exited, starts with a safe-point count of 0, for which R97 names none (log 78). -/
def release (w : Warp) (r : Fin 16) (x : Rejoin) (age : BitVec 32) : Warp :=
  let ms := membersOf w r
  let mask := ms.foldl (fun m y => m ||| y.2.mask) x.done
  let count := ms.foldl (fun m y => max m y.2.count) 0
  let w' := ms.foldl (fun w y => setSplit w y.1 none) w
  match x.dset with
  | some (dmask, dpc) =>
    match (ms.map (·.1) ++ freeSplits w').head? with
    | some k =>
      let w' := setRec w' r (some { x with done := mask, memb := 1, arrn := 0, dset := none })
      setSplit w' k (some
        { age := age, pc := dpc, rpc := x.rpc, st := .runnable, depth := x.depth, record := some r, dr := true
          mask := dmask, count := count, idle := 0, overdue := false, held := false, susp := false, stop := .no, timer := 0, wtimer := 0
          fails := [], ewait := none })
    | none => w
  | none =>
    let w' := setRec w' r none
    if mask = 0 then loseMember w' x.parent
    else
      match (ms.map (·.1) ++ freeSplits w').head? with
      | none => loseMember w' x.parent
      | some k =>
        let old := if ms.isEmpty then age
          else ms.foldl (fun (a : BitVec 32) y => if y.2.age.toNat < a.toNat then y.2.age else a) (BitVec.allOnes 32)
        let prpc := match x.parent with
          | some p => (match w'.recs[p] with | some y => y.rpc | none => 0)
          | none => 0
        setSplit w' k (some
          { age := old, pc := x.rpc, rpc := prpc, st := .runnable, depth := x.depth, record := x.parent, dr := false
            mask := mask, count := count, idle := 0, overdue := false, held := false, susp := false, stop := .no, timer := 0, wtimer := 0
            fails := [], ewait := none })

/-- Park and release until nothing more applies (R117). A hundred and twenty-eight steps cover eight splits and sixteen records, each released at
most twice. -/
def settleWarp (age : BitVec 32) : Nat → Warp → Warp
  | 0, w => w
  | fuel + 1, w =>
    match (validSplits w).find? fun y => parks w y.1 y.2 with
    | some (k, x) => settleWarp age fuel (park w k x)
    | none =>
      match ((List.finRange 16).filterMap fun r => w.recs[r].map fun x => (r, x)).find? fun y => releasable w y.1 y.2 with
      | some (r, x) => settleWarp age fuel (release w r x age)
      | none => w

/-- The split that parked last, of a warp in a rejoin deadlock (R118). -/
def deadlocked (w : Warp) : Option (Fin 8 × Split) :=
  let xs := validSplits w
  if !xs.isEmpty && xs.all (fun y => y.2.st == .parked) then
    xs.foldl (fun (b : Option (Fin 8 × Split)) y =>
      match b with
      | none => some y
      | some z => if z.2.timer < y.2.timer then some y else some z) none
  else none

/-- Lanes leave their split, the live mask and every return-stack entry (R112, R117). -/
def exitLanes (w : Warp) (k : Fin 8) (m : Mask) : Warp :=
  let w := { w with
    live := w.live &&& ~~~m
    rstack := (w.rstack.map fun (e : RetEntry) => { e with mask := e.mask &&& ~~~m }).filter fun e => e.mask != 0 }
  match w.splits[k] with
  | none => w
  | some x =>
    if x.mask &&& ~~~m = 0 then loseMember (setSplit w k none) x.record
    else setSplit w k (some { x with mask := x.mask &&& ~~~m })

/-! ### Handles (R125-R127) -/

/-- The value of a handle-table entry (R125). -/
def handleValue (e : HEntry) : BitVec 32 :=
  BitVec.ofNat 32 (e.cls % 8 * 2 ^ 29 + e.eng % 256 * 2 ^ 21 + e.slot % 4096 * 2 ^ 9 + e.gen.toNat)

/-- Who owns what a warp creates (R126). -/
def ownerOf (w : Warp) : Owner :=
  match w.kind with
  | .unit u => .unit u
  | _ => .warp w.id

/-- Whether a handle is in a final state (R126). -/
def hFinal (st : HState) : Bool := st == .done || st == .faulted || st == .cancelled

/-- The live entry that a handle value names in a context (R125). -/
def entryOf (x : Ctx) (h : BitVec 32) : Option HEntry :=
  x.handles.find? fun e => e.st != .free && handleValue e == h

/-- How a handle value reads for a warp (R127). -/
inductive Resolved where
  | null
  | entry (e : HEntry)
  | bad
  deriving DecidableEq, Repr

/-- Resolve a handle value (R127): the entry must belong to the executing unit, or warp. -/
def resolve (s : State) (w : Warp) (h : BitVec 32) : Resolved :=
  if h = 0 then .null
  else
    match entryOf s.ctxs[w.ctx] h with
    | some e => if e.owner = ownerOf w then .entry e else .bad
    | none => .bad

/-- Change the entry of a slot. -/
def modHandle (s : State) (c : Fin 64) (slot : Nat) (f : HEntry → HEntry) : State :=
  modCtx s c fun x => { x with handles := x.handles.map fun e => if e.slot == slot then f e else e }

/-- Change the entry that a handle value names. -/
def modEntry (s : State) (c : Fin 64) (h : BitVec 32) (f : HEntry → HEntry) : State :=
  match entryOf s.ctxs[c] h with
  | some e => modHandle s c e.slot f
  | none => s

/-- A pending operation reaches a final state; an entry already final keeps its state (R126, R337). -/
def endHandle (s : State) (c : Fin 64) (h : BitVec 32) (st : HState) (f : HEntry → HEntry) : State :=
  let n := s.serial
  modEntry { s with serial := n + 1 } c h fun e =>
    if e.st == .pending then { f e with st := st, finalAt := n } else e

/-- The oldest final entry of those that a test takes (R126). -/
def oldestFinal (x : Ctx) (p : HEntry → Bool) : Option HEntry :=
  (x.handles.filter fun e => hFinal e.st && p e).foldl
    (fun (b : Option HEntry) e =>
      match b with
      | none => some e
      | some y => if e.finalAt < y.finalAt then some e else some y) none

/-- The lowest slot with no live entry (R126). -/
def lowestSlot (hs : List HEntry) : Nat → Nat → Option Nat
  | 0, _ => none
  | fuel + 1, n => if hs.any fun e => e.slot == n && e.st != .free then lowestSlot hs fuel (n + 1) else some n

/-- Whether a handle register holds a pending handle (R126). -/
def hPending (s : State) (w : Warp) (hn : Fin 16) : Bool :=
  match resolve s w w.h[hn] with
  | .entry e => e.st == .pending
  | _ => false

/-- Room for one more handle of a warp (R126): `none` where the issue waits. -/
def handleRoom (s : State) (w : Warp) (hn : Fin 16) : Option State :=
  let x := s.ctxs[w.ctx]
  if hPending s w hn then none
  else
    let mine := fun (e : HEntry) => e.creator == w.id && e.st != HState.free
    let first : Option State :=
      if (x.handles.filter mine).length < 16 then some s
      else
        match oldestFinal x mine with
        | some e => some (modHandle s w.ctx e.slot fun y => { y with st := .free })
        | none => none
    match first with
    | none => none
    | some s =>
      let x := s.ctxs[w.ctx]
      if (x.handles.filter fun e => e.st != .free).length < Config.handleSlots then some s
      else
        match oldestFinal x fun _ => true with
        | some e => some (modHandle s w.ctx e.slot fun y => { y with st := .free })
        | none => none

/-- Take the lowest free entry for a new operation (R126): its handle value and the state. -/
def newHandle (s : State) (w : Warp) (cls eng : Nat) : BitVec 32 × State :=
  let x := s.ctxs[w.ctx]
  match lowestSlot x.handles Config.handleSlots 0 with
  | none => (0, s)
  | some slot =>
    let gen := match x.handles.find? fun e => e.slot == slot with
      | some e => e.gen
      | none => 0
    let e : HEntry :=
      { slot := slot, gen := gen + 1, st := .pending, cls := cls, eng := eng, owner := ownerOf w, creator := w.id
        status := 0, cause := 0, va := 0, pte := 0, elem := 0, finalAt := 0, cancelReq := false, wscope := .core }
    (handleValue e,
     modCtx s w.ctx fun x => { x with handles := e :: x.handles.filter fun y => y.slot != slot })

/-- Free the handles that an owner holds (R126), with the faulted operations that no one can restart any more. -/
def freeHandles (s : State) (c : Fin 64) (o : Owner) : State :=
  let gone := fun (k : Fin 64) (h : BitVec 32) =>
    k == c && s.ctxs[c].handles.any fun e => e.owner == o && e.st == .faulted && handleValue e == h
  let s := { s with
    copies := s.copies.filter fun x => !(x.faulted && gone x.ctx x.handle)
    mops := s.mops.filter fun x => !(x.faulted && gone x.ctx x.handle)
    maints := s.maints.filter fun x => !(x.faulted && gone x.ctx x.handle) }
  modCtx s c fun x => { x with handles := x.handles.map fun e => if e.owner = o then { e with st := .free } else e }

/-! ### Messages to the host (R36, R39, R42, R63) -/

/-- Hold a message for the host. -/
def holdMsg (s : State) (x : HeldMsg) : State := { s with host := { s.host with held := s.host.held ++ [x] } }

/-- Send to the host from its port, or hold while the link is down and behind what is held there (R42). -/
def atHostPort (s : State) (x : HeldMsg) : State :=
  if s.host.up && !(s.host.held.any fun y => y.die == 0) then { s with hostOut := s.hostOut ++ [x.msg] } else holdMsg s { x with die := 0 }

/-- Send to the host from a die, for a context where it has one. The host port is die 0's, so that a message of die 1 crosses the bridge
(R10, R25): it waits there while the bridge stalls, behind what waits there already, and never comes where the bridge is down (R27). -/
def toHostFor (s : State) (x : HeldMsg) : State :=
  match crossing s x.die 0 with
  | .down => s
  | .stalled => holdMsg s x
  | .free =>
    if x.die = 0 then atHostPort s x
    else if s.host.held.any fun y => y.die == x.die then holdMsg s x
    else atHostPort (sendPacket s x.die hostAgent .request true) x

/-- Send to the host from a die. -/
def toHostFrom (s : State) (d : Fin 2) (m : HostMsg) : State := toHostFor s { die := d, owner := none, msg := m }

/-- Send to the host from die 0. -/
def toHost (s : State) (m : HostMsg) : State := toHostFrom s 0 m

/-- Whether a message is the completion of a function's context. -/
def HeldMsg.wordOf (x : HeldMsg) (fn : Nat) : Bool := match x.msg with | .completion f _ _ _ => f == fn | _ => false

/-- How many completion words of a function are held (R42). -/
def heldWords (s : State) (fn : Nat) : Nat := (s.host.held.filter (·.wordOf fn)).length

/-- Send a completion, or let it wait at its Drover while its function holds 64 already (R42; log 48). -/
def sendWord (s : State) (fn : Nat) (x : HeldMsg) : State :=
  if 64 ≤ heldWords s fn || s.host.owed.any (·.wordOf fn) then { s with host := { s.host with owed := s.host.owed ++ [x] } }
  else toHostFor s x

/-- Send again what is held, in order, once the link or the bridge is back, and then the completions that wait for a place (R26, R42). -/
def sendHeld (s : State) : State :=
  let t := s.host.held.foldl toHostFor { s with host := { s.host with held := [], owed := [] } }
  s.host.owed.foldl (fun s x => match x.msg with | .completion fn _ _ _ => sendWord s fn x | _ => toHostFor s x) t

/-- The die of a context's home Drover (R59, R85). -/
def homeDie (s : State) (c : Fin 64) : Fin 2 :=
  let x := s.ctxs[c]
  if x.mode then x.die
  else if h : x.part.val < 24 then (if s.parts[x.part.val].isl0 = 0 then 1 else 0)
  else 0

/-- The function that serves a context's partition: 0 is the PF (R56, R63). -/
def functionOf (s : State) (c : Fin 64) : Nat :=
  let p := s.ctxs[c].part
  if h : p.val < 24 then s.parts[p.val].vf else 0

/-- A completion word (R63). -/
def completionWord (seq : BitVec 32) (end_ code : Nat) : Word :=
  BitVec.ofNat 64 (seq.toNat * 2 ^ 32 + end_ % 256 * 2 ^ 24 + code % 2 ^ 16)

/-- Write the completion word of a context's job, then its interrupt (R63). -/
def complete (s : State) (c : Fin 64) (end_ code : Nat) : State :=
  let x := s.ctxs[c]
  let fn := functionOf s c
  sendWord s fn
    { die := homeDie s c, owner := some c, msg := .completion fn x.caddr (completionWord x.seq end_ code) x.vec.val }

/-! ### The end of units, launches and jobs (R60, R71-R74, R79, R80, R92) -/

/-- The widest internal scope of a context (R59). -/
def widest (x : Ctx) : Scope := if x.mode then .die else .package

/-- Lines of L1 of pages of scope die or wider. -/
def wideLine (l : L1Line) : Bool := l.scope != .core

/-- Write back the dirty lines of pages of scope die or wider on every core (R79). -/
def releaseCores (s : State) : State :=
  (List.finRange 384).foldl (fun s c => if s.cores[c].l1.isEmpty then s else l1Clean s c wideLine) s

/-- Drop warps and every result on its way to them. -/
def dropWarps (s : State) (p : Warp → Bool) : State :=
  let ids := (s.warps.filter p).map (·.id)
  { s with
    warps := s.warps.filter fun w => !p w
    results := s.results.filter fun r => !ids.contains r.warp }

/-- Whether a warp belongs to a unit. -/
def inUnit (u : Nat) (w : Warp) : Bool :=
  match w.kind with
  | .unit v => v == u
  | _ => false

/-- Whether a launch is not yet done, refused or cancelled (R71): a cancelled one counts until the steps of R79 are done (R80). -/
def launchLive (l : Launch) : Bool :=
  l.st == .held || l.st == .ready || l.st == .running || (l.st == .cancelled && !l.fin)

/-- Everything that a context has in flight is dropped: units, warps, engine operations (R60, R245). -/
def dropAll (s : State) (c : Fin 64) : State :=
  let s := { s with
    copies := s.copies.filter fun o => o.ctx != c
    mops := s.mops.filter fun o => o.ctx != c
    maints := s.maints.filter fun o => o.ctx != c
    carves := s.carves.filter fun o => o.ctx != c
    mails := s.mails.filter fun o => o.ctx != c
    units := s.units.filter fun u => u.ctx != c
    starts := tabulate 2 fun d => s.starts[d].filter fun r =>
      match r with
      | .job x => x != c
      | .service x _ => x != c }
  let forget := fun (x : Die) => { x with engFails := x.engFails.filter fun f => f.2.ctx != c }
  let s := dropWarps (modDie (modDie s 0 forget) 1 forget) fun w => w.ctx == c
  { s with cores := tabulate 384 fun k =>
      let x := s.cores[k]
      { x with
        slot := x.slot.filter fun y => y.ctx != c
        swap := match x.swap with | some (d, t) => if d = c then none else some (d, t) | none => none } }

/-- The CAUSE of each unretired resumable record of a context is rewritten to 0x0015 (R250). Of the faults that have no record yet, those
of splits that are gone are dropped, and one that would have ended the context keeps its place. -/
def disarmRecords (s : State) (c : Fin 64) : State :=
  (List.finRange 2).foldl (fun s d =>
    let recs := s.dies[d].slots
    let base := s.dies[d].fbase.toNat
    let hit := fun (r : SlotRec) => r.ctx == c && (r.cause == 3 || r.cause == 4 || r.cause == 5 || r.cause == 0xB || r.cause == 0x16)
    let s := modDie s d fun x => { x with
      slots := x.slots.map fun r => if hit r then { r with cause := 0x15, splits := [] } else r
      faultQ := (x.faultQ.filter fun r => r.ctx != c || r.ends).map fun r => if r.ctx == c then { r with ends := false } else r
      served := x.served.filter fun r => r.ctx != c }
    (recs.filter hit).foldl (fun s r => homeWrite s d Acc.plain false (base + 64 * r.slot + 6) 2 0x15) s) s

/-- The number of a core on its die. -/
def coreOnDie (c : Fin 384) : Nat := c.val % 192

/-- Whether a partition holds a core's island (R56). -/
def partHolds (p : Part) (c : Fin 384) : Bool :=
  (if coreDie c = 0 then p.isl0 else p.isl1).getLsbD (coreOnDie c / 16)

/-- The partition of a context. -/
def partOfCtx (s : State) (c : Fin 64) : Part :=
  let n := s.ctxs[c].part
  if h : n.val < 24 then s.parts[n.val] else Part.reset

/-- Whether a context holds a core (R53): it exists, has not ended, and its partition has the core's island. -/
def ctxHolds (s : State) (k : Fin 384) (c : Fin 64) : Bool :=
  let x := s.ctxs[c]
  x.st != .free && x.st != .ended && partHolds (partOfCtx s c) k

/-- The conditions of R53 under which a die asks for its replacement. -/
def replaceDue (d : Die) : Bool :=
  decide (8 < bitCount d.retCores) ||
  decide (64 < (List.finRange 64).foldl (fun n k => n + bitCount d.retWays[k]) 0) ||
  (List.finRange 12).any (fun k => decide (4 < bitCount d.retPcs[k])) ||
  d.modules != BitVec.allOnes 96 || (List.finRange 8).any fun k => d.ports[k] == 0

/-- The number of a start kind in field START (R50). -/
def startCode : StartKind → Nat
  | .cold => 0 | .warm => 1 | .recovery => 2 | .romHold => 3

/-- The number of a die state in field DSTATE (R50). -/
def dstateCode : DState → Nat
  | .online => 0 | .coresOffline => 1 | .dieOffline => 2

/-- The summary word of a die's health status (R50). -/
def healthSummary (d : Die) : Word :=
  BitVec.ofNat 64 ((if d.rr then 2 ^ 63 else 0) + (if d.trip then 2 ^ 62 else 0) + startCode d.start * 2 ^ 60
    + d.fails.val * 2 ^ 58 + dstateCode d.dstate * 2 ^ 56 + (192 - bitCount d.retCores) * 2 ^ 48)

/-- The 8 bytes of a die's health status at an offset (R50); what the table does not name reads zero. -/
def healthWord (d : Die) (off : Nat) : Word :=
  if off = 0 then healthSummary d
  else if off < 0x20 then BitVec.ofNat 64 (d.retCores.toNat >>> (8 * (off - 8)))
  else if off < 0x30 then BitVec.ofNat 64 (d.modules.toNat >>> (8 * (off - 0x20)))
  else if off = 0x30 then BitVec.ofNat 64 (ofBytes ((List.finRange 8).map fun p => d.ports[p]))
  else if off < 0x48 then
    BitVec.ofNat 64 (ofBytes ((List.finRange 12).map fun i => d.clock[i]) >>> (8 * (off - 0x38)))
  else if off = 0x48 then d.corr
  else if off = 0x50 then d.uncorr
  else if 0x100 ≤ off ∧ off < 0x200 then
    let w := fun (k : Nat) => (d.retWays[Fin.ofNat 64 k]).toNat
    BitVec.ofNat 64 (w ((off - 0x100) / 4) + w ((off - 0x100) / 4 + 1) * 2 ^ 32)
  else if 0x200 ≤ off ∧ off < 0x260 then (d.retPcs[Fin.ofNat 12 ((off - 0x200) / 8)]).setWidth 64
  else 0

/-- The health status of a die, word after word (R50). -/
def healthOf (d : Die) : List Word := (List.range 76).map fun k => healthWord d (8 * k)

/-- Vector 63 of the PF is sent where a field of a die's health status is not what it was (R50). -/
def tellHealth (s : State) (d : Fin 2) (was : Die) : State :=
  if healthOf was = healthOf s.dies[d] then s else toHostFrom s d (.msix 0 63)

/-- Change a die's health status (R50): RR follows R53. -/
def setHealth (s : State) (d : Fin 2) (f : Die → Die) : State :=
  let x := s.dies[d]
  let y := f x
  tellHealth (modDie s d fun _ => { y with rr := y.rr || replaceDue y }) d x

/-- Retire the cores whose retirement waits for their release, once no context holds them (R53). -/
def retirePending (s : State) : State :=
  (List.finRange 2).foldl (fun s d =>
    let p := s.dies[d].pendCores
    if p = 0 then s
    else
      let now := (List.range 192).foldl (fun (m : Nat) k =>
        if p.getLsbD k && !((List.finRange 64).any fun c => ctxHolds s (Fin.ofNat 384 (192 * d.val + k)) c)
        then m + 2 ^ k else m) 0
      let m := BitVec.ofNat 192 now
      if m = 0 then s
      else setHealth s d fun x => { x with retCores := x.retCores ||| m, pendCores := x.pendCores &&& ~~~m }) s

/-- End a context after a fault (R60, R63, R245): its work stops, its completion word is END = 2. -/
def endContext (s : State) (c : Fin 64) (cause : Nat) : State :=
  let x := s.ctxs[c]
  if x.st == .running || x.st == .halting || x.st == .halted then
    let s := dropAll s c
    let s := modCtx s c fun y => { y with
      st := .ended, held := none, jobWait := false, resvUnit := none, resvCore := [], await := [], jobEnd := y.jobEnd.filter (· == 3)
      handles := y.handles.map fun e => { e with st := .free } }
    let s := complete s c 2 cause
    retirePending (if x.st == .halting then toHostFrom s (homeDie s c) (.msix 0 62) else s)
  else s

/-! ### Taking an exception (R137, R243-R252) -/

/-- Whether a cause is resumable (R243). -/
def resumable (cause : Nat) : Bool := cause == 3 || cause == 4 || cause == 5 || cause == 0xB || cause == 0x16

/-- Whether a cause is terminal (R243). -/
def terminal (cause : Nat) : Bool := cause == 0x13 || cause == 0x14

/-- A fault with nothing but its cause. -/
def faultOf (cause : Nat) : FaultInfo :=
  { cause := cause, va := 0, pte := 0, handle := 0, elem := 0, hnd := false, late := false, lanes := 0, ecc := none }

/-- TRAPEN of a warp's launch; a job warp counts as 1, a fault-service warp has no handler (R246). -/
def trapEnabled (s : State) (w : Warp) : Bool :=
  match w.kind with
  | .job => true
  | .service _ _ => false
  | .unit u =>
    match findUnit s u with
    | some x => (match launchOf s x with | some l => l.r.trapen | none => false)
    | none => false

/-- Where a fault goes: 0 the handler, 1 the driver, 2 a fault-service job (R246). -/
def routeOf (s : State) (w : Warp) (cause : Nat) : Nat :=
  let x := s.ctxs[w.ctx]
  let r := bitsOf x.route (2 * cause) 2
  if terminal cause || w.handler.isSome || isService w then 1
  else if r = 0 then (if trapEnabled s w && x.tvec != 0 then 0 else 1)
  else if r = 2 then (if x.svec = 0 then 1 else 2)
  else 1

/-- The lane that a fault record names (R232, R245, R248, R258): the lowest faulting lane, or the lowest lane of the
split's mask. -/
def faultLane (f : FaultInfo) (act mask : Mask) : Nat :=
  match (if f.hnd then act else f.lanes).lowest with
  | some l => l.val
  | none => match mask.lowest with | some l => l.val | none => 0

/-- The eight words of a fault record (R248). A copy engine's fault carries no expand tag (R232). -/
def recordWords (s : State) (w : Warp) (mask act : Mask) (pc : Word) (f : FaultInfo) (dest : Nat) : List Word :=
  let lane := faultLane f act mask
  let x := s.ctxs[w.ctx]
  let nest := w.handler.isSome || isService w
  let copy := f.hnd && f.handle.toNat / 2 ^ 29 == 1
  let tag := if lane < 32 && !copy then (w.tags[lane]?).join else none
  let b := fun (v : Bool) (n : Nat) => if v then 2 ^ n else 0
  let uidx := match unitOf s w with | some u => u.index | none => 0
  [ BitVec.ofNat 64 (f.cause * 2 ^ 48 + b (resumable f.cause) 47 + b f.hnd 46 + b f.late 45 + b nest 44 + b tag.isSome 43
      + dest * 2 ^ 40 + w.ctx.val * 2 ^ 16 + x.part.val * 2 ^ 8 + (coreDie w.core).val)
  , f.va
  , pc
  , BitVec.ofNat 64 (uidx % 2 ^ 32 * 2 ^ 32 + w.rank % 256 * 2 ^ 24 + uidx / 2 ^ 32 % 256 * 2 ^ 16)
  , BitVec.ofNat 64 (itemOf s w lane)
  , (match tag with
    | some t => BitVec.ofNat 64 ((256 * t.x.val + t.owner) * 2 ^ 32 + t.j % 2 ^ 32)
    | none => 0xFFFFFFFF00000000#64)
  , BitVec.ofNat 64 (f.handle.toNat * 2 ^ 32 + f.elem % 2 ^ 32)
  , f.pte ]

/-- Enter the handler of a warp (R252). -/
def enterHandler (now : Nat) (w : Warp) (sp : Fin 8) (words : List Word) (tepc : Word) (act lanes : Mask) (tvec : Word) : Warp :=
  let w := { w with
    handler := some sp
    entered := now + Config.entryCycles
    trec := tabulate 8 fun k => words.getD k.val 0
    tepc := tepc
    tmask := BitVec.ofNat 64 (act.toNat * 2 ^ 32 + lanes.toNat) }
  modSplit w sp fun x => { x with pc := tvec, st := .runnable, susp := false, timer := 0, wtimer := 0, stop := .no, ewait := none }

/-- Write the words of a record to a slot, its CAUSE word last (R249). -/
def writeRecord (s : State) (d : Fin 2) (slot : Nat) (words : List Word) : State :=
  let a := s.dies[d].fbase.toNat + 64 * slot
  let s := ((List.range 7).map (· + 1)).foldl
    (fun s k => homeWrite s d Acc.plain false (a + 8 * k) 8 (words.getD k 0).toNat) s
  homeWrite s d Acc.plain false a 8 (words.getD 0 0).toNat

/-- The lowest free slot of a fault buffer (R249). -/
def freeSlot (rs : List SlotRec) : Nat → Nat → Option Nat
  | 0, _ => none
  | fuel + 1, n => if rs.any fun r => r.slot == n then freeSlot rs fuel (n + 1) else some n

/-- Give a fault a slot, its interrupt or its fault-service start (R137, R249, R251). Of the function that owns the context (R36) and vector
61 of the PF (R249), which differ for the context of a VF, the model takes the PF's, as R249 names it (log 75). -/
def placeRecord (s : State) (d : Fin 2) (q : WaitFault) : Option State :=
  match freeSlot s.dies[d].slots Config.faultSlots 0 with
  | none => none
  | some slot =>
    let s := writeRecord s d slot q.words
    let s := modDie s d fun x => { x with
      slots := { slot := slot, ctx := q.ctx, cause := q.cause, va := q.va, route := q.route, words := q.words
                 splits := [q.split], handle := q.handle, elem := q.elem } :: x.slots }
    let s := if q.route = 1 then toHostFrom s d (.msix 0 61) else s
    if q.route = 2 && resumable q.cause then
      some { s with starts := s.starts.set d.val (s.starts[d] ++ [.service q.ctx slot]) d.isLt }
    else some s

/-- A fault of the same context, cause and page is joined to a record (R137); a `trap` never joins, nor does a fault that a wait on a handle
takes, which each warp takes in its own record (R335). -/
def joinRecord (s : State) (d : Fin 2) (q : WaitFault) : Option State :=
  if q.cause = 0x16 || q.handle != 0 then none
  else
    match s.dies[d].slots.find? fun r => r.ctx == q.ctx && r.cause == q.cause && bitsOf r.va 16 41 == bitsOf q.va 16 41 with
    | none => none
    | some r =>
      let w0 := (r.words.getD 0 0) ||| 0x40000000000#64
      let s := homeWrite s d Acc.plain false (s.dies[d].fbase.toNat + 64 * r.slot) 8 w0.toNat
      some (modDie s d fun x => { x with slots := x.slots.map fun y =>
        if y.slot == r.slot then { y with words := w0 :: y.words.drop 1, splits := q.split :: y.splits } else y })

/-- Give a fault of route 1 or 2 its record, where it finds one to join or a free slot (R137, R249). A fault that ends its context
joins none, and the context ends once its record is written (R245, R246, R250). -/
def settleFault (s : State) (d : Fin 2) (q : WaitFault) : Option State :=
  if q.ends then (placeRecord s d q).map fun s => endContext s q.ctx q.cause
  else (joinRecord s d q).orElse fun _ => placeRecord s d q

/-- Record a fault on route 1 or 2: at once, or when a slot is free (R137 step 5). -/
def recordFault (s : State) (d : Fin 2) (q : WaitFault) : State :=
  (settleFault s d q).getD (modDie s d fun x => { x with faultQ := x.faultQ ++ [q] })

/-- A saturating count. -/
def countUp (x : Word) : Word := if x = BitVec.allOnes 64 then x else x + 1

/-- Count an uncorrectable error of a die (R50, R52). -/
def countError (s : State) (d : Option (Fin 2)) : State :=
  match d with
  | some d => setHealth s d fun x => { x with uncorr := countUp x.uncorr }
  | none => s

/-- A split stands where a fault has left it, until it is replayed (R137). -/
def suspend (s : State) (w : Nat) (sp : Fin 8) (pc : Word) : State :=
  modWarp s w fun y => modSplit y sp fun x => { x with pc := pc, st := .blocked, susp := true }

/-- TAKE AN EXCEPTION (R100, R137, R245, R246, R249, R250, R252). The split `sp` of warp `w` faults at `pc`; `next` is the
address of the next instruction, and `act` the active lanes. On route 0 the handler is entered. On route 1 or 2 the
fault is recorded, and then the split suspends where the cause is resumable, or the context ends. In a context that halts, a
fault that does not end it is delivered after the resume. -/
def takeFault (s : State) (w : Warp) (sp : Fin 8) (pc next : Word) (act : Mask) (f : FaultInfo) : State :=
  let mask := match w.splits[sp] with | some x => x.mask | none => 0
  let dest := routeOf s w f.cause
  let again := if f.cause = 0x16 then next else pc
  let ends := dest != 0 && (!resumable f.cause || w.handler.isSome || isService w)
  let q : WaitFault :=
    { ctx := w.ctx, cause := f.cause, va := f.va, route := dest, words := recordWords s w mask act pc f dest, split := (w.id, sp)
      handle := f.handle, elem := f.elem, ends := ends }
  let s := countError s f.ecc
  if s.ctxs[w.ctx].st = .halting && !ends then
    suspend (modCtx s w.ctx fun x => { x with
      await := x.await ++ [{ die := coreDie w.core, q := q, act := act, lanes := f.lanes, again := again }] }) w.id sp pc
  else if dest = 0 then
    modWarp s w.id fun y => enterHandler s.now y sp q.words again act f.lanes s.ctxs[w.ctx].tvec
  else recordFault (suspend s w.id sp again) (coreDie w.core) q

/-- Deliver one fault that waited for the resume of its context (R100); `none` while its warp is in handler mode. -/
def deliverOne (s : State) (a : Await) : Option State :=
  match findWarp s a.q.split.1 with
  | none => some s
  | some w =>
    if a.q.route = 0 then
      if w.handler.isSome then none
      else some (modWarp s w.id fun y => enterHandler s.now y a.q.split.2 a.q.words a.again a.act a.lanes s.ctxs[w.ctx].tvec)
    else some (recordFault (suspend s w.id a.q.split.2 a.again) a.die a.q)

/-- Deliver the faults of a context that wait for its resume, in order (R100). -/
def deliverAwait (s : State) (c : Fin 64) : State :=
  if s.ctxs[c].await.isEmpty then s
  else
    s.ctxs[c].await.foldl (fun s a =>
      match deliverOne s a with
      | some s => s
      | none => modCtx s c fun x => { x with await := x.await ++ [a] }) (modCtx s c fun x => { x with await := [] })

/-- An agent other than a warp takes a cause that ends its context (R21, R27, R52, R155): the record goes to the driver, with the
handle and the element where the agent has them. -/
def agentFault (s : State) (d : Fin 2) (c : Fin 64) (cause : Nat) (va : Word) (handle : BitVec 32) (elem : Nat) : State :=
  let words : List Word :=
    [ BitVec.ofNat 64 (cause * 2 ^ 48 + (if resumable cause then 2 ^ 47 else 0) + (if handle = 0 then 0 else 2 ^ 46) + 2 ^ 40
        + c.val * 2 ^ 16 + s.ctxs[c].part.val * 2 ^ 8 + d.val)
    , va, 0, 0, 0, 0xFFFFFFFF00000000#64, BitVec.ofNat 64 (handle.toNat * 2 ^ 32 + elem % 2 ^ 32), 0 ]
  recordFault s d
    { ctx := c, cause := cause, va := va, route := 1, words := words, split := (s.serial, 0), handle := handle, elem := elem
      ends := true }

/-! ### The end of a warp and of an instruction -/

/-- The ranks of a unit's warps that have not ended, as a mask (R331). -/
def expectedWarps (s : State) (u : Nat) : Mask :=
  s.warps.foldl (fun (m : Mask) w => if inUnit u w && !w.ended then m ||| BitVec.ofNat 32 (2 ^ w.rank) else m) 0

/-- A phase of a barrier completes where every expected warp has arrived (R331). -/
def examineBar (expected : Mask) (b : Bar) : Bar :=
  if b.arr != 0 && expected &&& ~~~b.arr == 0 then { gen := b.gen + 1, arr := 0 } else b

/-- Examine every barrier of a unit (R331). -/
def examineBars (s : State) (u : Nat) : State :=
  let e := expectedWarps s u
  modUnit s u fun x => { x with bars := tabulate 16 fun b => examineBar e x.bars[b] }

/-- A warp with no live lane ends (R112): its control state is released, its unit's barriers are examined again (R331), and
its unit waits to retire. -/
def endWarp (s : State) (w : Warp) : State :=
  if w.live = 0 && !w.ended then
    let s := modWarp s w.id fun x => { x with
      ended := true, splits := always 8 none, recs := always 16 none, rstack := [], bracket := none, handler := none }
    match w.kind with
    | .unit u => examineBars s u
    | _ => s
  else s

/-- The quadrant's issue count of a warp. -/
def issueCount (s : State) (w : Warp) : BitVec 32 := s.cores[w.core].issue[w.quad]

/-- Settle a warp after an instruction (R117, R118): park, release, find a rejoin deadlock, end the warp. -/
def settle (s : State) (w : Nat) : State :=
  match findWarp s w with
  | none => s
  | some x =>
    let x' := settleWarp (issueCount s x) 128 x
    let s := modWarp s w fun _ => x'
    match deadlocked x' with
    | some (k, y) => takeFault s x' k y.pc y.pc y.mask (faultOf 0xE)
    | none => endWarp s x'

end Sys2Proof.Machine
end

