-- ==== Sys2Proof/Machine/Operands.lean ====
section
/-! DEFINITION. Operands: what a specifier reads (R114, R260, R263), and the registers an instruction names (R110,
R123). -/

namespace Sys2Proof.Machine

/-- An instruction at issue: its warp and split as they stand, the split's number, the active lanes, and the address
of the instruction after it. -/
structure Iss where
  w : Warp
  sp : Fin 8
  split : Split
  act : Mask
  next : Word
  deriving DecidableEq, Repr

/-- A value in every sub-element of a width. -/
def fill (w x : Nat) : Word := BitVec.ofNat 64 (joinSubs w (List.replicate (64 / w) x))

/-- The integer constant of a specifier, c = k - 16 (R260, R263). -/
def constInt (k : Fin 64) : Int := (k.val : Int) - 16

/-- An integer constant in a position of a type (R260). -/
def constOf (t : Ty) (k : Fin 64) : Word :=
  let c := constInt k
  if tyInteger t then fill (tyWidth t) (lowBits (tyWidth t) c)
  else fill (tyWidth t) (roundMag (fmtOf t) .rne false (decide (c < 0)) c.natAbs 0 false).1

/-- An FP constant in a position of a type (R260). -/
def fpConst (t : Ty) (k : Fin 16) : Word :=
  let f := fmtOf t
  let num := fun (n : Bool) (e : Int) => (roundMag f .rne false n 1 e false).1
  let x :=
    match k.val with
    | 0 => 0
    | 1 => num false (-1)
    | 2 => num false 0
    | 3 => num false 1
    | 4 => num false 2
    | 5 => num true (-1)
    | 6 => num true 0
    | 7 => num true 1
    | 8 => num true 2
    | 9 => num false (-2)
    | 10 => num false 3
    | 11 => num true 3
    | 12 => infBits f false
    | 13 => infBits f true
    | 14 => maxBits f
    | _ => genNan f 0
  fill (tyWidth t) x

/-- IMM32 in a position of a type (R260). -/
def immOf (t : Ty) (imm : BitVec 32) : Word :=
  match t with
  | .i64 | .b64 => wordOfInt (signedOf 32 imm.toNat)
  | .n64 => BitVec.ofNat 64 imm.toNat
  | .f64 =>
    let x := imm.toNat
    BitVec.ofNat 64
      (match fVal fmtF32 x with
        | .nan => carryNan fmtF32 fmtF64 x
        | .inf n => infBits fmtF64 n
        | .num n m e => (roundMag fmtF64 .rne false n m e false).1)
  | _ => fill (tyWidth t) (imm.toNat % 2 ^ tyWidth t)

/-- The launch id of a warp's unit (R114). -/
def launchIdOf (s : State) (w : Warp) : Nat :=
  match unitOf s w with
  | some u => u.launch
  | none => 0

/-- The unit index of a warp (R114). -/
def unitIndexOf (s : State) (w : Warp) : Nat :=
  match unitOf s w with
  | some u => u.index
  | none => 0

/-- A special lane value (R114). -/
def laneVal (s : State) (w : Warp) (k : Fin 8) (l : Fin 32) : Word :=
  BitVec.ofNat 64
    (match k.val with
      | 0 => l.val
      | 1 => itemOf s w l.val
      | 2 => w.rank
      | 3 => unitIndexOf s w
      | 4 => launchIdOf s w
      | 5 => 2 ^ l.val - 1
      | 6 => 2 ^ (l.val + 1) - 1
      | _ => 2 ^ 32 - 2 ^ (l.val + 1))

/-- The context clock: it advances only while the context neither halts nor is halted (R68, R114). -/
def clockOf (s : State) (c : Fin 64) : Nat :=
  let x := s.ctxs[c]
  if x.st == .halting || x.st == .halted then x.clock else x.clock + Config.elapsed x.clockAt s.now

/-- A special warp value (R114). -/
def warpVal (s : State) (i : Iss) (k : Fin 17) : Word :=
  let w := i.w
  let la := match unitOf s w with
    | some u => launchOf s u
    | none => none
  BitVec.ofNat 64
    (match k.val with
      | 0 => w.rank
      | 1 => unitIndexOf s w
      | 2 => launchIdOf s w
      | 3 => itemOf s w 0
      | 4 => (match la with | some l => l.r.items | none => 32)
      | 5 => (match la with
        | some l => l.r.args.toNat
        | none => if isJob w then s.ctxs[w.ctx].jobArg.toNat else 0)
      | 6 => s.cores[w.core].ppw.toNat
      | 7 => clockOf s w.ctx
      | 8 => s.now - s.cores[w.core].cyc0
      | 9 => i.act.toNat
      | 10 => w.live.toNat
      | 11 => w.launched.toNat
      | 12 => (match la with | some l => l.r.wpu | none => 1)
      | 13 => w.core.val
      | 14 => (validSplits w).length
      | 15 => i.split.depth
      | _ => (s.ctxs[w.ctx].handles.filter fun e => e.creator == w.id && e.st != .free).length)

/-- What a vector specifier reads in a lane, in a position of a type (R260). -/
def srcVal (s : State) (i : Iss) (t : Ty) (imm : BitVec 32) (a : Src) (l : Fin 32) : Word :=
  match a with
  | .v r => vreg i.w r l
  | .s r => sreg i.w r
  | .int k => constOf t k
  | .fp k => fpConst t k
  | .lane k => laneVal s i.w k l
  | .imm => immOf t imm

/-- What a scalar specifier reads (R263). -/
def ssrcVal (s : State) (i : Iss) (w1 : Word) (a : SSrc) : Word :=
  match a with
  | .s r => sreg i.w r
  | .int k => wordOfInt (constInt k)
  | .warp k => warpVal s i k
  | .w1 => w1

/-! ### Registers an instruction names -/

/-- The registers an instruction names: v-registers it reads or writes, v-registers it names and does not read, the
s-registers it reads or writes, tiles, and whether it names an expand context (R110, R123). -/
structure Named where
  v : List Nat
  vx : List Nat
  s : List Nat
  acc : List Nat
  x : Bool
  deriving DecidableEq, Repr

/-- Nothing named. -/
def named0 : Named := { v := [], vx := [], s := [], acc := [], x := false }

/-- v-registers of vector specifiers. -/
def vOfSrc (l : List Src) : List Nat := l.filterMap fun a => match a with | .v r => some r.val | _ => none

/-- s-registers of vector specifiers. -/
def sOfSrc (l : List Src) : List Nat := l.filterMap fun a => match a with | .s r => some r.val | _ => none

/-- s-registers of scalar specifiers. -/
def sOfS (l : List SSrc) : List Nat := l.filterMap fun a => match a with | .s r => some r.val | _ => none

/-- The source positions of an F-V form, in order. -/
def srcsOf (f : VForm) : List Src := [f.o.a, f.o.b, f.o.c].take f.nsrc

/-- The source positions that an F-V form reads from its specifiers: a chained one is not read (R234). -/
def readSrcs (f : VForm) : List Src :=
  match f.o.chain.csrc with
  | .none => srcsOf f
  | .a => (srcsOf f).drop 1
  | .b => [f.o.a] ++ (srcsOf f).drop 2
  | .c => [f.o.a, f.o.b]

/-- The registers an F-V form of OP 0x00 to 0x05 names. -/
def namedV (i : Instr) (f : VForm) : Named :=
  let dest := if f.op = 3 then [] else [f.o.d.val]
  let group := match i with
    | .xsel o n => (List.range (n.val + 1)).map fun k => k + (match o.a with | .v r => r.val | _ => 0)
    | _ => []
  { named0 with
    v := vOfSrc (readSrcs f) ++ dest ++ group
    vx := match vChained f.o with | some (.v r) => [r.val] | _ => []
    s := sOfSrc (readSrcs f) }

/-- The registers a memory instruction names: `n` data registers, as sources or destinations. -/
def namedM (o : MOp) (data : List Nat) : Named :=
  { named0 with v := data ++ (if o.oe then [o.off.val] else []), s := [o.base.val] }

/-- Consecutive register numbers. -/
def regsFrom (r n : Nat) : List Nat := (List.range n).map (· + r)

/-- The operand registers that a `cntrd` selector reads: SA, SB, SC; it ignores the others (R366). -/
def cntUses : CntSel → Bool × Bool × Bool
  | .lcount | .lstatus | .graph | .phase | .ev => (true, false, false)
  | .job | .abort | .cph => (false, false, false)
  | .unit => (true, true, false)
  | .warp => (true, true, true)

/-- The registers of an instruction outside the F-V groups 0x00 to 0x05 and the scalar group. -/
def namedRest : Instr → Named
  | .ballot o | .pfirst o => { named0 with s := [o.d.val] }
  | .pcount o => { named0 with v := [o.d.val] }
  | .xbegin _ _ st ln n _ => { named0 with v := [st.val, ln.val] ++ vOfSrc [n], s := sOfSrc [n], x := true }
  | .xnext _ d _ => { named0 with v := [d.val, d.val + 1], x := true }
  | .xred _ _ _ _ _ vd v _ _ => { named0 with v := vd.val :: vOfSrc [v], s := sOfSrc [v], x := true }
  | .xsync _ | .xend _ => { named0 with x := true }
  | .xquery _ _ d _ => { named0 with v := [d.val], x := true }
  | .srd _ d _ | .srdFlags _ d => { named0 with s := [d.val] }
  | .srdFlagsClr _ d b _ => { named0 with s := d.val :: sOfS [b] }
  | .vtos _ d va b _ => { named0 with v := [va.val], s := d.val :: sOfS [b] }
  | .cdef _ _ b _ => { named0 with s := sOfS [b] }
  | .cquery _ d _ _ => { named0 with s := [d.val] }
  | .htest _ d _ | .hmovFromHandle _ d _ => { named0 with s := [d.val] }
  | .hmovToHandle _ _ a _ => { named0 with s := sOfS [a] }
  | .hwaitany _ d a _ => { named0 with s := d.val :: sOfS [a] }
  | .ld o | .ldAcq o | .ldSp o | .st o | .stRel o | .stSp o => namedM o (regsFrom o.data.val (o.n.val + 1))
  | .ldS o => { named0 with s := [o.base.val, o.data.val] }
  | .atom op o | .red op o | .atomSp op o => namedM o (regsFrom o.data.val (if op = .cas then 2 else 1))
  | .prefetch o => namedM o []
  | .waitv o => namedM o [o.data.val]
  | .jmpv _ a _ | .callv _ a => { named0 with v := vOfSrc [a], s := sOfSrc [a] }
  | .cpy o | .cpyRed o _ | .cpyFill o | .cpyCvt o _ _ _ _ => { named0 with s := [o.sa.val, o.sb.val, o.sc.val] }
  | .cpy2d o | .cpyGth o _ _ | .cpySct o _ _ => { named0 with s := [o.sa.val, o.sb.val, o.sc.val, o.sd.val] }
  | .mcfg o => { named0 with s := [o.sa.val] }
  | .mldw o _ _ _ _ _ => { named0 with s := [o.sa.val, o.sb.val, o.sc.val] }
  | .mldwNorm o _ => { named0 with s := [o.sa.val] }
  | .mma o _ _ _ => { named0 with s := [o.sa.val, o.sb.val], acc := [o.t.val] }
  | .mzero o => { named0 with acc := [o.t.val] }
  | .mst o _ _ _ _ => { named0 with s := [o.sa.val, o.sb.val, o.sc.val, o.sd.val], acc := [o.t.val] }
  | .mmovFromTile o _ _ vr | .mmovToTile o _ _ vr => { named0 with v := [vr.val], acc := [o.t.val] }
  | .mtopk o _ _ => { named0 with s := [o.sa.val, o.sb.val], acc := [o.t.val] }
  | .mdist o => { named0 with s := [o.sa.val], acc := [o.t.val] }
  | .mbound o _ => { named0 with s := [o.sd.val] }
  | .mcount o _ => { named0 with s := [o.sa.val, o.sb.val, o.sd.val] }
  | .launch _ _ sa | .cancelLaunch _ sa | .cancelGraph _ sa | .cancelPhase _ sa | .jobend sa => { named0 with s := [sa.val] }
  | .evwait o | .evset o | .evclr o => { named0 with s := [o.sa.val, o.sb.val, o.sc.val, o.sd.val] }
  | .cntrd sel o =>
    let u := cntUses sel
    { named0 with s := o.sd.val :: ((if u.1 then [o.sa.val] else []) ++ (if u.2.1 then [o.sb.val] else []) ++ (if u.2.2 then [o.sc.val] else [])) }
  | .trap _ a _ => { named0 with s := sOfS [a] }
  | .sysrd _ d _ => { named0 with s := [d.val] }
  | .syswr _ _ b _ => { named0 with s := sOfS [b] }
  | .tlbinv _ _ a b _ | .carve _ _ a b _ => { named0 with s := sOfS [a, b] }
  | .ptwr _ d a b _ => { named0 with s := d.val :: sOfS [a, b] }
  | .dirtyclr _ _ a b c _ => { named0 with s := sOfS [a, b, c] }
  | .fltnext => { named0 with s := 1 :: regsFrom 3 8 }
  | _ => named0

/-- The registers an instruction names (R110, R123). -/
def namedOf (i : Instr) : Named :=
  match vform i, sform i with
  | some f, _ => namedV i f
  | _, some f => { named0 with s := f.o.d.val :: sOfS ([f.o.a, f.o.b, f.o.c].take f.nsrc) }
  | none, none => namedRest i

/-- ACCT of a warp's unit: zero where there is none (R110). -/
def acctOf (s : State) (w : Warp) : Nat :=
  match unitOf s w with
  | some u => (match launchOf s u with | some l => l.r.acct | none => 0)
  | none => 0

/-- XC of a warp's launch (R110). -/
def xcOf (s : State) (w : Warp) : Bool :=
  match unitOf s w with
  | some u => (match launchOf s u with | some l => l.r.xc | none => false)
  | none => false

/-- Whether an instruction names a register that does not exist for a warp (R110). -/
def badRegister (s : State) (w : Warp) (n : Named) : Bool :=
  (n.v ++ n.vx).any (fun r => decide (w.vcount ≤ r)) || n.acc.any (fun t => decide (acctOf s w ≤ t)) || (n.x && !xcOf s w)

/-- Whether an instruction reads or names as a destination a register with a result on its way (R123). -/
def pendingRegister (w : Warp) (n : Named) : Bool :=
  n.v.any (fun r => w.vpend.getLsbD r) || n.s.any (fun r => w.spend.getLsbD r)

end Sys2Proof.Machine
end

