-- ==== Sys2Proof/Machine/Issue.lean ====
section
/-! DEFINITION. What every instruction does around its own effect: the checks of its words (R75, R110, R244, R247,
R258), its readiness (R93, R123), its active lanes (R111, R257), the issue count (R94, R97), and then the next
instruction, a wait, or the taking of an exception. -/

namespace Sys2Proof.Machine

/-- What the effect of an instruction comes to. `next`: the split goes on at the next instruction. `moved`: the effect
has placed the warp's splits itself. `fault`: nothing is done and the exception is taken. `wait`: the split is not
ready; the given change is all that happens (a walk asked for, a request noted). `rest`: the same, at a safe point
(R96). -/
inductive Effect where
  | next (s : State)
  | moved (s : State)
  | fault (f : FaultInfo)
  | wait (s : State)
  | rest (s : State)

/-- The length of an instruction in bytes (R256). -/
def instrLen (i : Instr) : Nat :=
  match encode i with
  | some (_, some _) => 16
  | _ => 8

/-- Whether an instruction belongs to OP 0x28 (R361). -/
def isWork : Instr → Bool
  | .launch _ _ _ | .evwait _ | .evset _ | .evclr _ | .cancelLaunch _ _ | .cancelGraph _ _ | .cancelPhase _ _
  | .cancelJob _ | .cntrd _ _ | .phase | .jobend _ => true
  | _ => false

/-- Whether an instruction belongs to OP 0x30 (R368). -/
def isSystem : Instr → Bool
  | .trap _ _ _ | .rett | .sysrd _ _ _ | .syswr _ _ _ _ | .tlbinv _ _ _ _ _ | .ptwr _ _ _ _ _ | .carve _ _ _ _ _
  | .dirtyclr _ _ _ _ _ _ | .fltnext | .halt => true
  | _ => false

/-- Whether a system register is one of the trap-state registers of a warp, 0x00 to 0x09 (R247). -/
def trapStateReg : SysReg → Bool
  | .trec _ | .tepc | .tmask => true
  | _ => false

/-- The system-group instructions that a warp of a unit may execute (R244). -/
def allowedInUnit (i : Instr) (w : Warp) : Bool :=
  match i with
  | .trap _ _ _ => true
  | .rett => w.handler.isSome
  | .sysrd _ _ n => w.handler.isSome && trapStateReg n
  | .syswr _ n _ _ => w.handler.isSome && n == .tepc
  | _ => false

/-- Whether cause 0x0017 applies (R75, R244). -/
def privileged (i : Instr) (w : Warp) : Bool :=
  !onDispatch w && (isWork i || (isSystem i && !allowedInUnit i w))

/-- Whether an instruction is illegal where it stands: in this warp, or in this context (R164, R247, R362, R368). -/
def illegalHere (i : Instr) (s : State) (w : Warp) : Bool :=
  match i with
  | .fence _ _ .package => s.ctxs[w.ctx].mode
  | .rett => onDispatch w && w.handler.isNone
  | .sysrd _ _ n | .syswr _ n _ _ => onDispatch w && w.handler.isNone && trapStateReg n
  | .fltnext => onDispatch w && !isService w
  | .halt => onDispatch w && !isJob w
  | .phase | .jobend _ => onDispatch w && !isJob w
  | _ => false

/-- The guard of an instruction; an unguarded form has the guard of R257. -/
def guardIn : Instr → Guard
  | .bra g _ | .brd g _ _ | .jmpv g _ _ | .call g _ | .callv g _ | .ret g | .exit g | .nop g | .bar g _ | .barArv g _
  | .barWt g _ | .srd g _ _ | .srdFlags g _ | .srdFlagsClr g _ _ _ | .vtos g _ _ _ _ | .cdef g _ _ _ | .cdrop g _
  | .cquery g _ _ _ | .hwait g _ | .htest g _ _ | .hcancel g _ | .hmovToHandle g _ _ _ | .hmovFromHandle g _ _
  | .hwaitany g _ _ _ | .fence g _ _ | .l1flush g | .l1flushInv g | .launch g _ _ | .cancelLaunch g _
  | .cancelGraph g _ | .cancelPhase g _ | .trap g _ _ | .sysrd g _ _ | .syswr g _ _ _
  | .tlbinv g _ _ _ _ | .ptwr g _ _ _ _ | .carve g _ _ _ _ | .dirtyclr g _ _ _ _ _ | .xbegin _ g _ _ _ _
  | .xred _ g _ _ _ _ _ _ _ | .xquery _ g _ _ => g
  | .pand o | .por o | .pxor o | .pnot o | .pmov o | .ballot o | .voteAny o | .voteAll o | .voteSame o | .pcount o
  | .pfirst o => o.g
  | .ld o | .ldAcq o | .ldSp o | .ldS o | .st o | .stRel o | .stSp o | .atom _ o | .red _ o | .atomSp _ o | .prefetch o
  | .waitv o => o.g
  | .cpy o | .cpy2d o | .cpyGth o _ _ | .cpySct o _ _ | .cpyRed o _ | .cpyFill o | .cpyCvt o _ _ _ _ => o.g
  | .mcfg o | .mldw o _ _ _ _ _ | .mldwNorm o _ | .mma o _ _ _ | .mzero o | .mst o _ _ _ _ | .mmovFromTile o _ _ _
  | .mmovToTile o _ _ _ | .mtopk o _ _ | .mdist o | .mbound o _ | .mcount o _ => o.g
  | .evwait o | .evset o | .evclr o | .cntrd _ o => o.g
  | .cancelJob o => o.g
  | i =>
    match vform i, sform i with
    | some f, _ => f.o.g
    | _, some f => f.o.g
    | none, none => guardNone

/-- The issuing warp and split that a state names. -/
def issuerOf (s : State) : Option (Warp × Fin 8 × Split) :=
  match s.turn with
  | some (.issue w sp) =>
    match findWarp s w with
    | some x =>
      match x.splits[sp] with
      | some y => some (x, sp, y)
      | none => none
    | none => none
  | _ => none

/-- An instruction at issue (R111): where it stands and its active lanes. -/
def issOf (i : Instr) (w : Warp) (sp : Fin 8) (x : Split) : Iss :=
  { w := w, sp := sp, split := x, act := x.mask &&& guardMask w (guardIn i)
    next := x.pc + BitVec.ofNat 64 (instrLen i) }

/-- The count of an issue (R94, R97, R115): the quadrant's issue count and the split's AGE, its count while its warp
halts, and DR cleared. -/
def book (s : State) (w : Warp) (sp : Fin 8) : State :=
  let n := s.cores[w.core].issue[w.quad] + 1
  let s := modCore s w.core fun c => { c with
    issue := c.issue.set w.quad.val n w.quad.isLt
    lastIssue := c.lastIssue.set w.quad.val (some s.now) w.quad.isLt }
  modWarp s w.id fun y => modSplit y sp fun x => { x with
    age := n, dr := false, idle := 0, overdue := false, fails := [], count := if w.halting then x.count + 1 else x.count }

/-- The split goes on at an address, runnable (R115). -/
def goOn (s : State) (w : Nat) (sp : Fin 8) (pc : Word) : State :=
  modWarp s w fun y => modSplit y sp fun x => { x with pc := pc, st := .runnable, timer := 0, wtimer := 0, stop := .no, ewait := none }

/-- The split waits at its instruction: STATE 2 (R115). `stop` says whether it stands at a safe point (R96). -/
def block (s : State) (w : Nat) (sp : Fin 8) (stop : Stop) : State :=
  modWarp s w fun y => modSplit y sp fun x => { x with st := .blocked, stop := stop }

/-- The fault that the words of an instruction have in a warp, in the order of R258 after the fetch: cause 0x0001, then
0x0017, then 0x0002; before them the drought of R97. -/
def wordFault (i : Instr) (s : State) (w : Warp) (x : Split) : Option Nat :=
  if w.halting && decide (Config.droughtLimit ≤ x.count) then some 0x13
  else if !wellFormed i || illegalHere i s w then some 1
  else if privileged i w then some 0x17
  else if badRegister s w (namedOf i) then some 2
  else none

/-- Take back the count of an issue: a split that waits has issued nothing. -/
def unbook (s t : State) (w : Warp) (sp : Fin 8) (x : Split) : State :=
  let t := modCore t w.core fun c => { c with
    issue := s.cores[w.core].issue
    lastIssue := s.cores[w.core].lastIssue }
  modWarp t w.id fun y => modSplit y sp fun z =>
    { z with age := x.age, dr := x.dr, idle := x.idle, overdue := x.overdue, fails := x.fails, count := x.count }

/-- The end of an issue: the next instruction, a wait, or an exception; then the warp is settled. An instruction that is to be replayed has
done nothing: its split keeps its DR (R115), which a `trap` that goes on at the next instruction does not (R369). -/
def conclude (s : State) (c : Iss) (e : Effect) : State :=
  match e with
  | .next t => settle (goOn t c.w.id c.sp c.next) c.w.id
  | .moved t => settle t c.w.id
  | .fault f =>
    let f := if f.lanes = 0 then { f with lanes := c.act } else f
    let s := { s with results := s.results.filter fun r => !(r.warp == c.w.id && r.sp == c.sp && r.kind == .link) }
    let t := takeFault (book s c.w c.sp) c.w c.sp c.split.pc c.next c.act f
    let t := modWarp t c.w.id fun w => { (modSplit w c.sp fun x => if x.susp && f.cause != 0x16 then { x with dr := c.split.dr } else x) with
      late := if f.late then w.late.drop 1 else w.late }
    settle t c.w.id
  | .wait t => block (unbook s t c.w c.sp c.split) c.w.id c.sp .no
  | .rest t => block (unbook s t c.w c.sp c.split) c.w.id c.sp .blocking

/-- ISSUE an instruction with an effect of its own. The effect is given the state in which the issue is already
counted, and the instruction at issue. -/
def issue (i : Instr) (effect : State → Iss → Effect) (s : State) : Host.Outcome State Fault Refusal :=
  match issuerOf s with
  | none => .fault .noIssuer
  | some (w, sp, x) =>
    let s := { s with turn := none }
    let c := issOf i w sp x
    match wordFault i s w x with
    | some cause => .next (conclude s c (.fault (faultOf cause)))
    | none =>
      if pendingRegister w (namedOf i) then .next (conclude s c (.wait s))
      else .next (conclude s c (effect (book s w sp) c))

/-- ISSUE an instruction that acts for its warp where at least one lane is active, and does nothing otherwise
(R113). -/
def issueWarp (i : Instr) (effect : State → Iss → Effect) (s : State) : Host.Outcome State Fault Refusal :=
  issue i (fun s c => if c.act = 0 then .next s else effect s c) s

end Sys2Proof.Machine
end

