-- ==== Sys2Proof/Machine/Reach.lean ====
section
/-! DEFINITION. Where an address lies and what keeps an access from reaching it: the regions, windows and routes (R12-R14,
R28-R31), the checks of R133 up to the replica rule, the bridge and the host link (R10, R21, R26, R27, R42), and data in error
(R52). -/

namespace Sys2Proof.Machine

/-! ### Routes -/

/-- The number of a package: ROW and COL of an identity register (R29). -/
def identOf (w : Word) : Nat := bitsOf w 0 12

/-- Whether domain accesses of a die are enabled (R29): EN, and in unified mode equal copies. -/
def domainOn (s : State) (x : Ctx) (d : Fin 2) : Bool :=
  s.dies[d].ident.getLsbD 12 && (x.mode || s.dies[0].ident == s.dies[1].ident)

/-- The window entry that serves an address (R30). -/
def windowOf (s : State) (d : Fin 2) (pa : Nat) : Word := look (n := 64) s.dies[d].windows ((pa >>> 41) % 4096)

/-- Whether a window entry is valid (R8, R30). -/
def windowValid (e : Word) : Bool := e.getLsbD 31 && bitsOf e 32 32 == 0 && bitsOf e 12 18 == 0

/-- The ports of a die's group that are in service (R28). -/
def portsOf (s : State) (d : Fin 2) : List (Fin 8) := (List.finRange 8).filter fun p => s.dies[d].ports[p] != 0

/-- Where a domain access or its response goes (R31): to a place in the package, out of a port of a die, or nowhere. -/
inductive Route where
  | here (pa : Nat)
  | port (d : Fin 2) (p : Fin 8)
  | none
  deriving DecidableEq, Repr

/-- The die whose port group carries traffic from a package to another (R31): the column pod where they share a column, and
otherwise the row pod. -/
def groupDie (me peer : Nat) : Fin 2 := if peer / 64 ≠ me / 64 ∧ peer % 64 = me % 64 then 1 else 0

/-- The port that carries traffic from a package to another (R31): none where the group is wholly retired, or its die
offline. -/
def portTo (s : State) (me peer : Nat) : Route :=
  let g := groupDie me peer
  let ps := portsOf s g
  if ps.isEmpty || s.dies[g].dstate == .dieOffline then .none
  else .port g (ps.getD ((me ^^^ peer) % ps.length) 0)

/-- The package that a domain access of a die goes to. -/
def peerOf (s : State) (d : Fin 2) (pa : Nat) : Nat := identOf (windowOf s d pa)

/-- The route of a domain access of a die (R31, R35). Within the package it goes to the offset, where memory is populated and its
die is not offline. An offset that is not populated, or a die that is offline, could be cause 0x0003 as for the package's own accesses (R12,
R21) or 0x0019 as for a responder that cannot be reached (R35): the spec does not say which, and the model takes 0x0019 (log 74). -/
def routeTo (s : State) (d : Fin 2) (pa : Nat) : Route :=
  let me := identOf s.dies[d].ident
  if me = peerOf s d pa then
    let a := pa % 2 ^ 41
    if regionOf a = .package && s.dies[dieOf a].dstate != .dieOffline then .here a else .none
  else portTo s me (peerOf s d pa)

/-! ### Spots -/

/-- Where an address lies. `part` tells which part of a lane's access it is. -/
structure Spot where
  part : Nat
  va : Word
  pa : Nat
  e : TlbEntry
  kind : Region
  scope : Scope
  deriving DecidableEq, Repr

/-- What an address comes to: a place, a page to walk, a crossing to wait for, or a fault. -/
inductive Look where
  | ok (p : Spot)
  | miss (page : Nat)
  | stall
  | bad (f : FaultInfo)
  deriving DecidableEq, Repr

/-- Go on with a located address. -/
def Look.then_ (x : Look) (k : Spot → Look) : Look :=
  match x with
  | .ok p => k p
  | y => y

/-- The scope of an access (R33, R38, R159). -/
def spotScope (k : Region) (p : Word) : Scope :=
  match k with
  | .domain => if leafScope p = .system then .system else .domain
  | .system => .system
  | _ => leafScope p

/-- Steps 1 to 3 of R133, after the translation, for a die: the regions of R12-R14, the window of R29 and R30, the
permission of R133 and the replica rule of R153. -/
def spotChecks (s : State) (c : Fin 64) (d : Fin 2) (va : Word) (pa : Nat) (e : TlbEntry) (wr : Bool) : Look :=
  let x := s.ctxs[c]
  let bad := fun (cause : Nat) => Look.bad { faultOf cause with va := va, pte := e.pte }
  let k := regionOf pa
  let here := Look.ok { part := 0, va := va, pa := pa, e := e, kind := k, scope := spotScope k e.pte }
  match k with
  | .hole => bad 3
  | .package =>
    if x.mode && dieOf pa != x.die then bad 3
    else if wr && !pteW e.pte then bad 4
    else if wr && pteRepl e.pte == 1 then bad 5
    else here
  | .domain =>
    if !domainOn s x d then .bad { faultOf 0x19 with va := va }
    else if !windowValid (windowOf s d pa) then bad 3
    else if wr && (!pteW e.pte || !(windowOf s d pa).getLsbD 30) then bad 4
    else here
  | .system => if wr && !pteW e.pte then bad 4 else here

/-- Go on from a translation to the checks of a die. -/
def Trans.spot (t : Trans) (s : State) (c : Fin 64) (d : Fin 2) (va : Word) (wr : Bool) : Look :=
  match t with
  | .miss => .miss (va.toNat / 2 ^ 16)
  | .bad cause p => .bad { faultOf cause with va := va, pte := if 3 ≤ cause ∧ cause ≤ 7 then p else 0 }
  | .ok pa e => spotChecks s c d va pa e wr

/-- Locate an address for a core (R129, R133): translation, then the checks up to the replica rule. -/
def locate (s : State) (core : Fin 384) (c : Fin 64) (va : Word) (wr : Bool) : Look :=
  (translate s core c va).spot s c (coreDie core) va wr

/-- A fault at an address, with the entry of its page where the record holds one (R248). -/
def faultAt (cause : Nat) (p : Spot) : Look :=
  .bad { faultOf cause with va := p.va, pte := if 3 ≤ cause ∧ cause ≤ 7 then p.e.pte else 0 }

/-- The fault of a write that cannot be marked (R65). -/
def markFaultAt (cause : Nat) (p : Spot) : FaultInfo := { faultOf cause with va := p.va, pte := if cause = 3 then p.e.pte else 0 }

/-- The mark of a write in the page's entry and the dirty bitmap, before the write (R65, R134): it waits while the entry lies behind a bridge that
stalls, and is a fault where it cannot be made. -/
def markLook (s : State) (d : Fin 2) (c : Fin 64) (p : Spot) : Look :=
  match markFault s d c p.e p.pa with
  | some k => .bad (markFaultAt k p)
  | none => if walkStalled s c then .stall else .ok p

/-- Alignment, step 5 of R133. -/
def alignedTo (n : Nat) (p : Spot) : Look := if p.va.toNat % n = 0 then .ok p else faultAt 8 p

/-- What an access of a context brings to the caches. -/
def accOf (s : State) (c : Fin 64) (h : Fin 4) (p : Spot) : Acc :=
  { hint := h, may := !s.ctxs[c].mode && pteRepl p.e.pte == 0, scope := p.scope, wide := pteFmt p.e.pte != 0 && pteClass p.e.pte == 1
    repl := pteRepl p.e.pte == 1, owner := some c }

/-- What an access of an engine brings: only the dies' cores count towards migration (R150). -/
def engAcc (s : State) (c : Fin 64) (h : Fin 4) (p : Spot) : Acc := { accOf s c h p with may := false }

/-- Where in this package a spot is performed for an agent of a die, or `none` where it goes out on a link. -/
def localPaOf (s : State) (d : Fin 2) (p : Spot) : Option Nat :=
  match p.kind with
  | .package => some p.pa
  | .domain => (match routeTo s d p.pa with | .here a => some a | _ => none)
  | _ => none

/-- The same for a core. -/
def localPa (s : State) (core : Fin 384) (p : Spot) : Option Nat := localPaOf s (coreDie core) p

/-! ### What an access meets on its way -/

/-- How an agent makes an access: the core whose L1 it may use, if any, whether it goes to the home slice all the same, whether it
writes there, and whether it is posted. -/
structure Way where
  core : Option (Fin 384)
  home : Bool
  wr : Bool
  posted : Bool
  deriving DecidableEq, Repr

/-- A crossing of the bridge that an access at a spot needs (R26, R27). -/
def crossLook (s : State) (a b : Fin 2) (p : Spot) : Look :=
  match crossing s a b with
  | .free => .ok p
  | .stalled => .stall
  | .down => .bad { faultOf 0x14 with va := p.va }

/-- Whether a sector needs no request to another slice: the core's L1 holds it, or the die's L2 holds a copy that a read may use. -/
def servedHere (s : State) (d : Fin 2) (y : Way) (sec : Nat) : Bool :=
  (match y.core with | some k => !y.home && l1Holds s k sec | none => false) ||
  (!y.wr && d != holderOf s (sec / 4) && (l2State s d sec).isSome)

/-- What an access to sectors of package memory meets (R21, R26, R27). -/
def sectorLook (s : State) (d : Fin 2) (y : Way) (secs : List Nat) (p : Spot) : Look :=
  secs.foldl (fun (l : Look) sec => l.then_ fun p =>
    if servedHere s d y sec then .ok p
    else if s.dies[dieOf (sec * 64)].dstate = .dieOffline then faultAt 3 p
    else crossLook s d (holderOf s (sec / 4)) p) (.ok p)

/-- What keeps an access from being performed once R133 has passed: no route or no host link (R35, R42), memory behind a
bridge that is down or stalls, or of a die that is offline (R21, R26, R27). A posted write is held while the host link is
down. `secs` are the sectors of package memory that it needs. -/
def reachLook (s : State) (d : Fin 2) (y : Way) (secs : List Nat) (p : Spot) : Look :=
  match p.kind with
  | .package => sectorLook s d y secs p
  | .domain =>
    match routeTo s d p.pa with
    | .none => faultAt 0x19 p
    | .here a => crossLook s d (dieOf a) p
    | .port g _ => crossLook s d g p
  | .system => if s.host.up || y.posted then crossLook s d 0 p else faultAt 0x19 p
  | .hole => .ok p

/-- The sectors of `n` bytes from an address on. -/
def sectorsOf (a n : Nat) : List Nat := (List.range ((a + n - 1) / 64 - a / 64 + 1)).map (· + a / 64)

/-- Whether a sector that a core or an engine reads holds data in error (R52). A sector that a term block does not use is not read (R149). -/
def badAt (s : State) (y : Way) (wide : Bool) (sec : Nat) : Bool :=
  !unusedSector s.mem wide sec &&
  match y.core with
  | some k => badSector s k y.home sec
  | none => s.bad.contains sec

/-- The die that detects an error in the data of an access, where it is performed in this package (R50, R52). -/
def eccDie (s : State) (d : Fin 2) (p : Spot) : Fin 2 := match localPaOf s d p with | some a => dieOf a | none => d

/-- A read consumes `n` bytes from an address on: data in error is cause 0x0014 (R52). -/
def eccLook (s : State) (d : Fin 2) (y : Way) (bytes : List (Nat × Nat)) (p : Spot) : Look :=
  let wide := pteFmt p.e.pte != 0 && pteClass p.e.pte == 1
  if bytes.any fun b => (sectorsOf b.1 b.2).any (badAt s y wide) then .bad { faultOf 0x14 with va := p.va, ecc := some (eccDie s d p) } else .ok p

/-- The reach of a read of the `n` bytes of a spot, and the data found there. -/
def readLook (s : State) (d : Fin 2) (y : Way) (n : Nat) (p : Spot) : Look :=
  (reachLook s d y [p.pa / 64] p).then_ fun p =>
    match localPaOf s d p with
    | some a => eccLook s d (if p.kind = .package then y else { y with core := none }) [(a, n)] p
    | none => .ok p

/-- The reach of a write of the bytes of a spot. -/
def writeLook (s : State) (d : Fin 2) (y : Way) (p : Spot) : Look := reachLook s d y [p.pa / 64] p

/-! ### What a read returns -/

/-- A sector as an agent of a die would read it through its L2 now (R149). -/
def l2Peek (s : State) (d : Fin 2) (wide : Bool) (sec : Nat) : BitVec 512 :=
  if d = holderOf s (sec / 4) then sectorValue s.mem wide sec else (l2Copy s d sec).getD (sectorValue s.mem wide sec)

/-- A sector of package memory as a core would read it now: through L1, or at the home slice under its own dirty bytes (R162). -/
def peekSector (s : State) (core : Fin 384) (home wide : Bool) (sec : Nat) : BitVec 512 :=
  if home then ownBytes s core sec (l2Peek s (coreDie core) wide sec)
  else
    match l1Find s core (sec / 4) with
    | some l => if l.valid.getLsbD (sec % 4) then BitVec.ofNat 512 (l1Bytes l (sec % 4 * 64) 64) else l2Peek s (coreDie core) wide sec
    | none => l2Peek s (coreDie core) wide sec

/-- `n` bytes from an address on, of sectors that a function gives. -/
def sectorBytes (f : Nat → BitVec 512) : Nat → Nat → Nat → Nat
  | 0, _, _ => 0
  | fuel + 1, a, n =>
    if n = 0 then 0
    else
      let k := inSector a n
      ((f (a / 64)).toNat >>> (8 * (a % 64))) % 2 ^ (8 * k) + 2 ^ (8 * k) * sectorBytes f fuel (a + k) (n - k)

/-- The caches after a core has read a sector (R146-R150). A sector in a window of this package is read at its home slice,
past the requester's own caches (R33). -/
def touchSector (s : State) (core : Fin 384) (q : Acc) (home : Bool) (sec : Nat) : State :=
  if home then (l2Read s (coreDie core) sec q).2 else (l1Sector s core q sec).2

/-- A read of sectors of this package that comes through a domain window, for an agent of a die (R33, R150): a migrated line is
recalled, and the home slice answers. -/
def windowTouch (s : State) (d : Fin 2) (a n : Nat) : State :=
  (sectorsOf a n).foldl (fun s sec => (l2Read (crossed s d (dieOf a) (lineSlice (sec / 4)).val) (dieOf a) sec Acc.plain).2)
    (recallAt s a n)

/-- What `n` bytes of a spot read for a core, where they lie in this package. -/
def peekBytes (s : State) (core : Fin 384) (home : Bool) (q : Acc) (p : Spot) (a n : Nat) : Nat :=
  if p.kind = .package then sectorBytes (peekSector s core home q.wide) (n + 1) a n
  else sectorBytes (sectorData s.mem) (n + 1) a n

/-- The caches after a core has read `n` bytes of a spot. -/
def touchBytes (s : State) (core : Fin 384) (home : Bool) (q : Acc) (p : Spot) (a n : Nat) : State :=
  if p.kind = .package then (sectorsOf a n).foldl (fun s sec => touchSector s core q home sec) s
  else windowTouch s (coreDie core) a n

/-- Write `n` bytes of a spot at its home slice for an agent of a die. In a window of this package the writer is the home die's
own agent (R33). -/
def writeHome (s : State) (d : Fin 2) (q : Acc) (p : Spot) (atomic : Bool) (a n x : Nat) : State :=
  if p.kind = .package then homeWrite (if atomic then recallAt s a n else s) d q atomic a n x
  else homeWrite (crossed (recallAt s a n) d (dieOf a) (lineSlice (a / 256)).val) (dieOf a) { Acc.plain with owner := q.owner } atomic a n x

end Sys2Proof.Machine
end

