-- ==== Sys2Proof/Machine/Order.lean ====
section
/-! DEFINITION. Releases and acquires (R34, R35, R39, R161, R165), as fences and as the instructions that act as
one. -/

namespace Sys2Proof.Machine

/-- How an ordering step stands: done, waiting, or failed. -/
inductive Order where
  | ok (s : State)
  | wait (s : State)
  | bad (f : FaultInfo)

/-- Whether an access is made by a warp of a context, and not by an engine. -/
def warpAccess (c : Fin 64) (l : LinkOp) : Bool := l.ctx == c && l.copy.isNone

/-- Whether an access is one that a release of a context's warp waits for at every scope: a domain write, or an atomic on either link,
which is performed with its completion (R34, R161, R326). The cumulative set of R169 is taken as every such access of the context
(log 31). -/
def farWriteOf (c : Fin 64) (l : LinkOp) : Bool := warpAccess c l && (l.kind == .atomic || (!l.sys && l.kind == .write))

/-- Whether a message is a write to the system window of a context (R39). -/
def HeldMsg.writes (c : Fin 64) (x : HeldMsg) : Bool := x.owner == some c && (match x.msg with | .write _ _ _ _ => true | _ => false)

/-- Whether an access is a system write of a context that no flushing read of a warp covers (R39). -/
def systemWriteOf (c : Fin 64) (w : Nat) (l : LinkOp) : Bool :=
  warpAccess c l && l.sys && l.kind == .write && !l.flushed.contains w

/-- Whether an access is a read or an atomic that a warp still waits for, on either link. -/
def linkReadOf (w : Nat) (l : LinkOp) : Bool := l.warp == w && l.copy.isNone && (l.kind == .read || l.kind == .atomic)

/-- Whether an access is a flushing read of a warp (R39). -/
def flushOf (w : Nat) (l : LinkOp) : Bool := l.warp == w && l.copy.isNone && l.kind == .flush

/-- The fault of a failed write that a release or an `exit` reports (R35). -/
def lateFault (x : LateFault) : FaultInfo := { faultOf x.cause with va := x.va, lanes := x.lanes, late := true }

/-- The most recent of some accesses. -/
def lastLink (ls : List LinkOp) : Option LinkOp :=
  ls.foldl (fun (b : Option LinkOp) x =>
    match b with
    | none => some x
    | some y => if y.tag < x.tag then some x else some y) none

/-- The flushing read of R39: four bytes at the address of a write. -/
def flushRead (s : State) (l : LinkOp) (tag w : Nat) (d : Fin 2) (copy : Option Nat) : LinkOp :=
  { l with tag := tag, kind := .flush, warp := w, reg := 0, result := none, copy := copy, bytes := 4, since := s.now, die := d
           wants := [], flushed := [] }

/-- The address on the host link of a system-window access: one physical address is one PCI Express address (R38, log 34). -/
def hostAddr (pa : Nat) : Nat := pa % 2 ^ 42

/-- Send the flushing read of a release in a context (R39), which covers every write not yet covered; `who` is its warp, or the age of
the launch that ends. -/
def sendFlush (s : State) (c : Fin 64) (who : Nat) (d : Fin 2) (l : LinkOp) : State :=
  let (tag, s) := fresh s
  let mark := fun (x : LinkOp) => if systemWriteOf c who x then { x with flushed := who :: x.flushed } else x
  toHostFor { s with links := s.links.map mark ++ [flushRead s l tag who d none] }
    { die := d, owner := some c, msg := .read (functionOf s c) tag (hostAddr l.pa) 4 }

/-- The waits of a release on the host link (R39), once R34 is met: until every write has been sent, and on the flushing read of the
writes. -/
def flushAt (s : State) (c : Fin 64) (who : Nat) (d : Fin 2) : Order :=
  if s.host.held.any (·.writes c) || s.links.any (flushOf who) then .wait s
  else
    match lastLink (s.links.filter (systemWriteOf c who)) with
    | some l =>
      match crossing s d 0 with
      | .free => .wait (sendFlush s c who d l)
      | .stalled => .wait s
      | .down => .bad { faultOf 0x14 with va := l.va }
    | none => .ok s

/-- The same for a release of system scope by a warp; it fails while the host link is down (R42). -/
def releaseSystem (s : State) (w : Warp) : Order :=
  if !s.host.up then .bad (faultOf 0x19) else flushAt s w.ctx w.id (coreDie w.core)

/-- The waits of a release for link accesses (R34, R35, R39, R161). -/
def releaseLinks (s : State) (w : Warp) (sc : Scope) : Order :=
  if s.links.any (farWriteOf w.ctx) then .wait s
  else if scopeCode sc < scopeCode .domain then .ok s
  else
    match w.late with
    | x :: _ => .bad (lateFault x)
    | [] => if sc = .system then releaseSystem s w else .ok s

/-- Whether a line of L1 holds bytes that a warp's release writes back: a line of a page of scope die or wider. -/
def ownLine (c : Fin 64) (l : L1Line) : Bool := wideLine l && l.owner == some c

/-- The fault of dirty bytes that can reach their home slice no more: their die is closed (R21), or the bridge down (R27). -/
def lostFault (s : State) (l : L1Line) : FaultInfo :=
  faultOf (if s.dies[dieOf (l.line * 256)].dstate = .dieOffline then 3 else 0x14)

/-- The writing back of a release (R165): the dirty sectors of pages of scope die or wider go to their home slices. -/
def releaseCaches (s : State) (w : Warp) : Order :=
  let s := l1Clean s w.core wideLine
  match l1Lost s w.core (ownLine w.ctx) with
  | some l => .bad (lostFault s l)
  | none => if l1Stalled s w.core wideLine then .wait s else .ok s

/-- Go on with a further ordering step. -/
def Order.bind (o : Order) (k : State → Order) : Order :=
  match o with
  | .ok s => k s
  | .wait s => .wait s
  | .bad f => .bad f

/-- A RELEASE of a warp at a scope (R165): dirty sectors of pages of scope die or wider are written back; at package
scope and wider the copies of the other die are gone and migrated lines recalled; the link accesses have completed. -/
def releaseAt (s : State) (w : Warp) (sc : Scope) : Order :=
  (if sc = .core then .ok s else releaseCaches s w).bind fun s =>
    if scopeCode .package ≤ scopeCode sc && !acrossDone s w.ctx then
      (if s.bridge.down then .bad (faultOf 0x14) else .wait s)
    else releaseLinks s w sc

/-- An ACQUIRE of a warp at a scope (R165): its outstanding link reads have returned, and the clean sectors of pages of
scope die or wider are invalidated. -/
def acquireAt (s : State) (w : Warp) (sc : Scope) : Order :=
  if s.links.any (linkReadOf w.id) then .wait s
  else if sc = .system && !s.host.up then .bad (faultOf 0x19)
  else .ok (if sc = .core then s else l1DropClean s w.core wideLine)

/-- Continue after an ordering step; a wait here is not a safe point. -/
def Order.andThen (o : Order) (k : State → Effect) : Effect :=
  match o with
  | .ok s => k s
  | .wait s => .wait s
  | .bad f => .fault f

/-- `fence.ord.scope` (R164, R165). -/
def execFence (g : Guard) (ord : FenceOrd) (sc : Scope) (s : State) : Host.Outcome State Fault Refusal :=
  issueWarp (.fence g ord sc) (fun s c =>
    match ord with
    | .rel => (releaseAt s c.w sc).andThen .next
    | .acq => (acquireAt s c.w sc).andThen .next
    | .ar => (releaseAt s c.w sc).andThen fun s => (acquireAt s c.w sc).andThen .next) s

/-- Write back every dirty line of a core's L1 (R329), once the warp's stores past L1 have been performed: a line that cannot go yet keeps
the split waiting (R26), and one of the context that can reach its home slice no more is a fault (R21, R27). -/
def flushAll (s : State) (w : Warp) : Order :=
  if s.links.any fun l => l.warp == w.id && farWriteOf w.ctx l then .wait s
  else
    let s := l1Clean s w.core fun _ => true
    match l1Lost s w.core fun l => l.owner == some w.ctx with
    | some l => .bad (lostFault s l)
    | none => if l1Stalled s w.core fun _ => true then .wait s else .ok s

/-- `l1flush` (R329): every dirty line is written back, and every line stays. -/
def execL1flush (g : Guard) (s : State) : Host.Outcome State Fault Refusal :=
  issueWarp (.l1flush g) (fun s c => (flushAll s c.w).andThen .next) s

/-- `l1flush.inv` (R329): every line is then invalidated. -/
def execL1flushInv (g : Guard) (s : State) : Host.Outcome State Fault Refusal :=
  issueWarp (.l1flushInv g) (fun s c => (flushAll s c.w).andThen fun s => .next (l1Drop s c.w.core fun _ => true)) s

end Sys2Proof.Machine
end

