-- ==== Sys2Proof/Machine/Barrier.lean ====
section
/-! DEFINITION. Unit barriers, OP 0x19 (R330-R333). A job or fault-service warp is a unit of one warp: its arrival
completes the phase at once, and its LAST alone tells its generation. -/

namespace Sys2Proof.Machine

/-- The barrier of a warp's unit. -/
def barOf (s : State) (w : Warp) (b : Fin 16) : Option (Nat × Bar) :=
  match unitOf s w with
  | some u => some (u.id, u.bars[b])
  | none => none

/-- A warp arrives at a barrier (R332); an arrival in a phase it has arrived in is none. -/
def arrive (s : State) (w : Warp) (b : Fin 16) : State :=
  match barOf s w b with
  | some (u, x) =>
    if x.arr.getLsbD w.rank then s
    else
      let s := modWarp s w.id fun y => { y with last := y.last.set b.val (some x.gen) b.isLt }
      let s := modUnit s u fun y =>
        { y with bars := y.bars.set b.val { x with arr := x.arr ||| BitVec.ofNat 32 (2 ^ w.rank) } b.isLt }
      examineBars s u
  | none =>
    modWarp s w.id fun y =>
      { y with last := y.last.set b.val (some (match y.last[b] with | some g => g + 1 | none => 0)) b.isLt }

/-- The generation that a warp's most recent arrival waits for, while it is the barrier's generation (R332). -/
def stillWaits (s : State) (w : Nat) (b : Fin 16) : Option (BitVec 32) :=
  match findWarp s w with
  | none => none
  | some x =>
    match barOf s x b, x.last[b] with
    | some (_, y), some g => if y.gen = g then some g else none
    | _, _ => none

/-- Wait for a generation to pass; the split notes the generation (R331). -/
def awaitGen (s : State) (c : Iss) (b : Fin 16) (g : BitVec 32) : Effect :=
  match barOf s c.w b with
  | some (_, y) =>
    if y.gen = g then .rest (modWarp s c.w.id fun w => modSplit w c.sp fun x => { x with timer := g.toNat + 1 })
    else .next s
  | none => .next s

/-- The generation that a blocked split already waits for. -/
def noted (c : Iss) : Option (BitVec 32) :=
  if c.split.st == .blocked && c.split.timer != 0 then some (BitVec.ofNat 32 (c.split.timer - 1)) else none

/-- Wait as `bar` and `bar.wt` do (R332): for the generation already noted, or for the most recent arrival's. -/
def barWait (s : State) (c : Iss) (b : Fin 16) : Effect :=
  match stillWaits s c.w.id b with
  | some g => awaitGen s c b g
  | none => .next s

/-- `bar b` (R332, R333): its arrival is a release and its completion an acquire, both at core scope (R174). -/
def execBar (g : Guard) (b : Fin 16) (s : State) : Host.Outcome State Fault Refusal :=
  issueWarp (.bar g b) (fun s c =>
    if s.links.any (linkReadOf c.w.id) then .wait s
    else
      match noted c with
      | some x => awaitGen s c b x
      | none => (releaseAt s c.w .core).andThen fun s => barWait (arrive s c.w b) c b) s

/-- `bar.arv b` (R174, R332). -/
def execBarArv (g : Guard) (b : Fin 16) (s : State) : Host.Outcome State Fault Refusal :=
  issueWarp (.barArv g b) (fun s c => (releaseAt s c.w .core).andThen fun s => .next (arrive s c.w b)) s

/-- `bar.wt b` (R332). -/
def execBarWt (g : Guard) (b : Fin 16) (s : State) : Host.Outcome State Fault Refusal :=
  issueWarp (.barWt g b) (fun s c =>
    if s.links.any (linkReadOf c.w.id) then .wait s
    else
      match noted c with
      | some x => awaitGen s c b x
      | none => barWait s c b) s

end Sys2Proof.Machine
end

