-- ==== Sys2Proof/Machine/Chain.lean ====
section
/-! DEFINITION. Chained launches (R233-R242): publishes and chained sources within a warp, the buffers between warps,
the mailboxes between units, and the chain group. -/

namespace Sys2Proof.Machine

/-- k of a channel of a launch (R233). -/
def chainK (l : Launch) (c : Fin 4) : Nat := l.cd.km1[c] + 1

/-- Whether a channel is enabled in a launch (R76, R233). -/
def chainOn (l : Launch) (c : Fin 4) : Bool := l.r.chain && l.r.chm.getLsbD c.val

/-- A warp's unit and launch. -/
def chainHome (s : State) (w : Warp) : Option (UnitSt × Launch) :=
  match unitOf s w with
  | some u => (match launchOf s u with | some l => some (u, l) | none => none)
  | none => none

/-- Whether a lane's item is closed on a channel (R235). -/
def laneClosed (w : Warp) (st : ChanSt) (l : Nat) : Bool := !w.live.getLsbD l || st.closed.getLsbD l

/-- Occurrence `n` of a lane, where it has published it; one no longer held is unspecified (R237, R238; log 10). -/
def occOf (s : State) (w : Warp) (st : ChanSt) (l n : Nat) : Option Word :=
  if h : l < 32 then
    if n < st.counts[l] then
      some (match st.occs.find? fun o => o.1.val == l && o.2.1 == n with
        | some o => o.2.2
        | none => Config.freeWord [1, s.now, w.id, l, n])
    else none
  else none

/-- How the walk of R235 ends within a warp: at a published value, at an item that is neither published nor closed, or
below the warp's first item, `e` places after the boundary before it. -/
inductive LaneWalk where
  | val (v : Word)
  | open_
  | out (e : Nat)
  deriving DecidableEq, Repr

/-- The walk of R235 for a reading place `l` of a warp: from lane l - k down. -/
def laneWalk (s : State) (w : Warp) (st : ChanSt) (k n : Nat) : Nat → Nat → LaneWalk
  | 0, l => .out l
  | fuel + 1, l =>
    if l < k then .out l
    else
      match occOf s w st (l - k) n with
      | some v => .val v
      | none => if laneClosed w st (l - k) then laneWalk s w st k n fuel (l - k) else .open_

/-- The address of a mailbox line (R239). -/
def mailAddr (l : Launch) (b : Nat) (c : Fin 4) : Word :=
  l.cd.area + BitVec.ofNat 64 (256 * (4 * (b % 1024) + c.val))

/-- The filled value of a boundary before a warp (R238, R239): value `e` of an occurrence. -/
def boundaryFill (s : State) (u : UnitSt) (rank : Nat) (c : Fin 4) (n : Nat) : Option CFill :=
  if rank = 0 then
    (s.mails.find? fun m => m.ctx == u.ctx && m.launch == u.launch && m.fill.bnd + 1 == u.index && m.fill.ch == c
      && m.fill.occ == n).map (·.fill)
  else u.cbufs.find? fun f => f.bnd + 1 == rank && f.ch == c && f.occ == n

/-- What a chained read comes to. -/
inductive ChainRead where
  | val (v : Word)
  | open_
  | miss (page : Nat)
  | stall
  | bad (f : FaultInfo)
  deriving DecidableEq, Repr

/-- What the chain area must be (R133, R239): package memory of a plain page of scope die or wider. A window or a page of scope
core takes cause 0x0004 (log 64). -/
def mailPage (p : Spot) : Look :=
  if p.kind != .package || p.scope == .core then faultAt 4 p
  else if pteFmt p.e.pte != 0 then faultAt 7 p
  else .ok p

/-- The way of a mailbox access: at the home slice. -/
def mailWay (wr : Bool) : Way := { core := none, home := true, wr := wr, posted := false }

/-- Every check of a fill's write to its mailbox, from the translation of the line for an agent of a die (R12-R14, R133, R239). -/
def mailWrite (s : State) (c : Fin 64) (d : Fin 2) (t : Trans) (va : Word) : Look :=
  ((t.spot s c d va true).then_ mailPage).then_ (writeLook s d (mailWay true))

/-- Every check of a chained read of a mailbox by a core. -/
def mailRead (s : State) (w : Warp) (va : Word) : Look :=
  ((locate s w.core w.ctx va false).then_ mailPage).then_ (readLook s (coreDie w.core) (mailWay false) 8)

/-- Read a value that lies before a warp's first item (R238, R239). A fill that has failed keeps back the occurrences from its own
on, and the read that awaits one of them takes its fault. A mailbox whose bytes a program has written returns an unspecified value
(log 10). -/
def readBefore (s : State) (w : Warp) (u : UnitSt) (l : Launch) (c : Fin 4) (n e : Nat) : ChainRead :=
  let dflt := u.cdefs[c]
  if w.rank = 0 && u.index = 0 then .val dflt
  else
    match boundaryFill s u w.rank c n with
    | none =>
      if w.rank = 0 then
        match s.units.find? fun p => p.ctx == u.ctx && p.launch == u.launch && p.index + 1 == u.index with
        | some p =>
          match p.mailFault.find? fun f => f.ch == c && decide (f.occ ≤ n) with
          | some f => .bad { faultOf f.cause with va := f.va, pte := f.pte }
          | none => .open_
        | none => .open_
      else .open_
    | some f =>
      match f.vals[e]? with
      | none => .open_
      | some none => .val dflt
      | some (some v) =>
        if w.rank = 0 then
          let va := mailAddr l (u.index - 1) c + BitVec.ofNat 64 (64 * (n % 4) + 8 * e)
          match mailRead s w va with
          | .miss page => .miss page
          | .stall => .stall
          | .bad f => .bad f
          | .ok p =>
            if (l2Peek s (coreDie w.core) false (p.pa / 64)).toNat >>> (8 * (p.pa % 64)) % 2 ^ 64 = v.toNat then .val v
            else .val (Config.freeWord [3, s.now, w.id, n, e])
        else .val v

/-- The value a lane reads on a channel (R235), under the channel state as the instruction has left it so far. -/
def chainRead (s : State) (w : Warp) (st : ChanSt) (u : UnitSt) (la : Launch) (c : Fin 4) (l : Fin 32) : ChainRead :=
  let n := st.counts[l]
  match laneWalk s w st (chainK la c) n 33 l.val with
  | .val v => .val v
  | .open_ => .open_
  | .out e => readBefore s w u la c n e

/-- Whether occurrence `n` of a residue class is still needed from item `x` on (R237): by the nearest item that is not
closed, while its own count is `n` or less. -/
def neededFrom (s : State) (la : Launch) (ctx : Fin 64) (c : Fin 4) (n : Nat) : Nat → Nat → Bool
  | 0, _ => false
  | fuel + 1, x =>
    if la.r.items ≤ x then false
    else
      let per := 32 * la.r.wpu
      let ui := x / per
      if la.next ≤ ui then true
      else
        let rank := x % per / 32
        let lane := x % 32
        match s.units.find? fun u => u.ctx == ctx && u.launch == la.id && u.index == ui with
        | none => neededFrom s la ctx c n fuel (x + chainK la c)
        | some u =>
          match s.warps.find? fun w => inUnit u.id w && w.rank == rank with
          | none => neededFrom s la ctx c n fuel (x + chainK la c)
          | some w =>
            let st := w.chain[c]
            if laneClosed w st lane then neededFrom s la ctx c n fuel (x + chainK la c)
            else if h : lane < 32 then decide (st.counts[lane] ≤ n)
            else false

/-- `neededFrom` with fuel for every dispatched item. -/
def needed (s : State) (la : Launch) (ctx : Fin 64) (c : Fin 4) (n x : Nat) : Bool :=
  neededFrom s la ctx c n (la.next * la.r.wpu * 32 + 2) x

/-- Record a publish (R235, R237): the last four occurrences of a lane are held. -/
def publish (st : ChanSt) (l : Fin 32) (v : Word) : ChanSt :=
  let n := st.counts[l]
  { st with
    counts := st.counts.set l.val (n + 1) l.isLt
    occs := (l, n, v) :: st.occs.filter fun o => !(o.1 == l && decide (o.2.1 + 4 ≤ n)) }

/-- Replace the state of a channel of a warp. -/
def setChan (w : Warp) (c : Fin 4) (st : ChanSt) : Warp := { w with chain := w.chain.set c.val st c.isLt }

/-! ### Boundary fills (R238, R239) -/

/-- The fills that the boundary before a warp has had. -/
def filledBefore (s : State) (w : Warp) (u : UnitSt) (la : Launch) (c : Fin 4) : Nat :=
  let producer :=
    if w.rank = 0 then
      (s.units.find? fun p => p.ctx == u.ctx && p.launch == u.launch && p.index + 1 == u.index).bind fun p =>
        s.warps.find? fun x => inUnit p.id x && x.rank + 1 == la.r.wpu
    else s.warps.find? fun x => inUnit u.id x && x.rank + 1 == w.rank
  match producer with
  | some x => x.chain[c].filled
  | none => 0

/-- The values 0 to k - 1 that a fill of occurrence `n` would hold after a warp, where all of them are settled; `none`
inside is a default mark. A value whose slot before the warp has been used again, which no item needs any more, is unspecified
(R238; log 10). -/
def fillVals (s : State) (w : Warp) (u : UnitSt) (la : Launch) (c : Fin 4) (n : Nat) : Option (List (Option Word)) :=
  let k := chainK la c
  (List.range k).foldr (fun e acc =>
    match acc with
    | none => none
    | some vs =>
      match laneWalk s w w.chain[c] k n 33 (32 + e) with
      | .val v => some (some v :: vs)
      | .open_ => none
      | .out e' =>
        if w.rank = 0 && u.index = 0 then some (none :: vs)
        else
          match boundaryFill s u w.rank c n with
          | some f => (match f.vals[e']? with | some x => some (x :: vs) | none => none)
          | none =>
            if n < filledBefore s w u la c then some (some (Config.freeWord [4, s.now, w.id, n, e]) :: vs) else none) (some [])

/-- The first item after a warp. -/
def afterWarp (u : UnitSt) (la : Launch) (rank : Nat) : Nat := (u.index * la.r.wpu + rank + 1) * 32

/-- Whether a boundary occurrence is still needed by an item after it (R237, R238). -/
def boundaryNeeded (s : State) (la : Launch) (ctx : Fin 64) (c : Fin 4) (n first : Nat) : Bool :=
  (List.range (chainK la c)).any fun e => needed s la ctx c n (first + e)

/-- Whether items follow a warp. -/
def itemsAfter (u : UnitSt) (la : Launch) (rank : Nat) : Bool := decide (afterWarp u la rank < la.r.items)

/-- The warp of a unit of a rank. -/
def warpOf (s : State) (u rank : Nat) : Option Warp := s.warps.find? fun w => inUnit u w && w.rank == rank

/-- Whether the mailbox line of boundary `b` still holds occurrence `n` for the warp after it, the only one that reads the line: one of its
lanes that is not closed, or its own next fill, has not passed the occurrence (R239; log 77). -/
def lineHeld (s : State) (la : Launch) (ctx : Fin 64) (c : Fin 4) (b n : Nat) : Bool :=
  match s.units.find? fun u => u.ctx == ctx && u.launch == la.id && u.index == b + 1 with
  | none => decide (la.next ≤ b + 1)
  | some u =>
    match warpOf s u.id 0 with
    | none => false
    | some w =>
      let st := w.chain[c]
      (List.finRange 32).any (fun l => !laneClosed w st l && decide (st.counts[l] ≤ n)) ||
        (itemsAfter u la 0 && decide (st.filled ≤ n))

/-- Whether another boundary of the launch that uses the same mailbox line has released it for occurrence `n` of a unit's (R239; log 77): what
it holds has been read, and the boundaries 1,024 or more before have had their own occurrence `n`. -/
def mailFree (s : State) (u : UnitSt) (la : Launch) (c : Fin 4) (n : Nat) : Bool :=
  let shares := fun (b : Nat) => b != u.index && b % 1024 == u.index % 1024
  s.mails.all (fun m =>
    !(m.ctx == u.ctx && m.launch == u.launch && m.fill.ch == c && shares m.fill.bnd && lineHeld s la u.ctx c m.fill.bnd m.fill.occ)) &&
  s.units.all fun p =>
    !(p.ctx == u.ctx && p.launch == u.launch && shares p.index && decide (p.index < u.index)) ||
      ((warpOf s p.id (la.r.wpu - 1)).all fun w => decide (n < w.chain[c].filled))

/-- Whether the slot that a fill of occurrence `n` goes to is free (R238, R239): occurrence n - 4 is not needed, and the
mailbox line is released by the boundary 1,024 before. -/
def slotFree (s : State) (u : UnitSt) (la : Launch) (rank : Nat) (c : Fin 4) (n : Nat) : Bool :=
  (decide (n < 4) || !boundaryNeeded s la u.ctx c (n - 4) (afterWarp u la rank)) &&
  (rank + 1 != la.r.wpu || mailFree s u la c n)

/-- Whether a fill of the next occurrence of a warp's boundary can be made now. -/
def fillDue (s : State) (w : Warp) (u : UnitSt) (la : Launch) (c : Fin 4) : Option (List (Option Word)) :=
  let n := w.chain[c].filled
  if chainOn la c && itemsAfter u la w.rank && slotFree s u la w.rank c n then fillVals s w u la c n else none

/-- Count a fill as made. Of the occurrences whose settling is noted, those before it are forgotten. -/
def countFill (s : State) (w : Nat) (c : Fin 4) : State :=
  modWarp s w fun x => setChan x c { x.chain[c] with
    filled := x.chain[c].filled + 1, settled := x.chain[c].settled.filter fun y => decide (x.chain[c].filled ≤ y.1) }

/-- Cycles from the moment that the last value of a fill settles until the occurrence reaches the chain buffer (R238). -/
def fillDelay : Nat := 8

/-- The occurrences from which on all settle alike: no item publishes them, and no fill before the warp has brought them. -/
def unpublished (s : State) (w : Warp) (u : UnitSt) (la : Launch) (c : Fin 4) : Nat :=
  (List.finRange 32).foldl (fun m l => max m w.chain[c].counts[l]) (filledBefore s w u la c)

/-- Note the occurrences of a warp's boundary whose values have settled in this cycle (R238). Those that nothing publishes settle together,
when the last item closes; only the first four are looked at, and a later one takes its time from them. -/
def noteSettled (s : State) (w : Warp) : Warp :=
  match chainHome s w with
  | none => w
  | some (u, la) =>
    if la.r.chain then
      (List.finRange 4).foldl (fun w c =>
        let st := w.chain[c]
        let top := unpublished s w u la c
        let new := (List.range (max st.filled top + 4)).filter fun n =>
          decide (st.filled ≤ n) && chainOn la c && !(st.settled.any fun y => y.1 == n) && (fillVals s w u la c n).isSome
        let time := fun (n : Nat) =>
          match st.settled.find? fun y => decide (top ≤ y.1) && decide (y.1 < n) with
          | some y => y.2
          | none => s.now
        if new.isEmpty then w else setChan w c { st with settled := st.settled ++ new.map fun n => (n, time n) }) w
    else w

/-- Whether the time of a warp's next fill has come. -/
def fillRipe (s : State) (st : ChanSt) : Bool := st.settled.any fun y => y.1 == st.filled && decide (y.2 + fillDelay ≤ s.now)

/-- Whether the fills of a unit go on (R100, R240): its state is not saved away, and its context is not halted. -/
def fillsOn (s : State) (u : UnitSt) : Bool := u.st != .swapped && s.ctxs[u.ctx].st != .halted

/-- CHAIN_BUFFER_FILL (R238): the producing warp's next occurrence reaches the buffer after it, 8 cycles after the last of its values
has settled. -/
def execChainBufferFill (u : Nat) (rank : Fin 32) (ch : Fin 4) (occ : Nat) (s : State) : Host.Outcome State Fault Refusal :=
  match findUnit s u, warpOf s u rank.val with
  | some x, some w =>
    match launchOf s x with
    | none => .next s
    | some la =>
      if w.chain[ch].filled = occ && w.rank + 1 < la.r.wpu && fillsOn s x && fillRipe s w.chain[ch] then
        match fillDue s w x la ch with
        | none => .next s
        | some vs =>
          let s := countFill s w.id ch
          .next (modUnit s u fun y => { y with
            cbufs := { bnd := w.rank, ch := ch, occ := occ, vals := vs }
              :: y.cbufs.filter fun f => !(f.bnd == w.rank && f.ch == ch && f.occ % 4 == occ % 4) })
      else .next s
  | _, _ => .next s

/-- Write the values of a fill into its mailbox line (R239); a default mark writes nothing. -/
def writeMail (s : State) (d : Fin 2) (a : Nat) : List (Option Word) → State
  | [] => s
  | none :: r => writeMail s d (a + 8) r
  | some v :: r => writeMail (homeWrite s d Acc.plain false a 8 v.toNat) d (a + 8) r

/-- The release that a publication to a later unit is (R173): the dirty sectors of the producers' core are at their home slices,
copies of the other die are gone, and the domain accesses of the context have completed. -/
def mailReleased (s : State) (u : UnitSt) : Bool :=
  !(s.cores[u.core].l1.any fun l => ownLine u.ctx l && l.dirty != 0) && acrossDone s u.ctx && !(s.links.any (farWriteOf u.ctx))

/-- Carry out a mailbox fill whose line may be written. -/
def putMail (s : State) (x : UnitSt) (w : Warp) (ch : Fin 4) (occ : Nat) (vs : List (Option Word)) (p : Spot) : State :=
  let d := coreDie x.core
  match setDirty s none d x.ctx p.e p.pa with
  | none => tlbForget s none d x.ctx p.va.toNat
  | some s =>
    let s := writeMail s d (p.pa + 64 * (occ % 4)) vs
    let s := countFill s w.id ch
    { s with mails :=
      { ctx := x.ctx, launch := x.launch, fill := { bnd := x.index, ch := ch, occ := occ, vals := vs } }
        :: s.mails.filter fun m =>
            !(m.ctx == x.ctx && m.launch == x.launch && m.fill.ch == ch
              && m.fill.bnd % 1024 == x.index % 1024 && m.fill.occ % 4 == occ % 4) }

/-- MAILBOX_FILL (R173, R239): the last warp's next occurrence is written to the mailbox after the unit, once the release that the
publication is has been made. A fill that fails is noted for the read that awaits it, whose replay tries it again. -/
def execMailboxFill (u : Nat) (ch : Fin 4) (occ : Nat) (s : State) : Host.Outcome State Fault Refusal :=
  match findUnit s u with
  | none => .next s
  | some x =>
    match (launchOf s x).bind fun la => (warpOf s u (la.r.wpu - 1)).map fun w => (la, w) with
    | none => .next s
    | some (la, w) =>
      if w.chain[ch].filled = occ && fillsOn s x && !(x.mailFault.any fun f => f.ch == ch) then
        match fillDue s w x la ch with
        | none => .next s
        | some vs =>
          let s := l1Clean s x.core wideLine
          if !mailReleased s x then .next s
          else
            let d := coreDie x.core
            let va := mailAddr la x.index ch
            match (mailWrite s x.ctx d (translateEng s d u x.ctx va) va).then_ (markLook s d x.ctx) with
            | .miss page => .next (askWalkFor s d (.op u) x.ctx page)
            | .stall => .next s
            | .bad f =>
              .next (modUnit (forgetEngFails s d u) u fun y => { y with
                mailFault := { ch := ch, occ := occ, cause := f.cause, va := f.va, pte := f.pte } :: y.mailFault })
            | .ok p => .next (putMail s x w ch occ vs p)
      else .next s

/-! ### The chain group (R241) -/

/-- The unit and launch of a chain instruction whose channel is enabled; otherwise cause 0x0012 (R241, R242). -/
def withChannel (s : State) (c : Iss) (ch : Fin 4) (k : UnitSt → Launch → Effect) : Effect :=
  match chainHome s c.w with
  | some (u, l) => if chainOn l ch then k u l else .fault (faultOf 0x12)
  | none => .fault (faultOf 0x12)

/-- `cdef c, sB` (R241). -/
def execCdef (g : Guard) (c : Fin 4) (b : SSrc) (w1 : Word) (s : State) : Host.Outcome State Fault Refusal :=
  issueWarp (.cdef g c b w1) (fun s i =>
    withChannel s i c fun u _ =>
      .next (modUnit s u.id fun x => { x with cdefs := x.cdefs.set c.val (ssrcVal s i w1 b) c.isLt })) s

/-- `cdrop c` (R241). -/
def execCdrop (g : Guard) (c : Fin 4) (s : State) : Host.Outcome State Fault Refusal :=
  issueWarp (.cdrop g c) (fun s i =>
    withChannel s i c fun _ _ =>
      .next (modWarp s i.w.id fun w => setChan w c { w.chain[c] with closed := w.chain[c].closed ||| i.act })) s

/-- `cquery sD, c, sel` (R241). -/
def execCquery (g : Guard) (d : Fin 128) (c : Fin 4) (sel : Fin 3) (s : State) : Host.Outcome State Fault Refusal :=
  issueWarp (.cquery g d c sel) (fun s i =>
    withChannel s i c fun u _ =>
      let st := i.w.chain[c]
      let v : Word :=
        match sel with
        | 0 => u.cdefs[c]
        | 1 => BitVec.ofNat 64 (st.closed &&& i.w.live).toNat
        | 2 => (match i.act.lowest with | some l => BitVec.ofNat 64 st.counts[l] | none => 0)
      .next (modWarp s i.w.id fun w => setS w d v)) s

end Sys2Proof.Machine
end

