-- ==== Sys2Proof/Machine/Vector.lean ====
section
/-! DEFINITION. How a vector form runs (R283, R286, R287): its sources in each active lane, its chained source and its
publish (R234-R237), its destination and its flags. -/

namespace Sys2Proof.Machine

/-- What a vector form computes in a lane: from A, B, C and the destination's old value, a result and its flags. -/
abbrev LaneFn := Iss → Fin 32 → Word → Word → Word → Word → Word × BitVec 16

/-- Where the results of a vector form go: a v-register at issue, a predicate (bit 0), or a v-register through the SFU
queue. -/
inductive VDest where
  | reg | pred | queue
  deriving DecidableEq, Repr

/-- The result of a form in a lane, every source read as its specifier says. -/
def laneRes (s : State) (c : Iss) (f : VForm) (g : LaneFn) (l : Fin 32) : Word × BitVec 16 :=
  g c l (srcVal s c f.ta f.o.imm f.o.a l) (srcVal s c f.tb f.o.imm f.o.b l) (srcVal s c f.tc f.o.imm f.o.c l)
    (vreg c.w f.o.d l)

/-- The result of a form in a lane whose chained source reads `v`. -/
def laneResWith (s : State) (c : Iss) (f : VForm) (g : LaneFn) (v : Word) (l : Fin 32) : Word × BitVec 16 :=
  let a := if f.o.chain.csrc = .a then v else srcVal s c f.ta f.o.imm f.o.a l
  let b := if f.o.chain.csrc = .b then v else srcVal s c f.tb f.o.imm f.o.b l
  let x := if f.o.chain.csrc = .c then v else srcVal s c f.tc f.o.imm f.o.c l
  g c l a b x (vreg c.w f.o.d l)

/-- The flags of some lanes together (R193). -/
def flagsOver (m : Mask) (r : Fin 32 → Word × BitVec 16) : BitVec 16 :=
  m.lanes.foldl (fun f l => f ||| (r l).2) 0

/-- The mask of the lanes whose result's bit 0 is set. -/
def predOf (r : Fin 32 → Word × BitVec 16) : Mask := Mask.ofFn fun l => (r l).1.getLsbD 0

/-- A result on its way to registers, with an id of its own. -/
def addResult (s : State) (r : Result) : State :=
  let (n, s) := fresh s
  { s with results := s.results ++ [{ r with id := n }] }

/-- A result of an instruction with nothing in it yet. -/
def result0 (c : Iss) (k : RKind) : Result :=
  { id := 0, kind := k, warp := c.w.id, sp := c.sp, due := none, mask := c.act, vw := [], sw := none, pw := none
    tags := [], ty := .b64, whole := true, bad := none, holds := false }

/-- Write the results of a form that is not chained (R287, R303). -/
def deliver (s : State) (c : Iss) (d : Fin 256) (dest : VDest) (r : Fin 32 → Word × BitVec 16) : State :=
  let fl := flagsOver c.act r
  match dest with
  | .reg => modWarp s c.w.id fun w => setFlags (setV w d c.act fun l => (r l).1) fl
  | .pred => modWarp s c.w.id fun w => setFlags (setP w (Fin.ofNat 8 d.val) c.act (predOf r)) fl
  | .queue =>
    let s := addResult s { result0 c .sfu with vw := [(d, tabulate 32 fun l => (r l).1)] }
    modWarp s c.w.id fun w => setFlags (pendV w d) fl

/-- The results of a chained form, lane after lane in ascending order (R236): each lane's read sees what earlier lanes
have published. `w` carries the channels as they stand so far. -/
def chainLoop (s : State) (u : UnitSt) (la : Launch) (cch pch : Option (Fin 4))
    (g : Option Word → Fin 32 → Word × BitVec 16) :
    List (Fin 32) → Warp → List (Fin 32 × Word × BitVec 16) → Except (ChainRead × Fin 32) (Warp × List (Fin 32 × Word × BitVec 16))
  | [], w, acc => .ok (w, acc)
  | l :: r, w, acc =>
    let read : ChainRead :=
      match cch with
      | none => .val 0
      | some ch => chainRead s w w.chain[ch] u la ch l
    match read with
    | .val v =>
      let x := g (cch.map fun _ => v) l
      let w := match pch with
        | some ch => setChan w ch (publish w.chain[ch] l x.1)
        | none => w
      chainLoop s u la cch pch g r w ((l, x) :: acc)
    | e => .error (e, l)

/-- The chained channel of a form. -/
def cchOf (o : VOp) : Option (Fin 4) := if o.chain.csrc = .none then none else some o.chain.cch

/-- Why a chained form faults before any effect (R242), and in which lanes. -/
def chainFault (w : Warp) (la : Launch) (o : VOp) (act : Mask) : Option FaultInfo :=
  let badSrc := match cchOf o with
    | some ch => !chainOn la ch || la.cd.km1[ch] != o.chain.km1.val
    | none => false
  let badPub := match o.chain.pub with
    | some ch => !chainOn la ch
    | none => false
  if badSrc || badPub then some (faultOf 0x12)
  else
    match o.chain.pub with
    | none => none
    | some ch =>
      let st := w.chain[ch]
      let m := Mask.ofFn fun l => act.getLsbD l.val && (laneClosed w st l.val || decide (2 ^ 32 - 1 ≤ st.counts[l]))
      if m = 0 then none else some { faultOf 0x12 with lanes := m }

/-- The occurrences that a publish lets its warp's boundary fill. `w'` is the warp after the publish. -/
def completes (s : State) (w w' : Warp) (u : UnitSt) (la : Launch) (ch : Fin 4) (act : Mask) : List Nat :=
  if itemsAfter u la w.rank then
    ((act.lanes.map fun l => w.chain[ch].counts[l]).eraseDups.filter fun n =>
      decide (w.chain[ch].filled ≤ n) && (fillVals s w u la ch n).isNone && (fillVals s w' u la ch n).isSome)
  else []

/-- Whether a publish is not ready (R237, R238): a consumer still needs a lane's occurrence n - 4, or a fill that the
publish completes has no free slot. `w'` is the warp after the publish. -/
def publishStalls (s : State) (w w' : Warp) (u : UnitSt) (la : Launch) (ch : Fin 4) (act : Mask) : Bool :=
  let st := w.chain[ch]
  let item := fun (l : Nat) => (u.index * la.r.wpu + w.rank) * 32 + l
  act.lanes.any (fun l =>
    let n := st.counts[l]
    decide (4 ≤ n) && needed s la u.ctx ch (n - 4) (item l.val + chainK la ch)) ||
  (completes s w w' u la ch act).any fun n => !slotFree s u la w.rank ch n

/-- What a publish that completes a fill between units meets in the chain area (R239). -/
def publishArea (s : State) (w w' : Warp) (u : UnitSt) (la : Launch) (ch : Fin 4) (act : Mask) : Option Look :=
  if w.rank + 1 = la.r.wpu && !(completes s w w' u la ch act).isEmpty then
    let va := mailAddr la u.index ch
    some (mailWrite s w.ctx (coreDie w.core) (translate s w.core w.ctx va) va)
  else none

/-- Cycles that R237 adds to an instruction's result: 6 for a scan, 32 for another chained source, none for a publish
alone. -/
def chainDelay (i : Instr) (o : VOp) : Nat :=
  if o.chain.csrc = .none then 0
  else
    let scan :=
      match i with
      | .vadd o | .vmin o | .vmax o | .vand o | .vor o | .vxor o => !o.sat
      | .vfadd _ => true
      | _ => false
    if scan && o.chain.pub == some o.chain.cch then 6 else 32

/-- Write the results of a chained form: pending until they are written, the split held (R123, R237). A special function's result
comes from its queue, and no sooner than the cycles that R237 adds. -/
def deliverChained (s : State) (i : Instr) (c : Iss) (o : VOp) (dest : VDest) (w' : Warp)
    (rs : List (Fin 32 × Word × BitVec 16)) : State :=
  let at_ := fun (l : Fin 32) => ((rs.find? fun x => x.1 == l).map (·.2)).getD (0, 0)
  let fl := flagsOver c.act at_
  let r := { result0 c (if dest = .queue then .sfu else .chain) with
    due := some (s.now + chainDelay i o)
    vw := if dest = .pred then [] else [(o.d, tabulate 32 fun l => (at_ l).1)]
    pw := if dest = .pred then some (Fin.ofNat 8 o.d.val, predOf at_) else none
    holds := true }
  let s := addResult s r
  modWarp s c.w.id fun w =>
    let w := { w with chain := w'.chain }
    let w := setFlags (if dest = .pred then w else pendV w o.d) fl
    modSplit w c.sp fun x => { x with held := true }

/-- Finish a chained form once its lanes are resolved: the stalls of its publish, then its results. -/
def finishChained (s : State) (i : Instr) (c : Iss) (f : VForm) (dest : VDest) (u : UnitSt) (la : Launch)
    (w' : Warp) (rs : List (Fin 32 × Word × BitVec 16)) : Effect :=
  match f.o.chain.pub with
  | none => .next (deliverChained s i c f.o dest w' rs)
  | some ch =>
    if publishStalls s c.w w' u la ch c.act then .rest s
    else
      match publishArea s c.w w' u la ch c.act with
      | none => .next (deliverChained s i c f.o dest w' rs)
      | some (.miss page) => .wait (askWalk s c.w.core c.w.id c.sp c.w.ctx page)
      | some .stall => .wait s
      | some (.bad e) => .fault e
      | some (.ok _) => .next (deliverChained s i c f.o dest w' rs)

/-- What an unsatisfied or failed chained read makes of the instruction (R235, R239). -/
def chainStop (s : State) (c : Iss) (e : ChainRead × Fin 32) : Effect :=
  match e.1 with
  | .miss page => .wait (askWalk s c.w.core c.w.id c.sp c.w.ctx page)
  | .bad f => .fault { f with lanes := BitVec.ofNat 32 (2 ^ e.2.val) }
  | .stall => .wait s
  | _ => .rest s

/-- The scope at which a chained read acquires (R173): its producers are on its own core, unless an earlier unit may hold them. -/
def chainScope (x : Ctx) (u : UnitSt) : Scope := if u.index = 0 then .core else widest x

/-- The ordering that a chained form brings (R173): a chained read is an acquire at its chain scope, and a publish a release of the
accesses before it, which a later unit's mailbox completes. -/
def chainOrder (s : State) (c : Iss) (u : UnitSt) (o : VOp) (k : State → Effect) : Effect :=
  let acq := fun (s : State) =>
    if (cchOf o).isSome then (acquireAt s c.w (chainScope s.ctxs[c.w.ctx] u)).andThen k else k s
  if o.chain.pub.isSome then (releaseAt s c.w .core).andThen acq else acq s

/-- The effect of a form with a chained source or a publish (R173, R234-R237). -/
def chainEffect (s : State) (i : Instr) (c : Iss) (f : VForm) (g : LaneFn) (dest : VDest) : Effect :=
  match chainHome s c.w with
  | none => .fault (faultOf 0x12)
  | some (u, la) =>
    match chainFault c.w la f.o c.act with
    | some e => .fault e
    | none =>
      match chainLoop s u la (cchOf f.o) f.o.chain.pub (fun v l => match v with
          | some x => laneResWith s c f g x l
          | none => laneRes s c f g l) c.act.lanes c.w [] with
      | .error e => chainStop s c e
      | .ok (w', rs) => chainOrder s c u f.o fun s => finishChained s i c f dest u la w' rs

/-- Whether a form has chain fields. -/
def isChained (o : VOp) : Bool := o.chain.csrc != .none || o.chain.pub.isSome

/-- The effect of a vector form. -/
def vEffect (i : Instr) (f : VForm) (dest : VDest) (g : LaneFn) (s : State) (c : Iss) : Effect :=
  if isChained f.o && c.act != 0 then chainEffect s i c f g dest
  else .next (deliver s c f.o.d dest (laneRes s c f g))

/-- RUN a vector form of OP 0x00 to 0x05 in its active lanes. -/
def runV (i : Instr) (dest : VDest) (g : LaneFn) (s : State) : Host.Outcome State Fault Refusal :=
  issue i (fun s c =>
    match vform i with
    | some f => vEffect i f dest g s c
    | none => .next s) s

/-- The same function in every sub-element of three values (R283). -/
def eachSub (w : Nat) (h : Nat → Nat → Nat → Res1) (a b c : Word) : Word × BitVec 16 :=
  joinRes w ((List.range (64 / w)).map fun k => h (bitsOf a (k * w) w) (bitsOf b (k * w) w) (bitsOf c (k * w) w))

/-- An integer form whose function acts per sub-element. -/
def runInt (i : Instr) (fn : IntFn) (o : VOp) (s : State) : Host.Outcome State Fault Refusal :=
  runV i .reg (fun _ _ a b c _ => eachSub (tyWidth o.ty) (intFn fn o.ty o.sat) a b c) s

end Sys2Proof.Machine
end

