-- ==== Sys2Proof/Machine/Link.lean ====
section
/-! DEFINITION. Accesses through a domain window and through the system window (R28-R35, R38-R40): what is sent, and the results
that return. A write or an atomic carries one element, or one 8-byte register of a lane; a read of a domain window takes a sector
or a line for all the lanes that want it (log 35). -/

namespace Sys2Proof.Machine

/-! ### Sending -/

/-- Where a domain read begins and how long it is (R33): one sector, or a line. -/
def readSpan (l : LinkOp) : Nat × Nat := if l.bytes = 256 then (l.pa / 256 * 256, 256) else (l.pa / 64 * 64, 64)

/-- The request of an access (R33): a read takes its sector or line, a write its bytes. -/
def uaReqOf (l : LinkOp) : UaReq :=
  let a := BitVec.ofNat 41 l.pa
  let read := UaReq.read (BitVec.ofNat 41 (readSpan l).1) (readSpan l).2
  match l.kind with
  | .read | .flush => read
  | .write => .write a (bytesOf l.bytes l.x.toNat) (List.replicate l.bytes true)
  | .atomic =>
    match l.op, l.ty, l.expect with
    | .add, .f32, none => read
    | _, _, some e => .atomic .cas (if tyWidth l.ty = 64 then .n64 else .n32) a e l.y
    | op, ty, none => .atomic op ty a l.x l.y

/-- Whether an atomic on the host link is carried as an AtomicOp of its own (R40). -/
def pcieAtomic (op : AtomOp) (ty : Ty) : Bool :=
  match op with
  | .add => ty != .f32
  | .xchg | .cas => true
  | _ => false

/-- The message of an access on the host link (R38, R40), with the Requester ID of its context's function. -/
def hostMsgOf (s : State) (l : LinkOp) : HostMsg :=
  let fn := functionOf s l.ctx
  let a := hostAddr l.pa
  match l.kind with
  | .read | .flush => .read fn l.tag a l.bytes
  | .write => .write fn l.tag a (bytesOf l.bytes l.x.toNat)
  | .atomic =>
    match l.expect with
    | some e => .atomicOp fn l.tag .cas l.ty a e l.y
    | none => if pcieAtomic l.op l.ty then .atomicOp fn l.tag l.op l.ty a l.x l.y else .read fn l.tag a l.bytes

/-- Put a request of an outstanding access on its link (R25, R31): it crosses the bridge where its port is the other die's. -/
def transmit (s : State) (l : LinkOp) : State :=
  if l.sys then toHostFor s { die := l.die, owner := some l.ctx, msg := hostMsgOf s l }
  else
    match routeTo s l.die l.pa with
    | .port g p =>
      let pkt : UaPkt :=
        { src := BitVec.ofNat 12 (identOf s.dies[l.die].ident), dst := BitVec.ofNat 12 (peerOf s l.die l.pa), resp := false
          tag := l.tag, req := uaReqOf l }
      let s := if l.die = g then s else sendPacket s l.die (portAgent p.val) .request true
      { s with uaOut := s.uaOut ++ [.request g p.val pkt] }
    | _ => s

/-- Whether an atomic is carried as a read and compare-and-swaps (R33, R40). -/
def looped (l : LinkOp) : Bool :=
  l.kind == .atomic && (if l.sys then !pcieAtomic l.op l.ty else l.op == .add && l.ty == .f32)

/-- Whether two accesses are lanes of one atomic instruction, the first before the second. -/
def laneBefore (k l : LinkOp) : Bool :=
  k.kind == .atomic && l.kind == .atomic && l.result.isSome && k.result == l.result && decide (k.tag < l.tag)

/-- Whether an access of a warp is held back: an earlier atomic of the warp on the same bytes is still being carried out by the link
logic, and the order of the warp's accesses to one location stands (R158, R162); or an earlier lane of the same atomic has not returned
yet, whose failure keeps this one from being sent (R124, log 36). -/
def heldBack (ls : List LinkOp) (l : LinkOp) : Bool :=
  l.copy.isNone && l.kind != .flush &&
  (ls.any fun k => laneBefore k l ||
    (looped k && decide (k.tag < l.tag) && k.copy.isNone && k.warp == l.warp && k.sys == l.sys
      && decide (k.pa < l.pa + l.bytes) && decide (l.pa < k.pa + k.bytes)))

/-- Send an access from a die: it is outstanding under a fresh tag until its completion. -/
def sendLink (s : State) (d : Fin 2) (l : LinkOp) : Nat × State :=
  let (tag, s) := fresh s
  let l := { l with tag := tag, since := s.now, die := d }
  (tag, if heldBack s.links l then { s with links := s.links ++ [l] } else transmit { s with links := s.links ++ [l] } l)

/-- An access of a context with nothing in it yet. -/
def link0 (c : Fin 64) (sys : Bool) (kind : LinkKind) (w : Nat) (lane : Fin 32) (va : Word) (pa bytes : Nat) : LinkOp :=
  { tag := 0, sys := sys, kind := kind, warp := w, lane := lane, reg := 0, result := none, copy := none, va := va, pa := pa
    bytes := bytes, since := 0, op := .add, ty := .n64, x := 0, y := 0, expect := none, die := 0, ctx := c, wants := [], flushed := []
    pages := [(va.toNat, 1)] }

/-- An access to a spot. -/
def spotLink (c : Fin 64) (kind : LinkKind) (w : Nat) (lane : Fin 32) (p : Spot) (n : Nat) : LinkOp :=
  { link0 c (p.kind == .system) kind w lane p.va p.pa n with pages := [(p.e.base, p.e.size)] }

/-! ### Reads that lanes share (R33, R158) -/

/-- What a part of a lane's read wants of a read that begins at an address. -/
def wantOf (l : LinkOp) (base : Nat) : Want := { lane := l.lane, reg := l.reg, off := l.pa - base, bytes := l.bytes }

/-- One read for all the lanes whose parts a test takes: `n` bytes from an address on. -/
def gatherRead (l : LinkOp) (ls : List LinkOp) (base n : Nat) (p : LinkOp → Bool) : LinkOp :=
  { l with pa := base, bytes := n, wants := (ls.filter p).map (wantOf · base), pages := ((ls.filter p).flatMap (·.pages)).eraseDups }

/-- The sectors of a line that some reads want. -/
def wantedSectors (ls : List LinkOp) (line : Nat) : List Nat :=
  ((ls.filter fun l => l.pa / 256 == line).map fun l => l.pa / 64).eraseDups

/-- The reads that the parts of an instruction's lanes come to (R33, R158): one for each sector of a domain window, or one for a line
of which four sectors are wanted, and one for each location of the system window. -/
def mergeReads (ls : List LinkOp) : List LinkOp :=
  ls.foldl (fun (ms : List LinkOp) l =>
    if l.sys then
      if ms.any fun m => m.sys && m.pa == l.pa then ms else ms ++ [gatherRead l ls l.pa l.bytes fun x => x.sys && x.pa == l.pa]
    else
      let line := 4 ≤ (wantedSectors ls (l.pa / 256)).length
      let n := if line then 256 else 64
      let base := l.pa / n * n
      if ms.any fun m => !m.sys && m.bytes == n && m.pa == base then ms
      else ms ++ [gatherRead l ls base n fun x => !x.sys && x.pa / n * n == base]) []

/-! ### Atomics -/

/-- The new value that an atomic writes, from the old one (R325). -/
def atomNew (op : AtomOp) (ty : Ty) (old x y : Nat) : Nat :=
  let w := tyWidth ty
  match op with
  | .add => if tyFloat ty then (fAdd (fmtOf ty) .rne false old x).1 else (old + x) % 2 ^ w
  | .min => if intOf ty old ≤ intOf ty x then old else x
  | .max => if intOf ty old ≤ intOf ty x then x else old
  | .and => old &&& x
  | .or => old ||| x
  | .xor => old ^^^ x
  | .xchg => x
  | .cas => if old = x then y else old

/-! ### Results -/

/-- Replace a lane's value in the `k`-th part of a result. -/
def fillResult (r : Result) (k : Nat) (l : Fin 32) (x : Word) : Result :=
  { r with vw := r.vw.zipIdx.map fun p =>
      if p.2 = k then (p.1.1, p.1.2.set l.val x l.isLt) else p.1 }

/-- Change the result of an id. -/
def modResult (s : State) (id : Nat) (f : Result → Result) : State :=
  { s with results := s.results.map fun r => if r.id == id then f r else r }

/-- The link result that a waiting split has (R35). -/
def linkResultOf (s : State) (c : Iss) : Option Result :=
  s.results.find? fun r => r.warp == c.w.id && r.sp == c.sp && r.kind == .link

/-- Forget the link result of a split. -/
def dropLinkResult (s : State) (c : Iss) : State :=
  { s with
    results := s.results.filter fun r => !(r.warp == c.w.id && r.sp == c.sp && r.kind == .link)
    links := s.links.filter fun l =>
      match l.result with
      | some id => !(s.results.any fun r => r.id == id && r.warp == c.w.id && r.sp == c.sp && r.kind == .link)
      | none => true }

/-- Start the accesses of an instruction that waits for them: a result that collects them, with room for `n` parts. -/
def startLinks (s : State) (c : Iss) (n : Nat) (ls : List LinkOp) : State :=
  let id := s.serial
  let ls := if ls.all fun l => l.kind == .read then mergeReads ls else ls
  let r : Result := { result0 c .link with vw := (List.range n).map fun _ => (0, always 32 0) }
  let s := addResult s r
  let (tags, s) := ls.foldl (fun (a : List Nat × State) l =>
    let (t, s) := sendLink a.2 (coreDie c.w.core) { l with result := some id }
    (a.1 ++ [t], s)) ([], s)
  modResult s id fun r => { r with tags := tags }

/-- What a split finds of the accesses it waits for. -/
inductive Linked where
  | none
  | wait
  | bad (f : LateFault)
  | got (r : Result)
  deriving DecidableEq, Repr

/-- The state of a split's link accesses. -/
def linkedOf (s : State) (c : Iss) : Linked :=
  match linkResultOf s c with
  | Option.none => .none
  | some r =>
    if !r.tags.isEmpty then .wait
    else
      match r.bad with
      | some f => .bad f
      | Option.none => .got r

/-- The part `k` of a lane in a result. -/
def resultPart (r : Result) (k : Nat) (l : Fin 32) : Word :=
  match r.vw[k]? with
  | some p => p.2[l]
  | Option.none => 0

end Sys2Proof.Machine
end

