-- ==== Sys2Proof/Machine/Term.lean ====
section
/-! DEFINITION. Term blocks (R138, R139, R141-R144): their header, codes and elements, the checks of every consumer,
and the encoding of a block. -/

namespace Sys2Proof.Machine

/-- FMT codes of term formats (R131, R138). -/
def tfmtNum : TFmt → Nat
  | .int8 => 1 | .int4 => 2 | .mxint8 => 3 | .e4m3 => 4 | .e3m2 => 5 | .e2m1 => 6

/-- The term format of an FMT code. -/
def tfmtOfNum (n : Nat) : Option TFmt :=
  match n with
  | 1 => some .int8 | 2 => some .int4 | 3 => some .mxint8 | 4 => some .e4m3 | 5 => some .e3m2 | 6 => some .e2m1 | _ => none

/-- f: an element is v * 2^-f (R142). -/
def tfrac : TFmt → Nat
  | .int8 => 0 | .int4 => 0 | .mxint8 => 6 | .e4m3 => 9 | .e3m2 => 4 | .e2m1 => 1

/-- The largest shift of a code (R142). -/
def tmaxShift : TFmt → Nat
  | .int8 => 7 | .int4 => 3 | .mxint8 => 7 | .e4m3 => 18 | .e3m2 => 9 | .e2m1 => 4

/-- Most terms of an element (R142). -/
def tmaxTerms : TFmt → Nat
  | .int8 => 4 | .int4 => 2 | .mxint8 => 4 | .e4m3 => 3 | .e3m2 => 2 | .e2m1 => 2

/-- The floating layout of a format, where it has one. -/
def tfloat : TFmt → Option Fmt
  | .e4m3 => some fmtE4M3 | .e3m2 => some fmtE3M2 | .e2m1 => some fmtE2M1 | _ => none

/-- Whether v * 2^-f is a value of a format (R144). -/
def theld (f : TFmt) (v : Int) : Bool :=
  match tfloat f with
  | some x => (roundMag x .rne false (decide (v < 0)) v.natAbs (-(tfrac f : Int)) false).2 == 0
  | none => if f = .int4 then decide (-8 ≤ v ∧ v ≤ 7) else decide (-128 ≤ v ∧ v ≤ 127)

/-- The bits of an element's value in its format (R138). A NaN element is 0x7F, a zero is positive. -/
def telemBits (f : TFmt) (e : Option Int) : Nat :=
  match e with
  | none => 0x7F
  | some v =>
    match tfloat f with
    | some x => if v = 0 then 0 else (roundMag x .rne false (decide (v < 0)) v.natAbs (-(tfrac f : Int)) false).1
    | none => lowBits (if f = .int4 then 4 else 8) v

/-- Bytes of a short and of a wide slot (R143). -/
def slotBytes (wide : Bool) : Nat := if wide then 128 else 64

/-- The count of element `j` in a block's header (R141); `x` is the block as a number. -/
def tcount (x j : Nat) : Nat := (x >>> (3 * j)) % 8

/-- The block scale (R141). -/
def tscale (x : Nat) : Nat := (x >>> 96) % 256

/-- T (R141). -/
def ttotal (x : Nat) : Nat := (x >>> 104) % 256

/-- The codes' count of element `j`: a NaN element has none. -/
def tcodes (x j : Nat) : Nat := if tcount x j = 7 then 0 else tcount x j

/-- The checks that the header decides (R144, R211). -/
def theaderOk (f : TFmt) (wide : Bool) (x : Nat) : Bool :=
  (List.range 32).all (fun j =>
    let n := tcount x j
    n != 5 && n != 6 && (n != 7 || f == .e4m3) && (n == 7 || decide (n ≤ tmaxTerms f))) &&
  (List.range 32).foldl (fun a j => a + tcodes x j) 0 == ttotal x &&
  decide (ttotal x ≤ (if wide then 128 else 64)) && (x >>> 112) % 65536 == 0

/-- Code `n` of a block (R141): whether it is negative, and its shift. -/
def tcode (x n : Nat) : Bool × Nat :=
  let c := (x >>> (128 + 6 * n)) % 64
  (decide (32 ≤ c), c % 32)

/-- The signed value of one code. -/
def codeValue (c : Bool × Nat) : Int := if c.1 then -((2 ^ c.2 : Nat) : Int) else ((2 ^ c.2 : Nat) : Int)

/-- The elements of a block as sums of their codes, from element `j` and code `n` on; `none` is a NaN element. -/
def telemsFrom (x : Nat) : Nat → Nat → Nat → List (Option Int)
  | 0, _, _ => []
  | k + 1, j, n =>
    let m := tcodes x j
    let v := (List.range m).foldl (fun (a : Int) i => a + codeValue (tcode x (n + i))) 0
    (if tcount x j = 7 then none else some v) :: telemsFrom x k (j + 1) (n + m)

/-- The 32 elements of a block. -/
def telems (x : Nat) : List (Option Int) := telemsFrom x 32 0 0

/-- The checks of a whole block (R144). -/
def tblockOk (f : TFmt) (wide : Bool) (x : Nat) : Bool :=
  theaderOk f wide x &&
  (List.range (ttotal x)).all (fun n => decide ((tcode x n).2 ≤ tmaxShift f)) &&
  (telems x).all fun e => match e with | some v => theld f v | none => true

/-- The bytes of a slot that a block of T terms uses, whole sectors (R143). -/
def tusedBytes (t : Nat) : Nat := ceilDiv (16 + ceilDiv (6 * t) 8) 64 * 64

/-- The non-adjacent form of a number, lowest digit first: (negative, shift) (R142). -/
def nafOf : Nat → Nat → Int → List (Bool × Nat)
  | 0, _, _ => []
  | fuel + 1, k, v =>
    if v = 0 then []
    else if v % 2 = 0 then nafOf fuel (k + 1) (v / 2)
    else
      let d : Int := if v % 4 = 1 then 1 else -1
      (decide (d < 0), k) :: nafOf fuel (k + 1) ((v - d) / 2)

/-- The codes of an element, highest shift first (R141, R142). -/
def nafCodes (v : Int) : List (Bool × Nat) := (nafOf 24 0 v).reverse

/-- Encode 32 elements as a block (R141, R142): the block as a number, and T. -/
def tencode (es : List (Option Int)) (scale : Nat) : Nat × Nat :=
  let codes := es.map fun e => match e with | some v => nafCodes v | none => []
  let counts := es.zipIdx.foldl (fun (a : Nat) e =>
    let n := match e.1 with | some v => (nafCodes v).length | none => 7
    a + n * 2 ^ (3 * e.2)) 0
  let all := codes.flatten
  let body := all.zipIdx.foldl (fun (a : Nat) c => a + ((if c.1.1 then 32 else 0) + c.1.2) * 2 ^ (6 * c.2)) 0
  (counts + scale % 256 * 2 ^ 96 + all.length % 256 * 2 ^ 104 + body * 2 ^ 128, all.length)

/-- Whether a load type reads the elements of a format (R138). -/
def tmatches (fmt : Nat) (t : Ty) : Bool :=
  match fmt with
  | 1 => t == .i8 | 2 => t == .i4 | 3 => t == .i8 | 4 => t == .e4m3 | 5 => t == .n8 | 6 => t == .i4 | _ => false

end Sys2Proof.Machine
end

