-- ==== Sys2Proof/Machine/Access.lean ====
section
/-! DEFINITION. One access of a lane to global memory: where its address lies, the checks of R133 in their order, and
what a lane reads and writes there (R12-R14, R128, R133, R138-R140, R146, R153, R265). -/

namespace Sys2Proof.Machine

/-- Bytes of an element of a type. -/
def tyBytes (t : Ty) : Nat := tyWidth t / 8

/-- Bytes that an access of a lane covers (R319). -/
def accBytes (o : MOp) : Nat := if o.e then tyBytes o.ty else 8 * (o.n.val + 1)

/-- The parts of a lane's access, each within one page: the element, or one for each register (R265). -/
def accParts (o : MOp) : Nat := if o.e then 1 else o.n.val + 1

/-- Bytes of a part. -/
def partBytes (o : MOp) : Nat := if o.e then tyBytes o.ty else 8

/-- The displacement of a memory operand, sign-extended (R265). -/
def dispOf (o : MOp) : Word :=
  match o.disp with
  | .short i => i.signExtend 64
  | .long i => i.signExtend 64

/-- size(T) in the offset of R265: one byte for two elements of i4 (R268). -/
def offScale (t : Ty) : Nat := tySize t

/-- The address of a lane (R265). -/
def laneAddr (w : Warp) (o : MOp) (l : Fin 32) : Word :=
  let off : Word := if o.oe then ((vreg w o.off l).setWidth 32).signExtend 64 * BitVec.ofNat 64 (offScale o.ty) else 0
  sreg w o.base + off + dispOf o

/-- The address of a part of a lane's access. -/
def partAddr (w : Warp) (o : MOp) (l : Fin 32) (j : Nat) : Word := laneAddr w o l + BitVec.ofNat 64 (8 * j)

/-- Alignment of a lane's access (R265). -/
def alignedAt (w : Warp) (o : MOp) (l : Fin 32) (p : Spot) : Look :=
  if (laneAddr w o l).toNat % partBytes o ≠ 0 then .bad { faultOf 8 with va := laneAddr w o l } else .ok p

/-- Whether an address has passed what it was checked for. -/
def Look.isOk : Look → Bool
  | .ok _ => true
  | _ => false

/-- The parts of a lane's access under further checks, one after the other: each is made once every part has passed the one before
(R133). -/
def stagesOf : List (Spot → Look) → List Look → List Look
  | [], xs => xs
  | f :: r, xs => if xs.all Look.isOk then stagesOf r (xs.map fun x => x.then_ f) else xs

/-- What the active lanes' looks come to: pages to walk, a crossing to wait for, the lowest faulting lane's fault, or the spots, lane
after lane and part after part. -/
inductive Verdict where
  | missing (pages : List Nat)
  | stalled
  | faulty (f : FaultInfo)
  | fine (ps : List (Fin 32 × Spot))

/-- The fault of the lowest lane that has one, with every faulting lane (R245). -/
def lowestOf : List (Fin 32 × FaultInfo) → Option FaultInfo
  | [] => none
  | (l, f) :: r => some { f with lanes := ((l, f) :: r).foldl (fun (m : Mask) b => m ||| BitVec.ofNat 32 (2 ^ b.1.val)) 0 }

/-- The verdict over the parts of some lanes (R136, R245). -/
def verdict (parts : Nat) (lanes : List (Fin 32)) (look : Fin 32 → Nat → Look) (stages : Fin 32 → List (Spot → Look)) : Verdict :=
  let xs := lanes.flatMap fun l =>
    (stagesOf (stages l) ((List.range parts).map fun j => (look l j).then_ fun p => .ok { p with part := j })).map fun x => (l, x)
  let pages := xs.filterMap fun x => match x.2 with | .miss p => some p | _ => none
  if !pages.isEmpty then .missing pages
  else if xs.any fun x => match x.2 with | .stall => true | _ => false then .stalled
  else
    match lowestOf (xs.filterMap fun x => match x.2 with | .bad f => some (x.1, f) | _ => none) with
    | some f => .faulty f
    | none => .fine (xs.filterMap fun x => match x.2 with | .ok p => some (x.1, p) | _ => none)

/-- Ask walkers for pages, and wait. -/
def askAll (s : State) (c : Iss) (pages : List Nat) : Effect :=
  .wait (pages.foldl (fun s p => askWalk s c.w.core c.w.id c.sp c.w.ctx p) s)

/-- Check the lanes of an instruction, and go on with the spots of the lanes. -/
def withSpots (s : State) (c : Iss) (parts : Nat) (lanes : List (Fin 32)) (look : Fin 32 → Nat → Look)
    (stages : Fin 32 → List (Spot → Look)) (k : List (Fin 32 × Spot) → Effect) : Effect :=
  match verdict parts lanes look stages with
  | .missing ps => askAll s c ps
  | .stalled => .wait s
  | .faulty f => .fault f
  | .fine ps => k ps

/-- Set D, and mark the dirty bitmap, for every page that a store's lanes write (R65, R134). Where an entry has changed
since it was cached, the cached copy is dropped and the instruction starts again. A write that cannot be marked is not made. -/
def dirtyAll (s : State) (c : Iss) (ps : List (Fin 32 × Spot)) (k : State → Effect) : Effect :=
  let d := coreDie c.w.core
  let unmarked := ps.filterMap fun p => (markFault s d c.w.ctx p.2.e p.2.pa).map fun k => (p.1, markFaultAt k p.2)
  if walkStalled s c.w.ctx then .wait s
  else
  match lowestOf unmarked with
  | some f => .fault f
  | none =>
    let r := ps.foldl (fun (a : State × Bool) p =>
      if a.2 then a
      else
        match translate a.1 c.w.core c.w.ctx p.2.va with
        | .ok _ e =>
          (match setDirty a.1 (some c.w.core) d c.w.ctx e p.2.pa with
            | some s => (s, false)
            | none => (tlbForget a.1 (some c.w.core) d c.w.ctx p.2.va.toNat, true))
        | _ => (a.1, true)) (s, false)
    if r.2 then .wait r.1 else k r.1

/-- The widest scope of some spots (R166). -/
def widestOf (ps : List (Fin 32 × Spot)) : Scope :=
  let n := ps.foldl (fun m p => max m (scopeCode p.2.scope)) 0
  (scopeOfCode n).getD .core

/-- The way of a core's access: through its L1, or at the home slice, reading or writing there. -/
def coreWay (core : Fin 384) (home wr : Bool) : Way := { core := some core, home := home, wr := wr, posted := false }

/-! ### Decoded loads (R138, R139) -/

/-- Whether a load of a type on a page is a decoded one. -/
def decodes (t : Ty) (p : Spot) : Bool := pteFmt p.e.pte != 0 && t != .b64

/-- The first element of the page's element space that a lane's access names (R139). -/
def firstElem (t : Ty) (p : Spot) : Nat :=
  let off := p.va.toNat - p.e.base
  if t = .i4 then 2 * off else off / tyBytes t

/-- How many elements a part names. -/
def elemCount (o : MOp) : Nat := if o.e then 1 else 64 / tyWidth o.ty

/-- Whether a page holds wide slots. -/
def wideSlots (p : Spot) : Bool := pteClass p.e.pte == 1

/-- Elements that a page holds (R139). -/
def pageElems (p : Spot) : Nat := p.e.size / slotBytes (wideSlots p) * 32

/-- The format check of a load (R133 step 4, R138, R139). The first part answers for all that follow it. -/
def loadFormat (o : MOp) (p : Spot) : Look :=
  if pteFmt p.e.pte = 0 || o.ty == .b64 then .ok p
  else if !tmatches (pteFmt p.e.pte) o.ty
      || decide (pageElems p < firstElem o.ty p + elemCount o * (accParts o - p.part)) then faultAt 6 p
  else .ok p

/-- The blocks that a part of a decoded load reads. -/
def blocksOf (o : MOp) (p : Spot) : List Nat :=
  let e := firstElem o.ty p
  let n := elemCount o
  (List.range ((e + n - 1) / 32 - e / 32 + 1)).map fun k => e / 32 + k

/-- The physical address of a block's slot. -/
def slotPa (p : Spot) (b : Nat) : Nat := p.pa - (p.va.toNat - p.e.base) + b * slotBytes (wideSlots p)

/-- The format of a term page. -/
def spotFmt (p : Spot) : TFmt := (tfmtOfNum (pteFmt p.e.pte)).getD .int8

/-- A block as a core would read it now: the sectors that it uses (R143). -/
def peekBlock (s : State) (core : Fin 384) (home : Bool) (p : Spot) (b : Nat) : Nat :=
  let sec := slotPa p b / 64
  let x := (peekSector s core home (wideSlots p) sec).toNat
  if 64 < min (tusedBytes (ttotal x)) (slotBytes (wideSlots p)) then x + 2 ^ 512 * (peekSector s core home (wideSlots p) (sec + 1)).toNat
  else x

/-- The sectors that a block of a spot uses now. -/
def blockSectors (s : State) (core : Fin 384) (home : Bool) (p : Spot) (b : Nat) : List Nat :=
  let sec := slotPa p b / 64
  let x := (peekSector s core home (wideSlots p) sec).toNat
  if 64 < min (tusedBytes (ttotal x)) (slotBytes (wideSlots p)) then [sec, sec + 1] else [sec]

/-- The sectors of package memory that a part of a load reads. -/
def readSectors (s : State) (core : Fin 384) (home : Bool) (o : MOp) (p : Spot) : List Nat :=
  if decodes o.ty p then (blocksOf o p).flatMap (blockSectors s core home p) else [p.pa / 64]

/-- The checks of the blocks that a part of a decoded load reads (R139, R144): of the bytes that it would be given. -/
def blockLook (s : State) (core : Fin 384) (home : Bool) (o : MOp) (p : Spot) : Look :=
  if decodes o.ty p then
    match (blocksOf o p).find? fun b => !tblockOk (spotFmt p) (wideSlots p) (peekBlock s core home p b) with
    | some b => .bad { faultOf 0xA with va := BitVec.ofNat 64 (p.e.base + b * slotBytes (wideSlots p)) }
    | none => .ok p
  else .ok p

/-- What a part of a load meets once R133 has passed: its way, data in error, and its blocks. -/
def fetchable (s : State) (core : Fin 384) (home : Bool) (o : MOp) (p : Spot) : Look :=
  let y := coreWay core home false
  if decodes o.ty p then
    ((reachLook s (coreDie core) y (readSectors s core home o p) p).then_ fun p =>
      eccLook s (coreDie core) y ((readSectors s core home o p).map fun sec => (sec * 64, 64)) p).then_ (blockLook s core home o)
  else readLook s (coreDie core) y (partBytes o) p

/-- Every check of a load after its translation (R133). `home` tells whether a spot is read at its home slice. -/
def loadStages (s : State) (w : Warp) (o : MOp) (home : Spot → Bool) (l : Fin 32) : List (Spot → Look) :=
  [loadFormat o, alignedAt w o l, fun p => fetchable s w.core (home p) o p]

/-- The translation of a part of a lane's access for a read. -/
def loadLook (s : State) (w : Warp) (o : MOp) (l : Fin 32) (j : Nat) : Look := locate s w.core w.ctx (partAddr w o l j) false

/-- A single element extended as R320 says: signed for i types, zero for the rest. -/
def extendElem (t : Ty) (x : Nat) : Word :=
  if tyInteger t && tySigned t && t != .b64 then wordOfInt (signedOf (tyWidth t) x) else BitVec.ofNat 64 (x % 2 ^ tyWidth t)

/-- The 8-byte parts of a number. -/
def partsOf (n x : Nat) : List Word := (List.range n).map fun j => BitVec.ofNat 64 (x >>> (64 * j))

/-- The elements of a part of a decoded load, as bits of their format. -/
def decodeElems (s : State) (core : Fin 384) (home : Bool) (o : MOp) (p : Spot) : List Nat :=
  let es := (blocksOf o p).flatMap fun b => telems (peekBlock s core home p b)
  ((es.drop (firstElem o.ty p % 32)).take (elemCount o)).map (telemBits (spotFmt p))

/-- What a part of a lane's load puts in its register (R138, R320), read now in this package. -/
def partLoaded (s : State) (core : Fin 384) (home : Bool) (o : MOp) (q : Acc) (p : Spot) (a : Nat) : Word :=
  if decodes o.ty p then
    let es := decodeElems s core home o p
    if o.e then extendElem o.ty (es.getD 0 0) else BitVec.ofNat 64 (joinSubs (tyWidth o.ty) es)
  else
    let x := peekBytes s core home q p a (partBytes o)
    if o.e then extendElem o.ty x else BitVec.ofNat 64 x

/-- The caches after some parts of an instruction's lanes have been read, each sector once (R146-R150). -/
def touchParts (s : State) (c : Iss) (o : MOp) (home : Spot → Bool) (ps : List (Fin 32 × Spot)) : State :=
  let r := ps.foldl (fun (a : List Nat × State) x =>
    let p := x.2
    match localPa s c.w.core p with
    | none => a
    | some pa =>
      if p.kind = .package then
        ((readSectors s c.w.core (home p) o p).filter fun sec => !a.1.contains sec).foldl (fun a sec =>
          (sec :: a.1, touchSector a.2 c.w.core (accOf s c.w.ctx o.h p) (home p) sec)) a
      else if a.1.contains (pa / 64) then a
      else (pa / 64 :: a.1, windowTouch a.2 (coreDie c.w.core) pa 1)) ([], s)
  r.2

/-! ### Scratch (R128, R324) -/

/-- Bytes of scratch of a warp's unit; `none` in a job or fault-service warp. -/
def scratchSize (s : State) (w : Warp) : Option (UnitSt × Nat) :=
  match unitOf s w with
  | some u => (match launchOf s u with | some l => some (u, l.r.scrk * 1024) | none => none)
  | none => none

/-- The fault of a scratch access of a lane (R128, R133): bounds, then alignment. -/
def scratchFault (size off bytes align : Nat) : Option FaultInfo :=
  if size < off + bytes then some { faultOf 9 with va := BitVec.ofNat 64 off }
  else if off % align ≠ 0 then some { faultOf 8 with va := BitVec.ofNat 64 off }
  else none

/-- The scratch offset of a lane. -/
def laneOffset (w : Warp) (o : MOp) (l : Fin 32) : Nat := (laneAddr w o l).toNat % 2 ^ 32

/-- Check the active lanes of a scratch form, and go on with the unit. -/
def withScratch (s : State) (c : Iss) (o : MOp) (k : UnitSt → Effect) : Effect :=
  let size := match scratchSize s c.w with | some (_, n) => n | none => 0
  let bads := c.act.lanes.filterMap fun l =>
    (scratchFault size (laneOffset c.w o l) (accBytes o) (partBytes o)).map fun f => (l, f)
  match bads, scratchSize s c.w with
  | (_, f) :: _, _ => .fault { f with lanes := bads.foldl (fun (m : Mask) b => m ||| BitVec.ofNat 32 (2 ^ b.1.val)) 0 }
  | [], some (u, _) => k u
  | [], none => .fault (faultOf 9)

end Sys2Proof.Machine
end

