-- ==== Sys2Proof/Machine/Memory.lean ====
section
/-! DEFINITION. The memory groups OP 0x10 to 0x15 (R318-R328): loads, stores, atomics, prefetch and `waitv`. `fence`
and `l1flush` stand with the ordering steps. -/

namespace Sys2Proof.Machine

/-- The data registers of a memory instruction. -/
def dataRegs (o : MOp) : List (Fin 256) := (List.range (o.n.val + 1)).map fun j => Fin.ofNat 256 (o.data.val + j)

/-- The link access of a part of a lane's access. -/
def laneLink (c : Iss) (o : MOp) (kind : LinkKind) (l : Fin 32) (p : Spot) : LinkOp :=
  { spotLink c.w.ctx kind c.w.id l p (partBytes o) with reg := p.part }

/-- Whether a spot is reached over a link. -/
def isFar (s : State) (c : Iss) (p : Spot) : Bool := (localPa s c.w.core p).isNone

/-- Carry out the link accesses of the lanes that need them, and go on with what they returned (R35): the split waits
at the instruction until every completion has come. -/
def overLinks (s : State) (c : Iss) (parts : Nat) (ls : List LinkOp) (k : State → Option Result → Effect) : Effect :=
  if ls.isEmpty then k s none
  else
    match linkedOf s c with
    | .none => .wait (startLinks s c parts ls)
    | .wait => .wait s
    | .bad f => .fault { faultOf f.cause with va := f.va, lanes := f.lanes }
    | .got r => k (dropLinkResult s c) (some r)

/-- Whether a load with or without acquire reads a spot at its home slice (R166, R321). -/
def atHome (acq : Bool) (p : Spot) : Bool := acq && p.scope != .core

/-- The values that the lanes of a load receive, part after part. Every lane that reads a location of this package receives what it
holds now (R158). -/
def loadLanes (s : State) (c : Iss) (o : MOp) (acq : Bool) (r : Option Result) (ps : List (Fin 32 × Spot)) : List (Fin 32 × Word) :=
  ps.filterMap fun x =>
    let p := x.2
    match localPa s c.w.core p, r with
    | some pa, _ => some (x.1, partLoaded s c.w.core (atHome acq p) o (accOf s c.w.ctx o.h p) p pa)
    | none, some r =>
      let v := resultPart r p.part x.1
      some (x.1, if o.e then extendElem o.ty v.toNat else v)
    | none, none => none

/-- The values of a lane among those of all lanes, part after part. -/
def laneVals (vs : List (Fin 32 × Word)) (l : Fin 32) : List Word := (vs.filter fun v => v.1 == l).map (·.2)

/-- The register values of a result, from the lanes' parts. -/
def regsOf (regs : List (Fin 256)) (vs : List (Fin 32 × Word)) : List (Fin 256 × Lanes Word) :=
  regs.zipIdx.map fun rg => (rg.1, tabulate 32 fun l => (laneVals vs l).getD rg.2 0)

/-- A load's values are on their way to its registers (R123). -/
def sendRegs (s : State) (c : Iss) (regs : List (Fin 256)) (vs : List (Fin 32 × Word)) : State :=
  let s := addResult s { result0 c .load with vw := regsOf regs vs }
  modWarp s c.w.id fun w => regs.foldl pendV w

/-- Whether a split may begin an instruction that acts as an acquire: the warp's other link reads have returned. -/
def readsBack (s : State) (c : Iss) : Bool := (linkResultOf s c).isSome || !s.links.any (linkReadOf c.w.id)

/-- The acquire at the end of `ld.acq` and `waitv`, at the widest scope of the lanes' pages (R166). -/
def acquireWidest (s : State) (c : Iss) (ps : List (Fin 32 × Spot)) : State :=
  if widestOf ps = .core then s else l1DropClean s c.w.core wideLine

/-- `ld` and `ld.acq` (R320, R321). -/
def loadEffect (o : MOp) (acq : Bool) (s : State) (c : Iss) : Effect :=
  if c.act = 0 then .next s
  else
    withSpots s c (accParts o) c.act.lanes (loadLook s c.w o) (loadStages s c.w o (atHome acq)) fun ps =>
      if acq && !readsBack s c then .wait s
      else
        let far := ps.filter fun p => isFar s c p.2
        overLinks s c (accParts o) (far.map fun p => laneLink c o .read p.1 p.2) fun s r =>
          let vs := loadLanes s c o acq r ps
          let s := touchParts s c o (atHome acq) ps
          let s := if acq then acquireWidest s c ps else s
          .next (sendRegs s c (dataRegs o) vs)

/-- `ld` (R321). -/
def execLd (o : MOp) (s : State) : Host.Outcome State Fault Refusal := issue (.ld o) (loadEffect o false) s

/-- `ld.acq` (R321). -/
def execLdAcq (o : MOp) (s : State) : Host.Outcome State Fault Refusal := issue (.ldAcq o) (loadEffect o true) s

/-- What a lane's scratch load puts in its registers (R320, R324). -/
def scratchLane (u : UnitSt) (o : MOp) (off : Nat) : List Word :=
  let x := readN u.scratch off (accBytes o)
  if o.e then [extendElem o.ty x] else partsOf (o.n.val + 1) x

/-- `ld.sp` (R324). -/
def execLdSp (o : MOp) (s : State) : Host.Outcome State Fault Refusal :=
  issue (.ldSp o) (fun s c =>
    if c.act = 0 then .next s
    else withScratch s c o fun u =>
      .next (sendRegs s c (dataRegs o) (c.act.lanes.flatMap fun l => (scratchLane u o (laneOffset c.w o l)).map fun v => (l, v)))) s

/-- The translation of a scalar load. -/
def scalarLook (s : State) (c : Iss) (o : MOp) : Look := locate s c.w.core c.w.ctx (sreg c.w o.base + dispOf o) false

/-- Every check of a scalar load after its translation (R322): it reads raw bytes on any page. -/
def scalarStages (s : State) (c : Iss) (o : MOp) : List (Spot → Look) :=
  [alignedTo (partBytes o), readLook s (coreDie c.w.core) (coreWay c.w.core false false) (partBytes o)]

/-- What a scalar load reads of a spot, raw, or what its read over a link has brought. -/
def scalarRead (s : State) (c : Iss) (o : MOp) (r : Option Result) (l : Fin 32) (p : Spot) : Nat :=
  match localPa s c.w.core p, r with
  | some pa, _ => peekBytes s c.w.core false (accOf s c.w.ctx o.h p) p pa (partBytes o)
  | none, some r => (resultPart r 0 l).toNat
  | none, none => 0

/-- `ld.s` (R322). A write to `s0` is discarded. -/
def execLdS (o : MOp) (s : State) : Host.Outcome State Fault Refusal :=
  issueWarp (.ldS o) (fun s c =>
    let lane : Fin 32 := (c.act.lowest).getD 0
    withSpots s c 1 [lane] (fun _ _ => scalarLook s c o) (fun _ => scalarStages s c o) fun ps =>
      let far := ps.filter fun p => isFar s c p.2
      overLinks s c 1 (far.map fun p => laneLink c o .read p.1 p.2) fun s r =>
        match ps with
        | [] => .next s
        | (l, p) :: _ =>
          let x := scalarRead s c o r l p
          let v := if o.e then extendElem o.ty x else BitVec.ofNat 64 x
          let s := touchParts s c { o with ty := .b64 } (fun _ => false) ps
          let d : Fin 128 := Fin.ofNat 128 o.data.val
          let s := addResult s { result0 c .load with sw := some (d, v) }
          .next (modWarp s c.w.id fun w => pendS w d)) s

/-! ### Stores -/

/-- The translation of a part of a store or an atomic. -/
def storeLook (s : State) (w : Warp) (o : MOp) (l : Fin 32) (j : Nat) : Look := locate s w.core w.ctx (partAddr w o l j) true

/-- The format check of a write (R133, R138): a term page takes cause 0x0007. -/
def plainPage (p : Spot) : Look := if pteFmt p.e.pte = 0 then .ok p else faultAt 7 p

/-- Whether a store is performed at its home slice (R147, R166, R323): a bypass, or an `st.rel` on a page of scope die or wider. -/
def storeHome (o : MOp) (rel : Bool) (p : Spot) : Bool := o.h == 3 || (rel && p.scope != .core)

/-- Every check of a store after its translation (R133), and the reach of its write. A write on the host link is posted (R42). -/
def storeStages (s : State) (w : Warp) (o : MOp) (rel : Bool) (l : Fin 32) : List (Spot → Look) :=
  [plainPage, alignedAt w o l, fun p =>
    let home := storeHome o rel p
    writeLook s (coreDie w.core) { coreWay w.core home home with posted := true } p]

/-- The number whose low bytes a lane's store writes (R323). -/
def storeValue (w : Warp) (o : MOp) (l : Fin 32) : Nat :=
  if o.e then (vreg w o.data l).toNat % 2 ^ tyWidth o.ty
  else joinSubs 64 ((dataRegs o).map fun r => (vreg w r l).toNat)

/-- What a part of a lane's store writes. -/
def partValue (w : Warp) (o : MOp) (l : Fin 32) (j : Nat) : Nat := (storeValue w o l >>> (64 * j)) % 2 ^ (8 * partBytes o)

/-- Perform a part of a lane's store: into L1, at the home slice where `rel` says so or in a window of this package, or
over a link (R323). -/
def storePart (s : State) (c : Iss) (o : MOp) (rel : Bool) (l : Fin 32) (p : Spot) : State :=
  let n := partBytes o
  let x := partValue c.w o l p.part
  let q := accOf s c.w.ctx o.h p
  let d := coreDie c.w.core
  match localPa s c.w.core p with
  | some pa =>
    if p.kind == .package && !(rel && p.scope != .core) then l1Write s c.w.core q (n + 1) pa n x
    else
      let s := writeHome s d q p false pa n x
      if p.kind == .package then l1Refresh s c.w.core pa n x else s
  | none => (sendLink s d { laneLink c o .write l p with x := BitVec.ofNat 64 x }).2

/-- `st` and `st.rel` (R323). -/
def storeEffect (o : MOp) (rel : Bool) (s : State) (c : Iss) : Effect :=
  if c.act = 0 then .next s
  else
    withSpots s c (accParts o) c.act.lanes (storeLook s c.w o) (storeStages s c.w o rel) fun ps =>
      let go := fun (s : State) =>
        dirtyAll s c ps fun s => .next (ps.foldl (fun s p => storePart s c o rel p.1 p.2) s)
      if rel then (releaseAt s c.w (widestOf ps)).andThen go else go s

/-- `st` (R323). -/
def execSt (o : MOp) (s : State) : Host.Outcome State Fault Refusal := issue (.st o) (storeEffect o false) s

/-- `st.rel` (R323). -/
def execStRel (o : MOp) (s : State) : Host.Outcome State Fault Refusal := issue (.stRel o) (storeEffect o true) s

/-- `st.sp` (R324): the lanes in ascending order. -/
def execStSp (o : MOp) (s : State) : Host.Outcome State Fault Refusal :=
  issue (.stSp o) (fun s c =>
    if c.act = 0 then .next s
    else withScratch s c o fun u =>
      .next (modUnit s u.id fun y => { y with
        scratch := c.act.lanes.foldl
          (fun m l => writeN m (laneOffset c.w o l) (accBytes o) (storeValue c.w o l)) y.scratch })) s

/-! ### Atomics -/

/-- The operands of a lane's atomic: x, and y of a `cas` (R325). -/
def atomArgs (op : AtomOp) (w : Warp) (o : MOp) (l : Fin 32) : Nat × Nat :=
  let m := 2 ^ tyWidth o.ty
  ((vreg w o.data l).toNat % m,
   if op = .cas then (vreg w (Fin.ofNat 256 (o.data.val + 1)) l).toNat % m else 0)

/-- Whether an atomic is performed in the core's L1 (R152). -/
def atomInL1 (p : Spot) : Bool := p.kind == .package && p.scope == .core

/-- What an atomic at a home slice meets: its line is recalled there first (R150, R151). -/
def recallLook (s : State) (d : Fin 2) (p : Spot) : Look := if p.kind = .package then crossLook s d (dieOf p.pa) p else .ok p

/-- Every check of an atomic after its translation (R133), its reach, and the data that it reads. -/
def atomStages (s : State) (w : Warp) (o : MOp) (l : Fin 32) : List (Spot → Look) :=
  let d := coreDie w.core
  [plainPage, alignedAt w o l, fun p =>
    if atomInL1 p then readLook s d (coreWay w.core false false) (tyBytes o.ty) p
    else
      let y := coreWay w.core true true
      ((reachLook s d y [p.pa / 64] p).then_ (recallLook s d)).then_ fun p =>
        match localPaOf s d p with
        | some a => eccLook s d { y with core := none } [(a, tyBytes o.ty)] p
        | none => .ok p]

/-- One read-modify-write of a lane at a local place (R151, R152): the old value. -/
def atomLane (s : State) (c : Iss) (op : AtomOp) (o : MOp) (l : Fin 32) (p : Spot) (pa : Nat) : Nat × State :=
  let n := tyBytes o.ty
  let q := accOf s c.w.ctx o.h p
  let (x, y) := atomArgs op c.w o l
  if atomInL1 p then
    let (old, s) := l1Read s c.w.core q (n + 1) pa n
    (old, l1Write s c.w.core q (n + 1) pa n (atomNew op o.ty old x y))
  else
    let old := readN s.mem pa n
    (old, writeHome s (coreDie c.w.core) q p true pa n (atomNew op o.ty old x y))

/-- The link access of a lane's atomic. -/
def atomLink (c : Iss) (op : AtomOp) (o : MOp) (l : Fin 32) (p : Spot) : LinkOp :=
  let (x, y) := atomArgs op c.w o l
  { spotLink c.w.ctx .atomic c.w.id l p (tyBytes o.ty) with
    op := op, ty := o.ty, x := BitVec.ofNat 64 x, y := BitVec.ofNat 64 y }

/-- The old values that the lanes of an atomic find in this package, in ascending lane order. -/
def atomLanes (s : State) (c : Iss) (op : AtomOp) (o : MOp) (ps : List (Fin 32 × Spot)) : List (Fin 32 × Word) × State :=
  ps.foldl (fun (a : List (Fin 32 × Word) × State) x =>
    match localPa a.2 c.w.core x.2 with
    | some pa =>
      let (old, s) := atomLane a.2 c op o x.1 x.2 pa
      (a.1 ++ [(x.1, BitVec.ofNat 64 old)], s)
    | none => a) ([], s)

/-- Send the lanes of an atomic that go over a link, of which the first part of a result collects the old values (R35); the second part
notes them, so that none is performed twice. -/
def startAtoms (s : State) (c : Iss) (back : Option Result) (far : List LinkOp) : State :=
  let (id, s) := match back with
    | some r => (r.id, s)
    | none => (s.serial, addResult s { result0 c .link with vw := [(0, always 32 0), (0, always 32 0)] })
  let (tags, s) := far.foldl (fun (a : List Nat × State) l =>
    let (t, s) := sendLink a.2 (coreDie c.w.core) { l with result := some id }
    (a.1 ++ [t], s)) ([], s)
  modResult s id fun r => far.foldl (fun r l => fillResult r 1 l.lane 1) { r with tags := tags }

/-- The lanes of an atomic that have come back over a link, with their old values. -/
def backLanes (c : Iss) (back : Option Result) : List (Fin 32 × Word) :=
  match back with
  | some r => (c.act.lanes.filter fun l => resultPart r 1 l != 0).map fun l => (l, resultPart r 0 l)
  | none => []

/-- The old values of an atomic's lanes are on their way to its register. -/
def sendOld (s : State) (c : Iss) (o : MOp) (vs : List (Fin 32 × Word)) : Effect :=
  .next (sendRegs s c [o.data] (vs.map fun v => (v.1, extendElem o.ty v.2.toNat)))

/-- The lanes of an atomic that have not come back over a link: once all are checked, those that go over one are sent, and once none is
left, the others are performed together (R124, log 36). -/
def atomRest (op : AtomOp) (o : MOp) (s : State) (c : Iss) (back : Option Result) : Effect :=
  let had := backLanes c back
  let rest := c.act.lanes.filter fun l => !(had.any fun x => x.1 == l)
  withSpots s c 1 rest (storeLook s c.w o) (atomStages s c.w o) fun ps =>
    dirtyAll s c ps fun s =>
      let far := (ps.filter fun p => isFar s c p.2).map fun p => atomLink c op o p.1 p.2
      if far.isEmpty then
        let (vs, s) := atomLanes s c op o ps
        sendOld (dropLinkResult s c) c o (had ++ vs)
      else .wait (startAtoms s c back far)

/-- `atom` (R325, R326). -/
def execAtom (op : AtomOp) (o : MOp) (s : State) : Host.Outcome State Fault Refusal :=
  issue (.atom op o) (fun s c =>
    if c.act = 0 then .next s
    else
      match linkedOf s c with
      | .wait => .wait s
      | .bad f => .fault { faultOf f.cause with va := f.va, lanes := f.lanes }
      | .got r => atomRest op o s c (some r)
      | .none => atomRest op o s c none) s

/-- `red` (R325, R326). Its warp goes on at once, so that a failure over a link is reported as a write's is, at the next release or
`exit` (R35, which names loads, atomics and writes; log 65). -/
def execRed (op : AtomOp) (o : MOp) (s : State) : Host.Outcome State Fault Refusal :=
  issue (.red op o) (fun s c =>
    if c.act = 0 then .next s
    else
      withSpots s c 1 c.act.lanes (storeLook s c.w o) (atomStages s c.w o) fun ps =>
        dirtyAll s c ps fun s =>
          .next (ps.foldl (fun s p =>
            match localPa s c.w.core p.2 with
            | some pa => (atomLane s c op o p.1 p.2 pa).2
            | none => (sendLink s (coreDie c.w.core) (atomLink c op o p.1 p.2)).2) s)) s

/-- `atom.sp` (R325, R326): the lanes in ascending order, together. -/
def execAtomSp (op : AtomOp) (o : MOp) (s : State) : Host.Outcome State Fault Refusal :=
  issue (.atomSp op o) (fun s c =>
    if c.act = 0 then .next s
    else withScratch s c o fun u =>
      let r := c.act.lanes.foldl (fun (a : List (Fin 32 × Word) × Memory) l =>
        let off := laneOffset c.w o l
        let old := readN a.2 off (tyBytes o.ty)
        let (x, y) := atomArgs op c.w o l
        (a.1 ++ [(l, extendElem o.ty old)], writeN a.2 off (tyBytes o.ty) (atomNew op o.ty old x y))) ([], u.scratch)
      let s := modUnit s u.id fun y => { y with scratch := r.2 }
      .next (sendRegs s c [o.data] r.1)) s

/-! ### Prefetch and monitor wait -/

/-- Every check of a prefetching lane (R133, R327): a type that a term page does not serve fails as a load's would. -/
def prefetchLook (s : State) (c : Iss) (o : MOp) (l : Fin 32) : Look :=
  let d := coreDie c.w.core
  let y := if o.h = 3 then { coreWay c.w.core true false with core := none } else coreWay c.w.core false false
  (((locate s c.w.core c.w.ctx (laneAddr c.w o l) false).then_ (loadFormat o)).then_ (alignedTo (tyBytes o.ty))).then_ fun p =>
    if p.kind = .package then reachLook s d y (readSectors s c.w.core false o p) p else faultAt 3 p

/-- Bring the sector of a lane's address close to the core, where its checks pass (R327). -/
def prefetchLane (s : State) (c : Iss) (o : MOp) (l : Fin 32) : State :=
  match prefetchLook s c o l with
  | .ok p =>
    let q := accOf s c.w.ctx o.h p
    (readSectors s c.w.core false o p).foldl (fun s sec =>
      if o.h = 3 then (l2Read s (coreDie c.w.core) sec q).2 else l1Fill s c.w.core sec q) s
  | _ => s

/-- `prefetch` (R327). A lane that misses the TLBs has its page walked first. -/
def execPrefetch (o : MOp) (s : State) : Host.Outcome State Fault Refusal :=
  issue (.prefetch o) (fun s c =>
    let pages := c.act.lanes.filterMap fun l =>
      match locate s c.w.core c.w.ctx (laneAddr c.w o l) false with | .miss p => some p | _ => none
    if pages.isEmpty then
      .next (c.act.lanes.foldl (fun s l => prefetchLane s c o l) s)
    else askAll s c pages) s

/-- The translation of a lane's `waitv`. -/
def waitLook (s : State) (w : Warp) (o : MOp) (l : Fin 32) (_ : Nat) : Look := locate s w.core w.ctx (laneAddr w o l) false

/-- Every check of `waitv` after its translation (R328): a term page takes cause 0x0006 whatever T says. -/
def waitStages (s : State) (w : Warp) (o : MOp) (_ : Fin 32) : List (Spot → Look) :=
  [fun p => if pteFmt p.e.pte = 0 then .ok p else faultAt 6 p, alignedTo (tyBytes o.ty), fun p =>
    readLook s (coreDie w.core) (coreWay w.core (atHome true p) false) (tyBytes o.ty) p]

/-- Whether a read made every `n` cycles is due, the last one being noted as its cycle plus one, or zero. -/
def rereadDue (s : State) (n last : Nat) : Bool := last == 0 || decide (last + n ≤ s.now + 1)

/-- The values that the lanes of a `waitv` read last (R328): now at their home slice or through L1, and over a link what has just come back,
or else what the lane still waits at. -/
def waitVals (s : State) (c : Iss) (o : MOp) (r : Option Result) (ps : List (Fin 32 × Spot)) : List (Fin 32 × Word) :=
  loadLanes s c o true r ps ++
    (if r.isSome then [] else
      (ps.filter fun p => isFar s c p.2).map fun p => (p.1, extendElem o.ty ((vreg c.w o.data p.1).toNat % 2 ^ tyWidth o.ty)))

/-- A `waitv` compares what its lanes have read (R328): it completes, as an acquire, where one differs, and otherwise waits at a safe point
and notes the cycles of its reads. -/
def waitTry (o : MOp) (s : State) (c : Iss) (r : Option Result) (ps : List (Fin 32 × Spot)) : Effect :=
  let vs := waitVals s c o r ps
  let read := fun (s : State) => touchParts s c o (atHome true) ps
  if vs.all fun v => v.2.toNat % 2 ^ tyWidth o.ty == (vreg c.w o.data v.1).toNat % 2 ^ tyWidth o.ty then
    let due := rereadDue s 1024 c.split.timer
    let s := if r.isSome then dropLinkResult s c else s
    .rest (modWarp (if due then read s else s) c.w.id fun w => modSplit w c.sp fun x => { x with
      timer := if due then s.now + 1 else c.split.timer
      wtimer := if r.isSome then s.now + 1 else c.split.wtimer })
  else
    let s := modWarp (read (dropLinkResult s c)) c.w.id fun w => setV w o.data c.act fun l => (laneVals vs l).getD 0 0
    .next (acquireWidest s c ps)

/-- `waitv` (R328): locations of this package are compared whenever the split tries, and those in a window every 4,096 cycles. While the first
read of a window is outstanding the split cannot complete, for a lane has no value yet; a later one holds nothing up. -/
def execWaitv (o : MOp) (s : State) : Host.Outcome State Fault Refusal :=
  issue (.waitv o) (fun s c =>
    if c.act = 0 then .next s
    else
      withSpots s c 1 c.act.lanes (waitLook s c.w o) (waitStages s c.w o) fun ps =>
        let far := ps.filter fun p => isFar s c p.2
        match linkedOf s c with
        | .bad f => .fault { faultOf f.cause with va := f.va, lanes := f.lanes }
        | .got r => waitTry o s c (some r) ps
        | .wait => if c.split.wtimer = 0 then .rest s else waitTry o s c none ps
        | .none =>
          if !readsBack s c then .wait s
          else if !far.isEmpty && rereadDue s 4096 c.split.wtimer then
            .rest (startLinks s c 1 (far.map fun p => laneLink c o .read p.1 p.2))
          else waitTry o s c none ps) s

end Sys2Proof.Machine
end

