-- ==== Sys2Proof/Machine/Fetch.lean ====
section
/-! DEFINITION. The fetch of an instruction (R12-R14, R131-R133, R256, R258). A word behind a link is read over it, and the
split waits (log 7). -/

namespace Sys2Proof.Machine

/-- The way of a fetch: at the home slice, past L1 (log 7). -/
def fetchWay : Way := { core := none, home := true, wr := false, posted := false }

/-- The page checks of a fetch after its translation (R133): X, then the format; then its reach, and the data it finds (R52). -/
def fetchLook (s : State) (w : Warp) (pc : Word) : Look :=
  (locate s w.core w.ctx pc false).then_ fun p =>
    if !pteX p.e.pte then faultAt 4 p
    else if pteFmt p.e.pte != 0 then faultAt 6 p
    else readLook s (coreDie w.core) fetchWay 8 p

/-- What the fetch of a split has over a link. -/
def fetchResult (s : State) (w : Nat) (sp : Fin 8) (pc : Word) : Option Result :=
  s.results.find? fun r => r.warp == w && r.sp == sp && r.kind == .fetch && r.sw == some (0, pc)

/-- What one word of an instruction comes to: the word, a page to walk, a fault, a link to read over, or a wait. -/
inductive FetchWord where
  | ok (v : Word)
  | miss (page : Nat)
  | stall
  | bad (f : FaultInfo)
  | far (l : LinkOp)
  | wait
  deriving DecidableEq, Repr

/-- Fetch the word `part` (0 or 1) of the instruction at an address. -/
def fetchWord (s : State) (w : Warp) (sp : Fin 8) (pc : Word) (part : Nat) : FetchWord :=
  match fetchLook s w (pc + BitVec.ofNat 64 (8 * part)) with
  | .miss p => .miss p
  | .stall => .stall
  | .bad f => .bad f
  | .ok p =>
    match localPa s w.core p with
    | some pa =>
      .ok (BitVec.ofNat 64
        (if p.kind = .package then sectorBytes (l2Peek s (coreDie w.core) false) 9 pa 8 else readN s.mem pa 8))
    | none =>
      let l := { spotLink w.ctx .read w.id 0 p 8 with reg := part }
      match fetchResult s w.id sp pc with
      | none => .far l
      | some r =>
        if !r.tags.isEmpty then .wait
        else
          match r.bad with
          | some f => .bad { faultOf f.cause with va := f.va }
          | none => if r.vw.length ≤ part then .far l else .ok (resultPart r part 0)

/-- What the fetch of an instruction comes to: an instruction, a first word that begins none, or what stops it. -/
inductive Fetched where
  | ok (i : Instr)
  | illegal (w0 : Word)
  | stop (x : FetchWord)
  deriving DecidableEq, Repr

/-- Decode the words that a fetch has read (R256, R258). -/
def decodeFetched (w0 w1 : Word) : Fetched :=
  match decode w0 w1 with
  | .ok i => .ok i
  | .bad _ => .illegal w0

/-- FETCH the instruction that a split stands at: W0, then W1 where L is 1 (R256, R258). -/
def fetch (s : State) (w : Warp) (sp : Fin 8) (pc : Word) : Fetched :=
  match fetchWord s w sp pc 0 with
  | .ok w0 =>
    if w0.getLsbD 0 then
      match fetchWord s w sp pc 1 with
      | .ok w1 => decodeFetched w0 w1
      | x => .stop x
    else decodeFetched w0 0
  | x => .stop x

/-- The instruction that a split stands at, where its words can be read now. -/
def standsAt (s : State) (w : Warp) (sp : Fin 8) (x : Split) : Option Instr :=
  match fetch s w sp x.pc with
  | .ok i => some i
  | _ => none

/-- Read a word of an instruction over a link: a first word begins a result of its own. -/
def startFetch (s : State) (w : Warp) (sp : Fin 8) (pc : Word) (l : LinkOp) : State :=
  let l := (mergeReads [l]).headD l
  match fetchResult s w.id sp pc with
  | some r =>
    let (t, s) := sendLink s (coreDie w.core) { l with result := some r.id }
    modResult s r.id fun r => { r with vw := r.vw ++ [(0, always 32 0)], tags := [t] }
  | none =>
    let id := s.serial
    let r : Result :=
      { id := 0, kind := .fetch, warp := w.id, sp := sp, due := none, mask := 0
        vw := (List.range (l.reg + 1)).map fun _ => (0, always 32 0), sw := some (0, pc), pw := none
        tags := [], ty := .b64, whole := true, bad := none, holds := false }
    let s := addResult s r
    let (t, s) := sendLink s (coreDie w.core) { l with result := some id }
    modResult s id fun r => { r with tags := [t] }

/-- Forget what a split has fetched over a link. -/
def dropFetch (s : State) (w : Nat) (sp : Fin 8) : State :=
  { s with results := s.results.filter fun r => !(r.warp == w && r.sp == sp && r.kind == .fetch) }

/-- What a failed fetch does (R258): the split waits for its page or its word, or takes the fault. -/
def fetchStop (s : State) (c : Iss) (x : FetchWord) : State :=
  match x with
  | .miss page => conclude s c (.wait (askWalk s c.w.core c.w.id c.sp c.w.ctx page))
  | .far l => conclude s c (.wait (startFetch s c.w c.sp c.split.pc l))
  | .bad f => conclude (dropFetch s c.w.id c.sp) c (.fault f)
  | .ok _ | .wait | .stall => conclude s c (.wait s)

/-- The split of a fetch, before its instruction is known. -/
def issBare (w : Warp) (sp : Fin 8) (x : Split) : Iss :=
  { w := w, sp := sp, split := x, act := 0, next := x.pc + 8 }

/-- The split of a word that is no instruction: its active lanes are those whose guard holds (R257, R258). -/
def issIllegal (w : Warp) (sp : Fin 8) (x : Split) (w0 : Word) : Iss :=
  let g : Guard := { pred := Fin.ofNat 8 (bitsOf w0 8 3), inv := w0.getLsbD 11 }
  { issBare w sp x with act := x.mask &&& guardMask w g }

/-- WAITV_REREAD (R328): 1,024 cycles after the last read, the location of a waiting `waitv` is due to be read again. -/
def execWaitvReread (w : Nat) (sp : Fin 8) (s : State) : Host.Outcome State Fault Refusal :=
  match findWarp s w with
  | none => .next s
  | some x =>
    match x.splits[sp] with
    | none => .next s
    | some y =>
      match standsAt s x sp y with
      | some (.waitv _) =>
        if y.st == .blocked && y.timer != 0 && decide (y.timer + 1024 ≤ s.now + 1) then
          .next (modWarp s w fun z => modSplit z sp fun v => { v with timer := 0 })
        else .next s
      | _ => .next s

end Sys2Proof.Machine
end

