-- ==== Sys2Proof/Machine/Launches.lean ====
section
/-! DEFINITION. The end of units and launches (R71-R74, R78-R80, R92): cancels, readiness, and the steps of R79 once a launch's
counter is zero. -/

namespace Sys2Proof.Machine

/-! ### Engine operations that are cancelled (R73, R221, R337) -/

/-- An accumulator tile whose contents the spec leaves undefined (R73; log 10). -/
def freeTile (n : Nat) : Tile :=
  let x := Config.freeWord [2, n]
  let k := x.toNat % 3
  { slots := (List.range 8192).filterMap fun i =>
      if Config.freeWord [2, n, i] = 0 then none else some (i, Config.freeWord [2, n, i])
    kind := if k = 0 then .empty else if k = 1 then .int else .fp
    cv := x.getLsbD 8, nv := x.getLsbD 9
    ovf := x.getLsbD 10, satf := x.getLsbD 11 }

/-- A v-register that a matrix operation would have written is no longer pending (R123, R354). -/
def dropPending (s : State) (o : MatOp) : State :=
  match o.kind with
  | .fromTile _ _ vr => modWarp s o.warp fun w => clearV w (Fin.ofNat 256 vr)
  | _ => s

/-- Cancel a matrix operation (R73, R221): a running one leaves its tile undefined, one that waits has done nothing, and an `mldw`
keeps what it has written. -/
def cancelMat (s : State) (o : MatOp) : State :=
  let n := s.serial
  let s := dropPending { s with serial := n + 1, mops := s.mops.filter fun y => y.id != o.id } o
  let s := match o.tile with
    | some t => if o.due.isSome then modUnit s o.unit fun u => { u with tiles := u.tiles.set t.val (freeTile n) t.isLt } else s
    | none => s
  endHandle s o.ctx o.handle .cancelled fun e => e

/-- Cancel a pending engine operation as its class allows (R73, R337). A copy stops at its next element, and a maintenance operation
where it stands or, for a `tlbinv`, at its end: they read cancelled then. -/
def cancelOp (s : State) (c : Fin 64) (e : HEntry) : State :=
  let h := handleValue e
  match e.cls with
  | 1 | 6 => modEntry s c h fun y => { y with cancelReq := true }
  | 2 =>
    match s.mops.find? fun o => o.ctx == c && o.handle == h with
    | some o => cancelMat s o
    | none => s
  | 4 => endHandle { s with carves := s.carves.filter fun o => !(o.ctx == c && o.handle == h) } c h .cancelled fun e => e
  | 5 => endHandle s c h .cancelled fun e => e
  | _ => s

/-- Cancel every pending engine operation of an owner (R73). -/
def cancelOps (s : State) (c : Fin 64) (o : Owner) : State :=
  (s.ctxs[c].handles.filter fun e => e.st == .pending && e.owner == o).foldl (fun s e => cancelOp s c e) s

/-! ### Units and launches -/

/-- Cancel a unit that holds a core (R71, R73, R92): its warps' lanes exit, its engine operations are cancelled. -/
def cancelUnit (s : State) (u : UnitSt) : State :=
  let s := dropWarps (cancelOps s u.ctx (.unit u.id)) (inUnit u.id)
  modUnit s u.id fun x => { x with st := .retiring, cancel := true }

/-- Discard a swapped unit with its saved state (R92). -/
def discardUnit (s : State) (u : UnitSt) : State :=
  let s := freeHandles (dropWarps s (inUnit u.id)) u.ctx (.unit u.id)
  { s with
    copies := s.copies.filter fun o => !(o.ctx == u.ctx && o.unit == some u.id)
    mops := s.mops.filter fun o => o.unit != u.id
    units := s.units.filter fun x => x.id != u.id }

/-- Forget the units of a launch, with their warps and mailbox lines (R92, R239). -/
def dropUnits (s : State) (c : Fin 64) (id : Nat) : State :=
  let gone := s.units.filter fun u => u.ctx == c && u.launch == id
  let s := dropWarps s fun w => gone.any fun u => inUnit u.id w
  { s with
    units := s.units.filter fun u => !(u.ctx == c && u.launch == id)
    mails := s.mails.filter fun m => !(m.ctx == c && m.launch == id) }

/-- Whether a launch's counter has reached zero and the steps of R79 are still to do (R72, R79, R80). -/
def launchDue (l : Launch) : Bool :=
  !l.fin && l.retired == l.total && (l.st == .running || l.st == .cancelled || l.st == .ready)

/-- A waiting `evwait` whose mask holds has met its condition, which no later `evclr` takes back (R364). -/
def Split.latch (ev : BitVec 256) (y : Split) : Split :=
  { y with ewait := y.ewait.map fun m => if ev &&& m = m then 0 else m }

/-- Set events of a context (R364). -/
def raiseEvents (s : State) (c : Fin 64) (m : BitVec 256) : State :=
  let ev := s.ctxs[c].ev ||| m
  let s := modCtx s c fun x => { x with ev := ev }
  { s with warps := s.warps.map fun w =>
      if w.ctx == c && onDispatch w then { w with splits := tabulate 8 fun k => w.splits[k].map (Split.latch ev) } else w }

/-- Steps 2 to 4 of R79: SET and ABORT, the handle, and the counters. -/
def finishLaunch (s : State) (c : Fin 64) (id : Nat) : State :=
  match findLaunch s.ctxs[c] id with
  | none => s
  | some l =>
    let s := dropUnits s c id
    let s := raiseEvents (modCtx s c fun x => { x with abort := x.abort || l.cancel }) c l.r.set
    let s := endHandle s c l.handle (if l.cancel then .cancelled else .done) (fun e => e)
    modLaunch s c id fun y => { y with st := if y.cancel then .cancelled else .done, fin := true }

/-- A release of everything that a context has stored, at its widest internal scope: the dirty sectors on every core are written back, and
what follows from the writes has been done (R79, R161, R367). -/
def releaseEverywhere (s : State) (c : Fin 64) : Order :=
  let s := releaseCores s
  match (List.finRange 384).findSome? fun k => l1Lost s k (ownLine c) with
  | some x => .bad (lostFault s x)
  | none =>
    if (List.finRange 384).any fun k => l1Stalled s k (ownLine c) then .wait s
    else if !s.ctxs[c].mode && !acrossDone s c then (if s.bridge.down then .bad (faultOf 0x14) else .wait s)
    else .ok s

/-- Step 1 of R79: the release at the context's widest internal scope on every core, with the domain and system writes (R34, R39). -/
def releaseLaunch (s : State) (c : Fin 64) (l : Launch) : Order :=
  (releaseEverywhere s c).bind fun s => if s.links.any (farWriteOf c) then .wait s else flushAt s c l.age (homeDie s c)

/-- Cancel a launch (R71, R73, R80): undispatched units are dropped, swapped ones discarded, in shadow storage or spilled, and the rest
cancelled. One whose counter has reached zero is left alone. -/
def cancelLaunch (s : State) (c : Fin 64) (id : Nat) : State :=
  match findLaunch s.ctxs[c] id with
  | none => s
  | some l =>
    if (l.st == .held || l.st == .ready || l.st == .running) && !launchDue l then
      let mine := s.units.filter fun u => u.ctx == c && u.launch == id
      let live := mine.filter fun u => u.st == .resident || u.st == .retiring
      let s := live.foldl cancelUnit s
      let s := (mine.filter fun u => u.st == .swapped).foldl discardUnit s
      modLaunch s c id fun y => { y with cancel := true, st := .cancelled, next := y.total, retired := y.total - live.length }
    else s

/-- Held launches whose events and phase allow it become ready (R78). -/
def readyLaunches (s : State) (c : Fin 64) : State :=
  modCtx s c fun x =>
    { x with launches := x.launches.map fun l =>
        if l.st == .held && (x.ev &&& l.r.wait) == l.r.wait && decide (l.r.phase ≤ x.cph) then { l with st := .ready } else l }

/-- Whether the Drover works on a context: it is not frozen by a halt (R100). -/
def droverOn (x : Ctx) : Bool := x.st != .halting && x.st != .halted

/-- Take a launch whose counter is zero through the steps of R79: the state, and whether they are done. The held launches are then
examined again (R78). A release that cannot be made ends the context (R21, R27). -/
def endDue (s : State) (c : Fin 64) (l : Launch) : State × Bool :=
  match releaseLaunch s c l with
  | .ok t => (readyLaunches (finishLaunch t c l.id) c, true)
  | .wait t => (t, false)
  | .bad f => (agentFault s (homeDie s c) c f.cause f.va 0 0, false)

/-- End the launches whose counter is zero, one at a time (R73, R78-R80). -/
def finishDue (s : State) (c : Fin 64) : Nat → State
  | 0 => s
  | fuel + 1 =>
    match s.ctxs[c].launches.find? launchDue with
    | none => s
    | some l =>
      let r := endDue s c l
      if r.2 then finishDue r.1 c fuel else r.1

/-- Re-examine the launches of a context after a change of EV, CPH or a counter (R78, R80). -/
def examine (s : State) (c : Fin 64) : State :=
  if droverOn s.ctxs[c] then finishDue (readyLaunches s c) c 1024 else s

/-- End what has come due of every context's launches, at the end of a cycle. -/
def finishAll (s : State) : State :=
  (List.finRange 64).foldl (fun s c => if s.ctxs[c].launches.any launchDue then examine s c else s) s

end Sys2Proof.Machine
end

