-- ==== Sys2Proof/Machine/CrossLane.lean ====
section
/-! DEFINITION. The cross-lane group OP 0x05 (R304-R310): moves and combinations of register values between lanes. -/

namespace Sys2Proof.Machine

/-- What a form of OP 0x05 reads in a lane, in a position of T (R304). -/
def laneSrc (s : State) (c : Iss) (o : VOp) (a : Src) (l : Fin 32) : Word := srcVal s c o.ty o.imm a l

/-- RUN a cross-lane form: `h` answers the result of each lane and the flags, from all lanes. -/
def runX (i : Instr) (o : VOp) (h : State → Iss → (Fin 32 → Word) × BitVec 16) (s : State) :
    Host.Outcome State Fault Refusal :=
  issue i (fun s c =>
    let r := h s c
    .next (modWarp s c.w.id fun w => setFlags (setV w o.d c.act r.1) r.2)) s

/-- RUN a shuffle (R307): `h` gives the source lane from the lane and its B. -/
def runShuf (i : Instr) (o : VOp) (h : Fin 32 → Word → Nat) (s : State) : Host.Outcome State Fault Refusal :=
  runX i o (fun s c =>
    (fun l => laneSrc s c o o.a (Fin.ofNat 32 (h l (laneSrc s c o o.b l))), 0)) s

/-- `shuf` (R307). -/
def execShuf (o : VOp) (s : State) : Host.Outcome State Fault Refusal :=
  runShuf (.shuf o) o (fun _ b => bitsOf b 0 5) s

/-- `shuf.rot` (R307). -/
def execShufRot (o : VOp) (s : State) : Host.Outcome State Fault Refusal :=
  runShuf (.shufRot o) o (fun l b => (l.val + bitsOf b 0 5) % 32) s

/-- `shuf.bcast` (R307): B as read in the lowest active lane. -/
def execShufBcast (o : VOp) (s : State) : Host.Outcome State Fault Refusal :=
  runX (.shufBcast o) o (fun s c =>
    let b := match c.act.lowest with
      | some l => bitsOf (laneSrc s c o o.b l) 0 5
      | none => 0
    (fun _ => laneSrc s c o o.a (Fin.ofNat 32 b), 0)) s

/-- `shuf.bfly` (R307). -/
def execShufBfly (o : VOp) (s : State) : Host.Outcome State Fault Refusal :=
  runShuf (.shufBfly o) o (fun l b => l.val ^^^ bitsOf b 0 5) s

/-- `shuf.mirror` (R307). -/
def execShufMirror (o : VOp) (s : State) : Host.Outcome State Fault Refusal :=
  runShuf (.shufMirror o) o (fun l b => l.val ^^^ (2 ^ min (bitsOf b 0 3) 5 - 1)) s

/-- The sub-elements of A that B selects (R308). -/
def permSub (t : Ty) (a b : Word) : Word :=
  let w := tyWidth t
  let n := 64 / w
  BitVec.ofNat 64 (joinSubs w ((List.range n).map fun i => bitsOf a ((bitsOf b (i * w) w % n) * w) w))

/-- `vperm.sub` (R308). -/
def execVpermSub (o : VOp) (s : State) : Host.Outcome State Fault Refusal :=
  runX (.vpermSub o) o (fun s c => (fun l => permSub o.ty (laneSrc s c o o.a l) (laneSrc s c o o.b l), 0)) s

/-- The number of the register that a v-register specifier names. -/
def srcReg (a : Src) : Nat := match a with | .v r => r.val | _ => 0

/-- `xsel` (R308): the register of the group that B of the lane names; zero past the group. -/
def execXsel (o : VOp) (cnt : Fin 256) (s : State) : Host.Outcome State Fault Refusal :=
  runX (.xsel o cnt) o (fun s c =>
    (fun l =>
      let q := bitsOf (laneSrc s c o o.b l) 0 8
      if q ≤ cnt.val then vreg c.w (Fin.ofNat 256 (srcReg o.a + q)) l else 0, 0)) s

/-- A step of a scan or reduction on sub-elements (R309): exact for an integer add, rounded by RNE for f32. The
accumulator of an integer add is the exact partial sum. -/
def redStep (op : RedOp) (t : Ty) (acc : Int × BitVec 16) (x : Nat) : Int × BitVec 16 :=
  if tyFloat t then
    let f := fmtOf t
    let r := match op with
      | .min => fMinMax f false acc.1.toNat x
      | .max => fMinMax f true acc.1.toNat x
      | _ => fAdd f .rne false acc.1.toNat x
    (r.1, acc.2 ||| r.2)
  else
    match op with
    | .add => (acc.1 + intOf t x, acc.2)
    | .min => (if intOf t x < acc.1 then intOf t x else acc.1, acc.2)
    | .max => (if acc.1 < intOf t x then intOf t x else acc.1, acc.2)
    | .and => (((lowBits (tyWidth t) acc.1 &&& x : Nat) : Int), acc.2)
    | .or => (((lowBits (tyWidth t) acc.1 ||| x : Nat) : Int), acc.2)
    | .xor => (((lowBits (tyWidth t) acc.1 ^^^ x : Nat) : Int), acc.2)

/-- The first accumulator, the value of the first lane. -/
def redFirst (op : RedOp) (t : Ty) (x : Nat) : Int :=
  if tyFloat t then (x : Int)
  else match op with
    | .add | .min | .max => intOf t x
    | _ => (x : Int)

/-- A lane's result from its accumulator: reduced once (R180, R309). -/
def redOut (t : Ty) (sat : Bool) (v : Int) : Res1 :=
  if tyFloat t then (v.toNat, 0) else reduceInt t sat v

/-- The identity of an op (R309), as the bits of a sub-element. -/
def redIdentity (op : RedOp) (t : Ty) : Nat :=
  let w := tyWidth t
  if tyFloat t then
    match op with
    | .min => infBits (fmtOf t) false
    | .max => infBits (fmtOf t) true
    | _ => 0
  else
    match op with
    | .add | .or | .xor => 0
    | .and => 2 ^ w - 1
    | .min => lowBits w (intMax t)
    | .max => lowBits w (intMin t)

/-- The inclusive accumulators of a list of values. -/
def inclusive (op : RedOp) (t : Ty) : List Nat → List (Int × BitVec 16)
  | [] => []
  | x :: r =>
    (r.foldl (fun (acc : List (Int × BitVec 16)) y =>
      match acc with
      | [] => []
      | a :: _ => redStep op t a y :: acc) [(redFirst op t x, 0)]).reverse

/-- The results of a scan or a reduction over the active lanes, for one sub-element position (R309). -/
def combineSubs (op : RedOp) (t : Ty) (sat excl all : Bool) (xs : List Nat) : List Res1 :=
  let accs := inclusive op t xs
  let steps := match accs.getLast? with
    | some a => a.2
    | none => 0
  let incl := accs.map fun a => let r := redOut t sat a.1; ((r.1, r.2 ||| a.2) : Res1)
  if all then List.replicate xs.length (incl.getLastD (0, 0))
  else if excl then (redIdentity op t, steps) :: incl.dropLast
  else incl

/-- The results of a scan or a reduction in the active lanes, lowest first, with the flags. -/
def combineLanes (op : RedOp) (t : Ty) (sat excl all : Bool) (vs : List Word) : List Word × BitVec 16 :=
  let w := tyWidth t
  let cols := (List.range (64 / w)).map fun i => combineSubs op t sat excl all (vs.map fun v => bitsOf v (i * w) w)
  ((List.range vs.length).map fun k => BitVec.ofNat 64 (joinSubs w (cols.map fun c => (c.getD k (0, 0)).1)),
   cols.foldl (fun f c => c.foldl (fun f r => f ||| r.2) f) 0)

/-- RUN a scan or a reduction. -/
def runCombine (i : Instr) (o : VOp) (op : RedOp) (excl all : Bool) (s : State) : Host.Outcome State Fault Refusal :=
  runX i o (fun s c =>
    let ls := c.act.lanes
    let r := combineLanes op o.ty o.sat excl all (ls.map fun l => laneSrc s c o o.a l)
    (fun l => r.1.getD (ls.findIdx fun m => m == l) 0, r.2)) s

/-- `vscan` (R309). -/
def execVscan (o : VOp) (op : RedOp) (excl : Bool) (s : State) : Host.Outcome State Fault Refusal :=
  runCombine (.vscan o op excl) o op excl false s

/-- `vred` (R309). -/
def execVred (o : VOp) (op : RedOp) (s : State) : Host.Outcome State Fault Refusal :=
  runCombine (.vred o op) o op false true s

/-- `match` (R310): the mask of the active lanes with the same value. -/
def execMatchv (o : VOp) (s : State) : Host.Outcome State Fault Refusal :=
  runX (.matchv o) o (fun s c =>
    let v := fun (l : Fin 32) => bitsOf (laneSrc s c o o.a l) 0 (tyWidth o.ty)
    (fun l => (Mask.ofFn fun m => c.act.getLsbD m.val && v m == v l).setWidth 64, 0)) s

end Sys2Proof.Machine
end

