-- ==== Sys2Proof/Machine/Expand.lean ====
section
/-! DEFINITION. The expand group OP 0x07 (R222-R232). The participants of a context are kept in order of warp rank, so
participant g is the g-th of the list. -/

namespace Sys2Proof.Machine

/-- Change an expand context of a unit. -/
def modX (s : State) (u : Nat) (x : Fin 4) (f : XCtx → XCtx) : State :=
  modUnit s u fun y => { y with xctx := y.xctx.set x.val (f y.xctx[x]) x.isLt }

/-- The participant of a warp. -/
def partOf (k : XCtx) (w : Nat) : Option XPart := k.parts.find? fun p => p.warp == w

/-- Change the participant of a warp. -/
def modPart (k : XCtx) (w : Nat) (f : XPart → XPart) : XCtx :=
  { k with parts := k.parts.map fun p => if p.warp == w then f p else p }

/-- Add a participant in order of rank (R223). -/
def addPart (p : XPart) : List XPart → List XPart
  | [] => [p]
  | q :: r => if p.rank < q.rank then p :: q :: r else q :: addPart p r

/-- The lengths of all owners, by owner position (R223). -/
def ownerLens (k : XCtx) : List Nat := k.parts.flatMap fun p => p.len.toList

/-- T (R223). -/
def totalOf (k : XCtx) : Nat := (ownerLens k).foldl (· + ·) 0

/-- The positions: participant number and lane, in order (R223). -/
def positions (k : XCtx) : List (Nat × Fin 32) :=
  k.parts.zipIdx.flatMap fun p => (Mask.lanes p.1.live).map fun l => (p.2, l)

/-- W (R223). -/
def widthOf (k : XCtx) : Nat := (positions k).length

/-- The owner of iteration `t` and its j (R224). -/
def ownerOfT : List Nat → Nat → Nat → Option (Nat × Nat)
  | [], _, _ => none
  | n :: r, o, t => if t < n then some (o, t) else ownerOfT r (o + 1) (t - n)

/-- START of an owner. -/
def startOf (k : XCtx) (o : Nat) : Word :=
  match k.parts[o / 32]? with
  | some p => p.start[Fin.ofNat 32 o]
  | none => 0

/-- A split that waited goes on past its instruction. -/
def moveOn (s : State) (w : Nat) (sp : Fin 8) : State :=
  settle (modWarp s w fun y => modSplit y sp fun x => { x with
    pc := x.pc + BitVec.ofNat 64 x.timer, st := .runnable, timer := 0
    stop := if y.halting then x.stop else .no }) w

/-- Wait here; the split notes the length of the instruction, so that the event it waits for can move it on. -/
def restHere (s : State) (c : Iss) (i : Instr) : Effect :=
  .rest (modWarp s c.w.id fun w => modSplit w c.sp fun x => { x with timer := instrLen i })

/-- Whether the issuing split is the one that waits in a context. -/
def waitsHere (c : Iss) (p : XPart) : Bool := c.split.st == .blocked && c.split.timer != 0 && p.split == c.sp

/-- The unit and context of an expand instruction. -/
def expandHome (s : State) (w : Warp) (x : Fin 4) : Option (UnitSt × XCtx) := (unitOf s w).map fun u => (u, u.xctx[x])

/-- WPU of a unit. -/
def wpuOf (s : State) (u : UnitSt) : Nat := match launchOf s u with | some l => l.r.wpu | none => 1

/-- G as an `xbegin` reads it (R229). -/
def readG (s : State) (c : Iss) (n : Src) (imm : BitVec 32) : Nat :=
  match c.act.lowest, c.split.mask.lowest with
  | some l, _ => (srcVal s c .b64 imm n l).toNat
  | none, some l => (srcVal s c .b64 imm n l).toNat
  | none, none => 0

/-- The participant that a warp becomes at its `xbegin` (R223). -/
def newPart (c : Iss) (st ln : Fin 256) : XPart :=
  { warp := c.w.id, rank := c.w.rank, rounds := 0, ord := 0, ended := false, live := c.w.live
    start := tabulate 32 fun l => if c.act.getLsbD l.val then vreg c.w st l else 0
    len := tabulate 32 fun l => if c.act.getLsbD l.val then (vreg c.w ln l).toNat else 0
    split := c.sp }

/-- A warp arrives at `xbegin` (R222): it waits, or it is the last and every participant goes on. -/
def joinExpand (s : State) (c : Iss) (i : Instr) (u : UnitSt) (x : Fin 4) (k : XCtx) (n : Nat) (p : XPart) : Effect :=
  let ps := addPart p k.parts
  if ps.length < n then
    restHere (modX s u.id x fun y => { y with st := .gathering, g := n, parts := ps }) c i
  else
    let s := modX s u.id x fun y => { y with st := .opened, g := n, parts := ps, steps := [] }
    .next (k.parts.foldl (fun s q => moveOn s q.warp q.split) s)

/-- `xbegin x, vstart, vlen, G` (R222, R223). -/
def execXbegin (x : Fin 4) (g : Guard) (st ln : Fin 256) (n : Src) (imm : BitVec 32) (s : State) :
    Host.Outcome State Fault Refusal :=
  issue (.xbegin x g st ln n imm) (fun s c =>
    match expandHome s c.w x with
    | none => .fault (faultOf 2)
    | some (u, k) =>
      let gv := readG s c n imm
      let long := Mask.ofFn fun l => c.act.getLsbD l.val && decide (2 ^ 32 < (vreg c.w ln l).toNat)
      match partOf k c.w.id with
      | some p =>
        if k.st == .gathering && waitsHere c p then restHere s c (.xbegin x g st ln n imm) else .fault (faultOf 0x11)
      | none =>
        if k.st == .opened || gv = 0 || min (wpuOf s u) 8 < gv || (k.st == .gathering && k.g != gv) then .fault (faultOf 0x11)
        else if long != 0 then .fault { faultOf 0x11 with lanes := long }
        else joinExpand s c (.xbegin x g st ln n imm) u x k gv (newPart c st ln)) s

/-- A form that only a participant executes, and that waits until the context is open (R222). -/
def inContext (s : State) (c : Iss) (x : Fin 4) (k : UnitSt → XCtx → XPart → Effect) : Effect :=
  match expandHome s c.w x with
  | none => .fault (faultOf 2)
  | some (u, y) =>
    match partOf y c.w.id with
    | none => .fault (faultOf 0x11)
    | some p =>
      match y.st with
      | .free => .fault (faultOf 0x11)
      | .gathering => .rest s
      | .opened => if p.ended && !waitsHere c p then .fault (faultOf 0x11) else k u y p

/-! ### Deliveries -/

/-- Whether a participant has executed a step or moved past it (R225). -/
def pastStep (p : XPart) (t : XStep) : Bool :=
  p.ended || decide (t.round + 1 < p.rounds) || (p.rounds == t.round + 1 && decide (t.ord < p.ord))

/-- Whether a step comes before another (R226). -/
def stepBefore (a b : XStep) : Bool := decide (a.round < b.round) || (a.round == b.round && decide (a.ord < b.ord))

/-- Insert a step in step order. -/
def insertStep (t : XStep) : List XStep → List XStep
  | [] => [t]
  | q :: r => if stepBefore t q then t :: q :: r else q :: insertStep t r

/-- The value of an owner's sub-element after a delivery, and its flags (R225): `xs` are the contributions in ascending
position. -/
def deliverSub (op : RedOp) (t : Ty) (sat : Bool) (old : Nat) (xs : List Nat) : Res1 :=
  if tyFloat t then
    match (inclusive op t xs).getLast? with
    | none => (old, 0)
    | some seg =>
      let r := redStep op t ((old : Int), seg.2) seg.1.toNat
      (r.1.toNat, r.2)
  else
    let a := xs.foldl (fun a x => redStep op t a x) (intOf t old, (0 : BitVec 16))
    redOut t sat a.1

/-- Insert a contribution by position. -/
def insertContrib (c : Nat × Nat × Nat × Word) : List (Nat × Nat × Nat × Word) → List (Nat × Nat × Nat × Word)
  | [] => [c]
  | d :: r => if c.2.1 < d.2.1 then c :: d :: r else d :: insertContrib c r

/-- Deliver a step to one owner (R225). -/
def deliverOwner (s : State) (k : XCtx) (t : XStep) (o : Nat) : State :=
  let vs := (t.contrib.filter fun c => c.2.2.1 == o).map fun c => c.2.2.2
  match k.parts[o / 32]? with
  | none => s
  | some p =>
    modWarp s p.warp fun w =>
      let l : Fin 32 := Fin.ofNat 32 o
      let wd := tyWidth t.ty
      let old := vreg w t.vdst l
      let r := joinRes wd ((List.range (64 / wd)).map fun i =>
        deliverSub t.op t.ty t.sat (bitsOf old (i * wd) wd) (vs.map fun v => bitsOf v (i * wd) wd))
      setFlags (setV w t.vdst (BitVec.ofNat 32 (2 ^ l.val)) fun _ => r.1) r.2

/-- Deliver a complete step to every owner, and end its handles (R225, R226). -/
def deliverStep (s : State) (c : Fin 64) (k : XCtx) (t : XStep) : State :=
  let owners := (t.contrib.map fun x => x.2.2.1).eraseDups
  let s := owners.foldl (fun s o => deliverOwner s k t o) s
  t.handles.foldl (fun s h => endHandle s c h .done fun e => e) s

/-- Deliver every complete step of a context, in step order (R226). -/
def deliverSteps (s : State) (u : Nat) (x : Fin 4) : State :=
  match findUnit s u with
  | none => s
  | some y =>
    let k := y.xctx[x]
    let done := k.steps.filter fun t => k.parts.all fun p => pastStep p t
    let s := modX s u x fun z => { z with steps := z.steps.filter fun t => !(k.parts.all fun p => pastStep p t) }
    done.foldl (fun s t => deliverStep s y.ctx k t) s

/-! ### The forms of an open context -/

/-- What `xnext` deals to a lane: the start, j and owner of its iteration (R224). -/
def dealt (k : XCtx) (g rw : Nat) (l : Fin 32) : Option (Nat × Nat) :=
  match (positions k).findIdx? fun q => q == (g, l) with
  | none => none
  | some q =>
    let t := rw * widthOf k + q
    if t < totalOf k then ownerOfT (ownerLens k) 0 t else none

/-- The deal of a round to a warp (R224). -/
def deal (w : Warp) (x : Fin 4) (k : XCtx) (g rw : Nat) (d : Fin 256) (pe : Fin 8) : Warp :=
  let at_ := fun (l : Fin 32) => if w.live.getLsbD l.val then dealt k g rw l else none
  let m := Mask.ofFn fun l => (at_ l).isSome
  let w := setV w d m fun l => match at_ l with | some (o, j) => startOf k o + BitVec.ofNat 64 j | none => 0
  let w := setV w (Fin.ofNat 256 (d.val + 1)) m fun l =>
    match at_ l with | some (o, j) => BitVec.ofNat 64 (j * 2 ^ 32 + o) | none => 0
  let w := setP w pe w.live m
  { w with tags := tabulate 32 fun l =>
      if w.live.getLsbD l.val then (at_ l).map fun t => { x := x, owner := t.1, j := t.2, round := rw } else w.tags[l] }

/-- The number of a participant. -/
def partIndex (k : XCtx) (w : Nat) : Nat := k.parts.findIdx fun p => p.warp == w

/-- `xnext x, vD, pE` (R224). -/
def execXnext (x : Fin 4) (d : Fin 256) (pe : Fin 8) (s : State) : Host.Outcome State Fault Refusal :=
  issue (.xnext x d pe) (fun s c =>
    inContext s c x fun u k p =>
      if k.parts.any fun q => !q.ended && decide (q.rounds + 4 < p.rounds + 1) then .rest s
      else
        let s := modWarp s c.w.id fun w => deal w x k (partIndex k c.w.id) p.rounds d pe
        let s := modX s u.id x fun y => modPart y c.w.id fun q => { q with rounds := q.rounds + 1, ord := 0 }
        .next (deliverSteps s u.id x)) s

/-- The contributions of a warp to a step (R225): participant, position, owner and value. -/
def contributions (s : State) (c : Iss) (g : Guard) (x : Fin 4) (k : XCtx) (rw : Nat) (ty : Ty) (imm : BitVec 32)
    (a : Src) : List (Nat × Nat × Nat × Word) :=
  (Mask.lanes (c.w.live &&& guardMask c.w g)).filterMap fun l =>
    match c.w.tags[l] with
    | some t =>
      if t.x = x ∧ t.round = rw then
        let gi := partIndex k c.w.id
        some (gi, (positions k).findIdx (fun q => q == (gi, l)), t.owner, srcVal s c ty imm a l)
      else none
    | none => none

/-- Add a warp's contributions to a step, or make the step (R225). -/
def joinStep (k : XCtx) (t : XStep) : XCtx :=
  match k.steps.find? fun q => q.round == t.round && q.ord == t.ord with
  | some _ =>
    { k with steps := k.steps.map fun q =>
        if q.round == t.round && q.ord == t.ord then
          { q with parts := q.parts ++ t.parts, handles := q.handles ++ t.handles
                   contrib := t.contrib.foldl (fun cs c => insertContrib c cs) q.contrib }
        else q }
  | none => { k with steps := insertStep t k.steps }

/-- `xred.op x, vdst, vval, hN` (R225). Its contribution is a release at core scope (R173). -/
def execXred (x : Fin 4) (g : Guard) (op : RedOp) (ty : Ty) (sat : Bool) (vd : Fin 256) (v : Src) (imm : BitVec 32)
    (hn : Fin 16) (s : State) : Host.Outcome State Fault Refusal :=
  issue (.xred x g op ty sat vd v imm hn) (fun s c =>
    inContext s c x fun u k p =>
      let rw := p.rounds - 1
      let clash := k.steps.any fun t =>
        t.round == rw && t.ord == p.ord && !(t.op == op && t.ty == ty && t.vdst == vd)
      if p.rounds = 0 || decide (4 ≤ p.ord) || clash then .fault (faultOf 0x11)
      else (releaseAt s c.w .core).andThen fun s =>
        match handleRoom s c.w hn with
        | none => .rest s
        | some s =>
          let (h, s) := newHandle s c.w 5 x.val
          let s := modWarp s c.w.id fun w => setH w hn h
          let t : XStep :=
            { round := rw, ord := p.ord, op := op, ty := ty, sat := sat, vdst := vd, parts := [c.w.id]
              contrib := contributions s c g x k rw ty imm v, handles := [h] }
          let s := modX s u.id x fun y => modPart (joinStep y t) c.w.id fun q => { q with ord := q.ord + 1 }
          .next (deliverSteps s u.id x)) s

/-- `xsync x` (R227). -/
def execXsync (x : Fin 4) (s : State) : Host.Outcome State Fault Refusal :=
  issue (.xsync x) (fun s c =>
    inContext s c x fun _ k p =>
      let behind := k.parts.any fun q => !q.ended && decide (q.rounds < p.rounds)
      let open_ := k.steps.any fun t => decide (t.round < p.rounds)
      if behind || open_ then .rest s else (acquireAt s c.w .core).andThen .next) s

/-- `xend x` (R222, R227, R232). It is an acquire at core scope (R173): a warp arrives once its link reads have returned. -/
def execXend (x : Fin 4) (s : State) : Host.Outcome State Fault Refusal :=
  issue (.xend x) (fun s c =>
    inContext s c x fun u k p =>
      if p.ended then restHere s c (.xend x)
      else (acquireAt s c.w .core).andThen fun s =>
        let s := modWarp s c.w.id fun w => { w with
          tags := tabulate 32 fun l => match w.tags[l] with | some t => if t.x = x then none else some t | none => none }
        let s := modX s u.id x fun y => modPart y c.w.id fun q => { q with ended := true, split := c.sp }
        let s := deliverSteps s u.id x
        if k.parts.all fun q => q.ended || q.warp == c.w.id then
          let s := modX s u.id x fun _ => XCtx.reset
          .next ((k.parts.filter fun q => q.warp != c.w.id).foldl (fun s q => moveOn s q.warp q.split) s)
        else restHere s c (.xend x)) s

/-- `xquery x, vD, sel` (R228). -/
def execXquery (x : Fin 4) (g : Guard) (d : Fin 256) (sel : Fin 4) (s : State) : Host.Outcome State Fault Refusal :=
  issueWarp (.xquery x g d sel) (fun s c =>
    match expandHome s c.w x with
    | none => .fault (faultOf 2)
    | some (_, k) =>
      match partOf k c.w.id, k.st with
      | some p, .opened =>
        let v : Word := match sel with
          | 0 => BitVec.ofNat 64 (totalOf k)
          | 1 => if p.rounds = 0 then BitVec.allOnes 64 else BitVec.ofNat 64 (p.rounds - 1)
          | 2 => BitVec.ofNat 64 (totalOf k - min (totalOf k) (p.rounds * widthOf k))
          | 3 => BitVec.ofNat 64 (widthOf k)
        .next (modWarp s c.w.id fun w => setV w d c.act fun _ => v)
      | _, _ => .fault (faultOf 0x11)) s

/-- Whether a warp is a participant of a gathering or open context (R230). -/
def inExpand (s : State) (w : Warp) : Bool :=
  match unitOf s w with
  | some u => (List.finRange 4).any fun x => u.xctx[x].st != .free && (partOf u.xctx[x] w.id).isSome
  | none => false

end Sys2Proof.Machine
end

