-- ==== Sys2Proof/Machine/Pool.lean ====
section
/-! DEFINITION. The pool of a core: partition words, granules, the charge of a unit, and `carve` (R81, R86-R90, R103). -/

namespace Sys2Proof.Machine

/-! ### Partition words -/

/-- REGU, SCRU and ACCU of a partition word (R86). -/
def ppwReg (p : BitVec 32) : Nat := p.toNat % 128
/-- SCRU (R86). -/
def ppwScr (p : BitVec 32) : Nat := (p.toNat >>> 7) % 128
/-- ACCU (R86). -/
def ppwAcc (p : BitVec 32) : Nat := (p.toNat >>> 14) % 128

/-- Whether a partition word passes R87: reserved bits zero, ACCU a multiple of 4, at least 4 units for L1. -/
def ppwOk (p : BitVec 32) : Bool :=
  p.toNat >>> 21 == 0 && ppwAcc p % 4 == 0 && decide (ppwReg p + ppwScr p + ppwAcc p + 4 ≤ Config.poolUnits)

/-- Units of a launch (R72). -/
def unitCount (r : LRec) : Nat := ceilDiv r.items (32 * r.wpu)

/-- Warps of a unit that are created: those whose lowest item exists (R72). -/
def warpCount (r : LRec) (u : Nat) : Nat := min r.wpu (ceilDiv (r.items - u * r.wpu * 32) 32)

/-- The control charge of a unit, in KiB (R103). -/
def controlCharge (r : LRec) : Nat :=
  r.wpu * (if r.chain then 7 else 2) + 1 + (if r.xc then 192 else 0)
    + 4 * ((List.range 8).filter fun e => r.emask.getLsbD e).length

/-- The register region of a unit, in KiB (R81). -/
def regNeed (r : LRec) : Nat := r.wpu * (4 * r.vregs + 1)

/-! ### Granules: sets of the 1 KiB granules of a pool, as numbers whose bit i stands for the i-th KiB (R87) -/

/-- The granules from one place up to another. -/
def span (lo hi : Nat) : Nat := 2 ^ hi - 2 ^ lo

/-- The register region of a word. -/
def regSpan (p : BitVec 32) : Nat := span 0 (16 * ppwReg p)

/-- The scratch region of a word. -/
def scrSpan (p : BitVec 32) : Nat := span (16 * ppwReg p) (16 * (ppwReg p + ppwScr p))

/-- The accumulator region of a word. -/
def accSpan (p : BitVec 32) : Nat := span (16 * (ppwReg p + ppwScr p)) (16 * (ppwReg p + ppwScr p + ppwAcc p))

/-- The lowest `n` granules of a set, from a place on; `none` where there are fewer. -/
def takeLow (free : Nat) : Nat → Nat → Nat → Nat → Option Nat
  | _, _, 0, got => some got
  | 0, _, _, _ => none
  | fuel + 1, at_, n + 1, got =>
    if free.testBit at_ then takeLow free fuel (at_ + 1) n (got + 2 ^ at_) else takeLow free fuel (at_ + 1) (n + 1) got

/-- The lowest `n` tiles of 64 granules, at places 64 apart from a base on, that lie in a set. -/
def takeTiles (free : Nat) : Nat → Nat → Nat → Nat → Option Nat
  | _, _, 0, got => some got
  | 0, _, _, _ => none
  | fuel + 1, at_, n + 1, got =>
    if (free >>> at_) % 2 ^ 64 = 2 ^ 64 - 1 then takeTiles free fuel (at_ + 64) n (got + span at_ (at_ + 64))
    else takeTiles free fuel (at_ + 64) (n + 1) got

/-! ### What a core holds -/

/-- The units that hold resources of a core (R81, R92). -/
def residents (s : State) (k : Fin 384) : List UnitSt :=
  s.units.filter fun u => u.core == k && (u.st == .resident || u.st == .retiring)

/-- The record of a unit's launch. -/
def recordOf (s : State) (u : UnitSt) : Option LRec := (launchOf s u).map (·.r)

/-- The union of a set over the units of a core. -/
def heldBy (us : List UnitSt) (f : UnitSt → BitVec 1536) : Nat := us.foldl (fun n u => n ||| (f u).toNat) 0

/-- Whether a unit's granules all lie inside the regions of a word. -/
def insideWord (p : BitVec 32) (u : UnitSt) : Bool :=
  u.regs.toNat &&& regSpan p == u.regs.toNat && u.scr.toNat &&& scrSpan p == u.scr.toNat
    && u.acc.toNat &&& accSpan p == u.acc.toNat

/-! ### A change of word -/

/-- A line of a set that holds more lines than there are ways. -/
def crowded (ls : List L1Line) (ways : Nat) : Option L1Line :=
  ls.find? fun l => decide (ways < (ls.filter fun y => l1Set y.line == l1Set l.line).length)

/-- The dirty lines of a core that a test takes and that can reach their home slices no more are dropped, and the context that stored to
each takes its fault (R21, R27). -/
def loseLines (s : State) (k : Fin 384) (p : L1Line → Bool) : State :=
  let gone := s.cores[k].l1.filter fun l => p l && l.dirty != 0 && !lineReach s (coreDie k) l.line
  let s := modCore s k fun x => { x with l1 := x.l1.filter fun l => !(gone.any fun y => y.line == l.line) }
  gone.foldl (fun s l =>
    match l.owner with
    | some c => agentFault s (coreDie k) c (lostFault s l).cause 0 0 0
    | none => s) s

/-- Whether every dirty line of a core can be written back now, or never: no crossing of the bridge stalls it (R26). -/
def l1Ready (s : State) (k : Fin 384) : Bool := !l1Stalled s k fun _ => true

/-- Write back and invalidate what does not fit in a number of ways; which lines the ways held that stop being L1 is not
fixed, and replacement's victims go (R89, R90; log 8). -/
def l1Trim (s : State) (k : Fin 384) (ways : Nat) : Nat → State
  | 0 => s
  | fuel + 1 =>
    match crowded s.cores[k].l1 ways with
    | none => s
    | some l =>
      match victim (s.cores[k].l1.filter fun y => l1Set y.line == l1Set l.line) with
      | none => s
      | some v =>
        l1Trim (modCore (pastStall s fun s => writeBack s (coreDie k) v) k fun x => { x with l1 := x.l1.filter fun y => y.line != v.line }) k ways fuel

/-- A core takes a partition word (R89, R90). -/
def takeWord (s : State) (k : Fin 384) (p : BitVec 32) : State :=
  let s := loseLines s k fun _ => true
  modCore (l1Trim s k (l1Ways p) s.cores[k].l1.length) k fun x => { x with ppw := p }

/-! ### `carve` -/

/-- Whether a pending `carve` may complete (R90): every resident unit lies inside the new regions, and L1 can be written back. -/
def carveReady (s : State) (o : CarveOp) : Bool := (residents s o.core).all (insideWord o.ppw) && l1Ready s o.core

/-- A `carve` completes (R90): the core takes the new word, and its handle is done. -/
def carveDone (s : State) (o : CarveOp) : State :=
  let s := takeWord { s with carves := s.carves.filter fun x => !(x.ctx == o.ctx && x.handle == o.handle) } o.core o.ppw
  endHandle s o.ctx o.handle .done fun e => e

/-- CARVE_COMPLETE (R90, R100): while its context is halting or halted, a `carve` waits. -/
def execCarveComplete (core : Fin 384) (s : State) : Host.Outcome State Fault Refusal :=
  match s.carves.find? fun o => o.core == core with
  | none => .next s
  | some o =>
    let st := s.ctxs[o.ctx].st
    if carveReady s o && st != .halting && st != .halted then .next (carveDone s o) else .next s

end Sys2Proof.Machine
end

