-- ==== Sys2Proof/Machine/Jobs.lean ====
section
/-! DEFINITION. The ends of warps and jobs, halts, and the work group OP 0x28 (R60-R63, R71-R80, R96, R316, R317,
R361-R367, R376). -/

namespace Sys2Proof.Machine

/-! ### Halting (R60, R96, R101) -/

/-- Whether a job or fault-service warp of a context still runs on its dispatch core. -/
def runsOnDispatch (c : Fin 64) (w : Warp) : Bool := w.ctx == c && onDispatch w && !w.halted

/-- Whether a halt of a context is complete (R60, R101, R175): every core that holds its state has swapped it, its engines have
drained, its copies stand at an element boundary, and the release that the halt is has been made. -/
def haltComplete (s : State) (c : Fin 64) : Bool :=
  s.ctxs[c].st == .halting
  && (s.units.all fun u => u.ctx != c || u.st == .swapped || u.st == .retired)
  && !(s.warps.any (runsOnDispatch c))
  && !(s.mops.any fun o => o.ctx == c && !o.faulted)
  && (s.copies.all fun o => o.ctx != c || (o.tags.isEmpty && !o.sent && o.bad.isNone))
  && (s.maints.all fun o => o.ctx != c || (o.tags.isEmpty && o.old.isNone && o.bad.isNone))
  && (s.ctxs[c].mode || acrossDone s c) && !(s.links.any (farWriteOf c))
  && (List.finRange 384).all fun k => match s.cores[k].swap with | some (d, _) => d != c | none => true

/-- A context whose halt is complete is halted, and vector 62 of the PF is sent (R58, R60). -/
def tryHalted (s : State) (c : Fin 64) : State :=
  if haltComplete s c then
    toHostFor (modCtx s c fun x => { x with st := .halted }) { die := homeDie s c, owner := some c, msg := .msix 0 62 }
  else s

/-- Ask a context to halt (R60, R97, R100, R101): its clock stops (R68), each of its warps gets the request with the counts
of its splits at zero, a `carve` whose conditions hold completes, and a job start that waits for a place becomes a held
start (R62). -/
def startHalt (s : State) (c : Fin 64) : State :=
  let x := s.ctxs[c]
  let now := clockOf s c
  let s := (s.carves.filter fun o => o.ctx == c && carveReady s o).foldl carveDone s
  let s := modCtx s c fun y => { y with
    st := .halting, before := if x.jobWait then .idle else x.st, clock := now, jobWait := false
    held := if x.jobWait then some (x.jobEntry, x.jobArg, x.seq) else x.held }
  let s := { s with
    starts := tabulate 2 fun d => s.starts[d].filter fun r => match r with | .job k => k != c | .service _ _ => true
    warps := s.warps.map fun w =>
      if w.ctx == c then
        { w with halting := true
                 splits := tabulate 8 fun k => w.splits[k].map fun (z : Split) => { z with count := 0 } }
      else w }
  tryHalted s c

/-- `safept idx` (R96, R317): in a halting warp the split stops after it. -/
def execSafept (idx : BitVec 16) (s : State) : Host.Outcome State Fault Refusal :=
  issue (.safept idx) (fun s c =>
    if c.w.halting then
      .moved (modWarp (goOn s c.w.id c.sp c.next) c.w.id fun w => modSplit w c.sp fun x => { x with stop := .safept idx })
    else .next s) s

/-- `halt` (R376): the job warp counts as stopped once the instruction has executed. -/
def execHalt (s : State) : Host.Outcome State Fault Refusal :=
  issue .halt (fun s c =>
    let s := if s.ctxs[c.w.ctx].st == .running then startHalt s c.w.ctx else s
    .moved (modWarp (goOn s c.w.id c.sp c.next) c.w.id fun w => modSplit w c.sp fun x => { x with stop := .blocking })) s

/-! ### Starts (R62) -/

/-- Accept a start (R62, R71, R74, R78, R114, R246): the context is running, and its job warp waits for a place. -/
def acceptStart (s : State) (c : Fin 64) (entry arg : Word) (seq : BitVec 32) : State :=
  let s := modCtx s c fun x => { x with
    st := .running, seq := seq, held := none, jobWait := true, jobEntry := entry, jobArg := arg
    ev := 0, cph := 0, abort := false, launches := [], launchCount := 0
    handles := x.handles.map fun e => { e with st := .free }
    route := routeReset, tvec := 0, svec := 0, resvUnit := none, resvCore := [], jobEnd := none }
  let d := homeDie s c
  { s with starts := s.starts.set d.val (s.starts[d] ++ [.job c]) d.isLt }

/-- A context that has arrived at idle accepts the start that it holds (R60, R62). -/
def startHeld (s : State) (c : Fin 64) : State :=
  match s.ctxs[c].st, s.ctxs[c].held with
  | .idle, some (e, a, q) => acceptStart s c e a q
  | _, _ => s

/-! ### The end of a job -/

/-- A context whose job has ended: idle, with the start that it holds accepted, or idle once a halt in progress is over
(R60). -/
def setIdle (s : State) (c : Fin 64) : State :=
  let s := modCtx s c fun x => { x with
    st := if x.st == .running then .idle else x.st
    before := if x.st == .running then x.before else .idle
    jobWait := false, launches := [], resvUnit := none, resvCore := [], jobEnd := none
    handles := x.handles.map fun e => { e with st := .free } }
  startHeld (tryHalted s c) c

/-- A context that is destroyed is free, and what it held is released (R60, R250). The fields that its entry and its start block hold
stay. -/
def freeCtx (s : State) (c : Fin 64) : State :=
  let s := tlbInvalidate (disarmRecords (dropAll s c) c) c 0 0
  let s := modCtx s c fun x => { Ctx.reset with
    mode := x.mode, die := x.die, part := x.part, vec := x.vec, root := x.root, image := x.image
    entry := x.entry, arg := x.arg, caddr := x.caddr, seq := x.seq, last := x.last }
  retirePending { s with dups := s.dups.filter fun e => e.ctx != c }

/-- Whether what a cancelled job has in flight is over: its launches have taken the steps of R79, and its engine operations have stopped
(R73, R80). -/
def cancelOver (s : State) (c : Fin 64) : Bool :=
  !(s.ctxs[c].launches.any launchLive) && !(s.copies.any fun o => o.ctx == c && !o.faulted)
    && !(s.mops.any fun o => o.ctx == c && !o.faulted) && !(s.maints.any fun o => o.ctx == c && !o.faulted)

/-- End the job of a context whose cancel goes on, once it is over: END is sent, and the context is idle, or free where it is destroyed
(R60, R63). A halt that has begun since comes first (R60). -/
def endCancelled (s : State) (c : Fin 64) : State :=
  match s.ctxs[c].jobEnd with
  | none => s
  | some e =>
    if s.ctxs[c].st == .ended then freeCtx s c
    else if s.ctxs[c].st == .running && cancelOver s c then
      let s := complete (dropAll s c) c e 0
      if e = 3 then freeCtx s c else setIdle s c
    else s

/-- Go on with the cancels of jobs, at the end of a cycle. -/
def endCancels (s : State) : State :=
  (List.finRange 64).foldl (fun s c => if s.ctxs[c].jobEnd.isSome then endCancelled s c else s) s

/-- The job warp of a context and its fault-service warps. -/
def jobWarps (s : State) (c : Fin 64) : List Warp := s.warps.filter fun w => w.ctx == c && onDispatch w

/-- Cancel the job of a context (R60, R71, R73, R80, R250, R365): every launch, then the job warp with its operations. Its END is sent once the
launches have taken the steps of R79. -/
def cancelWholeJob (s : State) (c : Fin 64) (end_ : Nat) : State :=
  let s := s.ctxs[c].launches.foldl (fun s l => cancelLaunch s c l.id) s
  let s := (jobWarps s c).foldl (fun s w => cancelOps s c (.warp w.id)) s
  let s := { dropWarps s fun w => w.ctx == c && onDispatch w with
    starts := tabulate 2 fun d => s.starts[d].filter fun r => match r with | .job x => x != c | .service x _ => x != c }
  let s := modCtx (disarmRecords s c) c fun x => { x with jobEnd := some end_, jobWait := false }
  endCancelled (examine s c) c

/-- Whether a warp has every reason of R367 step 1 behind it: no launch live, its handles final, and no fault-service
warp of its context. -/
def jobQuiet (s : State) (w : Warp) : Bool :=
  let x := s.ctxs[w.ctx]
  !(x.launches.any launchLive) &&
  !(x.handles.any fun e => e.st == .pending && e.creator == w.id) &&
  !(s.warps.any fun v => v.ctx == w.ctx && isService v)

/-- The release of R367 step 2, of every store of the job on every core. While the host link is down the writes are held with the
completion word (R42). -/
def jobRelease (s : State) (w : Warp) : Order :=
  (releaseEverywhere s w.ctx).bind fun s => releaseLinks s w (if s.host.up then .system else .domain)

/-- End a job with a value (R367), or wait. -/
def endJob (s : State) (c : Iss) (value : Word) : Effect :=
  if !jobQuiet s c.w then .rest s
  else
    (jobRelease s c.w).andThen fun s =>
      let fn := functionOf s c.w.ctx
      if 64 ≤ heldWords s fn || s.host.owed.any (·.wordOf fn) then .rest s
      else
        let s := complete s c.w.ctx 0 (bitsOf value 0 16)
        .moved (setIdle (dropWarps s fun v => v.id == c.w.id) c.w.ctx)

/-- `jobend sA` (R367). -/
def execJobend (sa : Fin 128) (s : State) : Host.Outcome State Fault Refusal :=
  issueWarp (.jobend sa) (fun s c => endJob s c (sreg c.w sa)) s

/-- Whether an instruction's lanes are the last live ones of its warp. -/
def lastLanes (c : Iss) : Bool := c.w.live &&& ~~~c.act == 0

/-- Forget a record of another part. -/
def dropServed (s : State) (d : Fin 2) (slot : Nat) : State :=
  modDie s d fun x => { x with served := x.served.filter fun r => r.slot != slot }

/-- A fault-service warp that ends leaves its slot for the driver (R251): a record of another part takes a slot of this one. -/
def leaveServed (s : State) (w : Warp) : State :=
  match w.kind with
  | .service d (some slot) =>
    (match s.dies[d].served.find? fun r => r.slot == slot with
      | none => s
      | some r => r.splits.foldl (fun s x => recordFault s d
          { ctx := r.ctx, cause := r.cause, va := r.va, route := 0, words := r.words, split := x, handle := r.handle, elem := r.elem
            ends := false }) (dropServed s d slot))
  | _ => s

/-- `exit` (R112, R122, R230, R246, R251, R316, R35): in handler mode it takes cause 0x0001, and inside a bracket cause 0x0018, whatever its
guard (log 22); a failed write is reported; the last `exit` of a job warp ends its
job; a fault-service warp ends with its last lane. -/
def execExit (g : Guard) (s : State) : Host.Outcome State Fault Refusal :=
  issue (.exit g) (fun s c =>
    if c.w.handler.isSome then .fault (faultOf 1)
    else if c.w.bracket.isSome then .fault (faultOf 0x18)
    else if c.act = 0 then .next s
    else if inExpand s c.w then .fault (faultOf 0x11)
    else
      match c.w.late with
      | x :: _ => .fault (lateFault x)
      | [] =>
        if lastLanes c && s.links.any (fun l => l.warp == c.w.id && farWriteOf c.w.ctx l) then .wait s
        else if lastLanes c && isJob c.w then endJob s c 0
        else if lastLanes c && isService c.w then
          .moved (freeHandles (dropWarps (leaveServed s c.w) fun v => v.id == c.w.id) c.w.ctx (.warp c.w.id))
        else
          .moved (modWarp s c.w.id fun w =>
            exitLanes (modSplit w c.sp fun x => { x with pc := c.next, st := .runnable, timer := 0, stop := .no }) c.sp c.act)) s

/-! ### The home Drover (R85, R362) -/

/-- Take the effect of a form of the work group at the context's home Drover (R85, R362): one that is issued on the other die goes there
as a Drover message, which waits while the bridge stalls, and is cause 0x0014 where the bridge is down (R25-R27). -/
def atDrover (s : State) (c : Iss) (k : State → Effect) : Effect :=
  let d := coreDie c.w.core
  let h := homeDie s c.w.ctx
  let sent := fun (t : State) => if d = h then t else sendPacket t d droverAgent .drover true
  match crossing s d h with
  | .stalled => .wait s
  | .down => .fault (faultOf 0x14)
  | .free =>
    match k s with
    | .next t => .next (sent t)
    | .moved t => .moved (sent t)
    | e => e

/-! ### Launches (R76-R80, R233, R363) -/

/-- The checks of a word that `launch` reads after its translation, as `ld` of n64 registers makes them (R77, R363). -/
def wordStages (s : State) (w : Warp) : List (Spot → Look) :=
  [fun p => if pteFmt p.e.pte = 0 then .ok p else faultAt 6 p, alignedTo 8, readLook s (coreDie w.core) (coreWay w.core false false) 8]

/-- The operand of an access of n64 words: no register. -/
def wordOp : MOp :=
  { g := guardNone, ty := .n64, e := false, n := 0, h := 0, oe := false, off := 0, base := 0, data := 0, disp := .short 0 }

/-- Ask for further parts of the words that a split reads over a link. -/
def moreLinks (s : State) (c : Iss) (r : Result) (ls : List LinkOp) : State :=
  let (tags, s) := (mergeReads ls).foldl (fun (a : List Nat × State) l =>
    let (t, s) := sendLink a.2 (coreDie c.w.core) { l with result := some r.id }
    (a.1 ++ [t], s)) ([], s)
  modResult s r.id fun r => { r with vw := r.vw ++ [(0, always 32 0)], tags := tags }

/-- What an instruction of a whole split comes to: a fault of one of its words is a fault of its active lanes (R247, R248). -/
def Effect.whole : Effect → Effect
  | .fault f => .fault { f with lanes := 0 }
  | e => e

/-- Read `n` words from `a` on for an instruction, at most 32, and go on with them. `part` tells the first words that an
instruction reads from the ones after them. -/
def readWords (s : State) (c : Iss) (part : Nat) (a : Word) (n : Nat) (k : State → List Word → Effect) : Effect :=
  let at_ := fun (l : Fin 32) => a + BitVec.ofNat 64 (8 * l.val)
  let lanes := (List.finRange 32).filter fun l => decide (l.val < n)
  Effect.whole <| withSpots s c 1 lanes (fun l _ => locate s c.w.core c.w.ctx (at_ l) false) (fun _ => wordStages s c.w) fun ps =>
    let far := (ps.filter fun p => isFar s c p.2).map fun p =>
      { spotLink c.w.ctx .read c.w.id p.1 p.2 8 with reg := part }
    let go := fun (s : State) (r : Option Result) =>
      let ws := ps.map fun p =>
        match localPa s c.w.core p.2, r with
        | some pa, _ => BitVec.ofNat 64 (peekBytes s c.w.core false (accOf s c.w.ctx 0 p.2) p.2 pa 8)
        | none, some r => resultPart r part p.1
        | none, none => 0
      k (touchParts s c wordOp (fun _ => false) ps) ws
    if far.isEmpty then go s none
    else
      match linkedOf s c with
      | .none => .wait (startLinks s c (part + 1) far)
      | .wait => .wait s
      | .bad f => .fault { faultOf f.cause with va := f.va, lanes := f.lanes }
      | .got r => if r.vw.length ≤ part then .wait (moreLinks s c r far) else go s (some r)

/-- The launch record of sixteen words (R76). -/
def parseRecord (ws : List Word) : LRec :=
  let w := fun (k : Nat) => ws.getD k 0
  { entry := w 0, items := (w 1).toNat, wpu := bitsOf (w 2) 56 8, emask := BitVec.ofNat 8 (bitsOf (w 2) 48 8)
    prio := bitsOf (w 2) 40 8, chm := BitVec.ofNat 4 (bitsOf (w 2) 36 4), te := (w 2).getLsbD 35, xc := (w 2).getLsbD 34
    trapen := (w 2).getLsbD 33, chain := (w 2).getLsbD 32, ppw := BitVec.ofNat 32 (bitsOf (w 2) 0 32)
    args := w 3, cdef := w 4, graph := bitsOf (w 5) 48 16, phase := bitsOf (w 5) 32 16, scrk := bitsOf (w 5) 16 16
    tv := bitsOf (w 5) 8 8, ts := bitsOf (w 5) 0 8, vregs := bitsOf (w 6) 56 8, acct := bitsOf (w 6) 48 8
    resv := bitsOf (w 6) 0 48 != 0 || w 7 != 0
    wait := BitVec.ofNat 256 (joinSubs 64 ((ws.drop 8).take 4 |>.map (·.toNat)))
    set := BitVec.ofNat 256 (joinSubs 64 ((ws.drop 12).take 4 |>.map (·.toNat)))
    words := ws }

/-- No chain defaults. -/
def chainDef0 : ChainDef := { defs := always 4 0, km1 := always 4 0, area := 0, bad := false }

/-- The chain default block of eight words (R233). -/
def parseChainDef (ws : List Word) : ChainDef :=
  let w := fun (k : Nat) => ws.getD k 0
  let km := fun (c : Nat) => bitsOf (w 4) (8 * c) 8
  { defs := tabulate 4 fun c => w c.val, km1 := tabulate 4 fun c => km c.val % 8, area := w 5
    bad := (List.range 4).any (fun c => decide (8 ≤ km c)) || bitsOf (w 4) 32 32 != 0 || bitsOf (w 5) 0 20 != 0
      || w 6 != 0 || w 7 != 0 }

/-- Graph numbers, or phase numbers, with a non-zero counter (R71, R77). -/
def liveNumbers (x : Ctx) (f : LRec → Nat) : List Nat := ((x.launches.filter launchLive).map fun l => f l.r).eraseDups

/-- Whether one more launch exceeds a limit of R77. -/
def tableFull (x : Ctx) (r : LRec) : Bool :=
  decide (1024 ≤ (x.launches.filter launchLive).length) ||
  (!(liveNumbers x (·.graph)).contains r.graph && decide (256 ≤ (liveNumbers x (·.graph)).length)) ||
  (!(liveNumbers x (·.phase)).contains r.phase && decide (16 ≤ (liveNumbers x (·.phase)).length))

/-- Whether a record is malformed (R77, status 0x01). -/
def malformed (r : LRec) : Bool :=
  r.resv || r.wpu == 0 || decide (32 < r.wpu) || decide (7 < r.prio) || r.vregs == 0 || decide (16 < r.vregs)
    || decide (2 ^ 42 < r.items) || decide (64 < r.tv) || r.tv % 16 != 0 || decide (32 < r.ts) || decide (8 < r.acct)
    || decide (16 * r.vregs < r.tv + 16)

/-- Whether a unit is too large for its partition word (R77, status 0x04). -/
def tooLarge (r : LRec) : Bool :=
  decide (16 * ppwReg r.ppw < regNeed r) || decide (16 * ppwScr r.ppw < r.scrk)
    || decide (16 * ppwAcc r.ppw < 64 * r.acct) || decide (16 * l1Ways r.ppw < controlCharge r)

/-- Whether the engine fields disagree (R77, status 0x05). -/
def badEngines (r : LRec) : Bool :=
  if r.te then
    r.emask == 0 || r.acct == 0 || (List.range 8).any fun e => r.emask.getLsbD e && decide (r.wpu ≤ e / 2)
  else r.emask != 0 || r.acct != 0

/-- Whether the chain fields disagree (R77 and R233, status 0x06). -/
def badChain (r : LRec) (d : ChainDef) : Bool :=
  if r.chain then r.chm == 0 || d.bad || (decide (1 < unitCount r) && d.area == 0) else r.chm != 0

/-- The status of a launch: the first check of R77 that fails. -/
def launchStatus (x : Ctx) (r : LRec) (d : ChainDef) : Nat :=
  if malformed r then 1
  else if r.entry.toNat % 8 ≠ 0 then 2
  else if !ppwOk r.ppw then 3
  else if tooLarge r then 4
  else if badEngines r then 5
  else if badChain r d then 6
  else if tableFull x r then 7
  else if r.phase < x.cph then 8
  else if r.trapen && (r.tv == 0 || decide (r.ts < 8)) then 9
  else 0

/-- Enter a launch in the table, or refuse it (R77, R80). -/
def enterLaunch (s : State) (c : Iss) (hn : Fin 16) (r : LRec) (d : ChainDef) : State :=
  let k := c.w.ctx
  let st := launchStatus s.ctxs[k] r d
  let (h, s) := newHandle s c.w 3 (homeDie s k).val
  let s := modWarp s c.w.id fun w => setH w hn h
  let (age, s) := fresh s
  let la : Launch :=
    { id := s.ctxs[k].launchCount, age := age, r := r, cd := d, st := if st = 0 then .held else .refused, status := st, handle := h
      total := if st = 0 then unitCount r else 0, next := 0, retired := 0, cancel := false, fin := false }
  let s := modCtx s k fun x => { x with launches := x.launches ++ [la], launchCount := x.launchCount + 1 }
  let s := if st = 0 then s
    else
      let s := endHandle s k h .faulted fun e => { e with status := st }
      raiseEvents (modCtx s k fun x => { x with abort := true }) k r.set
  examine s k

/-- Enter a launch once there is room for its handle (R126). -/
def launchWith (s : State) (c : Iss) (hn : Fin 16) (r : LRec) (d : ChainDef) : Effect :=
  match handleRoom s c.w hn with
  | none => .rest s
  | some s => atDrover s c fun s => .next (enterLaunch (dropLinkResult s c) c hn r d)

/-- `launch hN, sA` (R363). -/
def execLaunch (g : Guard) (hn : Fin 16) (sa : Fin 128) (s : State) : Host.Outcome State Fault Refusal :=
  issueWarp (.launch g hn sa) (fun s c =>
    if (handleRoom s c.w hn).isNone then .rest s
    else
      (releaseAt s c.w (widest s.ctxs[c.w.ctx])).andThen fun s =>
        readWords s c 0 (sreg c.w sa) 16 fun s ws =>
          let r := parseRecord ws
          if r.chain && r.cdef != 0 then readWords s c 1 r.cdef 8 fun s ds => launchWith s c hn r (parseChainDef ds)
          else launchWith s c hn r chainDef0) s

/-! ### Events, cancels and counters -/

/-- The 256-bit mask of four registers (R364). -/
def evMask (w : Warp) (o : EvOp) : BitVec 256 :=
  BitVec.ofNat 256 (joinSubs 64 [(sreg w o.sa).toNat, (sreg w o.sb).toNat, (sreg w o.sc).toNat, (sreg w o.sd).toNat])

/-- `evwait` (R364). Its split notes the mask that it waits for, and once that has held, zero. -/
def execEvwait (o : EvOp) (s : State) : Host.Outcome State Fault Refusal :=
  issueWarp (.evwait o) (fun s c =>
    atDrover s c fun s =>
      let m := c.split.ewait.getD (evMask c.w o)
      let x := s.ctxs[c.w.ctx]
      let note := fun (k : BitVec 256) => modWarp s c.w.id fun w => modSplit w c.sp fun y => { y with ewait := some k }
      if x.ev &&& m = m then (acquireAt (note 0) c.w (widest x)).andThen .next else .rest (note m)) s

/-- `evset` (R364). -/
def execEvset (o : EvOp) (s : State) : Host.Outcome State Fault Refusal :=
  issueWarp (.evset o) (fun s c =>
    let k := c.w.ctx
    (releaseAt s c.w (widest s.ctxs[k])).andThen fun s => atDrover s c fun s =>
      .next (examine (raiseEvents s k (evMask c.w o)) k)) s

/-- `evclr` (R364). -/
def execEvclr (o : EvOp) (s : State) : Host.Outcome State Fault Refusal :=
  issueWarp (.evclr o) (fun s c =>
    let k := c.w.ctx
    atDrover s c fun s => .next (examine (modCtx s k fun x => { x with ev := x.ev &&& ~~~evMask c.w o }) k)) s

/-- The launch that a handle value names for a warp (R365, R366), the latest that had it: cause 0x000F where it resolves to none. -/
def withLaunch (s : State) (c : Iss) (h : BitVec 32) (null : Effect) (k : Launch → Effect) : Effect :=
  match resolve s c.w h with
  | .null => null
  | .bad => .fault (faultOf 0xF)
  | .entry _ =>
    match s.ctxs[c.w.ctx].launches.reverse.find? fun l => l.handle == h with
    | some l => k l
    | none => .fault (faultOf 0xF)

/-- Cancel every launch that a test takes, and re-examine the held ones. -/
def cancelWhere (s : State) (c : Fin 64) (p : Launch → Bool) : State :=
  examine ((s.ctxs[c].launches.filter p).foldl (fun s l => cancelLaunch s c l.id) s) c

/-- `cancel.launch sA` (R365). -/
def execCancelLaunch (g : Guard) (sa : Fin 128) (s : State) : Host.Outcome State Fault Refusal :=
  issueWarp (.cancelLaunch g sa) (fun s c =>
    atDrover s c fun s =>
      withLaunch s c ((sreg c.w sa).setWidth 32) (.next s) fun l => .next (cancelWhere s c.w.ctx fun y => y.id == l.id)) s

/-- `cancel.graph sA` (R365). -/
def execCancelGraph (g : Guard) (sa : Fin 128) (s : State) : Host.Outcome State Fault Refusal :=
  issueWarp (.cancelGraph g sa) (fun s c =>
    atDrover s c fun s => .next (cancelWhere s c.w.ctx fun l => l.r.graph == bitsOf (sreg c.w sa) 0 16)) s

/-- `cancel.phase sA` (R365). -/
def execCancelPhase (g : Guard) (sa : Fin 128) (s : State) : Host.Outcome State Fault Refusal :=
  issueWarp (.cancelPhase g sa) (fun s c =>
    atDrover s c fun s => .next (cancelWhere s c.w.ctx fun l => l.r.phase == bitsOf (sreg c.w sa) 0 16)) s

/-- `cancel.job sA` (R60, R365): the job needs no name, and the register is not read. -/
def execCancelJob (o : CancelOp) (s : State) : Host.Outcome State Fault Refusal :=
  issueWarp (.cancelJob o) (fun s c => atDrover s c fun s => .moved (cancelWholeJob s c.w.ctx 1)) s

/-- State codes of `cntrd.lstatus` (R366). -/
def lstateCode : LState → Nat
  | .held => 0 | .ready => 1 | .running => 2 | .done => 3 | .cancelled => 4 | .refused => 5

/-- Units of a launch not yet retired (R71). -/
def launchCounter (l : Launch) : Nat := l.total - l.retired

/-- The counter of a unit (R71): live warps, and pending operations of its warps. -/
def unitCounter (s : State) (u : UnitSt) : Nat :=
  (s.warps.filter fun w => inUnit u.id w && !w.ended).length +
  (s.ctxs[u.ctx].handles.filter fun e => e.st == .pending && decide (e.owner = .unit u.id)).length

/-- The unit of a launch and an index that still holds state. -/
def unitAt (s : State) (c : Fin 64) (l : Launch) (k : Nat) : Option UnitSt :=
  s.units.find? fun u => u.ctx == c && u.launch == l.id && u.index == k && u.st != .retired

/-- Whether a unit is still pending. -/
def unitPending (l : Launch) (k : Nat) : Bool := launchLive l && decide (l.next ≤ k) && decide (k < l.total)

/-- `cntrd.unit` (R366). -/
def unitValue (s : State) (c : Fin 64) (l : Launch) (k : Nat) : Word :=
  if unitPending l k then BitVec.allOnes 64
  else match unitAt s c l k with
    | some u => BitVec.ofNat 64 (unitCounter s u)
    | none => 0

/-- `cntrd.warp` (R366). -/
def warpValue (s : State) (c : Fin 64) (l : Launch) (k rank : Nat) : Word :=
  if l.r.wpu ≤ rank then 0
  else if unitPending l k then BitVec.allOnes 64
  else match unitAt s c l k with
    | some u => (match warpOf s u.id rank with | some w => BitVec.ofNat 64 (Mask.count w.live) | none => 0)
    | none => 0

/-- How many launches that a test takes are live: the graph and phase counters (R71). -/
def liveCount (x : Ctx) (p : Launch → Bool) : Nat := (x.launches.filter fun l => launchLive l && p l).length

/-- `cntrd` (R366). -/
def execCntrd (sel : CntSel) (o : EvOp) (s : State) : Host.Outcome State Fault Refusal :=
  issueWarp (.cntrd sel o) (fun s c => atDrover s c fun s =>
    let x := s.ctxs[c.w.ctx]
    let a := sreg c.w o.sa
    let put := fun (v : Word) => Effect.next (modWarp s c.w.id fun w => setS w o.sd v)
    let num := fun (n : Nat) => put (BitVec.ofNat 64 n)
    let on := fun (null : Nat) (f : Launch → Word) => withLaunch s c (a.setWidth 32) (num null) fun l => put (f l)
    match sel with
    | .lcount => on 0 fun l => BitVec.ofNat 64 (launchCounter l)
    | .lstatus => on 0x300 fun l => BitVec.ofNat 64 (lstateCode l.st * 256 + l.status)
    | .graph => num (liveCount x fun l => l.r.graph == bitsOf a 0 16)
    | .phase => num (liveCount x fun l => l.r.phase == bitsOf a 0 16)
    | .job => num (liveCount x (fun _ => true) + (if s.warps.any fun w => w.ctx == c.w.ctx && isJob w then 1 else 0))
    | .abort => num (if x.abort then 1 else 0)
    | .cph => num x.cph
    | .ev => num ((x.ev.toNat >>> (64 * bitsOf a 0 2)) % 2 ^ 64)
    | .unit => on 0 fun l => unitValue s c.w.ctx l (sreg c.w o.sb).toNat
    | .warp => on 0 fun l => warpValue s c.w.ctx l (sreg c.w o.sb).toNat (bitsOf (sreg c.w o.sc) 0 8)) s

/-- `phase` (R78, R367). -/
def execPhase (s : State) : Host.Outcome State Fault Refusal :=
  issueWarp .phase (fun s c =>
    let k := c.w.ctx
    let x := s.ctxs[k]
    if liveCount x (fun l => l.r.phase == x.cph) = 0 then
      .next (examine (modCtx s k fun x => { x with cph := x.cph + 1 }) k)
    else .rest s) s

end Sys2Proof.Machine
end

