-- ==== Sys2Proof/Machine/Placement.lean ====
section
/-! DEFINITION. Cores and partitions: which cores are in service, which are dispatch cores, which a partition holds, and
the retirement of fault records (R54, R56, R75, R137, R249-R251). -/

namespace Sys2Proof.Machine

/-- The package core of a die's core. -/
def coreAt (d : Fin 2) (k : Nat) : Fin 384 := Fin.ofNat 384 (192 * d.val + k % 192)

/-- Whether a core is in service: not retired (R54). -/
def inService (s : State) (c : Fin 384) : Bool := !(s.dies[coreDie c].retCores.getLsbD (coreOnDie c))

/-- The dispatch core of an island of a die: its first core, or the lowest in service where that is retired (R75). -/
def dispatchOf (s : State) (d : Fin 2) (first : Nat) : Option (Fin 384) :=
  ((List.range 16).map fun i => coreAt d (first + i)).find? fun c => inService s c

/-- The dispatch cores of a die, in core order (R75), retired ones replaced. -/
def dispatchCores (s : State) (d : Fin 2) : List (Fin 384) := [0, 48, 96, 144].filterMap fun k => dispatchOf s d k

/-- Whether a core is a dispatch core. -/
def isDispatch (s : State) (c : Fin 384) : Bool := (dispatchCores s (coreDie c)).contains c

/-- Whether a core is one that units of a context may use (R75, R82): of its partition, on a permitted die, in service,
and no dispatch core. -/
def usable (s : State) (c : Fin 64) (k : Fin 384) : Bool :=
  partHolds (partOfCtx s c) k && (!s.ctxs[c].mode || coreDie k == s.ctxs[c].die) && inService s k && !isDispatch s k
    && s.dies[coreDie k].dstate == .online

/-! ### Restarts and retirement of records -/

/-- Restart a faulted operation under its handle (R126, R155). -/
def restartOp (s : State) (c : Fin 64) (h : BitVec 32) : State :=
  match entryOf s.ctxs[c] h with
  | none => s
  | some e =>
    if e.st == .faulted && resumable e.cause then
      let s := modHandle s c e.slot fun y => { y with st := .pending }
      { s with
        copies := s.copies.map fun o => if o.ctx == c && o.handle == h then { o with faulted := false } else o
        mops := s.mops.map fun o => if o.ctx == c && o.handle == h then { o with faulted := false } else o
        maints := s.maints.map fun o => if o.ctx == c && o.handle == h then { o with faulted := false } else o }
    else s

/-- A suspended split replays its instruction (R137, R250), or goes on after its `trap`, where it may stand at its
rejoin point (R117). In a halting or halted warp it stays at its safe point. -/
def replay (s : State) (w : Nat) (sp : Fin 8) : State :=
  settle (modWarp s w fun y => modSplit y sp fun x =>
    if x.susp then { x with susp := false, st := .runnable, stop := if y.halting then .blocking else .no } else x) w

/-- Mailbox fills of a context that failed on a page are tried again, before a read that awaits one replays (R239). -/
def retryFills (s : State) (c : Fin 64) (va : Word) : State :=
  if s.units.any fun u => u.ctx == c && !u.mailFault.isEmpty then
    { s with units := s.units.map fun u =>
        if u.ctx == c then
          { u with mailFault := u.mailFault.filter fun f => f.va.toNat / 2 ^ 16 != va.toNat / 2 ^ 16 }
        else u }
  else s

/-- Faults that wait for a slot take one, in order (R137). -/
def placeWaiting (s : State) (d : Fin 2) : Nat → State
  | 0 => s
  | fuel + 1 =>
    match s.dies[d].faultQ with
    | [] => s
    | q :: r =>
      match settleFault (modDie s d fun x => { x with faultQ := r }) d q with
      | some s => placeWaiting s d fuel
      | none => s

/-- What a retired record holds back goes on (R137, R250): a faulted handle is restarted, and the splits suspended on it replay. -/
def releaseRecord (s : State) (r : SlotRec) : State :=
  let still := match entryOf s.ctxs[r.ctx] r.handle with
    | some e => e.st == .faulted && e.cause == r.cause
    | none => false
  let s := if r.handle != 0 && still then restartOp s r.ctx r.handle else s
  r.splits.foldl (fun s x => replay s x.1 x.2) (retryFills s r.ctx r.va)

/-- Retire a slot (R137, R249, R250): its word 0x00 is zeroed, and what its record holds back goes on. A slot that is not in use is left
alone. -/
def retireSlot (s : State) (d : Fin 2) (slot : Nat) : State :=
  match s.dies[d].slots.find? fun r => r.slot == slot with
  | none => s
  | some r =>
    let s := homeWrite s d Acc.plain false (s.dies[d].fbase.toNat + 64 * slot) 8 0
    let s := modDie s d fun x => { x with slots := x.slots.filter fun y => y.slot != slot }
    let s := releaseRecord s r
    let s := { s with starts := s.starts.set d.val (s.starts[d].filter fun q =>
      match q with
      | .service _ n => n != slot
      | .job _ => true) d.isLt }
    placeWaiting s d 4096

/-- Retire the slot that a fault-service warp holds (R250, R251, R375): a slot of this part, or a record of the part that the warp was
imported from (R68). -/
def retireHeld (s : State) (d : Fin 2) (slot : Nat) : State :=
  if slot < Config.faultSlots then retireSlot s d slot
  else
    match s.dies[d].served.find? fun r => r.slot == slot with
    | none => s
    | some r => releaseRecord (dropServed s d slot) r

/-- HANDLER_RESTART (R126, R253): the handler of a warp restarts a faulted operation of its unit or warp. -/
def execHandlerRestart (w : Nat) (h : BitVec 32) (s : State) : Host.Outcome State Fault Refusal :=
  match findWarp s w with
  | none => .next s
  | some x =>
    match resolve s x h with
    | .entry e => if x.handler.isSome && e.st == .faulted then .next (restartOp s x.ctx h) else .next s
    | _ => .next s

end Sys2Proof.Machine
end

