-- ==== Sys2Proof/Machine/System.lean ====
section
/-! DEFINITION. The system group OP 0x30 (R244, R247, R253, R368-R376); `halt` stands with the halts. -/

namespace Sys2Proof.Machine

/-- `trap A` (R369). -/
def execTrap (g : Guard) (a : SSrc) (w1 : Word) (s : State) : Host.Outcome State Fault Refusal :=
  issueWarp (.trap g a w1) (fun s c => .fault { faultOf 0x16 with va := ssrcVal s c w1 a }) s

/-- `rett` (R253): a resumable cause goes on at TEPC; any other ends the context. A fault of the warp that waited for the end of handler
mode since a resume is delivered (R100). -/
def execRett (s : State) : Host.Outcome State Fault Refusal :=
  issue .rett (fun s c =>
    let cause := bitsOf c.w.trec[0] 48 16
    if c.w.handler.isNone then .fault (faultOf 1)
    else if resumable cause then
      let s := retryFills s c.w.ctx c.w.trec[1]
      let s := modWarp (goOn s c.w.id c.sp c.w.tepc) c.w.id fun w => { w with handler := none }
      .moved (if s.ctxs[c.w.ctx].st = .halting then s else deliverAwait s c.w.ctx)
    else .moved (endContext s c.w.ctx cause)) s

/-- The value of a system register (R247). -/
def sysValue (s : State) (w : Warp) (n : SysReg) : Word :=
  match n with
  | .trec k => w.trec[k]
  | .tepc => w.tepc
  | .tmask => w.tmask
  | .route => s.ctxs[w.ctx].route
  | .tvec => s.ctxs[w.ctx].tvec
  | .svec => s.ctxs[w.ctx].svec

/-- `sysrd sD, n` (R370). -/
def execSysrd (g : Guard) (d : Fin 128) (n : SysReg) (s : State) : Host.Outcome State Fault Refusal :=
  issueWarp (.sysrd g d n) (fun s c => .next (modWarp s c.w.id fun w => setS w d (sysValue s c.w n))) s

/-- Whether a value may be written to a system register (R247, R370). -/
def sysWriteOk (n : SysReg) (v : Word) : Bool :=
  match n with
  | .trec _ | .tmask => false
  | .tepc | .tvec | .svec => v.toNat % 8 == 0
  | .route => bitsOf v 0 2 == 0 && bitsOf v 52 12 == 0

/-- Write a system register. -/
def sysWrite (s : State) (w : Warp) (n : SysReg) (v : Word) : State :=
  match n with
  | .trec _ | .tmask => s
  | .tepc => modWarp s w.id fun x => { x with tepc := v }
  | .route => modCtx s w.ctx fun x => { x with route := v }
  | .tvec => modCtx s w.ctx fun x => { x with tvec := v }
  | .svec => modCtx s w.ctx fun x => { x with svec := v }

/-- `syswr n, B` (R370). -/
def execSyswr (g : Guard) (n : SysReg) (b : SSrc) (w1 : Word) (s : State) : Host.Outcome State Fault Refusal :=
  issueWarp (.syswr g n b w1) (fun s c =>
    let v := ssrcVal s c w1 b
    if sysWriteOk n v then .next (sysWrite s c.w n v) else .fault (faultOf 1)) s

/-- Give a warp the handle of a new operation. -/
def giveHandle (s : State) (c : Iss) (hn : Fin 16) (cls eng : Nat) : BitVec 32 × State :=
  let (h, s) := newHandle s c.w cls eng
  (h, modWarp s c.w.id fun w => setH w hn h)

/-- `tlbinv hN, A, B` (R372). -/
def execTlbinv (g : Guard) (hn : Fin 16) (a b : SSrc) (w1 : Word) (s : State) : Host.Outcome State Fault Refusal :=
  issueWarp (.tlbinv g hn a b w1) (fun s c =>
    let lo := ssrcVal s c w1 a
    let len := ssrcVal s c w1 b
    (releaseAt s c.w (widest s.ctxs[c.w.ctx])).andThen fun s =>
      match handleRoom s c.w hn with
      | none => .rest s
      | some s =>
        let (h, s) := giveHandle s c hn 6 1
        let (id, s) := fresh s
        let op : Maint :=
          { id := id, ctx := c.w.ctx, handle := h, kind := .tlbinv lo len, i := 0, faulted := false
            core := c.w.core, tags := [], old := none, sysw := none, bad := none, ending := none }
        .next { s with maints := s.maints ++ [op] }) s

/-- The translation of a `ptwr` (R371): a window takes cause 0x0004 whatever its own rules say. -/
def ptwrLook (s : State) (w : Warp) (a : Word) : Look :=
  match translate s w.core w.ctx a with
  | .ok pa e =>
    if regionOf pa == .domain || regionOf pa == .system then .bad { faultOf 4 with va := a, pte := e.pte }
    else spotChecks s w.ctx (coreDie w.core) a pa e true
  | t => t.spot s w.ctx (coreDie w.core) a true

/-- The checks of a `ptwr` after its translation: those of a store of n64, and what an exchange at a home slice meets. -/
def ptwrStages (s : State) (w : Warp) : List (Spot → Look) :=
  let d := coreDie w.core
  let y : Way := { core := none, home := true, wr := true, posted := false }
  [plainPage, alignedTo 8, fun p =>
    ((reachLook s d y [p.pa / 64] p).then_ (recallLook s d)).then_ (eccLook s d y [(p.pa, 8)])]

/-- Exchange an entry at its home slice (R371): the old value. -/
def exchangeEntry (s : State) (core : Fin 384) (q : Acc) (p : Spot) (v : Word) : Word × State :=
  let old := readWord s.mem p.pa
  let s := writeHome s (coreDie core) q p true p.pa 8 v.toNat
  (old, l1Refresh s core p.pa 8 v.toNat)

/-- `ptwr sD, A, B` (R371). -/
def execPtwr (g : Guard) (d : Fin 128) (a b : SSrc) (w1 : Word) (s : State) : Host.Outcome State Fault Refusal :=
  issueWarp (.ptwr g d a b w1) (fun s c =>
    withSpots s c 1 [(c.act.lowest).getD 0] (fun _ _ => ptwrLook s c.w (ssrcVal s c w1 a)) (fun _ => ptwrStages s c.w) fun ps =>
      (releaseAt s c.w (widest s.ctxs[c.w.ctx])).andThen fun s =>
        dirtyAll s c ps fun s =>
          match ps with
          | [] => .next s
          | (_, p) :: _ =>
            let (old, s) := exchangeEntry s c.w.core (Acc.of c.w.ctx) p (ssrcVal s c w1 b)
            .next (modWarp s c.w.id fun w => setS w d old)) s

/-- What a `carve` comes to at issue (R90, R373): a status that faults its handle, done at once, or pending. -/
inductive Carved where
  | bad (status : Nat)
  | same
  | pending (core : Fin 384) (ppw : BitVec 32)
  deriving DecidableEq, Repr

/-- The case of R90 that a `carve` falls under. -/
def carveCase (s : State) (c : Fin 64) (a b : Word) : Carved :=
  let p : BitVec 32 := b.setWidth 32
  if bitsOf b 32 32 ≠ 0 || !ppwOk p then .bad 3
  else if h : a.toNat < 384 then
    let k : Fin 384 := ⟨a.toNat, h⟩
    if isDispatch s k || !partHolds (partOfCtx s c) k then .bad 4
    else if s.carves.any fun o => o.core == k then .bad 9
    else if s.cores[k].ppw = p then .same
    else .pending k p
  else .bad 4

/-- `carve hN, A, B` (R90, R373). -/
def execCarve (g : Guard) (hn : Fin 16) (a b : SSrc) (w1 : Word) (s : State) : Host.Outcome State Fault Refusal :=
  issueWarp (.carve g hn a b w1) (fun s c =>
    let core := ssrcVal s c w1 a
    let word := ssrcVal s c w1 b
    match handleRoom s c.w hn with
    | none => .rest s
    | some s =>
      let k := c.w.ctx
      let (h, s) := giveHandle s c hn 4 0
      match carveCase s k core word with
      | .bad st => .next (endHandle s k h .faulted fun e => { e with status := st })
      | .same => .next (endHandle s k h .done fun e => e)
      | .pending core ppw => .next { s with carves := s.carves ++ [{ core := core, ctx := k, ppw := ppw, handle := h }] }) s

/-- The fault that `dirtyclr` has before element 0 (R374). -/
def dirtyclrFault (a b : Word) : Option Nat :=
  if a.toNat % 64 ≠ 0 || b.toNat % 64 ≠ 0 then some 8
  else if 2 ^ 25 < a.toNat + b.toNat then some 1
  else none

/-- `dirtyclr hN, A, B, C` (R374). -/
def execDirtyclr (g : Guard) (hn : Fin 16) (a b x : SSrc) (w1 : Word) (s : State) : Host.Outcome State Fault Refusal :=
  issueWarp (.dirtyclr g hn a b x w1) (fun s c =>
    let va := ssrcVal s c w1 a
    let vb := ssrcVal s c w1 b
    let vc := ssrcVal s c w1 x
    match handleRoom s c.w hn with
    | none => .rest s
    | some s =>
      let k := c.w.ctx
      let (h, s) := giveHandle s c hn 6 0
      match dirtyclrFault va vb with
      | some cause => .next (endHandle s k h .faulted fun e => { e with cause := cause })
      | none =>
        if vb = 0 then .next (endHandle s k h .done fun e => e)
        else
          let (id, s) := fresh s
          let op : Maint :=
            { id := id, ctx := k, handle := h, kind := .dirtyclr va vb vc, i := 0, faulted := false
              core := c.w.core, tags := [], old := none, sysw := none, bad := none, ending := none }
          .next { s with maints := s.maints ++ [op] }) s

/-- The lowest slot of a die whose record waits for a fault-service warp of a context (R251, R375). -/
def waitingSlot (s : State) (d : Fin 2) (c : Fin 64) : Option Nat :=
  s.starts[d].foldl (fun (m : Option Nat) q =>
    match q with
    | .service k n => if k = c then (match m with | some y => some (min y n) | none => some n) else m
    | .job _ => m) none

/-- The words that a record gives a fault-service warp (R248, R251). -/
def slotWords (s : State) (d : Fin 2) (slot : Nat) : List Word :=
  match s.dies[d].slots.find? fun r => r.slot == slot with
  | some r => r.words
  | none => []

/-- Write s1 and s3 to s10 of a fault-service warp (R251, R375). -/
def serviceRegs (w : Warp) (s1 : Word) (words : List Word) : Warp :=
  (List.range 8).foldl (fun w k => setS w (Fin.ofNat 128 (3 + k)) (words.getD k 0)) (setS w 1 s1)

/-- `fltnext` (R375). -/
def execFltnext (s : State) : Host.Outcome State Fault Refusal :=
  issue .fltnext (fun s c =>
    match c.w.kind with
    | .service d (some slot) =>
      if (sreg c.w 1).toNat ≠ slot % Config.faultSlots then .fault (faultOf 1)
      else
        (releaseAt s c.w (widest s.ctxs[c.w.ctx])).andThen fun s =>
          let s := retireHeld s d slot
          match waitingSlot s d c.w.ctx with
          | some n =>
            let s := { s with starts := s.starts.set d.val (s.starts[d].filter fun q => q != .service c.w.ctx n) d.isLt }
            .next (modWarp s c.w.id fun w =>
              { serviceRegs w (BitVec.ofNat 64 n) (slotWords s d n) with kind := .service d (some n) })
          | none =>
            .next (modWarp s c.w.id fun w =>
              { serviceRegs w (BitVec.allOnes 64) [] with kind := .service d none })
    | _ => .fault (faultOf 1)) s

end Sys2Proof.Machine
end

