-- ==== Sys2Proof/Machine/Drover.lean ====
section
/-! DEFINITION. The Drover (R62, R75, R79, R81-R85, R88-R92, R251): which unit goes where, the reservation of a core, the
start of units and of job and fault-service warps, and the retirement of units. -/

namespace Sys2Proof.Machine

/-! ### Room on a core (R81, R82, R90) -/

/-- Warps of a unit that run on a quadrant: ceil((WPU - q) / 4) (R81). -/
def quadWarps (r : LRec) (q : Nat) : Nat := (r.wpu - q + 3) / 4

/-- Warp slots that a unit holds in a quadrant of its core, from dispatch until the last of its warps ends (R81, R92). -/
def slotsOf (s : State) (u : UnitSt) (q : Nat) : Nat :=
  if (s.warps.filter (inUnit u.id)).all (·.ended) then 0
  else match recordOf s u with
    | some r => quadWarps r q
    | none => 0

/-- Where a unit's granules go. -/
structure Granules where
  regs : Nat
  scr : Nat
  acc : Nat
  deriving DecidableEq, Repr

/-- The granules that a unit of a record would take on a core, under the core's word or the word it would adopt, and inside
both words while a `carve` is pending (R82, R90). Which of the free granules they are the spec does not say: the model takes the lowest,
whether or not they lie side by side (log 52). -/
def granulesFor (s : State) (k : Fin 384) (r : LRec) : Option Granules :=
  let us := residents s k
  let old := s.cores[k].ppw
  let pend := (s.carves.find? fun o => o.core == k).map (·.ppw)
  let fits := match pend with
    | some p => p == r.ppw
    | none => us.isEmpty || old == r.ppw
  if !fits then none
  else
    let region := fun (f : BitVec 32 → Nat) => if pend.isSome then f old &&& f r.ppw else f r.ppw
    let free := fun (f : BitVec 32 → Nat) (g : UnitSt → BitVec 1536) =>
      let x := region f
      x - (x &&& heldBy us g)
    let accFree := let x := region accSpan; x - (x &&& (heldBy us (·.acc) ||| heldBy us (·.regs) ||| heldBy us (·.scr)))
    match takeLow (free regSpan (·.regs)) 1536 0 (regNeed r) 0, takeLow (free scrSpan (·.scr)) 1536 0 r.scrk 0,
        takeTiles accFree 24 (16 * (ppwReg r.ppw + ppwScr r.ppw)) r.acct 0 with
    | some a, some b, some c => some { regs := a, scr := b, acc := c }
    | _, _, _ => none

/-- Whether the other resources of R81 are free on a core for a unit of a record. -/
def resourcesFree (s : State) (k : Fin 384) (r : LRec) : Bool :=
  let us := residents s k
  let rs := us.filterMap (recordOf s)
  let ways := min (l1Ways r.ppw) (if (s.carves.any fun o => o.core == k) then l1Ways s.cores[k].ppw else 96)
  ((List.range 4).all fun q => decide ((us.map fun x => slotsOf s x q).sum + quadWarps r q ≤ 16))
    && (rs.all fun x => x.emask &&& r.emask == 0)
    && (!r.xc || decide ((rs.filter (·.xc)).length < 8))
    && (!r.chain || decide ((rs.filter (·.chain)).length < 8))
    && decide ((rs.map controlCharge).sum + controlCharge r ≤ 16 * ways)

/-- Whether a core holds no unit and waits for no `carve` (R89). -/
def coreIdle (s : State) (k : Fin 384) : Bool := (residents s k).isEmpty && !(s.carves.any fun o => o.core == k)

/-- The granules of a unit of a record on a core that can take it (R82). -/
def roomOn (s : State) (k : Fin 384) (r : LRec) : Option Granules := if resourcesFree s k r then granulesFor s k r else none

/-- The granules of a set, lowest first. -/
def granuleList (g : BitVec 1536) : List Nat := (List.range 1536).filter fun i => g.getLsbD i

/-- Where a byte of a unit's register granules lies in the pool (R87), counted through the granules from the lowest on. -/
def regByte (u : UnitSt) (n : Nat) : Option Nat := (granuleList u.regs)[n / 1024]?.map fun g => 1024 * g + n % 1024

/-- Where `v` register `r` of a lane of a warp lies in the pool (R109): the blocks of 4 VREGS + 1 KiB are in rank order, warp 0's the
lowest. Inside a block the order of the registers, and of the lanes in a register, is the model's (log 52). -/
def vPlace (u : UnitSt) (r : LRec) (rank reg lane : Nat) : Option Nat :=
  regByte u (1024 * (rank * (4 * r.vregs + 1)) + 256 * reg + 8 * lane)

/-- Where `s` register `r` of a warp lies in the pool: in the last KiB of its block (R109). -/
def sPlace (u : UnitSt) (r : LRec) (rank reg : Nat) : Option Nat :=
  regByte u (1024 * (rank * (4 * r.vregs + 1) + 4 * r.vregs) + 8 * reg)

/-! ### The order of examination (R83-R85, R106) -/

/-- Resident warps of a core. -/
def warpLoad (s : State) (k : Fin 384) : Nat :=
  ((residents s k).map fun u => (s.warps.filter fun w => inUnit u.id w && !w.ended).length).sum

/-- A unit that waits for a core: its context, launch and index, and, where it is swapped out, its saved state (R92). -/
structure Waiting where
  ctx : Fin 64
  l : Launch
  index : Nat
  unit : Option UnitSt
  deriving DecidableEq, Repr

/-- Whether unit `u` of a launch still waits for a core: it is to be dispatched, or swapped out. -/
def waitsCore (s : State) (c : Fin 64) (id u : Nat) : Bool :=
  (s.ctxs[c].launches.any fun l => l.id == id && launchLive l && decide (l.next ≤ u) && decide (u < l.total))
    || s.units.any fun x => x.ctx == c && x.launch == id && x.index == u && x.st == .swapped

/-- The unit that a core is reserved for (R83): its context, launch and index. -/
def reservation (s : State) (k : Fin 384) : Option (Fin 64 × Nat × Nat) :=
  (List.finRange 64).findSome? fun c =>
    s.ctxs[c].resvCore.findSome? fun x => if x.2.2 = k && waitsCore s c x.1 x.2.1 then some (c, x.1, x.2.1) else none

/-- The first of some cores by load, then the job warp's die, then number (R83). -/
def bestCore (s : State) (jd : Fin 2) (ks : List (Fin 384)) : Option (Fin 384) :=
  let key := fun (k : Fin 384) => (2 * warpLoad s k + (if coreDie k = jd then 0 else 1)) * 384 + k.val
  ks.foldl (fun (b : Option (Fin 384)) k =>
    match b with
    | none => some k
    | some j => if key k < key j then some k else some j) none

/-- Whether a home Drover reaches the Drover of a core's die (R27, R85). -/
def droverReach (s : State) (c : Fin 64) (k : Fin 384) : Bool := crossing s (homeDie s c) (coreDie k) != .down

/-- The cores that can take a unit: usable ones that are reserved for none or for it, with room, within the Drover's reach (R82, R83,
R85). -/
def coresFor (s : State) (y : Waiting) : List (Fin 384) :=
  (List.finRange 384).filter fun k =>
    usable s y.ctx k && droverReach s y.ctx k &&
    (match reservation s k with
      | none => true
      | some x => x == (y.ctx, y.l.id, y.index)) && (roomOn s k y.l.r).isSome

/-- The core that a unit goes to now, if any can take it (R82, R83): a swapped unit's former core where that can (R106). -/
def coreFor (s : State) (y : Waiting) : Option (Fin 384) :=
  let ks := coresFor s y
  match y.unit with
  | some u => if ks.contains u.core then some u.core else bestCore s (homeDie s y.ctx) ks
  | none => bestCore s (homeDie s y.ctx) ks

/-- Whether one waiting unit comes before another: priority, then age, then index (R83). -/
def waitsBefore (a b : Waiting) : Bool :=
  decide (b.l.r.prio < a.l.r.prio) ||
    (a.l.r.prio == b.l.r.prio && (decide (a.l.age < b.l.age) || (a.l.age == b.l.age && decide (a.index < b.index))))

/-- Put a waiting unit in its place in the order. -/
def insertWaiting (x : Waiting) : List Waiting → List Waiting
  | [] => [x]
  | y :: r => if waitsBefore x y then x :: y :: r else y :: insertWaiting x r

/-- The units of a launch that may be examined now: its swapped ones (R106), of a chained launch the first only, and the next one to
dispatch, of a chained launch once none is swapped (R80, R84). -/
def waitingOf (s : State) (c : Fin 64) (l : Launch) : List Waiting :=
  let out := (s.units.filter fun u => u.ctx == c && u.launch == l.id && u.st == .swapped).map fun u =>
    { ctx := c, l := l, index := u.index, unit := some u : Waiting }
  let out := out.foldl (fun r x => insertWaiting x r) []
  let next := if (l.st == .ready || l.st == .running) && decide (l.next < l.total) then
      [{ ctx := c, l := l, index := l.next, unit := none : Waiting }] else []
  if l.r.chain then (out ++ next).take 1 else out ++ next

/-- The units that a home Drover examines, in the order of R83, over the running contexts that it is the home of. -/
def examined (s : State) (d : Fin 2) : List Waiting :=
  (List.finRange 64).foldl (fun (xs : List Waiting) c =>
    if s.ctxs[c].st == .running && homeDie s c == d then
      (s.ctxs[c].launches.flatMap (waitingOf s c)).foldl (fun xs y => insertWaiting y xs) xs
    else xs) []

/-- The first unit of an order that a core can take, and its core. -/
def firstPlace (s : State) (ys : List Waiting) : Option (Waiting × Fin 384) :=
  ys.findSome? fun y => (coreFor s y).map fun k => (y, k)

/-- The first unit of a home Drover's order that a core can take. -/
def nextPlace (s : State) (d : Fin 2) : Option (Waiting × Fin 384) := firstPlace s (examined s d)

/-! ### Placing a unit (R79, R89, R91, R92) -/

/-- A core is made ready for a unit of a record: an idle core adopts its word (R89), and the dispatch is an acquire
(R79). -/
def readyCore (s : State) (k : Fin 384) (r : LRec) : State :=
  let s := if coreIdle s k && s.cores[k].ppw != r.ppw then takeWord s k r.ppw else s
  l1DropClean s k wideLine

/-- The one split of a new warp. -/
def firstSplit (age : BitVec 32) (pc : Word) (mask : Mask) : Split :=
  { age := age, pc := pc, rpc := 0, st := .runnable, depth := 0, record := none, dr := false, mask := mask, count := 0
    idle := 0, overdue := false, held := false, susp := false, stop := .no, timer := 0
    wtimer := 0, fails := [], ewait := none }

/-- A warp as it starts (R62, R91, R251): its registers zero, its lanes live, one split. -/
def newWarp (id : Nat) (c : Fin 64) (k : Fin 384) (q : Fin 4) (kind : WKind) (rank vcount : Nat) (lanes : Mask)
    (age : BitVec 32) (pc : Word) : Warp :=
  { id := id, ctx := c, core := k, quad := q, kind := kind, rank := rank, sub := none, launched := lanes, live := lanes, vcount := vcount
    v := always 256 (always 32 0), s := always 128 0, p := always 8 0, h := always 16 0
    splits := tabulate 8 fun i => if i = 0 then some (firstSplit age pc lanes) else none
    recs := always 16 none, rstack := [], bracket := none, vpend := 0, spend := 0, flags := 0
    handler := none, entered := 0, trec := always 8 0, tepc := 0, tmask := 0, last := always 16 none
    chain := always 4 { counts := always 32 0, closed := 0, occs := [], filled := 0, settled := [] }, tags := always 32 none
    late := [], halting := false, halted := false, ended := false }

/-- The launched lanes of a warp of a unit (R72). -/
def launchedLanes (r : LRec) (u rank : Nat) : Mask :=
  Mask.ofFn fun l => decide ((u * r.wpu + rank) * 32 + l.val < r.items)

/-- Start the warp of a rank of a unit. -/
def startUnitWarp (s : State) (c : Fin 64) (uid u : Nat) (r : LRec) (k : Fin 384) (rank : Nat) : State :=
  let (id, s) := fresh s
  let q : Fin 4 := Fin.ofNat 4 rank
  { s with warps := s.warps ++
      [newWarp id c k q (.unit uid) rank (16 * r.vregs) (launchedLanes r u rank) s.cores[k].issue[q] r.entry] }

/-- A unit as it starts on a core. -/
def newUnit (id : Nat) (c : Fin 64) (l : Launch) (u : Nat) (k : Fin 384) (g : Granules) : UnitSt :=
  { id := id, ctx := c, launch := l.id, index := u, core := k, st := .resident
    regs := BitVec.ofNat 1536 g.regs, scr := BitVec.ofNat 1536 g.scr, acc := BitVec.ofNat 1536 g.acc
    scratch := [], tiles := always 8 Tile.reset, engs := always 8 Eng.reset, bars := always 16 { gen := 0, arr := 0 }
    xctx := always 4 XCtx.reset, cdefs := l.cd.defs, cbufs := [], mailFault := [], cancel := false, since := 0, placed := id
    unsaved := 0 }

/-- A unit has been placed: its reservation ends, and where it was the first of the order, no other count goes on (R83). -/
def placedUnit (s : State) (y : Waiting) (first : Bool) : State :=
  let d := homeDie s y.ctx
  let s := if first then
      { s with ctxs := tabulate 64 fun c => if homeDie s c == d then { s.ctxs[c] with resvUnit := none } else s.ctxs[c] }
    else s
  modCtx s y.ctx fun x => { x with
    resvUnit := x.resvUnit.filter fun z => !(z.1 == y.l.id && z.2.1 == y.index)
    resvCore := x.resvCore.filter fun z => !(z.1 == y.l.id && z.2.1 == y.index) }

/-- Place the next unit of a launch on a core (R91, R92). -/
def placeUnit (s : State) (c : Fin 64) (l : Launch) (k : Fin 384) : State :=
  match roomOn s k l.r with
  | none => s
  | some g =>
    let s := readyCore s k l.r
    let (id, s) := fresh s
    let s := { s with units := s.units ++ [newUnit id c l l.next k g] }
    let s := (List.range (warpCount l.r l.next)).foldl (fun s rank => startUnitWarp s c id l.next l.r k rank) s
    modLaunch s c l.id fun y => { y with st := .running, next := y.next + 1 }

/-- A message of a context's home Drover to the Drover of a core's die, or back (R25, R85). -/
def droverMessage (s : State) (a b : Fin 2) : State := if a = b then s else sendPacket s a droverAgent .drover true

/-- UNIT_DISPATCH (R83): the first unit of the order that a core can take is placed, where it is a unit of this context that has not run.
A unit for the other die waits while the bridge stalls (R26, R85). -/
def execUnitDispatch (c : Fin 64) (s : State) : Host.Outcome State Fault Refusal :=
  let d := homeDie s c
  let ys := examined s d
  match firstPlace s ys with
  | none => .next s
  | some (y, k) =>
    if y.ctx = c && y.unit.isNone && crossing s d (coreDie k) == .free then
      let first := ys.head? == some y
      .next (placedUnit (droverMessage (placeUnit s c y.l k) d (coreDie k)) y first)
    else .next s

/-! ### The reservation (R83) -/

/-- The Drover's count at the end of a cycle: for the first unit of each home Drover's order, from the cycle in which no
core can take it. -/
def countFirst (s : State) : State :=
  let firsts := (List.finRange 2).filterMap fun d => (examined s d).head?
  let due := firsts.filter fun y => (coreFor s y).isNone
  if due.isEmpty && (List.finRange 64).all (fun c => s.ctxs[c].resvUnit.isNone) then s
  else
    { s with ctxs := tabulate 64 fun c =>
        let x := s.ctxs[c]
        match due.find? fun y => y.ctx == c with
        | none => { x with resvUnit := none }
        | some y =>
          match x.resvUnit with
          | some (i, u, _) => if i = y.l.id ∧ u = y.index then x else { x with resvUnit := some (y.l.id, y.index, s.now) }
          | none => { x with resvUnit := some (y.l.id, y.index, s.now) } }

/-- The core of a context's partition with the fewest resident warps, of those that are reserved for no unit (R83). -/
def leastCore (s : State) (c : Fin 64) : Option (Fin 384) :=
  ((List.finRange 384).filter fun k => usable s c k && (reservation s k).isNone).foldl (fun (b : Option (Fin 384)) k =>
    match b with
    | none => some k
    | some j => if warpLoad s k < warpLoad s j then some k else some j) none

/-- DISPATCH_RESERVATION (R83): after 65,536 cycles the Drover reserves the core of the partition with the fewest resident
warps, until the unit is placed. -/
def execDispatchReservation (c : Fin 64) (s : State) : Host.Outcome State Fault Refusal :=
  let x := s.ctxs[c]
  match x.resvUnit with
  | none => .next s
  | some (l, u, since) =>
    if x.st == .running && waitsCore s c l u && decide (since + Config.reserveAfter ≤ s.now)
        && !(x.resvCore.any fun y => y.1 == l && y.2.1 == u) then
      match leastCore s c with
      | some k => .next (modCtx s c fun x => { x with resvCore := x.resvCore ++ [(l, u, k)] })
      | none => .next s
    else .next s

/-! ### Retirement (R71, R79, R80, R92) -/

/-- The warps of a unit. -/
def warpsOf (s : State) (u : Nat) : List Warp := s.warps.filter (inUnit u)

/-- Whether a unit's counter is zero (R71): no warp lives, and no operation of the unit is outstanding. -/
def unitQuiet (s : State) (u : UnitSt) : Bool :=
  (warpsOf s u.id).all (·.ended) && !(s.mops.any fun o => o.unit == u.id && !o.faulted)
    && !(s.copies.any fun o => o.ctx == u.ctx && o.unit == some u.id && !o.faulted)
    && !(s.ctxs[u.ctx].handles.any fun e => e.st == .pending && decide (e.owner = .unit u.id))

/-- A unit retires (R92): its resources are free, its handles are free, and its launch's counter falls. A unit of a chained
launch stays listed until the launch is done. -/
def retireUnit (s : State) (u : UnitSt) : State :=
  let s := freeHandles s u.ctx (.unit u.id)
  let s := { s with
    copies := s.copies.filter fun o => !(o.ctx == u.ctx && o.unit == some u.id)
    mops := s.mops.filter fun o => o.unit != u.id }
  let chained := match recordOf s u with | some r => r.chain | none => false
  let s :=
    if chained then
      modUnit s u.id fun x => { x with
        st := .retired, regs := 0, scr := 0, acc := 0, scratch := [], tiles := always 8 Tile.reset, engs := always 8 Eng.reset
        xctx := always 4 XCtx.reset }
    else { dropWarps s (inUnit u.id) with units := s.units.filter fun x => x.id != u.id }
  modLaunch s u.ctx u.launch fun y => { y with retired := y.retired + 1 }

/-- UNIT_RETIRE (R79, R85, R92, R100): once its counter is zero a unit of a context that does not halt retires, and a launch whose
counter is zero then ends as R79 says. A unit on the other die than the home Drover's reports over the bridge. -/
def execUnitRetire (u : Nat) (s : State) : Host.Outcome State Fault Refusal :=
  match findUnit s u with
  | none => .next s
  | some x =>
    let swapping := match s.cores[x.core].swap with | some (c, _) => c == x.ctx | none => false
    if (x.st == .resident || x.st == .retiring) && unitQuiet s x && !swapping && droverOn s.ctxs[x.ctx] then
      let d := coreDie x.core
      let h := homeDie s x.ctx
      match crossing s d h with
      | .stalled => .next s
      | .down => .next (agentFault s d x.ctx 0x14 0 0 0)
      | .free => .next (examine (retireUnit (droverMessage s d h) x) x.ctx)
    else .next s

/-! ### Job and fault-service warps (R62, R75, R251) -/

/-- Whether a job or fault-service warp has a warp slot of a dispatch core. One of a halted context keeps its slot and counts, which R75 does not
say (log 50). -/
def holdsSlot (k : Fin 384) (w : Warp) : Bool := w.core == k && onDispatch w && w.sub.isSome

/-- Job and fault-service warps that have a place on a dispatch core (R75). -/
def dispatchLoad (s : State) (k : Fin 384) : Nat := (s.warps.filter (holdsSlot k)).length

/-- The lowest free warp slot of a dispatch core (R75, R104; log 50). -/
def freeSub (s : State) (k : Fin 384) : Option (Fin 16) :=
  (List.finRange 16).find? fun i => !(s.warps.any fun w => holdsSlot k w && w.sub == some i)

/-- The dispatch core of a die, and its warp slot, that take a job or fault-service warp (R19, R75). -/
def dispatchPlace (s : State) (d : Fin 2) : Option (Fin 384 × Fin 16) :=
  if s.dies[d].dstate != .online then none
  else
    let best := ((dispatchCores s d).filter fun k => (freeSub s k).isSome).foldl (fun (b : Option (Fin 384)) k =>
      match b with
      | none => some k
      | some j => if dispatchLoad s k < dispatchLoad s j then some k else some j) none
    best.bind fun k => (freeSub s k).map fun i => (k, i)

/-- Whether a start may be served now: its context neither halts nor is halted (R101). -/
def servable1 (s : State) (q : StartReq) : Bool :=
  let st := match q with
    | .job c => s.ctxs[c].st
    | .service c _ => s.ctxs[c].st
  st != .halting && st != .halted

/-- The first start of a die that may be served (R62, R251). -/
def nextStart (s : State) (d : Fin 2) : Option StartReq := s.starts[d].find? (servable1 s)

/-- Take a start from its queue. -/
def takeStart (s : State) (d : Fin 2) (q : StartReq) : State :=
  { s with starts := s.starts.set d.val (s.starts[d].erase q) d.isLt }

/-- Start a warp on a dispatch core: 32 lanes, 256 v-registers, quadrant 0 (R62; log 50). -/
def startDispatch (s : State) (c : Fin 64) (k : Fin 384 × Fin 16) (kind : WKind) (pc : Word) (regs : Warp → Warp) : State :=
  let (id, s) := fresh s
  let w := newWarp id c k.1 0 kind 0 256 (BitVec.allOnes 32) s.cores[k.1].issue[0] pc
  { s with warps := s.warps ++ [{ regs w with sub := some k.2 }] }

/-- JOB_WARP_START (R62): s1 holds ARG and s2 SEQ. -/
def execJobWarpStart (d : Fin 2) (s : State) : Host.Outcome State Fault Refusal :=
  match nextStart s d, dispatchPlace s d with
  | some (.job c), some k =>
    let x := s.ctxs[c]
    let s := modCtx (takeStart s d (.job c)) c fun x => { x with jobWait := false }
    .next (startDispatch s c k .job x.jobEntry fun w => setS (setS w 1 x.jobArg) 2 (x.seq.setWidth 64))
  | _, _ => .next s

/-- FAULT_SERVICE_START (R251): s1 holds the slot, s2 SEQ, s3 to s10 the record. -/
def execFaultServiceStart (d : Fin 2) (s : State) : Host.Outcome State Fault Refusal :=
  match nextStart s d, dispatchPlace s d with
  | some (.service c slot), some k =>
    let x := s.ctxs[c]
    let words := slotWords s d slot
    let s := takeStart s d (.service c slot)
    .next (startDispatch s c k (.service d (some slot)) x.svec fun w =>
      setS (serviceRegs w (BitVec.ofNat 64 slot) words) 2 (x.seq.setWidth 64))
  | _, _ => .next s

end Sys2Proof.Machine
end

