-- ==== Sys2Proof/Machine/Image.lean ====
section
/-! DEFINITION. The save image (R66-R68, R108): its header and sections as bytes at IMAGE, and the state that it carries. What a body holds
in a form that the spec lays out stands in that form: launch records (R76), split tables, rejoin records and return stacks (R115, R120),
registers and scratch, expand contexts (R231), fault records (R248). The rest are free functions of the state that they save (log 13), and
the state that an image of this part carries is kept beside its digest. -/

namespace Sys2Proof.Config

/-- FREE. A part of the body of a section of a save image that the spec does not lay out, by the section's type, the state that is saved,
the section's place among the sections and the part's place in the body (log 13). -/
opaque sectionBody : Nat → Machine.Snapshot → Nat → Nat → List Byte

/-- FREE. The incomplete steps of a saved expand context, each with the participants that have moved past it and the contributions of the
others; R231 names the fields of an entry and not their sizes (log 13). -/
opaque stepBytes : List (Machine.XStep × List Nat) → List Byte

/-- FREE. The state of which the sections of an image written by another part are the saved form, as this part reads it (log 13). -/
opaque foreignImage : List Byte → Option Machine.Snapshot

end Sys2Proof.Config

namespace Sys2Proof.Machine

/-! ### What is written -/

/-- The magic number of an image (R67). -/
def imageMagic : Nat := 0x41463932

/-- The major version of the part's images, which the spec does not number (log 13). -/
def imageMajor : Nat := 1

/-- Whether a fault-service warp of a context serves a slot of a die. -/
def servedSlot (s : State) (c : Fin 64) (d : Fin 2) (slot : Nat) : Bool := s.warps.any fun w => w.ctx == c && w.kind == .service d (some slot)

/-- Records of a context that fault-service warps serve: they go with the warps (R66, R68). -/
def recordsServed (s : State) (c : Fin 64) : List (Fin 2 × SlotRec) :=
  (List.finRange 2).flatMap fun d =>
    ((s.dies[d].slots ++ s.dies[d].served).filter fun r => r.ctx == c && servedSlot s c d r.slot).map fun r => (d, r)

/-- Records of a context that nothing serves yet, for each split that is suspended on them: the part that takes the context over delivers
them again (R68; log 13). -/
def recordsAgain (s : State) (c : Fin 64) : List Await :=
  let pcOf := fun (x : Nat × Fin 8) => match findWarp s x.1 with | some w => (match w.splits[x.2] with | some y => y.pc | none => 0) | none => 0
  (List.finRange 2).flatMap fun d =>
    ((s.dies[d].slots.filter fun r => r.ctx == c && !servedSlot s c d r.slot).flatMap fun r => r.splits.map fun x =>
      ({ die := d
         q := { ctx := c, cause := r.cause, va := r.va, route := r.route, words := r.words, split := x, handle := r.handle, elem := r.elem
                ends := false }
         act := 0, lanes := 0, again := pcOf x } : Await))
      ++ (s.dies[d].faultQ.filter fun q => q.ctx == c && !q.ends).map fun q => { die := d, q := q, act := 0, lanes := 0, again := pcOf q.split }

/-- The state of a context that an image carries (R66). -/
def snapshotOf (s : State) (c : Fin 64) : Snapshot :=
  { ctx := s.ctxs[c], units := s.units.filter fun u => u.ctx == c, warps := s.warps.filter fun w => w.ctx == c
    copies := s.copies.filter fun o => o.ctx == c, mops := s.mops.filter fun o => o.ctx == c, maints := s.maints.filter fun o => o.ctx == c
    carves := s.carves.filter fun o => o.ctx == c, results := [], mails := s.mails.filter fun m => m.ctx == c
    again := recordsAgain s c, served := recordsServed s c }

/-- Engines of a record, as many as EMASK names. -/
def engineCount (r : LRec) : Nat := ((List.range 8).filter fun e => r.emask.getLsbD e).length

/-- The running sums of the owners' lengths: P[o] (R223). -/
def prefixSums (ls : List Nat) : List Nat :=
  (ls.foldl (fun (a : List Nat × Nat) n => (a.1 ++ [a.2], a.2 + n)) ([], 0)).1

/-- The number of a state of an expand context, in the order of R222 (log 13). -/
def xstateCode : XState → Nat
  | .free => 0 | .gathering => 1 | .opened => 2

/-- The first `n` bytes of a list, zeros after its end. -/
def padTo (n : Nat) (xs : List Byte) : List Byte := xs.take n ++ List.replicate (n - xs.length) 0

/-- The tag of a position of an expand context. -/
def tagOf (ws : List Warp) (x : Fin 4) (k : XCtx) (o : Nat × Fin 32) : Option Tag :=
  match k.parts[o.1]? with
  | none => none
  | some p =>
    match ws.find? fun w => w.id == p.warp with
    | none => none
    | some w => w.tags[o.2].filter fun t => t.x == x

/-- The six bytes of a position's tag (R231): the owner, j in four bytes, and the round modulo 256; all ones where there is none. R231 names
what an entry holds and its size, not where it lies: the model's choice (log 13). -/
def tagBytes : Option Tag → List Byte
  | some t => bytesOf 1 t.owner ++ bytesOf 4 t.j ++ bytesOf 1 t.round
  | none => List.replicate 6 0xFF#8

/-- The participants that have moved past a step without a contribution to it (R225). -/
def movedPast (k : XCtx) (x : XStep) : List Nat :=
  (k.parts.filter fun p => !x.parts.contains p.warp &&
    (p.ended || decide (x.round + 1 < p.rounds) || (p.rounds == x.round + 1 && decide (x.ord < p.ord)))).map (·.warp)

/-- The body of section 0x0009 (R231): STATE and G, ARRIVED, RANKS, W, T, START, PREFIX, ROUNDS, STEPS and TAGS. R231 gives sizes only; of
the subfields of a byte or word the first-named is the higher, as in R7: STATE over G in four bits each, rw over the next ordinal's
byte; a round of -1 is all ones (log 13). -/
def xBody (ws : List Warp) (x : Fin 4) (k : XCtx) : List Byte :=
  let n := k.parts.length
  let ps := positions k
  bytesOf 1 (xstateCode k.st * 16 + k.g)
    ++ bytesOf 1 (2 ^ n - 1)
    ++ padTo 8 (k.parts.map fun p => BitVec.ofNat 8 p.rank)
    ++ bytesOf 2 (widthOf k) ++ bytesOf 8 (totalOf k)
    ++ padTo 2048 ((List.range (32 * n)).flatMap fun o => bytesOf 8 (startOf k o).toNat)
    ++ (prefixSums (ownerLens k) ++ List.replicate (256 - 32 * n) (totalOf k)).flatMap (bytesOf 5)
    ++ padTo 64 (k.parts.flatMap fun p => bytesOf 1 p.ord ++ bytesOf 7 (p.rounds + 2 ^ 56 - 1))
    ++ Config.stepBytes (k.steps.map fun x => (x, movedPast k x))
    ++ (ps.map fun o => tagBytes (tagOf ws x k o)).flatten ++ (List.replicate (256 - ps.length) (tagBytes none)).flatten

/-- An entry of a split table (R115). -/
def splitBytes : Option Split → List Byte
  | none => List.replicate 32 0
  | some x =>
    let st := match x.st with | .runnable => 0 | .parked => 1 | .blocked => 2
    let rc := match x.record with | some r => x.rpc.toNat % 2 ^ 57 * 2 ^ 160 + r.val * 2 ^ 52 + 2 ^ 51 | none => 0
    bytesOf 32 (x.age.toNat * 2 ^ 224 + rc + x.pc.toNat % 2 ^ 57 * 2 ^ 64 + 2 ^ 63 + st * 2 ^ 61 + x.depth % 32 * 2 ^ 56
      + x.dr.toNat * 2 ^ 50 + x.mask.toNat)

/-- A rejoin record (R115). -/
def rejoinBytes : Option Rejoin → List Byte
  | none => List.replicate 32 0
  | some r =>
    let df := match r.dset with | some d => d.1.toNat * 2 ^ 224 + d.2.toNat % 2 ^ 57 * 2 ^ 160 + 2 ^ 62 | none => 0
    let pv := match r.parent with | some p => p.val * 2 ^ 53 + 2 ^ 52 | none => 0
    bytesOf 32 (df + r.rpc.toNat % 2 ^ 57 * 2 ^ 64 + 2 ^ 63 + r.depth % 32 * 2 ^ 57 + pv + r.memb % 16 * 2 ^ 48 + r.arrn % 16 * 2 ^ 44
      + r.done.toNat)

/-- A return stack of sixteen entries, in push order (R120). -/
def stackBytes (st : List RetEntry) : List Byte :=
  padTo 256 (st.flatMap fun e => bytesOf 16 (e.link.toNat % 2 ^ 57 * 2 ^ 64 + e.mask.toNat))

/-- A section: its type, and the parts of its body; `none` is a part that the spec does not lay out. -/
abbrev Section := Nat × List (Option (List Byte))

/-- The parts of a warp's section (R108): its rank; its split table, rejoin records and return stack; its other control state, with TREC,
TEPC and TMASK; its v- and s-registers. -/
def warpParts (w : Warp) : List (Option (List Byte)) :=
  [ some (bytesOf 1 w.rank), some ((w.splits.toList.flatMap splitBytes) ++ (w.recs.toList.flatMap rejoinBytes) ++ stackBytes w.rstack), none
  , some ((w.trec.toList ++ [w.tepc, w.tmask]).flatMap fun v => bytesOf 8 v.toNat)
  , some (((w.v.toList.take w.vcount).flatMap fun r => r.toList.flatMap fun v => bytesOf 8 v.toNat)
      ++ w.s.toList.flatMap fun v => bytesOf 8 v.toNat) ]

/-- The sections of a unit (R108): the unit, its warps, its scratch, its tiles, its engines, its expand contexts, its chain buffers. -/
def unitSections (x : Snapshot) (u : UnitSt) : List Section :=
  let ws := x.warps.filter (inUnit u.id)
  let r := (findLaunch x.ctx u.launch).map (·.r)
  let many := fun (n t : Nat) => List.replicate n ((t, [none]) : Section)
  let kib := match r with | some r => r.scrk | none => 0
  many 1 4 ++ ws.map (fun w => ((5, warpParts w) : Section)) ++ [(6, [some (readList u.scratch 0 (1024 * kib))])] ++ many 1 7
    ++ (match r with
      | some r =>
        many (engineCount r) 8
          ++ (if r.xc then (List.finRange 4).map fun k => ((9, [some (xBody ws k u.xctx[k])]) : Section) else [])
          ++ (if r.chain then many 1 10 else [])
      | none => [])

/-- Units of a context that have not been placed yet (R92, R108). -/
def pendingUnits (x : Ctx) : Nat := ((x.launches.filter launchLive).map fun l => l.total - l.next).sum

/-- The sections of a context's image (R108). -/
def sectionsOf (x : Snapshot) : List Section :=
  let many := fun (n t : Nat) => List.replicate n ((t, [none]) : Section)
  let launches := x.ctx.launches.flatMap fun l => [some (l.r.words.flatMap fun v => bytesOf 8 v.toNat), none]
  many 1 1 ++ [(2, some (bytesOf 32 x.ctx.ev.toNat) :: launches)] ++ many 1 3
    ++ ((x.units.filter fun u => u.st != .retired).flatMap (unitSections x))
    ++ many (pendingUnits x.ctx) 4
    ++ many (x.ctx.launches.filter fun l => launchLive l && l.r.chain).length 11
    ++ many x.copies.length 12 ++ (x.warps.filter onDispatch).map (fun w => ((13, warpParts w) : Section))
    ++ many x.carves.length 14
    ++ (x.ctx.await ++ x.again).map fun a => ((15, [some (a.q.words.flatMap fun v => bytesOf 8 v.toNat), none]) : Section)

/-- A section as bytes (R7, R67): its header of 16 bytes, with type, version and a reserved field, then the length of its body; its
body; and padding to a multiple of 64 bytes. -/
def sectionBytes (x : Snapshot) (k : Nat) (y : Section) : List Byte :=
  let body := y.2.zipIdx.flatMap fun p => p.1.getD (Config.sectionBody y.1 x k p.2)
  let n := body.length
  bytesOf 8 (y.1 * 2 ^ 48 + 2 ^ 32) ++ bytesOf 8 n ++ body ++ List.replicate ((64 - (16 + n) % 64) % 64) 0

/-- The sections of an image. -/
def bodyBytes (x : Snapshot) : List Byte := (sectionsOf x).zipIdx.flatMap fun p => sectionBytes x p.2 p.1

/-- The 128-byte header of an image (R7, R67): of the subfields of a word the first-named is the highest. -/
def headerBytes (s : State) (c : Fin 64) (count : Nat) (body : List Byte) : List Byte :=
  let x := s.ctxs[c]
  let p := partOfCtx s c
  bytesOf 8 (imageMagic * 2 ^ 32 + imageMajor * 2 ^ 16) ++ bytesOf 8 (128 + body.length)
    ++ bytesOf 8 ((if x.mode then 2 ^ 56 else 0) + x.die.val * 2 ^ 48 + count % 2 ^ 16 * 2 ^ 32 + bitCount p.isl0 * 2 ^ 24
      + bitCount p.isl1 * 2 ^ 16)
    ++ bytesOf 48 (Config.sha384 body).toNat ++ List.replicate 56 0

/-- Whether a range lies in populated package memory of one die. -/
def inPackage (a n : Nat) : Bool :=
  regionOf a == .package && regionOf (a + n - 1) == .package && decide (a / 2 ^ 40 = (a + n - 1) / 2 ^ 40)

/-- Write the bytes of an image at a physical address (R58, R66): in package memory at the home slices; through a window as writes of 8
bytes on its link; elsewhere there is no memory to write (log 13). -/
def placeImage (s : State) (c : Fin 64) (a : Nat) (bytes : List Byte) : State :=
  let d := homeDie s c
  if inPackage a bytes.length then homeWrite s d (Acc.of c) false a bytes.length (ofBytes bytes)
  else if regionOf a = .system ∨ regionOf a = .domain then
    let (id, s) := fresh s
    (List.range ((bytes.length + 7) / 8)).foldl (fun s k =>
      let part := (bytes.drop (8 * k)).take 8
      let l := link0 c (regionOf a == .system) .write id 0 0 (a + 8 * k) part.length
      (sendLink s d { l with x := BitVec.ofNat 64 (ofBytes part) }).2) s
  else s

/-- The image of a saved state: its bytes at IMAGE, and the record of it that the part keeps. -/
def writeImage (s : State) (c : Fin 64) (x : Snapshot) : State :=
  let a := s.ctxs[c].image.toNat
  let body := bodyBytes x
  let bytes := headerBytes s c (sectionsOf x).length body ++ body
  let digest := Config.sha384 body
  let p := partOfCtx s c
  let i : Image := { pa := a, digest := digest, size := bytes.length, isl0 := bitCount p.isl0, isl1 := bitCount p.isl1, snap := x }
  { placeImage s c a bytes with images := i :: s.images.filter fun y => !(y.digest == digest && y.size == bytes.length) }

/-! ### What is read -/

/-- Whether the sections of an image are all known, or optional, with their reserved fields zero (R8, R67). -/
def sectionsOk (m : Memory) (at_ end_ : Nat) : Nat → Bool
  | 0 => true
  | n + 1 =>
    let word := readN m at_ 8
    let type := word / 2 ^ 48
    let len := readN m (at_ + 8) 8
    let next := at_ + (16 + len + 63) / 64 * 64
    decide (next ≤ end_) && ((decide (1 ≤ type) && decide (type ≤ 15)) || decide (2 ^ 15 ≤ type)) && word % 2 ^ 32 == 0
      && sectionsOk m next end_ n

/-- The digest and size of a well-formed image at an address (R8, R67), with its header's mode and island counts. -/
structure Header where
  size : Nat
  digest : BitVec 384
  mode : Nat
  isl0 : Nat
  isl1 : Nat
  deriving DecidableEq, Repr

/-- Read the header of an image, and check all of it that does not depend on who imports it. -/
def readHeader (s : State) (a : Nat) : Option Header :=
  let w0 := readN s.mem a 8
  let size := readN s.mem (a + 8) 8
  let w2 := readN s.mem (a + 16) 8
  let fixed := inPackage a 128 && decide (128 ≤ size) && inPackage a size && w0 / 2 ^ 32 == imageMagic
    && w0 / 2 ^ 16 % 2 ^ 16 == imageMajor && w2 % 2 ^ 16 == 0 && readN s.mem (a + 0x48) 56 == 0
  if fixed then
    let digest := Config.sha384 (readList s.mem (a + 128) (size - 128))
    if readN s.mem (a + 24) 48 = digest.toNat && sectionsOk s.mem (a + 128) (a + size) (w2 / 2 ^ 32 % 2 ^ 16) then
      some { size := size, digest := digest, mode := w2 / 2 ^ 56, isl0 := w2 / 2 ^ 24 % 2 ^ 8, isl1 := w2 / 2 ^ 16 % 2 ^ 8 }
    else none
  else none

/-- The state that an image in package memory carries: what this part wrote, or the state of which its sections are the saved form (R66, R68,
R108), which the model does not compute from an image of another part (log 13). -/
def imageState (s : State) (a : Nat) (h : Header) : Option Snapshot :=
  match s.images.find? fun i => i.digest == h.digest && i.size == h.size with
  | some i => some i.snap
  | none =>
    let body := readList s.mem (a + 128) (h.size - 128)
    (Config.foreignImage body).filter fun x => bodyBytes x == body

/-- Whether an import can read an address: memory of the package, or a window whose link is up (R35, R42, R58). -/
def imageServed (s : State) (c : Fin 64) (a : Nat) : Bool :=
  let d := homeDie s c
  match regionOf a with
  | .package => true
  | .domain => routeTo s d a != .none
  | .system => s.host.up && (d == 0 || !s.bridge.down)
  | .hole => false

end Sys2Proof.Machine

/-- FREE. What an import reads through a window at a place where this part has written no image, at a time (log 13). -/
opaque Sys2Proof.Config.windowImage : Nat → Nat → Option (Sys2Proof.Machine.Header × Sys2Proof.Machine.Snapshot)

namespace Sys2Proof.Machine

/-- The header and the state of an image in a window (R58, R66): what this part wrote there, taken to be unchanged (log 13). -/
def windowImage (s : State) (a : Nat) : Option (Header × Snapshot) :=
  match s.images.find? fun i => i.pa == a with
  | some i => some ({ size := i.size, digest := i.digest, mode := i.snap.ctx.mode.toNat, isl0 := i.isl0, isl1 := i.isl1 }, i.snap)
  | none => Config.windowImage a s.now

/-- The state of the image at IMAGE, where R67 lets a context import it. -/
def importable (s : State) (c : Fin 64) : Option Snapshot :=
  let x := s.ctxs[c]
  let p := partOfCtx s c
  let a := x.image.toNat
  let fits := fun (h : Header) =>
    h.mode == (if x.mode then 1 else 0) && decide (h.isl0 ≤ bitCount p.isl0) && decide (h.isl1 ≤ bitCount p.isl1)
  if !imageServed s c a then none
  else if regionOf a = .package then (readHeader s a).bind fun h => if fits h then imageState s a h else none
  else (windowImage s a).bind fun y => if fits y.1 then some y.2 else none

/-! ### A context that is spilled (R105) -/

/-- The image that a context was spilled to, as it stands at IMAGE; one in a window is taken as it was written (log 13). -/
def spilledImage (s : State) (c : Fin 64) : Option Snapshot :=
  let a := s.ctxs[c].image.toNat
  let mine := s.images.filter fun i => i.pa == a && i.snap.units.all fun u => u.ctx == c
  if inPackage a 128 then (readHeader s a).bind fun h => (mine.find? fun i => i.digest == h.digest && i.size == h.size).map (·.snap)
  else mine.head?.map (·.snap)

/-- Read the saved units of a spilled context back from its image (R105). -/
def unspill (s : State) (c : Fin 64) : Option State :=
  if s.ctxs[c].spilled then
    (spilledImage s c).map fun x =>
      let us := x.units.filter fun u => u.st == .swapped && !(s.units.any fun v => v.id == u.id)
      { s with
        ctxs := (modCtx s c fun y => { y with spilled := false }).ctxs
        units := s.units ++ us
        warps := s.warps ++ x.warps.filter fun w => us.any fun u => inUnit u.id w }
  else some s

/-- Write the image of a halted context at IMAGE (R60, R66). -/
def exportImage (s : State) (c : Fin 64) : State := writeImage s c (snapshotOf ((unspill s c).getD s) c)

/-- Spill the state of a halted context's units to its image (R105): it is held in shadow storage no more. -/
def spillCtx (s : State) (c : Fin 64) : State :=
  if s.ctxs[c].spilled then s
  else
    let s := exportImage s c
    let us := s.units.filter fun u => u.ctx == c && u.st == .swapped
    let gone := fun (w : Warp) => us.any fun u => inUnit u.id w
    modCtx { s with
      units := s.units.filter fun u => !(u.ctx == c && u.st == .swapped)
      warps := s.warps.filter fun w => !gone w } c fun x => { x with spilled := true }

/-! ### What an import makes -/

/-- Move the ids of a warp up by an offset, and give it a context and its records a die. A fault-service warp keeps the record that it
serves, a record of the part it comes from; a split that is suspended stays so (R68; log 13). -/
def moveWarp (c : Fin 64) (dieOf_ : Fin 2 → Fin 2) (b : Nat) (w : Warp) : Warp :=
  { w with
    id := w.id + b, ctx := c, sub := none, entered := 0
    kind := match w.kind with
      | .unit u => .unit (u + b)
      | .job => .job
      | .service d n => .service (dieOf_ d) (n.map fun k => Config.faultSlots + k)
    splits := tabulate 8 fun i => w.splits[i].map fun (x : Split) => { x with fails := [] } }

/-- Move the ids of an expand context. -/
def moveX (b : Nat) (x : XCtx) : XCtx :=
  { x with
    parts := x.parts.map fun p => { p with warp := p.warp + b }
    steps := x.steps.map fun t => { t with parts := t.parts.map (· + b) } }

/-- Move the ids of a unit. -/
def moveUnit (c : Fin 64) (b : Nat) (u : UnitSt) : UnitSt :=
  { u with id := u.id + b, ctx := c, xctx := tabulate 4 fun i => moveX b u.xctx[i] }

/-- Move the ids of a handle-table entry. -/
def moveEntry (b : Nat) (e : HEntry) : HEntry :=
  { e with
    creator := e.creator + b, finalAt := e.finalAt + b
    owner := match e.owner with | .unit u => .unit (u + b) | .warp w => .warp (w + b) }

/-- A number above every id of a snapshot. -/
def snapBound (x : Snapshot) : Nat :=
  let up := fun (n m : Nat) => max n (m + 1)
  let n := (x.warps.map (·.id)).foldl up 0
  let n := (x.units.map (·.id)).foldl up n
  let n := (x.copies.map (·.id)).foldl up n
  let n := (x.mops.map (·.id)).foldl up n
  let n := (x.maints.map (·.id)).foldl up n
  let n := (x.ctx.handles.map (·.finalAt)).foldl up n
  (x.ctx.launches.map (·.age)).foldl up n

/-- The words of a record on the part that takes it over: it names the new context, partition and die (R108). -/
def moveRecord (c : Fin 64) (part : Nat) (d : Fin 2) (words : List Word) : List Word :=
  BitVec.ofNat 64 ((words.getD 0 0).toNat / 2 ^ 24 * 2 ^ 24 + c.val * 2 ^ 16 + part * 2 ^ 8 + d.val) :: words.drop 1

/-- A fault that waits for the resume, on the part that takes it over (R108). -/
def moveAwait (c : Fin 64) (part : Nat) (d : Fin 2) (b : Nat) (x : Await) : Await :=
  { x with
    die := d
    q := { x.q with ctx := c, split := (x.q.split.1 + b, x.q.split.2), words := moveRecord c part d x.q.words } }

/-- A record that an imported fault-service warp serves. -/
def moveServed (c : Fin 64) (part : Nat) (d : Fin 2) (b : Nat) (r : SlotRec) : SlotRec :=
  { r with
    slot := Config.faultSlots + r.slot, ctx := c, words := moveRecord c part d r.words
    splits := r.splits.map fun x => (x.1 + b, x.2) }

/-- The context that an import makes (R60, R66): halted, with the image's state and the entry's own fields. -/
def importedCtx (c : Fin 64) (y : Ctx) (dieOf_ : Fin 2 → Fin 2) (b : Nat) (again : List Await) (x : Ctx) : Ctx :=
  { x with
    st := .halted, mode := y.mode, die := y.die, part := y.part, vec := y.vec, root := y.root, image := y.image
    entry := y.entry, arg := y.arg, caddr := y.caddr, jobWait := false, spilled := false, resvUnit := none, resvCore := []
    before := if x.before = .running then .running else .idle
    launches := x.launches.map fun (l : Launch) => { l with age := l.age + b }
    handles := x.handles.map (moveEntry b)
    await := (x.await ++ again).map fun a => moveAwait c y.part.val (dieOf_ a.die) b a }

/-- The die on which a job or fault-service warp of a context runs (R59, R251). -/
def seatDie (s : State) (w : Warp) : Fin 2 :=
  match w.kind with
  | .service d _ => if s.ctxs[w.ctx].mode then s.ctxs[w.ctx].die else d
  | _ => homeDie s w.ctx

/-- Give a job or fault-service warp that has no warp slot one, if one is free (R75, R104). -/
def seatWarp (s : State) (w : Warp) : State :=
  match dispatchPlace s (seatDie s w) with
  | some (k, i) => modWarp s w.id fun x => { x with core := k, sub := some i }
  | none => s

/-- Seat every job and fault-service warp of a context that has no warp slot. -/
def seatWarps (s : State) (c : Fin 64) : State :=
  (s.warps.filter fun w => w.ctx == c && onDispatch w && w.sub.isNone).foldl seatWarp s

/-- Load an image's state into a context (R60, R66, R67). Its job and fault-service warps take places of dispatch cores, or wait for
one until the resume (R104). A pending `carve` stays on its core number (R100). -/
def loadImage (s : State) (c : Fin 64) (x : Snapshot) : State :=
  let b := s.serial
  let y := s.ctxs[c]
  let d := homeDie s c
  let dieOf_ := fun (e : Fin 2) => if y.mode then d else e
  let s := modCtx { s with serial := b + snapBound x } c fun y => importedCtx c y dieOf_ b x.again x.ctx
  let s := x.served.foldl (fun s r => modDie s (dieOf_ r.1) fun z => { z with
    served := moveServed c y.part.val (dieOf_ r.1) b r.2 :: z.served }) s
  let eng := fun (e : Nat) => if y.mode then 128 * d.val + e % 128 else e
  let at_ := fun (k : Fin 384) => if y.mode then coreAt d k.val else k
  seatWarps { s with
    warps := s.warps ++ x.warps.map (moveWarp c dieOf_ b)
    units := s.units ++ x.units.map (moveUnit c b)
    copies := s.copies ++ x.copies.map fun (o : CopyOp) =>
      { o with
        id := o.id + b, ctx := c, eng := eng o.eng, core := at_ o.core, unit := o.unit.map (· + b), tags := [], buf := [], sent := false }
    mops := s.mops ++ x.mops.map fun (o : MatOp) =>
      { o with id := o.id + b, ctx := c, unit := o.unit + b, warp := o.warp + b, tags := [], buf := [], issued := 0 }
    maints := s.maints ++ x.maints.map fun (o : Maint) => { o with id := o.id + b, ctx := c, core := at_ o.core, tags := [] }
    carves := s.carves ++ x.carves.map fun (o : CarveOp) => { o with ctx := c }
    mails := s.mails ++ x.mails.map fun (m : Mail) => { m with ctx := c } } c

end Sys2Proof.Machine
end

