-- ==== Sys2Proof/Machine/Copy.lean ====
section
/-! DEFINITION. The copy engines (R138, R140, R145, R155-R157, R340-R348): the issue of a copy, and the event that
processes its next element. -/

namespace Sys2Proof.Machine

/-! ### Issue -/

/-- The addresses of an operation's global operands: destination, source, index array, in that order (R341). -/
def globalOperands (k : CKind) (o : COp) (w : Warp) : List Word :=
  let dst := if o.dsp then [] else [sreg w o.sb]
  let src := if o.ssp || k == .fill then [] else [sreg w o.sa]
  let idx := match k with
    | .gather isp _ | .scatter isp _ => if isp then [] else [sreg w o.sd]
    | _ => []
  dst ++ src ++ idx

/-- A copy engine of a slice of a die that a quadrant's copies go to, as a package number 128 * die + engine (R341). -/
def engineAt (w : Warp) (slice : Nat) : Nat := 128 * (coreDie w.core).val + 2 * slice + w.quad.val % 2

/-- The copy engine that runs a copy (R341): of the home slice of its first global operand, or of the core's own number; where the operand's
translation is missing, the page to walk. -/
def engineOf (s : State) (w : Warp) (k : CKind) (o : COp) : Except Nat Nat :=
  let own := engineAt w (w.core.val % 64)
  match globalOperands k o w with
  | [] => .ok own
  | a :: _ =>
    match translate s w.core w.ctx a with
    | .ok pa _ => .ok (if regionOf pa == .package && dieOf pa == coreDie w.core then engineAt w (homeSlice pa).val else own)
    | .bad _ _ => .ok own
    | .miss => .error (a.toNat / 2 ^ 16)

/-- Elements of an operation (R343, R345, R346). -/
def copyCount (o : CopyOp) : Nat :=
  match o.kind with
  | .twoD => bitsOf o.c 0 32 * bitsOf o.c 32 32
  | _ => bitsOf o.c 0 32

/-- The first row of R342: a bad count. -/
def countBad (o : CopyOp) : Bool :=
  match o.kind with
  | .twoD => decide (2 ^ 32 - 1 < copyCount o)
  | _ => bitsOf o.c 32 32 != 0

/-- Whether an engine holds an operation (R102, R341): no fault has stopped it, and its checkpoint does not stand aside with a halted context
or a unit that is saved away. -/
def copyHere (s : State) (o : CopyOp) : Bool :=
  let home := match o.unit with
    | some u => (match findUnit s u with | some y => y.st != .swapped | none => true)
    | none => true
  !o.faulted && s.ctxs[o.ctx].st != .halted && home

/-- Issue a copy of a kind (R126, R157, R341). -/
def issueCopy (s : State) (c : Iss) (o : COp) (k : CKind) : Effect :=
  match engineOf s c.w k o with
  | .error page => askAll s c [page]
  | .ok e =>
  if 32 ≤ (s.copies.filter fun x => x.eng == e && copyHere s x).length then .rest s
  else
    match handleRoom s c.w o.hn with
    | none => .rest s
    | some s =>
      (releaseAt s c.w .die).andThen fun s =>
        let (h, s) := giveHandle s c o.hn 1 e
        let (id, s) := fresh s
        let op : CopyOp :=
          { id := id, ctx := c.w.ctx, handle := h, eng := e, core := c.w.core, kind := k, ssp := o.ssp, dsp := o.dsp
            unit := match c.w.kind with | .unit u => some u | _ => none
            h := o.h, ty := o.ty, a := sreg c.w o.sa, b := sreg c.w o.sb, c := sreg c.w o.sc, d := sreg c.w o.sd
            i := 0, slot := none, faulted := false, tags := [], buf := [], sent := false, sysw := none, bad := none, ending := none
            checked := none }
        if copyCount op = 0 && !countBad op then .next (endHandle s c.w.ctx h .done fun e => e)
        else .next { s with copies := s.copies ++ [op] }

/-- `cpy` (R343). -/
def execCpy (o : COp) (s : State) : Host.Outcome State Fault Refusal :=
  issueWarp (.cpy o) (fun s c => issueCopy s c o .plain) s

/-- `cpy.2d` (R343). -/
def execCpy2d (o : COp) (s : State) : Host.Outcome State Fault Refusal :=
  issueWarp (.cpy2d o) (fun s c => issueCopy s c o .twoD) s

/-- `cpy.gth` (R343). -/
def execCpyGth (o : COp) (isp iw : Bool) (s : State) : Host.Outcome State Fault Refusal :=
  issueWarp (.cpyGth o isp iw) (fun s c => issueCopy s c o (.gather isp iw)) s

/-- `cpy.sct` (R343). -/
def execCpySct (o : COp) (isp iw : Bool) (s : State) : Host.Outcome State Fault Refusal :=
  issueWarp (.cpySct o isp iw) (fun s c => issueCopy s c o (.scatter isp iw)) s

/-- `cpy.red` (R345). -/
def execCpyRed (o : COp) (op : CRedOp) (s : State) : Host.Outcome State Fault Refusal :=
  issueWarp (.cpyRed o op) (fun s c => issueCopy s c o (.reduce op)) s

/-- `cpy.fill` (R343). -/
def execCpyFill (o : COp) (s : State) : Host.Outcome State Fault Refusal :=
  issueWarp (.cpyFill o) (fun s c => issueCopy s c o .fill) s

/-- `cpy.cvt` (R346). -/
def execCpyCvt (o : COp) (sat dec wide : Bool) (f : TFmt) (s : State) : Host.Outcome State Fault Refusal :=
  issueWarp (.cpyCvt o sat dec wide f) (fun s c =>
    issueCopy s c o (if dec then .decode sat wide f else .encode sat wide f)) s

/-! ### Accesses of an engine -/

/-- What a part of an element comes to: a value with how many link reads it has used; a link access to send; a fault; or
a page to walk, a crossing to wait for or a translation that has changed, so that the element starts again. -/
inductive Part1 (α : Type) where
  | ok (x : α) (k : Nat) (s : State)
  | send (l : LinkOp) (s : State)
  | bad (f : FaultInfo) (s : State)
  | again (s : State)

/-- Go on with the value of a part. -/
def Part1.bind {α β : Type} (p : Part1 α) (f : α → Nat → State → Part1 β) : Part1 β :=
  match p with
  | .ok x k s => f x k s
  | .send l s => .send l s
  | .bad f s => .bad f s
  | .again s => .again s

/-- The die of an engine. -/
def engDie (o : CopyOp) : Fin 2 := if o.eng < 128 then 0 else 1

/-- Locate an address for an operation of an engine, through its die's shared TLB and walkers (R133, R136, R342). -/
def engLook (s : State) (o : CopyOp) (va : Word) (wr : Bool) : Look := (translateEng s (engDie o) o.id o.ctx va).spot s o.ctx (engDie o) va wr

/-- The way of an engine's access: at the home slice, past L1 (R344). -/
def engWay (wr posted : Bool) : Way := { core := none, home := true, wr := wr, posted := posted }

/-- Go on with what an address of an engine comes to: a miss asks a walker of the die (R136). -/
def Look.part {α : Type} (x : Look) (s : State) (o : CopyOp) (k : Spot → Part1 α) : Part1 α :=
  match x with
  | .ok p => k p
  | .miss page => .again (askWalkFor s (engDie o) (.op o.id) o.ctx page)
  | .stall => .again s
  | .bad f => .bad f s

/-- What `n` bytes of a spot in this package read for an engine of a die, and the caches after. -/
def engBytes (s : State) (d : Fin 2) (q : Acc) (p : Spot) (a n : Nat) : Nat × State :=
  if p.kind = .package then
    (sectorBytes (l2Peek s d q.wide) (n + 1) a n, (sectorsOf a n).foldl (fun s sec => (l2Read s d sec q).2) s)
  else (readN s.mem a n, windowTouch s d a n)

/-- The scratch of an operation's unit, and its size. -/
def engScratch (s : State) (o : CopyOp) : Option (UnitSt × Nat) :=
  match o.unit with
  | none => none
  | some u =>
    match findUnit s u with
    | none => none
    | some x => (match launchOf s x with | some l => some (x, l.r.scrk * 1024) | none => none)

/-- The scratch bounds of an access (R128, R342). -/
def engBounds (s : State) (o : CopyOp) (off n : Nat) : Option FaultInfo :=
  match engScratch s o with
  | some (_, size) => if size < off + n then some { faultOf 9 with va := BitVec.ofNat 64 off } else none
  | none => some { faultOf 9 with va := BitVec.ofNat 64 off }

/-- A scratch offset from an address. -/
def offOf (a : Word) : Nat := a.toNat % 2 ^ 32

/-- Read `n` bytes, at most 8, of the source or the index of an element; `k` counts the link reads used so far. -/
def engRead (s : State) (o : CopyOp) (k : Nat) (sp raw : Bool) (a : Word) (n : Nat) : Part1 Nat :=
  if sp then
    match engBounds s o (offOf a) n with
    | some f => .bad f s
    | none => .ok (match engScratch s o with | some (u, _) => readN u.scratch (offOf a) n | none => 0) k s
  else
    let d := engDie o
    let checked := (engLook s o a false).then_ fun p =>
      if !raw && pteFmt p.e.pte != 0 then faultAt 6 p else readLook s d (engWay false false) n p
    checked.part s o fun p =>
      match localPaOf s d p with
      | some pa =>
        let (x, s) := engBytes s d (engAcc s o.ctx o.h p) p pa n
        .ok x k s
      | none =>
        match o.buf[k]? with
        | some x => .ok (x.toNat % 2 ^ (8 * n)) (k + 1) s
        | none => .send { spotLink o.ctx .read 0 0 p n with copy := some o.id } s

/-- Where an element's write goes, once its checks have passed. -/
inductive Dest where
  | scratch (off : Nat)
  | place (p : Spot)
  deriving DecidableEq, Repr

/-- The format rule of a raw copy's write (R140, R145): `src` is the entry of the source's page, if it has one. -/
def rawAllowed (s : State) (o : CopyOp) (src : Option Word) (dst : Word) : Bool :=
  if pteFmt dst = 0 then true
  else
    match o.kind, src with
    | .plain, some p | .twoD, some p =>
      pteFmt p == pteFmt dst &&
      (pteClass p == pteClass dst ||
        (pteClass p == 0 && pteClass dst == 1
          && s.ctxs[o.ctx].handles.any fun e => e.st == .faulted && e.cause == 0xB))
    | _, _ => false

/-- What an engine's write meets once R133 has passed. A write of the host link is posted (R42); `cpy.red` is an atomic there, and in
this package its line is recalled to its home slice. -/
def engReach (s : State) (o : CopyOp) (p : Spot) : Look :=
  let d := engDie o
  match o.kind with
  | .reduce _ =>
    ((reachLook s d (engWay true false) [p.pa / 64] p).then_ (recallLook s d)).then_ fun p =>
      match localPaOf s d p with
      | some a => eccLook s d (engWay true false) [(a, tyBytes o.ty)] p
      | none => .ok p
  | _ => writeLook s d (engWay true true) p

/-- The checks of an element's write (R133, R138, R140, R342). -/
def engDest (s : State) (o : CopyOp) (k : Nat) (a : Word) (n : Nat) (allow : State → Word → Option Nat) : Part1 Dest :=
  if o.dsp then
    match engBounds s o (offOf a) n with
    | some f => .bad f s
    | none => .ok (.scratch (offOf a)) k s
  else
    let checked := (engLook s o a true).then_ fun p =>
      match allow s p.e.pte with
      | some cause => faultAt cause p
      | none => engReach s o p
    checked.part s o fun p => .ok (.place p) k s

/-- Set D and mark the bitmap before an engine's write, and go on (R65, R134): it waits while its entry lies behind a bridge that stalls,
starts again where its entry has changed, and faults where it cannot be marked. -/
def engDirty {α : Type} (s : State) (o : CopyOp) (p : Spot) (k : State → Part1 α) : Part1 α :=
  let d := engDie o
  (markLook s d o.ctx p).part s o fun p =>
    match setDirty s none d o.ctx ((tlbFind s.dies[d].tlb o.ctx p.va.toNat).getD p.e) p.pa with
    | none => .again (tlbForget s none d o.ctx p.va.toNat)
    | some s => k s

/-- Note the scope of a page that an operation writes (R172). -/
def noteScope (s : State) (c : Fin 64) (h : BitVec 32) (sc : Scope) : State :=
  modEntry s c h fun e => { e with wscope := if scopeCode e.wscope < scopeCode sc then sc else e.wscope }

/-- Write `n` bytes of an element (R344): the answer tells whether it is committed, or a link access to wait for. -/
def engWrite (s : State) (o : CopyOp) (t : Dest) (n x : Nat) : Part1 Unit :=
  match t with
  | .scratch off =>
    (match engScratch s o with
      | some (u, _) => .ok () 0 (modUnit s u.id fun y => { y with scratch := writeN y.scratch off n x })
      | none => .ok () 0 s)
  | .place p =>
    engDirty s o p fun s =>
      let s := noteScope s o.ctx o.handle p.scope
      match localPaOf s (engDie o) p with
      | some pa => .ok () 0 (writeHome s (engDie o) (engAcc s o.ctx o.h p) p false pa n x)
      | none => .send { spotLink o.ctx .write 0 0 p n with copy := some o.id, x := BitVec.ofNat 64 x } s

/-! ### The elements of the raw forms -/

/-- size(T). -/
def elemSize (o : CopyOp) : Nat := tyBytes o.ty

/-- A signed 32-bit stride. -/
def strideOf (w : Word) (lo : Nat) : Word := wordOfInt (signedOf 32 (bitsOf w lo 32))

/-- The source and destination addresses of element `e`, from its index (R343). -/
def elemAddrs (o : CopyOp) (e : Nat) (idx : Nat) : Word × Word :=
  let m := fun (n : Nat) => BitVec.ofNat 64 (n * elemSize o)
  match o.kind with
  | .twoD =>
    let c := bitsOf o.c 0 32
    let r := BitVec.ofNat 64 (e / c)
    (o.a + r * strideOf o.d 0 + m (e % c), o.b + r * strideOf o.d 32 + m (e % c))
  | .gather _ _ => (o.a + m idx, o.b + m e)
  | .scatter _ _ => (o.a + m e, o.b + m idx)
  | _ => (o.a + m e, o.b + m e)

/-- The index of an element, where its form has one. -/
def elemIndex (s : State) (o : CopyOp) (e : Nat) : Part1 Nat :=
  match o.kind with
  | .gather isp iw | .scatter isp iw =>
    engRead s o 0 isp true (o.d + BitVec.ofNat 64 (e * (if iw then 8 else 4))) (if iw then 8 else 4)
  | _ => .ok 0 0 s

/-- Whether an operand address of a raw form breaks its alignment (R342, row 2). -/
def rawMisaligned (o : CopyOp) : Option Word :=
  let n := elemSize o
  let odd := fun (a : Word) (k : Nat) => a.toNat % k != 0
  let idx := match o.kind with
    | .gather _ iw | .scatter _ iw => odd o.d (if iw then 8 else 4)
    | _ => false
  if o.kind != .fill && odd o.a n then some o.a
  else if odd o.b n then some o.b
  else if idx then some o.d
  else if o.kind == .twoD && (bitsOf o.d 0 32 % n != 0 || bitsOf o.d 32 32 % n != 0) then some o.d
  else none

/-- The entry of a source's page, for the rule of R140. -/
def sourcePage (s : State) (o : CopyOp) (a : Word) : Option Word :=
  if o.ssp || o.kind == .fill then none
  else
    match translateEng s (engDie o) o.id o.ctx a with
    | .ok _ e => some e.pte
    | _ => none

/-- The operation of `cpy.red` as one of R325. -/
def credAtom : CRedOp → AtomOp
  | .add => .add | .min => .min | .max => .max | .and => .and | .or => .or | .xor => .xor

/-- Combine a value into an element of the destination, as `atom` does (R345). -/
def engReduce (s : State) (o : CopyOp) (t : Dest) (op : AtomOp) (x : Nat) : Part1 Unit :=
  let n := elemSize o
  match t with
  | .scratch off =>
    (match engScratch s o with
      | some (u, _) =>
        .ok () 0 (modUnit s u.id fun y => { y with
          scratch := writeN y.scratch off n (atomNew op o.ty (readN y.scratch off n) x 0) })
      | none => .ok () 0 s)
  | .place p =>
    engDirty s o p fun s =>
      let s := noteScope s o.ctx o.handle p.scope
      match localPaOf s (engDie o) p with
      | some pa =>
        .ok () 0 (writeHome s (engDie o) (engAcc s o.ctx o.h p) p true pa n (atomNew op o.ty (readN s.mem pa n) x 0))
      | none =>
        .send { spotLink o.ctx .atomic 0 0 p n with
          copy := some o.id, op := op, ty := o.ty, x := BitVec.ofNat 64 x } s

/-- The scratch accesses of an element whose places are known: before its index is read, those that do not depend on it. -/
def elemScratch (o : CopyOp) (e : Nat) (idx : Option Nat) : List (Nat × Nat) :=
  let n := elemSize o
  let (sa, da) := elemAddrs o e (idx.getD 0)
  let known := idx.isSome
  let src := if o.ssp && o.kind != .fill then
      (match o.kind with | .gather _ _ => if known then [(offOf sa, n)] else [] | _ => [(offOf sa, n)]) else []
  let dst := if o.dsp then
      (match o.kind with | .scatter _ _ => if known then [(offOf da, n)] else [] | _ => [(offOf da, n)]) else []
  let ix := match o.kind with
    | .gather isp iw | .scatter isp iw =>
      let w := if iw then 8 else 4
      if isp then [(offOf (o.d + BitVec.ofNat 64 (e * w)), w)] else []
    | _ => []
  ix ++ src ++ dst

/-- The bounds of scratch accesses, which R342 checks before anything in global memory. -/
def allBounds (s : State) (o : CopyOp) (xs : List (Nat × Nat)) : Option FaultInfo := xs.findSome? fun x => engBounds s o x.1 x.2

/-- One element of a raw form or of `cpy.red` (R342-R345). -/
def rawElem (s : State) (o : CopyOp) : Part1 Unit :=
  let n := elemSize o
  let index : Part1 Nat := match allBounds s o (elemScratch o o.i none) with
    | some f => .bad f s
    | none => elemIndex s o o.i
  index.bind fun idx k s =>
    let (sa, da) := elemAddrs o o.i idx
    match allBounds s o (elemScratch o o.i (some idx)) with
    | some f => .bad f s
    | none =>
      let src : Part1 Nat :=
        if o.kind == .fill then .ok (o.a.toNat % 2 ^ (8 * n)) k s else engRead s o k o.ssp true sa n
      src.bind fun x k s =>
        let page := sourcePage s o sa
        (engDest s o k da n fun s pte => if rawAllowed s o page pte then none else some 7).bind fun t _ s =>
          match o.kind with
          | .reduce op => engReduce s o t (credAtom op) x
          | _ => engWrite s o t n x

/-! ### The elements of `cpy.cvt` (R346, R347) -/

/-- The MX format of a term format, where it is one. -/
def mxOf : TFmt → Option MxFmt
  | .mxint8 => some .mxint8 | .e4m3 => some .e4m3 | .e3m2 => some .e3m2 | .e2m1 => some .e2m1 | _ => none

/-- v of an element code, in units of 2^-f; `none` for a NaN (R142). -/
def codeToInt (f : TFmt) (x : Nat) : Option Int :=
  match tfloat f with
  | none => some (signedOf (if f = .int4 then 4 else 8) x)
  | some fm =>
    match fVal fm x with
    | .num neg m e => some (if neg then -((m * 2 ^ (e + tfrac f).toNat : Nat) : Int) else ((m * 2 ^ (e + tfrac f).toNat : Nat) : Int))
    | _ => none

/-- Encode the elements present of a block (R347): the elements and the scale. -/
def encodeElems (f : TFmt) (t : Ty) (sat : Bool) (xs : List Nat) : List (Option Int) × Nat :=
  match mxOf f with
  | none => (xs.map fun x => some (signedOf (tyWidth t) x), 0x7F)
  | some k =>
    let sc := mxScale k (xs.map fun x => fVal (fmtOf t) x)
    if sc = 0xFF then (xs.map fun _ => if f = .e4m3 then none else some 0, 0xFF)
    else (xs.map fun x => codeToInt f (mxEncode k t .rne sat x sc).1, sc)

/-- Decode an element of a block (R347). -/
def decodeElem (f : TFmt) (t : Ty) (sat : Bool) (e : Option Int) (scale : Nat) : Nat :=
  match mxOf f with
  | none =>
    let v := match e with | some v => v | none => 0
    if tyFloat t then (roundMag (fmtOf t) .rne sat (decide (v < 0)) v.natAbs 0 false).1 else lowBits (tyWidth t) v
  | some k => (mxDecode k t .rne sat (telemBits f e) scale).1

/-- Read plain element `e` (R346): an i4 element is a nibble. -/
def plainRead (s : State) (o : CopyOp) (k : Nat) (e : Nat) : Part1 Nat :=
  if o.ty = .i4 then
    (engRead s o k o.ssp false (o.a + BitVec.ofNat 64 (e / 2)) 1).bind fun x k s => .ok (x / 2 ^ (4 * (e % 2)) % 16) k s
  else engRead s o k o.ssp false (o.a + BitVec.ofNat 64 (e * elemSize o)) (elemSize o)

/-- Read `n` plain elements from `e` on. -/
def plainList (s : State) (o : CopyOp) (e : Nat) : Nat → Nat → Part1 (List Nat)
  | 0, k => .ok [] k s
  | n + 1, k => (plainRead s o k e).bind fun x k s => (plainList s o (e + 1) n k).bind fun xs k s => .ok (x :: xs) k s

/-- Read 64-byte pieces of a source slot, low first. -/
def slotRead (s : State) (o : CopyOp) (a : Word) : Nat → Nat → Part1 Nat
  | 0, k => .ok 0 k s
  | n + 1, k =>
    (engRead s o k o.ssp true a 8).bind fun x k s =>
      (slotRead s o (a + 8) n k).bind fun y k s => .ok (x + 2 ^ 64 * y) k s

/-- Check the page of a global term block (R347): its format, and the class that gives the slot size. -/
def termPage (f : TFmt) (slot : Nat) (cause : Nat) (pte : Word) : Option Nat :=
  if pteFmt pte = tfmtNum f ∧ slotBytes (pteClass pte == 1) = slot then none else some cause

/-- One block of an encode (R145, R347). -/
def encodeBlock (s : State) (o : CopyOp) (sat : Bool) (f : TFmt) (slot : Nat) : Part1 Unit :=
  let n := min 32 (copyCount o - o.i)
  let da := o.b + BitVec.ofNat 64 (o.i / 32 * slot)
  let bounds := if o.dsp then engBounds s o (offOf da) slot else none
  match bounds with
  | some e => .bad e s
  | none =>
    (plainList s o o.i n 0).bind fun xs k s =>
      let (es, sc) := encodeElems f o.ty sat xs
      let (blk, total) := tencode (es ++ List.replicate (32 - n) (some 0)) sc
      (engDest s o k da slot fun _ pte => termPage f slot 7 pte).bind fun t _ s =>
        if slot = 64 && decide (64 < total) then .bad { faultOf 0xB with va := da } s
        else engWrite s o t slot blk

/-- The scratch ranges of `n` plain elements from the one an operation is at, where its plain side, at `a`, is scratch. -/
def plainRanges (o : CopyOp) (sp : Bool) (a : Word) (n : Nat) : List (Nat × Nat) :=
  if !sp then []
  else
    (List.range n).map fun j =>
      if o.ty = .i4 then (offOf (a + BitVec.ofNat 64 ((o.i + j) / 2)), 1)
      else (offOf (a + BitVec.ofNat 64 ((o.i + j) * elemSize o)), elemSize o)

/-- Write plain element `e` (R346): an i4 element is a nibble of a byte that passes the checks of a write. -/
def plainWrite (s : State) (o : CopyOp) (k e x : Nat) : Part1 Unit :=
  let plain := fun (_ : State) (pte : Word) => if pteFmt pte = 0 then none else some 7
  if o.ty = .i4 then
    let a := o.b + BitVec.ofNat 64 (e / 2)
    (engDest s o k a 1 plain).bind fun t k s =>
      (engRead s o k o.dsp true a 1).bind fun old _ s =>
        let keepBits := old - (old / 2 ^ (4 * (e % 2)) % 16) * 2 ^ (4 * (e % 2))
        engWrite s o t 1 (keepBits + x % 16 * 2 ^ (4 * (e % 2)))
  else
    (engDest s o k (o.b + BitVec.ofNat 64 (e * elemSize o)) (elemSize o) plain).bind fun t _ s =>
      engWrite s o t (elemSize o) x

/-- One element of a decode (R144, R347): the bounds of both sides come before anything in global memory (R342). The page and the block are
checked at the first element of the block that is processed; what the operation itself changes of the block after that, later elements read
as it stands (log 76). -/
def decodeOne (s : State) (o : CopyOp) (sat : Bool) (f : TFmt) (slot : Nat) : Part1 Unit :=
  let sa := o.a + BitVec.ofNat 64 (o.i / 32 * slot)
  let first := o.checked != some (o.i / 32)
  match allBounds s o ((if o.ssp then [(offOf sa, slot)] else []) ++ plainRanges o o.dsp o.b 1) with
  | some e => .bad e s
  | none =>
    let page : Part1 Unit :=
      if o.ssp then .ok () 0 s
      else
        let checked := (engLook s o sa false).then_ fun p =>
          match (if first then termPage f slot 6 p.e.pte else none) with
          | some cause => faultAt cause p
          | none => .ok p
        checked.part s o fun _ => .ok () 0 s
    page.bind fun _ k s =>
      (slotRead s o sa (slot / 8) k).bind fun blk k s =>
        if first && !tblockOk f (slot == 128) blk then .bad { faultOf 0xA with va := if o.ssp then BitVec.ofNat 64 (offOf sa) else sa } s
        else plainWrite s o k o.i (decodeElem f o.ty sat (((telems blk)[o.i % 32]?).join) (tscale blk))

/-- The slot size of the term side (R347): of the kind in scratch, of the page of its first byte in global memory. Only the
translation of that byte is needed; where it fails, the bounds of the plain side come first (R342). -/
def slotOf (s : State) (o : CopyOp) (sp wide : Bool) (a : Word) (plain : List (Nat × Nat)) : Part1 Nat :=
  match o.slot with
  | some n => .ok n 0 s
  | none =>
    if sp then .ok (slotBytes wide) 0 s
    else
      match translateEng s (engDie o) o.id o.ctx a with
      | .ok _ e => .ok (slotBytes (pteClass e.pte == 1)) 0 s
      | t =>
        match t.spot s o.ctx (engDie o) a false, allBounds s o plain with
        | .bad _, some f => .bad f s
        | x, _ => x.part s o fun _ => .ok 0 0 s

/-- An alignment fault of element 0. -/
def alignFault (a : Word) : FaultInfo := { faultOf 8 with va := a }

/-- The plain side's alignment. -/
def plainOdd (o : CopyOp) (a : Word) : Bool := a.toNat % (if o.ty = .i4 then 1 else elemSize o) != 0

/-- Whether the term side's address is no multiple of any slot that it can have, while its slot is not known (R342, R347). -/
def termOdd (o : CopyOp) (sp wide : Bool) (a : Word) : Bool := o.slot.isNone && a.toNat % (if sp then slotBytes wide else 64) != 0

/-- The first two rows of R342 that fail without a translation: counts, then the source's alignment, then the destination's. -/
def startFault (o : CopyOp) : Option FaultInfo :=
  if o.i = 0 && countBad o then some (faultOf 1)
  else
    match o.kind with
    | .encode _ wide _ =>
      if o.i = 0 && plainOdd o o.a then some (alignFault o.a) else if termOdd o o.dsp wide o.b then some (alignFault o.b) else none
    | .decode _ wide _ =>
      if termOdd o o.ssp wide o.a then some (alignFault o.a) else if o.i = 0 && plainOdd o o.b then some (alignFault o.b) else none
    | _ => (if o.i = 0 then rawMisaligned o else none).map alignFault

/-- The slot that an operation uses, which it reads when it starts and at each restart, with the alignment that it asks for (R342, R347). -/
def slotFor (s : State) (o : CopyOp) : Part1 (Option Nat) :=
  let fit := fun (a : Word) (p : Part1 Nat) => p.bind fun n k s =>
    if o.slot.isNone && a.toNat % n != 0 then .bad (alignFault a) s else .ok (some n) k s
  match o.kind with
  | .encode _ wide _ => fit o.b (slotOf s o o.dsp wide o.b (plainRanges o o.ssp o.a (min 32 (copyCount o - o.i))))
  | .decode _ wide _ => fit o.a (slotOf s o o.ssp wide o.a (plainRanges o o.dsp o.b 1))
  | _ => .ok none 0 s

/-- The next element, or block, of an operation whose slot is known. -/
def elemOf (s : State) (o : CopyOp) (slot : Option Nat) : Part1 Unit :=
  match o.kind with
  | .encode sat _ f => encodeBlock s o sat f (slot.getD 64)
  | .decode sat _ f => decodeOne s o sat f (slot.getD 64)
  | _ => rawElem s o

/-- The next element, or block, of an operation, once its slot is noted. -/
def elemStep (s : State) (o : CopyOp) : Part1 Unit :=
  match startFault o with
  | some f => .bad f s
  | none =>
    (slotFor s o).bind fun slot _ s =>
      elemOf { s with copies := s.copies.map fun x => if x.id == o.id then { x with slot := slot } else x } { o with slot := slot } slot

/-! ### The element event -/

/-- Change one copy operation. -/
def modCopy (s : State) (id : Nat) (f : CopyOp → CopyOp) : State :=
  { s with copies := s.copies.map fun o => if o.id == id then f o else o }

/-- Remove a copy operation. -/
def dropCopy (s : State) (id : Nat) : State := { s with copies := s.copies.filter fun o => o.id != id }

/-- How many elements a commit covers. -/
def commitCount (o : CopyOp) : Nat :=
  match o.kind with
  | .encode _ _ _ => min 32 (copyCount o - o.i)
  | _ => 1

/-- An operation ends: its handle takes the final state once its committed writes have been performed (R155, R172). -/
def endCopy (s : State) (o : CopyOp) (st : HState) (f : FaultInfo) : State :=
  modCopy s o.id fun x => { x with ending := some (st, f), buf := [], sent := false, tags := [], bad := none }

/-- The block of a decode that an element's commit leaves checked (R347). -/
def checkedBlock (o : CopyOp) : Option Nat := match o.kind with | .decode _ _ _ => some (o.i / 32) | _ => none

/-- Commit the element an operation is at (R155); the last one ends it. -/
def commitCopy (s : State) (o : CopyOp) : State :=
  let i := o.i + commitCount o
  let s := modCopy s o.id fun x => { x with i := i, checked := checkedBlock o, buf := [], sent := false, tags := [] }
  if i < copyCount o then s else endCopy s o .done (faultOf 0)

/-- A fault of an operation at the element it is at (R155). Data in error ends the context at once (R245). -/
def failCopy (s : State) (o : CopyOp) (f : FaultInfo) : State :=
  let s := countError (forgetEngFails s (engDie o) o.id) f.ecc
  if f.cause = 0x14 then agentFault (dropCopy s o.id) (engDie o) o.ctx 0x14 f.va o.handle o.i else endCopy s o .faulted f

/-- Send a link access of an element, and note it. -/
def sendElem (s : State) (o : CopyOp) (l : LinkOp) : State :=
  let (t, s) := sendLink s (engDie o) { l with wants := [wantOf l (if l.sys then l.pa else l.pa / 64 * 64)] }
  let write := l.kind == .write && l.sys
  modCopy s o.id fun x => { x with
    tags := if write then x.tags else x.tags ++ [t], sent := l.kind != .read, sysw := if write then some l.pa else x.sysw }

/-- Whether an engine works on an operation: it is among the first four of its engine's queue (R341), and its context does not halt.
While it halts, an element whose write a link has carried is still committed (R100). -/
def copyActive (s : State) (o : CopyOp) : Bool :=
  let st := s.ctxs[o.ctx].st
  copyHere s o && o.tags.isEmpty
    && (st == .running || st == .idle || (st == .halting && (o.sent || o.bad.isSome)))
    && (((s.copies.filter fun y => y.eng == o.eng && copyHere s y).take 4).any fun y => y.id == o.id)

/-- Whether an operation is to be cancelled (R73, R337). -/
def cancelAsked (s : State) (c : Fin 64) (h : BitVec 32) : Bool :=
  match entryOf s.ctxs[c] h with
  | some e => e.st == .pending && e.cancelReq
  | none => false

/-- The flushing read of an engine's writes to the system window (R39): at the address of the last of them. -/
def engFlush (c : Fin 64) (id pa : Nat) (va : Word) : LinkOp :=
  { link0 c true .flush 0 0 va pa 4 with copy := some id }

/-- The handle of an ended operation takes its final state; one that a resumable fault has stopped keeps its place for a restart
(R126, R155). A cancel that found it pending makes it cancelled (R337). -/
def settleCopy (s : State) (o : CopyOp) (st : HState) (f : FaultInfo) : State :=
  let st := if cancelAsked s o.ctx o.handle then HState.cancelled else st
  let s :=
    if st = .faulted ∧ resumable f.cause then
      modCopy s o.id fun x => { x with faulted := true, ending := none, slot := none, checked := none }
    else dropCopy s o.id
  endHandle s o.ctx o.handle st fun e =>
    if st = .faulted then { e with cause := f.cause, va := f.va, pte := f.pte, elem := o.i } else e

/-- The next step of an operation that ends (R39, R172): the flushing read of its writes to the system window, then the other die's copies
of what it wrote at package scope or wider, then its handle. Writes that the link cannot flush any more fault the handle. -/
def finishCopy (s : State) (o : CopyOp) (st : HState) (f : FaultInfo) : State :=
  let wide := match entryOf s.ctxs[o.ctx] o.handle with
    | some e => decide (scopeCode .package ≤ scopeCode e.wscope)
    | none => false
  match o.sysw with
  | some pa =>
    match (if s.host.up then crossing s (engDie o) 0 else .down) with
    | .stalled => s
    | .down =>
      if s.host.up then agentFault (dropCopy s o.id) (engDie o) o.ctx 0x14 o.b o.handle o.i
      else
        modCopy s o.id fun x => { x with
          sysw := none, ending := if st = .done then some (.faulted, { faultOf 0x19 with va := o.b }) else some (st, f) }
    | .free =>
      let (t, s) := sendLink s (engDie o) (engFlush o.ctx o.id pa o.b)
      modCopy s o.id fun x => { x with sysw := none, tags := [t] }
  | none => if wide && !acrossDone s o.ctx then s else settleCopy s o st f

/-- Whether an engine's die takes no further element (R19, R21): it closes, or is off. -/
def engClosed (s : State) (o : CopyOp) : Bool := s.dies[engDie o].closing || s.dies[engDie o].dstate == .dieOffline

/-- COPY_ELEMENT (R73, R155, R342-R348): the next element of an operation, or the next step of its end. A cancel takes effect between two
elements. Where the die closes, the operation faults at its next element, one of the two ends that R21 allows (log 69). -/
def execCopyElement (op : Nat) (s : State) : Host.Outcome State Fault Refusal :=
  match s.copies.find? fun o => o.id == op with
  | none => .next s
  | some o =>
    if !copyActive s o then .next s
    else
      match o.bad, o.ending with
      | some f, none => .next (failCopy s o { faultOf f.cause with va := f.va })
      | some f, some (st, g) =>
        .next (modCopy s o.id fun x => { x with
          bad := none, ending := if st = .done then some (.faulted, { faultOf f.cause with va := f.va }) else some (st, g) })
      | none, some (st, f) => .next (finishCopy s o st f)
      | none, none =>
        if o.sent then .next (commitCopy s o)
        else if cancelAsked s o.ctx o.handle then .next (endCopy (forgetEngFails s (engDie o) o.id) o .cancelled (faultOf 0))
        else if copyCount o ≤ o.i && !countBad o then .next (endCopy s o .done (faultOf 0))
        else if engClosed s o then .next (endCopy (forgetEngFails s (engDie o) o.id) o .faulted (faultOf 3))
        else
          match elemStep s o with
          | .ok _ _ s => .next (commitCopy s o)
          | .send l s => .next (sendElem s o l)
          | .bad f s => .next (failCopy s o f)
          | .again s => .next s

end Sys2Proof.Machine
end

