-- ==== Sys2Proof/Machine/Health.lean ====
section
/-! DEFINITION. Starts, measurements, errors and retirement, power and temperature, and the states of a die (R17-R23,
R43-R54). An event that the outside world or a timer causes is a step of its own. -/

namespace Sys2Proof.Machine

/-! ### Starts (R43-R49) -/

/-- How a start goes: it fails, it ends in the ROM, or an image runs. -/
inductive StartEnd where
  | failed | romHold | recovery | good
  deriving DecidableEq, Repr

/-- Whether an image runs (R43): both signatures verify, and the version is at least the fused minimum. -/
def imageOk (rsa slh : Bool) (ver min_ : Nat) : Bool := rsa && slh && decide (min_ ≤ ver)

/-- Whether the next start of a die loads the recovery image (R48, R49): three failed starts in a row, and the image
that ran last was not the recovery image (log 18). -/
def wantsRecovery (d : Die) : Bool := d.fails == 3 && d.start != .recovery

/-- The kind of a start (R47): a warm one becomes cold where the saved values cannot be used. -/
def startKindOf (d : Die) (cold : Bool) (f : StartFacts) : StartKind :=
  if cold || d.saved.isNone || !f.savedOk || !f.serialsMatch then .cold else .warm

/-- Whether the image of a start verifies (R43): the product image, or the recovery image where that is due. -/
def verifies (d : Die) (f : StartFacts) : Bool :=
  if wantsRecovery d then imageOk f.recRsaOk f.recSlhOk f.recSecVer d.minVer else imageOk f.rsaOk f.slhOk f.secVer d.minVer

/-- How a start ends (R43, R46, R48, R49). -/
def startEnd (d : Die) (k : StartKind) (f : StartFacts) : StartEnd :=
  if wantsRecovery d then (if verifies d f then .recovery else .romHold)
  else if !verifies d f then .failed
  else if k = .cold && (!f.repairOk || !f.hbmTrains) then .failed
  else .good

/-- Extend a measurement register (R44). -/
def extendMeas (m : Vector (BitVec 384) 8) (i : Fin 8) (digest : BitVec 384) : Vector (BitVec 384) 8 :=
  m.set i.val (Config.sha384 (bytesOf 48 m[i].toNat ++ bytesOf 48 digest.toNat)) i.isLt

/-- The repair and training values that a start uses (R46): a warm one those that were saved. -/
def repairUsed (d : Die) (k : StartKind) (f : StartFacts) : BitVec 384 :=
  if k = .warm then d.saved.getD f.repairDigest else f.repairDigest

/-- The measurements of a start (R44, R46), from registers of zero: the ROM; the image, if one verified; the kind and the failure count;
and of a start that comes up the values and the microcode in use. The spec does not encode what M2 digests: the model takes two bytes, the
kind as field START numbers it and FAILS as it stood when the start began (log 67). -/
def measured (d : Die) (k : StartKind) (f : StartFacts) (e : StartEnd) : Vector (BitVec 384) 8 :=
  let m := extendMeas (always 8 0) 0 f.romDigest
  let m := if verifies d f then extendMeas m 1 (if wantsRecovery d then f.recDigest else f.fwDigest) else m
  let n := match e with | .recovery => 2 | .romHold => 3 | _ => startCode k
  let m := extendMeas m 2 (Config.sha384 [BitVec.ofNat 8 n, BitVec.ofNat 8 d.fails.val])
  if e = .good then extendMeas (extendMeas m 3 (repairUsed d k f)) 4 f.ucodeDigest else m

/-- The islands of a die in a state (R19): core islands of a cores-offline die are held in reset, not on. -/
def islandsOf (st : DState) : Vector IslandSt 16 :=
  tabulate 16 fun i =>
    match st with
    | .online => .on
    | .coresOffline => if i.val < 12 then .gated else .on
    | .dieOffline => if i.val = 15 then .on else .off

/-- The islands of a die that runs no product image: the always-on island, and on die 0 the link island with the host port, through which
the DOE mailbox and the health status are reached (R45, R49). -/
def bootIslands (n : Fin 2) : Vector IslandSt 16 :=
  tabulate 16 fun i => if i.val = 15 ∨ (i.val = 14 ∧ n = 0) then .on else .off

/-- What the always-on island, the fuses and the repair store of a die keep (R46, R48, R53). -/
def keptBy (d : Die) : Die :=
  { Die.reset with
    fails := d.fails, rr := d.rr, trip := d.trip, start := d.start, retCores := d.retCores ||| d.pendCores
    modules := d.modules, ports := d.ports, retWays := d.retWays, retPcs := d.retPcs, errLog := d.errLog
    corr := d.corr, uncorr := d.uncorr, minVer := d.minVer, saved := d.saved }

/-- A die as a start finds it: its measurements are zero (R44). Until its product image runs its state is called die-offline, which the
spec does not say of a start, of a failed one, of recovery or of a ROM hold (log 5). -/
def startedFrom (n : Fin 2) (d : Die) : Die := { keptBy d with islands := bootIslands n }

/-- The widths of a die's ports after a cold start trained them (R28, R46): lanes that are retired stay retired (R53), and a port that trains
at no width is. -/
def trainPorts (d : Die) (f : StartFacts) : Vector (BitVec 8) 8 :=
  tabulate 8 fun p =>
    let w := f.ports[p]
    if w = 1 ∨ w = 2 ∨ w = 4 then BitVec.ofNat 8 (min d.ports[p].toNat w.toNat) else 0

/-- TRIP after a start of a kind (R50): any cold start clears it, whether it fails or not (log 66). -/
def tripAfter (d : Die) (k : StartKind) : Bool := d.trip && k != StartKind.cold

/-- FAILS and START after a failed start (R48, R50): the spec does not say what START reads then, and the model takes the kind of the
start that failed (log 66). -/
def failStart (d : Die) (k : StartKind) : Die :=
  { d with starting := none, start := k, fails := if d.fails = 3 then 3 else d.fails + 1, trip := tripAfter d k }

/-- A start of a die that has come to its end; `up` is the state that a good start reaches, and `trains` tells whether the bridge trains, as a
cold one has it do (R46). The replacement request RR is examined anew by a cold start that comes up, and by no other: the rule does not say it
of one that fails or ends in the recovery image or the ROM (log 66). -/
def endStart (s : State) (n : Fin 2) (k : StartKind) (f : StartFacts) (up : DState) (trains : Bool) : State :=
  let good := startEnd s.dies[n] k f == .good
  let s :=
    if good && k == StartKind.cold then { s with bridge := { s.bridge with down := !trains, retrain := none, attempts := 0 } } else s
  setHealth s n fun d =>
    let e := startEnd d k f
    let d' := { d with meas := measured d k f e, starting := none, trip := tripAfter d k }
    match e with
    | .failed => failStart { d with meas := d'.meas } k
    | .romHold => { d' with start := .romHold }
    | .recovery => { d' with start := .recovery }
    | .good =>
      let y := { d' with
        start := k, fails := 0, saved := some (repairUsed d k f), dstate := up, islands := islandsOf up
        ports := if k == StartKind.cold then trainPorts d f else d.ports }
      { y with rr := if k == StartKind.cold then replaceDue y else y.rr }

/-- Start a die (R46-R48): a start that does not become ready waits for its timeout. -/
def startDie (s : State) (n : Fin 2) (cold : Bool) (f : StartFacts) (up : DState) (trains : Bool) : State :=
  let k := startKindOf s.dies[n] cold f
  if f.ready then endStart s n k f up trains
  else setHealth s n fun d => { d with starting := some (k, s.now), meas := measured d k f .failed }

/-- What is left of the package when every die stops: everything but the inputs, the messages sent and what the dies keep (log 5). A
bridge that is down stays down until it is trained anew (R46). -/
def stopPackage (s : State) (mem : Memory) (kept : Fin 2 → Die → Die) : State :=
  { State.reset with
    now := s.now, choices := s.choices, serial := s.serial, inbox := s.inbox, mem := mem, images := s.images
    bad := if mem.isEmpty then [] else s.bad
    hostOut := s.hostOut, uaOut := s.uaOut, host := { s.host with held := [], owed := [] }
    bridge := { Bridge.reset with down := s.bridge.down }
    dies := tabulate 2 fun n => kept n s.dies[n]
    cores := tabulate 384 fun _ => { Core.reset with cyc0 := s.now } }

/-- Start both dies (R46, R47): cold ones train the bridge, which works where it trains for each of them. -/
def startDies (s : State) (cold : Bool) (f0 f1 : StartFacts) : State :=
  let ok := fun (d : Fin 2) (f : StartFacts) => startKindOf s.dies[d] cold f != .cold || f.bridgeTrains
  let trains := ok 0 f0 && ok 1 f1
  startDie (startDie s 0 cold f0 .online trains) 1 cold f1 .online trains

/-- POWER_ON (R47): memory holds nothing, and each die starts cold. -/
def execPowerOn (f0 f1 : StartFacts) (s : State) : Host.Outcome State Fault Refusal :=
  let s := { stopPackage s [] startedFrom with host := { up := true, held := [], owed := [], bar2 := 0 }, images := [] }
  .next (startDies s true f0 f1)

/-- RESET_REQUEST (R47, R48): a start in progress is abandoned and not counted. What the stop changes in the health status is told (R50). -/
def execResetRequest (cold : Bool) (f0 f1 : StartFacts) (s : State) : Host.Outcome State Fault Refusal :=
  if s.host.up then
    let t := stopPackage s s.mem startedFrom
    .next (startDies (tellHealth (tellHealth t 0 s.dies[(0 : Fin 2)]) 1 s.dies[(1 : Fin 2)]) cold f0 f1)
  else .next s

/-- START_TIMEOUT (R46, R48): a start that is not ready in time fails. -/
def execStartTimeout (d : Fin 2) (s : State) : Host.Outcome State Fault Refusal :=
  match s.dies[d].starting with
  | none => .next s
  | some (k, _) => .next (setHealth s d fun x => failStart x k)

/-- SPDM_REQUEST (R45): a request that has come over the DOE mailbox is answered with the certificate chain of slot 0, the
measurements by index, and their signature. Those of die 1 are left out while it is die-offline, but not during its start; the spec does
not say what becomes of them while the bridge is down, and the model returns them (log 12). -/
def execSpdmRequest (s : State) : Host.Outcome State Fault Refusal :=
  let ms := fun (d : Fin 2) => (List.finRange 8).map fun i => (8 * d.val + i.val + 1, s.dies[d].meas[i])
  let gone := s.dies[(1 : Fin 2)].dstate == .dieOffline && s.dies[(1 : Fin 2)].starting.isNone
  let all := ms 0 ++ (if gone then [] else ms 1)
  if s.host.up then
    .next { s with hostOut := s.hostOut ++ [.spdm Config.certChain all (Config.signP384 (all.map (·.2)))] }
  else .next s

/-! ### Errors (R51-R54) -/

/-- Where an offset of a die's memory lies (R15): the stack, the offset in it, and the pseudo-channel. -/
def spread (o : Nat) : Nat × Nat × Nat :=
  let q := o / 2 ^ 12 / 12
  let f := [0, 4, 8, 12, 16, 20].foldl (fun (x : Nat) k => x ^^^ (q / 2 ^ k % 16)) 0
  let so := q * 4096 + o % 4096
  ((o / 2 ^ 12 % 12 + f % 12) % 12, so, (so / 2 ^ 12 % 64) ^^^ (so / 2 ^ 18 % 64))

/-- Whether a 64 KiB frame of a die's memory, by its offset, is withdrawn from use (R16): some block of it maps to a retired
pseudo-channel. The driver works this out of the health status; accesses to the frame go on as before. -/
def frameWithdrawn (d : Die) (o : Nat) : Bool :=
  (List.range 16).any fun k =>
    let x := spread (o / 2 ^ 16 * 2 ^ 16 + k * 4096)
    (d.retPcs[Fin.ofNat 12 x.1]).getLsbD x.2.2

/-- Retire the resource of an error (R16, R53). -/
def retireRes (s : State) (d : Fin 2) (r : ErrRes) : State :=
  match r with
  | .core c =>
    let m : BitVec 192 := BitVec.ofNat 192 (2 ^ c.val)
    if (List.finRange 64).any fun k => ctxHolds s (coreAt d c.val) k then
      modDie s d fun x => { x with pendCores := x.pendCores ||| m }
    else setHealth s d fun x => { x with retCores := x.retCores ||| m, pendCores := x.pendCores &&& ~~~m }
  | .l2way slice way =>
    let s := setHealth s d fun x => { x with
      retWays := x.retWays.set slice.val (x.retWays[slice] ||| BitVec.ofNat 24 (2 ^ way.val)) slice.isLt }
    pastStall s fun s => l2Trim s d slice s.dies[d].l2.length
  | .channel stack pc =>
    setHealth s d fun x => { x with
      retPcs := x.retPcs.set stack.val (x.retPcs[stack] ||| BitVec.ofNat 64 (2 ^ pc.val)) stack.isLt }

/-- One corrected error (R51, R53): the third at a location within 24 hours retires its resource. -/
def correctOne (s : State) (d : Fin 2) (loc : ErrLoc) (hour : Nat) : State :=
  let log := (s.dies[d].errLog.filter fun e => decide (hour < e.2 + 24)) ++ [(loc, hour)]
  let s := setHealth (modDie s d fun x => { x with errLog := log }) d fun x => { x with corr := countUp x.corr }
  if 3 ≤ (log.filter fun e => e.1 == loc).length then retireRes s d loc.res else s

/-- CORRECTED_ERROR (R51, R53). -/
def execCorrectedError (d : Fin 2) (loc : ErrLoc) (hour : Nat) (s : State) : Host.Outcome State Fault Refusal :=
  .next (correctOne s d loc hour)

/-- A sector that a line of a core's L1 holds is in error, until all of it has been stored anew (R52). -/
def poisonLine (s : State) (c : Fin 384) (sector : Nat) : State :=
  modCore s c fun x => { x with l1 := x.l1.map fun l =>
    if l.line == sector / 4 && l.valid.getLsbD (sector % 4) then
      { l with poison := l.poison ||| BitVec.ofNat 4 (2 ^ (sector % 4)), renewed := l.renewed &&& ~~~sectorMask (sector % 4) }
    else l }

/-- The data found in error stays in error until its whole sector is written (R52): a sector of memory, or one that the pool of a core
holds as L1. Registers, scratch and macros are named by no address, and a later consumer of theirs is an event of its own (log 62). -/
def markBad (s : State) (d : Fin 2) (loc : ErrLoc) : State :=
  match loc.res with
  | .core c => poisonLine s (coreAt d c.val) loc.place
  | .l2way _ _ | .channel _ _ => harmSector s loc.place

/-- Count an uncorrectable error, and retire its resource (R52, R53). R52 says of an error without a consumer that it only increments the
count, and R53 retires after one uncorrectable error: the model does both (log 62). -/
def uncorrectOne (s : State) (d : Fin 2) (loc : ErrLoc) : State :=
  retireRes (markBad (countError s (some d)) d loc) d loc.res

/-- UNCORRECTABLE_ERROR (R52): the warp whose instruction consumes the data, or the copy, takes cause 0x0014 and its
context ends; then the resource is retired. Later consumers of a sector in error find it in error again. -/
def execUncorrectableError (d : Fin 2) (loc : ErrLoc) (use : ErrUse) (s : State) : Host.Outcome State Fault Refusal :=
  let s :=
    match use with
    | .nobody => s
    | .warp w sp lane va =>
      (match findWarp s w with
        | none => s
        | some x =>
          match x.splits[sp] with
          | none => s
          | some y =>
            takeFault s x sp y.pc y.pc y.mask
              { faultOf 0x14 with va := va, lanes := BitVec.ofNat 32 (2 ^ lane.val) })
    | .copy op va =>
      (match s.copies.find? fun o => o.id == op with
        | some o => failCopy s o { faultOf 0x14 with va := va }
        | none => s)
  .next (uncorrectOne s d loc)

/-- PATROL_SCRUB (R51, R52): what it corrects is counted; what it cannot correct has no consumer. -/
def execPatrolScrub (d : Fin 2) (fixed bad : List ErrLoc) (hour : Nat) (s : State) : Host.Outcome State Fault Refusal :=
  let s := fixed.foldl (fun s l => correctOne s d l hour) s
  .next (bad.foldl (fun s l => uncorrectOne s d l) s)

/-! ### Power and temperature (R18, R22, R23) -/

/-- Term clocks that Colbuef sets, within 800 MHz to 2 GHz (R17, R18). With `down` it lowers them: each by a step of 50 MHz at least, as
far as one is left (log 68). -/
def setClocks (down : Bool) (clk : List (BitVec 8)) (d : Die) : Die :=
  { d with
    throttled := down
    clock := tabulate 12 fun i =>
      let now := d.clock[i].toNat
      let want := max 16 (min 40 (clk.getD i.val d.clock[i]).toNat)
      BitVec.ofNat 8 (if down then max 16 (min want (now - 1)) else want) }

/-- Whether a die's power budget, or one that both dies share, is exceeded (R22). -/
def overBudget (a : PowerAvg) (d : Fin 2) : Bool :=
  decide (1250000 < (if d = 0 then a.die0 else a.die1)) || decide (1000000 < a.hbm) || decide (500000 < a.rest)
    || decide (4000000 < a.die0 + a.die1 + a.hbm + a.rest)

/-- Whether a die is throttled after a window: over a budget (R22), or still too hot (R23). -/
def throttleDue (a : PowerAvg) (d : Fin 2) : Bool := overBudget a d || (if d = 0 then a.hot0 else a.hot1)

/-- POWER_BUDGET_WINDOW (R22, R23): term clocks are lowered where a budget is exceeded or the die is too hot, and may rise again
elsewhere. -/
def execPowerBudgetWindow (avg : PowerAvg) (clk0 clk1 : List (BitVec 8)) (s : State) : Host.Outcome State Fault Refusal :=
  let s := setHealth s 0 (setClocks (throttleDue avg 0) clk0)
  .next (setHealth s 1 (setClocks (throttleDue avg 1) clk1))

/-- OVERSHOOT_LIMIT (R22). -/
def execOvershootLimit (d : Fin 2) (clk : List (BitVec 8)) (s : State) : Host.Outcome State Fault Refusal :=
  .next (setHealth s d (setClocks true clk))

/-- JUNCTION_OVER_100 (R23). -/
def execJunctionOver100 (d : Fin 2) (clk : List (BitVec 8)) (s : State) : Host.Outcome State Fault Refusal :=
  .next (setHealth s d (setClocks true clk))

/-- HBM_OVER_85 (R23): the stack's refresh rate is doubled. The rule does not say when it ends; in the model only a start ends it
(log 68). -/
def execHbmOver85 (d : Fin 2) (stack : Fin 12) (s : State) : Host.Outcome State Fault Refusal :=
  .next (modDie s d fun x => { x with refresh2x := x.refresh2x ||| BitVec.ofNat 12 (2 ^ stack.val) })

/-- HBM_OVER_95 (R23): the stack's die is throttled, at the doubled refresh rate. -/
def execHbmOver95 (d : Fin 2) (stack : Fin 12) (clk : List (BitVec 8)) (s : State) : Host.Outcome State Fault Refusal :=
  let s := modDie s d fun x => { x with refresh2x := x.refresh2x ||| BitVec.ofNat 12 (2 ^ stack.val) }
  .next (setHealth s d (setClocks true clk))

/-- THERMAL_TRIP (R23, R44, R53): every core stops without saving, every island but the always-on ones goes off, all contexts
are lost, and the host link goes down. The measurements stand, since a trip is no reset. -/
def execThermalTrip (s : State) : Host.Outcome State Fault Refusal :=
  let s := stopPackage s [] fun _ d => { keptBy d with meas := d.meas }
  let off := fun (d : Die) => { d with dstate := .dieOffline, islands := islandsOf .dieOffline, trip := true, rr := true }
  let s := setHealth (setHealth s 0 off) 1 off
  .next { s with host := { s.host with up := false, held := [], owed := [] }, hostOut := s.hostOut ++ [.linkDown] }

/-! ### The states of a die (R19-R21, R177) -/

/-- Whether the host reaches the package's registers and memory: the link is up, and die 0 runs a product image (R42, R49). -/
def pfServes (s : State) : Bool := s.host.up && s.dies[(0 : Fin 2)].dstate != .dieOffline

/-- Whether a context has a core on a die (R20, R56, R59, R75): one of its partition's, or the dispatch core of a job or fault-service warp.
An ended one holds none (R54); the spec does not say it of an idle or a halted one, and the model counts each of them (log 69). -/
def hasCoreOn (s : State) (d : Fin 2) (c : Fin 64) : Bool :=
  let x := s.ctxs[c]
  let p := partOfCtx s c
  x.st != .free && x.st != .ended
    && (((!x.mode || x.die == d) && (if d = 0 then p.isl0 else p.isl1) != 0)
      || s.warps.any fun w => w.ctx == c && onDispatch w && coreDie w.core == d)

/-- Put every core of a die into reset; what its L1 still holds is written back first. -/
def resetCores (s : State) (d : Fin 2) : State :=
  (List.range 192).foldl (fun s k =>
    let j := coreAt d k
    let s := loseLines (l1CleanNow s j) j fun _ => true
    modCore s j fun _ => { Core.reset with cyc0 := s.now }) s

/-- The L2 of a die that is not online any more (R177): migrated lines return to their home, and no copy lies across the bridge. -/
def leaveOnline (s : State) (d : Fin 2) : State :=
  let o := otherDie d
  let s := pastStall s fun s => s.dies[o].fwd.foldl recallLine s
  let own := fun (s : State) (x : Fin 2) => modDie s x fun y => { y with l2 := y.l2.filter fun e => holderOf s e.line == x }
  own (own s d) o

/-- CORES_OFFLINE_REQUEST (R20). It waits while the bridge stalls (R26). -/
def execCoresOfflineRequest (d : Fin 2) (s : State) : Host.Outcome State Fault Refusal :=
  if !pfServes s || s.dies[d].dstate != .online then .next s
  else if (List.finRange 64).any fun c => hasCoreOn s d c then .next (toHost s (.refused "partition present"))
  else if crossing s 0 1 = .stalled then .next { s with inbox := .coresOfflineRequest d :: s.inbox }
  else
    .next (setHealth (leaveOnline (resetCores s d) d) d fun x =>
      { x with dstate := .coresOffline, islands := islandsOf .coresOffline })

/-- Steps 2 to 4 of the close of a die (R21), and its report: lines that migrated into it go home and those that left it return, and its
slices hold nothing more. -/
def closeDie (s : State) (d : Fin 2) : State :=
  let s := leaveOnline s d
  let s := pastStall s fun s => s.dies[d].fwd.foldl recallLine s
  let s := modDie s d fun x => { x with l2 := [], fwd := [], tlb := [], nodes := [], walks := [], engFails := [] }
  let s := setHealth s d fun x => { x with dstate := .dieOffline, islands := islandsOf .dieOffline, closing := false }
  toHost s (.hotplug false)

/-- Go on with the close of a die once its copy engines hold no operation any more (R21 step 1). -/
def closeOn (s : State) (d : Fin 2) : State :=
  if s.dies[d].closing && !(s.copies.any fun o => engDie o == d && copyHere s o) then closeDie s d else s

/-- DIE_OFFLINE_REQUEST (R20, R21): die 0 is refused, and die 1 closes. -/
def execDieOfflineRequest (d : Fin 2) (s : State) : Host.Outcome State Fault Refusal :=
  if !pfServes s || s.dies[d].dstate != .coresOffline || s.dies[d].closing then .next s
  else if d = 0 then .next (toHost s (.refused "host die"))
  else .next (closeOn (modDie s d fun x => { x with closing := true }) d)

/-- BRING_UP_REQUEST (R20): a warm start of the die's islands. The spec does not say that it resets the die's measurements (R44), nor that
it does not: the model measures anew from zero, as in every start (log 72). -/
def execBringUpRequest (d : Fin 2) (f : StartFacts) (s : State) : Host.Outcome State Fault Refusal :=
  if !pfServes s || s.dies[d].dstate != .dieOffline then .next s
  else
    let s := tellHealth (modDie s d (startedFrom d)) d s.dies[d]
    let s := startDie s d false f .coresOffline f.bridgeTrains
    .next (if s.dies[d].dstate = .coresOffline then toHost s (.hotplug true) else s)

/-- ONLINE_REQUEST (R20): the core islands leave reset. -/
def execOnlineRequest (d : Fin 2) (s : State) : Host.Outcome State Fault Refusal :=
  if !pfServes s || s.dies[d].dstate != .coresOffline || s.dies[d].closing then .next s
  else .next (setHealth (resetCores s d) d fun x => { x with dstate := .online, islands := islandsOf .online })

end Sys2Proof.Machine
end

