-- ==== Sys2Proof/Machine/Handle.lean ====
section
/-! DEFINITION. The handle group OP 0x0B (R125-R127, R334-R339). -/

namespace Sys2Proof.Machine

/-- What a wait does with a final entry (R335, R172): an acquire of what the operation wrote, at the context's widest
scope for a launch that is done; or the recorded fault. An entry that holds cause zero has no fault to take (R77). -/
def actOn (s : State) (c : Iss) (e : HEntry) (k : State → Effect) : Effect :=
  if e.st == .faulted then
    if e.cause = 0 then k s
    else .fault { faultOf e.cause with va := e.va, pte := e.pte, handle := handleValue e, elem := e.elem, hnd := true }
  else if e.cls == 3 && e.st == .cancelled then k s
  else if e.cls == 3 then (acquireAt s c.w (widest s.ctxs[c.w.ctx])).andThen k
  else (acquireAt s c.w e.wscope).andThen k

/-- `hwait hN` (R335). -/
def execHwait (g : Guard) (n : Fin 16) (s : State) : Host.Outcome State Fault Refusal :=
  issueWarp (.hwait g n) (fun s c =>
    match resolve s c.w c.w.h[n] with
    | .bad => .fault (faultOf 0xF)
    | .null => .next s
    | .entry e => if hFinal e.st then actOn s c e .next else .rest s) s

/-- STATE of `htest` (R336). -/
def hState : HState → Nat
  | .free => 0 | .pending => 0 | .done => 1 | .faulted => 2 | .cancelled => 3

/-- The word that `htest` writes (R336). -/
def htestWord (e : HEntry) : Word :=
  let elem := if e.st == .faulted && e.cls == 1 then e.elem % 2 ^ 32 else 0
  let cause := if e.st == .faulted then e.cause else 0
  BitVec.ofNat 64 (elem * 2 ^ 32 + cause * 2 ^ 16 + e.status % 256 * 2 ^ 8 + hState e.st)

/-- `htest sD, hN` (R336). -/
def execHtest (g : Guard) (d : Fin 128) (n : Fin 16) (s : State) : Host.Outcome State Fault Refusal :=
  issueWarp (.htest g d n) (fun s c =>
    match resolve s c.w c.w.h[n] with
    | .bad => .fault (faultOf 0xF)
    | .null => .next (modWarp s c.w.id fun w => setS w d 1)
    | .entry e => .next (modWarp s c.w.id fun w => setS w d (htestWord e))) s

/-- Cancel a pending operation as its class allows (R337); a launch is cancelled as R80 gives. -/
def cancelEntry (s : State) (c : Fin 64) (e : HEntry) : State :=
  if e.cls = 3 then
    match s.ctxs[c].launches.reverse.find? fun l => l.handle == handleValue e with
    | some l => examine (cancelLaunch s c l.id) c
    | none => s
  else cancelOp s c e

/-- `hcancel hN` (R127, R337). -/
def execHcancel (g : Guard) (n : Fin 16) (s : State) : Host.Outcome State Fault Refusal :=
  issueWarp (.hcancel g n) (fun s c =>
    match resolve s c.w c.w.h[n] with
    | .bad => .fault (faultOf 0xF)
    | .null => .next s
    | .entry e =>
      if e.cls = 5 then .fault (faultOf 0x11)
      else if e.st == .pending then .next (cancelEntry s c.w.ctx e)
      else .next s) s

/-- `hmov hN, A` (R338). -/
def execHmovToHandle (g : Guard) (n : Fin 16) (a : SSrc) (w1 : Word) (s : State) : Host.Outcome State Fault Refusal :=
  issueWarp (.hmovToHandle g n a w1) (fun s c =>
    if hPending s c.w n then .rest s
    else .next (modWarp s c.w.id fun w => setH w n ((ssrcVal s c w1 a).setWidth 32))) s

/-- `hmov sD, hN` (R338). -/
def execHmovFromHandle (g : Guard) (d : Fin 128) (n : Fin 16) (s : State) : Host.Outcome State Fault Refusal :=
  issueWarp (.hmovFromHandle g d n) (fun s c =>
    match resolve s c.w c.w.h[n] with
    | .bad => .fault (faultOf 0xF)
    | _ => .next (modWarp s c.w.id fun w => setS w d (c.w.h[n].setWidth 64))) s

/-- Whether a resolved handle is final; the null handle counts as done. -/
def resolvedFinal : Resolved → Bool
  | .null => true
  | .entry e => hFinal e.st
  | .bad => false

/-- `hwaitany sD, A` (R339). -/
def execHwaitany (g : Guard) (d : Fin 128) (a : SSrc) (w1 : Word) (s : State) : Host.Outcome State Fault Refusal :=
  issueWarp (.hwaitany g d a w1) (fun s c =>
    let m := ssrcVal s c w1 a
    let named := (List.finRange 16).filter fun n => m.getLsbD n.val
    let put := fun (k : Nat) (s : State) => Effect.next (modWarp s c.w.id fun w => setS w d (BitVec.ofNat 64 k))
    if named.any fun n => resolve s c.w c.w.h[n] == .bad then .fault (faultOf 0xF)
    else if named.isEmpty then put 16 s
    else
      match named.find? fun n => resolvedFinal (resolve s c.w c.w.h[n]) with
      | none => .rest s
      | some n =>
        match resolve s c.w c.w.h[n] with
        | .entry e => actOn s c e (put n.val)
        | _ => put n.val s) s

end Sys2Proof.Machine
end

