-- ==== Sys2Proof/Machine/Matrix.lean ====
section
/-! DEFINITION. The term engines (R185, R198, R199, R202-R221, R349-R359): configuration, the issue of matrix
operations, their start and end, `mldw` row by row, and the epilogues. -/

namespace Sys2Proof.Machine

/-! ### Configuration (R204, R205, R210) -/

/-- AFMT. -/
def cfgA (c : BitVec 16) : Nat := c.toNat % 16
/-- BFMT. -/
def cfgB (c : BitVec 16) : Nat := (c.toNat >>> 4) % 16
/-- Slot bytes, from ACLASS. -/
def cfgSlot (c : BitVec 16) : Nat := if c.getLsbD 9 then 128 else 64
/-- The group size G. -/
def cfgG (c : BitVec 16) : Nat := 4 * 2 ^ ((c.toNat >>> 10) % 4)
/-- The run-ahead depth D. -/
def cfgD (c : BitVec 16) : Nat := (c.toNat >>> 12) % 8

/-- Whether a format number is an MX one. -/
def isMx (n : Nat) : Bool := decide (3 ≤ n ∧ n ≤ 6)

/-- Whether a configuration word passes R205, its upper bits included (R351). -/
def cfgOk (v : Word) : Bool :=
  let c : BitVec 16 := v.setWidth 16
  bitsOf v 16 48 == 0 && !c.getLsbD 15 && !c.getLsbD 8 &&
  decide (1 ≤ cfgA c ∧ cfgA c ≤ 6) && decide (1 ≤ cfgB c ∧ cfgB c ≤ 7) && decide (cfgD c ≤ 4) &&
  decide (32 / cfgG c * (cfgD c + 1) ≤ 32) &&
  (if isMx (cfgA c) then isMx (cfgB c) else cfgB c == 1 || cfgB c == 2 || cfgB c == 7)

/-- The A format of a word. -/
def fmtA (c : BitVec 16) : TFmt := (tfmtOfNum (cfgA c)).getD .int8

/-- The bound of R210. -/
def timeBound (c : BitVec 16) (kb : Nat) : Nat :=
  32 * kb * tmaxTerms (fmtA c) + 8 + (if isMx (cfgA c) then 4 * kb else 0)

/-! ### Issue (R349, R350) -/

/-- The unit of a matrix instruction whose engine may be used (R349), or cause 0x0010. -/
def withEngine (s : State) (c : Iss) (o : XOp) (k : UnitSt → Effect) : Effect :=
  match unitOf s c.w with
  | none => .fault (faultOf 0x10)
  | some u =>
    match launchOf s u with
    | none => .fault (faultOf 0x10)
    | some l => if l.r.emask.getLsbD o.e.val && o.e.val / 2 == c.w.quad.val then k u else .fault (faultOf 0x10)

/-- Operations of a unit's engine in its queue. -/
def engineQueue (s : State) (u : Nat) (e : Fin 8) : List MatOp :=
  s.mops.filter fun m => m.unit == u && m.e == e && !m.faulted

/-- Operations in order of issue with one more: those of its unit that higher quadrants issued in the same cycle come after it (R349). -/
def insertOp (m : MatOp) : List MatOp → List MatOp
  | [] => [m]
  | x :: r => if x.unit = m.unit ∧ x.issued = m.issued ∧ m.quad < x.quad then m :: x :: r else x :: insertOp m r

/-- Put an operation in its engine's queue (R93, R213, R349). -/
def enqueue (s : State) (c : Iss) (o : XOp) (kind : MKind) (tile : Option (Fin 8)) (bank : Option (Fin 2)) : Effect :=
  withEngine s c o fun u =>
    if 2 ≤ (engineQueue s u.id o.e).length then .wait s
    else
      match handleRoom s c.w o.hn with
      | none => .rest s
      | some s =>
        let (h, s) := giveHandle s c o.hn 2 o.e.val
        let (id, s) := fresh s
        let m : MatOp :=
          { id := id, ctx := c.w.ctx, unit := u.id, e := o.e, kind := kind, tile := tile, bank := bank, handle := h
            warp := c.w.id, active := c.act, cfg := u.engs[o.e].cfg, a := sreg c.w o.sa, b := sreg c.w o.sb
            c := sreg c.w o.sc, d := sreg c.w o.sd, due := none, row := 0, blks := [], bad := none
            faulted := false, tags := [], buf := [], fail := none
            quad := c.w.quad, issued := s.now }
        .next { s with mops := insertOp m s.mops }

/-- `mcfg eE, sA` (R351). -/
def execMcfg (o : XOp) (s : State) : Host.Outcome State Fault Refusal :=
  issueWarp (.mcfg o) (fun s c =>
    withEngine s c o fun u =>
      let v := sreg c.w o.sa
      if cfgOk v then
        .next (modUnit s u.id fun x => { x with
          engs := x.engs.set o.e.val { x.engs[o.e] with cfg := v.setWidth 16 } o.e.isLt })
      else .fault (faultOf 0x10)) s

/-- `mldw.fmt` (R352). -/
def execMldw (o : XOp) (rows row0 : BitVec 8) (ssp : Bool) (bank : Fin 2) (bfmt : BitVec 4) (s : State) :
    Host.Outcome State Fault Refusal :=
  issueWarp (.mldw o rows row0 ssp bank bfmt) (fun s c =>
    enqueue s c o (.ldw rows.toNat row0.toNat ssp bfmt.toNat) none (some bank)) s

/-- `mldw.norm` (R352). -/
def execMldwNorm (o : XOp) (ssp : Bool) (s : State) : Host.Outcome State Fault Refusal :=
  issueWarp (.mldwNorm o ssp) (fun s c => enqueue s c o (.norm ssp) none none) s

/-- `mma` (R353). -/
def execMma (o : XOp) (row0 : BitVec 8) (kbm1 : Fin 4) (bank : Fin 2) (s : State) : Host.Outcome State Fault Refusal :=
  issueWarp (.mma o row0 kbm1 bank) (fun s c =>
    enqueue s c o (.mma row0.toNat (kbm1.val + 1)) (some o.t) (some bank)) s

/-- `mzero` (R354). -/
def execMzero (o : XOp) (s : State) : Host.Outcome State Fault Refusal :=
  issueWarp (.mzero o) (fun s c => enqueue s c o .zero (some o.t) none) s

/-- `mst` (R355). -/
def execMst (o : XOp) (ty : Ty) (scaled relu long : Bool) (s : State) : Host.Outcome State Fault Refusal :=
  issueWarp (.mst o ty scaled relu long) (fun s c => enqueue s c o (.st ty scaled relu) (some o.t) none) s

/-- `mmov` from a tile to a v-register, which becomes pending at issue (R354). -/
def execMmovFromTile (o : XOp) (j : Fin 8) (m : Fin 32) (vr : Fin 256) (s : State) : Host.Outcome State Fault Refusal :=
  issueWarp (.mmovFromTile o j m vr) (fun s c =>
    match enqueue s c o (.fromTile j.val m.val vr.val) (some o.t) none with
    | .next s => .next (modWarp s c.w.id fun w => pendV w vr)
    | e => e) s

/-- `mmov` from a v-register, read at issue, to a tile (R354). -/
def execMmovToTile (o : XOp) (j : Fin 8) (m : Fin 32) (vr : Fin 256) (s : State) : Host.Outcome State Fault Refusal :=
  issueWarp (.mmovToTile o j m vr) (fun s c => enqueue s c o (.toTile j.val m.val c.w.v[vr]) (some o.t) none) s

/-- `mtopk` (R356). -/
def execMtopk (o : XOp) (k : BitVec 5) (near : Bool) (s : State) : Host.Outcome State Fault Refusal :=
  issueWarp (.mtopk o k near) (fun s c => enqueue s c o (.topk k.toNat near) (some o.t) none) s

/-- `mdist` (R357). -/
def execMdist (o : XOp) (s : State) : Host.Outcome State Fault Refusal :=
  issueWarp (.mdist o) (fun s c => enqueue s c o .dist (some o.t) none) s

/-- `mbound` (R210, R358). -/
def execMbound (o : XOp) (kbm1 : Fin 4) (s : State) : Host.Outcome State Fault Refusal :=
  issueWarp (.mbound o kbm1) (fun s c =>
    withEngine s c o fun u =>
      let w := u.engs[o.e].cfg
      if cfgA w = 0 then .fault (faultOf 0x10)
      else .next (modWarp s c.w.id fun y => setS y o.sd (BitVec.ofNat 64 (timeBound w (kbm1.val + 1))))) s

/-! ### The A blocks (R206, R207, R211) -/

/-- SCRK in bytes of a unit. -/
def unitScratch (s : State) (u : UnitSt) : Nat :=
  match launchOf s u with
  | some l => l.r.scrk * 1024
  | none => 0

/-- A fault of a matrix operation: its cause and VA. -/
abbrev MBad := Option (Nat × Word × Word)

/-- The scratch offset of row `m` from an offset and a row stride: the low 32 bits of the sum (R128). -/
def rowOff (a b : Word) (m : Nat) : Nat := offOf (a + BitVec.ofNat 64 m * b)

/-- The scratch offset of block `j` of row `m` (R128, R206). -/
def blockOff (a b : Word) (slot m j : Nat) : Nat := offOf (a + BitVec.ofNat 64 m * b + BitVec.ofNat 64 (j * slot))

/-- The blocks of the active rows, rows first. -/
def blockList (act : Mask) (kb : Nat) : List (Nat × Nat) :=
  act.lanes.flatMap fun l => (List.range kb).map fun j => (l.val, j)

/-- The checks of R207 on the blocks that are read: the stride and the bounds, then each block by a test. -/
def blocksBad (scratch : Memory) (size : Nat) (a b : Word) (slot kb : Nat) (act : Mask) (ok : Nat → Bool) : MBad :=
  let ps := (blockList act kb).map fun p => blockOff a b slot p.1 p.2
  let low := ps.head?.getD 0
  if offOf b % slot ≠ 0 then some (9, BitVec.ofNat 64 low, 0)
  else
    match ps.find? fun p => decide (size < p + slot) with
    | some p => some (9, BitVec.ofNat 64 p, 0)
    | none =>
      match ps.find? fun p => !ok (readN scratch p slot) with
      | some p => some (0xA, BitVec.ofNat 64 p, 0)
      | none => none

/-- `mcount` (R211, R358): the sum is written 16 cycles later. -/
def execMcount (o : XOp) (kbm1 : Fin 4) (s : State) : Host.Outcome State Fault Refusal :=
  issueWarp (.mcount o kbm1) (fun s c =>
    withEngine s c o fun u =>
      let w := u.engs[o.e].cfg
      let kb := kbm1.val + 1
      let slot := cfgSlot w
      let a := sreg c.w o.sa
      let b := sreg c.w o.sb
      if cfgA w = 0 then .fault (faultOf 0x10)
      else
        match blocksBad u.scratch (unitScratch s u) a b slot kb c.act (theaderOk (fmtA w) (slot == 128)) with
        | some (cause, va, _) => .fault { faultOf cause with va := va }
        | none =>
          let sum := (blockList c.act kb).foldl
            (fun n p => n + ttotal (readN u.scratch (blockOff a b slot p.1 p.2) slot)) 0
          let s := addResult s { result0 c .mcount with
            due := some (s.now + 16), sw := some (o.sd, BitVec.ofNat 64 sum) }
          .next (modWarp s c.w.id fun y => pendS y o.sd)) s

/-! ### The time of an `mma` (R208) -/

/-- A term lane of a group: the step it is at, its terms left there, and the counts of its steps. -/
structure TLane where
  k : Nat
  rem : Nat
  ts : List Nat
  deriving DecidableEq, Repr

/-- One pass of `advance`. -/
def advancePass (K D : Nat) (g : List TLane) : List TLane :=
  let c := fun (l : TLane) => if l.k = K then K else if 0 < l.rem then l.k else l.k + 1
  let w := g.foldl (fun m l => min m (c l)) K
  g.map fun l =>
    if l.k < K ∧ l.rem = 0 ∧ l.k + 1 ≤ w + D then
      { l with k := l.k + 1, rem := if l.k + 1 < K then l.ts.getD (l.k + 1) 0 else 0 }
    else l

/-- `advance`: passes until nothing changes. -/
def advanceGroup (K D : Nat) : Nat → List TLane → List TLane
  | 0, g => g
  | fuel + 1, g =>
    let g' := advancePass K D g
    if g' = g then g else advanceGroup K D fuel g'

/-- The cycles of `run` from a group on. -/
def runGroup (K D : Nat) : Nat → List TLane → Nat
  | 0, _ => 0
  | fuel + 1, g =>
    if g.all fun l => l.k == K then 0
    else
      let g := g.map fun l => if l.k < K ∧ 0 < l.rem then { l with rem := l.rem - 1 } else l
      1 + runGroup K D fuel (advanceGroup K D (32 * (K + 1)) g)

/-- cycles(g) of a group, from the counts of its active lanes; an inactive lane is given `none`. -/
def groupCycles (K D : Nat) (ls : List (Option (List Nat))) : Nat :=
  let g := ls.map fun x =>
    match x with
    | some ts => { k := 0, rem := ts.getD 0 0, ts := ts : TLane }
    | none => { k := K, rem := 0, ts := [] }
  runGroup K D (7 * K + 1) (advanceGroup K D (32 * (K + 1)) g)

/-- The time of an `mma` from the term counts of each lane. -/
def mmaTime (cfg : BitVec 16) (kb : Nat) (ls : List (Option (List Nat))) : Nat :=
  let n := cfgG cfg
  let cycles := (List.range (32 / n)).foldl
    (fun m i => max m (groupCycles (32 * kb) (cfgD cfg) ((ls.drop (i * n)).take n))) 0
  cycles + 8 + (if isMx (cfgA cfg) then 4 * kb else 0)

/-! ### Tiles (R198, R199, R206, R212) -/

/-- An integer slot; an empty tile reads zero. -/
def slotInt (t : Tile) (m n : Nat) : Int :=
  if t.kind = .empty then 0 else signedOf 48 (look t.slots (256 * m + n)).toNat

/-- An f32 slot; an empty tile reads zero. -/
def slotF32 (t : Tile) (m n : Nat) : Nat :=
  if t.kind = .empty then 0 else (look t.slots (256 * m + n)).toNat % 2 ^ 32

/-- The slots of a tile with the rows of a mask rewritten. -/
def rewriteRows (old : Sparse 64) (act : Mask) (f : Nat → Nat → Word) : Sparse 64 :=
  (List.range 32).flatMap fun m =>
    if act.getLsbD m then
      (List.range 256).filterMap fun n => if f m n = 0 then none else some (256 * m + n, f m n)
    else old.filter fun e => e.1 / 256 == m

/-- The value of a cell under a B format, in units of 2^-fb; `none` for a NaN element (R185, R203). -/
def cellValue (bfmt : Nat) (x : Byte) : Option Int :=
  let n := x.toNat
  match bfmt with
  | 1 | 3 => some (signedOf 8 n)
  | 2 => some (signedOf 4 n)
  | 4 => codeToInt .e4m3 n
  | 5 => codeToInt .e3m2 (n % 64)
  | 6 => codeToInt .e2m1 (n % 16)
  | _ =>
    let term := fun (sign : Bool) (e : Nat) => if e = 7 then (0 : Int) else codeValue (sign, e)
    some (term (x.getLsbD 7) (n / 16 % 8) + term (x.getLsbD 3) (n % 8))

/-- Fraction bits of the values of a B format. -/
def cellFrac (bfmt : Nat) : Nat :=
  match tfmtOfNum bfmt with
  | some f => tfrac f
  | none => 0

/-- The exact sum of products of 32 elements of a block of A with a column of B. -/
def dotBlock (bfmt : Nat) (cells : Sparse 8) (row0 n : Nat) (es : List (Option Int)) : Int :=
  es.zipIdx.foldl (fun (a : Int) e =>
    a + e.1.getD 0 * (cellValue bfmt (look cells (256 * (row0 + e.2) + n))).getD 0) 0

/-- Whether a NaN element of B stands in 32 rows of a column. -/
def columnNan (bfmt : Nat) (cells : Sparse 8) (row0 n : Nat) : Bool :=
  bfmt == 4 && (List.range 32).any fun i => (cellValue bfmt (look cells (256 * (row0 + i) + n))).isNone

/-- A generated NaN of f32. -/
def f32Nan (cc : Nat) : Nat := genNan fmtF32 cc

/-- One MX block product added to a slot (R199): the slot, whether a generated NaN was written, and whether the add
overflowed. -/
def mxAdd (p acc : Nat) : Nat × Bool × Bool :=
  if fNan fmtF32 p then (p, true, false)
  else if fNan fmtF32 acc then (acc, false, false)
  else
    let r := fAdd fmtF32 .rne false p acc
    (r.1, fNan fmtF32 r.1, r.2 &&& flagOF != 0)

/-- The block product P of R199. -/
def mxProduct (fa fb sa sb : Nat) (nan : Bool) (i : Int) : Nat :=
  if sa = 0xFF ∨ sb = 0xFF then f32Nan 2
  else if nan then f32Nan 1
  else (roundMag fmtF32 .rne false (decide (i < 0)) i.natAbs ((sa : Int) + sb - 254 - fa - fb) false).1

/-- The limit of an integer accumulator (R198). -/
def accLimit : Int := 2 ^ 47 - 1

/-- One integer slot after an `mma`, and whether it clamped (R198). -/
def intAdd (acc sum : Int) : Int × Bool :=
  let v := acc + sum
  if accLimit < v then (accLimit, true) else if v < -accLimit then (-accLimit, true) else (v, false)

/-- The tile after an integer `mma` (R198, R206). `blks` gives the blocks of a row. -/
def mmaInt (t : Tile) (cells : Sparse 8) (bfmt row0 : Nat) (act : Mask) (blks : Nat → List Nat) : Tile :=
  let slot := fun (m n : Nat) =>
    let sum := (blks m).zipIdx.foldl (fun (a : Int) x => a + dotBlock bfmt cells (row0 + 32 * x.2) n (telems x.1)) 0
    intAdd (slotInt t m n) sum
  { t with
    slots := rewriteRows t.slots act fun m n => wordOfInt (slot m n).1
    kind := .int
    satf := t.satf || act.lanes.any fun l => (List.range 256).any fun n => (slot l.val n).2 }

/-- The tile after an MX `mma` (R199, R206). -/
def mmaMx (t : Tile) (b : Bank) (afmt bfmt row0 : Nat) (act : Mask) (blks : Nat → List Nat) : Tile :=
  let fa := cellFrac afmt
  let fb := cellFrac bfmt
  let slot := fun (m n : Nat) =>
    (blks m).zipIdx.foldl (fun (a : Nat × Bool × Bool) x =>
      let es := telems x.1
      let r0 := row0 + 32 * x.2
      let nan := es.any (·.isNone) || columnNan bfmt b.cells r0 n
      let p := mxProduct fa fb (tscale x.1) (look b.scales (256 * (r0 / 32) + n)).toNat nan (dotBlock bfmt b.cells r0 n es)
      let y := mxAdd p a.1
      (y.1, a.2.1 || y.2.1, a.2.2 || y.2.2)) (slotF32 t m n, false, false)
  { t with
    slots := rewriteRows t.slots act fun m n => BitVec.ofNat 64 (slot m n).1
    kind := .fp
    nv := t.nv || act.lanes.any fun l => (List.range 256).any fun n => (slot l.val n).2.1
    ovf := t.ovf || act.lanes.any fun l => (List.range 256).any fun n => (slot l.val n).2.2 }

/-! ### Epilogues (R217-R219) -/

/-- What a slot is, for an epilogue: an f32 or an integer. -/
inductive SlotVal where
  | f (x : Nat)
  | i (v : Int)
  deriving DecidableEq, Repr

/-- The value of a slot. -/
def slotVal (t : Tile) (m n : Nat) : SlotVal :=
  match t.kind with
  | .fp => .f (slotF32 t m n)
  | _ => .i (slotInt t m n)

/-- A slot as a floating value. -/
def slotNum : SlotVal → FVal
  | .f x => fVal fmtF32 x
  | .i v => .num (decide (v < 0)) v.natAbs 0

/-- The f32 operands among some, for the order of NaNs (R195). -/
def slotBits : SlotVal → List Nat
  | .f x => [x]
  | .i _ => []

/-- The scaled value of `mst` (R217). -/
def scaleSlot (x : SlotVal) (scale bias : Nat) : SlotVal :=
  .f (fusedSum fmtF32 .rne false [(slotNum x, fVal fmtF32 scale)] [fVal fmtF32 bias]
    (firstNan fmtF32 (slotBits x ++ [scale, bias])) false).1

/-- `relu` (R217). -/
def reluSlot : SlotVal → SlotVal
  | .i v => .i (max v 0)
  | .f x =>
    match fVal fmtF32 x with
    | .nan => .f x
    | .inf n => .f (if n then 0 else x)
    | .num n m _ => .f (if n || m == 0 then 0 else x)

/-- An output element of `mst` and whether it sets CV (R217). -/
def storeElem (ty : Ty) (y : SlotVal) : Nat × Bool :=
  match ty, y with
  | .i8, .i v => (lowBits 8 (max (-128) (min 127 v)), decide (v < -128 ∨ 127 < v))
  | .i8, .f x => let r := fToI .f32 .i8 .rne x; (r.1, r.2 &&& flagNV != 0)
  | .e4m3, .i v =>
    let r := roundMag fmtE4M3 .rne true (decide (v < 0)) v.natAbs 0 false; (r.1, r.2 &&& flagOF != 0)
  | .e4m3, .f x =>
    (match fVal fmtF32 x with
      | .nan => (0x7F, false)
      | .inf n => (withSign fmtE4M3 n (maxBits fmtE4M3), true)
      | .num n m e => let r := roundMag fmtE4M3 .rne true n m e false; (r.1, r.2 &&& flagOF != 0))
  | .bf16, .i v => ((roundMag fmtBF16 .rne false (decide (v < 0)) v.natAbs 0 false).1, false)
  | .bf16, .f x => ((fToF .f32 .bf16 .rne false x).1, false)
  | _, .i v => ((roundMag fmtF32 .rne false (decide (v < 0)) v.natAbs 0 false).1, false)
  | _, .f x => (match fVal fmtF32 x with | .nan => fQuiet fmtF32 x | _ => x, false)

/-- The output of `mst` for a slot. -/
def storeOut (t : Tile) (ty : Ty) (scale bias : Option (Nat → Nat)) (relu : Bool) (m n : Nat) : Nat × Bool :=
  let x := slotVal t m n
  let y := match scale, bias with
    | some f, some g => scaleSlot x (f n) (g n)
    | _, _ => x
  storeElem ty (if relu then reluSlot y else y)

/-- A distance of `mdist` and whether a generated NaN is written (R218). -/
def distSlot (t : Tile) (rn cn m n : Nat) : Nat × Bool :=
  let x := slotVal t m n
  let twice : FVal := match slotNum x with
    | .num s k e => .num (!s) k (e + 1)
    | v => negVal v
  let nan := firstNan fmtF32 ([rn, cn] ++ slotBits x)
  let d := (fusedSum fmtF32 .rne false [] [fVal fmtF32 rn, fVal fmtF32 cn, twice] nan false).1
  match fVal fmtF32 d with
  | .nan => (d, nan.isNone)
  | .inf s => (if s then 0 else d, false)
  | .num s k _ => (if s || k == 0 then 0 else d, false)

/-- Whether column value `x` ranks before `y` (R219). -/
def ranksBefore (near : Bool) (x y : SlotVal) : Bool :=
  match x, y with
  | .i a, .i b => if near then decide (a < b) else decide (b < a)
  | .f a, .f b =>
    (match fVal fmtF32 a, fVal fmtF32 b with
      | .nan, _ => false
      | _, .nan => true
      | u, v => if eqNum u v then false else if near then ltNum u v else ltNum v u)
  | _, _ => false

/-- Insert a column in a ranking, after those that rank no worse. -/
def insertRank (near : Bool) (x : Nat × SlotVal) : List (Nat × SlotVal) → List (Nat × SlotVal)
  | [] => [x]
  | y :: r => if ranksBefore near x.2 y.2 then x :: y :: r else y :: insertRank near x r

/-- The `k` best columns of a row, best first (R219). -/
def topColumns (t : Tile) (near : Bool) (k m : Nat) : List (Nat × SlotVal) :=
  ((List.range 256).foldl (fun r n => (insertRank near (n, slotVal t m n) r).take k) [])

/-! ### Start (R207, R213, R355-R357) -/

/-- The tile of an operation. -/
def tileOf (u : UnitSt) (o : MatOp) : Tile :=
  match o.tile with
  | some t => u.tiles[t]
  | none => Tile.reset

/-- The A blocks that an `mma` reads at its start, each with its row (R206, R214). -/
def startBlocks (u : UnitSt) (o : MatOp) : List (Nat × Nat) :=
  match o.kind with
  | .mma _ kb => (blockList o.active kb).map fun p => (p.1, readN u.scratch (blockOff o.a o.b (cfgSlot o.cfg) p.1 p.2) (cfgSlot o.cfg))
  | _ => []

/-- The blocks of row `m` among those that an operation has read. -/
def rowBlocks (o : MatOp) (m : Nat) : List Nat := (o.blks.filter fun b => b.1 == m).map (·.2)

/-- Whether some scratch range does not fit: its offset. -/
def outside (size : Nat) (rs : List (Nat × Nat)) : MBad :=
  match rs.find? fun r => decide (size < r.1 + r.2) with
  | some r => some (9, BitVec.ofNat 64 r.1, 0)
  | none => none

/-- The row offsets of an operation's active rows. -/
def rowOffs (o : MatOp) : List Nat := o.active.lanes.map fun l => rowOff o.a o.b l.val

/-- Bytes of a row of `mst` (R217). -/
def outBytes (ty : Ty) : Nat := 256 * tyBytes ty

/-- Bytes of a value of `mtopk` (R219). -/
def topBytes (t : Tile) : Nat := if t.kind = .fp then 4 else 8

/-- The checks of an operation (R207, R352, R355-R357); an `mldw`'s addresses are checked row by row. -/
def matBad (s : State) (u : UnitSt) (o : MatOp) : MBad :=
  let size := unitScratch s u
  match o.kind with
  | .mma row0 kb =>
    let tag := match o.bank with | some b => u.engs[o.e].banks[b].tag | none => none
    let mx := isMx (cfgA o.cfg)
    let t := tileOf u o
    if cfgA o.cfg = 0 || cfgB o.cfg = 0 then some (0x10, 0, 0)
    else if tag != some (Fin.ofNat 16 (cfgB o.cfg)) then some (0x10, 0, 0)
    else if row0 % 32 ≠ 0 ∨ 128 < row0 + 32 * kb then some (0x10, 0, 0)
    else if (t.kind == .int && mx) || (t.kind == .fp && !mx) then some (0x10, 0, 0)
    else blocksBad u.scratch size o.a o.b (cfgSlot o.cfg) kb o.active (tblockOk (fmtA o.cfg) (cfgSlot o.cfg == 128))
  | .ldw rows row0 _ bfmt =>
    if bfmt = 0 ∨ 8 ≤ bfmt ∨ rows % 32 ≠ 0 ∨ rows = 0 ∨ 128 < rows ∨ row0 % 32 ≠ 0 ∨ 96 < row0 ∨ 128 < row0 + rows then
      some (0x10, 0, 0)
    else if o.a.toNat % 8 ≠ 0 then some (8, o.a, 0)
    else if o.b.toNat % 8 ≠ 0 then some (8, o.b, 0)
    else if o.c.toNat % 8 ≠ 0 then some (8, o.c, 0)
    else none
  | .norm _ => if o.a.toNat % 8 ≠ 0 then some (8, o.a, 0) else none
  | .st ty scaled _ =>
    if o.a.toNat % 8 ≠ 0 then some (8, o.a, 0)
    else if o.b.toNat % 8 ≠ 0 then some (8, o.b, 0)
    else if scaled && decide (o.c.toNat % 4 ≠ 0) then some (8, o.c, 0)
    else if scaled && decide (o.d.toNat % 4 ≠ 0) then some (8, o.d, 0)
    else outside size ((rowOffs o).map (·, outBytes ty) ++ (if scaled then [(offOf o.c, 1024), (offOf o.d, 1024)] else []))
  | .topk k _ =>
    if k = 0 ∨ 16 < k then some (0x10, 0, 0)
    else if o.a.toNat % 8 ≠ 0 then some (8, o.a, 0)
    else if o.b.toNat % 8 ≠ 0 then some (8, o.b, 0)
    else outside size ((rowOffs o).map (·, 32 + k * topBytes (tileOf u o)))
  | .dist =>
    if o.a.toNat % 4 ≠ 0 then some (8, o.a, 0)
    else outside size (o.active.lanes.map fun l => (rowOff o.a 4 l.val, 4))
  | .zero | .fromTile _ _ _ | .toTile _ _ _ => none

/-- The time of an operation (R208, R215). -/
def matTime (o : MatOp) : Nat :=
  match o.kind with
  | .mma _ kb =>
    mmaTime o.cfg kb ((List.finRange 32).map fun l =>
      if o.active.getLsbD l.val then
        some ((rowBlocks o l.val).flatMap fun x => (List.range 32).map (tcodes x))
      else none)
  | .zero => 8
  | .fromTile _ _ _ | .toTile _ _ _ => 4
  | .st _ _ _ | .dist => 40
  | .topk _ _ => 72
  | .ldw _ _ _ _ | .norm _ => 1

/-- Change one matrix operation. -/
def modMat (s : State) (id : Nat) (f : MatOp → MatOp) : State :=
  { s with mops := s.mops.map fun o => if o.id == id then f o else o }

/-- Remove a matrix operation. -/
def dropMat (s : State) (id : Nat) : State := { s with mops := s.mops.filter fun o => o.id != id }

/-- Whether an operation is an `mma`. -/
def isMma (o : MatOp) : Bool := match o.kind with | .mma _ _ => true | _ => false
/-- Whether an operation loads rows of a bank. -/
def isLdw (o : MatOp) : Bool := match o.kind with | .ldw _ _ _ _ => true | _ => false

/-- An `mma` on a bank and an `mldw` to the other bank run at once (R213). -/
def runBeside (x y : MatOp) : Bool := ((isMma x && isLdw y) || (isLdw x && isMma y)) && x.bank != y.bank

/-- Whether an operation may start (R213); `before` are the operations issued before it, `all` all of them. One starts after the cycle of its
issue, when the operations issued in that cycle stand in their order (R349). -/
def mayStart (now : Nat) (before all : List MatOp) (o : MatOp) : Bool :=
  !o.faulted && o.due.isNone && decide (o.issued < now) &&
  before.all (fun x => x.faulted || x.unit != o.unit ||
    (!(x.e == o.e && x.due.isNone) && !(x.tile.isSome && x.tile == o.tile) && !(x.e == o.e && x.bank.isSome && x.bank == o.bank))) &&
  all.all fun x => x.faulted || x.unit != o.unit || x.e != o.e || x.due.isNone || runBeside x o

/-- The first operation that may start, in order of issue. -/
def firstStart (now : Nat) (all : List MatOp) : List MatOp → List MatOp → Option MatOp
  | _, [] => none
  | before, o :: r => if mayStart now before all o then some o else firstStart now all (before ++ [o]) r

/-- Give a bank the tag of a load, clearing it where it held another format (R352). -/
def tagBank (s : State) (o : MatOp) : State :=
  match o.kind, o.bank with
  | .ldw _ _ _ bfmt, some b =>
    modUnit s o.unit fun u =>
      let g := u.engs[o.e]
      let k : Bank := { cells := [], scales := [], tag := some (Fin.ofNat 16 bfmt) }
      if g.banks[b].tag = k.tag then u
      else { u with engs := u.engs.set o.e.val { g with banks := g.banks.set b.val k b.isLt } o.e.isLt }
  | _, _ => s

/-- Whether the engines of an operation's unit run: it is on its core (R100). -/
def unitRuns (s : State) (o : MatOp) : Bool :=
  match findUnit s o.unit with
  | some u => u.st == .resident || u.st == .retiring
  | none => true

/-- MATRIX_OP_START (R207, R208, R213-R215): the A blocks of an `mma` are read now, and a failed check ends the operation 8 cycles
later. -/
def execMatrixOpStart (s : State) : Host.Outcome State Fault Refusal :=
  let all := s.mops.filter (unitRuns s)
  match firstStart s.now all [] all with
  | none => .next s
  | some o =>
    match findUnit s o.unit with
    | none => .next (dropMat s o.id)
    | some u =>
      match matBad s u o with
      | some b => .next (modMat s o.id fun x => { x with due := some (s.now + 8), bad := some b })
      | none =>
        let o := { o with blks := startBlocks u o }
        .next (tagBank (modMat s o.id fun x => { x with due := some (s.now + matTime o), blks := o.blks, bad := none }) o)

/-! ### Completion -/

/-- Replace the tile of an operation. -/
def setTile (s : State) (o : MatOp) (t : Tile) : State :=
  match o.tile with
  | some k => modUnit s o.unit fun u => { u with tiles := u.tiles.set k.val t k.isLt }
  | none => s

/-- Write the rows of an `mst`, and tell whether a conversion sets CV (R217, R355). -/
def storeRows (u : UnitSt) (o : MatOp) (t : Tile) (ty : Ty) (scaled relu : Bool) : Memory × Bool :=
  let word := fun (a : Word) (n : Nat) => readN u.scratch (offOf a + 4 * n) 4
  let sc := if scaled then some (word o.c) else none
  let bi := if scaled then some (word o.d) else none
  o.active.lanes.foldl (fun (a : Memory × Bool) l =>
    let base := rowOff o.a o.b l.val
    (List.range 256).foldl (fun (a : Memory × Bool) n =>
      let x := storeOut t ty sc bi relu l.val n
      (writeN a.1 (base + n * tyBytes ty) (tyBytes ty) x.1, a.2 || x.2)) a) (u.scratch, false)

/-- Write the rows of an `mtopk` (R219, R356). -/
def storeTop (u : UnitSt) (o : MatOp) (t : Tile) (k : Nat) (near : Bool) : Memory :=
  let w := topBytes t
  o.active.lanes.foldl (fun (m : Memory) l =>
    let base := rowOff o.a o.b l.val
    (topColumns t near k l.val).zipIdx.foldl (fun (m : Memory) c =>
      let v := match c.1.2 with | .f x => x | .i x => lowBits 64 x
      writeN (writeN m (base + 2 * c.2) 2 c.1.1) (base + 32 + w * c.2) w v) m) u.scratch

/-- The flags byte's bits [3:0] of a tile (R212). -/
def tileFlags (t : Tile) : Nat :=
  (if t.cv then 8 else 0) + (if t.nv then 4 else 0) + (if t.ovf then 2 else 0) + (if t.satf then 1 else 0)

/-- The effect of an operation that ends well, and the STATUS of its handle (R206, R216-R219). -/
def matEffect (s : State) (u : UnitSt) (o : MatOp) : State × Nat :=
  let t := tileOf u o
  match o.kind with
  | .mma row0 _ =>
    let b := match o.bank with | some b => u.engs[o.e].banks[b] | none => Bank.reset
    let blks := rowBlocks o
    (setTile s o (if isMx (cfgA o.cfg) then mmaMx t b (cfgA o.cfg) (cfgB o.cfg) row0 o.active blks
      else mmaInt t b.cells (cfgB o.cfg) row0 o.active blks), 0)
  | .zero => (setTile s o Tile.reset, 0)
  | .st ty scaled relu =>
    let (m, cv) := storeRows u o t ty scaled relu
    let t := { t with cv := t.cv || cv }
    (setTile (modUnit s u.id fun x => { x with scratch := m }) o t, tileFlags t)
  | .fromTile j m vr =>
    (modWarp s o.warp fun w =>
      let r := Fin.ofNat 256 vr
      clearV (setV w r o.active fun l => look t.slots (256 * m + 32 * j + l.val)) r, 0)
  | .toTile j m data =>
    (setTile s o { t with
      slots := o.active.lanes.foldl (fun x l => put x (256 * m + 32 * j + l.val) data[l]) t.slots
      kind := if t.kind = .empty then .int else t.kind }, 0)
  | .topk k near => (modUnit s u.id fun x => { x with scratch := storeTop u o t k near }, 0)
  | .dist =>
    let d := fun (m n : Nat) => distSlot t (readN u.scratch (rowOff o.a 4 m) 4) (look u.engs[o.e].norm n).toNat m n
    (setTile s o { t with
      slots := rewriteRows t.slots o.active fun m n => BitVec.ofNat 64 (d m n).1
      kind := .fp
      nv := t.nv || o.active.lanes.any fun l => (List.range 256).any fun n => (d l.val n).2 }, 0)
  | .ldw _ _ _ _ | .norm _ => (s, 0)

/-- The die of the engine of an operation. -/
def matDie (s : State) (o : MatOp) : Fin 2 := match findUnit s o.unit with | some u => coreDie u.core | none => 0

/-- An operation ends faulted (R207, R220). A resumable fault leaves an `mldw` in place, to start again (R352). Data in error ends
the context at once (R245). -/
def failMat (s : State) (o : MatOp) (f : FaultInfo) : State :=
  let d := matDie s o
  let s := countError (forgetEngFails s d o.id) f.ecc
  if f.cause = 0x14 then agentFault (dropMat (dropPending s o) o.id) d o.ctx 0x14 f.va o.handle o.row
  else
    let s :=
      if resumable f.cause then
        modMat s o.id fun x => { x with faulted := true, due := none, bad := none, tags := [], buf := [], fail := none }
      else dropMat (dropPending s o) o.id
    endHandle s o.ctx o.handle .faulted fun e => { e with cause := f.cause, va := f.va, pte := f.pte, elem := o.row }

/-- Whether an operation has come to its end: a row by row load only with a failed check. -/
def atEnd (s : State) (o : MatOp) : Bool :=
  match o.due, o.kind with
  | some t, .ldw _ _ _ _ | some t, .norm _ => decide (t ≤ s.now) && o.bad.isSome
  | some t, _ => decide (t ≤ s.now)
  | none, _ => false

/-- MATRIX_OP_COMPLETE (R208, R214-R220). -/
def execMatrixOpComplete (s : State) : Host.Outcome State Fault Refusal :=
  match s.mops.find? fun o => atEnd s o with
  | none => .next s
  | some o =>
    match findUnit s o.unit with
    | none => .next (dropMat s o.id)
    | some u =>
      match o.bad with
      | some (cause, va, pte) => .next (failMat s o { faultOf cause with va := va, pte := pte })
      | none =>
        let (s, st) := matEffect s u o
        .next (endHandle (dropMat s o.id) o.ctx o.handle .done fun e => { e with status := st })

/-! ### The rows of an `mldw` (R352) -/

/-- Bytes of a source row (R352). -/
def rowBytes (bfmt : Nat) : Nat := if bfmt = 5 then 192 else if bfmt = 2 ∨ bfmt = 6 then 128 else 256

/-- The cell of column `n` from a row (R203, R352). -/
def cellOf (bfmt row n : Nat) : Byte :=
  if bfmt = 5 then BitVec.ofNat 8 ((row >>> (6 * n)) % 64)
  else if bfmt = 6 then BitVec.ofNat 8 ((row >>> (4 * n)) % 16)
  else if bfmt = 2 then BitVec.ofNat 8 (lowBits 8 (signedOf 4 (row >>> (4 * n))))
  else BitVec.ofNat 8 (row >>> (8 * n))

/-- An engine access on behalf of a matrix operation, in the terms of the copy engines. -/
def asCopy (s : State) (o : MatOp) (ssp : Bool) : CopyOp :=
  let core := match findUnit s o.unit with | some u => u.core | none => 0
  { id := o.id, ctx := o.ctx, handle := o.handle, eng := 128 * (coreDie core).val, unit := some o.unit, core := core
    kind := .plain, ssp := ssp, dsp := false, h := 0, ty := .n64, a := 0, b := 0, c := 0, d := 0, i := o.row, slot := none
    faulted := false, tags := [], buf := o.buf, sent := false, sysw := none, bad := none, ending := none, checked := none }

/-- Read 8-byte pieces for a load, low first; a term page takes cause 0x0006. -/
def pieceRead (s : State) (o : CopyOp) (a : Word) : Nat → Nat → Part1 Nat
  | 0, k => .ok 0 k s
  | n + 1, k =>
    (engRead s o k o.ssp false a 8).bind fun x k s =>
      (pieceRead s o (a + 8) n k).bind fun y k s => .ok (x + 2 ^ 64 * y) k s

/-- Read `n` bytes for a load: the bounds of a scratch source hold for all of them. -/
def rangeRead (s : State) (o : CopyOp) (a : Word) (n k : Nat) : Part1 Nat :=
  match (if o.ssp then engBounds s o (offOf a) n else none) with
  | some f => .bad f s
  | none => pieceRead s o a (n / 8) k

/-- The bytes of the next row, and its scale block where it has one. -/
def rowRead (s : State) (o : MatOp) : Part1 (Nat × Option Nat) :=
  match o.kind with
  | .ldw _ _ ssp bfmt =>
    let q := asCopy s o ssp
    (rangeRead s q (o.a + BitVec.ofNat 64 o.row * o.b) (rowBytes bfmt) 0).bind fun x k s =>
      if isMx bfmt && o.row % 32 == 0 then
        (rangeRead s q (o.c + BitVec.ofNat 64 (256 * (o.row / 32))) 256 k).bind fun y k s => .ok (x, some y) k s
      else .ok (x, none) k s
  | .norm ssp => (rangeRead s (asCopy s o ssp) o.a 1024 0).bind fun x k s => .ok (x, none) k s
  | _ => .ok (0, none) 0 s

/-- Replace 256 entries of a sparse array from a key on. -/
def putRow {n : Nat} (m : Sparse n) (at_ : Nat) (f : Nat → BitVec n) : Sparse n :=
  (List.range 256).foldl (fun m k => put m (at_ + k) (f k)) m

/-- Write a row into the macro, or the norm row. -/
def rowWrite (s : State) (o : MatOp) (x : Nat) (scales : Option Nat) : State :=
  modUnit s o.unit fun u =>
    let g := u.engs[o.e]
    let g : Eng :=
      match o.kind, o.bank with
      | .ldw _ row0 _ bfmt, some b =>
        let k := g.banks[b]
        let k := { k with cells := putRow k.cells (256 * (row0 + o.row)) (cellOf bfmt x) }
        let k := match scales with
          | some y => { k with scales := putRow k.scales (256 * ((row0 + o.row) / 32)) fun n => BitVec.ofNat 8 (y >>> (8 * n)) }
          | none => k
        { g with banks := g.banks.set b.val k b.isLt }
      | _, _ => { g with norm := putRow g.norm 0 fun n => BitVec.ofNat 32 (x >>> (32 * n)) }
    { u with engs := u.engs.set o.e.val g o.e.isLt }

/-- Rows of a load; the norm row counts as one. -/
def rowCount (o : MatOp) : Nat := match o.kind with | .ldw rows _ _ _ => rows | _ => 1

/-- Whether a load has a row to write now. -/
def rowReady (s : State) (o : MatOp) : Bool :=
  match o.kind, o.due with
  | .ldw _ _ _ _, some t | .norm _, some t => decide (t ≤ s.now) && o.bad.isNone && o.tags.isEmpty
  | _, _ => false

/-- MLDW_ROW_WRITE (R352): row `row` is written and commits. -/
def execMldwRowWrite (op : Nat) (s : State) : Host.Outcome State Fault Refusal :=
  match s.mops.find? fun o => o.id == op && rowReady s o with
  | none => .next s
  | some o =>
    match o.fail with
    | some f => .next (failMat s o { faultOf f.cause with va := f.va })
    | none =>
      match rowRead s o with
      | .again s => .next s
      | .bad f s => .next (failMat s o f)
      | .send l s =>
        let (t, s) := sendLink s (matDie s o) { l with wants := [wantOf l (if l.sys then l.pa else l.pa / 64 * 64)] }
        .next (modMat s o.id fun x => { x with tags := [t] })
      | .ok (x, y) _ s =>
        let s := rowWrite s o x y
        if o.row + 1 < rowCount o then
          .next (modMat s o.id fun z => { z with row := o.row + 1, due := some (s.now + 1), buf := [] })
        else .next (endHandle (dropMat s o.id) o.ctx o.handle .done fun e => e)

/-- MCOUNT_RESULT (R358): the oldest sum that is due is written. -/
def execMcountResult (s : State) : Host.Outcome State Fault Refusal :=
  match s.results.find? fun r => r.kind == .mcount && (match r.due with | some t => decide (t ≤ s.now) | none => false) with
  | none => .next s
  | some r =>
    let s := { s with results := s.results.filter fun x => x.id != r.id }
    match r.sw with
    | some (d, v) => .next (modWarp s r.warp fun w => clearS (setS w d v) d)
    | none => .next s

end Sys2Proof.Machine
end

