-- ==== Sys2Proof/Machine/Links.lean ====
section
/-! DEFINITION. What happens on the three kinds of link (R24-R42): the Yelot bridge, UALink and the host port; and how
completions reach the accesses that wait for them. -/

namespace Sys2Proof.Machine

/-! ### The Yelot bridge (R24-R27) -/

/-- Change the bridge. -/
def modBridge (s : State) (f : Bridge → Bridge) : State := { s with bridge := f s.bridge }

/-- Whether packet `i` of the queue may be delivered (R25, R26): none before it has its source and destination, the bridge
is up and trained, and the replay buffer of 8,192 flits has room. -/
def mayDeliver (b : Bridge) (i : Nat) (p : Packet) : Bool :=
  !b.down && b.retrain.isNone && decide (heldFlits b p.dir + p.flits ≤ 8192) &&
  (b.queue.take i).all fun q => !(q.dir == p.dir && q.src == p.src && q.dst == p.dst)

/-- Remove the packet at a place of the queue. -/
def dropPacket (b : Bridge) (i : Nat) : Bridge := { b with queue := b.queue.eraseIdx i }

/-- BRIDGE_PACKET (R25): a packet arrives whole, once. A replay of one that was accepted is discarded (R26). -/
def execBridgePacket (i : Nat) (s : State) : Host.Outcome State Fault Refusal :=
  match s.bridge.queue[i]? with
  | none => .next s
  | some p =>
    if mayDeliver s.bridge i p then
      let s := if p.again then s else deliverPacket s p
      .next (modBridge s fun b => { dropPacket b i with replay := b.replay ++ [p] })
    else .next s

/-- BRIDGE_ACKNOWLEDGE (R26): flits below a sequence number leave the sender's replay buffer, and what waited for its room goes on. -/
def execBridgeAcknowledge (dir : Fin 2) (seq : Nat) (s : State) : Host.Outcome State Fault Refusal :=
  let was := bridgeStalled s.bridge
  let s := modBridge s fun b => { b with replay := b.replay.filter fun p => !(p.dir == dir && decide (p.seq + p.flits ≤ seq)) }
  .next (if was && !bridgeStalled s.bridge then sendHeld s else s)

/-- The sender of a direction replays what is not acknowledged, from the first flit (R26). -/
def replayDir (b : Bridge) (dir : Fin 2) : Bridge :=
  { b with
    queue := ((b.replay.filter fun p => p.dir == dir).map fun (p : Packet) => { p with again := true }) ++ b.queue
    replay := b.replay.filter fun p => p.dir != dir }

/-- BRIDGE_FLIT_ERROR (R26). -/
def execBridgeFlitError (dir : Fin 2) (s : State) : Host.Outcome State Fault Refusal :=
  .next (modBridge s fun b => replayDir b dir)

/-- BRIDGE_RETRAIN (R26, R27): a training attempt. After a good one both senders replay, and what waited to cross goes on; a failed one
counts. -/
def execBridgeRetrain (ok : Bool) (s : State) : Host.Outcome State Fault Refusal :=
  if s.bridge.down then .next s
  else if ok then .next (sendHeld (modBridge s fun b => { replayDir (replayDir b 0) 1 with retrain := none, attempts := 0 }))
  else .next (modBridge s fun b => { b with retrain := some s.now, attempts := b.attempts + 1 })

/-- BRIDGE_LANE_FAILURE (R27): a lane without a spare retires its module, on both ends. -/
def execBridgeLaneFailure (d : Fin 2) (module : Fin 96) (spare : Bool) (s : State) : Host.Outcome State Fault Refusal :=
  if spare then .next s
  else
    let off := fun (x : Die) => { x with modules := x.modules &&& ~~~BitVec.ofNat 96 (2 ^ module.val) }
    .next (setHealth (setHealth s d off) (otherDie d) off)

/-! ### Inputs that cross the bridge (R25-R27) -/

/-- Serve an input that needs the bridge, or not, as `far` says: where crossings stall it waits first in line (R26). -/
def crossIn (s : State) (far : Bool) (e : Instr) (down ok : State → State) : Host.Outcome State Fault Refusal :=
  match (if far then crossing s 0 1 else .free) with
  | .free => .next (ok s)
  | .stalled => .next { s with inbox := e :: s.inbox }
  | .down => .next (down s)

/-! ### UALink (R28-R35) -/

/-- UALINK_LANE_FAILURE (R28): a port retrains at two lanes, then at one; one that cannot is retired. -/
def execUalinkLaneFailure (d : Fin 2) (port : Fin 8) (trains : Bool) (s : State) : Host.Outcome State Fault Refusal :=
  .next (setHealth s d fun x =>
    let w := x.ports[port]
    let w' : BitVec 8 := if trains && w == 4 then 2 else if trains && w == 2 then 1 else 0
    { x with ports := x.ports.set port.val w' port.isLt })

/-- Whether a range of package memory can serve a request that comes from outside to a die `g`: populated, and its die within
reach of that one (R21, R27, R31). -/
def servable (s : State) (g : Fin 2) (a n : Nat) : Bool :=
  regionOf a == .package && decide (a % 2 ^ 40 + n ≤ Config.dieBytes) && s.dies[g].dstate != .dieOffline
    && s.dies[dieOf a].dstate != .dieOffline && crossing s g (dieOf a) != .down

/-- The die at which a request of another package arrives (R31): die 0 from the same row, otherwise die 1. -/
def arrivalDie (s : State) (src : BitVec 12) : Fin 2 :=
  if src.toNat / 64 = identOf s.dies[(0 : Fin 2)].ident / 64 then 0 else 1

/-- Whether an atomic of a type may come over UALink (R33). -/
def uaAtomicOk (ty : Ty) (a : Nat) : Bool :=
  (ty == .i32 || ty == .n32 || ty == .i64 || ty == .n64) && a % tyBytes ty == 0

/-- Whether some of `n` bytes from an address on are data in error (R52). -/
def badRange (s : State) (a n : Nat) : Bool := (sectorsOf a n).any fun x => s.bad.contains x

/-- Read `n` bytes at the home slice for an agent outside the package that comes in at a die (R33, R41): a migrated line is recalled. The
bytes, or an error where they cannot be read. -/
def outsideRead (s : State) (g : Fin 2) (a n : Nat) : Option Nat × State :=
  if servable s g a n && !badRange s a n then (some (readN s.mem a n), windowTouch s g a n) else (none, s)

/-- Write at the home slice for an agent outside the package. -/
def outsideWrite (s : State) (g : Fin 2) (atomic : Bool) (a n x : Nat) : State :=
  homeWrite (crossed (recallAt s a n) g (dieOf a) (lineSlice (a / 256)).val) (dieOf a) Acc.plain atomic a n x

/-- Write the enabled bytes of a request. -/
def writeEnabled (s : State) (g : Fin 2) : Nat → List Byte → List Bool → State
  | _, [], _ => s
  | _, _, [] => s
  | a, b :: r, e :: es => writeEnabled (if e then outsideWrite s g false a 1 b.toNat else s) g (a + 1) r es

/-- Perform a request of another package at its home slice (R33): the data it returns, or an error. A write of the whole sector is one
write (R52). -/
def serveUa (s : State) (g : Fin 2) (r : UaReq) : Option (List Byte) × State :=
  match r with
  | .read addr bytes =>
    let a := addr.toNat
    if (bytes == 64 || bytes == 256) && a % bytes == 0 then
      let (x, s) := outsideRead s g a bytes
      (x.map (bytesOf bytes), s)
    else (none, s)
  | .write addr data enable =>
    let a := addr.toNat
    if decide (a % 64 + data.length ≤ 64) && servable s g a data.length then
      (some [], if data.length = 64 && enable == List.replicate 64 true then outsideWrite s g false a 64 (ofBytes data)
        else writeEnabled s g a data enable)
    else (none, s)
  | .atomic op ty addr x y =>
    let a := addr.toNat
    let n := tyBytes ty
    if uaAtomicOk ty a then
      match outsideRead s g a n with
      | (some old, s) =>
        let m := 2 ^ tyWidth ty
        (some (bytesOf n old), outsideWrite s g true a n (atomNew op ty old (x.toNat % m) (y.toNat % m)))
      | (none, s) => (none, s)
    else (none, s)
  | .other _ => (none, s)

/-- Send a response to a package (R31, R33): by the route of a request from here to there. Where that does not exist, none is sent. -/
def respond (s : State) (g : Fin 2) (src : BitVec 12) (tag : Nat) (data : Option (List Byte)) : State :=
  let me := BitVec.ofNat 12 (identOf s.dies[g].ident)
  match portTo s me.toNat src.toNat with
  | .port d p =>
    if crossing s g d = .down then s
    else
    let s := if d = g then s else sendPacket s g (portAgent p.val) .response true
    { s with uaOut := s.uaOut ++ [.response d p.val me src tag data.isSome (data.getD [])] }
  | _ => s

/-- The package memory that a request of another package names. -/
def reqAddr : UaReq → Option Nat
  | .read a _ => some a.toNat
  | .write a _ _ => some a.toNat
  | .atomic _ _ a _ _ => some a.toNat
  | .other _ => none

/-- Whether a request that arrives at a die crosses the bridge to its memory, or its response to its port (R31). -/
def reqCrosses (s : State) (g : Fin 2) (src : BitVec 12) (r : UaReq) : Bool :=
  (match reqAddr r with | some a => dieOf a != g | none => false) || groupDie (identOf s.dies[g].ident) src.toNat != g

/-- DOMAIN_REQUEST_RECEIVED (R33, R34): the answer follows the access. The spec does not say that EN, or copies of the identity register that
differ, keep requests of other packages out (R29): the model serves them all the same (log 71). -/
def execDomainRequestReceived (src : BitVec 12) (tag : Nat) (r : UaReq) (s : State) : Host.Outcome State Fault Refusal :=
  let g := arrivalDie s src
  let serve := fun (s : State) =>
    let (data, s) := serveUa s g r
    respond s g src tag data
  crossIn s (reqCrosses s g src r) (.domainRequestReceived src tag r) serve serve

/-- RELAY_FORWARD (R31): a packet that came over the row pod crosses the bridge and leaves over the column pod; where it cannot, it is
lost. -/
def execRelayForward (p : UaPkt) (s : State) : Host.Outcome State Fault Refusal :=
  let ps := portsOf s 1
  if ps.isEmpty || s.dies[(0 : Fin 2)].dstate == .dieOffline || s.dies[(1 : Fin 2)].dstate == .dieOffline then .next s
  else
    let port := ps.getD ((p.src.toNat ^^^ p.dst.toNat) % ps.length) 0
    crossIn s true (.relayForward p) id fun s =>
      let s := sendPacket s 0 (portAgent port.val) (if p.resp then .response else .request) true
      { s with uaOut := s.uaOut ++ [.request 1 port.val p] }

/-! ### Completions (R34, R35, R40) -/

/-- Add a failure to one that is already noted: the lowest lane's cause and address stand (R245). -/
def mergeFault (old : Option LateFault) (f : LateFault) : LateFault :=
  match old with
  | none => f
  | some g =>
    let low := fun (m : Mask) => match m.lowest with | some l => l.val | none => 32
    if low f.lanes < low g.lanes then { f with lanes := f.lanes ||| g.lanes } else { g with lanes := f.lanes ||| g.lanes }

/-- What a read that came back brings to a part of a lane's access. -/
def wantValue (data : List Byte) (w : Want) : Word := BitVec.ofNat 64 (ofBytes ((data.drop w.off).take w.bytes))

/-- An access of a register result has come back: a read brings each lane its part (R33, R158), an atomic the old value of its lane. Of an
atomic that fails in a lane the later lanes are not sent (R124). -/
def resultBack (s : State) (l : LinkOp) (id : Nat) (x : Except LateFault (List Byte)) : State :=
  modResult s id fun r =>
    let r := { r with tags := r.tags.filter fun t => t != l.tag }
    match x with
    | .ok data =>
      if l.wants.isEmpty then fillResult r l.reg l.lane (BitVec.ofNat 64 (ofBytes data))
      else l.wants.foldl (fun r w => fillResult r w.reg w.lane (wantValue data w)) r
    | .error f => { r with bad := some (mergeFault r.bad f), tags := if l.kind == .atomic then [] else r.tags }

/-- An access of an engine has come back. -/
def engineBack (s : State) (l : LinkOp) (id : Nat) (x : Except LateFault (List Byte)) : State :=
  let left := fun (ts : List Nat) => ts.filter fun t => t != l.tag
  let more := fun (b : List Word) => match x with
    | .ok data => if l.kind == .read then b ++ l.wants.map (wantValue data) else b
    | .error _ => b
  let fault := fun (b : Option LateFault) => match x with
    | .ok _ => b
    | .error f => some (mergeFault b f)
  { s with
    copies := s.copies.map fun o => if o.id == id then { o with tags := left o.tags, buf := more o.buf, bad := fault o.bad } else o
    mops := s.mops.map fun o => if o.id == id then { o with tags := left o.tags, buf := more o.buf, fail := fault o.fail } else o
    maints := s.maints.map fun o => if o.id == id then { o with tags := left o.tags, bad := fault o.bad } else o }

/-- The outcome of an access reaches whoever waits for it. A failed write, or atomic without a result, that nobody waits for is kept for
the warp's next release or `exit` (R35, R40, log 65). A flushing read that came back has covered the writes before it (R39). -/
def deliverOver (s : State) (l : LinkOp) (x : Except LateFault (List Byte)) : State :=
  match l.result, l.copy with
  | some id, _ => resultBack s l id x
  | none, some id => engineBack s l id x
  | none, none =>
    match x with
    | .ok _ =>
      if l.kind = .flush then { s with links := s.links.filter fun k => !(k.kind == .write && k.flushed.contains l.warp) } else s
    | .error f => modWarp s l.warp fun w => { w with late := w.late ++ [f] }

/-- An access is over: what waited behind it goes out, but for the later lanes of an atomic that has failed (R124). -/
def accessOver (s : State) (l : LinkOp) (x : Except LateFault (List Byte)) : State :=
  let old := s.links
  let s := { s with links := old.filter fun k => k.tag != l.tag && (x.toOption.isSome || !laneBefore l k) }
  let s := (s.links.filter fun k => heldBack old k && !heldBack s.links k).foldl transmit s
  deliverOver s l x

/-- The data that a good completion brings: that of a domain read begins with its sector or line (R33), of which an atomic carried as a
read takes its location. -/
def broughtBy (l : LinkOp) (data : List Byte) : List Byte :=
  match l.kind with
  | .atomic => (if !l.sys && looped l && l.expect.isNone then data.drop (l.pa % 64) else data).take (tyBytes l.ty)
  | .read => data
  | .write | .flush => []

/-- A good completion (R33, R40): the link logic goes on with a compare-and-swap where the last one failed. -/
def goodBack (s : State) (l : LinkOp) (data : List Byte) : State :=
  let x := broughtBy l data
  let v := ofBytes x
  if looped l && l.expect != some (BitVec.ofNat 64 v) then
    let l' := { l with expect := some (BitVec.ofNat 64 v), y := BitVec.ofNat 64 (atomNew l.op l.ty v l.x.toNat 0) }
    transmit { s with links := s.links.map fun k => if k.tag == l.tag then l' else k } l'
  else accessOver s l (.ok x)

/-- The lanes that an access serves. -/
def lanesOf (l : LinkOp) : Mask :=
  if l.wants.isEmpty then BitVec.ofNat 32 (2 ^ l.lane.val)
  else l.wants.foldl (fun (m : Mask) w => m ||| BitVec.ofNat 32 (2 ^ w.lane.val)) 0

/-- A failure of an access. -/
def failureOf (l : LinkOp) (cause : Nat) : LateFault := { cause := cause, va := l.va, lanes := lanesOf l }

/-- A failed completion, with its cause. -/
def badBack (s : State) (l : LinkOp) (cause : Nat) : State := accessOver s l (.error (failureOf l cause))

/-- Accesses that fail together: none of them goes out any more. -/
def failAll (s : State) (p : LinkOp → Bool) (cause : Nat) : State :=
  let gone := s.links.filter p
  gone.foldl (fun s l => deliverOver s l (.error (failureOf l cause))) { s with links := s.links.filter fun l => !p l }

/-- The die at which the completion of an access arrives (R31, R36). -/
def backDie (s : State) (l : LinkOp) : Fin 2 := if l.sys then 0 else arrivalDie s (BitVec.ofNat 12 (peerOf s l.die l.pa))

/-- The agent that a completion comes from: the host port, or a port of the die where it arrives. -/
def backAgent (s : State) (l : LinkOp) : Nat :=
  if l.sys then hostAgent
  else
    let ps := portsOf s (backDie s l)
    portAgent (match ps with | [] => 0 | _ => (ps.getD ((identOf s.dies[l.die].ident ^^^ peerOf s l.die l.pa) % ps.length) 0).val)

/-- A completion goes to its access, over the bridge where that is the other die's (R25-R27). -/
def comeBack (s : State) (l : LinkOp) (e : Instr) (k : State → State) : Host.Outcome State Fault Refusal :=
  let d := backDie s l
  crossIn s (d != l.die) e (fun s => badBack s l 0x14) fun s =>
    k (if d = l.die then s else sendPacket (arrivePacket s d (backAgent s l)) d (backAgent s l) .response true)

/-- DOMAIN_COMPLETION (R34, R35). -/
def execDomainCompletion (tag : Nat) (ok : Bool) (data : List Byte) (s : State) : Host.Outcome State Fault Refusal :=
  match s.links.find? fun l => l.tag == tag && !l.sys with
  | none => .next s
  | some l => comeBack s l (.domainCompletion tag ok data) fun s => if ok then goodBack s l data else badBack s l 0x19

/-- DOMAIN_COMPLETION_TIMEOUT (R35): the oldest domain access outstanding. -/
def execDomainCompletionTimeout (s : State) : Host.Outcome State Fault Refusal :=
  match s.links.find? fun l => !l.sys with
  | none => .next s
  | some l => .next (badBack s l 0x19)

/-- SYSTEM_COMPLETION (R40): for a posted write it can only tell of its failure. -/
def execSystemCompletion (tag : Nat) (st : CplStatus) (data : List Byte) (s : State) : Host.Outcome State Fault Refusal :=
  match s.links.find? fun l => l.tag == tag && l.sys with
  | none => .next s
  | some l =>
    if st = .ok && l.kind == .write then .next s
    else
      comeBack s l (.systemCompletion tag st data) fun s =>
        if st = .ok then goodBack s l data else badBack s l (if l.kind == .atomic then 4 else 0x19)

/-- SYSTEM_READ_TIMEOUT (R40): the oldest read of the host outstanding. -/
def execSystemReadTimeout (s : State) : Host.Outcome State Fault Refusal :=
  match s.links.find? fun l => l.sys && l.kind != .write with
  | none => .next s
  | some l => .next (badBack s l 0x19)

/-! ### The host port (R41, R42) -/

/-- The physical address of a BAR2 access: its 64 GiB aperture stands at the window base (R36, log 47). It is presented to a host that
the package serves (R42, R49). -/
def apertureAddr (s : State) (off n : Nat) : Option Nat :=
  if pfServes s && decide (off + n ≤ 2 ^ 36) then some (s.host.bar2.toNat + off) else none

/-- INBOUND_HOST_WRITE (R41). One to memory that cannot be reached is dropped (log 34). -/
def execInboundHostWrite (off : Nat) (data : List Byte) (s : State) : Host.Outcome State Fault Refusal :=
  match apertureAddr s off data.length with
  | none => .next s
  | some a =>
    crossIn s (servable s 0 a data.length && dieOf a != 0) (.inboundHostWrite off data) id fun s =>
      if servable s 0 a data.length then outsideWrite s 0 false a data.length (ofBytes data) else s

/-- A read of the BAR2 aperture (R41): of memory that cannot be read, of which the spec does not say it, it is answered with an error
(log 34). -/
def readAperture (s : State) (off bytes : Nat) : State :=
  match apertureAddr s off bytes with
  | none => s
  | some a =>
    match outsideRead s 0 a bytes with
    | (some x, s) => { s with hostOut := s.hostOut ++ [.readData (bytesOf bytes x)] }
    | (none, s) => { s with hostOut := s.hostOut ++ [.readError] }

/-- Whether a message is one that is posted, and held while the link is down (R42). -/
def postedMsg (m : HostMsg) : Bool := match m with | .read _ _ _ _ | .atomicOp _ _ _ _ _ _ _ => false | _ => true

/-- HOST_LINK_DOWN (R42): the completions of reads and atomics that are outstanding will not come. -/
def execHostLinkDown (s : State) : Host.Outcome State Fault Refusal :=
  if s.host.up then
    let s := { s with host := { s.host with up := false, held := s.host.held.filter fun x => postedMsg x.msg } }
    .next (failAll s (fun l => l.sys && l.kind != .write) 0x19)
  else .next s

/-- HOST_LINK_UP (R42): what was held is delivered in order. -/
def execHostLinkUp (s : State) : Host.Outcome State Fault Refusal :=
  if s.host.up then .next s else .next (sendHeld { s with host := { s.host with up := true } })

/-! ### The bridge is down (R27) -/

/-- The tag of an access that a message to the host carries. -/
def msgTag : HostMsg → Option Nat
  | .read _ t _ _ => some t
  | .atomicOp _ t _ _ _ _ _ => some t
  | .write _ t _ _ => some t
  | _ => none

/-- The contexts whose invalidations wait to cross, each with the die that sent them. -/
def waitingOwners (b : Bridge) : List (Fin 2 × Fin 64) :=
  (b.queue.filterMap fun p => if p.again then none else match p.body with | .inval _ (some c) => some (p.dir, c) | _ => none).eraseDups

/-- BRIDGE_DOWN (R27): after 64 failed attempts the bridge is down. Each packet that waits to cross ends in an error, cause 0x0014 for the
agent that issued it, and the owning context ends: an invalidation, or a message for the host. An access whose request has gone across is
outstanding as before; its completion meets the bridge that is down when it arrives. -/
def execBridgeDown (s : State) : Host.Outcome State Fault Refusal :=
  if s.bridge.down || decide (s.bridge.attempts < 64) then .next s
  else
    let gone := s.host.held.filter fun x => x.die != 0
    let tags := gone.filterMap fun x => msgTag x.msg
    let posted := (gone.filter fun x => postedMsg x.msg).filterMap fun x => x.owner.map fun c => (x.die, c)
    let owners := waitingOwners s.bridge ++ posted
    let s := { s with host := { s.host with held := s.host.held.filter fun x => x.die == 0 } }
    let s := modBridge s fun b => { b with down := true, queue := [], replay := [] }
    let s := failAll s (fun l => tags.contains l.tag) 0x14
    .next (owners.eraseDups.foldl (fun s x => agentFault s x.1 x.2 0x14 0 0 0) s)

end Sys2Proof.Machine
end

