-- ==== Sys2Proof/Machine/Maint.lean ====
section
/-! DEFINITION. Page walks, and the MMU-maintenance operations in flight: `tlbinv` and `dirtyclr` (R64, R65, R134-R136,
R372, R374). -/

namespace Sys2Proof.Machine

/-- PAGE_WALK (R134-R136): one of the first 64 waiting misses of a die is walked. -/
def execPageWalk (d : Fin 2) (i : Fin 64) (s : State) : Host.Outcome State Fault Refusal :=
  match s.dies[d].walks[i.val]? with
  | some r => .next (runWalk s d r)
  | none => .next s

/-- Whether an access of a context through a leaf page that a range overlaps is still outstanding (R135, R372); a posted system write is
performed once it is sent. -/
def linkOutstanding (s : State) (c : Fin 64) (lo len : Nat) : Bool :=
  s.links.any fun l =>
    l.ctx == c && (l.pages.any fun g => coversRange lo len g.1 g.2)
      && !(l.sys && l.kind == .write && !(s.host.held.any fun x => msgTag x.msg == some l.tag))

/-- Remove a maintenance operation. -/
def dropMaint (s : State) (id : Nat) : State := { s with maints := s.maints.filter fun o => o.id != id }

/-- Change a maintenance operation. -/
def modMaint (s : State) (id : Nat) (f : Maint → Maint) : State :=
  { s with maints := s.maints.map fun o => if o.id == id then f o else o }

/-- Write back every dirty line of every core. -/
def cleanCores (s : State) : State :=
  (List.finRange 384).foldl (fun s k => if s.cores[k].l1.isEmpty then s else l1Clean s k fun _ => true) s

/-- Whether a maintenance operation is to be cancelled (R337). -/
def maintCancel (s : State) (o : Maint) : Bool := cancelAsked s o.ctx o.handle

/-- TLBINV_COMPLETE (R135, R337, R372). It waits for writes that used the translations and cannot reach their home slice yet (R26). A
`tlbinv` whose cancel was asked for finishes, and reads cancelled. -/
def execTlbinvComplete (op : Nat) (s : State) : Host.Outcome State Fault Refusal :=
  match s.maints.find? fun o => o.id == op with
  | none => .next s
  | some o =>
    match o.kind with
    | .dirtyclr _ _ _ => .next s
    | .tlbinv lo len =>
      if linkOutstanding s o.ctx lo.toNat len.toNat then .next s
      else
        let s := cleanCores (tlbInvalidate s o.ctx lo.toNat len.toNat)
        if (List.finRange 384).any fun k => l1Stalled s k fun l => l.owner == some o.ctx then .next s
        else .next (endHandle (dropMaint s op) o.ctx o.handle (if maintCancel s o then .cancelled else .done) fun e => e)

/-! ### `dirtyclr` (R65, R374) -/

/-- The engine accesses of a `dirtyclr` in the terms of the copy engines. -/
def maintCopy (o : Maint) (vb : Word) : CopyOp :=
  { id := o.id, ctx := o.ctx, handle := o.handle, eng := 128 * (coreDie o.core).val, unit := none, core := o.core
    kind := .plain, ssp := false, dsp := false, h := 0, ty := .n64, a := 0, b := vb, c := 0, d := 0, i := o.i, slot := none
    faulted := false, tags := [], buf := [], sent := false, sysw := none, bad := none, ending := none, checked := none }

/-- The address of element `i` of a `dirtyclr`: a word of the partition's bitmap (R64, R374). -/
def bitmapWord (s : State) (o : Maint) (first : Word) : Nat :=
  (partOfCtx s o.ctx).dbase.toNat + 8 * (first.toNat / 64 + o.i)

/-- The first of the 64 frames of a bitmap word. -/
def wordFrame (o : Maint) (first : Word) : Nat := 64 * (first.toNat / 64 + o.i)

/-- Whether a TLB entry covers one of 64 frames from one on, on either die. -/
def coversFrames (f : Nat) (e : TlbEntry) : Bool :=
  [0, 1].any fun d =>
    let lo := physical e e.base d / 65536
    decide (lo < f + 64) && decide (f < lo + e.size / 65536)

/-- Whether a line lies in `n` frames from one on. -/
def inFrames (f n : Nat) (l : L1Line) : Bool := decide (f ≤ l.line / 256) && decide (l.line / 256 < f + n)

/-- Write back the dirty lines of `n` frames on every core, so that every write marked so far is performed. -/
def cleanFrames (s : State) (f n : Nat) : State :=
  (List.finRange 384).foldl (fun s k => if s.cores[k].l1.isEmpty then s else l1Clean s k (inFrames f n)) s

/-- What the bitmap word of an element meets, for the engine of a die: its memory beyond reach, or data in error (R21, R27, R52). -/
def bitmapLook (s : State) (o : Maint) (first : Word) : Option FaultInfo :=
  let a := bitmapWord s o first
  let d := coreDie o.core
  if regionOf a != .package || s.dies[dieOf a].dstate == .dieOffline then some (faultOf 3)
  else if crossing s d (holderOf s (a / 256)) == .down || crossing s d (dieOf a) == .down then some (faultOf 0x14)
  else if s.bad.contains (a / 64) then some { faultOf 0x14 with ecc := some (dieOf a) }
  else none

/-- Whether the bitmap word of an element lies behind a crossing that stalls (R26). -/
def bitmapStalled (s : State) (o : Maint) (first : Word) : Bool :=
  crossing s (coreDie o.core) (dieOf (bitmapWord s o first)) == .stalled

/-- Read and clear a bitmap word at its home slice, and forget the cached D of its frames. -/
def clearWord (s : State) (o : Maint) (first : Word) : Word × State :=
  let a := bitmapWord s o first
  let s := cleanFrames s (wordFrame o first) 64
  let v := readN s.mem a 8
  let s := homeWrite (crossed (recallAt s a 8) (coreDie o.core) (dieOf a) (lineSlice (a / 256)).val) (dieOf a) (Acc.of o.ctx) true a 8 0
  let part := s.ctxs[o.ctx].part
  (BitVec.ofNat 64 v, tlbClean s fun e => s.ctxs[e.ctx].part == part && coversFrames (wordFrame o first) e)

/-- Put a word of the bitmap back as it was before its step, with the marks made since. -/
def restoreWord (s : State) (o : Maint) (first old : Word) : State :=
  let a := bitmapWord s o first
  homeWrite s (dieOf a) (Acc.of o.ctx) true a 8 (readN s.mem a 8 ||| old.toNat)

/-- An operation ends: its handle takes the final state once what it wrote, and what it cleared, has been performed (R65, R374). -/
def endMaint (s : State) (o : Maint) (st : HState) (f : FaultInfo) : State :=
  modMaint s o.id fun x => { x with ending := some (st, f), old := none, tags := [], bad := none }

/-- A `dirtyclr` faults at the element it is at (R155, R374). Data in error ends the context at once (R245). -/
def failMaint (s : State) (o : Maint) (f : FaultInfo) : State :=
  let s := countError (forgetEngFails s (coreDie o.core) o.id) f.ecc
  if f.cause = 0x14 then agentFault (dropMaint s o.id) (coreDie o.core) o.ctx 0x14 f.va o.handle o.i else endMaint s o .faulted f

/-- Commit an element; after the last the operation ends. -/
def commitMaint (s : State) (o : Maint) (count : Word) : State :=
  let s := modMaint s o.id fun x => { x with i := x.i + 1, old := none, tags := [] }
  if o.i + 1 < count.toNat / 64 then s else endMaint s { o with i := o.i + 1 } .done (faultOf 0)

/-- Whether a `dirtyclr` goes on: it waits for nothing, and its context neither halts nor is halted; while it halts, a word whose write a
link has carried is still committed (R100). -/
def maintActive (s : State) (o : Maint) : Bool :=
  let st := s.ctxs[o.ctx].st
  (st == .running || st == .idle || (st == .halting && (o.old.isSome || o.bad.isSome))) && !o.faulted && o.tags.isEmpty

/-- The handle of an ended operation takes its final state; one that a resumable fault has stopped keeps its place for a restart
(R126, R155). -/
def settleMaint (s : State) (o : Maint) (st : HState) (f : FaultInfo) : State :=
  let st := if maintCancel s o then HState.cancelled else st
  let s :=
    if st = .faulted ∧ resumable f.cause then modMaint s o.id fun x => { x with faulted := true, ending := none }
    else dropMaint s o.id
  endHandle s o.ctx o.handle st fun e =>
    if st = .faulted then { e with cause := f.cause, va := f.va, pte := f.pte, elem := o.i } else e

/-- The next step of an operation that ends: the flushing read of its writes to the system window (R39), then the writes marked in the words
that it cleared (R65), then its handle. -/
def finishMaint (s : State) (o : Maint) (first vb : Word) (st : HState) (f : FaultInfo) : State :=
  let d := coreDie o.core
  match o.sysw with
  | some pa =>
    match (if s.host.up then crossing s d 0 else .down) with
    | .stalled => s
    | .down =>
      if s.host.up then agentFault (dropMaint s o.id) d o.ctx 0x14 vb o.handle o.i
      else
        modMaint s o.id fun x => { x with
          sysw := none, ending := if st = .done then some (.faulted, { faultOf 0x19 with va := vb }) else some (st, f) }
    | .free =>
      let (t, s) := sendLink s d (engFlush o.ctx o.id pa vb)
      modMaint s o.id fun x => { x with sysw := none, tags := [t] }
  | none =>
    let f0 := 64 * (first.toNat / 64)
    let s := cleanFrames s f0 (64 * o.i)
    if (List.finRange 384).any fun k => l1Stalled s k (inFrames f0 (64 * o.i)) then s else settleMaint s o st f

/-- The element of a `dirtyclr` that has a buffer: the buffer's checks come before the clear, so that a fault leaves the
word as it was (R374). -/
def bufferedWord (s : State) (o : Maint) (first count vb : Word) : State :=
  let q := maintCopy o vb
  let va := vb + BitVec.ofNat 64 (8 * o.i)
  let plain := fun (_ : State) (p : Word) => if pteFmt p ≠ 0 then some 7 else if va.toNat % 8 ≠ 0 then some 8 else none
  match engDest s q 0 va 8 plain with
  | .send _ s | .again s => s
  | .bad f s => failMaint s o f
  | .ok t _ s =>
    let (old, s) := clearWord s o first
    match engWrite s q t 8 old.toNat with
    | .ok _ _ s => commitMaint s o count
    | .send l s =>
      let (tag, s) := sendLink s (coreDie o.core) l
      modMaint s o.id fun x => { x with
        old := some old, sysw := if l.sys then some l.pa else x.sysw, tags := if l.sys then x.tags else x.tags ++ [tag] }
    | .bad f s => failMaint (restoreWord s o first old) o f
    | .again s => restoreWord s o first old

/-- The next element of a `dirtyclr`. -/
def nextWord (s : State) (o : Maint) (first count vb : Word) : State :=
  match bitmapLook s o first with
  | some f => failMaint s o f
  | none =>
    if bitmapStalled s o first then s
    else if vb = 0 then commitMaint (clearWord s o first).2 o count
    else bufferedWord s o first count vb

/-- DIRTYCLR_WORD (R65, R374): one bitmap word is read and cleared, and written to the buffer. A cancel stops before a word. -/
def execDirtyclrWord (op : Nat) (s : State) : Host.Outcome State Fault Refusal :=
  match s.maints.find? fun o => o.id == op with
  | none => .next s
  | some o =>
    match o.kind with
    | .tlbinv _ _ => .next s
    | .dirtyclr first count vb =>
      if !maintActive s o then .next s
      else
        match o.bad, o.old, o.ending with
        | some f, some old, _ => .next (failMaint (restoreWord s o first old) o { faultOf f.cause with va := f.va })
        | some f, none, none => .next (failMaint s o { faultOf f.cause with va := f.va })
        | some f, none, some (st, g) =>
          .next (modMaint s o.id fun x => { x with
            bad := none, ending := if st = .done then some (.faulted, { faultOf f.cause with va := f.va }) else some (st, g) })
        | none, some _, _ => .next (commitMaint s o count)
        | none, none, some (st, f) => .next (finishMaint s o first vb st f)
        | none, none, none =>
          if maintCancel s o then .next (endMaint s o .cancelled (faultOf 0))
          else if count.toNat / 64 ≤ o.i then .next (endMaint s o .done (faultOf 0))
          else .next (nextWord s o first count vb)

end Sys2Proof.Machine
end

