-- ==== Sys2Proof/Machine/Swap.lean ====
section
/-! DEFINITION. Safe points, the swap of a core to shadow storage, and the restore of units (R96-R107). -/

namespace Sys2Proof.Machine

/-! ### Safe points (R96, R97) -/

/-- Whether a split is at a safe point: stopped after a `safept` or at a blocking instruction, suspended, or parked. -/
def splitSafe (x : Split) : Bool := x.stop != .no || x.susp || x.st == .parked

/-- The splits of a warp that a halt waits for: in handler mode or in an open bracket, the one that issues (R122, R252). -/
def haltSplits (w : Warp) : List Split :=
  let xs := validSplits w
  match w.handler, w.bracket with
  | some k, _ => (xs.filter fun y => y.1 == k).map (·.2)
  | none, some (k, _) => (xs.filter fun y => y.1 == k).map (·.2)
  | none, none => xs.map (·.2)

/-- Whether a result is a register write: what a split has read over a link for an instruction that waits is not. -/
def writesRegs (r : Result) : Bool := r.kind != .link && r.kind != .fetch

/-- Whether a warp has reached a safe point: every split is at one (R96). -/
def atSafePoint (w : Warp) : Bool := w.ended || (haltSplits w).all splitSafe

/-- Whether a warp counts as halted (R96): it has reached a safe point, and no register write is outstanding. -/
def warpSafe (s : State) (w : Warp) : Bool :=
  w.ended || (w.vpend == 0 && w.spend == 0 && !(s.results.any fun r => r.warp == w.id && writesRegs r) && atSafePoint w)

/-- SAFE_POINT_DROUGHT (R97): a split of a halting warp that has issued 1,024 instructions, before the warp has reached a safe point, takes
cause 0x0013 at the instruction that would be its next. -/
def execSafePointDrought (w : Nat) (sp : Fin 8) (s : State) : Host.Outcome State Fault Refusal :=
  match findWarp s w with
  | none => .next s
  | some x =>
    match x.splits[sp] with
    | none => .next s
    | some y =>
      if x.halting && !atSafePoint x && decide (Config.droughtLimit ≤ y.count) then
        .next (settle (takeFault s x sp y.pc y.pc y.mask (faultOf 0x13)) w)
      else .next s

/-- OVERDUE_SPLIT (R94): a split that has been ready and not chosen for 15 cycles is overdue. -/
def execOverdueSplit (w : Nat) (sp : Fin 8) (s : State) : Host.Outcome State Fault Refusal :=
  .next (modWarp s w fun x => modSplit x sp fun y =>
    if Config.overdueAfter ≤ y.idle then { y with overdue := true } else y)

/-! ### Live sets (R98, R99) -/

/-- Where an address of a context lies for a die, with no effect and no fault (R99). -/
def quietSpot (s : State) (d : Fin 2) (c : Fin 64) (va : Word) : Option Spot :=
  let v := va.toNat
  let e := match tlbFind s.dies[d].tlb c v with
    | some e => some e
    | none => (match walk s d c v with | .leaf a p level _ => some (tlbOf c v level p a) | .stop _ _ => none)
  if 2 ^ 57 ≤ v then none
  else
    e.bind fun e =>
      match spotChecks s c d va (physical e v d) e false with
      | .ok p => some p
      | _ => none

/-- What a word of a live-set descriptor comes to: its value, nothing that can be read without a fault, a read over a link, or a wait for the
bridge (R26, R99). -/
inductive Quiet where
  | ok (v : Word)
  | none
  | far (l : LinkOp)
  | stall
  deriving DecidableEq, Repr

/-- The key of the words that a core has read over a link for a warp's live set. -/
def quietKey : Option (Fin 128 × Word) := some (2, 0)

/-- What a core has read over a link for a warp's live set. -/
def quietResult (s : State) (w : Nat) : Option Result := s.results.find? fun r => r.warp == w && r.kind == .fetch && r.sw == quietKey

/-- Read word `lane` of part `reg` of a warp's live set: part 0 is the descriptor, and the entries follow. -/
def quietWord (s : State) (w : Warp) (reg : Nat) (lane : Fin 32) (va : Word) : Quiet :=
  let d := coreDie w.core
  match quietSpot s d w.ctx va with
  | none => if walkStalled s w.ctx then .stall else .none
  | some p =>
    if pteFmt p.e.pte ≠ 0 ∨ va.toNat % 8 ≠ 0 then .none
    else
      match readLook s d fetchWay 8 p, localPaOf s d p with
      | .ok _, some a =>
        .ok (BitVec.ofNat 64 (if p.kind = .package then sectorBytes (l2Peek s d false) 9 a 8 else readN s.mem a 8))
      | .ok _, none =>
        let l := { spotLink w.ctx .read w.id lane p 8 with reg := reg }
        (match quietResult s w.id with
          | some r => if r.bad.isSome then .none else if reg < r.vw.length then .ok (resultPart r reg lane) else .far l
          | none => .far l)
      | .stall, _ => .stall
      | _, _ => .none

/-- The kernel's ENTRY of a warp (R98). -/
def entryOfWarp (s : State) (w : Warp) : Word :=
  match w.kind with
  | .unit _ => (match unitOf s w with | some u => (match recordOf s u with | some r => r.entry | none => 0) | none => 0)
  | .job => s.ctxs[w.ctx].jobEntry
  | .service _ _ => s.ctxs[w.ctx].svec

/-- The live-set indices of a warp whose every split stopped at a `safept` (R99). -/
def liveIndices (w : Warp) : Option (List Nat) :=
  (validSplits w).foldr (fun y acc =>
    match y.2.stop, acc with
    | .safept i, some is => some (i.toNat :: is)
    | _, _ => none) (some [])

/-- The registers to save for a warp (R99): the whole declared files, masks of v- and s-registers, or reads over a link that come
first; none of those is a wait for the bridge (R26). -/
inductive Saved where
  | whole
  | some (v s : Nat)
  | need (ls : List LinkOp)
  deriving DecidableEq, Repr

/-- The words of one live-set entry. -/
def entryWords (s : State) (w : Warp) (base : Word) (k i : Nat) : List Quiet :=
  (List.range 8).map fun j => quietWord s w (k + 1) (Fin.ofNat 32 j) (base + BitVec.ofNat 64 (64 * i + 8 * j))

/-- The value of a word that has been read. -/
def Quiet.val : Quiet → Nat
  | .ok v => v.toNat
  | _ => 0

/-- The union of live-set entries, all of them read: `whole` where one has a reserved bit. -/
def unionOf (es : List (List Nat)) : Saved :=
  let n := fun (e : List Nat) (k : Nat) => e.getD k 0
  if es.any fun e => n e 6 != 0 || n e 7 != 0 then .whole
  else
    .some (es.foldl (fun m e => m ||| joinSubs 64 [n e 0, n e 1, n e 2, n e 3]) 0)
      (es.foldl (fun m e => m ||| joinSubs 64 [n e 4, n e 5]) 0)

/-- The registers saved for a warp (R99). -/
def savedSet (s : State) (w : Warp) : Saved :=
  match liveIndices w with
  | none | some [] => .whole
  | some is =>
    let e := entryOfWarp s w
    match quietWord s w 0 0 (e - 8) with
    | .none => .whole
    | .stall => .need []
    | .far l => .need [l]
    | .ok desc =>
      if is.any fun i => decide (bitsOf desc 48 16 ≤ i) then .whole
      else
        let es := is.zipIdx.map fun x => entryWords s w (e + wordOfInt (signedOf 48 (bitsOf desc 0 48))) x.2 x.1
        if es.any (·.any (· == Quiet.none)) then .whole
        else if es.any (·.any (· == Quiet.stall)) then .need []
        else
          match es.flatten.filterMap fun q => match q with | .far l => Option.some l | _ => Option.none with
          | [] => unionOf (es.map (·.map Quiet.val))
          | ls => .need ls

/-- Ask for words of a warp's live set over a link: with the descriptor, one part, and with the entries, one more for each. With no word to ask
for, the bridge is waited for. -/
def askQuiet (s : State) (w : Warp) (ls : List LinkOp) : State :=
  if ls.isEmpty then s
  else
  let parts := (ls.map (·.reg)).foldl max 0 + 1
  let (id, s) := match quietResult s w.id with
    | some r => (r.id, s)
    | none =>
      let r : Result :=
        { id := s.serial, kind := .fetch, warp := w.id, sp := 0, due := none, mask := 0, vw := [], sw := quietKey, pw := none
          tags := [], ty := .n64, whole := false, bad := none, holds := false }
      (s.serial, addResult { s with serial := s.serial } r)
  let (tags, s) := (mergeReads ls).foldl (fun (a : List Nat × State) l =>
    let (t, s) := sendLink a.2 (coreDie w.core) { l with result := some id }
    (a.1 ++ [t], s)) ([], s)
  modResult s id fun r => { r with tags := tags, vw := r.vw ++ List.replicate (parts - r.vw.length) (0, always 32 0) }

/-- Whether a warp's live set is still on its way. -/
def quietWaits (s : State) (w : Warp) : Bool :=
  match quietResult s w.id with
  | some r => !r.tags.isEmpty
  | none => false

/-- TV and TS of a warp (R62, R76). -/
def reserveOf (s : State) (w : Warp) : Nat × Nat :=
  match w.kind with
  | .unit _ => (match unitOf s w with | some u => (match recordOf s u with | some r => (r.tv, r.ts) | none => (0, 0)) | none => (0, 0))
  | _ => (16, 16)

/-- A warp with the registers outside its saved set zero (R99, R107), and the bytes that were not moved (R102). -/
def saveWarp (s : State) (w : Warp) : Warp × Nat :=
  match (if w.ended then .whole else savedSet s w) with
  | .whole | .need _ => (w, 0)
  | .some vm sm =>
    let (tv, ts) := reserveOf s w
    let keepV := fun (r : Nat) => vm.testBit r || (decide (w.vcount - tv ≤ r) && decide (r < w.vcount))
    let keepS := fun (r : Nat) => sm.testBit r || decide (128 - ts ≤ r)
    let lost := 256 * ((List.range w.vcount).filter fun r => !keepV r).length
      + 8 * ((List.range 128).filter fun r => !keepS r).length
    ({ w with
        v := tabulate 256 fun r => if keepV r.val then w.v[r] else always 32 0
        s := tabulate 128 fun r => if keepS r.val then w.s[r] else 0 }, lost)

/-- Save some warps, which stop; the bytes not moved add up. What they had read over a link is read again after the resume. -/
def saveWarps (s : State) (ws : List Warp) : Nat × State :=
  let saved := ws.map (saveWarp s)
  let ids := ws.map (·.id)
  let kept := (saved.map fun x => { x.1 with halted := true })
  ((saved.map (·.2)).sum,
    { s with
      warps := s.warps.map fun w => (kept.find? fun x => x.id == w.id).getD w
      results := s.results.filter fun r => !ids.contains r.warp })

/-! ### The swap of a core (R101-R105) -/

/-- The units of a context that hold a core. -/
def unitsOn (s : State) (c : Fin 64) (k : Fin 384) : List UnitSt := (residents s k).filter fun u => u.ctx == c

/-- The warps of a context that run on a core: those of its resident units, and job and fault-service warps. -/
def warpsOn (s : State) (c : Fin 64) (k : Fin 384) : List Warp :=
  let us := unitsOn s c k
  s.warps.filter fun w => w.ctx == c && w.core == k && !w.halted && (onDispatch w || us.any fun u => inUnit u.id w)

/-- Whether the matrix operations and link accesses of a context's units on a core have drained (R100). -/
def drained (s : State) (c : Fin 64) (k : Fin 384) : Bool :=
  let us := unitsOn s c k
  !(s.mops.any fun o => !o.faulted && us.any fun u => u.id == o.unit)
    && !(s.copies.any fun o => o.ctx == c && o.core == k && !o.tags.isEmpty)
    && !(s.maints.any fun o => o.ctx == c && o.core == k && !o.tags.isEmpty)

/-- Bytes that a swap moves through the vertical port, what live sets leave out not counted (R102-R104). -/
def swapBytes (s : State) (us : List UnitSt) (ws : List Warp) : Nat :=
  ((us.filterMap (recordOf s)).map fun r => 1024 * (regNeed r + r.scrk + 64 * r.acct + controlCharge r)).sum
    + ((ws.filter onDispatch).map fun w => 256 * w.vcount + 3072).sum

/-- Dirty sectors of a core's L1. -/
def dirtySectors (s : State) (k : Fin 384) : Nat :=
  (s.cores[k].l1.map fun l =>
    ((List.range 4).filter fun j => (l.dirty.toNat >>> (64 * j)) % 2 ^ 64 != 0).length).sum

/-- Cycles of a core's swap and write-back (R101, R102). -/
def swapCycles (s : State) (us : List UnitSt) (bytes sectors : Nat) : Nat :=
  let banks := (us.filterMap (recordOf s)).any fun r => r.emask != 0
  max (max (ceilDiv bytes 4096) (if banks then 128 else 0)) (ceilDiv sectors 4)

/-- Make the shadow slot of a core free for a context (R105): another halted context's state is spilled to its IMAGE; `none`
where the halt waits. -/
def freeSlotOf (s : State) (c : Fin 64) (k : Fin 384) : Option State :=
  match s.cores[k].slot with
  | none => some s
  | some y =>
    let b := y.ctx
    if b = c then some s
    else if s.ctxs[b].st == .halted && s.ctxs[b].image != 0 then
      some (modCore (spillCtx s b) k fun x => { x with slot := none })
    else none

/-- Where the control images of some units lie in a slot, packed from an offset on in the order of their placement (R102, R103). -/
def packImages (s : State) (at_ : Nat) : List UnitSt → List (Nat × Nat × Nat)
  | [] => []
  | u :: us =>
    let n := match recordOf s u with | some r => controlCharge r | none => 0
    (u.id, at_, n) :: packImages s (at_ + n) us

/-- Put a unit in its place in the order of placement (R102). -/
def byPlacement (u : UnitSt) : List UnitSt → List UnitSt
  | [] => [u]
  | y :: r => if u.placed < y.placed then u :: y :: r else y :: byPlacement u r

/-- What a core's slot comes to hold (R102): the granules below 16 KiB x (96 - L), the control images from there on, and the macros of
the engines that the units name, whose 64 KiB each lie from 1,536 KiB on. -/
def shadowOf (s : State) (c : Fin 64) (k : Fin 384) (us : List UnitSt) : Shadow :=
  let p := s.cores[k].ppw
  { ctx := c, word := p, images := packImages s (16 * (96 - l1Ways p)) (us.foldl (fun r u => byPlacement u r) [])
    macros := (us.filterMap (recordOf s)).foldl (fun m r => m ||| r.emask) 0 }

/-- The swap of a core begins (R101 step 4): L1 is written back and invalidated, and the state of the context's warps is
saved. -/
def beginSwap (s : State) (c : Fin 64) (k : Fin 384) : State :=
  let us := unitsOn s c k
  let ws := warpsOn s c k
  let sectors := dirtySectors s k
  let s := l1Drop (l1CleanNow (loseLines s k fun _ => true) k) k fun _ => true
  let bytes := swapBytes s us ws
  let unsaved := fun (u : UnitSt) => ((ws.filter (inUnit u.id)).map fun w => (saveWarp s w).2).sum
  let s := { s with units := s.units.map fun u => if us.any fun v => v.id == u.id then { u with unsaved := unsaved u } else u }
  let (lost, s) := saveWarps s ws
  let due := s.now + swapCycles s us (bytes - lost) sectors
  modCore s k fun x => { x with swap := some (c, due), slot := if us.isEmpty then x.slot else some (shadowOf s c k us) }

/-- Whether a core's part of a halt may begin (R101): its warps of the context have halted, its engines drained, no swap is under way, and
L1 can be written back. -/
def swapReady (s : State) (c : Fin 64) (k : Fin 384) : Bool :=
  let ws := warpsOn s c k
  s.ctxs[c].st == .halting && s.cores[k].swap.isNone && !((unitsOn s c k).isEmpty && ws.isEmpty) && ws.all (warpSafe s)
    && drained s c k && l1Ready s k && !(ws.any (quietWaits s))

/-- CORE_SWAP_START (R99, R101, R105). The live sets of the core's warps are read first. -/
def execCoreSwapStart (core : Fin 384) (c : Fin 64) (s : State) : Host.Outcome State Fault Refusal :=
  let ws := warpsOn s c core
  if swapReady s c core then
    match ws.findSome? fun w => match (if w.ended then .whole else savedSet s w) with | .need ls => some (w, ls) | _ => none with
    | some (w, ls) => .next (askQuiet s w ls)
    | none =>
      if (unitsOn s c core).isEmpty then .next (beginSwap s c core)
      else
        match freeSlotOf s c core with
        | some s => .next (beginSwap s c core)
        | none => .next s
  else .next s

/-- CORE_SWAP_DONE (R60, R101): the context's units on the core are swapped; once every core has finished, the context is
halted. -/
def execCoreSwapDone (core : Fin 384) (c : Fin 64) (s : State) : Host.Outcome State Fault Refusal :=
  match s.cores[core].swap with
  | some (b, due) =>
    if b = c && decide (due ≤ s.now) then
      let us := unitsOn s c core
      let s := { s with units := s.units.map fun u => if us.any fun v => v.id == u.id then { u with st := .swapped } else u }
      .next (tryHalted (modCore s core fun x => { x with swap := none }) c)
    else .next s
  | none => .next (tryHalted s c)

/-! ### Restore (R84, R106, R107) -/

/-- A warp goes on where it halted (R107): after its `safept`, or with its blocking instruction again. -/
def wakeWarp (w : Warp) : Warp :=
  { w with
    halting := false, halted := false
    splits := tabulate 8 fun k => w.splits[k].map fun (x : Split) => { x with stop := .no, count := 0, wtimer := 0, ewait := none } }

/-- Settle each of some warps, which go on: one that halted at its rejoin point parks there now (R117, R376). -/
def settleAll (s : State) (ws : List Warp) : State := ws.foldl (fun s w => settle s w.id) s

/-- The job and fault-service warps of a context go on (R106), those that hold a warp slot; the others take one first, as it frees
(R75). -/
def wakeDispatch (s : State) (c : Fin 64) : State :=
  let s := seatWarps s c
  let wakes := fun (w : Warp) => w.ctx == c && onDispatch w && w.halted && w.sub.isSome
  settleAll { s with warps := s.warps.map fun w => if wakes w then wakeWarp w else w } (s.warps.filter wakes)

/-- The cycle from which a unit that returns to a core runs: after the units that move before it through the core's vertical port
(R102, R106); the registers that its swap left out do not move (R99). -/
def returnAt (s : State) (u : UnitSt) (k : Fin 384) : Nat :=
  let start := (residents s k).foldl (fun t x => max t x.since) s.now
  start + swapCycles s [u] (swapBytes s [u] [] - u.unsaved) 0

/-- Put a swapped unit on a core (R106): its resources are taken, its operations' engines follow, and its warps go on. -/
def restoreOn (s : State) (u : UnitSt) (r : LRec) (k : Fin 384) : State :=
  match roomOn s k r with
  | none => s
  | some g =>
    let since := returnAt s u k
    let s := readyCore s k r
    let live := (warpsOf s u.id).any fun w => !w.ended
    let s := modUnit s u.id fun x => { x with
      core := k, st := if live then .resident else .retiring, since := since, placed := s.serial
      regs := BitVec.ofNat 1536 g.regs, scr := BitVec.ofNat 1536 g.scr, acc := BitVec.ofNat 1536 g.acc }
    let s := { s with
      serial := s.serial + 1
      warps := s.warps.map fun w => if inUnit u.id w then { wakeWarp w with core := k } else w
      copies := s.copies.map fun o =>
        if o.ctx == u.ctx && o.unit == some u.id then { o with core := k, eng := 128 * (coreDie k).val + o.eng % 128 } else o }
    settleAll s (warpsOf s u.id)

/-- The swapped units of a context, each as it waits for a core. -/
def swappedOf (s : State) (c : Fin 64) : List Waiting :=
  (s.ctxs[c].launches.flatMap (waitingOf s c)).filter fun y => y.unit.isSome

/-- Whether every unit swapped from a context has been placed, or fails placement now (R106). -/
def allReturned (s : State) (c : Fin 64) : Bool := (firstPlace s (swappedOf s c)).isNone

/-- UNIT_RESTORE (R106): the first unit of the order of R83 that a core can take returns, where it is a swapped unit of this context; once
every one has been placed or has failed placement, the job warps go on. -/
def execUnitRestore (c : Fin 64) (s : State) : Host.Outcome State Fault Refusal :=
  let st := s.ctxs[c].st
  let d := homeDie s c
  let ys := examined s d
  if st == .running || st == .idle then
    if allReturned s c then .next (wakeDispatch s c)
    else
      match firstPlace s ys with
      | some (y, k) =>
        (match y.unit with
          | some u =>
            if y.ctx = c && crossing s d (coreDie k) == .free then
              let s := restoreOn (droverMessage s d (coreDie k)) u y.l.r k
              let s := placedUnit s y (ys.head? == some y)
              .next (if allReturned s c then wakeDispatch s c else s)
            else .next s
          | none => .next s)
      | none => .next s
  else .next s

end Sys2Proof.Machine
end

