-- ==== Sys2Proof/Machine/Contexts.lean ====
section
/-! DEFINITION. Partitions, contexts and starts as the host writes them (R55-R63, R249-R251). -/

namespace Sys2Proof.Machine

/-! ### Answers -/

/-- Refuse a partition or context write with a status (R57, R58). -/
def refuse (s : State) (status : Nat) : State := { s with refusal := BitVec.ofNat 64 status }

/-- Accept one (R57). -/
def accept (s : State) : State := refuse s 0

/-- A command that completes sends vector 62 of the PF (R58). -/
def commandDone (s : State) : State := toHost (accept s) (.msix 0 62)

/-- Do what a host write to the package's registers does, while the host link is up (R42) and die 0 runs a product image (R49). -/
def fromHost (s : State) (k : State → State) : Host.Outcome State Fault Refusal :=
  if pfServes s then .next (k s) else .next s

/-! ### The partition table (R56, R57) -/

/-- A partition entry after the write of one register, and whether the written value is well formed (R56, R57). -/
def partWritten (p : Part) (reg : Fin 8) (v : Word) : Part × Bool :=
  match reg.val with
  | 0 => ({ p with valid := v.getLsbD 63, isl1 := BitVec.ofNat 12 (bitsOf v 16 12), isl0 := BitVec.ofNat 12 (bitsOf v 0 12) },
      bitsOf v 28 35 == 0 && bitsOf v 12 4 == 0)
  | 1 => ({ p with vf := bitsOf v 0 5 }, bitsOf v 5 59 == 0 && decide (bitsOf v 0 5 ≤ 24))
  | 2 => ({ p with dbase := v }, v.toNat % 2 ^ 22 == 0 && inPackage v.toNat (2 ^ 22))
  | _ => (p, v == 0)

/-- Whether an island of an entry passes a test, by die and number. -/
def anyIsland (p : Part) (f : Fin 2 → Nat → Bool) : Bool :=
  (List.range 12).any fun i => (p.isl0.getLsbD i && f 0 i) || (p.isl1.getLsbD i && f 1 i)

/-- Whether an entry has a context that is idle, running or ended (R57). -/
def partBusy (s : State) (n : Fin 24) : Bool :=
  (List.finRange 64).any fun c =>
    let x := s.ctxs[c]
    x.part.val == n.val && (x.st == .idle || x.st == .running || x.st == .ended)

/-- Whether a core island has a core in service (R54, R57). -/
def islandServed (s : State) (d : Fin 2) (i : Nat) : Bool :=
  (List.range 16).any fun k => inService s (coreAt d (16 * i + k))

/-- The check of R57 that a partition entry fails first, as it would stand after the write. -/
def partStatus (s : State) (n : Fin 24) (p : Part) (wellFormed : Bool) : Nat :=
  let others := (List.finRange 24).filter fun m => m != n && s.parts[m].valid
  let old := s.parts[n]
  if p.valid && anyIsland p fun d i =>
      others.any fun m => (if d = 0 then s.parts[m].isl0 else s.parts[m].isl1).getLsbD i then 0x11
  else if p.valid && anyIsland p fun d _ => s.dies[d].dstate != .online then 0x12
  else if p.valid && anyIsland p fun d i => !islandServed s d i then 0x13
  else if p.valid && p.vf != 0 && others.any fun m => s.parts[m].vf == p.vf then 0x14
  else if !wellFormed then 0x15
  else if (p.isl0 != old.isl0 || p.isl1 != old.isl1) && partBusy s n then 0x16
  else 0

/-- PARTITION_ENTRY_WRITE (R57). A write that frees a core may retire one that waits for its release (R53). -/
def execPartitionEntryWrite (n : Fin 24) (reg : Fin 8) (v : Word) (s : State) : Host.Outcome State Fault Refusal :=
  fromHost s fun s =>
    let (p, ok) := partWritten s.parts[n] reg v
    match partStatus s n p ok with
    | 0 => retirePending (accept { s with parts := s.parts.set n.val p n.isLt })
    | status => refuse s status

/-! ### Starts (R61, R62) -/

/-- What LAST records of a write to ARG (R62): the first row that matches. -/
def startLast (x : Ctx) : Nat :=
  match x.st with
  | .free | .ended => 2
  | .running | .halting => 1
  | .halted => if x.held.isSome then 1 else if x.entry.toNat % 8 != 0 || x.caddr.toNat % 8 != 0 then 3 else 4
  | .idle => if x.entry.toNat % 8 != 0 || x.caddr.toNat % 8 != 0 then 3 else 0

/-- A write to ARG of a context (R62). The register holds the value written even where LAST says that the write starts nothing, which R62 does
not say (log 53). -/
def writeArg (s : State) (c : Fin 64) (arg : Word) : State :=
  let s := modCtx s c fun x => { x with arg := arg }
  let x := s.ctxs[c]
  let last := startLast x
  let s := modCtx s c fun x => { x with last := BitVec.ofNat 8 last }
  if last = 0 then acceptStart s c x.entry arg (x.seq + 1)
  else if last = 4 then modCtx s c fun x => { x with held := some (x.entry, arg, x.seq + 1) }
  else s

/-- Whether a function may write the start block of a context (R55): the PF, or the VF that serves its partition. -/
def ownsStart (s : State) (fn : Nat) (c : Fin 64) : Bool := fn == 0 || functionOf s c == fn

/-- START_ARG_WRITE (R61, R62): a 16-byte write carries ENTRY as well. -/
def execStartArgWrite (fn : Fin 25) (c : Fin 64) (entry : Option Word) (arg : Word) (s : State) :
    Host.Outcome State Fault Refusal :=
  fromHost s fun s =>
    if !ownsStart s fn.val c then s
    else
      let s := match entry with
        | some e => modCtx s c fun x => { x with entry := e }
        | none => s
      writeArg s c arg

/-! ### Commands (R58-R60) -/

/-- The core count of a context: the cores of its partition, without the dispatch cores, which no partition counts (R75), and without the
retired ones (R54). The spec gives it no register (log 47). -/
def contextCores (s : State) (c : Fin 64) : Nat :=
  ((List.finRange 384).filter fun k => partHolds (partOfCtx s c) k && inService s k && !(dispatchCores s (coreDie k)).contains k).length

/-- The dies that hold an island of a context's partition. -/
def islandDies (s : State) (c : Fin 64) : List (Fin 2) :=
  let p := partOfCtx s c
  (List.finRange 2).filter fun d => (if d = 0 then p.isl0 else p.isl1) != 0

/-- The check of a create or an import that fails first (R57-R60, R249). -/
def createStatus (s : State) (c : Fin 64) : Nat :=
  let x := s.ctxs[c]
  let p := partOfCtx s c
  if 24 ≤ x.part.val then 0x15
  else if !p.valid then 0x19
  else if x.mode && (islandDies s c).any fun d => d != x.die then 0x12
  else if (islandDies s c).any fun d => s.dies[d].dstate != .online then 0x12
  else if anyIsland p fun d i => !islandServed s d i then 0x13
  else if (islandDies s c).any fun d => s.dies[d].fbase == 0 then 0x1A
  else 0

/-- Run a command that is allowed in some states, or refuse it with 0x17 (R60), as every command to a context that is being destroyed. -/
def inStates (s : State) (c : Fin 64) (ok : CState → Bool) (k : State → State) : State :=
  if ok s.ctxs[c].st && s.ctxs[c].jobEnd != some 3 then k s else refuse s 0x17

/-- The context that a create makes (R58, R60): idle, with the fields written while it was free. -/
def createdCtx (s : State) (x : Ctx) : Ctx :=
  { Ctx.reset with
    st := .idle, mode := x.mode, die := x.die, part := x.part, vec := x.vec, root := x.root, image := x.image
    entry := x.entry, arg := x.arg, caddr := x.caddr, clockAt := s.now }

/-- Command 1, create. -/
def doCreate (s : State) (c : Fin 64) : State :=
  inStates s c (· == .free) fun s =>
    match createStatus s c with
    | 0 => commandDone (modCtx s c (createdCtx s))
    | status => refuse s status

/-- Command 2, halt: it completes when the context reaches halted, which sends vector 62. -/
def doHalt (s : State) (c : Fin 64) : State :=
  inStates s c (fun st => st == .idle || st == .running) fun s => startHalt (accept s) c

/-- Write back and invalidate L1 on every core (R107): a resumed context's warps run on any of its partition and on dispatch cores. -/
def emptyL1 (s : State) : State :=
  (List.finRange 384).foldl (fun s k =>
    if !s.cores[k].l1.isEmpty then
      l1Drop (loseLines (l1CleanNow s k) k fun _ => true) k fun _ => true
    else s) s

/-- A halted context goes on (R60, R68, R78, R100, R105-R107): its slots of shadow storage are free, the faults that waited are delivered, its
launches are examined again, and a held start is accepted on arrival at idle. -/
def resumeCtx (s : State) (c : Fin 64) : State :=
  let s := emptyL1 (tlbInvalidate s c 0 0)
  if s.ctxs[c].st ≠ .halted then s
  else
  let s := modCtx s c fun x => { x with st := x.before, clockAt := s.now }
  let s := { s with cores := tabulate 384 fun k =>
    let y := s.cores[k]
    { y with slot := y.slot.filter fun z => z.ctx != c } }
  let s := examine (deliverAwait s c) c
  startHeld (if allReturned s c then wakeDispatch s c else s) c

/-- Do something with a halted context, whose units are read back from its image if they were spilled (R105). Where the image has changed
since, the model refuses the command with 0x18 (log 13). -/
def withUnits (s : State) (c : Fin 64) (k : State → State) : State :=
  match unspill s c with
  | some t => commandDone (k t)
  | none => refuse s 0x18

/-- Command 3, resume. -/
def doResume (s : State) (c : Fin 64) : State := inStates s c (· == .halted) fun s => withUnits s c fun s => resumeCtx s c

/-- Command 4, export. -/
def doExport (s : State) (c : Fin 64) : State := inStates s c (· == .halted) fun s => withUnits s c fun t => writeImage s c (snapshotOf t c)

/-- Command 5, import (R60, R67). -/
def doImport (s : State) (c : Fin 64) : State :=
  inStates s c (· == .free) fun s =>
    match createStatus s c with
    | 0 =>
      (match importable s c with
        | some x => commandDone (loadImage s c x)
        | none => refuse s 0x18)
    | status => refuse s status

/-- Whether a context has a job that a destroy ends: one that runs, or that is halted or halting (R60). -/
def hasJob (x : Ctx) : Bool :=
  x.st == .running || ((x.st == .halting || x.st == .halted) && x.before == .running)

/-- Abandon a halt (R60): the Drover of the context works again, and what cores swap for it they drop. -/
def abandonHalt (s : State) (c : Fin 64) : State :=
  let s := modCtx s c fun x => { x with st := .running, held := none, await := [] }
  { s with cores := tabulate 384 fun k =>
      let x := s.cores[k]
      { x with swap := match x.swap with | some (d, t) => if d = c then none else some (d, t) | none => none } }

/-- Command 6, destroy (R60, R250): a job is cancelled, with END = 3, and everything that the context holds is released. -/
def doDestroy (s : State) (c : Fin 64) : State :=
  inStates s c (· != .free) fun s =>
    commandDone (if hasJob s.ctxs[c] then cancelWholeJob (abandonHalt s c) c 3 else freeCtx s c)

/-- Command 7, cancel job: END = 1. -/
def doCancelJob (s : State) (c : Fin 64) : State :=
  inStates s c (· == .running) fun s => commandDone (if s.ctxs[c].jobEnd.isSome then s else cancelWholeJob s c 1)

/-- CONTEXT_CREATE (R57-R60). -/
def execContextCreate (c : Fin 64) (s : State) : Host.Outcome State Fault Refusal := fromHost s fun s => doCreate s c

/-- CONTEXT_HALT (R60, R101). -/
def execContextHalt (c : Fin 64) (s : State) : Host.Outcome State Fault Refusal := fromHost s fun s => doHalt s c

/-- CONTEXT_RESUME (R60, R106, R107). -/
def execContextResume (c : Fin 64) (s : State) : Host.Outcome State Fault Refusal := fromHost s fun s => doResume s c

/-- CONTEXT_EXPORT (R60, R66). -/
def execContextExport (c : Fin 64) (s : State) : Host.Outcome State Fault Refusal := fromHost s fun s => doExport s c

/-- CONTEXT_IMPORT (R60, R67). -/
def execContextImport (c : Fin 64) (s : State) : Host.Outcome State Fault Refusal := fromHost s fun s => doImport s c

/-- CONTEXT_DESTROY (R60). -/
def execContextDestroy (c : Fin 64) (s : State) : Host.Outcome State Fault Refusal := fromHost s fun s => doDestroy s c

/-- CONTEXT_CANCEL_JOB (R60). -/
def execContextCancelJob (c : Fin 64) (s : State) : Host.Outcome State Fault Refusal := fromHost s fun s => doCancelJob s c

/-- A write to offset 0x08 (R58): the command of bits [63:60]. Non-zero reserved bits refuse a command (log 20). -/
def writeCommand (s : State) (c : Fin 64) (v : Word) : State :=
  if bitsOf v 60 4 ≠ 0 ∧ bitsOf v 0 60 ≠ 0 then refuse s 0x15
  else match bitsOf v 60 4 with
  | 0 => accept s
  | 1 => doCreate s c
  | 2 => doHalt s c
  | 3 => doResume s c
  | 4 => doExport s c
  | 5 => doImport s c
  | 6 => doDestroy s c
  | 7 => doCancelJob s c
  | _ => refuse s 0x15

/-- A write to offset 0x00 (R58): MODE and PART stand while the context exists; VALID and STATE are read-only. The rule names no more than
those two, and the model refuses a change of DIE as well, which is part of the mode (log 70). -/
def writeEntry (s : State) (c : Fin 64) (v : Word) : State :=
  let x := s.ctxs[c]
  let mode := v.getLsbD 62
  let die : Fin 2 := if v.getLsbD 61 then 1 else 0
  let part : Fin 32 := Fin.ofNat 32 (bitsOf v 56 5)
  if bitsOf v 4 48 != 0 || (!mode && die == 1)
      || (x.st != .free && (mode != x.mode || die != x.die || part != x.part)) then refuse s 0x15
  else accept (modCtx s c fun x => { x with mode := mode, die := die, part := part, vec := Fin.ofNat 16 (bitsOf v 52 4) })

/-- CONTEXT_ENTRY_WRITE (R58). -/
def execContextEntryWrite (c : Fin 64) (reg : Fin 8) (v : Word) (s : State) : Host.Outcome State Fault Refusal :=
  fromHost s fun s =>
    match reg.val with
    | 0 => writeEntry s c v
    | 1 => writeCommand s c v
    | 2 => if bitsOf v 0 12 = 0 then accept (modCtx s c fun x => { x with root := v }) else refuse s 0x15
    | 3 => if bitsOf v 0 12 = 0 then accept (modCtx s c fun x => { x with image := v }) else refuse s 0x15
    | _ => if v = 0 then accept s else refuse s 0x15

end Sys2Proof.Machine
end

