-- ==== Sys2Proof/Machine/Control.lean ====
section
/-! DEFINITION. Control flow, OP 0x18 (R116-R122, R312-R317): moving and dividing splits, the return stack, brackets
and safe points. `exit` is in the file of job ends, since a job warp's last `exit` ends its job. -/

namespace Sys2Proof.Machine

/-- The target of a displacement in words (R266). -/
def targetOf (pc : Word) (d : BitVec 28) : Word := pc + 8#64 * d.signExtend 64

/-- Whether a guard has one value over the split's mask (R313). -/
def uniform (c : Iss) : Bool := c.act == 0 || c.act == c.split.mask

/-- Whether the split is inside its own open bracket (R122). -/
def inBracket (c : Iss) : Bool := c.w.bracket.isSome

/-- Move the split to an address. -/
def jump (s : State) (c : Iss) (pc : Word) : Effect := .moved (goOn s c.w.id c.sp pc)

/-- A group of a division: its lanes and its PC (R116). -/
abbrev Group := Mask × Word

/-- Groups by distinct value, ordered by their lowest lane (R116). -/
def groupBy (lanes : List (Fin 32)) (f : Fin 32 → Word) : List Group :=
  lanes.foldl (fun (gs : List Group) l =>
    let one : Mask := BitVec.ofNat 32 (2 ^ l.val)
    if gs.any fun g => g.2 == f l then gs.map fun g => if g.2 == f l then (g.1 ||| one, g.2) else g
    else gs ++ [(one, f l)]) []

/-- The lowest free rejoin record. -/
def freeRec (w : Warp) : Option (Fin 16) := (List.finRange 16).find? fun r => w.recs[r].isNone

/-- The entries a division may use: the split's own and the free ones, ascending (R116, step 3). -/
def candidates (w : Warp) (sp : Fin 8) : List (Fin 8) :=
  (List.finRange 8).filter fun k => k == sp || w.splits[k].isNone

/-- A split of a group (R116, step 3). -/
def groupSplit (x : Split) (age : BitVec 32) (g : Group) (rec : Option (Fin 16)) (rpc : Word) (depth : Nat) : Split :=
  { x with age := age, pc := g.2, rpc := rpc, st := .runnable, depth := depth, record := rec, dr := false, mask := g.1
           timer := 0, wtimer := 0, fails := [], ewait := none, stop := .no }

/-- DIVIDE a split into two or more groups (R116): `dpc` is where deferred lanes resume, `mk` whether a record may be
made (not for `ret`), `rpc` the rejoin of a new record, `up` 1 where the groups' splits are one deeper. `none` is a
divergence fault. The second answer is the lanes that received an entry. -/
def divide (w : Warp) (sp : Fin 8) (x : Split) (gs : List Group) (rpc dpc : Word) (mk : Bool) (depth : Nat) :
    Option (Warp × Mask) :=
  let cs := candidates w sp
  let now := (gs.zip cs)
  let left := gs.drop cs.length
  let seated := now.foldl (fun m g => m ||| g.1.1) (0 : Mask)
  let age := (match w.splits[sp] with | some y => y.age | none => 0)
  let place := fun (w : Warp) (rec : Option (Fin 16)) (r : Word) =>
    now.foldl (fun w g => setSplit w g.2 (some (groupSplit x age g.1 rec r depth))) (setSplit w sp none)
  let defer := left.foldl (fun m g => m ||| g.1) (0 : Mask)
  let dset := if left.isEmpty then none else some (defer, dpc)
  if !mk && !left.isEmpty then none
  else if !mk || x.dr then
    match x.record with
    | none => if left.isEmpty then some (place w none 0, seated) else none
    | some r =>
      let w := modRec w r fun y => { y with
        memb := y.memb + (now.length - 1), dset := if dset.isSome then dset else y.dset }
      some (place w (some r) x.rpc, seated)
  else
    match freeRec w with
    | none => none
    | some r =>
      let y : Rejoin :=
        { rpc := rpc, dset := dset, depth := x.depth, parent := x.record, memb := now.length, arrn := 0, done := 0 }
      some (place (setRec w r (some y)) (some r) rpc, seated)

/-- The issuing split as it stands once its issue is counted, with the DR that it had at issue (R116). -/
def dividing (w : Warp) (c : Iss) : Split :=
  match w.splits[c.sp] with
  | some y => { y with dr := c.split.dr }
  | none => c.split

/-- Divide the issuing split, or take cause 0x0018. -/
def divideOr (s : State) (c : Iss) (gs : List Group) (rpc dpc : Word) (mk : Bool) (depth : Nat)
    (k : Warp → Mask → Warp) : Effect :=
  match findWarp s c.w.id with
  | none => .fault (faultOf 0x18)
  | some w =>
    match divide w c.sp (dividing w c) gs rpc dpc mk depth with
    | none => .fault (faultOf 0x18)
    | some (w', m) => .moved (modWarp s c.w.id fun _ => k w' m)

/-- `bra label` (R119, R313, R314). -/
def execBra (g : Guard) (disp : BitVec 28) (s : State) : Host.Outcome State Fault Refusal :=
  issue (.bra g disp) (fun s c =>
    if !uniform c then .fault (faultOf 0x18)
    else if c.act = 0 then .next s
    else jump s c (targetOf c.split.pc disp)) s

/-- `brd label, rejoin` (R116, R314). -/
def execBrd (g : Guard) (disp rejoin : BitVec 28) (s : State) : Host.Outcome State Fault Refusal :=
  issue (.brd g disp rejoin) (fun s c =>
    let t := targetOf c.split.pc disp
    if inBracket c then .fault (faultOf 0x18)
    else if c.act = c.split.mask then jump s c t
    else if c.act = 0 then .next s
    else
      divideOr s c [(c.act, t), (c.split.mask &&& ~~~c.act, c.next)] (targetOf c.split.pc rejoin) c.next true c.split.depth
        fun w _ => w) s

/-- Whether a lane's target is misaligned (R266), over the active lanes. -/
def misaligned (c : Iss) (f : Fin 32 → Word) : Mask := Mask.ofFn fun l => c.act.getLsbD l.val && (f l).toNat % 8 != 0

/-- `jmpv T, rejoin` (R116, R266, R315). -/
def execJmpv (g : Guard) (a : Src) (rejoin : BitVec 28) (s : State) : Host.Outcome State Fault Refusal :=
  issue (.jmpv g a rejoin) (fun s c =>
    let t := srcVal s c .b64 0 a
    if inBracket c || !uniform c then .fault (faultOf 0x18)
    else if c.act = 0 then .next s
    else if misaligned c t != 0 then .fault { faultOf 8 with lanes := misaligned c t }
    else
      match groupBy c.act.lanes t with
      | [gr] => jump s c gr.2
      | gs => divideOr s c gs (targetOf c.split.pc rejoin) c.split.pc true c.split.depth fun w _ => w) s

/-- Push a return-stack entry (R121). -/
def pushRet (w : Warp) (link : Word) (m : Mask) : Warp := { w with rstack := w.rstack ++ [{ link := link, mask := m }] }

/-- `call label` (R121, R315). -/
def execCall (g : Guard) (disp : BitVec 28) (s : State) : Host.Outcome State Fault Refusal :=
  issue (.call g disp) (fun s c =>
    if inBracket c || !uniform c then .fault (faultOf 0x18)
    else if c.act = 0 then .next s
    else if 16 ≤ c.w.rstack.length then .fault (faultOf 0xD)
    else
      let s := goOn s c.w.id c.sp (targetOf c.split.pc disp)
      .moved (modWarp s c.w.id fun w =>
        modSplit (pushRet w c.next c.act) c.sp fun x => { x with depth := x.depth + 1 })) s

/-- `callv T` (R116, R121, R266, R315). -/
def execCallv (g : Guard) (a : Src) (s : State) : Host.Outcome State Fault Refusal :=
  issue (.callv g a) (fun s c =>
    let t := srcVal s c .b64 0 a
    if inBracket c || !uniform c then .fault (faultOf 0x18)
    else if c.act = 0 then .next s
    else if misaligned c t != 0 then .fault { faultOf 8 with lanes := misaligned c t }
    else if 16 ≤ c.w.rstack.length then .fault (faultOf 0xD)
    else
      match groupBy c.act.lanes t with
      | [gr] =>
        let s := goOn s c.w.id c.sp gr.2
        .moved (modWarp s c.w.id fun w =>
          modSplit (pushRet w c.next c.act) c.sp fun x => { x with depth := x.depth + 1 })
      | gs => divideOr s c gs c.next c.split.pc true (c.split.depth + 1) fun w m => pushRet w c.next m) s

/-- The top return-stack entry of a lane: its index and LINK (R120). -/
def topOf (w : Warp) (l : Fin 32) : Option (Nat × Word) :=
  ((w.rstack.zipIdx.filter fun e => e.1.mask.getLsbD l.val).getLast?).map fun e => (e.2, e.1.link)

/-- Remove lanes from their top entries; an entry left empty is freed (R121). -/
def popRet (w : Warp) (m : Mask) : Warp :=
  let tops := m.lanes.filterMap fun l => (topOf w l).map fun t => (t.1, l)
  let rs := w.rstack.zipIdx.map fun (e : RetEntry × Nat) =>
    tops.foldl (fun (r : RetEntry) t =>
      if t.1 = e.2 then { r with mask := r.mask &&& ~~~BitVec.ofNat 32 (2 ^ t.2.val) } else r) e.1
  { w with rstack := rs.filter fun e => e.mask != 0 }

/-- `ret` (R116, R121, R315). -/
def execRet (g : Guard) (s : State) : Host.Outcome State Fault Refusal :=
  issue (.ret g) (fun s c =>
    let link := fun (l : Fin 32) => match topOf c.w l with | some t => t.2 | none => 0
    if inBracket c || !uniform c then .fault (faultOf 0x18)
    else if c.act = 0 then .next s
    else
      let low := Mask.ofFn fun l => c.act.getLsbD l.val && (topOf c.w l).isNone
      if low != 0 then .fault { faultOf 0xC with lanes := low }
      else
        match groupBy c.act.lanes link with
        | [gr] =>
          let s := goOn s c.w.id c.sp gr.2
          .moved (modWarp s c.w.id fun w =>
            modSplit (popRet w c.act) c.sp fun x => { x with depth := x.depth - 1 })
        | gs => divideOr s c gs 0 0 false (c.split.depth - 1) fun w _ => popRet w c.act) s

/-- `allon` (R122). -/
def execAllon (s : State) : Host.Outcome State Fault Refusal :=
  issue .allon (fun s c =>
    if inBracket c then .fault (faultOf 1)
    else
      .next (modWarp s c.w.id fun w =>
        modSplit { w with bracket := some (c.sp, c.split.mask) } c.sp fun x => { x with mask := w.live })) s

/-- `alloff` (R122). -/
def execAlloff (s : State) : Host.Outcome State Fault Refusal :=
  issue .alloff (fun s c =>
    match c.w.bracket with
    | none => .fault (faultOf 1)
    | some (_, m) =>
      .next (modWarp s c.w.id fun w =>
        modSplit { w with bracket := none } c.sp fun x => { x with mask := m })) s

/-- `nop` (R313, R317). -/
def execNop (g : Guard) (s : State) : Host.Outcome State Fault Refusal := issue (.nop g) (fun s _ => .next s) s

end Sys2Proof.Machine
end

