-- ==== Sys2Proof/Machine/Pred.lean ====
section
/-! DEFINITION. The predicate group OP 0x06 (R311). -/

namespace Sys2Proof.Machine

/-- A raw predicate operand over the lanes, after inversion (R311). -/
def pval (w : Warp) (a : PSrc) : Mask := if a.inv then ~~~(preg w a.p) else preg w a.p

/-- RUN a form whose destination is a predicate, from the issue and the operands' values. -/
def runP (i : Instr) (o : POp) (h : Mask → Mask → Mask → Mask) (s : State) : Host.Outcome State Fault Refusal :=
  issue i (fun s c =>
    .next (modWarp s c.w.id fun w => setP w (Fin.ofNat 8 o.d.val) c.act (h c.act (pval c.w o.a) (pval c.w o.b)))) s

/-- All lanes, or none. -/
def allOf (b : Bool) : Mask := if b then BitVec.allOnes 32 else 0

/-- `pand` (R311). -/
def execPand (o : POp) (s : State) : Host.Outcome State Fault Refusal := runP (.pand o) o (fun _ a b => a &&& b) s

/-- `por` (R311). -/
def execPor (o : POp) (s : State) : Host.Outcome State Fault Refusal := runP (.por o) o (fun _ a b => a ||| b) s

/-- `pxor` (R311). -/
def execPxor (o : POp) (s : State) : Host.Outcome State Fault Refusal := runP (.pxor o) o (fun _ a b => a ^^^ b) s

/-- `pnot` (R311). -/
def execPnot (o : POp) (s : State) : Host.Outcome State Fault Refusal := runP (.pnot o) o (fun _ a _ => ~~~a) s

/-- `pmov` (R311). -/
def execPmov (o : POp) (s : State) : Host.Outcome State Fault Refusal := runP (.pmov o) o (fun _ a _ => a) s

/-- `vote.any` (R311). -/
def execVoteAny (o : POp) (s : State) : Host.Outcome State Fault Refusal :=
  runP (.voteAny o) o (fun act a _ => allOf (act &&& a != 0)) s

/-- `vote.all` (R311). -/
def execVoteAll (o : POp) (s : State) : Host.Outcome State Fault Refusal :=
  runP (.voteAll o) o (fun act a _ => allOf (act &&& ~~~a == 0)) s

/-- `vote.same` (R311). -/
def execVoteSame (o : POp) (s : State) : Host.Outcome State Fault Refusal :=
  runP (.voteSame o) o (fun act a _ => allOf (act &&& a == 0 || act &&& ~~~a == 0)) s

/-- `ballot` (R311). -/
def execBallot (o : POp) (s : State) : Host.Outcome State Fault Refusal :=
  issueWarp (.ballot o) (fun s c =>
    .next (modWarp s c.w.id fun w => setS w (Fin.ofNat 128 o.d.val) ((c.act &&& pval c.w o.a).setWidth 64))) s

/-- `pfirst` (R311). -/
def execPfirst (o : POp) (s : State) : Host.Outcome State Fault Refusal :=
  issueWarp (.pfirst o) (fun s c =>
    let r := match (c.act &&& pval c.w o.a).lowest with
      | some l => l.val
      | none => 32
    .next (modWarp s c.w.id fun w => setS w (Fin.ofNat 128 o.d.val) (BitVec.ofNat 64 r))) s

/-- `pcount` (R311): the total above, the count below the lane underneath. -/
def execPcount (o : POp) (s : State) : Host.Outcome State Fault Refusal :=
  issue (.pcount o) (fun s c =>
    let m := c.act &&& pval c.w o.a
    .next (modWarp s c.w.id fun w => setV w o.d c.act fun l =>
      BitVec.ofNat 64 ((Mask.count m) * 2 ^ 32 + (Mask.count (m &&& BitVec.ofNat 32 (2 ^ l.val - 1)))))) s

end Sys2Proof.Machine
end

