-- ==== Sys2Proof/Machine/Registers.lean ====
section
/-! DEFINITION. The registers of the dies' windows and of BAR0 as the host writes and reads them (R29, R30, R36, R37, R49, R50, R55-R58, R61,
R249, R250). -/

namespace Sys2Proof.Machine

/-- Whether the window of a die takes writes (R37): die 1's does not while it is die-offline. -/
def windowOpen (s : State) (d : Fin 2) : Bool := !(d == 1 && s.dies[(1 : Fin 2)].dstate == .dieOffline)

/-- Write the identity register (R29): non-zero reserved bits drop the write whole. -/
def writeIdentity (s : State) (d : Fin 2) (v : Word) : State :=
  if windowOpen s d && bitsOf v 13 51 == 0 then modDie s d fun x => { x with ident := v } else s

/-- Write FBASE (R249). -/
def writeFbase (s : State) (d : Fin 2) (v : Word) : State :=
  let a := v.toNat
  if windowOpen s d && ((List.finRange 64).all fun c => s.ctxs[c].st == .free) && a % 2 ^ 18 == 0
      && inPackage a (2 ^ 18) && dieOf a == d then
    modDie s d fun x => { x with fbase := v }
  else s

/-- Write FRET (R249, R250). -/
def writeFret (s : State) (d : Fin 2) (v : Word) : State := if windowOpen s d then retireSlot s d v.toNat else s

/-- Write an entry of the domain window table (R30). -/
def writeWindow (s : State) (d : Fin 2) (n : Nat) (v : Word) : State :=
  if windowOpen s d then modDie s d fun x => { x with windows := put x.windows n v } else s

/-- Serve a write of the host to a register of a die (R25-R27, R37): one of die 1 crosses the bridge, but while that die is die-offline,
and is dropped where the bridge is down. -/
def toDie (s : State) (d : Fin 2) (e : Instr) (k : State → State) : Host.Outcome State Fault Refusal :=
  let far := d != 0 && windowOpen s d
  if pfServes s then crossIn s far e id fun s => k (if far then sendPacket s 0 mmioAgent .request true else s)
  else .next s

/-- IDENTITY_REGISTER_WRITE (R29). -/
def execIdentityRegisterWrite (d : Fin 2) (v : Word) (s : State) : Host.Outcome State Fault Refusal :=
  toDie s d (.identityRegisterWrite d v) fun s => writeIdentity s d v

/-- FBASE_WRITE (R249). -/
def execFbaseWrite (d : Fin 2) (v : Word) (s : State) : Host.Outcome State Fault Refusal :=
  toDie s d (.fbaseWrite d v) fun s => writeFbase s d v

/-- FRET_WRITE (R250). -/
def execFretWrite (d : Fin 2) (v : Word) (s : State) : Host.Outcome State Fault Refusal :=
  toDie s d (.fretWrite d v) fun s => writeFret s d v

/-- Write a register of a start block (R61): ENTRY, ARG, CADDR; the rest is read-only or reserved. -/
def writeStart (s : State) (c : Fin 64) (off : Nat) (v : Word) : State :=
  if off = 0 then modCtx s c fun x => { x with entry := v }
  else if off = 8 then writeArg s c v
  else if off = 16 then modCtx s c fun x => { x with caddr := v }
  else s

/-- Write a register of a die's window, at an offset from its start (R37). -/
def writeDie (s : State) (d : Fin 2) (off : Nat) (v : Word) : State :=
  if off < 0x8000 then writeWindow s d (off / 8) v
  else if off = 0x8000 then writeIdentity s d v
  else if off = 0x20000 then writeFbase s d v
  else if off = 0x20010 then writeFret s d v
  else s

/-- Do what a write to a context entry does. -/
def writeContext (s : State) (c : Fin 64) (reg : Nat) (v : Word) : State :=
  match execContextEntryWrite c (Fin.ofNat 8 reg) v s with
  | .next t => t
  | _ => s

/-- Do what a write to a partition entry does. -/
def writePart (s : State) (n : Fin 24) (reg : Nat) (v : Word) : State :=
  match execPartitionEntryWrite n (Fin.ofNat 8 reg) v s with
  | .next t => t
  | _ => s

/-- The offset in BAR0 of the register that holds the window base of BAR2, of which the spec says only that it is set in BAR0 (R36,
log 47). -/
def bar2Offset : Nat := 0x140000

/-- Write a register of PF BAR0 (R36, R37, R55). -/
def writeBar0 (s : State) (off : Nat) (v : Word) : State :=
  if 0x100000 ≤ off ∧ off < 0x101000 then
    writeContext s (Fin.ofNat 64 ((off - 0x100000) / 0x40)) ((off - 0x100000) % 0x40 / 8) v
  else if 0x110000 ≤ off ∧ off < 0x110600 then
    writePart s (Fin.ofNat 24 ((off - 0x110000) / 0x40)) ((off - 0x110000) % 0x40 / 8) v
  else if 0x120000 ≤ off ∧ off < 0x124000 then
    writeStart s (Fin.ofNat 64 ((off - 0x120000) / 0x100)) ((off - 0x120000) % 0x100) v
  else if off = bar2Offset then { s with host := { s.host with bar2 := v } }
  else if 0x1000000 ≤ off ∧ off < 0x2000000 then writeDie s 0 (off - 0x1000000) v
  else if 0x2000000 ≤ off ∧ off < 0x3000000 then writeDie s 1 (off - 0x2000000) v
  else s

/-- The die whose register block an address of a function's BAR0 lies in, where it is die 1's; the rest is die 0's (R36, R37). -/
def barDie (a : BarAddr) : Fin 2 := if a.fn = 0 ∧ 0x2000000 ≤ a.off ∧ a.off < 0x3000000 then 1 else 0

/-- REGISTER_WRITE (R37, R55): a write of fewer than 8 bytes, or one that is not aligned, is dropped; a VF reaches the start
blocks of its own partition's contexts only. -/
def execRegisterWrite (a : BarAddr) (bytes : Nat) (v : Word) (s : State) : Host.Outcome State Fault Refusal :=
  toDie s (barDie a) (.registerWrite a bytes v) fun s =>
    if bytes < 8 || a.off % 8 != 0 then s
    else if a.fn = 0 then writeBar0 s a.off v
    else if a.off < 0x4000 && functionOf s (Fin.ofNat 64 (a.off / 0x100)) == a.fn.val then
      writeStart s (Fin.ofNat 64 (a.off / 0x100)) (a.off % 0x100) v
    else s

/-! ### Reads -/

/-- The number of a context state in field STATE (R58). -/
def cstateCode : CState → Nat
  | .free => 0 | .idle => 1 | .running => 2 | .halting => 3 | .halted => 4 | .ended => 5

/-- A register of a context table entry (R58); CMD reads zero. -/
def readContext (s : State) (c : Fin 64) (reg : Nat) : Word :=
  let x := s.ctxs[c]
  match reg with
  | 0 => BitVec.ofNat 64 ((if x.st = .free then 0 else 2 ^ 63) + (if x.mode then 2 ^ 62 else 0) + x.die.val * 2 ^ 61 + x.part.val * 2 ^ 56
      + x.vec.val * 2 ^ 52 + cstateCode x.st)
  | 2 => x.root
  | 3 => x.image
  | _ => 0

/-- A register of a partition table entry (R56). -/
def readPart (s : State) (n : Fin 24) (reg : Nat) : Word :=
  let p := s.parts[n]
  match reg with
  | 0 => BitVec.ofNat 64 ((if p.valid then 2 ^ 63 else 0) + p.isl1.toNat * 2 ^ 16 + p.isl0.toNat)
  | 1 => BitVec.ofNat 64 p.vf
  | 2 => p.dbase
  | _ => 0

/-- A register of a start block (R61). -/
def readStart (s : State) (c : Fin 64) (off : Nat) : Word :=
  let x := s.ctxs[c]
  match off with
  | 0 => x.entry
  | 8 => x.arg
  | 16 => x.caddr
  | 24 => BitVec.ofNat 64 (x.seq.toNat * 2 ^ 32 + x.last.toNat * 2 ^ 16)
  | _ => 0

/-- FCOUNT (R249): the slots of a die's fault buffer in use. -/
def fcount (x : Die) : Word := BitVec.ofNat 64 x.slots.length

/-- A register of a die's window, at an offset from its start (R37): a die that is die-offline, or that runs no product image, shows its
health status only (R37, R49). -/
def readDie (s : State) (d : Fin 2) (off : Nat) : Word :=
  let x := s.dies[d]
  if 0x10000 ≤ off ∧ off < 0x10260 then healthWord x (off - 0x10000)
  else if x.dstate = .dieOffline then 0
  else if off < 0x8000 then look (n := 64) x.windows (off / 8)
  else if off = 0x8000 then x.ident
  else if off = 0x20000 then x.fbase
  else if off = 0x20008 then fcount x
  else 0

/-- A register of PF BAR0 (R37, R55, R57). While no product image runs, only the dies' health status reads (R49). -/
def readBar0 (s : State) (off : Nat) : Word :=
  if 0x1000000 ≤ off ∧ off < 0x2000000 then readDie s 0 (off - 0x1000000)
  else if 0x2000000 ≤ off ∧ off < 0x3000000 then readDie s 1 (off - 0x2000000)
  else if !pfServes s then 0
  else if 0x100000 ≤ off ∧ off < 0x101000 then readContext s (Fin.ofNat 64 ((off - 0x100000) / 0x40)) ((off - 0x100000) % 0x40 / 8)
  else if 0x110000 ≤ off ∧ off < 0x110600 then readPart s (Fin.ofNat 24 ((off - 0x110000) / 0x40)) ((off - 0x110000) % 0x40 / 8)
  else if 0x120000 ≤ off ∧ off < 0x124000 then readStart s (Fin.ofNat 64 ((off - 0x120000) / 0x100)) ((off - 0x120000) % 0x100)
  else if off = 0x130000 then s.refusal
  else if off = bar2Offset then s.host.bar2
  else 0

/-- A register of a VF's BAR0 (R55): the start blocks of its own partition's contexts; the rest reads zero. -/
def readVf (s : State) (fn : Nat) (off : Nat) : Word :=
  if pfServes s && decide (off < 0x4000) && functionOf s (Fin.ofNat 64 (off / 0x100)) == fn then
    readStart s (Fin.ofNat 64 (off / 0x100)) (off % 0x100)
  else 0

/-- The byte at an offset of a function's BAR0 (R55): a read of fewer than 8 bytes returns the addressed bytes. -/
def barByte (s : State) (fn : Nat) (off : Nat) : Byte :=
  let w := if fn = 0 then readBar0 s (off / 8 * 8) else readVf s fn (off / 8 * 8)
  BitVec.ofNat 8 (w.toNat >>> (8 * (off % 8)))

/-- Whether a read of the host crosses the bridge (R10, R25): of die 1's memory, or of its registers but for the health status, which the host
reads in every state of the die (R19, R37; log 73), and while the die is die-offline, when the rest of its window reads zero (R37). -/
def readCrosses (s : State) (a : HostRead) (bytes : Nat) : Bool :=
  match a with
  | .aperture off => (match apertureAddr s off bytes with | some x => servable s 0 x bytes && dieOf x != 0 | none => false)
  | .register x => barDie x == 1 && windowOpen s 1 && !(decide (0x2010000 ≤ x.off) && decide (x.off + bytes ≤ 0x2010260))

/-- INBOUND_HOST_READ (R37, R41, R55): of registers, or of memory through the BAR2 aperture. A read of die 1 over a bridge that is down is
answered with an error (log 34). -/
def execInboundHostRead (a : HostRead) (bytes : Nat) (s : State) : Host.Outcome State Fault Refusal :=
  if s.host.up then
    crossIn s (readCrosses s a bytes) (.inboundHostRead a bytes) (fun s => { s with hostOut := s.hostOut ++ [.readError] }) fun s =>
      match a with
      | .aperture off => readAperture s off bytes
      | .register x =>
        let v := (List.range bytes).map fun k => barByte s x.fn.val (x.off + k)
        let s := if readCrosses s a bytes then crossed s 0 1 mmioAgent else s
        { s with hostOut := s.hostOut ++ [.readData v] }
  else .next s

end Sys2Proof.Machine
end

