-- ==== Sys2Proof/Machine/Results.lean ====
section
/-! DEFINITION. Results that return to registers (R123, R237, R254, R291, R303). -/

namespace Sys2Proof.Machine

/-- Write a result to its registers and clear their pending bits (R123). -/
def writeResult (r : Result) (w : Warp) : Warp :=
  let w := r.vw.foldl (fun w p => clearV (setV w p.1 r.mask fun l => p.2[l]) p.1) w
  let w := match r.sw with | some (d, v) => clearS (setS w d v) d | none => w
  match r.pw with | some (d, m) => setP w d r.mask m | none => w

/-- A result returns. A split that it held goes on once none of its results is outstanding (R123). -/
def finishResult (s : State) (r : Result) : State :=
  let s := { s with results := s.results.filter fun x => x.id != r.id }
  let more := s.results.any fun x => x.warp == r.warp && x.sp == r.sp && x.holds
  let s := modWarp s r.warp fun w =>
    let w := writeResult r w
    if r.holds && !more then modSplit w r.sp fun x => { x with held := false } else w
  if r.holds then settle s r.warp else s

/-- Whether the cycle of a result's fixed latency has come; a result of no fixed latency is always due. -/
def resultDue (s : State) (r : Result) : Bool :=
  match r.due with
  | some t => decide (t ≤ s.now)
  | none => true

/-- Whether a result may pass those before it: the special-function results of a warp return in order of issue (R123, R254, R303). -/
def inOrder (s : State) (r : Result) : Bool :=
  r.kind != .sfu || (s.results.find? fun x => x.kind == .sfu && x.warp == r.warp).map (·.id) == some r.id

/-- The oldest due result of a path that passes no other of its warp returns, or nothing happens. -/
def firstResult (s : State) (k : RKind) : State :=
  match s.results.find? fun r => r.kind == k && resultDue s r && inOrder s r with
  | some r => finishResult s r
  | none => s

/-- LOAD_DATA_RETURN (R123): loads and atomics return in any order. -/
def execLoadDataReturn (id : Nat) (s : State) : Host.Outcome State Fault Refusal :=
  match s.results.find? fun r => r.id == id && r.kind == .load with
  | some r => .next (finishResult s r)
  | none => .next s

/-- SFU_RESULT (R303): SFU results are written in issue order. -/
def execSfuResult (s : State) : Host.Outcome State Fault Refusal := .next (firstResult s .sfu)

/-- VTOS_RESULT (R291). -/
def execVtosResult (s : State) : Host.Outcome State Fault Refusal := .next (firstResult s .vtos)

/-- CHAIN_RESULT_WRITE (R237). -/
def execChainResultWrite (s : State) : Host.Outcome State Fault Refusal := .next (firstResult s .chain)

end Sys2Proof.Machine
end

