-- ==== Sys2Proof/Machine/Scalar.lean ====
section
/-! DEFINITION. The scalar group OP 0x08 and the reads of warp state OP 0x09 (R289-R291). -/

namespace Sys2Proof.Machine

/-- RUN a scalar form (R289): `h` is given the 64-bit values of A, B and C and answers the w-bit result; it is
written extended to 64 bits as T reads it. -/
def runS (i : Instr) (o : SOp) (h : Word → Word → Word → Res1) (s : State) : Host.Outcome State Fault Refusal :=
  issueWarp i (fun s c =>
    let r := h (ssrcVal s c o.w1 o.a) (ssrcVal s c o.w1 o.b) (ssrcVal s c o.w1 o.c)
    .next (modWarp s c.w.id fun w => setFlags (setS w o.d (extendInt o.ty r.1)) r.2)) s

/-- The low bits of a value that a scalar form reads. -/
def lowOf (t : Ty) (x : Word) : Nat := x.toNat % 2 ^ tyWidth t

/-- A scalar form of an integer function. -/
def runSInt (i : Instr) (fn : IntFn) (o : SOp) (s : State) : Host.Outcome State Fault Refusal :=
  runS i o (fun a b _ => intFn fn o.ty o.sat (lowOf o.ty a) (lowOf o.ty b) 0) s

/-- `sadd` (R289). -/
def execSadd (o : SOp) (s : State) : Host.Outcome State Fault Refusal := runSInt (.sadd o) .add o s

/-- `ssub` (R289). -/
def execSsub (o : SOp) (s : State) : Host.Outcome State Fault Refusal := runSInt (.ssub o) .sub o s

/-- `smul` (R289). -/
def execSmul (o : SOp) (s : State) : Host.Outcome State Fault Refusal := runSInt (.smul o) .mul o s

/-- `smulh` (R289). -/
def execSmulh (o : SOp) (s : State) : Host.Outcome State Fault Refusal := runSInt (.smulh o) .mulh o s

/-- `smin` (R289). -/
def execSmin (o : SOp) (s : State) : Host.Outcome State Fault Refusal := runSInt (.smin o) .min o s

/-- `smax` (R289). -/
def execSmax (o : SOp) (s : State) : Host.Outcome State Fault Refusal := runSInt (.smax o) .max o s

/-- `sand` (R289). -/
def execSand (o : SOp) (s : State) : Host.Outcome State Fault Refusal := runSInt (.sand o) .and o s

/-- `sor` (R289). -/
def execSor (o : SOp) (s : State) : Host.Outcome State Fault Refusal := runSInt (.sor o) .or o s

/-- `sxor` (R289). -/
def execSxor (o : SOp) (s : State) : Host.Outcome State Fault Refusal := runSInt (.sxor o) .xor o s

/-- `snot` (R289). -/
def execSnot (o : SOp) (s : State) : Host.Outcome State Fault Refusal := runSInt (.snot o) .not o s

/-- `sshl` (R289). -/
def execSshl (o : SOp) (s : State) : Host.Outcome State Fault Refusal := runSInt (.sshl o) .shl o s

/-- `sshr` (R289). -/
def execSshr (o : SOp) (s : State) : Host.Outcome State Fault Refusal := runSInt (.sshr o) .shr o s

/-- `ssra` (R289). -/
def execSsra (o : SOp) (s : State) : Host.Outcome State Fault Refusal := runSInt (.ssra o) .sra o s

/-- `spopc` (R289). -/
def execSpopc (o : SOp) (s : State) : Host.Outcome State Fault Refusal := runSInt (.spopc o) .popc o s

/-- `sclz` (R289). -/
def execSclz (o : SOp) (s : State) : Host.Outcome State Fault Refusal := runSInt (.sclz o) .clz o s

/-- `sctz` (R289). -/
def execSctz (o : SOp) (s : State) : Host.Outcome State Fault Refusal := runSInt (.sctz o) .ctz o s

/-- `sbfe` (R288, R289): B describes the field. -/
def execSbfe (o : SOp) (s : State) : Host.Outcome State Fault Refusal :=
  runS (.sbfe o) o (fun a q _ => (bfeInt o.ty (lowOf o.ty a) q, 0)) s

/-- `sbfi` (R288, R289): C describes the field. -/
def execSbfi (o : SOp) (s : State) : Host.Outcome State Fault Refusal :=
  runS (.sbfi o) o (fun a b q => (bfiInt o.ty (lowOf o.ty a) (lowOf o.ty b) q, 0)) s

/-- `smov` (R289). -/
def execSmov (o : SOp) (s : State) : Host.Outcome State Fault Refusal :=
  runS (.smov o) o (fun a _ _ => (lowOf o.ty a, 0)) s

/-- `ssel` (R289). -/
def execSsel (o : SOp) (s : State) : Host.Outcome State Fault Refusal :=
  runS (.ssel o) o (fun a b c => (if lowOf o.ty c = 0 then lowOf o.ty b else lowOf o.ty a, 0)) s

/-- `scmp.cond` (R289). -/
def execScmp (cond : Cond) (o : SOp) (s : State) : Host.Outcome State Fault Refusal :=
  runS (.scmp cond o) o
    (fun a b _ => (if iCmp cond (intOf o.ty (lowOf o.ty a)) (intOf o.ty (lowOf o.ty b)) then 1 else 0, 0)) s

/-- `srd sD, %name` (R290). -/
def execSrd (g : Guard) (d : Fin 128) (k : Fin 17) (s : State) : Host.Outcome State Fault Refusal :=
  issueWarp (.srd g d k) (fun s c => .next (modWarp s c.w.id fun w => setS w d (warpVal s c k))) s

/-- `srd.flags` (R290). -/
def execSrdFlags (g : Guard) (d : Fin 128) (s : State) : Host.Outcome State Fault Refusal :=
  issueWarp (.srdFlags g d) (fun s c => .next (modWarp s c.w.id fun w => setS w d (w.flags.setWidth 64))) s

/-- `srd.flags.clr` (R290): the flag word as it was, and the flags that B names are cleared. -/
def execSrdFlagsClr (g : Guard) (d : Fin 128) (b : SSrc) (w1 : Word) (s : State) : Host.Outcome State Fault Refusal :=
  issueWarp (.srdFlagsClr g d b w1) (fun s c =>
    let m : BitVec 16 := BitVec.ofNat 16 (bitsOf (ssrcVal s c w1 b) 0 6)
    .next (modWarp s c.w.id fun w => { setS w d (w.flags.setWidth 64) with flags := w.flags &&& ~~~m })) s

/-- `vtos` (R291): the value of a lane, eight cycles later. -/
def execVtos (g : Guard) (d : Fin 128) (va : Fin 256) (b : SSrc) (w1 : Word) (s : State) :
    Host.Outcome State Fault Refusal :=
  issueWarp (.vtos g d va b w1) (fun s c =>
    let l : Fin 32 := Fin.ofNat 32 (bitsOf (ssrcVal s c w1 b) 0 5)
    let s := addResult s { result0 c .vtos with due := some (s.now + 8), sw := some (d, vreg c.w va l) }
    .next (modWarp s c.w.id fun w => pendS w d)) s

end Sys2Proof.Machine
end

