-- ==== Sys2Proof/Machine/VectorFloat.lean ====
section
/-! DEFINITION. The floating-point group OP 0x01, the special functions OP 0x02, `vcmp` OP 0x03 and the conversions
OP 0x04 (R295-R303). -/

namespace Sys2Proof.Machine

/-- A floating form whose function acts per sub-element. -/
def runFloat (i : Instr) (o : VOp) (h : Fmt → Nat → Nat → Nat → Res1) (s : State) : Host.Outcome State Fault Refusal :=
  runV i .reg (fun _ _ a b c _ => eachSub (tyWidth o.ty) (h (fmtOf o.ty)) a b c) s

/-- A special function of every sub-element, through the SFU queue (R303). -/
def runSfu (i : Instr) (o : VOp) (fn : SfuFn) (s : State) : Host.Outcome State Fault Refusal :=
  runV i .queue (fun _ _ a _ _ _ => eachSub (tyWidth o.ty) (fun x _ _ => sfu fn o.ty x) a 0 0) s

/-- The two sums of `vfdot2` (R197, R295). -/
def dot2Lane (t : Ty) (r : Rnd) (sat : Bool) (a b c : Word) : Word × BitVec 16 :=
  let f := fmtOf t
  joinRes 32 ((List.range 2).map fun j =>
    let x0 := bitsOf a (32 * j) 16
    let x1 := bitsOf a (32 * j + 16) 16
    let y0 := bitsOf b (32 * j) 16
    let y1 := bitsOf b (32 * j + 16) 16
    let z := bitsOf c (32 * j) 32
    let nan :=
      match [x0, x1, y0, y1].find? (fNan f) with
      | some x => some (carryNan f fmtF32 x)
      | none => if fNan fmtF32 z then some (fQuiet fmtF32 z) else none
    let sn := [x0, x1, y0, y1].any (fSnan f) || fSnan fmtF32 z
    fusedSum fmtF32 r sat [(fVal f x0, fVal f y0), (fVal f x1, fVal f y1)] [fVal fmtF32 z] nan sn)

/-- One lane of `vcvt` (R298). -/
def cvtLane (src dst : Ty) (r : Rnd) (sat : Bool) (a : Word) : Word × BitVec 16 :=
  let ws := tyWidth src
  let wd := tyWidth dst
  joinRes wd ((List.range (64 / max ws wd)).map fun k => convert src dst r sat (bitsOf a (k * ws) ws))

/-- One lane of `vcvt.mx` (R300). -/
def cvtMxLane (k : MxFmt) (t : Ty) (r : Rnd) (sat : Bool) (a b : Word) : Word × BitVec 16 :=
  let w := tyWidth t
  joinRes w ((List.range (64 / w)).map fun i => mxDecode k t r sat (bitsOf a (i * mxWidth k) (mxWidth k)) (bitsOf b 0 8))

/-- One lane of `vcvt.tomx` (R301). -/
def cvtTomxLane (k : MxFmt) (t : Ty) (r : Rnd) (sat : Bool) (a b : Word) : Word × BitVec 16 :=
  let w := tyWidth t
  joinRes (mxWidth k) ((List.range (64 / w)).map fun i => mxEncode k t r sat (bitsOf a (i * w) w) (bitsOf b 0 8))

/-- The scale that `vscale.mx` writes, from A in each active lane (R302). -/
def scaleOver (k : MxFmt) (t : Ty) (act : Mask) (a : Fin 32 → Word) : Word :=
  BitVec.ofNat 64 (mxScale k (act.lanes.map fun l => fVal (fmtOf t) (bitsOf (a l) 0 (tyWidth t))))

/-- The result of a compare of sub-elements 0 (R297). -/
def cmpLane (c : Cond) (t : Ty) (a b : Word) : Word × BitVec 16 :=
  let w := tyWidth t
  let x := bitsOf a 0 w
  let y := bitsOf b 0 w
  let (r, fl) := if tyFloat t then fCmp (fmtOf t) c x y else (iCmp c (intOf t x) (intOf t y), 0)
  (if r then 1 else 0, fl)

/-- `vfadd` (R295). -/
def execVfadd (o : VOp) (s : State) : Host.Outcome State Fault Refusal :=
  runFloat (.vfadd o) o (fun f a b _ => fAdd f o.rnd o.sat a b) s

/-- `vfsub` (R295). -/
def execVfsub (o : VOp) (s : State) : Host.Outcome State Fault Refusal :=
  runFloat (.vfsub o) o (fun f a b _ => fSub f o.rnd o.sat a b) s

/-- `vfmul` (R295). -/
def execVfmul (o : VOp) (s : State) : Host.Outcome State Fault Refusal :=
  runFloat (.vfmul o) o (fun f a b _ => fMul f o.rnd o.sat a b) s

/-- `vfma` (R295). -/
def execVfma (o : VOp) (s : State) : Host.Outcome State Fault Refusal :=
  runFloat (.vfma o) o (fun f a b c => fMa f o.rnd o.sat a b c) s

/-- `vfmin` (R295). -/
def execVfmin (o : VOp) (s : State) : Host.Outcome State Fault Refusal :=
  runFloat (.vfmin o) o (fun f a b _ => fMinMax f false a b) s

/-- `vfmax` (R295). -/
def execVfmax (o : VOp) (s : State) : Host.Outcome State Fault Refusal :=
  runFloat (.vfmax o) o (fun f a b _ => fMinMax f true a b) s

/-- `vfabs` (R295). -/
def execVfabs (o : VOp) (s : State) : Host.Outcome State Fault Refusal :=
  runFloat (.vfabs o) o (fun f a _ _ => (a % 2 ^ (f.eb + f.mb), 0)) s

/-- `vfneg` (R295). -/
def execVfneg (o : VOp) (s : State) : Host.Outcome State Fault Refusal :=
  runFloat (.vfneg o) o (fun f a _ _ => (a ^^^ 2 ^ (f.eb + f.mb), 0)) s

/-- `vfsgn` (R295). -/
def execVfsgn (o : VOp) (s : State) : Host.Outcome State Fault Refusal :=
  runFloat (.vfsgn o) o (fun f a b _ => (withSign f (fNeg f b) (a % 2 ^ (f.eb + f.mb)), 0)) s

/-- `vfrnd` (R295). -/
def execVfrnd (o : VOp) (s : State) : Host.Outcome State Fault Refusal :=
  runFloat (.vfrnd o) o (fun f a _ _ => fRnd f o.rnd a) s

/-- `vfclass` (R295). -/
def execVfclass (o : VOp) (s : State) : Host.Outcome State Fault Refusal :=
  runFloat (.vfclass o) o (fun f a _ _ => (fClass f a, 0)) s

/-- `vfdot2` (R197, R295). -/
def execVfdot2 (o : VOp) (s : State) : Host.Outcome State Fault Refusal :=
  runV (.vfdot2 o) .reg (fun _ _ a b c _ => dot2Lane o.ty o.rnd o.sat a b c) s

/-- `vrcp` (R201, R303). -/
def execVrcp (o : VOp) (s : State) : Host.Outcome State Fault Refusal := runSfu (.vrcp o) o .rcp s

/-- `vrsq` (R201, R303). -/
def execVrsq (o : VOp) (s : State) : Host.Outcome State Fault Refusal := runSfu (.vrsq o) o .rsq s

/-- `vsqrt` (R201, R303). -/
def execVsqrt (o : VOp) (s : State) : Host.Outcome State Fault Refusal := runSfu (.vsqrt o) o .sqrt s

/-- `vexp2` (R201, R303). -/
def execVexp2 (o : VOp) (s : State) : Host.Outcome State Fault Refusal := runSfu (.vexp2 o) o .exp2 s

/-- `vlog2` (R201, R303). -/
def execVlog2 (o : VOp) (s : State) : Host.Outcome State Fault Refusal := runSfu (.vlog2 o) o .log2 s

/-- `vsinpi` (R201, R303). -/
def execVsinpi (o : VOp) (s : State) : Host.Outcome State Fault Refusal := runSfu (.vsinpi o) o .sinpi s

/-- `vcospi` (R201, R303). -/
def execVcospi (o : VOp) (s : State) : Host.Outcome State Fault Refusal := runSfu (.vcospi o) o .cospi s

/-- `vtanh` (R201, R303). -/
def execVtanh (o : VOp) (s : State) : Host.Outcome State Fault Refusal := runSfu (.vtanh o) o .tanh s

/-- `vcmp` (R297). -/
def execVcmp (cond : Cond) (o : VOp) (s : State) : Host.Outcome State Fault Refusal :=
  runV (.vcmp cond o) .pred (fun _ _ a b _ _ => cmpLane cond o.ty a b) s

/-- `vcvt` (R298). -/
def execVcvt (o : VOp) (src : Ty) (s : State) : Host.Outcome State Fault Refusal :=
  runV (.vcvt o src) .reg (fun _ _ a _ _ _ => cvtLane src o.ty o.rnd o.sat a) s

/-- `vcvt.mx` (R300). -/
def execVcvtMx (o : VOp) (f : MxFmt) (s : State) : Host.Outcome State Fault Refusal :=
  runV (.vcvtMx o f) .reg (fun _ _ a b _ _ => cvtMxLane f o.ty o.rnd o.sat a b) s

/-- `vcvt.tomx` (R301). -/
def execVcvtTomx (o : VOp) (f : MxFmt) (s : State) : Host.Outcome State Fault Refusal :=
  runV (.vcvtTomx o f) .reg (fun _ _ a b _ _ => cvtTomxLane f o.ty o.rnd o.sat a b) s

/-- The effect of `vscale.mx` with a chained A or a publish (R173, R302): every read is resolved before the block is formed. -/
def scaleChained (i : Instr) (k : MxFmt) (o : VOp) (f : VForm) (s : State) (c : Iss) : Effect :=
  match chainHome s c.w with
  | none => .fault (faultOf 0x12)
  | some (u, la) =>
    match chainFault c.w la o c.act with
    | some e => .fault e
    | none =>
      match chainLoop s u la (cchOf o) none (fun v l => (v.getD (srcVal s c f.ta o.imm o.a l), 0)) c.act.lanes c.w [] with
      | .error e => chainStop s c e
      | .ok (_, vs) =>
        let x := scaleOver k o.ty c.act fun l => ((vs.find? fun y => y.1 == l).map (·.2.1)).getD 0
        match chainLoop s u la none o.chain.pub (fun _ _ => (x, 0)) c.act.lanes c.w [] with
        | .error e => chainStop s c e
        | .ok (w', rs) => chainOrder s c u o fun s => finishChained s i c f .reg u la w' rs

/-- `vscale.mx` (R302). -/
def execVscaleMx (o : VOp) (f : MxFmt) (s : State) : Host.Outcome State Fault Refusal :=
  issue (.vscaleMx o f) (fun s c =>
    match vform (.vscaleMx o f) with
    | none => .next s
    | some v =>
      if isChained o && c.act != 0 then scaleChained (.vscaleMx o f) f o v s c
      else
        let x := scaleOver f o.ty c.act fun l => srcVal s c v.ta o.imm o.a l
        .next (modWarp s c.w.id fun w => setV w o.d c.act fun _ => x)) s

end Sys2Proof.Machine
end

