-- ==== Sys2Proof/Machine/VectorInt.lean ====
section
/-! DEFINITION. The vector integer group, OP 0x00 (R292-R294). -/

namespace Sys2Proof.Machine

/-- The widening products of `vmulw` (R293). -/
def mulwLane (t : Ty) (a b : Word) : Word × BitVec 16 :=
  let w := tyWidth t
  joinRes (2 * w) ((List.range (32 / w)).map fun k =>
    (lowBits (2 * w) (intOf t (bitsOf a (k * w) w) * intOf t (bitsOf b (k * w) w)), 0))

/-- The two sums of `vdot4` (R197, R293). -/
def dot4Lane (t : Ty) (sat : Bool) (a b c : Word) : Word × BitVec 16 :=
  let wide : Ty := if t = .i8 then .i32 else .n32
  joinRes 32 ((List.range 2).map fun j =>
    let sum := (List.range 4).foldl (fun (x : Int) i =>
      x + intOf t (bitsOf a ((4 * j + i) * 8) 8) * intOf t (bitsOf b ((4 * j + i) * 8) 8)) (intOf wide (bitsOf c (j * 32) 32))
    reduceInt wide sat sum)

/-- `vbool`: any function of three inputs, bit by bit (R294). -/
def boolLane (a b u d : Word) : Word :=
  BitVec.ofNat 64 (joinSubs 1 ((List.range 64).map fun j =>
    bitsOf u (4 * bitsOf d j 1 + 2 * bitsOf b j 1 + bitsOf a j 1) 1))

/-- `vpack`: A gives the low half, B the high half (R293). -/
def packLane (t : Ty) (sat : Bool) (a b : Word) : Word × BitVec 16 :=
  let w := tyWidth t
  let n := 32 / w
  let one := fun (x : Word) (i : Nat) => reduceInt t sat (intOf (tyWider t) (bitsOf x (i * (2 * w)) (2 * w)))
  joinRes w ((List.range n).map (one a) ++ (List.range n).map (one b))

/-- `vunpk.lo` and `vunpk.hi` (R293). -/
def unpackLane (t : Ty) (hi : Bool) (a : Word) : Word × BitVec 16 :=
  let w := tyWidth t
  let n := 32 / w
  joinRes (2 * w) ((List.range n).map fun i =>
    (lowBits (2 * w) (intOf t (bitsOf a ((i + if hi then n else 0) * w) w)), 0))

/-- `vadd` (R292). -/
def execVadd (o : VOp) (s : State) : Host.Outcome State Fault Refusal := runInt (.vadd o) .add o s

/-- `vsub` (R292). -/
def execVsub (o : VOp) (s : State) : Host.Outcome State Fault Refusal := runInt (.vsub o) .sub o s

/-- `vmul` (R292). -/
def execVmul (o : VOp) (s : State) : Host.Outcome State Fault Refusal := runInt (.vmul o) .mul o s

/-- `vmulh` (R292). -/
def execVmulh (o : VOp) (s : State) : Host.Outcome State Fault Refusal := runInt (.vmulh o) .mulh o s

/-- `vmad` (R292). -/
def execVmad (o : VOp) (s : State) : Host.Outcome State Fault Refusal := runInt (.vmad o) .mad o s

/-- `vabs` (R292). -/
def execVabs (o : VOp) (s : State) : Host.Outcome State Fault Refusal := runInt (.vabs o) .abs o s

/-- `vneg` (R292). -/
def execVneg (o : VOp) (s : State) : Host.Outcome State Fault Refusal := runInt (.vneg o) .neg o s

/-- `vmin` (R292). -/
def execVmin (o : VOp) (s : State) : Host.Outcome State Fault Refusal := runInt (.vmin o) .min o s

/-- `vmax` (R292). -/
def execVmax (o : VOp) (s : State) : Host.Outcome State Fault Refusal := runInt (.vmax o) .max o s

/-- `vavg` (R292). -/
def execVavg (o : VOp) (s : State) : Host.Outcome State Fault Refusal := runInt (.vavg o) .avg o s

/-- `vsad` (R292). -/
def execVsad (o : VOp) (s : State) : Host.Outcome State Fault Refusal := runInt (.vsad o) .sad o s

/-- `vand` (R292). -/
def execVand (o : VOp) (s : State) : Host.Outcome State Fault Refusal := runInt (.vand o) .and o s

/-- `vor` (R292). -/
def execVor (o : VOp) (s : State) : Host.Outcome State Fault Refusal := runInt (.vor o) .or o s

/-- `vxor` (R292). -/
def execVxor (o : VOp) (s : State) : Host.Outcome State Fault Refusal := runInt (.vxor o) .xor o s

/-- `vnot` (R292). -/
def execVnot (o : VOp) (s : State) : Host.Outcome State Fault Refusal := runInt (.vnot o) .not o s

/-- `vshl` (R292). -/
def execVshl (o : VOp) (s : State) : Host.Outcome State Fault Refusal := runInt (.vshl o) .shl o s

/-- `vshr` (R292). -/
def execVshr (o : VOp) (s : State) : Host.Outcome State Fault Refusal := runInt (.vshr o) .shr o s

/-- `vsra` (R292). -/
def execVsra (o : VOp) (s : State) : Host.Outcome State Fault Refusal := runInt (.vsra o) .sra o s

/-- `vrot` (R292). -/
def execVrot (o : VOp) (s : State) : Host.Outcome State Fault Refusal := runInt (.vrot o) .rot o s

/-- `vpopc` (R292). -/
def execVpopc (o : VOp) (s : State) : Host.Outcome State Fault Refusal := runInt (.vpopc o) .popc o s

/-- `vclz` (R292). -/
def execVclz (o : VOp) (s : State) : Host.Outcome State Fault Refusal := runInt (.vclz o) .clz o s

/-- `vctz` (R292). -/
def execVctz (o : VOp) (s : State) : Host.Outcome State Fault Refusal := runInt (.vctz o) .ctz o s

/-- `vbrev` (R292). -/
def execVbrev (o : VOp) (s : State) : Host.Outcome State Fault Refusal := runInt (.vbrev o) .brev o s

/-- `vmulw` (R293). -/
def execVmulw (o : VOp) (s : State) : Host.Outcome State Fault Refusal :=
  runV (.vmulw o) .reg (fun _ _ a b _ _ => mulwLane o.ty a b) s

/-- `vdot4` (R293). -/
def execVdot4 (o : VOp) (s : State) : Host.Outcome State Fault Refusal :=
  runV (.vdot4 o) .reg (fun _ _ a b c _ => dot4Lane o.ty o.sat a b c) s

/-- `vbool` (R294). -/
def execVbool (o : VOp) (s : State) : Host.Outcome State Fault Refusal :=
  runV (.vbool o) .reg (fun _ _ a b c d => (boolLane a b c d, 0)) s

/-- `vbfe` (R288): position B describes the field. -/
def execVbfe (o : VOp) (s : State) : Host.Outcome State Fault Refusal :=
  runV (.vbfe o) .reg (fun _ _ a q _ _ => eachSub (tyWidth o.ty) (fun x _ _ => (bfeInt o.ty x q, 0)) a 0 0) s

/-- `vbfi` (R288): position C describes the field. -/
def execVbfi (o : VOp) (s : State) : Host.Outcome State Fault Refusal :=
  runV (.vbfi o) .reg (fun _ _ a b q _ => eachSub (tyWidth o.ty) (fun x y _ => (bfiInt o.ty x y q, 0)) a b 0) s

/-- `vsel` (R294): A where the predicate of the lane is 1, otherwise B. -/
def execVsel (o : VOp) (p : Fin 8) (s : State) : Host.Outcome State Fault Refusal :=
  runV (.vsel o p) .reg (fun i l a b _ _ => (if (preg i.w p).getLsbD l.val then a else b, 0)) s

/-- `vmov` (R292). -/
def execVmov (o : VOp) (s : State) : Host.Outcome State Fault Refusal :=
  runV (.vmov o) .reg (fun _ _ a _ _ _ => (a, 0)) s

/-- `vpack` (R293). -/
def execVpack (o : VOp) (s : State) : Host.Outcome State Fault Refusal :=
  runV (.vpack o) .reg (fun _ _ a b _ _ => packLane o.ty o.sat a b) s

/-- `vunpk.lo` (R293). -/
def execVunpkLo (o : VOp) (s : State) : Host.Outcome State Fault Refusal :=
  runV (.vunpkLo o) .reg (fun _ _ a _ _ _ => unpackLane o.ty false a) s

/-- `vunpk.hi` (R293). -/
def execVunpkHi (o : VOp) (s : State) : Host.Outcome State Fault Refusal :=
  runV (.vunpkHi o) .reg (fun _ _ a _ _ _ => unpackLane o.ty true a) s

end Sys2Proof.Machine
end

