-- ==== Sys2Proof/Machine/Dispatch.lean ====
section
/-! DEFINITION. The meaning of each instruction and event: one arm per constructor of `Instr`. -/

namespace Sys2Proof.Machine

/-- What an instruction or an event does to a state. -/
def exec (i : Instr) (s : State) : Host.Outcome State Fault Refusal :=
  match i with
  | .powerOn f0 f1 => Sys2Proof.Machine.execPowerOn f0 f1 s
  | .resetRequest cold f0 f1 => Sys2Proof.Machine.execResetRequest cold f0 f1 s
  | .startTimeout d => Sys2Proof.Machine.execStartTimeout d s
  | .correctedError d loc hour => Sys2Proof.Machine.execCorrectedError d loc hour s
  | .uncorrectableError d loc use => Sys2Proof.Machine.execUncorrectableError d loc use s
  | .patrolScrub d fixed bad hour => Sys2Proof.Machine.execPatrolScrub d fixed bad hour s
  | .powerBudgetWindow avg clk0 clk1 => Sys2Proof.Machine.execPowerBudgetWindow avg clk0 clk1 s
  | .overshootLimit d clk => Sys2Proof.Machine.execOvershootLimit d clk s
  | .junctionOver100 d clk => Sys2Proof.Machine.execJunctionOver100 d clk s
  | .hbmOver85 d stack => Sys2Proof.Machine.execHbmOver85 d stack s
  | .hbmOver95 d stack clk => Sys2Proof.Machine.execHbmOver95 d stack clk s
  | .coresOfflineRequest d => Sys2Proof.Machine.execCoresOfflineRequest d s
  | .dieOfflineRequest d => Sys2Proof.Machine.execDieOfflineRequest d s
  | .bringUpRequest d f => Sys2Proof.Machine.execBringUpRequest d f s
  | .onlineRequest d => Sys2Proof.Machine.execOnlineRequest d s
  | .bridgePacket i0 => Sys2Proof.Machine.execBridgePacket i0 s
  | .bridgeAcknowledge dir seq => Sys2Proof.Machine.execBridgeAcknowledge dir seq s
  | .bridgeFlitError dir => Sys2Proof.Machine.execBridgeFlitError dir s
  | .bridgeRetrain ok => Sys2Proof.Machine.execBridgeRetrain ok s
  | .bridgeLaneFailure d module spare => Sys2Proof.Machine.execBridgeLaneFailure d module spare s
  | .ualinkLaneFailure d port trains => Sys2Proof.Machine.execUalinkLaneFailure d port trains s
  | .domainRequestReceived src tag r => Sys2Proof.Machine.execDomainRequestReceived src tag r s
  | .relayForward p => Sys2Proof.Machine.execRelayForward p s
  | .domainCompletion tag ok data => Sys2Proof.Machine.execDomainCompletion tag ok data s
  | .systemCompletion tag st data => Sys2Proof.Machine.execSystemCompletion tag st data s
  | .inboundHostWrite off data => Sys2Proof.Machine.execInboundHostWrite off data s
  | .inboundHostRead a bytes => Sys2Proof.Machine.execInboundHostRead a bytes s
  | .partitionEntryWrite n reg v => Sys2Proof.Machine.execPartitionEntryWrite n reg v s
  | .contextEntryWrite c reg v => Sys2Proof.Machine.execContextEntryWrite c reg v s
  | .contextCreate c => Sys2Proof.Machine.execContextCreate c s
  | .contextHalt c => Sys2Proof.Machine.execContextHalt c s
  | .contextResume c => Sys2Proof.Machine.execContextResume c s
  | .contextExport c => Sys2Proof.Machine.execContextExport c s
  | .contextImport c => Sys2Proof.Machine.execContextImport c s
  | .contextDestroy c => Sys2Proof.Machine.execContextDestroy c s
  | .contextCancelJob c => Sys2Proof.Machine.execContextCancelJob c s
  | .startArgWrite fn c entry arg => Sys2Proof.Machine.execStartArgWrite fn c entry arg s
  | .identityRegisterWrite d v => Sys2Proof.Machine.execIdentityRegisterWrite d v s
  | .fbaseWrite d v => Sys2Proof.Machine.execFbaseWrite d v s
  | .fretWrite d v => Sys2Proof.Machine.execFretWrite d v s
  | .registerWrite a bytes v => Sys2Proof.Machine.execRegisterWrite a bytes v s
  | .jobWarpStart d => Sys2Proof.Machine.execJobWarpStart d s
  | .faultServiceStart d => Sys2Proof.Machine.execFaultServiceStart d s
  | .unitDispatch c => Sys2Proof.Machine.execUnitDispatch c s
  | .dispatchReservation c => Sys2Proof.Machine.execDispatchReservation c s
  | .unitRetire u => Sys2Proof.Machine.execUnitRetire u s
  | .carveComplete core => Sys2Proof.Machine.execCarveComplete core s
  | .overdueSplit w sp => Sys2Proof.Machine.execOverdueSplit w sp s
  | .safePointDrought w sp => Sys2Proof.Machine.execSafePointDrought w sp s
  | .coreSwapStart core c => Sys2Proof.Machine.execCoreSwapStart core c s
  | .coreSwapDone core c => Sys2Proof.Machine.execCoreSwapDone core c s
  | .unitRestore c => Sys2Proof.Machine.execUnitRestore c s
  | .pageWalk d i0 => Sys2Proof.Machine.execPageWalk d i0 s
  | .tlbinvComplete op => Sys2Proof.Machine.execTlbinvComplete op s
  | .loadDataReturn id => Sys2Proof.Machine.execLoadDataReturn id s
  | .chainBufferFill u rank ch occ => Sys2Proof.Machine.execChainBufferFill u rank ch occ s
  | .mailboxFill u ch occ => Sys2Proof.Machine.execMailboxFill u ch occ s
  | .waitvReread w sp => Sys2Proof.Machine.execWaitvReread w sp s
  | .copyElement op => Sys2Proof.Machine.execCopyElement op s
  | .dirtyclrWord op => Sys2Proof.Machine.execDirtyclrWord op s
  | .mldwRowWrite op => Sys2Proof.Machine.execMldwRowWrite op s
  | .vadd o => Sys2Proof.Machine.execVadd o s
  | .vsub o => Sys2Proof.Machine.execVsub o s
  | .vmul o => Sys2Proof.Machine.execVmul o s
  | .vmulh o => Sys2Proof.Machine.execVmulh o s
  | .vmulw o => Sys2Proof.Machine.execVmulw o s
  | .vmad o => Sys2Proof.Machine.execVmad o s
  | .vabs o => Sys2Proof.Machine.execVabs o s
  | .vneg o => Sys2Proof.Machine.execVneg o s
  | .vmin o => Sys2Proof.Machine.execVmin o s
  | .vmax o => Sys2Proof.Machine.execVmax o s
  | .vavg o => Sys2Proof.Machine.execVavg o s
  | .vsad o => Sys2Proof.Machine.execVsad o s
  | .vdot4 o => Sys2Proof.Machine.execVdot4 o s
  | .vand o => Sys2Proof.Machine.execVand o s
  | .vor o => Sys2Proof.Machine.execVor o s
  | .vxor o => Sys2Proof.Machine.execVxor o s
  | .vnot o => Sys2Proof.Machine.execVnot o s
  | .vbool o => Sys2Proof.Machine.execVbool o s
  | .vshl o => Sys2Proof.Machine.execVshl o s
  | .vshr o => Sys2Proof.Machine.execVshr o s
  | .vsra o => Sys2Proof.Machine.execVsra o s
  | .vrot o => Sys2Proof.Machine.execVrot o s
  | .vbfe o => Sys2Proof.Machine.execVbfe o s
  | .vbfi o => Sys2Proof.Machine.execVbfi o s
  | .vpopc o => Sys2Proof.Machine.execVpopc o s
  | .vclz o => Sys2Proof.Machine.execVclz o s
  | .vctz o => Sys2Proof.Machine.execVctz o s
  | .vbrev o => Sys2Proof.Machine.execVbrev o s
  | .vsel o p => Sys2Proof.Machine.execVsel o p s
  | .vmov o => Sys2Proof.Machine.execVmov o s
  | .vpack o => Sys2Proof.Machine.execVpack o s
  | .vunpkLo o => Sys2Proof.Machine.execVunpkLo o s
  | .vunpkHi o => Sys2Proof.Machine.execVunpkHi o s
  | .vfadd o => Sys2Proof.Machine.execVfadd o s
  | .vfsub o => Sys2Proof.Machine.execVfsub o s
  | .vfmul o => Sys2Proof.Machine.execVfmul o s
  | .vfma o => Sys2Proof.Machine.execVfma o s
  | .vfmin o => Sys2Proof.Machine.execVfmin o s
  | .vfmax o => Sys2Proof.Machine.execVfmax o s
  | .vfabs o => Sys2Proof.Machine.execVfabs o s
  | .vfneg o => Sys2Proof.Machine.execVfneg o s
  | .vfsgn o => Sys2Proof.Machine.execVfsgn o s
  | .vfrnd o => Sys2Proof.Machine.execVfrnd o s
  | .vfclass o => Sys2Proof.Machine.execVfclass o s
  | .vfdot2 o => Sys2Proof.Machine.execVfdot2 o s
  | .vrcp o => Sys2Proof.Machine.execVrcp o s
  | .vrsq o => Sys2Proof.Machine.execVrsq o s
  | .vsqrt o => Sys2Proof.Machine.execVsqrt o s
  | .vexp2 o => Sys2Proof.Machine.execVexp2 o s
  | .vlog2 o => Sys2Proof.Machine.execVlog2 o s
  | .vsinpi o => Sys2Proof.Machine.execVsinpi o s
  | .vcospi o => Sys2Proof.Machine.execVcospi o s
  | .vtanh o => Sys2Proof.Machine.execVtanh o s
  | .vcmp cond o => Sys2Proof.Machine.execVcmp cond o s
  | .vcvt o src => Sys2Proof.Machine.execVcvt o src s
  | .vcvtMx o f => Sys2Proof.Machine.execVcvtMx o f s
  | .vcvtTomx o f => Sys2Proof.Machine.execVcvtTomx o f s
  | .vscaleMx o f => Sys2Proof.Machine.execVscaleMx o f s
  | .shuf o => Sys2Proof.Machine.execShuf o s
  | .shufRot o => Sys2Proof.Machine.execShufRot o s
  | .shufBcast o => Sys2Proof.Machine.execShufBcast o s
  | .shufBfly o => Sys2Proof.Machine.execShufBfly o s
  | .shufMirror o => Sys2Proof.Machine.execShufMirror o s
  | .vpermSub o => Sys2Proof.Machine.execVpermSub o s
  | .xsel o cnt => Sys2Proof.Machine.execXsel o cnt s
  | .vscan o op excl => Sys2Proof.Machine.execVscan o op excl s
  | .vred o op => Sys2Proof.Machine.execVred o op s
  | .matchv o => Sys2Proof.Machine.execMatchv o s
  | .pand o => Sys2Proof.Machine.execPand o s
  | .por o => Sys2Proof.Machine.execPor o s
  | .pxor o => Sys2Proof.Machine.execPxor o s
  | .pnot o => Sys2Proof.Machine.execPnot o s
  | .pmov o => Sys2Proof.Machine.execPmov o s
  | .ballot o => Sys2Proof.Machine.execBallot o s
  | .voteAny o => Sys2Proof.Machine.execVoteAny o s
  | .voteAll o => Sys2Proof.Machine.execVoteAll o s
  | .voteSame o => Sys2Proof.Machine.execVoteSame o s
  | .pcount o => Sys2Proof.Machine.execPcount o s
  | .pfirst o => Sys2Proof.Machine.execPfirst o s
  | .xbegin x g start len n imm => Sys2Proof.Machine.execXbegin x g start len n imm s
  | .xnext x d pe => Sys2Proof.Machine.execXnext x d pe s
  | .xred x g op ty sat vdst val imm hn => Sys2Proof.Machine.execXred x g op ty sat vdst val imm hn s
  | .xsync x => Sys2Proof.Machine.execXsync x s
  | .xend x => Sys2Proof.Machine.execXend x s
  | .xquery x g d sel => Sys2Proof.Machine.execXquery x g d sel s
  | .sadd o => Sys2Proof.Machine.execSadd o s
  | .ssub o => Sys2Proof.Machine.execSsub o s
  | .smul o => Sys2Proof.Machine.execSmul o s
  | .smulh o => Sys2Proof.Machine.execSmulh o s
  | .smin o => Sys2Proof.Machine.execSmin o s
  | .smax o => Sys2Proof.Machine.execSmax o s
  | .sand o => Sys2Proof.Machine.execSand o s
  | .sor o => Sys2Proof.Machine.execSor o s
  | .sxor o => Sys2Proof.Machine.execSxor o s
  | .snot o => Sys2Proof.Machine.execSnot o s
  | .sshl o => Sys2Proof.Machine.execSshl o s
  | .sshr o => Sys2Proof.Machine.execSshr o s
  | .ssra o => Sys2Proof.Machine.execSsra o s
  | .sbfe o => Sys2Proof.Machine.execSbfe o s
  | .sbfi o => Sys2Proof.Machine.execSbfi o s
  | .spopc o => Sys2Proof.Machine.execSpopc o s
  | .sclz o => Sys2Proof.Machine.execSclz o s
  | .sctz o => Sys2Proof.Machine.execSctz o s
  | .smov o => Sys2Proof.Machine.execSmov o s
  | .ssel o => Sys2Proof.Machine.execSsel o s
  | .scmp cond o => Sys2Proof.Machine.execScmp cond o s
  | .srd g d k => Sys2Proof.Machine.execSrd g d k s
  | .srdFlags g d => Sys2Proof.Machine.execSrdFlags g d s
  | .srdFlagsClr g d b w1 => Sys2Proof.Machine.execSrdFlagsClr g d b w1 s
  | .vtos g d va b w1 => Sys2Proof.Machine.execVtos g d va b w1 s
  | .cdef g c b w1 => Sys2Proof.Machine.execCdef g c b w1 s
  | .cdrop g c => Sys2Proof.Machine.execCdrop g c s
  | .cquery g d c sel => Sys2Proof.Machine.execCquery g d c sel s
  | .hwait g n => Sys2Proof.Machine.execHwait g n s
  | .htest g d n => Sys2Proof.Machine.execHtest g d n s
  | .hcancel g n => Sys2Proof.Machine.execHcancel g n s
  | .hmovToHandle g n a w1 => Sys2Proof.Machine.execHmovToHandle g n a w1 s
  | .hmovFromHandle g d n => Sys2Proof.Machine.execHmovFromHandle g d n s
  | .hwaitany g d a w1 => Sys2Proof.Machine.execHwaitany g d a w1 s
  | .ld o => Sys2Proof.Machine.execLd o s
  | .ldAcq o => Sys2Proof.Machine.execLdAcq o s
  | .ldSp o => Sys2Proof.Machine.execLdSp o s
  | .ldS o => Sys2Proof.Machine.execLdS o s
  | .st o => Sys2Proof.Machine.execSt o s
  | .stRel o => Sys2Proof.Machine.execStRel o s
  | .stSp o => Sys2Proof.Machine.execStSp o s
  | .atom op o => Sys2Proof.Machine.execAtom op o s
  | .red op o => Sys2Proof.Machine.execRed op o s
  | .atomSp op o => Sys2Proof.Machine.execAtomSp op o s
  | .fence g ord sc => Sys2Proof.Machine.execFence g ord sc s
  | .prefetch o => Sys2Proof.Machine.execPrefetch o s
  | .waitv o => Sys2Proof.Machine.execWaitv o s
  | .l1flush g => Sys2Proof.Machine.execL1flush g s
  | .l1flushInv g => Sys2Proof.Machine.execL1flushInv g s
  | .bra g disp => Sys2Proof.Machine.execBra g disp s
  | .brd g disp rejoin => Sys2Proof.Machine.execBrd g disp rejoin s
  | .jmpv g a rejoin => Sys2Proof.Machine.execJmpv g a rejoin s
  | .call g disp => Sys2Proof.Machine.execCall g disp s
  | .callv g a => Sys2Proof.Machine.execCallv g a s
  | .ret g => Sys2Proof.Machine.execRet g s
  | .exit g => Sys2Proof.Machine.execExit g s
  | .safept idx => Sys2Proof.Machine.execSafept idx s
  | .nop g => Sys2Proof.Machine.execNop g s
  | .bar g b => Sys2Proof.Machine.execBar g b s
  | .barArv g b => Sys2Proof.Machine.execBarArv g b s
  | .barWt g b => Sys2Proof.Machine.execBarWt g b s
  | .cpy o => Sys2Proof.Machine.execCpy o s
  | .cpy2d o => Sys2Proof.Machine.execCpy2d o s
  | .cpyGth o isp iw => Sys2Proof.Machine.execCpyGth o isp iw s
  | .cpySct o isp iw => Sys2Proof.Machine.execCpySct o isp iw s
  | .cpyRed o op => Sys2Proof.Machine.execCpyRed o op s
  | .cpyFill o => Sys2Proof.Machine.execCpyFill o s
  | .cpyCvt o sat dec wide f => Sys2Proof.Machine.execCpyCvt o sat dec wide f s
  | .mcfg o => Sys2Proof.Machine.execMcfg o s
  | .mldw o rows row0 ssp bank bfmt => Sys2Proof.Machine.execMldw o rows row0 ssp bank bfmt s
  | .mldwNorm o ssp => Sys2Proof.Machine.execMldwNorm o ssp s
  | .mma o row0 kbm1 bank => Sys2Proof.Machine.execMma o row0 kbm1 bank s
  | .mzero o => Sys2Proof.Machine.execMzero o s
  | .mst o ty scaled relu long => Sys2Proof.Machine.execMst o ty scaled relu long s
  | .mmovFromTile o j m vr => Sys2Proof.Machine.execMmovFromTile o j m vr s
  | .mmovToTile o j m vr => Sys2Proof.Machine.execMmovToTile o j m vr s
  | .mtopk o k near => Sys2Proof.Machine.execMtopk o k near s
  | .mdist o => Sys2Proof.Machine.execMdist o s
  | .mbound o kbm1 => Sys2Proof.Machine.execMbound o kbm1 s
  | .mcount o kbm1 => Sys2Proof.Machine.execMcount o kbm1 s
  | .launch g hn sa => Sys2Proof.Machine.execLaunch g hn sa s
  | .evwait o => Sys2Proof.Machine.execEvwait o s
  | .evset o => Sys2Proof.Machine.execEvset o s
  | .evclr o => Sys2Proof.Machine.execEvclr o s
  | .cancelLaunch g sa => Sys2Proof.Machine.execCancelLaunch g sa s
  | .cancelGraph g sa => Sys2Proof.Machine.execCancelGraph g sa s
  | .cancelPhase g sa => Sys2Proof.Machine.execCancelPhase g sa s
  | .cancelJob o => Sys2Proof.Machine.execCancelJob o s
  | .cntrd sel o => Sys2Proof.Machine.execCntrd sel o s
  | .jobend sa => Sys2Proof.Machine.execJobend sa s
  | .trap g a w1 => Sys2Proof.Machine.execTrap g a w1 s
  | .sysrd g d n => Sys2Proof.Machine.execSysrd g d n s
  | .syswr g n b w1 => Sys2Proof.Machine.execSyswr g n b w1 s
  | .tlbinv g hn a b w1 => Sys2Proof.Machine.execTlbinv g hn a b w1 s
  | .ptwr g d a b w1 => Sys2Proof.Machine.execPtwr g d a b w1 s
  | .carve g hn a b w1 => Sys2Proof.Machine.execCarve g hn a b w1 s
  | .dirtyclr g hn a b c w1 => Sys2Proof.Machine.execDirtyclr g hn a b c w1 s
  | .handlerRestart w h => Sys2Proof.Machine.execHandlerRestart w h s
  | .spdmRequest => Sys2Proof.Machine.execSpdmRequest s
  | .thermalTrip => Sys2Proof.Machine.execThermalTrip s
  | .bridgeDown => Sys2Proof.Machine.execBridgeDown s
  | .hostLinkDown => Sys2Proof.Machine.execHostLinkDown s
  | .hostLinkUp => Sys2Proof.Machine.execHostLinkUp s
  | .domainCompletionTimeout => Sys2Proof.Machine.execDomainCompletionTimeout s
  | .systemReadTimeout => Sys2Proof.Machine.execSystemReadTimeout s
  | .sfuResult => Sys2Proof.Machine.execSfuResult s
  | .vtosResult => Sys2Proof.Machine.execVtosResult s
  | .mcountResult => Sys2Proof.Machine.execMcountResult s
  | .chainResultWrite => Sys2Proof.Machine.execChainResultWrite s
  | .matrixOpStart => Sys2Proof.Machine.execMatrixOpStart s
  | .matrixOpComplete => Sys2Proof.Machine.execMatrixOpComplete s
  | .allon => Sys2Proof.Machine.execAllon s
  | .alloff => Sys2Proof.Machine.execAlloff s
  | .phase => Sys2Proof.Machine.execPhase s
  | .rett => Sys2Proof.Machine.execRett s
  | .fltnext => Sys2Proof.Machine.execFltnext s
  | .halt => Sys2Proof.Machine.execHalt s

end Sys2Proof.Machine
end

