-- ==== Sys2Proof/Machine/Schedule.lean ====
section
/-! DEFINITION. What can happen next (R9, R93-R95): the issue of a split, the events that the state itself makes due or
possible, and the next cycle. Where several steps are possible a free value chooses (log 2). -/

namespace Sys2Proof.Machine

/-! ### The issue of a split -/

/-- Forget what a split has fetched over a link once it does not wait at that instruction any more. -/
def afterIssue (w : Nat) (sp : Fin 8) (s : State) : State :=
  if s.results.any fun r => r.warp == w && r.sp == sp && r.kind == .fetch then
    let waits : Bool := match findWarp s w with
      | some x => (match x.splits[sp] with | some y => y.st == .blocked && !y.susp | none => false)
      | none => false
    if waits then s else dropFetch s w sp
  else s

/-- Change the next state of an outcome. -/
def mapNext (o : Host.Outcome State Fault Refusal) (f : State → State) : Host.Outcome State Fault Refusal :=
  match o with
  | .next s => .next (f s)
  | .fault r => .fault r
  | .refused r => .refused r

/-- The fault of words that are no instruction (R97, R258). -/
def illegalFault (w : Warp) (x : Split) : Nat :=
  if w.halting && decide (Config.droughtLimit ≤ x.count) then 0x13 else 1

/-- Give a core the failed walks of the split that tries to issue, or none once it has tried. -/
def setFails (s : State) (k : Fin 384) (fs : List WalkFail) : State :=
  if s.cores[k].fails = fs then s else modCore s k fun x => { x with fails := fs }

/-- The reads of an instruction's words, once it has been taken from them (R150; log 7): each sector once. -/
def touchFetch (s t : State) (w : Warp) (pc : Word) (len : Nat) : State :=
  let one := fun (t : State) (a : Word) =>
    match fetchLook s w a with
    | .ok p =>
      (match localPa s w.core p with
        | some pa => touchBytes t w.core true (accOf s w.ctx 0 p) p pa 8
        | none => t)
    | _ => t
  let t := one t pc
  if len = 16 ∧ pc.toNat % 64 = 56 then one t (pc + 8) else t

/-- The state after an attempt of a split at an instruction: its words have been read where it has issued. -/
def afterTry (s : State) (x : Warp) (sp : Fin 8) (pc : Word) (len : Nat) (t : State) : State :=
  let t := setFails (afterIssue x.id sp t) x.core []
  if t.cores[x.core].issue[x.quad] = s.cores[x.core].issue[x.quad] then t else touchFetch s t x pc len

/-- RUN what a split stands at: fetch it, and execute it or take its fault. -/
def runSplit (w : Nat) (sp : Fin 8) (s : State) : Host.Outcome State Fault Refusal :=
  let idle := { s with turn := none }
  match findWarp s w with
  | none => .next idle
  | some x =>
    match x.splits[sp] with
    | none => .next idle
    | some y =>
      let s := setFails idle x.core y.fails
      match fetch s x sp y.pc with
      | .ok i => mapNext (exec i { s with turn := some (.issue w sp) }) (afterTry s x sp y.pc (instrLen i))
      | .illegal w0 =>
        .next (afterTry s x sp y.pc 8 (dropFetch (conclude s (issIllegal x sp y w0) (.fault (faultOf (illegalFault x y)))) w sp))
      | .stop f => .next (setFails (fetchStop s (issBare x sp y) f) x.core [])

/-- Whether a split may try to issue (R93, R96, R122, R123, R137, R252): its warp runs, and no handler, bracket, chained
result, suspension or halt holds it. -/
def mayTry (w : Warp) (sp : Fin 8) (x : Split) : Bool :=
  !w.ended && !w.halted && x.st != .parked && !x.susp && !x.held && (!w.halting || x.stop == .no) &&
  match w.handler, w.bracket with
  | some k, _ => k == sp
  | none, some (k, _) => k == sp
  | none, none => true

/-- Whether a warp is on its core, in a die that is online (R19): a job or fault-service warp with a warp slot, or a warp of a resident unit whose
state is there (R75, R102, R106). -/
def onCore (s : State) (w : Warp) : Bool :=
  match w.kind with
  | .unit u =>
    (match findUnit s u with | some x => (x.st == .resident || x.st == .retiring) && decide (x.since ≤ s.now) | none => false)
      && s.dies[coreDie w.core].dstate == .online
  | _ => w.sub.isSome && s.dies[coreDie w.core].dstate == .online

/-- A split that tries to issue, and what comes of it. -/
structure Try where
  w : Warp
  sp : Fin 8
  x : Split
  after : State
  issues : Bool
  deriving DecidableEq, Repr

/-- What an attempt of a split comes to; `issues` tells that an instruction issues, or that a fault is taken. -/
def attempt (s : State) (w : Warp) (sp : Fin 8) (x : Split) : Option Try :=
  match runSplit w.id sp s with
  | .next t => some { w := w, sp := sp, x := x, after := t, issues := t.cores[w.core].issue[w.quad] != s.cores[w.core].issue[w.quad] }
  | _ => none

/-- Every attempt that can be made. A warp that enters its handler issues nothing for the time of the entry (R252). -/
def attempts (s : State) : List Try :=
  s.warps.flatMap fun w =>
    if onCore s w && decide (w.entered ≤ s.now) then (validSplits w).filterMap fun y => if mayTry w y.1 y.2 then attempt s w y.1 y.2 else none else []

/-! ### The choice of a quadrant (R94) -/

/-- The item whose publish of occurrence `n` a consumer at item `x` awaits (R235): the nearest item before it that is neither closed nor past
that occurrence, as its warp and lane. -/
def openItem (s : State) (la : Launch) (ctx : Fin 64) (c : Fin 4) (n : Nat) : Nat → Nat → Option (Nat × Fin 32)
  | 0, _ => none
  | fuel + 1, x =>
    if x < chainK la c then none
    else
      let y := x - chainK la c
      let per := 32 * la.r.wpu
      let lane := Fin.ofNat 32 (y % 32)
      match (s.units.find? fun u => u.ctx == ctx && u.launch == la.id && u.index == y / per).bind fun u => warpOf s u.id (y % per / 32) with
      | none => none
      | some w =>
        let st := w.chain[c]
        if laneClosed w st lane.val then openItem s la ctx c n fuel y
        else if n < st.counts[lane] then none
        else some (w.id, lane)

/-- Whether a lane of a waiting split awaits the occurrence that a step publishes (R94). -/
def awaitsStep (s : State) (y : Try) (w : Warp) (x : Split) (o : VOp) (ch : Fin 4) : Bool :=
  match chainHome s w, findWarp y.after y.w.id with
  | some (u, la), some w' =>
    (Mask.lanes (x.mask &&& guardMask w o.g)).any fun l =>
      let n := w.chain[ch].counts[l]
      let item := (u.index * la.r.wpu + w.rank) * 32 + l.val
      match openItem s la w.ctx ch n (item + 1) item with
      | some (p, k) => p == y.w.id && decide (n < w'.chain[ch].counts[k])
      | none => false
  | _, _ => false

/-- Whether a split on a core waits for a publish of a step. -/
def awaited (s : State) (y : Try) : Bool :=
  s.warps.any fun w => w.core == y.w.core && w.ctx == y.w.ctx && (validSplits w).any fun z =>
    z.2.st == .blocked && z.2.stop == .blocking &&
    match (standsAt s w z.1 z.2).bind vform with
    | some f => (match cchOf f.o with | some ch => awaitsStep s y w z.2 f.o ch | none => false)
    | none => false

/-- Whether one attempt is chosen before another of its quadrant (R94). A warp's number is its place in the order of creation in the package,
which it keeps when it is restored: the spec does not say how warps are numbered (log 41). -/
def chosenBefore (s : State) (a b : Try) : Bool :=
  let late := fun (x y : Try) => x.x.overdue && !y.x.overdue
  let gives := fun (x y : Try) => !x.x.overdue && awaited s x && !awaited s y
  if late a b then true else if late b a then false
  else if gives a b then true else if gives b a then false
  else if a.x.age.toNat ≠ b.x.age.toNat then a.x.age.toNat < b.x.age.toNat
  else if a.w.id ≠ b.w.id then a.w.id < b.w.id
  else a.sp.val < b.sp.val

/-- Whether an attempt is the issue that its quadrant makes in this cycle. -/
def quadPick (s : State) (xs : List Try) (a : Try) : Bool :=
  a.issues && s.cores[a.w.core].lastIssue[a.w.quad] != some s.now &&
  !(xs.any fun b => b.issues && b.w.core == a.w.core && b.w.quad == a.w.quad && chosenBefore s b a)

/-! ### Events -/

/-- Whether an event changes the state. -/
def enabled (s : State) (e : Instr) : Bool :=
  match exec e s with
  | .next t => t != s
  | _ => false

/-- Events that a fixed time makes due (R83, R94, R97, R101, R213, R237, R238, R291, R328, R358). -/
def timedEvents (s : State) : List Instr :=
  let splits := s.warps.flatMap fun w => (validSplits w).map fun y => (w, y.1, y.2)
  [.vtosResult, .mcountResult, .chainResultWrite, .matrixOpComplete]
    ++ s.units.flatMap (fun u =>
        (s.warps.filter (inUnit u.id)).flatMap fun w => (List.finRange 4).map fun ch =>
          Instr.chainBufferFill u.id (Fin.ofNat 32 w.rank) ch w.chain[ch].filled)
    ++ (splits.filter fun y => decide (Config.overdueAfter ≤ y.2.2.idle)).map (fun y => Instr.overdueSplit y.1.id y.2.1)
    ++ (splits.filter fun y => y.1.halting && decide (Config.droughtLimit ≤ y.2.2.count)).map
        (fun y => Instr.safePointDrought y.1.id y.2.1)
    ++ (splits.filter fun y => y.2.2.st == .blocked && y.2.2.timer != 0).map (fun y => Instr.waitvReread y.1.id y.2.1)
    ++ (List.finRange 64).flatMap fun c =>
        (if s.ctxs[c].resvUnit.isSome then [Instr.dispatchReservation c] else [])
          ++ (if s.ctxs[c].st == .halting then (List.finRange 384).filterMap fun k =>
                match s.cores[k].swap with
                | some (d, _) => if d = c then some (Instr.coreSwapDone k c) else none
                | none => if haltComplete s c && k == 0 then some (Instr.coreSwapDone k c) else none
              else [])

/-- Events that take a time of their own, which the spec does not fix (log 14). -/
def freeEvents (s : State) : List Instr :=
  let live := (List.finRange 64).filter fun c => s.ctxs[c].st != .free
  [.sfuResult, .matrixOpStart]
    ++ (s.results.filter fun r => r.kind == .load).map (fun r => Instr.loadDataReturn r.id)
    ++ s.units.flatMap (fun u =>
        (s.warps.filter (inUnit u.id)).flatMap fun w => (List.finRange 4).map fun ch =>
          Instr.mailboxFill u.id ch w.chain[ch].filled)
    ++ s.copies.map (fun o => Instr.copyElement o.id)
    ++ s.mops.map (fun o => Instr.mldwRowWrite o.id)
    ++ s.maints.flatMap (fun o => [Instr.dirtyclrWord o.id, Instr.tlbinvComplete o.id])
    ++ (List.finRange 2).flatMap (fun d =>
        ((List.finRange 64).filter fun i => decide (i.val < s.dies[d].walks.length)).map (fun i => Instr.pageWalk d i)
          ++ (if s.starts[d].isEmpty then [] else [Instr.jobWarpStart d, Instr.faultServiceStart d]))
    ++ live.flatMap (fun c =>
        [Instr.unitDispatch c, Instr.unitRestore c]
          ++ (if s.ctxs[c].st == .halting then
                ((s.warps.filter fun w => w.ctx == c).map (·.core) ++ (s.units.filter fun u => u.ctx == c).map (·.core)).eraseDups.map
                  fun k => Instr.coreSwapStart k c
              else []))
    ++ s.units.map (fun u => Instr.unitRetire u.id)
    ++ s.carves.map (fun o => Instr.carveComplete o.core)
    ++ (List.range s.bridge.queue.length).map (fun i => Instr.bridgePacket i)
    ++ (List.finRange 2).map (fun d => Instr.bridgeAcknowledge d s.bridge.seq[d])

/-! ### The next step -/

/-- The path on which an input arrives, where the order of its inputs stands: the host link is 1, UALink 2 (R32, R41). -/
def inputPath : Instr → Nat
  | .registerWrite _ _ _ | .identityRegisterWrite _ _ | .fbaseWrite _ _ | .fretWrite _ _ | .contextEntryWrite _ _ _
  | .partitionEntryWrite _ _ _ | .startArgWrite _ _ _ _ | .inboundHostRead _ _ | .inboundHostWrite _ _ | .systemCompletion _ _ _
  | .coresOfflineRequest _ | .dieOfflineRequest _ | .bringUpRequest _ _ | .onlineRequest _ => 1
  | .domainRequestReceived _ _ _ | .relayForward _ | .domainCompletion _ _ _ => 2
  | _ => 0

/-- Take the oldest input that does not wait for the bridge; those behind one that waits on the same path wait with it (R26). `pre` holds
those that wait. -/
def takeInput (s : State) (pre : List Instr) : List Instr → Option State
  | [] => none
  | e :: r =>
    if pre.any fun x => inputPath x != 0 && inputPath x == inputPath e then takeInput s (pre ++ [e]) r
    else
      match exec e { s with inbox := pre ++ r } with
      | .next t => if t.inbox = e :: (pre ++ r) then takeInput s (pre ++ [e]) r else some t
      | _ => none

/-- Whether a split is the one that its quadrant chose in this cycle. -/
def chosenNow (s : State) (w : Warp) (x : Split) : Bool :=
  s.cores[w.core].lastIssue[w.quad] == some s.now && x.age == s.cores[w.core].issue[w.quad]

/-- A split after a cycle (R94): one that was ready and not chosen counts one more cycle. -/
def countIdle (s : State) (xs : List Try) (w : Warp) (sp : Fin 8) (x : Split) : Split :=
  if chosenNow s w x then { x with idle := 0 }
  else if xs.any fun a => a.issues && a.w.id == w.id && a.sp == sp then { x with idle := x.idle + 1 }
  else { x with idle := 0, overdue := false }

/-- The next cycle: splits count (R94), chain values settle (R238), launches that have come to their end go on (R79), lines are recalled (R161),
a die that closes goes on (R21), and the Drovers count (R83). -/
def tick (s : State) (xs : List Try) : State :=
  let warps := s.warps.map fun (w : Warp) =>
    noteSettled s { w with splits := tabulate 8 fun sp => w.splits[sp].map (countIdle s xs w sp) }
  countFirst (endCancels (finishAll (closeOn (recallDue { s with now := s.now + 1, warps := warps }) 1)))

/-- Steps of which one comes next: those that are due, or else an issue of each quadrant, an attempt that only waits, an
event of free time, the oldest input, or the next cycle once every quadrant that can issue in this one has (log 2). -/
def possibleSteps (s : State) (xs : List Try) : List State :=
  let run := fun (e : Instr) => match exec e s with | .next t => if t = s then none else some t | _ => none
  match (timedEvents s).filterMap run with
  | [] =>
    ((xs.filter fun a => quadPick s xs a || (!a.issues && a.after != s)).map (·.after))
      ++ (freeEvents s).filterMap run
      ++ (takeInput s [] s.inbox).toList
      ++ (if xs.any (quadPick s xs) then [] else [tick s xs])
  | due => due

/-- One step where nothing is settled: one of the candidates, or the next cycle. -/
def nextStep (s : State) : State :=
  let xs := attempts s
  match possibleSteps s xs with
  | [] => tick s xs
  | [t] => t
  | t :: ts => let t' := (t :: ts).getD (Config.choice s.choices % (ts.length + 1)) t; { t' with choices := s.choices + 1 }

end Sys2Proof.Machine
end

