-- ==== Sys2Proof/Machine/Place.lean ====
section
/-! DEFINITION. An instruction placed where the machine fetches next (log 6): a context, a warp that may execute it, the page
it lies on, and the turn. -/

namespace Sys2Proof.Machine

/-- The virtual and physical page that a placed instruction lies on, and its leaf: V, leaf, W, X, scope die, A, D. -/
def placeBase : Nat := 0x10000

/-- The leaf of the page of a placed instruction. -/
def placePte : Word := BitVec.ofNat 64 (2 ^ 17 + 0x18000 + 0x2F)

/-- A record that wants every resource, so that a unit's warp may execute every instruction that is not privileged. -/
def wideRecord : LRec :=
  { entry := BitVec.ofNat 64 placeBase, items := 32, wpu := 4, emask := 255, prio := 0, chm := 15, te := true, xc := true
    trapen := false, chain := true, ppw := 0, args := 0, cdef := 0, graph := 0, phase := 0, scrk := 64, tv := 0, ts := 0
    vregs := 16, acct := 8, resv := false, wait := 0, set := 0, words := [] }

/-- The launch of a placed unit. -/
def wideLaunch : Launch :=
  { id := 0, age := 0, r := wideRecord, cd := chainDef0, st := .running, status := 0, handle := 0, total := 1, next := 1
    retired := 0, cancel := false, fin := false }

/-- What kind of warp executes an instruction: a job warp for the work and system groups, a fault-service warp for
`fltnext`, and otherwise a warp of a unit. -/
def placeKind (i : Option Instr) (u : Nat) : WKind :=
  match i with
  | some .fltnext => .service 0 (some 0)
  | some i => if isWork i || isSystem i then .job else .unit u
  | none => .unit u

/-- Whether an instruction executes in handler mode only. -/
def placeHandler : Option Instr → Option (Fin 8)
  | some .rett => some 0
  | some (.sysrd _ _ n) | some (.syswr _ n _ _) => if trapStateReg n then some 0 else none
  | _ => none

/-- The warp of a placed instruction. A handler that it runs in serves a resumable cause. -/
def placeWarp (i : Option Instr) (id u : Nat) : Warp :=
  { newWarp id 0 0 0 (placeKind i u) 0 256 (BitVec.allOnes 32) 0 (BitVec.ofNat 64 placeBase) with
    sub := match placeKind i u with | .unit _ => none | _ => some 0
    handler := placeHandler i
    trec := tabulate 8 fun k => if k = 0 then BitVec.ofNat 64 (3 * 2 ^ 48) else 0 }

/-- Place an instruction of some bits as the next one to issue. -/
def placeWord (s : State) (nbits w : Nat) : State :=
  let i := decodeTableWord nbits w
  let (u, s) := fresh s
  let (id, s) := fresh s
  let g : Granules := { regs := 0, scr := 0, acc := 0 }
  let s := modCtx s 0 fun x => { x with st := .running, launches := [wideLaunch], launchCount := 1 }
  let s := modDie s 0 fun d => { d with dstate := .online }
  let s := coreEnter s 0 { ctx := 0, base := placeBase, size := 0x10000, pte := placePte, leafAt := 0 }
  { s with
    mem := writeN s.mem placeBase 16 (w % 2 ^ nbits)
    units := newUnit u 0 wideLaunch 0 0 g :: s.units
    warps := placeWarp i id u :: s.warps
    turn := some (.issue id 0) }

end Sys2Proof.Machine
end

