-- ==== Sys2Proof/Machine/Step.lean ====
section
/-! DEFINITION. One step of the machine: the event or the issue whose turn it is, or else whatever comes next. -/

namespace Sys2Proof.Machine

/-- One step. -/
def step (s : State) : Host.Outcome State Fault Refusal :=
  match s.turn with
  | some (.issue w sp) => runSplit w sp s
  | some (.event i) => exec i { s with turn := none }
  | none => .next (nextStep s)

/-- A state whose next step fetches and runs the instruction of some bits (log 6). -/
def State.withFetchWord (s : State) (nbits w : Nat) : State := placeWord s nbits w

end Sys2Proof.Machine
end

