-- ==== Sys2Proof/Safety.lean ====
section
/-! DEFINITION. The terms that the claims use: what a sound state is (memory in its canonical form, the partition table as
R56 and R57 leave it, the register that reads zero, R5), and what it is for an instruction to issue, to run through, to
stop at an exception and to wait. A run is safe where every state in it is sound and no step ends in a fault or a refusal. -/

namespace Sys2Proof.Machine

/-- Package memory has its canonical form. -/
def memoryOk (s : State) : Prop := Memory.wf s.mem = true

/-- Each island belongs to at most one valid partition, and each VF serves at most one (R56, R57). -/
def partitionsOk (s : State) : Prop :=
  ∀ m n : Fin 24, m ≠ n → s.parts[m].valid = true → s.parts[n].valid = true →
    s.parts[m].isl0 &&& s.parts[n].isl0 = 0 ∧ s.parts[m].isl1 &&& s.parts[n].isl1 = 0
      ∧ (s.parts[m].vf ≠ 0 → s.parts[m].vf ≠ s.parts[n].vf)

/-- No warp's `s0` holds anything but zero (R5). -/
def zeroOk (s : State) : Prop := ∀ w ∈ s.warps, w.s[0] = 0

/-- A sound state. -/
def sound (s : State) : Prop := memoryOk s ∧ partitionsOk s ∧ zeroOk s

/-- Whether an outcome is safe: a next state that is sound. -/
def safeOutcome (o : Host.Outcome State Fault Refusal) : Prop :=
  match o with
  | .next s => sound s
  | _ => False

/-! ### An instruction at issue -/

/-- The split `sp`, standing as `x`, of the warp `w` is the one whose turn it is in `s`. -/
structure AtIssue (s : State) (w : Warp) (sp : Fin 8) (x : Split) : Prop where
  turn : s.turn = some (.issue w.id sp)
  warp : findWarp s w.id = some w
  split : w.splits[sp] = some x

/-- The instruction `i` issues there, and nothing stops it before its own effect: its words are legal in that warp
(R75, R110, R244, R258), and no register that it names has a result on its way (R123). -/
structure Issues (i : Instr) (s : State) (w : Warp) (sp : Fin 8) (x : Split) : Prop extends AtIssue s w sp x where
  words : wordFault i s w x = none
  ready : pendingRegister w (namedOf i) = false

/-- The active lanes of an instruction at issue (R111). -/
def activeOf (i : Instr) (w : Warp) (x : Split) : Mask := x.mask &&& guardMask w (guardIn i)

/-- The state with the issue counted (R94, R97, R115), and nothing else done. -/
def counted (s : State) (w : Warp) (sp : Fin 8) : State := book { s with turn := none } w sp

/-- The state after an instruction whose effect left `t`: its split stands at the next instruction, and its warp has
parked, released or ended what R117, R118 and R112 say. -/
def thenNext (t : State) (i : Instr) (w : Warp) (sp : Fin 8) (x : Split) : State :=
  settle (goOn t w.id sp (x.pc + BitVec.ofNat 64 (instrLen i))) w.id

/-- The state after an instruction took the exception `f` with nothing of its effect done (R137, R245). A fault that names
no lane names the active ones, and a late one is no longer kept for its warp (R35). -/
def thenFault (s : State) (i : Instr) (w : Warp) (sp : Fin 8) (x : Split) (f : FaultInfo) : State :=
  conclude s (issOf i w sp x) (.fault f)

/-- The instruction runs through: `exec` answers the state in which its effect left `t`. -/
def RunsTo (i : Instr) (s : State) (w : Warp) (sp : Fin 8) (x : Split) (t : State) : Prop :=
  exec i s = .next (thenNext t i w sp x)

/-- The instruction runs through and changes its warp by `f` only: no other warp, no memory, no cache, no context. -/
def Writes (i : Instr) (s : State) (w : Warp) (sp : Fin 8) (x : Split) (f : Warp → Warp) : Prop :=
  RunsTo i s w sp x (modWarp (counted s w sp) w.id f)


end Sys2Proof.Machine
end

