-- ==== Sys2Proof/Certificates/Slice0/Obligations.lean ====
section
/-! DEFINITION. The statements about the model, for the provers. Words used in them: `Issues`, `RunsTo`, `Writes`, `thenNext`
and `thenFault` are those of Safety.lean. -/

namespace Sys2Proof.Claims

open Sys2Proof Sys2Proof.Machine

/-! ### Reads and writes of the register forms -/

/-- What a specifier reads in a lane, for an instruction at issue (R260). -/
def reads (i : Instr) (s : State) (w : Warp) (sp : Fin 8) (x : Split) (t : Ty) (imm : BitVec 32) (a : Src) (l : Fin 32) : Word :=
  srcVal s (issOf i w sp x) t imm a l

/-- Sub-element `k` of a value of a type (R6). -/
def sub (t : Ty) (v : Word) (k : Nat) : Nat := bitsOf v (k * tyWidth t) (tyWidth t)

/-- How many sub-elements of a type a register holds (R6). -/
def subCount (t : Ty) : Nat := 64 / tyWidth t

/-- The instruction writes `r` into `d` in its active lanes, ORs `fl` into the flag word, and changes nothing else. -/
def WritesV (i : Instr) (s : State) (w : Warp) (sp : Fin 8) (x : Split) (d : Fin 256) (r : Fin 32 → Word) (fl : BitVec 16) : Prop :=
  Writes i s w sp x fun y => setFlags (setV y d (activeOf i w x) r) fl

/-- Whether a lane is active. -/
abbrev inAct (i : Instr) (w : Warp) (x : Split) (l : Fin 32) : Prop := (activeOf i w x).getLsbD l.val = true

/-- The instruction writes `n` sub-elements of `wd` bits into `d` in each active lane, `(g l k).1` at `k` in lane `l`, and
zero above them, sets the flags that some `(g l k).2` has, and changes nothing else. -/
def WritesSubs (i : Instr) (s : State) (w : Warp) (sp : Fin 8) (x : Split) (d : Fin 256) (wd n : Nat)
    (g : Fin 32 → Nat → Nat × BitVec 16) : Prop :=
  ∃ r fl, WritesV i s w sp x d r fl
    ∧ (∀ l, inAct i w x l → ∀ k, k < n → bitsOf (r l) (k * wd) wd = (g l k).1 % 2 ^ wd)
    ∧ (∀ l, inAct i w x l → (r l).toNat < 2 ^ (n * wd))
    ∧ ∀ j, fl.getLsbD j = true ↔ ∃ l k, inAct i w x l ∧ k < n ∧ (g l k).2.getLsbD j = true

/-- A form whose chain fields are absent, or which has no active lane and so reads and publishes nothing (R234, R235). -/
abbrev Plain (i : Instr) (o : VOp) (w : Warp) (x : Split) : Prop := isChained o = false ∨ activeOf i w x = 0

/-- A value clamped to a type (R180). -/
def clampTo (t : Ty) (v : Int) : Int := max (intMin t) (min (intMax t) v)

/-- An exact result reduced to a type (R180): with SAT = 0 its low bits, with SAT = 1 clamped, SI set where that changed it. -/
def reduced (t : Ty) (sat : Bool) (v : Int) : Nat × BitVec 16 :=
  if sat then (lowBits (tyWidth t) (clampTo t v), if clampTo t v = v then 0 else flagSI) else (lowBits (tyWidth t) v, 0)

/-- The forms whose sub-elements are an exact integer result, reduced by R180 (R288, R292). -/
def exactForms : List ((VOp → Instr) × (Ty → Int → Int → Int → Int)) :=
  [ (.vadd, fun _ a b _ => a + b), (.vsub, fun _ a b _ => a - b), (.vmul, fun _ a b _ => a * b)
  , (.vmad, fun _ a b c => a * b + c), (.vabs, fun _ a _ _ => a.natAbs), (.vneg, fun _ a _ _ => -a)
  , (.vsad, fun _ a b c => c + (a - b).natAbs)
  , (.vshl, fun t a b _ => a * (2 ^ (b % (2 ^ tyWidth t : Nat)).toNat : Nat)) ]

/-- What the functions that act on bits make of the operands `a` and `b`, all of `tyWidth t` bits (R288, R292). -/
inductive BitFn where
  | and | or | xor | not | min | max | mulh | avg | shr | sra | rot | popc | clz | ctz | brev
  deriving DecidableEq, Repr

/-- That `r` is the result of a function on bits. -/
def BitFn.holds (f : BitFn) (t : Ty) (a b r : Nat) : Prop :=
  match f with
  | .and => r = a &&& b
  | .or => r = a ||| b
  | .xor => r = a ^^^ b
  | .not => r + a = 2 ^ tyWidth t - 1
  | .min => r = if intOf t a ≤ intOf t b then a else b
  | .max => r = if intOf t a ≤ intOf t b then b else a
  | .mulh => (r : Int) = intOf t a * intOf t b / (2 ^ tyWidth t : Nat) % (2 ^ tyWidth t : Nat)
  | .avg => (r : Int) = (intOf t a + intOf t b + 1) / 2 % (2 ^ tyWidth t : Nat)
  | .shr => r = a / 2 ^ b
  | .sra => (r : Int) = signedOf (tyWidth t) a / (2 ^ b : Nat) % (2 ^ tyWidth t : Nat)
  | .rot => ∀ j, j < tyWidth t → r.testBit ((j + b) % tyWidth t) = a.testBit j
  | .popc => r = ((List.range (tyWidth t)).filter fun j => a.testBit j).length
  | .clz => r ≤ tyWidth t ∧ a < 2 ^ (tyWidth t - r) ∧ (r < tyWidth t → 2 ^ (tyWidth t - r - 1) ≤ a)
  | .ctz => r ≤ tyWidth t ∧ a % 2 ^ r = 0 ∧ (r < tyWidth t → a.testBit r = true)
  | .brev => ∀ j, j < tyWidth t → r.testBit (tyWidth t - 1 - j) = a.testBit j

/-- The vector forms of the functions on bits. -/
def bitForms : List ((VOp → Instr) × BitFn) :=
  [ (.vand, .and), (.vor, .or), (.vxor, .xor), (.vnot, .not), (.vmin, .min), (.vmax, .max), (.vmulh, .mulh), (.vavg, .avg)
  , (.vshr, .shr), (.vsra, .sra), (.vrot, .rot), (.vpopc, .popc), (.vclz, .clz), (.vctz, .ctz), (.vbrev, .brev) ]

/-- The position and the length that a bit-field operand describes in a value of `n` bits (R288). -/
def fieldAt (n : Nat) (q : Word) : Nat × Nat :=
  (min (bitsOf q 0 8) n, min (bitsOf q 8 8) (n - min (bitsOf q 0 8) n))

/-- That `r` is the field of `a` that `q` describes, extended as the type says (R288). -/
def isField (t : Ty) (q : Word) (a r : Nat) : Prop :=
  let p := (fieldAt (tyWidth t) q).1
  let m := (fieldAt (tyWidth t) q).2
  ∀ j, j < tyWidth t → r.testBit j =
    (if j < m then a.testBit (p + j) else tySigned t && m != 0 && a.testBit (p + m - 1))

/-- That `r` is `a` with the field that `q` describes replaced by the low bits of `b` (R288). -/
def isInsert (t : Ty) (q : Word) (a b r : Nat) : Prop :=
  let p := (fieldAt (tyWidth t) q).1
  let m := (fieldAt (tyWidth t) q).2
  ∀ j, j < tyWidth t → r.testBit j = if p ≤ j ∧ j < p + m then b.testBit (j - p) else a.testBit j

/-! ### Floating-point forms -/

/-- The forms of OP 0x01 that compute and round one sub-element at a time (R295). -/
def floatForms : List ((VOp → Instr) × (Fmt → Rnd → Bool → Nat → Nat → Nat → Nat × BitVec 16)) :=
  [ (.vfadd, fun f r sat a b _ => fAdd f r sat a b), (.vfsub, fun f r sat a b _ => fSub f r sat a b)
  , (.vfmul, fun f r sat a b _ => fMul f r sat a b), (.vfma, fun f r sat a b c => fMa f r sat a b c)
  , (.vfmin, fun f _ _ a b _ => fMinMax f false a b), (.vfmax, fun f _ _ a b _ => fMinMax f true a b)
  , (.vfrnd, fun f r _ a _ _ => fRnd f r a) ]

/-- The special functions of OP 0x02 (R269, R303). -/
def sfuForms : List ((VOp → Instr) × SfuFn) :=
  [ (.vrcp, .rcp), (.vrsq, .rsq), (.vsqrt, .sqrt), (.vexp2, .exp2), (.vlog2, .log2), (.vsinpi, .sinpi), (.vcospi, .cospi)
  , (.vtanh, .tanh) ]

/-- The NaN that a sum of products into f32 gives for its operands (R195, R197): the first, in operand order, carried to f32
and made quiet. -/
def dotNan (f : Fmt) (xs : List Nat) (z : Nat) : Option Nat :=
  match xs.find? (fNan f) with
  | some x => some (carryNan f fmtF32 x)
  | none => if fNan fmtF32 z then some (fQuiet fmtF32 z) else none

/-- The bits of the class of a value (R296): one of bits 0 to 9. -/
def classBit (f : Fmt) (a : Nat) : Nat :=
  match fVal f a with
  | .nan => if fSnan f a then 8 else 9
  | .inf n => if n then 0 else 7
  | .num n m e =>
    if m = 0 then (if n then 3 else 4)
    else if e = 1 - (f.bias : Int) - f.mb ∧ m < 2 ^ f.mb then (if n then 2 else 5)
    else (if n then 1 else 6)

/-! ### Cross-lane forms -/

/-- The shuffles of R307 whose source lane depends on the lane and on B there. -/
def shuffles : List ((VOp → Instr) × (Nat → Word → Nat)) :=
  [ (.shuf, fun _ b => bitsOf b 0 5), (.shufRot, fun l b => (l + bitsOf b 0 5) % 32), (.shufBfly, fun l b => l ^^^ bitsOf b 0 5)
  , (.shufMirror, fun l b => l ^^^ (2 ^ min (bitsOf b 0 3) 5 - 1)) ]

/-- One step of an f32 scan, rounded to nearest even (R309). -/
def floatStep (op : RedOp) (t : Ty) (a b : Nat) : Nat × BitVec 16 :=
  match op with
  | .min => fMinMax (fmtOf t) false a b
  | .max => fMinMax (fmtOf t) true a b
  | _ => fAdd (fmtOf t) .rne false a b

/-- What an op makes of some sub-elements, lowest lane first, with its flags (R309): an integer add is exact and reduced once,
a floating step is rounded each time, and no value gives the identity. -/
def scanOf (op : RedOp) (t : Ty) (sat : Bool) : List Nat → Nat × BitVec 16
  | [] => (redIdentity op t, 0)
  | x :: xs =>
    if tyFloat t then
      xs.foldl (fun a y => ((floatStep op t a.1 y).1, a.2 ||| (floatStep op t a.1 y).2)) (x, 0)
    else
      match op with
      | .add => reduced t sat (((x :: xs).map (intOf t)).sum)
      | .min => (lowBits (tyWidth t) (xs.foldl (fun a y => min a (intOf t y)) (intOf t x)), 0)
      | .max => (lowBits (tyWidth t) (xs.foldl (fun a y => max a (intOf t y)) (intOf t x)), 0)
      | .and => (xs.foldl (· &&& ·) x, 0)
      | .or => (xs.foldl (· ||| ·) x, 0)
      | .xor => (xs.foldl (· ^^^ ·) x, 0)

/-- The active lanes up to a lane, lowest first; without that lane where the scan is exclusive (R309). -/
def lanesUpTo (i : Instr) (w : Warp) (x : Split) (excl : Bool) (l : Fin 32) : List (Fin 32) :=
  (List.finRange 32).filter fun m => (activeOf i w x).getLsbD m.val && (decide (m.val < l.val) || (!excl && m == l))

/-! ### Predicate and scalar forms -/

/-- The forms whose destination is a predicate, as functions of the active lanes and the operands over the lanes (R311). -/
def predForms : List ((POp → Instr) × (Mask → Mask → Mask → Fin 32 → Bool)) :=
  [ (.pand, fun _ a b l => a.getLsbD l.val && b.getLsbD l.val), (.por, fun _ a b l => a.getLsbD l.val || b.getLsbD l.val)
  , (.pxor, fun _ a b l => a.getLsbD l.val != b.getLsbD l.val), (.pnot, fun _ a _ l => !a.getLsbD l.val)
  , (.pmov, fun _ a _ l => a.getLsbD l.val)
  , (.voteAny, fun m a _ _ => decide (∃ k : Fin 32, m.getLsbD k.val = true ∧ a.getLsbD k.val = true))
  , (.voteAll, fun m a _ _ => decide (∀ k : Fin 32, m.getLsbD k.val = true → a.getLsbD k.val = true))
  , (.voteSame, fun m a _ _ => decide (∀ j k : Fin 32, m.getLsbD j.val = true → m.getLsbD k.val = true →
      a.getLsbD j.val = a.getLsbD k.val)) ]

/-- What a predicate operand reads over the lanes (R311). -/
def predRead (w : Warp) (a : PSrc) : Mask := if a.inv then ~~~(preg w a.p) else preg w a.p

/-- The instruction acts once for its warp where a lane is active and does nothing otherwise (R113): it changes the warp by
`f` and nothing else. -/
def WritesOnce (i : Instr) (s : State) (w : Warp) (sp : Fin 8) (x : Split) (f : Warp → Warp) : Prop :=
  RunsTo i s w sp x (if activeOf i w x = 0 then counted s w sp else modWarp (counted s w sp) w.id f)

/-- What a scalar specifier reads, for an instruction at issue (R263). -/
def readS (i : Instr) (s : State) (w : Warp) (sp : Fin 8) (x : Split) (w1 : Word) (a : SSrc) : Word :=
  ssrcVal s (issOf i w sp x) w1 a

/-- The low bits of a value, for a scalar form of a type (R289). -/
def low (t : Ty) (v : Word) : Nat := v.toNat % 2 ^ tyWidth t

/-- The scalar forms of an exact integer result (R289). -/
def exactScalars : List ((SOp → Instr) × (Ty → Int → Int → Int)) :=
  [ (.sadd, fun _ a b => a + b), (.ssub, fun _ a b => a - b), (.smul, fun _ a b => a * b)
  , (.sshl, fun t a b => a * (2 ^ (b % (2 ^ tyWidth t : Nat)).toNat : Nat)) ]

/-- The scalar forms of the functions on bits (R289). -/
def bitScalars : List ((SOp → Instr) × BitFn) :=
  [ (.smulh, .mulh), (.smin, .min), (.smax, .max), (.sand, .and), (.sor, .or), (.sxor, .xor), (.snot, .not), (.sshr, .shr)
  , (.ssra, .sra), (.spopc, .popc), (.sclz, .clz), (.sctz, .ctz) ]


/-! ### Other ways an instruction ends -/

/-- The instruction takes the exception `f` and has no effect of its own (R124, R137). -/
def Faults (i : Instr) (s : State) (w : Warp) (sp : Fin 8) (x : Split) (f : FaultInfo) : Prop :=
  exec i s = .next (thenFault { s with turn := none } i w sp x f)

/-- The instruction places its warp's splits itself and leaves `t`; the warp is then settled (R117, R118). -/
def Moves (i : Instr) (s : State) (w : Warp) (t : State) : Prop := exec i s = .next (settle t w.id)

/-- The instruction waits at a safe point (R93, R96) and leaves `t` but for that: nothing counts as issued. -/
def Rests (i : Instr) (s : State) (w : Warp) (sp : Fin 8) (x : Split) (t : State) : Prop :=
  exec i s = .next (block (unbook { s with turn := none } t w sp x) w.id sp .blocking)

/-- The instruction waits, not at a safe point. -/
def Waits (i : Instr) (s : State) (w : Warp) (sp : Fin 8) (x : Split) (t : State) : Prop :=
  exec i s = .next (block (unbook { s with turn := none } t w sp x) w.id sp .no)

/-- The instruction acts once for its warp where a lane is active (R113), leaving `t`, and otherwise only goes on. -/
def RunsOnce (i : Instr) (s : State) (w : Warp) (sp : Fin 8) (x : Split) (t : State) : Prop :=
  RunsTo i s w sp x (if activeOf i w x = 0 then counted s w sp else t)

/-! ### Frames -/

/-- The registers of a warp and the state that goes with them: all that is not its splits, records, return stack, bracket,
handler and halt. -/
def heldRegs (w : Warp) :=
  (w.v, w.s, w.p, w.h, w.flags, w.vpend, w.spend, w.chain, w.tags, w.last, w.trec, w.tepc, w.tmask, w.live, w.launched, w.late)

/-- A unit with its barriers forgotten. -/
def noBars (u : UnitSt) : UnitSt := { u with bars := always 16 { gen := 0, arr := 0 } }

/-- No rejoin deadlock follows an instruction that left `t` (R118). -/
def NoDeadlock (t : State) (i : Instr) (w : Warp) (sp : Fin 8) (x : Split) : Prop :=
  let g := goOn t w.id sp (x.pc + BitVec.ofNat 64 (instrLen i))
  ∀ y, findWarp g w.id = some y → deadlocked (settleWarp (issueCount g y) 128 y) = none

/-! ### Control flow -/

/-- Where a displacement leads (R266). -/
def target (x : Split) (d : BitVec 28) : Word := x.pc + 8#64 * d.signExtend 64

/-- Whether the guard has one value over the split's lanes (R313). -/
abbrev oneWay (i : Instr) (w : Warp) (x : Split) : Prop := activeOf i w x = 0 ∨ activeOf i w x = x.mask

/-- The splits of a warp that a division may use: its own entry and the free ones, lowest first (R116). -/
def seats (w : Warp) (sp : Fin 8) : List (Fin 8) := (List.finRange 8).filter fun k => k == sp || w.splits[k].isNone

/-- The union of the lanes of some groups. -/
def lanesOf (gs : List (Mask × Word)) : Mask := gs.foldl (fun m g => m ||| g.1) 0

/-- The groups of some lanes by the value of a function, in the order of their lowest lanes (R116). -/
structure GroupsOf (m : Mask) (f : Fin 32 → Word) (gs : List (Mask × Word)) : Prop where
  lanes : ∀ q ∈ gs, q.1 ≠ 0 ∧ ∀ l : Fin 32, q.1.getLsbD l.val = true ↔ m.getLsbD l.val = true ∧ f l = q.2
  all : ∀ l : Fin 32, m.getLsbD l.val = true → ∃ q ∈ gs, q.2 = f l
  order : gs.Pairwise fun a b => a.2 ≠ b.2 ∧ ∃ l : Fin 32, a.1.getLsbD l.val = true ∧ ∀ k : Fin 32, b.1.getLsbD k.val = true → l < k

/-- A return stack once some lanes have left their top entries, which are `tops` of them (R120, R121). -/
def Popped (st : List RetEntry) (m : Mask) (tops : Fin 32 → RetEntry) (rs : List RetEntry) : Prop :=
  ∃ at_ : Fin 32 → Nat, (∀ l : Fin 32, m.getLsbD l.val = true → st[at_ l]? = some (tops l) ∧ (tops l).mask.getLsbD l.val = true ∧
      ∀ (j : Nat) (e : RetEntry), at_ l < j → st[j]? = some e → e.mask.getLsbD l.val = false) ∧
    ∃ ys : List RetEntry, rs = (ys.filter fun e => e.mask != 0) ∧ ys.length = st.length ∧
      ∀ (j : Nat) (e : RetEntry), st[j]? = some e → ∃ e', ys[j]? = some e' ∧ e'.link = e.link ∧
        ∀ l : Fin 32, e'.mask.getLsbD l.val = (e.mask.getLsbD l.val && !(m.getLsbD l.val && at_ l == j))

/-- The issuing split and its warp once the issue is counted (R94, R97, R115). -/
def countedSplit (s : State) (w : Warp) (x : Split) : Split :=
  { x with age := s.cores[w.core].issue[w.quad] + 1, dr := false, idle := 0, overdue := false, fails := []
           count := if w.halting then x.count + 1 else x.count }

/-- A word of an instruction that lies at `pa` in this package, as a fetch of the warp's die reads it (R149): of a sector of the other
die, the copy that its own die holds. -/
def wordAt (s : State) (w : Warp) (p : Spot) (pa : Nat) : Word :=
  BitVec.ofNat 64 (if p.kind = .package then sectorBytes (l2Peek s (coreDie w.core) false) 9 pa 8 else readN s.mem pa 8)

/-! ### Words of the spec's encodings -/

/-- Some words, written from the encoding tables and examples of the spec, and what they are. -/
def knownWords : List (Word × Word × Instr) :=
  [ (0x0800000040103700#64, 0#64, .vadd
      { g := { pred := 7, inv := false }, rnd := .rne, sat := true, ty := .i8, d := 3, a := .v 1, b := .v 2, c := .v 0
        imm := 0, chain := Chain.off })
  , (0x0000205000B02720#64, 0#64, .ld
      { g := { pred := 7, inv := false }, ty := .n32, e := true, n := 0, h := 0, oe := false, off := 0, base := 11, data := 2
        disp := .short 0 })
  , (0x0020205860803722#64, 0#64, .st
      { g := { pred := 7, inv := false }, ty := .n32, e := true, n := 0, h := 0, oe := true, off := 12, base := 8, data := 3
        disp := .short 16 })
  , (0x0004F0000B807716#64, 0#64, .hwaitany { pred := 7, inv := false } 7 (.int 56) 0)
  , (0x0003F00910314716#64, 0#64, .hmovFromHandle { pred := 7, inv := false } 20 3) ]

/-! ### Handles and ordering -/

/-- The state in which a warp has taken a handle of a new operation in a register (R126), and the handle. -/
def given (s : State) (w : Warp) (hn : Fin 16) (cls eng : Nat) : BitVec 32 × State :=
  ((newHandle s w cls eng).1, modWarp (newHandle s w cls eng).2 w.id fun y => setH y hn (newHandle s w cls eng).1)

/-- The state after an acquire of a warp at a scope, once its link reads have returned (R165). -/
def acquired (t : State) (w : Warp) (sc : Scope) : State := if sc = .core then t else l1DropClean t w.core wideLine

/-- The state after the write-backs of a release of a warp at a scope (R165). -/
def cleaned (t : State) (w : Warp) (sc : Scope) : State := if sc = .core then t else l1Clean t w.core wideLine

/-- No read or atomic of a warp is outstanding on a link. -/
abbrev NoLinkReads (s : State) (w : Warp) : Prop := s.links.any (linkReadOf w.id) = false

/-- No domain write of a warp of a context, and no atomic of it on either link, is outstanding (R34, R161, R326). -/
abbrev NoFarWrites (s : State) (c : Fin 64) : Prop :=
  ∀ l ∈ s.links, l.ctx = c → l.copy = none → l.kind = .read ∨ l.kind = .flush ∨ (l.sys = true ∧ l.kind = .write)

/-- No write or atomic of a warp's context, and no flushing read, is outstanding on a link, and none of its writes to the host waits to be
sent (R34, R39). -/
abbrev NoPosted (s : State) (w : Warp) : Prop :=
  (∀ l ∈ s.links, (l.ctx = w.ctx ∨ l.warp = w.id) → l.copy = none → l.kind = .read) ∧
    ∀ y ∈ s.host.held, y.owner = some w.ctx → ∀ fn tag a data, y.msg ≠ .write fn tag a data

/-- No line of a core's L1 that a test takes has a dirty byte: what a write-back leaves where nothing keeps its lines (R26, R27). -/
abbrev NoDirty (s : State) (k : Fin 384) (p : L1Line → Bool) : Prop := ∀ l ∈ s.cores[k].l1, p l = true → l.dirty = 0

/-- No dirty line of a core's L1 is out of reach of its home slice, so that none is lost (R21, R27). -/
abbrev NothingLost (s : State) (k : Fin 384) : Prop := ∀ l ∈ s.cores[k].l1, l.dirty = 0 ∨ lineReach s (coreDie k) l.line = true

/-- The bridge carries, and no dirty line of an L1 is out of reach of its home slice. -/
abbrev AllReach (s : State) : Prop := s.bridge.down = false ∧ ∀ k, NothingLost s k

/-- A message to the host has been sent, or is held for the link, the bridge or its function's 64 places (R26, R42). -/
abbrev Tells (t : State) (m : HostMsg) : Prop := m ∈ t.hostOut ∨ ∃ y ∈ t.host.held ++ t.host.owed, y.msg = m

/-- What a die sends reaches the host port: it is die 0, or the bridge is up (R10, R27). -/
abbrev Hears (s : State) (d : Fin 2) : Prop := d = 0 ∨ s.bridge.down = false

/-- The host reaches the package (R42, R49): its link is up, and die 0 runs a product image. -/
abbrev HostServed (s : State) : Prop := s.host.up = true ∧ s.dies[(0 : Fin 2)].dstate ≠ .dieOffline

/-- The fault buffer of a die has a slot free (R249). -/
abbrev SlotFree (s : State) (d : Fin 2) : Prop := (freeSlot s.dies[d].slots Config.faultSlots 0).isSome = true

/-- The scope at which a wait acquires what an operation wrote (R172, R335). -/
def waitScope (s : State) (w : Warp) (e : HEntry) : Scope := if e.cls = 3 then widest s.ctxs[w.ctx] else e.wscope

/-- A launch that was cancelled, whose wait makes no acquire (R335). -/
abbrev CancelledLaunch (e : HEntry) : Prop := e.cls = 3 ∧ e.st = .cancelled

/-- What a wait that finds a final entry may go on with: no fault recorded, and the acquire, where it makes one, can be made. -/
def GoesOn (s : State) (w : Warp) (e : HEntry) : Prop :=
  CancelledLaunch e ∨
    ((e.st = .done ∨ e.st = .cancelled) ∧ NoLinkReads s w ∧ (waitScope s w e = .system → s.host.up = true))

/-- The state once a wait has acquired what its operation wrote (R172, R335). -/
def waited (s t : State) (w : Warp) (e : HEntry) : State := if CancelledLaunch e then t else acquired t w (waitScope s w e)

/-- The fault that a wait takes from a faulted entry (R127, R245). -/
def handleFault (e : HEntry) : FaultInfo :=
  { faultOf e.cause with va := e.va, pte := e.pte, handle := handleValue e, elem := e.elem, hnd := true }

/-- A byte of a line of L1. -/
def lineByte (l : L1Line) (k : Nat) : Byte := BitVec.ofNat 8 (l.data.toNat >>> (8 * k))

/-- The byte that a core's L1 holds of a physical address, where it holds its sector. -/
def heldByte (s : State) (c : Fin 384) (a : Nat) : Option Byte :=
  match l1Find s c (a / 256) with
  | some l => if l.valid.getLsbD (a / 64 % 4) then some (lineByte l (a % 256)) else none
  | none => none

/-! ### Exceptions and the system group -/

/-- The value of a system register (R247). -/
def systemRegister (s : State) (w : Warp) (n : SysReg) : Word :=
  match n with
  | .trec k => w.trec[k]
  | .tepc => w.tepc
  | .tmask => w.tmask
  | .route => s.ctxs[w.ctx].route
  | .tvec => s.ctxs[w.ctx].tvec
  | .svec => s.ctxs[w.ctx].svec

/-- A maintenance operation at its issue (R372, R374). -/
def newMaint (id : Nat) (w : Warp) (h : BitVec 32) (k : MaintKind) : Maint :=
  { id := id, ctx := w.ctx, handle := h, kind := k, i := 0, faulted := false, core := w.core, tags := [], old := none
    sysw := none, bad := none, ending := none }

/-! ### Memory accesses -/

/-- The spots of the active lanes, lane after lane and part after part. -/
def spotsOf (m : Mask) (parts : Nat) (q : Fin 32 → Nat → Spot) : List (Fin 32 × Spot) :=
  m.lanes.flatMap fun l => (List.range parts).map fun j => (l, { q l j with part := j })

/-- A spot passes some checks, which leave it as it is. -/
def Passes (stages : List (Spot → Look)) (p : Spot) : Prop := ∀ f ∈ stages, f p = .ok p

/-- Every address of the active lanes translates, to the spots `q`, and each spot passes every further check: those of R133, its
reach (R21, R26, R27, R35, R42) and the data found there (R52, R144). -/
def Clear (i : Instr) (w : Warp) (x : Split) (parts : Nat) (look : Fin 32 → Nat → Look) (stages : Fin 32 → List (Spot → Look))
    (q : Fin 32 → Nat → Spot) : Prop :=
  ∀ l, inAct i w x l → ∀ j, j < parts → look l j = .ok (q l j) ∧ Passes (stages l) { q l j with part := j }

/-- Every spot lies in this package, so that no link is used. -/
abbrev AllLocal (s : State) (w : Warp) (ps : List (Fin 32 × Spot)) : Prop := ∀ p ∈ ps, (localPa s w.core p.2).isSome = true

/-- The page of every spot has its D bit set in the cached translation, and is not tracked in a dirty bitmap, so that a store marks
nothing (R65, R134). -/
abbrev AllDirty (ps : List (Fin 32 × Spot)) : Prop := ∀ p ∈ ps, pteD p.2.e.pte = true ∧ pteDte p.2.e.pte = false

/-- No result of a link waits for the split of an instruction at issue. -/
abbrev NoLinkResult (s : State) (w : Warp) (sp : Fin 8) : Prop := ∀ r ∈ s.results, ¬ (r.warp = w.id ∧ r.sp = sp ∧ r.kind = .link)

/-- The state of what an instruction has asked of its links (R35): `r` is what has come back, in `t`. -/
def LinksBack (t : State) (c : Iss) (ps : List (Fin 32 × Spot)) (r : Option Result) (t' : State) : Prop :=
  (r = none ∧ t' = t ∧ ∀ p ∈ ps, (localPa t c.w.core p.2).isSome = true) ∨
  (∃ y, r = some y ∧ linkedOf t c = .got y ∧ t' = dropLinkResult t c ∧ ∃ p ∈ ps, (localPa t c.w.core p.2).isSome = false)

/-- The unit of a warp and the bytes of its scratch (R128): the access of every active lane lies in them, aligned. -/
def InScratch (i : Instr) (s : State) (w : Warp) (x : Split) (o : MOp) (u : UnitSt) : Prop :=
  unitOf s w = some u ∧ ∃ la, launchOf s u = some la ∧ ∀ l, inAct i w x l →
    laneOffset w o l + accBytes o ≤ la.r.scrk * 1024 ∧ laneOffset w o l % partBytes o = 0

/-- What a load puts in a register from the bytes of an element (R320). -/
def extended (t : Ty) (v : Nat) : Word :=
  if t ∈ [Ty.i8, .i16, .i32, .i64] then wordOfInt (signedOf (tyWidth t) v) else BitVec.ofNat 64 (v % 2 ^ tyWidth t)

/-- A load's results are on their way to its registers, which are pending (R123): `val l j` is the value of register `j` for
lane `l`. -/
def LoadSent (t : State) (s : State) (c : Iss) (regs : List (Fin 256)) (val : Fin 32 → Nat → Word) : Prop :=
  ∃ r : Result, t.results = s.results ++ [r] ∧ r.kind = .load ∧ r.warp = c.w.id ∧ r.sp = c.sp ∧ r.mask = c.act ∧ r.holds = false ∧
    r.vw.map (·.1) = regs ∧ (∀ j p, r.vw[j]? = some p → ∀ l, c.act.getLsbD l.val = true → p.2[l] = val l j) ∧
    ∀ y, findWarp t c.w.id = some y → ∀ d ∈ regs, y.vpend.getLsbD d.val = true

/-- The unsigned value of an operand of an atomic (R325). -/
def atomOperand (w : Warp) (o : MOp) (k : Nat) (l : Fin 32) : Nat :=
  (vreg w (Fin.ofNat 256 (o.data.val + k)) l).toNat % 2 ^ tyWidth o.ty

/-- The new value of an atomic (R325), from the old one and its operands. -/
def atomResult (op : AtomOp) (t : Ty) (old a b : Nat) : Nat :=
  match op with
  | .add => if tyFloat t then (fAdd (fmtOf t) .rne false old a).1 else (old + a) % 2 ^ tyWidth t
  | .min => if intOf t old ≤ intOf t a then old else a
  | .max => if intOf t old ≤ intOf t a then a else old
  | .and => old &&& a
  | .or => old ||| a
  | .xor => old ^^^ a
  | .xchg => a
  | .cas => if old = a then b else old

/-- The scratch after the active lanes' atomics in ascending order, and the old values they read (R326). -/
def scratchAtomics (op : AtomOp) (w : Warp) (o : MOp) : List (Fin 32) → Memory → List Nat × Memory
  | [], m => ([], m)
  | l :: ls, m =>
    let old := readN m (laneOffset w o l) (tyBytes o.ty)
    let rest := scratchAtomics op w o ls
      (writeN m (laneOffset w o l) (tyBytes o.ty)
        (atomResult op o.ty old (atomOperand w o 0 l) (if op = .cas then atomOperand w o 1 l else 0)))
    (old :: rest.1, rest.2)

/-! ### Chained forms -/

/-- The forms that compute one sub-element at a time at one width. -/
def subForms : List ((VOp → Instr) × (VOp → Nat → Nat → Nat → Nat × BitVec 16)) :=
  exactForms.map (fun p => (p.1, fun o a b c => reduced o.ty o.sat (p.2 o.ty (intOf o.ty a) (intOf o.ty b) (intOf o.ty c))))
    ++ floatForms.map fun p => (p.1, fun o a b c => p.2 (fmtOf o.ty) o.rnd o.sat a b c)

/-- The channels of a form may be used by a warp of a launch in some lanes (R235, R242): each is enabled, k is the
launch's, and a publishing lane is not closed and can count. -/
def ChainLegal (w : Warp) (la : Launch) (o : VOp) (act : Mask) : Prop :=
  (o.chain.csrc ≠ .none → chainOn la o.chain.cch = true ∧ la.cd.km1[o.chain.cch] = o.chain.km1.val) ∧
  ∀ ch, o.chain.pub = some ch → chainOn la ch = true ∧
    ∀ l : Fin 32, act.getLsbD l.val = true → laneClosed w w.chain[ch] l.val = false ∧ w.chain[ch].counts[l] < 2 ^ 32 - 1

/-- What a position of a chained form reads in a lane: `v` where it is the chained source (R234). -/
def chainArg (i : Instr) (s : State) (w : Warp) (sp : Fin 8) (x : Split) (o : VOp) (pos : CSrc) (a : Src) (v : Word) (l : Fin 32) :
    Word :=
  if o.chain.csrc = pos then v else reads i s w sp x o.ty o.imm a l

/-- Cycles that a chained form's result takes beyond the usual (R237): 6 for a scan, 32 by ripple, none for a publish
alone. -/
def extraCycles (i : Instr) (o : VOp) : Nat :=
  if o.chain.csrc = .none then 0
  else if o.chain.pub = some o.chain.cch ∧
      (i = .vfadd o ∨ (o.sat = false ∧ i ∈ [Instr.vadd o, .vmin o, .vmax o, .vand o, .vor o, .vxor o])) then 6
  else 32

/-- The channel states of a warp as the active lanes act one by one (R236): `ws l` is the warp before lane `l`, which reads
`v l` and whose destination becomes `r l`. -/
structure LaneByLane (t : State) (w : Warp) (u : UnitSt) (la : Launch) (o : VOp) (act : Mask) (v r : Fin 32 → Word) (ws : Nat → Warp) :
    Prop where
  start : ws 0 = w
  idle : ∀ l : Fin 32, act.getLsbD l.val = false → ws (l.val + 1) = ws l.val
  read : ∀ l : Fin 32, act.getLsbD l.val = true → o.chain.csrc ≠ .none →
    chainRead t (ws l.val) (ws l.val).chain[o.chain.cch] u la o.chain.cch l = .val (v l)
  pub : ∀ l : Fin 32, act.getLsbD l.val = true → ws (l.val + 1) =
    match o.chain.pub with
    | some ch => setChan (ws l.val) ch (publish (ws l.val).chain[ch] l (r l))
    | none => ws l.val

/-- Lane `j` channels below a lane, in steps of `k`. -/
def below (l : Fin 32) (k j : Nat) : Fin 32 := Fin.ofNat 32 (l.val - j * k)

/-- Occurrence `n` of a lane is not published, and its item is closed (R235). -/
def Skipped (w : Warp) (st : ChanSt) (n : Nat) (m : Fin 32) : Prop := st.counts[m] ≤ n ∧ laneClosed w st m.val = true

/-! ### Expand contexts -/

/-- The warp is a participant of an open context of its unit, and has not executed `xend`. -/
def Participates (s : State) (w : Warp) (x : Fin 4) (u : UnitSt) (k : XCtx) (p : XPart) : Prop :=
  unitOf s w = some u ∧ u.xctx[x] = k ∧ k.st = .opened ∧ partOf k w.id = some p ∧ p.ended = false

/-- What an `xbegin` reads as G (R229): the value of the lowest active lane, or of the lowest lane of the split where none is
active. -/
def ReadsG (i : Instr) (s : State) (w : Warp) (sp : Fin 8) (x : Split) (imm : BitVec 32) (n : Src) (g : Nat) : Prop :=
  ∃ l, g = (reads i s w sp x .b64 imm n l).toNat ∧
    ((inAct i w x l ∧ ∀ m, inAct i w x m → l ≤ m) ∨
      (activeOf i w x = 0 ∧ x.mask.getLsbD l.val = true ∧ ∀ m : Fin 32, x.mask.getLsbD m.val = true → l ≤ m))

/-- The participant that a warp becomes at an `xbegin` (R223): its active lanes bring their starts and lengths. -/
def arrival (i : Instr) (w : Warp) (sp : Fin 8) (x : Split) (st ln : Fin 256) : XPart :=
  { warp := w.id, rank := w.rank, rounds := 0, ord := 0, ended := false, live := w.live, split := sp
    start := tabulate 32 fun l => if (activeOf i w x).getLsbD l.val then vreg w st l else 0
    len := tabulate 32 fun l => if (activeOf i w x).getLsbD l.val then (vreg w ln l).toNat else 0 }

/-- What a delivery makes of an owner's sub-element and the contributions to it, in ascending position (R225). -/
def delivered (op : RedOp) (t : Ty) (sat : Bool) (old : Nat) (vs : List Nat) : Nat :=
  if tyFloat t then (floatStep op t old (scanOf op t sat vs).1).1 else (scanOf op t sat (old :: vs)).1

/-- The lanes of a warp that contribute to an owner in a round (R225). -/
def contributorsTo (w : Warp) (g : Guard) (x : Fin 4) (rw o : Nat) : List (Fin 32) :=
  (List.finRange 32).filter fun l => (w.live &&& guardMask w g).getLsbD l.val &&
    (match w.tags[l] with | some t => t.x == x && t.round == rw && t.owner == o | none => false)

/-! ### Copies -/

/-- The copy forms, and what each copies (R343, R345, R346). -/
def copyKind : Instr → Option (COp × CKind)
  | .cpy o => some (o, .plain)
  | .cpy2d o => some (o, .twoD)
  | .cpyGth o isp iw => some (o, .gather isp iw)
  | .cpySct o isp iw => some (o, .scatter isp iw)
  | .cpyRed o op => some (o, .reduce op)
  | .cpyFill o => some (o, .fill)
  | .cpyCvt o sat dec wide f => some (o, if dec then .decode sat wide f else .encode sat wide f)
  | _ => none

/-- A copy as it is queued at issue: the values of its registers (R341). -/
def queuedCopy (w : Warp) (o : COp) (k : CKind) (id : Nat) (h : BitVec 32) (eng : Nat) : CopyOp :=
  { id := id, ctx := w.ctx, handle := h, eng := eng, core := w.core, kind := k, ssp := o.ssp, dsp := o.dsp
    unit := match w.kind with | .unit u => some u | _ => none
    h := o.h, ty := o.ty, a := sreg w o.sa, b := sreg w o.sb, c := sreg w o.sc, d := sreg w o.sd
    i := 0, slot := none, faulted := false, tags := [], buf := [], sent := false, sysw := none, bad := none, ending := none, checked := none }

/-- Operations in the queue of a copy engine: not those that a fault has stopped, nor those whose checkpoint stands aside with a halted context
or with a unit that is saved away (R102, R341). -/
def queueOf (s : State) (eng : Nat) : List CopyOp :=
  s.copies.filter fun y => y.eng == eng && !y.faulted && s.ctxs[y.ctx].st != .halted &&
    !((y.unit.bind (findUnit s)).any fun u => u.st == .swapped)

/-- The first global operand of a copy, among destination, source and index array (R341). -/
def firstOperand (w : Warp) (o : COp) (k : CKind) : Option Word :=
  if o.dsp = false then some (sreg w o.sb)
  else if o.ssp = false ∧ k ≠ .fill then some (sreg w o.sa)
  else
    match k with
    | .gather false _ | .scatter false _ => some (sreg w o.sd)
    | _ => none

/-- A copy operation whose every operand lies in the scratch of its unit. -/
def InUnit (s : State) (o : CopyOp) (u : UnitSt) (size : Nat) : Prop :=
  findUnit s u.id = some u ∧ o.unit = some u.id ∧ o.dsp = true ∧ (o.ssp = true ∨ o.kind = .fill) ∧
  (∀ isp iw, o.kind = .gather isp iw ∨ o.kind = .scatter isp iw → isp = true) ∧
  (∃ la, launchOf s u = some la ∧ la.r.scrk * 1024 = size) ∧ ∀ f sat wide, o.kind ≠ .encode sat wide f ∧ o.kind ≠ .decode sat wide f

/-- A scratch offset of an address (R128). -/
def offset (a : Word) : Nat := a.toNat % 2 ^ 32

/-- The index that element `e` of a gather or scatter reads in scratch (R343). -/
def indexAt (m : Memory) (o : CopyOp) (e : Nat) : Nat :=
  match o.kind with
  | .gather _ iw | .scatter _ iw =>
    if iw then readN m (offset (o.d + BitVec.ofNat 64 (8 * e))) 8 else readN m (offset (o.d + BitVec.ofNat 64 (4 * e))) 4
  | _ => 0

/-- src_e and dst_e of the raw forms (R343). -/
def placesOf (o : CopyOp) (e idx : Nat) : Word × Word :=
  let n := tyBytes o.ty
  let m := fun (k : Nat) => BitVec.ofNat 64 (k * n)
  match o.kind with
  | .twoD =>
    let c := bitsOf o.c 0 32
    let row := BitVec.ofNat 64 (e / c)
    (o.a + row * wordOfInt (signedOf 32 (bitsOf o.d 0 32)) + m (e % c), o.b + row * wordOfInt (signedOf 32 (bitsOf o.d 32 32)) + m (e % c))
  | .gather _ _ => (o.a + m idx, o.b + m e)
  | .scatter _ _ => (o.a + m e, o.b + m idx)
  | _ => (o.a + m e, o.b + m e)

/-- The value that element `e` writes: the source's bytes, a fill's value, or what a reduction makes of both (R343, R345). -/
def copyValue (m : Memory) (o : CopyOp) (src dst : Nat) : Nat :=
  let n := tyBytes o.ty
  let v := if o.kind = .fill then o.a.toNat % 2 ^ (8 * n) else readN m src n
  match o.kind with
  | .reduce op => atomResult (credAtom op) o.ty (readN m dst n) v 0
  | _ => v

/-! ### Term engines -/

/-- The engine of a matrix instruction may be used by a warp (R349): its unit has it, and it is of the warp's quadrant. -/
def EngineOk (s : State) (w : Warp) (o : XOp) (u : UnitSt) : Prop :=
  unitOf s w = some u ∧ ∃ la, launchOf s u = some la ∧ la.r.emask.getLsbD o.e.val = true ∧ o.e.val / 2 = w.quad.val

/-- The matrix instructions that enter a queue: what each does, and the tile and bank that it names (R352-R357). -/
def matrixKind (w : Warp) : Instr → Option (XOp × MKind × Option (Fin 8) × Option (Fin 2))
  | .mldw o rows row0 ssp bank bfmt => some (o, .ldw rows.toNat row0.toNat ssp bfmt.toNat, none, some bank)
  | .mldwNorm o ssp => some (o, .norm ssp, none, none)
  | .mma o row0 kbm1 bank => some (o, .mma row0.toNat (kbm1.val + 1), some o.t, some bank)
  | .mzero o => some (o, .zero, some o.t, none)
  | .mst o ty scaled relu _ => some (o, .st ty scaled relu, some o.t, none)
  | .mmovFromTile o j m vr => some (o, .fromTile j.val m.val vr.val, some o.t, none)
  | .mmovToTile o j m vr => some (o, .toTile j.val m.val w.v[vr], some o.t, none)
  | .mtopk o k near => some (o, .topk k.toNat near, some o.t, none)
  | .mdist o => some (o, .dist, some o.t, none)
  | _ => none

/-- A matrix operation as it is queued at issue (R205, R213). -/
def queuedMat (i : Instr) (w : Warp) (x : Split) (u : UnitSt) (o : XOp) (k : MKind) (tile : Option (Fin 8)) (bank : Option (Fin 2))
    (id : Nat) (h : BitVec 32) (now : Nat) : MatOp :=
  { id := id, ctx := w.ctx, unit := u.id, e := o.e, kind := k, tile := tile, bank := bank, handle := h, warp := w.id
    active := activeOf i w x, cfg := u.engs[o.e].cfg, a := sreg w o.sa, b := sreg w o.sb, c := sreg w o.sc, d := sreg w o.sd
    due := none, row := 0, blks := [], bad := none, faulted := false, tags := [], buf := [], fail := none, quad := w.quad, issued := now }

/-- The v-register that an instruction makes pending at issue: that of `mmov` to a register (R354). -/
def pendsAtIssue (i : Instr) (y : Warp) : Warp :=
  match i with
  | .mmovFromTile _ _ _ vr => pendV y vr
  | _ => y

/-- What is wrong with a configuration word (R204, R205, R351). -/
def badConfig (v : Word) : Prop :=
  let a := bitsOf v 0 4
  let b := bitsOf v 4 4
  let d := bitsOf v 12 3
  let g := 4 * 2 ^ bitsOf v 10 2
  v.getLsbD 15 = true ∨ v.getLsbD 8 = true ∨ bitsOf v 16 48 ≠ 0 ∨ a = 0 ∨ 7 ≤ a ∨ b = 0 ∨ 8 ≤ b ∨ 4 < d ∨ 32 < 32 / g * (d + 1) ∨
    (a ∈ [1, 2] ∧ b ∉ [1, 2, 7]) ∨ (a ∈ [3, 4, 5, 6] ∧ b ∉ [3, 4, 5, 6])

/-- Tmax of an A format (R142, R210). -/
def tmaxOf (a : Nat) : Nat := if a = 1 ∨ a = 3 then 4 else if a = 4 then 3 else 2

/-- The operation at the head of the list that comes to its end now, for a unit, without a fault. -/
def Ending (s : State) (o : MatOp) (rest : List MatOp) (u : UnitSt) : Prop :=
  s.mops = o :: rest ∧ (∃ t, o.due = some t ∧ t ≤ s.now) ∧ o.bad = none ∧ findUnit s o.unit = some u ∧ u.id = o.unit ∧
    ∀ y ∈ rest, y.id ≠ o.id

/-- An operation is gone and its handle done with a status, where its handle was pending. -/
def EndsDone (s t : State) (o : MatOp) (status : Nat) : Prop :=
  (∀ y ∈ t.mops, y.id ≠ o.id) ∧
  ∀ h, entryOf s.ctxs[o.ctx] o.handle = some h → h.st = .pending →
    ∃ e ∈ t.ctxs[o.ctx].handles, e.slot = h.slot ∧ e.st = .done ∧ e.status = status

/-- The scratch offset of block `j` of row `m`, of `n` bytes: the low 32 bits of the computed address (R128, R206). -/
def blockAt (a b : Word) (n m j : Nat) : Nat := offset (a + BitVec.ofNat 64 m * b + BitVec.ofNat 64 (j * n))

/-- The scratch offset of row `m` (R128, R217). -/
def rowAt (a b : Word) (m : Nat) : Nat := offset (a + BitVec.ofNat 64 m * b)

/-- Element `k` of a row of A, in units of its format, in the scratch of a unit (R206). -/
def elemA (u : UnitSt) (o : MatOp) (m k : Nat) : Int :=
  let n := if o.cfg.getLsbD 9 then 128 else 64
  ((telems (readN u.scratch (blockAt o.a o.b n m (k / 32)) n)).getD (k % 32) none).getD 0

/-- Element `k`, n of B, in a bank (R203, R206). -/
def elemB (u : UnitSt) (o : MatOp) (bank : Fin 2) (row n : Nat) : Int :=
  (cellValue (cfgB o.cfg) (look (n := 8) u.engs[o.e].banks[bank].cells (256 * row + n))).getD 0

/-- Block product `j` of row m and column n in an MX `mma` (R199, R206): A from the scratch of the unit at its start, B from the bank. -/
def blockProduct (u0 u : UnitSt) (o : MatOp) (bank : Fin 2) (row0 m n j : Nat) : Nat :=
  let size := if o.cfg.getLsbD 9 then 128 else 64
  let blk := readN u0.scratch (blockAt o.a o.b size m j) size
  let b := u.engs[o.e].banks[bank]
  let cell := fun (k : Nat) => cellValue (cfgB o.cfg) (look (n := 8) b.cells (256 * (row0 + 32 * j + k) + n))
  mxProduct (cellFrac (cfgA o.cfg)) (cellFrac (cfgB o.cfg)) (tscale blk) (look (n := 8) b.scales (256 * ((row0 + 32 * j) / 32) + n)).toNat
    ((telems blk).any (·.isNone) || (cfgB o.cfg == 4 && (List.range 32).any fun k => (cell k).isNone))
    ((List.range 32).map fun k => ((telems blk).getD k none).getD 0 * (cell k).getD 0).sum

/-- Block products added to a slot in order: the slot, and whether NV and OF are set (R199, R212). -/
def mxSums (ps : List Nat) (acc : Nat) : Nat × Bool × Bool :=
  ps.foldl (fun a p => ((mxAdd p a.1).1, a.2.1 || (mxAdd p a.1).2.1, a.2.2 || (mxAdd p a.1).2.2)) (acc, false, false)

/-- A signed number in units of 2^k, where k is no more than its exponent. -/
def scaledAt (neg : Bool) (m : Nat) (e k : Int) : Int :=
  let v : Int := (m * 2 ^ (e - k).toNat : Nat)
  if neg then -v else v

/-- An accumulator value clamped (R198). -/
def clampAcc (v : Int) : Int := max (-(2 ^ 47 - 1)) (min (2 ^ 47 - 1) v)

/-- The slots of a tile have their canonical form. -/
def tileOk (t : Tile) : Prop := Sparse.wf t.slots = true

/-! ### Launches -/

/-- Some bits of a word, as a number. -/
def field (w : Word) (lo n : Nat) : Nat := w.toNat / 2 ^ lo % 2 ^ n

/-- The launches of a context that count as live (R71, R80): those not done or refused, and of the cancelled ones those whose steps of
R79 are still to do. -/
def liveOf (x : Ctx) : List Launch :=
  x.launches.filter fun l => l.st == .held || l.st == .ready || l.st == .running || (l.st == .cancelled && !l.fin)

/-- The control charge of a unit in KiB (R103). -/
def chargeOf (r : LRec) : Nat :=
  2 * r.wpu + (if r.chain then 5 * r.wpu else 0) + 1 + (if r.xc then 192 else 0)
    + ((List.range 8).map fun e => if r.emask.getLsbD e then 4 else 0).sum

/-- The regions of a partition word in pool units: registers, scratch, accumulators (R86). -/
def regionsOf (p : BitVec 32) : Nat × Nat × Nat := (p.toNat % 2 ^ 7, p.toNat / 2 ^ 7 % 2 ^ 7, p.toNat / 2 ^ 14 % 2 ^ 7)

/-- That the check of a status fails for a record (R77, R233). -/
def checkFails (x : Ctx) (r : LRec) (d : ChainDef) (n : Nat) : Prop :=
  let g := regionsOf r.ppw
  let live := liveOf x
  match n with
  | 1 => r.resv = true ∨ r.wpu < 1 ∨ 32 < r.wpu ∨ 7 < r.prio ∨ r.vregs < 1 ∨ 16 < r.vregs ∨ 2 ^ 42 < r.items ∨
      r.tv ∉ [0, 16, 32, 48, 64] ∨ 32 < r.ts ∨ 8 < r.acct ∨ (r.tv : Int) > 16 * r.vregs - 16
  | 2 => r.entry.toNat % 8 ≠ 0
  | 3 => 2 ^ 21 ≤ r.ppw.toNat ∨ g.2.2 % 4 ≠ 0 ∨ 96 < g.1 + g.2.1 + g.2.2 + 4
  | 4 => 16 * g.1 < r.wpu * (4 * r.vregs + 1) ∨ 16 * g.2.1 < r.scrk ∨ 16 * g.2.2 < 64 * r.acct ∨
      16 * (96 - (g.1 + g.2.1 + g.2.2)) < chargeOf r
  | 5 => (r.te = false ∧ (r.emask ≠ 0 ∨ r.acct ≠ 0)) ∨ (r.te = true ∧ (r.emask = 0 ∨ r.acct = 0)) ∨
      (r.te = true ∧ ∃ e, e < 8 ∧ r.emask.getLsbD e = true ∧ r.wpu ≤ e / 2)
  | 6 => (r.chain = false ∧ r.chm ≠ 0) ∨ (r.chain = true ∧ (r.chm = 0 ∨ d.bad = true ∨ (32 * r.wpu < r.items ∧ d.area = 0)))
  | 7 => 1024 ≤ live.length ∨
      ((∀ l ∈ live, l.r.graph ≠ r.graph) ∧ 256 ≤ (live.map fun (l : Launch) => l.r.graph).eraseDups.length) ∨
      ((∀ l ∈ live, l.r.phase ≠ r.phase) ∧ 16 ≤ (live.map fun (l : Launch) => l.r.phase).eraseDups.length)
  | 8 => r.phase < x.cph
  | 9 => r.trapen = true ∧ (r.tv = 0 ∨ r.ts < 8)
  | _ => False

/-- The address of a word of a launch record. -/
def wordAddr (a : Word) (l : Fin 32) : Word := a + BitVec.ofNat 64 (8 * l.val)

/-- Some words as an instruction of a core finds them, all at one moment, and the state once its caches have read them. -/
def wordsRead (s : State) (c : Iss) (ps : List (Spot × Nat)) : List Word × State :=
  (ps.map fun p => BitVec.ofNat 64 (peekBytes s c.w.core false (accOf s c.w.ctx 0 p.1) p.1 p.2 8),
    touchParts s c wordOp (fun _ => false) (ps.zipIdx.map fun p => (Fin.ofNat 32 p.2, p.1.1)))

/-- The first `n` words at an address may be read, and lie in this package at the places `ps`. -/
def WordsAt (s : State) (w : Warp) (a : Word) (n : Nat) (ps : List (Spot × Nat)) : Prop :=
  ps.length = n ∧ ∀ l : Fin 32, l.val < n → ∃ p pa, ps[l.val]? = some ({ p with part := 0 }, pa) ∧
    locate s w.core w.ctx (wordAddr a l) false = .ok p ∧ Passes (wordStages s w) { p with part := 0 } ∧ localPa s w.core p = some pa

/-- A launch is entered in a table, from `u` to `t`: it stands last with its record, held where its status is 0 and otherwise
refused; its handle is pending, or faulted with the status; the handle register names it; a refused one sets its SET events
and ABORT. -/
structure Entered (u t : State) (w : Warp) (hn : Fin 16) (r : LRec) (status : Nat) : Prop where
  launch : ∃ la, t.ctxs[w.ctx].launches = u.ctxs[w.ctx].launches ++ [la] ∧ la.r = r ∧ la.id = u.ctxs[w.ctx].launchCount ∧
    la.status = status ∧ la.st = (if status = 0 then .held else .refused) ∧ la.next = 0 ∧ la.retired = 0 ∧ la.cancel = false ∧ la.fin = false ∧
    (status = 0 → la.total = (r.items + (32 * r.wpu - 1)) / (32 * r.wpu)) ∧
    (findWarp t w.id).map (·.h) = some (w.h.set hn.val la.handle hn.isLt) ∧
    ∃ e, entryOf t.ctxs[w.ctx] la.handle = some e ∧ e.cls = 3 ∧ e.eng = (homeDie u w.ctx).val ∧ e.creator = w.id ∧
      e.owner = ownerOf w ∧ e.cause = 0 ∧ (status = 0 → e.st = .pending) ∧ (status ≠ 0 → e.st = .faulted ∧ e.status = status)
  count : t.ctxs[w.ctx].launchCount = u.ctxs[w.ctx].launchCount + 1
  events : t.ctxs[w.ctx].ev = if status = 0 then u.ctxs[w.ctx].ev else u.ctxs[w.ctx].ev ||| r.set
  abort : t.ctxs[w.ctx].abort = (u.ctxs[w.ctx].abort || decide (status ≠ 0))
  phase : t.ctxs[w.ctx].cph = u.ctxs[w.ctx].cph
  others : ∀ c, c ≠ w.ctx → t.ctxs[c] = u.ctxs[c]
  memory : t.mem = u.mem
  caches : t.cores = u.cores
  units : t.units = u.units

/-- No copy of what a context wrote waits for its invalidation, and no line that it wrote waits for its recall (R150, R161). -/
abbrev Across (s : State) (c : Fin 64) : Prop := acrossDone s c = true

/-- The state after the write-backs of an ordering step at a context's widest internal scope: nothing is left to do across the bridge
where that scope is the package (R165). -/
def Settled (s : State) (w : Warp) : Prop := s.ctxs[w.ctx].mode = true ∨ Across (l1Clean s w.core wideLine) w.ctx

/-- Nothing keeps an ordering step at a context's widest internal scope (R165): its dirty lines have gone, nothing crosses the bridge
where that scope is the package, and the domain writes and the atomics of the context are complete. -/
def Releasable (s : State) (w : Warp) : Prop :=
  Settled s w ∧ NoDirty (l1Clean s w.core wideLine) w.core wideLine ∧ NoFarWrites s w.ctx

/-- The home Drover of a warp's context is within reach: on its die, or over a bridge that is up and does not stall (R26, R85). -/
abbrev DroverFree (s : State) (w : Warp) : Prop := crossing s (coreDie w.core) (homeDie s w.ctx) = .free

/-- The state once a form of the work group has reached the home Drover, where its effect left `t`: from the other die it goes there as
a message over the bridge (R25, R85). -/
def toDrover (s : State) (w : Warp) (t : State) : State :=
  if coreDie w.core = homeDie s w.ctx then t else sendPacket t (coreDie w.core) droverAgent .drover true

/-- The same for a form that acts once for its warp: it puts `n` into an s-register. -/
def Puts (i : Instr) (s : State) (w : Warp) (sp : Fin 8) (x : Split) (d : Fin 128) (n : Nat) : Prop :=
  RunsOnce i s w sp x (toDrover s w (modWarp (counted s w sp) w.id fun y => setS y d (BitVec.ofNat 64 n)))

/-- Bit e of the 256-bit mask that four registers make (R364). -/
def maskBit (w : Warp) (o : EvOp) (e : Nat) : Bool :=
  (sreg w (if e / 64 = 0 then o.sa else if e / 64 = 1 then o.sb else if e / 64 = 2 then o.sc else o.sd)).getLsbD (e % 64)

/-- What `cntrd` reads of a launch or a context (R71, R366). -/
def counterOf (x : Ctx) (a : Word) : CntSel → Nat
  | .graph => ((liveOf x).filter fun l => l.r.graph == field a 0 16).length
  | .phase => ((liveOf x).filter fun l => l.r.phase == field a 0 16).length
  | .abort => x.abort.toNat
  | .cph => x.cph
  | .ev => x.ev.toNat / 2 ^ (64 * field a 0 2) % 2 ^ 64
  | _ => 0

/-- The code of a launch's state (R366). -/
def stateCode : LState → Nat
  | .held => 0
  | .ready => 1
  | .running => 2
  | .done => 3
  | .cancelled => 4
  | .refused => 5

/-- Nothing keeps a job from its end: no live launch, no pending handle of its warp, no fault-service warp (R367). -/
def JobDone (s : State) (w : Warp) : Prop :=
  liveOf s.ctxs[w.ctx] = [] ∧ (∀ e ∈ s.ctxs[w.ctx].handles, e.creator = w.id → e.st ≠ .pending) ∧
    ∀ v ∈ s.warps, v.ctx = w.ctx → isService v = false

/-- Nothing that a context has stored is left in an L1, and what it wrote is performed at its widest internal scope (R161, R367). -/
def StoresOut (u : State) (c : Fin 64) : Prop :=
  (∀ k, l1Lost u k (ownLine c) = none ∧ l1Stalled u k (ownLine c) = false) ∧ (u.ctxs[c].mode = true ∨ Across u c)

/-- A context's job has ended with END and CODE, from `s` to `t`: the context is idle, its warp and its launches are gone, its handles
are free, and its completion word and interrupt are sent, or held while the host link is down (R42, R60, R63, R367). -/
structure JobEnds (s t : State) (c : Fin 64) (end_ code : Nat) : Prop where
  idle : t.ctxs[c].st = .idle
  launches : t.ctxs[c].launches = []
  handles : ∀ e ∈ t.ctxs[c].handles, e.st = .free
  warps : ∀ w ∈ t.warps, w.ctx ≠ c
  sent : ∃ m, m = HostMsg.completion (functionOf s c) s.ctxs[c].caddr
      (BitVec.ofNat 64 (s.ctxs[c].seq.toNat * 2 ^ 32 + end_ * 2 ^ 24 + code)) s.ctxs[c].vec.val ∧
    (Hears s (homeDie s c) → Tells t m) ∧
    (s.host.up = true → homeDie s c = 0 → (∀ y ∈ s.host.held, y.die ≠ 0) → (heldWords s (functionOf s c) < 64) →
      (∀ y ∈ s.host.owed, y.wordOf (functionOf s c) = false) → t.hostOut = s.hostOut ++ [m])
  others : ∀ d, d ≠ c → t.ctxs[d] = s.ctxs[d]

/-! ### Results, walks and the Drover -/

/-- A result has returned, from `s` to `t`: its registers hold it in its lanes and are pending no more, the other registers are as
they were, and the result is gone (R123). -/
structure Returned (s t : State) (r : Result) : Prop where
  gone : ∀ y ∈ t.results, y.id ≠ r.id
  others : ∀ y ∈ s.results, y.id ≠ r.id → y ∈ t.results
  frame : t.mem = s.mem ∧ t.ctxs = s.ctxs ∧ t.units = s.units ∧ t.cores = s.cores
  warps : ∀ k, k ≠ r.warp → findWarp t k = findWarp s k
  regs : ∀ w, findWarp s r.warp = some w → ∃ y, findWarp t r.warp = some y ∧
    (∀ p ∈ r.vw, y.vpend.getLsbD p.1.val = false ∧ ∀ l, vreg y p.1 l = if r.mask.getLsbD l.val then p.2[l] else vreg w p.1 l) ∧
    (∀ d, (∀ p ∈ r.vw, p.1 ≠ d) → (∀ l, vreg y d l = vreg w d l) ∧ y.vpend.getLsbD d.val = w.vpend.getLsbD d.val) ∧
    (∀ d v, r.sw = some (d, v) → d ≠ 0 → sreg y d = v ∧ y.spend.getLsbD d.val = false) ∧
    (∀ d, (∀ v, r.sw ≠ some (d, v)) → sreg y d = sreg w d ∧ y.spend.getLsbD d.val = w.spend.getLsbD d.val) ∧
    (∀ d m, r.pw = some (d, m) → d ≠ 7 → ∀ l, l < 32 → (preg y d).getLsbD l = if r.mask.getLsbD l then m.getLsbD l else (preg w d).getLsbD l) ∧
    (∀ d, (∀ m, r.pw ≠ some (d, m)) → preg y d = preg w d) ∧ y.live = w.live ∧ y.h = w.h ∧
    ∀ k x, w.splits[k] = some x → ∃ z, y.splits[k] = some z ∧ { z with held := x.held } = x ∧
      (z.held = true ↔ x.held = true ∧ ¬ (k = r.sp ∧ r.holds = true ∧ ∀ q ∈ s.results, q.id ≠ r.id → q.warp = r.warp → q.sp = r.sp →
        q.holds = false))

/-- The first result of a path that may return now; a special-function result is also the first of its warp (R123, R303). -/
def FirstDue (s : State) (k : RKind) (r : Result) : Prop :=
  let passes := fun (a : List Result) (y : Result) => k = .sfu ∧ ∃ z ∈ a, z.kind = .sfu ∧ z.warp = y.warp
  ∃ a b, s.results = a ++ r :: b ∧ r.kind = k ∧ (∀ n, r.due = some n → n ≤ s.now) ∧ ¬ passes a r ∧
    (s.results.map (·.id)).Nodup ∧
    ∀ (u v : List Result) (y : Result), a = u ++ y :: v → y.kind = k → (∃ n, y.due = some n ∧ s.now < n) ∨ passes u y

/-- An operation's handle has reached a final state, where it was pending. -/
def HandleEnds (s t : State) (c : Fin 64) (h : BitVec 32) (st : HState) : Prop :=
  ∀ e, entryOf s.ctxs[c] h = some e → e.st = .pending → ∃ f ∈ t.ctxs[c].handles, f.slot = e.slot ∧ f.st = st

/-- The granules of a unit lie inside the regions of a partition word (R87, R90). -/
def InsideRegions (p : BitVec 32) (u : UnitSt) : Prop :=
  let g := regionsOf p
  ∀ i, i < 1536 → (u.regs.getLsbD i = true → i < 16 * g.1) ∧
    (u.scr.getLsbD i = true → 16 * g.1 ≤ i ∧ i < 16 * (g.1 + g.2.1)) ∧
    (u.acc.getLsbD i = true → 16 * (g.1 + g.2.1) ≤ i ∧ i < 16 * (g.1 + g.2.1 + g.2.2))

/-- A core comes before another for a unit: fewer resident warps, then the job warp's die, then the lower number (R83). -/
def CoreBefore (s : State) (jd : Fin 2) (a b : Fin 384) : Prop :=
  warpLoad s a < warpLoad s b ∨ (warpLoad s a = warpLoad s b ∧
    ((coreDie a = jd ∧ coreDie b ≠ jd) ∨ ((coreDie a = jd ↔ coreDie b = jd) ∧ a ≤ b)))

/-- A warp as it starts (R62, R91): registers zero, its lanes in one split at an address, nothing else begun. -/
structure Starts (w : Warp) (pc : Word) (lanes : Mask) : Prop where
  live : w.live = lanes
  split : ∃ x, w.splits[(0 : Fin 8)] = some x ∧ x.pc = pc ∧ x.mask = lanes ∧ x.st = .runnable ∧ x.record = none ∧ x.depth = 0
  one : ∀ k : Fin 8, k ≠ 0 → w.splits[k] = none
  v : ∀ d l, vreg w d l = 0
  p : ∀ d : Fin 8, d ≠ 7 → preg w d = 0
  h : ∀ d : Fin 16, w.h[d] = 0
  rest : w.rstack = [] ∧ w.handler = none ∧ w.bracket = none ∧ w.flags = 0 ∧ w.vpend = 0 ∧ w.spend = 0 ∧ w.ended = false ∧ w.halting = false

/-- Nothing of a unit is left to do (R71): its warps have ended, and none of its operations is outstanding. -/
def UnitDone (s : State) (u : UnitSt) : Prop :=
  (∀ w ∈ s.warps, inUnit u.id w = true → w.ended = true) ∧ (∀ o ∈ s.mops, o.unit = u.id → o.faulted = true) ∧
  (∀ o ∈ s.copies, o.ctx = u.ctx → o.unit = some u.id → o.faulted = true) ∧
  ∀ e ∈ s.ctxs[u.ctx].handles, e.owner = .unit u.id → e.st ≠ .pending

/-! ### Starts, errors, power -/

/-- An image verifies on a die (R43): both signatures, and a security version of at least the fused minimum. -/
def Verifies (d : Die) (rsa slh : Bool) (ver : Nat) : Prop := rsa = true ∧ slh = true ∧ d.minVer ≤ ver

/-- A start is cold (R47): it was asked for, or the saved values cannot be used. -/
def coldStart (d : Die) (cold : Bool) (f : StartFacts) : Prop := cold = true ∨ d.saved = none ∨ f.savedOk = false ∨ f.serialsMatch = false

/-- The recovery image is loaded (R48, R49): after three failed starts in a row. -/
def recovers (d : Die) : Prop := d.fails = 3 ∧ d.start ≠ .recovery

/-- The start succeeds (R43, R46, R48). -/
def startGood (d : Die) (cold : Bool) (f : StartFacts) : Prop :=
  ¬ recovers d ∧ Verifies d f.rsaOk f.slhOk f.secVer ∧ (coldStart d cold f → f.repairOk = true ∧ f.hbmTrains = true)

/-- A measurement register that started at zero and was extended by one digest (R44). -/
def extended1 (digest : BitVec 384) : BitVec 384 := Config.sha384 (List.replicate 48 0 ++ bytesOf 48 digest.toNat)

/-- The widths of the ports after they were trained (R28, R46, R53): lanes that were retired stay retired, so that no port is wider than it was,
and a port that trains at no width is retired. -/
def Trained (old new : Vector (BitVec 8) 8) (f : StartFacts) : Prop :=
  ∀ p : Fin 8, (new[p]).toNat = if f.ports[p] = 1 ∨ f.ports[p] = 2 ∨ f.ports[p] = 4 then min (old[p]).toNat (f.ports[p]).toNat else 0

/-- A start of die `n` that becomes ready, from `d` to `e`; `up` is the state that it brings the die to (R43-R49, R53). A good one uses the
repair values that it found, or, where it is warm, those that were saved; a failed one is measured as far as it came. -/
structure StartOutcome (n : Fin 2) (d e : Die) (cold : Bool) (f : StartFacts) (up : DState) : Prop where
  kept : e.minVer = d.minVer ∧ e.retCores = d.retCores ||| d.pendCores ∧ e.retWays = d.retWays ∧ e.retPcs = d.retPcs ∧
    e.modules = d.modules ∧ e.corr = d.corr ∧ e.uncorr = d.uncorr
  ports : (startGood d cold f → coldStart d cold f → Trained d.ports e.ports f) ∧
    (¬ (startGood d cold f ∧ coldStart d cold f) → e.ports = d.ports)
  good : startGood d cold f → e.fails = 0 ∧ e.dstate = up ∧ (coldStart d cold f → e.start = .cold) ∧ (¬ coldStart d cold f → e.start = .warm) ∧
    e.meas[(1 : Fin 8)] = extended1 f.fwDigest ∧ e.meas[(4 : Fin 8)] = extended1 f.ucodeDigest ∧
    ∃ v, e.saved = some v ∧ e.meas[(3 : Fin 8)] = extended1 v ∧ (coldStart d cold f → v = f.repairDigest) ∧ (¬ coldStart d cold f → d.saved = some v)
  failed : ¬ recovers d → ¬ startGood d cold f → e.fails.val = min 3 (d.fails.val + 1) ∧ e.dstate = .dieOffline ∧
    (Verifies d f.rsaOk f.slhOk f.secVer → e.meas[(1 : Fin 8)] = extended1 f.fwDigest) ∧
    (¬ Verifies d f.rsaOk f.slhOk f.secVer → e.meas[(1 : Fin 8)] = 0)
  recovery : recovers d → Verifies d f.recRsaOk f.recSlhOk f.recSecVer → e.start = .recovery ∧ e.fails = 3 ∧ e.dstate = .dieOffline ∧
    e.meas[(1 : Fin 8)] = extended1 f.recDigest
  hold : recovers d → ¬ Verifies d f.recRsaOk f.recSlhOk f.recSecVer → e.start = .romHold ∧ e.fails = 3 ∧ e.dstate = .dieOffline
  rom : e.meas[(0 : Fin 8)] = extended1 f.romDigest ∧ ∀ k : Fin 8, 5 ≤ k.val → e.meas[k] = 0
  trip : e.trip = true ↔ d.trip = true ∧ ¬ coldStart d cold f
  replace : e.rr = true ↔ replaceDue e = true ∨ (d.rr = true ∧ ¬ (startGood d cold f ∧ coldStart d cold f))
  islands : ∀ k : Fin 16, e.islands[k] = .on → k.val = 15 ∨ (k.val = 14 ∧ n = 0) ∨ (e.dstate = .coresOffline ∧ 12 ≤ k.val) ∨ e.dstate = .online

/-- The bridge after starts of some dies, each with what it was, whether a cold start was asked for, and what it found (R46): cold starts train
it once one of them comes up, and it works where it trains for all that are cold; otherwise it is as it was. -/
def BridgeTrained (s t : State) (starts : List (Die × Bool × StartFacts)) : Prop :=
  let colds := fun (x : Die × Bool × StartFacts) => coldStart x.1 x.2.1 x.2.2
  let up := ∃ x ∈ starts, colds x ∧ startGood x.1 x.2.1 x.2.2
  (up → (t.bridge.down = true ↔ ∃ x ∈ starts, colds x ∧ x.2.2.bridgeTrains = false)) ∧ (¬ up → t.bridge.down = s.bridge.down)

/-- Nothing of a job is left in the package: no warp, unit, operation or context, and no valid partition. -/
def Emptied (t : State) : Prop :=
  t.warps = [] ∧ t.units = [] ∧ t.copies = [] ∧ t.mops = [] ∧ t.maints = [] ∧ t.results = [] ∧ t.links = [] ∧
    (∀ c : Fin 64, t.ctxs[c].st = .free) ∧ ∀ n : Fin 24, t.parts[n].valid = false

/-- The work of the package: all that a program sees of it but for the health status of its dies. -/
def sameWork (s t : State) : Prop :=
  t.warps = s.warps ∧ t.units = s.units ∧ t.mem = s.mem ∧ t.ctxs = s.ctxs ∧ t.cores = s.cores ∧ t.copies = s.copies ∧ t.mops = s.mops ∧
    t.results = s.results

/-- A resource of a die is retired, or retires once its core is released (R53). -/
def Retired (s t : State) (d : Fin 2) : ErrRes → Prop
  | .core c =>
    if ∃ k, ctxHolds s (coreAt d c.val) k = true then
      t.dies[d].retCores = s.dies[d].retCores ∧ ∀ j, j < 192 →
        (t.dies[d].pendCores.getLsbD j = true ↔ s.dies[d].pendCores.getLsbD j = true ∨ j = c.val)
    else ∀ j, j < 192 → (t.dies[d].retCores.getLsbD j = true ↔ s.dies[d].retCores.getLsbD j = true ∨ j = c.val)
  | .l2way slice way => t.dies[d].retCores = s.dies[d].retCores ∧ ∀ (q : Fin 64) j, j < 24 →
      (t.dies[d].retWays[q].getLsbD j = true ↔ s.dies[d].retWays[q].getLsbD j = true ∨ (q = slice ∧ j = way.val))
  | .channel stack pc => t.dies[d].retCores = s.dies[d].retCores ∧ ∀ (q : Fin 12) j, j < 64 →
      (t.dies[d].retPcs[q].getLsbD j = true ↔ s.dies[d].retPcs[q].getLsbD j = true ∨ (q = stack ∧ j = pc.val))

/-- No resource of a die has been retired by a step. -/
def NoneRetired (s t : State) (d : Fin 2) : Prop :=
  t.dies[d].retCores = s.dies[d].retCores ∧ t.dies[d].pendCores = s.dies[d].pendCores ∧ t.dies[d].retWays = s.dies[d].retWays ∧
    t.dies[d].retPcs = s.dies[d].retPcs

/-- A die's term clocks have been set: each is between 800 MHz and 2 GHz in units of 50 MHz, and with `down` each is lower than it was, as
far as 800 MHz (R18, R22, R23, R50). -/
def ClocksSet (d e : Die) (down : Prop) : Prop :=
  (e.throttled = true ↔ down) ∧ ∀ i : Fin 12, 16 ≤ e.clock[i].toNat ∧ e.clock[i].toNat ≤ 40 ∧
    (down → 16 ≤ d.clock[i].toNat → e.clock[i].toNat ≤ d.clock[i].toNat ∧ (16 < d.clock[i].toNat → e.clock[i].toNat < d.clock[i].toNat))

/-! ### Links -/

/-- A packet of the bridge may arrive now (R25, R26): the bridge is up and trained, the replay buffer of 8,192 flits has room, and none
of its source and destination was sent before it and waits. -/
def MayArrive (b : Bridge) (i : Nat) (p : Packet) : Prop :=
  b.down = false ∧ b.retrain = none ∧ ((b.replay.filter fun q => q.dir == p.dir).map (·.flits)).sum + p.flits ≤ 8192 ∧
    ∀ (j : Nat) (q : Packet), j < i → b.queue[j]? = some q → ¬ (q.dir = p.dir ∧ q.src = p.src ∧ q.dst = p.dst)

/-- The packets of a direction that a sender has not had acknowledged, marked as replays (R26). -/
def replaysOf (b : Bridge) (dir : Fin 2) : List Packet :=
  (b.replay.filter fun p => p.dir == dir).map fun (p : Packet) => { p with again := true }

/-- Some bytes, lowest first, as a number. -/
def bytesValue : List Byte → Nat
  | [] => 0
  | b :: r => b.toNat + 256 * bytesValue r

/-- What lane `j` has at part `k` of its access once a good completion brought its bytes (R33): what some read wants there of the bytes; of
an access that no read shares, all of them at its own part and lane. -/
def broughtTo (l : LinkOp) (data : List Byte) (k : Nat) (j : Fin 32) (old : Word) : Word :=
  if l.wants = [] then (if k = l.reg ∧ j = l.lane then BitVec.ofNat 64 (bytesValue data) else old)
  else
    match (l.wants.filter fun w => w.reg == k && w.lane == j).getLast? with
    | some w => BitVec.ofNat 64 (bytesValue ((data.drop w.off).take w.bytes))
    | none => old

/-- The links once an access is over: a flushing read that came back covers the writes before it (R39), and of an atomic that failed in a lane
the later lanes, which waited for it, are not carried out (R124, log 36). -/
def linksAfter (s : State) (l : LinkOp) (ok : Bool) : List LinkOp :=
  let rest := s.links.filter fun k => k.tag != l.tag && (ok || !laneBefore l k)
  if ok ∧ l.kind = .flush ∧ l.result = none ∧ l.copy = none then rest.filter fun k => !(k.kind == .write && k.flushed.contains l.warp) else rest

/-- An access of a link is over, from `s` to `t`, with its bytes or a failure: it is outstanding no more; whoever waits for it has its
value in its place, or the failure; a failed write that nobody waits for is kept for its warp (R35). What waited behind it on the same
bytes goes out (R162). -/
structure Over (s t : State) (l : LinkOp) (x : Except LateFault (List Byte)) : Prop where
  gone : t.links = linksAfter s l (match x with | .ok _ => true | .error _ => false)
  frame : t.mem = s.mem ∧ t.ctxs = s.ctxs ∧ t.units = s.units ∧ t.cores = s.cores ∧ t.dies = s.dies
  quiet : (∀ k ∈ s.links, heldBack s.links k = false) → t.hostOut = s.hostOut ∧ t.uaOut = s.uaOut
  result : ∀ id, l.result = some id → t.warps = s.warps ∧ t.copies = s.copies ∧ ∀ r ∈ s.results, r.id = id →
    ∃ q ∈ t.results, q.id = id ∧ ((∃ data, x = .ok data) ∨ l.kind ≠ .atomic → q.tags = r.tags.filter fun g => g != l.tag) ∧
      ((∃ f, x = .error f) → l.kind = .atomic → q.tags = []) ∧
      (∀ data, x = .ok data → q.bad = r.bad ∧ ∀ (k : Nat) p, r.vw[k]? = some p → ∃ z, q.vw[k]? = some z ∧ z.1 = p.1 ∧
        ∀ j : Fin 32, z.2[j] = broughtTo l data k j p.2[j]) ∧
      ∀ f, x = .error f → q.vw = r.vw ∧ ∃ g, q.bad = some g ∧ (r.bad = none → g = f)
  engine : ∀ id, l.result = none → l.copy = some id → t.warps = s.warps ∧ t.results = s.results ∧ ∀ o ∈ s.copies, o.id = id →
    ∃ q ∈ t.copies, q.id = id ∧ q.i = o.i ∧ q.tags = o.tags.filter (fun g => g != l.tag) ∧
      (∀ data, x = .ok data → q.bad = o.bad ∧
        q.buf = if l.kind = .read then o.buf ++ l.wants.map (fun w => BitVec.ofNat 64 (bytesValue ((data.drop w.off).take w.bytes))) else o.buf) ∧
      ∀ f, x = .error f → q.buf = o.buf ∧ q.bad ≠ none
  posted : l.result = none → l.copy = none → t.results = s.results ∧ t.copies = s.copies ∧ (∀ data, x = .ok data → t.warps = s.warps) ∧
    ∀ f w, x = .error f → findWarp s l.warp = some w → findWarp t l.warp = some { w with late := w.late ++ [f] }

/-- An access of a link has failed with a cause, for the lanes that it serves (R35, R40). -/
def FailsWith (s t : State) (l : LinkOp) (cause : Nat) : Prop :=
  ∃ f, Over s t l (.error f) ∧ f.cause = cause ∧ f.va = l.va ∧
    ∀ j : Fin 32, f.lanes.getLsbD j.val = true ↔ (l.wants = [] ∧ j = l.lane) ∨ ∃ w ∈ l.wants, w.lane = j

/-- The link carries the access as a read and then compare-and-swaps (R33, R40). -/
abbrev swapLoop (l : LinkOp) : Prop :=
  l.kind = .atomic ∧ ((l.sys = false ∧ l.op = .add ∧ l.ty = .f32) ∨
    (l.sys = true ∧ (l.op ∈ [AtomOp.min, .max, .and, .or, .xor] ∨ (l.op = .add ∧ l.ty = .f32))))

/-- The bytes that a completion brings to an access (R33): those of an atomic that the link reads begin with its sector. -/
def broughtBytes (l : LinkOp) (data : List Byte) : List Byte :=
  if l.kind = .atomic then (if l.sys = false ∧ swapLoop l ∧ l.expect = none then data.drop (l.pa % 64) else data).take (tyBytes l.ty)
  else if l.kind = .read then data
  else []

/-- A range of package memory serves what comes to a die from outside (R13, R21, R27): it is populated, that die is not offline, and the
range's die is not offline and within reach. -/
def Serves (s : State) (g : Fin 2) (a n : Nat) : Prop :=
  regionOf a = .package ∧ a % 2 ^ 40 + n ≤ 768000000000 ∧ s.dies[g].dstate ≠ .dieOffline ∧ s.dies[dieOf a].dstate ≠ .dieOffline ∧
    (dieOf a = g ∨ s.bridge.down = false)

/-- No byte of a range is data in error (R52). -/
def NoBad (s : State) (a n : Nat) : Prop := ∀ k, a / 64 ≤ k → k ≤ (a + n - 1) / 64 → k ∉ s.bad

/-- An answer to a package has been sent by the port that a request to it would take (R31, R33); with no port to it, or none that the bridge
reaches, there is none. -/
def Answered (s t : State) (g : Fin 2) (src : BitVec 12) (tag : Nat) (ok : Bool) (data : List Byte) : Prop :=
  let me := field s.dies[g].ident 0 12
  let d : Fin 2 := if src.toNat / 64 ≠ me / 64 ∧ src.toNat % 64 = me % 64 then 1 else 0
  let ps := (List.finRange 8).filter fun q => s.dies[d].ports[q] != 0
  (ps = [] ∨ s.dies[d].dstate = .dieOffline ∨ (d ≠ g ∧ s.bridge.down = true) → t.uaOut = s.uaOut) ∧
  ∀ p, ps[(me ^^^ src.toNat) % ps.length]? = some p → s.dies[d].dstate ≠ .dieOffline → (d = g ∨ s.bridge.down = false) →
    t.uaOut = s.uaOut ++ [.response d p.val (BitVec.ofNat 12 me) src tag ok data]

/-- The die at which the requests of a package arrive (R31). -/
def arrivesAt (s : State) (src : BitVec 12) : Fin 2 :=
  if src.toNat / 64 = s.dies[(0 : Fin 2)].ident.toNat % 2 ^ 12 / 64 then 0 else 1

/-! ### Partitions and contexts as the host writes them -/

/-- Whether an entry has an island of a die. -/
def hasIsland (p : Part) (d : Fin 2) (i : Nat) : Bool := if d = 0 then p.isl0.getLsbD i else p.isl1.getLsbD i

/-- A partition entry as it would stand after the write of a register (R56, R57). -/
def entryAfter (p : Part) (reg : Fin 8) (v : Word) : Part :=
  if reg.val = 0 then { p with valid := v.getLsbD 63, isl1 := BitVec.ofNat 12 (field v 16 12), isl0 := BitVec.ofNat 12 (field v 0 12) }
  else if reg.val = 1 then { p with vf := field v 0 5 }
  else if reg.val = 2 then { p with dbase := v }
  else p

/-- A value that a register of a partition entry may not take (R56, R57). -/
def malformedValue (reg : Fin 8) (v : Word) : Prop :=
  if reg.val = 0 then field v 28 35 ≠ 0 ∨ field v 12 4 ≠ 0
  else if reg.val = 1 then field v 5 59 ≠ 0 ∨ 24 < field v 0 5
  else if reg.val = 2 then v.toNat % 2 ^ 22 ≠ 0 ∨ inPackage v.toNat (2 ^ 22) = false
  else v ≠ 0

/-- Whether a core of an island is in service (R54). -/
def served (s : State) (d : Fin 2) (i : Nat) : Prop := ∃ k, k < 16 ∧ s.dies[d].retCores.getLsbD (16 * i + k) = false

/-- That the check of a status of R57 fails for a write, where `p` is the entry as it would stand. -/
def partFails (s : State) (n : Fin 24) (p : Part) (bad : Prop) (status : Nat) : Prop :=
  let others := fun (m : Fin 24) => m ≠ n ∧ s.parts[m].valid = true
  match status with
  | 0x11 => p.valid = true ∧ ∃ (d : Fin 2) (i : Nat) (m : Fin 24), i < 12 ∧ hasIsland p d i = true ∧ others m ∧ hasIsland s.parts[m] d i = true
  | 0x12 => p.valid = true ∧ ∃ (d : Fin 2) (i : Nat), i < 12 ∧ hasIsland p d i = true ∧ s.dies[d].dstate ≠ .online
  | 0x13 => p.valid = true ∧ ∃ (d : Fin 2) (i : Nat), i < 12 ∧ hasIsland p d i = true ∧ ¬ served s d i
  | 0x14 => p.valid = true ∧ p.vf ≠ 0 ∧ ∃ m : Fin 24, others m ∧ s.parts[m].vf = p.vf
  | 0x15 => bad
  | 0x16 => (p.isl0 ≠ s.parts[n].isl0 ∨ p.isl1 ≠ s.parts[n].isl1) ∧
      ∃ c : Fin 64, s.ctxs[c].part.val = n.val ∧ s.ctxs[c].st ∈ [CState.idle, .running, .ended]
  | _ => False

/-- The partition of a context has an island of a die. -/
def spans (s : State) (c : Fin 64) (d : Fin 2) : Prop := ∃ i, i < 12 ∧ hasIsland (partOfCtx s c) d i = true

/-- What lets a context be created (R57-R60, R249). -/
structure Creatable (s : State) (c : Fin 64) : Prop where
  part : s.ctxs[c].part.val < 24 ∧ (partOfCtx s c).valid = true
  die : s.ctxs[c].mode = true → ∀ d, spans s c d → d = s.ctxs[c].die
  online : ∀ d, spans s c d → s.dies[d].dstate = .online
  inService : ∀ d i, i < 12 → hasIsland (partOfCtx s c) d i = true → served s d i
  buffer : ∀ d, spans s c d → s.dies[d].fbase ≠ 0

/-- The states in which the commands are allowed (R60). -/
def allowedStates (c : Fin 64) : List (Instr × List CState) :=
  [ (.contextCreate c, [.free]), (.contextHalt c, [.idle, .running]), (.contextResume c, [.halted]), (.contextExport c, [.halted])
  , (.contextImport c, [.free]), (.contextDestroy c, [.idle, .running, .halting, .halted, .ended]), (.contextCancelJob c, [.running]) ]

/-- The commands by their numbers (R58). -/
def commandOf (c : Fin 64) : Nat → Option Instr
  | 1 => some (.contextCreate c)
  | 2 => some (.contextHalt c)
  | 3 => some (.contextResume c)
  | 4 => some (.contextExport c)
  | 5 => some (.contextImport c)
  | 6 => some (.contextDestroy c)
  | 7 => some (.contextCancelJob c)
  | _ => none

/-- The die of a context's job warp (R59). -/
def jobDie (s : State) (c : Fin 64) : Fin 2 :=
  if s.ctxs[c].mode then s.ctxs[c].die else if s.ctxs[c].part.val < 24 ∧ (partOfCtx s c).isl0 = 0 then 1 else 0

/-- A write is refused with a status, and changes nothing else. -/
def RefusedWith (i : Instr) (s : State) (status : Nat) : Prop := exec i s = .next { s with refusal := BitVec.ofNat 64 status }

/-- The host asks for an event, and where its link is down nothing comes of it (R42). -/
def hostEvents (n : Fin 24) (c : Fin 64) (d : Fin 2) (reg : Fin 8) (fn : Fin 25) (e : Option Word) (a : BarAddr) (k : Nat) (v : Word) : List Instr :=
  [ .partitionEntryWrite n reg v, .contextEntryWrite c reg v, .contextCreate c, .contextHalt c, .contextResume c, .contextExport c
  , .contextImport c, .contextDestroy c, .contextCancelJob c, .startArgWrite fn c e v, .identityRegisterWrite d v, .fbaseWrite d v
  , .fretWrite d v, .registerWrite a k v ]

end Sys2Proof.Claims

open Sys2Proof Sys2Proof.Machine Sys2Proof.Claims

/-- R288, R292, R294: `vmov` copies A, `vsel` takes A where its predicate is 1 and B elsewhere, `vbool` looks each bit up in C
with the old value of the destination, `vbfe` extracts and `vbfi` replaces a bit field; none sets a flag. -/
def Sys2Proof.Claims.VectorMovesAndFields : Prop :=
  ∀ (o : VOp) (s : State) (w : Warp) (sp : Fin 8) (x : Split),
    (Issues (.vmov o) s w sp x → Plain (.vmov o) o w x →
      WritesV (.vmov o) s w sp x o.d (reads (.vmov o) s w sp x o.ty o.imm o.a) 0) ∧
    (∀ p, Issues (.vsel o p) s w sp x → Plain (.vsel o p) o w x →
      WritesV (.vsel o p) s w sp x o.d
        (fun l => if (preg w p).getLsbD l.val then reads (.vsel o p) s w sp x o.ty o.imm o.a l
          else reads (.vsel o p) s w sp x o.ty o.imm o.b l) 0) ∧
    (Issues (.vbool o) s w sp x → Plain (.vbool o) o w x →
      ∃ r, WritesV (.vbool o) s w sp x o.d r 0 ∧ ∀ l, inAct (.vbool o) w x l → ∀ j, j < 64 →
        (r l).getLsbD j = (reads (.vbool o) s w sp x o.ty o.imm o.c l).getLsbD
          (4 * ((vreg w o.d l).getLsbD j).toNat + 2 * ((reads (.vbool o) s w sp x o.ty o.imm o.b l).getLsbD j).toNat
            + ((reads (.vbool o) s w sp x o.ty o.imm o.a l).getLsbD j).toNat)) ∧
    (Issues (.vbfe o) s w sp x → Plain (.vbfe o) o w x →
      ∃ r, WritesV (.vbfe o) s w sp x o.d r 0 ∧ ∀ l, inAct (.vbfe o) w x l → ∀ k, k < subCount o.ty →
        isField o.ty (reads (.vbfe o) s w sp x .b64 o.imm o.b l) (sub o.ty (reads (.vbfe o) s w sp x o.ty o.imm o.a l) k)
          (sub o.ty (r l) k)) ∧
    (Issues (.vbfi o) s w sp x → Plain (.vbfi o) o w x →
      ∃ r, WritesV (.vbfi o) s w sp x o.d r 0 ∧ ∀ l, inAct (.vbfi o) w x l → ∀ k, k < subCount o.ty →
        isInsert o.ty (reads (.vbfi o) s w sp x .b64 o.imm o.c l) (sub o.ty (reads (.vbfi o) s w sp x o.ty o.imm o.a l) k)
          (sub o.ty (reads (.vbfi o) s w sp x o.ty o.imm o.b l) k) (sub o.ty (r l) k))

/-- R293: the forms that change the width of sub-elements. The types that a well-formed one has are of 4 to 32 bits. -/
def Sys2Proof.Claims.VectorWidthChanges : Prop :=
  ∀ (o : VOp) (s : State) (w : Warp) (sp : Fin 8) (x : Split),
    let wd := tyWidth o.ty
    (Issues (.vmulw o) s w sp x → Plain (.vmulw o) o w x →
      WritesSubs (.vmulw o) s w sp x o.d (2 * wd) (32 / wd) fun l k =>
        (lowBits (2 * wd) (intOf o.ty (sub o.ty (reads (.vmulw o) s w sp x o.ty o.imm o.a l) k)
          * intOf o.ty (sub o.ty (reads (.vmulw o) s w sp x o.ty o.imm o.b l) k)), 0)) ∧
    (Issues (.vunpkLo o) s w sp x → Plain (.vunpkLo o) o w x →
      WritesSubs (.vunpkLo o) s w sp x o.d (2 * wd) (32 / wd) fun l k =>
        (lowBits (2 * wd) (intOf o.ty (sub o.ty (reads (.vunpkLo o) s w sp x o.ty o.imm o.a l) k)), 0)) ∧
    (Issues (.vunpkHi o) s w sp x → Plain (.vunpkHi o) o w x →
      WritesSubs (.vunpkHi o) s w sp x o.d (2 * wd) (32 / wd) fun l k =>
        (lowBits (2 * wd) (intOf o.ty (sub o.ty (reads (.vunpkHi o) s w sp x o.ty o.imm o.a l) (k + 32 / wd))), 0)) ∧
    (Issues (.vpack o) s w sp x → Plain (.vpack o) o w x →
      WritesSubs (.vpack o) s w sp x o.d wd (64 / wd) fun l k =>
        reduced o.ty o.sat (intOf (tyWider o.ty)
          (if k < 32 / wd then sub (tyWider o.ty) (reads (.vpack o) s w sp x (tyWider o.ty) o.imm o.a l) k
           else sub (tyWider o.ty) (reads (.vpack o) s w sp x (tyWider o.ty) o.imm o.b l) (k - 32 / wd)))) ∧
    (Issues (.vdot4 o) s w sp x → Plain (.vdot4 o) o w x →
      let wide : Ty := if o.ty = .i8 then .i32 else .n32
      WritesSubs (.vdot4 o) s w sp x o.d 32 2 fun l j =>
        let p := fun (i : Nat) => intOf o.ty (sub o.ty (reads (.vdot4 o) s w sp x o.ty o.imm o.a l) (4 * j + i))
          * intOf o.ty (sub o.ty (reads (.vdot4 o) s w sp x o.ty o.imm o.b l) (4 * j + i))
        reduced wide o.sat (intOf wide (sub wide (reads (.vdot4 o) s w sp x wide o.imm o.c l) j) + (p 0 + p 1 + p 2 + p 3)))

/-- R297: `vcmp` writes, in the active lanes of its predicate, the comparison of sub-elements 0 of A and B, read as integers or
as floating values of the type; a destination of `p7` is discarded (R5). -/
def Obligations.VectorCompare : Prop :=
  ∀ (c : Cond) (o : VOp) (s : State) (w : Warp) (sp : Fin 8) (x : Split),
    Issues (.vcmp c o) s w sp x → Plain (.vcmp c o) o w x →
    let i := Instr.vcmp c o
    let a := fun l => sub o.ty (reads i s w sp x o.ty o.imm o.a l) 0
    let b := fun l => sub o.ty (reads i s w sp x o.ty o.imm o.b l) 0
    ∃ (m : Mask) (fl : BitVec 16),
      Writes i s w sp x (fun y => setFlags (setP y (Fin.ofNat 8 o.d.val) (activeOf i w x) m) fl) ∧
      (∀ l, inAct i w x l → m.getLsbD l.val =
        if tyFloat o.ty then (fCmp (fmtOf o.ty) c (a l) (b l)).1 else iCmp c (intOf o.ty (a l)) (intOf o.ty (b l))) ∧
      ∀ j, fl.getLsbD j = true ↔ tyFloat o.ty = true ∧ ∃ l, inAct i w x l ∧ (fCmp (fmtOf o.ty) c (a l) (b l)).2.getLsbD j = true

/-- R309: a scan writes in each active lane what its op makes of the active lanes up to it, a reduction what it makes of all of
them, sub-element by sub-element. An integer add sets SI where a sub-element that it wrote was clamped; a floating op sets the
flags of all its steps (of an exclusive one too: the model's choice, log 29). -/
def Obligations.ScansAndReductions : Prop :=
  ∀ (o : VOp) (op : RedOp) (s : State) (w : Warp) (sp : Fin 8) (x : Split),
    let col := fun (i : Instr) (ls : List (Fin 32)) (k : Nat) => ls.map fun m => sub o.ty (reads i s w sp x o.ty o.imm o.a m) k
    let all := fun (i : Instr) => (activeOf i w x).lanes
    (∀ excl, Issues (.vscan o op excl) s w sp x →
      let i := Instr.vscan o op excl
      ∃ r fl, WritesV i s w sp x o.d r fl ∧
        (∀ l, inAct i w x l → ∀ k, k < subCount o.ty →
          sub o.ty (r l) k = (scanOf op o.ty o.sat (col i (lanesUpTo i w x excl l) k)).1) ∧
        ∀ j, fl.getLsbD j = true ↔ ∃ k, k < subCount o.ty ∧
          if tyFloat o.ty then (scanOf op o.ty o.sat (col i (all i) k)).2.getLsbD j = true
          else ∃ l, inAct i w x l ∧ (scanOf op o.ty o.sat (col i (lanesUpTo i w x excl l) k)).2.getLsbD j = true) ∧
    (Issues (.vred o op) s w sp x →
      let i := Instr.vred o op
      ∃ r fl, WritesV i s w sp x o.d r fl ∧
        (∀ l, inAct i w x l → ∀ k, k < subCount o.ty → sub o.ty (r l) k = (scanOf op o.ty o.sat (col i (all i) k)).1) ∧
        ∀ j, fl.getLsbD j = true ↔ ∃ k, k < subCount o.ty ∧ (scanOf op o.ty o.sat (col i (all i) k)).2.getLsbD j = true)

/-- R290, R291: `srd` writes a special warp value; `srd.flags` writes the flag word, and its clearing form then clears the flags
that B names; `vtos` sends the value of the lane that B names to an s-register, eight cycles later (R123). -/
def Sys2Proof.Claims.StateReads : Prop :=
  ∀ (g : Guard) (d : Fin 128) (s : State) (w : Warp) (sp : Fin 8) (x : Split),
    (∀ k, Issues (.srd g d k) s w sp x →
      WritesOnce (.srd g d k) s w sp x (fun y => setS y d (warpVal s (issOf (.srd g d k) w sp x) k))) ∧
    (Issues (.srdFlags g d) s w sp x →
      WritesOnce (.srdFlags g d) s w sp x (fun y => setS y d (y.flags.setWidth 64))) ∧
    (∀ b w1, Issues (.srdFlagsClr g d b w1) s w sp x →
      ∃ m : BitVec 16, WritesOnce (.srdFlagsClr g d b w1) s w sp x (fun y => { setS y d (y.flags.setWidth 64) with flags := m }) ∧
        ∀ j, m.getLsbD j = (w.flags.getLsbD j
          && !(decide (j < 6) && (readS (.srdFlagsClr g d b w1) s w sp x w1 b).getLsbD j))) ∧
    (∀ va b w1, Issues (.vtos g d va b w1) s w sp x →
      let i := Instr.vtos g d va b w1
      let lane : Fin 32 := Fin.ofNat 32 (bitsOf (readS i s w sp x w1 b) 0 5)
      RunsTo i s w sp x (if activeOf i w x = 0 then counted s w sp else modWarp
        { counted s w sp with
          serial := s.serial + 1
          results := s.results ++ [{ result0 (issOf i w sp x) .vtos with
            id := s.serial, due := some (s.now + 8), sw := some (d, vreg w va lane) }] } w.id
        fun y => pendS y d))

/-- R62, R72, R114: the special values. Of a warp of a unit, its rank, its unit's index, its launch's number and fields, and the item indices;
of a job or fault-service warp, one unit of 32 items; and of every warp the core's word and cycles, the context clock, which stands while the
context halts or is halted, its masks, its core's number, its splits, the depth of the return stack and its live handles. -/
def Sys2Proof.Claims.SpecialValues : Prop :=
  ∀ (i : Instr) (s : State) (w : Warp) (sp : Fin 8) (x : Split),
    let n := fun (k : Nat) => BitVec.ofNat 64 k
    let v := fun (k : Fin 17) => warpVal s (issOf i w sp x) k
    (∀ u la, unitOf s w = some u → launchOf s u = some la →
      v 0 = n w.rank ∧ v 1 = n u.index ∧ v 2 = n la.id ∧ v 3 = n ((u.index * la.r.wpu + w.rank) * 32) ∧ v 4 = n la.r.items ∧ v 5 = la.r.args ∧
      v 12 = n la.r.wpu ∧ ∀ l : Fin 32, laneVal s w 1 l = n ((u.index * la.r.wpu + w.rank) * 32 + l.val) ∧ laneVal s w 3 l = n u.index ∧
        laneVal s w 4 l = n la.id) ∧
    (onDispatch w = true → v 1 = 0 ∧ v 2 = 0 ∧ v 3 = 0 ∧ v 4 = 32 ∧ v 12 = 1 ∧ (isJob w = true → v 5 = s.ctxs[w.ctx].jobArg) ∧
      (isService w = true → v 5 = 0) ∧ ∀ l : Fin 32, laneVal s w 1 l = n l.val ∧ laneVal s w 3 l = 0 ∧ laneVal s w 4 l = 0) ∧
    v 6 = (s.cores[w.core].ppw).setWidth 64 ∧
    (s.ctxs[w.ctx].st ∈ [CState.halting, .halted] → v 7 = n s.ctxs[w.ctx].clock) ∧
    (s.ctxs[w.ctx].st ∉ [CState.halting, .halted] → v 7 = n (s.ctxs[w.ctx].clock + Config.elapsed s.ctxs[w.ctx].clockAt s.now)) ∧
    v 8 = n (s.now - s.cores[w.core].cyc0) ∧ v 9 = (activeOf i w x).setWidth 64 ∧ v 10 = w.live.setWidth 64 ∧ v 11 = w.launched.setWidth 64 ∧
    v 13 = n w.core.val ∧ v 14 = n ((List.finRange 8).filter fun k => w.splits[k].isSome).length ∧ v 15 = n x.depth ∧
    v 16 = n (s.ctxs[w.ctx].handles.filter fun e => e.creator == w.id && e.st != .free).length ∧
    ∀ l : Fin 32, laneVal s w 0 l = n l.val ∧ laneVal s w 2 l = n w.rank ∧ ∀ j, j < 64 →
      (laneVal s w 5 l).getLsbD j = decide (j < l.val) ∧ (laneVal s w 6 l).getLsbD j = decide (j ≤ l.val) ∧
      (laneVal s w 7 l).getLsbD j = (decide (l.val < j) && decide (j < 32))

/-- R62, R72, R114, R290, R291: what `srd`, `srd.flags`, its clearing form and `vtos` write, and the special values. -/
def Obligations.WarpStateReads : Prop := Claims.StateReads ∧ Claims.SpecialValues

/-- R180, R288, R292: every sub-element of an active lane is the exact result, with SAT = 0 its low bits, with SAT = 1 clamped
to the type; SI is set where a sub-element of an active lane was clamped, and no other flag. -/
def Sys2Proof.Claims.VectorExactArithmetic : Prop :=
  ∀ p ∈ exactForms, ∀ (o : VOp) (s : State) (w : Warp) (sp : Fin 8) (x : Split),
    Issues (p.1 o) s w sp x → Plain (p.1 o) o w x →
    WritesSubs (p.1 o) s w sp x o.d (tyWidth o.ty) (subCount o.ty) fun l k =>
      reduced o.ty o.sat (p.2 o.ty (intOf o.ty (sub o.ty (reads (p.1 o) s w sp x o.ty o.imm o.a l) k))
        (intOf o.ty (sub o.ty (reads (p.1 o) s w sp x o.ty o.imm o.b l) k))
        (intOf o.ty (sub o.ty (reads (p.1 o) s w sp x o.ty o.imm o.c l) k)))

/-- R288, R292: the integer forms that act on bits write each sub-element of an active lane as their function says and set no
flag. -/
def Sys2Proof.Claims.VectorBitResults : Prop :=
  ∀ p ∈ bitForms, ∀ (o : VOp) (s : State) (w : Warp) (sp : Fin 8) (x : Split),
    Issues (p.1 o) s w sp x → Plain (p.1 o) o w x →
    ∃ r, WritesV (p.1 o) s w sp x o.d r 0 ∧
      ∀ l, inAct (p.1 o) w x l → ∀ k, k < subCount o.ty →
        p.2.holds o.ty (sub o.ty (reads (p.1 o) s w sp x o.ty o.imm o.a l) k)
          (sub o.ty (reads (p.1 o) s w sp x o.ty o.imm o.b l) k) (sub o.ty (r l) k)

/-- R180, R288, R292: the integer forms whose sub-elements are exact results, and those that act on bits. -/
def Obligations.VectorIntegers : Prop := Claims.VectorExactArithmetic ∧ Claims.VectorBitResults

/-- R188, R190, R194-R197, R295: the floating-point forms write in each sub-element of an active lane their function of the
operands' sub-elements, computed exactly and rounded once, and set the flags of those sub-elements. -/
def Sys2Proof.Claims.FloatArithmetic : Prop :=
  (∀ p ∈ floatForms, ∀ (o : VOp) (s : State) (w : Warp) (sp : Fin 8) (x : Split),
    Issues (p.1 o) s w sp x → Plain (p.1 o) o w x →
    WritesSubs (p.1 o) s w sp x o.d (tyWidth o.ty) (subCount o.ty) fun l k =>
      p.2 (fmtOf o.ty) o.rnd o.sat (sub o.ty (reads (p.1 o) s w sp x o.ty o.imm o.a l) k)
        (sub o.ty (reads (p.1 o) s w sp x o.ty o.imm o.b l) k) (sub o.ty (reads (p.1 o) s w sp x o.ty o.imm o.c l) k)) ∧
  (∀ (o : VOp) (s : State) (w : Warp) (sp : Fin 8) (x : Split),
    Issues (.vfdot2 o) s w sp x → Plain (.vfdot2 o) o w x →
    let i := Instr.vfdot2 o
    let f := fmtOf o.ty
    WritesSubs i s w sp x o.d 32 2 fun l j =>
      let a := fun k => sub o.ty (reads i s w sp x o.ty o.imm o.a l) (2 * j + k)
      let b := fun k => sub o.ty (reads i s w sp x o.ty o.imm o.b l) (2 * j + k)
      let c := sub .f32 (reads i s w sp x .f32 o.imm o.c l) j
      fusedSum fmtF32 o.rnd o.sat [(fVal f (a 0), fVal f (b 0)), (fVal f (a 1), fVal f (b 1))] [fVal fmtF32 c]
        (dotNan f [a 0, a 1, b 0, b 1] c) ([a 0, a 1, b 0, b 1].any (fSnan f) || fSnan fmtF32 c))

/-- R295, R296: `vfabs`, `vfneg` and `vfsgn` act on the sign bit alone, `vfclass` writes the one bit of the class; none sets a
flag. -/
def Sys2Proof.Claims.FloatSignsAndClass : Prop :=
  ∀ (o : VOp) (s : State) (w : Warp) (sp : Fin 8) (x : Split),
    let wd := tyWidth o.ty
    (Issues (.vfabs o) s w sp x → Plain (.vfabs o) o w x →
      ∃ r, WritesV (.vfabs o) s w sp x o.d r 0 ∧ ∀ l, inAct (.vfabs o) w x l → ∀ k, k < subCount o.ty → ∀ j, j < wd →
        (sub o.ty (r l) k).testBit j = (j != wd - 1 && (sub o.ty (reads (.vfabs o) s w sp x o.ty o.imm o.a l) k).testBit j)) ∧
    (Issues (.vfneg o) s w sp x → Plain (.vfneg o) o w x →
      ∃ r, WritesV (.vfneg o) s w sp x o.d r 0 ∧ ∀ l, inAct (.vfneg o) w x l → ∀ k, k < subCount o.ty → ∀ j, j < wd →
        (sub o.ty (r l) k).testBit j = ((j == wd - 1) != (sub o.ty (reads (.vfneg o) s w sp x o.ty o.imm o.a l) k).testBit j)) ∧
    (Issues (.vfsgn o) s w sp x → Plain (.vfsgn o) o w x →
      ∃ r, WritesV (.vfsgn o) s w sp x o.d r 0 ∧ ∀ l, inAct (.vfsgn o) w x l → ∀ k, k < subCount o.ty → ∀ j, j < wd →
        (sub o.ty (r l) k).testBit j =
          (if j = wd - 1 then (sub o.ty (reads (.vfsgn o) s w sp x o.ty o.imm o.b l) k).testBit j
           else (sub o.ty (reads (.vfsgn o) s w sp x o.ty o.imm o.a l) k).testBit j)) ∧
    (Issues (.vfclass o) s w sp x → Plain (.vfclass o) o w x →
      ∃ r, WritesV (.vfclass o) s w sp x o.d r 0 ∧ ∀ l, inAct (.vfclass o) w x l → ∀ k, k < subCount o.ty →
        sub o.ty (r l) k = 2 ^ classBit (fmtOf o.ty) (sub o.ty (reads (.vfclass o) s w sp x o.ty o.imm o.a l) k))

/-- R195, R196, R295: minimum, maximum and rounding to a whole number. Of a NaN and a number the number is taken, of two NaNs the first, made
quiet; of two numbers the smaller or the larger, with -0 below +0. A signalling NaN sets NV. `vfrnd` keeps an infinity, and of a number gives
the whole number that the mode rounds it to, with its sign; it sets no other flag. -/
def Sys2Proof.Claims.FloatOrder : Prop :=
  ∀ f ∈ [fmtF16, fmtBF16, fmtF32, fmtF64], ∀ a b : Nat,
    let fl := if fSnan f a || fSnan f b then flagNV else 0
    let are := fun (lo hi : Nat) => fMinMax f false a b = (lo, fl) ∧ fMinMax f true a b = (hi, fl)
    (fNan f a = true → fNan f b = true → are (fQuiet f a) (fQuiet f a)) ∧
    (fNan f a = true → fNan f b = false → are b b) ∧ (fNan f a = false → fNan f b = true → are a a) ∧
    (∀ n, fVal f a = .inf n → fNan f b = false → fVal f b ≠ .inf n → if n then are a b else are b a) ∧
    (∀ n, fVal f b = .inf n → fNan f a = false → fVal f a ≠ .inf n → if n then are b a else are a b) ∧
    (∀ n m e p q d, fVal f a = .num n m e → fVal f b = .num p q d → ∀ k, k ≤ e → k ≤ d →
      (scaledAt n m e k < scaledAt p q d k → are a b) ∧ (scaledAt p q d k < scaledAt n m e k → are b a) ∧
      (m = 0 → q = 0 → n = true → p = false → are a b) ∧ (m = 0 → q = 0 → n = false → p = true → are b a)) ∧
    ∀ r : Rnd,
      (fNan f a = true → fRnd f r a = (fQuiet f a, if fSnan f a then flagNV else 0)) ∧
      (∀ n, fVal f a = .inf n → fRnd f r a = (a, 0)) ∧
      ∀ n m e, fVal f a = .num n m e → (fRnd f r a).2 = 0 ∧
        ∃ m' e', fVal f (fRnd f r a).1 = .num n m' e' ∧ ∀ k, k ≤ e' → k ≤ 0 →
          scaledAt false m' e' k = scaledAt false (quanta r n m e 0 false).1 0 k

/-- R196, R297: the conditions of `vcmp` on floating operands. With a NaN only ne and unord hold; ordered operands compare by value, with
both zeros equal. A signalling NaN sets NV, and so does any NaN under lt, le, gt and ge. -/
def Sys2Proof.Claims.FloatConditions : Prop :=
  ∀ f ∈ [fmtF16, fmtBF16, fmtF32, fmtF64], ∀ (c : Cond) (a b : Nat),
    let side := fun (n : Bool) => if n then (-1 : Int) else 1
    (fNan f a = true ∨ fNan f b = true → fCmp f c a b =
      (decide (c = .ne ∨ c = .unord), if fSnan f a || fSnan f b || decide (c ∈ [Cond.lt, .le, .gt, .ge]) then flagNV else 0)) ∧
    (∀ n p, fVal f a = .inf n → fVal f b = .inf p → fCmp f c a b = (iCmp c (side n) (side p), 0)) ∧
    (∀ n p q d, fVal f a = .inf n → fVal f b = .num p q d → fCmp f c a b = (iCmp c (side n) 0, 0)) ∧
    (∀ n m e p, fVal f a = .num n m e → fVal f b = .inf p → fCmp f c a b = (iCmp c 0 (side p), 0)) ∧
    ∀ n m e p q d, fVal f a = .num n m e → fVal f b = .num p q d → ∀ k, k ≤ e → k ≤ d →
      fCmp f c a b = (iCmp c (scaledAt n m e k) (scaledAt p q d k), 0)

/-- R188, R190, R194-R197, R295-R297: the floating-point forms of OP 0x01, and the order of floating numbers. -/
def Obligations.FloatForms : Prop :=
  Claims.FloatArithmetic ∧ Claims.FloatSignsAndClass ∧ Claims.FloatOrder ∧ Claims.FloatConditions

/-- R188: the quanta that a magnitude `m / 2^d` is rounded to, in each mode, and when something is lost: RTZ leaves the largest
whole number not above it, RNE a nearest one and the even one of two, RDN and RUP the next one in their direction. -/
def Sys2Proof.Claims.RoundingIsCorrect : Prop :=
  ∀ (neg : Bool) (m d : Nat),
    let q := fun r => (quanta r neg m (-(d : Int)) 0 false).1
    (∀ r, (quanta r neg m (-(d : Int)) 0 false).2 = true ↔ m % 2 ^ d ≠ 0) ∧
    (q .rtz * 2 ^ d ≤ m ∧ m < (q .rtz + 1) * 2 ^ d) ∧
    (2 * (q .rne * 2 ^ d) ≤ 2 * m + 2 ^ d ∧ 2 * m ≤ 2 * (q .rne * 2 ^ d) + 2 ^ d ∧
      ((2 * (q .rne * 2 ^ d) = 2 * m + 2 ^ d ∨ 2 * m = 2 * (q .rne * 2 ^ d) + 2 ^ d) → q .rne % 2 = 0)) ∧
    (∀ r, (r = .rdn ∧ neg = true ∨ r = .rup ∧ neg = false) → m ≤ q r * 2 ^ d ∧ q r * 2 ^ d < m + 2 ^ d) ∧
    (∀ r, (r = .rdn ∧ neg = false ∨ r = .rup ∧ neg = true) → q r * 2 ^ d ≤ m ∧ m < (q r + 1) * 2 ^ d)

/-- R188-R190: a magnitude rounded once to a format. The quantum is that of the format at the magnitude, or that of its subnormals; the whole
quanta of the mode are the result, with NX where something was lost, and UF where moreover the magnitude, rounded to the format's precision
with no least exponent, is below its least normal number. Beyond the largest number it is an overflow: that number or an infinity, as the mode
and the sign say; with SAT the number, without it in a format that has a NaN and no infinity the NaN, with NV. -/
def Sys2Proof.Claims.RoundedMagnitudes : Prop :=
  ∀ f ∈ [fmtF16, fmtBF16, fmtF32, fmtF64, fmtE4M3, fmtE5M2, fmtE3M2, fmtE2M1], ∀ (r : Rnd) (sat neg : Bool) (m : Nat) (e : Int),
    let low : Int := 1 - (f.bias : Int) - f.mb
    let top := e + Nat.log2 m
    let q := max (top - f.mb) low
    let n := quanta r neg m e q false
    let free := quanta r neg m e (top - f.mb) false
    let past := ∀ (b : Bool) (x : Nat) (d : Int), fVal f (maxBits f) = .num b x d → ∀ k, k ≤ d → k ≤ q →
      scaledAt false x d k < scaledAt false n.1 q k
    let tiny := n.2 = true ∧ ∀ k, k ≤ top - f.mb → k ≤ low → scaledAt false free.1 (top - f.mb) k < scaledAt false (2 ^ f.mb) low k
    let away := r = .rne ∨ (r = .rup ∧ neg = false) ∨ (r = .rdn ∧ neg = true)
    roundMag f r sat neg 0 e false = (withSign f neg 0, 0) ∧
    (m ≠ 0 → ¬ past →
      (∃ x d, fVal f (roundMag f r sat neg m e false).1 = .num neg x d ∧ ∀ k, k ≤ d → k ≤ q → scaledAt false x d k = scaledAt false n.1 q k) ∧
      (tiny → (roundMag f r sat neg m e false).2 = flagNX ||| flagUF) ∧
      (¬ tiny → (roundMag f r sat neg m e false).2 = if n.2 then flagNX else 0)) ∧
    (m ≠ 0 → past →
      (away → sat = false → f.fin = .ieee → roundMag f r sat neg m e false = (infBits f neg, flagOF ||| flagNX)) ∧
      (away → sat = false → f.fin = .nanOnly → roundMag f r sat neg m e false = (genNan f 0, flagOF ||| flagNX ||| flagNV)) ∧
      (¬ away ∨ sat = true ∨ f.fin = .finite → roundMag f r sat neg m e false = (withSign f neg (maxBits f), flagOF ||| flagNX)))

/-- R188, R190, R197: a sum, a difference, a product and a multiply-add of numbers, none of them zero as a result, are the exact values
rounded once. -/
def Sys2Proof.Claims.ExactThenRounded : Prop :=
  ∀ f ∈ [fmtF16, fmtBF16, fmtF32, fmtF64], ∀ (r : Rnd) (sat : Bool) (a b c : Nat) (n p z : Bool) (m q y : Nat) (e d g : Int),
    fVal f a = .num n m e → fVal f b = .num p q d → fVal f c = .num z y g →
    let once := fun (v k : Int) => roundMag f r sat (decide (v < 0)) v.natAbs k false
    (∀ k, k ≤ e → k ≤ d →
      (scaledAt n m e k + scaledAt p q d k ≠ 0 → fAdd f r sat a b = once (scaledAt n m e k + scaledAt p q d k) k) ∧
      (scaledAt n m e k - scaledAt p q d k ≠ 0 → fSub f r sat a b = once (scaledAt n m e k - scaledAt p q d k) k)) ∧
    (m * q ≠ 0 → fMul f r sat a b = roundMag f r sat (n != p) (m * q) (e + d) false) ∧
    (m * q = 0 → fMul f r sat a b = (withSign f (n != p) 0, 0)) ∧
    (∀ k, k ≤ e + d → k ≤ g →
      let v := scaledAt (n != p) (m * q) (e + d) k + scaledAt z y g k
      (v ≠ 0 → fMa f r sat a b c = once v k) ∧
      (v = 0 → fMa f r sat a b c = (withSign f (if (n != p) = z then z else r == .rdn) 0, 0)))

/-- R194, R195, R197, R295: products and multiply-adds of operands that are not all numbers. The first NaN, made quiet, is the result, with NV
where one signals or where the operation would make one; zero times an infinity gives the generated NaN of code 4, opposite infinities that of
code 3; any other infinity stays, with the sign of its product. -/
def Sys2Proof.Claims.ProductSpecials : Prop :=
  ∀ f ∈ [fmtF16, fmtBF16, fmtF32, fmtF64], ∀ (r : Rnd) (sat : Bool) (a b c : Nat),
    let makes := zeroInf (fVal f a) (fVal f b) = true
    let sign := fNeg f a != fNeg f b
    (∀ x y, zeroInf x y = true ↔ (∃ n p e, x = .inf n ∧ y = .num p 0 e) ∨ ∃ n p e, x = .num n 0 e ∧ y = .inf p) ∧
    (fNan f a = true → fMul f r sat a b = (fQuiet f a, if fSnan f a || fSnan f b then flagNV else 0)) ∧
    (fNan f a = false → fNan f b = true → fMul f r sat a b = (fQuiet f b, if fSnan f b then flagNV else 0)) ∧
    (makes → fMul f r sat a b = (genNan f 4, flagNV)) ∧
    (∀ x, fNan f a = false → fNan f b = false → ¬ makes → (fVal f a = .inf x ∨ fVal f b = .inf x) → fMul f r sat a b = (infBits f sign, 0)) ∧
    (∀ x, [a, b, c].find? (fNan f) = some x →
      fMa f r sat a b c = (fQuiet f x, if [a, b, c].any (fSnan f) || zeroInf (fVal f a) (fVal f b) then flagNV else 0)) ∧
    ([a, b, c].any (fNan f) = false →
      (makes → fMa f r sat a b c = (genNan f 4, flagNV)) ∧
      (¬ makes → (∃ x, fVal f a = .inf x ∨ fVal f b = .inf x) →
        (fVal f c = .inf (!sign) → fMa f r sat a b c = (genNan f 3, flagNV)) ∧
        (fVal f c ≠ .inf (!sign) → fMa f r sat a b c = (infBits f sign, 0))) ∧
      (∀ x, (∀ y, fVal f a ≠ .inf y ∧ fVal f b ≠ .inf y) → fVal f c = .inf x → fMa f r sat a b c = (infBits f x, 0)))

/-- R189, R190, R194, R195: sums of a format. A NaN operand gives the first NaN made quiet, and NV where one signals; opposite
infinities give the generated NaN of code 3 and NV; an infinity otherwise stays; an exact zero sum of two numbers of
opposite signs is +0, and -0 under RDN, and of two zeros of one sign it has that sign. -/
def Sys2Proof.Claims.FloatSumSpecials : Prop :=
  ∀ f ∈ [fmtF16, fmtBF16, fmtF32, fmtF64], ∀ (r : Rnd) (sat : Bool) (a b : Nat),
    (fNan f a = true → fAdd f r sat a b = (fQuiet f a, if fSnan f a || fSnan f b then flagNV else 0)) ∧
    (fNan f a = false → fNan f b = true → fAdd f r sat a b = (fQuiet f b, if fSnan f b then flagNV else 0)) ∧
    (∀ n, fVal f a = .inf n → fVal f b = .inf (!n) → fAdd f r sat a b = (genNan f 3, flagNV)) ∧
    (∀ n, fVal f a = .inf n → fVal f b = .inf n → fAdd f r sat a b = (infBits f n, 0)) ∧
    (∀ n p m e, fVal f a = .inf n → fVal f b = .num p m e → fAdd f r sat a b = (infBits f n, 0)) ∧
    (∀ n m e, fVal f a = .num n m e → fVal f b = .num (!n) m e →
      fAdd f r sat a b = (withSign f (r == .rdn) 0, 0)) ∧
    (∀ n, fVal f a = .num n 0 (1 - (f.bias : Int) - f.mb) → fVal f b = .num n 0 (1 - (f.bias : Int) - f.mb) →
      fAdd f r sat a b = (withSign f n 0, 0))

/-- R188-R190, R194, R195, R197, R295: rounding in every mode and to every format, the sums and products that it decides, and those that it
does not. -/
def Obligations.RoundingAndSums : Prop :=
  Claims.RoundingIsCorrect ∧ Claims.RoundedMagnitudes ∧ Claims.ExactThenRounded ∧ Claims.FloatSumSpecials ∧ Claims.ProductSpecials

/-- R191, R192, R298-R302: the conversions write each element of an active lane as its rule says, in sub-elements of the
destination's width, with zero above; `vscale.mx` writes the one scale byte of the active lanes' values into each active
lane. -/
def Sys2Proof.Claims.VectorConversions : Prop :=
  ∀ (o : VOp) (s : State) (w : Warp) (sp : Fin 8) (x : Split),
    let wd := tyWidth o.ty
    (∀ t, Issues (.vcvt o t) s w sp x → Plain (.vcvt o t) o w x →
      WritesSubs (.vcvt o t) s w sp x o.d wd (64 / max (tyWidth t) wd) fun l k =>
        convert t o.ty o.rnd o.sat (sub t (reads (.vcvt o t) s w sp x t o.imm o.a l) k)) ∧
    (∀ f, Issues (.vcvtMx o f) s w sp x → Plain (.vcvtMx o f) o w x →
      WritesSubs (.vcvtMx o f) s w sp x o.d wd (64 / wd) fun l k =>
        mxDecode f o.ty o.rnd o.sat (bitsOf (reads (.vcvtMx o f) s w sp x o.ty o.imm o.a l) (k * mxWidth f) (mxWidth f))
          (bitsOf (reads (.vcvtMx o f) s w sp x .b64 o.imm o.b l) 0 8)) ∧
    (∀ f, Issues (.vcvtTomx o f) s w sp x → Plain (.vcvtTomx o f) o w x →
      WritesSubs (.vcvtTomx o f) s w sp x o.d (mxWidth f) (64 / wd) fun l k =>
        mxEncode f o.ty o.rnd o.sat (sub o.ty (reads (.vcvtTomx o f) s w sp x o.ty o.imm o.a l) k)
          (bitsOf (reads (.vcvtTomx o f) s w sp x .b64 o.imm o.b l) 0 8)) ∧
    (∀ f, Issues (.vscaleMx o f) s w sp x → Plain (.vscaleMx o f) o w x →
      WritesV (.vscaleMx o f) s w sp x o.d
        (fun _ => BitVec.ofNat 64 (mxScale f ((activeOf (.vscaleMx o f) w x).lanes.map fun l =>
          fVal (fmtOf o.ty) (sub o.ty (reads (.vscaleMx o f) s w sp x o.ty o.imm o.a l) 0)))) 0)

/-- R192, R298: integer conversions. From integer to integer the value is reduced; from a floating number to an integer a value
out of range after rounding gives the nearest bound and NV, a NaN gives zero and NV, and any other is rounded, with NX where
that changed it. -/
def Sys2Proof.Claims.IntegerConversions : Prop :=
  ∀ (t d : Ty) (r : Rnd) (sat : Bool) (a : Nat), tyInteger d = true →
    (tyInteger t = true → convert t d r sat a = reduced d sat (intOf t a)) ∧
    (tyInteger t = false →
      (fVal (fmtOf t) a = .nan → convert t d r sat a = (0, flagNV)) ∧
      (∀ n, fVal (fmtOf t) a = .inf n → convert t d r sat a = (lowBits (tyWidth d) (if n then intMin d else intMax d), flagNV)) ∧
      (∀ n m e, fVal (fmtOf t) a = .num n m e →
        let q := quanta r n m e 0 false
        let v : Int := if n then -(q.1 : Int) else q.1
        convert t d r sat a = (lowBits (tyWidth d) (clampTo d v),
          if clampTo d v ≠ v then flagNV else if q.2 then flagNX else 0)))

/-- R189, R192, R194, R195, R298: conversions to a floating type. A number, or an integer, is rounded once; an infinity stays, or in a format
that has none becomes its NaN with NV, or with SAT its largest number. A NaN keeps its sign and the low bits of its fraction that fit, quiet; one of an 8-bit
format, or into one, becomes the generated NaN with NV. Within one type a value is kept and a signalling NaN made quiet. -/
def Sys2Proof.Claims.FloatConversions : Prop :=
  ∀ (t d : Ty) (r : Rnd) (sat : Bool) (a : Nat), d ∈ [Ty.f16, .bf16, .f32, .e4m3, .e5m2] →
    let f := fmtOf t
    let g := fmtOf d
    let small := fun (t : Ty) => t = .e4m3 ∨ t = .e5m2
    (tyInteger t = true → convert t d r sat a = roundMag g r sat (decide (intOf t a < 0)) (intOf t a).natAbs 0 false) ∧
    (t ∈ [Ty.f16, .bf16, .f32, .e4m3, .e5m2] →
      (t = d → convert t d r sat a = (if fSnan f a then (fQuiet f a, flagNV) else (a % 2 ^ tyWidth d, 0))) ∧
      (t ≠ d →
        (∀ n m e, fVal f a = .num n m e → convert t d r sat a = roundMag g r sat n m e false) ∧
        (∀ n, fVal f a = .inf n →
          (d ≠ .e4m3 → convert t d r sat a = (infBits g n, 0)) ∧
          (d = .e4m3 → convert t d r sat a = if sat then (withSign g n 0x7E, 0) else (0x7F, flagNV))) ∧
        (fNan f a = true → small t ∧ small d → convert t d r sat a = (if d = .e4m3 then 0x7F else 0x7E, flagNV)) ∧
        (fNan f a = true → small t → ¬ small d → convert t d r sat a = (genNan g 1, flagNV)) ∧
        (fNan f a = true → ¬ small t → small d → convert t d r sat a = (if d = .e4m3 then 0x7F else 0x7E, flagNV)) ∧
        (fNan f a = true → ¬ small t → ¬ small d →
          (convert t d r sat a).2 = (if fSnan f a then flagNV else 0) ∧ fNan g (convert t d r sat a).1 = true ∧
          fSnan g (convert t d r sat a).1 = false ∧ fNeg g (convert t d r sat a).1 = fNeg f a ∧
          (convert t d r sat a).1 % 2 ^ (g.mb - 1) = a % 2 ^ (f.mb - 1) % 2 ^ (g.mb - 1))))

/-- R183, R184, R189, R192, R299-R302: the elements of the MX conversions. A scale byte s multiplies by 2^(s - 127), and 0xFF is a NaN. Decoding
rounds the scaled value once; encoding divides by the scale and rounds once, clamps MXINT8 to -127..127, and gives a NaN the code 0x7F in E4M3 and
0 elsewhere. The scale of a block is that of its largest magnitude, in the range 0 to 254. -/
def Sys2Proof.Claims.MxConversions : Prop :=
  (∀ (k : MxFmt) (t : Ty) (r : Rnd) (sat : Bool) (a s : Nat), t ∈ [Ty.f16, .bf16, .f32] →
    let g := fmtOf t
    (s = 0xFF → mxDecode k t r sat a s = (genNan g 2, flagNV)) ∧
    (s ≠ 0xFF → mxVal k a = .nan → mxDecode k t r sat a s = (genNan g 1, flagNV)) ∧
    (∀ n m e, s ≠ 0xFF → mxVal k a = .num n m e → mxDecode k t r sat a s = roundMag g r sat n m (e + ((s : Int) - 127)) false) ∧
    (fNan g a = true → mxEncode k t r sat a s = (if k = .e4m3 then 0x7F else 0, flagNV)) ∧
    (s = 0xFF → (mxEncode k t r sat a s).1 = if k = .e4m3 then 0x7F else 0) ∧
    (∀ n m e, s ≠ 0xFF → fVal g a = .num n m e →
      (k ≠ .mxint8 → (mxEncode k t r sat a s).2 = (roundMag (mxFmt k) r sat n m (e + (127 - (s : Int))) false).2 ∧
        mxVal k (mxEncode k t r sat a s).1 =
          (match mxVal k (roundMag (mxFmt k) r sat n m (e + (127 - (s : Int))) false).1 with
            | .num b x i => .num (b && x != 0) x i
            | v => v)) ∧
      (k = .mxint8 →
        let v := (quanta r n m (e + (127 - (s : Int)) + 6) 0 false).1
        (mxEncode k t r sat a s).1 = lowBits 8 (if n then -(min v 127 : Nat) else (min v 127 : Nat)) ∧
        ((mxEncode k t r sat a s).2.getLsbD 2 = true ↔ 127 < v)))) ∧
  (∀ x : Nat, x < 256 → mxVal .mxint8 x = .num (decide (signedOf 8 x < 0)) (signedOf 8 x).natAbs (-6) ∧ mxVal .e4m3 x = fVal fmtE4M3 x ∧
    mxVal .e3m2 x = fVal fmtE3M2 (x % 64) ∧ (x < 16 → mxVal .e2m1 x = fVal fmtE2M1 x)) ∧
  ∀ (k : MxFmt) (vs : List FVal),
    ((∃ v ∈ vs, ∀ n m e, v ≠ .num n m e) → mxScale k vs = 0xFF) ∧
    ((∀ v ∈ vs, ∃ n e, v = .num n 0 e) → mxScale k vs = 0x7F) ∧
    ∀ n m e, (∀ v ∈ vs, ∃ n m e, v = .num n m e) → m ≠ 0 → FVal.num n m e ∈ vs →
      (∀ p q d, FVal.num p q d ∈ vs → q ≠ 0 → d + Nat.log2 q ≤ e + Nat.log2 m) →
      (mxScale k vs : Int) = max 0 (min 254 (e + Nat.log2 m - mxEmax k + 127))

/-- R183, R184, R189, R191, R192, R194, R195, R298-R302: the conversions, and what converting to an integer type, to a floating type and to an MX
element gives. -/
def Obligations.Conversions : Prop :=
  Claims.VectorConversions ∧ Claims.IntegerConversions ∧ Claims.FloatConversions ∧ Claims.MxConversions

/-- R123, R201, R303: a special function sends its results to the SFU queue, to be written in issue order: the destination is
pending, the flags are set at issue, and each sub-element of an active lane is what the function gives. -/
def Sys2Proof.Claims.SpecialResults : Prop :=
  ∀ p ∈ sfuForms, ∀ (o : VOp) (s : State) (w : Warp) (sp : Fin 8) (x : Split),
    Issues (p.1 o) s w sp x → Plain (p.1 o) o w x →
    ∃ (vals : Lanes Word) (fl : BitVec 16),
      RunsTo (p.1 o) s w sp x (modWarp
        { counted s w sp with
          serial := s.serial + 1
          results := s.results ++ [{ result0 (issOf (p.1 o) w sp x) .sfu with id := s.serial, vw := [(o.d, vals)] }] } w.id
        fun y => setFlags (pendV y o.d) fl) ∧
      (∀ l, inAct (p.1 o) w x l → ∀ k, k < subCount o.ty →
        sub o.ty vals[l] k = (sfu p.2 o.ty (sub o.ty (reads (p.1 o) s w sp x o.ty o.imm o.a l) k)).1 % 2 ^ tyWidth o.ty) ∧
      ∀ j, fl.getLsbD j = true ↔ ∃ l k, inAct (p.1 o) w x l ∧ k < subCount o.ty ∧
        (sfu p.2 o.ty (sub o.ty (reads (p.1 o) s w sp x o.ty o.imm o.a l) k)).2.getLsbD j = true

/-- R194, R195, R201: the operands at which a special function has one result. -/
def Sys2Proof.Claims.SpecialFunctionPoints : Prop :=
  ∀ t ∈ [Ty.f16, .bf16, .f32], ∀ a : Nat,
    let f := fmtOf t
    (fVal f a = .nan → ∀ fn, sfu fn t a = (fQuiet f a, if fSnan f a then flagNV else 0)) ∧
    (∀ n e, fVal f a = .num n 0 e →
      sfu .rcp t a = (infBits f n, flagDZ) ∧ sfu .rsq t a = (infBits f n, flagDZ) ∧ sfu .sqrt t a = (a, 0)
        ∧ sfu .log2 t a = (infBits f true, flagDZ) ∧ sfu .sinpi t a = (a, 0) ∧ sfu .tanh t a = (a, 0)) ∧
    (∀ n, fVal f a = .inf n → sfu .rcp t a = (withSign f n 0, 0) ∧ sfu .sinpi t a = (genNan f 6, flagNV)
      ∧ sfu .cospi t a = (genNan f 6, flagNV)) ∧
    (fVal f a = .inf false → sfu .rsq t a = (0, 0) ∧ sfu .sqrt t a = (a, 0) ∧ sfu .exp2 t a = (a, 0) ∧ sfu .log2 t a = (a, 0)) ∧
    (fVal f a = .inf true → sfu .exp2 t a = (0, 0)) ∧
    (∀ m e, fVal f a = .num true m e → m ≠ 0 →
      sfu .rsq t a = (genNan f 5, flagNV) ∧ sfu .sqrt t a = (genNan f 5, flagNV) ∧ sfu .log2 t a = (genNan f 5, flagNV))

/-- R123, R194, R195, R201, R303: the special functions, and the operands at which they have one result. -/
def Obligations.SpecialFunctions : Prop := Claims.SpecialResults ∧ Claims.SpecialFunctionPoints

/-- R307: a shuffle writes in each active lane what A reads in the source lane, be that lane active or not; `shuf.bcast` takes
B of the lowest active lane. -/
def Sys2Proof.Claims.Shuffles : Prop :=
  (∀ p ∈ shuffles, ∀ (o : VOp) (s : State) (w : Warp) (sp : Fin 8) (x : Split),
    Issues (p.1 o) s w sp x →
    WritesV (p.1 o) s w sp x o.d (fun l => reads (p.1 o) s w sp x o.ty o.imm o.a
      (Fin.ofNat 32 (p.2 l.val (reads (p.1 o) s w sp x o.ty o.imm o.b l)))) 0) ∧
  (∀ (o : VOp) (s : State) (w : Warp) (sp : Fin 8) (x : Split),
    Issues (.shufBcast o) s w sp x → ∀ l0, (inAct (.shufBcast o) w x l0 ∨ activeOf (.shufBcast o) w x = 0) →
    (∀ l, inAct (.shufBcast o) w x l → l0 ≤ l) →
    WritesV (.shufBcast o) s w sp x o.d (fun _ => reads (.shufBcast o) s w sp x o.ty o.imm o.a
      (Fin.ofNat 32 (bitsOf (reads (.shufBcast o) s w sp x o.ty o.imm o.b l0) 0 5))) 0)

/-- R308, R310: `vperm.sub` takes the sub-element of A that each sub-element of B names, `xsel` the register of its group that B
names, and zero past the group; `match` writes the mask of the active lanes with the same value. -/
def Sys2Proof.Claims.PermuteSelectMatch : Prop :=
  ∀ (o : VOp) (s : State) (w : Warp) (sp : Fin 8) (x : Split),
    (Issues (.vpermSub o) s w sp x → ∃ r, WritesV (.vpermSub o) s w sp x o.d r 0 ∧
      ∀ l, inAct (.vpermSub o) w x l → ∀ k, k < subCount o.ty →
        sub o.ty (r l) k = sub o.ty (reads (.vpermSub o) s w sp x o.ty o.imm o.a l)
          (sub o.ty (reads (.vpermSub o) s w sp x o.ty o.imm o.b l) k % subCount o.ty)) ∧
    (∀ (cnt r0 : Fin 256), o.a = .v r0 → Issues (.xsel o cnt) s w sp x →
      WritesV (.xsel o cnt) s w sp x o.d (fun l =>
        let q := bitsOf (reads (.xsel o cnt) s w sp x o.ty o.imm o.b l) 0 8
        if q ≤ cnt.val then vreg w (Fin.ofNat 256 (r0.val + q)) l else 0) 0) ∧
    (Issues (.matchv o) s w sp x → ∃ r, WritesV (.matchv o) s w sp x o.d r 0 ∧
      ∀ l, inAct (.matchv o) w x l → ∀ m : Nat, (r l).getLsbD m = true ↔
        ∃ k : Fin 32, k.val = m ∧ inAct (.matchv o) w x k ∧
          sub o.ty (reads (.matchv o) s w sp x o.ty o.imm o.a k) 0 = sub o.ty (reads (.matchv o) s w sp x o.ty o.imm o.a l) 0)

/-- R307, R308, R310: the cross-lane forms that move or compare whole values. -/
def Obligations.CrossLaneMoves : Prop := Claims.Shuffles ∧ Claims.PermuteSelectMatch

/-- R311: the predicate forms write their function in the active lanes of the destination; `p7` discards it (R5). -/
def Sys2Proof.Claims.PredicateForms : Prop :=
  ∀ p ∈ predForms, ∀ (o : POp) (s : State) (w : Warp) (sp : Fin 8) (x : Split),
    Issues (p.1 o) s w sp x →
    ∃ m : Mask, Writes (p.1 o) s w sp x (fun y => setP y (Fin.ofNat 8 o.d.val) (activeOf (p.1 o) w x) m) ∧
      ∀ l, inAct (p.1 o) w x l → m.getLsbD l.val = p.2 (activeOf (p.1 o) w x) (predRead w o.a) (predRead w o.b) l

/-- R113, R311: `ballot` writes the active lanes where the predicate holds, `pfirst` the lowest of them or 32, and `pcount`, in
each active lane, how many there are above how many lie below the lane. -/
def Sys2Proof.Claims.PredicateCounts : Prop :=
  ∀ (o : POp) (s : State) (w : Warp) (sp : Fin 8) (x : Split),
    let hit := fun (i : Instr) (l : Fin 32) => (activeOf i w x).getLsbD l.val && (predRead w o.a).getLsbD l.val
    (Issues (.ballot o) s w sp x → ∃ r : Word, WritesOnce (.ballot o) s w sp x (fun y => setS y (Fin.ofNat 128 o.d.val) r) ∧
      r.toNat < 2 ^ 32 ∧ ∀ l : Fin 32, r.getLsbD l.val = hit (.ballot o) l) ∧
    (Issues (.pfirst o) s w sp x → ∃ r : Word, WritesOnce (.pfirst o) s w sp x (fun y => setS y (Fin.ofNat 128 o.d.val) r) ∧
      (∀ l, hit (.pfirst o) l = true → (∀ m, hit (.pfirst o) m = true → l ≤ m) → r = BitVec.ofNat 64 l.val) ∧
      ((∀ l, hit (.pfirst o) l = false) → r = 32)) ∧
    (Issues (.pcount o) s w sp x → WritesV (.pcount o) s w sp x o.d (fun l =>
      BitVec.ofNat 64 (((List.finRange 32).filter (hit (.pcount o))).length * 2 ^ 32
        + ((List.finRange 32).filter fun m => hit (.pcount o) m && decide (m < l)).length)) 0)

/-- R5, R113, R311: the predicate group. -/
def Obligations.Predicates : Prop := Claims.PredicateForms ∧ Claims.PredicateCounts

/-- R288, R289, R292: the scalar forms act on the low bits of their operands, as many as the type has, act once for the warp,
write the result extended to 64 bits as the type reads it, and set SI where SAT clamped; a destination of `s0` is discarded
(R5). -/
def Sys2Proof.Claims.ScalarArithmetic : Prop :=
  (∀ p ∈ exactScalars, ∀ (o : SOp) (s : State) (w : Warp) (sp : Fin 8) (x : Split),
    Issues (p.1 o) s w sp x →
    let v := reduced o.ty o.sat (p.2 o.ty (intOf o.ty (low o.ty (readS (p.1 o) s w sp x o.w1 o.a)))
      (intOf o.ty (low o.ty (readS (p.1 o) s w sp x o.w1 o.b))))
    WritesOnce (p.1 o) s w sp x (fun y => setFlags (setS y o.d (wordOfInt (intOf o.ty v.1))) v.2)) ∧
  (∀ p ∈ bitScalars, ∀ (o : SOp) (s : State) (w : Warp) (sp : Fin 8) (x : Split),
    Issues (p.1 o) s w sp x →
    ∃ r, WritesOnce (p.1 o) s w sp x (fun y => setS y o.d (wordOfInt (intOf o.ty r))) ∧ r < 2 ^ tyWidth o.ty ∧
      p.2.holds o.ty (low o.ty (readS (p.1 o) s w sp x o.w1 o.a)) (low o.ty (readS (p.1 o) s w sp x o.w1 o.b)) r)

/-- R288, R289: `smov` writes A, `ssel` writes A where C is not zero and B where it is, `scmp` writes 1 or 0, `sbfe` extracts and
`sbfi` replaces a bit field; each result is extended to 64 bits as the type reads it. -/
def Sys2Proof.Claims.ScalarMovesAndFields : Prop :=
  ∀ (o : SOp) (s : State) (w : Warp) (sp : Fin 8) (x : Split),
    let ext := fun (r : Nat) => wordOfInt (intOf o.ty r)
    (Issues (.smov o) s w sp x →
      WritesOnce (.smov o) s w sp x (fun y => setS y o.d (ext (low o.ty (readS (.smov o) s w sp x o.w1 o.a))))) ∧
    (Issues (.ssel o) s w sp x →
      WritesOnce (.ssel o) s w sp x (fun y => setS y o.d (ext
        (if low o.ty (readS (.ssel o) s w sp x o.w1 o.c) = 0 then low o.ty (readS (.ssel o) s w sp x o.w1 o.b)
         else low o.ty (readS (.ssel o) s w sp x o.w1 o.a))))) ∧
    (∀ c, Issues (.scmp c o) s w sp x →
      WritesOnce (.scmp c o) s w sp x (fun y => setS y o.d (ext
        (if iCmp c (intOf o.ty (low o.ty (readS (.scmp c o) s w sp x o.w1 o.a)))
            (intOf o.ty (low o.ty (readS (.scmp c o) s w sp x o.w1 o.b))) then 1 else 0)))) ∧
    (Issues (.sbfe o) s w sp x →
      ∃ r, WritesOnce (.sbfe o) s w sp x (fun y => setS y o.d (ext r)) ∧
        isField o.ty (readS (.sbfe o) s w sp x o.w1 o.b) (low o.ty (readS (.sbfe o) s w sp x o.w1 o.a)) r) ∧
    (Issues (.sbfi o) s w sp x →
      ∃ r, WritesOnce (.sbfi o) s w sp x (fun y => setS y o.d (ext r)) ∧
        isInsert o.ty (readS (.sbfi o) s w sp x o.w1 o.c) (low o.ty (readS (.sbfi o) s w sp x o.w1 o.a))
          (low o.ty (readS (.sbfi o) s w sp x o.w1 o.b)) r)

/-- R288, R289, R292: the scalar forms. -/
def Obligations.ScalarForms : Prop := Claims.ScalarArithmetic ∧ Claims.ScalarMovesAndFields

/-- R288, R292-R294: the vector forms that move, select or extract, and those that change the width of sub-elements. -/
def Obligations.VectorMovesAndWidths : Prop := Claims.VectorMovesAndFields ∧ Claims.VectorWidthChanges


/-- R5: `s0` reads zero and discards writes, `p7` reads true in every lane and discards writes; another register reads back
what is written, in the lanes written, and a write leaves every other register alone. -/
def Obligations.RegisterFiles : Prop :=
  ∀ (w : Warp),
    (sreg w 0 = 0 ∧ ∀ v, setS w 0 v = w) ∧ (preg w 7 = BitVec.allOnes 32 ∧ ∀ m v, setP w 7 m v = w) ∧
    (∀ r q : Fin 128, r ≠ 0 → ∀ v, sreg (setS w r v) q = if q = r then v else sreg w q) ∧
    (∀ r q : Fin 8, r ≠ 7 → ∀ m v, ∀ l, l < 32 →
      (preg (setP w r m v) q).getLsbD l = if q = r ∧ m.getLsbD l = true then v.getLsbD l else (preg w q).getLsbD l) ∧
    (∀ (r q : Fin 256) (m : Mask) (f : Fin 32 → Word) (l : Fin 32),
      vreg (setV w r m f) q l = if q = r ∧ m.getLsbD l.val = true then f l else vreg w q l)

/-- R256-R267: some words of the spec's encodings decode to the instructions that they stand for. -/
def Obligations.KnownWords : Prop := ∀ p ∈ knownWords, decode p.1 p.2.1 = .ok p.2.2

/-- R256, R258, R269: decoding and encoding agree. The words of a well-formed instruction decode to it, with every operand at
every value that its encoding admits; words that decode to an instruction are the words of that instruction, which is well
formed; and so, from bytes, lowest byte first (R7), with whatever bytes follow. -/
def Obligations.DecodeAndEncodeAgree : Prop :=
  (∀ (i : Instr) (ws : Word × Option Word), wellFormed i = true → encode i = some ws → decode ws.1 (ws.2.getD 0) = .ok i) ∧
  (∀ (w0 w1 : Word) (i : Instr), decode w0 w1 = .ok i ↔
    (wellFormed i = true ∧ encode i = some (w0, if w0.getLsbD 0 then some w1 else none))) ∧
  (∀ (i : Instr) (ws : Word × Option Word) (rest : List Byte), wellFormed i = true → encode i = some ws →
    decodeBytes (bytesOf 8 ws.1.toNat ++ (match ws.2 with | some w1 => bytesOf 8 w1.toNat | none => []) ++ rest) = (.ok i, rest))

/-- R93, R149, R256: a step runs the decoded instruction. Where it is a split's turn, its page may be fetched from and its words lie
in this package, and they decode to `i`, the step is `exec i`, of the state in which the core has at hand the failed walks of that split.
What the fetch leaves behind is then settled, which changes no register, unit, context or byte of memory: what was fetched over a link
for the split is forgotten, and the caches have read the words of an instruction that has issued. A word is that of memory, but for one of
which the die holds a copy of the other die's sector. Where it is an event's turn, the step is that event. -/
def Obligations.StepRunsDecoded : Prop :=
  (∀ (s : State) (w : Warp) (sp : Fin 8) (x : Split) (p : Spot) (pa : Nat) (i : Instr), AtIssue s w sp x →
    let u := setFails { s with turn := none } w.core x.fails
    fetchLook u w x.pc = .ok p → localPa u w.core p = some pa → (wordAt u w p pa).getLsbD 0 = false →
    decode (wordAt u w p pa) 0 = .ok i →
    step s = mapNext (exec i { u with turn := s.turn }) (afterTry u w sp x.pc (instrLen i))) ∧
  (∀ (s : State) (w : Warp) (sp : Fin 8) (x : Split) (p q : Spot) (pa qa : Nat) (i : Instr), AtIssue s w sp x →
    let u := setFails { s with turn := none } w.core x.fails
    fetchLook u w x.pc = .ok p → localPa u w.core p = some pa → (wordAt u w p pa).getLsbD 0 = true →
    fetchLook u w (x.pc + 8) = .ok q → localPa u w.core q = some qa →
    decode (wordAt u w p pa) (wordAt u w q qa) = .ok i →
    step s = mapNext (exec i { u with turn := s.turn }) (afterTry u w sp x.pc (instrLen i))) ∧
  (∀ (s : State) (w : Warp) (sp : Fin 8) (x : Split), AtIssue s w sp x → s.cores[w.core].fails = x.fails →
    setFails { s with turn := none } w.core x.fails = { s with turn := none }) ∧
  (∀ (u : State) (w : Warp) (sp : Fin 8) (pc : Word) (len : Nat) (t : State),
    let v := afterTry u w sp pc len t
    v.warps = t.warps ∧ v.units = t.units ∧ v.ctxs = t.ctxs ∧ v.mem = t.mem ∧ v.links = t.links ∧ v.hostOut = t.hostOut ∧
      v.results.Sublist t.results ∧ ∀ r ∈ t.results, r.kind ≠ .fetch → r ∈ v.results) ∧
  (∀ (s : State) (w : Warp) (p : Spot) (pa : Nat), pa % 8 = 0 →
    (p.kind ≠ .package ∨ holderOf s (pa / 256) = coreDie w.core ∨ l2Copy s (coreDie w.core) (pa / 64) = none) →
    wordAt s w p pa = readWord s.mem pa) ∧
  (∀ (w : Nat) (sp : Fin 8) (t : State), (∀ r ∈ t.results, r.kind ≠ .fetch) → afterIssue w sp t = t) ∧
  (∀ (s : State) (i : Instr), s.turn = some (.event i) → step s = exec i { s with turn := none })

/-- R93, R94: of the splits of a quadrant that could issue in a cycle at most one is chosen, never in a cycle in which the
quadrant has issued, and never a split that is not overdue where another is. -/
def Obligations.OneIssuePerQuadrant : Prop :=
  ∀ (s : State) (a b : Try), a ∈ attempts s → b ∈ attempts s → a.w.core = b.w.core → a.w.quad = b.w.quad →
    quadPick s (attempts s) a = true →
    s.cores[a.w.core].lastIssue[a.w.quad] ≠ some s.now ∧
    (quadPick s (attempts s) b = true → a.w.id = b.w.id ∧ a.sp = b.sp) ∧
    (b.issues = true → b.x.overdue = true → a.x.overdue = true)

/-- R94, R97, R115, R117: the count of an issue, and the going on of a split with the settling of its warp, change no register,
no byte of memory, no cache, no context and no other warp's registers: only the quadrant's issue count, the splits and
records of the warp and, where the warp ends, the barriers that it leaves. -/
def Obligations.IssueFrame : Prop :=
  (∀ (s : State) (w : Warp) (sp : Fin 8),
    let t := counted s w sp
    { t with cores := s.cores, warps := s.warps, turn := s.turn } = s ∧
    (∀ k : Fin 384, t.cores[k] = if k = w.core then
      { s.cores[k] with
        issue := s.cores[k].issue.set w.quad.val (s.cores[k].issue[w.quad] + 1) w.quad.isLt
        lastIssue := s.cores[k].lastIssue.set w.quad.val (some s.now) w.quad.isLt } else s.cores[k]) ∧
    ∀ id, (findWarp t id).map heldRegs = (findWarp s id).map heldRegs) ∧
  (∀ (t : State) (i : Instr) (w : Warp) (sp : Fin 8) (x : Split), NoDeadlock t i w sp x →
    let u := thenNext t i w sp x
    { u with warps := t.warps, units := t.units } = t ∧ u.units.map noBars = t.units.map noBars ∧
    ∀ id, (findWarp u id).map heldRegs = (findWarp t id).map heldRegs)

/-- R118: where every valid split of a warp is parked and no record can be released, the warp takes cause 0x000E with the PC of
the split that parked last; that cause is not resumable. A warp with a split blocked elsewhere does not take it. -/
def Obligations.RejoinDeadlock : Prop :=
  resumable 0xE = false ∧
  (∀ (s : State) (w : Warp), findWarp s w.id = some w → validSplits w ≠ [] → (∀ y ∈ validSplits w, y.2.st = .parked) →
    (∀ (r : Fin 16) (y : Rejoin), w.recs[r] = some y → releasable w r y = false) →
    ∃ k y, (k, y) ∈ validSplits w ∧ (∀ z ∈ validSplits w, z.2.timer ≤ y.timer) ∧
      settle s w.id = takeFault (modWarp s w.id fun _ => w) w k y.pc y.pc y.mask (faultOf 0xE)) ∧
  (∀ (s : State) (w : Warp) (m act : Mask) (pc : Word) (dest : Nat), (recordWords s w m act pc (faultOf 0xE) dest).getD 2 0 = pc) ∧
  ∀ (s : State) (w : Warp) (k : Fin 8) (y : Split), findWarp s w.id = some w → w.live ≠ 0 → w.splits[k] = some y → y.st = .blocked →
    (∀ (j : Fin 8) (z : Split), w.splits[j] = some z → parks w j z = false) →
    (∀ (r : Fin 16) (z : Rejoin), w.recs[r] = some z → releasable w r z = false) →
    settle s w.id = modWarp s w.id fun _ => w

/-- R119, R313, R314, R317: `nop` only goes on. `bra` moves the whole split where its guard holds in every lane, goes on where
it holds in none, and takes cause 0x0018 otherwise, inside a bracket too. `brd` with one group moves the split or goes on;
with two it divides it by R116, the taken lanes first, to rejoin at W1's displacement; inside a bracket it takes cause
0x0018 (R122), with no active lane too, where R313 could make it do nothing: the model's choice (log 22). The AGE of the splits of a
division is the issue count with the `brd` itself counted (log 41). -/
def Obligations.Branches : Prop :=
  ∀ (g : Guard) (disp rejoin : BitVec 28) (s : State) (w : Warp) (sp : Fin 8) (x : Split),
    (Issues (.nop g) s w sp x → RunsTo (.nop g) s w sp x (counted s w sp)) ∧
    (Issues (.bra g disp) s w sp x →
      (activeOf (.bra g disp) w x = 0 → RunsTo (.bra g disp) s w sp x (counted s w sp)) ∧
      (activeOf (.bra g disp) w x ≠ 0 → activeOf (.bra g disp) w x = x.mask →
        Moves (.bra g disp) s w (goOn (counted s w sp) w.id sp (target x disp))) ∧
      (¬ oneWay (.bra g disp) w x → Faults (.bra g disp) s w sp x (faultOf 0x18))) ∧
    (Issues (.brd g disp rejoin) s w sp x →
      let i := Instr.brd g disp rejoin
      (w.bracket ≠ none → Faults i s w sp x (faultOf 0x18)) ∧
      (w.bracket = none → activeOf i w x = x.mask → Moves i s w (goOn (counted s w sp) w.id sp (target x disp))) ∧
      (w.bracket = none → activeOf i w x = 0 → x.mask ≠ 0 → RunsTo i s w sp x (counted s w sp)) ∧
      (w.bracket = none → ¬ oneWay i w x →
        let w0 := setSplit w sp (some (countedSplit s w x))
        let gs := [(activeOf i w x, target x disp), (x.mask &&& ~~~activeOf i w x, x.pc + 16)]
        (∀ w' m, divide w0 sp { countedSplit s w x with dr := x.dr } gs (target x rejoin) (x.pc + 16) true x.depth = some (w', m) →
          Moves i s w (modWarp (counted s w sp) w.id fun _ => w')) ∧
        (divide w0 sp { countedSplit s w x with dr := x.dr } gs (target x rejoin) (x.pc + 16) true x.depth = none → Faults i s w sp x (faultOf 0x18))))

/-- R116, R121, R122, R266, R313, R315: `jmpv`, `call`, `callv` and `ret` with no active lane go on; inside a bracket, and where the
guard is not one over the split, they take cause 0x0018: inside a bracket with no active lane too, where R313 could make them do nothing
(the model's choice, log 22). With one target, a multiple of 8, the split moves there; a call pushes the
address after it, a return takes the lanes off their top entries. A full stack takes cause 0x000D, an empty one 0x000C, a
target that is no multiple of 8 cause 0x0008. -/
def Sys2Proof.Claims.CallsOfOneTarget : Prop :=
  ∀ (s : State) (w : Warp) (sp : Fin 8) (x : Split),
    (∀ i, ((∃ g a r, i = .jmpv g a r) ∨ (∃ g d, i = .call g d) ∨ (∃ g a, i = .callv g a) ∨ (∃ g, i = .ret g)) →
      Issues i s w sp x →
      (w.bracket ≠ none ∨ ¬ oneWay i w x → Faults i s w sp x (faultOf 0x18)) ∧
      (w.bracket = none → activeOf i w x = 0 → RunsTo i s w sp x (counted s w sp))) ∧
    (∀ g a r t, Issues (.jmpv g a r) s w sp x → w.bracket = none → activeOf (.jmpv g a r) w x = x.mask → x.mask ≠ 0 →
      (∀ l, inAct (.jmpv g a r) w x l → reads (.jmpv g a r) s w sp x .b64 0 a l = t) →
      (t.toNat % 8 = 0 → Moves (.jmpv g a r) s w (goOn (counted s w sp) w.id sp t)) ∧
      (t.toNat % 8 ≠ 0 → Faults (.jmpv g a r) s w sp x { faultOf 8 with lanes := x.mask })) ∧
    (∀ g d, Issues (.call g d) s w sp x → w.bracket = none → activeOf (.call g d) w x = x.mask → x.mask ≠ 0 →
      (w.rstack.length < 16 → Moves (.call g d) s w (modWarp (goOn (counted s w sp) w.id sp (target x d)) w.id fun y =>
        modSplit { y with rstack := y.rstack ++ [{ link := x.pc + 8, mask := x.mask }] } sp fun z =>
          { z with depth := z.depth + 1 })) ∧
      (16 ≤ w.rstack.length → Faults (.call g d) s w sp x (faultOf 0xD))) ∧
    (∀ g a t, Issues (.callv g a) s w sp x → w.bracket = none → activeOf (.callv g a) w x = x.mask → x.mask ≠ 0 →
      (∀ l, inAct (.callv g a) w x l → reads (.callv g a) s w sp x .b64 0 a l = t) → t.toNat % 8 = 0 →
      (w.rstack.length < 16 → Moves (.callv g a) s w (modWarp (goOn (counted s w sp) w.id sp t) w.id fun y =>
        modSplit { y with rstack := y.rstack ++ [{ link := x.pc + 8, mask := x.mask }] } sp fun z =>
          { z with depth := z.depth + 1 })) ∧
      (16 ≤ w.rstack.length → Faults (.callv g a) s w sp x (faultOf 0xD))) ∧
    (∀ g link rs, Issues (.ret g) s w sp x → w.bracket = none → activeOf (.ret g) w x = x.mask → x.mask ≠ 0 →
      w.rstack = rs ++ [{ link := link, mask := x.mask }] →
      Moves (.ret g) s w (modWarp (goOn (counted s w sp) w.id sp link) w.id fun y =>
        modSplit { y with rstack := rs.filter fun e => e.mask != 0 } sp fun z => { z with depth := z.depth - 1 })) ∧
    (∀ g, Issues (.ret g) s w sp x → w.bracket = none → activeOf (.ret g) w x = x.mask → x.mask ≠ 0 → w.rstack = [] →
      Faults (.ret g) s w sp x { faultOf 0xC with lanes := x.mask })

/-- R116, R121, R315: `jmpv`, `callv` and `ret` whose lanes have several targets divide the split into one group per target, in the order
of their lowest lanes. The lanes of `jmpv` rejoin at its W1's displacement; those of `callv` at the address after it, where they lie one
deeper and those that got an entry have pushed that address; those of `ret` make no record, leave their top entries and lie one less deep.
Deferred lanes resume at the instruction itself. Where R116 finds no record or no entry, cause 0x0018 is taken. A `ret` whose lanes'
tops are several entries of one link moves the whole split there. -/
def Sys2Proof.Claims.CallsOfManyTargets : Prop :=
  ∀ (s : State) (w : Warp) (sp : Fin 8) (x : Split), w.bracket = none → x.mask ≠ 0 →
    let w0 := setSplit w sp (some (countedSplit s w x))
    let y := { countedSplit s w x with dr := x.dr }
    let divides := fun (i : Instr) (gs : List (Mask × Word)) (rpc dpc : Word) (mk : Bool) (depth : Nat) (f : Warp → Mask → Warp) =>
      (∀ w' m, divide w0 sp y gs rpc dpc mk depth = some (w', m) → Moves i s w (modWarp (counted s w sp) w.id fun _ => f w' m)) ∧
      (divide w0 sp y gs rpc dpc mk depth = none → Faults i s w sp x (faultOf 0x18))
    (∀ g a r gs, Issues (.jmpv g a r) s w sp x → activeOf (.jmpv g a r) w x = x.mask →
      GroupsOf x.mask (reads (.jmpv g a r) s w sp x .b64 0 a) gs → 2 ≤ gs.length → (∀ q ∈ gs, q.2.toNat % 8 = 0) →
      divides (.jmpv g a r) gs (target x r) x.pc true x.depth fun w' _ => w') ∧
    (∀ g a gs, Issues (.callv g a) s w sp x → activeOf (.callv g a) w x = x.mask →
      GroupsOf x.mask (reads (.callv g a) s w sp x .b64 0 a) gs → 2 ≤ gs.length → (∀ q ∈ gs, q.2.toNat % 8 = 0) →
      w.rstack.length < 16 →
      divides (.callv g a) gs (x.pc + 8) x.pc true (x.depth + 1) fun w' m =>
        { w' with rstack := w'.rstack ++ [{ link := x.pc + 8, mask := m }] }) ∧
    (∀ g gs (tops : Fin 32 → RetEntry) (rs : List RetEntry), Issues (.ret g) s w sp x → activeOf (.ret g) w x = x.mask →
      Popped w.rstack x.mask tops rs → GroupsOf x.mask (fun l => (tops l).link) gs →
      (∀ q, gs = [q] → Moves (.ret g) s w (modWarp (goOn (counted s w sp) w.id sp q.2) w.id fun z =>
        modSplit { z with rstack := rs } sp fun v => { v with depth := v.depth - 1 })) ∧
      (2 ≤ gs.length → divides (.ret g) gs 0 0 false (x.depth - 1) fun w' _ => { w' with rstack := rs }))

/-- R116, R121, R122, R266, R313, R315: jumps and calls through registers, calls and returns, of one target and of several. -/
def Obligations.CallsAndReturns : Prop := Claims.CallsOfOneTarget ∧ Claims.CallsOfManyTargets

/-- R122: `allon` saves the split's mask and gives it every live lane; `alloff` gives the saved mask back. An `allon` inside a
bracket and an `alloff` outside one take cause 0x0001. Inside a bracket no other split may try to issue. -/
def Obligations.Brackets : Prop :=
  (∀ (s : State) (w : Warp) (sp : Fin 8) (x : Split),
    (Issues .allon s w sp x →
      (w.bracket = none → Writes .allon s w sp x fun y =>
        modSplit { y with bracket := some (sp, x.mask) } sp fun z => { z with mask := y.live }) ∧
      (w.bracket ≠ none → Faults .allon s w sp x (faultOf 1))) ∧
    (Issues .alloff s w sp x →
      (∀ k m, w.bracket = some (k, m) → Writes .alloff s w sp x fun y =>
        modSplit { y with bracket := none } sp fun z => { z with mask := m }) ∧
      (w.bracket = none → Faults .alloff s w sp x (faultOf 1)))) ∧
  ∀ (w : Warp) (k sp : Fin 8) (m : Mask) (x : Split), w.bracket = some (k, m) → w.handler = none → mayTry w sp x = true → sp = k

/-- R174, R331, R332: an arrival of a warp of a unit at a barrier. `bar.arv` arrives and goes on; `bar` goes on where its arrival is
the last one expected, and otherwise waits for the generation to pass (both arrivals release at core scope); `bar.wt` goes on where the warp has never arrived or
the generation has passed, and otherwise waits. With the last arrival the generation grows and the arrivals are forgotten. -/
def Sys2Proof.Claims.UnitBarriers : Prop :=
  ∀ (g : Guard) (b : Fin 16) (s : State) (w : Warp) (sp : Fin 8) (x : Split) (u : UnitSt),
    unitOf s w = some u → u.bars[b].arr.getLsbD w.rank = false →
    let arr := u.bars[b].arr ||| BitVec.ofNat 32 (2 ^ w.rank)
    let last := expectedWarps s u.id &&& ~~~arr = 0
    (activeOf (.barArv g b) w x ≠ 0 → Issues (.barArv g b) s w sp x → NoFarWrites s w.ctx →
      ∃ t q, RunsTo (.barArv g b) s w sp x t ∧ findUnit t u.id = some q ∧
        q.bars[b] = (if arr ≠ 0 ∧ last then { gen := u.bars[b].gen + 1, arr := 0 } else { gen := u.bars[b].gen, arr := arr }) ∧
        t.mem = s.mem ∧ t.ctxs = s.ctxs ∧
        (findWarp t w.id).map (fun y => y.last[b]) = some (some u.bars[b].gen) ∧
        (findWarp t w.id).map (fun y => (y.v, y.s, y.p, y.h, y.flags)) = some (w.v, w.s, w.p, w.h, w.flags)) ∧
    (activeOf (.bar g b) w x ≠ 0 → Issues (.bar g b) s w sp x → NoLinkReads s w → NoFarWrites s w.ctx →
      x.timer = 0 → arr ≠ 0 →
      (last → ∃ t q, RunsTo (.bar g b) s w sp x t ∧ findUnit t u.id = some q ∧ t.mem = s.mem ∧
        q.bars[b] = { gen := u.bars[b].gen + 1, arr := 0 }) ∧
      (¬ last → ∃ t q, Rests (.bar g b) s w sp x t ∧ findUnit t u.id = some q ∧ t.mem = s.mem ∧
        q.bars[b] = { gen := u.bars[b].gen, arr := arr })) ∧
    (activeOf (.barWt g b) w x ≠ 0 → Issues (.barWt g b) s w sp x → s.links.any (linkReadOf w.id) = false → x.timer = 0 →
      (w.last[b] ≠ some u.bars[b].gen → RunsTo (.barWt g b) s w sp x (counted s w sp)) ∧
      (w.last[b] = some u.bars[b].gen → ∃ t, Rests (.barWt g b) s w sp x t ∧ t.mem = s.mem ∧ t.units = s.units)) ∧
    (∀ i ∈ [Instr.bar g b, .barArv g b, .barWt g b], activeOf i w x = 0 → Issues i s w sp x →
      RunsTo i s w sp x (counted s w sp))

/-- R331-R333: the other cases of the barriers. A job or fault-service warp is a unit of one warp: its arrival completes its phase at once,
so that nothing waits. A `bar` that is issued again, by a split that waits or after a resume, joins the arrival that its warp has made: it
waits for the same phase, and goes on once that has passed; a further `bar.arv` in the phase changes nothing. -/
def Sys2Proof.Claims.OtherBarriers : Prop :=
  ∀ (g : Guard) (b : Fin 16) (s : State) (w : Warp) (sp : Fin 8) (x : Split),
    (∀ i ∈ [Instr.bar g b, .barArv g b], unitOf s w = none → activeOf i w x ≠ 0 → Issues i s w sp x → NoLinkReads s w → NoFarWrites s w.ctx →
      x.timer = 0 → ∃ n, Writes i s w sp x fun y => { y with last := y.last.set b.val (some n) b.isLt }) ∧
    (unitOf s w = none → activeOf (.barWt g b) w x ≠ 0 → Issues (.barWt g b) s w sp x → NoLinkReads s w → x.timer = 0 →
      RunsTo (.barWt g b) s w sp x (counted s w sp)) ∧
    ∀ u, unitOf s w = some u →
      (∀ n : BitVec 32, ∀ i ∈ [Instr.bar g b, .barWt g b], activeOf i w x ≠ 0 → Issues i s w sp x → NoLinkReads s w → x.st = .blocked →
        x.timer = n.toNat + 1 →
        (u.bars[b].gen ≠ n → RunsTo i s w sp x (counted s w sp)) ∧
        (u.bars[b].gen = n → ∃ t, Rests i s w sp x t ∧ t.mem = s.mem ∧ t.units = s.units)) ∧
      (u.bars[b].arr.getLsbD w.rank = true → w.last[b] = some u.bars[b].gen → NoFarWrites s w.ctx →
        (activeOf (.bar g b) w x ≠ 0 → Issues (.bar g b) s w sp x → NoLinkReads s w → x.timer = 0 →
          ∃ t, Rests (.bar g b) s w sp x t ∧ t.mem = s.mem ∧ t.units = s.units) ∧
        (activeOf (.barArv g b) w x ≠ 0 → Issues (.barArv g b) s w sp x → RunsTo (.barArv g b) s w sp x (counted s w sp)))

/-- R174, R331-R333: the barriers. -/
def Obligations.Barriers : Prop := Claims.UnitBarriers ∧ Claims.OtherBarriers

/-- R43, R56, R58, R91, R249 and the model's reset values (log 5): right after reset no context exists and none runs, no
partition is valid, the two dies wait for a start with no fault recorded, no warp, unit or operation is there, and no byte
of package memory is listed. -/
def Sys2Proof.Claims.ResetValues : Prop :=
  (∀ c : Fin 64, State.reset.ctxs[c].st = .free) ∧ (∀ n : Fin 24, State.reset.parts[n].valid = false) ∧
  (∀ d : Fin 2, State.reset.dies[d].start = .cold ∧ State.reset.dies[d].fails = 0 ∧ State.reset.dies[d].slots = []
    ∧ State.reset.dies[d].faultQ = [] ∧ ∀ k : Fin 8, State.reset.dies[d].meas[k] = 0) ∧
  (∀ k : Fin 384, State.reset.cores[k].l1 = [] ∧ State.reset.cores[k].tlb = []) ∧
  State.reset.warps = [] ∧ State.reset.units = [] ∧ State.reset.copies = [] ∧ State.reset.mops = [] ∧ State.reset.maints = []
    ∧ State.reset.results = [] ∧ State.reset.links = [] ∧ ∀ a, readByte State.reset.mem a = 0

/-- The state after reset is sound: memory has its canonical form, no two partitions share an island or a function (R56, R57),
and no `s0` holds anything but zero (R5). -/
def Sys2Proof.Claims.ResetSound : Prop := sound State.reset

/-- R43, R56, R58, R91, R249 and the model's reset values (log 5): the state right after reset, and that it is sound. -/
def Obligations.ResetState : Prop := Claims.ResetValues ∧ Claims.ResetSound

/-- R110, R123, R258: words that are not legal where they stand take their exception, whatever the guard, before any effect; and
an instruction that names a register with a result on its way only waits: its split is blocked, no other split, register,
byte of memory or context changes. -/
def Sys2Proof.Claims.WordFaultsWait : Prop :=
  ∀ (i : Instr) (s : State) (w : Warp) (sp : Fin 8) (x : Split), AtIssue s w sp x → (encode i).isSome = true →
    (∀ cause, wordFault i s w x = some cause → Faults i s w sp x (faultOf cause)) ∧
    (wordFault i s w x = none → pendingRegister w (namedOf i) = true →
      ∃ t, exec i s = .next t ∧
        findWarp t w.id = some (setSplit w sp (some { x with st := .blocked, stop := .no })) ∧
        t.mem = s.mem ∧ t.ctxs = s.ctxs ∧ t.units = s.units ∧ t.cores = s.cores ∧ t.dies = s.dies ∧ t.results = s.results)

/-- R75, R110, R164, R244, R247, R258: which words are not legal where they stand, in the order of R258. -/
def Sys2Proof.Claims.WordFaultOrder : Prop :=
  ∀ (i : Instr) (s : State) (w : Warp) (x : Split), w.halting = false →
    (wellFormed i = false → wordFault i s w x = some 1) ∧
    (∀ g ord, i = .fence g ord .package → s.ctxs[w.ctx].mode = true → wordFault i s w x = some 1) ∧
    (∀ u, w.kind = .unit u → wellFormed i = true → illegalHere i s w = false →
      ((isWork i = true → wordFault i s w x = some 0x17) ∧
       (i = .rett → w.handler = none → wordFault i s w x = some 0x17) ∧
       (∀ g a w1, i = .trap g a w1 → wordFault i s w x ≠ some 0x17))) ∧
    (∀ o, i = .vmov o → wellFormed i = true → w.vcount ≤ o.d.val → wordFault i s w x = some 2)

/-- R75, R244: the cause 0x0017 of a warp of a unit: the work group, and the system group but for `trap`, `rett` in handler mode, and the
trap-state registers there, of which `syswr` writes TEPC only. A job or fault-service warp never takes it. -/
def Sys2Proof.Claims.PrivilegeFaults : Prop :=
  ∀ (i : Instr) (s : State) (w : Warp) (x : Split), w.halting = false → wellFormed i = true → illegalHere i s w = false →
    (onDispatch w = true → wordFault i s w x ≠ some 0x17) ∧
    (∀ u, w.kind = .unit u →
      ((isWork i = true ∨ i = .fltnext ∨ i = .halt ∨ (∃ g h a b w1, i ∈ [Instr.tlbinv g h a b w1, .carve g h a b w1]) ∨
          (∃ g d a b w1, i = .ptwr g d a b w1) ∨ (∃ g h a b c w1, i = .dirtyclr g h a b c w1)) → wordFault i s w x = some 0x17) ∧
      (i = .rett → (wordFault i s w x = some 0x17 ↔ w.handler = none)) ∧
      (∀ g d n, i = .sysrd g d n → (wordFault i s w x = some 0x17 ↔ w.handler = none ∨ n ∈ [SysReg.route, .tvec, .svec])) ∧
      (∀ g n b w1, i = .syswr g n b w1 → (wordFault i s w x = some 0x17 ↔ w.handler = none ∨ n ≠ .tepc)) ∧
      (∀ g a w1, i = .trap g a w1 → wordFault i s w x ≠ some 0x17))

/-- R110: the cause 0x0002: a v-register at or above 16 VREGS, a tile at or above ACCT, and an expand context where XC = 0; and in a warp that
halts, the drought of R97 before every other cause, at the instruction after 1,024, and otherwise what a warp has that does not halt. -/
def Sys2Proof.Claims.RegisterFaults : Prop :=
  ∀ (i : Instr) (s : State) (w : Warp) (x : Split),
    (w.halting = true → (1024 ≤ x.count → wordFault i s w x = some 0x13) ∧
      (x.count < 1024 → wordFault i s w x = wordFault i s { w with halting := false } x)) ∧
    (w.halting = false → wellFormed i = true → illegalHere i s w = false → privileged i w = false →
      let none := fun (r : Nat) => w.vcount ≤ r
      (∀ o, isChained o = false → i = .vadd o →
        (wordFault i s w x = some 2 ↔ none o.d.val ∨ ∃ r : Fin 256, .v r ∈ [o.a, o.b] ∧ none r.val)) ∧
      (∀ o, isChained o = false → i ∈ [Instr.vmad o, .vfma o] →
        (wordFault i s w x = some 2 ↔ none o.d.val ∨ ∃ r : Fin 256, .v r ∈ [o.a, o.b, o.c] ∧ none r.val)) ∧
      (∀ o, isChained o = false → ∀ cd, i = .vcmp cd o → (wordFault i s w x = some 2 ↔ ∃ r : Fin 256, .v r ∈ [o.a, o.b] ∧ none r.val)) ∧
      (∀ o, i ∈ [Instr.ld o, .ldAcq o, .ldSp o, .st o, .stRel o, .stSp o] →
        (wordFault i s w x = some 2 ↔ none (o.data.val + o.n.val) ∨ (o.oe = true ∧ none o.off.val))) ∧
      (∀ op o, i ∈ [Instr.atom op o, .red op o, .atomSp op o] →
        (wordFault i s w x = some 2 ↔ none (o.data.val + if op = .cas then 1 else 0) ∨ (o.oe = true ∧ none o.off.val))) ∧
      (∀ u la, unitOf s w = some u → launchOf s u = some la →
        (∀ o row kb bank, i ∈ [Instr.mma o row kb bank, .mzero o, .mdist o] → (wordFault i s w x = some 2 ↔ la.r.acct ≤ o.t.val)) ∧
        (∀ o j m vr, i ∈ [Instr.mmovFromTile o j m vr, .mmovToTile o j m vr] →
          (wordFault i s w x = some 2 ↔ none vr.val ∨ la.r.acct ≤ o.t.val)) ∧
        (∀ k, i ∈ [Instr.xsync k, .xend k] → (wordFault i s w x = some 2 ↔ la.r.xc = false)) ∧
        (∀ k d g, i = .xnext k d g → (wordFault i s w x = some 2 ↔ none (d.val + 1) ∨ la.r.xc = false))))

/-- R75, R97, R110, R123, R164, R244, R247, R258: words that are not legal where they stand, in which order, and registers whose
results are on their way. -/
def Obligations.WordFaultsAndWaits : Prop :=
  Claims.WordFaultsWait ∧ Claims.WordFaultOrder ∧ Claims.PrivilegeFaults ∧ Claims.RegisterFaults

/-- R117: a record whose members have all arrived, at its depth, is released, the lowest first: while no split of the warp parks, the warp settles as
it does from the release of that record. Where no member is left, the split that it makes needs a free entry, and waits for one (log 78). -/
def Sys2Proof.Claims.ReleaseHappens : Prop :=
  ∀ (s : State) (w : Warp) (r : Fin 16) (y : Rejoin), findWarp s w.id = some w →
    (∀ k x, w.splits[k] = some x → parks w k x = false) →
    w.recs[r] = some y → y.arrn = y.memb → (∀ q ∈ membersOf w r, q.2.depth = y.depth) →
    (membersOf w r ≠ [] ∨ (∃ k : Fin 8, w.splits[k] = none) ∨ (y.dset = none ∧ y.done = 0)) →
    (∀ (q : Fin 16) z, q < r → w.recs[q] = some z → releasable w q z = false) →
    settle s w.id = settle (modWarp s w.id fun _ => release w r y (s.cores[w.core].issue[w.quad])) w.id

/-- R97, R117: the release of a record. With a deferred set, the members' lanes are done, their entries are free, and the deferred lanes become
a split at DPC in the lowest of those entries, the record's one member, with DR set. Otherwise, with no lane left, the record is free and its
parent has one member less. Otherwise the members fuse into one split in the lowest of their entries, at the record's RPC, under its parent and
with its parent's RPC, of the smallest AGE. The new split has the largest count of those it comes from; of a record with no member left it lies in
the lowest free entry, with the issue count as AGE and a count of 0, for which R97 names none (log 78). -/
def Sys2Proof.Claims.ReleaseCases : Prop :=
  ∀ (w : Warp) (r : Fin 16) (y : Rejoin) (age : BitVec 32), w.recs[r] = some y → y.parent ≠ some r →
    let ms := membersOf w r
    let lanes := ms.foldl (fun m q => m ||| q.2.mask) y.done
    let w' := release w r y age
    let seat := fun (k : Fin 8) =>
      (∃ z ys, ms = (k, z) :: ys) ∨ (ms = [] ∧ w.splits[k] = none ∧ ∀ j : Fin 8, j < k → w.splits[j] ≠ none)
    let counted := fun (n : Nat) => (∀ q ∈ ms, q.2.count ≤ n) ∧ ((ms = [] ∧ n = 0) ∨ ∃ q ∈ ms, q.2.count = n)
    let cleared := fun (k : Fin 8) => (∀ q ∈ ms, q.1 ≠ k → w'.splits[q.1] = none) ∧
      (∀ j : Fin 8, j ≠ k → (∀ q ∈ ms, q.1 ≠ j) → w'.splits[j] = w.splits[j])
    { w' with splits := w.splits, recs := w.recs } = w ∧
    (∀ k dmask dpc, seat k → y.dset = some (dmask, dpc) →
      w'.recs[r] = some { y with done := lanes, memb := 1, arrn := 0, dset := none } ∧ (∀ q : Fin 16, q ≠ r → w'.recs[q] = w.recs[q]) ∧
      cleared k ∧ ∃ f, w'.splits[k] = some f ∧ f.mask = dmask ∧ f.pc = dpc ∧ f.rpc = y.rpc ∧ f.dr = true ∧ f.depth = y.depth ∧
        f.age = age ∧ f.record = some r ∧ f.st = .runnable ∧ counted f.count) ∧
    (y.dset = none → lanes = 0 →
      w'.recs[r] = none ∧ (∀ q : Fin 16, q ≠ r → w'.recs[q] = if y.parent = some q then w.recs[q].map (fun z => { z with memb := z.memb - 1 }) else w.recs[q]) ∧
      (∀ q ∈ ms, w'.splits[q.1] = none) ∧ ∀ j : Fin 8, (∀ q ∈ ms, q.1 ≠ j) → w'.splits[j] = w.splits[j]) ∧
    (∀ k, seat k → y.dset = none → lanes ≠ 0 →
      w'.recs[r] = none ∧ (∀ q : Fin 16, q ≠ r → w'.recs[q] = w.recs[q]) ∧ cleared k ∧
      ∃ f, w'.splits[k] = some f ∧ f.mask = lanes ∧ f.pc = y.rpc ∧ f.st = .runnable ∧ f.record = y.parent ∧ f.depth = y.depth ∧ f.dr = false ∧
        (∀ p z, y.parent = some p → w.recs[p] = some z → f.rpc = z.rpc) ∧
        (ms = [] → f.age = age) ∧ (∀ q ∈ ms, f.age ≤ q.2.age) ∧ (ms ≠ [] → ∃ q ∈ ms, q.2.age = f.age) ∧ counted f.count)

/-- R116: a division that makes a record, the lowest free one. The groups take the split's own entry and the free ones, lowest
first, so that its own entry is free where lower ones suffice; groups left over are deferred in the record. -/
def Sys2Proof.Claims.DivisionMakesRecord : Prop :=
  ∀ (w : Warp) (sp : Fin 8) (x y : Split) (gs : List (Mask × Word)) (rpc dpc : Word) (depth : Nat) (r : Fin 16),
    w.splits[sp] = some y → x.dr = false → w.recs[r] = none → (∀ q : Fin 16, q < r → w.recs[q] ≠ none) →
    let cs := seats w sp
    ∃ w', divide w sp x gs rpc dpc true depth = some (w', lanesOf (gs.take cs.length)) ∧
      w'.recs[r] = some
        { rpc := rpc, dset := if gs.length ≤ cs.length then none else some (lanesOf (gs.drop cs.length), dpc)
          depth := x.depth, parent := x.record, memb := min gs.length cs.length, arrn := 0, done := 0 } ∧
      (∀ q : Fin 16, q ≠ r → w'.recs[q] = w.recs[q]) ∧
      (∀ (j : Nat) (hg : j < gs.length) (hc : j < cs.length), ∃ z, w'.splits[cs[j]] = some z ∧ z.mask = gs[j].1 ∧
        z.pc = gs[j].2 ∧ z.record = some r ∧ z.rpc = rpc ∧ z.st = .runnable ∧ z.depth = depth ∧ z.age = y.age ∧ z.dr = false) ∧
      (∀ k : Fin 8, (∀ (j : Nat) (_ : j < gs.length) (hc : j < cs.length), cs[j] ≠ k) →
        w'.splits[k] = if k = sp then none else w.splits[k])

/-- R116: a division that makes no record. With DR set, or by a `ret`, the groups are members of the split's own record, which has as many
more, and whose deferred set is the groups left over; of a split that has no record they belong to none, and all have an entry. A `ret` that
leaves a group without an entry diverges in a fault, before any change, and so does a division that needs a record and finds none free. -/
def Sys2Proof.Claims.DivisionInRecord : Prop :=
  ∀ (w : Warp) (sp : Fin 8) (x y : Split) (gs : List (Mask × Word)) (rpc dpc : Word) (mk : Bool) (depth : Nat),
    w.splits[sp] = some y → 2 ≤ gs.length →
    let cs := seats w sp
    let excess := gs.drop cs.length
    let seated := fun (w' : Warp) (rec : Option (Fin 16)) (goal : Word) =>
      (∀ (j : Nat) (hg : j < gs.length) (hc : j < cs.length), ∃ z, w'.splits[cs[j]] = some z ∧ z.mask = gs[j].1 ∧
        z.pc = gs[j].2 ∧ z.record = rec ∧ z.rpc = goal ∧ z.st = .runnable ∧ z.depth = depth ∧ z.age = y.age ∧ z.dr = false) ∧
      (∀ k : Fin 8, (∀ (j : Nat) (_ : j < gs.length) (hc : j < cs.length), cs[j] ≠ k) → w'.splits[k] = if k = sp then none else w.splits[k])
    (mk = false → excess ≠ [] → divide w sp x gs rpc dpc mk depth = none) ∧
    (mk = true → x.dr = false → (∀ q : Fin 16, w.recs[q] ≠ none) → divide w sp x gs rpc dpc mk depth = none) ∧
    (mk = false ∨ x.dr = true → mk = true ∨ excess = [] → ∀ r z, x.record = some r → w.recs[r] = some z →
      ∃ w', divide w sp x gs rpc dpc mk depth = some (w', lanesOf (gs.take cs.length)) ∧ seated w' (some r) x.rpc ∧
        w'.recs[r] = some { z with memb := z.memb + (min gs.length cs.length - 1), dset := if excess = [] then z.dset else some (lanesOf excess, dpc) } ∧
        ∀ q : Fin 16, q ≠ r → w'.recs[q] = w.recs[q]) ∧
    (mk = false → excess = [] → x.record = none →
      ∃ w', divide w sp x gs rpc dpc mk depth = some (w', lanesOf gs) ∧ seated w' none 0 ∧ w'.recs = w.recs)

/-- R97, R116, R117: a division and the record that it makes or joins, and the release of a record: when it happens, and what it makes. The AGE
of a divided split's groups is the count of the issue (log 41); a release that finds no member left is log 78. -/
def Obligations.DivideAndRejoin : Prop :=
  Claims.ReleaseHappens ∧ Claims.ReleaseCases ∧ Claims.DivisionMakesRecord ∧ Claims.DivisionInRecord


/-- R252: an exception taken to the handler, while its context does not halt. The record goes to TREC0-TREC7 with DEST 0, TMASK holds
the active and the faulting lanes, TEPC the faulting PC (for cause 0x0016 the next one), the split goes to TVEC with its mask
unchanged, no other split may try to issue, the handler issues from the 16th cycle on, and nothing else changes: no register, no byte
of memory, no other warp. -/
def Sys2Proof.Claims.EntersHandler : Prop :=
  ∀ (s : State) (w : Warp) (sp : Fin 8) (x : Split) (pc next : Word) (act : Mask) (f : FaultInfo),
    findWarp s w.id = some w → w.splits[sp] = some x → routeOf s w f.cause = 0 → s.ctxs[w.ctx].st ≠ .halting → f.ecc = none →
    let t := takeFault s w sp pc next act f
    let w' := { w with
      handler := some sp
      entered := s.now + 16
      trec := tabulate 8 fun k => (recordWords s w x.mask act pc f 0).getD k.val 0
      tepc := if f.cause = 0x16 then next else pc
      tmask := BitVec.ofNat 64 (act.toNat * 2 ^ 32 + f.lanes.toNat)
      splits := w.splits.set sp.val
        (some { x with pc := s.ctxs[w.ctx].tvec, st := .runnable, susp := false, timer := 0, wtimer := 0, stop := .no, ewait := none }) sp.isLt }
    { t with warps := s.warps } = s ∧ findWarp t w.id = some w' ∧ (∀ id, id ≠ w.id → findWarp t id = findWarp s id) ∧
      (∀ k z, mayTry w' k z = true → k = sp) ∧ ∀ n < s.now + 16, ∀ a ∈ attempts { t with now := n }, a.w.id ≠ w.id

/-- R100: a fault that does not end its context, while that context halts. It is not delivered: its split is suspended, and the fault
with its record is kept with the context. After the resume it is delivered: on route 0 the warp enters the handler, on another
its split is suspended where it goes on and the record goes its way; a warp in handler mode leaves it waiting. -/
def Sys2Proof.Claims.FaultsWaitForResume : Prop :=
  (∀ (s : State) (w : Warp) (sp : Fin 8) (x : Split) (pc next : Word) (act : Mask) (f : FaultInfo),
    findWarp s w.id = some w → w.splits[sp] = some x → s.ctxs[w.ctx].st = .halting → f.ecc = none →
    (routeOf s w f.cause = 0 ∨ (resumable f.cause = true ∧ w.handler = none ∧ isService w = false)) →
    let t := takeFault s w sp pc next act f
    let dest := routeOf s w f.cause
    { t with warps := s.warps, ctxs := s.ctxs } = s ∧
    findWarp t w.id = some (setSplit w sp (some { x with pc := pc, st := .blocked, susp := true })) ∧
    (∀ k, k ≠ w.ctx → t.ctxs[k] = s.ctxs[k]) ∧
    t.ctxs[w.ctx] = { s.ctxs[w.ctx] with await := s.ctxs[w.ctx].await ++
      [{ die := coreDie w.core, act := act, lanes := f.lanes, again := if f.cause = 0x16 then next else pc
         q := { ctx := w.ctx, cause := f.cause, va := f.va, route := dest, words := recordWords s w x.mask act pc f dest
                split := (w.id, sp), handle := f.handle, elem := f.elem, ends := false } }] }) ∧
  ∀ (s : State) (c : Fin 64) (a : Await) (w : Warp), s.ctxs[c].await = [a] → findWarp s a.q.split.1 = some w →
    let t := modCtx s c fun y => { y with await := [] }
    (a.q.route = 0 → w.handler = none → deliverAwait s c =
      modWarp t w.id fun y => enterHandler s.now y a.q.split.2 a.q.words a.again a.act a.lanes s.ctxs[w.ctx].tvec) ∧
    (a.q.route = 0 → w.handler ≠ none → deliverAwait s c = s) ∧
    (a.q.route ≠ 0 → deliverAwait s c = recordFault (suspend t w.id a.q.split.2 a.again) a.die a.q)

/-- R100, R252: an exception taken to the handler, and one that waits for the resume of its context. -/
def Obligations.HandlerEntry : Prop := Claims.EntersHandler ∧ Claims.FaultsWaitForResume

/-- R137, R249, R251: a resumable exception routed to the driver or to a fault-service job, outside a handler, in a context that does
not halt. The split is suspended at its instruction (for cause 0x0016 at the next one). A fault that joins no record and finds a
free slot of its die's buffer gets the lowest, with the words of its record; on route 1 vector 61 of the PF is sent (for a context of a VF
too: the model's choice, log 75), on route 2 the slot waits for a fault-service warp. With no free slot it waits for one. -/
def Obligations.DriverRecord : Prop :=
  ∀ (s : State) (w : Warp) (sp : Fin 8) (x : Split) (pc next : Word) (act : Mask) (f : FaultInfo),
    findWarp s w.id = some w → w.splits[sp] = some x → routeOf s w f.cause ≠ 0 → resumable f.cause = true →
    w.handler = none → isService w = false → s.ctxs[w.ctx].st ≠ .halting → f.ecc = none →
    let t := takeFault s w sp pc next act f
    let d := coreDie w.core
    let words := recordWords s w x.mask act pc f (routeOf s w f.cause)
    let q : WaitFault :=
      { ctx := w.ctx, cause := f.cause, va := f.va, route := routeOf s w f.cause, words := words, split := (w.id, sp)
        handle := f.handle, elem := f.elem, ends := false }
    (∃ y, findWarp t w.id = some y ∧
      y.splits[sp] = some { x with pc := if f.cause = 0x16 then next else pc, st := .blocked, susp := true } ∧
      heldRegs y = heldRegs w ∧ ∀ k, k ≠ sp → y.splits[k] = w.splits[k]) ∧
    t.ctxs = s.ctxs ∧
    (joinRecord s d q = none →
      (∀ n, freeSlot s.dies[d].slots Config.faultSlots 0 = some n →
        (∃ r ∈ t.dies[d].slots, r.slot = n ∧ r.words = words ∧ r.ctx = w.ctx ∧ r.splits = [(w.id, sp)]) ∧
        (routeOf s w f.cause = 1 → Hears s d → Tells t (.msix 0 61)) ∧
        (routeOf s w f.cause = 2 → StartReq.service w.ctx n ∈ t.starts[d])) ∧
      (freeSlot s.dies[d].slots Config.faultSlots 0 = none → t.dies[d].faultQ = s.dies[d].faultQ ++ [q]))

/-- R60, R63, R245: the end of a context by a fault: the context is ended, with no warp, unit or operation left, its handles free,
and a completion word with END 2 and the cause as CODE is sent, or held while the host link is down or the bridge stalls; a home Drover on
die 1 is out of the host's reach while the bridge is down (R27). Other contexts keep their state. -/
def Sys2Proof.Claims.ContextEnds : Prop :=
  ∀ (s : State) (c : Fin 64) (cause : Nat), s.ctxs[c].st = .running ∨ s.ctxs[c].st = .halting ∨ s.ctxs[c].st = .halted →
    let t := endContext s c cause
    t.ctxs[c].st = .ended ∧ (∀ e ∈ t.ctxs[c].handles, e.st = .free) ∧ (∀ k, k ≠ c → t.ctxs[k] = s.ctxs[k]) ∧
    (∀ w ∈ t.warps, w.ctx ≠ c) ∧ (∀ u ∈ t.units, u.ctx ≠ c) ∧ (∀ o ∈ t.copies, o.ctx ≠ c) ∧ (∀ o ∈ t.mops, o.ctx ≠ c) ∧
    (∀ w ∈ s.warps, w.ctx ≠ c → w ∈ t.warps) ∧ t.mem = s.mem ∧
    (Hears s (homeDie s c) →
      Tells t (.completion (functionOf s c) s.ctxs[c].caddr (completionWord s.ctxs[c].seq 2 cause) s.ctxs[c].vec.val))

/-- R245, R246, R250: a fault that ends its context, one not resumable and not handled, or one in a handler or a fault-service warp. It
joins no record. With a free slot of its die's buffer it gets the lowest, with the words of its record, and the context ends;
with none it waits for a slot, and the context ends when its record is written. -/
def Sys2Proof.Claims.LastFault : Prop :=
  ∀ (s : State) (w : Warp) (sp : Fin 8) (x : Split) (pc next : Word) (act : Mask) (f : FaultInfo),
    findWarp s w.id = some w → w.splits[sp] = some x → routeOf s w f.cause ≠ 0 →
    (resumable f.cause = false ∨ w.handler ≠ none ∨ isService w = true) → f.ecc = none →
    let t := takeFault s w sp pc next act f
    let d := coreDie w.core
    let words := recordWords s w x.mask act pc f (routeOf s w f.cause)
    let q : WaitFault :=
      { ctx := w.ctx, cause := f.cause, va := f.va, route := routeOf s w f.cause, words := words, split := (w.id, sp)
        handle := f.handle, elem := f.elem, ends := true }
    (∀ n, freeSlot s.dies[d].slots Config.faultSlots 0 = some n →
      (∃ r ∈ t.dies[d].slots, r.slot = n ∧ r.words = words ∧ r.ctx = w.ctx) ∧
      (s.ctxs[w.ctx].st = .running ∨ s.ctxs[w.ctx].st = .halting ∨ s.ctxs[w.ctx].st = .halted → t.ctxs[w.ctx].st = .ended)) ∧
    (freeSlot s.dies[d].slots Config.faultSlots 0 = none → t.ctxs = s.ctxs ∧ t.dies[d].faultQ = s.dies[d].faultQ ++ [q]) ∧
    (∀ u, placeRecord s d q = some u → settleFault s d q = some (endContext u w.ctx f.cause))

/-- R60, R63, R245, R246, R250: faults that end their contexts. -/
def Obligations.FaultEndsContext : Prop := Claims.ContextEnds ∧ Claims.LastFault

/-- R125, R126: a new handle takes the lowest slot with no live entry, with the slot's generation one higher, pending, owned by
the warp's unit (or the warp) and created by the warp; its value holds class, engine, slot and generation in their places;
every other slot keeps its entry. -/
def Obligations.HandleAllocation : Prop :=
  ∀ (s : State) (w : Warp) (cls eng k : Nat), cls < 8 → eng < 256 →
    let hs := s.ctxs[w.ctx].handles
    let live := fun (n : Nat) => hs.any fun e => e.slot == n && e.st != .free
    k < 4096 → live k = false → (∀ n, n < k → live n = true) →
    let h := (newHandle s w cls eng).1
    let t := (newHandle s w cls eng).2
    bitsOf (h.setWidth 64) 29 3 = cls ∧ bitsOf (h.setWidth 64) 21 8 = eng ∧ bitsOf (h.setWidth 64) 9 12 = k ∧
    (∃ e ∈ t.ctxs[w.ctx].handles, e.slot = k ∧ e.st = .pending ∧ e.cls = cls ∧ e.eng = eng ∧ e.owner = ownerOf w ∧ e.creator = w.id
      ∧ handleValue e = h ∧ e.gen = (match hs.find? fun e => e.slot == k with | some e => e.gen + 1 | none => 1)) ∧
    (∀ e, e.slot ≠ k → (e ∈ t.ctxs[w.ctx].handles ↔ e ∈ hs)) ∧
    t.mem = s.mem ∧ t.warps = s.warps ∧ ∀ c, c ≠ w.ctx → t.ctxs[c] = s.ctxs[c]

/-- R26, R27, R34, R35, R39, R42, R161, R164, R165, R326, R329: `fence` and `l1flush`. A release writes back the dirty lines of pages of scope
die or wider, and goes on once none of them waits for the bridge, no invalidation crosses it and no migrated line waits for its recall
(package scope and wider; over a bridge that is down that is cause 0x0014), the domain writes and the atomics of its context are complete,
and at system scope its system writes too; a failed link write is reported at domain and system scope, with its lanes. An acquire goes on once the warp's link reads have returned, without the clean sectors
of those pages. A fence of system scope takes cause 0x0019 while the host link is down. `l1flush` writes every dirty line back once the
warp's writes past L1 have been performed, its second form then drops every line. That a release waits for the writes of its whole context, and not only for those that its
warp has observed, is the model's choice (log 31). -/
def Obligations.FencesAndFlushes : Prop :=
  ∀ (g : Guard) (s : State) (w : Warp) (sp : Fin 8) (x : Split),
    let t := counted s w sp
    (∀ sc, Issues (.fence g .acq sc) s w sp x → activeOf (.fence g .acq sc) w x ≠ 0 →
      (NoLinkReads s w → (sc = .system → s.host.up = true) → RunsTo (.fence g .acq sc) s w sp x (acquired t w sc)) ∧
      (NoLinkReads s w → sc = .system → s.host.up = false → Faults (.fence g .acq sc) s w sp x (faultOf 0x19)) ∧
      (¬ NoLinkReads s w → Waits (.fence g .acq sc) s w sp x t)) ∧
    (∀ ord ∈ [FenceOrd.rel, .ar], ∀ sc, Issues (.fence g ord sc) s w sp x → activeOf (.fence g ord sc) w x ≠ 0 →
      let u := cleaned t w sc
      let wide := sc = .package ∨ sc = .domain ∨ sc = .system
      let back := sc = .core ∨ NoDirty u w.core wideLine
      let done := RunsTo (.fence g ord sc) s w sp x (if ord = .rel then u else acquired u w sc)
      (sc = .core ∨ sc = .die ∨ sc = .package → back → (wide → Across u w.ctx) → NoFarWrites s w.ctx → NoLinkReads s w → done) ∧
      (wide → back → ¬ Across u w.ctx → s.bridge.down = false → Waits (.fence g ord sc) s w sp x u) ∧
      (wide → back → ¬ Across u w.ctx → s.bridge.down = true → Faults (.fence g ord sc) s w sp x (faultOf 0x14)) ∧
      (back → (wide → Across u w.ctx) → ¬ NoFarWrites s w.ctx → Waits (.fence g ord sc) s w sp x u) ∧
      ((sc = .domain ∨ sc = .system) → back → Across u w.ctx → NoPosted s w →
        (w.late = [] → (sc = .system → s.host.up = true) → NoLinkReads s w → done) ∧
        (w.late = [] → sc = .system → s.host.up = false → Faults (.fence g ord sc) s w sp x (faultOf 0x19)) ∧
        (∀ y ys, w.late = y :: ys →
          Faults (.fence g ord sc) s w sp x { faultOf y.cause with va := y.va, lanes := y.lanes, late := true }))) ∧
    (∀ ord sc, Issues (.fence g ord sc) s w sp x → activeOf (.fence g ord sc) w x = 0 → RunsTo (.fence g ord sc) s w sp x t) ∧
    (let u := l1Clean t w.core fun _ => true
      ∀ i ∈ [Instr.l1flush g, .l1flushInv g], Issues i s w sp x →
        (activeOf i w x = 0 → RunsTo i s w sp x t) ∧
        (activeOf i w x ≠ 0 → (∃ l ∈ s.links, l.warp = w.id ∧ l.ctx = w.ctx ∧ l.copy = none ∧ l.sys = false ∧ l.kind = .write) →
          Waits i s w sp x t) ∧
        (activeOf i w x ≠ 0 → NoFarWrites s w.ctx → NoDirty u w.core (fun _ => true) →
          (i = .l1flush g → RunsTo i s w sp x u) ∧
          (i = .l1flushInv g → ∃ v, RunsTo i s w sp x v ∧ v.cores[w.core].l1 = [] ∧ v.mem = u.mem ∧ v.warps = t.warps ∧ v.ctxs = t.ctxs)) ∧
        (activeOf i w x ≠ 0 → NoFarWrites s w.ctx → (∃ l ∈ u.cores[w.core].l1, l.dirty ≠ 0) →
          (∀ l ∈ u.cores[w.core].l1, l.dirty ≠ 0 → lineReach u (coreDie w.core) l.line = true ∧ lineFree u (coreDie w.core) l = false) →
          Waits i s w sp x u))

/-- R21, R26, R27, R146, R165, R329: what a write-back of a core's L1 does to memory. It writes back, one after the other, the lines
that it takes and that can reach their home slices, at least those of the core's own die that have not migrated; the rest stay
as they are. A byte that no line written back holds dirty keeps its value, a byte that one does gets the value of such a line;
the lines stay, clean, with their bytes; no other core, register or context changes. -/
def Obligations.WriteBack : Prop :=
  ∀ (s : State) (c : Fin 384) (p : L1Line → Bool), memoryOk s →
    let t := l1Clean s c p
    let d := coreDie c
    ∃ back : L1Line → Bool,
      let dirty := fun (l : L1Line) (a : Nat) => back l = true ∧ l ∈ s.cores[c].l1 ∧ l.line = a / 256 ∧ l.dirty.getLsbD (a % 256) = true
      (∀ l, back l = true → p l = true) ∧
      (∀ l ∈ s.cores[c].l1, p l = true → dieOf (l.line * 256) = d → s.dies[d].dstate ≠ .dieOffline → s.dies[d].fwd.contains l.line = false →
        back l = true) ∧
      (s.bridge.down = true → ∀ l ∈ s.cores[c].l1, l.dirty ≠ 0 → dieOf (l.line * 256) ≠ d →
        s.dies[dieOf (l.line * 256)].fwd.contains l.line = false → back l = false) ∧
      (∀ a, (∀ l, ¬ dirty l a) → readByte t.mem a = readByte s.mem a) ∧
      (∀ a, (∃ l, dirty l a) → ∃ l, dirty l a ∧ readByte t.mem a = lineByte l (a % 256)) ∧
      t.cores[c].l1 = (s.cores[c].l1.map fun l => if back l = true then { l with dirty := 0 } else l) ∧
      (∀ k, k ≠ c → t.cores[k] = s.cores[k]) ∧ t.warps = s.warps ∧ t.ctxs = s.ctxs ∧ t.units = s.units ∧ memoryOk t

/-- R90, R372-R374: the operations of the system group that return handles. Each waits at a safe point while there is no room for
a handle (R126). `tlbinv` releases first, and is then pending; `carve` and `dirtyclr` end at once on the operands that their
rules refuse or that leave nothing to do, and are otherwise pending. -/
def Obligations.SystemOperations : Prop :=
  ∀ (g : Guard) (hn : Fin 16) (a b : SSrc) (w1 : Word) (s : State) (w : Warp) (sp : Fin 8) (x : Split),
    let t := counted s w sp
    (∀ i ∈ [Instr.tlbinv g hn a b w1, .carve g hn a b w1], Issues i s w sp x → activeOf i w x = 0 → RunsTo i s w sp x t) ∧
    (Issues (.tlbinv g hn a b w1) s w sp x → activeOf (.tlbinv g hn a b w1) w x ≠ 0 →
      ∀ u, releaseAt t w (widest s.ctxs[w.ctx]) = .ok u → handleRoom u w hn = none → Rests (.tlbinv g hn a b w1) s w sp x u) ∧
    (Issues (.tlbinv g hn a b w1) s w sp x → activeOf (.tlbinv g hn a b w1) w x ≠ 0 →
      ∀ u v, releaseAt t w (widest s.ctxs[w.ctx]) = .ok u → handleRoom u w hn = some v →
      let p := given v w hn 6 1
      let i := Instr.tlbinv g hn a b w1
      RunsTo i s w sp x { p.2 with
        serial := p.2.serial + 1
        maints := p.2.maints ++ [newMaint p.2.serial w p.1 (.tlbinv (readS i s w sp x w1 a) (readS i s w sp x w1 b))] }) ∧
    (Issues (.carve g hn a b w1) s w sp x → activeOf (.carve g hn a b w1) w x ≠ 0 →
      let i := Instr.carve g hn a b w1
      let core := readS i s w sp x w1 a
      let word := readS i s w sp x w1 b
      let ppw : BitVec 32 := word.setWidth 32
      (handleRoom t w hn = none → Rests i s w sp x t) ∧
      ∀ v, handleRoom t w hn = some v →
        let p := given v w hn 4 0
        let fails := fun (st : Nat) => RunsTo i s w sp x (endHandle p.2 w.ctx p.1 .faulted fun e => { e with status := st })
        (bitsOf word 32 32 ≠ 0 ∨ ppwOk ppw = false → fails 3) ∧
        (bitsOf word 32 32 = 0 → ppwOk ppw = true →
          (384 ≤ core.toNat → fails 4) ∧
          ∀ k : Fin 384, core.toNat = k.val →
            (isDispatch s k = true ∨ partHolds (partOfCtx s w.ctx) k = false → fails 4) ∧
            (isDispatch s k = false → partHolds (partOfCtx s w.ctx) k = true →
              ((∃ o ∈ s.carves, o.core = k) → fails 9) ∧
              ((∀ o ∈ s.carves, o.core ≠ k) → s.cores[k].ppw = ppw →
                RunsTo i s w sp x (endHandle p.2 w.ctx p.1 .done fun e => e)) ∧
              ((∀ o ∈ s.carves, o.core ≠ k) → s.cores[k].ppw ≠ ppw →
                RunsTo i s w sp x { p.2 with carves := s.carves ++ [{ core := k, ctx := w.ctx, ppw := ppw, handle := p.1 }] })))) ∧
    (∀ c, Issues (.dirtyclr g hn a b c w1) s w sp x →
      let i := Instr.dirtyclr g hn a b c w1
      let first := readS i s w sp x w1 a
      let count := readS i s w sp x w1 b
      (activeOf i w x = 0 → RunsTo i s w sp x t) ∧
      (activeOf i w x ≠ 0 → handleRoom t w hn = none → Rests i s w sp x t) ∧
      (activeOf i w x ≠ 0 → ∀ v, handleRoom t w hn = some v →
        let p := given v w hn 6 0
        (first.toNat % 64 ≠ 0 ∨ count.toNat % 64 ≠ 0 →
          RunsTo i s w sp x (endHandle p.2 w.ctx p.1 .faulted fun e => { e with cause := 8 })) ∧
        (first.toNat % 64 = 0 → count.toNat % 64 = 0 →
          (2 ^ 25 < first.toNat + count.toNat →
            RunsTo i s w sp x (endHandle p.2 w.ctx p.1 .faulted fun e => { e with cause := 1 })) ∧
          (first.toNat + count.toNat ≤ 2 ^ 25 → count = 0 → RunsTo i s w sp x (endHandle p.2 w.ctx p.1 .done fun e => e)) ∧
          (first.toNat + count.toNat ≤ 2 ^ 25 → count ≠ 0 → RunsTo i s w sp x { p.2 with
            serial := p.2.serial + 1
            maints := p.2.maints ++ [newMaint p.2.serial w p.1 (.dirtyclr first count (readS i s w sp x w1 c))] }))))

/-- R101, R248, R371, R375, R376: `fltnext` with the slot it serves in `s1` retires the slot, and takes the lowest waiting slot of
its context or none; another `s1` takes cause 0x0001 (of an imported warp the slot is counted from 4,096 on, log 13). `halt` asks for the halt of a running context, and its own split stands
at a safe point at the next instruction. `ptwr` on an entry that its page checks let it write exchanges the eight bytes at
their home slice and writes the old ones. -/
def Obligations.ServiceHaltAndTableWrite : Prop :=
  ∀ (s : State) (w : Warp) (sp : Fin 8) (x : Split),
    let t := counted s w sp
    (∀ d slot, w.kind = .service d (some slot) → Issues .fltnext s w sp x →
      ((sreg w 1).toNat ≠ slot % 4096 → Faults .fltnext s w sp x (faultOf 1)) ∧
      ((sreg w 1).toNat = slot % 4096 → ∀ u, releaseAt t w (widest s.ctxs[w.ctx]) = .ok u →
        let v := retireHeld u d slot
        (waitingSlot v d w.ctx = none → RunsTo .fltnext s w sp x (modWarp v w.id fun y =>
          { serviceRegs y (BitVec.allOnes 64) [] with kind := .service d none })) ∧
        (∀ n, waitingSlot v d w.ctx = some n → ∃ st, RunsTo .fltnext s w sp x (modWarp { v with starts := st } w.id fun y =>
          { serviceRegs y (BitVec.ofNat 64 n) (slotWords v d n) with kind := .service d (some n) })))) ∧
    (Issues .halt s w sp x →
      Moves .halt s w (modWarp (goOn (if s.ctxs[w.ctx].st = .running then startHalt t w.ctx else t) w.id sp (x.pc + 8)) w.id fun y =>
        modSplit y sp fun z => { z with stop := .blocking })) ∧
    (∀ g d a b w1 p u, Issues (.ptwr g d a b w1) s w sp x → activeOf (.ptwr g d a b w1) w x ≠ 0 →
      let i := Instr.ptwr g d a b w1
      p.part = 0 → ptwrLook t w (readS i s w sp x w1 a) = .ok p → Passes (ptwrStages t w) p → AllDirty [(0, p)] →
      releaseAt t w (widest s.ctxs[w.ctx]) = .ok u → walkStalled u w.ctx = false →
      let r := exchangeEntry u w.core (Acc.of w.ctx) p (readS i s w sp x w1 b)
      RunsTo i s w sp x (modWarp r.2 w.id fun y => setS y d r.1)) ∧
    (∀ (u : State) (core : Fin 384) (c : Fin 64) (p : Spot) (v : Word), memoryOk u → p.pa % 8 = 0 →
      let r := exchangeEntry u core (Acc.of c) p v
      r.1 = readWord u.mem p.pa ∧
      ∀ k, readByte r.2.mem k = if p.pa ≤ k ∧ k < p.pa + 8 then BitVec.ofNat 8 (v.toNat >>> (8 * (k - p.pa))) else readByte u.mem k)

/-- R246: where a fault goes. A terminal cause, and a fault in handler mode or of a fault-service warp, goes to the driver;
route 0 goes to the handler where one can run and otherwise to the driver; route 2 goes to a fault-service job where SVEC is
set; the value 3 is treated as 1. -/
def Sys2Proof.Claims.FaultRouting : Prop :=
  ∀ (s : State) (w : Warp) (cause : Nat), cause < 32 →
    let x := s.ctxs[w.ctx]
    let r := bitsOf x.route (2 * cause) 2
    (cause = 0x13 ∨ cause = 0x14 ∨ w.handler ≠ none ∨ isService w = true → routeOf s w cause = 1) ∧
    (cause ≠ 0x13 → cause ≠ 0x14 → w.handler = none → isService w = false →
      (r = 0 → x.tvec = 0 ∨ trapEnabled s w = false → routeOf s w cause = 1) ∧
      (r = 0 → x.tvec ≠ 0 → trapEnabled s w = true → routeOf s w cause = 0) ∧
      (r = 2 → routeOf s w cause = if x.svec = 0 then 1 else 2) ∧ (r = 1 ∨ r = 3 → routeOf s w cause = 1)) ∧
    (isJob w = true → trapEnabled s w = true)

/-- R248: the fields of a fault record. -/
def Sys2Proof.Claims.FaultRecordFields : Prop :=
  ∀ (s : State) (w : Warp) (mask act : Mask) (pc : Word) (f : FaultInfo) (dest : Nat), f.cause < 2 ^ 16 → dest < 4 →
    let r := recordWords s w mask act pc f dest
    r.length = 8 ∧ bitsOf (r.getD 0 0) 48 16 = f.cause ∧
    (r.getD 0 0).getLsbD 47 = decide (f.cause ∈ [3, 4, 5, 0xB, 0x16]) ∧ (r.getD 0 0).getLsbD 46 = f.hnd ∧
    (r.getD 0 0).getLsbD 45 = f.late ∧ (r.getD 0 0).getLsbD 44 = (w.handler.isSome || isService w) ∧
    bitsOf (r.getD 0 0) 40 2 = dest ∧ bitsOf (r.getD 0 0) 16 8 = w.ctx.val ∧ bitsOf (r.getD 0 0) 8 8 = s.ctxs[w.ctx].part.val ∧
    bitsOf (r.getD 0 0) 0 8 = (coreDie w.core).val ∧ r.getD 1 0 = f.va ∧ r.getD 2 0 = pc ∧
    bitsOf (r.getD 6 0) 32 32 = f.handle.toNat ∧ bitsOf (r.getD 6 0) 0 32 = f.elem % 2 ^ 32 ∧ r.getD 7 0 = f.pte

/-- R114, R232, R248: the words of a fault record that name its unit, its item and its expand tag, of the lane that it is taken for: the lowest
faulting one, or for a fault reported through a handle the lowest active lane of the wait; where there is none, the lowest of the split. -/
def Sys2Proof.Claims.FaultRecordPlace : Prop :=
  ∀ (s : State) (w : Warp) (mask act : Mask) (pc : Word) (f : FaultInfo) (dest : Nat) (l : Fin 32), f.cause < 2 ^ 16 → dest < 4 →
    let lowest := fun (m : Mask) => m.getLsbD l.val = true ∧ ∀ k : Fin 32, k < l → m.getLsbD k.val = false
    let lanes := if f.hnd then act else f.lanes
    (lowest lanes ∨ (lanes = 0 ∧ lowest mask)) →
    let r := recordWords s w mask act pc f dest
    let copy := f.hnd = true ∧ bitsOf (f.handle.setWidth 64) 29 3 = 1
    (r.getD 0 0).getLsbD 42 = false ∧ bitsOf (r.getD 0 0) 32 8 = 0 ∧
    (∀ u la, unitOf s w = some u → launchOf s u = some la →
      bitsOf (r.getD 3 0) 32 32 = u.index % 2 ^ 32 ∧ bitsOf (r.getD 3 0) 24 8 = w.rank % 256 ∧ bitsOf (r.getD 3 0) 16 8 = u.index / 2 ^ 32 % 256 ∧
      bitsOf (r.getD 3 0) 0 16 = 0 ∧ r.getD 4 0 = BitVec.ofNat 64 ((u.index * la.r.wpu + w.rank) * 32 + l.val)) ∧
    (onDispatch w = true → bitsOf (r.getD 3 0) 32 32 = 0 ∧ bitsOf (r.getD 3 0) 24 8 = w.rank % 256 ∧ bitsOf (r.getD 3 0) 0 24 = 0 ∧
      r.getD 4 0 = BitVec.ofNat 64 l.val) ∧
    (∀ g, w.tags[l] = some g → ¬ copy → g.owner < 256 → (r.getD 0 0).getLsbD 43 = true ∧
      bitsOf (r.getD 5 0) 32 32 = 256 * g.x.val + g.owner ∧ bitsOf (r.getD 5 0) 0 32 = g.j % 2 ^ 32) ∧
    (w.tags[l] = none ∨ copy → (r.getD 0 0).getLsbD 43 = false ∧ r.getD 5 0 = 0xFFFFFFFF00000000#64)

/-- R137, R248: a fault that finds a record of its context, its cause and its 64 KiB page is joined to it, the first such slot: JOIN is set in the
record's first word and no other word changes, its split is one more that the record serves, and no slot is taken. A `trap` is never joined, nor a
fault that is reported through a handle. -/
def Sys2Proof.Claims.FaultJoins : Prop :=
  ∀ (s : State) (d : Fin 2) (q : WaitFault),
    let fits := fun (r : SlotRec) => r.ctx = q.ctx ∧ r.cause = q.cause ∧ bitsOf r.va 16 41 = bitsOf q.va 16 41
    (q.cause = 0x16 ∨ q.handle ≠ 0 → joinRecord s d q = none) ∧
    ((∀ r ∈ s.dies[d].slots, ¬ fits r) → joinRecord s d q = none) ∧
    (q.cause ≠ 0x16 → q.handle = 0 → ∀ a r b, s.dies[d].slots = a ++ r :: b → fits r → (∀ z ∈ a, ¬ fits z) → (∀ z ∈ a ++ b, z.slot ≠ r.slot) →
      ∃ t v, joinRecord s d q = some t ∧ t.dies[d].slots = a ++ { r with words := v :: r.words.drop 1, splits := q.split :: r.splits } :: b ∧
        (∀ k, k < 64 → v.getLsbD k = (decide (k = 42) || (r.words.getD 0 0).getLsbD k)) ∧ t.warps = s.warps ∧ t.ctxs = s.ctxs ∧
        t.dies[d].faultQ = s.dies[d].faultQ)

/-- R114, R137, R232, R246, R248: where a fault goes, the fields of its record, and the joining of a fault to a record. -/
def Obligations.FaultRoutingAndRecord : Prop :=
  Claims.FaultRouting ∧ Claims.FaultRecordFields ∧ Claims.FaultRecordPlace ∧ Claims.FaultJoins

/-- R100, R122, R244, R253, R369: `trap` takes cause 0x0016 with its operand as VA. `rett` in a handler whose cause is resumable goes
on at TEPC and leaves handler mode, where a fault that waited for that since a resume is delivered; another cause ends the
context. -/
def Sys2Proof.Claims.TrapAndReturn : Prop :=
  ∀ (s : State) (w : Warp) (sp : Fin 8) (x : Split),
    (∀ g a w1, Issues (.trap g a w1) s w sp x →
      (activeOf (.trap g a w1) w x ≠ 0 →
        Faults (.trap g a w1) s w sp x { faultOf 0x16 with va := readS (.trap g a w1) s w sp x w1 a }) ∧
      (activeOf (.trap g a w1) w x = 0 → RunsTo (.trap g a w1) s w sp x (counted s w sp))) ∧
    (Issues .rett s w sp x → w.handler ≠ none →
      let cause := bitsOf w.trec[0] 48 16
      (resumable cause = true →
        let v := modWarp (goOn (retryFills (counted s w sp) w.ctx w.trec[1]) w.id sp w.tepc) w.id fun y => { y with handler := none }
        Moves .rett s w (if s.ctxs[w.ctx].st = .halting then v else deliverAwait v w.ctx) ∧
        (v.ctxs[w.ctx].await = [] → deliverAwait v w.ctx = v)) ∧
      (resumable cause = false → Moves .rett s w (endContext (counted s w sp) w.ctx cause)))

/-- R247, R370: `sysrd` reads every system register. `syswr` writes TEPC, TVEC and SVEC with multiples of 8 and ROUTE with its
reserved bits zero, and changes nothing else; any other value, and a write of TREC or TMASK, takes cause 0x0001. -/
def Sys2Proof.Claims.SystemRegisters : Prop :=
  ∀ (g : Guard) (s : State) (w : Warp) (sp : Fin 8) (x : Split),
    (∀ d n, Issues (.sysrd g d n) s w sp x →
      WritesOnce (.sysrd g d n) s w sp x fun y => setS y d (systemRegister s w n)) ∧
    (∀ n b w1, Issues (.syswr g n b w1) s w sp x →
      let i := Instr.syswr g n b w1
      let v := readS i s w sp x w1 b
      let t := counted s w sp
      (activeOf i w x = 0 → RunsTo i s w sp x t) ∧
      (activeOf i w x ≠ 0 →
        (n = .tepc → v.toNat % 8 = 0 → Writes i s w sp x fun y => { y with tepc := v }) ∧
        (n = .tvec → v.toNat % 8 = 0 → RunsTo i s w sp x (modCtx t w.ctx fun c => { c with tvec := v })) ∧
        (n = .svec → v.toNat % 8 = 0 → RunsTo i s w sp x (modCtx t w.ctx fun c => { c with svec := v })) ∧
        (n = .route → bitsOf v 0 2 = 0 → bitsOf v 52 12 = 0 → RunsTo i s w sp x (modCtx t w.ctx fun c => { c with route := v })) ∧
        ((n = .tepc ∨ n = .tvec ∨ n = .svec) → v.toNat % 8 ≠ 0 → Faults i s w sp x (faultOf 1)) ∧
        (n = .route → bitsOf v 0 2 ≠ 0 ∨ bitsOf v 52 12 ≠ 0 → Faults i s w sp x (faultOf 1)))) ∧
    (∀ n b w1, (∃ k, n = .trec k) ∨ n = .tmask → AtIssue s w sp x → w.halting = false →
      Faults (.syswr g n b w1) s w sp x (faultOf 1))

/-- R122, R244, R247, R253, R369, R370: `trap`, `rett`, `sysrd` and `syswr`. -/
def Obligations.TrapsAndSystemRegisters : Prop := Claims.TrapAndReturn ∧ Claims.SystemRegisters

/-- R113, R127, R172, R335: `hwait` on the null handle goes on; on a value that resolves to nothing it takes cause 0x000F; on a
pending handle it waits at a safe point; on a done or cancelled one it goes on with an acquire at the scope of what was
written, the context's widest for a launch that is done, and none for one that was cancelled; on a faulted one it takes the recorded fault,
and on one that holds cause zero it goes on without an acquire: R127 and R335 say so of a refused launch, and that a `carve` that has faulted
with a status does the same is the model's reading (log 27). -/
def Sys2Proof.Claims.HandleWait : Prop :=
  ∀ (g : Guard) (n : Fin 16) (s : State) (w : Warp) (sp : Fin 8) (x : Split),
    let i := Instr.hwait g n
    let t := counted s w sp
    Issues i s w sp x →
    (activeOf i w x = 0 → RunsTo i s w sp x t) ∧
    (activeOf i w x ≠ 0 →
      (w.h[n] = 0 → RunsTo i s w sp x t) ∧
      (resolve s w w.h[n] = .bad → Faults i s w sp x (faultOf 0xF)) ∧
      (∀ e, resolve s w w.h[n] = .entry e →
        (hFinal e.st = false → Rests i s w sp x t) ∧
        (GoesOn s w e → RunsTo i s w sp x (waited s t w e)) ∧
        (e.st = .faulted → e.cause ≠ 0 → Faults i s w sp x (handleFault e)) ∧
        (e.st = .faulted → e.cause = 0 → RunsTo i s w sp x t)))

/-- R339: `hwaitany` writes 16 for an empty mask, takes cause 0x000F where a named handle resolves to nothing, waits at a safe
point while none is final, and otherwise acts on the lowest-numbered final one as `hwait` does, writing its number where it
takes no fault. -/
def Sys2Proof.Claims.HandleWaitAny : Prop :=
  ∀ (g : Guard) (d : Fin 128) (a : SSrc) (w1 : Word) (s : State) (w : Warp) (sp : Fin 8) (x : Split),
    let i := Instr.hwaitany g d a w1
    let t := counted s w sp
    let m := readS i s w sp x w1 a
    let r := fun (n : Fin 16) => resolve s w w.h[n]
    Issues i s w sp x →
    (activeOf i w x = 0 → RunsTo i s w sp x t) ∧
    (activeOf i w x ≠ 0 →
      ((∀ n : Fin 16, m.getLsbD n.val = false) → Writes i s w sp x fun y => setS y d 16) ∧
      ((∃ n : Fin 16, m.getLsbD n.val = true ∧ r n = .bad) → Faults i s w sp x (faultOf 0xF)) ∧
      ((∀ n : Fin 16, m.getLsbD n.val = true → r n ≠ .bad) →
        ((∃ n : Fin 16, m.getLsbD n.val = true) →
          (∀ n : Fin 16, m.getLsbD n.val = true → ∃ e, r n = .entry e ∧ hFinal e.st = false) → Rests i s w sp x t) ∧
        (∀ n : Fin 16, m.getLsbD n.val = true →
          (∀ k : Fin 16, k < n → m.getLsbD k.val = true → ∃ e, r k = .entry e ∧ hFinal e.st = false) →
          (r n = .null → Writes i s w sp x fun y => setS y d (BitVec.ofNat 64 n.val)) ∧
          (∀ e, r n = .entry e → GoesOn s w e → RunsTo i s w sp x (modWarp (waited s t w e) w.id fun y =>
            setS y d (BitVec.ofNat 64 n.val))) ∧
          (∀ e, r n = .entry e → e.st = .faulted → e.cause ≠ 0 → Faults i s w sp x (handleFault e)))))

/-- R113, R127, R172, R335, R339: `hwait` and `hwaitany`. -/
def Sys2Proof.Claims.HandleWaits : Prop := Claims.HandleWait ∧ Claims.HandleWaitAny

/-- R127, R336, R338: `htest` writes the entry's word without waiting; `hmov` writes a handle register once it holds no pending
handle, or reads one that resolves. -/
def Sys2Proof.Claims.HandleReads : Prop :=
  ∀ (g : Guard) (d : Fin 128) (n : Fin 16) (s : State) (w : Warp) (sp : Fin 8) (x : Split),
    let r := resolve s w w.h[n]
    (Issues (.htest g d n) s w sp x →
      let i := Instr.htest g d n
      (r = .null → WritesOnce i s w sp x fun y => setS y d 1) ∧
      (r = .bad → activeOf i w x ≠ 0 → Faults i s w sp x (faultOf 0xF)) ∧
      (∀ e, r = .entry e → e.st ≠ .free → e.cause < 2 ^ 16 → ∃ v : Word, WritesOnce i s w sp x (fun y => setS y d v) ∧
        bitsOf v 0 8 = (match e.st with | .done => 1 | .faulted => 2 | .cancelled => 3 | _ => 0) ∧
        bitsOf v 8 8 = e.status % 256 ∧ bitsOf v 16 16 = (if e.st = .faulted then e.cause else 0) ∧
        bitsOf v 32 32 = if e.st = .faulted ∧ e.cls = 1 then e.elem % 2 ^ 32 else 0)) ∧
    (Issues (.hmovFromHandle g d n) s w sp x →
      let i := Instr.hmovFromHandle g d n
      (r ≠ .bad → WritesOnce i s w sp x fun y => setS y d (w.h[n].setWidth 64)) ∧
      (r = .bad → activeOf i w x ≠ 0 → Faults i s w sp x (faultOf 0xF))) ∧
    (∀ a w1, Issues (.hmovToHandle g n a w1) s w sp x →
      let i := Instr.hmovToHandle g n a w1
      ((∀ e, r = .entry e → e.st ≠ .pending) →
        WritesOnce i s w sp x fun y => setH y n ((readS i s w sp x w1 a).setWidth 32)) ∧
      (∀ e, r = .entry e → e.st = .pending → activeOf i w x ≠ 0 → Rests i s w sp x (counted s w sp)))

/-- R337: `hcancel` on the null handle or a final one does nothing; on a value that resolves to nothing it takes cause 0x000F and
on an expand-reduction handle cause 0x0011. A pending copy or maintenance operation is asked to end, and ends cancelled between two
elements; a `carve` is dropped and its handle ends cancelled; another pending operation is cancelled as its class allows. -/
def Sys2Proof.Claims.HandleCancel : Prop :=
  ∀ (g : Guard) (n : Fin 16) (s : State) (w : Warp) (sp : Fin 8) (x : Split),
    let i := Instr.hcancel g n
    let t := counted s w sp
    Issues i s w sp x →
    (activeOf i w x = 0 ∨ w.h[n] = 0 → RunsTo i s w sp x t) ∧
    (activeOf i w x ≠ 0 →
      (resolve s w w.h[n] = .bad → Faults i s w sp x (faultOf 0xF)) ∧
      (∀ e, resolve s w w.h[n] = .entry e →
        (e.cls = 5 → Faults i s w sp x (faultOf 0x11)) ∧
        (e.cls ≠ 5 → hFinal e.st = true → RunsTo i s w sp x t) ∧
        (e.cls ≠ 5 → e.st = .pending → RunsTo i s w sp x (cancelEntry t w.ctx e)) ∧
        (e.st = .pending → e.cls = 1 ∨ e.cls = 6 →
          cancelEntry t w.ctx e = modHandle t w.ctx e.slot fun y => { y with cancelReq := true }) ∧
        (e.st = .pending → e.cls = 4 →
          (∀ y ∈ (cancelEntry t w.ctx e).ctxs[w.ctx].handles, y.slot = e.slot → y.st ≠ .pending) ∧
          (cancelEntry t w.ctx e).cores = t.cores ∧
          ∀ o ∈ (cancelEntry t w.ctx e).carves, o.ctx = w.ctx → o.handle ≠ handleValue e)))

/-- R113, R127, R172, R335-R339: `hwait`, `hwaitany`, `htest`, `hmov` and `hcancel`. -/
def Obligations.HandleForms : Prop := Claims.HandleWaits ∧ Claims.HandleReads ∧ Claims.HandleCancel


/-- R128, R319, R320, R324: the scratch forms. `ld.sp` sends each active lane its bytes of the scratchpad, extended by R320 or
register by register; `st.sp` writes the lanes' bytes, in ascending lane order; `atom.sp` performs the lanes' operations in
ascending order and sends their old values. An access not wholly below the unit's scratch size, and any in a job or
fault-service warp, takes cause 0x0009. Every other byte of scratch, and all of memory, keeps its value. -/
def Obligations.ScratchAccess : Prop :=
  ∀ (o : MOp) (s : State) (w : Warp) (sp : Fin 8) (x : Split) (u : UnitSt),
    (Issues (.ldSp o) s w sp x → InScratch (.ldSp o) s w x o u → activeOf (.ldSp o) w x ≠ 0 →
      ∃ t, RunsTo (.ldSp o) s w sp x t ∧ LoadSent t s (issOf (.ldSp o) w sp x) (dataRegs o) (fun l j =>
          if o.e then extended o.ty (readN u.scratch (laneOffset w o l) (tyBytes o.ty))
          else BitVec.ofNat 64 (readN u.scratch (laneOffset w o l + 8 * j) 8)) ∧
        t.mem = s.mem ∧ t.units = s.units ∧ t.ctxs = s.ctxs) ∧
    (Issues (.stSp o) s w sp x → InScratch (.stSp o) s w x o u → activeOf (.stSp o) w x ≠ 0 →
      RunsTo (.stSp o) s w sp x (modUnit (counted s w sp) u.id fun y => { y with
        scratch := (activeOf (.stSp o) w x).lanes.foldl
          (fun m l => writeN m (laneOffset w o l) (accBytes o) (storeValue w o l)) y.scratch }) ∧
      ∀ (m : Memory) (a : Nat), Memory.wf m = true → (∀ l, inAct (.stSp o) w x l → a < laneOffset w o l ∨ laneOffset w o l + accBytes o ≤ a) →
        readByte ((activeOf (.stSp o) w x).lanes.foldl
          (fun m l => writeN m (laneOffset w o l) (accBytes o) (storeValue w o l)) m) a = readByte m a) ∧
    (∀ op, Issues (.atomSp op o) s w sp x → InScratch (.atomSp op o) s w x o u → activeOf (.atomSp op o) w x ≠ 0 →
      let ls := (activeOf (.atomSp op o) w x).lanes
      let r := scratchAtomics op w o ls u.scratch
      ∃ t, RunsTo (.atomSp op o) s w sp x t ∧
        LoadSent t s (issOf (.atomSp op o) w sp x) [o.data] (fun l _ => extended o.ty (r.1.getD (ls.findIdx fun m => m == l) 0)) ∧
        t.mem = s.mem ∧ t.units = (modUnit (counted s w sp) u.id fun y => { y with scratch := r.2 }).units) ∧
    (∀ i, (i = .ldSp o ∨ i = .stSp o ∨ ∃ op, i = .atomSp op o) → Issues i s w sp x →
      (activeOf i w x = 0 → RunsTo i s w sp x (counted s w sp)) ∧
      (activeOf i w x ≠ 0 → (unitOf s w = none ∨ (unitOf s w = some u ∧ ∃ la, launchOf s u = some la ∧
          ∀ l, inAct i w x l → la.r.scrk * 1024 < laneOffset w o l + accBytes o)) →
        ∃ f, f.cause = 9 ∧ Faults i s w sp x f))

/-- R147, R166, R327, R328: `prefetch` whose lanes miss no TLB goes on, whatever their checks come to, and changes nothing that a program
sees: no register, context, unit or result, and nothing of another core. Memory keeps every byte where it passes L1 by, where L1 has no
dirty byte, and where L1 need replace no line (64 lines of a set are more than its lanes can bring); in the last case L1 also keeps every
byte that it holds. `waitv` whose checks pass, in this package, with nothing outstanding: it reads every active lane, goes on where one
differs from the low bits of its register, with the values in the register and an acquire at the widest scope of its pages (the clean
sectors of pages of scope die or wider are dropped), and otherwise waits at a safe point, where a read counts as made every 1,024 cycles. -/
def Obligations.PrefetchAndMonitorWait : Prop :=
  ∀ (o : MOp) (s : State) (w : Warp) (sp : Fin 8) (x : Split),
    let t := counted s w sp
    (Issues (.prefetch o) s w sp x →
      (∀ l page, inAct (.prefetch o) w x l → locate s w.core w.ctx (laneAddr w o l) false ≠ .miss page) →
      ∃ u, RunsTo (.prefetch o) s w sp x u ∧ u.warps = t.warps ∧ u.ctxs = s.ctxs ∧ u.units = s.units ∧ u.results = s.results ∧
        u.links = s.links ∧ (∀ k, k ≠ w.core → u.cores[k] = s.cores[k]) ∧
        (o.h = 3 → u.mem = s.mem ∧ u.cores = t.cores) ∧ (NoDirty s w.core (fun _ => true) → u.mem = s.mem) ∧
        ((∀ n, (s.cores[w.core].l1.filter fun y => l1Set y.line == n).length + 64 ≤ l1Ways s.cores[w.core].ppw) →
          u.mem = s.mem ∧ ∀ a b, heldByte s w.core a = some b → heldByte u w.core a = some b)) ∧
    (Issues (.waitv o) s w sp x →
      let c := issOf (.waitv o) w sp x
      (activeOf (.waitv o) w x = 0 → RunsTo (.waitv o) s w sp x t) ∧
      (activeOf (.waitv o) w x ≠ 0 → ∀ q, Clear (.waitv o) w x 1 (waitLook t w o) (waitStages t w o) q →
        let ps := spotsOf c.act 1 q
        AllLocal t w ps → NoLinkReads s w → NoLinkResult s w sp →
        let v := loadLanes t c o true none ps
        let m := touchParts t c o (atHome true) ps
        let differs := ∃ y ∈ v, y.2.toNat % 2 ^ tyWidth o.ty ≠ (vreg w o.data y.1).toNat % 2 ^ tyWidth o.ty
        let due := x.timer = 0 ∨ x.timer + 1024 ≤ s.now + 1
        (differs → ∃ u, RunsTo (.waitv o) s w sp x u ∧ u.mem = m.mem ∧ u.ctxs = s.ctxs ∧ u.units = s.units ∧
          ((∀ p ∈ ps, p.2.scope = .core) → u.cores = m.cores) ∧
          ((∃ p ∈ ps, p.2.scope ≠ .core) → u.cores = (l1DropClean m w.core wideLine).cores) ∧
          ∀ y, findWarp u w.id = some y →
            (∀ l, inAct (.waitv o) w x l → vreg y o.data l = (laneVals v l).getD 0 0) ∧ y.s = w.s ∧ y.p = w.p ∧ y.flags = w.flags) ∧
        (¬ differs → ∃ u, Rests (.waitv o) s w sp x u ∧ u.ctxs = s.ctxs ∧ u.units = s.units ∧
          (due → u.mem = m.mem ∧ u.cores = m.cores) ∧ (¬ due → u.mem = s.mem ∧ u.cores = t.cores))))

/-- R123, R133, R138, R158, R166, R319-R321: `ld` and `ld.acq`, whose checks pass and whose links have answered. What the lanes and
parts read is on its way to the data registers; `ld.acq` first waits for the warp's other link reads and ends with an acquire at the
widest scope of its pages. A lane that misses the TLBs asks for a walk and waits; otherwise, where no bridge stalls a lane, the fault
of the lowest lane whose check fails is taken. -/
def Sys2Proof.Claims.VectorLoads : Prop :=
  ∀ (acq : Bool) (o : MOp) (s : State) (w : Warp) (sp : Fin 8) (x : Split),
    let i := if acq then Instr.ldAcq o else .ld o
    let c := issOf i w sp x
    let t := counted s w sp
    Issues i s w sp x →
    (activeOf i w x = 0 → RunsTo i s w sp x t) ∧
    (activeOf i w x ≠ 0 →
      (∀ q r t', Clear i w x (accParts o) (loadLook t w o) (loadStages t w o (atHome acq)) q →
        LinksBack t c (spotsOf c.act (accParts o) q) r t' → (acq = true → NoLinkReads s w) →
        let ps := spotsOf c.act (accParts o) q
        let v := touchParts t' c o (atHome acq) ps
        let u := if acq && widestOf ps != .core then l1DropClean v w.core wideLine else v
        ∃ t'', RunsTo i s w sp x t'' ∧ LoadSent t'' u c (dataRegs o) (fun l j => (laneVals (loadLanes t' c o acq r ps) l).getD j 0) ∧
          t''.mem = u.mem ∧ t''.cores = u.cores ∧ t''.ctxs = u.ctxs) ∧
      (∀ l page, inAct i w x l → loadLook t w o l 0 = .miss page → ∃ u, Waits i s w sp x u ∧ u.warps = t.warps ∧ u.mem = s.mem) ∧
      (∀ l f, inAct i w x l → loadLook t w o l 0 = .bad f →
        (∀ k j page, inAct i w x k → loadLook t w o k j ≠ .miss page) →
        (∀ k, inAct i w x k → ∀ g ∈ loadStages t w o (atHome acq) k, ∀ p, g p ≠ .stall ∧ ∀ page, g p ≠ .miss page) →
        (∀ k, inAct i w x k → k < l → ∀ j, j < accParts o → ∃ p, loadLook t w o k j = .ok p ∧
          Passes (loadStages t w o (atHome acq) k) { p with part := j }) →
        ∃ m : Mask, m.getLsbD l.val = true ∧ Faults i s w sp x { f with lanes := m }))

/-- R147, R320, R321: a bypassing load of one lane from this die's memory, aligned and its data good, its sector not in L1 and its line
not migrated, returns the bytes of memory. -/
def Sys2Proof.Claims.LoadReturnsMemory : Prop :=
  ∀ (o : MOp) (s : State) (w : Warp) (sp : Fin 8) (x : Split) (l : Fin 32) (p : Spot),
    Issues (.ld o) s w sp x → activeOf (.ld o) w x = BitVec.ofNat 32 (2 ^ l.val) → o.h = 3 → o.e = true → o.ty ≠ .i4 →
    loadLook s w o l 0 = .ok p → (laneAddr w o l).toNat % tyBytes o.ty = 0 → p.kind = .package → pteFmt p.e.pte = 0 →
    s.dies[coreDie w.core].dstate ≠ .dieOffline → s.bad.contains (p.pa / 64) = false →
    dieOf p.pa = coreDie w.core → holderOf s (p.pa / 256) = coreDie w.core → l1Holds s w.core (p.pa / 64) = false →
    p.pa % tyBytes o.ty = 0 →
    ∃ t, RunsTo (.ld o) s w sp x t ∧
      LoadSent t s (issOf (.ld o) w sp x) [o.data] (fun _ _ => extended o.ty (readN s.mem p.pa (tyBytes o.ty))) ∧
      t.mem = s.mem

/-- R113, R123, R138, R322: `ld.s` whose check passes, in this package: one load for the warp at the base and displacement; its
value is on its way to the s-register, which is pending (but for `s0`). -/
def Sys2Proof.Claims.ScalarLoad : Prop :=
  ∀ (o : MOp) (s : State) (w : Warp) (sp : Fin 8) (x : Split) (p : Spot) (pa : Nat),
    let t := counted s w sp
    let c := issOf (.ldS o) w sp x
    Issues (.ldS o) s w sp x →
    (activeOf (.ldS o) w x = 0 → RunsTo (.ldS o) s w sp x t) ∧
    (activeOf (.ldS o) w x ≠ 0 → scalarLook t c o = .ok p → Passes (scalarStages t c o) p → localPa t w.core p = some pa →
      let v := peekBytes t w.core false (accOf t w.ctx o.h p) p pa (partBytes o)
      let u := touchParts t c { o with ty := .b64 } (fun _ => false) [(c.act.lowest.getD 0, p)]
      let d : Fin 128 := Fin.ofNat 128 o.data.val
      RunsTo (.ldS o) s w sp x (modWarp { u with
        serial := u.serial + 1
        results := u.results ++ [{ result0 c .load with
          id := u.serial, sw := some (d, if o.e then extended o.ty v else BitVec.ofNat 64 v) }] } w.id fun y => pendS y d))

/-- R123, R133, R138, R147, R158, R166, R319-R322: the loads from global memory. -/
def Obligations.GlobalLoads : Prop := Claims.VectorLoads ∧ Claims.LoadReturnsMemory ∧ Claims.ScalarLoad

/-- R65, R133, R134, R138, R147, R153, R158, R323: `st` and `st.rel`, whose checks pass, on pages already marked dirty: the parts of
the lanes are performed in ascending lane order, after the release of `st.rel`. A store of one part to a page of D = 0 first marks it, and
is then performed; where its entry in memory is no longer the one that was cached, it waits, and starts again. A page without W takes cause 0x0004, a term
page cause 0x0007, a read-duplicate page cause 0x0005, in every store and atomic form. -/
def Sys2Proof.Claims.VectorStores : Prop :=
  ∀ (o : MOp) (s : State) (w : Warp) (sp : Fin 8) (x : Split),
    let t := counted s w sp
    (∀ rel : Bool,
      let i := if rel then Instr.stRel o else .st o
      let c := issOf i w sp x
      Issues i s w sp x →
      (activeOf i w x = 0 → RunsTo i s w sp x t) ∧
      (activeOf i w x ≠ 0 → ∀ q, Clear i w x (accParts o) (storeLook t w o) (storeStages t w o rel) q →
        let ps := spotsOf c.act (accParts o) q
        AllDirty ps → ∀ u, (if rel then releaseAt t w (widestOf ps) = .ok u else u = t) → walkStalled u w.ctx = false →
          RunsTo i s w sp x (ps.foldl (fun s p => storePart s c o rel p.1 p.2) u)) ∧
      (activeOf i w x ≠ 0 → ∀ q l p, Clear i w x (accParts o) (storeLook t w o) (storeStages t w o rel) q →
        spotsOf c.act (accParts o) q = [(l, p)] → ∀ u, (if rel then releaseAt t w p.scope = .ok u else u = t) → walkStalled u w.ctx = false →
          markFault u (coreDie w.core) w.ctx p.e p.pa = none →
          (∀ v, setDirty u (some w.core) (coreDie w.core) w.ctx p.e p.pa = some v → RunsTo i s w sp x (storePart v c o rel l p)) ∧
          (setDirty u (some w.core) (coreDie w.core) w.ctx p.e p.pa = none → ∃ v, Waits i s w sp x v ∧ v.mem = u.mem ∧ v.warps = u.warps))) ∧
    (∀ i, (i = .st o ∨ i = .stRel o ∨ ∃ op, i = .atom op o ∨ i = .red op o) → Issues i s w sp x → NoLinkResult s w sp →
      ∀ (l : Fin 32) (va : Word) (pa : Nat) (e : TlbEntry), inAct i w x l → (∀ k, inAct i w x k → k = l) →
        va = laneAddr w o l → accParts o = 1 → translate s w.core w.ctx va = .ok pa e → regionOf pa = .package →
        (s.ctxs[w.ctx].mode = false ∨ dieOf pa = s.ctxs[w.ctx].die) →
        (pteW e.pte = false → Faults i s w sp x
          { faultOf 4 with va := va, pte := e.pte, lanes := BitVec.ofNat 32 (2 ^ l.val) }) ∧
        (pteW e.pte = true → pteRepl e.pte = 1 → Faults i s w sp x
          { faultOf 5 with va := va, pte := e.pte, lanes := BitVec.ofNat 32 (2 ^ l.val) }) ∧
        (pteW e.pte = true → pteRepl e.pte ≠ 1 → pteFmt e.pte ≠ 0 → Faults i s w sp x
          { faultOf 7 with va := va, pte := e.pte, lanes := BitVec.ofNat 32 (2 ^ l.val) }))

/-- R65, R134: what a write through a translation marks before it is performed. In a page that is tracked the bit of its frame is set
in the partition's dirty bitmap, for every frame of it that is written, D set or not; a bit that is set already changes nothing. A page of
D = 0 gets A and D in its entry in memory, where that still is the entry that was cached, and no other byte changes; the core's cached
copy has D from then on. -/
def Sys2Proof.Claims.DirtyMarks : Prop :=
  (∀ (s : State) (k : Fin 384) (c : Fin 64) (e : TlbEntry) (pa : Nat), memoryOk s → pteD e.pte = false → pteDte e.pte = false →
    let d := coreDie k
    let p := readWord s.mem e.leafAt
    let same := p ||| 0x18000#64 = e.pte ||| 0x18000#64
    (same → s.dies[dieOf e.leafAt].dstate ≠ .dieOffline → s.bridge.down = false →
      ∃ t, setDirty s (some k) d c e pa = some t ∧ t.warps = s.warps ∧ t.ctxs = s.ctxs ∧
        (∀ j, j < 8 → readByte t.mem (e.leafAt + j) = BitVec.ofNat 8 ((p ||| 0x18000#64).toNat >>> (8 * j))) ∧
        (∀ a, a < e.leafAt ∨ e.leafAt + 8 ≤ a → readByte t.mem a = readByte s.mem a) ∧
        ∀ y ∈ t.cores[k].tlb, y.ctx = e.ctx → y.base = e.base → y.size = e.size → pteD y.pte = true) ∧
    (¬ same → setDirty s (some k) d c e pa = none)) ∧
  ∀ (s : State) (k : Fin 384) (c : Fin 64) (e : TlbEntry) (pa : Nat), memoryOk s → pteD e.pte = true →
    let n := s.ctxs[c].part.val
    let frame := pa / 2 ^ 16
    let a := (partOfCtx s c).dbase.toNat + frame / 8
    let d := coreDie k
    (pteDte e.pte = false → setDirty s (some k) d c e pa = some s) ∧
    (pteDte e.pte = true → n < 24 → regionOf pa = .package → lineReach s d (a / 256) = true →
      ∃ t, setDirty s (some k) d c e pa = some t ∧
        (∀ j, j < 8 → (readByte t.mem a).getLsbD j = ((readByte s.mem a).getLsbD j || decide (j = frame % 8))) ∧
        (∀ b, b ≠ a → readByte t.mem b = readByte s.mem b) ∧ t.warps = s.warps ∧ t.ctxs = s.ctxs ∧
        ((readByte s.mem a).getLsbD (frame % 8) = true → t = s))

/-- R146, R147, R323: where one part of a store goes, at a place `pa` of package memory. With hint 3 its bytes, and no others,
change at the home slice. With another hint, where L1 holds its sectors, memory keeps every byte, and L1's view of memory
changes at those bytes only, which are dirty. -/
def Sys2Proof.Claims.StorePlace : Prop :=
  ∀ (o : MOp) (s : State) (c : Iss) (l : Fin 32) (p : Spot) (pa : Nat), memoryOk s →
    localPa s c.w.core p = some pa → p.kind = .package → pteFmt p.e.pte = 0 → partBytes o ≠ 0 →
    let n := partBytes o
    let v := (storeValue c.w o l >>> (64 * p.part)) % 2 ^ (8 * n)
    let byte := fun (a : Nat) => BitVec.ofNat 8 (v >>> (8 * (a - pa)))
    let t := storePart s c o false l p
    (o.h = 3 → ∀ a, readByte t.mem a = if pa ≤ a ∧ a < pa + n then byte a else readByte s.mem a) ∧
    (o.h ≠ 3 → (∀ a, pa ≤ a → a < pa + n → l1Holds s c.w.core (a / 64) = true) →
      t.mem = s.mem ∧
      (∀ a, heldByte t c.w.core a = if pa ≤ a ∧ a < pa + n then some (byte a) else heldByte s c.w.core a) ∧
      ∀ a, pa ≤ a → a < pa + n → ∃ y, l1Find t c.w.core (a / 256) = some y ∧ y.dirty.getLsbD (a % 256) = true) ∧
    t.warps = s.warps ∧ t.ctxs = s.ctxs ∧ t.units = s.units ∧
    let z := storePart s c o true l p
    (p.scope = .core → z = t) ∧
    (p.scope ≠ .core → pa % n = 0 →
      (∀ a, readByte z.mem a = if pa ≤ a ∧ a < pa + n then byte a else readByte s.mem a) ∧
      (∀ a, heldByte z c.w.core a = if pa ≤ a ∧ a < pa + n ∧ (heldByte s c.w.core a).isSome = true then some (byte a) else heldByte s c.w.core a) ∧
      (∀ a y, pa ≤ a → a < pa + n → (heldByte s c.w.core a).isSome = true → l1Find z c.w.core (a / 256) = some y → y.dirty.getLsbD (a % 256) = false) ∧
      z.warps = s.warps ∧ z.ctxs = s.ctxs ∧ z.units = s.units)

/-- R65, R133, R134, R138, R146, R147, R153, R158, R323: the stores to global memory, what they mark, and where one part of a store
goes. -/
def Obligations.GlobalStores : Prop := Claims.VectorStores ∧ Claims.DirtyMarks ∧ Claims.StorePlace

/-- R35, R152, R325, R326: `atom` and `red`, whose checks pass, on pages already marked dirty. In this package the lanes' operations
are performed in ascending order; `atom` sends the old values to its register, `red` writes none. An `atom` with lanes that go over a link sends
those first and waits; the other lanes are performed once every link has answered, together (log 36), and the old values are those that the links
brought and those found here. What a link brings of a failure is the instruction's fault. -/
def Sys2Proof.Claims.VectorAtomics : Prop :=
  ∀ (op : AtomOp) (o : MOp) (s : State) (w : Warp) (sp : Fin 8) (x : Split) (q : Fin 32 → Nat → Spot),
    let t := counted s w sp
    (Issues (.atom op o) s w sp x →
      let i := Instr.atom op o
      let c := issOf i w sp x
      (activeOf i w x = 0 → RunsTo i s w sp x t) ∧
      (activeOf i w x ≠ 0 →
        (∀ f, linkedOf t c = .bad f → Faults i s w sp x { faultOf f.cause with va := f.va, lanes := f.lanes }) ∧
        (linkedOf t c = .wait → Waits i s w sp x t) ∧
        ∀ b : Option Result, (b = none ∧ NoLinkResult s w sp) ∨ (∃ r, b = some r ∧ linkedOf t c = .got r) →
          let back := fun (l : Fin 32) => ∃ r, b = some r ∧ resultPart r 1 l ≠ 0
          ∀ rest : Mask, (∀ l : Fin 32, rest.getLsbD l.val = true ↔ inAct i w x l ∧ ¬ back l) →
            (∀ l : Fin 32, rest.getLsbD l.val = true → storeLook t w o l 0 = .ok (q l 0) ∧ Passes (atomStages t w o l) { q l 0 with part := 0 }) →
            let ps := spotsOf rest 1 q
            AllDirty ps → walkStalled t w.ctx = false →
            (AllLocal t w ps →
              let v := atomLanes t c op o ps
              ∃ u, RunsTo i s w sp x u ∧ u.mem = v.2.mem ∧ u.ctxs = v.2.ctxs ∧
                ∃ val : Fin 32 → Word, LoadSent u (dropLinkResult v.2 c) c [o.data] (fun l _ => extended o.ty (val l).toNat) ∧
                  (∀ l : Fin 32, rest.getLsbD l.val = true → val l = (laneVals v.1 l).getD 0 0) ∧
                  ∀ r (l : Fin 32), b = some r → inAct i w x l → back l → val l = resultPart r 0 l) ∧
            ((∃ p ∈ ps, localPa t w.core p.2 = none) → ∃ v, Waits i s w sp x v ∧ v.mem = s.mem ∧ v.cores = t.cores ∧
              (∀ y ∈ v.links, y ∈ s.links ∨ (y.kind = .atomic ∧ y.warp = w.id ∧ y.op = op ∧ y.ty = o.ty ∧
                ∃ p ∈ ps, localPa t w.core p.2 = none ∧ y.lane = p.1 ∧ y.va = p.2.va)) ∧
              ∀ p ∈ ps, localPa t w.core p.2 = none → ∃ y ∈ v.links, y.kind = .atomic ∧ y.warp = w.id ∧ y.lane = p.1 ∧ y.va = p.2.va))) ∧
    (Issues (.red op o) s w sp x →
      let c := issOf (.red op o) w sp x
      (activeOf (.red op o) w x = 0 → RunsTo (.red op o) s w sp x t) ∧
      (activeOf (.red op o) w x ≠ 0 → Clear (.red op o) w x 1 (storeLook t w o) (atomStages t w o) q → AllDirty (spotsOf c.act 1 q) →
        walkStalled t w.ctx = false → AllLocal t w (spotsOf c.act 1 q) →
        ∃ u, RunsTo (.red op o) s w sp x u ∧ u.warps = t.warps ∧ u.ctxs = s.ctxs ∧
          u.mem = (atomLanes t c op o (spotsOf c.act 1 q)).2.mem))

/-- R151, R325: an atomic of a lane at a place of package memory of scope die or wider reads the bytes at its home slice and puts
the new value there, for a place that does not cross a sector; every other byte of memory keeps its value. -/
def Sys2Proof.Claims.AtomicAtHome : Prop :=
  ∀ (s : State) (c : Iss) (op : AtomOp) (o : MOp) (l : Fin 32) (p : Spot) (pa : Nat), memoryOk s →
    p.kind = .package → pteFmt p.e.pte = 0 → p.scope ≠ .core → o.ty ∈ [Ty.i32, .n32, .i64, .n64, .f32] → pa % tyBytes o.ty = 0 →
    let n := tyBytes o.ty
    let r := atomLane s c op o l p pa
    let new := atomResult op o.ty (readN s.mem pa n) (atomOperand c.w o 0 l) (if op = .cas then atomOperand c.w o 1 l else 0)
    r.1 = readN s.mem pa n ∧
    (∀ a, readByte r.2.mem a = if pa ≤ a ∧ a < pa + n then BitVec.ofNat 8 (new >>> (8 * (a - pa))) else readByte s.mem a) ∧
    r.2.warps = s.warps ∧ r.2.ctxs = s.ctxs

/-- R152, R325: an atomic of a lane at a place of scope core whose line the core's L1 holds reads and replaces the bytes held there, and leaves
memory as it is. -/
def Sys2Proof.Claims.AtomicInL1 : Prop :=
  ∀ (s : State) (c : Iss) (op : AtomOp) (o : MOp) (l : Fin 32) (p : Spot) (pa : Nat),
    p.kind = .package → pteFmt p.e.pte = 0 → p.scope = .core → o.h ≠ 3 → o.ty ∈ [Ty.i32, .n32, .i64, .n64, .f32] → pa % tyBytes o.ty = 0 →
    l1Holds s c.w.core (pa / 64) = true →
    let n := tyBytes o.ty
    let r := atomLane s c op o l p pa
    let new := atomResult op o.ty r.1 (atomOperand c.w o 0 l) (if op = .cas then atomOperand c.w o 1 l else 0)
    r.1 < 2 ^ (8 * n) ∧ (∀ k, k < n → heldByte s c.w.core (pa + k) = some (BitVec.ofNat 8 (r.1 >>> (8 * k)))) ∧
    (∀ a, heldByte r.2 c.w.core a = if pa ≤ a ∧ a < pa + n then some (BitVec.ofNat 8 (new >>> (8 * (a - pa)))) else heldByte s c.w.core a) ∧
    r.2.mem = s.mem ∧ r.2.warps = s.warps ∧ r.2.ctxs = s.ctxs

/-- R35, R151, R152, R325, R326: the atomics in global memory, and what one does at its home slice or in its core's L1. -/
def Obligations.GlobalAtomics : Prop := Claims.VectorAtomics ∧ Claims.AtomicAtHome ∧ Claims.AtomicInL1

/-- R237: a publish raises the lane's count on the channel, records the value as the occurrence counted, and keeps every other
lane's count and occurrences and the lane's last three. -/
def Sys2Proof.Claims.PublishRecords : Prop :=
  ∀ (st : ChanSt) (l : Fin 32) (v : Word),
    let q := publish st l v
    (∀ m : Fin 32, q.counts[m] = if m = l then st.counts[l] + 1 else st.counts[m]) ∧ q.closed = st.closed ∧
    (l, st.counts[l], v) ∈ q.occs ∧ ∀ y ∈ st.occs, (y.1 ≠ l ∨ st.counts[l] < y.2.1 + 4) → y ∈ q.occs

/-- R235: what a chained source reads within its warp. It is the occurrence of the nearest item, in steps of k_c, that has
published it, over items that are closed without; it waits at an item that is neither; and below the first item of the
launch it is the unit's default. -/
def Sys2Proof.Claims.ChainedSource : Prop :=
  ∀ (s : State) (w : Warp) (u : UnitSt) (la : Launch) (c : Fin 4) (l : Fin 32),
    let st := w.chain[c]
    let k := chainK la c
    let n := st.counts[l]
    (∀ m v, 1 ≤ m → m * k ≤ l.val → (∀ j, 1 ≤ j → j < m → Skipped w st n (below l k j)) → n < st.counts[below l k m] →
      (below l k m, n, v) ∈ st.occs → (∀ y ∈ st.occs, y.1 = below l k m → y.2.1 = n → y.2.2 = v) →
      chainRead s w st u la c l = .val v) ∧
    (∀ m, 1 ≤ m → m * k ≤ l.val → (∀ j, 1 ≤ j → j < m → Skipped w st n (below l k j)) → st.counts[below l k m] ≤ n →
      laneClosed w st (below l k m).val = false → chainRead s w st u la c l = .open_) ∧
    ((∀ j, 1 ≤ j → j * k ≤ l.val → Skipped w st n (below l k j)) → w.rank = 0 → u.index = 0 →
      chainRead s w st u la c l = .val u.cdefs[c])

/-- R235, R238, R239: what a chained source reads below its warp's first item, where every item of its walk there is closed without. Within the
unit it is the value that the fill of the boundary before the warp holds at the place of the walk, or the unit's default for a default mark, and it
waits while that fill is not made. In a later unit it is what the mailbox line holds, read at its home slice, once the fill is made; a fill that
has failed gives the read that awaits it its fault. -/
def Sys2Proof.Claims.ChainedBefore : Prop :=
  ∀ (s : State) (w : Warp) (u : UnitSt) (la : Launch) (c : Fin 4) (l : Fin 32),
    let st := w.chain[c]
    let k := chainK la c
    let n := st.counts[l]
    let e := l.val % k
    (∀ j, 1 ≤ j → j * k ≤ l.val → Skipped w st n (below l k j)) →
    (w.rank ≠ 0 →
      let fits := fun (f : CFill) => f.bnd + 1 = w.rank ∧ f.ch = c ∧ f.occ = n
      ((∀ f ∈ u.cbufs, ¬ fits f) → chainRead s w st u la c l = .open_) ∧
      ∀ f ∈ u.cbufs, fits f → (∀ g ∈ u.cbufs, fits g → g = f) →
        (∀ v, f.vals[e]? = some (some v) → chainRead s w st u la c l = .val v) ∧
        (f.vals[e]? = some none → chainRead s w st u la c l = .val u.cdefs[c])) ∧
    (w.rank = 0 → u.index ≠ 0 →
      let fits := fun (m : Mail) => m.ctx = u.ctx ∧ m.launch = u.launch ∧ m.fill.bnd + 1 = u.index ∧ m.fill.ch = c ∧ m.fill.occ = n
      let va := mailAddr la (u.index - 1) c + BitVec.ofNat 64 (64 * (n % 4) + 8 * e)
      ((∀ m ∈ s.mails, ¬ fits m) →
        ((∀ p ∈ s.units, p.ctx = u.ctx → p.launch = u.launch → p.index + 1 = u.index → ∀ f ∈ p.mailFault, f.ch = c → n < f.occ) →
          chainRead s w st u la c l = .open_) ∧
        ∀ p ∈ s.units, p.ctx = u.ctx → p.launch = u.launch → p.index + 1 = u.index → (∀ z ∈ s.units, z.ctx = u.ctx → z.launch = u.launch →
          z.index + 1 = u.index → z = p) → ∀ f, p.mailFault = [f] → f.ch = c → f.occ ≤ n →
          chainRead s w st u la c l = .bad { faultOf f.cause with va := f.va, pte := f.pte }) ∧
      ∀ m ∈ s.mails, fits m → (∀ z ∈ s.mails, fits z → z = m) →
        (m.fill.vals[e]? = some none → chainRead s w st u la c l = .val u.cdefs[c]) ∧
        ∀ v, m.fill.vals[e]? = some (some v) →
          (∀ p, mailRead s w va = .ok p → (l2Peek s (coreDie w.core) false (p.pa / 64)).toNat / 2 ^ (8 * (p.pa % 64)) % 2 ^ 64 = v.toNat →
            chainRead s w st u la c l = .val v) ∧
          ∀ f, mailRead s w va = .bad f → chainRead s w st u la c l = .bad f)

/-- A form that may hold chain fields and computes each lane by itself (R234): what it writes, the type of its position A, and that `r` with
the flags `g` is what a lane gets from its operands. -/
abbrev Sys2Proof.Claims.LaneForm : Type :=
  (VOp → Instr) × VDest × (VOp → Ty) × (Warp → VOp → Fin 32 → Word → Word → Word → Word → BitVec 16 → Prop)

/-- Elements of a register, with the flags of all. -/
def Sys2Proof.Claims.eachElem (f : Nat → Nat × BitVec 16) (n wd : Nat) (r : Word) (g : BitVec 16) : Prop :=
  (∀ k, k < n → bitsOf r (k * wd) wd = (f k).1 % 2 ^ wd) ∧ r.toNat < 2 ^ (n * wd) ∧
    ∀ j, g.getLsbD j = true ↔ ∃ k, k < n ∧ (f k).2.getLsbD j = true

/-- Arithmetic and logic by element. -/
def Sys2Proof.Claims.subLanes : List LaneForm :=
  subForms.map fun p => (p.1, .reg, (·.ty), fun _ o _ a b c r g =>
    eachElem (fun k => p.2 o (sub o.ty a k) (sub o.ty b k) (sub o.ty c k)) (subCount o.ty) (tyWidth o.ty) r g)

/-- Bit forms, by element. -/
def Sys2Proof.Claims.bitLanes : List LaneForm :=
  bitForms.map fun p => (p.1, .reg, (·.ty), fun _ o _ a b _ r g =>
    (∀ k, k < subCount o.ty → p.2.holds o.ty (sub o.ty a k) (sub o.ty b k) (sub o.ty r k)) ∧ g = 0)

/-- Moves and selects. -/
def Sys2Proof.Claims.moveLanes : List LaneForm :=
  (.vmov, .reg, (·.ty), fun _ _ _ a _ _ r g => r = a ∧ g = 0) ::
  (List.finRange 8).map fun p => (fun o => .vsel o p, .reg, (·.ty), fun w _ l a b _ r g =>
    r = (if (preg w p).getLsbD l.val then a else b) ∧ g = 0)

/-- Special functions, by element. -/
def Sys2Proof.Claims.sfuLanes : List LaneForm :=
  sfuForms.map fun p => (p.1, .queue, (·.ty), fun _ o _ a _ _ r g =>
    eachElem (fun k => sfu p.2 o.ty (sub o.ty a k)) (subCount o.ty) (tyWidth o.ty) r g)

/-- Compares. -/
def Sys2Proof.Claims.cmpLanes : List LaneForm :=
  [Cond.eq, .ne, .lt, .le, .gt, .ge, .ord, .unord].map fun c => (fun o => .vcmp c o, .pred, (·.ty), fun _ o _ a b _ r g =>
    let y := if tyFloat o.ty then fCmp (fmtOf o.ty) c (sub o.ty a 0) (sub o.ty b 0)
      else (iCmp c (intOf o.ty (sub o.ty a 0)) (intOf o.ty (sub o.ty b 0)), 0)
    r = (if y.1 then 1 else 0) ∧ g = y.2)

/-- Conversions. -/
def Sys2Proof.Claims.cvtLanes : List LaneForm :=
  setCvt.map fun t => (fun o => .vcvt o t, .reg, fun _ => t, fun _ o _ a _ _ r g =>
    eachElem (fun k => convert t o.ty o.rnd o.sat (sub t a k)) (64 / max (tyWidth t) (tyWidth o.ty)) (tyWidth o.ty) r g)

/-- The forms that may hold chain fields and compute each lane by itself. -/
def Sys2Proof.Claims.laneForms : List LaneForm := subLanes ++ bitLanes ++ moveLanes ++ sfuLanes ++ cmpLanes ++ cvtLanes

/-- R173, R234-R237, R242: a chained form whose reads are satisfied, with no link access to wait for (a publish releases, and a chained
read acquires: in a later unit at the context's widest internal scope, log 58), computes its lanes one by one, in ascending order, each seeing
what earlier ones publish; its results are on their way and hold the split, for the cycles that R237 adds, counted from the issue and none for a
publish alone (log 23); the channels stand as the publishes left them. A channel that may not be used takes cause 0x0012, and an unsatisfied
read waits at a safe point. -/
def Sys2Proof.Claims.ChainedResults : Prop :=
  ∀ p ∈ laneForms, ∀ (o : VOp) (s : State) (w : Warp) (sp : Fin 8) (x : Split),
    let i := p.1 o
    let dest := p.2.1
    let t := counted s w sp
    let act := activeOf i w x
    Issues i s w sp x → isChained o = true → act ≠ 0 →
    (chainHome s w = none → Faults i s w sp x (faultOf 0x12)) ∧
    ∀ u la, chainHome s w = some (u, la) →
      (¬ ChainLegal w la o act → ∃ f, f.cause = 0x12 ∧ Faults i s w sp x f) ∧
      (ChainLegal w la o act → o.chain.csrc ≠ .none → ∀ l, inAct i w x l → (∀ m, inAct i w x m → l ≤ m) →
        chainRead t w w.chain[o.chain.cch] u la o.chain.cch l = .open_ → Rests i s w sp x t) ∧
      (ChainLegal w la o act → (o.chain.pub ≠ none → NoFarWrites s w.ctx) → (o.chain.csrc ≠ .none → NoLinkReads s w) →
        ∀ (v r : Fin 32 → Word) (ws : Nat → Warp) (g : Fin 32 → BitVec 16), LaneByLane t w u la o act v r ws →
        (∀ l, inAct i w x l → p.2.2.2 w o l (if o.chain.csrc = .a then v l else reads i s w sp x (p.2.2.1 o) o.imm o.a l)
          (chainArg i s w sp x o .b o.b (v l) l) (chainArg i s w sp x o .c o.c (v l) l) (r l) (g l)) →
        (∀ ch, o.chain.pub = some ch → publishStalls t w (ws 32) u la ch act = false ∧
          (w.rank + 1 ≠ la.r.wpu ∨ itemsAfter u la w.rank = false)) →
        ∃ fl : BitVec 16,
          (let y := if o.chain.csrc ≠ .none ∧ u.index ≠ 0 then l1DropClean t w.core wideLine else t
           RunsTo i s w sp x (modWarp
            { y with
              serial := y.serial + 1
              results := y.results ++ [{ result0 (issOf i w sp x) (if dest = .queue then .sfu else .chain) with
                id := y.serial, due := some (s.now + extraCycles i o), holds := true
                vw := if dest = .pred then [] else [(o.d, tabulate 32 fun l => if act.getLsbD l.val then r l else 0)]
                pw := if dest = .pred then some (Fin.ofNat 8 o.d.val, Mask.ofFn fun l => act.getLsbD l.val && (r l).getLsbD 0)
                  else none }] } w.id
            fun z =>
              let z := { z with chain := (ws 32).chain }
              modSplit (setFlags (if dest = .pred then z else pendV z o.d) fl) sp fun q => { q with held := true })) ∧
          ∀ j, fl.getLsbD j = true ↔ ∃ l, inAct i w x l ∧ (g l).getLsbD j = true)

/-- R173, R234-R239, R242: chained sources, within their warp and over its boundary, and publishes; their cycles (log 23) and the scope of their
acquire (log 58) are the model's readings. -/
def Obligations.ChainedForms : Prop :=
  Claims.PublishRecords ∧ Claims.ChainedSource ∧ Claims.ChainedBefore ∧ Claims.ChainedResults

/-- R241, R242: `cdef` sets the unit's default of a channel, `cdrop` closes the channel for the active lanes' items, `cquery`
reads the default, the closed live lanes or the count of the lowest active lane; each in a warp whose channel is enabled, and
otherwise cause 0x0012. -/
def Sys2Proof.Claims.ChainInstructions : Prop :=
  ∀ (g : Guard) (ch : Fin 4) (s : State) (w : Warp) (sp : Fin 8) (x : Split) (b : SSrc) (w1 : Word) (d : Fin 128),
    let t := counted s w sp
    (∀ u la, chainHome s w = some (u, la) → chainOn la ch = true →
      (Issues (.cdef g ch b w1) s w sp x → RunsOnce (.cdef g ch b w1) s w sp x (modUnit t u.id fun y =>
        { y with cdefs := y.cdefs.set ch.val (readS (.cdef g ch b w1) s w sp x w1 b) ch.isLt })) ∧
      (Issues (.cdrop g ch) s w sp x → WritesOnce (.cdrop g ch) s w sp x fun y =>
        setChan y ch { y.chain[ch] with closed := y.chain[ch].closed ||| activeOf (.cdrop g ch) w x }) ∧
      (Issues (.cquery g d ch 0) s w sp x → WritesOnce (.cquery g d ch 0) s w sp x fun y => setS y d u.cdefs[ch]) ∧
      (Issues (.cquery g d ch 1) s w sp x → WritesOnce (.cquery g d ch 1) s w sp x fun y =>
        setS y d ((w.chain[ch].closed &&& w.live).setWidth 64)) ∧
      (∀ l, Issues (.cquery g d ch 2) s w sp x → inAct (.cquery g d ch 2) w x l → (∀ m, inAct (.cquery g d ch 2) w x m → l ≤ m) →
        Writes (.cquery g d ch 2) s w sp x fun y => setS y d (BitVec.ofNat 64 w.chain[ch].counts[l]))) ∧
    (∀ i, (i = .cdef g ch b w1 ∨ i = .cdrop g ch ∨ ∃ sel, i = .cquery g d ch sel) → Issues i s w sp x →
      (activeOf i w x = 0 → RunsTo i s w sp x t) ∧
      (activeOf i w x ≠ 0 → (chainHome s w = none ∨ ∃ u la, chainHome s w = some (u, la) ∧ chainOn la ch = false) →
        Faults i s w sp x (faultOf 0x12)))

/-- R173, R238, R239: a fill that is due. The next occurrence of the boundary after a warp is counted as made and is what the next
warp of the unit, or the next unit, finds there. Within the unit that is 8 cycles after its last value has settled. Between units
its values stand in the mailbox line, 8 bytes each, once the release that a publication is has been made; one that fails a check
is noted with its fault. A fill that is not due does nothing. -/
def Sys2Proof.Claims.ChainFills : Prop :=
  ∀ (s : State) (x : UnitSt) (w : Warp) (la : Launch) (ch : Fin 4),
    findUnit s x.id = some x → launchOf s x = some la → warpOf s x.id w.rank = some w → findWarp s w.id = some w → memoryOk s →
    fillsOn s x = true →
    let occ := w.chain[ch].filled
    (∀ rank : Fin 32, rank.val = w.rank → w.rank + 1 < la.r.wpu →
      ((fillDue s w x la ch = none ∨ ∀ y ∈ w.chain[ch].settled, y.1 = occ → s.now < y.2 + 8) →
        exec (.chainBufferFill x.id rank ch occ) s = .next s) ∧
      (∀ vs, fillDue s w x la ch = some vs → (∃ y ∈ w.chain[ch].settled, y.1 = occ ∧ y.2 + 8 ≤ s.now) → ∃ t y, exec (.chainBufferFill x.id rank ch occ) s = .next t ∧
        findUnit t x.id = some y ∧ boundaryFill t y (w.rank + 1) ch occ = some { bnd := w.rank, ch := ch, occ := occ, vals := vs } ∧
        (∀ z, findWarp t w.id = some z → z.chain[ch].filled = occ + 1) ∧ t.mem = s.mem ∧ t.ctxs = s.ctxs)) ∧
    (w.rank + 1 = la.r.wpu → ∀ vs, fillDue s w x la ch = some vs → (∀ f ∈ x.mailFault, f.ch ≠ ch) →
      let r := l1Clean s x.core wideLine
      let d := coreDie x.core
      let va := mailAddr la x.index ch
      (mailReleased r x = false → exec (.mailboxFill x.id ch occ) s = .next r) ∧
      (mailReleased r x = true → ∀ p, mailWrite r x.ctx d (translateEng r d x.id x.ctx va) va = .ok p → pteD p.e.pte = true →
        pteDte p.e.pte = false →
        walkStalled r x.ctx = false →
        ∃ t, exec (.mailboxFill x.id ch occ) s = .next t ∧
          (∀ z, findWarp t w.id = some z → z.chain[ch].filled = occ + 1) ∧
          (∃ m ∈ t.mails, m.ctx = x.ctx ∧ m.launch = x.launch ∧ m.fill = { bnd := x.index, ch := ch, occ := occ, vals := vs }) ∧
          ∀ (e : Nat) (v : Word), vs[e]? = some (some v) → readWord t.mem (p.pa + 64 * (occ % 4) + 8 * e) = v) ∧
      (mailReleased r x = true → ∀ f, mailWrite r x.ctx d (translateEng r d x.id x.ctx va) va = .bad f →
        ∃ t y, exec (.mailboxFill x.id ch occ) s = .next t ∧ findUnit t x.id = some y ∧ t.mem = r.mem ∧
          { ch := ch, occ := occ, cause := f.cause, va := f.va, pte := f.pte } ∈ y.mailFault))

/-- R173, R238, R239, R241, R242: the chain group, and the fills that carry values between warps and units. -/
def Obligations.ChainGroup : Prop := Claims.ChainInstructions ∧ Claims.ChainFills

/-- R222, R223, R229: `xbegin`. A new warp that is not the last waits as a participant of a gathering context; the G-th opens the
context, whose other participants go on. A G outside 1 to min(WPU, 8) or another than the context's, an open context, a
length over 2^32 and a warp that has arrived take cause 0x0011. -/
def Sys2Proof.Claims.ExpandBegin : Prop :=
  ∀ (c : Fin 4) (g : Guard) (st ln : Fin 256) (n : Src) (imm : BitVec 32) (s : State) (w : Warp) (sp : Fin 8) (x : Split)
    (u : UnitSt) (la : Launch) (gv : Nat),
    let i := Instr.xbegin c g st ln n imm
    let t := counted s w sp
    let k := u.xctx[c]
    Issues i s w sp x → unitOf s w = some u → launchOf s u = some la → ReadsG i s w sp x imm n gv →
    (partOf k w.id = none → k.st ≠ .opened → 1 ≤ gv → gv ≤ min la.r.wpu 8 → (k.st = .gathering → k.g = gv) →
      (∀ l, inAct i w x l → (vreg w ln l).toNat ≤ 2 ^ 32) →
      (k.parts.length + 1 < gv → ∃ t' y, Rests i s w sp x t' ∧ findUnit t' u.id = some y ∧ y.xctx[c].st = .gathering ∧
        y.xctx[c].g = gv ∧ y.xctx[c].parts.length = k.parts.length + 1 ∧ arrival i w sp x st ln ∈ y.xctx[c].parts ∧
        (∀ q ∈ k.parts, q ∈ y.xctx[c].parts) ∧ t'.mem = s.mem ∧ t'.ctxs = s.ctxs) ∧
      (gv ≤ k.parts.length + 1 → ∃ t1 y, RunsTo i s w sp x (k.parts.foldl (fun s q => moveOn s q.warp q.split) t1) ∧
        findUnit t1 u.id = some y ∧ y.xctx[c].st = .opened ∧ y.xctx[c].steps = [] ∧
        y.xctx[c].parts.length = k.parts.length + 1 ∧ arrival i w sp x st ln ∈ y.xctx[c].parts ∧
        (∀ q ∈ k.parts, q ∈ y.xctx[c].parts) ∧ t1.mem = s.mem ∧ t1.warps = t.warps)) ∧
    (partOf k w.id = none → (k.st = .opened ∨ gv = 0 ∨ min la.r.wpu 8 < gv ∨ (k.st = .gathering ∧ k.g ≠ gv) ∨
      ∃ l, inAct i w x l ∧ 2 ^ 32 < (vreg w ln l).toNat) → ∃ f, f.cause = 0x11 ∧ Faults i s w sp x f) ∧
    (∀ p, partOf k w.id = some p → x.st ≠ .blocked → Faults i s w sp x (faultOf 0x11))

/-- R224-R226: `xnext` of a participant that is not too far ahead deals its next round to every live lane:
the start and the place of an iteration, its predicate 1 and its tag; a lane beyond the last iteration has its predicate 0 and
no tag, and keeps its registers. The steps that this completes are then delivered. Too far ahead of a participant it waits at a safe point. -/
def Sys2Proof.Claims.ExpandNext : Prop :=
  ∀ (c : Fin 4) (d : Fin 256) (pe : Fin 8) (s : State) (w : Warp) (sp : Fin 8) (x : Split) (u : UnitSt) (k : XCtx) (p : XPart),
    let i := Instr.xnext c d pe
    let t := counted s w sp
    let d1 : Fin 256 := Fin.ofNat 256 (d.val + 1)
    Issues i s w sp x → Participates s w c u k p →
    ((∃ q ∈ k.parts, q.ended = false ∧ q.rounds + 4 < p.rounds + 1) → Rests i s w sp x t) ∧
    ((∀ q ∈ k.parts, q.ended = true ∨ p.rounds + 1 ≤ q.rounds + 4) →
      ∃ t' y, RunsTo i s w sp x (deliverSteps t' u.id c) ∧ findWarp t' w.id = some y ∧ t'.mem = s.mem ∧ t'.ctxs = s.ctxs ∧
        (k.steps = [] → (∀ z ∈ s.units, z.id = u.id → z = u) → deliverSteps t' u.id c = t') ∧
        (∀ z, findUnit t' u.id = some z → z.xctx[c].steps = k.steps ∧ z.xctx[c].parts = k.parts.map fun q =>
          if q.warp = w.id then { q with rounds := q.rounds + 1, ord := 0 } else q) ∧
        ∀ (l : Fin 32) (q : Nat), w.live.getLsbD l.val = true → (positions k)[q]? = some (partIndex k w.id, l) →
          let at_ := p.rounds * (positions k).length + q
          (at_ < (ownerLens k).sum → ∃ o j, ((ownerLens k).take o).sum + j = at_ ∧ j < (ownerLens k).getD o 0 ∧
            vreg y d l = startOf k o + BitVec.ofNat 64 j ∧ vreg y d1 l = BitVec.ofNat 64 (j * 2 ^ 32 + o) ∧
            (preg y pe).getLsbD l.val = true ∧ y.tags[l] = some { x := c, owner := o, j := j, round := p.rounds }) ∧
          ((ownerLens k).sum ≤ at_ → vreg y d l = vreg w d l ∧ vreg y d1 l = vreg w d1 l ∧
            (pe ≠ 7 → (preg y pe).getLsbD l.val = false) ∧ y.tags[l] = none))

/-- R225, R226: the delivery of the steps that are complete: those that every participant has executed, moved past, or ended before. Each
such step is outstanding no more. A step that is complete alone gives each owner with contributions what its op makes of the owner's old value and of
the contributions in ascending position, sub-element by sub-element, and changes no other lane or register; its handles are done. -/
def Sys2Proof.Claims.ExpandDelivers : Prop :=
  ∀ (s : State) (u : UnitSt) (c : Fin 4), findUnit s u.id = some u →
    let k := u.xctx[c]
    let complete := fun (e : XStep) => ∀ p ∈ k.parts, p.ended = true ∨ e.round + 1 < p.rounds ∨ (p.rounds = e.round + 1 ∧ e.ord < p.ord)
    let t := deliverSteps s u.id c
    (∀ z, findUnit t u.id = some z → (∀ e, e ∈ z.xctx[c].steps ↔ e ∈ k.steps ∧ ¬ complete e) ∧ z.xctx[c].parts = k.parts) ∧ t.mem = s.mem ∧
    ∀ e ∈ k.steps, complete e → (∀ f ∈ k.steps, complete f → f = e) → k.steps.Nodup → (k.parts.map (·.warp)).Nodup →
      (∀ (n : Nat) (p : XPart) (w : Warp), k.parts[n]? = some p → findWarp s p.warp = some w → ∃ y, findWarp t p.warp = some y ∧
        (∀ q l, q ≠ e.vdst → vreg y q l = vreg w q l) ∧ y.s = w.s ∧ y.p = w.p ∧ y.live = w.live ∧
        ∀ l : Fin 32,
          let vs := (e.contrib.filter fun v => v.2.2.1 == 32 * n + l.val).map fun v => v.2.2.2
          (vs = [] → vreg y e.vdst l = vreg w e.vdst l) ∧
          (vs ≠ [] → ∀ j, j < subCount e.ty →
            sub e.ty (vreg y e.vdst l) j = delivered e.op e.ty e.sat (sub e.ty (vreg w e.vdst l) j) (vs.map fun v => sub e.ty v j))) ∧
      ∀ h ∈ e.handles, ∀ f, entryOf s.ctxs[u.ctx] h = some f → f.st = .pending → (s.ctxs[u.ctx].handles.filter fun z => z.slot == f.slot) = [f] →
        ∃ z ∈ t.ctxs[u.ctx].handles, z.slot = f.slot ∧ z.st = .done

/-- R125, R173, R225, R226: `xred` of a participant, in a round it has begun, at one of its first four ordinals there, gives a handle
of class 5, once the domain writes and the atomics of its context are complete (it releases at core scope; for the whole context: log 31). Its
tagged lanes contribute to the step of its round and ordinal, which is made or joined, and the steps that are then complete are
delivered. In a context of one participant the step is complete at once: each owner with contributions, and no other lane, gets
what the op makes of its old value and the contributions, and the handle is done. A fifth `xred` of a round, one before the
first round, and one that differs from its step take cause 0x0011. -/
def Sys2Proof.Claims.ExpandReduce : Prop :=
  ∀ (c : Fin 4) (g : Guard) (op : RedOp) (ty : Ty) (sat : Bool) (vd : Fin 256) (v : Src) (imm : BitVec 32) (hn : Fin 16)
    (s : State) (w : Warp) (sp : Fin 8) (x : Split) (u : UnitSt) (k : XCtx) (p : XPart),
    let i := Instr.xred c g op ty sat vd v imm hn
    let t := counted s w sp
    let clash := ∃ q ∈ k.steps, q.round = p.rounds - 1 ∧ q.ord = p.ord ∧ ¬ (q.op = op ∧ q.ty = ty ∧ q.vdst = vd)
    Issues i s w sp x → Participates s w c u k p →
    ((p.rounds = 0 ∨ 4 ≤ p.ord ∨ clash) → Faults i s w sp x (faultOf 0x11)) ∧
    (p.rounds ≠ 0 → p.ord < 4 → ¬ clash → ¬ NoFarWrites s w.ctx → Waits i s w sp x t) ∧
    (p.rounds ≠ 0 → p.ord < 4 → ¬ clash → NoFarWrites s w.ctx → handleRoom t w hn = none → Rests i s w sp x t) ∧
    (p.rounds ≠ 0 → p.ord < 4 → ¬ clash → NoFarWrites s w.ctx → ∀ r, handleRoom t w hn = some r →
      (∃ t' y, RunsTo i s w sp x (deliverSteps t' u.id c) ∧ findWarp t' w.id = some y ∧ y.h[hn] = (newHandle r w 5 c.val).1 ∧ y.v = w.v ∧
        t'.mem = s.mem ∧
        ∀ z, findUnit t' u.id = some z →
          z.xctx[c].parts = (k.parts.map fun q => if q.warp = w.id then { q with ord := q.ord + 1 } else q) ∧
          (∀ e ∈ k.steps, ¬ (e.round = p.rounds - 1 ∧ e.ord = p.ord) → e ∈ z.xctx[c].steps) ∧
          ∃ e ∈ z.xctx[c].steps, e.round = p.rounds - 1 ∧ e.ord = p.ord ∧ e.op = op ∧ e.ty = ty ∧ e.vdst = vd ∧ w.id ∈ e.parts ∧
            (newHandle r w 5 c.val).1 ∈ e.handles ∧
            (∀ f ∈ k.steps, f.round = e.round → f.ord = e.ord → (∀ f' ∈ k.steps, f'.round = e.round → f'.ord = e.ord → f' = f) →
              (∀ v ∈ f.contrib, v ∈ e.contrib) ∧ ∀ h ∈ f.handles, h ∈ e.handles) ∧
            ∀ (o : Nat) (l : Fin 32) (q : Nat), l ∈ contributorsTo w g c (p.rounds - 1) o → (positions k)[q]? = some (partIndex k w.id, l) →
              (partIndex k w.id, q, o, reads i s w sp x ty imm v l) ∈ e.contrib) ∧
      (k.parts = [p] → k.steps = [] → p.warp = w.id →
        ∃ t' y, RunsTo i s w sp x t' ∧ findWarp t' w.id = some y ∧
          (∀ o : Fin 32, contributorsTo w g c (p.rounds - 1) o.val = [] → vreg y vd o = vreg w vd o) ∧
          (∀ o : Fin 32, contributorsTo w g c (p.rounds - 1) o.val ≠ [] → (∀ l : Fin 32, w.live.getLsbD l.val = true → p.live.getLsbD l.val = true) →
            ∀ j, j < subCount ty → sub ty (vreg y vd o) j = delivered op ty sat (sub ty (vreg w vd o) j)
              ((contributorsTo w g c (p.rounds - 1) o.val).map fun l => sub ty (reads i s w sp x ty imm v l) j)) ∧
          ∀ q l, q ≠ vd → vreg y q l = vreg w q l))

/-- R173, R227: `xsync` goes on once every participant has reached the warp's round or ended and no step of those rounds is
outstanding, and waits at a safe point until then. `xend` arrives: the last participant frees the context, and the others
that wait there go on; one that is not the last waits. Both first wait for the warp's link reads (they acquire at core scope). -/
def Sys2Proof.Claims.ExpandSyncAndEnd : Prop :=
  ∀ (c : Fin 4) (s : State) (w : Warp) (sp : Fin 8) (x : Split) (u : UnitSt) (k : XCtx) (p : XPart),
    let t := counted s w sp
    Participates s w c u k p →
    (Issues (.xsync c) s w sp x →
      let ready := (∀ q ∈ k.parts, q.ended = true ∨ p.rounds ≤ q.rounds) ∧ ∀ q ∈ k.steps, p.rounds ≤ q.round
      (ready → NoLinkReads s w → RunsTo (.xsync c) s w sp x t) ∧ (¬ ready → Rests (.xsync c) s w sp x t) ∧
      (ready → ¬ NoLinkReads s w → Waits (.xsync c) s w sp x t)) ∧
    (Issues (.xend c) s w sp x → ¬ NoLinkReads s w → Waits (.xend c) s w sp x t) ∧
    (Issues (.xend c) s w sp x → NoLinkReads s w →
      ((∀ q ∈ k.parts, q.ended = true ∨ q.warp = w.id) →
        ∃ t1 y, RunsTo (.xend c) s w sp x ((k.parts.filter fun q => q.warp != w.id).foldl (fun s q => moveOn s q.warp q.split) t1) ∧
          findUnit t1 u.id = some y ∧ y.xctx[c].st = .free ∧ t1.mem = s.mem) ∧
      ((∃ q ∈ k.parts, q.ended = false ∧ q.warp ≠ w.id) →
        ∃ t1 y q, Rests (.xend c) s w sp x t1 ∧ findUnit t1 u.id = some y ∧ y.xctx[c].st = .opened ∧
          partOf y.xctx[c] w.id = some q ∧ q.ended = true ∧ t1.mem = s.mem))

/-- R222: `xnext`, `xred`, `xsync` and `xend` of a warp that is no participant, and in a free context, take cause 0x0011; of a
participant of a gathering context, from a split that does not wait there, they wait at a safe point. Between its `xend` and the end of
the context a warp counts as no participant (log 28). -/
def Sys2Proof.Claims.ExpandOutside : Prop :=
  ∀ (c : Fin 4) (s : State) (w : Warp) (sp : Fin 8) (x : Split) (u : UnitSt) (i : Instr),
    ((∃ d pe, i = .xnext c d pe) ∨ (∃ g op ty sat vd v imm hn, i = .xred c g op ty sat vd v imm hn) ∨ i = .xsync c ∨ i = .xend c) →
    Issues i s w sp x → unitOf s w = some u →
    (u.xctx[c].st = .free ∨ partOf u.xctx[c] w.id = none → Faults i s w sp x (faultOf 0x11)) ∧
    (u.xctx[c].st = .gathering → partOf u.xctx[c] w.id ≠ none → Rests i s w sp x (counted s w sp)) ∧
    (∀ p, u.xctx[c].st = .opened → partOf u.xctx[c] w.id = some p → p.ended = true → x.st ≠ .blocked → Faults i s w sp x (faultOf 0x11))

/-- R173, R222-R227, R229: the expand group but for `xquery`, and the delivery of its steps. What an `xred` waits for is log 31, and what a warp
is after its `xend` log 28. -/
def Obligations.ExpandGroup : Prop :=
  Claims.ExpandBegin ∧ Claims.ExpandNext ∧ Claims.ExpandDelivers ∧ Claims.ExpandReduce ∧ Claims.ExpandSyncAndEnd ∧ Claims.ExpandOutside

/-- R222, R228: `xquery x, vD, sel` writes one value into v[D] of every active lane: T, the round, what remains, or W; in a gathering
or a free context, and of a warp that is no participant, it takes cause 0x0011; with no active lane it does nothing. T is the sum of the owners' lengths and W the count of the participants' live lanes (R223);
`rounds` is rw + 1. -/
def Obligations.ExpandQuery : Prop :=
  ∀ (c : Fin 4) (g : Guard) (d : Fin 256) (s : State) (w : Warp) (sp : Fin 8) (x : Split) (u : UnitSt), unitOf s w = some u →
    (∀ sel, Issues (.xquery c g d sel) s w sp x →
      (activeOf (.xquery c g d sel) w x = 0 → RunsTo (.xquery c g d sel) s w sp x (counted s w sp)) ∧
      (activeOf (.xquery c g d sel) w x ≠ 0 → u.xctx[c].st = .free ∨ partOf u.xctx[c] w.id = none →
        Faults (.xquery c g d sel) s w sp x (faultOf 0x11))) ∧
    ∀ p, partOf u.xctx[c] w.id = some p →
    let k := u.xctx[c]
    let total := (k.parts.map fun q => ((List.finRange 32).map fun l => q.len[l]).sum).sum
    let width := (k.parts.map fun q => ((List.finRange 32).filter fun l => q.live.getLsbD l.val).length).sum
    let puts := fun (sel : Fin 4) (v : Word) => Issues (.xquery c g d sel) s w sp x →
      WritesV (.xquery c g d sel) s w sp x d (fun _ => v) 0
    (k.st = .opened →
      puts 0 (BitVec.ofNat 64 total) ∧
      (p.rounds = 0 → puts 1 0xFFFFFFFFFFFFFFFF#64) ∧ (p.rounds ≠ 0 → puts 1 (BitVec.ofNat 64 (p.rounds - 1))) ∧
      puts 2 (BitVec.ofNat 64 (total - min total (p.rounds * width))) ∧ puts 3 (BitVec.ofNat 64 width)) ∧
    ∀ sel, k.st = .gathering → Issues (.xquery c g d sel) s w sp x → activeOf (.xquery c g d sel) w x ≠ 0 →
      Faults (.xquery c g d sel) s w sp x (faultOf 0x11)

/-- R126, R157, R341, R343, R345, R346: the issue of a copy. A full queue of its engine, and no room for a handle, wait at a safe
point. Otherwise, once nothing keeps its release at die scope, the warp's dirty lines are written back, and the copy stands last in its engine's queue with the
values of its registers under a pending handle of class 1; a count of zero makes the handle done at once. The engine is that
of the home slice of the first global operand where it translates to the core's die, and of the core's number elsewhere; a translation that
is missing is walked first. -/
def Sys2Proof.Claims.CopyIssue : Prop :=
  ∀ (i : Instr) (o : COp) (k : CKind) (s : State) (w : Warp) (sp : Fin 8) (x : Split), copyKind i = some (o, k) → Issues i s w sp x →
    let t := counted s w sp
    (activeOf i w x = 0 → RunsTo i s w sp x t) ∧
    (activeOf i w x ≠ 0 → ∀ a, firstOperand w o k = some a → translate s w.core w.ctx a = .miss →
      ∃ v, Waits i s w sp x v ∧ v.copies = s.copies ∧ v.ctxs = s.ctxs ∧ v.mem = s.mem) ∧
    (activeOf i w x ≠ 0 → (∀ a, firstOperand w o k = some a → translate s w.core w.ctx a ≠ .miss) → ∃ eng,
      ((firstOperand w o k = none →
          eng = 128 * (coreDie w.core).val + 2 * (w.core.val % 64) + w.quad.val % 2) ∧
       (∀ a pa e, firstOperand w o k = some a → translate s w.core w.ctx a = .ok pa e → regionOf pa = .package →
          dieOf pa = coreDie w.core → eng = 128 * (coreDie w.core).val + 2 * (homeSlice pa).val + w.quad.val % 2) ∧
       (∀ a pa e, firstOperand w o k = some a → translate s w.core w.ctx a = .ok pa e →
          (regionOf pa ≠ .package ∨ dieOf pa ≠ coreDie w.core) →
          eng = 128 * (coreDie w.core).val + 2 * (w.core.val % 64) + w.quad.val % 2) ∧
       (∀ a n p, firstOperand w o k = some a → translate s w.core w.ctx a = .bad n p →
          eng = 128 * (coreDie w.core).val + 2 * (w.core.val % 64) + w.quad.val % 2)) ∧
      (32 ≤ (queueOf s eng).length → Rests i s w sp x t) ∧
      ((queueOf s eng).length < 32 →
        (handleRoom t w o.hn = none → Rests i s w sp x t) ∧
        ∀ v, handleRoom t w o.hn = some v → NoFarWrites s w.ctx → NoDirty (cleaned v w .die) w.core wideLine →
          let p := given (cleaned v w .die) w o.hn 1 eng
          let q := queuedCopy w o k p.2.serial p.1 eng
          let r := { p.2 with serial := p.2.serial + 1 }
          (copyCount q = 0 ∧ countBad q = false → RunsTo i s w sp x (endHandle r w.ctx p.1 .done fun e => e)) ∧
          (copyCount q ≠ 0 ∨ countBad q = true → RunsTo i s w sp x { r with copies := r.copies ++ [q] })))

/-- R128, R155, R342-R345: the next element of a raw copy or reduction whose operands lie in scratch. An engine that may work
on it reads the element's source and writes the element's place, and nothing else; the count of elements committed grows by
one, and after the last one the operation ends as done. A failed check leaves scratch as it is, and the operation ends faulted at
the element, with the cause. -/
def Sys2Proof.Claims.CopyInScratch : Prop :=
  ∀ (s : State) (o : CopyOp) (u : UnitSt) (size : Nat) (h : HEntry), s.copies.find? (fun y => y.id == o.id) = some o →
    InUnit s o u size → copyActive s o = true → o.bad = none → o.sent = false → o.ending = none →
    s.dies[engDie o].closing = false → s.dies[engDie o].dstate ≠ .dieOffline →
    entryOf s.ctxs[o.ctx] o.handle = some h → h.cancelReq = false →
    let n := tyBytes o.ty
    let idx := indexAt u.scratch o o.i
    let src := offset (placesOf o o.i idx).1
    let dst := offset (placesOf o o.i idx).2
    let inside := dst + n ≤ size ∧ (o.kind = .fill ∨ src + n ≤ size) ∧
      (∀ isp iw, o.kind = .gather isp iw ∨ o.kind = .scatter isp iw →
        offset (o.d + BitVec.ofNat 64 (o.i * (if iw then 8 else 4))) + (if iw then 8 else 4) ≤ size)
    let failed := fun (cause : Nat) => ∃ t, exec (.copyElement o.id) s = .next t ∧ t.mem = s.mem ∧ t.units = s.units ∧ t.ctxs = s.ctxs ∧
      ∃ y ∈ t.copies, y.id = o.id ∧ y.i = o.i ∧ ∃ f, y.ending = some (.faulted, f) ∧ f.cause = cause
    (o.i = 0 → countBad o = true → failed 1) ∧
    (o.i = 0 → countBad o = false → copyCount o ≠ 0 → rawMisaligned o ≠ none → failed 8) ∧
    (countBad o = false → o.i < copyCount o → (o.i = 0 → rawMisaligned o = none) →
      (size < dst + n → (∀ isp iw, o.kind ≠ .gather isp iw ∧ o.kind ≠ .scatter isp iw) → failed 9) ∧
      (inside → ∃ t, exec (.copyElement o.id) s = .next t ∧ t.mem = s.mem ∧
        (findUnit t u.id).map (·.scratch) = some (writeN u.scratch dst n (copyValue u.scratch o src dst)) ∧
        (∀ y, y ≠ u.id → findUnit t y = findUnit s y) ∧
        t.ctxs = s.ctxs ∧
        ∃ y ∈ t.copies, y.id = o.id ∧ y.i = o.i + 1 ∧ (o.i + 1 < copyCount o → y.ending = none) ∧
          (copyCount o ≤ o.i + 1 → ∃ f, y.ending = some (.done, f))))

/-- R39, R73, R126, R155, R172, R337: how an operation of a copy engine ends. A cancel takes effect between two elements. An operation
that ends sends the flushing read of its writes to the system window; where it wrote at package scope or wider it waits for the copies of the
other die and the recalls of migrated lines; then its pending handle takes the final state, with the cause and the element of a fault, or is
cancelled where a cancel has found it pending. The operation
is gone then, but for one that a resumable fault has stopped. -/
def Sys2Proof.Claims.CopyEnds : Prop :=
  ∀ (s : State) (o : CopyOp) (h : HEntry), s.copies.find? (fun y => y.id == o.id) = some o → copyActive s o = true → o.bad = none →
    entryOf s.ctxs[o.ctx] o.handle = some h → h.st = .pending → (∀ e ∈ s.ctxs[o.ctx].handles, e.slot = h.slot → e = h) →
    (o.ending = none → o.sent = false → h.cancelReq = true → ∃ t, exec (.copyElement o.id) s = .next t ∧ t.mem = s.mem ∧
      t.units = s.units ∧ t.ctxs = s.ctxs ∧ ∃ y ∈ t.copies, y.id = o.id ∧ y.i = o.i ∧ ∃ f, y.ending = some (.cancelled, f)) ∧
    (∀ st f, o.ending = some (st, f) →
      (∀ pa, o.sysw = some pa → s.host.up = true → crossing s (engDie o) 0 = .free → ∃ t, exec (.copyElement o.id) s = .next t ∧
        t.ctxs = s.ctxs ∧ ∃ l ∈ t.links, l.kind = .flush ∧ l.sys = true ∧ l.pa = pa ∧ l.bytes = 4 ∧ l.copy = some o.id) ∧
      (o.sysw = none → scopeCode .package ≤ scopeCode h.wscope → ¬ Across s o.ctx → exec (.copyElement o.id) s = .next s) ∧
      (o.sysw = none → scopeCode h.wscope < scopeCode .package ∨ Across s o.ctx →
        let st := if h.cancelReq = true then HState.cancelled else st
        let stopped := st = .faulted ∧ resumable f.cause = true
        ∃ t, exec (.copyElement o.id) s = .next t ∧ t.mem = s.mem ∧ t.units = s.units ∧
          (∃ e ∈ t.ctxs[o.ctx].handles, e.slot = h.slot ∧ e.st = st ∧ (st = .faulted → e.cause = f.cause ∧ e.elem = o.i)) ∧
          (stopped → ∃ y ∈ t.copies, y.id = o.id ∧ y.i = o.i ∧ y.faulted = true) ∧
          (¬ stopped → ∀ y ∈ t.copies, y.id ≠ o.id)))

/-- R100, R341: an engine works on an operation while its context runs or is idle and its unit is not swapped out, and among the
first four of the queue only, and while its context halts on an element only whose write a link has carried; the event of any other operation
does nothing. -/
def Sys2Proof.Claims.CopyWaits : Prop :=
  ∀ (s : State) (o : CopyOp), s.copies.find? (fun y => y.id == o.id) = some o →
    ((s.ctxs[o.ctx].st = .halting ∧ o.sent = false ∧ o.bad = none) ∨ s.ctxs[o.ctx].st = .halted ∨ o.faulted = true ∨ o.tags ≠ [] ∨
      (∃ u, o.unit = some u ∧ ∃ y, findUnit s u = some y ∧ y.st = .swapped) ∨
      ∃ a b c d rest, queueOf s o.eng = a :: b :: c :: d :: rest ∧ a.id ≠ o.id ∧ b.id ≠ o.id ∧ c.id ≠ o.id ∧ d.id ≠ o.id) →
    exec (.copyElement o.id) s = .next s

/-- R141-R144: encoding a term block and reading it back gives its elements and its scale. Every element of a format has at most
the format's terms, so a block of a format's elements, NaN in E4M3 only, fits a wide slot and passes the checks of every
consumer. -/
def Sys2Proof.Claims.TermBlocks : Prop :=
  ∀ (f : TFmt) (es : List (Option Int)) (sc : Nat), es.length = 32 → (∀ v, some v ∈ es → theld f v = true) →
    (none ∈ es → f = .e4m3) →
    let b := (tencode es sc).1
    let total := (tencode es sc).2
    telems b = es ∧ tscale b = sc % 256 ∧ ttotal b = total ∧ total ≤ 128 ∧ tblockOk f true b = true ∧
    (total ≤ 64 → tblockOk f false b = true) ∧
    (es.map fun e => match e with | some v => (nafCodes v).length | none => 0).sum = total

/-- R39, R73, R100, R126, R128, R141-R144, R155, R157, R172, R337, R341-R346: the issue of a copy, what an engine does at an element, how
an operation ends, and the blocks that a conversion writes and reads. -/
def Obligations.Copies : Prop :=
  Claims.CopyIssue ∧ Claims.CopyInScratch ∧ Claims.CopyEnds ∧ Claims.CopyWaits ∧ Claims.TermBlocks

/-- R351: `mcfg` writes bits [15:0] of SA's value into engine e's configuration word, as R204 lays out; bits [63:16] count as
reserved bits under R205. A word that fails R205 takes cause 0x0010 at the `mcfg`, with the word unchanged. It does not wait
for queued operations, which keep their own words. -/
def Obligations.MatrixConfiguration : Prop :=
  ∀ (o : XOp) (s : State) (w : Warp) (sp : Fin 8) (x : Split) (u : UnitSt), Issues (.mcfg o) s w sp x → EngineOk s w o u →
    activeOf (.mcfg o) w x ≠ 0 →
    let t := modUnit (counted s w sp) u.id fun y =>
      { y with engs := y.engs.set o.e.val { y.engs[o.e] with cfg := (sreg w o.sa).setWidth 16 } o.e.isLt }
    (¬ badConfig (sreg w o.sa) → RunsTo (.mcfg o) s w sp x t ∧ t.mops = s.mops) ∧
    (badConfig (sreg w o.sa) → Faults (.mcfg o) s w sp x (faultOf 0x10) ∧ ∀ y, findUnit (thenFault { s with turn := none }
      (.mcfg o) w sp x (faultOf 0x10)) u.id = some y → y.engs[o.e].cfg = u.engs[o.e].cfg)

/-- R126, R205, R213, R349, R350, R352-R357: the issue of a matrix operation. An engine that the unit has not, or of another
quadrant, takes cause 0x0010; a full queue of two and no room for a handle wait; otherwise the operation joins those of its unit in the
order of issue, before the operations that higher quadrants have issued in the same cycle, with the engine's word and its registers as
they are, under a pending handle of class 2. -/
def Sys2Proof.Claims.MatrixQueues : Prop :=
  ∀ (i : Instr) (o : XOp) (k : MKind) (tile : Option (Fin 8)) (bank : Option (Fin 2)) (s : State) (w : Warp) (sp : Fin 8) (x : Split),
    matrixKind w i = some (o, k, tile, bank) → Issues i s w sp x →
    let t := counted s w sp
    (activeOf i w x = 0 → RunsTo i s w sp x t) ∧
    (activeOf i w x ≠ 0 →
      ((∀ u, ¬ EngineOk s w o u) → Faults i s w sp x (faultOf 0x10)) ∧
      ∀ u, EngineOk s w o u →
        (2 ≤ (engineQueue s u.id o.e).length → Waits i s w sp x t) ∧
        ((engineQueue s u.id o.e).length < 2 →
          (handleRoom t w o.hn = none → Rests i s w sp x t) ∧
          ∀ v, handleRoom t w o.hn = some v →
            let p := given v w o.hn 2 o.e.val
            RunsTo i s w sp x (modWarp { p.2 with
              serial := p.2.serial + 1
              mops := insertOp (queuedMat i w x u o k tile bank p.2.serial p.1 s.now) p.2.mops } w.id (pendsAtIssue i)))) ∧
  ∀ (m : MatOp) (a b : List MatOp), (∀ y ∈ a, ¬ (y.unit = m.unit ∧ y.issued = m.issued ∧ m.quad < y.quad)) →
    (∀ y r, b = y :: r → y.unit = m.unit ∧ y.issued = m.issued ∧ m.quad < y.quad) → insertOp m (a ++ b) = a ++ m :: b

/-- R207, R210, R211, R358: `mbound` writes the bound of its formats and blocks. `mcount` sends the sum of the T bytes of the
blocks of the active rows, 16 cycles later, where each passes its checks: in the scratch, with a good header. Both take cause
0x0010 without a format of A. -/
def Sys2Proof.Claims.MatrixBounds : Prop :=
  ∀ (o : XOp) (kbm1 : Fin 4) (s : State) (w : Warp) (sp : Fin 8) (x : Split) (u : UnitSt) (la : Launch), EngineOk s w o u →
    launchOf s u = some la →
    let t := counted s w sp
    let cfg := u.engs[o.e].cfg
    let a := cfg.toNat % 16
    let kb := kbm1.val + 1
    (Issues (.mbound o kbm1) s w sp x →
      (a ≠ 0 → a ≤ 6 → WritesOnce (.mbound o kbm1) s w sp x fun y =>
        setS y o.sd (BitVec.ofNat 64 (32 * kb * tmaxOf a + 8 + if 3 ≤ a then 4 * kb else 0))) ∧
      (a = 0 → activeOf (.mbound o kbm1) w x ≠ 0 → Faults (.mbound o kbm1) s w sp x (faultOf 0x10))) ∧
    (Issues (.mcount o kbm1) s w sp x →
      let i := Instr.mcount o kbm1
      let n := if cfg.getLsbD 9 then 128 else 64
      let place := fun (l j : Nat) => blockAt (sreg w o.sa) (sreg w o.sb) n l j
      (activeOf i w x = 0 → RunsTo i s w sp x t) ∧
      (activeOf i w x ≠ 0 → a = 0 → Faults i s w sp x (faultOf 0x10)) ∧
      (activeOf i w x ≠ 0 → a ≠ 0 → offset (sreg w o.sb) % n = 0 →
        (∀ l, inAct i w x l → ∀ j, j < kb → place l.val j + n ≤ la.r.scrk * 1024 ∧
          theaderOk (Machine.fmtA cfg) (n == 128) (readN u.scratch (place l.val j) n) = true) →
        RunsTo i s w sp x (modWarp { t with
          serial := t.serial + 1
          results := t.results ++ [{ result0 (issOf i w sp x) .mcount with
            id := t.serial, due := some (s.now + 16)
            sw := some (o.sd, BitVec.ofNat 64 (((activeOf i w x).lanes.map fun l =>
              ((List.range kb).map fun j => ttotal (readN u.scratch (place l.val j) n)).sum).sum)) }] } w.id
          fun y => pendS y o.sd)))

/-- R126, R205, R207, R210, R211, R213, R349, R350, R352-R358: the issue of the matrix group. -/
def Sys2Proof.Claims.MatrixIssue : Prop := Claims.MatrixQueues ∧ Claims.MatrixBounds

/-- R207, R208, R213-R215, R349: the oldest operation starts where its engine runs nothing else of its unit, after the cycle of its issue:
it is due after the time that R215 gives it, or after 8 cycles where a check fails (log 43: the rules give an `mma` at most 8 and the other
operations no time); an `mma` whose checks pass reads its A blocks now. Nothing else changes but the bank that an `mldw` tags. -/
def Sys2Proof.Claims.MatrixStart : Prop :=
  ∀ (s : State) (o : MatOp) (rest : List MatOp) (u : UnitSt), s.mops = o :: rest → findUnit s o.unit = some u →
    (u.st = .resident ∨ u.st = .retiring) → o.due = none → o.faulted = false → o.issued < s.now → (∀ y ∈ rest, y.id ≠ o.id) →
    (∀ y ∈ rest, y.faulted = true ∨ y.unit ≠ o.unit ∨ y.e ≠ o.e ∨ y.due = none) →
    ∃ t d, exec .matrixOpStart s = .next t ∧ t.mem = s.mem ∧ t.ctxs = s.ctxs ∧ t.warps = s.warps ∧ t.results = s.results ∧
      t.mops = { o with due := some (s.now + d), bad := matBad s u o
                        blks := if matBad s u o = none then startBlocks u o else o.blks } :: rest ∧
      (matBad s u o ≠ none → d = 8 ∧ t.units = s.units) ∧
      (matBad s u o = none →
        ((o.kind = .zero → d = 8) ∧ (∀ ty a b, o.kind = .st ty a b → d = 40) ∧ (o.kind = .dist → d = 40) ∧
        (∀ j m v, o.kind = .fromTile j m v → d = 4) ∧ (∀ j m v, o.kind = .toTile j m v → d = 4) ∧
        (∀ k b, o.kind = .topk k b → d = 72) ∧ (∀ r k, o.kind = .mma r k → 8 ≤ d) ∧
        ((∀ a b c f, o.kind ≠ .ldw a b c f) → t.units = s.units)))

/-- R128, R198, R206, R212, R214: an integer `mma` adds to each slot of an active row the exact sum of products of the row of A with
the column of B, clamped once, and sets SATF where a slot was clamped; the other rows, tiles and engines stay. The row of A is
that of the blocks read at the start, when the unit stood as `u0`. -/
def Sys2Proof.Claims.MatrixMultiply : Prop :=
  ∀ (s : State) (o : MatOp) (rest : List MatOp) (u u0 : UnitSt) (tile : Fin 8) (bank : Fin 2) (row0 kb : Nat),
    Ending s o rest u → o.blks = startBlocks u0 o → o.kind = .mma row0 kb → o.tile = some tile → o.bank = some bank → isMx (cfgA o.cfg) = false →
    (u.tiles[tile].kind = .int ∨ (u.tiles[tile].kind = .empty ∧ u.tiles[tile].slots = [])) → tileOk u.tiles[tile] →
    let sum := fun (m n : Nat) => ((List.range (32 * kb)).map fun k => elemA u0 o m k * elemB u o bank (row0 + k) n).sum
    ∃ t y, exec .matrixOpComplete s = .next t ∧ EndsDone s t o 0 ∧ t.mem = s.mem ∧ t.warps = s.warps ∧ findUnit t u.id = some y ∧
      y = { u with tiles := u.tiles.set tile.val y.tiles[tile] tile.isLt } ∧ y.tiles[tile].kind = .int ∧
      (∀ m n, m < 32 → n < 256 → slotInt y.tiles[tile] m n =
        if o.active.getLsbD m then clampAcc (slotInt u.tiles[tile] m n + sum m n) else slotInt u.tiles[tile] m n) ∧
      (y.tiles[tile].satf = true ↔ u.tiles[tile].satf = true ∨ ∃ m n, o.active.getLsbD m = true ∧ m < 32 ∧ n < 256 ∧
        clampAcc (slotInt u.tiles[tile] m n + sum m n) ≠ slotInt u.tiles[tile] m n + sum m n)

/-- R199: a block product P and its addition to a slot. A scale byte 0xFF gives the generated NaN of code 2, and a NaN element that of
code 1; otherwise the exact sum times both scales is rounded once, to nearest even. A NaN product is the result, a NaN slot stays, and
otherwise the two are added and rounded once; NV is set where a generated NaN is written, OF where the sum overflows. -/
def Sys2Proof.Claims.MxArithmetic : Prop :=
  (∀ (fa fb sa sb : Nat) (nan : Bool) (v : Int),
    (sa = 0xFF ∨ sb = 0xFF → mxProduct fa fb sa sb nan v = 0x7FC00002) ∧
    (sa ≠ 0xFF → sb ≠ 0xFF → nan = true → mxProduct fa fb sa sb nan v = 0x7FC00001) ∧
    (sa ≠ 0xFF → sb ≠ 0xFF → nan = false →
      mxProduct fa fb sa sb nan v =
        (roundMag fmtF32 .rne false (decide (v < 0)) v.natAbs ((sa : Int) - 127 + (sb - 127) - (fa + fb)) false).1)) ∧
  ∀ p acc : Nat,
    (fNan fmtF32 p = true → mxAdd p acc = (p, true, false)) ∧
    (fNan fmtF32 p = false → fNan fmtF32 acc = true → mxAdd p acc = (acc, false, false)) ∧
    (fNan fmtF32 p = false → fNan fmtF32 acc = false →
      mxAdd p acc = ((fAdd fmtF32 .rne false p acc).1, fNan fmtF32 (fAdd fmtF32 .rne false p acc).1,
        (fAdd fmtF32 .rne false p acc).2.getLsbD 2))

/-- R128, R199, R203, R206, R212, R214: an MX `mma` adds to each slot of an active row the product of each block of 32 in increasing
order, each sum rounded on its own, and sets NV and OF of the tile where one of its slots had them; the other rows, tiles and engines
stay. The blocks of A are those read at the start, when the unit stood as `u0`. -/
def Sys2Proof.Claims.MatrixMultiplyMx : Prop :=
  ∀ (s : State) (o : MatOp) (rest : List MatOp) (u u0 : UnitSt) (tile : Fin 8) (bank : Fin 2) (row0 kb : Nat),
    Ending s o rest u → o.blks = startBlocks u0 o → o.kind = .mma row0 kb → o.tile = some tile → o.bank = some bank → isMx (cfgA o.cfg) = true →
    (u.tiles[tile].kind = .fp ∨ (u.tiles[tile].kind = .empty ∧ u.tiles[tile].slots = [])) → tileOk u.tiles[tile] →
    let slot := fun (m n : Nat) => mxSums ((List.range kb).map fun j => blockProduct u0 u o bank row0 m n j) (slotF32 u.tiles[tile] m n)
    let some_ := fun (b : Nat × Bool × Bool → Bool) => ∃ m n, o.active.getLsbD m = true ∧ m < 32 ∧ n < 256 ∧ b (slot m n) = true
    ∃ t y, exec .matrixOpComplete s = .next t ∧ EndsDone s t o 0 ∧ t.mem = s.mem ∧ t.warps = s.warps ∧ findUnit t u.id = some y ∧
      y = { u with tiles := u.tiles.set tile.val y.tiles[tile] tile.isLt } ∧ y.tiles[tile].kind = .fp ∧
      (∀ m n, m < 32 → n < 256 → slotF32 y.tiles[tile] m n =
        if o.active.getLsbD m then (slot m n).1 % 2 ^ 32 else slotF32 u.tiles[tile] m n) ∧
      (y.tiles[tile].nv = true ↔ u.tiles[tile].nv = true ∨ some_ fun r => r.2.1) ∧
      (y.tiles[tile].ovf = true ↔ u.tiles[tile].ovf = true ∨ some_ fun r => r.2.2)

/-- R195, R197, R217: the elements that `mst` writes. A scaled value is x * scale + bias, rounded once; INT8 is the nearest whole number,
clamped, and zero for a NaN; E4M3 is clamped to its largest number, with 0x7F for a NaN; BF16 and FP32 are rounded to nearest even, with a
NaN made quiet. A clamp that changes the value, and a NaN made zero, set CV. -/
def Sys2Proof.Claims.StoredElements : Prop :=
  (∀ x sc bi : Nat, scaleSlot (.f x) sc bi = .f (fMa fmtF32 .rne false x sc bi).1) ∧
  (∀ v : Int, storeElem .i8 (.i v) = (lowBits 8 (max (-128) (min 127 v)), decide (v < -128 ∨ 127 < v)) ∧
    (∀ p ∈ [(Ty.bf16, fmtBF16), (.f32, fmtF32)],
      storeElem p.1 (.i v) = ((roundMag p.2 .rne false (decide (v < 0)) v.natAbs 0 false).1, false)) ∧
    (v.natAbs ≤ 448 → (storeElem .e4m3 (.i v)) = ((roundMag fmtE4M3 .rne true (decide (v < 0)) v.natAbs 0 false).1, false)) ∧
    (464 < v.natAbs → storeElem .e4m3 (.i v) = (if v < 0 then 0xFE else 0x7E, true))) ∧
  ∀ x : Nat,
    (fNan fmtF32 x = true → storeElem .i8 (.f x) = (0, true) ∧ storeElem .e4m3 (.f x) = (0x7F, false) ∧
      storeElem .f32 (.f x) = (fQuiet fmtF32 x, false) ∧ storeElem .bf16 (.f x) = ((fToF .f32 .bf16 .rne false x).1, false)) ∧
    (∀ n, fVal fmtF32 x = .inf n → storeElem .i8 (.f x) = (if n then 0x80 else 0x7F, true) ∧
      storeElem .e4m3 (.f x) = (if n then 0xFE else 0x7E, true) ∧ storeElem .f32 (.f x) = (x, false) ∧
      storeElem .bf16 (.f x) = (infBits fmtBF16 n, false)) ∧
    (∀ n m e, fVal fmtF32 x = .num n m e →
      (let q := (quanta .rne n m e 0 false).1
       let v : Int := if n then -(q : Int) else q
       storeElem .i8 (.f x) = (lowBits 8 (max (-128) (min 127 v)), decide (v < -128 ∨ 127 < v))) ∧
      storeElem .f32 (.f x) = (x, false) ∧ storeElem .bf16 (.f x) = ((roundMag fmtBF16 .rne false n m e false).1, false) ∧
      (storeElem .e4m3 (.f x)).1 = (roundMag fmtE4M3 .rne true n m e false).1)

/-- R128, R212, R216-R219: the other operations that end well. `mzero` empties its tile, `mmov` moves a segment of a row of a tile to or
from the lanes active at issue, `mst` and `mtopk` write the scratch, `mdist` the tile; each makes its handle done, with the
tile's flags as STATUS for `mst`. -/
def Sys2Proof.Claims.MatrixMoves : Prop :=
  ∀ (s : State) (o : MatOp) (rest : List MatOp) (u : UnitSt) (tile : Fin 8), Ending s o rest u → o.tile = some tile →
    tileOk u.tiles[tile] →
    (o.kind = .zero → ∃ t, exec .matrixOpComplete s = .next t ∧ EndsDone s t o 0 ∧ t.mem = s.mem ∧ t.warps = s.warps ∧
      (findUnit t u.id).map (·.tiles) = some (u.tiles.set tile.val Tile.reset tile.isLt)) ∧
    (∀ j m vr, o.kind = .fromTile j m vr → j < 8 → m < 32 → vr < 256 → ∃ t, exec .matrixOpComplete s = .next t ∧ EndsDone s t o 0 ∧
      t.mem = s.mem ∧ t.units = s.units ∧ ∀ w y, findWarp s o.warp = some w → findWarp t o.warp = some y →
        y.vpend.getLsbD vr = false ∧ ∀ (q : Fin 256) (l : Fin 32), vreg y q l =
          if q.val = vr ∧ o.active.getLsbD l.val = true then look u.tiles[tile].slots (256 * m + 32 * j + l.val) else vreg w q l) ∧
    (∀ j m data, o.kind = .toTile j m data → j < 8 → m < 32 → ∃ t y, exec .matrixOpComplete s = .next t ∧ EndsDone s t o 0 ∧
      t.mem = s.mem ∧ t.warps = s.warps ∧ findUnit t u.id = some y ∧
      y.tiles[tile].kind = (if u.tiles[tile].kind = .empty then .int else u.tiles[tile].kind) ∧
      (∀ k, k ≠ tile → y.tiles[k] = u.tiles[k]) ∧
      (∀ l : Fin 32, o.active.getLsbD l.val = true → look y.tiles[tile].slots (256 * m + 32 * j + l.val) = data[l]) ∧
      ∀ a, (∀ l : Fin 32, o.active.getLsbD l.val = true → a ≠ 256 * m + 32 * j + l.val) →
        look y.tiles[tile].slots a = look u.tiles[tile].slots a) ∧
    (∀ ty scaled relu (l : Fin 32), o.kind = .st ty scaled relu → ty ∈ [Ty.i8, .e4m3, .bf16, .f32] → Memory.wf u.scratch = true →
      let value := fun (n : Nat) => if scaled then
        scaleSlot (slotVal u.tiles[tile] l.val n) (readN u.scratch (offset o.c + 4 * n) 4) (readN u.scratch (offset o.d + 4 * n) 4)
        else slotVal u.tiles[tile] l.val n
      o.active = BitVec.ofNat 32 (2 ^ l.val) → ∃ t y, exec .matrixOpComplete s = .next t ∧ findUnit t u.id = some y ∧
        EndsDone s t o (tileFlags y.tiles[tile]) ∧ t.mem = s.mem ∧ t.warps = s.warps ∧
        (∀ n, n < 256 → readN y.scratch (rowAt o.a o.b l.val + n * tyBytes ty) (tyBytes ty) =
          (storeElem ty (if relu then reluSlot (value n) else value n)).1 % 2 ^ (8 * tyBytes ty)) ∧
        (y.tiles[tile].cv = true ↔ u.tiles[tile].cv = true ∨
          ∃ n, n < 256 ∧ (storeElem ty (if relu then reluSlot (value n) else value n)).2 = true) ∧
        (∀ a, (a < rowAt o.a o.b l.val ∨ rowAt o.a o.b l.val + 256 * tyBytes ty ≤ a) →
          readByte y.scratch a = readByte u.scratch a)) ∧
    (∀ k near, o.kind = .topk k near → ∃ t y, exec .matrixOpComplete s = .next t ∧ EndsDone s t o 0 ∧ t.mem = s.mem ∧
      t.warps = s.warps ∧ findUnit t u.id = some y ∧ y.tiles = u.tiles ∧
      ∀ l : Fin 32, o.active = BitVec.ofNat 32 (2 ^ l.val) → k ≤ 16 → Memory.wf u.scratch = true →
        let row := rowAt o.a o.b l.val
        let w := if u.tiles[tile].kind = .fp then 4 else 8
        (∀ i (h : i < (topColumns u.tiles[tile] near k l.val).length),
          readN y.scratch (row + 2 * i) 2 = ((topColumns u.tiles[tile] near k l.val)[i]).1 ∧
          readN y.scratch (row + 32 + w * i) w = (match ((topColumns u.tiles[tile] near k l.val)[i]).2 with
            | .f v => v
            | .i v => lowBits 64 v)) ∧
        ∀ a, (a < row ∨ (row + 2 * k ≤ a ∧ a < row + 32) ∨ row + 32 + w * k ≤ a) → readByte y.scratch a = readByte u.scratch a) ∧
    (o.kind = .dist → ∃ t y, exec .matrixOpComplete s = .next t ∧ EndsDone s t o 0 ∧ t.mem = s.mem ∧ findUnit t u.id = some y ∧
      y.tiles[tile].kind = .fp ∧ y.scratch = u.scratch ∧ ∀ m n, m < 32 → n < 256 → o.active.getLsbD m = true →
        slotF32 y.tiles[tile] m n = (distSlot u.tiles[tile] (readN u.scratch (rowAt o.a 4 m) 4)
          (look (n := 32) u.engs[o.e].norm n).toNat m n).1 % 2 ^ 32)

/-- R219: the columns that `mtopk` ranks in a row: K of them, no column twice, each before or equal to those after it, ties by
the lower column, and none left out that ranks before one of them. A value ranks before a smaller one, or with `.near` before a larger one;
of two f32 slots a NaN ranks last, and zeros of both signs are equal. -/
def Sys2Proof.Claims.TopColumns : Prop :=
  (∀ (t : Tile) (near : Bool) (k m : Nat), k ≤ 256 →
    let r := topColumns t near k m
    let before := fun (a b : Nat × SlotVal) =>
      ranksBefore near a.2 b.2 = true ∨ (ranksBefore near b.2 a.2 = false ∧ a.1 < b.1)
    r.length = k ∧ (∀ p ∈ r, p.1 < 256 ∧ p.2 = slotVal t m p.1) ∧ List.Pairwise before r ∧
    ∀ n, n < 256 → (∀ p ∈ r, p.1 ≠ n) → ∀ p ∈ r, before p (n, slotVal t m n)) ∧
  ∀ near : Bool,
    (∀ a b : Int, ranksBefore near (.i a) (.i b) = true ↔ (if near then a < b else b < a)) ∧
    ∀ a b : Nat,
      (fNan fmtF32 a = true → ranksBefore near (.f a) (.f b) = false) ∧
      (fNan fmtF32 a = false → fNan fmtF32 b = true → ranksBefore near (.f a) (.f b) = true) ∧
      ∀ n m e p q d, fVal fmtF32 a = .num n m e → fVal fmtF32 b = .num p q d → ∀ k, k ≤ e → k ≤ d →
        (ranksBefore near (.f a) (.f b) = true ↔
          if near then scaledAt n m e k < scaledAt p q d k else scaledAt p q d k < scaledAt n m e k)

/-- R155, R186, R203, R352: what a row of an `mldw` writes, from scratch or from memory, in every format. Once its bytes have come, the
cells of the row are its columns, and with the first row of a block of 32 of an MX format the scale bytes of the block are those that came
with it; the row of norms is 256 words. A row whose bytes wait leaves the operation as it stands, and one whose bytes take a fault ends
it at that row, faulted; a resumable one stays to start again. -/
def Sys2Proof.Claims.MatrixRowWrites : Prop :=
  ∀ (s : State) (o : MatOp) (k : Nat) (t1 : State) (u : UnitSt), s.mops.find? (fun y => y.id == o.id && rowReady s y) = some o → o.fail = none →
    (∀ x y, rowRead s o = .ok (x, y) k t1 → t1.mops = s.mops → t1.ctxs = s.ctxs → findUnit t1 o.unit = some u → u.id = o.unit →
      ∃ t z, exec (.mldwRowWrite o.id) s = .next t ∧ findUnit t u.id = some z ∧ z.scratch = u.scratch ∧ z.tiles = u.tiles ∧
        t.mem = t1.mem ∧ t.warps = t1.warps ∧
        (∀ rows row0 ssp bfmt bank, o.kind = .ldw rows row0 ssp bfmt → o.bank = some bank → Sparse.wf u.engs[o.e].banks[bank].cells = true →
          Sparse.wf u.engs[o.e].banks[bank].scales = true →
          let cell := fun (n : Nat) => if bfmt = 5 then BitVec.ofNat 8 (x / 2 ^ (6 * n) % 64) else if bfmt = 6 then BitVec.ofNat 8 (x / 2 ^ (4 * n) % 16)
            else if bfmt = 2 then BitVec.ofNat 8 (lowBits 8 (signedOf 4 (x / 2 ^ (4 * n)))) else BitVec.ofNat 8 (x / 2 ^ (8 * n))
          (∀ n, n < 256 → look (n := 8) z.engs[o.e].banks[bank].cells (256 * (row0 + o.row) + n) = cell n) ∧
          (∀ c, (c < 256 * (row0 + o.row) ∨ 256 * (row0 + o.row) + 256 ≤ c) →
            look (n := 8) z.engs[o.e].banks[bank].cells c = look (n := 8) u.engs[o.e].banks[bank].cells c) ∧
          (∀ n b, n < 256 → y = some b → look (n := 8) z.engs[o.e].banks[bank].scales (256 * ((row0 + o.row) / 32) + n) =
            BitVec.ofNat 8 (b / 2 ^ (8 * n))) ∧
          (y = none → z.engs[o.e].banks[bank].scales = u.engs[o.e].banks[bank].scales)) ∧
        (∀ ssp, o.kind = .norm ssp → Sparse.wf u.engs[o.e].norm = true →
          (∀ n, n < 256 → look (n := 32) z.engs[o.e].norm n = BitVec.ofNat 32 (x / 2 ^ (32 * n))) ∧
          z.engs[o.e].banks = u.engs[o.e].banks ∧
          ((∀ h, entryOf s.ctxs[o.ctx] o.handle = some h → h.status = 0) → EndsDone s t o 0))) ∧
    (∀ rows row0 ssp bfmt, o.kind = .ldw rows row0 ssp bfmt →
      (∀ x y, rowRead s o = .ok (x, y) k t1 → (y.isSome = true ↔ (3 ≤ bfmt ∧ bfmt ≤ 6) ∧ o.row % 32 = 0))) ∧
    (rowRead s o = .again t1 → exec (.mldwRowWrite o.id) s = .next t1) ∧
    (∀ f, rowRead s o = .bad f t1 → t1.mops = s.mops → t1.ctxs = s.ctxs → f.cause ≠ 0x14 →
      ∃ t, exec (.mldwRowWrite o.id) s = .next t ∧ t.mem = t1.mem ∧ t.warps = t1.warps ∧
        (∀ h, entryOf s.ctxs[o.ctx] o.handle = some h → h.st = .pending → ∃ e ∈ t.ctxs[o.ctx].handles, e.slot = h.slot ∧ e.st = .faulted ∧
          e.cause = f.cause ∧ e.elem = o.row) ∧
        (resumable f.cause = true → ∃ y ∈ t.mops, y.id = o.id ∧ y.row = o.row ∧ y.faulted = true) ∧
        (resumable f.cause = false → ∀ y ∈ t.mops, y.id ≠ o.id))

/-- R203, R352: a row of an `mldw` from scratch: its cells are written and it commits; the next row follows a cycle later, and
after the last one the handle is done. The sum of `mcount` reaches its register (R358). -/
def Sys2Proof.Claims.MatrixRowsAndCounts : Prop :=
  (∀ (s : State) (o : MatOp) (u : UnitSt) (la : Launch) (rows row0 bfmt : Nat) (bank : Fin 2),
    s.mops.find? (fun y => y.id == o.id && rowReady s y) = some o → o.kind = .ldw rows row0 true bfmt → o.bank = some bank →
    findUnit s o.unit = some u → u.id = o.unit → launchOf s u = some la → bfmt ∈ [1, 2, 7] → o.fail = none →
    (∀ b : Fin 2, Sparse.wf u.engs[o.e].banks[b].cells = true) →
    let a := offset (o.a + BitVec.ofNat 64 o.row * o.b)
    a + rowBytes bfmt ≤ la.r.scrk * 1024 → la.r.scrk * 1024 ≤ 2 ^ 32 →
    ∃ t y, exec (.mldwRowWrite o.id) s = .next t ∧ t.mem = s.mem ∧ t.warps = s.warps ∧ findUnit t u.id = some y ∧
      y.scratch = u.scratch ∧ y.tiles = u.tiles ∧
      (∀ n, n < 256 → look (n := 8) y.engs[o.e].banks[bank].cells (256 * (row0 + o.row) + n) =
        if bfmt = 2 then BitVec.ofNat 8 (lowBits 8 (signedOf 4 (readN u.scratch (a + n / 2) 1 / 16 ^ (n % 2))))
        else readByte u.scratch (a + n)) ∧
      (∀ k, (k < 256 * (row0 + o.row) ∨ 256 * (row0 + o.row) + 256 ≤ k) →
        look (n := 8) y.engs[o.e].banks[bank].cells k = look (n := 8) u.engs[o.e].banks[bank].cells k) ∧
      (o.row + 1 < rows → ∃ q ∈ t.mops, q.id = o.id ∧ q.row = o.row + 1 ∧ q.due = some (s.now + 1)) ∧
      (rows ≤ o.row + 1 → (∀ h, entryOf s.ctxs[o.ctx] o.handle = some h → h.status = 0) → EndsDone s t o 0)) ∧
  (∀ (s : State) (r : Result) (d : Fin 128) (v : Word) (w : Warp),
    s.results.find? (fun r => r.kind == .mcount && resultDue s r && r.due.isSome) = some r → r.sw = some (d, v) →
    findWarp s r.warp = some w →
    ∃ t y, exec .mcountResult s = .next t ∧ findWarp t r.warp = some y ∧ (∀ q ∈ t.results, q.id ≠ r.id) ∧ t.mem = s.mem ∧
      (d ≠ 0 → sreg y d = v) ∧ y.spend.getLsbD d.val = false ∧ ∀ q, q ≠ d → sreg y q = sreg w q)

/-- R128, R195, R198, R199, R203, R206-R208, R212-R219, R352, R358: how matrix operations start and what their ends write. -/
def Sys2Proof.Claims.MatrixRuns : Prop :=
  Claims.MatrixStart ∧ Claims.MatrixMultiply ∧ Claims.MxArithmetic ∧ Claims.MatrixMultiplyMx ∧ Claims.StoredElements ∧ Claims.MatrixMoves ∧
  Claims.TopColumns ∧ Claims.MatrixRowWrites ∧ Claims.MatrixRowsAndCounts

/-- R126, R128, R195, R198, R199, R203, R205-R208, R210-R219, R349, R350, R352-R358: the issue of a matrix instruction, and what its engine
does with it. The 8 cycles of an operation whose check fails are log 43. -/
def Obligations.MatrixOperations : Prop := Claims.MatrixIssue ∧ Claims.MatrixRuns

/-- R76, R233: the layout of a launch record of sixteen words, and of a chain default block of eight. -/
def Sys2Proof.Claims.RecordLayout : Prop :=
  (∀ ws : List Word, ws.length = 16 →
    let r := parseRecord ws
    let w := fun (k : Nat) => ws.getD k 0
    r.entry = w 0 ∧ r.items = (w 1).toNat ∧ r.wpu = field (w 2) 56 8 ∧ r.emask.toNat = field (w 2) 48 8 ∧ r.prio = field (w 2) 40 8 ∧
    r.chm.toNat = field (w 2) 36 4 ∧ r.te = (w 2).getLsbD 35 ∧ r.xc = (w 2).getLsbD 34 ∧ r.trapen = (w 2).getLsbD 33 ∧
    r.chain = (w 2).getLsbD 32 ∧ r.ppw.toNat = field (w 2) 0 32 ∧ r.args = w 3 ∧ r.cdef = w 4 ∧ r.graph = field (w 5) 48 16 ∧
    r.phase = field (w 5) 32 16 ∧ r.scrk = field (w 5) 16 16 ∧ r.tv = field (w 5) 8 8 ∧ r.ts = field (w 5) 0 8 ∧
    r.vregs = field (w 6) 56 8 ∧ r.acct = field (w 6) 48 8 ∧ (r.resv = true ↔ field (w 6) 0 48 ≠ 0 ∨ w 7 ≠ 0) ∧
    ∀ e, e < 256 → r.wait.getLsbD e = (w (8 + e / 64)).getLsbD (e % 64) ∧ r.set.getLsbD e = (w (12 + e / 64)).getLsbD (e % 64)) ∧
  (∀ ws : List Word, ws.length = 8 →
    let d := parseChainDef ws
    let w := fun (k : Nat) => ws.getD k 0
    d.area = w 5 ∧ (∀ c : Fin 4, d.defs[c] = w c.val ∧ d.km1[c] = field (w 4) (8 * c.val) 3) ∧
    (d.bad = true ↔ (∃ c, c < 4 ∧ field (w 4) (8 * c + 3) 5 ≠ 0) ∨ field (w 4) 32 32 ≠ 0 ∨ field (w 5) 0 20 ≠ 0 ∨ w 6 ≠ 0 ∨ w 7 ≠ 0))

/-- R77, R233: the status of a launch is that of the first check that fails, and 0 where none does. -/
def Sys2Proof.Claims.LaunchChecks : Prop :=
  ∀ (x : Ctx) (r : LRec) (d : ChainDef),
    (launchStatus x r d = 0 ↔ ∀ n, ¬ checkFails x r d n) ∧
    ∀ n, n ≠ 0 → (launchStatus x r d = n ↔ checkFails x r d n ∧ ∀ k, k < n → ¬ checkFails x r d k)

/-- R77, R80, R85, R126, R336, R363: `launch` waits for room for its handle. Then, after its release, it reads its record once, and the
launch is entered at the home Drover and the held launches are examined. A record that is not 8-byte aligned takes cause 0x0008. -/
def Sys2Proof.Claims.LaunchEnters : Prop :=
  ∀ (g : Guard) (hn : Fin 16) (sa : Fin 128) (s : State) (w : Warp) (sp : Fin 8) (x : Split), Issues (.launch g hn sa) s w sp x →
    let i := Instr.launch g hn sa
    let t := counted s w sp
    let u := l1Clean t w.core wideLine
    (activeOf i w x = 0 → RunsTo i s w sp x t) ∧
    (activeOf i w x ≠ 0 → handleRoom t w hn = none → Rests i s w sp x t) ∧
    (activeOf i w x ≠ 0 → handleRoom t w hn ≠ none → Releasable t w →
      (∀ ps, WordsAt u w (sreg w sa) 16 ps →
        let r := wordsRead u (issOf i w sp x) ps
        ((parseRecord r.1).chain = false ∨ (parseRecord r.1).cdef = 0) → ∀ v, handleRoom r.2 w hn = some v → (newHandle v w 3 0).1 ≠ 0 →
          DroverFree v w →
          ∃ v' t', RunsTo i s w sp x (toDrover s w (examine t' w.ctx)) ∧ Entered v' t' w hn (parseRecord r.1) (launchStatus v.ctxs[w.ctx] (parseRecord r.1) chainDef0) ∧
            v'.mem = v.mem ∧ v'.cores = v.cores ∧ v'.ctxs = v.ctxs ∧ v'.units = v.units) ∧
      (∀ ps, WordsAt u w (sreg w sa) 16 ps →
        let r := wordsRead u (issOf i w sp x) ps
        (parseRecord r.1).chain = true → (parseRecord r.1).cdef ≠ 0 → ∀ qs, WordsAt r.2 w (parseRecord r.1).cdef 8 qs →
          let d := wordsRead r.2 (issOf i w sp x) qs
          ∀ v, handleRoom d.2 w hn = some v → (newHandle v w 3 0).1 ≠ 0 → DroverFree v w →
            ∃ v' t', RunsTo i s w sp x (toDrover s w (examine t' w.ctx)) ∧
              Entered v' t' w hn (parseRecord r.1) (launchStatus v.ctxs[w.ctx] (parseRecord r.1) (parseChainDef d.1)) ∧
              v'.mem = v.mem ∧ v'.cores = v.cores ∧ v'.ctxs = v.ctxs ∧ v'.units = v.units) ∧
      ((sreg w sa).toNat % 8 ≠ 0 → (∀ l : Fin 32, l.val < 16 → ∃ p, locate u w.core w.ctx (wordAddr (sreg w sa) l) false = .ok p ∧
          pteFmt p.e.pte = 0) → ∃ f, f.cause = 8 ∧ f.va = sreg w sa ∧ Faults i s w sp x f))

/-- R76, R77, R80, R85, R126, R233, R336, R363: launches. -/
def Obligations.Launches : Prop := Claims.RecordLayout ∧ Claims.LaunchChecks ∧ Claims.LaunchEnters

/-- R72, R78-R80, R100: where a context that is not halting or halted is examined, a held launch whose events have come and whose
phase is reached becomes ready, and no other changes; readiness does not read a mask again. A launch of no items is then done, with
its SET events set and its handle done, where nothing keeps the release of R79. -/
def Sys2Proof.Claims.Examination : Prop :=
  (∀ (s : State) (c : Fin 64), s.ctxs[c].st = .halting ∨ s.ctxs[c].st = .halted → examine s c = s) ∧
  (∀ (s : State) (c : Fin 64), s.ctxs[c].st ≠ .halting → s.ctxs[c].st ≠ .halted →
    (∀ l ∈ s.ctxs[c].launches, l.fin = true ∨ l.retired ≠ l.total ∨ l.st = .done ∨ l.st = .refused) →
    examine s c = modCtx s c fun x => { x with launches := x.launches.map fun l =>
      if l.st = .held ∧ (∀ e, e < 256 → l.r.wait.getLsbD e = true → x.ev.getLsbD e = true) ∧ l.r.phase ≤ x.cph
      then { l with st := .ready } else l }) ∧
  ∀ (s : State) (c : Fin 64) (l : Launch), s.ctxs[c].launches = [l] → l.st = .held → l.total = 0 → l.retired = 0 → l.cancel = false →
    l.fin = false → s.ctxs[c].st ≠ .halting → s.ctxs[c].st ≠ .halted → (∀ k : Fin 384, s.cores[k].l1 = []) → s.links = [] →
    (∀ y ∈ s.host.held, y.writes c = false) → (s.ctxs[c].mode = true ∨ Across s c) →
    (∀ e, e < 256 → l.r.wait.getLsbD e = true → s.ctxs[c].ev.getLsbD e = true) → l.r.phase ≤ s.ctxs[c].cph →
    (examine s c).ctxs[c].launches = [{ l with st := .done, fin := true }] ∧ (examine s c).ctxs[c].ev = s.ctxs[c].ev ||| l.r.set ∧
    (examine s c).ctxs[c].abort = s.ctxs[c].abort ∧
    ∀ e, entryOf s.ctxs[c] l.handle = some e → e.st = .pending →
      ∃ f ∈ (examine s c).ctxs[c].handles, f.slot = e.slot ∧ f.st = .done

/-- R85, R364: `evset` and `evclr` set and clear the events of the mask at the home Drover, after a release and with none; the held
launches are examined. `evwait` goes on with an acquire where every event of the mask is set, and otherwise waits at a safe point; it notes
its mask, and events that come to hold all of it later let it go on though some are cleared again. -/
def Sys2Proof.Claims.Events : Prop :=
  (∀ (s : State) (c : Fin 64) (m : BitVec 256), (raiseEvents s c m).ctxs[c].ev = s.ctxs[c].ev ||| m ∧ (raiseEvents s c m).mem = s.mem ∧
    (raiseEvents s c m).units = s.units ∧ ∀ w x k (n : Fin 8), findWarp s w = some x → x.ctx = c → onDispatch x = true →
      ∀ z, x.splits[n] = some z → z.ewait = some k → ∃ y z', findWarp (raiseEvents s c m) w = some y ∧ y.splits[n] = some z' ∧
        z'.ewait = some (if (s.ctxs[c].ev ||| m) &&& k = k then 0 else k) ∧ z'.pc = z.pc ∧ z'.mask = z.mask) ∧
  ∀ (o : EvOp) (s : State) (w : Warp) (sp : Fin 8) (x : Split) (m : BitVec 256), (∀ e, e < 256 → m.getLsbD e = maskBit w o e) →
    let t := counted s w sp
    (∀ i ∈ [Instr.evset o, .evclr o, .evwait o], Issues i s w sp x → activeOf i w x = 0 → RunsTo i s w sp x t) ∧
    (Issues (.evset o) s w sp x → activeOf (.evset o) w x ≠ 0 → Releasable t w →
      let u := l1Clean t w.core wideLine
      DroverFree u w →
      RunsTo (.evset o) s w sp x (toDrover s w (examine (raiseEvents u w.ctx m) w.ctx))) ∧
    (Issues (.evclr o) s w sp x → activeOf (.evclr o) w x ≠ 0 → DroverFree s w →
      RunsTo (.evclr o) s w sp x (toDrover s w (examine (modCtx t w.ctx fun y => { y with ev := y.ev &&& ~~~m }) w.ctx))) ∧
    (Issues (.evwait o) s w sp x → activeOf (.evwait o) w x ≠ 0 → DroverFree s w →
      let k := x.ewait.getD m
      let note := fun (v : BitVec 256) => modWarp t w.id fun y => modSplit y sp fun z => { z with ewait := some v }
      let met := ∀ e, e < 256 → k.getLsbD e = true → s.ctxs[w.ctx].ev.getLsbD e = true
      (met → NoLinkReads s w → RunsTo (.evwait o) s w sp x (toDrover s w (l1DropClean (note 0) w.core wideLine))) ∧
      (met → ¬ NoLinkReads s w → Waits (.evwait o) s w sp x (note 0)) ∧ (¬ met → Rests (.evwait o) s w sp x (note k)))

/-- R85, R362: a form of the work group that needs the home Drover waits while the bridge to it stalls, and takes cause 0x0014 where the
bridge is down (R26, R27; that these forms are the messages of R85 is log 16). -/
def Sys2Proof.Claims.HomeDrover : Prop :=
  ∀ (i : Instr) (s : State) (w : Warp) (sp : Fin 8) (x : Split),
    ((∃ o, i = .evclr o ∨ i = .evwait o) ∨ (∃ g sa, i = .cancelLaunch g sa ∨ i = .cancelGraph g sa ∨ i = .cancelPhase g sa) ∨
      (∃ o, i = .cancelJob o) ∨ ∃ sel o, i = .cntrd sel o) →
    Issues i s w sp x → activeOf i w x ≠ 0 →
    (crossing s (coreDie w.core) (homeDie s w.ctx) = .stalled → Waits i s w sp x (counted s w sp)) ∧
    (crossing s (coreDie w.core) (homeDie s w.ctx) = .down → Faults i s w sp x (faultOf 0x14))

/-- R71, R73, R80, R365: `cancel.launch` takes the launch that the handle value names, `cancel.graph` and `cancel.phase` those of a
number; a value that resolves to nothing takes cause 0x000F. A launch that is done, refused or cancelled, or whose counter is zero,
does not change. One with no unit dispatched is cancelled, and its counter is zero. -/
def Sys2Proof.Claims.LaunchCancels : Prop :=
  (∀ (g : Guard) (sa : Fin 128) (s : State) (w : Warp) (sp : Fin 8) (x : Split),
    let t := counted s w sp
    let h : BitVec 32 := (sreg w sa).setWidth 32
    (∀ i ∈ [Instr.cancelLaunch g sa, .cancelGraph g sa, .cancelPhase g sa], Issues i s w sp x → activeOf i w x = 0 →
      RunsTo i s w sp x t) ∧
    (Issues (.cancelLaunch g sa) s w sp x → activeOf (.cancelLaunch g sa) w x ≠ 0 → DroverFree s w →
      (h = 0 → RunsTo (.cancelLaunch g sa) s w sp x (toDrover s w t)) ∧
      (h ≠ 0 → (∀ e, entryOf s.ctxs[w.ctx] h = some e → e.owner ≠ ownerOf w) → Faults (.cancelLaunch g sa) s w sp x (faultOf 0xF)) ∧
      (∀ e l, h ≠ 0 → entryOf s.ctxs[w.ctx] h = some e → e.owner = ownerOf w →
        s.ctxs[w.ctx].launches.reverse.find? (fun y => y.handle == h) = some l →
        RunsTo (.cancelLaunch g sa) s w sp x (toDrover s w (cancelWhere t w.ctx fun y => y.id == l.id)))) ∧
    (Issues (.cancelGraph g sa) s w sp x → activeOf (.cancelGraph g sa) w x ≠ 0 → DroverFree s w →
      RunsTo (.cancelGraph g sa) s w sp x (toDrover s w (cancelWhere t w.ctx fun y => y.r.graph == field (sreg w sa) 0 16))) ∧
    (Issues (.cancelPhase g sa) s w sp x → activeOf (.cancelPhase g sa) w x ≠ 0 → DroverFree s w →
      RunsTo (.cancelPhase g sa) s w sp x (toDrover s w (cancelWhere t w.ctx fun y => y.r.phase == field (sreg w sa) 0 16)))) ∧
  (∀ (s : State) (c : Fin 64) (l : Launch), findLaunch s.ctxs[c] l.id = some l →
    (l.st ∈ [LState.done, .cancelled, .refused] ∨ (l.retired = l.total ∧ l.fin = false ∧ l.st ∈ [LState.ready, .running]) →
      cancelLaunch s c l.id = s) ∧
    (l.st ∈ [LState.held, .ready] → l.next = 0 → l.retired = 0 → l.total ≠ 0 → (∀ u ∈ s.units, u.ctx = c → u.launch ≠ l.id) →
      cancelLaunch s c l.id = modLaunch s c l.id fun y =>
        { y with cancel := true, st := .cancelled, next := y.total, retired := y.total }))

/-- R34, R39, R73, R78-R80, R92, R161: the end of a launch whose counter is zero. Where nothing keeps the release on its cores, its SET events
and, for a cancelled one, ABORT are set, its handle is done or cancelled, its units are forgotten, and the held launches are examined;
no other launch ends. It waits while a domain write or an atomic of its context is outstanding (logs 31, 39), while what the context wrote
is not performed on both dies, and for the flushing read of the system writes. -/
def Sys2Proof.Claims.LaunchEnds : Prop :=
  ∀ (s : State) (c : Fin 64) (l : Launch), findLaunch s.ctxs[c] l.id = some l → (∀ k : Fin 384, s.cores[k].l1 = []) →
    let here := s.ctxs[c].mode = true ∨ Across s c
    (¬ here → s.bridge.down = false → endDue s c l = (s, false)) ∧
    (here → (∃ y ∈ s.links, y.ctx = c ∧ y.copy = none ∧ (y.kind = .atomic ∨ (y.sys = false ∧ y.kind = .write))) → endDue s c l = (s, false)) ∧
    (here → NoFarWrites s c → (∃ y ∈ s.host.held, y.writes c = true) → endDue s c l = (s, false)) ∧
    (here → NoFarWrites s c → (∀ y ∈ s.host.held, y.writes c = false) → (∀ y ∈ s.links, y.kind ≠ .flush) → crossing s (homeDie s c) 0 = .free →
      (∃ y ∈ s.links, systemWriteOf c l.age y = true) → ∃ t, endDue s c l = (t, false) ∧ t.ctxs = s.ctxs ∧
        ∃ f ∈ t.links, f.kind = .flush ∧ f.bytes = 4 ∧ f.warp = l.age ∧ ∃ y ∈ s.links, systemWriteOf c l.age y = true ∧ f.pa = y.pa) ∧
    (s.links = [] → (∀ y ∈ s.host.held, y.writes c = false) → here →
      ∃ t, endDue s c l = (readyLaunches t c, true) ∧
      t.ctxs[c].ev = s.ctxs[c].ev ||| l.r.set ∧ t.ctxs[c].abort = (s.ctxs[c].abort || l.cancel) ∧ t.mem = s.mem ∧
      (∀ u ∈ t.units, u.ctx = c → u.launch ≠ l.id) ∧
      (findLaunch t.ctxs[c] l.id).map (fun y => (y.st, y.fin)) = some (if l.cancel then .cancelled else .done, true) ∧
      (∀ e, entryOf s.ctxs[c] l.handle = some e → e.st = .pending →
        ∃ f ∈ t.ctxs[c].handles, f.slot = e.slot ∧ f.st = if l.cancel then .cancelled else .done) ∧
      ∀ k, k ≠ l.id → findLaunch t.ctxs[c] k = findLaunch s.ctxs[c] k)

/-- R60, R63, R71, R73, R80, R365: `cancel.job` cancels the job: its warp is gone, and once no launch of it is live and no engine
operation of it goes on, it ends with END = 1 and CODE = 0, with no warp, unit or engine operation of it left. Until then no END is sent,
and the end of a cycle looks again. -/
def Sys2Proof.Claims.JobCancel : Prop :=
  (∀ (o : CancelOp) (s : State) (w : Warp) (sp : Fin 8) (x : Split), Issues (.cancelJob o) s w sp x →
    let i := Instr.cancelJob o
    let goes := (∃ o ∈ s.copies, o.ctx = w.ctx ∧ o.faulted = false) ∨ (∃ o ∈ s.mops, o.ctx = w.ctx ∧ o.faulted = false) ∨
      ∃ o ∈ s.maints, o.ctx = w.ctx ∧ o.faulted = false
    (activeOf i w x = 0 → RunsTo i s w sp x (counted s w sp)) ∧
    (activeOf i w x ≠ 0 → DroverFree s w →
      Moves i s w (toDrover s w (cancelWholeJob (counted s w sp) w.ctx 1)) ∧
      (s.ctxs[w.ctx].st = .running → s.ctxs[w.ctx].held = none → liveOf s.ctxs[w.ctx] = [] → ¬ goes →
        JobEnds s (toDrover s w (cancelWholeJob (counted s w sp) w.ctx 1)) w.ctx 1 0) ∧
      (s.ctxs[w.ctx].st = .running → liveOf s.ctxs[w.ctx] = [] → (∃ o ∈ s.copies, o.ctx = w.ctx ∧ o.faulted = false) →
        let t := cancelWholeJob (counted s w sp) w.ctx 1
        t.ctxs[w.ctx].st = .running ∧ t.ctxs[w.ctx].jobEnd = some 1 ∧ t.hostOut = s.hostOut ∧
        ∀ v ∈ t.warps, v.ctx = w.ctx → onDispatch v = false))) ∧
  ∀ (s : State) (c : Fin 64) (e : Nat), s.ctxs[c].jobEnd = some e → s.ctxs[c].st = .running → s.ctxs[c].held = none → e ≠ 3 → e < 256 →
    (cancelOver s c = false → endCancelled s c = s) ∧
    (cancelOver s c = true → JobEnds s (endCancelled s c) c e 0 ∧ (∀ u ∈ (endCancelled s c).units, u.ctx ≠ c) ∧
      (∀ o ∈ (endCancelled s c).copies, o.ctx ≠ c) ∧ ∀ o ∈ (endCancelled s c).mops, o.ctx ≠ c)

/-- R71, R72, R85, R366: `cntrd` writes the counter that it names, as the home Drover holds it, once for its warp; a handle value that
resolves to nothing takes cause 0x000F. What a null one reads is the model's choice (log 38): 0, or state 3 and status 0. -/
def Sys2Proof.Claims.Counters : Prop :=
  ∀ (sel : CntSel) (o : EvOp) (s : State) (w : Warp) (sp : Fin 8) (x : Split), Issues (.cntrd sel o) s w sp x →
    let i := Instr.cntrd sel o
    let a := sreg w o.sa
    let h : BitVec 32 := a.setWidth 32
    let k := s.ctxs[w.ctx]
    let put := Puts i s w sp x o.sd
    DroverFree s w →
    (sel ∈ [CntSel.graph, .phase, .abort, .cph, .ev] → put (counterOf k a sel)) ∧
    (sel = .job → (∀ v ∈ s.warps, v.ctx = w.ctx → isJob v = false) → put (liveOf k).length) ∧
    (sel = .job → (∃ v ∈ s.warps, v.ctx = w.ctx ∧ isJob v = true) → put ((liveOf k).length + 1)) ∧
    (sel ∈ [CntSel.lcount, .lstatus, .unit, .warp] →
      (h = 0 → put (if sel = .lstatus then 0x300 else 0)) ∧
      (h ≠ 0 → activeOf i w x ≠ 0 → (∀ e, entryOf k h = some e → e.owner ≠ ownerOf w) → Faults i s w sp x (faultOf 0xF)) ∧
      (∀ e l, h ≠ 0 → entryOf k h = some e → e.owner = ownerOf w → k.launches.reverse.find? (fun y => y.handle == h) = some l →
        let b := (sreg w o.sb).toNat
        let pending := (l.st = .held ∨ l.st = .ready ∨ l.st = .running ∨ (l.st = .cancelled ∧ l.fin = false)) ∧ l.next ≤ b ∧ b < l.total
        let found := s.units.find? fun u => u.ctx == w.ctx && u.launch == l.id && u.index == b && u.st != .retired
        (sel = .lcount → put (l.total - l.retired)) ∧ (sel = .lstatus → put (stateCode l.st * 256 + l.status)) ∧
        (sel = .unit → (pending → put (2 ^ 64 - 1)) ∧ (¬ pending → found = none → put 0) ∧
          (¬ pending → ∀ u, found = some u → put ((s.warps.filter fun v => inUnit u.id v && !v.ended).length +
            (s.ctxs[u.ctx].handles.filter fun e => e.st == .pending && decide (e.owner = .unit u.id)).length))) ∧
        (sel = .warp →
          let rank := field (sreg w o.sc) 0 8
          (l.r.wpu ≤ rank → put 0) ∧ (rank < l.r.wpu → pending → put (2 ^ 64 - 1)) ∧ (rank < l.r.wpu → ¬ pending → found = none → put 0) ∧
          (rank < l.r.wpu → ¬ pending → ∀ u v, found = some u → warpOf s u.id rank = some v →
            put ((List.range 32).filter fun j => v.live.getLsbD j).length))))

/-- R34, R39, R60, R63, R71-R73, R78-R80, R85, R92, R100, R161, R362, R364-R366: events, cancels and counters. That these forms are messages
of the home Drover, which the bridge stalls or loses, is log 16; what the end of a launch waits for is logs 31 and 39; what `cntrd` reads of a
null handle is log 38. -/
def Obligations.EventsCancelsAndCounters : Prop :=
  Claims.Examination ∧ Claims.Events ∧ Claims.HomeDrover ∧ Claims.LaunchCancels ∧ Claims.LaunchEnds ∧ Claims.JobCancel ∧ Claims.Counters

/-- R96, R317, R376: `safept` only goes on, but in a halting warp its split then stands at that safe point; after `halt` the job
warp's split stands at a safe point and its context halts. -/
def Sys2Proof.Claims.SafePoints : Prop :=
  ∀ (idx : BitVec 16) (s : State) (w : Warp) (sp : Fin 8) (x : Split),
    let stand := fun (i : Instr) (t : State) (q : Stop) =>
      modWarp (goOn t w.id sp (x.pc + BitVec.ofNat 64 (instrLen i))) w.id fun y => modSplit y sp fun z => { z with stop := q }
    (Issues (.safept idx) s w sp x →
      (w.halting = false → RunsTo (.safept idx) s w sp x (counted s w sp)) ∧
      (w.halting = true → Moves (.safept idx) s w (stand (.safept idx) (counted s w sp) (.safept idx)))) ∧
    (Issues .halt s w sp x → s.ctxs[w.ctx].st = .running →
      Moves .halt s w (stand .halt (startHalt (counted s w sp) w.ctx) .blocking) ∧
      ∀ y, findWarp (startHalt (counted s w sp) w.ctx) w.id = some y → y.halting = true)

/-- R78, R367: `phase` waits at a safe point while a launch of the current phase is live, and then starts the next. -/
def Sys2Proof.Claims.Phases : Prop :=
  ∀ (s : State) (w : Warp) (sp : Fin 8) (x : Split), Issues .phase s w sp x →
    let k := s.ctxs[w.ctx]
    (activeOf .phase w x = 0 → RunsTo .phase s w sp x (counted s w sp)) ∧
    (activeOf .phase w x ≠ 0 →
      ((∃ l ∈ liveOf k, l.r.phase = k.cph) → Rests .phase s w sp x (counted s w sp)) ∧
      ((∀ l ∈ liveOf k, l.r.phase ≠ k.cph) →
        RunsTo .phase s w sp x (examine (modCtx (counted s w sp) w.ctx fun y => { y with cph := y.cph + 1 }) w.ctx)))

/-- R39, R42, R60, R63, R367: `jobend` waits at a safe point until only the job warp is left; it then writes the job's stores back, on every
core, and ends the job with END = 0 and the low 16 bits of its register. While the host link is down its completion word is held, and with 64
held words of its function, or one that waits for such a place, it waits. -/
def Sys2Proof.Claims.JobEnd : Prop :=
  ∀ (sa : Fin 128) (s : State) (w : Warp) (sp : Fin 8) (x : Split), Issues (.jobend sa) s w sp x →
    let i := Instr.jobend sa
    let t := counted s w sp
    let u := releaseCores t
    let full := 64 ≤ heldWords s (functionOf s w.ctx) ∨ ∃ y ∈ s.host.owed, y.wordOf (functionOf s w.ctx) = true
    (activeOf i w x = 0 → RunsTo i s w sp x t) ∧
    (activeOf i w x ≠ 0 →
      (¬ JobDone s w → Rests i s w sp x t) ∧
      (JobDone s w → s.ctxs[w.ctx].st = .running → s.ctxs[w.ctx].held = none → (∀ v ∈ s.warps, v.ctx = w.ctx → v.id = w.id) →
        StoresOut u w.ctx → NoPosted s w → w.late = [] →
        (¬ full → ∃ t', Moves i s w t' ∧ JobEnds s t' w.ctx 0 (field (sreg w sa) 0 16) ∧ t'.mem = u.mem) ∧
        (full → Rests i s w sp x u)) ∧
      (JobDone s w → (∀ k, l1Lost u k (ownLine w.ctx) = none) → (∃ k, l1Stalled u k (ownLine w.ctx) = true) → Waits i s w sp x u))

/-- R35, R112, R122, R230, R246, R251, R316: `exit`. In a handler it takes cause 0x0001, and in a bracket cause 0x0018, with no
active lane too (the model's choice, log 22). With active lanes it takes cause 0x0011 as a participant of an expand
context, and where a write of the warp has failed that write's cause. The last lanes of a warp wait for its domain writes and its atomics
(log 39). Otherwise its lanes leave the split, the live mask
and the return stack; the last lane of a job warp ends the job with the value 0, that of a fault-service warp ends the warp and
frees its handles. -/
def Sys2Proof.Claims.Exits : Prop :=
  ∀ (g : Guard) (s : State) (w : Warp) (sp : Fin 8) (x : Split), Issues (.exit g) s w sp x →
    let i := Instr.exit g
    let t := counted s w sp
    let act := activeOf i w x
    let out := w.handler = none ∧ w.bracket = none ∧ inExpand t w = false
    let last := w.live &&& ~~~act = 0
    let mine := fun (l : LinkOp) => l.warp = w.id ∧ farWriteOf w.ctx l = true
    let u := releaseCores t
    (w.handler ≠ none → Faults i s w sp x (faultOf 1)) ∧
    (w.handler = none → w.bracket ≠ none → Faults i s w sp x (faultOf 0x18)) ∧
    (act = 0 → w.handler = none → w.bracket = none → RunsTo i s w sp x t) ∧
    (act ≠ 0 →
      (w.handler = none → w.bracket = none → inExpand t w = true → Faults i s w sp x (faultOf 0x11)) ∧
      (out → ∀ y ys, w.late = y :: ys → Faults i s w sp x { faultOf y.cause with va := y.va, lanes := y.lanes, late := true }) ∧
      (out → w.late = [] → last → (∃ l ∈ s.links, mine l) → Waits i s w sp x t) ∧
      (out → w.late = [] → (¬ last ∨ ((∀ l ∈ s.links, ¬ mine l) ∧ ∃ u, w.kind = .unit u)) →
        ∃ t', Moves i s w t' ∧ t'.mem = s.mem ∧ t'.ctxs = s.ctxs ∧ t'.units = s.units ∧ ∃ y, findWarp t' w.id = some y ∧
          y.live = w.live &&& ~~~act ∧ (∀ e ∈ y.rstack, ∃ f ∈ w.rstack, e.link = f.link ∧ e.mask = f.mask &&& ~~~act) ∧
          (y.v, y.s, y.p, y.h, y.flags) = (w.v, w.s, w.p, w.h, w.flags) ∧
          (x.mask &&& ~~~act = 0 → y.splits[sp] = none) ∧
          (x.mask &&& ~~~act ≠ 0 → ∃ z, y.splits[sp] = some z ∧ z.mask = x.mask &&& ~~~act ∧ z.pc = x.pc + 8 ∧ z.st = .runnable)) ∧
      (out → w.late = [] → last → NoPosted s w → w.kind = .job → s.ctxs[w.ctx].st = .running →
        s.ctxs[w.ctx].held = none → (∀ v ∈ s.warps, v.ctx = w.ctx → v.id = w.id) → StoresOut u w.ctx →
        JobDone s w → heldWords s (functionOf s w.ctx) < 64 → (∀ y ∈ s.host.owed, y.wordOf (functionOf s w.ctx) = false) →
        ∃ t', Moves i s w t' ∧ JobEnds s t' w.ctx 0 0) ∧
      (out → w.late = [] → last → (∀ l ∈ s.links, ¬ mine l) → isService w = true → (∀ d : Fin 2, s.dies[d].served = []) →
        ∃ t', Moves i s w t' ∧ t'.mem = s.mem ∧ (∀ v ∈ t'.warps, v.id ≠ w.id) ∧
          ∀ e ∈ t'.ctxs[w.ctx].handles, e.owner = .warp w.id → e.st = .free))

/-- R35, R39, R42, R60, R63, R78, R96, R112, R122, R230, R246, R251, R316, R317, R367, R376: safe points, phases, and the ends of jobs and
warps. What an end waits for is logs 31 and 39. -/
def Obligations.EndsOfWork : Prop := Claims.SafePoints ∧ Claims.Phases ∧ Claims.JobEnd ∧ Claims.Exits

/-- R123, R237, R254, R291, R303: a result returns to its registers. A load's data returns in any order; the results of the special
functions, of `vtos` and of chained forms return oldest first, once their cycle has come. A result that held its split lets it
go on when it is the last, and the warp is then settled. -/
def Sys2Proof.Claims.ResultsReturn : Prop :=
  (∀ (s : State) (r : Result), s.results.find? (fun y => y.id == r.id && y.kind == .load) = some r →
    (r.vw.map (·.1)).Nodup → ∃ t, exec (.loadDataReturn r.id) s = .next (if r.holds then settle t r.warp else t) ∧ Returned s t r) ∧
  ∀ (s : State) (i : Instr) (k : RKind) (r : Result), (i, k) ∈ [(Instr.sfuResult, RKind.sfu), (.vtosResult, .vtos), (.chainResultWrite, .chain)] →
    FirstDue s k r → (r.vw.map (·.1)).Nodup →
    ∃ t, exec i s = .next (if r.holds then settle t r.warp else t) ∧ Returned s t r

/-- R26, R132, R134-R137: a walk. Where the entry at the end is a leaf, the TLBs of the die and of every waiting core then translate the
page by it, with A set, and A is set in the entry's word, which alone changes in memory; where the walk meets an entry that stops
it, the splits and the engine operations that wait learn of the cause and of that entry, and no others. A walk of a context of unified mode
waits while the bridge stalls. -/
def Sys2Proof.Claims.PageWalks : Prop :=
  ∀ (s : State) (d : Fin 2) (i : Fin 64) (r : WalkReq), s.dies[d].walks[i.val]? = some r → r.page < 2 ^ 41 →
    let va := r.page * 2 ^ 16
    (walkStalled s r.ctx = true → exec (.pageWalk d i) s = .next s) ∧
    (walkStalled s r.ctx = false → ∃ t, exec (.pageWalk d i) s = .next t ∧ t.ctxs = s.ctxs ∧ t.units = s.units ∧
      (∀ y ∈ t.dies[d].walks, ¬ (y.ctx = r.ctx ∧ y.page = r.page)) ∧
      (∀ e, tlbFind s.dies[d].tlb r.ctx va = some e → t.mem = s.mem ∧ t.warps = s.warps ∧ ∀ k ∈ r.cores, tlbFind t.cores[k].tlb r.ctx va = some e) ∧
      (∀ a p level via, tlbFind s.dies[d].tlb r.ctx va = none → walk s d r.ctx va = .leaf a p level via → memoryOk s →
        let e : TlbEntry :=
          { ctx := r.ctx, base := va / pageSize level * pageSize level, size := pageSize level, pte := p ||| 0x8000#64, leafAt := a }
        tlbFind t.dies[d].tlb r.ctx va = some e ∧ (∀ k ∈ r.cores, tlbFind t.cores[k].tlb r.ctx va = some e) ∧ t.warps = s.warps ∧
        (pteA p = true → t.mem = s.mem) ∧ (pteA p = false → readWord t.mem a = p ||| 0x8000#64) ∧
        ∀ b, (b < a ∨ a + 8 ≤ b) → readByte t.mem b = readByte s.mem b) ∧
      (∀ cause p, tlbFind s.dies[d].tlb r.ctx va = none → walk s d r.ctx va = .stop cause p →
        let f : WalkFail := { ctx := r.ctx, page := r.page, cause := cause, pte := p }
        t.mem = s.mem ∧ t.cores = s.cores ∧
        (∀ (w : Warp) (n : Fin 8) (z : Split), findWarp s w.id = some w → w.splits[n] = some z → ∃ y, findWarp t w.id = some y ∧
          y.splits[n] = some (if (w.id, n) ∈ r.splits ∧ z.st = .blocked then { z with fails := f :: z.fails } else z)) ∧
        ∀ id g, (id, g) ∈ t.dies[d].engFails ↔ (id ∈ r.ops ∧ g = f) ∨ (id, g) ∈ s.dies[d].engFails))

/-- A translation of a context that a `tlbinv` of a range leaves: one of another context, or one outside the range; a length of zero
covers all (R372). -/
def Sys2Proof.Claims.outside (c : Fin 64) (lo len : Word) (e : TlbEntry) : Prop :=
  e.ctx = c → len ≠ 0 ∧ (e.base + e.size ≤ lo.toNat ∨ lo.toNat + len.toNat ≤ e.base)

/-- R26, R135, R337, R372: a `tlbinv` comes to its end once no access through a page that its range overlaps is outstanding and no line that
the context wrote waits for the bridge (that it writes the L1 back, and waits for its lines, is log 56): no TLB then holds a translation of the
context in the range, every other translation stays, no pointer entry of the context is cached, no failed walk of it is kept, and the handle is
done, or cancelled where that was asked. -/
def Sys2Proof.Claims.TlbinvEnds : Prop :=
  ∀ (s : State) (o : Maint) (lo len : Word), s.maints.find? (fun y => y.id == o.id) = some o → o.kind = .tlbinv lo len →
    (linkOutstanding s o.ctx lo.toNat len.toNat = true → exec (.tlbinvComplete o.id) s = .next s) ∧
    (linkOutstanding s o.ctx lo.toNat len.toNat = false →
      let u := cleanCores (tlbInvalidate s o.ctx lo.toNat len.toNat)
      let waits := ∃ k : Fin 384, l1Stalled u k (fun l => l.owner == some o.ctx) = true
      let calm := fun (w : Warp) => ({ w with splits := tabulate 8 fun k => w.splits[k].map fun (y : Split) => { y with fails := [] } } : Warp)
      ∃ t, exec (.tlbinvComplete o.id) s = .next t ∧ t.units = s.units ∧ t.warps.map calm = s.warps.map calm ∧
        (∀ w ∈ t.warps, w.ctx = o.ctx → ∀ (k : Fin 8) (z : Split), w.splits[k] = some z → z.fails = []) ∧
        (∀ w ∈ t.warps, w.ctx ≠ o.ctx → w ∈ s.warps) ∧
        (∀ (d : Fin 2) e, e ∈ t.dies[d].tlb ↔ e ∈ s.dies[d].tlb ∧ Claims.outside o.ctx lo len e) ∧
        (∀ (k : Fin 384) e, e ∈ t.cores[k].tlb ↔ e ∈ s.cores[k].tlb ∧ Claims.outside o.ctx lo len e) ∧
        (∀ (d : Fin 2), ∀ e ∈ t.dies[d].nodes, e.ctx ≠ o.ctx) ∧
        (waits → t = u) ∧
        (¬ waits → (∀ y ∈ t.maints, y.id ≠ o.id) ∧
          ∀ e, entryOf s.ctxs[o.ctx] o.handle = some e → e.st = .pending →
            ∃ f ∈ t.ctxs[o.ctx].handles, f.slot = e.slot ∧ f.st = if e.cancelReq then .cancelled else .done))

/-- A maintenance operation has come to its end: it stands in the list, about to take a final state. -/
def Sys2Proof.Claims.ending (t : State) (id : Nat) (st : HState) (cause : Nat) : Prop :=
  ∃ y ∈ t.maints, y.id = id ∧ ∃ f, y.ending = some (st, f) ∧ f.cause = cause

/-- R64, R65, R73, R374: an element of a `dirtyclr`. Its word of the bitmap, in package memory, reads zero afterwards; the next element
follows, and after the last the operation ends. With a buffer, the checks of the buffer come first, format before alignment, and the
word goes there before the element commits. A cancel takes effect before an element. -/
def Sys2Proof.Claims.DirtyWords : Prop :=
  ∀ (s : State) (o : Maint) (first count vb : Word), s.maints.find? (fun y => y.id == o.id) = some o → o.kind = .dirtyclr first count vb →
    maintActive s o = true → o.bad = none → o.old = none → o.ending = none → (s.maints.map (·.id)).Nodup →
    (cancelAsked s o.ctx o.handle = true → ∃ t, exec (.dirtyclrWord o.id) s = .next t ∧ t.mem = s.mem ∧ Claims.ending t o.id .cancelled 0) ∧
    (cancelAsked s o.ctx o.handle = false → count.toNat / 64 ≤ o.i →
      ∃ t, exec (.dirtyclrWord o.id) s = .next t ∧ t.mem = s.mem ∧ Claims.ending t o.id .done 0) ∧
    (cancelAsked s o.ctx o.handle = false → o.i < count.toNat / 64 → bitmapLook s o first = none → bitmapStalled s o first = false →
      (vb = 0 → memoryOk s →
        ∃ t, exec (.dirtyclrWord o.id) s = .next t ∧ readWord t.mem (bitmapWord s o first) = 0 ∧ t.warps = s.warps ∧
          (o.i + 1 < count.toNat / 64 → ∃ y ∈ t.maints, y.id = o.id ∧ y.i = o.i + 1 ∧ y.ending = none) ∧
          (count.toNat / 64 ≤ o.i + 1 → Claims.ending t o.id .done 0)) ∧
      (vb ≠ 0 →
        let q := maintCopy o vb
        let va := vb + BitVec.ofNat 64 (8 * o.i)
        let checks := fun (_ : State) (p : Word) => if pteFmt p ≠ 0 then some 7 else if va.toNat % 8 ≠ 0 then some 8 else none
        (∀ f u, engDest s q 0 va 8 checks = .bad f u → exec (.dirtyclrWord o.id) s = .next (failMaint u o f)) ∧
        ∀ p n u, engDest s q 0 va 8 checks = .ok p n u →
          ∀ m z, engWrite (clearWord u o first).2 q p 8 (clearWord u o first).1.toNat = .ok () m z →
            exec (.dirtyclrWord o.id) s = .next (commitMaint z o count)))

/-- R26, R39, R65, R126, R374: a `dirtyclr` that ends with nothing left to flush: once the writes marked in the words that it cleared are
performed, its handle takes the final state, or reads cancelled where that was asked; it is gone but for a resumable fault, after which it
keeps its place. -/
def Sys2Proof.Claims.DirtyEnds : Prop :=
  ∀ (s : State) (o : Maint) (first count vb : Word) (st : HState) (f : FaultInfo), s.maints.find? (fun y => y.id == o.id) = some o →
    o.kind = .dirtyclr first count vb → maintActive s o = true → o.bad = none → o.old = none → o.ending = some (st, f) → o.sysw = none →
    let f0 := 64 * (first.toNat / 64)
    let u := cleanFrames s f0 (64 * o.i)
    let end_ := if cancelAsked s o.ctx o.handle = true then HState.cancelled else st
    ((∃ k : Fin 384, l1Stalled u k (inFrames f0 (64 * o.i)) = true) → exec (.dirtyclrWord o.id) s = .next u) ∧
    ((∀ k : Fin 384, l1Stalled u k (inFrames f0 (64 * o.i)) = false) →
      ∃ t, exec (.dirtyclrWord o.id) s = .next t ∧ t.mem = u.mem ∧ HandleEnds s t o.ctx o.handle end_ ∧
        (¬ (end_ = .faulted ∧ resumable f.cause = true) → ∀ y ∈ t.maints, y.id ≠ o.id) ∧
        (end_ = .faulted → resumable f.cause = true → ∃ y ∈ t.maints, y.id = o.id ∧ y.faulted = true ∧ y.i = o.i))

/-- R26, R87-R90, R100: a `carve` completes once every unit of the core lies inside the new regions, no line of its L1 waits for the bridge
and its context does not halt (log 52): the core takes the word and the handle is done. -/
def Sys2Proof.Claims.CarveEnds : Prop :=
  ∀ (s : State) (o : CarveOp), s.carves.find? (fun y => y.core == o.core) = some o →
    let inside := ∀ u ∈ s.units, u.core = o.core → (u.st = .resident ∨ u.st = .retiring) → InsideRegions o.ppw u
    let halts := s.ctxs[o.ctx].st = .halting ∨ s.ctxs[o.ctx].st = .halted
    let stalls := l1Stalled s o.core (fun _ => true) = true
    (¬ inside ∨ halts ∨ stalls → exec (.carveComplete o.core) s = .next s) ∧
    (inside → ¬ halts → ¬ stalls → NothingLost s o.core →
      ∃ t, exec (.carveComplete o.core) s = .next t ∧ t.cores[o.core].ppw = o.ppw ∧ t.units = s.units ∧ t.warps = s.warps ∧
        (∀ k, k ≠ o.core → t.cores[k] = s.cores[k]) ∧ (∀ y ∈ t.carves, ¬ (y.ctx = o.ctx ∧ y.handle = o.handle)) ∧
        HandleEnds s t o.ctx o.handle .done)

/-- R94, R97, R126, R253, R328: a split is overdue after 15 cycles ready and not chosen; one that has issued 1,024 instructions of a
halting warp that has not reached a safe point takes cause 0x0013, which ends its context; a waiting `waitv` reads again after 1,024
cycles; a handler restarts a faulted operation of its unit or warp. -/
def Sys2Proof.Claims.WatchedSplits : Prop :=
  (∀ (s : State) (w : Warp) (sp : Fin 8) (x : Split), findWarp s w.id = some w → w.splits[sp] = some x →
    exec (.overdueSplit w.id sp) s = .next (modWarp s w.id fun y => modSplit y sp fun z => { z with overdue := z.overdue || decide (15 ≤ z.idle) }) ∧
    (w.halting = true → atSafePoint w = false → 1024 ≤ x.count → (s.warps.map (·.id)).Nodup →
      ∃ t, exec (.safePointDrought w.id sp) s = .next t ∧ t = settle (takeFault s w sp x.pc x.pc x.mask (faultOf 0x13)) w.id ∧
        ((s.ctxs[w.ctx].st = .running ∨ s.ctxs[w.ctx].st = .halting) → SlotFree s (coreDie w.core) →
          t.ctxs[w.ctx].st = .ended ∧ (∀ y ∈ t.warps, y.ctx ≠ w.ctx) ∧ (Hears s (homeDie s w.ctx) →
          Tells t (.completion (functionOf s w.ctx) s.ctxs[w.ctx].caddr (completionWord s.ctxs[w.ctx].seq 2 0x13) s.ctxs[w.ctx].vec.val)))) ∧
    (∀ o, standsAt s w sp x = some (.waitv o) → x.st = .blocked → x.timer ≠ 0 → x.timer + 1023 ≤ s.now →
      exec (.waitvReread w.id sp) s = .next (modWarp s w.id fun y => modSplit y sp fun z => { z with timer := 0 }))) ∧
  ∀ (s : State) (w : Warp) (h : BitVec 32) (e : HEntry), findWarp s w.id = some w → w.handler ≠ none → h ≠ 0 →
    entryOf s.ctxs[w.ctx] h = some e → e.owner = ownerOf w → e.st = .faulted → resumable e.cause = true →
    ∃ t, exec (.handlerRestart w.id h) s = .next t ∧ t.mem = s.mem ∧ t.warps = s.warps ∧
      (∃ f ∈ t.ctxs[w.ctx].handles, f.slot = e.slot ∧ f.st = .pending) ∧
      (∀ o ∈ t.copies, o.ctx = w.ctx → o.handle = h → o.faulted = false) ∧ (∀ o ∈ t.mops, o.ctx = w.ctx → o.handle = h → o.faulted = false) ∧
      ∀ o ∈ t.maints, o.ctx = w.ctx → o.handle = h → o.faulted = false

/-- R26, R65, R73, R87-R90, R94, R97, R123, R126, R132-R136, R237, R253, R254, R291, R303, R328, R337, R372, R374: results, walks, and the
ends of the operations of the system group. That a `tlbinv` writes lines back and waits for them is log 56, and that a `carve` waits while its
context halts or is halted is log 52. -/
def Obligations.ResultsWalksAndMaintenance : Prop :=
  Claims.ResultsReturn ∧ Claims.PageWalks ∧ Claims.TlbinvEnds ∧ Claims.DirtyWords ∧ Claims.DirtyEnds ∧ Claims.CarveEnds ∧ Claims.WatchedSplits

/-- A waiting unit comes before another: priority, then age, then index (R83). -/
def Sys2Proof.Claims.earlier (y z : Waiting) : Prop :=
  z.l.r.prio < y.l.r.prio ∨ (y.l.r.prio = z.l.r.prio ∧ (y.l.age < z.l.age ∨ (y.l.age = z.l.age ∧ y.index < z.index)))

/-- R82-R85, R106: of the units that wait, swapped out or not yet run, the Drover places the first in the order of priority, age and
index that a core can take: a swapped one on its former core where that can take it, and otherwise on the core with the fewest
resident warps, then on the job warp's die, then of the lowest number. Of a chained launch one unit waits at a time, and the unit to
dispatch only behind those swapped out. -/
def Sys2Proof.Claims.PlacementOrder : Prop :=
  (∀ (s : State) (d : Fin 2) (y : Waiting) (k : Fin 384), nextPlace s d = some (y, k) →
    (∀ b l z, s.ctxs[b].st = .running → homeDie s b = d → l ∈ s.ctxs[b].launches → z ∈ waitingOf s b l → Claims.earlier z y →
      coreFor s z = none) ∧
    k ∈ coresFor s y ∧ (roomOn s k y.l.r).isSome = true ∧
    (∀ u, y.unit = some u → u.core ∈ coresFor s y → k = u.core) ∧
    ((∀ u, y.unit = some u → u.core ∉ coresFor s y) → ∀ j ∈ coresFor s y, CoreBefore s (homeDie s y.ctx) k j)) ∧
  ∀ (s : State) (c : Fin 64) (l : Launch),
    (l.r.chain = false →
      (∀ u ∈ s.units, u.ctx = c → u.launch = l.id → u.st = .swapped → { ctx := c, l := l, index := u.index, unit := some u } ∈ waitingOf s c l) ∧
      ((l.st = .ready ∨ l.st = .running) → l.next < l.total → { ctx := c, l := l, index := l.next, unit := none } ∈ waitingOf s c l)) ∧
    (l.r.chain = true → (waitingOf s c l).length ≤ 1 ∧
      ∀ u ∈ s.units, u.ctx = c → u.launch = l.id → u.st = .swapped → ∃ y ∈ waitingOf s c l, y.unit ≠ none ∧ y.index ≤ u.index)

/-- R72, R79, R91, R92: the unit that is placed: its warps start at ENTRY with the lanes whose items exist, in the quadrant of their rank,
with empty scratch, tiles and engines and the launch's chain defaults; the launch runs, and its next unit follows. A core of the
other die than the Drover's is reached where the bridge carries (R85). -/
def Sys2Proof.Claims.UnitStarts : Prop :=
  ∀ (s : State) (c : Fin 64) (l : Launch) (k : Fin 384) (g : Granules),
    nextPlace s (homeDie s c) = some ({ ctx := c, l := l, index := l.next, unit := none }, k) →
    crossing s (homeDie s c) (coreDie k) = .free → roomOn s k l.r = some g → findLaunch s.ctxs[c] l.id = some l → NothingLost s k →
    ∃ t u ws, exec (.unitDispatch c) s = .next t ∧ t.units = s.units ++ [u] ∧ t.warps = s.warps ++ ws ∧
      (u.ctx = c ∧ u.launch = l.id ∧ u.index = l.next ∧ u.core = k ∧ u.st = .resident ∧ u.scratch = [] ∧ u.cdefs = l.cd.defs ∧ u.cancel = false) ∧
      (u.regs.toNat = g.regs % 2 ^ 1536 ∧ u.scr.toNat = g.scr % 2 ^ 1536 ∧ u.acc.toNat = g.acc % 2 ^ 1536) ∧
      (∀ a : Fin 8, u.tiles[a] = Tile.reset ∧ u.engs[a] = Eng.reset) ∧ (∀ b : Fin 16, u.bars[b] = { gen := 0, arr := 0 }) ∧
      t.cores[k].ppw = (if s.cores[k].ppw = l.r.ppw ∨ residents s k ≠ [] ∨ (∃ o ∈ s.carves, o.core = k) then s.cores[k].ppw else l.r.ppw) ∧
      findLaunch t.ctxs[c] l.id = some { l with st := .running, next := l.next + 1 } ∧
      ws.length = warpCount l.r l.next ∧ ∀ (rank : Nat) (w : Warp), ws[rank]? = some w →
        Starts w l.r.entry (launchedLanes l.r l.next rank) ∧ (∀ d, sreg w d = 0) ∧ w.kind = .unit u.id ∧ w.rank = rank ∧ w.ctx = c ∧ w.core = k ∧
        w.quad.val = rank % 4 ∧ w.vcount = 16 * l.r.vregs ∧
        ∀ j : Fin 32, (launchedLanes l.r l.next rank).getLsbD j.val = true ↔ (l.next * l.r.wpu + rank) * 32 + j.val < l.r.items

/-- R83: a unit that has been first for 65,536 cycles with no core to take it has a core reserved, of those that none is reserved on the
one with the fewest resident warps; only that unit goes there. -/
def Sys2Proof.Claims.Reservations : Prop :=
  (∀ (s : State) (c : Fin 64) (l u since : Nat), s.ctxs[c].resvUnit = some (l, u, since) → s.ctxs[c].st = .running →
    waitsCore s c l u = true → since + 65536 ≤ s.now → (∀ y ∈ s.ctxs[c].resvCore, ¬ (y.1 = l ∧ y.2.1 = u)) →
    (∃ k, usable s c k = true ∧ reservation s k = none) →
    ∃ k, exec (.dispatchReservation c) s = .next (modCtx s c fun x => { x with resvCore := x.resvCore ++ [(l, u, k)] }) ∧
      usable s c k = true ∧ reservation s k = none ∧
      ∀ j, usable s c j = true → reservation s j = none → warpLoad s k < warpLoad s j ∨ (warpLoad s k = warpLoad s j ∧ k ≤ j)) ∧
  ∀ (s : State) (y : Waiting) (k : Fin 384), k ∈ coresFor s y →
    usable s y.ctx k = true ∧ (reservation s k = none ∨ reservation s k = some (y.ctx, y.l.id, y.index))

/-- No other launch of a context has anything to be done by an examination: none is held, and none has a counter at zero. -/
def Sys2Proof.Claims.NoneDue (x : Ctx) : Prop := (x.launches.map (·.id)).Nodup ∧ ∀ l ∈ x.launches, l.st ≠ .held ∧ launchDue l = false

/-- R34, R39, R71, R79, R80, R85, R92: a unit whose counter is zero retires, and its Drover hears of it: its handles are free, its warps
and resources are gone, and its launch counts it. With the last of a launch the release of R79 is made, and the launch is then done,
with its SET events; where the release waits the launch does. -/
def Sys2Proof.Claims.UnitRetires : Prop :=
  ∀ (s : State) (u : UnitSt) (l : Launch), findUnit s u.id = some u → (u.st = .resident ∨ u.st = .retiring) → UnitDone s u →
    (∀ c n, s.cores[u.core].swap = some (c, n) → c ≠ u.ctx) → findLaunch s.ctxs[u.ctx] u.launch = some l →
    s.ctxs[u.ctx].st ≠ .halting → s.ctxs[u.ctx].st ≠ .halted → crossing s (coreDie u.core) (homeDie s u.ctx) = .free →
    l.st = .running → l.fin = false → Claims.NoneDue s.ctxs[u.ctx] →
    (l.retired + 1 ≠ l.total → ∃ t, exec (.unitRetire u.id) s = .next t ∧ t.mem = s.mem ∧
      findLaunch t.ctxs[u.ctx] u.launch = some { l with retired := l.retired + 1 } ∧
      (∀ e ∈ t.ctxs[u.ctx].handles, e.owner = .unit u.id → e.st = .free) ∧
      (l.r.chain = false → (∀ y ∈ t.units, y.id ≠ u.id) ∧ ∀ w ∈ t.warps, inUnit u.id w = false) ∧
      (l.r.chain = true → ∃ y, findUnit t u.id = some y ∧ y.st = .retired ∧ y.regs = 0 ∧ y.scr = 0 ∧ y.acc = 0)) ∧
    (l.retired + 1 = l.total →
      let v := readyLaunches (retireUnit (droverMessage s (coreDie u.core) (homeDie s u.ctx)) u) u.ctx
      let last := { l with retired := l.retired + 1 }
      (∀ o, releaseLaunch v u.ctx last = .ok o → l.cancel = false →
        ∃ t, exec (.unitRetire u.id) s = .next t ∧ (findLaunch t.ctxs[u.ctx] u.launch).map (·.st) = some .done ∧
          (∀ y ∈ t.units, y.ctx = u.ctx → y.launch ≠ u.launch) ∧ (∀ e, e < 256 → l.r.set.getLsbD e = true → t.ctxs[u.ctx].ev.getLsbD e = true)) ∧
      ∀ o, releaseLaunch v u.ctx last = .wait o → exec (.unitRetire u.id) s = .next o)

/-- R62, R75, R104, R251, R375: the first start of a die that may be served takes the lowest free warp slot of a dispatch core: a job warp
at ENTRY with ARG and SEQ in s1 and s2, a fault-service warp at SVEC with its slot, SEQ and the eight words of the record in s1 to
s10. Every other register is zero. The core is the one with the fewest such warps of those with a slot free; which of its slots is the
model's choice (log 50). -/
def Sys2Proof.Claims.DispatchStarts : Prop :=
  (∀ (s : State) (d : Fin 2) (c : Fin 64) (k : Fin 384) (i : Fin 16), nextStart s d = some (.job c) → dispatchPlace s d = some (k, i) →
    ∃ t w, exec (.jobWarpStart d) s = .next t ∧ t.warps = s.warps ++ [w] ∧ Starts w s.ctxs[c].jobEntry (BitVec.allOnes 32) ∧
      w.kind = .job ∧ w.ctx = c ∧ w.core = k ∧ w.sub = some i ∧ w.vcount = 256 ∧ sreg w 1 = s.ctxs[c].jobArg ∧
      (sreg w 2).toNat = s.ctxs[c].seq.toNat ∧ (∀ q : Fin 128, 3 ≤ q.val → sreg w q = 0) ∧ t.ctxs[c].jobWait = false ∧ t.mem = s.mem ∧
      t.starts[d] = s.starts[d].erase (.job c)) ∧
  (∀ (s : State) (d : Fin 2) (c : Fin 64) (slot : Nat) (r : SlotRec) (k : Fin 384) (i : Fin 16), nextStart s d = some (.service c slot) →
    dispatchPlace s d = some (k, i) → s.dies[d].slots.find? (fun y => y.slot == slot) = some r →
    ∃ t w, exec (.faultServiceStart d) s = .next t ∧ t.warps = s.warps ++ [w] ∧ Starts w s.ctxs[c].svec (BitVec.allOnes 32) ∧
      w.kind = .service d (some slot) ∧ w.ctx = c ∧ w.core = k ∧ w.sub = some i ∧ sreg w 1 = BitVec.ofNat 64 slot ∧
      (sreg w 2).toNat = s.ctxs[c].seq.toNat ∧ (∀ j : Fin 8, sreg w (Fin.ofNat 128 (3 + j.val)) = r.words.getD j.val 0) ∧
      (∀ q : Fin 128, 11 ≤ q.val → sreg w q = 0) ∧ t.mem = s.mem) ∧
  ∀ (s : State) (d : Fin 2) (k : Fin 384) (i : Fin 16), dispatchPlace s d = some (k, i) →
    s.dies[d].dstate = .online ∧ k ∈ dispatchCores s d ∧ (∀ w ∈ s.warps, holdsSlot k w = true → w.sub ≠ some i) ∧
    (∀ j : Fin 16, j < i → ∃ w ∈ s.warps, holdsSlot k w = true ∧ w.sub = some j) ∧
    ∀ j ∈ dispatchCores s d, (freeSub s j).isSome = true → dispatchLoad s k ≤ dispatchLoad s j

/-- R34, R39, R62, R71-R92, R104, R106, R251: the Drover. That one order runs over the units of all running contexts, swapped out or not yet
run, and which chained launch comes first, is log 51; reservations among cores that none is reserved on, and per unit, are logs 51 and 63; that a
core where a `carve` waits adopts no word is log 52. -/
def Obligations.Drover : Prop :=
  Claims.PlacementOrder ∧ Claims.UnitStarts ∧ Claims.Reservations ∧ Claims.UnitRetires ∧ Claims.DispatchStarts

/-- A core's part of a halt may begin (R101): the context halts, its warps on the core have halted, their operations have drained, no swap
is under way, no line of L1 waits for the bridge, and no word of a live set is on its way. -/
structure Sys2Proof.Claims.SwapReady (s : State) (k : Fin 384) (c : Fin 64) : Prop where
  halting : s.ctxs[c].st = .halting
  free : s.cores[k].swap = none
  some_ : unitsOn s c k ≠ [] ∨ warpsOn s c k ≠ []
  safe : ∀ w ∈ warpsOn s c k, warpSafe s w = true ∧ quietWaits s w = false
  drained : drained s c k = true
  lines : l1Stalled s k (fun _ => true) = false

/-- R96, R99, R101-R105: the swap of a core begins once the context halts and every warp of it there is at a safe point, with its
operations drained, the live sets read and the slot free: the core's L1 is written back and empty, and its warps count as halted. A
warp with a split at a blocking instruction or parked keeps every register; otherwise a register keeps its value or is zero, and the trap
reserve keeps its own. The slot holds the core's word and the units' control images in the order of their placement, one after the other
from the place that the shared ways leave. Words of a live set that lie in a window are read over its link first, and a stall of the bridge
is waited for. The swap ends when its cycle comes: the units are swapped, and a context with nothing left is halted, and the host is told. -/
def Sys2Proof.Claims.CoreSwaps : Prop :=
  (∀ (s : State) (k : Fin 384) (c : Fin 64), Claims.SwapReady s k c → (∀ w ∈ warpsOn s c k, w.ended = true ∨ ∀ ls, savedSet s w ≠ .need ls) →
    (s.cores[k].slot = none ∨ ∃ z, s.cores[k].slot = some z ∧ z.ctx = c) → NothingLost s k → (s.warps.map (·.id)).Nodup →
    ∃ t due, exec (.coreSwapStart k c) s = .next t ∧ t.cores[k].swap = some (c, due) ∧ s.now ≤ due ∧ t.cores[k].l1 = [] ∧
      (unitsOn s c k = [] → t.cores[k].slot = s.cores[k].slot) ∧
      (unitsOn s c k ≠ [] → ∃ z, t.cores[k].slot = some z ∧ z.ctx = c ∧ z.word = s.cores[k].ppw ∧
        (∃ us : List UnitSt, us.Perm (unitsOn s c k) ∧ us.Pairwise (fun a b => a.placed ≤ b.placed) ∧ z.images.map (·.1) = us.map (·.id)) ∧
        (∀ i, z.images[0]? = some i → i.2.1 = 16 * (96 - l1Ways s.cores[k].ppw)) ∧
        ∀ (j : Nat) (i i' : Nat × Nat × Nat), z.images[j]? = some i → z.images[j + 1]? = some i' → i'.2.1 = i.2.1 + i.2.2) ∧
      t.units.map (fun u => { u with unsaved := 0 }) = s.units.map (fun u => { u with unsaved := 0 }) ∧
      ∀ w ∈ warpsOn s c k, ∃ y, findWarp t w.id = some y ∧ y.halted = true ∧ y.p = w.p ∧ y.h = w.h ∧ y.splits = w.splits ∧
        y.rstack = w.rstack ∧ (∀ d l, vreg y d l = vreg w d l ∨ vreg y d l = 0) ∧ (∀ d, sreg y d = sreg w d ∨ sreg y d = 0) ∧
        (∀ d : Fin 256, w.vcount ≤ d.val + (reserveOf s w).1 → d.val < w.vcount → ∀ l, vreg y d l = vreg w d l) ∧
        (∀ d : Fin 128, 128 ≤ d.val + (reserveOf s w).2 → sreg y d = sreg w d) ∧
        ((∃ z ∈ validSplits w, z.2.stop = .blocking ∨ z.2.stop = .no) → (∀ d l, vreg y d l = vreg w d l) ∧ ∀ d, sreg y d = sreg w d)) ∧
  (∀ (s : State) (k : Fin 384) (c : Fin 64) (w : Warp) (ls : List LinkOp) (ws : List Warp), Claims.SwapReady s k c →
    warpsOn s c k = w :: ws → w.ended = false → savedSet s w = .need ls → exec (.coreSwapStart k c) s = .next (askQuiet s w ls)) ∧
  ∀ (s : State) (k : Fin 384) (c : Fin 64) (due : Nat), s.cores[k].swap = some (c, due) → due ≤ s.now →
    let u := { modCore s k (fun x => { x with swap := none }) with units := s.units.map fun u =>
      if u.ctx = c ∧ u.core = k ∧ (u.st = .resident ∨ u.st = .retiring) then { u with st := .swapped } else u }
    (∀ a ∈ s.units, ∀ b ∈ s.units, a.id = b.id → a = b) →
    (haltComplete u c = false → exec (.coreSwapDone k c) s = .next u) ∧
    (haltComplete u c = true → exec (.coreSwapDone k c) s =
      .next (toHostFor (modCtx u c fun x => { x with st := .halted }) { die := homeDie s c, owner := some c, msg := .msix 0 62 }))

/-- R102, R105: a core whose slot holds another halted context with an IMAGE gives it up to the swap: that context's units are spilled, and
stand in its image; with no IMAGE the halt waits. -/
def Sys2Proof.Claims.SlotSpills : Prop :=
  ∀ (s : State) (k : Fin 384) (c : Fin 64) (z : Shadow), Claims.SwapReady s k c → (∀ w ∈ warpsOn s c k, w.ended = true ∨ ∀ ls, savedSet s w ≠ .need ls) →
    unitsOn s c k ≠ [] → s.cores[k].slot = some z → z.ctx ≠ c → s.ctxs[z.ctx].st = .halted →
    (s.ctxs[z.ctx].image = 0 → exec (.coreSwapStart k c) s = .next s) ∧
    (s.ctxs[z.ctx].image ≠ 0 → s.ctxs[z.ctx].spilled = false → s.bridge.down = false → NothingLost s k →
      ∃ t y, exec (.coreSwapStart k c) s = .next t ∧ t.cores[k].slot = some y ∧ y.ctx = c ∧ t.ctxs[z.ctx].spilled = true ∧
        (∀ u ∈ t.units, ¬ (u.ctx = z.ctx ∧ u.st = .swapped)) ∧
        ∃ i ∈ t.images, i.pa = s.ctxs[z.ctx].image.toNat ∧ ∀ u ∈ s.units, u.ctx = z.ctx → u ∈ i.snap.units)

/-- A warp at which settling finds nothing to do (R117, R118): no split parks, no record is released, and it neither is in a rejoin deadlock nor
ends. -/
structure Sys2Proof.Claims.AtRest (w : Warp) : Prop where
  parked : ∀ y ∈ validSplits w, parks w y.1 y.2 = false
  records : ∀ (r : Fin 16) (x : Rejoin), w.recs[r] = some x → releasable w r x = false
  goes : deadlocked w = none
  lives : w.live ≠ 0 ∨ w.ended = true

/-- Each halted warp of a context rests once it goes on where it halted: none of its splits halted at its rejoin point (R376). -/
abbrev Sys2Proof.Claims.WakesToRest (s : State) (c : Fin 64) : Prop :=
  (s.warps.map (·.id)).Nodup ∧ ∀ w ∈ s.warps, w.ctx = c → w.halted = true → Claims.AtRest (wakeWarp w)

/-- R75, R84, R102, R106, R107: the swapped unit that the home Drover's order puts first, among all that wait, returns to the core that can
take it, with its warps as they were, going on where they halted once the move has taken its time; once none is left that can return,
the job and fault-service warps that have a warp slot go on. A warp that halted at its rejoin point parks there as it goes on (R117, R376);
the others find nothing to settle. -/
def Sys2Proof.Claims.UnitsReturn : Prop :=
  (∀ (s : State) (c : Fin 64) (u : UnitSt) (y : Waiting) (k : Fin 384) (g : Granules), (s.ctxs[c].st = .running ∨ s.ctxs[c].st = .idle) →
    allReturned s c = false → nextPlace s (homeDie s c) = some (y, k) → y.ctx = c → y.unit = some u → roomOn s k y.l.r = some g →
    crossing s (homeDie s c) (coreDie k) = .free → findUnit s u.id = some u → u.ctx = c → NothingLost s k →
    Claims.WakesToRest s c → (∀ w ∈ s.warps, inUnit u.id w = true → w.ctx = c ∧ w.halted = true) →
    ∃ t z, exec (.unitRestore c) s = .next t ∧ findUnit t u.id = some z ∧
      z = { u with core := k, st := z.st, since := z.since, placed := s.serial, regs := BitVec.ofNat 1536 g.regs, scr := BitVec.ofNat 1536 g.scr
                   acc := BitVec.ofNat 1536 g.acc } ∧
      (z.st = .resident ∨ z.st = .retiring) ∧ s.now ≤ z.since ∧
      ∀ id w, findWarp s id = some w → inUnit u.id w = true → ∃ v, findWarp t id = some v ∧ v.core = k ∧ v.halting = false ∧ v.halted = false ∧
        (v.v, v.s, v.p, v.h, v.live, v.rstack) = (w.v, w.s, w.p, w.h, w.live, w.rstack) ∧
        ∀ (j : Fin 8) (z : Split), w.splits[j] = some z → v.splits[j] = some { z with stop := .no, count := 0, wtimer := 0, ewait := none }) ∧
  (∀ (s : State) (c : Fin 64), allReturned s c = true ↔ ∀ l ∈ s.ctxs[c].launches, ∀ y ∈ waitingOf s c l, y.unit ≠ none → coreFor s y = none) ∧
  (∀ (w : Warp) (s : State), findWarp s w.id = some w → Claims.AtRest w → settle s w.id = modWarp s w.id fun _ => w) ∧
  ∀ (s : State) (c : Fin 64), (s.ctxs[c].st = .running ∨ s.ctxs[c].st = .idle) → allReturned s c = true → Claims.WakesToRest s c →
    ∃ t, exec (.unitRestore c) s = .next t ∧ t.mem = s.mem ∧ t.units = s.units ∧
      ∀ w ∈ t.warps, w.ctx = c → onDispatch w = true → w.sub ≠ none → w.halted = false

/-- R75, R84, R96, R99, R101-R107: the swap of a core to shadow storage and the return of units. -/
def Obligations.SwapAndRestore : Prop := Claims.CoreSwaps ∧ Claims.SlotSpills ∧ Claims.UnitsReturn

/-- R28, R43-R49, R53: power-on, and a reset that the driver asks for. Nothing of a job is left; a power-on leaves no byte of package memory
listed, a reset keeps memory (the model's choice, log 4); each die starts, cold at power-on, and cold starts train the bridge. Without the
host link no driver asks for a reset. What START, TRIP and RR read after a start that fails or ends in the recovery image or the ROM is the
model's choice (log 66), and so is that such a die is called die-offline (log 5) and when the recovery image is due (log 18). -/
def Sys2Proof.Claims.PackageStarts : Prop :=
  ∀ (s : State) (f0 f1 : StartFacts),
    let from0 := s.dies[(0 : Fin 2)]
    let from1 := s.dies[(1 : Fin 2)]
    (f0.ready = true → f1.ready = true →
      (∃ t, exec (.powerOn f0 f1) s = .next t ∧ Emptied t ∧ t.mem = [] ∧ t.bad = [] ∧ t.host.up = true ∧
        StartOutcome 0 from0 t.dies[(0 : Fin 2)] true f0 .online ∧ StartOutcome 1 from1 t.dies[(1 : Fin 2)] true f1 .online ∧
        BridgeTrained s t [(from0, true, f0), (from1, true, f1)]) ∧
      ∀ cold, s.host.up = true → ∃ t, exec (.resetRequest cold f0 f1) s = .next t ∧ Emptied t ∧ t.mem = s.mem ∧
        StartOutcome 0 from0 t.dies[(0 : Fin 2)] cold f0 .online ∧ StartOutcome 1 from1 t.dies[(1 : Fin 2)] cold f1 .online ∧
        BridgeTrained s t [(from0, cold, f0), (from1, cold, f1)]) ∧
    (∀ cold, s.host.up = false → exec (.resetRequest cold f0 f1) s = .next s) ∧
    (f0.ready = false → ∃ t, exec (.powerOn f0 f1) s = .next t ∧ t.dies[(0 : Fin 2)].starting = some (.cold, s.now) ∧
      t.dies[(0 : Fin 2)].fails = s.dies[(0 : Fin 2)].fails)

/-- R46, R48: a start that is not ready in time fails. That START then reads the kind of the start that failed is the model's choice
(log 66). -/
def Sys2Proof.Claims.StartTimeouts : Prop :=
  ∀ (s : State) (d : Fin 2) (k : StartKind) (n : Nat), s.dies[d].starting = some (k, n) →
    ∃ t, exec (.startTimeout d) s = .next t ∧ sameWork s t ∧ t.dies[d].starting = none ∧ t.dies[d].start = k ∧
      t.dies[d].fails.val = min 3 (s.dies[d].fails.val + 1)

/-- R44, R45: an SPDM request is answered with the certificate chain, the measurement registers of die 0 by index, those of die 1 but while
it is die-offline and does not start, and a signature over them; nothing else changes. That the registers of die 1 are returned while
the bridge is down is the model's choice (log 12). -/
def Sys2Proof.Claims.Measurements : Prop :=
  ∀ (s : State), s.host.up = true →
    let m := fun (d : Fin 2) => (List.finRange 8).map fun i => s.dies[d].meas[i]
    let numbered := fun (from_ : Nat) (ms : List (BitVec 384)) => ms.zipIdx.map fun p => (from_ + p.2, p.1)
    let gone := s.dies[(1 : Fin 2)].dstate = .dieOffline ∧ s.dies[(1 : Fin 2)].starting = none
    (gone → exec .spdmRequest s = .next { s with
      hostOut := s.hostOut ++ [.spdm Config.certChain (numbered 1 (m 0)) (Config.signP384 (m 0))] }) ∧
    (¬ gone → exec .spdmRequest s = .next { s with
      hostOut := s.hostOut ++ [.spdm Config.certChain (numbered 1 (m 0) ++ numbered 9 (m 1)) (Config.signP384 (m 0 ++ m 1))] })

/-- R50-R53: an error is counted, up to the largest count, and the driver hears of the change by vector 63. The third corrected error of a place
within 24 hours, and any uncorrectable one, retires the resource; that an uncorrectable error without a consumer, which R52 only counts, does so
too is the model's choice (log 62). A corrected one changes no visible state; of an uncorrectable one in memory, or in a line of L1, the
data stays in error; one that is consumed takes cause 0x0014 and ends the context; what the scrubber finds is taken one after the other. -/
def Sys2Proof.Claims.Errors : Prop :=
  (∀ (s : State) (d : Fin 2) (loc : ErrLoc) (hour : Nat),
    let n := (s.dies[d].errLog.filter fun e => e.1 == loc && decide (hour < e.2 + 24)).length
    ∃ t, exec (.correctedError d loc hour) s = .next t ∧ sameWork s t ∧
      t.dies[d].corr.toNat = min (2 ^ 64 - 1) (s.dies[d].corr.toNat + 1) ∧ t.dies[d].uncorr = s.dies[d].uncorr ∧
      (s.dies[d].corr ≠ BitVec.allOnes 64 → Hears s d → Tells t (.msix 0 63)) ∧
      (2 ≤ n → Retired s t d loc.res) ∧ (n < 2 → NoneRetired s t d)) ∧
  (∀ (s : State) (d : Fin 2) (loc : ErrLoc),
    ∃ t, exec (.uncorrectableError d loc .nobody) s = .next t ∧ sameWork { s with cores := t.cores } t ∧
      ((∀ c, loc.res ≠ .core c) → t.cores = s.cores) ∧
      (∀ c, loc.res = .core c → let k := coreAt d c.val
        (∀ j, j ≠ k → t.cores[j] = s.cores[j]) ∧ ∀ l ∈ s.cores[k].l1, l.line = loc.place / 4 → l.valid.getLsbD (loc.place % 4) = true →
          ∃ m ∈ t.cores[k].l1, m.poison.getLsbD (loc.place % 4) = true ∧
            (m.line, m.data, m.dirty, m.valid) = (l.line, l.data, l.dirty, l.valid)) ∧
      t.dies[d].uncorr.toNat = min (2 ^ 64 - 1) (s.dies[d].uncorr.toNat + 1) ∧ Retired s t d loc.res ∧
      ((∃ sl way, loc.res = .l2way sl way) ∨ (∃ k pc, loc.res = .channel k pc) → loc.place ∈ t.bad)) ∧
  (∀ (s : State) (d : Fin 2) (loc : ErrLoc) (w : Warp) (sp : Fin 8) (x : Split) (lane : Fin 32) (va : Word), findWarp s w.id = some w →
    w.splits[sp] = some x → s.ctxs[w.ctx].st = .running → SlotFree s (coreDie w.core) →
    ∃ t, exec (.uncorrectableError d loc (.warp w.id sp lane va)) s = .next t ∧ t.ctxs[w.ctx].st = .ended ∧ (∀ y ∈ t.warps, y.ctx ≠ w.ctx) ∧
      t.dies[d].uncorr.toNat = min (2 ^ 64 - 1) (s.dies[d].uncorr.toNat + 1)) ∧
  (∀ (s : State) (d : Fin 2) (loc : ErrLoc) (o : CopyOp) (va : Word), s.copies.find? (fun y => y.id == o.id) = some o →
    s.ctxs[o.ctx].st = .running → SlotFree s (engDie o) →
    ∃ t, exec (.uncorrectableError d loc (.copy o.id va)) s = .next t ∧ t.ctxs[o.ctx].st = .ended ∧ (∀ y ∈ t.warps, y.ctx ≠ o.ctx) ∧
      t.dies[d].uncorr.toNat = min (2 ^ 64 - 1) (s.dies[d].uncorr.toNat + 1)) ∧
  ∀ (s : State) (d : Fin 2) (loc : ErrLoc) (fixed bad : List ErrLoc) (hour : Nat),
    exec (.patrolScrub d [] [] hour) s = .next s ∧
    (∀ t, exec (.correctedError d loc hour) s = .next t →
      exec (.patrolScrub d (loc :: fixed) bad hour) s = exec (.patrolScrub d fixed bad hour) t) ∧
    ∀ t, exec (.uncorrectableError d loc .nobody) s = .next t →
      exec (.patrolScrub d [] (loc :: bad) hour) s = exec (.patrolScrub d [] bad hour) t

/-- R18, R22, R23: a budget window, an overshoot and the temperatures change term clocks and refresh rates, and no register, memory or
context. A die over its budget, and one that is throttled for its temperature, has its clocks lowered, and that lasts while it is too
hot. The size of a step is the model's choice, and so is that a doubled refresh rate stays (log 68). -/
def Sys2Proof.Claims.Power : Prop :=
  (∀ (s : State) (avg : PowerAvg) (clk0 clk1 : List (BitVec 8)),
    let tooMuch := fun (own : Nat) => 1250000 < own ∨ 1000000 < avg.hbm ∨ 500000 < avg.rest ∨ 4000000 < avg.die0 + avg.die1 + avg.hbm + avg.rest
    ∃ t, exec (.powerBudgetWindow avg clk0 clk1) s = .next t ∧ sameWork s t ∧
      ClocksSet s.dies[(0 : Fin 2)] t.dies[(0 : Fin 2)] (tooMuch avg.die0 ∨ avg.hot0 = true) ∧
      ClocksSet s.dies[(1 : Fin 2)] t.dies[(1 : Fin 2)] (tooMuch avg.die1 ∨ avg.hot1 = true)) ∧
  (∀ (s : State) (d : Fin 2) (stack : Fin 12) (clk : List (BitVec 8)),
    (∀ i ∈ [Instr.overshootLimit d clk, .junctionOver100 d clk], ∃ t, exec i s = .next t ∧ sameWork s t ∧
      ClocksSet s.dies[d] t.dies[d] True ∧ t.dies[d].refresh2x = s.dies[d].refresh2x ∧ t.dies[otherDie d] = s.dies[otherDie d]) ∧
    (∃ t, exec (.hbmOver85 d stack) s = .next t ∧ sameWork s t ∧ t.dies[d].clock = s.dies[d].clock ∧ t.dies[otherDie d] = s.dies[otherDie d] ∧
      ∀ j, j < 12 → (t.dies[d].refresh2x.getLsbD j = true ↔ s.dies[d].refresh2x.getLsbD j = true ∨ j = stack.val)) ∧
    ∃ t, exec (.hbmOver95 d stack clk) s = .next t ∧ sameWork s t ∧ ClocksSet s.dies[d] t.dies[d] True ∧ t.dies[otherDie d] = s.dies[otherDie d] ∧
      ∀ j, j < 12 → (t.dies[d].refresh2x.getLsbD j = true ↔ s.dies[d].refresh2x.getLsbD j = true ∨ j = stack.val))

/-- R17, R19, R23, R44, R53: after a thermal trip all contexts are lost, every island but the always-on ones is off, TRIP and RR are set, the
measurements stand, and the host link is down. -/
def Sys2Proof.Claims.ThermalTrips : Prop :=
  ∀ (s : State), ∃ t, exec .thermalTrip s = .next t ∧ Emptied t ∧ t.host.up = false ∧ .linkDown ∈ t.hostOut ∧
    ∀ d : Fin 2, t.dies[d].trip = true ∧ t.dies[d].rr = true ∧ t.dies[d].dstate = .dieOffline ∧ t.dies[d].meas = s.dies[d].meas ∧
      ∀ k : Fin 16, t.dies[d].islands[k] = if k.val = 15 then .on else .off

/-- R17, R19-R21, R177: the states of a die, at the driver's request. An online die goes cores-offline unless a context has a core on it, and
then no copy of a line lies across the bridge; a cores-offline one goes online, or, where it is die 1, die-offline, with every operation of its
copy engines finished; a die-offline one comes back by a start of its own. The dies wait while the bridge stalls. That an idle or halted context
counts as having a core is the model's choice (log 69), and so is that a bring-up measures the die anew (log 72). -/
def Sys2Proof.Claims.DieStates : Prop :=
  ∀ (s : State) (d : Fin 2), HostServed s →
    let held := ∃ c : Fin 64, s.ctxs[c].st ≠ .free ∧ s.ctxs[c].st ≠ .ended ∧
      (((s.ctxs[c].mode = false ∨ s.ctxs[c].die = d) ∧ (if d = 0 then (partOfCtx s c).isl0 else (partOfCtx s c).isl1) ≠ 0) ∨
        ∃ w ∈ s.warps, w.ctx = c ∧ onDispatch w = true ∧ coreDie w.core = d)
    let busy := fun (u : State) => ∃ o ∈ u.copies, engDie o = d ∧ copyHere u o = true
    let closed := fun (t : State) => t.dies[d].dstate = .dieOffline ∧ t.dies[d].closing = false ∧ t.mem = s.mem ∧ t.ctxs = s.ctxs ∧
      t.copies = s.copies ∧ (∀ k : Fin 16, t.dies[d].islands[k] = if k.val = 15 then .on else .off) ∧ t.dies[d].l2 = [] ∧ t.dies[d].tlb = [] ∧
      t.dies[d].nodes = [] ∧ (∀ line, holderOf t line = dieOf (line * 256)) ∧ Tells t (.hotplug false)
    (s.dies[d].dstate = .online →
      (held → exec (.coresOfflineRequest d) s = .next (toHost s (.refused "partition present"))) ∧
      (¬ held → crossing s 0 1 = .stalled → exec (.coresOfflineRequest d) s = .next { s with inbox := .coresOfflineRequest d :: s.inbox }) ∧
      (¬ held → crossing s 0 1 = .free → AllReach s → ∃ t, exec (.coresOfflineRequest d) s = .next t ∧ t.dies[d].dstate = .coresOffline ∧
        (∀ k : Fin 16, k.val < 12 → t.dies[d].islands[k] ≠ .on) ∧ (∀ k : Fin 16, 12 ≤ k.val → t.dies[d].islands[k] = .on) ∧ t.ctxs = s.ctxs ∧
        (∀ j : Fin 384, coreDie j = d → t.cores[j].l1 = [] ∧ t.cores[j].tlb = []) ∧ ∀ (x : Fin 2), ∀ e ∈ t.dies[x].l2, holderOf t e.line = x)) ∧
    (s.dies[d].dstate = .coresOffline → s.dies[d].closing = false →
      (AllReach s → ∃ t, exec (.onlineRequest d) s = .next t ∧ t.dies[d].dstate = .online ∧ (∀ k : Fin 16, t.dies[d].islands[k] = .on) ∧
        t.ctxs = s.ctxs) ∧
      (d = 0 → exec (.dieOfflineRequest d) s = .next (toHost s (.refused "host die"))) ∧
      (d = 1 → busy s → exec (.dieOfflineRequest d) s = .next (modDie s d fun x => { x with closing := true })) ∧
      (d = 1 → ¬ busy s → ∃ t, exec (.dieOfflineRequest d) s = .next t ∧ closed t)) ∧
    (d = 1 → s.dies[d].closing = true → (busy s → closeOn s d = s) ∧ (¬ busy s → closed (closeOn s d))) ∧
    (s.dies[d].dstate = .dieOffline → ∀ f : StartFacts, f.ready = true → ∃ t, exec (.bringUpRequest d f) s = .next t ∧ t.mem = s.mem ∧
      t.ctxs = s.ctxs ∧ t.warps = s.warps ∧ StartOutcome d s.dies[d] t.dies[d] false f .coresOffline ∧
      BridgeTrained s t [(s.dies[d], false, f)] ∧
      (startGood s.dies[d] false f → Tells t (.hotplug true)))

/-- R17-R23, R43-R53: starts, measurements, errors, power and temperature, and the states of a die. The model's choices among them: what a
reset keeps (log 4), the state of a die that has not come up (log 5), measurements over a bridge that is down (log 12), when the recovery
image is due (log 18), what an error without a consumer retires (log 62), what a start that fails leaves (log 66), the clocks (log 68), which
contexts keep a die online (log 69), and what a bring-up measures (log 72). -/
def Obligations.StartsAndHealth : Prop :=
  Claims.PackageStarts ∧ Claims.StartTimeouts ∧ Claims.Measurements ∧ Claims.Errors ∧ Claims.Power ∧ Claims.ThermalTrips ∧ Claims.DieStates

/-- R25-R27, R149: the bridge. A packet arrives whole, after those of its source and destination sent before it, and waits for its
acknowledgement; a replay of one that arrived does nothing more. An error or a good retrain replays what is not acknowledged, and what waited
for the bridge goes on; a lane with no spare retires its module on both dies. Of the packets only an invalidation has its effect where it
arrives (log 16). -/
def Sys2Proof.Claims.BridgeTraffic : Prop :=
  (∀ (s : State) (i : Nat) (p : Packet), s.bridge.queue[i]? = some p →
    (MayArrive s.bridge i p → ∃ t, exec (.bridgePacket i) s = .next t ∧ sameWork s t ∧ t.bridge.queue = s.bridge.queue.eraseIdx i ∧
      t.bridge.replay = s.bridge.replay ++ [p] ∧ ((p.again = true ∨ ∀ sector owner, p.body ≠ .inval sector owner) → t.dies = s.dies) ∧
      (∀ sector owner, p.body = .inval sector owner → p.again = false → (∀ d : Fin 2, (s.dies[d].l2.map (·.line)).Nodup) →
        ∀ (d : Fin 2) k, l2State t d k = if d ≠ p.dir ∧ k = sector then none else l2State s d k)) ∧
    (¬ MayArrive s.bridge i p → exec (.bridgePacket i) s = .next s)) ∧
  (∀ (s : State) (dir : Fin 2) (seq : Nat),
    let b := { s.bridge with replay := s.bridge.replay.filter fun p => !(p.dir == dir && decide (p.seq + p.flits ≤ seq)) }
    let freed := bridgeStalled s.bridge = true ∧ bridgeStalled b = false
    (¬ freed ∨ (s.host.held = [] ∧ s.host.owed = []) → exec (.bridgeAcknowledge dir seq) s = .next { s with bridge := b }) ∧
    (freed → s.bridge.down = false → ∃ t, exec (.bridgeAcknowledge dir seq) s = .next t ∧ sameWork s t ∧
      ∀ y ∈ s.host.held ++ s.host.owed, Tells t y.msg) ∧
    ∃ t, exec (.bridgeFlitError dir) s = .next t ∧ sameWork s t ∧ t.bridge.queue = replaysOf s.bridge dir ++ s.bridge.queue ∧
      t.bridge.replay = s.bridge.replay.filter fun p => p.dir != dir) ∧
  (∀ (s : State), s.bridge.down = false →
    (∃ t, exec (.bridgeRetrain true) s = .next t ∧ sameWork s t ∧ t.bridge.retrain = none ∧ t.bridge.attempts = 0 ∧
      replaysOf s.bridge 1 ++ (replaysOf s.bridge 0 ++ s.bridge.queue) <+: t.bridge.queue ∧
      ((∀ x ∈ s.host.held ++ s.host.owed, x.die = 0) → t.bridge.replay = [] ∧
        t.bridge.queue = replaysOf s.bridge 1 ++ (replaysOf s.bridge 0 ++ s.bridge.queue)) ∧
      ∀ y ∈ s.host.held ++ s.host.owed, Tells t y.msg) ∧
    ∃ t, exec (.bridgeRetrain false) s = .next t ∧ sameWork s t ∧ t.bridge.attempts = s.bridge.attempts + 1 ∧ t.bridge.retrain ≠ none ∧
      t.bridge.queue = s.bridge.queue ∧ t.bridge.replay = s.bridge.replay) ∧
  (∀ (s : State) (ok : Bool), s.bridge.down = true → exec (.bridgeRetrain ok) s = .next s) ∧
  ∀ (s : State) (d : Fin 2) (module : Fin 96), exec (.bridgeLaneFailure d module true) s = .next s ∧
    ∃ t, exec (.bridgeLaneFailure d module false) s = .next t ∧ sameWork s t ∧ ∀ e : Fin 2, t.dies[e].rr = true ∧
      ∀ j, j < 96 → (t.dies[e].modules.getLsbD j = true ↔ s.dies[e].modules.getLsbD j = true ∧ j ≠ module.val)

/-- R27, R35, R42: after 64 failed attempts the bridge is down. A context whose packet waited to cross, an invalidation or a message to the host,
takes cause 0x0014 and ends once its record has a slot; every other context goes on as it is, and of a read that waited to cross whoever waits
for it learns of cause 0x0014. Which agent an invalidation belongs to is the model's choice (log 19). -/
def Sys2Proof.Claims.BridgeEnds : Prop :=
  ∀ (s : State), s.bridge.down = false →
    let waits := fun (x : HeldMsg) => x ∈ s.host.held ∧ x.die ≠ 0
    let owns := fun (c : Fin 64) => (∃ p ∈ s.bridge.queue, p.again = false ∧ ∃ sector, p.body = .inval sector (some c)) ∨
      ∃ x, waits x ∧ x.owner = some c ∧ postedMsg x.msg = true
    let lost := fun (l : LinkOp) => ∃ x, waits x ∧ msgTag x.msg = some l.tag
    (s.bridge.attempts < 64 → exec .bridgeDown s = .next s) ∧
    (64 ≤ s.bridge.attempts → ∃ t, exec .bridgeDown s = .next t ∧ t.bridge.down = true ∧
      (∀ c : Fin 64, ¬ owns c → t.ctxs[c] = s.ctxs[c]) ∧
      (∀ c : Fin 64, owns c → s.ctxs[c].st = .running → t.ctxs[c].st = .ended ∨
        ∃ d : Fin 2, ∃ q ∈ t.dies[d].faultQ, q.ctx = c ∧ q.cause = 0x14 ∧ q.ends = true) ∧
      ((∀ c, ¬ owns c) → t.bridge.queue = [] ∧ t.bridge.replay = [] ∧ t.mem = s.mem ∧ t.units = s.units ∧
        (∀ l, l ∈ t.links ↔ l ∈ s.links ∧ ¬ lost l) ∧ (∀ x ∈ t.host.held, x.die = 0) ∧
        ∀ l ∈ s.links, lost l → ∀ r ∈ s.results, l.result = some r.id →
          ∃ q ∈ t.results, q.id = r.id ∧ ∃ f, q.bad = some f ∧ (r.bad = none → f.cause = 0x14)))

/-- R25-R28, R31: a port trains at two lanes, then at one, and is then retired; a relay sends a packet on over the bridge and from its die 1,
by the port that the pair selects among those in service, and waits while the bridge stalls. -/
def Sys2Proof.Claims.PortsAndRelays : Prop :=
  (∀ (s : State) (d : Fin 2) (port : Fin 8) (trains : Bool),
    ∃ t, exec (.ualinkLaneFailure d port trains) s = .next t ∧ sameWork s t ∧ (∀ q : Fin 8, q ≠ port → t.dies[d].ports[q] = s.dies[d].ports[q]) ∧
      t.dies[d].ports[port] = (if trains = true ∧ s.dies[d].ports[port] = 4 then 2 else if trains = true ∧ s.dies[d].ports[port] = 2 then 1 else 0) ∧
      (t.dies[d].ports[port] = 0 → t.dies[d].rr = true)) ∧
  ∀ (s : State) (p : UaPkt),
    let ps := (List.finRange 8).filter fun q => s.dies[(1 : Fin 2)].ports[q] != 0
    let up := s.dies[(0 : Fin 2)].dstate ≠ .dieOffline ∧ s.dies[(1 : Fin 2)].dstate ≠ .dieOffline
    (up → ps ≠ [] → crossing s 0 1 = .stalled → exec (.relayForward p) s = .next { s with inbox := .relayForward p :: s.inbox }) ∧
    (up → crossing s 0 1 = .free → ∀ q, ps[(p.src.toNat ^^^ p.dst.toNat) % ps.length]? = some q →
      ∃ t, exec (.relayForward p) s = .next t ∧ sameWork s t ∧ t.uaOut = s.uaOut ++ [.request 1 q.val p] ∧ t.hostOut = s.hostOut ∧ t.links = s.links) ∧
    (¬ up ∨ ps = [] ∨ crossing s 0 1 = .down → exec (.relayForward p) s = .next s)

/-- R13, R21, R27, R31, R33, R34, R52: a request of another package. A read of a sector or a line, a write within a sector with its byte
enables, and an aligned atomic of 4 or 8 bytes are performed and then answered, by the port that leads back; anything else, and a read of
data in error, is answered with an error, and changes nothing. Memory that is not populated or cannot be reached is answered with an error as
well (the model's choice, log 34), and requests are served whatever EN and the copies of the identity register are (log 71). A request that
crosses the bridge, or whose answer does, waits while it stalls. -/
def Sys2Proof.Claims.DomainRequests : Prop :=
  ∀ (s : State) (src : BitVec 12) (tag : Nat), memoryOk s →
    let g := arrivesAt s src
    let waits := fun (r : UaReq) => reqCrosses s g src r = true ∧ crossing s 0 1 = .stalled
    let answers := fun (r : UaReq) (ok : Bool) (data : List Byte) (t : State) =>
      (waits r → exec (.domainRequestReceived src tag r) s = .next { s with inbox := .domainRequestReceived src tag r :: s.inbox }) ∧
      (¬ waits r → exec (.domainRequestReceived src tag r) s = .next t) ∧
      Answered s t g src tag ok data ∧ t.warps = s.warps ∧ t.ctxs = s.ctxs ∧ t.units = s.units ∧ t.cores = s.cores
    (∀ (a : BitVec 41) (n : Nat), (n = 64 ∨ n = 256) → a.toNat % n = 0 → Serves s g a.toNat n → NoBad s a.toNat n →
      ∃ t, answers (.read a n) true (bytesOf n (readN s.mem a.toNat n)) t ∧ t.mem = s.mem) ∧
    (∀ (a : BitVec 41) (data : List Byte) (en : List Bool), a.toNat % 64 + data.length ≤ 64 → en.length = data.length → Serves s g a.toNat data.length →
      ∃ t, answers (.write a data en) true [] t ∧
        (∀ (j : Nat) b, data[j]? = some b → readByte t.mem (a.toNat + j) = if en[j]? = some true then b else readByte s.mem (a.toNat + j)) ∧
        ∀ b, (b < a.toNat ∨ a.toNat + data.length ≤ b) → readByte t.mem b = readByte s.mem b) ∧
    (∀ (op : AtomOp) (ty : Ty) (a : BitVec 41) (x y : Word), ty ∈ [Ty.i32, .n32, .i64, .n64] → a.toNat % tyBytes ty = 0 → Serves s g a.toNat (tyBytes ty) →
      NoBad s a.toNat (tyBytes ty) →
      let old := readN s.mem a.toNat (tyBytes ty)
      ∃ t, answers (.atomic op ty a x y) true (bytesOf (tyBytes ty) old) t ∧
        readN t.mem a.toNat (tyBytes ty) = atomResult op ty old (x.toNat % 2 ^ tyWidth ty) (y.toNat % 2 ^ tyWidth ty) ∧
        ∀ b, (b < a.toNat ∨ a.toNat + tyBytes ty ≤ b) → readByte t.mem b = readByte s.mem b) ∧
    (∀ k, ∃ t, answers (.other k) false [] t ∧ t.mem = s.mem) ∧
    (∀ (a : BitVec 41) (n : Nat), ((n ≠ 64 ∧ n ≠ 256) ∨ a.toNat % n ≠ 0 ∨ ¬ Serves s g a.toNat n ∨ ¬ NoBad s a.toNat n) →
      ∃ t, answers (.read a n) false [] t ∧ t.mem = s.mem) ∧
    ∀ (a : BitVec 41) (data : List Byte) (en : List Bool), (64 < a.toNat % 64 + data.length ∨ ¬ Serves s g a.toNat data.length) →
      ∃ t, answers (.write a data en) false [] t ∧ t.mem = s.mem

/-- R33-R35, R39, R40: completions of the accesses of a link. A good one brings its value; an error, or none in time, brings cause 0x0019, and
to an atomic of the host an error brings cause 0x0004. An operation carried as compare-and-swaps goes on until one succeeds. A posted write
of the host has no good completion, and its failure is kept for its warp. A completion for the other die than the one where it arrives crosses
the bridge: it waits while that stalls, and brings cause 0x0014 where it is down (R26, R27). -/
def Sys2Proof.Claims.LinkCompletions : Prop :=
  ∀ (s : State) (l : LinkOp) (data : List Byte),
    let brought := broughtBytes l data
    let again := swapLoop l ∧ l.expect ≠ some (BitVec.ofNat 64 (bytesValue brought))
    let far := backDie s l ≠ l.die
    let here := ¬ far ∨ (crossing s 0 1 = .free ∧ noInval s = true)
    let turned := fun (i : Instr) => far →
      (crossing s 0 1 = .stalled → exec i s = .next { s with inbox := i :: s.inbox }) ∧
      (crossing s 0 1 = .down → ∃ t, exec i s = .next t ∧ FailsWith s t l 0x14)
    let goes := fun (i : Instr) => turned i ∧ (here →
      (¬ again → ∃ t, exec i s = .next t ∧ Over s t l (.ok brought)) ∧
      (again → ∃ t, exec i s = .next t ∧ t.warps = s.warps ∧ t.results = s.results ∧ t.mem = s.mem ∧
        ∃ m ∈ t.links, m.tag = l.tag ∧ m.expect = some (BitVec.ofNat 64 (bytesValue brought)) ∧
          m.y = BitVec.ofNat 64 (atomResult l.op l.ty (bytesValue brought) l.x.toNat 0)))
    let fails := fun (i : Instr) (cause : Nat) => ∃ t, exec i s = .next t ∧ FailsWith s t l cause
    let refused := fun (i : Instr) (cause : Nat) => turned i ∧ (here → fails i cause)
    (l.sys = false → s.links.find? (fun k => k.tag == l.tag && !k.sys) = some l →
      goes (.domainCompletion l.tag true data) ∧ refused (.domainCompletion l.tag false data) 0x19) ∧
    (s.links.find? (fun k => !k.sys) = some l → fails .domainCompletionTimeout 0x19) ∧
    (l.sys = true → s.links.find? (fun k => k.tag == l.tag && k.sys) = some l →
      (l.kind ≠ .write → goes (.systemCompletion l.tag .ok data)) ∧
      (l.kind = .write → exec (.systemCompletion l.tag .ok data) s = .next s) ∧
      ∀ st, st ≠ .ok → refused (.systemCompletion l.tag st data) (if l.kind = .atomic then 4 else 0x19)) ∧
    (s.links.find? (fun k => k.sys && k.kind != .write) = some l → fails .systemReadTimeout 0x19)

/-- R26, R36, R41, R42, R49, R52: the host's reads and writes of package memory through BAR2, and its link. Memory that cannot be reached, and
data in error, answers a read with an error and takes no write (the model's choice, log 34). What crosses the bridge waits while it stalls.
While the link is down what is sent to the host is held, and is then sent in the order in which each die sent it; the reads that the host had
not answered fail. -/
def Sys2Proof.Claims.HostLink : Prop :=
  (∀ (s : State) (off : Nat) (data : List Byte), memoryOk s → HostServed s → off + data.length ≤ 2 ^ 36 →
    let a := s.host.bar2.toNat + off
    let far := Serves s 0 a data.length ∧ dieOf a ≠ 0
    (far → crossing s 0 1 = .stalled → exec (.inboundHostWrite off data) s = .next { s with inbox := .inboundHostWrite off data :: s.inbox }) ∧
    (Serves s 0 a data.length → (far → crossing s 0 1 = .free) → ∃ t, exec (.inboundHostWrite off data) s = .next t ∧ t.warps = s.warps ∧ t.ctxs = s.ctxs ∧ t.cores = s.cores ∧
      (∀ (j : Nat) b, data[j]? = some b → readByte t.mem (a + j) = b) ∧
      ∀ b, (b < a ∨ a + data.length ≤ b) → readByte t.mem b = readByte s.mem b) ∧
    (¬ Serves s 0 a data.length → exec (.inboundHostWrite off data) s = .next s)) ∧
  (∀ (s : State) (off n : Nat), HostServed s → off + n ≤ 2 ^ 36 →
    let a := s.host.bar2.toNat + off
    let brings := fun (m : HostMsg) => ∃ t, exec (.inboundHostRead (.aperture off) n) s = .next t ∧ t.hostOut = s.hostOut ++ [m] ∧ t.mem = s.mem ∧
      t.warps = s.warps ∧ t.ctxs = s.ctxs
    let far := Serves s 0 a n ∧ dieOf a ≠ 0
    let i := Instr.inboundHostRead (.aperture off) n
    (far → crossing s 0 1 = .stalled → exec i s = .next { s with inbox := i :: s.inbox }) ∧
    ((far → crossing s 0 1 = .free) →
      (Serves s 0 a n → 0 < n → NoBad s a n → brings (.readData (bytesOf n (readN s.mem a n)))) ∧
      (¬ Serves s 0 a n ∨ (0 < n ∧ ¬ NoBad s a n) → brings .readError))) ∧
  (∀ (s : State) (off n : Nat) (data : List Byte), ¬ HostServed s →
    exec (.inboundHostRead (.aperture off) n) s = .next s ∧ exec (.inboundHostWrite off data) s = .next s) ∧
  (∀ (s : State), s.host.up = true →
    ∃ t, exec .hostLinkDown s = .next t ∧ t.host.up = false ∧ t.mem = s.mem ∧ t.ctxs = s.ctxs ∧ t.hostOut = s.hostOut ∧
      (∀ l, l ∈ t.links ↔ l ∈ s.links ∧ (l.sys = false ∨ l.kind = .write)) ∧
      (∀ x, x ∈ t.host.held ↔ x ∈ s.host.held ∧ (∀ fn g a n, x.msg ≠ .read fn g a n) ∧ ∀ fn g o ty a v y, x.msg ≠ .atomicOp fn g o ty a v y) ∧
      ∀ l ∈ s.links, l.sys = true → l.kind ≠ .write → ∀ r ∈ s.results, l.result = some r.id → ∃ q ∈ t.results, q.id = r.id ∧ q.bad ≠ none) ∧
  ∀ (s : State), s.host.up = false →
    ∃ t, ∃ out : List HeldMsg, exec .hostLinkUp s = .next t ∧ sameWork s t ∧ t.host.up = true ∧ t.hostOut = s.hostOut ++ out.map (·.msg) ∧
      (s.bridge.down = false → ∀ y ∈ s.host.held ++ s.host.owed, Tells t y.msg) ∧
      (s.host.owed = [] → (∀ d : Fin 2, Hears s d →
        (out.filter fun x => x.die == d) ++ (t.host.held.filter fun x => x.die == d) = s.host.held.filter fun x => x.die == d) ∧
        ((∀ x ∈ s.host.held, x.die = 0) → out = s.host.held))

/-- R13, R21, R25-R36, R39-R42, R49, R52, R149, R162: the bridge, UALink and the host link. The model's choices among them: which packets act
where they arrive (log 16), whom a bridge that goes down ends (log 19), the answers for memory that cannot be reached (log 34), and which
requests of other packages are served (log 71). -/
def Obligations.Links : Prop :=
  Claims.BridgeTraffic ∧ Claims.BridgeEnds ∧ Claims.PortsAndRelays ∧ Claims.DomainRequests ∧ Claims.LinkCompletions ∧ Claims.HostLink

/-- R42, R49, R56, R57: a write of a register of a partition entry is refused with the status of the first check that fails, and then
changes nothing; otherwise the register takes it, and the refusal status reads 0. That a write of a reserved register is malformed is the
model's choice (log 20). -/
def Sys2Proof.Claims.PartitionWrites : Prop :=
  ∀ (s : State) (n : Fin 24) (reg : Fin 8) (v : Word), HostServed s →
    let p := entryAfter s.parts[n] reg v
    let fails := partFails s n p (malformedValue reg v)
    (∀ status, fails status → (∀ k, k < status → ¬ fails k) → RefusedWith (.partitionEntryWrite n reg v) s status) ∧
    ((∀ k, ¬ fails k) → ∃ t, exec (.partitionEntryWrite n reg v) s = .next t ∧ t.refusal = 0 ∧ t.parts[n] = p ∧
      (∀ m, m ≠ n → t.parts[m] = s.parts[m]) ∧ t.ctxs = s.ctxs ∧ t.warps = s.warps ∧ t.mem = s.mem)

/-- R58: the registers of a context entry. MODE, DIE and PART stand while the context exists (of DIE that is the model's choice, log 70); ROOT
and IMAGE are 4 KiB aligned; a command is done as the event of its name, no command is accepted and does nothing, and 8 to 15 are
refused. That non-zero reserved bits and registers are refused is the model's choice (log 20). -/
def Sys2Proof.Claims.ContextWrites : Prop :=
  ∀ (s : State) (c : Fin 64) (v : Word), HostServed s →
    let x := s.ctxs[c]
    let set := fun (reg : Fin 8) (f : Ctx → Ctx) => exec (.contextEntryWrite c reg v) s = .next { modCtx s c f with refusal := 0 }
    let mode := v.getLsbD 62
    let die : Fin 2 := if v.getLsbD 61 then 1 else 0
    let same := mode = x.mode ∧ die = x.die ∧ field v 56 5 = x.part.val
    (field v 4 48 = 0 → ¬ (mode = false ∧ die = 1) → (x.st = .free ∨ same) →
      set 0 fun y => { y with mode := mode, die := die, part := Fin.ofNat 32 (field v 56 5), vec := Fin.ofNat 16 (field v 52 4) }) ∧
    ((field v 4 48 ≠ 0 ∨ (mode = false ∧ die = 1) ∨ (x.st ≠ .free ∧ ¬ same)) → RefusedWith (.contextEntryWrite c 0 v) s 0x15) ∧
    (v.toNat % 2 ^ 12 = 0 → set 2 (fun y => { y with root := v }) ∧ set 3 fun y => { y with image := v }) ∧
    (v.toNat % 2 ^ 12 ≠ 0 → RefusedWith (.contextEntryWrite c 2 v) s 0x15 ∧ RefusedWith (.contextEntryWrite c 3 v) s 0x15) ∧
    (field v 60 4 = 0 → RefusedWith (.contextEntryWrite c 1 v) s 0) ∧
    (8 ≤ field v 60 4 → RefusedWith (.contextEntryWrite c 1 v) s 0x15) ∧
    (∀ i, commandOf c (field v 60 4) = some i → field v 0 60 = 0 → exec (.contextEntryWrite c 1 v) s = exec i s) ∧
    ∀ reg : Fin 8, 4 ≤ reg.val → (v = 0 → RefusedWith (.contextEntryWrite c reg v) s 0) ∧ (v ≠ 0 → RefusedWith (.contextEntryWrite c reg v) s 0x15)

/-- R55, R59, R61, R62, R71, R78, R246: a write to ARG. The function must own the start block. The state decides: LAST tells what came of it;
an accepted start makes the context run its job from ENTRY, with EV, CPH and ABORT clear and no launch, in the queue of its job die; a
halted context holds it. The SEQ of a held start, that it is accepted however the context comes to be idle, and that ARG holds the value
of a write that is refused are the model's choices (log 53). -/
def Sys2Proof.Claims.JobStarts : Prop :=
  ∀ (s : State) (fn : Fin 25) (c : Fin 64) (entry : Option Word) (arg : Word), HostServed s →
    let x := s.ctxs[c]
    let e := entry.getD x.entry
    let bad := e.toNat % 8 ≠ 0 ∨ x.caddr.toNat % 8 ≠ 0
    let last := fun (n : Nat) => ∃ t, exec (.startArgWrite fn c entry arg) s = .next t ∧ t.ctxs[c].last.toNat = n ∧ t.ctxs[c].st = x.st ∧
      t.ctxs[c].seq = x.seq ∧ t.ctxs[c].held = x.held ∧ t.ctxs[c].arg = arg ∧ t.warps = s.warps ∧ t.starts = s.starts
    (fn ≠ 0 → fn.val ≠ functionOf s c → exec (.startArgWrite fn c entry arg) s = .next s) ∧
    ((fn = 0 ∨ fn.val = functionOf s c) →
      (x.st = .free ∨ x.st = .ended → last 2) ∧
      (x.st = .running ∨ x.st = .halting ∨ (x.st = .halted ∧ x.held ≠ none) → last 1) ∧
      ((x.st = .idle ∨ (x.st = .halted ∧ x.held = none)) → bad → last 3) ∧
      (x.st = .idle → ¬ bad → ∃ t, exec (.startArgWrite fn c entry arg) s = .next t ∧
        (let y := t.ctxs[c]
         y.last = 0 ∧ y.st = .running ∧ y.seq = x.seq + 1 ∧ y.jobEntry = e ∧ y.jobArg = arg ∧ y.ev = 0 ∧ y.cph = 0 ∧ y.abort = false ∧
         y.launches = [] ∧ y.tvec = 0 ∧ y.svec = 0 ∧ y.route = 0x000FFFFFFFFFFFFC ∧ ∀ h ∈ y.handles, h.st = .free) ∧
        t.starts[jobDie s c] = s.starts[jobDie s c] ++ [.job c] ∧ t.mem = s.mem ∧ t.warps = s.warps) ∧
      (x.st = .halted → x.held = none → ¬ bad → ∃ t, exec (.startArgWrite fn c entry arg) s = .next t ∧ t.ctxs[c].last = 4 ∧
        t.ctxs[c].held = some (e, arg, x.seq + 1) ∧ t.ctxs[c].st = .halted ∧ t.warps = s.warps ∧ t.starts = s.starts))

/-- R58-R60, R96, R105-R107, R250: the commands. One that is not for the state is refused with 0x17. A create makes an idle context, and is
refused with 0x15 or 0x19 without a partition, 0x12 on a wrong die or one that is not online, 0x13 with an island out of service, and 0x1A
without a fault buffer; a halt asks every warp; a resume goes back to where the halt came from, with no translation and no line left, or
starts the job that is held; a destroy and a cancel end the job with END = 3 and 1 once its launches and its operations have ended (R79, R80).
The order of these checks, and that DBASE lies in package memory, are the model's choices (log 55). -/
def Sys2Proof.Claims.Commands : Prop :=
  ∀ (s : State) (c : Fin 64), HostServed s →
    let x := s.ctxs[c]
    let job := x.st = .running ∨ ((x.st = .halting ∨ x.st = .halted) ∧ x.before = .running)
    let quiet := liveOf x = [] ∧ (∀ o ∈ s.copies, o.ctx = c → o.faulted = true) ∧ (∀ o ∈ s.mops, o.ctx = c → o.faulted = true) ∧
      ∀ o ∈ s.maints, o.ctx = c → o.faulted = true
    let freed := fun (t : State) => t.ctxs[c].st = .free ∧ (∀ w ∈ t.warps, w.ctx ≠ c) ∧ (∀ u ∈ t.units, u.ctx ≠ c) ∧
      (∀ o ∈ t.copies, o.ctx ≠ c) ∧ t.ctxs[c].handles = []
    let told := fun (t : State) => Hears s (homeDie s c) →
      Tells t (.completion (functionOf s c) x.caddr (completionWord x.seq 3 0) x.vec.val)
    (∀ p ∈ allowedStates c, x.st ∉ p.2 ∨ x.jobEnd = some 3 → RefusedWith p.1 s 0x17) ∧
    (x.st = .free → x.jobEnd ≠ some 3 →
      (Creatable s c → ∃ t, exec (.contextCreate c) s = .next t ∧ t.ctxs[c].st = .idle ∧ t.refusal = 0 ∧ Tells t (.msix 0 62) ∧
        (t.ctxs[c].mode, t.ctxs[c].die, t.ctxs[c].part, t.ctxs[c].root) = (x.mode, x.die, x.part, x.root) ∧ t.ctxs[c].seq = 0 ∧
        ∀ d, d ≠ c → t.ctxs[d] = s.ctxs[d]) ∧
      ∀ i ∈ [Instr.contextCreate c, .contextImport c],
        let valid := x.part.val < 24 ∧ (partOfCtx s c).valid = true
        let placed := (x.mode = true → ∀ d, spans s c d → d = x.die) ∧ ∀ d, spans s c d → s.dies[d].dstate = .online
        let inService := ∀ d i, i < 12 → hasIsland (partOfCtx s c) d i = true → served s d i
        (24 ≤ x.part.val → RefusedWith i s 0x15) ∧
        (x.part.val < 24 → (partOfCtx s c).valid = false → RefusedWith i s 0x19) ∧
        (valid → ¬ placed → RefusedWith i s 0x12) ∧
        (valid → placed → ¬ inService → RefusedWith i s 0x13) ∧
        (valid → placed → inService → (∃ d, spans s c d ∧ s.dies[d].fbase = 0) → RefusedWith i s 0x1A)) ∧
    (x.st = .idle ∨ x.st = .running → x.jobEnd ≠ some 3 → AllReach s →
      ∃ t, exec (.contextHalt c) s = .next t ∧ t.refusal = 0 ∧ (t.ctxs[c].st = .halting ∨ t.ctxs[c].st = .halted) ∧
      t.ctxs[c].before = (if x.jobWait then .idle else x.st) ∧ (∀ w ∈ t.warps, w.ctx = c → w.halting = true) ∧
      (x.jobWait = true → t.ctxs[c].held = some (x.jobEntry, x.jobArg, x.seq)) ∧
      (t.ctxs[c].st = .halted → Tells t (.msix 0 62))) ∧
    (x.st = .halted → x.jobEnd ≠ some 3 → x.spilled = false → AllReach s → x.await = [] → Claims.WakesToRest s c → ∃ t, exec (.contextResume c) s = .next t ∧ t.refusal = 0 ∧ Tells t (.msix 0 62) ∧
      ((x.before ≠ .idle ∨ x.held = none) → t.ctxs[c].st = x.before) ∧
      (x.before = .idle → ∀ e a q, x.held = some (e, a, q) → t.ctxs[c].st = .running ∧ t.ctxs[c].jobEntry = e ∧ t.ctxs[c].jobArg = a ∧ t.ctxs[c].seq = q) ∧
      (∀ d : Fin 2, ∀ e ∈ t.dies[d].tlb, e.ctx ≠ c) ∧ (∀ k : Fin 384, (∀ e ∈ t.cores[k].tlb, e.ctx ≠ c) ∧
        t.cores[k].l1 = [] ∧ ∀ z, t.cores[k].slot = some z → z.ctx ≠ c) ∧
      ((∀ u ∈ s.units, u.ctx = c → u.st ≠ .swapped) → ∀ w ∈ t.warps, w.ctx = c → onDispatch w = true → w.sub ≠ none → w.halted = false)) ∧
    (x.st = .running → x.jobEnd ≠ some 3 →
      let u := if x.jobEnd = none then cancelWholeJob s c 1 else s
      (∃ t, exec (.contextCancelJob c) s = .next t ∧ t.refusal = 0 ∧ t.ctxs = u.ctxs ∧ t.warps = u.warps ∧ Tells t (.msix 0 62) ∧
        ∀ m, Tells u m → Tells t m) ∧
      (x.jobEnd = none → x.held = none → quiet → JobEnds s u c 1 0) ∧
      (x.jobEnd = none → liveOf x = [] → (∃ o ∈ s.copies, o.ctx = c ∧ o.faulted = false) →
        u.ctxs[c].st = .running ∧ u.ctxs[c].jobEnd = some 1 ∧ ∀ w ∈ u.warps, w.ctx = c → onDispatch w = false)) ∧
    (x.st ≠ .free → x.jobEnd ≠ some 3 →
      (¬ job ∨ quiet → ∃ t, exec (.contextDestroy c) s = .next t ∧ t.refusal = 0 ∧ freed t ∧ Tells t (.msix 0 62) ∧ (job → told t)) ∧
      (job → liveOf x = [] → (∃ o ∈ s.copies, o.ctx = c ∧ o.faulted = false) →
        ∃ t, exec (.contextDestroy c) s = .next t ∧ t.refusal = 0 ∧ t.ctxs[c].st = .running ∧ t.ctxs[c].jobEnd = some 3 ∧ Tells t (.msix 0 62) ∧
          ∀ w ∈ t.warps, w.ctx = c → onDispatch w = false)) ∧
    (x.st = .running → x.jobEnd = some 3 → cancelOver s c = true → freed (endCancelled s c) ∧ told (endCancelled s c))

/-- R7, R8, R60, R66, R67: an export of a halted context leaves at IMAGE, where that lies in package memory, a header with the magic number, the
size, the mode and the digest of what follows; the context stays halted. An import makes a halted context of what the image carries, with
the entry's own mode, partition and translation, or is refused with 0x18: for another magic number, mode or digest, more islands than the
partition has, or a reserved field that is not zero. From a window comes back what the part wrote there, and at a hole there is nothing; the
bodies of sections that the spec does not lay out, and that a window is unchanged, are the model's choices (log 13). -/
def Sys2Proof.Claims.Images : Prop :=
  ∀ (s : State) (c : Fin 64), HostServed s →
    let x := s.ctxs[c]
    let a := x.image.toNat
    let n := 128 + (bodyBytes (snapshotOf s c)).length
    (x.st = .halted → x.jobEnd ≠ some 3 → x.spilled = false → memoryOk s →
      ∃ t, exec (.contextExport c) s = .next t ∧ t.refusal = 0 ∧ Tells t (.msix 0 62) ∧ t.ctxs = s.ctxs ∧ t.warps = s.warps ∧ t.units = s.units ∧
      (∃ i ∈ t.images, i.pa = a ∧ i.size = n ∧ i.snap = snapshotOf s c) ∧
      (inPackage a n = true → readN t.mem a 8 / 2 ^ 32 = 0x41463932 ∧ readN t.mem (a + 8) 8 = n ∧ readN t.mem (a + 16) 8 / 2 ^ 56 = x.mode.toNat ∧
        readN t.mem (a + 24) 48 = (Config.sha384 (readList t.mem (a + 128) (n - 128))).toNat) ∧
      ∀ b, (b < a ∨ a + n ≤ b) → readByte t.mem b = readByte s.mem b) ∧
    (regionOf a = .hole → importable s c = none) ∧
    (regionOf a = .package →
      (readN s.mem a 8 / 2 ^ 32 ≠ 0x41463932 → importable s c = none) ∧ (readN s.mem (a + 16) 8 / 2 ^ 56 ≠ x.mode.toNat → importable s c = none) ∧
      (bitCount (partOfCtx s c).isl0 < readN s.mem (a + 16) 8 / 2 ^ 24 % 2 ^ 8 → importable s c = none) ∧
      (bitCount (partOfCtx s c).isl1 < readN s.mem (a + 16) 8 / 2 ^ 16 % 2 ^ 8 → importable s c = none) ∧
      (readN s.mem (a + 16) 8 % 2 ^ 16 ≠ 0 → importable s c = none) ∧ (readN s.mem (a + 0x48) 56 ≠ 0 → importable s c = none) ∧
      (readN s.mem (a + 24) 48 ≠ (Config.sha384 (readList s.mem (a + 128) (readN s.mem (a + 8) 8 - 128))).toNat → importable s c = none)) ∧
    (regionOf a = .system ∨ regionOf a = .domain → imageServed s c a = true → ∀ i, s.images.find? (fun i => i.pa == a) = some i →
      i.snap.ctx.mode = x.mode → i.isl0 ≤ bitCount (partOfCtx s c).isl0 → i.isl1 ≤ bitCount (partOfCtx s c).isl1 →
      importable s c = some i.snap) ∧
    (x.st = .free → x.jobEnd ≠ some 3 → Creatable s c →
      (importable s c = none → RefusedWith (.contextImport c) s 0x18) ∧
      ∀ y, importable s c = some y → (∀ w ∈ s.warps, w.ctx ≠ c ∧ w.id < s.serial) →
        ∃ t, exec (.contextImport c) s = .next t ∧ t.refusal = 0 ∧ t.ctxs[c].st = .halted ∧
        t.mem = s.mem ∧ (t.ctxs[c].mode, t.ctxs[c].part, t.ctxs[c].root, t.ctxs[c].caddr) = (x.mode, x.part, x.root, x.caddr) ∧
        (t.ctxs[c].seq, t.ctxs[c].ev, t.ctxs[c].cph, t.ctxs[c].held, t.ctxs[c].route) = (y.ctx.seq, y.ctx.ev, y.ctx.cph, y.ctx.held, y.ctx.route) ∧
        (∀ w ∈ s.warps, w ∈ t.warps) ∧ t.warps.length = s.warps.length + y.warps.length ∧ t.units.length = s.units.length + y.units.length)

/-- R105: the units of a spilled context are read back from its image for a resume or an export, as they were saved; where the image
has changed since, the command is refused with 0x18 (the model's choice, log 13). -/
def Sys2Proof.Claims.SpilledImages : Prop :=
  ∀ (s : State) (c : Fin 64), HostServed s → s.ctxs[c].st = .halted → s.ctxs[c].spilled = true → s.ctxs[c].jobEnd ≠ some 3 →
    (spilledImage s c = none → RefusedWith (.contextResume c) s 0x18 ∧ RefusedWith (.contextExport c) s 0x18) ∧
    ∀ y, spilledImage s c = some y → AllReach s → Claims.NoneDue s.ctxs[c] → s.ctxs[c].await = [] → Claims.WakesToRest s c → ∃ t, exec (.contextResume c) s = .next t ∧ t.refusal = 0 ∧ t.ctxs[c].spilled = false ∧
      ∀ u ∈ y.units, u.st = .swapped → (∀ v ∈ s.units, v.id ≠ u.id) → ∃ v ∈ t.units, v.id = u.id ∧ v.ctx = u.ctx ∧ v.launch = u.launch ∧
        v.index = u.index ∧ v.scratch = u.scratch ∧ v.tiles = u.tiles ∧ v.engs = u.engs

/-- No split of a warp stands at its rejoin point, so that a split that replays finds nothing to settle (R117). -/
structure Sys2Proof.Claims.SteadyWarp (w : Warp) : Prop where
  away : ∀ y ∈ validSplits w, y.2.record = none ∨ y.2.pc ≠ y.2.rpc
  records : ∀ (r : Fin 16) (x : Rejoin), w.recs[r] = some x → releasable w r x = false
  goes : ∃ y ∈ validSplits w, y.2.st ≠ .parked
  lives : w.live ≠ 0 ∨ w.ended = true

/-- R29, R37, R55, R249, R250: the registers of a die's window. A value of the identity register with a reserved bit is dropped; FBASE takes
an aligned range of the die's own memory while no context exists; a write of FRET retires its slot, whose word reads zero, and the
splits suspended on it replay. A register write of 8 aligned bytes does what a write of the block at its offset does. One of die 1 crosses the
bridge, where it waits while that stalls, and is dropped where it is down or the die is die-offline (R26, R27). The place of the
BAR2 window's base is the model's choice (log 47). -/
def Sys2Proof.Claims.WindowRegisters : Prop :=
  (∀ (s : State) (d : Fin 2) (v : Word), HostServed s →
    let opened := d = 0 ∨ s.dies[(1 : Fin 2)].dstate ≠ .dieOffline
    (d = 1 → opened → crossing s 0 1 ≠ .free → ∀ i ∈ [Instr.identityRegisterWrite d v, .fbaseWrite d v, .fretWrite d v],
      exec i s = .next (if crossing s 0 1 = .stalled then { s with inbox := i :: s.inbox } else s))) ∧
  (∀ (s : State) (d : Fin 2) (v : Word), HostServed s → (d = 0 ∨ crossing s 0 1 = .free) →
    let opened := d = 0 ∨ s.dies[(1 : Fin 2)].dstate ≠ .dieOffline
    let u := if d = 1 ∧ opened then sendPacket s 0 mmioAgent .request true else s
    let good := (∀ c : Fin 64, s.ctxs[c].st = .free) ∧ v.toNat % 2 ^ 18 = 0 ∧ inPackage v.toNat (2 ^ 18) = true ∧ dieOf v.toNat = d
    (opened ∧ v.toNat < 2 ^ 13 → exec (.identityRegisterWrite d v) s = .next (modDie u d fun x => { x with ident := v })) ∧
    (¬ (opened ∧ v.toNat < 2 ^ 13) → exec (.identityRegisterWrite d v) s = .next u) ∧
    (opened ∧ good → exec (.fbaseWrite d v) s = .next (modDie u d fun x => { x with fbase := v })) ∧
    (¬ (opened ∧ good) → exec (.fbaseWrite d v) s = .next u) ∧
    (¬ (opened ∧ ∃ r ∈ s.dies[d].slots, r.slot = v.toNat) → exec (.fretWrite d v) s = .next u) ∧
    (opened → s.dies[d].faultQ = [] → memoryOk s → ∀ r, s.dies[d].slots.find? (fun y => y.slot == v.toNat) = some r →
      ∃ t, exec (.fretWrite d v) s = .next t ∧ readWord t.mem (s.dies[d].fbase.toNat + 64 * v.toNat) = 0 ∧
        (∀ y ∈ t.dies[d].slots, y.slot ≠ v.toNat) ∧
        ((∀ p ∈ r.splits, ∀ w, findWarp s p.1 = some w → Claims.SteadyWarp w) → ∀ p ∈ r.splits, ∀ w x, findWarp s p.1 = some w → w.splits[p.2] = some x → x.susp = true →
          ∃ y z, findWarp t p.1 = some y ∧ y.splits[p.2] = some z ∧ z.susp = false ∧ z.st = .runnable ∧ z.pc = x.pc))) ∧
  ∀ (s : State) (v : Word), HostServed s →
    let at_ := fun (off : Nat) => Instr.registerWrite { fn := 0, off := off } 8 v
    let near := fun (d : Fin 2) => d = 0 ∨ crossing s 0 1 = .free
    (∀ (a : BarAddr) (n : Nat), (n < 8 ∨ a.off % 8 ≠ 0) → near (barDie a) → ∃ t, exec (.registerWrite a n v) s = .next t ∧
      { t with bridge := s.bridge } = s) ∧
    (∀ (a : BarAddr) (n : Nat), barDie a = 1 → s.dies[(1 : Fin 2)].dstate ≠ .dieOffline → crossing s 0 1 ≠ .free →
      exec (.registerWrite a n v) s = .next (if crossing s 0 1 = .stalled then { s with inbox := .registerWrite a n v :: s.inbox } else s)) ∧
    (∀ (c : Fin 64) (r : Fin 8), exec (at_ (0x100000 + 0x40 * c.val + 8 * r.val)) s = exec (.contextEntryWrite c r v) s) ∧
    (∀ (n : Fin 24) (r : Fin 8), exec (at_ (0x110000 + 0x40 * n.val + 8 * r.val)) s = exec (.partitionEntryWrite n r v) s) ∧
    (∀ c : Fin 64, exec (at_ (0x120000 + 0x100 * c.val)) s = .next (modCtx s c fun x => { x with entry := v }) ∧
      exec (at_ (0x120000 + 0x100 * c.val + 8)) s = exec (.startArgWrite 0 c none v) s ∧
      exec (at_ (0x120000 + 0x100 * c.val + 16)) s = .next (modCtx s c fun x => { x with caddr := v }) ∧
      ∀ fn : Fin 25, fn ≠ 0 → exec (.registerWrite { fn := fn, off := 0x100 * c.val + 8 } 8 v) s = exec (.startArgWrite fn c none v) s) ∧
    (exec (at_ 0x140000) s = .next { s with host := { s.host with bar2 := v } }) ∧
    ∀ d : Fin 2, near d → let base := 0x1000000 + 0x1000000 * d.val
      exec (at_ (base + 0x8000)) s = exec (.identityRegisterWrite d v) s ∧ exec (at_ (base + 0x20000)) s = exec (.fbaseWrite d v) s ∧
      exec (at_ (base + 0x20010)) s = exec (.fretWrite d v) s ∧
      ∀ n : Fin 4096, (d = 0 ∨ s.dies[(1 : Fin 2)].dstate ≠ .dieOffline) → Sparse.wf s.dies[d].windows = true →
        ∃ t, exec (at_ (base + 8 * n.val)) s = .next t ∧ sameWork s t ∧
          ∀ k : Fin 4096, look (n := 64) t.dies[d].windows k.val = if k = n then v else look (n := 64) s.dies[d].windows k.val

/-- A read of `n` bytes of BAR0 crosses the bridge (R10, R37): it is of the window of die 1, but for the health status, which the host reads
over any bridge (log 73), and not while that die is die-offline. -/
def Sys2Proof.Claims.farRead (s : State) (fn : Fin 25) (off n : Nat) : Prop :=
  fn = 0 ∧ 0x2000000 ≤ off ∧ off < 0x3000000 ∧ ¬ (0x2010000 ≤ off ∧ off + n ≤ 0x2010260) ∧ s.dies[(1 : Fin 2)].dstate ≠ .dieOffline

/-- A host read of BAR0 answers some bytes and changes nothing else. One that crosses the bridge does so where that carries, waits while it
stalls (R26), and is answered with an error where it is down (log 34). -/
def Sys2Proof.Claims.Reads (s : State) (fn : Fin 25) (off n : Nat) (data : List Byte) : Prop :=
  let i := Instr.inboundHostRead (.register { fn := fn, off := off }) n
  (¬ Claims.farRead s fn off n → exec i s = .next { s with hostOut := s.hostOut ++ [.readData data] }) ∧
  (Claims.farRead s fn off n →
    (crossing s 0 1 = .free → ∃ t, exec i s = .next t ∧ sameWork s t ∧ t.hostOut = s.hostOut ++ [.readData data]) ∧
    (crossing s 0 1 = .stalled → exec i s = .next { s with inbox := i :: s.inbox }) ∧
    (crossing s 0 1 = .down → exec i s = .next { s with hostOut := s.hostOut ++ [.readError] }))

/-- A host read of 8 aligned bytes of a function's BAR0 answers a word (R37, R55). -/
def Sys2Proof.Claims.Answers (s : State) (fn : Fin 25) (off : Nat) (v : Nat) : Prop := Claims.Reads s fn off 8 (bytesOf 8 v)

/-- R37, R55-R58, R61, R249: what the registers read. The fields of a context entry and of a partition entry; the start block with SEQ and LAST; the
refusal status; FCOUNT; the rest reads zero. A VF reads the start blocks of its own partition's contexts only. A read of fewer bytes
returns the addressed ones. -/
def Sys2Proof.Claims.RegisterReads : Prop :=
  ∀ (s : State), HostServed s →
    (∀ (c : Fin 64),
      let x := s.ctxs[c]
      let at_ := 0x100000 + 0x40 * c.val
      let state := match x.st with | .free => 0 | .idle => 1 | .running => 2 | .halting => 3 | .halted => 4 | .ended => 5
      (∃ w : Word, Claims.Answers s 0 at_ w.toNat ∧ (w.getLsbD 63 = true ↔ x.st ≠ .free) ∧ w.getLsbD 62 = x.mode ∧ field w 61 1 = x.die.val ∧
        field w 56 5 = x.part.val ∧ field w 52 4 = x.vec.val ∧ field w 4 48 = 0 ∧ field w 0 4 = state) ∧
      Claims.Answers s 0 (at_ + 8) 0 ∧ Claims.Answers s 0 (at_ + 16) x.root.toNat ∧ Claims.Answers s 0 (at_ + 24) x.image.toNat ∧
      (∀ fn : Fin 25, let base := if fn = 0 then 0x120000 else 0
        let v := fun (n : Nat) => if fn = 0 ∨ fn.val = functionOf s c then n else 0
        Claims.Answers s fn (base + 0x100 * c.val) (v x.entry.toNat) ∧ Claims.Answers s fn (base + 0x100 * c.val + 8) (v x.arg.toNat) ∧
        Claims.Answers s fn (base + 0x100 * c.val + 16) (v x.caddr.toNat) ∧
        ∃ w : Word, Claims.Answers s fn (base + 0x100 * c.val + 24) (v w.toNat) ∧ field w 32 32 = x.seq.toNat ∧ field w 16 8 = x.last.toNat ∧
          field w 24 8 = 0 ∧ field w 0 16 = 0)) ∧
    (∀ (n : Fin 24),
      let p := s.parts[n]
      let at_ := 0x110000 + 0x40 * n.val
      (∃ w : Word, Claims.Answers s 0 at_ w.toNat ∧ w.getLsbD 63 = p.valid ∧ field w 16 12 = p.isl1.toNat ∧ field w 0 12 = p.isl0.toNat ∧
        field w 28 35 = 0 ∧ field w 12 4 = 0) ∧
      (p.vf < 25 → Claims.Answers s 0 (at_ + 8) p.vf) ∧ Claims.Answers s 0 (at_ + 16) p.dbase.toNat) ∧
    Claims.Answers s 0 0x130000 s.refusal.toNat ∧
    (∀ d : Fin 2, s.dies[d].dstate ≠ .dieOffline →
      let base := 0x1000000 + 0x1000000 * d.val
      Claims.Answers s 0 (base + 0x8000) s.dies[d].ident.toNat ∧ Claims.Answers s 0 (base + 0x20000) s.dies[d].fbase.toNat ∧
      (s.dies[d].slots.length ≤ 4096 → Claims.Answers s 0 (base + 0x20008) s.dies[d].slots.length) ∧ Claims.Answers s 0 (base + 0x20010) 0 ∧
      ∀ n : Fin 4096, Claims.Answers s 0 (base + 8 * n.val) (look (n := 64) s.dies[d].windows n.val).toNat) ∧
    ∀ (fn : Fin 25) (off n v : Nat), 0 < n → off % 8 + n ≤ 8 → Claims.Answers s fn (off / 8 * 8) v →
      Claims.Reads s fn off n (((bytesOf 8 v).drop (off % 8)).take n)

/-- R37, R49, R50: the health status of a die, which reads in every state of the die. Of a die that is die-offline the other registers of its
window read zero. -/
def Sys2Proof.Claims.HealthReads : Prop :=
  ∀ (s : State) (d : Fin 2), s.host.up = true →
    let x := s.dies[d]
    let at_ := 0x1010000 + 0x1000000 * d.val
    let start := match x.start with | .cold => 0 | .warm => 1 | .recovery => 2 | .romHold => 3
    let state := match x.dstate with | .online => 0 | .coresOffline => 1 | .dieOffline => 2
    (∃ w : Word, Claims.Answers s 0 at_ w.toNat ∧ w.getLsbD 63 = x.rr ∧ w.getLsbD 62 = x.trip ∧ field w 60 2 = start ∧ field w 58 2 = x.fails.val ∧
      field w 56 2 = state ∧ field w 48 8 = ((List.range 192).filter fun c => !x.retCores.getLsbD c).length ∧ field w 0 48 = 0) ∧
    (∀ k : Fin 3, ∃ w : Word, Claims.Answers s 0 (at_ + 8 + 8 * k.val) w.toNat ∧ ∀ j, j < 64 → w.getLsbD j = x.retCores.getLsbD (64 * k.val + j)) ∧
    (∀ k : Fin 2, ∃ w : Word, Claims.Answers s 0 (at_ + 0x20 + 8 * k.val) w.toNat ∧ ∀ j, j < 64 → w.getLsbD j = x.modules.getLsbD (64 * k.val + j)) ∧
    (∃ w : Word, Claims.Answers s 0 (at_ + 0x30) w.toNat ∧ ∀ p : Fin 8, field w (8 * p.val) 8 = x.ports[p].toNat) ∧
    (∃ v w : Word, Claims.Answers s 0 (at_ + 0x38) v.toNat ∧ Claims.Answers s 0 (at_ + 0x40) w.toNat ∧
      ∀ i : Fin 12, x.clock[i].toNat = if i.val < 8 then field v (8 * i.val) 8 else field w (8 * (i.val - 8)) 8) ∧
    Claims.Answers s 0 (at_ + 0x48) x.corr.toNat ∧ Claims.Answers s 0 (at_ + 0x50) x.uncorr.toNat ∧
    (∀ k : Fin 32, ∃ w : Word, Claims.Answers s 0 (at_ + 0x100 + 8 * k.val) w.toNat ∧
      field w 0 32 = (x.retWays[Fin.ofNat 64 (2 * k.val)]).toNat ∧ field w 32 32 = (x.retWays[Fin.ofNat 64 (2 * k.val + 1)]).toNat) ∧
    (∀ k : Fin 12, Claims.Answers s 0 (at_ + 0x200 + 8 * k.val) (x.retPcs[k]).toNat) ∧
    (x.dstate = .dieOffline → ∀ off, off < 0x10000 ∨ 0x10260 ≤ off → off < 0x1000000 → off % 8 = 0 →
      Claims.Answers s 0 (0x1000000 + 0x1000000 * d.val + off) 0)

/-- R42, R49: while the host link is down, or die 0 runs no product image, none of these events does anything. -/
def Sys2Proof.Claims.NoHostNoWrite : Prop :=
  ∀ (s : State) (n : Fin 24) (c : Fin 64) (d : Fin 2) (reg : Fin 8) (fn : Fin 25) (e : Option Word) (a : BarAddr) (k : Nat) (v : Word) (i : Instr),
    ¬ HostServed s → i ∈ hostEvents n c d reg fn e a k v → exec i s = .next s

/-- R7, R8, R29, R36, R37, R42, R49, R50, R55-R67, R71, R78, R96, R105-R107, R246, R249, R250: partitions, contexts and
registers as the host writes them. The model's choices among them: images (log 13), reserved bits and registers (log 20), the place of the
BAR2 base (log 47), held starts (log 53), the create checks (log 55), DIE of a context (log 70), and health reads over the bridge (log 73). -/
def Obligations.HostCommands : Prop :=
  Claims.PartitionWrites ∧ Claims.ContextWrites ∧ Claims.JobStarts ∧ Claims.Commands ∧ Claims.Images ∧ Claims.SpilledImages ∧
    Claims.WindowRegisters ∧ Claims.RegisterReads ∧ Claims.HealthReads ∧ Claims.NoHostNoWrite

/-- R56, R57: an invariant that every step keeps, whatever the state it starts from: package memory stays in its canonical form,
so that equal memories are equal data; no island comes to belong to two valid partitions, and no VF to serve two. -/
def Obligations.StepKeepsMemoryAndPartitions : Prop :=
  ∀ s t : State, memoryOk s → partitionsOk s → step s = .next t → memoryOk t ∧ partitionsOk t

/-- R93, R137: nothing that a program or its data does stops the machine. No instruction and no event is refused; `exec` faults
only where it is asked for an instruction and no split stands at issue; and where a split's turn comes, or nobody's, the step
answers a next state, whatever the memory, the registers and the words at the split's PC are. -/
def Obligations.EveryIssueAnswers : Prop :=
  (∀ (i : Instr) (s : State) (r : Refusal), exec i s ≠ .refused r) ∧
  (∀ (i : Instr) (s : State) (f : Fault), exec i s = .fault f →
    f = .noIssuer ∧ ∀ (w : Warp) (sp : Fin 8) (x : Split), ¬ AtIssue s w sp x) ∧
  (∀ s : State, (∀ i, s.turn ≠ some (.event i)) → ∃ t, step s = .next t)
end

