-- ==== Sys2Proof/Laws/Cells.lean ====
section
/-! SUPPORT. Sparse memory: every operation keeps the canonical form, and a read after a write gives what was written there
and what was there before elsewhere (R7; log 4). -/

namespace Sys2Proof.Laws

open Sys2Proof Sys2Proof.Machine

variable {n : Nat}

theorem risingFrom_mono {lo lo' : Nat} {m : Sparse n} (h : risingFrom lo m = true) (hl : lo' ≤ lo) :
    risingFrom lo' m = true := by
  cases m with
  | nil => rfl
  | cons e r =>
    obtain ⟨k, x⟩ := e
    simp only [risingFrom, Bool.and_eq_true, decide_eq_true_eq] at h ⊢
    exact ⟨⟨by omega, h.1.2⟩, h.2⟩

theorem put_rising {lo : Nat} {m : Sparse n} (a : Nat) (x : BitVec n) (h : risingFrom lo m = true) (ha : lo ≤ a) :
    risingFrom lo (put m a x) = true := by
  induction m generalizing lo with
  | nil =>
    simp only [put]
    split
    · rfl
    · rename_i hx
      simp only [risingFrom, Bool.and_eq_true, decide_eq_true_eq]
      exact ⟨⟨ha, by simpa using hx⟩, trivial⟩
  | cons e r ih =>
    obtain ⟨k, y⟩ := e
    simp only [risingFrom, Bool.and_eq_true, decide_eq_true_eq] at h
    obtain ⟨⟨h1, h2⟩, h3⟩ := h
    simp only [put]
    split
    · split
      · simp only [risingFrom, Bool.and_eq_true, decide_eq_true_eq]
        exact ⟨⟨h1, h2⟩, h3⟩
      · rename_i hlt hx
        simp only [risingFrom, Bool.and_eq_true, decide_eq_true_eq]
        exact ⟨⟨ha, by simpa using hx⟩, ⟨by omega, h2⟩, h3⟩
    · split
      · split
        · exact risingFrom_mono h3 (by omega)
        · rename_i hk hx
          simp only [risingFrom, Bool.and_eq_true, decide_eq_true_eq]
          exact ⟨⟨ha, by simpa using hx⟩, by rw [hk]; exact h3⟩
      · simp only [risingFrom, Bool.and_eq_true, decide_eq_true_eq]
        exact ⟨⟨h1, h2⟩, ih h3 (by omega)⟩

/-- A write of one place keeps the canonical form. -/
theorem put_wf {m : Sparse n} (a : Nat) (x : BitVec n) (h : Sparse.wf m = true) : Sparse.wf (put m a x) = true :=
  put_rising a x h (Nat.zero_le a)

theorem look_below {lo a : Nat} {m : Sparse n} (h : risingFrom lo m = true) (ha : a < lo) : look m a = 0 := by
  cases m with
  | nil => rfl
  | cons e r =>
    obtain ⟨k, x⟩ := e
    simp only [risingFrom, Bool.and_eq_true, decide_eq_true_eq] at h
    simp only [look]
    rw [if_pos (by omega)]

theorem look_put_rising {lo : Nat} {m : Sparse n} (a b : Nat) (x : BitVec n) (h : risingFrom lo m = true) :
    look (put m a x) b = if b = a then x else look m b := by
  induction m generalizing lo with
  | nil =>
    simp only [put]
    split
    · rename_i hx
      subst hx
      (repeat' split) <;> rfl
    · simp only [look]
      (repeat' split) <;> first | rfl | omega
  | cons e r ih =>
    obtain ⟨k, y⟩ := e
    simp only [risingFrom, Bool.and_eq_true, decide_eq_true_eq] at h
    obtain ⟨⟨h1, h2⟩, h3⟩ := h
    have hlow := fun (c : Nat) (hc : c < k + 1) => look_below h3 hc
    by_cases hb : b = a
    · subst hb
      rw [if_pos rfl]
      simp only [put]
      split
      · split
        · rename_i hx; simp only [look]; rw [if_pos (by assumption), hx]
        · simp [look]
      · split
        · split
          · rename_i hx; rw [hlow b (by omega), hx]
          · simp [look]
        · simp only [look]
          rw [if_neg (by assumption), if_neg (by omega), ih h3, if_pos rfl]
    · rw [if_neg hb]
      simp only [put]
      split
      · split
        · rfl
        · simp only [look]
          by_cases hl : b < a
          · rw [if_pos hl, if_pos (by omega)]
          · rw [if_neg hl, if_neg hb]
      · split
        · rename_i hk
          subst hk
          split
          · simp only [look]
            by_cases hl : b < a
            · rw [if_pos hl, hlow b (by omega)]
            · rw [if_neg hl, if_neg hb]
          · simp only [look]
            rw [if_neg hb, if_neg hb]
        · simp only [look]
          rw [ih h3, if_neg hb]

/-- Reading after writing one place. -/
theorem look_put {m : Sparse n} (a b : Nat) (x : BitVec n) (h : Sparse.wf m = true) :
    look (put m a x) b = if b = a then x else look m b := look_put_rising a b x h

theorem wf_unique_from {lo : Nat} {m m' : Sparse n} (h : risingFrom lo m = true) (h' : risingFrom lo m' = true)
    (e : ∀ a, look m a = look m' a) : m = m' := by
  induction m generalizing lo m' with
  | nil =>
    cases m' with
    | nil => rfl
    | cons q r =>
      obtain ⟨k, x⟩ := q
      simp only [risingFrom, Bool.and_eq_true, decide_eq_true_eq] at h'
      have := e k
      simp [look] at this
      simp [← this] at h'
  | cons p r ih =>
    obtain ⟨k, x⟩ := p
    simp only [risingFrom, Bool.and_eq_true, decide_eq_true_eq] at h
    cases m' with
    | nil =>
      have := e k
      simp [look] at this
      simp [this] at h
    | cons q r' =>
      obtain ⟨k', x'⟩ := q
      simp only [risingFrom, Bool.and_eq_true, decide_eq_true_eq] at h'
      have hk : k = k' := by
        have e1 := e k
        have e2 := e k'
        simp only [look] at e1 e2
        rcases Nat.lt_trichotomy k k' with hlt | heq | hgt
        · simp [hlt] at e1; simp [e1] at h
        · exact heq
        · simp [hgt] at e2; simp [← e2] at h'
      subst hk
      have hx : x = x' := by simpa [look] using e k
      subst hx
      refine congrArg _ (ih h.2 h'.2 fun a => ?_)
      rcases Nat.lt_or_ge a (k + 1) with hlt | hge
      · rw [look_below h.2 hlt, look_below h'.2 hlt]
      · have := e a
        simp only [look] at this
        rwa [if_neg (by omega), if_neg (by omega), if_neg (by omega), if_neg (by omega)] at this

/-- Two canonical lists that read alike are the same list. -/
theorem wf_unique {m m' : Sparse n} (h : Sparse.wf m = true) (h' : Sparse.wf m' = true)
    (e : ∀ a, look m a = look m' a) : m = m' := wf_unique_from h h' e

theorem risingFrom_filter {lo : Nat} {m : Sparse n} (p : Nat × BitVec n → Bool) (h : risingFrom lo m = true) :
    risingFrom lo (m.filter p) = true := by
  induction m generalizing lo with
  | nil => rfl
  | cons e r ih =>
    obtain ⟨k, x⟩ := e
    simp only [risingFrom, Bool.and_eq_true, decide_eq_true_eq] at h
    simp only [List.filter_cons]
    split
    · simp only [risingFrom, Bool.and_eq_true, decide_eq_true_eq]
      exact ⟨h.1, ih h.2⟩
    · exact ih (risingFrom_mono h.2 (by omega))

/-- Dropping entries keeps the canonical form. -/
theorem filter_wf {m : Sparse n} (p : Nat × BitVec n → Bool) (h : Sparse.wf m = true) : Sparse.wf (m.filter p) = true :=
  risingFrom_filter p h

theorem keep_wf {m : Sparse n} (p : Nat → Bool) (h : Sparse.wf m = true) : Sparse.wf (keep p m) = true :=
  filter_wf _ h

/-! ### Memory -/

theorem nil_wf : Memory.wf [] = true := rfl

theorem writeN_wf (m : Memory) (a k x : Nat) (h : Memory.wf m = true) : Memory.wf (writeN m a k x) = true := by
  induction k generalizing m a x with
  | zero => exact h
  | succ k ih => exact ih _ _ _ (put_wf _ _ h)

theorem writeMasked_wf (m : Memory) (a x mask k : Nat) (h : Memory.wf m = true) :
    Memory.wf (writeMasked m a x mask k) = true := by
  induction k generalizing m a x mask with
  | zero => exact h
  | succ k ih =>
    refine ih _ _ _ _ ?_
    split
    · exact put_wf _ _ h
    · exact h

theorem writeList_wf (m : Memory) (a : Nat) (bs : List Byte) (h : Memory.wf m = true) :
    Memory.wf (writeList m a bs) = true := by
  induction bs generalizing m a with
  | nil => exact h
  | cons b r ih => exact ih _ _ (put_wf _ _ h)

/-- One byte after a write of `k` bytes: byte b - a of the number inside, what was there before outside. -/
theorem readByte_writeN (m : Memory) (a k x b : Nat) (h : Memory.wf m = true) :
    readByte (writeN m a k x) b
      = if a ≤ b ∧ b < a + k then BitVec.ofNat 8 (x / 256 ^ (b - a)) else readByte m b := by
  induction k generalizing m a x with
  | zero => rw [if_neg (by omega)]; rfl
  | succ k ih =>
    simp only [writeN]
    rw [ih _ _ _ (put_wf _ _ h)]
    simp only [readByte]
    rcases Nat.lt_trichotomy b a with hlt | heq | hgt
    · rw [if_neg (by omega), if_neg (by omega), look_put a b _ h, if_neg (by omega)]
    · subst heq
      rw [if_neg (by omega), if_pos (by omega), look_put b b _ h, if_pos rfl]
      simp
    · by_cases hb : b < a + (k + 1)
      · rw [if_pos (by omega), if_pos (by omega)]
        have : b - a = (b - (a + 1)) + 1 := by omega
        rw [this, Nat.pow_succ, Nat.mul_comm, Nat.div_div_eq_div_mul]
      · rw [if_neg (by omega), if_neg (by omega), look_put a b _ h, if_neg (by omega)]

theorem readByte_writeN_outside (m : Memory) (a k x b : Nat) (h : Memory.wf m = true) (hb : b < a ∨ a + k ≤ b) :
    readByte (writeN m a k x) b = readByte m b := by
  rw [readByte_writeN m a k x b h, if_neg (by omega)]

theorem readN_congr (m m' : Memory) (a k : Nat) (h : ∀ b, a ≤ b → b < a + k → readByte m b = readByte m' b) :
    readN m a k = readN m' a k := by
  induction k generalizing a with
  | zero => rfl
  | succ k ih =>
    simp only [readN]
    rw [h a (by omega) (by omega), ih (a + 1) fun b h1 h2 => h b (by omega) (by omega)]

/-- A read of the bytes just written gives the number, modulo its width. -/
theorem readN_writeN (m : Memory) (a k x : Nat) (h : Memory.wf m = true) : readN (writeN m a k x) a k = x % 256 ^ k := by
  induction k generalizing m a x with
  | zero => simp [readN, Nat.mod_one]
  | succ k ih =>
    have e : (256 : Nat) ^ (k + 1) = 256 * 256 ^ k := by rw [Nat.pow_succ, Nat.mul_comm]
    simp only [readN]
    have h0 : readByte (writeN m a (k + 1) x) a = BitVec.ofNat 8 x := by
      rw [readByte_writeN m a (k + 1) x a h, if_pos (by omega)]; simp
    rw [h0]
    have h1 : readN (writeN m a (k + 1) x) (a + 1) k = x / 256 % 256 ^ k := by
      simp only [writeN]; exact ih _ _ _ (put_wf _ _ h)
    rw [h1, e, Nat.mod_mul]
    simp

theorem readN_writeN_outside (m : Memory) (a k x b j : Nat) (h : Memory.wf m = true) (hb : b + j ≤ a ∨ a + k ≤ b) :
    readN (writeN m a k x) b j = readN m b j :=
  readN_congr _ _ _ _ fun c h1 h2 => readByte_writeN_outside m a k x c h (by omega)

end Sys2Proof.Laws
end

