-- ==== Sys2Proof/Laws/Caches.lean ====
section
/-! SUPPORT. What the cache operations can do (R146-R151): they change the dies' caches, the bridge's queue, the cores' L1 and
package memory, and nothing else; and they keep the canonical form of package memory. -/

namespace Sys2Proof.Laws

open Sys2Proof Sys2Proof.Machine

/-- All of a state but what the caches hold: the dies, the bridge, the cores, package memory and which of its sectors are in
error. -/
def aside (s : State) : State :=
  { s with dies := State.reset.dies, bridge := Bridge.reset, cores := State.reset.cores, mem := [], bad := [] }

/-- From `s` to `t` only caches and memory change, and memory keeps its canonical form. -/
structure OnlyCaches (s t : State) : Prop where
  rest : aside t = aside s
  wf : Memory.wf s.mem = true → Memory.wf t.mem = true

theorem OnlyCaches.refl (s : State) : OnlyCaches s s := ⟨rfl, fun h => h⟩

theorem OnlyCaches.trans {s t u : State} (h : OnlyCaches s t) (g : OnlyCaches t u) : OnlyCaches s u :=
  ⟨g.rest.trans h.rest, fun m => g.wf (h.wf m)⟩

theorem OnlyCaches.fold {α : Type} {f : State → α → State} (hf : ∀ s a, OnlyCaches s (f s a)) (l : List α) (s : State) :
    OnlyCaches s (l.foldl f s) := by
  induction l generalizing s with
  | nil => exact .refl s
  | cons a r ih => exact (hf s a).trans (ih _)

theorem OnlyCaches.warps {s t : State} (h : OnlyCaches s t) : t.warps = s.warps := by
  have e := congrArg State.warps h.rest
  exact e
theorem OnlyCaches.units {s t : State} (h : OnlyCaches s t) : t.units = s.units := by
  have e := congrArg State.units h.rest
  exact e
theorem OnlyCaches.ctxs {s t : State} (h : OnlyCaches s t) : t.ctxs = s.ctxs := by
  have e := congrArg State.ctxs h.rest
  exact e
theorem OnlyCaches.parts {s t : State} (h : OnlyCaches s t) : t.parts = s.parts := by
  have e := congrArg State.parts h.rest
  exact e
theorem OnlyCaches.turn {s t : State} (h : OnlyCaches s t) : t.turn = s.turn := by
  have e := congrArg State.turn h.rest
  exact e
theorem OnlyCaches.now {s t : State} (h : OnlyCaches s t) : t.now = s.now := by
  have e := congrArg State.now h.rest
  exact e

/-- The bytes of package memory stay as they are, beside `OnlyCaches`. -/
structure OnlyCopies (s t : State) : Prop where
  rest : aside t = aside s
  mem : t.mem = s.mem

theorem OnlyCopies.toCaches {s t : State} (h : OnlyCopies s t) : OnlyCaches s t := ⟨h.rest, fun m => h.mem ▸ m⟩

theorem OnlyCopies.refl (s : State) : OnlyCopies s s := ⟨rfl, rfl⟩

theorem OnlyCopies.trans {s t u : State} (h : OnlyCopies s t) (g : OnlyCopies t u) : OnlyCopies s u :=
  ⟨g.rest.trans h.rest, g.mem.trans h.mem⟩

theorem OnlyCopies.fold {α : Type} {f : State → α → State} (hf : ∀ s a, OnlyCopies s (f s a)) (l : List α) (s : State) :
    OnlyCopies s (l.foldl f s) := by
  induction l generalizing s with
  | nil => exact .refl s
  | cons a r ih => exact (hf s a).trans (ih _)

theorem modDie_only (s : State) (d : Fin 2) (f : Die → Die) : OnlyCopies s (modDie s d f) := ⟨rfl, rfl⟩
theorem modCore_only (s : State) (c : Fin 384) (f : Core → Core) : OnlyCopies s (modCore s c f) := ⟨rfl, rfl⟩
theorem sendPacket_only (s : State) (dir : Fin 2) (a : Nat) (x : PktBody) (b : Bool) : OnlyCopies s (sendPacket s dir a x b) :=
  ⟨rfl, rfl⟩

/-- Only the caches of a die and the bridge change where an invalidation arrives. -/
theorem arrivePacket_only (s : State) (dir : Fin 2) (n : Nat) : OnlyCopies s (arrivePacket s dir n) := by
  have h : OnlyCopies s ((s.bridge.queue.filter fun p => p.between dir n && p.invalidates).foldl deliverPacket s) :=
    .fold (fun s p => by unfold deliverPacket; split <;> first | exact .refl _ | exact ⟨rfl, rfl⟩) _ _
  exact ⟨h.rest, h.mem⟩

theorem crossed_only (s : State) (a b : Fin 2) (n : Nat) : OnlyCopies s (crossed s a b n) := by
  unfold crossed
  split
  · exact .refl s
  · exact ((arrivePacket_only _ _ _).trans (arrivePacket_only _ _ _)).trans ((sendPacket_only _ _ _ _ _).trans (sendPacket_only _ _ _ _ _))

theorem pastStall_only {f : State → State} (hf : ∀ s, OnlyCaches s (f s)) (s : State) : OnlyCaches s (pastStall s f) :=
  by
  unfold pastStall
  simp only []
  split
  · exact ⟨(hf { s with bridge := { s.bridge with retrain := none, replay := [] } }).rest,
      (hf { s with bridge := { s.bridge with retrain := none, replay := [] } }).wf⟩
  · exact hf s

/-! ### L2 -/

theorem l2Mod_only (s : State) (d : Fin 2) (line : Nat) (f : L2Line → L2Line) : OnlyCopies s (l2Mod s d line f) := modDie_only _ _ _
theorem l2Remove_only (s : State) (d : Fin 2) (line : Nat) : OnlyCopies s (l2Remove s d line) := modDie_only _ _ _
theorem l2Drop_only (s : State) (d : Fin 2) (sec : Nat) : OnlyCopies s (l2Drop s d sec) := l2Mod_only _ _ _ _
theorem setForward_only (s : State) (line : Nat) (on : Bool) : OnlyCopies s (setForward s line on) := modDie_only _ _ _
theorem l2Alone_only (s : State) (line : Nat) : OnlyCopies s (l2Alone s line) := l2Mod_only _ _ _ _

theorem l2Evict_only (s : State) (d : Fin 2) (line : Nat) : OnlyCopies s (l2Evict s d line) := by
  unfold l2Evict
  simp only []
  refine (l2Remove_only s d line).trans ?_
  split
  · split
    · exact (crossed_only _ _ _ _).trans (setForward_only _ _ _)
    · exact .refl _
  · exact l2Alone_only _ _

theorem l2Room_only (d : Fin 2) (line need : Nat) (fuel : Nat) (s : State) : OnlyCopies s (l2Room s d line need fuel) := by
  induction fuel generalizing s with
  | zero => exact .refl s
  | succ k ih =>
    unfold l2Room
    split
    · exact .refl s
    · exact (l2Evict_only _ _ _).trans (ih _)

theorem l2Touch_only (s : State) (d : Fin 2) (line : Nat) (q : Acc) : OnlyCopies s (l2Touch s d line q) := by
  unfold l2Touch
  simp only []
  have h : ∀ {t : State}, OnlyCopies s t → ∀ {p : Prop} [Decidable p] {u v : State}, OnlyCopies t u → OnlyCopies t v →
      OnlyCopies s (if p then u else v) := by
    intro t ht p _ u v hu hv
    split
    · exact ht.trans hu
    · exact ht.trans hv
  split
  · refine h (t := ite _ _ _) ?_ (l2Mod_only _ _ _ _) (modDie_only _ _ _)
    split
    · exact l2Room_only _ _ _ _ _
    · exact .refl s
  · exact h (l2Room_only _ _ _ _ _) (.refl _) (modDie_only _ _ _)

theorem moveLine_only (s : State) (line : Nat) : OnlyCopies s (moveLine s line) := by
  unfold moveLine
  simp only []
  split
  · exact setForward_only _ _ _
  · exact ((l2Remove_only _ _ _).trans (l2Remove_only _ _ _)).trans ((l2Room_only _ _ _ _ _).trans
      ((modDie_only _ _ _).trans (((arrivePacket_only _ _ _).trans (sendPacket_only _ _ _ _ _)).trans (setForward_only _ _ _))))

theorem countAccess_only (s : State) (r : Fin 2) (line : Nat) (may : Bool) : OnlyCopies s (countAccess s r line may) := by
  unfold countAccess
  simp only []
  split
  · exact .refl s
  · split
    · exact .refl s
    · split
      · exact l2Mod_only _ _ _ _
      · split
        · exact moveLine_only _ _
        · exact l2Mod_only _ _ _ _

theorem recallLine_only (s : State) (line : Nat) : OnlyCopies s (recallLine s line) := by
  unfold recallLine
  split
  · exact moveLine_only _ _
  · exact .refl s

theorem recall_only (s : State) (a n : Nat) : OnlyCopies s (recallAt s a n) := .fold (fun s _ => recallLine_only s _) _ _

theorem l2Shared_only (s : State) (d : Fin 2) (line : Nat) (repl : Bool) : OnlyCopies s (l2Shared s d line repl) := by
  unfold l2Shared
  split
  · exact l2Mod_only _ _ _ _
  · exact .refl s

theorem l2Hold_only (s : State) (d : Fin 2) (sec : Nat) (q : Acc) (f : L2Line → L2Line) : OnlyCopies s (l2Hold s d sec q f) := by
  unfold l2Hold
  split
  · exact .refl s
  · exact (l2Touch_only _ _ _ _).trans (l2Mod_only _ _ _ _)

theorem l2Read_only (s : State) (r : Fin 2) (sec : Nat) (q : Acc) : OnlyCopies s (l2Read s r sec q).2 := by
  unfold l2Read
  simp only []
  split
  · exact (l2Hold_only _ _ _ _ _).trans ((l2Shared_only _ _ _ _).trans (countAccess_only _ _ _ _))
  · split
    · exact l2Touch_only _ _ _ _
    · refine .trans ?_ (countAccess_only _ _ _ _)
      split
      · exact (crossed_only _ _ _ _).trans (l2Hold_only _ _ _ _ _)
      · exact (crossed_only _ _ _ _).trans ((l2Hold_only _ _ _ _ _).trans (l2Hold_only _ _ _ _ _))

theorem noteDue_only (s : State) (line : Nat) (q : Acc) : OnlyCopies s (noteDue s line q) := by
  unfold noteDue
  simp only []
  split
  · split
    · exact l2Mod_only _ _ _ _
    · exact .refl s
  · exact .refl s

theorem l2Wrote_only (s : State) (r : Fin 2) (sec : Nat) (q : Acc) (atomic : Bool) : OnlyCopies s (l2Wrote s r sec q atomic) := by
  unfold l2Wrote
  simp only []
  refine .trans (.trans ?_ (crossed_only _ _ _ _)) (.trans (l2Hold_only _ _ _ _ _) (.trans (noteDue_only _ _ _) (countAccess_only _ _ _ _)))
  split
  · exact .refl s
  · split
    · exact (crossed_only _ _ _ _).trans (l2Drop_only _ _ _)
    · split
      · exact l2Drop_only _ _ _
      · exact sendPacket_only _ _ _ _ _

theorem healSector_only (s : State) (sec : Nat) : OnlyCopies s (healSector s sec) := ⟨rfl, rfl⟩
theorem harmSector_only (s : State) (sec : Nat) : OnlyCopies s (harmSector s sec) := ⟨rfl, rfl⟩
theorem wroteError_only (s : State) (l : L1Line) (k : Nat) : OnlyCopies s (wroteError s l k) := by
  unfold wroteError
  split
  · exact harmSector_only _ _
  · split
    · exact healSector_only _ _
    · exact .refl s

theorem homeRead_only (r : Fin 2) (q : Acc) (fuel : Nat) (s : State) (a n : Nat) :
    OnlyCopies s (homeRead s r q fuel a n).2 := by
  induction fuel generalizing s a n with
  | zero => exact .refl s
  | succ k ih =>
    unfold homeRead
    split
    · exact .refl s
    · exact .trans (l2Read_only _ _ _ _) (ih _ _ _)

theorem homeTouch_only (r : Fin 2) (q : Acc) (atomic : Bool) (fuel : Nat) (s : State) (a n : Nat) :
    OnlyCopies s (homeTouch s r q atomic fuel a n) := by
  induction fuel generalizing s a n with
  | zero => exact .refl s
  | succ k ih =>
    unfold homeTouch
    simp only []
    split
    · exact .refl s
    · refine .trans ?_ (ih _ _ _)
      split
      · exact (healSector_only _ _).trans (l2Wrote_only _ _ _ _ _)
      · exact l2Wrote_only _ _ _ _ _

/-- A write that leaves out the sectors a term block does not use keeps the canonical form of memory. -/
theorem usedWrite_wf (fuel : Nat) (m : Memory) (a n x : Nat) (h : Memory.wf m = true) :
    Memory.wf (usedWrite m fuel a n x) = true := by
  induction fuel generalizing m a n x with
  | zero => exact h
  | succ k ih =>
    unfold usedWrite
    simp only []
    split
    · exact h
    · refine ih _ _ _ _ ?_
      split
      · exact h
      · exact writeN_wf _ _ _ _ h

/-- A write at a home slice keeps the canonical form of memory. -/
theorem homeMem_wf (m : Memory) (q : Acc) (a n x : Nat) (h : Memory.wf m = true) : Memory.wf (homeMem m q a n x) = true := by
  unfold homeMem
  split
  · exact usedWrite_wf _ _ _ _ _ h
  · exact writeN_wf _ _ _ _ h

/-- A write at a home slice leaves in memory the bytes written, but for those of sectors that a term block does not use
(R148, R149). -/
theorem homeWrite_mem (s : State) (r : Fin 2) (q : Acc) (atomic : Bool) (a n x : Nat) :
    (homeWrite s r q atomic a n x).mem = homeMem s.mem q a n x :=
  (homeTouch_only r q atomic (n + 1) { s with mem := homeMem s.mem q a n x } a n).mem

theorem homeWrite_only (s : State) (r : Fin 2) (q : Acc) (atomic : Bool) (a n x : Nat) :
    OnlyCaches s (homeWrite s r q atomic a n x) :=
  ⟨(homeTouch_only r q atomic (n + 1) { s with mem := homeMem s.mem q a n x } a n).rest,
   fun m => by rw [homeWrite_mem]; exact homeMem_wf _ _ _ _ _ m⟩

theorem marks_only (d : Fin 2) (l : L1Line) (q : Acc) (s : State) :
    OnlyCopies s ((List.range 4).foldl
      (fun s k =>
        if dirtyOf l k = 0 then s
        else l2Wrote (wroteError s l k) d (l.line * 4 + k) q false) s) := by
  refine .fold (fun s k => ?_) _ _
  split
  · exact .refl s
  · exact (wroteError_only _ _ _).trans (l2Wrote_only _ _ _ _ _)

/-- A write-back leaves in memory the dirty bytes of the line, where they can go there (R146). -/
theorem writeBack_mem (s : State) (d : Fin 2) (l : L1Line) :
    (writeBack s d l).mem
      = if l.dirty = 0 || !lineFree s d l then s.mem
        else writeMasked s.mem (l.line * 256) l.data.toNat l.dirty.toNat 256 := by
  unfold writeBack
  split
  · rfl
  · generalize writeMasked s.mem (l.line * 256) l.data.toNat l.dirty.toNat 256 = m
    exact (marks_only d l _ { s with mem := m }).mem

theorem writeBack_only (s : State) (d : Fin 2) (l : L1Line) : OnlyCaches s (writeBack s d l) := by
  refine ⟨?_, fun m => ?_⟩
  · unfold writeBack
    split
    · rfl
    · generalize writeMasked s.mem (l.line * 256) l.data.toNat l.dirty.toNat 256 = m
      exact (marks_only d l _ { s with mem := m }).rest
  · rw [writeBack_mem]
    split
    · exact m
    · exact writeMasked_wf _ _ _ _ _ m

/-! ### L1 -/

theorem l1Put_only (s : State) (c : Fin 384) (l : L1Line) : OnlyCopies s (l1Put s c l) := modCore_only _ _ _

theorem l1Touch_only (s : State) (c : Fin 384) (line : Nat) (q : Acc) : OnlyCaches s (l1Touch s c line q) := by
  unfold l1Touch
  simp only []
  split
  · exact (l1Put_only _ _ _).toCaches
  · have h : ∀ t : State, OnlyCaches s t → ∀ b : Prop, [Decidable b] → ∀ l, OnlyCaches s (if b then t else l1Put t c l) := by
      intro t ht b _ l
      split
      · exact ht
      · exact ht.trans (l1Put_only _ _ _).toCaches
    refine h _ ?_ _ _
    split
    · exact .refl s
    · exact (writeBack_only _ _ _).trans (modCore_only _ _ _).toCaches

theorem l1Fill_only (s : State) (c : Fin 384) (sec : Nat) (q : Acc) : OnlyCaches s (l1Fill s c sec q) := by
  unfold l1Fill
  simp only []
  refine (l1Touch_only s c (sec / 4) q).trans ?_
  split
  · exact .refl _
  · split
    · exact .refl _
    · exact ((l2Read_only _ _ _ _).trans (l1Put_only _ _ _)).toCaches

theorem l1Sector_only (s : State) (c : Fin 384) (q : Acc) (sec : Nat) : OnlyCaches s (l1Sector s c q sec).2 := by
  unfold l1Sector
  simp only []
  split
  · exact (l2Read_only _ _ _ _).toCaches
  · split
    · exact l1Fill_only _ _ _ _
    · exact (l1Fill_only _ _ _ _).trans (l2Read_only _ _ _ _).toCaches

theorem l1Read_only (c : Fin 384) (q : Acc) (fuel : Nat) (s : State) (a n : Nat) : OnlyCaches s (l1Read s c q fuel a n).2 := by
  induction fuel generalizing s a n with
  | zero => exact .refl s
  | succ k ih =>
    unfold l1Read
    simp only []
    split
    · exact .refl s
    · exact (l1Sector_only _ _ _ _).trans (ih _ _ _)

theorem l1Write_only (c : Fin 384) (q : Acc) (fuel : Nat) (s : State) (a n x : Nat) : OnlyCaches s (l1Write s c q fuel a n x) := by
  induction fuel generalizing s a n x with
  | zero => exact .refl s
  | succ k ih =>
    unfold l1Write
    simp only []
    split
    · exact .refl s
    · refine .trans ?_ (ih _ _ _ _)
      split
      · refine .trans (homeWrite_only s (coreDie c) q false a (inSector a n) x) ?_
        split
        · split
          · exact (l1Put_only _ _ _).toCaches
          · exact .refl _
        · exact .refl _
      · refine (l1Fill_only s c (a / 64) q).trans ?_
        split
        · exact (l1Put_only _ _ _).toCaches
        · exact homeWrite_only _ _ _ _ _ _ _

theorem l1Refresh_only (s : State) (c : Fin 384) (a n x : Nat) : OnlyCopies s (l1Refresh s c a n x) := by
  unfold l1Refresh
  split
  · split
    · exact l1Put_only _ _ _
    · exact .refl s
  · exact .refl s

theorem l1Clean_only (s : State) (c : Fin 384) (p : L1Line → Bool) : OnlyCaches s (l1Clean s c p) := by
  unfold l1Clean
  refine .fold (fun s l => ?_) _ _
  unfold l1CleanLine
  split
  · exact (writeBack_only _ _ _).trans (modCore_only _ _ _).toCaches
  · exact .refl _

theorem l1Drop_only (s : State) (c : Fin 384) (p : L1Line → Bool) : OnlyCopies s (l1Drop s c p) := modCore_only _ _ _

theorem l1DropClean_only (s : State) (c : Fin 384) (p : L1Line → Bool) : OnlyCopies s (l1DropClean s c p) := ⟨rfl, rfl⟩

end Sys2Proof.Laws
end

