-- ==== Sys2Proof/Laws/Ints.lean ====
section
/-! SUPPORT. Integers in fields (R6, R180, R283): low bits, sub-elements of a joined value, and the flags of a join. -/

namespace Sys2Proof.Laws

open Sys2Proof Sys2Proof.Machine

theorem lowBits_cast (n : Nat) (v : Int) : (lowBits n v : Int) = v % (2 ^ n : Nat) := by
  have h : (0 : Int) < (2 ^ n : Nat) := by exact_mod_cast Nat.two_pow_pos n
  simp only [lowBits]
  rw [Int.toNat_of_nonneg (Int.emod_nonneg _ (by omega))]

theorem lowBits_lt (n : Nat) (v : Int) : lowBits n v < 2 ^ n := by
  have h : (0 : Int) < (2 ^ n : Nat) := by exact_mod_cast Nat.two_pow_pos n
  have h1 := lowBits_cast n v
  have h2 := Int.emod_lt_of_pos v h
  omega

theorem bitsOf_lt (w : Word) (lo n : Nat) : bitsOf w lo n < 2 ^ n := Nat.mod_lt _ (Nat.two_pow_pos n)

/-- The value that a type reads is the bits, modulo the width (R283). -/
theorem intOf_mod (t : Ty) (x : Nat) : intOf t x % (2 ^ tyWidth t : Nat) = (x % 2 ^ tyWidth t : Nat) := by
  have h : (0 : Int) < (2 ^ tyWidth t : Nat) := by exact_mod_cast Nat.two_pow_pos (tyWidth t)
  simp only [intOf]
  split
  · simp only [signedOf]
    split
    · rw [Int.emod_eq_of_lt (by omega)]
      exact_mod_cast Nat.mod_lt _ (Nat.two_pow_pos _)
    · rw [Int.sub_emod_right, Int.emod_eq_of_lt (by omega)]
      exact_mod_cast Nat.mod_lt _ (Nat.two_pow_pos _)
  · rw [Int.emod_eq_of_lt (by omega)]
    exact_mod_cast Nat.mod_lt _ (Nat.two_pow_pos _)

theorem joinSubs_lt (w : Nat) (xs : List Nat) : joinSubs w xs < 2 ^ (w * xs.length) := by
  induction xs with
  | nil => simp [joinSubs]
  | cons x r ih =>
    have h2 : x % 2 ^ w < 2 ^ w := Nat.mod_lt _ (Nat.two_pow_pos w)
    simp only [joinSubs, List.length_cons, Nat.mul_add, Nat.mul_one, Nat.pow_add]
    calc x % 2 ^ w + 2 ^ w * joinSubs w r < 2 ^ w + 2 ^ w * joinSubs w r := by omega
      _ = 2 ^ w * (joinSubs w r + 1) := by rw [Nat.mul_add]; omega
      _ ≤ 2 ^ w * 2 ^ (w * r.length) := Nat.mul_le_mul_left _ ih
      _ = 2 ^ (w * r.length) * 2 ^ w := Nat.mul_comm _ _

theorem joinSubs_get (w : Nat) (xs : List Nat) (k : Nat) (hk : k < xs.length) :
    joinSubs w xs / 2 ^ (k * w) % 2 ^ w = xs[k] % 2 ^ w := by
  induction xs generalizing k with
  | nil => simp at hk
  | cons x r ih =>
    have hp := Nat.two_pow_pos w
    cases k with
    | zero => simp [joinSubs]
    | succ k =>
      have e : (k + 1) * w = w + k * w := by rw [Nat.add_mul]; omega
      simp only [joinSubs, e, Nat.pow_add, ← Nat.div_div_eq_div_mul, List.getElem_cons_succ]
      rw [Nat.add_mul_div_left _ _ hp, Nat.div_eq_of_lt (Nat.mod_lt _ hp), Nat.zero_add]
      exact ih k (by simpa using hk)

/-- A sub-element of a joined value is what was joined there (R6). -/
theorem bitsOf_joinSubs (w : Nat) (xs : List Nat) (k : Nat) (hk : k < xs.length) (h : w * xs.length ≤ 64) :
    bitsOf (BitVec.ofNat 64 (joinSubs w xs)) (k * w) w = xs[k] % 2 ^ w := by
  have h1 := joinSubs_lt w xs
  have h2 : joinSubs w xs < 2 ^ 64 := Nat.lt_of_lt_of_le h1 (Nat.pow_le_pow_right (by decide) h)
  simp only [bitsOf, BitVec.toNat_ofNat, Nat.mod_eq_of_lt h2, Nat.shiftRight_eq_div_pow]
  exact joinSubs_get w xs k hk

theorem tyWidth_pos (t : Ty) : 0 < tyWidth t := by cases t <;> decide

theorem tyWidth_split (t : Ty) : tyWidth t * (64 / tyWidth t) = 64 := by cases t <;> rfl

/-- A sub-element of what a per-sub-element function gives (R283). -/
theorem bitsOf_eachSub (t : Ty) (h : Nat → Nat → Nat → Res1) (a b c : Word) (k : Nat) (hk : k < 64 / tyWidth t) :
    bitsOf (eachSub (tyWidth t) h a b c).1 (k * tyWidth t) (tyWidth t)
      = (h (bitsOf a (k * tyWidth t) (tyWidth t)) (bitsOf b (k * tyWidth t) (tyWidth t)) (bitsOf c (k * tyWidth t) (tyWidth t))).1
          % 2 ^ tyWidth t := by
  simp only [eachSub, joinRes]
  rw [bitsOf_joinSubs]
  · simp
  · simpa using hk
  · simp [tyWidth_split t]

/-! ### Flags -/

/-- Whether every flag word of a list is zero or a given one, their join is that one exactly where some of them is. -/
theorem orFlags {α : Type} (f : BitVec 16) (g : α → BitVec 16) (l : List α) (hg : ∀ x ∈ l, g x = 0 ∨ g x = f)
    (z : BitVec 16) (hz : z = 0 ∨ z = f) :
    (l.foldl (fun a x => a ||| g x) z = 0 ∨ l.foldl (fun a x => a ||| g x) z = f)
    ∧ (l.foldl (fun a x => a ||| g x) z = f ↔ z = f ∨ ∃ x ∈ l, g x = f) := by
  induction l generalizing z with
  | nil => simpa using hz
  | cons y r ih =>
    have hy := hg y (by simp)
    have hr := fun x hx => hg x (List.mem_cons_of_mem _ hx)
    simp only [List.foldl_cons]
    have h2 : z ||| g y = 0 ∨ z ||| g y = f := by
      rcases hz with rfl | rfl <;> rcases hy with e | e <;> simp [e]
    have h3 : z ||| g y = f ↔ z = f ∨ g y = f := by
      rcases hz with rfl | rfl <;> rcases hy with e | e <;> simp [e]
    obtain ⟨i1, i2⟩ := ih hr _ h2
    refine ⟨i1, i2.trans ?_⟩
    rw [h3]
    simp [or_assoc]

theorem flags_none {α : Type} (g : α → BitVec 16) (l : List α) (hg : ∀ x ∈ l, g x = 0) :
    l.foldl (fun a x => a ||| g x) 0 = 0 := by
  induction l with
  | nil => rfl
  | cons y r ih =>
    simp only [List.foldl_cons, hg y (by simp)]
    simpa using ih fun x hx => hg x (List.mem_cons_of_mem _ hx)

theorem mem_lanes (m : Mask) (l : Fin 32) : l ∈ m.lanes ↔ m.getLsbD l.val = true := by
  simp [Mask.lanes]

theorem flagsOver_zero (m : Mask) (r : Fin 32 → Word × BitVec 16) (h : ∀ l, (r l).2 = 0) : flagsOver m r = 0 :=
  flags_none (fun l => (r l).2) _ fun l _ => h l

end Sys2Proof.Laws
end

