-- ==== Sys2Proof/Laws/Issue.lean ====
section
/-! SUPPORT. What the shared issue operation answers (R93, R111, R123, R258): the effect's outcome, carried to its end. -/

namespace Sys2Proof.Laws

open Sys2Proof Sys2Proof.Machine

theorem issuerOf_at {s : State} {w : Warp} {sp : Fin 8} {x : Split} (h : AtIssue s w sp x) : issuerOf s = some (w, sp, x) := by
  simp [issuerOf, h.turn, h.warp, h.split]

/-- An instruction that issues does what its effect comes to. -/
theorem issue_effect {i : Instr} {s : State} {w : Warp} {sp : Fin 8} {x : Split} (h : Issues i s w sp x)
    (effect : State → Iss → Effect) :
    issue i effect s
      = .next (conclude { s with turn := none } (issOf i w sp x) (effect (counted s w sp) (issOf i w sp x))) := by
  have hw : wordFault i { s with turn := none } w x = none := h.words
  simp only [issue, issuerOf_at h.toAtIssue, hw, h.ready]
  rfl

/-- An instruction whose effect goes on to the next instruction. -/
theorem issue_next {i : Instr} {s : State} {w : Warp} {sp : Fin 8} {x : Split} (h : Issues i s w sp x)
    {effect : State → Iss → Effect} {t : State} (he : effect (counted s w sp) (issOf i w sp x) = .next t) :
    issue i effect s = .next (thenNext t i w sp x) := by
  rw [issue_effect h, he]
  rfl

theorem issue_moved {i : Instr} {s : State} {w : Warp} {sp : Fin 8} {x : Split} (h : Issues i s w sp x)
    {effect : State → Iss → Effect} {t : State} (he : effect (counted s w sp) (issOf i w sp x) = .moved t) :
    issue i effect s = .next (settle t w.id) := by
  rw [issue_effect h, he]
  rfl

theorem issue_fault {i : Instr} {s : State} {w : Warp} {sp : Fin 8} {x : Split} (h : Issues i s w sp x)
    {effect : State → Iss → Effect} {f : FaultInfo} (he : effect (counted s w sp) (issOf i w sp x) = .fault f) :
    issue i effect s = .next (thenFault { s with turn := none } i w sp x f) := by
  rw [issue_effect h, he]
  rfl

/-- An instruction that acts for its warp, with no active lane, only goes on (R113). -/
theorem issueWarp_idle {i : Instr} {s : State} {w : Warp} {sp : Fin 8} {x : Split} (h : Issues i s w sp x)
    (effect : State → Iss → Effect) (ha : activeOf i w x = 0) :
    issueWarp i effect s = .next (thenNext (counted s w sp) i w sp x) :=
  issue_next h (if_pos ha)

theorem issueWarp_next {i : Instr} {s : State} {w : Warp} {sp : Fin 8} {x : Split} (h : Issues i s w sp x)
    {effect : State → Iss → Effect} {t : State} (ha : activeOf i w x ≠ 0)
    (he : effect (counted s w sp) (issOf i w sp x) = .next t) :
    issueWarp i effect s = .next (thenNext t i w sp x) :=
  issue_next h ((if_neg ha).trans he)

/-- Words that are not legal where they stand take their exception (R258). -/
theorem issue_wordFault {i : Instr} {s : State} {w : Warp} {sp : Fin 8} {x : Split} (h : AtIssue s w sp x) {cause : Nat}
    (hw : wordFault i s w x = some cause) (effect : State → Iss → Effect) :
    issue i effect s = .next (thenFault { s with turn := none } i w sp x (faultOf cause)) := by
  have hw : wordFault i { s with turn := none } w x = some cause := hw
  simp only [issue, issuerOf_at h, hw]
  rfl

/-- An instruction that names a register with a result on its way waits (R123). -/
theorem issue_pending {i : Instr} {s : State} {w : Warp} {sp : Fin 8} {x : Split} (h : AtIssue s w sp x)
    (hw : wordFault i s w x = none) (hp : pendingRegister w (namedOf i) = true) (effect : State → Iss → Effect) :
    issue i effect s = .next (conclude { s with turn := none } (issOf i w sp x) (.wait { s with turn := none })) := by
  have hw : wordFault i { s with turn := none } w x = none := hw
  simp only [issue, issuerOf_at h, hw, hp]
  rfl

/-- An issue always answers a next state, but where no split stands at issue. -/
theorem issue_answers (i : Instr) (effect : State → Iss → Effect) (s : State) :
    (issuerOf s = none ∧ issue i effect s = .fault .noIssuer) ∨ ∃ t, issue i effect s = .next t := by
  cases h : issuerOf s with
  | none => exact .inl ⟨rfl, by simp only [issue, h]⟩
  | some a =>
    obtain ⟨w, sp, x⟩ := a
    refine .inr ?_
    simp only [issue, h]
    split
    · exact ⟨_, rfl⟩
    · split <;> exact ⟨_, rfl⟩

theorem issueWarp_answers (i : Instr) (effect : State → Iss → Effect) (s : State) :
    (issuerOf s = none ∧ issueWarp i effect s = .fault .noIssuer) ∨ ∃ t, issueWarp i effect s = .next t :=
  issue_answers i _ s

/-! ### What the count of an issue leaves alone -/

theorem srcVal_counted (s : State) (w : Warp) (sp : Fin 8) (c : Iss) (t : Ty) (imm : BitVec 32) (a : Src) (l : Fin 32) :
    srcVal (counted s w sp) c t imm a l = srcVal s c t imm a l := by
  cases a <;> rfl

theorem laneRes_counted (s : State) (w : Warp) (sp : Fin 8) (c : Iss) (f : VForm) (g : LaneFn) :
    laneRes (counted s w sp) c f g = laneRes s c f g := by
  funext l
  simp only [laneRes, srcVal_counted]

/-! ### Vector forms -/

/-- A vector form without chain fields writes its results and its flags, and nothing else. -/
theorem runV_plain {i : Instr} {s : State} {w : Warp} {sp : Fin 8} {x : Split} (h : Issues i s w sp x) {f : VForm}
    (hf : vform i = some f) (hc : isChained f.o = false) (dest : VDest) (g : LaneFn) :
    runV i dest g s = .next (thenNext (deliver (counted s w sp) (issOf i w sp x) f.o.d dest
      (laneRes s (issOf i w sp x) f g)) i w sp x) := by
  refine issue_next h ?_
  simp only [hf, vEffect, hc, Bool.false_and, laneRes_counted]
  rfl

/-- A form with a v-register destination and no chain fields. -/
theorem runV_reg {i : Instr} {s : State} {w : Warp} {sp : Fin 8} {x : Split} (h : Issues i s w sp x) {f : VForm}
    (hf : vform i = some f) (hc : isChained f.o = false) {g : LaneFn} (he : exec i s = runV i .reg g s) :
    Writes i s w sp x fun y => setFlags (setV y f.o.d (activeOf i w x) fun l => (laneRes s (issOf i w sp x) f g l).1)
      (flagsOver (activeOf i w x) (laneRes s (issOf i w sp x) f g)) := by
  unfold Writes RunsTo
  rw [he, runV_plain h hf hc]
  rfl

/-- With no active lane a chained form does nothing. -/
theorem runV_idle {i : Instr} {s : State} {w : Warp} {sp : Fin 8} {x : Split} (h : Issues i s w sp x) {f : VForm}
    (hf : vform i = some f) (ha : activeOf i w x = 0) (dest : VDest) (g : LaneFn) :
    runV i dest g s = .next (thenNext (deliver (counted s w sp) (issOf i w sp x) f.o.d dest
      (laneRes s (issOf i w sp x) f g)) i w sp x) := by
  refine issue_next h ?_
  have ha : (issOf i w sp x).act = 0 := ha
  simp [hf, vEffect, ha, laneRes_counted]

end Sys2Proof.Laws
end

