-- ==== Sys2Proof/Laws/State.lean ====
section
/-! SUPPORT. One lemma per field per update: of the state (a warp, a unit, a context, a die, a core), of a warp's registers
and of its splits. A proof cites these and unfolds no record update. -/

namespace Sys2Proof.Machine

/-! ### Updates of the state -/

@[simp] theorem modWarp_mem (s : State) (w : Nat) (f : Warp → Warp) : (modWarp s w f).mem = s.mem := rfl
@[simp] theorem modWarp_dies (s : State) (w : Nat) (f : Warp → Warp) : (modWarp s w f).dies = s.dies := rfl
@[simp] theorem modWarp_cores (s : State) (w : Nat) (f : Warp → Warp) : (modWarp s w f).cores = s.cores := rfl
@[simp] theorem modWarp_parts (s : State) (w : Nat) (f : Warp → Warp) : (modWarp s w f).parts = s.parts := rfl
@[simp] theorem modWarp_ctxs (s : State) (w : Nat) (f : Warp → Warp) : (modWarp s w f).ctxs = s.ctxs := rfl
@[simp] theorem modWarp_units (s : State) (w : Nat) (f : Warp → Warp) : (modWarp s w f).units = s.units := rfl
@[simp] theorem modWarp_copies (s : State) (w : Nat) (f : Warp → Warp) : (modWarp s w f).copies = s.copies := rfl
@[simp] theorem modWarp_mops (s : State) (w : Nat) (f : Warp → Warp) : (modWarp s w f).mops = s.mops := rfl
@[simp] theorem modWarp_results (s : State) (w : Nat) (f : Warp → Warp) : (modWarp s w f).results = s.results := rfl
@[simp] theorem modWarp_turn (s : State) (w : Nat) (f : Warp → Warp) : (modWarp s w f).turn = s.turn := rfl
@[simp] theorem modWarp_now (s : State) (w : Nat) (f : Warp → Warp) : (modWarp s w f).now = s.now := rfl
@[simp] theorem modWarp_serial (s : State) (w : Nat) (f : Warp → Warp) : (modWarp s w f).serial = s.serial := rfl

@[simp] theorem modUnit_mem (s : State) (u : Nat) (f : UnitSt → UnitSt) : (modUnit s u f).mem = s.mem := rfl
@[simp] theorem modUnit_dies (s : State) (u : Nat) (f : UnitSt → UnitSt) : (modUnit s u f).dies = s.dies := rfl
@[simp] theorem modUnit_cores (s : State) (u : Nat) (f : UnitSt → UnitSt) : (modUnit s u f).cores = s.cores := rfl
@[simp] theorem modUnit_parts (s : State) (u : Nat) (f : UnitSt → UnitSt) : (modUnit s u f).parts = s.parts := rfl
@[simp] theorem modUnit_ctxs (s : State) (u : Nat) (f : UnitSt → UnitSt) : (modUnit s u f).ctxs = s.ctxs := rfl
@[simp] theorem modUnit_warps (s : State) (u : Nat) (f : UnitSt → UnitSt) : (modUnit s u f).warps = s.warps := rfl
@[simp] theorem modUnit_turn (s : State) (u : Nat) (f : UnitSt → UnitSt) : (modUnit s u f).turn = s.turn := rfl
@[simp] theorem modUnit_now (s : State) (u : Nat) (f : UnitSt → UnitSt) : (modUnit s u f).now = s.now := rfl

@[simp] theorem modCtx_mem (s : State) (c : Fin 64) (f : Ctx → Ctx) : (modCtx s c f).mem = s.mem := rfl
@[simp] theorem modCtx_dies (s : State) (c : Fin 64) (f : Ctx → Ctx) : (modCtx s c f).dies = s.dies := rfl
@[simp] theorem modCtx_cores (s : State) (c : Fin 64) (f : Ctx → Ctx) : (modCtx s c f).cores = s.cores := rfl
@[simp] theorem modCtx_parts (s : State) (c : Fin 64) (f : Ctx → Ctx) : (modCtx s c f).parts = s.parts := rfl
@[simp] theorem modCtx_units (s : State) (c : Fin 64) (f : Ctx → Ctx) : (modCtx s c f).units = s.units := rfl
@[simp] theorem modCtx_warps (s : State) (c : Fin 64) (f : Ctx → Ctx) : (modCtx s c f).warps = s.warps := rfl
@[simp] theorem modCtx_turn (s : State) (c : Fin 64) (f : Ctx → Ctx) : (modCtx s c f).turn = s.turn := rfl
@[simp] theorem modCtx_now (s : State) (c : Fin 64) (f : Ctx → Ctx) : (modCtx s c f).now = s.now := rfl
@[simp] theorem modCtx_same (s : State) (c : Fin 64) (f : Ctx → Ctx) : (modCtx s c f).ctxs[c] = f s.ctxs[c] := by
  simp [modCtx]
@[simp] theorem modCtx_other (s : State) (c d : Fin 64) (f : Ctx → Ctx) (h : d ≠ c) : (modCtx s c f).ctxs[d] = s.ctxs[d] := by
  simp [modCtx, Fin.val_inj, Ne.symm h]

@[simp] theorem modDie_mem (s : State) (d : Fin 2) (f : Die → Die) : (modDie s d f).mem = s.mem := rfl
@[simp] theorem modDie_cores (s : State) (d : Fin 2) (f : Die → Die) : (modDie s d f).cores = s.cores := rfl
@[simp] theorem modDie_parts (s : State) (d : Fin 2) (f : Die → Die) : (modDie s d f).parts = s.parts := rfl
@[simp] theorem modDie_ctxs (s : State) (d : Fin 2) (f : Die → Die) : (modDie s d f).ctxs = s.ctxs := rfl
@[simp] theorem modDie_units (s : State) (d : Fin 2) (f : Die → Die) : (modDie s d f).units = s.units := rfl
@[simp] theorem modDie_warps (s : State) (d : Fin 2) (f : Die → Die) : (modDie s d f).warps = s.warps := rfl
@[simp] theorem modDie_now (s : State) (d : Fin 2) (f : Die → Die) : (modDie s d f).now = s.now := rfl
@[simp] theorem modDie_same (s : State) (d : Fin 2) (f : Die → Die) : (modDie s d f).dies[d] = f s.dies[d] := by
  simp [modDie]
@[simp] theorem modDie_other (s : State) (d e : Fin 2) (f : Die → Die) (h : e ≠ d) : (modDie s d f).dies[e] = s.dies[e] := by
  simp [modDie, Fin.val_inj, Ne.symm h]

@[simp] theorem modCore_mem (s : State) (c : Fin 384) (f : Core → Core) : (modCore s c f).mem = s.mem := rfl
@[simp] theorem modCore_dies (s : State) (c : Fin 384) (f : Core → Core) : (modCore s c f).dies = s.dies := rfl
@[simp] theorem modCore_parts (s : State) (c : Fin 384) (f : Core → Core) : (modCore s c f).parts = s.parts := rfl
@[simp] theorem modCore_ctxs (s : State) (c : Fin 384) (f : Core → Core) : (modCore s c f).ctxs = s.ctxs := rfl
@[simp] theorem modCore_units (s : State) (c : Fin 384) (f : Core → Core) : (modCore s c f).units = s.units := rfl
@[simp] theorem modCore_warps (s : State) (c : Fin 384) (f : Core → Core) : (modCore s c f).warps = s.warps := rfl
@[simp] theorem modCore_now (s : State) (c : Fin 384) (f : Core → Core) : (modCore s c f).now = s.now := rfl
@[simp] theorem modCore_same (s : State) (c : Fin 384) (f : Core → Core) : (modCore s c f).cores[c] = f s.cores[c] := by
  simp [modCore]
@[simp] theorem modCore_other (s : State) (c d : Fin 384) (f : Core → Core) (h : d ≠ c) :
    (modCore s c f).cores[d] = s.cores[d] := by
  simp [modCore, Fin.val_inj, Ne.symm h]

/-! ### Messages: they change the host port's queues and, from die 1, the bridge -/

@[simp] theorem sendPacket_mem (s : State) (d : Fin 2) (a : Nat) (x : PktBody) (b : Bool) : (sendPacket s d a x b).mem = s.mem := rfl
@[simp] theorem sendPacket_dies (s : State) (d : Fin 2) (a : Nat) (x : PktBody) (b : Bool) : (sendPacket s d a x b).dies = s.dies := rfl
@[simp] theorem sendPacket_cores (s : State) (d : Fin 2) (a : Nat) (x : PktBody) (b : Bool) : (sendPacket s d a x b).cores = s.cores := rfl
@[simp] theorem sendPacket_parts (s : State) (d : Fin 2) (a : Nat) (x : PktBody) (b : Bool) : (sendPacket s d a x b).parts = s.parts := rfl
@[simp] theorem sendPacket_ctxs (s : State) (d : Fin 2) (a : Nat) (x : PktBody) (b : Bool) : (sendPacket s d a x b).ctxs = s.ctxs := rfl
@[simp] theorem sendPacket_units (s : State) (d : Fin 2) (a : Nat) (x : PktBody) (b : Bool) : (sendPacket s d a x b).units = s.units := rfl
@[simp] theorem sendPacket_warps (s : State) (d : Fin 2) (a : Nat) (x : PktBody) (b : Bool) : (sendPacket s d a x b).warps = s.warps := rfl
@[simp] theorem sendPacket_links (s : State) (d : Fin 2) (a : Nat) (x : PktBody) (b : Bool) : (sendPacket s d a x b).links = s.links := rfl
@[simp] theorem sendPacket_host (s : State) (d : Fin 2) (a : Nat) (x : PktBody) (b : Bool) : (sendPacket s d a x b).host = s.host := rfl
@[simp] theorem sendPacket_now (s : State) (d : Fin 2) (a : Nat) (x : PktBody) (b : Bool) : (sendPacket s d a x b).now = s.now := rfl
@[simp] theorem sendPacket_bad (s : State) (d : Fin 2) (a : Nat) (x : PktBody) (b : Bool) : (sendPacket s d a x b).bad = s.bad := rfl

/-- All that a message to the host can change: the bridge that a message of die 1 crosses, and one of the queues of the host port, which
takes the message, as it is or as one that has crossed; where the bridge is down it is lost. -/
theorem toHostFor_cases (s : State) (x : HeldMsg) :
    (∃ b, toHostFor s x = { s with bridge := b, hostOut := s.hostOut ++ [x.msg] }) ∨
    (∃ b d, toHostFor s x = { s with bridge := b, host := { s.host with held := s.host.held ++ [{ x with die := d }] } }) ∨
    (toHostFor s x = s ∧ crossing s x.die 0 = .down) := by
  have port : ∀ t : State, t.host = s.host → t.hostOut = s.hostOut → (∃ b, t = { s with bridge := b }) →
      (∃ b, atHostPort t x = { s with bridge := b, hostOut := s.hostOut ++ [x.msg] }) ∨
      (∃ b d, atHostPort t x = { s with bridge := b, host := { s.host with held := s.host.held ++ [{ x with die := d }] } }) := by
    rintro t - - ⟨b, rfl⟩
    unfold atHostPort
    split
    · exact .inl ⟨b, rfl⟩
    · exact .inr ⟨b, 0, rfl⟩
  unfold toHostFor
  split
  · exact .inr (.inr ⟨rfl, ‹_›⟩)
  · exact .inr (.inl ⟨s.bridge, x.die, rfl⟩)
  · split
    · exact (port s rfl rfl ⟨s.bridge, rfl⟩).imp_right .inl
    · split
      · exact .inr (.inl ⟨s.bridge, x.die, rfl⟩)
      · exact (port (sendPacket s x.die hostAgent .request true) rfl rfl ⟨_, rfl⟩).imp_right .inl

@[simp] theorem toHostFor_mem (s : State) (x : HeldMsg) : (toHostFor s x).mem = s.mem := by
  obtain ⟨b, h⟩ | ⟨b, d, h⟩ | ⟨h, -⟩ := toHostFor_cases s x <;> rw [h]
@[simp] theorem toHostFrom_mem (s : State) (d : Fin 2) (m : HostMsg) : (toHostFrom s d m).mem = s.mem := toHostFor_mem _ _
@[simp] theorem toHostFor_dies (s : State) (x : HeldMsg) : (toHostFor s x).dies = s.dies := by
  obtain ⟨b, h⟩ | ⟨b, d, h⟩ | ⟨h, -⟩ := toHostFor_cases s x <;> rw [h]
@[simp] theorem toHostFrom_dies (s : State) (d : Fin 2) (m : HostMsg) : (toHostFrom s d m).dies = s.dies := toHostFor_dies _ _
@[simp] theorem toHostFor_cores (s : State) (x : HeldMsg) : (toHostFor s x).cores = s.cores := by
  obtain ⟨b, h⟩ | ⟨b, d, h⟩ | ⟨h, -⟩ := toHostFor_cases s x <;> rw [h]
@[simp] theorem toHostFrom_cores (s : State) (d : Fin 2) (m : HostMsg) : (toHostFrom s d m).cores = s.cores := toHostFor_cores _ _
@[simp] theorem toHostFor_parts (s : State) (x : HeldMsg) : (toHostFor s x).parts = s.parts := by
  obtain ⟨b, h⟩ | ⟨b, d, h⟩ | ⟨h, -⟩ := toHostFor_cases s x <;> rw [h]
@[simp] theorem toHostFrom_parts (s : State) (d : Fin 2) (m : HostMsg) : (toHostFrom s d m).parts = s.parts := toHostFor_parts _ _
@[simp] theorem toHostFor_ctxs (s : State) (x : HeldMsg) : (toHostFor s x).ctxs = s.ctxs := by
  obtain ⟨b, h⟩ | ⟨b, d, h⟩ | ⟨h, -⟩ := toHostFor_cases s x <;> rw [h]
@[simp] theorem toHostFrom_ctxs (s : State) (d : Fin 2) (m : HostMsg) : (toHostFrom s d m).ctxs = s.ctxs := toHostFor_ctxs _ _
@[simp] theorem toHostFor_units (s : State) (x : HeldMsg) : (toHostFor s x).units = s.units := by
  obtain ⟨b, h⟩ | ⟨b, d, h⟩ | ⟨h, -⟩ := toHostFor_cases s x <;> rw [h]
@[simp] theorem toHostFrom_units (s : State) (d : Fin 2) (m : HostMsg) : (toHostFrom s d m).units = s.units := toHostFor_units _ _
@[simp] theorem toHostFor_warps (s : State) (x : HeldMsg) : (toHostFor s x).warps = s.warps := by
  obtain ⟨b, h⟩ | ⟨b, d, h⟩ | ⟨h, -⟩ := toHostFor_cases s x <;> rw [h]
@[simp] theorem toHostFrom_warps (s : State) (d : Fin 2) (m : HostMsg) : (toHostFrom s d m).warps = s.warps := toHostFor_warps _ _
@[simp] theorem toHostFor_links (s : State) (x : HeldMsg) : (toHostFor s x).links = s.links := by
  obtain ⟨b, h⟩ | ⟨b, d, h⟩ | ⟨h, -⟩ := toHostFor_cases s x <;> rw [h]
@[simp] theorem toHostFrom_links (s : State) (d : Fin 2) (m : HostMsg) : (toHostFrom s d m).links = s.links := toHostFor_links _ _
@[simp] theorem toHostFor_bad (s : State) (x : HeldMsg) : (toHostFor s x).bad = s.bad := by
  obtain ⟨b, h⟩ | ⟨b, d, h⟩ | ⟨h, -⟩ := toHostFor_cases s x <;> rw [h]
@[simp] theorem toHostFrom_bad (s : State) (d : Fin 2) (m : HostMsg) : (toHostFrom s d m).bad = s.bad := toHostFor_bad _ _
@[simp] theorem toHostFor_now (s : State) (x : HeldMsg) : (toHostFor s x).now = s.now := by
  obtain ⟨b, h⟩ | ⟨b, d, h⟩ | ⟨h, -⟩ := toHostFor_cases s x <;> rw [h]
@[simp] theorem toHostFrom_now (s : State) (d : Fin 2) (m : HostMsg) : (toHostFrom s d m).now = s.now := toHostFor_now _ _

/-! ### A warp after an update -/

/-- The warp of an id after its own update, where the update keeps the id. -/
theorem findWarp_modWarp (s : State) (w : Nat) (f : Warp → Warp) (hf : ∀ x, (f x).id = x.id) :
    findWarp (modWarp s w f) w = (findWarp s w).map f := by
  show List.find? _ (List.map _ s.warps) = Option.map f (List.find? _ s.warps)
  induction s.warps with
  | nil => rfl
  | cons y r ih =>
    rw [List.map_cons, List.find?_cons, List.find?_cons, ih]
    by_cases h : y.id = w
    · simp [h, hf]
    · have hb : (y.id == w) = false := by simpa using h
      simp only [hb, Bool.false_eq_true, if_false]

/-- Another warp after an update. -/
theorem findWarp_modWarp_other (s : State) (w v : Nat) (f : Warp → Warp) (hf : ∀ x, (f x).id = x.id) (hv : v ≠ w) :
    findWarp (modWarp s w f) v = findWarp s v := by
  show List.find? _ (List.map _ s.warps) = List.find? _ s.warps
  induction s.warps with
  | nil => rfl
  | cons y r ih =>
    rw [List.map_cons, List.find?_cons, List.find?_cons, ih]
    by_cases h : y.id = w
    · have hb : (y.id == v) = false := by simpa [h] using Ne.symm hv
      have hc : (y.id == w) = true := by simpa using h
      simp only [hc, if_true, hf, hb]
    · have hb : (y.id == w) = false := by simpa using h
      simp only [hb, Bool.false_eq_true, if_false]

/-! ### Registers -/

@[simp] theorem tabulate_get {α : Type} (n : Nat) (f : Fin n → α) (l : Fin n) : (tabulate n f)[l] = f l := by
  simp only [tabulate, Fin.getElem_fin, Vector.getElem_mk, List.getElem_toArray, List.getElem_ofFn]

@[simp] theorem always_get {α : Type} (n : Nat) (x : α) (l : Fin n) : (always n x)[l] = x := by
  simp only [always, Fin.getElem_fin, Vector.getElem_mk, List.getElem_toArray, List.getElem_replicate]

theorem vreg_setV (w : Warp) (r q : Fin 256) (m : Mask) (f : Fin 32 → Word) (l : Fin 32) :
    vreg (setV w r m f) q l = if q = r ∧ m.getLsbD l.val = true then f l else vreg w q l := by
  unfold vreg setV
  by_cases h : q = r
  · subst h
    have : (w.v.set q.val (tabulate 32 fun l => if m.getLsbD l.val then f l else w.v[q][l]) q.isLt)[q]
        = tabulate 32 fun l => if m.getLsbD l.val then f l else w.v[q][l] := by simp only [Fin.getElem_fin, Vector.getElem_set_self]
    rw [this, tabulate_get]
    simp only [true_and]
  · have h' : r.val ≠ q.val := fun e => h (Fin.ext e.symm)
    have : (w.v.set r.val (tabulate 32 fun l => if m.getLsbD l.val then f l else w.v[r][l]) r.isLt)[q] = w.v[q] := by
      simp only [Fin.getElem_fin]
      exact Vector.getElem_set_ne _ _ h'
    rw [this, if_neg (fun e => h e.1)]

theorem sreg_setS (w : Warp) (r q : Fin 128) (x : Word) :
    sreg (setS w r x) q = if q = r ∧ r ≠ 0 then x else sreg w q := by
  unfold sreg setS
  by_cases h0 : r = 0
  · simp [h0]
  · by_cases h : q = r
    · subst h; simp [h0]
    · have h' : r.val ≠ q.val := fun e => h (Fin.ext e.symm)
      simp [h, h0, h']

theorem preg_setP (w : Warp) (r q : Fin 8) (m x : Mask) :
    preg (setP w r m x) q = if q = r ∧ r ≠ 7 then (preg w q &&& ~~~m) ||| (x &&& m) else preg w q := by
  unfold preg setP
  by_cases h0 : r = 7
  · simp [h0]
  · by_cases h : q = r
    · subst h; simp [h0]
    · have h' : r.val ≠ q.val := fun e => h (Fin.ext e.symm)
      simp [h, h0, h']

theorem sreg_zero (w : Warp) : sreg w 0 = 0 := rfl
theorem preg_seven (w : Warp) : preg w 7 = BitVec.allOnes 32 := rfl
theorem setS_zero (w : Warp) (x : Word) : setS w 0 x = w := rfl
theorem setP_seven (w : Warp) (m x : Mask) : setP w 7 m x = w := rfl

@[simp] theorem setV_id (w : Warp) (r : Fin 256) (m : Mask) (f : Fin 32 → Word) : (setV w r m f).id = w.id := rfl
@[simp] theorem setV_s (w : Warp) (r : Fin 256) (m : Mask) (f : Fin 32 → Word) : (setV w r m f).s = w.s := rfl
@[simp] theorem setV_p (w : Warp) (r : Fin 256) (m : Mask) (f : Fin 32 → Word) : (setV w r m f).p = w.p := rfl
@[simp] theorem setV_h (w : Warp) (r : Fin 256) (m : Mask) (f : Fin 32 → Word) : (setV w r m f).h = w.h := rfl
@[simp] theorem setV_flags (w : Warp) (r : Fin 256) (m : Mask) (f : Fin 32 → Word) : (setV w r m f).flags = w.flags := rfl
@[simp] theorem setV_splits (w : Warp) (r : Fin 256) (m : Mask) (f : Fin 32 → Word) : (setV w r m f).splits = w.splits := rfl
@[simp] theorem setS_id (w : Warp) (r : Fin 128) (x : Word) : (setS w r x).id = w.id := by unfold setS; split <;> rfl
@[simp] theorem setS_v (w : Warp) (r : Fin 128) (x : Word) : (setS w r x).v = w.v := by unfold setS; split <;> rfl
@[simp] theorem setS_p (w : Warp) (r : Fin 128) (x : Word) : (setS w r x).p = w.p := by unfold setS; split <;> rfl
@[simp] theorem setS_h (w : Warp) (r : Fin 128) (x : Word) : (setS w r x).h = w.h := by unfold setS; split <;> rfl
@[simp] theorem setS_flags (w : Warp) (r : Fin 128) (x : Word) : (setS w r x).flags = w.flags := by unfold setS; split <;> rfl
@[simp] theorem setS_splits (w : Warp) (r : Fin 128) (x : Word) : (setS w r x).splits = w.splits := by unfold setS; split <;> rfl
@[simp] theorem setP_id (w : Warp) (r : Fin 8) (m x : Mask) : (setP w r m x).id = w.id := by unfold setP; split <;> rfl
@[simp] theorem setP_v (w : Warp) (r : Fin 8) (m x : Mask) : (setP w r m x).v = w.v := by unfold setP; split <;> rfl
@[simp] theorem setP_s (w : Warp) (r : Fin 8) (m x : Mask) : (setP w r m x).s = w.s := by unfold setP; split <;> rfl
@[simp] theorem setP_splits (w : Warp) (r : Fin 8) (m x : Mask) : (setP w r m x).splits = w.splits := by unfold setP; split <;> rfl
@[simp] theorem setH_id (w : Warp) (r : Fin 16) (x : BitVec 32) : (setH w r x).id = w.id := rfl
@[simp] theorem setH_v (w : Warp) (r : Fin 16) (x : BitVec 32) : (setH w r x).v = w.v := rfl
@[simp] theorem setH_s (w : Warp) (r : Fin 16) (x : BitVec 32) : (setH w r x).s = w.s := rfl
@[simp] theorem setH_splits (w : Warp) (r : Fin 16) (x : BitVec 32) : (setH w r x).splits = w.splits := rfl
@[simp] theorem setFlags_id (w : Warp) (x : BitVec 16) : (setFlags w x).id = w.id := rfl
@[simp] theorem setFlags_v (w : Warp) (x : BitVec 16) : (setFlags w x).v = w.v := rfl
@[simp] theorem setFlags_s (w : Warp) (x : BitVec 16) : (setFlags w x).s = w.s := rfl
@[simp] theorem setFlags_p (w : Warp) (x : BitVec 16) : (setFlags w x).p = w.p := rfl
@[simp] theorem setFlags_splits (w : Warp) (x : BitVec 16) : (setFlags w x).splits = w.splits := rfl

/-! ### Splits -/

@[simp] theorem setSplit_id (w : Warp) (k : Fin 8) (x : Option Split) : (setSplit w k x).id = w.id := rfl
@[simp] theorem modSplit_id (w : Warp) (k : Fin 8) (f : Split → Split) : (modSplit w k f).id = w.id := by
  unfold modSplit; split <;> rfl
@[simp] theorem modSplit_v (w : Warp) (k : Fin 8) (f : Split → Split) : (modSplit w k f).v = w.v := by
  unfold modSplit; split <;> rfl
@[simp] theorem modSplit_s (w : Warp) (k : Fin 8) (f : Split → Split) : (modSplit w k f).s = w.s := by
  unfold modSplit; split <;> rfl
@[simp] theorem modSplit_p (w : Warp) (k : Fin 8) (f : Split → Split) : (modSplit w k f).p = w.p := by
  unfold modSplit; split <;> rfl
@[simp] theorem modSplit_h (w : Warp) (k : Fin 8) (f : Split → Split) : (modSplit w k f).h = w.h := by
  unfold modSplit; split <;> rfl
@[simp] theorem modSplit_flags (w : Warp) (k : Fin 8) (f : Split → Split) : (modSplit w k f).flags = w.flags := by
  unfold modSplit; split <;> rfl

theorem modSplit_same (w : Warp) (k : Fin 8) (f : Split → Split) : (modSplit w k f).splits[k] = w.splits[k].map f := by
  unfold modSplit
  cases h : w.splits[k] with
  | none => simpa using h
  | some x => simp [setSplit]

theorem modSplit_other (w : Warp) (k j : Fin 8) (f : Split → Split) (h : j ≠ k) :
    (modSplit w k f).splits[j] = w.splits[j] := by
  have h' : k.val ≠ j.val := fun e => h (Fin.ext e.symm)
  unfold modSplit
  cases w.splits[k] with
  | none => rfl
  | some x => simp [setSplit, h']

end Sys2Proof.Machine
end

