-- ==== Sys2Proof/Laws/Keeps.lean ====
section
/-! SUPPORT. What every shared operation keeps: the canonical form of package memory and the partition table. The taking of an
exception, the end of a context, of a launch, of a warp and of an instruction change neither. -/

namespace Sys2Proof.Laws

open Sys2Proof Sys2Proof.Machine

/-- From `s` to `t` memory keeps its canonical form, and the partition table stays. -/
structure Keeps (s t : State) : Prop where
  wf : Memory.wf s.mem = true → Memory.wf t.mem = true
  parts : t.parts = s.parts

theorem Keeps.refl (s : State) : Keeps s s := ⟨fun h => h, rfl⟩

theorem Keeps.trans {s t u : State} (h : Keeps s t) (g : Keeps t u) : Keeps s u :=
  ⟨fun m => g.wf (h.wf m), g.parts.trans h.parts⟩

/-- A state with the same memory and the same table. -/
theorem Keeps.same {s t : State} (hm : t.mem = s.mem) (hp : t.parts = s.parts) : Keeps s t := ⟨fun m => hm ▸ m, hp⟩

theorem Keeps.fold {α : Type} {f : State → α → State} (hf : ∀ s a, Keeps s (f s a)) (l : List α) (s : State) :
    Keeps s (l.foldl f s) := by
  induction l generalizing s with
  | nil => exact .refl s
  | cons a r ih => exact (hf s a).trans (ih _)

theorem OnlyCaches.keeps {s t : State} (h : OnlyCaches s t) : Keeps s t := ⟨h.wf, h.parts⟩
theorem OnlyCopies.keeps {s t : State} (h : OnlyCopies s t) : Keeps s t := h.toCaches.keeps

theorem modWarp_keeps (s : State) (w : Nat) (f : Warp → Warp) : Keeps s (modWarp s w f) := .same rfl rfl
theorem modUnit_keeps (s : State) (u : Nat) (f : UnitSt → UnitSt) : Keeps s (modUnit s u f) := .same rfl rfl
theorem modCtx_keeps (s : State) (c : Fin 64) (f : Ctx → Ctx) : Keeps s (modCtx s c f) := .same rfl rfl
theorem modDie_keeps (s : State) (d : Fin 2) (f : Die → Die) : Keeps s (modDie s d f) := .same rfl rfl
theorem modCore_keeps (s : State) (c : Fin 384) (f : Core → Core) : Keeps s (modCore s c f) := .same rfl rfl
theorem modLaunch_keeps (s : State) (c : Fin 64) (id : Nat) (f : Launch → Launch) : Keeps s (modLaunch s c id f) := .same rfl rfl
theorem modHandle_keeps (s : State) (c : Fin 64) (k : Nat) (f : HEntry → HEntry) : Keeps s (modHandle s c k f) := .same rfl rfl

theorem modEntry_keeps (s : State) (c : Fin 64) (h : BitVec 32) (f : HEntry → HEntry) : Keeps s (modEntry s c h f) := by
  unfold modEntry
  split
  · exact modHandle_keeps _ _ _ _
  · exact .refl s

theorem endHandle_keeps (s : State) (c : Fin 64) (h : BitVec 32) (st : HState) (f : HEntry → HEntry) :
    Keeps s (endHandle s c h st f) :=
  .trans (t := { s with serial := s.serial + 1 }) (.same rfl rfl) (modEntry_keeps _ _ _ _)

theorem handleRoom_keeps {s t : State} {w : Warp} {hn : Fin 16} (h : handleRoom s w hn = some t) : Keeps s t := by
  unfold handleRoom at h
  simp only [] at h
  split at h
  · cases h
  · split at h
    · cases h
    · rename_i u hu
      have hu : Keeps s u := by
        split at hu
        · cases hu; exact .refl s
        · split at hu
          · cases hu; exact modHandle_keeps _ _ _ _
          · cases hu
      split at h
      · cases h; exact hu
      · split at h
        · cases h; exact hu.trans (modHandle_keeps _ _ _ _)
        · cases h

theorem newHandle_keeps (s : State) (w : Warp) (cls eng : Nat) : Keeps s (newHandle s w cls eng).2 := by
  unfold newHandle
  simp only []
  split
  · exact .refl s
  · exact .same rfl rfl

theorem freeHandles_keeps (s : State) (c : Fin 64) (o : Owner) : Keeps s (freeHandles s c o) := .same rfl rfl

theorem toHostFor_keeps (s : State) (x : HeldMsg) : Keeps s (toHostFor s x) := .same (toHostFor_mem _ _) (toHostFor_parts _ _)

theorem toHostFrom_keeps (s : State) (d : Fin 2) (m : HostMsg) : Keeps s (toHostFrom s d m) :=
  .same (toHostFrom_mem _ _ _) (toHostFrom_parts _ _ _)

theorem toHost_keeps (s : State) (m : HostMsg) : Keeps s (toHost s m) := toHostFrom_keeps _ _ _

theorem sendWord_keeps (s : State) (fn : Nat) (x : HeldMsg) : Keeps s (sendWord s fn x) := by
  unfold sendWord
  split
  · exact .same rfl rfl
  · exact toHostFor_keeps _ _

theorem sendHeld_keeps (s : State) : Keeps s (sendHeld s) :=
  .trans (t := { s with host := { s.host with held := [], owed := [] } }) (.same rfl rfl)
    ((Keeps.fold toHostFor_keeps _ _).trans
      (.fold (fun s x => by
        split
        · exact sendWord_keeps _ _ _
        · exact toHostFor_keeps _ _) _ _))

theorem complete_keeps (s : State) (c : Fin 64) (e k : Nat) : Keeps s (complete s c e k) := sendWord_keeps _ _ _

theorem tellHealth_keeps (s : State) (d : Fin 2) (x : Die) : Keeps s (tellHealth s d x) := by
  unfold tellHealth
  split
  · exact .refl s
  · exact toHostFrom_keeps _ _ _

theorem setHealth_keeps (s : State) (d : Fin 2) (f : Die → Die) : Keeps s (setHealth s d f) :=
  (modDie_keeps _ _ _).trans (tellHealth_keeps _ _ _)

theorem retirePending_keeps (s : State) : Keeps s (retirePending s) := by
  refine .fold (fun s d => ?_) _ _
  simp only []
  split
  · exact .refl s
  · split
    · exact .refl s
    · exact setHealth_keeps _ _ _

/-! ### The ends of units, launches and contexts -/

theorem releaseCores_keeps (s : State) : Keeps s (releaseCores s) := by
  refine .fold (fun s c => ?_) _ _
  split
  · exact .refl s
  · exact (l1Clean_only _ _ _).keeps

theorem dropWarps_keeps (s : State) (p : Warp → Bool) : Keeps s (dropWarps s p) := .same rfl rfl
theorem dropUnits_keeps (s : State) (c : Fin 64) (id : Nat) : Keeps s (dropUnits s c id) := .same rfl rfl
theorem dropAll_keeps (s : State) (c : Fin 64) : Keeps s (dropAll s c) := .same rfl rfl

theorem dropPending_keeps (s : State) (o : MatOp) : Keeps s (dropPending s o) := by
  unfold dropPending
  split
  · exact modWarp_keeps _ _ _
  · exact .refl s

theorem cancelMat_keeps (s : State) (o : MatOp) : Keeps s (cancelMat s o) := by
  unfold cancelMat
  simp only []
  have h : Keeps s (dropPending { s with serial := s.serial + 1, mops := s.mops.filter fun y => y.id != o.id } o) :=
    .trans (t := { s with serial := s.serial + 1, mops := s.mops.filter fun y => y.id != o.id }) (.same rfl rfl)
      (dropPending_keeps _ _)
  refine h.trans (.trans ?_ (endHandle_keeps _ _ _ _ _))
  split
  · split
    · exact modUnit_keeps _ _ _
    · exact .refl _
  · exact .refl _

theorem cancelOp_keeps (s : State) (c : Fin 64) (e : HEntry) : Keeps s (cancelOp s c e) := by
  unfold cancelOp
  simp only []
  split
  · exact modEntry_keeps _ _ _ _
  · exact modEntry_keeps _ _ _ _
  · split
    · exact cancelMat_keeps _ _
    · exact .refl s
  · exact .trans (t := { s with carves := s.carves.filter fun o => !(o.ctx == c && o.handle == handleValue e) }) (.same rfl rfl)
      (endHandle_keeps _ _ _ _ _)
  · exact endHandle_keeps _ _ _ _ _
  · exact .refl s

theorem cancelOps_keeps (s : State) (c : Fin 64) (o : Owner) : Keeps s (cancelOps s c o) := .fold (fun s e => cancelOp_keeps s c e) _ _

theorem cancelUnit_keeps (s : State) (u : UnitSt) : Keeps s (cancelUnit s u) :=
  (cancelOps_keeps s u.ctx (.unit u.id)).trans ((dropWarps_keeps _ _).trans (modUnit_keeps _ _ _))

theorem discardUnit_keeps (s : State) (u : UnitSt) : Keeps s (discardUnit s u) :=
  (dropWarps_keeps s (inUnit u.id)).trans
    ((freeHandles_keeps _ u.ctx (.unit u.id)).trans (t := freeHandles (dropWarps s (inUnit u.id)) u.ctx (.unit u.id)) (.same rfl rfl))

theorem raiseEvents_keeps (s : State) (c : Fin 64) (m : BitVec 256) : Keeps s (raiseEvents s c m) := .same rfl rfl

theorem finishLaunch_keeps (s : State) (c : Fin 64) (id : Nat) : Keeps s (finishLaunch s c id) := by
  unfold finishLaunch
  split
  · exact .refl s
  · exact (dropUnits_keeps _ _ _).trans
      ((modCtx_keeps _ _ _).trans ((raiseEvents_keeps _ _ _).trans ((endHandle_keeps _ _ _ _ _).trans (modLaunch_keeps _ _ _ _))))

theorem cancelLaunch_keeps (s : State) (c : Fin 64) (id : Nat) : Keeps s (cancelLaunch s c id) := by
  unfold cancelLaunch
  split
  · exact .refl s
  · split
    · exact (Keeps.fold cancelUnit_keeps _ _).trans ((Keeps.fold discardUnit_keeps _ _).trans (modLaunch_keeps _ _ _ _))
    · exact .refl s

theorem readyLaunches_keeps (s : State) (c : Fin 64) : Keeps s (readyLaunches s c) := modCtx_keeps _ _ _

theorem disarmRecords_keeps (s : State) (c : Fin 64) : Keeps s (disarmRecords s c) := by
  refine .fold (fun s d => ?_) _ _
  exact .trans (modDie_keeps _ _ _) (.fold (fun s r => (homeWrite_only _ _ _ _ _ _ _).keeps) _ _)

theorem endContext_keeps (s : State) (c : Fin 64) (cause : Nat) : Keeps s (endContext s c cause) := by
  unfold endContext
  simp only []
  split
  · refine .trans ?_ (retirePending_keeps _)
    have h : Keeps s (complete (modCtx (dropAll s c) c fun y => { y with
        st := .ended, held := none, jobWait := false, resvUnit := none, resvCore := [], await := [], jobEnd := y.jobEnd.filter (· == 3)
        handles := y.handles.map fun e => { e with st := .free } }) c 2 cause) :=
      (dropAll_keeps s c).trans ((modCtx_keeps _ _ _).trans (complete_keeps _ _ _ _))
    split
    · exact h.trans (toHostFrom_keeps _ _ _)
    · exact h
  · exact .refl s

/-! ### Taking an exception -/

theorem writeRecord_keeps (s : State) (d : Fin 2) (slot : Nat) (ws : List Word) : Keeps s (writeRecord s d slot ws) :=
  .trans (.fold (fun _ _ => (homeWrite_only _ _ _ _ _ _ _).keeps) _ _) (homeWrite_only _ _ _ _ _ _ _).keeps

theorem joinRecord_keeps {s t : State} {d : Fin 2} {q : WaitFault} (h : joinRecord s d q = some t) : Keeps s t := by
  unfold joinRecord at h
  split at h
  · cases h
  · split at h
    · cases h
    · cases h
      exact (homeWrite_only _ _ _ _ _ _ _).keeps.trans (modDie_keeps _ _ _)

theorem placeRecord_keeps {s t : State} {d : Fin 2} {q : WaitFault} (h : placeRecord s d q = some t) : Keeps s t := by
  unfold placeRecord at h
  split at h
  · cases h
  · simp only [] at h
    have key : ∀ (f : Die → Die) (b : Prop) [Decidable b], Keeps s (if b then toHostFrom (modDie (writeRecord s d ‹Nat› q.words) d f)
        d (.msix 0 61) else modDie (writeRecord s d ‹Nat› q.words) d f) := by
      intro f b _
      have h0 := (writeRecord_keeps s d ‹Nat› q.words).trans (modDie_keeps _ d f)
      split
      · exact h0.trans (toHostFrom_keeps _ _ _)
      · exact h0
    split at h
    · cases h
      exact (key _ _).trans (.same rfl rfl)
    · cases h
      exact key _ _

theorem settleFault_keeps {s t : State} {d : Fin 2} {q : WaitFault} (h : settleFault s d q = some t) : Keeps s t := by
  unfold settleFault at h
  split at h
  · obtain ⟨u, hu, rfl⟩ := Option.map_eq_some_iff.mp h
    exact (placeRecord_keeps hu).trans (endContext_keeps _ _ _)
  · cases hj : joinRecord s d q with
    | some u => rw [hj] at h; cases h; exact joinRecord_keeps hj
    | none => rw [hj] at h; exact placeRecord_keeps h

theorem recordFault_keeps (s : State) (d : Fin 2) (q : WaitFault) : Keeps s (recordFault s d q) := by
  unfold recordFault
  cases h : settleFault s d q with
  | some t => exact settleFault_keeps h
  | none => exact modDie_keeps s d fun x => { x with faultQ := x.faultQ ++ [q] }

theorem countError_keeps (s : State) (d : Option (Fin 2)) : Keeps s (countError s d) := by
  unfold countError
  split
  · exact setHealth_keeps _ _ _
  · exact .refl s

theorem suspend_keeps (s : State) (w : Nat) (sp : Fin 8) (pc : Word) : Keeps s (suspend s w sp pc) := modWarp_keeps _ _ _

/-- Taking an exception (R137, R245-R252) writes memory only through the fault buffer, and no partition entry. -/
theorem takeFault_keeps (s : State) (w : Warp) (sp : Fin 8) (pc next : Word) (act : Mask) (f : FaultInfo) :
    Keeps s (takeFault s w sp pc next act f) := by
  unfold takeFault
  simp only []
  refine (countError_keeps s f.ecc).trans ?_
  split
  · exact (modCtx_keeps _ _ _).trans (suspend_keeps _ _ _ _)
  · split
    · exact modWarp_keeps _ _ _
    · exact (suspend_keeps _ _ _ _).trans (recordFault_keeps _ _ _)

theorem agentFault_keeps (s : State) (d : Fin 2) (c : Fin 64) (cause : Nat) (va : Word) (h : BitVec 32) (elem : Nat) :
    Keeps s (agentFault s d c cause va h elem) := recordFault_keeps _ _ _

theorem deliverOne_keeps {s t : State} {a : Await} (h : deliverOne s a = some t) : Keeps s t := by
  unfold deliverOne at h
  split at h
  · cases h; exact .refl s
  · split at h
    · split at h
      · cases h
      · cases h; exact modWarp_keeps _ _ _
    · cases h; exact (suspend_keeps _ _ _ _).trans (recordFault_keeps _ _ _)

theorem deliverAwait_keeps (s : State) (c : Fin 64) : Keeps s (deliverAwait s c) := by
  unfold deliverAwait
  split
  · exact .refl s
  · refine (modCtx_keeps s c _).trans (.fold (fun s a => ?_) _ _)
    split
    · rename_i h; exact deliverOne_keeps h
    · exact modCtx_keeps _ _ _

/-! ### Launches that come due -/

/-- What an ordering step keeps: each state that it can come to. -/
inductive OrderKeeps (s : State) : Order → Prop
  | ok {t : State} (h : Keeps s t) : OrderKeeps s (.ok t)
  | wait {t : State} (h : Keeps s t) : OrderKeeps s (.wait t)
  | bad (f : FaultInfo) : OrderKeeps s (.bad f)

theorem OrderKeeps.after {s t : State} (h : Keeps s t) {o : Order} (k : OrderKeeps t o) : OrderKeeps s o := by
  cases k with
  | ok g => exact .ok (h.trans g)
  | wait g => exact .wait (h.trans g)
  | bad f => exact .bad f

theorem sendFlush_keeps (s : State) (c : Fin 64) (who : Nat) (d : Fin 2) (l : LinkOp) : Keeps s (sendFlush s c who d l) :=
  .trans (t := { s with serial := s.serial + 1, links := _ }) (.same rfl rfl) (toHostFor_keeps _ _)

theorem flushAt_keeps (s : State) (c : Fin 64) (who : Nat) (d : Fin 2) : OrderKeeps s (flushAt s c who d) := by
  unfold flushAt
  split
  · exact .wait (.refl s)
  · split
    · split
      · exact .wait (sendFlush_keeps _ _ _ _ _)
      · exact .wait (.refl s)
      · exact .bad _
    · exact .ok (.refl s)

theorem OrderKeeps.bind {s : State} {o : Order} {k : State → Order} (h : OrderKeeps s o) (g : ∀ t, OrderKeeps t (k t)) :
    OrderKeeps s (o.bind k) := by
  cases h with
  | ok h => exact (g _).after h
  | wait h => exact .wait h
  | bad f => exact .bad f

theorem releaseEverywhere_keeps (s : State) (c : Fin 64) : OrderKeeps s (releaseEverywhere s c) := by
  have h := releaseCores_keeps s
  unfold releaseEverywhere
  generalize releaseCores s = t at h ⊢
  generalize List.finRange 384 = ks
  dsimp only
  split
  · exact .bad _
  · split
    · exact .wait h
    · split
      · split
        · exact .bad _
        · exact .wait h
      · exact .ok h

theorem releaseLaunch_keeps (s : State) (c : Fin 64) (l : Launch) : OrderKeeps s (releaseLaunch s c l) := by
  refine (releaseEverywhere_keeps s c).bind fun t => ?_
  split
  · exact .wait (.refl t)
  · exact flushAt_keeps _ _ _ _

theorem endDue_keeps (s : State) (c : Fin 64) (l : Launch) : Keeps s (endDue s c l).1 := by
  have h := releaseLaunch_keeps s c l
  unfold endDue
  generalize releaseLaunch s c l = o at h
  cases h with
  | ok h => exact h.trans ((finishLaunch_keeps _ _ _).trans (readyLaunches_keeps _ _))
  | wait h => exact h
  | bad f => exact agentFault_keeps _ _ _ _ _ _ _

theorem finishDue_keeps (c : Fin 64) (n : Nat) (s : State) : Keeps s (finishDue s c n) := by
  induction n generalizing s with
  | zero => exact .refl s
  | succ k ih =>
    unfold finishDue
    simp only []
    split
    · exact .refl s
    · split
      · exact (endDue_keeps _ _ _).trans (ih _)
      · exact endDue_keeps _ _ _

theorem examine_keeps (s : State) (c : Fin 64) : Keeps s (examine s c) := by
  unfold examine
  split
  · exact (readyLaunches_keeps s c).trans (finishDue_keeps c 1024 _)
  · exact .refl s

theorem finishAll_keeps (s : State) : Keeps s (finishAll s) := by
  refine .fold (fun s c => ?_) _ _
  split
  · exact examine_keeps _ _
  · exact .refl s

/-! ### The end of an instruction -/

theorem endWarp_keeps (s : State) (w : Warp) : Keeps s (endWarp s w) := by
  unfold endWarp
  split
  · simp only []
    split
    · exact (modWarp_keeps _ _ _).trans (modUnit_keeps _ _ _)
    · exact modWarp_keeps _ _ _
  · exact .refl s

theorem settle_keeps (s : State) (w : Nat) : Keeps s (settle s w) := by
  unfold settle
  split
  · exact .refl s
  · simp only []
    split
    · exact (modWarp_keeps _ _ _).trans (takeFault_keeps _ _ _ _ _ _ _)
    · exact (modWarp_keeps _ _ _).trans (endWarp_keeps _ _)

theorem book_keeps (s : State) (w : Warp) (sp : Fin 8) : Keeps s (book s w sp) := .same rfl rfl
theorem goOn_keeps (s : State) (w : Nat) (sp : Fin 8) (pc : Word) : Keeps s (goOn s w sp pc) := .same rfl rfl
theorem block_keeps (s : State) (w : Nat) (sp : Fin 8) (x : Stop) : Keeps s (block s w sp x) := .same rfl rfl
theorem unbook_keeps (s t : State) (w : Warp) (sp : Fin 8) (x : Split) : Keeps t (unbook s t w sp x) := .same rfl rfl

/-- What an effect keeps: each state that it can come to. -/
def EffectKeeps (s : State) : Effect → Prop
  | .next t | .moved t | .wait t | .rest t => Keeps s t
  | .fault _ => True

/-- An issue keeps what its effect keeps. -/
theorem conclude_keeps {s : State} {c : Iss} {e : Effect} (h : EffectKeeps s e) : Keeps s (conclude s c e) := by
  cases e with
  | next t => exact Keeps.trans h ((goOn_keeps _ _ _ _).trans (settle_keeps _ _))
  | moved t => exact Keeps.trans h (settle_keeps _ _)
  | wait t => exact Keeps.trans h ((unbook_keeps _ _ _ _ _).trans (block_keeps _ _ _ _))
  | rest t => exact Keeps.trans h ((unbook_keeps _ _ _ _ _).trans (block_keeps _ _ _ _))
  | fault f =>
    unfold conclude
    simp only []
    refine .trans ?_ (settle_keeps _ _)
    refine .trans ?_ (modWarp_keeps _ _ _)
    refine .trans ?_ (takeFault_keeps _ _ _ _ _ _ _)
    exact .trans (t := { s with results := s.results.filter fun r => !(r.warp == c.w.id && r.sp == c.sp && r.kind == RKind.link) })
      (.same rfl rfl) (book_keeps _ _ _)

/-- The issue of an instruction whose effect keeps memory's form and the partition table keeps both. -/
theorem issue_keeps {i : Instr} {effect : State → Iss → Effect} {s t : State} (he : ∀ s c, EffectKeeps s (effect s c))
    (h : issue i effect s = .next t) : Keeps s t := by
  unfold issue at h
  split at h
  · cases h
  · rename_i w sp x _
    simp only [] at h
    have h0 : Keeps s { s with turn := none } := .same rfl rfl
    split at h
    · cases h; exact h0.trans (conclude_keeps (e := .fault _) trivial)
    · split at h
      · cases h; exact h0.trans (conclude_keeps (e := .wait _) (Keeps.refl _))
      · cases h
        refine h0.trans (conclude_keeps ?_)
        have hb := he (book { s with turn := none } w sp) (issOf i w sp x)
        cases hx : effect (book { s with turn := none } w sp) (issOf i w sp x) with
        | fault f => trivial
        | next t => rw [hx] at hb; exact (book_keeps _ w sp).trans hb
        | moved t => rw [hx] at hb; exact (book_keeps _ w sp).trans hb
        | wait t => rw [hx] at hb; exact (book_keeps _ w sp).trans hb
        | rest t => rw [hx] at hb; exact (book_keeps _ w sp).trans hb

theorem issueWarp_keeps {i : Instr} {effect : State → Iss → Effect} {s t : State} (he : ∀ s c, EffectKeeps s (effect s c))
    (h : issueWarp i effect s = .next t) : Keeps s t := by
  refine issue_keeps (fun s c => ?_) h
  show EffectKeeps s (if c.act = 0 then .next s else effect s c)
  split
  · exact Keeps.refl s
  · exact he s c

end Sys2Proof.Laws
end

