-- ==== Sys2Proof/Laws/Words.lean ====
section
/-! SUPPORT. Words and their fields: what `pack` puts into a word, `unpack` reads back (R256-R267), and every code of a
small field reads back as what it stands for (R260-R269). -/

set_option linter.unusedVariables false
set_option linter.constructorNameAsVariable false

namespace Sys2Proof.Laws

open Sys2Proof Sys2Proof.Machine

/-- Values that fit fields of given widths. -/
def fits : List Nat → List Nat → Prop
  | [], [] => True
  | w :: ws, v :: vs => v < 2 ^ w ∧ fits ws vs
  | _, _ => False

theorem pack_lt (ws vs : List Nat) : pack ws vs < 2 ^ ws.sum := by
  induction ws generalizing vs with
  | nil => cases vs <;> simp [pack]
  | cons w ws ih =>
    cases vs with
    | nil => simp [pack, Nat.two_pow_pos]
    | cons v vs =>
      have h1 := ih vs
      have h2 : v % 2 ^ w < 2 ^ w := Nat.mod_lt _ (Nat.two_pow_pos w)
      simp only [pack, List.sum_cons, Nat.pow_add]
      calc v % 2 ^ w + 2 ^ w * pack ws vs < 2 ^ w + 2 ^ w * pack ws vs := by omega
        _ = 2 ^ w * (pack ws vs + 1) := by rw [Nat.mul_add]; omega
        _ ≤ 2 ^ w * 2 ^ ws.sum := Nat.mul_le_mul_left _ h1

theorem unpack_pack (ws vs : List Nat) (h : fits ws vs) : unpack ws (pack ws vs) = vs := by
  induction ws generalizing vs with
  | nil => cases vs with
    | nil => rfl
    | cons => exact h.elim
  | cons w ws ih =>
    cases vs with
    | nil => exact h.elim
    | cons v vs =>
      obtain ⟨h1, h2⟩ := h
      have hp := Nat.two_pow_pos w
      simp only [pack, unpack, Nat.mod_eq_of_lt h1, Nat.add_mul_mod_self_left, Nat.add_mul_div_left _ _ hp,
        Nat.div_eq_of_lt h1, Nat.zero_add, ih vs h2]

theorem wordOf_toNat (ws vs : List Nat) (h : ws.sum = 64) : (wordOf ws vs).toNat = pack ws vs := by
  have := pack_lt ws vs
  rw [h] at this
  show (BitVec.ofNat 64 (pack ws vs)).toNat = pack ws vs
  rw [BitVec.toNat_ofNat, Nat.mod_eq_of_lt this]

theorem unpack_wordOf (ws vs : List Nat) (h : ws.sum = 64) (f : fits ws vs) : unpack ws (wordOf ws vs).toNat = vs := by
  rw [wordOf_toNat ws vs h, unpack_pack ws vs f]

/-- Bit 0 of a word of any format is its first field, L (R256). -/
theorem bitsOf_long (ws vs : List Nat) (l : Nat) (h : ws.sum = 63) (hl : l < 2) :
    bitsOf (wordOf (1 :: ws) (l :: vs)) 0 1 = l := by
  simp only [bitsOf, wordOf_toNat (1 :: ws) (l :: vs) (by simp [h]), pack]
  omega

/-- Bits 7:1 of a word of any format are its second field, OP (R256). -/
theorem bitsOf_op (ws vs : List Nat) (l op : Nat) (h : ws.sum = 56) (hl : l < 2) (ho : op < 128) :
    bitsOf (wordOf (1 :: 7 :: ws) (l :: op :: vs)) 1 7 = op := by
  simp only [bitsOf, wordOf_toNat (1 :: 7 :: ws) (l :: op :: vs) (by simp [h]), pack, Nat.shiftRight_eq_div_pow]
  omega

theorem unpack_zero_V1 : unpack fmtV1 0 = [0, 0, 0, 0, 0, 0, 0] := rfl

/-! ### Codes -/

theorem bit_lt (b : Bool) : bit b < 2 := by cases b <;> decide

@[simp] theorem bit_eq_one (b : Bool) : (bit b == 1) = b := by cases b <;> rfl

@[simp] theorem bit_is_one (b : Bool) : (bit b = 1) = (b = true) := by cases b <;> simp [bit]

@[simp] theorem guardOf_code (g : Guard) : guardOf g.pred.val (bit g.inv) = g := by
  cases g; simp [guardOf]

@[simp] theorem tyOfCode_code (t : Ty) : tyOfCode (tyCode t) = t := by cases t <;> rfl
theorem tyCode_lt (t : Ty) : tyCode t < 16 := by cases t <;> decide
@[simp] theorem rndOfCode_code (r : Rnd) : rndOfCode (rndCode r) = r := by cases r <;> rfl
theorem rndCode_lt (r : Rnd) : rndCode r < 4 := by cases r <;> decide
@[simp] theorem csrcOfCode_code (c : CSrc) : csrcOfCode (csrcCode c) = c := by cases c <;> rfl
theorem csrcCode_lt (c : CSrc) : csrcCode c < 4 := by cases c <;> decide
@[simp] theorem condOfCode_code (c : Cond) : condOfCode (condCode c) = c := by cases c <;> rfl
theorem condCode_lt (c : Cond) : condCode c < 8 := by cases c <;> decide
@[simp] theorem mxOfCode_code (f : MxFmt) : mxOfCode (mxCode f) = some f := by cases f <;> rfl
theorem mxCode_lt (f : MxFmt) : mxCode f < 8 := by cases f <;> decide
@[simp] theorem redOfCode_code (r : RedOp) : redOfCode (redCode r) = some r := by cases r <;> rfl
theorem redCode_lt (r : RedOp) : redCode r < 8 := by cases r <;> decide
@[simp] theorem atomOfCode_code (r : AtomOp) : atomOfCode (atomCode r) = r := by cases r <;> rfl
theorem atomCode_lt (r : AtomOp) : atomCode r < 8 := by cases r <;> decide
@[simp] theorem credOfCode_code (r : CRedOp) : credOfCode (credCode r) = some r := by cases r <;> rfl
theorem credCode_lt (r : CRedOp) : credCode r < 8 := by cases r <;> decide
@[simp] theorem tfmtOfCode_code (f : TFmt) : tfmtOfCode (tfmtCode f) = some f := by cases f <;> rfl
theorem tfmtCode_lt (f : TFmt) : tfmtCode f < 16 := by cases f <;> decide
@[simp] theorem scopeOfCode_code (f : Scope) : scopeOfCode (scopeCode f) = some f := by cases f <;> rfl
theorem scopeCode_lt (f : Scope) : scopeCode f < 8 := by cases f <;> decide
@[simp] theorem ordOfCode_code (f : FenceOrd) : ordOfCode (ordCode f) = some f := by cases f <;> rfl
theorem ordCode_lt (f : FenceOrd) : ordCode f < 4 := by cases f <;> decide
@[simp] theorem cntOfCode_code (f : CntSel) : cntOfCode (cntCode f) = some f := by cases f <;> rfl
theorem cntCode_lt (f : CntSel) : cntCode f < 16 := by cases f <;> decide
theorem sysCode_lt (n : SysReg) : sysCode n < 32 := by
  cases n with
  | trec k => simp only [sysCode]; omega
  | _ => decide

@[simp] theorem sysOfCode_code (n : SysReg) : sysOfCode (sysCode n) = some n := by
  cases n with
  | trec k => simp [sysCode, sysOfCode]
  | _ => rfl

theorem srcCode_lt (a : Src) : srcCode a < 512 := by
  cases a <;> simp only [srcCode] <;> omega

theorem srcOfCode_int (k : Fin 64) : srcOfCode (0x180 + k.val) = some (.int k) := by
  unfold srcOfCode; (repeat' split) <;> first | omega | simp

theorem srcOfCode_s (k : Fin 128) : srcOfCode (0x100 + k.val) = some (.s k) := by
  unfold srcOfCode; (repeat' split) <;> first | omega | simp

theorem srcOfCode_v (k : Fin 256) : srcOfCode k.val = some (.v k) := by
  unfold srcOfCode; (repeat' split) <;> first | omega | simp

theorem srcOfCode_fp (k : Fin 16) : srcOfCode (0x1C0 + k.val) = some (.fp k) := by
  unfold srcOfCode; (repeat' split) <;> first | omega | simp

theorem srcOfCode_lane (k : Fin 8) : srcOfCode (0x1D0 + k.val) = some (.lane k) := by
  unfold srcOfCode; (repeat' split) <;> first | omega | simp

@[simp] theorem srcOfCode_code (a : Src) : srcOfCode (srcCode a) = some a := by
  cases a with
  | v r => exact srcOfCode_v r
  | s r => exact srcOfCode_s r
  | int k => exact srcOfCode_int k
  | fp k => exact srcOfCode_fp k
  | lane k => exact srcOfCode_lane k
  | imm => rfl

theorem ssrcCode_lt (a : SSrc) : ssrcCode a < 256 := by
  cases a <;> simp only [ssrcCode] <;> omega

theorem ssrcOfCode_s (k : Fin 128) : ssrcOfCode k.val = some (.s k) := by
  unfold ssrcOfCode; (repeat' split) <;> first | omega | simp

theorem ssrcOfCode_int (k : Fin 64) : ssrcOfCode (0x80 + k.val) = some (.int k) := by
  unfold ssrcOfCode; (repeat' split) <;> first | omega | simp

theorem ssrcOfCode_warp (k : Fin 17) : ssrcOfCode (0xC0 + k.val) = some (.warp k) := by
  unfold ssrcOfCode; (repeat' split) <;> first | omega | simp

@[simp] theorem ssrcOfCode_code (a : SSrc) : ssrcOfCode (ssrcCode a) = some a := by
  cases a with
  | s r => exact ssrcOfCode_s r
  | int k => exact ssrcOfCode_int k
  | warp k => exact ssrcOfCode_warp k
  | w1 => rfl

theorem psrcCode_lt (a : PSrc) : psrcCode a < 16 := by
  have := bit_lt a.inv
  simp only [psrcCode]
  omega

@[simp] theorem psrcOf_code (a : PSrc) : psrcOf (psrcCode a) = a := by
  obtain ⟨p, b⟩ := a
  have h : ∀ p : Fin 8, ∀ b, psrcOf (psrcCode ⟨p, b⟩) = ⟨p, b⟩ := by decide
  exact h p b

/-! ### Bytes -/

theorem ofBytes_bytesOf (n x : Nat) : ofBytes (bytesOf n x) = x % 256 ^ n := by
  induction n generalizing x with
  | zero => simp [bytesOf, ofBytes, Nat.mod_one]
  | succ n ih =>
    simp only [bytesOf, ofBytes, ih, BitVec.toNat_ofNat]
    have e : (256 : Nat) ^ (n + 1) = 256 * 256 ^ n := by rw [Nat.pow_succ, Nat.mul_comm]
    rw [e, Nat.mod_mul]

theorem bytesOf_length (n x : Nat) : (bytesOf n x).length = n := by
  induction n generalizing x with
  | zero => rfl
  | succ n ih => simp [bytesOf, ih]

/-- The eight bytes of a word, lowest first, are the word (R7, R256). -/
theorem word_of_bytes (w : Word) : BitVec.ofNat 64 (ofBytes (bytesOf 8 w.toNat)) = w := by
  rw [ofBytes_bytesOf]
  apply BitVec.eq_of_toNat_eq
  simp only [BitVec.toNat_ofNat]
  omega

end Sys2Proof.Laws
end

