-- ==== Sys2Proof/Laws/PerInstr.lean ====
section
/-! SUPPORT. Decoding the words of an instruction gives it back (R256-R269): the family `RoundTrip`, one lemma per constructor of
`Instr`. -/

set_option Elab.async false
set_option linter.unusedSimpArgs false
set_option linter.unusedTactic false
set_option linter.unreachableTactic false
set_option linter.unusedVariables false
set_option linter.constructorNameAsVariable false

namespace Sys2Proof.Laws
open Sys2Proof Sys2Proof.Machine

/-- Words that decode to the instruction they encode. -/
def Reads (i : Instr) (ws : Words) : Prop := candidate ws.1 ws.2 = some i ∧ (bitsOf ws.1 0 1 = 1 ↔ ws.2.isSome = true)

theorem decode_of_reads (i : Instr) (ws : Words) (hw : wellFormed i = true) (he : encode i = some ws) (h : Reads i ws) :
    decode ws.1 (ws.2.getD 0) = .ok i := by
  obtain ⟨w0, y⟩ := ws
  obtain ⟨hc, hl⟩ := h
  have hy : (if bitsOf w0 0 1 = 1 then some (y.getD 0) else none) = y := by
    cases y with
    | none => rw [if_neg (by simpa using hl)]
    | some z => rw [if_pos (by simpa using hl)]; rfl
  show decode w0 (y.getD 0) = _
  unfold decode
  rw [hy]
  dsimp only at hc ⊢
  rw [hc]
  simp [hw, he]

/-! ### F-V -/

theorem vlegal_unfold (f : VForm) (h : vlegal f = true) :
    (2 ≤ f.nsrc ∨ f.o.b = .v 0) ∧ (3 ≤ f.nsrc ∨ f.o.c = .v 0)
    ∧ (f.o.a = .imm ∨ f.o.b = .imm ∨ f.o.c = .imm ∨ f.o.imm = 0) ∧ chainOk f.op f.nsrc f.o = true := by
  simp only [vlegal, Bool.and_eq_true, Bool.or_eq_true, decide_eq_true_eq, beq_iff_eq] at h
  obtain ⟨⟨⟨⟨⟨⟨⟨⟨⟨⟨⟨⟨_, _⟩, _⟩, _⟩, _⟩, _⟩, h1⟩, _⟩, h2⟩, _⟩, _⟩, h3⟩, h4⟩ := h
  exact ⟨h1, h2, by simpa [or_assoc] using h3, h4⟩

/-- A short form has neither an immediate nor chain fields. -/
theorem short_form (f : VForm) (h : vlegal f = true) (hs : vLong f.o = false) :
    f.o.imm = 0 ∧ f.o.chain = Chain.off := by
  obtain ⟨_, _, h3, h4⟩ := vlegal_unfold f h
  simp only [vLong, Bool.or_eq_false_iff, beq_eq_false_iff_ne, bne_eq_false_iff_eq] at hs
  obtain ⟨⟨⟨⟨ha, hb⟩, hc⟩, hn⟩, hp⟩ := hs
  refine ⟨by simpa [ha, hb, hc] using h3, ?_⟩
  simp only [chainOk, hn, Bool.and_eq_true, beq_iff_eq] at h4
  rcases hx : f.o.chain with ⟨a, b, c, d⟩
  simp_all [Chain.off]

theorem reads_V (f : VForm) (i : Instr) (h : vlegal f = true) (hop : f.op ≤ 5) (hfn : f.fn < 256) (hcr : f.craw < 512)
    (hc : candV [bit (vLong f.o), f.op, f.o.g.pred.val, bit f.o.g.inv, f.o.d.val, srcCode f.o.a, srcCode f.o.b,
      (if f.nsrc < 3 then f.craw else srcCode f.o.c), tyCode f.o.ty, f.fn, bit f.o.sat, rndCode f.o.rnd, 0]
      [f.o.imm.toNat, f.o.chain.km1.val, f.o.chain.cch.val, csrcCode f.o.chain.csrc, bit f.o.chain.pub.isSome,
        (f.o.chain.pub.getD 0).val, 0] = some i) : Reads i (encV f) := by
  have h1 := bit_lt (vLong f.o)
  have h2 := bit_lt f.o.g.inv
  have h3 := bit_lt f.o.sat
  have h4 := bit_lt f.o.chain.pub.isSome
  have h5 := srcCode_lt f.o.a
  have h6 := srcCode_lt f.o.b
  have h7 := srcCode_lt f.o.c
  have h8 := tyCode_lt f.o.ty
  have h9 := rndCode_lt f.o.rnd
  have h10 := csrcCode_lt f.o.chain.csrc
  have hcc : (if f.nsrc < 3 then f.craw else srcCode f.o.c) < 512 := by split <;> assumption
  have u0 := unpack_wordOf fmtV [bit (vLong f.o), f.op, f.o.g.pred.val, bit f.o.g.inv, f.o.d.val, srcCode f.o.a, srcCode f.o.b,
      (if f.nsrc < 3 then f.craw else srcCode f.o.c), tyCode f.o.ty, f.fn, bit f.o.sat, rndCode f.o.rnd, 0] rfl
      (by simp only [fits, fmtV, and_true]; refine ⟨?_, ?_, ?_, ?_, ?_, ?_, ?_, ?_, ?_, ?_, ?_, ?_, ?_⟩ <;> omega)
  have u1 := unpack_wordOf fmtV1 [f.o.imm.toNat, f.o.chain.km1.val, f.o.chain.cch.val, csrcCode f.o.chain.csrc, bit f.o.chain.pub.isSome,
        (f.o.chain.pub.getD 0).val, 0] rfl
      (by simp only [fits, fmtV1, and_true]; refine ⟨?_, ?_, ?_, ?_, ?_, ?_, ?_⟩ <;> omega)
  have b0 : bitsOf (encV f).1 0 1 = bit (vLong f.o) := bitsOf_long _ _ _ rfl h1
  have b1 : bitsOf (encV f).1 1 7 = f.op := bitsOf_op _ _ _ _ rfl h1 (by omega)
  have v1 : unpack fmtV1 ((encV f).2.getD 0).toNat = [f.o.imm.toNat, f.o.chain.km1.val, f.o.chain.cch.val,
      csrcCode f.o.chain.csrc, bit f.o.chain.pub.isSome, (f.o.chain.pub.getD 0).val, 0] := by
    cases hl : vLong f.o with
    | true => simp only [encV, hl]; exact u1
    | false =>
      obtain ⟨e1, e2⟩ := short_form f h hl
      simp only [encV, hl, e1, e2]; rfl
  refine ⟨?_, ?_⟩
  · have u0 : unpack fmtV (encV f).1.toNat = _ := u0
    generalize (encV f).1 = x at *
    generalize (encV f).2 = y at *
    simp only [candidate, b1, if_pos hop, u0, v1]
    exact hc
  · rw [b0]
    cases hl : vLong f.o <;> simp [encV, hl, bit]

/-- The decoder's VOp is the form's. -/
theorem vop_eta (o : VOp) : 
    ({ g := guardOf o.g.pred.val (bit o.g.inv), rnd := rndOfCode (rndCode o.rnd), sat := bit o.sat == 1
       ty := tyOfCode (tyCode o.ty), d := Fin.ofNat 256 o.d.val
       a := o.a, b := o.b, c := o.c, imm := BitVec.ofNat 32 o.imm.toNat
       chain := { csrc := csrcOfCode (csrcCode o.chain.csrc), cch := Fin.ofNat 4 o.chain.cch.val
                  km1 := Fin.ofNat 8 o.chain.km1.val
                  pub := if bit o.chain.pub.isSome = 1 then some (Fin.ofNat 4 (o.chain.pub.getD 0).val) else none } } : VOp) = o := by
  rcases o with ⟨g, r, sat, ty, d, a, b, c, imm, ⟨cs, cch, km, pub⟩⟩
  cases pub <;> simp

/-- The candidates of OP 0x00 to 0x05. -/
def candOp (op fn : Nat) (o : VOp) (c : Nat) : Option Instr :=
  match op with
  | 0 => cand00 fn o c
  | 1 => cand01 fn o
  | 2 => cand02 fn o
  | 3 => some (.vcmp (condOfCode fn) o)
  | 4 => cand04 fn o c
  | _ => cand05 fn o c

theorem candV_eq (o o' : VOp) (l op cr fn : Nat) (i : Option Instr)
    (hs : (if op == 4 || op == 5 then some (.v 0) else srcOfCode cr) = some o'.c)
    (ho : o' = { o with c := o'.c }) (h : candOp op fn o' cr = i) :
    candV [l, op, o.g.pred.val, bit o.g.inv, o.d.val, srcCode o.a, srcCode o.b, cr, tyCode o.ty, fn, bit o.sat, rndCode o.rnd, 0]
      [o.imm.toNat, o.chain.km1.val, o.chain.cch.val, csrcCode o.chain.csrc, bit o.chain.pub.isSome,
        (o.chain.pub.getD 0).val, 0] = i := by
  rw [← h]
  have e := vop_eta o'
  rw [ho] at e
  dsimp only at e
  simp only [candV, srcOfCode_code, Option.bind_some, hs]
  rw [e, ← ho]
  rfl

/-! ### The other formats -/

theorem reads_P (fn : Nat) (o : POp) (i : Instr) (hfn : fn < 256)
    (h : candP [0, 6, o.g.pred.val, bit o.g.inv, o.d.val, psrcCode o.a, psrcCode o.b, 0, 15, fn, 0, 0, 0] = some i) :
    Reads i (encP fn o) := by
  have h2 := bit_lt o.g.inv
  have h3 := psrcCode_lt o.a
  have h4 := psrcCode_lt o.b
  have u0 : unpack fmtV (encP fn o).1.toNat = _ := unpack_wordOf fmtV [0, 6, o.g.pred.val, bit o.g.inv, o.d.val, psrcCode o.a,
    psrcCode o.b, 0, 15, fn, 0, 0, 0] rfl
      (by simp only [fits, fmtV, and_true]; refine ⟨?_, ?_, ?_, ?_, ?_, ?_, ?_, ?_, ?_, ?_, ?_, ?_, ?_⟩ <;> omega)
  have b0 : bitsOf (encP fn o).1 0 1 = 0 := bitsOf_long _ _ _ rfl (by decide)
  have b1 : bitsOf (encP fn o).1 1 7 = 6 := bitsOf_op _ _ _ _ rfl (by decide) (by decide)
  have hn : (encP fn o).2 = none := rfl
  generalize encP fn o = x at *
  refine ⟨?_, by simp [b0, hn]⟩
  simp only [candidate, b1, u0]
  exact h

theorem reads_X (fn : Nat) (x : Fin 4) (g : Guard) (d a b c t sat : Nat) (long : Bool) (imm : BitVec 32) (i : Instr)
    (hl : long = false → imm = 0)
    (hd : d < 256) (ha : a < 512) (hb : b < 512) (hc : c < 512) (ht : t < 16) (hfn : fn < 256) (hs : sat < 2)
    (h : candX [bit long, 7, g.pred.val, bit g.inv, d, a, b, c, t, fn, sat, x.val, 0] imm.toNat = some i) :
    Reads i (encX fn x g d a b c t sat long imm) := by
  have h1 := bit_lt long
  have h2 := bit_lt g.inv
  have u0 : unpack fmtV (encX fn x g d a b c t sat long imm).1.toNat = _ := unpack_wordOf fmtV [bit long, 7, g.pred.val,
    bit g.inv, d, a, b, c, t, fn, sat, x.val, 0] rfl
      (by simp only [fits, fmtV, and_true]; refine ⟨?_, ?_, ?_, ?_, ?_, ?_, ?_, ?_, ?_, ?_, ?_, ?_, ?_⟩ <;> omega)
  have b0 : bitsOf (encX fn x g d a b c t sat long imm).1 0 1 = bit long := bitsOf_long _ _ _ rfl h1
  have b1 : bitsOf (encX fn x g d a b c t sat long imm).1 1 7 = 7 := bitsOf_op _ _ _ _ rfl h1 (by decide)
  have hn : (encX fn x g d a b c t sat long imm).2.isSome = long := by cases long <;> rfl
  have v1 : ((encX fn x g d a b c t sat long imm).2.getD 0).toNat % 2 ^ 32 = imm.toNat := by
    cases long with
    | false => rw [hl rfl]; rfl
    | true =>
      simp only [encX, if_true, Option.getD_some, wordOf_toNat fmtV1 _ rfl]
      simp only [fmtV1, pack]
      omega
  generalize encX fn x g d a b c t sat long imm = y at *
  refine ⟨?_, by rw [b0, hn]; cases long <;> simp [bit]⟩
  simp only [candidate, b1, u0, v1]
  exact h

theorem reads_S (op fn : Nat) (g : Guard) (d a b c t sat : Nat) (long : Bool) (w : Word) (i : Instr)
    (hop : 8 ≤ op ∧ op ≤ 11 ∨ op = 48) (hl : long = false → w = 0)
    (hd : d < 128) (ha : a < 256) (hb : b < 256) (hc : c < 256) (ht : t < 16) (hfn : fn < 256) (hs : sat < 2)
    (h : candS [bit long, op, g.pred.val, bit g.inv, d, 0, a, b, c, t, fn, sat, 0] w = some i) :
    Reads i (encS op fn g d a b c t sat long w) := by
  have h1 := bit_lt long
  have h2 := bit_lt g.inv
  have u0 : unpack fmtS (encS op fn g d a b c t sat long w).1.toNat = _ := unpack_wordOf fmtS [bit long, op, g.pred.val,
    bit g.inv, d, 0, a, b, c, t, fn, sat, 0] rfl
      (by simp only [fits, fmtS, and_true]; refine ⟨?_, ?_, ?_, ?_, ?_, ?_, ?_, ?_, ?_, ?_, ?_, ?_, ?_⟩ <;> omega)
  have b0 : bitsOf (encS op fn g d a b c t sat long w).1 0 1 = bit long := bitsOf_long _ _ _ rfl h1
  have b1 : bitsOf (encS op fn g d a b c t sat long w).1 1 7 = op := bitsOf_op _ _ _ _ rfl h1 (by omega)
  have hn : (encS op fn g d a b c t sat long w).2.isSome = long := by cases long <;> rfl
  have v1 : (encS op fn g d a b c t sat long w).2.getD 0 = w := by
    cases long with
    | false => rw [hl rfl]; rfl
    | true => rfl
  generalize encS op fn g d a b c t sat long w = y at *
  refine ⟨?_, by rw [b0, hn]; cases long <;> simp [bit]⟩
  simp only [candidate]
  rw [b1, u0, v1]
  rw [if_neg (by omega), if_neg (by omega), if_neg (by omega), if_pos (by omega)]
  exact h

theorem reads_M (op fn : Nat) (o : MOp) (i : Instr) (hop : 16 ≤ op ∧ op ≤ 21) (hfn : fn < 8)
    (h : ∀ l imm w, (o.disp = .short (BitVec.ofNat 15 imm) ∧ w = none) ∨ (∃ x, o.disp = .long (BitVec.ofNat 32 x) ∧ imm = 0 ∧ w = some x) →
      candM [l, op, o.g.pred.val, bit o.g.inv, o.data.val, o.base.val, o.off.val, bit o.oe, tyCode o.ty,
      o.h.val, o.n.val, bit o.e, fn, imm] w = some i) : Reads i (encM op fn o) := by
  have h2 := bit_lt o.g.inv
  have h3 := bit_lt o.oe
  have h4 := bit_lt o.e
  have h5 := tyCode_lt o.ty
  cases hd : o.disp with
  | short k =>
    have h' := h 0 k.toNat none (.inl ⟨by rw [hd]; simp, rfl⟩)
    have u0 : unpack fmtM (encM op fn o).1.toNat = [0, op, o.g.pred.val, bit o.g.inv, o.data.val, o.base.val, o.off.val,
      bit o.oe, tyCode o.ty, o.h.val, o.n.val, bit o.e, fn, k.toNat] := by
      simp only [encM, hd]
      refine unpack_wordOf fmtM _ rfl ?_
      simp only [fits, fmtM, and_true]; refine ⟨?_, ?_, ?_, ?_, ?_, ?_, ?_, ?_, ?_, ?_, ?_, ?_, ?_, ?_⟩ <;> omega
    have b0 : bitsOf (encM op fn o).1 0 1 = 0 := by simp only [encM, hd]; exact bitsOf_long _ _ _ rfl (by decide)
    have b1 : bitsOf (encM op fn o).1 1 7 = op := by simp only [encM, hd]; exact bitsOf_op _ _ _ _ rfl (by decide) (by omega)
    have hn : (encM op fn o).2 = none := by simp only [encM, hd]
    generalize encM op fn o = y at *
    refine ⟨?_, by simp [b0, hn]⟩
    simp only [candidate]
    rw [b1, u0, hn, Option.map_none]
    rw [if_neg (by omega), if_neg (by omega), if_neg (by omega), if_neg (by omega), if_pos (by omega)]
    exact h'
  | long k =>
    have h' := h 1 0 (some k.toNat) (.inr ⟨k.toNat, by rw [hd]; simp, rfl, rfl⟩)
    have u0 : unpack fmtM (encM op fn o).1.toNat = [1, op, o.g.pred.val, bit o.g.inv, o.data.val, o.base.val, o.off.val,
      bit o.oe, tyCode o.ty, o.h.val, o.n.val, bit o.e, fn, 0] := by
      simp only [encM, hd]
      refine unpack_wordOf fmtM _ rfl ?_
      simp only [fits, fmtM, and_true]; refine ⟨?_, ?_, ?_, ?_, ?_, ?_, ?_, ?_, ?_, ?_, ?_, ?_, ?_, ?_⟩ <;> omega
    have b0 : bitsOf (encM op fn o).1 0 1 = 1 := by simp only [encM, hd]; exact bitsOf_long _ _ _ rfl (by decide)
    have b1 : bitsOf (encM op fn o).1 1 7 = op := by simp only [encM, hd]; exact bitsOf_op _ _ _ _ rfl (by decide) (by omega)
    have hn : (encM op fn o).2 = some (wordOf fmtDisp [k.toNat, 0]) := by simp only [encM, hd]
    have hk : (wordOf fmtDisp [k.toNat, 0]).toNat % 2 ^ 32 = k.toNat := by
      rw [wordOf_toNat fmtDisp _ rfl]
      simp only [fmtDisp, pack]
      omega
    generalize encM op fn o = y at *
    refine ⟨?_, by simp [b0, hn]⟩
    simp only [candidate]
    rw [b1, u0, hn, Option.map_some, hk]
    rw [if_neg (by omega), if_neg (by omega), if_neg (by omega), if_neg (by omega), if_pos (by omega)]
    exact h'

theorem reads_F (fn : Nat) (g : Guard) (imm : Nat) (i : Instr) (hfn : fn < 8) (hi : imm < 2 ^ 15)
    (h : candM [0, 21, g.pred.val, bit g.inv, 0, 0, 0, 0, 0, 0, 0, 0, fn, imm] none = some i) : Reads i (encF fn g imm) := by
  have h2 := bit_lt g.inv
  have u0 : unpack fmtM (encF fn g imm).1.toNat = _ := unpack_wordOf fmtM [0, 21, g.pred.val, bit g.inv, 0, 0, 0, 0, 0, 0, 0,
    0, fn, imm] rfl
      (by simp only [fits, fmtM, and_true]; refine ⟨?_, ?_, ?_, ?_, ?_, ?_, ?_, ?_, ?_, ?_, ?_, ?_, ?_, ?_⟩ <;> omega)
  have b0 : bitsOf (encF fn g imm).1 0 1 = 0 := bitsOf_long _ _ _ rfl (by decide)
  have b1 : bitsOf (encF fn g imm).1 1 7 = 21 := bitsOf_op _ _ _ _ rfl (by decide) (by decide)
  have hn : (encF fn g imm).2 = none := rfl
  generalize encF fn g imm = y at *
  refine ⟨?_, by simp [b0, hn]⟩
  simp only [candidate, b1, u0, hn]
  exact h

theorem reads_B (op fn : Nat) (g : Guard) (disp a : Nat) (r : Option (BitVec 28)) (i : Instr) (hop : op = 24 ∨ op = 25)
    (hfn : fn < 128) (hd : disp < 2 ^ 28) (ha : a < 512)
    (h : candB [bit r.isSome, op, g.pred.val, bit g.inv, disp, a, fn, 0] (r.getD 0).toNat = some i) :
    Reads i (encB op fn g disp a r) := by
  have h1 := bit_lt r.isSome
  have h2 := bit_lt g.inv
  have u0 : unpack fmtB (encB op fn g disp a r).1.toNat = _ := unpack_wordOf fmtB [bit r.isSome, op, g.pred.val, bit g.inv,
    disp, a, fn, 0] rfl
      (by simp only [fits, fmtB, and_true]; refine ⟨?_, ?_, ?_, ?_, ?_, ?_, ?_, ?_⟩ <;> omega)
  have b0 : bitsOf (encB op fn g disp a r).1 0 1 = bit r.isSome := bitsOf_long _ _ _ rfl h1
  have b1 : bitsOf (encB op fn g disp a r).1 1 7 = op := bitsOf_op _ _ _ _ rfl h1 (by omega)
  have hn : (encB op fn g disp a r).2.isSome = r.isSome := by cases r <;> rfl
  have v1 : ((encB op fn g disp a r).2.getD 0).toNat % 2 ^ 28 = (r.getD 0).toNat := by
    cases r with
    | none => rfl
    | some k =>
      simp only [encB, Option.map_some, Option.getD_some, wordOf_toNat fmtRejoin _ rfl]
      simp only [fmtRejoin, pack]
      omega
  generalize encB op fn g disp a r = y at *
  refine ⟨?_, by rw [b0, hn]; cases r <;> simp [bit]⟩
  simp only [candidate]
  rw [b1, u0, v1]
  rw [if_neg (by omega), if_neg (by omega), if_neg (by omega), if_neg (by omega), if_neg (by omega), if_pos (by omega)]
  exact h

theorem reads_A (op fn : Nat) (g : Guard) (hn : Nat) (sa sb sc sd : Nat) (t mode : Nat) (w : Option Word) (i : Instr)
    (hop : op = 32 ∨ op = 33 ∨ op = 40) (hfn : fn < 256) (hh : hn < 16) (ha : sa < 128) (hb : sb < 128) (hc : sc < 128)
    (hd : sd < 128) (ht : t < 16) (hm : mode < 256)
    (h : let l := [bit w.isSome, op, g.pred.val, bit g.inv, hn, sa, sb, sc, sd, t, fn, mode]
      (if op = 32 then candC l (unpack fmtCvt (w.getD 0).toNat) else if op = 33 then candX2 l (w.getD 0).toNat w.isSome
        else candW l) = some i) :
    Reads i (encA op fn g hn sa sb sc sd t mode w) := by
  have h1 := bit_lt w.isSome
  have h2 := bit_lt g.inv
  have u0 : unpack fmtA (encA op fn g hn sa sb sc sd t mode w).1.toNat = _ := unpack_wordOf fmtA [bit w.isSome, op, g.pred.val,
    bit g.inv, hn, sa, sb, sc, sd, t, fn, mode] rfl
      (by simp only [fits, fmtA, and_true]; refine ⟨?_, ?_, ?_, ?_, ?_, ?_, ?_, ?_, ?_, ?_, ?_, ?_⟩ <;> omega)
  have b0 : bitsOf (encA op fn g hn sa sb sc sd t mode w).1 0 1 = bit w.isSome := bitsOf_long _ _ _ rfl h1
  have b1 : bitsOf (encA op fn g hn sa sb sc sd t mode w).1 1 7 = op := bitsOf_op _ _ _ _ rfl h1 (by omega)
  have hw : (encA op fn g hn sa sb sc sd t mode w).2 = w := rfl
  generalize encA op fn g hn sa sb sc sd t mode w = y at *
  refine ⟨?_, by rw [b0, hw]; cases w <;> simp [bit]⟩
  simp only [candidate]
  rw [b1, u0, hw]
  rw [if_neg (by omega), if_neg (by omega), if_neg (by omega), if_neg (by omega), if_neg (by omega), if_neg (by omega)]
  rcases hop with rfl | rfl | rfl <;> exact h

/-! ### Every instruction -/

/-- The words of an instruction decode to it. -/
def RoundTrip.Statement (i : Instr) : Prop :=
  ∀ ws, wellFormed i = true → encode i = some ws → decode ws.1 (ws.2.getD 0) = .ok i

open RoundTrip

theorem legal_vform (i : Instr) (f : VForm) (hv : vform i = some f) (h : wellFormed i = true) : vlegal f = true := by
  simpa [wellFormed, legal, hv] using h

theorem encode_vform (i : Instr) (f : VForm) (ws : Words) (hv : vform i = some f) (h : encode i = some ws) : ws = encV f := by
  simpa [encode, hv, eq_comm] using h

theorem roundTrip_V (i : Instr) (f : VForm) (hv : vform i = some f) (hop : f.op ≤ 5) (hfn : f.fn < 256) (hcr : f.craw < 512)
    (h3 : f.nsrc < 3 ∨ (f.op == 4 || f.op == 5) = false) (o' : VOp)
    (hs : f.nsrc < 3 → f.o.c = .v 0 → o' = { f.o with c := o'.c } ∧
      (if f.op == 4 || f.op == 5 then some (.v 0) else srcOfCode f.craw) = some o'.c)
    (ho : ¬ f.nsrc < 3 → o' = f.o)
    (hc : (f.nsrc < 3 → f.o.c = .v 0) → candOp f.op f.fn o' (if f.nsrc < 3 then f.craw else srcCode f.o.c) = some i) :
    Statement i := by
  intro ws hw he
  have hl := legal_vform i f hv hw
  obtain rfl := encode_vform i f ws hv he
  refine decode_of_reads i _ hw he (reads_V f i hl hop hfn hcr ?_)
  have h2 := (vlegal_unfold f hl).2.1
  have hc := hc fun h => h2.resolve_left (by omega)
  by_cases hn : f.nsrc < 3
  · obtain ⟨e1, e2⟩ := hs hn (h2.resolve_left (by omega))
    rw [if_pos hn] at hc ⊢
    exact candV_eq f.o o' _ _ _ _ _ e2 e1 hc
  · have e := ho hn
    subst e
    rw [if_neg hn] at hc ⊢
    refine candV_eq f.o f.o _ _ _ _ _ ?_ rfl hc
    rw [h3.resolve_left hn, if_neg Bool.false_ne_true, srcOfCode_code]

/-- The forms whose third specifier is a source, or is zero. -/
theorem roundTrip_plain (i : Instr) (f : VForm) (hv : vform i = some f) (hop : f.op ≤ 3) (hfn : f.fn < 256) (hcr : f.craw = 0)
    (hc : candOp f.op f.fn f.o (if f.nsrc < 3 then 0 else srcCode f.o.c) = some i) : Statement i := by
  have h45 : (f.op == 4 || f.op == 5) = false := by simp; omega
  refine roundTrip_V i f hv (by omega) hfn (by omega) (.inr h45) f.o (fun _ h => ⟨rfl, ?_⟩) (fun _ => rfl) (fun _ => by rw [hcr]; exact hc)
  rw [h45, hcr, h]; rfl

/-- The forms whose third specifier is raw. -/
theorem roundTrip_raw (i : Instr) (f : VForm) (hv : vform i = some f) (hop : f.op = 4 ∨ f.op = 5) (hfn : f.fn < 256)
    (hcr : f.craw < 512) (hn : f.nsrc < 3) (hc : candOp f.op f.fn f.o f.craw = some i) : Statement i := by
  have h45 : (f.op == 4 || f.op == 5) = true := by simpa using hop
  refine roundTrip_V i f hv (by omega) hfn hcr (.inl hn) f.o (fun _ h => ⟨rfl, ?_⟩) (fun _ => rfl) (fun _ => by rw [if_pos hn]; exact hc)
  rw [h45, if_pos rfl, h]

theorem legal_sform (i : Instr) (f : SForm) (hv : vform i = none) (hs : sform i = some f) (h : wellFormed i = true) :
    slegal f = true := by
  simp only [wellFormed, legal, hv, hs, Bool.and_eq_true] at h
  exact h.1

theorem slegal_unfold (f : SForm) (h : slegal f = true) :
    (3 ≤ f.nsrc ∨ f.o.c = .s 0) ∧ (sLong f.o = true ∨ f.o.w1 = 0) := by
  simp only [slegal, Bool.and_eq_true, Bool.or_eq_true, decide_eq_true_eq, beq_iff_eq] at h
  exact ⟨h.1.2, h.2⟩

theorem roundTrip_S8 (i : Instr) (f : SForm) (hv : vform i = none) (hs : sform i = some f) (hfn : f.fn < 20)
    (hcr : f.craw = 0) (hc : cand08 f.fn f.o = some i) : Statement i := by
  intro ws hw he
  obtain ⟨h3, hl⟩ := slegal_unfold f (legal_sform i f hv hs hw)
  have e : encS 8 f.fn f.o.g f.o.d.val (ssrcCode f.o.a) (ssrcCode f.o.b) (if f.nsrc < 3 then f.craw else ssrcCode f.o.c)
      (tyCode f.o.ty) (bit f.o.sat) (sLong f.o) f.o.w1 = ws := by simpa [encode, hv, hs] using he
  have ec : (if f.nsrc < 3 then f.craw else ssrcCode f.o.c) = ssrcCode f.o.c := by
    split
    · rw [h3.resolve_left (by omega), hcr]; rfl
    · rfl
  rw [ec] at e
  subst e
  refine decode_of_reads i _ hw he (reads_S 8 f.fn _ _ _ _ _ _ _ _ _ i (.inl (by omega)) (fun h => hl.resolve_left (by simp [h]))
    f.o.d.isLt (ssrcCode_lt _) (ssrcCode_lt _) (ssrcCode_lt _) (tyCode_lt _) (by omega) (bit_lt _) ?_)
  obtain ⟨fn, ⟨g, sat, ty, d, a, b, c, w1⟩, n, cr, st⟩ := f
  simp only [candS, ssrcOfCode_code, Option.bind_some, guardOf_code, bit_eq_one, tyOfCode_code, Fin.ofNat_val_eq_self]
  split
  · simp at hfn
  all_goals simp_all

@[simp] theorem fields_low (a b : Fin 8) : Fin.ofNat 8 (a.val + 8 * b.val) = a := by
  apply Fin.ext; simp only [Fin.ofNat]; omega

@[simp] theorem fields_high (a b : Fin 8) : Fin.ofNat 8 ((a.val + 8 * b.val) / 8) = b := by
  apply Fin.ext; simp only [Fin.ofNat]; omega

theorem copy_mode (x : Nat) (hx : x < 8) (h : Fin 4) (d s : Bool) :
    ((x + 8 * h.val + 32 * bit d + 64 * bit s) / 64 % 2 == 1) = s
    ∧ ((x + 8 * h.val + 32 * bit d + 64 * bit s) / 32 % 2 == 1) = d
    ∧ Fin.ofNat 4 ((x + 8 * h.val + 32 * bit d + 64 * bit s) / 8) = h
    ∧ (x + 8 * h.val + 32 * bit d + 64 * bit s) % 8 = x := by
  refine ⟨?_, ?_, Fin.ext ?_, ?_⟩ <;> cases d <;> cases s <;> simp [bit, Fin.ofNat] <;> omega

theorem copy_index (h : Fin 4) (d s iw isp : Bool) :
    ((2 * bit iw + 4 * bit isp + 8 * h.val + 32 * bit d + 64 * bit s) / 4 % 2 == 1) = isp
    ∧ ((2 * bit iw + 4 * bit isp + 8 * h.val + 32 * bit d + 64 * bit s) / 2 % 2 == 1) = iw := by
  refine ⟨?_, ?_⟩ <;> cases d <;> cases s <;> cases iw <;> cases isp <;> simp [bit] <;> omega

namespace RoundTrip

theorem powerOn (f0) (f1) : Statement (.powerOn f0 f1) := fun _ _ h => nomatch h

theorem resetRequest (cold) (f0) (f1) : Statement (.resetRequest cold f0 f1) := fun _ _ h => nomatch h

theorem startTimeout (d) : Statement (.startTimeout d) := fun _ _ h => nomatch h

theorem correctedError (d) (loc) (hour) : Statement (.correctedError d loc hour) := fun _ _ h => nomatch h

theorem uncorrectableError (d) (loc) (use) : Statement (.uncorrectableError d loc use) := fun _ _ h => nomatch h

theorem patrolScrub (d) (fixed) (bad) (hour) : Statement (.patrolScrub d fixed bad hour) := fun _ _ h => nomatch h

theorem powerBudgetWindow (avg) (clk0) (clk1) : Statement (.powerBudgetWindow avg clk0 clk1) := fun _ _ h => nomatch h

theorem overshootLimit (d) (clk) : Statement (.overshootLimit d clk) := fun _ _ h => nomatch h

theorem junctionOver100 (d) (clk) : Statement (.junctionOver100 d clk) := fun _ _ h => nomatch h

theorem hbmOver85 (d) (stack) : Statement (.hbmOver85 d stack) := fun _ _ h => nomatch h

theorem hbmOver95 (d) (stack) (clk) : Statement (.hbmOver95 d stack clk) := fun _ _ h => nomatch h

theorem coresOfflineRequest (d) : Statement (.coresOfflineRequest d) := fun _ _ h => nomatch h

theorem dieOfflineRequest (d) : Statement (.dieOfflineRequest d) := fun _ _ h => nomatch h

theorem bringUpRequest (d) (f) : Statement (.bringUpRequest d f) := fun _ _ h => nomatch h

theorem onlineRequest (d) : Statement (.onlineRequest d) := fun _ _ h => nomatch h

theorem bridgePacket (i0) : Statement (.bridgePacket i0) := fun _ _ h => nomatch h

theorem bridgeAcknowledge (dir) (seq) : Statement (.bridgeAcknowledge dir seq) := fun _ _ h => nomatch h

theorem bridgeFlitError (dir) : Statement (.bridgeFlitError dir) := fun _ _ h => nomatch h

theorem bridgeRetrain (ok) : Statement (.bridgeRetrain ok) := fun _ _ h => nomatch h

theorem bridgeLaneFailure (d) (module) (spare) : Statement (.bridgeLaneFailure d module spare) := fun _ _ h => nomatch h

theorem ualinkLaneFailure (d) (port) (trains) : Statement (.ualinkLaneFailure d port trains) := fun _ _ h => nomatch h

theorem domainRequestReceived (src) (tag) (r) : Statement (.domainRequestReceived src tag r) := fun _ _ h => nomatch h

theorem relayForward (p) : Statement (.relayForward p) := fun _ _ h => nomatch h

theorem domainCompletion (tag) (ok) (data) : Statement (.domainCompletion tag ok data) := fun _ _ h => nomatch h

theorem systemCompletion (tag) (st) (data) : Statement (.systemCompletion tag st data) := fun _ _ h => nomatch h

theorem inboundHostWrite (off) (data) : Statement (.inboundHostWrite off data) := fun _ _ h => nomatch h

theorem inboundHostRead (off) (bytes) : Statement (.inboundHostRead off bytes) := fun _ _ h => nomatch h

theorem partitionEntryWrite (n) (reg) (v) : Statement (.partitionEntryWrite n reg v) := fun _ _ h => nomatch h

theorem contextEntryWrite (c) (reg) (v) : Statement (.contextEntryWrite c reg v) := fun _ _ h => nomatch h

theorem contextCreate (c) : Statement (.contextCreate c) := fun _ _ h => nomatch h

theorem contextHalt (c) : Statement (.contextHalt c) := fun _ _ h => nomatch h

theorem contextResume (c) : Statement (.contextResume c) := fun _ _ h => nomatch h

theorem contextExport (c) : Statement (.contextExport c) := fun _ _ h => nomatch h

theorem contextImport (c) : Statement (.contextImport c) := fun _ _ h => nomatch h

theorem contextDestroy (c) : Statement (.contextDestroy c) := fun _ _ h => nomatch h

theorem contextCancelJob (c) : Statement (.contextCancelJob c) := fun _ _ h => nomatch h

theorem startArgWrite (fn) (c) (entry) (arg) : Statement (.startArgWrite fn c entry arg) := fun _ _ h => nomatch h

theorem identityRegisterWrite (d) (v) : Statement (.identityRegisterWrite d v) := fun _ _ h => nomatch h

theorem fbaseWrite (d) (v) : Statement (.fbaseWrite d v) := fun _ _ h => nomatch h

theorem fretWrite (d) (v) : Statement (.fretWrite d v) := fun _ _ h => nomatch h

theorem registerWrite (a) (bytes) (v) : Statement (.registerWrite a bytes v) := fun _ _ h => nomatch h

theorem jobWarpStart (d) : Statement (.jobWarpStart d) := fun _ _ h => nomatch h

theorem faultServiceStart (d) : Statement (.faultServiceStart d) := fun _ _ h => nomatch h

theorem unitDispatch (c) : Statement (.unitDispatch c) := fun _ _ h => nomatch h

theorem dispatchReservation (c) : Statement (.dispatchReservation c) := fun _ _ h => nomatch h

theorem unitRetire (u) : Statement (.unitRetire u) := fun _ _ h => nomatch h

theorem carveComplete (core) : Statement (.carveComplete core) := fun _ _ h => nomatch h

theorem overdueSplit (w) (sp) : Statement (.overdueSplit w sp) := fun _ _ h => nomatch h

theorem safePointDrought (w) (sp) : Statement (.safePointDrought w sp) := fun _ _ h => nomatch h

theorem coreSwapStart (core) (c) : Statement (.coreSwapStart core c) := fun _ _ h => nomatch h

theorem coreSwapDone (core) (c) : Statement (.coreSwapDone core c) := fun _ _ h => nomatch h

theorem unitRestore (c) : Statement (.unitRestore c) := fun _ _ h => nomatch h

theorem pageWalk (d) (i0) : Statement (.pageWalk d i0) := fun _ _ h => nomatch h

theorem tlbinvComplete (op) : Statement (.tlbinvComplete op) := fun _ _ h => nomatch h

theorem loadDataReturn (id) : Statement (.loadDataReturn id) := fun _ _ h => nomatch h

theorem chainBufferFill (u) (rank) (ch) (occ) : Statement (.chainBufferFill u rank ch occ) := fun _ _ h => nomatch h

theorem mailboxFill (u) (ch) (occ) : Statement (.mailboxFill u ch occ) := fun _ _ h => nomatch h

theorem waitvReread (w) (sp) : Statement (.waitvReread w sp) := fun _ _ h => nomatch h

theorem copyElement (op) : Statement (.copyElement op) := fun _ _ h => nomatch h

theorem dirtyclrWord (op) : Statement (.dirtyclrWord op) := fun _ _ h => nomatch h

theorem mldwRowWrite (op) : Statement (.mldwRowWrite op) := fun _ _ h => nomatch h

theorem vadd (o) : Statement (.vadd o) := roundTrip_plain _ _ rfl (Nat.le_of_ble_eq_true rfl) (Nat.le_of_ble_eq_true rfl) rfl rfl

theorem vsub (o) : Statement (.vsub o) := roundTrip_plain _ _ rfl (Nat.le_of_ble_eq_true rfl) (Nat.le_of_ble_eq_true rfl) rfl rfl

theorem vmul (o) : Statement (.vmul o) := roundTrip_plain _ _ rfl (Nat.le_of_ble_eq_true rfl) (Nat.le_of_ble_eq_true rfl) rfl rfl

theorem vmulh (o) : Statement (.vmulh o) := roundTrip_plain _ _ rfl (Nat.le_of_ble_eq_true rfl) (Nat.le_of_ble_eq_true rfl) rfl rfl

theorem vmulw (o) : Statement (.vmulw o) := roundTrip_plain _ _ rfl (Nat.le_of_ble_eq_true rfl) (Nat.le_of_ble_eq_true rfl) rfl rfl

theorem vmad (o) : Statement (.vmad o) := roundTrip_plain _ _ rfl (Nat.le_of_ble_eq_true rfl) (Nat.le_of_ble_eq_true rfl) rfl rfl

theorem vabs (o) : Statement (.vabs o) := roundTrip_plain _ _ rfl (Nat.le_of_ble_eq_true rfl) (Nat.le_of_ble_eq_true rfl) rfl rfl

theorem vneg (o) : Statement (.vneg o) := roundTrip_plain _ _ rfl (Nat.le_of_ble_eq_true rfl) (Nat.le_of_ble_eq_true rfl) rfl rfl

theorem vmin (o) : Statement (.vmin o) := roundTrip_plain _ _ rfl (Nat.le_of_ble_eq_true rfl) (Nat.le_of_ble_eq_true rfl) rfl rfl

theorem vmax (o) : Statement (.vmax o) := roundTrip_plain _ _ rfl (Nat.le_of_ble_eq_true rfl) (Nat.le_of_ble_eq_true rfl) rfl rfl

theorem vavg (o) : Statement (.vavg o) := roundTrip_plain _ _ rfl (Nat.le_of_ble_eq_true rfl) (Nat.le_of_ble_eq_true rfl) rfl rfl

theorem vsad (o) : Statement (.vsad o) := roundTrip_plain _ _ rfl (Nat.le_of_ble_eq_true rfl) (Nat.le_of_ble_eq_true rfl) rfl rfl

theorem vdot4 (o) : Statement (.vdot4 o) := roundTrip_plain _ _ rfl (Nat.le_of_ble_eq_true rfl) (Nat.le_of_ble_eq_true rfl) rfl rfl

theorem vand (o) : Statement (.vand o) := roundTrip_plain _ _ rfl (Nat.le_of_ble_eq_true rfl) (Nat.le_of_ble_eq_true rfl) rfl rfl

theorem vor (o) : Statement (.vor o) := roundTrip_plain _ _ rfl (Nat.le_of_ble_eq_true rfl) (Nat.le_of_ble_eq_true rfl) rfl rfl

theorem vxor (o) : Statement (.vxor o) := roundTrip_plain _ _ rfl (Nat.le_of_ble_eq_true rfl) (Nat.le_of_ble_eq_true rfl) rfl rfl

theorem vnot (o) : Statement (.vnot o) := roundTrip_plain _ _ rfl (Nat.le_of_ble_eq_true rfl) (Nat.le_of_ble_eq_true rfl) rfl rfl

theorem vbool (o) : Statement (.vbool o) := roundTrip_plain _ _ rfl (Nat.le_of_ble_eq_true rfl) (Nat.le_of_ble_eq_true rfl) rfl rfl

theorem vshl (o) : Statement (.vshl o) := roundTrip_plain _ _ rfl (Nat.le_of_ble_eq_true rfl) (Nat.le_of_ble_eq_true rfl) rfl rfl

theorem vshr (o) : Statement (.vshr o) := roundTrip_plain _ _ rfl (Nat.le_of_ble_eq_true rfl) (Nat.le_of_ble_eq_true rfl) rfl rfl

theorem vsra (o) : Statement (.vsra o) := roundTrip_plain _ _ rfl (Nat.le_of_ble_eq_true rfl) (Nat.le_of_ble_eq_true rfl) rfl rfl

theorem vrot (o) : Statement (.vrot o) := roundTrip_plain _ _ rfl (Nat.le_of_ble_eq_true rfl) (Nat.le_of_ble_eq_true rfl) rfl rfl

theorem vbfe (o) : Statement (.vbfe o) := roundTrip_plain _ _ rfl (Nat.le_of_ble_eq_true rfl) (Nat.le_of_ble_eq_true rfl) rfl rfl

theorem vbfi (o) : Statement (.vbfi o) := roundTrip_plain _ _ rfl (Nat.le_of_ble_eq_true rfl) (Nat.le_of_ble_eq_true rfl) rfl rfl

theorem vpopc (o) : Statement (.vpopc o) := roundTrip_plain _ _ rfl (Nat.le_of_ble_eq_true rfl) (Nat.le_of_ble_eq_true rfl) rfl rfl

theorem vclz (o) : Statement (.vclz o) := roundTrip_plain _ _ rfl (Nat.le_of_ble_eq_true rfl) (Nat.le_of_ble_eq_true rfl) rfl rfl

theorem vctz (o) : Statement (.vctz o) := roundTrip_plain _ _ rfl (Nat.le_of_ble_eq_true rfl) (Nat.le_of_ble_eq_true rfl) rfl rfl

theorem vbrev (o) : Statement (.vbrev o) := roundTrip_plain _ _ rfl (Nat.le_of_ble_eq_true rfl) (Nat.le_of_ble_eq_true rfl) rfl rfl

theorem vsel (o p) : Statement (.vsel o p) := by
  refine roundTrip_V _ _ rfl (by simp [vplain]) (by simp [vplain]) (by simp only []; omega) (.inl (by simp [vplain]))
    { o with c := .v (Fin.ofNat 256 p.val) } (fun _ h => ⟨rfl, ?_⟩) (fun h => absurd (by simp [vplain]) h) (fun h => ?_)
  · have e : srcOfCode p.val = some (.v (Fin.ofNat 256 p.val)) := by
      have := srcOfCode_v (Fin.ofNat 256 p.val)
      simpa [Nat.mod_eq_of_lt (show p.val < 256 by omega)] using this
    exact e
  · have e : o.c = .v 0 := h (by simp [vplain])
    obtain ⟨g, rnd, sat, ty, d, a, b, c, imm, ch⟩ := o
    simp only [] at e
    simp [vplain, candOp, cand00, e]

theorem vmov (o) : Statement (.vmov o) := roundTrip_plain _ _ rfl (Nat.le_of_ble_eq_true rfl) (Nat.le_of_ble_eq_true rfl) rfl rfl

theorem vpack (o) : Statement (.vpack o) := roundTrip_plain _ _ rfl (Nat.le_of_ble_eq_true rfl) (Nat.le_of_ble_eq_true rfl) rfl rfl

theorem vunpkLo (o) : Statement (.vunpkLo o) := roundTrip_plain _ _ rfl (Nat.le_of_ble_eq_true rfl) (Nat.le_of_ble_eq_true rfl) rfl rfl

theorem vunpkHi (o) : Statement (.vunpkHi o) := roundTrip_plain _ _ rfl (Nat.le_of_ble_eq_true rfl) (Nat.le_of_ble_eq_true rfl) rfl rfl

theorem vfadd (o) : Statement (.vfadd o) := roundTrip_plain _ _ rfl (Nat.le_of_ble_eq_true rfl) (Nat.le_of_ble_eq_true rfl) rfl rfl

theorem vfsub (o) : Statement (.vfsub o) := roundTrip_plain _ _ rfl (Nat.le_of_ble_eq_true rfl) (Nat.le_of_ble_eq_true rfl) rfl rfl

theorem vfmul (o) : Statement (.vfmul o) := roundTrip_plain _ _ rfl (Nat.le_of_ble_eq_true rfl) (Nat.le_of_ble_eq_true rfl) rfl rfl

theorem vfma (o) : Statement (.vfma o) := roundTrip_plain _ _ rfl (Nat.le_of_ble_eq_true rfl) (Nat.le_of_ble_eq_true rfl) rfl rfl

theorem vfmin (o) : Statement (.vfmin o) := roundTrip_plain _ _ rfl (Nat.le_of_ble_eq_true rfl) (Nat.le_of_ble_eq_true rfl) rfl rfl

theorem vfmax (o) : Statement (.vfmax o) := roundTrip_plain _ _ rfl (Nat.le_of_ble_eq_true rfl) (Nat.le_of_ble_eq_true rfl) rfl rfl

theorem vfabs (o) : Statement (.vfabs o) := roundTrip_plain _ _ rfl (Nat.le_of_ble_eq_true rfl) (Nat.le_of_ble_eq_true rfl) rfl rfl

theorem vfneg (o) : Statement (.vfneg o) := roundTrip_plain _ _ rfl (Nat.le_of_ble_eq_true rfl) (Nat.le_of_ble_eq_true rfl) rfl rfl

theorem vfsgn (o) : Statement (.vfsgn o) := roundTrip_plain _ _ rfl (Nat.le_of_ble_eq_true rfl) (Nat.le_of_ble_eq_true rfl) rfl rfl

theorem vfrnd (o) : Statement (.vfrnd o) := roundTrip_plain _ _ rfl (Nat.le_of_ble_eq_true rfl) (Nat.le_of_ble_eq_true rfl) rfl rfl

theorem vfclass (o) : Statement (.vfclass o) := roundTrip_plain _ _ rfl (Nat.le_of_ble_eq_true rfl) (Nat.le_of_ble_eq_true rfl) rfl rfl

theorem vfdot2 (o) : Statement (.vfdot2 o) := roundTrip_plain _ _ rfl (Nat.le_of_ble_eq_true rfl) (Nat.le_of_ble_eq_true rfl) rfl rfl

theorem vrcp (o) : Statement (.vrcp o) := roundTrip_plain _ _ rfl (Nat.le_of_ble_eq_true rfl) (Nat.le_of_ble_eq_true rfl) rfl rfl

theorem vrsq (o) : Statement (.vrsq o) := roundTrip_plain _ _ rfl (Nat.le_of_ble_eq_true rfl) (Nat.le_of_ble_eq_true rfl) rfl rfl

theorem vsqrt (o) : Statement (.vsqrt o) := roundTrip_plain _ _ rfl (Nat.le_of_ble_eq_true rfl) (Nat.le_of_ble_eq_true rfl) rfl rfl

theorem vexp2 (o) : Statement (.vexp2 o) := roundTrip_plain _ _ rfl (Nat.le_of_ble_eq_true rfl) (Nat.le_of_ble_eq_true rfl) rfl rfl

theorem vlog2 (o) : Statement (.vlog2 o) := roundTrip_plain _ _ rfl (Nat.le_of_ble_eq_true rfl) (Nat.le_of_ble_eq_true rfl) rfl rfl

theorem vsinpi (o) : Statement (.vsinpi o) := roundTrip_plain _ _ rfl (Nat.le_of_ble_eq_true rfl) (Nat.le_of_ble_eq_true rfl) rfl rfl

theorem vcospi (o) : Statement (.vcospi o) := roundTrip_plain _ _ rfl (Nat.le_of_ble_eq_true rfl) (Nat.le_of_ble_eq_true rfl) rfl rfl

theorem vtanh (o) : Statement (.vtanh o) := roundTrip_plain _ _ rfl (Nat.le_of_ble_eq_true rfl) (Nat.le_of_ble_eq_true rfl) rfl rfl

theorem vcmp (cond) (o) : Statement (.vcmp cond o) :=
  roundTrip_plain _ _ rfl (Nat.le_of_ble_eq_true rfl) (Nat.lt_trans (condCode_lt _) (by decide)) rfl (by simp [vplain, candOp])

theorem vcvt (o) (src) : Statement (.vcvt o src) :=
  roundTrip_raw _ _ rfl (.inl rfl) (Nat.le_of_ble_eq_true rfl) (Nat.lt_trans (tyCode_lt _) (by decide)) (Nat.le_of_ble_eq_true rfl) (by simp [vplain, candOp, cand04, cand05])

theorem vcvtMx (o) (f) : Statement (.vcvtMx o f) :=
  roundTrip_raw _ _ rfl (.inl rfl) (Nat.le_of_ble_eq_true rfl) (Nat.lt_trans (mxCode_lt _) (by decide)) (Nat.le_of_ble_eq_true rfl) (by simp [vplain, candOp, cand04, cand05])

theorem vcvtTomx (o) (f) : Statement (.vcvtTomx o f) :=
  roundTrip_raw _ _ rfl (.inl rfl) (Nat.le_of_ble_eq_true rfl) (Nat.lt_trans (mxCode_lt _) (by decide)) (Nat.le_of_ble_eq_true rfl) (by simp [vplain, candOp, cand04, cand05])

theorem vscaleMx (o) (f) : Statement (.vscaleMx o f) :=
  roundTrip_raw _ _ rfl (.inl rfl) (Nat.le_of_ble_eq_true rfl) (Nat.lt_trans (mxCode_lt _) (by decide)) (Nat.le_of_ble_eq_true rfl) (by simp [vplain, candOp, cand04, cand05])

theorem shuf (o) : Statement (.shuf o) :=
  roundTrip_raw _ _ rfl (.inr rfl) (Nat.le_of_ble_eq_true rfl) (Nat.le_of_ble_eq_true rfl) (Nat.le_of_ble_eq_true rfl) (by simp [vplain, candOp, cand04, cand05])

theorem shufRot (o) : Statement (.shufRot o) :=
  roundTrip_raw _ _ rfl (.inr rfl) (Nat.le_of_ble_eq_true rfl) (Nat.le_of_ble_eq_true rfl) (Nat.le_of_ble_eq_true rfl) (by simp [vplain, candOp, cand04, cand05])

theorem shufBcast (o) : Statement (.shufBcast o) :=
  roundTrip_raw _ _ rfl (.inr rfl) (Nat.le_of_ble_eq_true rfl) (Nat.le_of_ble_eq_true rfl) (Nat.le_of_ble_eq_true rfl) (by simp [vplain, candOp, cand04, cand05])

theorem shufBfly (o) : Statement (.shufBfly o) :=
  roundTrip_raw _ _ rfl (.inr rfl) (Nat.le_of_ble_eq_true rfl) (Nat.le_of_ble_eq_true rfl) (Nat.le_of_ble_eq_true rfl) (by simp [vplain, candOp, cand04, cand05])

theorem shufMirror (o) : Statement (.shufMirror o) :=
  roundTrip_raw _ _ rfl (.inr rfl) (Nat.le_of_ble_eq_true rfl) (Nat.le_of_ble_eq_true rfl) (Nat.le_of_ble_eq_true rfl) (by simp [vplain, candOp, cand04, cand05])

theorem vpermSub (o) : Statement (.vpermSub o) :=
  roundTrip_raw _ _ rfl (.inr rfl) (Nat.le_of_ble_eq_true rfl) (Nat.le_of_ble_eq_true rfl) (Nat.le_of_ble_eq_true rfl) (by simp [vplain, candOp, cand04, cand05])

theorem xsel (o) (cnt) : Statement (.xsel o cnt) :=
  roundTrip_raw _ _ rfl (.inr rfl) (Nat.le_of_ble_eq_true rfl) (by simp only []; omega) (Nat.le_of_ble_eq_true rfl) (by simp [vplain, candOp, cand04, cand05])

theorem vscan (o) (op) (excl) : Statement (.vscan o op excl) :=
  roundTrip_raw _ _ rfl (.inr rfl) (Nat.le_of_ble_eq_true rfl) (by have := redCode_lt op; simp only []; split <;> omega) (Nat.le_of_ble_eq_true rfl) (by cases excl <;> cases op <;> simp [vplain, candOp, cand05, redCode, redOfCode])

theorem vred (o) (op) : Statement (.vred o op) :=
  roundTrip_raw _ _ rfl (.inr rfl) (Nat.le_of_ble_eq_true rfl) (by have := redCode_lt op; simp only []; omega) (Nat.le_of_ble_eq_true rfl) (by cases op <;> simp [vplain, candOp, cand05, redCode, redOfCode])

theorem matchv (o) : Statement (.matchv o) :=
  roundTrip_raw _ _ rfl (.inr rfl) (Nat.le_of_ble_eq_true rfl) (Nat.le_of_ble_eq_true rfl) (Nat.le_of_ble_eq_true rfl) (by simp [vplain, candOp, cand04, cand05])

theorem pand (o) : Statement (.pand o) := by
  intro ws hw he
  obtain rfl := (Option.some.inj he)
  refine decode_of_reads _ _ hw he ?_
  exact reads_P _ o _ (by decide) (by simp [-Fin.ofNat_eq_cast, candP])

theorem por (o) : Statement (.por o) := by
  intro ws hw he
  obtain rfl := (Option.some.inj he)
  refine decode_of_reads _ _ hw he ?_
  exact reads_P _ o _ (by decide) (by simp [-Fin.ofNat_eq_cast, candP])

theorem pxor (o) : Statement (.pxor o) := by
  intro ws hw he
  obtain rfl := (Option.some.inj he)
  refine decode_of_reads _ _ hw he ?_
  exact reads_P _ o _ (by decide) (by simp [-Fin.ofNat_eq_cast, candP])

theorem pnot (o) : Statement (.pnot o) := by
  intro ws hw he
  obtain rfl := (Option.some.inj he)
  refine decode_of_reads _ _ hw he ?_
  exact reads_P _ o _ (by decide) (by simp [-Fin.ofNat_eq_cast, candP])

theorem pmov (o) : Statement (.pmov o) := by
  intro ws hw he
  obtain rfl := (Option.some.inj he)
  refine decode_of_reads _ _ hw he ?_
  exact reads_P _ o _ (by decide) (by simp [-Fin.ofNat_eq_cast, candP])

theorem ballot (o) : Statement (.ballot o) := by
  intro ws hw he
  obtain rfl := (Option.some.inj he)
  refine decode_of_reads _ _ hw he ?_
  exact reads_P _ o _ (by decide) (by simp [-Fin.ofNat_eq_cast, candP])

theorem voteAny (o) : Statement (.voteAny o) := by
  intro ws hw he
  obtain rfl := (Option.some.inj he)
  refine decode_of_reads _ _ hw he ?_
  exact reads_P _ o _ (by decide) (by simp [-Fin.ofNat_eq_cast, candP])

theorem voteAll (o) : Statement (.voteAll o) := by
  intro ws hw he
  obtain rfl := (Option.some.inj he)
  refine decode_of_reads _ _ hw he ?_
  exact reads_P _ o _ (by decide) (by simp [-Fin.ofNat_eq_cast, candP])

theorem voteSame (o) : Statement (.voteSame o) := by
  intro ws hw he
  obtain rfl := (Option.some.inj he)
  refine decode_of_reads _ _ hw he ?_
  exact reads_P _ o _ (by decide) (by simp [-Fin.ofNat_eq_cast, candP])

theorem pcount (o) : Statement (.pcount o) := by
  intro ws hw he
  obtain rfl := (Option.some.inj he)
  refine decode_of_reads _ _ hw he ?_
  exact reads_P _ o _ (by decide) (by simp [-Fin.ofNat_eq_cast, candP])

theorem pfirst (o) : Statement (.pfirst o) := by
  intro ws hw he
  obtain rfl := (Option.some.inj he)
  refine decode_of_reads _ _ hw he ?_
  exact reads_P _ o _ (by decide) (by simp [-Fin.ofNat_eq_cast, candP])

theorem xbegin (x) (g) (start) (len) (n) (imm) : Statement (.xbegin x g start len n imm) := by
  intro ws hw he
  obtain rfl := (Option.some.inj he)
  refine decode_of_reads _ _ hw he ?_
  exact reads_X _ _ _ _ _ _ _ _ _ _ _ _ (by simp_all [wellFormed, legal, vform, sform] <;> intro h <;>
      first
      | exact hw.2.resolve_left h
      | exact hw.1.2.resolve_left h
      | exact fun h2 => hw.2.resolve_left (by simp [h, h2])
      | exact fun h2 h3 => hw.2.resolve_left (by simp [h, h2, h3])) (by first | omega | exact srcCode_lt _ | exact tyCode_lt _ | exact bit_lt _ | exact Nat.lt_trans (redCode_lt _) (by decide)) (by first | omega | exact srcCode_lt _ | exact tyCode_lt _ | exact bit_lt _ | exact Nat.lt_trans (redCode_lt _) (by decide)) (by first | omega | exact srcCode_lt _ | exact tyCode_lt _ | exact bit_lt _ | exact Nat.lt_trans (redCode_lt _) (by decide))
    (by first | omega | exact srcCode_lt _ | exact tyCode_lt _ | exact bit_lt _ | exact Nat.lt_trans (redCode_lt _) (by decide)) (by first | omega | exact srcCode_lt _ | exact tyCode_lt _ | exact bit_lt _ | exact Nat.lt_trans (redCode_lt _) (by decide))
    (by first | omega | exact srcCode_lt _ | exact tyCode_lt _ | exact bit_lt _ | exact Nat.lt_trans (redCode_lt _) (by decide)) (by first | omega | exact srcCode_lt _ | exact tyCode_lt _ | exact bit_lt _ | exact Nat.lt_trans (redCode_lt _) (by decide)) (by simp [-Fin.ofNat_eq_cast, candX, guardOf, guardNone])

theorem xnext (x) (d) (pe) : Statement (.xnext x d pe) := by
  intro ws hw he
  obtain rfl := (Option.some.inj he)
  refine decode_of_reads _ _ hw he ?_
  exact reads_X _ _ _ _ _ _ _ _ _ _ _ _ (fun _ => rfl) (by first | omega | exact srcCode_lt _ | exact tyCode_lt _ | exact bit_lt _ | exact Nat.lt_trans (redCode_lt _) (by decide)) (by first | omega | exact srcCode_lt _ | exact tyCode_lt _ | exact bit_lt _ | exact Nat.lt_trans (redCode_lt _) (by decide)) (by first | omega | exact srcCode_lt _ | exact tyCode_lt _ | exact bit_lt _ | exact Nat.lt_trans (redCode_lt _) (by decide))
    (by first | omega | exact srcCode_lt _ | exact tyCode_lt _ | exact bit_lt _ | exact Nat.lt_trans (redCode_lt _) (by decide)) (by first | omega | exact srcCode_lt _ | exact tyCode_lt _ | exact bit_lt _ | exact Nat.lt_trans (redCode_lt _) (by decide))
    (by first | omega | exact srcCode_lt _ | exact tyCode_lt _ | exact bit_lt _ | exact Nat.lt_trans (redCode_lt _) (by decide)) (by first | omega | exact srcCode_lt _ | exact tyCode_lt _ | exact bit_lt _ | exact Nat.lt_trans (redCode_lt _) (by decide)) (by simp [-Fin.ofNat_eq_cast, candX, guardOf, guardNone])

theorem xred (x) (g) (op) (ty) (sat) (vdst) (val) (imm) (hn) : Statement (.xred x g op ty sat vdst val imm hn) := by
  intro ws hw he
  obtain rfl := (Option.some.inj he)
  refine decode_of_reads _ _ hw he ?_
  exact reads_X _ _ _ _ _ _ _ _ _ _ _ _ (by simp_all [wellFormed, legal, vform, sform] <;> intro h <;>
      first
      | exact hw.2.resolve_left h
      | exact hw.1.2.resolve_left h
      | exact fun h2 => hw.2.resolve_left (by simp [h, h2])
      | exact fun h2 h3 => hw.2.resolve_left (by simp [h, h2, h3])) (by first | omega | exact srcCode_lt _ | exact tyCode_lt _ | exact bit_lt _ | exact Nat.lt_trans (redCode_lt _) (by decide)) (by first | omega | exact srcCode_lt _ | exact tyCode_lt _ | exact bit_lt _ | exact Nat.lt_trans (redCode_lt _) (by decide)) (by first | omega | exact srcCode_lt _ | exact tyCode_lt _ | exact bit_lt _ | exact Nat.lt_trans (redCode_lt _) (by decide))
    (by first | omega | exact srcCode_lt _ | exact tyCode_lt _ | exact bit_lt _ | exact Nat.lt_trans (redCode_lt _) (by decide)) (by first | omega | exact srcCode_lt _ | exact tyCode_lt _ | exact bit_lt _ | exact Nat.lt_trans (redCode_lt _) (by decide))
    (by first | omega | exact srcCode_lt _ | exact tyCode_lt _ | exact bit_lt _ | exact Nat.lt_trans (redCode_lt _) (by decide)) (by first | omega | exact srcCode_lt _ | exact tyCode_lt _ | exact bit_lt _ | exact Nat.lt_trans (redCode_lt _) (by decide)) (by simp [-Fin.ofNat_eq_cast, candX, guardOf, guardNone])

theorem xsync (x) : Statement (.xsync x) := by
  intro ws hw he
  obtain rfl := (Option.some.inj he)
  refine decode_of_reads _ _ hw he ?_
  exact reads_X _ _ _ _ _ _ _ _ _ _ _ _ (fun _ => rfl) (by first | omega | exact srcCode_lt _ | exact tyCode_lt _ | exact bit_lt _ | exact Nat.lt_trans (redCode_lt _) (by decide)) (by first | omega | exact srcCode_lt _ | exact tyCode_lt _ | exact bit_lt _ | exact Nat.lt_trans (redCode_lt _) (by decide)) (by first | omega | exact srcCode_lt _ | exact tyCode_lt _ | exact bit_lt _ | exact Nat.lt_trans (redCode_lt _) (by decide))
    (by first | omega | exact srcCode_lt _ | exact tyCode_lt _ | exact bit_lt _ | exact Nat.lt_trans (redCode_lt _) (by decide)) (by first | omega | exact srcCode_lt _ | exact tyCode_lt _ | exact bit_lt _ | exact Nat.lt_trans (redCode_lt _) (by decide))
    (by first | omega | exact srcCode_lt _ | exact tyCode_lt _ | exact bit_lt _ | exact Nat.lt_trans (redCode_lt _) (by decide)) (by first | omega | exact srcCode_lt _ | exact tyCode_lt _ | exact bit_lt _ | exact Nat.lt_trans (redCode_lt _) (by decide)) (by simp [-Fin.ofNat_eq_cast, candX, guardOf, guardNone])

theorem xend (x) : Statement (.xend x) := by
  intro ws hw he
  obtain rfl := (Option.some.inj he)
  refine decode_of_reads _ _ hw he ?_
  exact reads_X _ _ _ _ _ _ _ _ _ _ _ _ (fun _ => rfl) (by first | omega | exact srcCode_lt _ | exact tyCode_lt _ | exact bit_lt _ | exact Nat.lt_trans (redCode_lt _) (by decide)) (by first | omega | exact srcCode_lt _ | exact tyCode_lt _ | exact bit_lt _ | exact Nat.lt_trans (redCode_lt _) (by decide)) (by first | omega | exact srcCode_lt _ | exact tyCode_lt _ | exact bit_lt _ | exact Nat.lt_trans (redCode_lt _) (by decide))
    (by first | omega | exact srcCode_lt _ | exact tyCode_lt _ | exact bit_lt _ | exact Nat.lt_trans (redCode_lt _) (by decide)) (by first | omega | exact srcCode_lt _ | exact tyCode_lt _ | exact bit_lt _ | exact Nat.lt_trans (redCode_lt _) (by decide))
    (by first | omega | exact srcCode_lt _ | exact tyCode_lt _ | exact bit_lt _ | exact Nat.lt_trans (redCode_lt _) (by decide)) (by first | omega | exact srcCode_lt _ | exact tyCode_lt _ | exact bit_lt _ | exact Nat.lt_trans (redCode_lt _) (by decide)) (by simp [-Fin.ofNat_eq_cast, candX, guardOf, guardNone])

theorem xquery (x) (g) (d) (sel) : Statement (.xquery x g d sel) := by
  intro ws hw he
  obtain rfl := (Option.some.inj he)
  refine decode_of_reads _ _ hw he ?_
  exact reads_X _ _ _ _ _ _ _ _ _ _ _ _ (fun _ => rfl) (by first | omega | exact srcCode_lt _ | exact tyCode_lt _ | exact bit_lt _ | exact Nat.lt_trans (redCode_lt _) (by decide)) (by first | omega | exact srcCode_lt _ | exact tyCode_lt _ | exact bit_lt _ | exact Nat.lt_trans (redCode_lt _) (by decide)) (by first | omega | exact srcCode_lt _ | exact tyCode_lt _ | exact bit_lt _ | exact Nat.lt_trans (redCode_lt _) (by decide))
    (by first | omega | exact srcCode_lt _ | exact tyCode_lt _ | exact bit_lt _ | exact Nat.lt_trans (redCode_lt _) (by decide)) (by first | omega | exact srcCode_lt _ | exact tyCode_lt _ | exact bit_lt _ | exact Nat.lt_trans (redCode_lt _) (by decide))
    (by first | omega | exact srcCode_lt _ | exact tyCode_lt _ | exact bit_lt _ | exact Nat.lt_trans (redCode_lt _) (by decide)) (by first | omega | exact srcCode_lt _ | exact tyCode_lt _ | exact bit_lt _ | exact Nat.lt_trans (redCode_lt _) (by decide)) (by simp [-Fin.ofNat_eq_cast, candX, guardOf, guardNone])

theorem sadd (o) : Statement (.sadd o) := roundTrip_S8 _ _ rfl rfl (Nat.le_of_ble_eq_true rfl) rfl rfl

theorem ssub (o) : Statement (.ssub o) := roundTrip_S8 _ _ rfl rfl (Nat.le_of_ble_eq_true rfl) rfl rfl

theorem smul (o) : Statement (.smul o) := roundTrip_S8 _ _ rfl rfl (Nat.le_of_ble_eq_true rfl) rfl rfl

theorem smulh (o) : Statement (.smulh o) := roundTrip_S8 _ _ rfl rfl (Nat.le_of_ble_eq_true rfl) rfl rfl

theorem smin (o) : Statement (.smin o) := roundTrip_S8 _ _ rfl rfl (Nat.le_of_ble_eq_true rfl) rfl rfl

theorem smax (o) : Statement (.smax o) := roundTrip_S8 _ _ rfl rfl (Nat.le_of_ble_eq_true rfl) rfl rfl

theorem sand (o) : Statement (.sand o) := roundTrip_S8 _ _ rfl rfl (Nat.le_of_ble_eq_true rfl) rfl rfl

theorem sor (o) : Statement (.sor o) := roundTrip_S8 _ _ rfl rfl (Nat.le_of_ble_eq_true rfl) rfl rfl

theorem sxor (o) : Statement (.sxor o) := roundTrip_S8 _ _ rfl rfl (Nat.le_of_ble_eq_true rfl) rfl rfl

theorem snot (o) : Statement (.snot o) := roundTrip_S8 _ _ rfl rfl (Nat.le_of_ble_eq_true rfl) rfl rfl

theorem sshl (o) : Statement (.sshl o) := roundTrip_S8 _ _ rfl rfl (Nat.le_of_ble_eq_true rfl) rfl rfl

theorem sshr (o) : Statement (.sshr o) := roundTrip_S8 _ _ rfl rfl (Nat.le_of_ble_eq_true rfl) rfl rfl

theorem ssra (o) : Statement (.ssra o) := roundTrip_S8 _ _ rfl rfl (Nat.le_of_ble_eq_true rfl) rfl rfl

theorem sbfe (o) : Statement (.sbfe o) := roundTrip_S8 _ _ rfl rfl (Nat.le_of_ble_eq_true rfl) rfl rfl

theorem sbfi (o) : Statement (.sbfi o) := roundTrip_S8 _ _ rfl rfl (Nat.le_of_ble_eq_true rfl) rfl rfl

theorem spopc (o) : Statement (.spopc o) := roundTrip_S8 _ _ rfl rfl (Nat.le_of_ble_eq_true rfl) rfl rfl

theorem sclz (o) : Statement (.sclz o) := roundTrip_S8 _ _ rfl rfl (Nat.le_of_ble_eq_true rfl) rfl rfl

theorem sctz (o) : Statement (.sctz o) := roundTrip_S8 _ _ rfl rfl (Nat.le_of_ble_eq_true rfl) rfl rfl

theorem smov (o) : Statement (.smov o) := roundTrip_S8 _ _ rfl rfl (Nat.le_of_ble_eq_true rfl) rfl rfl

theorem ssel (o) : Statement (.ssel o) := roundTrip_S8 _ _ rfl rfl (Nat.le_of_ble_eq_true rfl) rfl rfl

theorem scmp (cond) (o) : Statement (.scmp cond o) := by
  intro ws hw he
  have hl := slegal_unfold _ (legal_sform (.scmp cond o) _ rfl rfl hw)
  simp only [] at hl
  obtain ⟨h3, hl⟩ := hl
  have h3 : o.c = .s 0 := h3.resolve_left (by decide)
  obtain rfl : encS 8 0x14 o.g o.d.val (ssrcCode o.a) (ssrcCode o.b) (0x90 + condCode cond) (tyCode o.ty) (bit o.sat) (sLong o) o.w1 = ws := by
    simpa [encode, vform, sform] using he
  have := condCode_lt cond
  refine decode_of_reads _ _ hw he (reads_S _ _ _ _ _ _ _ _ _ _ _ _ (.inl (by omega)) (fun h => hl.resolve_left (by simp [h]))
    o.d.isLt (ssrcCode_lt _) (ssrcCode_lt _) (by omega) (tyCode_lt _) (by decide) (bit_lt _) ?_)
  obtain ⟨g, sat, ty, d, a, b, c, w1⟩ := o
  simp only [] at h3
  simp [-Fin.ofNat_eq_cast, candS, h3]

theorem srd (g) (d) (k) : Statement (.srd g d k) := by
  intro ws hw he
  obtain rfl := (Option.some.inj he)
  refine decode_of_reads _ _ hw he ?_
  exact reads_S _ _ _ _ _ _ _ _ _ _ _ _ (by decide) (fun _ => rfl) (by first | omega | exact ssrcCode_lt _ | (have := sysCode_lt n; omega)) (by first | omega | exact ssrcCode_lt _ | (have := sysCode_lt n; omega))
    (by first | omega | exact ssrcCode_lt _ | (have := sysCode_lt n; omega)) (by first | omega | exact ssrcCode_lt _ | (have := sysCode_lt n; omega)) (by decide) (by decide) (by decide) (by have h9 : ¬192 + k.val = 144 := (by omega); have h8 : ¬192 + k.val = 145 := (by omega); simp [-Fin.ofNat_eq_cast, candS, h8, h9])

theorem srdFlags (g) (d) : Statement (.srdFlags g d) := by
  intro ws hw he
  obtain rfl := (Option.some.inj he)
  refine decode_of_reads _ _ hw he ?_
  exact reads_S _ _ _ _ _ _ _ _ _ _ _ _ (by decide) (fun _ => rfl) (by first | omega | exact ssrcCode_lt _ | (have := sysCode_lt n; omega)) (by first | omega | exact ssrcCode_lt _ | (have := sysCode_lt n; omega))
    (by first | omega | exact ssrcCode_lt _ | (have := sysCode_lt n; omega)) (by first | omega | exact ssrcCode_lt _ | (have := sysCode_lt n; omega)) (by decide) (by decide) (by decide) (by simp [-Fin.ofNat_eq_cast, candS])

theorem srdFlagsClr (g) (d) (b) (w1) : Statement (.srdFlagsClr g d b w1) := by
  intro ws hw he
  obtain rfl := (Option.some.inj he)
  refine decode_of_reads _ _ hw he ?_
  exact reads_S _ _ _ _ _ _ _ _ _ _ _ _ (by decide) (by simp_all [wellFormed, legal, vform, sform, w1Ok, usesW1] <;> intro h <;>
      first
      | exact hw.2.resolve_left h
      | exact hw.1.2.resolve_left h
      | exact fun h2 => hw.2.resolve_left (by simp [h, h2])
      | exact fun h2 h3 => hw.2.resolve_left (by simp [h, h2, h3])) (by first | omega | exact ssrcCode_lt _ | (have := sysCode_lt n; omega)) (by first | omega | exact ssrcCode_lt _ | (have := sysCode_lt n; omega))
    (by first | omega | exact ssrcCode_lt _ | (have := sysCode_lt n; omega)) (by first | omega | exact ssrcCode_lt _ | (have := sysCode_lt n; omega)) (by decide) (by decide) (by decide) (by simp [-Fin.ofNat_eq_cast, candS])

theorem vtos (g) (d) (va) (b) (w1) : Statement (.vtos g d va b w1) := by
  intro ws hw he
  obtain rfl := (Option.some.inj he)
  refine decode_of_reads _ _ hw he ?_
  exact reads_S _ _ _ _ _ _ _ _ _ _ _ _ (by decide) (by simp_all [wellFormed, legal, vform, sform, w1Ok, usesW1] <;> intro h <;>
      first
      | exact hw.2.resolve_left h
      | exact hw.1.2.resolve_left h
      | exact fun h2 => hw.2.resolve_left (by simp [h, h2])
      | exact fun h2 h3 => hw.2.resolve_left (by simp [h, h2, h3])) (by first | omega | exact ssrcCode_lt _ | (have := sysCode_lt n; omega)) (by first | omega | exact ssrcCode_lt _ | (have := sysCode_lt n; omega))
    (by first | omega | exact ssrcCode_lt _ | (have := sysCode_lt n; omega)) (by first | omega | exact ssrcCode_lt _ | (have := sysCode_lt n; omega)) (by decide) (by decide) (by decide) (by simp [-Fin.ofNat_eq_cast, candS])

theorem cdef (g) (c) (b) (w1) : Statement (.cdef g c b w1) := by
  intro ws hw he
  obtain rfl := (Option.some.inj he)
  refine decode_of_reads _ _ hw he ?_
  exact reads_S _ _ _ _ _ _ _ _ _ _ _ _ (by decide) (by simp_all [wellFormed, legal, vform, sform, w1Ok, usesW1] <;> intro h <;>
      first
      | exact hw.2.resolve_left h
      | exact hw.1.2.resolve_left h
      | exact fun h2 => hw.2.resolve_left (by simp [h, h2])
      | exact fun h2 h3 => hw.2.resolve_left (by simp [h, h2, h3])) (by first | omega | exact ssrcCode_lt _ | (have := sysCode_lt n; omega)) (by first | omega | exact ssrcCode_lt _ | (have := sysCode_lt n; omega))
    (by first | omega | exact ssrcCode_lt _ | (have := sysCode_lt n; omega)) (by first | omega | exact ssrcCode_lt _ | (have := sysCode_lt n; omega)) (by decide) (by decide) (by decide) (by simp [-Fin.ofNat_eq_cast, candS])

theorem cdrop (g) (c) : Statement (.cdrop g c) := by
  intro ws hw he
  obtain rfl := (Option.some.inj he)
  refine decode_of_reads _ _ hw he ?_
  exact reads_S _ _ _ _ _ _ _ _ _ _ _ _ (by decide) (fun _ => rfl) (by first | omega | exact ssrcCode_lt _ | (have := sysCode_lt n; omega)) (by first | omega | exact ssrcCode_lt _ | (have := sysCode_lt n; omega))
    (by first | omega | exact ssrcCode_lt _ | (have := sysCode_lt n; omega)) (by first | omega | exact ssrcCode_lt _ | (have := sysCode_lt n; omega)) (by decide) (by decide) (by decide) (by simp [-Fin.ofNat_eq_cast, candS])

theorem cquery (g) (d) (c) (sel) : Statement (.cquery g d c sel) := by
  intro ws hw he
  obtain rfl := (Option.some.inj he)
  refine decode_of_reads _ _ hw he ?_
  exact reads_S _ _ _ _ _ _ _ _ _ _ _ _ (by decide) (fun _ => rfl) (by first | omega | exact ssrcCode_lt _ | (have := sysCode_lt n; omega)) (by first | omega | exact ssrcCode_lt _ | (have := sysCode_lt n; omega))
    (by first | omega | exact ssrcCode_lt _ | (have := sysCode_lt n; omega)) (by first | omega | exact ssrcCode_lt _ | (have := sysCode_lt n; omega)) (by decide) (by decide) (by decide) (by simp [-Fin.ofNat_eq_cast, candS])

theorem hwait (g) (n) : Statement (.hwait g n) := by
  intro ws hw he
  obtain rfl := (Option.some.inj he)
  refine decode_of_reads _ _ hw he ?_
  exact reads_S _ _ _ _ _ _ _ _ _ _ _ _ (by decide) (fun _ => rfl) (by first | omega | exact ssrcCode_lt _ | (have := sysCode_lt n; omega)) (by first | omega | exact ssrcCode_lt _ | (have := sysCode_lt n; omega))
    (by first | omega | exact ssrcCode_lt _ | (have := sysCode_lt n; omega)) (by first | omega | exact ssrcCode_lt _ | (have := sysCode_lt n; omega)) (by decide) (by decide) (by decide) (by simp [-Fin.ofNat_eq_cast, candS])

theorem htest (g) (d) (n) : Statement (.htest g d n) := by
  intro ws hw he
  obtain rfl := (Option.some.inj he)
  refine decode_of_reads _ _ hw he ?_
  exact reads_S _ _ _ _ _ _ _ _ _ _ _ _ (by decide) (fun _ => rfl) (by first | omega | exact ssrcCode_lt _ | (have := sysCode_lt n; omega)) (by first | omega | exact ssrcCode_lt _ | (have := sysCode_lt n; omega))
    (by first | omega | exact ssrcCode_lt _ | (have := sysCode_lt n; omega)) (by first | omega | exact ssrcCode_lt _ | (have := sysCode_lt n; omega)) (by decide) (by decide) (by decide) (by simp [-Fin.ofNat_eq_cast, candS])

theorem hcancel (g) (n) : Statement (.hcancel g n) := by
  intro ws hw he
  obtain rfl := (Option.some.inj he)
  refine decode_of_reads _ _ hw he ?_
  exact reads_S _ _ _ _ _ _ _ _ _ _ _ _ (by decide) (fun _ => rfl) (by first | omega | exact ssrcCode_lt _ | (have := sysCode_lt n; omega)) (by first | omega | exact ssrcCode_lt _ | (have := sysCode_lt n; omega))
    (by first | omega | exact ssrcCode_lt _ | (have := sysCode_lt n; omega)) (by first | omega | exact ssrcCode_lt _ | (have := sysCode_lt n; omega)) (by decide) (by decide) (by decide) (by simp [-Fin.ofNat_eq_cast, candS])

theorem hmovToHandle (g) (n) (a) (w1) : Statement (.hmovToHandle g n a w1) := by
  intro ws hw he
  obtain rfl := (Option.some.inj he)
  refine decode_of_reads _ _ hw he ?_
  exact reads_S _ _ _ _ _ _ _ _ _ _ _ _ (by decide) (by simp_all [wellFormed, legal, vform, sform, w1Ok, usesW1] <;> intro h <;>
      first
      | exact hw.2.resolve_left h
      | exact hw.1.2.resolve_left h
      | exact fun h2 => hw.2.resolve_left (by simp [h, h2])
      | exact fun h2 h3 => hw.2.resolve_left (by simp [h, h2, h3])) (by first | omega | exact ssrcCode_lt _ | (have := sysCode_lt n; omega)) (by first | omega | exact ssrcCode_lt _ | (have := sysCode_lt n; omega))
    (by first | omega | exact ssrcCode_lt _ | (have := sysCode_lt n; omega)) (by first | omega | exact ssrcCode_lt _ | (have := sysCode_lt n; omega)) (by decide) (by decide) (by decide) (by simp [-Fin.ofNat_eq_cast, candS])

theorem hmovFromHandle (g) (d) (n) : Statement (.hmovFromHandle g d n) := by
  intro ws hw he
  obtain rfl := (Option.some.inj he)
  refine decode_of_reads _ _ hw he ?_
  exact reads_S _ _ _ _ _ _ _ _ _ _ _ _ (by decide) (fun _ => rfl) (by first | omega | exact ssrcCode_lt _ | (have := sysCode_lt n; omega)) (by first | omega | exact ssrcCode_lt _ | (have := sysCode_lt n; omega))
    (by first | omega | exact ssrcCode_lt _ | (have := sysCode_lt n; omega)) (by first | omega | exact ssrcCode_lt _ | (have := sysCode_lt n; omega)) (by decide) (by decide) (by decide) (by simp [-Fin.ofNat_eq_cast, candS])

theorem hwaitany (g) (d) (a) (w1) : Statement (.hwaitany g d a w1) := by
  intro ws hw he
  obtain rfl := (Option.some.inj he)
  refine decode_of_reads _ _ hw he ?_
  exact reads_S _ _ _ _ _ _ _ _ _ _ _ _ (by decide) (by simp_all [wellFormed, legal, vform, sform, w1Ok, usesW1] <;> intro h <;>
      first
      | exact hw.2.resolve_left h
      | exact hw.1.2.resolve_left h
      | exact fun h2 => hw.2.resolve_left (by simp [h, h2])
      | exact fun h2 h3 => hw.2.resolve_left (by simp [h, h2, h3])) (by first | omega | exact ssrcCode_lt _ | (have := sysCode_lt n; omega)) (by first | omega | exact ssrcCode_lt _ | (have := sysCode_lt n; omega))
    (by first | omega | exact ssrcCode_lt _ | (have := sysCode_lt n; omega)) (by first | omega | exact ssrcCode_lt _ | (have := sysCode_lt n; omega)) (by decide) (by decide) (by decide) (by simp [-Fin.ofNat_eq_cast, candS])

theorem ld (o) : Statement (.ld o) := by
  intro ws hw he
  obtain rfl := (Option.some.inj he)
  refine decode_of_reads _ _ hw he ?_
  refine reads_M _ _ o _ (by decide) (by decide) fun l imm w h => ?_
  obtain ⟨g, ty, e, n, hh, oe, off, base, data, disp⟩ := o
  rcases h with ⟨rfl, rfl⟩ | ⟨x, rfl, rfl, rfl⟩ <;> simp [-Fin.ofNat_eq_cast, candM]

theorem ldAcq (o) : Statement (.ldAcq o) := by
  intro ws hw he
  obtain rfl := (Option.some.inj he)
  refine decode_of_reads _ _ hw he ?_
  refine reads_M _ _ o _ (by decide) (by decide) fun l imm w h => ?_
  obtain ⟨g, ty, e, n, hh, oe, off, base, data, disp⟩ := o
  rcases h with ⟨rfl, rfl⟩ | ⟨x, rfl, rfl, rfl⟩ <;> simp [-Fin.ofNat_eq_cast, candM]

theorem ldSp (o) : Statement (.ldSp o) := by
  intro ws hw he
  obtain rfl := (Option.some.inj he)
  refine decode_of_reads _ _ hw he ?_
  refine reads_M _ _ o _ (by decide) (by decide) fun l imm w h => ?_
  obtain ⟨g, ty, e, n, hh, oe, off, base, data, disp⟩ := o
  rcases h with ⟨rfl, rfl⟩ | ⟨x, rfl, rfl, rfl⟩ <;> simp [-Fin.ofNat_eq_cast, candM]

theorem ldS (o) : Statement (.ldS o) := by
  intro ws hw he
  obtain rfl := (Option.some.inj he)
  refine decode_of_reads _ _ hw he ?_
  refine reads_M _ _ o _ (by decide) (by decide) fun l imm w h => ?_
  obtain ⟨g, ty, e, n, hh, oe, off, base, data, disp⟩ := o
  rcases h with ⟨rfl, rfl⟩ | ⟨x, rfl, rfl, rfl⟩ <;> simp [-Fin.ofNat_eq_cast, candM]

theorem st (o) : Statement (.st o) := by
  intro ws hw he
  obtain rfl := (Option.some.inj he)
  refine decode_of_reads _ _ hw he ?_
  refine reads_M _ _ o _ (by decide) (by decide) fun l imm w h => ?_
  obtain ⟨g, ty, e, n, hh, oe, off, base, data, disp⟩ := o
  rcases h with ⟨rfl, rfl⟩ | ⟨x, rfl, rfl, rfl⟩ <;> simp [-Fin.ofNat_eq_cast, candM]

theorem stRel (o) : Statement (.stRel o) := by
  intro ws hw he
  obtain rfl := (Option.some.inj he)
  refine decode_of_reads _ _ hw he ?_
  refine reads_M _ _ o _ (by decide) (by decide) fun l imm w h => ?_
  obtain ⟨g, ty, e, n, hh, oe, off, base, data, disp⟩ := o
  rcases h with ⟨rfl, rfl⟩ | ⟨x, rfl, rfl, rfl⟩ <;> simp [-Fin.ofNat_eq_cast, candM]

theorem stSp (o) : Statement (.stSp o) := by
  intro ws hw he
  obtain rfl := (Option.some.inj he)
  refine decode_of_reads _ _ hw he ?_
  refine reads_M _ _ o _ (by decide) (by decide) fun l imm w h => ?_
  obtain ⟨g, ty, e, n, hh, oe, off, base, data, disp⟩ := o
  rcases h with ⟨rfl, rfl⟩ | ⟨x, rfl, rfl, rfl⟩ <;> simp [-Fin.ofNat_eq_cast, candM]

theorem atom (op) (o) : Statement (.atom op o) := by
  intro ws hw he
  obtain rfl := (Option.some.inj he)
  refine decode_of_reads _ _ hw he ?_
  refine reads_M _ _ o _ (by decide) (atomCode_lt _) fun l imm w h => ?_
  obtain ⟨g, ty, e, n, hh, oe, off, base, data, disp⟩ := o
  rcases h with ⟨rfl, rfl⟩ | ⟨x, rfl, rfl, rfl⟩ <;> simp [-Fin.ofNat_eq_cast, candM]

theorem red (op) (o) : Statement (.red op o) := by
  intro ws hw he
  obtain rfl := (Option.some.inj he)
  refine decode_of_reads _ _ hw he ?_
  refine reads_M _ _ o _ (by decide) (atomCode_lt _) fun l imm w h => ?_
  obtain ⟨g, ty, e, n, hh, oe, off, base, data, disp⟩ := o
  rcases h with ⟨rfl, rfl⟩ | ⟨x, rfl, rfl, rfl⟩ <;> simp [-Fin.ofNat_eq_cast, candM]

theorem atomSp (op) (o) : Statement (.atomSp op o) := by
  intro ws hw he
  obtain rfl := (Option.some.inj he)
  refine decode_of_reads _ _ hw he ?_
  refine reads_M _ _ o _ (by decide) (atomCode_lt _) fun l imm w h => ?_
  obtain ⟨g, ty, e, n, hh, oe, off, base, data, disp⟩ := o
  rcases h with ⟨rfl, rfl⟩ | ⟨x, rfl, rfl, rfl⟩ <;> simp [-Fin.ofNat_eq_cast, candM]

theorem fence (g) (ord) (sc) : Statement (.fence g ord sc) := by
  intro ws hw he
  obtain rfl := (Option.some.inj he)
  refine decode_of_reads _ _ hw he ?_
  have := scopeCode_lt sc
  have := ordCode_lt ord
  refine reads_F _ _ _ _ (by decide) (by omega) ?_
  cases ord <;> cases sc <;> simp [-Fin.ofNat_eq_cast, candM, ordCode, scopeCode, ordOfCode, scopeOfCode]

theorem prefetch (o) : Statement (.prefetch o) := by
  intro ws hw he
  obtain rfl := (Option.some.inj he)
  refine decode_of_reads _ _ hw he ?_
  refine reads_M _ _ o _ (by decide) (by decide) fun l imm w h => ?_
  obtain ⟨g, ty, e, n, hh, oe, off, base, data, disp⟩ := o
  rcases h with ⟨rfl, rfl⟩ | ⟨x, rfl, rfl, rfl⟩ <;> simp [-Fin.ofNat_eq_cast, candM]

theorem waitv (o) : Statement (.waitv o) := by
  intro ws hw he
  obtain rfl := (Option.some.inj he)
  refine decode_of_reads _ _ hw he ?_
  refine reads_M _ _ o _ (by decide) (by decide) fun l imm w h => ?_
  obtain ⟨g, ty, e, n, hh, oe, off, base, data, disp⟩ := o
  rcases h with ⟨rfl, rfl⟩ | ⟨x, rfl, rfl, rfl⟩ <;> simp [-Fin.ofNat_eq_cast, candM]

theorem l1flush (g) : Statement (.l1flush g) := by
  intro ws hw he
  obtain rfl := (Option.some.inj he)
  refine decode_of_reads _ _ hw he ?_
  exact reads_F _ _ _ _ (by decide) (by decide) (by simp [-Fin.ofNat_eq_cast, candM])

theorem l1flushInv (g) : Statement (.l1flushInv g) := by
  intro ws hw he
  obtain rfl := (Option.some.inj he)
  refine decode_of_reads _ _ hw he ?_
  exact reads_F _ _ _ _ (by decide) (by decide) (by simp [-Fin.ofNat_eq_cast, candM])

theorem bra (g) (disp) : Statement (.bra g disp) := by
  intro ws hw he
  obtain rfl := (Option.some.inj he)
  refine decode_of_reads _ _ hw he ?_
  exact reads_B _ _ _ _ _ _ _ (by decide) (by decide) (by first | omega | exact srcCode_lt _) (by first | omega | exact srcCode_lt _) (by simp [-Fin.ofNat_eq_cast, candB])

theorem brd (g) (disp) (rejoin) : Statement (.brd g disp rejoin) := by
  intro ws hw he
  obtain rfl := (Option.some.inj he)
  refine decode_of_reads _ _ hw he ?_
  exact reads_B _ _ _ _ _ _ _ (by decide) (by decide) (by first | omega | exact srcCode_lt _) (by first | omega | exact srcCode_lt _) (by simp [-Fin.ofNat_eq_cast, candB])

theorem jmpv (g) (a) (rejoin) : Statement (.jmpv g a rejoin) := by
  intro ws hw he
  obtain rfl := (Option.some.inj he)
  refine decode_of_reads _ _ hw he ?_
  exact reads_B _ _ _ _ _ _ _ (by decide) (by decide) (by first | omega | exact srcCode_lt _) (by first | omega | exact srcCode_lt _) (by simp [-Fin.ofNat_eq_cast, candB])

theorem call (g) (disp) : Statement (.call g disp) := by
  intro ws hw he
  obtain rfl := (Option.some.inj he)
  refine decode_of_reads _ _ hw he ?_
  exact reads_B _ _ _ _ _ _ _ (by decide) (by decide) (by first | omega | exact srcCode_lt _) (by first | omega | exact srcCode_lt _) (by simp [-Fin.ofNat_eq_cast, candB])

theorem callv (g) (a) : Statement (.callv g a) := by
  intro ws hw he
  obtain rfl := (Option.some.inj he)
  refine decode_of_reads _ _ hw he ?_
  exact reads_B _ _ _ _ _ _ _ (by decide) (by decide) (by first | omega | exact srcCode_lt _) (by first | omega | exact srcCode_lt _) (by simp [-Fin.ofNat_eq_cast, candB])

theorem ret (g) : Statement (.ret g) := by
  intro ws hw he
  obtain rfl := (Option.some.inj he)
  refine decode_of_reads _ _ hw he ?_
  exact reads_B _ _ _ _ _ _ _ (by decide) (by decide) (by first | omega | exact srcCode_lt _) (by first | omega | exact srcCode_lt _) (by simp [-Fin.ofNat_eq_cast, candB])

theorem exit (g) : Statement (.exit g) := by
  intro ws hw he
  obtain rfl := (Option.some.inj he)
  refine decode_of_reads _ _ hw he ?_
  exact reads_B _ _ _ _ _ _ _ (by decide) (by decide) (by first | omega | exact srcCode_lt _) (by first | omega | exact srcCode_lt _) (by simp [-Fin.ofNat_eq_cast, candB])

theorem safept (idx) : Statement (.safept idx) := by
  intro ws hw he
  obtain rfl := (Option.some.inj he)
  refine decode_of_reads _ _ hw he ?_
  exact reads_B _ _ _ _ _ _ _ (by decide) (by decide) (by first | omega | exact srcCode_lt _) (by first | omega | exact srcCode_lt _) (by simp [-Fin.ofNat_eq_cast, candB])

theorem nop (g) : Statement (.nop g) := by
  intro ws hw he
  obtain rfl := (Option.some.inj he)
  refine decode_of_reads _ _ hw he ?_
  exact reads_B _ _ _ _ _ _ _ (by decide) (by decide) (by first | omega | exact srcCode_lt _) (by first | omega | exact srcCode_lt _) (by simp [-Fin.ofNat_eq_cast, candB])

theorem bar (g) (b) : Statement (.bar g b) := by
  intro ws hw he
  obtain rfl := (Option.some.inj he)
  refine decode_of_reads _ _ hw he ?_
  exact reads_B _ _ _ _ _ _ _ (by decide) (by decide) (by first | omega | exact srcCode_lt _) (by first | omega | exact srcCode_lt _) (by simp [-Fin.ofNat_eq_cast, candB])

theorem barArv (g) (b) : Statement (.barArv g b) := by
  intro ws hw he
  obtain rfl := (Option.some.inj he)
  refine decode_of_reads _ _ hw he ?_
  exact reads_B _ _ _ _ _ _ _ (by decide) (by decide) (by first | omega | exact srcCode_lt _) (by first | omega | exact srcCode_lt _) (by simp [-Fin.ofNat_eq_cast, candB])

theorem barWt (g) (b) : Statement (.barWt g b) := by
  intro ws hw he
  obtain rfl := (Option.some.inj he)
  refine decode_of_reads _ _ hw he ?_
  exact reads_B _ _ _ _ _ _ _ (by decide) (by decide) (by first | omega | exact srcCode_lt _) (by first | omega | exact srcCode_lt _) (by simp [-Fin.ofNat_eq_cast, candB])

theorem cpy (o) : Statement (.cpy o) := by
  intro ws hw he
  obtain rfl := (Option.some.inj he)
  refine decode_of_reads _ _ hw he ?_
  have := bit_lt o.ssp
  have := bit_lt o.dsp
  obtain ⟨m1, m2, m3, m4⟩ := copy_mode (0) (by omega) o.h o.dsp o.ssp
  simp only [Nat.zero_add] at m1 m2 m3 m4
  exact reads_A _ _ _ _ _ _ _ _ _ _ _ _ (by decide) (by decide) (by first | omega | exact tyCode_lt _ | exact Nat.lt_trans (cntCode_lt _) (by decide)) (by first | omega | exact tyCode_lt _ | exact Nat.lt_trans (cntCode_lt _) (by decide)) (by first | omega | exact tyCode_lt _ | exact Nat.lt_trans (cntCode_lt _) (by decide)) (by first | omega | exact tyCode_lt _ | exact Nat.lt_trans (cntCode_lt _) (by decide)) (by first | omega | exact tyCode_lt _ | exact Nat.lt_trans (cntCode_lt _) (by decide)) (by first | omega | exact tyCode_lt _ | exact Nat.lt_trans (cntCode_lt _) (by decide)) (by first | omega | exact tyCode_lt _ | exact Nat.lt_trans (cntCode_lt _) (by decide))
    (by simp [-Fin.ofNat_eq_cast, candC, m1, m2, m3, unpack, fmtCvt])

theorem cpy2d (o) : Statement (.cpy2d o) := by
  intro ws hw he
  obtain rfl := (Option.some.inj he)
  refine decode_of_reads _ _ hw he ?_
  have := bit_lt o.ssp
  have := bit_lt o.dsp
  obtain ⟨m1, m2, m3, m4⟩ := copy_mode (0) (by omega) o.h o.dsp o.ssp
  simp only [Nat.zero_add] at m1 m2 m3 m4
  exact reads_A _ _ _ _ _ _ _ _ _ _ _ _ (by decide) (by decide) (by first | omega | exact tyCode_lt _ | exact Nat.lt_trans (cntCode_lt _) (by decide)) (by first | omega | exact tyCode_lt _ | exact Nat.lt_trans (cntCode_lt _) (by decide)) (by first | omega | exact tyCode_lt _ | exact Nat.lt_trans (cntCode_lt _) (by decide)) (by first | omega | exact tyCode_lt _ | exact Nat.lt_trans (cntCode_lt _) (by decide)) (by first | omega | exact tyCode_lt _ | exact Nat.lt_trans (cntCode_lt _) (by decide)) (by first | omega | exact tyCode_lt _ | exact Nat.lt_trans (cntCode_lt _) (by decide)) (by first | omega | exact tyCode_lt _ | exact Nat.lt_trans (cntCode_lt _) (by decide))
    (by simp [-Fin.ofNat_eq_cast, candC, m1, m2, m3, unpack, fmtCvt])

theorem cpyGth (o) (isp) (iw) : Statement (.cpyGth o isp iw) := by
  intro ws hw he
  obtain rfl := (Option.some.inj he)
  refine decode_of_reads _ _ hw he ?_
  have := bit_lt iw
  have := bit_lt isp
  have := bit_lt o.ssp
  have := bit_lt o.dsp
  obtain ⟨m1, m2, m3, m4⟩ := copy_mode (2 * bit iw + 4 * bit isp) (by omega) o.h o.dsp o.ssp
  obtain ⟨m5, m6⟩ := copy_index o.h o.dsp o.ssp iw isp
  exact reads_A _ _ _ _ _ _ _ _ _ _ _ _ (by decide) (by decide) (by first | omega | exact tyCode_lt _ | exact Nat.lt_trans (cntCode_lt _) (by decide)) (by first | omega | exact tyCode_lt _ | exact Nat.lt_trans (cntCode_lt _) (by decide)) (by first | omega | exact tyCode_lt _ | exact Nat.lt_trans (cntCode_lt _) (by decide)) (by first | omega | exact tyCode_lt _ | exact Nat.lt_trans (cntCode_lt _) (by decide)) (by first | omega | exact tyCode_lt _ | exact Nat.lt_trans (cntCode_lt _) (by decide)) (by first | omega | exact tyCode_lt _ | exact Nat.lt_trans (cntCode_lt _) (by decide)) (by first | omega | exact tyCode_lt _ | exact Nat.lt_trans (cntCode_lt _) (by decide))
    (by simp [-Fin.ofNat_eq_cast, candC, m1, m2, m3, m5, m6, unpack, fmtCvt])

theorem cpySct (o) (isp) (iw) : Statement (.cpySct o isp iw) := by
  intro ws hw he
  obtain rfl := (Option.some.inj he)
  refine decode_of_reads _ _ hw he ?_
  have := bit_lt iw
  have := bit_lt isp
  have := bit_lt o.ssp
  have := bit_lt o.dsp
  obtain ⟨m1, m2, m3, m4⟩ := copy_mode (2 * bit iw + 4 * bit isp) (by omega) o.h o.dsp o.ssp
  obtain ⟨m5, m6⟩ := copy_index o.h o.dsp o.ssp iw isp
  exact reads_A _ _ _ _ _ _ _ _ _ _ _ _ (by decide) (by decide) (by first | omega | exact tyCode_lt _ | exact Nat.lt_trans (cntCode_lt _) (by decide)) (by first | omega | exact tyCode_lt _ | exact Nat.lt_trans (cntCode_lt _) (by decide)) (by first | omega | exact tyCode_lt _ | exact Nat.lt_trans (cntCode_lt _) (by decide)) (by first | omega | exact tyCode_lt _ | exact Nat.lt_trans (cntCode_lt _) (by decide)) (by first | omega | exact tyCode_lt _ | exact Nat.lt_trans (cntCode_lt _) (by decide)) (by first | omega | exact tyCode_lt _ | exact Nat.lt_trans (cntCode_lt _) (by decide)) (by first | omega | exact tyCode_lt _ | exact Nat.lt_trans (cntCode_lt _) (by decide))
    (by simp [-Fin.ofNat_eq_cast, candC, m1, m2, m3, m5, m6, unpack, fmtCvt])

theorem cpyRed (o) (op) : Statement (.cpyRed o op) := by
  intro ws hw he
  obtain rfl := (Option.some.inj he)
  refine decode_of_reads _ _ hw he ?_
  have := credCode_lt op
  have := bit_lt o.ssp
  have := bit_lt o.dsp
  obtain ⟨m1, m2, m3, m4⟩ := copy_mode (credCode op) (by omega) o.h o.dsp o.ssp
  exact reads_A _ _ _ _ _ _ _ _ _ _ _ _ (by decide) (by decide) (by first | omega | exact tyCode_lt _ | exact Nat.lt_trans (cntCode_lt _) (by decide)) (by first | omega | exact tyCode_lt _ | exact Nat.lt_trans (cntCode_lt _) (by decide)) (by first | omega | exact tyCode_lt _ | exact Nat.lt_trans (cntCode_lt _) (by decide)) (by first | omega | exact tyCode_lt _ | exact Nat.lt_trans (cntCode_lt _) (by decide)) (by first | omega | exact tyCode_lt _ | exact Nat.lt_trans (cntCode_lt _) (by decide)) (by first | omega | exact tyCode_lt _ | exact Nat.lt_trans (cntCode_lt _) (by decide)) (by first | omega | exact tyCode_lt _ | exact Nat.lt_trans (cntCode_lt _) (by decide))
    (by simp [-Fin.ofNat_eq_cast, candC, m1, m2, m3, m4, unpack, fmtCvt])

theorem cpyFill (o) : Statement (.cpyFill o) := by
  intro ws hw he
  obtain rfl := (Option.some.inj he)
  refine decode_of_reads _ _ hw he ?_
  have := bit_lt o.ssp
  have := bit_lt o.dsp
  obtain ⟨m1, m2, m3, m4⟩ := copy_mode (0) (by omega) o.h o.dsp o.ssp
  simp only [Nat.zero_add] at m1 m2 m3 m4
  exact reads_A _ _ _ _ _ _ _ _ _ _ _ _ (by decide) (by decide) (by first | omega | exact tyCode_lt _ | exact Nat.lt_trans (cntCode_lt _) (by decide)) (by first | omega | exact tyCode_lt _ | exact Nat.lt_trans (cntCode_lt _) (by decide)) (by first | omega | exact tyCode_lt _ | exact Nat.lt_trans (cntCode_lt _) (by decide)) (by first | omega | exact tyCode_lt _ | exact Nat.lt_trans (cntCode_lt _) (by decide)) (by first | omega | exact tyCode_lt _ | exact Nat.lt_trans (cntCode_lt _) (by decide)) (by first | omega | exact tyCode_lt _ | exact Nat.lt_trans (cntCode_lt _) (by decide)) (by first | omega | exact tyCode_lt _ | exact Nat.lt_trans (cntCode_lt _) (by decide))
    (by simp [-Fin.ofNat_eq_cast, candC, m1, m2, m3, unpack, fmtCvt])

theorem cpyCvt (o) (sat) (dec) (wide) (f) : Statement (.cpyCvt o sat dec wide f) := by
  intro ws hw he
  obtain rfl := (Option.some.inj he)
  refine decode_of_reads _ _ hw he ?_
  have := bit_lt o.ssp
  have := bit_lt o.dsp
  obtain ⟨m1, m2, m3, m4⟩ := copy_mode (0) (by omega) o.h o.dsp o.ssp
  simp only [Nat.zero_add] at m1 m2 m3 m4
  have := bit_lt wide
  have := bit_lt dec
  have := bit_lt sat
  have := tfmtCode_lt f
  have u := unpack_wordOf fmtCvt [tfmtCode f, bit wide, bit dec, 0, bit sat, 0] rfl
    (by simp only [fits, fmtCvt, and_true]; refine ⟨?_, ?_, ?_, ?_, ?_, ?_⟩ <;> omega)
  exact reads_A _ _ _ _ _ _ _ _ _ _ _ _ (by decide) (by decide) (by first | omega | exact tyCode_lt _ | exact Nat.lt_trans (cntCode_lt _) (by decide)) (by first | omega | exact tyCode_lt _ | exact Nat.lt_trans (cntCode_lt _) (by decide)) (by first | omega | exact tyCode_lt _ | exact Nat.lt_trans (cntCode_lt _) (by decide)) (by first | omega | exact tyCode_lt _ | exact Nat.lt_trans (cntCode_lt _) (by decide)) (by first | omega | exact tyCode_lt _ | exact Nat.lt_trans (cntCode_lt _) (by decide)) (by first | omega | exact tyCode_lt _ | exact Nat.lt_trans (cntCode_lt _) (by decide)) (by first | omega | exact tyCode_lt _ | exact Nat.lt_trans (cntCode_lt _) (by decide))
    (by simp [-Fin.ofNat_eq_cast, candC, m1, m2, m3, u])

theorem mcfg (o) : Statement (.mcfg o) := by
  intro ws hw he
  obtain rfl := (Option.some.inj he)
  refine decode_of_reads _ _ hw he ?_
  exact reads_A _ _ _ _ _ _ _ _ _ _ _ _ (by decide) (by decide) (by first | omega | exact tyCode_lt _ | exact Nat.lt_trans (cntCode_lt _) (by decide)) (by first | omega | exact tyCode_lt _ | exact Nat.lt_trans (cntCode_lt _) (by decide)) (by first | omega | exact tyCode_lt _ | exact Nat.lt_trans (cntCode_lt _) (by decide)) (by first | omega | exact tyCode_lt _ | exact Nat.lt_trans (cntCode_lt _) (by decide)) (by first | omega | exact tyCode_lt _ | exact Nat.lt_trans (cntCode_lt _) (by decide)) (by first | omega | exact tyCode_lt _ | exact Nat.lt_trans (cntCode_lt _) (by decide)) (by first | omega | exact tyCode_lt _ | exact Nat.lt_trans (cntCode_lt _) (by decide))
    (by simp [-Fin.ofNat_eq_cast, candX2])

theorem mldw (o) (rows) (row0) (ssp) (bank) (bfmt) : Statement (.mldw o rows row0 ssp bank bfmt) := by
  intro ws hw he
  obtain rfl := (Option.some.inj he)
  refine decode_of_reads _ _ hw he ?_
  have := bit_lt ssp
  have u := unpack_wordOf fmtLdw [bfmt.toNat, bank.val, bit ssp, 0, 0, row0.toNat, rows.toNat, 0] rfl
    (by simp only [fits, fmtLdw, and_true]; refine ⟨?_, ?_, ?_, ?_, ?_, ?_, ?_, ?_⟩ <;> omega)
  exact reads_A _ _ _ _ _ _ _ _ _ _ _ _ (by decide) (by decide) (by first | omega | exact tyCode_lt _ | exact Nat.lt_trans (cntCode_lt _) (by decide)) (by first | omega | exact tyCode_lt _ | exact Nat.lt_trans (cntCode_lt _) (by decide)) (by first | omega | exact tyCode_lt _ | exact Nat.lt_trans (cntCode_lt _) (by decide)) (by first | omega | exact tyCode_lt _ | exact Nat.lt_trans (cntCode_lt _) (by decide)) (by first | omega | exact tyCode_lt _ | exact Nat.lt_trans (cntCode_lt _) (by decide)) (by first | omega | exact tyCode_lt _ | exact Nat.lt_trans (cntCode_lt _) (by decide)) (by first | omega | exact tyCode_lt _ | exact Nat.lt_trans (cntCode_lt _) (by decide))
    (by simp [-Fin.ofNat_eq_cast, candX2, u])

theorem mldwNorm (o) (ssp) : Statement (.mldwNorm o ssp) := by
  intro ws hw he
  obtain rfl := (Option.some.inj he)
  refine decode_of_reads _ _ hw he ?_
  have := bit_lt ssp
  have u := unpack_wordOf fmtLdw [0, 0, bit ssp, 1, 0, 0, 0, 0] rfl
    (by simp only [fits, fmtLdw, and_true]; refine ⟨?_, ?_, ?_, ?_, ?_, ?_, ?_, ?_⟩ <;> omega)
  exact reads_A _ _ _ _ _ _ _ _ _ _ _ _ (by decide) (by decide) (by first | omega | exact tyCode_lt _ | exact Nat.lt_trans (cntCode_lt _) (by decide)) (by first | omega | exact tyCode_lt _ | exact Nat.lt_trans (cntCode_lt _) (by decide)) (by first | omega | exact tyCode_lt _ | exact Nat.lt_trans (cntCode_lt _) (by decide)) (by first | omega | exact tyCode_lt _ | exact Nat.lt_trans (cntCode_lt _) (by decide)) (by first | omega | exact tyCode_lt _ | exact Nat.lt_trans (cntCode_lt _) (by decide)) (by first | omega | exact tyCode_lt _ | exact Nat.lt_trans (cntCode_lt _) (by decide)) (by first | omega | exact tyCode_lt _ | exact Nat.lt_trans (cntCode_lt _) (by decide))
    (by simp [-Fin.ofNat_eq_cast, candX2, u])

theorem mma (o) (row0) (kbm1) (bank) : Statement (.mma o row0 kbm1 bank) := by
  intro ws hw he
  obtain rfl := (Option.some.inj he)
  refine decode_of_reads _ _ hw he ?_
  have u := unpack_wordOf fmtMma [bank.val, 0, kbm1.val, 0, row0.toNat, 0] rfl
    (by simp only [fits, fmtMma, and_true]; refine ⟨?_, ?_, ?_, ?_, ?_, ?_⟩ <;> omega)
  exact reads_A _ _ _ _ _ _ _ _ _ _ _ _ (by decide) (by decide) (by first | omega | exact tyCode_lt _ | exact Nat.lt_trans (cntCode_lt _) (by decide)) (by first | omega | exact tyCode_lt _ | exact Nat.lt_trans (cntCode_lt _) (by decide)) (by first | omega | exact tyCode_lt _ | exact Nat.lt_trans (cntCode_lt _) (by decide)) (by first | omega | exact tyCode_lt _ | exact Nat.lt_trans (cntCode_lt _) (by decide)) (by first | omega | exact tyCode_lt _ | exact Nat.lt_trans (cntCode_lt _) (by decide)) (by first | omega | exact tyCode_lt _ | exact Nat.lt_trans (cntCode_lt _) (by decide)) (by first | omega | exact tyCode_lt _ | exact Nat.lt_trans (cntCode_lt _) (by decide))
    (by simp [-Fin.ofNat_eq_cast, candX2, u])

theorem mzero (o) : Statement (.mzero o) := by
  intro ws hw he
  obtain rfl := (Option.some.inj he)
  refine decode_of_reads _ _ hw he ?_
  exact reads_A _ _ _ _ _ _ _ _ _ _ _ _ (by decide) (by decide) (by first | omega | exact tyCode_lt _ | exact Nat.lt_trans (cntCode_lt _) (by decide)) (by first | omega | exact tyCode_lt _ | exact Nat.lt_trans (cntCode_lt _) (by decide)) (by first | omega | exact tyCode_lt _ | exact Nat.lt_trans (cntCode_lt _) (by decide)) (by first | omega | exact tyCode_lt _ | exact Nat.lt_trans (cntCode_lt _) (by decide)) (by first | omega | exact tyCode_lt _ | exact Nat.lt_trans (cntCode_lt _) (by decide)) (by first | omega | exact tyCode_lt _ | exact Nat.lt_trans (cntCode_lt _) (by decide)) (by first | omega | exact tyCode_lt _ | exact Nat.lt_trans (cntCode_lt _) (by decide))
    (by simp [-Fin.ofNat_eq_cast, candX2])

theorem mst (o) (ty) (scaled) (relu) (long) : Statement (.mst o ty scaled relu long) := by
  intro ws hw he
  obtain rfl := (Option.some.inj he)
  refine decode_of_reads _ _ hw he ?_
  have := bit_lt scaled
  have := bit_lt relu
  have u := unpack_wordOf fmtMst [bit scaled, bit relu, 0] rfl
    (by simp only [fits, fmtMst, and_true]; refine ⟨?_, ?_, ?_⟩ <;> omega)
  refine reads_A _ _ _ _ _ _ _ _ _ _ _ _ (by decide) (by decide) (by first | omega | exact tyCode_lt _ | exact Nat.lt_trans (cntCode_lt _) (by decide)) (by first | omega | exact tyCode_lt _ | exact Nat.lt_trans (cntCode_lt _) (by decide)) (by first | omega | exact tyCode_lt _ | exact Nat.lt_trans (cntCode_lt _) (by decide)) (by first | omega | exact tyCode_lt _ | exact Nat.lt_trans (cntCode_lt _) (by decide)) (by first | omega | exact tyCode_lt _ | exact Nat.lt_trans (cntCode_lt _) (by decide)) (by first | omega | exact tyCode_lt _ | exact Nat.lt_trans (cntCode_lt _) (by decide)) (by first | omega | exact tyCode_lt _ | exact Nat.lt_trans (cntCode_lt _) (by decide)) ?_
  cases long with
  | true => simp [-Fin.ofNat_eq_cast, candX2, u]
  | false =>
    have h : scaled = false ∧ relu = false := by
      simp [wellFormed, legal, vform, sform] at hw
      exact hw.2
    simp [-Fin.ofNat_eq_cast, candX2, h.1, h.2, unpack, fmtMst]

theorem mmovFromTile (o) (j) (m) (vr) : Statement (.mmovFromTile o j m vr) := by
  intro ws hw he
  obtain rfl := (Option.some.inj he)
  refine decode_of_reads _ _ hw he ?_
  have u := unpack_wordOf fmtMov [vr.val, m.val, j.val, 0, 0] rfl
    (by simp only [fits, fmtMov, and_true]; refine ⟨?_, ?_, ?_, ?_, ?_⟩ <;> omega)
  exact reads_A _ _ _ _ _ _ _ _ _ _ _ _ (by decide) (by decide) (by first | omega | exact tyCode_lt _ | exact Nat.lt_trans (cntCode_lt _) (by decide)) (by first | omega | exact tyCode_lt _ | exact Nat.lt_trans (cntCode_lt _) (by decide)) (by first | omega | exact tyCode_lt _ | exact Nat.lt_trans (cntCode_lt _) (by decide)) (by first | omega | exact tyCode_lt _ | exact Nat.lt_trans (cntCode_lt _) (by decide)) (by first | omega | exact tyCode_lt _ | exact Nat.lt_trans (cntCode_lt _) (by decide)) (by first | omega | exact tyCode_lt _ | exact Nat.lt_trans (cntCode_lt _) (by decide)) (by first | omega | exact tyCode_lt _ | exact Nat.lt_trans (cntCode_lt _) (by decide))
    (by simp [-Fin.ofNat_eq_cast, candX2, u])

theorem mmovToTile (o) (j) (m) (vr) : Statement (.mmovToTile o j m vr) := by
  intro ws hw he
  obtain rfl := (Option.some.inj he)
  refine decode_of_reads _ _ hw he ?_
  have u := unpack_wordOf fmtMov [vr.val, m.val, j.val, 1, 0] rfl
    (by simp only [fits, fmtMov, and_true]; refine ⟨?_, ?_, ?_, ?_, ?_⟩ <;> omega)
  exact reads_A _ _ _ _ _ _ _ _ _ _ _ _ (by decide) (by decide) (by first | omega | exact tyCode_lt _ | exact Nat.lt_trans (cntCode_lt _) (by decide)) (by first | omega | exact tyCode_lt _ | exact Nat.lt_trans (cntCode_lt _) (by decide)) (by first | omega | exact tyCode_lt _ | exact Nat.lt_trans (cntCode_lt _) (by decide)) (by first | omega | exact tyCode_lt _ | exact Nat.lt_trans (cntCode_lt _) (by decide)) (by first | omega | exact tyCode_lt _ | exact Nat.lt_trans (cntCode_lt _) (by decide)) (by first | omega | exact tyCode_lt _ | exact Nat.lt_trans (cntCode_lt _) (by decide)) (by first | omega | exact tyCode_lt _ | exact Nat.lt_trans (cntCode_lt _) (by decide))
    (by simp [-Fin.ofNat_eq_cast, candX2, u])

theorem mtopk (o) (k) (near) : Statement (.mtopk o k near) := by
  intro ws hw he
  obtain rfl := (Option.some.inj he)
  refine decode_of_reads _ _ hw he ?_
  have := bit_lt near
  have u := unpack_wordOf fmtTopk [k.toNat, bit near, 0] rfl
    (by simp only [fits, fmtTopk, and_true]; refine ⟨?_, ?_, ?_⟩ <;> omega)
  exact reads_A _ _ _ _ _ _ _ _ _ _ _ _ (by decide) (by decide) (by first | omega | exact tyCode_lt _ | exact Nat.lt_trans (cntCode_lt _) (by decide)) (by first | omega | exact tyCode_lt _ | exact Nat.lt_trans (cntCode_lt _) (by decide)) (by first | omega | exact tyCode_lt _ | exact Nat.lt_trans (cntCode_lt _) (by decide)) (by first | omega | exact tyCode_lt _ | exact Nat.lt_trans (cntCode_lt _) (by decide)) (by first | omega | exact tyCode_lt _ | exact Nat.lt_trans (cntCode_lt _) (by decide)) (by first | omega | exact tyCode_lt _ | exact Nat.lt_trans (cntCode_lt _) (by decide)) (by first | omega | exact tyCode_lt _ | exact Nat.lt_trans (cntCode_lt _) (by decide))
    (by simp [-Fin.ofNat_eq_cast, candX2, u])

theorem mdist (o) : Statement (.mdist o) := by
  intro ws hw he
  obtain rfl := (Option.some.inj he)
  refine decode_of_reads _ _ hw he ?_
  exact reads_A _ _ _ _ _ _ _ _ _ _ _ _ (by decide) (by decide) (by first | omega | exact tyCode_lt _ | exact Nat.lt_trans (cntCode_lt _) (by decide)) (by first | omega | exact tyCode_lt _ | exact Nat.lt_trans (cntCode_lt _) (by decide)) (by first | omega | exact tyCode_lt _ | exact Nat.lt_trans (cntCode_lt _) (by decide)) (by first | omega | exact tyCode_lt _ | exact Nat.lt_trans (cntCode_lt _) (by decide)) (by first | omega | exact tyCode_lt _ | exact Nat.lt_trans (cntCode_lt _) (by decide)) (by first | omega | exact tyCode_lt _ | exact Nat.lt_trans (cntCode_lt _) (by decide)) (by first | omega | exact tyCode_lt _ | exact Nat.lt_trans (cntCode_lt _) (by decide))
    (by simp [-Fin.ofNat_eq_cast, candX2])

theorem mbound (o) (kbm1) : Statement (.mbound o kbm1) := by
  intro ws hw he
  obtain rfl := (Option.some.inj he)
  refine decode_of_reads _ _ hw he ?_
  have u := unpack_wordOf fmtKb [0, kbm1.val, 0] rfl
    (by simp only [fits, fmtKb, and_true]; refine ⟨?_, ?_, ?_⟩ <;> omega)
  exact reads_A _ _ _ _ _ _ _ _ _ _ _ _ (by decide) (by decide) (by first | omega | exact tyCode_lt _ | exact Nat.lt_trans (cntCode_lt _) (by decide)) (by first | omega | exact tyCode_lt _ | exact Nat.lt_trans (cntCode_lt _) (by decide)) (by first | omega | exact tyCode_lt _ | exact Nat.lt_trans (cntCode_lt _) (by decide)) (by first | omega | exact tyCode_lt _ | exact Nat.lt_trans (cntCode_lt _) (by decide)) (by first | omega | exact tyCode_lt _ | exact Nat.lt_trans (cntCode_lt _) (by decide)) (by first | omega | exact tyCode_lt _ | exact Nat.lt_trans (cntCode_lt _) (by decide)) (by first | omega | exact tyCode_lt _ | exact Nat.lt_trans (cntCode_lt _) (by decide))
    (by simp [-Fin.ofNat_eq_cast, candX2, u])

theorem mcount (o) (kbm1) : Statement (.mcount o kbm1) := by
  intro ws hw he
  obtain rfl := (Option.some.inj he)
  refine decode_of_reads _ _ hw he ?_
  have u := unpack_wordOf fmtKb [0, kbm1.val, 0] rfl
    (by simp only [fits, fmtKb, and_true]; refine ⟨?_, ?_, ?_⟩ <;> omega)
  exact reads_A _ _ _ _ _ _ _ _ _ _ _ _ (by decide) (by decide) (by first | omega | exact tyCode_lt _ | exact Nat.lt_trans (cntCode_lt _) (by decide)) (by first | omega | exact tyCode_lt _ | exact Nat.lt_trans (cntCode_lt _) (by decide)) (by first | omega | exact tyCode_lt _ | exact Nat.lt_trans (cntCode_lt _) (by decide)) (by first | omega | exact tyCode_lt _ | exact Nat.lt_trans (cntCode_lt _) (by decide)) (by first | omega | exact tyCode_lt _ | exact Nat.lt_trans (cntCode_lt _) (by decide)) (by first | omega | exact tyCode_lt _ | exact Nat.lt_trans (cntCode_lt _) (by decide)) (by first | omega | exact tyCode_lt _ | exact Nat.lt_trans (cntCode_lt _) (by decide))
    (by simp [-Fin.ofNat_eq_cast, candX2, u])

theorem launch (g) (hn) (sa) : Statement (.launch g hn sa) := by
  intro ws hw he
  obtain rfl := (Option.some.inj he)
  refine decode_of_reads _ _ hw he ?_
  exact reads_A _ _ _ _ _ _ _ _ _ _ _ _ (by decide) (by decide) (by first | omega | exact tyCode_lt _ | exact Nat.lt_trans (cntCode_lt _) (by decide)) (by first | omega | exact tyCode_lt _ | exact Nat.lt_trans (cntCode_lt _) (by decide)) (by first | omega | exact tyCode_lt _ | exact Nat.lt_trans (cntCode_lt _) (by decide)) (by first | omega | exact tyCode_lt _ | exact Nat.lt_trans (cntCode_lt _) (by decide)) (by first | omega | exact tyCode_lt _ | exact Nat.lt_trans (cntCode_lt _) (by decide)) (by first | omega | exact tyCode_lt _ | exact Nat.lt_trans (cntCode_lt _) (by decide)) (by first | omega | exact tyCode_lt _ | exact Nat.lt_trans (cntCode_lt _) (by decide)) (by simp [-Fin.ofNat_eq_cast, candW])

theorem evwait (o) : Statement (.evwait o) := by
  intro ws hw he
  obtain rfl := (Option.some.inj he)
  refine decode_of_reads _ _ hw he ?_
  exact reads_A _ _ _ _ _ _ _ _ _ _ _ _ (by decide) (by decide) (by first | omega | exact tyCode_lt _ | exact Nat.lt_trans (cntCode_lt _) (by decide)) (by first | omega | exact tyCode_lt _ | exact Nat.lt_trans (cntCode_lt _) (by decide)) (by first | omega | exact tyCode_lt _ | exact Nat.lt_trans (cntCode_lt _) (by decide)) (by first | omega | exact tyCode_lt _ | exact Nat.lt_trans (cntCode_lt _) (by decide)) (by first | omega | exact tyCode_lt _ | exact Nat.lt_trans (cntCode_lt _) (by decide)) (by first | omega | exact tyCode_lt _ | exact Nat.lt_trans (cntCode_lt _) (by decide)) (by first | omega | exact tyCode_lt _ | exact Nat.lt_trans (cntCode_lt _) (by decide)) (by simp [-Fin.ofNat_eq_cast, candW])

theorem evset (o) : Statement (.evset o) := by
  intro ws hw he
  obtain rfl := (Option.some.inj he)
  refine decode_of_reads _ _ hw he ?_
  exact reads_A _ _ _ _ _ _ _ _ _ _ _ _ (by decide) (by decide) (by first | omega | exact tyCode_lt _ | exact Nat.lt_trans (cntCode_lt _) (by decide)) (by first | omega | exact tyCode_lt _ | exact Nat.lt_trans (cntCode_lt _) (by decide)) (by first | omega | exact tyCode_lt _ | exact Nat.lt_trans (cntCode_lt _) (by decide)) (by first | omega | exact tyCode_lt _ | exact Nat.lt_trans (cntCode_lt _) (by decide)) (by first | omega | exact tyCode_lt _ | exact Nat.lt_trans (cntCode_lt _) (by decide)) (by first | omega | exact tyCode_lt _ | exact Nat.lt_trans (cntCode_lt _) (by decide)) (by first | omega | exact tyCode_lt _ | exact Nat.lt_trans (cntCode_lt _) (by decide)) (by simp [-Fin.ofNat_eq_cast, candW])

theorem evclr (o) : Statement (.evclr o) := by
  intro ws hw he
  obtain rfl := (Option.some.inj he)
  refine decode_of_reads _ _ hw he ?_
  exact reads_A _ _ _ _ _ _ _ _ _ _ _ _ (by decide) (by decide) (by first | omega | exact tyCode_lt _ | exact Nat.lt_trans (cntCode_lt _) (by decide)) (by first | omega | exact tyCode_lt _ | exact Nat.lt_trans (cntCode_lt _) (by decide)) (by first | omega | exact tyCode_lt _ | exact Nat.lt_trans (cntCode_lt _) (by decide)) (by first | omega | exact tyCode_lt _ | exact Nat.lt_trans (cntCode_lt _) (by decide)) (by first | omega | exact tyCode_lt _ | exact Nat.lt_trans (cntCode_lt _) (by decide)) (by first | omega | exact tyCode_lt _ | exact Nat.lt_trans (cntCode_lt _) (by decide)) (by first | omega | exact tyCode_lt _ | exact Nat.lt_trans (cntCode_lt _) (by decide)) (by simp [-Fin.ofNat_eq_cast, candW])

theorem cancelLaunch (g) (sa) : Statement (.cancelLaunch g sa) := by
  intro ws hw he
  obtain rfl := (Option.some.inj he)
  refine decode_of_reads _ _ hw he ?_
  exact reads_A _ _ _ _ _ _ _ _ _ _ _ _ (by decide) (by decide) (by first | omega | exact tyCode_lt _ | exact Nat.lt_trans (cntCode_lt _) (by decide)) (by first | omega | exact tyCode_lt _ | exact Nat.lt_trans (cntCode_lt _) (by decide)) (by first | omega | exact tyCode_lt _ | exact Nat.lt_trans (cntCode_lt _) (by decide)) (by first | omega | exact tyCode_lt _ | exact Nat.lt_trans (cntCode_lt _) (by decide)) (by first | omega | exact tyCode_lt _ | exact Nat.lt_trans (cntCode_lt _) (by decide)) (by first | omega | exact tyCode_lt _ | exact Nat.lt_trans (cntCode_lt _) (by decide)) (by first | omega | exact tyCode_lt _ | exact Nat.lt_trans (cntCode_lt _) (by decide)) (by simp [-Fin.ofNat_eq_cast, candW])

theorem cancelGraph (g) (sa) : Statement (.cancelGraph g sa) := by
  intro ws hw he
  obtain rfl := (Option.some.inj he)
  refine decode_of_reads _ _ hw he ?_
  exact reads_A _ _ _ _ _ _ _ _ _ _ _ _ (by decide) (by decide) (by first | omega | exact tyCode_lt _ | exact Nat.lt_trans (cntCode_lt _) (by decide)) (by first | omega | exact tyCode_lt _ | exact Nat.lt_trans (cntCode_lt _) (by decide)) (by first | omega | exact tyCode_lt _ | exact Nat.lt_trans (cntCode_lt _) (by decide)) (by first | omega | exact tyCode_lt _ | exact Nat.lt_trans (cntCode_lt _) (by decide)) (by first | omega | exact tyCode_lt _ | exact Nat.lt_trans (cntCode_lt _) (by decide)) (by first | omega | exact tyCode_lt _ | exact Nat.lt_trans (cntCode_lt _) (by decide)) (by first | omega | exact tyCode_lt _ | exact Nat.lt_trans (cntCode_lt _) (by decide)) (by simp [-Fin.ofNat_eq_cast, candW])

theorem cancelPhase (g) (sa) : Statement (.cancelPhase g sa) := by
  intro ws hw he
  obtain rfl := (Option.some.inj he)
  refine decode_of_reads _ _ hw he ?_
  exact reads_A _ _ _ _ _ _ _ _ _ _ _ _ (by decide) (by decide) (by first | omega | exact tyCode_lt _ | exact Nat.lt_trans (cntCode_lt _) (by decide)) (by first | omega | exact tyCode_lt _ | exact Nat.lt_trans (cntCode_lt _) (by decide)) (by first | omega | exact tyCode_lt _ | exact Nat.lt_trans (cntCode_lt _) (by decide)) (by first | omega | exact tyCode_lt _ | exact Nat.lt_trans (cntCode_lt _) (by decide)) (by first | omega | exact tyCode_lt _ | exact Nat.lt_trans (cntCode_lt _) (by decide)) (by first | omega | exact tyCode_lt _ | exact Nat.lt_trans (cntCode_lt _) (by decide)) (by first | omega | exact tyCode_lt _ | exact Nat.lt_trans (cntCode_lt _) (by decide)) (by simp [-Fin.ofNat_eq_cast, candW])

theorem cancelJob (o) : Statement (.cancelJob o) := by
  intro ws hw he
  obtain rfl := (Option.some.inj he)
  refine decode_of_reads _ _ hw he ?_
  exact reads_A _ _ _ _ _ _ _ _ _ _ _ _ (by decide) (by decide) (by first | omega | exact tyCode_lt _ | exact Nat.lt_trans (cntCode_lt _) (by decide)) (by first | omega | exact tyCode_lt _ | exact Nat.lt_trans (cntCode_lt _) (by decide)) (by first | omega | exact tyCode_lt _ | exact Nat.lt_trans (cntCode_lt _) (by decide)) (by first | omega | exact tyCode_lt _ | exact Nat.lt_trans (cntCode_lt _) (by decide)) (by first | omega | exact tyCode_lt _ | exact Nat.lt_trans (cntCode_lt _) (by decide)) (by first | omega | exact tyCode_lt _ | exact Nat.lt_trans (cntCode_lt _) (by decide)) (by first | omega | exact tyCode_lt _ | exact Nat.lt_trans (cntCode_lt _) (by decide)) (by simp [-Fin.ofNat_eq_cast, candW])

theorem cntrd (sel) (o) : Statement (.cntrd sel o) := by
  intro ws hw he
  obtain rfl := (Option.some.inj he)
  refine decode_of_reads _ _ hw he ?_
  exact reads_A _ _ _ _ _ _ _ _ _ _ _ _ (by decide) (by decide) (by first | omega | exact tyCode_lt _ | exact Nat.lt_trans (cntCode_lt _) (by decide)) (by first | omega | exact tyCode_lt _ | exact Nat.lt_trans (cntCode_lt _) (by decide)) (by first | omega | exact tyCode_lt _ | exact Nat.lt_trans (cntCode_lt _) (by decide)) (by first | omega | exact tyCode_lt _ | exact Nat.lt_trans (cntCode_lt _) (by decide)) (by first | omega | exact tyCode_lt _ | exact Nat.lt_trans (cntCode_lt _) (by decide)) (by first | omega | exact tyCode_lt _ | exact Nat.lt_trans (cntCode_lt _) (by decide)) (by first | omega | exact tyCode_lt _ | exact Nat.lt_trans (cntCode_lt _) (by decide)) (by simp [-Fin.ofNat_eq_cast, candW])

theorem jobend (sa) : Statement (.jobend sa) := by
  intro ws hw he
  obtain rfl := (Option.some.inj he)
  refine decode_of_reads _ _ hw he ?_
  exact reads_A _ _ _ _ _ _ _ _ _ _ _ _ (by decide) (by decide) (by first | omega | exact tyCode_lt _ | exact Nat.lt_trans (cntCode_lt _) (by decide)) (by first | omega | exact tyCode_lt _ | exact Nat.lt_trans (cntCode_lt _) (by decide)) (by first | omega | exact tyCode_lt _ | exact Nat.lt_trans (cntCode_lt _) (by decide)) (by first | omega | exact tyCode_lt _ | exact Nat.lt_trans (cntCode_lt _) (by decide)) (by first | omega | exact tyCode_lt _ | exact Nat.lt_trans (cntCode_lt _) (by decide)) (by first | omega | exact tyCode_lt _ | exact Nat.lt_trans (cntCode_lt _) (by decide)) (by first | omega | exact tyCode_lt _ | exact Nat.lt_trans (cntCode_lt _) (by decide)) (by simp [-Fin.ofNat_eq_cast, candW])

theorem trap (g) (a) (w1) : Statement (.trap g a w1) := by
  intro ws hw he
  obtain rfl := (Option.some.inj he)
  refine decode_of_reads _ _ hw he ?_
  exact reads_S _ _ _ _ _ _ _ _ _ _ _ _ (by decide) (by simp_all [wellFormed, legal, vform, sform, w1Ok, usesW1] <;> intro h <;>
      first
      | exact hw.2.resolve_left h
      | exact hw.1.2.resolve_left h
      | exact fun h2 => hw.2.resolve_left (by simp [h, h2])
      | exact fun h2 h3 => hw.2.resolve_left (by simp [h, h2, h3])) (by first | omega | exact ssrcCode_lt _ | (have := sysCode_lt n; omega)) (by first | omega | exact ssrcCode_lt _ | (have := sysCode_lt n; omega))
    (by first | omega | exact ssrcCode_lt _ | (have := sysCode_lt n; omega)) (by first | omega | exact ssrcCode_lt _ | (have := sysCode_lt n; omega)) (by decide) (by decide) (by decide) (by simp [-Fin.ofNat_eq_cast, candS])

theorem sysrd (g) (d) (n) : Statement (.sysrd g d n) := by
  intro ws hw he
  obtain rfl := (Option.some.inj he)
  refine decode_of_reads _ _ hw he ?_
  exact reads_S _ _ _ _ _ _ _ _ _ _ _ _ (by decide) (fun _ => rfl) (by first | omega | exact ssrcCode_lt _ | (have := sysCode_lt n; omega)) (by first | omega | exact ssrcCode_lt _ | (have := sysCode_lt n; omega))
    (by first | omega | exact ssrcCode_lt _ | (have := sysCode_lt n; omega)) (by first | omega | exact ssrcCode_lt _ | (have := sysCode_lt n; omega)) (by decide) (by decide) (by decide) (by simp [-Fin.ofNat_eq_cast, candS])

theorem syswr (g) (n) (b) (w1) : Statement (.syswr g n b w1) := by
  intro ws hw he
  obtain rfl := (Option.some.inj he)
  refine decode_of_reads _ _ hw he ?_
  exact reads_S _ _ _ _ _ _ _ _ _ _ _ _ (by decide) (by simp_all [wellFormed, legal, vform, sform, w1Ok, usesW1] <;> intro h <;>
      first
      | exact hw.2.resolve_left h
      | exact hw.1.2.resolve_left h
      | exact fun h2 => hw.2.resolve_left (by simp [h, h2])
      | exact fun h2 h3 => hw.2.resolve_left (by simp [h, h2, h3])) (by first | omega | exact ssrcCode_lt _ | (have := sysCode_lt n; omega)) (by first | omega | exact ssrcCode_lt _ | (have := sysCode_lt n; omega))
    (by first | omega | exact ssrcCode_lt _ | (have := sysCode_lt n; omega)) (by first | omega | exact ssrcCode_lt _ | (have := sysCode_lt n; omega)) (by decide) (by decide) (by decide) (by simp [-Fin.ofNat_eq_cast, candS])

theorem tlbinv (g) (hn) (a) (b) (w1) : Statement (.tlbinv g hn a b w1) := by
  intro ws hw he
  obtain rfl := (Option.some.inj he)
  refine decode_of_reads _ _ hw he ?_
  exact reads_S _ _ _ _ _ _ _ _ _ _ _ _ (by decide) (by simp_all [wellFormed, legal, vform, sform, w1Ok, usesW1] <;> intro h <;>
      first
      | exact hw.2.resolve_left h
      | exact hw.1.2.resolve_left h
      | exact fun h2 => hw.2.resolve_left (by simp [h, h2])
      | exact fun h2 h3 => hw.2.resolve_left (by simp [h, h2, h3])) (by first | omega | exact ssrcCode_lt _ | (have := sysCode_lt n; omega)) (by first | omega | exact ssrcCode_lt _ | (have := sysCode_lt n; omega))
    (by first | omega | exact ssrcCode_lt _ | (have := sysCode_lt n; omega)) (by first | omega | exact ssrcCode_lt _ | (have := sysCode_lt n; omega)) (by decide) (by decide) (by decide) (by simp [-Fin.ofNat_eq_cast, candS])

theorem ptwr (g) (d) (a) (b) (w1) : Statement (.ptwr g d a b w1) := by
  intro ws hw he
  obtain rfl := (Option.some.inj he)
  refine decode_of_reads _ _ hw he ?_
  exact reads_S _ _ _ _ _ _ _ _ _ _ _ _ (by decide) (by simp_all [wellFormed, legal, vform, sform, w1Ok, usesW1] <;> intro h <;>
      first
      | exact hw.2.resolve_left h
      | exact hw.1.2.resolve_left h
      | exact fun h2 => hw.2.resolve_left (by simp [h, h2])
      | exact fun h2 h3 => hw.2.resolve_left (by simp [h, h2, h3])) (by first | omega | exact ssrcCode_lt _ | (have := sysCode_lt n; omega)) (by first | omega | exact ssrcCode_lt _ | (have := sysCode_lt n; omega))
    (by first | omega | exact ssrcCode_lt _ | (have := sysCode_lt n; omega)) (by first | omega | exact ssrcCode_lt _ | (have := sysCode_lt n; omega)) (by decide) (by decide) (by decide) (by simp [-Fin.ofNat_eq_cast, candS])

theorem carve (g) (hn) (a) (b) (w1) : Statement (.carve g hn a b w1) := by
  intro ws hw he
  obtain rfl := (Option.some.inj he)
  refine decode_of_reads _ _ hw he ?_
  exact reads_S _ _ _ _ _ _ _ _ _ _ _ _ (by decide) (by simp_all [wellFormed, legal, vform, sform, w1Ok, usesW1] <;> intro h <;>
      first
      | exact hw.2.resolve_left h
      | exact hw.1.2.resolve_left h
      | exact fun h2 => hw.2.resolve_left (by simp [h, h2])
      | exact fun h2 h3 => hw.2.resolve_left (by simp [h, h2, h3])) (by first | omega | exact ssrcCode_lt _ | (have := sysCode_lt n; omega)) (by first | omega | exact ssrcCode_lt _ | (have := sysCode_lt n; omega))
    (by first | omega | exact ssrcCode_lt _ | (have := sysCode_lt n; omega)) (by first | omega | exact ssrcCode_lt _ | (have := sysCode_lt n; omega)) (by decide) (by decide) (by decide) (by simp [-Fin.ofNat_eq_cast, candS])

theorem dirtyclr (g) (hn) (a) (b) (c) (w1) : Statement (.dirtyclr g hn a b c w1) := by
  intro ws hw he
  obtain rfl := (Option.some.inj he)
  refine decode_of_reads _ _ hw he ?_
  exact reads_S _ _ _ _ _ _ _ _ _ _ _ _ (by decide) (by simp_all [wellFormed, legal, vform, sform, w1Ok, usesW1] <;> intro h <;>
      first
      | exact hw.2.resolve_left h
      | exact hw.1.2.resolve_left h
      | exact fun h2 => hw.2.resolve_left (by simp [h, h2])
      | exact fun h2 h3 => hw.2.resolve_left (by simp [h, h2, h3])) (by first | omega | exact ssrcCode_lt _ | (have := sysCode_lt n; omega)) (by first | omega | exact ssrcCode_lt _ | (have := sysCode_lt n; omega))
    (by first | omega | exact ssrcCode_lt _ | (have := sysCode_lt n; omega)) (by first | omega | exact ssrcCode_lt _ | (have := sysCode_lt n; omega)) (by decide) (by decide) (by decide) (by simp [-Fin.ofNat_eq_cast, candS])

theorem handlerRestart (w) (h) : Statement (.handlerRestart w h) := fun _ _ h => nomatch h

theorem spdmRequest : Statement (.spdmRequest) := fun _ _ h => nomatch h

theorem thermalTrip : Statement (.thermalTrip) := fun _ _ h => nomatch h

theorem bridgeDown : Statement (.bridgeDown) := fun _ _ h => nomatch h

theorem hostLinkDown : Statement (.hostLinkDown) := fun _ _ h => nomatch h

theorem hostLinkUp : Statement (.hostLinkUp) := fun _ _ h => nomatch h

theorem domainCompletionTimeout : Statement (.domainCompletionTimeout) := fun _ _ h => nomatch h

theorem systemReadTimeout : Statement (.systemReadTimeout) := fun _ _ h => nomatch h

theorem sfuResult : Statement (.sfuResult) := fun _ _ h => nomatch h

theorem vtosResult : Statement (.vtosResult) := fun _ _ h => nomatch h

theorem mcountResult : Statement (.mcountResult) := fun _ _ h => nomatch h

theorem chainResultWrite : Statement (.chainResultWrite) := fun _ _ h => nomatch h

theorem matrixOpStart : Statement (.matrixOpStart) := fun _ _ h => nomatch h

theorem matrixOpComplete : Statement (.matrixOpComplete) := fun _ _ h => nomatch h

theorem allon : Statement (.allon) := by
  intro ws hw he
  obtain rfl := (Option.some.inj he)
  refine decode_of_reads _ _ hw he ?_
  exact reads_B _ _ _ _ _ _ _ (by decide) (by decide) (by first | omega | exact srcCode_lt _) (by first | omega | exact srcCode_lt _) (by simp [-Fin.ofNat_eq_cast, candB])

theorem alloff : Statement (.alloff) := by
  intro ws hw he
  obtain rfl := (Option.some.inj he)
  refine decode_of_reads _ _ hw he ?_
  exact reads_B _ _ _ _ _ _ _ (by decide) (by decide) (by first | omega | exact srcCode_lt _) (by first | omega | exact srcCode_lt _) (by simp [-Fin.ofNat_eq_cast, candB])

theorem phase : Statement (.phase) := by
  intro ws hw he
  obtain rfl := (Option.some.inj he)
  refine decode_of_reads _ _ hw he ?_
  exact reads_A _ _ _ _ _ _ _ _ _ _ _ _ (by decide) (by decide) (by first | omega | exact tyCode_lt _ | exact Nat.lt_trans (cntCode_lt _) (by decide)) (by first | omega | exact tyCode_lt _ | exact Nat.lt_trans (cntCode_lt _) (by decide)) (by first | omega | exact tyCode_lt _ | exact Nat.lt_trans (cntCode_lt _) (by decide)) (by first | omega | exact tyCode_lt _ | exact Nat.lt_trans (cntCode_lt _) (by decide)) (by first | omega | exact tyCode_lt _ | exact Nat.lt_trans (cntCode_lt _) (by decide)) (by first | omega | exact tyCode_lt _ | exact Nat.lt_trans (cntCode_lt _) (by decide)) (by first | omega | exact tyCode_lt _ | exact Nat.lt_trans (cntCode_lt _) (by decide)) (by simp [-Fin.ofNat_eq_cast, candW])

theorem rett : Statement (.rett) := by
  intro ws hw he
  obtain rfl := (Option.some.inj he)
  refine decode_of_reads _ _ hw he ?_
  exact reads_S _ _ _ _ _ _ _ _ _ _ _ _ (by decide) (fun _ => rfl) (by first | omega | exact ssrcCode_lt _ | (have := sysCode_lt n; omega)) (by first | omega | exact ssrcCode_lt _ | (have := sysCode_lt n; omega))
    (by first | omega | exact ssrcCode_lt _ | (have := sysCode_lt n; omega)) (by first | omega | exact ssrcCode_lt _ | (have := sysCode_lt n; omega)) (by decide) (by decide) (by decide) (by simp [-Fin.ofNat_eq_cast, candS])

theorem fltnext : Statement (.fltnext) := by
  intro ws hw he
  obtain rfl := (Option.some.inj he)
  refine decode_of_reads _ _ hw he ?_
  exact reads_S _ _ _ _ _ _ _ _ _ _ _ _ (by decide) (fun _ => rfl) (by first | omega | exact ssrcCode_lt _ | (have := sysCode_lt n; omega)) (by first | omega | exact ssrcCode_lt _ | (have := sysCode_lt n; omega))
    (by first | omega | exact ssrcCode_lt _ | (have := sysCode_lt n; omega)) (by first | omega | exact ssrcCode_lt _ | (have := sysCode_lt n; omega)) (by decide) (by decide) (by decide) (by simp [-Fin.ofNat_eq_cast, candS])

theorem halt : Statement (.halt) := by
  intro ws hw he
  obtain rfl := (Option.some.inj he)
  refine decode_of_reads _ _ hw he ?_
  exact reads_S _ _ _ _ _ _ _ _ _ _ _ _ (by decide) (fun _ => rfl) (by first | omega | exact ssrcCode_lt _ | (have := sysCode_lt n; omega)) (by first | omega | exact ssrcCode_lt _ | (have := sysCode_lt n; omega))
    (by first | omega | exact ssrcCode_lt _ | (have := sysCode_lt n; omega)) (by first | omega | exact ssrcCode_lt _ | (have := sysCode_lt n; omega)) (by decide) (by decide) (by decide) (by simp [-Fin.ofNat_eq_cast, candS])

end RoundTrip

end Sys2Proof.Laws
end

