-- ==== Sys2Proof/Tests/Slice0.lean ====
section
/-! SUPPORT. Tests: words of the spec's examples, words that are refused, one step of some instructions against the spec's
worked examples, and for each statement of the obligations that has hypotheses a state and operands that meet them. -/

namespace Sys2Proof.Tests

set_option Elab.async false

open Sys2Proof Sys2Proof.Machine Sys2Proof.Claims

/-! ### Words of the spec's examples -/

/-- No guard, and a guard by a predicate. -/
def g7 : Guard := { pred := 7, inv := false }
def byP (p : Fin 8) : Guard := { pred := p, inv := false }

/-- The fields of a vector form that has none but these. -/
def vop (t : Ty) (d : Fin 256) (a : Src) (b : Src := .v 0) (c : Src := .v 0) : VOp :=
  { g := g7, rnd := .rne, sat := false, ty := t, d := d, a := a, b := b, c := c, imm := 0, chain := Chain.off }
def mop (g : Guard) (t : Ty) (off : Option (Fin 256)) (base : Fin 128) (data : Fin 256) (disp : Disp := .short 0) : MOp :=
  { g := g, ty := t, e := true, n := 0, h := 0, oe := off.isSome, off := off.getD 0, base := base, data := data, disp := disp }
def cop (t : Ty) (ssp dsp : Bool) (hn : Fin 16) (sa sb sc sd : Fin 128) : COp :=
  { g := g7, ssp := ssp, dsp := dsp, h := 0, ty := t, sd := sd, sc := sc, sb := sb, sa := sa, hn := hn }
def xop (e t : Fin 8) (hn : Fin 16) (sa sb sc sd : Fin 128) : XOp := { g := g7, e := e, t := t, hn := hn, sa := sa, sb := sb, sc := sc, sd := sd }
def evo (sa sd : Fin 128) : EvOp := { g := g7, sa := sa, sb := 0, sc := 0, sd := sd }
def chainBy (csrc : CSrc) (ch : Fin 4) : Chain := { csrc := csrc, cch := ch, km1 := 0, pub := some ch }

/-- Vector words: R294's, R301's, R267's and R389's examples. -/
def vectorWords : List (Word × Word × Instr) :=
  [ (0x0800000040103700, 0, .vadd { vop .i8 3 (.v 1) (.v 2) with sat := true })
  , (0x0000000040103700, 0, .vadd (vop .i8 3 (.v 1) (.v 2)))
  , (0x0092803280307700, 0, .vshl (vop .n32 7 (.v 3) (.int 20)))
  , (0x0003000020505701, 0x000000A000000000, .vadd { vop .i64 5 (.v 5) (.v 1) with chain := chainBy .a 0 })
  , (0x002B0080A0105701, 0x000000C000000000, .vmad { vop .i64 5 (.v 1) (.v 5) (.v 2) with chain := chainBy .b 0 })
  , (0x0003003C00101707, 0x00000000FFFFFF80, .vcmp .eq { vop .i64 1 (.v 1) .imm with imm := 0xFFFFFF80 })
  , (0x001D010000405708, 0, .vscaleMx (vop .f32 5 (.v 4)) .e4m3)
  , (0x00150100A0406708, 0, .vcvtTomx (vop .f32 6 (.v 4) (.v 5)) .e4m3)
  , (0x000D0100A0607708, 0, .vcvtMx (vop .f32 7 (.v 6) (.v 5)) .e4m3)
  , (0x000F80328030420A, 0, .shufRot { vop .b64 4 (.v 3) (.int 20) with g := byP 2 }) ]

/-- Predicate, expand and scalar words: R311's, R396's, R360's and R267's examples. -/
def warpWords : List (Word × Word × Instr) :=
  [ (0x002F80000020970C, 0, .ballot { g := g7, d := 9, a := ⟨2, false⟩, b := ⟨0, false⟩ })
  , (0x004F80000010570C, 0, .pcount { g := g7, d := 5, a := ⟨1, false⟩, b := ⟨0, false⟩ })
  , (0x000780014010170C, 0, .pand { g := g7, d := 1, a := ⟨1, false⟩, b := ⟨2, true⟩ })
  , (0x003780000010370C, 0, .voteAny { g := g7, d := 3, a := ⟨1, false⟩, b := ⟨0, false⟩ })
  , (0x0007E4806020070E, 0, .xbegin 0 g7 2 3 (.int 18) 0)
  , (0x000F80002000A70E, 0, .xnext 0 10 1)
  , (0x100F80004000A70E, 0, .xnext 1 10 2)
  , (0x0013004000C1470E, 0, .xred 0 g7 .add .i64 false 20 (.v 12) 0 1)
  , (0x081301800041470E, 0, .xred 0 g7 .add .i64 true 20 (.v 4) 0 6)
  , (0x001F80000000070E, 0, .xsync 0)
  , (0x002780000000070E, 0, .xend 0)
  , (0x002F80004000E70E, 0, .xquery 0 g7 14 2)
  , (0x0000600FE1514711, 0x0000123456789ABC,
      .sadd { g := g7, sat := false, ty := .i64, d := 20, a := .s 21, b := .w1, c := .s 0, w1 := 0x123456789ABC })
  , (0x0004F0000B807716, 0, .hwaitany g7 7 (.int 56) 0)
  , (0x0003F00910314716, 0, .hmovFromHandle g7 20 3) ]

/-- Memory and control words: R265's, R164's, R328's, R396's, R389's and R399's examples. -/
def memoryWords : List (Word × Word × Instr) :=
  [ (0x0000205000B02720, 0, .ld (mop g7 .n32 none 11 2))
  , (0x0000200800401720, 0, .ld (mop g7 .i8 (some 0) 4 1))
  , (0x000020585050C120, 0, .ld (mop (byP 1) .n32 (some 10) 5 12))
  , (0x0020205860803722, 0, .st (mop g7 .n32 (some 12) 8 3 (.short 16)))
  , (0x0000206808908322, 0, .st (mop (byP 3) .i64 (some 1) 9 8))
  , (0x0000207000406223, 0x0000000000130008, .st (mop (byP 2) .n64 none 4 6 (.long 0x130008)))
  , (0x0001E06001402024, 0, .atom .cas (mop (byP 0) .i64 none 20 2))
  , (0x0001E07830007128, 0, .atomSp .cas (mop (byP 1) .n64 (some 6) 0 7))
  , (0x002200000000072A, 0, .fence g7 .rel .die)
  , (0x0002000000008131, 0x0000000000000020, .brd (byP 1) 8 32)
  , (0x0002000000008931, 0x0000000000000020, .brd { pred := 1, inv := true } 8 32)
  , (0x0004060000000731, 0x0000000000000010, .jmpv g7 (.v 6) 16)
  , (0x000C000000000130, 0, .exit (byP 1)) ]

/-- Words of the engines, the work group and the system group: R344's, R376's, R367's, R368's and R399's examples. -/
def engineWords : List (Word × Word × Instr) :=
  [ (0x200251A3058A2740, 0, .cpyGth (cop .n32 false true 2 10 11 12 13) false false)
  , (0x2006000300046741, 1, .cpyCvt (cop .i8 false true 6 4 0 12 0) false false false .int8)
  , (0x0001F000070D7743, 0x0000000000200021, .mldw (xop 0 0 7 13 14 0 0) 32 0 true 0 1)
  , (0x0000F000000F0742, 0, .mcfg (xop 0 0 0 15 0 0 0))
  , (0x0008F30000000743, 0, .mbound (xop 0 0 0 0 0 0 24) 0)
  , (0x0009F32008000743, 0, .mcount (xop 0 0 0 0 16 0 25) 0)
  , (0x0802F00008009743, 0, .mma (xop 0 1 9 0 16 0 0) 0 0 0)
  , (0x0000F00000141750, 0, .launch g7 1 20)
  , (0x0001F00000160750, 0, .evwait (evo 22 0))
  , (0x0505F2E000000750, 0, .cntrd .abort (evo 0 23))
  , (0x0007F00000180750, 0, .jobend 24)
  , (0x0000F00009500760, 0, .trap g7 (.int 21) 0)
  , (0x0002F00009828760, 0, .sysrd g7 40 .tepc)
  , (0x0003F0014A200760, 0, .syswr g7 .svec (.s 20) 0)
  , (0x0005F001E1C1F760, 0, .ptwr g7 31 (.s 28) (.s 30) 0)
  , (0x0004F00FE1501761, 0x0000000000200000, .tlbinv g7 1 (.s 21) .w1 0x200000)
  , (0x0008F00000000760, 0, .fltnext) ]

/-- A word decodes to the instruction of its row, which is encoded in that word. -/
def rowOk (p : Word × Word × Instr) : Bool :=
  decode p.1 p.2.1 == .ok p.2.2 && encode p.2.2 == some (p.1, if p.1.getLsbD 0 then some p.2.1 else none)

theorem test_vectorWords : vectorWords.all rowOk = true := by decide +kernel
theorem test_warpWords : warpWords.all rowOk = true := by decide +kernel
theorem test_memoryWords : memoryWords.all rowOk = true := by decide +kernel
theorem test_engineWords : engineWords.all rowOk = true := by decide +kernel
theorem test_knownWords : ∀ p ∈ knownWords, decode p.1 p.2.1 = .ok p.2.2 := by decide +kernel

/-- The words that R267's example calls illegal. -/
theorem test_illegalWords :
    ([(0x4092803280307700, 0), (0x0092803280307F00, 0), (0x0000600FE1514710, 0), (0x002200000000072B, 0), (0x000F80328030420B, 0x2000000000)
      , (0x005F80000010570C, 0)] : List (Word × Word)).all (fun p => match decode p.1 p.2 with | .bad _ => true | _ => false) = true := by
  decide +kernel

/-- A two-word instruction takes its second word from the next eight bytes, and the rest of the bytes is left. -/
theorem test_decodeBytes : decodeBytes (bytesOf 8 0x0002000000008131 ++ bytesOf 8 0x20 ++ [7]) = (.ok (.brd (byP 1) 8 32), [7]) := by
  decide +kernel

/-! ### Ill-formed instructions, one for each check -/

/-- An instruction for each check of R258 to R263: a reserved guard, a type of no form, SAT where there is none, a rounding mode where
there is none, a predicate destination out of range, an integer in an 8-bit float position, a source that is not used, an immediate that
is not named, a shuffle of a scalar, a chained source in a form of none, and a publish where none may be. -/
def badVectors : List Instr :=
  [ .vadd { vop .i8 3 (.v 1) (.v 2) with g := { pred := 7, inv := true } }, .vadd (vop .f32 3 (.v 1) (.v 2))
  , .vavg { vop .i8 3 (.v 1) (.v 2) with sat := true }, .vadd { vop .b64 3 (.v 1) (.v 2) with sat := true }
  , .vadd { vop .i8 3 (.v 1) (.v 2) with rnd := .rup }, .vcmp .lt (vop .i8 8 (.v 1) (.v 2)), .vmov (vop .e4m3 3 (.int 1)), .vadd (vop .i8 3 (.v 1) (.fp 1))
  , .vmov (vop .i8 3 (.v 1) (.v 2)), .vadd (vop .i8 3 (.v 1) (.v 2) (.v 1)), .vadd { vop .i8 3 (.v 1) (.v 2) with imm := 1 }
  , .shuf (vop .b64 3 (.s 1) (.v 2)), .shuf { vop .b64 3 (.v 1) (.v 2) with chain := chainBy .a 0 }
  , .vfadd { vop .f32 3 (.s 1) (.v 2) with chain := chainBy .a 0 }, .vcmp .lt { vop .i8 3 (.v 1) (.v 2) with chain := chainBy .none 0 }
  , .vcmp .ord (vop .i8 3 (.v 1) (.v 2)), .vadd { vop .i8 3 (.v 1) (.v 2) with chain := { Chain.off with km1 := 1 } } ]

/-- The same for R262, R263, R289, R311 and R229: a scalar type, SAT, an unused operand, a second word that is not named, `scmp.ord`, a
predicate operand and destination, a type and an op of `xred`, and its SAT with f32. -/
def badWarps : List Instr :=
  let o : SOp := { g := g7, sat := false, ty := .n64, d := 3, a := .s 1, b := .s 2, c := .s 0, w1 := 0 }
  let p : POp := { g := g7, d := 1, a := ⟨1, false⟩, b := ⟨0, false⟩ }
  [ .sadd { o with ty := .f32 }, .smin { o with sat := true }, .smov o, .sadd { o with c := .s 1 }, .sadd { o with w1 := 1 }, .scmp .ord o
  , .pand { p with d := 8 }, .pnot { p with b := ⟨1, false⟩ }, .ballot { p with d := 128 }, .pmov { p with g := { pred := 7, inv := true } }
  , .xred 0 g7 .add .i8 false 20 (.v 12) 0 1, .xred 0 g7 .and .i64 false 20 (.v 12) 0 1, .xred 0 g7 .add .f32 true 20 (.v 12) 0 1
  , .xred 0 g7 .add .i64 false 20 (.v 12) 1 1, .xbegin 0 g7 2 3 (.int 18) 1, .xbegin 0 g7 2 3 (.fp 1) 0 ]

/-- The same for R264, R265, R318, R343, R346, R349, R353, R366 and R370: an offset that is not named, more than one register of an
element, hints in scratch, the registers of `ld.s`, the types and elements of atomics, of `prefetch` and of `waitv`, the types, operands
and modes of copies, the operands and types of matrix forms, the operands of `cntrd`, and a system register that is read only. -/
def badMemories : List Instr :=
  let o := mop g7 .n32 none 1 2
  let c := cop .n32 true true 1 1 2 3 0
  let x := xop 0 0 0 0 0 0 0
  [ .ld { o with off := 1 }, .ld { o with n := 1 }, .ld { o with ty := .i4 }, .ld { o with ty := .f64 }, .ldSp { o with h := 1 }, .stSp { o with h := 1 }
  , .ldS { o with data := 128 }, .ldS { o with e := false, n := 1 }, .ldS (mop g7 .n32 (some 1) 1 2), .atom .add { o with e := false }
  , .atom .min { o with ty := .f32 }, .atom .add { o with ty := .n8 }, .atomSp .add { o with h := 1 }, .prefetch o, .prefetch { o with data := 0, ty := .f64 }
  , .waitv { o with h := 1 }, .waitv { o with ty := .n8 }, .jmpv g7 (.int 1) 1, .callv g7 (.fp 1)
  , .cpy { c with sd := 1 }, .cpy { c with ty := .i8 }, .cpyFill c, .cpyRed { c with ty := .n8 } .add, .cpyRed { c with ty := .f32 } .min
  , .cpyCvt { c with ty := .i16 } false false false .int8, .cpyCvt { c with ty := .i8 } true false false .int8
  , .cpyCvt { c with ty := .i8, dsp := false } false false true .int8, .cpyCvt { c with ty := .i8, ssp := false } false true true .int8
  , .mcfg { x with sb := 1 }, .mzero { x with sa := 1 }, .mma { x with sd := 1 } 0 0 0, .mst x .i16 false false false, .mst x .i8 false true false
  , .mst { x with sd := 1 } .i8 false false true, .cntrd .abort { evo 1 2 with g := { pred := 7, inv := true } }
  , .syswr g7 .tmask (.s 1) 0, .syswr g7 (.trec 0) (.s 1) 0, .trap g7 (.s 1) 1, .hwaitany g7 1 (.s 1) 1, .launch { pred := 7, inv := true } 1 1 ]

theorem test_illFormed : (badVectors ++ badWarps ++ badMemories).all (fun i => !wellFormed i) = true := by decide +kernel


/-! ### States of the tests, and what issues in them

Every statement about an instruction at issue holds of any state, warp and split with `Issues`. The states here meet it for
each instruction, and the witnesses below meet the other hypotheses with it. -/

/-- A warp of a test: of unit 5 in context 0, on core 0, its lanes in one split at 0x10000. -/
def wk (k : WKind) : Warp := newWarp 7 0 0 0 k 0 256 (BitVec.allOnes 32) 0 0x10000#64
def x0 : Split := firstSplit 0 0x10000#64 (BitVec.allOnes 32)
def unit0 : UnitSt := newUnit 5 0 wideLaunch 0 0 { regs := 0, scr := 0, acc := 0 }

/-- The state of a test: one warp at issue, in a running context with one launch and one unit, on an online die. -/
def stage (w : Warp) (u : UnitSt) : State :=
  let s := modCtx State.reset 0 fun x => { x with st := .running, launches := [wideLaunch], launchCount := 1 }
  let s := modDie s 0 fun d => { d with dstate := .online }
  let s := coreEnter s 0 { ctx := 0, base := placeBase, size := 0x10000, pte := placePte, leafAt := 0 }
  { s with units := [u], warps := [w], turn := some (.issue w.id 0), serial := 8 }

theorem issues_of {i : Instr} {s : State} {w : Warp} {x : Split} (ht : s.turn = some (.issue w.id 0)) (hw : s.warps = [w])
    (hx : w.splits[(0 : Fin 8)] = some x) (h : (wordFault i s w x == none && !pendingRegister w (namedOf i)) = true) :
    Issues i s w 0 x := by
  simp only [Bool.and_eq_true, beq_iff_eq, Bool.not_eq_true'] at h
  exact { turn := ht, warp := by simp [findWarp, hw], split := hx, words := h.1, ready := h.2 }


/-- The split of entry 0 of a warp. -/
def firstOf (w : Warp) : Split := (w.splits[(0 : Fin 8)]).getD x0

/-- An instruction issues in a state, from entry 0 of a warp, and the other hypotheses of a statement are met. -/
def Meets (i : Instr) (s : State) (w : Warp) (p : Prop) : Prop := Issues i s w 0 (firstOf w) ∧ p

theorem meets {i : Instr} {s : State} {w : Warp} {p : Prop} [Decidable p] {ws : List Warp} (hw : s.warps = w :: ws)
    (h : (s.turn == some (.issue w.id 0) && (w.splits[(0 : Fin 8)]).isSome && wordFault i s w (firstOf w) == none
      && !pendingRegister w (namedOf i) && decide p) = true) : Meets i s w p := by
  simp only [Bool.and_eq_true, beq_iff_eq, Bool.not_eq_true', decide_eq_true_eq] at h
  obtain ⟨⟨⟨⟨ht, hx⟩, hf⟩, hp⟩, h⟩ := h
  obtain ⟨y, hy⟩ := Option.isSome_iff_exists.mp hx
  exact ⟨{ turn := ht, warp := by simp [findWarp, hw], split := by simp [firstOf, hy], words := hf, ready := hp }, h⟩

/-- Operands of the forms. -/
def vo (t : Ty) (n : Nat) : VOp :=
  { g := g7, rnd := .rne, sat := false, ty := t, d := 3, a := .v 1, b := if 2 ≤ n then .v 2 else .v 0, c := if 3 ≤ n then .v 4 else .v 0
    imm := 0, chain := Chain.off }
def po (two : Bool) : POp := { g := g7, d := 2, a := { p := 1, inv := false }, b := if two then { p := 2, inv := true } else { p := 0, inv := false } }
def so (n : Nat) : SOp :=
  { g := g7, sat := false, ty := .n64, d := 3, a := .s 1, b := if 2 ≤ n then .s 2 else .s 0, c := if 3 ≤ n then .s 4 else .s 0, w1 := 0 }
def mo : MOp := { g := g7, ty := .n32, e := true, n := 0, h := 3, oe := false, off := 0, base := 11, data := 2, disp := .short 0 }
def co : COp := { g := g7, ssp := true, dsp := true, h := 0, ty := .n32, sd := 0, sc := 3, sb := 2, sa := 1, hn := 4 }
def xo : XOp := { g := g7, e := 1, t := 0, hn := 0, sa := 0, sb := 0, sc := 0, sd := 0 }
def eo : EvOp := { g := g7, sa := 1, sb := 2, sc := 3, sd := 4 }

def vectorForms : List Instr :=
  (([(.vmov, 1), (.vadd, 2), (.vsub, 2), (.vmul, 2), (.vmulh, 2), (.vmulw, 2), (.vmad, 3), (.vmin, 2), (.vmax, 2), (.vavg, 2), (.vsad, 3)
    , (.vand, 2), (.vor, 2), (.vxor, 2), (.vnot, 1), (.vshl, 2), (.vshr, 2), (.vsra, 2), (.vrot, 2), (.vbfe, 2), (.vbfi, 3), (.vpopc, 1)
    , (.vclz, 1), (.vctz, 1), (.vbrev, 1), (.vpack, 2), (.vunpkLo, 1), (.vunpkHi, 1), (.vpermSub, 2)
    , (.matchv, 1)] : List ((VOp → Instr) × Nat)).map fun p => p.1 (vo .n32 p.2)) ++
  (([(.vabs, 1), (.vneg, 1)] : List ((VOp → Instr) × Nat)).map fun p => p.1 (vo .i32 p.2)) ++
  (([(.vdot4, 3)] : List ((VOp → Instr) × Nat)).map fun p => p.1 (vo .n8 p.2)) ++
  (([(.vbool, 3), (.shuf, 2), (.shufRot, 2), (.shufBcast, 2), (.shufBfly, 2), (.shufMirror, 2)] : List ((VOp → Instr) × Nat)).map
    fun p => p.1 (vo .b64 p.2)) ++
  (([(.vfadd, 2), (.vfsub, 2), (.vfmul, 2), (.vfma, 3), (.vfmin, 2), (.vfmax, 2), (.vfabs, 1), (.vfneg, 1), (.vfsgn, 2), (.vfrnd, 1)
    , (.vfclass, 1), (.vrcp, 1), (.vrsq, 1), (.vsqrt, 1), (.vexp2, 1), (.vlog2, 1), (.vsinpi, 1), (.vcospi, 1)
    , (.vtanh, 1)] : List ((VOp → Instr) × Nat)).map fun p => p.1 (vo .f32 p.2)) ++
  [ .vfdot2 (vo .f16 3), .vsel (vo .n32 2) 1, .vcmp .lt { vo .n32 2 with d := 2 }, .vcvt (vo .f32 1) .i32, .vcvtMx (vo .f16 2) .e4m3
  , .vcvtTomx (vo .f16 2) .e4m3, .vscaleMx (vo .f16 1) .e4m3, .xsel (vo .b64 2) 1, .vscan (vo .n32 1) .add true, .vred (vo .n32 1) .add ]

def predicateForms : List Instr :=
  (([.pand, .por, .pxor] : List (POp → Instr)).map fun f => f (po true)) ++
  (([.pnot, .pmov, .ballot, .voteAny, .voteAll, .voteSame, .pcount, .pfirst] : List (POp → Instr)).map fun f => f (po false))

def scalarForms : List Instr :=
  (([(.sadd, 2), (.ssub, 2), (.smul, 2), (.smulh, 2), (.smin, 2), (.smax, 2), (.sand, 2), (.sor, 2), (.sxor, 2), (.snot, 1), (.sshl, 2)
    , (.sshr, 2), (.ssra, 2), (.sbfe, 2), (.sbfi, 3), (.spopc, 1), (.sclz, 1), (.sctz, 1), (.smov, 1), (.ssel, 3)
    , (.scmp .lt, 2)] : List ((SOp → Instr) × Nat)).map fun p => p.1 (so p.2)) ++
  [ .srd g7 3 0, .srdFlags g7 3, .srdFlagsClr g7 3 (.int 20) 0, .vtos g7 3 1 (.int 20) 0 ]

/-- Expand, chain and handle forms. -/
def expandForms : List Instr :=
  [ .xbegin 1 g7 8 9 (.int 17) 0, .xnext 1 10 2, .xred 1 g7 .add .n32 false 12 (.v 13) 0 5, .xsync 1, .xend 1, .xquery 1 g7 14 0
  , .cdef g7 1 (.s 2) 0, .cdrop g7 1, .cquery g7 3 1 0, .hwait g7 4, .htest g7 3 4, .hcancel g7 4, .hmovToHandle g7 4 (.s 2) 0
  , .hmovFromHandle g7 3 4, .hwaitany g7 3 (.int 20) 0 ]

/-- Memory forms. -/
def memoryForms : List Instr :=
  [ .ld mo, .ldAcq mo, .ldSp { mo with h := 0 }, .ldS mo, .st mo, .stRel mo, .stSp { mo with h := 0 }, .atom .add mo, .red .add mo
  , .atomSp .add { mo with h := 0 }, .fence g7 .ar .die, .prefetch { mo with data := 0 }, .waitv { mo with h := 0 }, .l1flush g7, .l1flushInv g7 ]

/-- Control forms and barriers. -/
def controlForms : List Instr :=
  [ .bra g7 2, .brd g7 2 4, .jmpv g7 (.v 1) 2, .call g7 2, .callv g7 (.v 1), .ret g7, .exit g7, .safept 3, .nop g7, .bar g7 1, .barArv g7 1
  , .barWt g7 1, .allon, .alloff ]

/-- Copies. -/
def copyForms : List Instr :=
  [ .cpy co, .cpy2d { co with sd := 5 }, .cpyGth { co with sd := 5 } true false, .cpySct { co with sd := 5 } true false, .cpyRed co .add
  , .cpyFill { co with ssp := false }, .cpyCvt { co with ty := .f16 } false false true .e4m3 ]

/-- Matrix forms. -/
def matrixForms : List Instr :=
  [ .mcfg { xo with sa := 1 }, .mldw { xo with hn := 4, sa := 1, sb := 2, sc := 3 } 1 0 true 0 1, .mldwNorm { xo with hn := 4, sa := 1 } true
  , .mma { xo with t := 2, hn := 4, sa := 1, sb := 2 } 0 0 0, .mzero { xo with t := 2, hn := 4 }
  , .mst { xo with t := 2, hn := 4, sa := 1, sb := 2 } .i8 false false false, .mmovFromTile { xo with t := 2, hn := 4 } 1 2 9
  , .mmovToTile { xo with t := 2, hn := 4 } 1 2 9, .mtopk { xo with t := 2, hn := 4, sa := 1, sb := 2 } 3 true
  , .mdist { xo with t := 2, hn := 4, sa := 1 }, .mbound { xo with sd := 5 } 0, .mcount { xo with sa := 1, sb := 2, sd := 5 } 0 ]

/-- The instructions that a warp of a unit may execute outside a handler, one for each. -/
def unitForms : List Instr :=
  vectorForms ++ predicateForms ++ scalarForms ++ expandForms ++ memoryForms ++ controlForms ++ copyForms ++ matrixForms ++ [.trap g7 (.s 1) 0]

/-- The instructions of the work and system groups that a job warp may execute. -/
def jobForms : List Instr :=
  [ .launch g7 4 1, .evwait eo, .evset eo, .evclr eo, .cancelLaunch g7 1, .cancelGraph g7 1, .cancelPhase g7 1, .cancelJob ⟨g7, 1⟩
  , .cntrd .abort { eo with sa := 0, sb := 0, sc := 0 }, .phase, .jobend 1, .trap g7 (.s 1) 0, .sysrd g7 3 .route, .syswr g7 .tvec (.s 1) 0
  , .tlbinv g7 4 (.s 1) (.s 2) 0, .ptwr g7 3 (.s 1) (.s 2) 0, .carve g7 4 (.s 1) (.s 2) 0, .dirtyclr g7 4 (.s 1) (.s 2) (.s 3) 0, .halt ]

def okIn (w : Warp) (u : UnitSt) (i : Instr) : Bool :=
  wordFault i (stage w u) w x0 == none && !pendingRegister w (namedOf i)

theorem unit_forms_issue : ∀ i ∈ unitForms, Issues i (stage (wk (.unit 5)) unit0) (wk (.unit 5)) 0 x0 := by
  have h : unitForms.all (okIn (wk (.unit 5)) unit0) = true := by decide +kernel
  exact fun i hi => issues_of rfl rfl rfl (List.all_eq_true.mp h i hi)

theorem job_forms_issue : ∀ i ∈ jobForms, Issues i (stage (wk .job) unit0) (wk .job) 0 x0 := by
  have h : jobForms.all (okIn (wk .job) unit0) = true := by decide +kernel
  exact fun i hi => issues_of rfl rfl rfl (List.all_eq_true.mp h i hi)

/-! ### Witnesses: the hypotheses of each statement, met together, one conjunct for each of its clauses -/

/-- A warp of a unit, a job warp, and a fault-service warp that serves slot 0 of die 0. -/
def un : Warp := wk (.unit 5)
def jw : Warp := wk .job
def sv : Warp := wk (.service 0 (some 0))

/-- An instruction meets the hypotheses in the state of the tests. -/
abbrev On (i : Instr) (w : Warp) (p : Prop) : Prop := Meets i (stage w unit0) w p

/-- The active lanes of an instruction of a warp. -/
abbrev act (i : Instr) (w : Warp) : Mask := activeOf i w (firstOf w)

/-- Predicate 1, which a new warp has false in every lane; `half` has it true in the lower lanes. -/
def b1 : Guard := byP 1
def half (w : Warp) : Warp := { w with p := w.p.set 1 0xFFFF }

theorem each {α : Type} {o : Option α} {p : α → Bool} (h : o.all p = true) : ∀ y, o = some y → p y = true := by
  intro y hy; simpa [hy] using h

/-- Release that goes on. -/
def releases (s : State) (w : Warp) (sc : Scope) : Bool := match releaseAt s w sc with | .ok _ => true | _ => false

/-- R288-R303, R307-R311: a form with no chain field, and a chained one with no active lane. -/
theorem witness_plain : (∀ t n, isChained (vo t n) = false) ∧
    On (.vadd { vo .i64 2 with g := b1, chain := chainBy .a 0 }) un (Plain (.vadd { vo .i64 2 with g := b1, chain := chainBy .a 0 })
      { vo .i64 2 with g := b1, chain := chainBy .a 0 } un (firstOf un)) :=
  ⟨fun _ _ => rfl, meets rfl (by decide +kernel)⟩

/-- FloatSumSpecials, at each of its operands, in f16. -/
theorem witness_sumSpecials : fNan fmtF16 0x7E00 = true ∧ (fNan fmtF16 0x3C00 = false ∧ fNan fmtF16 0x7C01 = true) ∧
    (fVal fmtF16 0x7C00 = .inf false ∧ fVal fmtF16 0xFC00 = .inf (!false)) ∧ (fVal fmtF16 0xFC00 = .inf true ∧ fVal fmtF16 0xFC00 = .inf true) ∧
    (fVal fmtF16 0x3C00 = .num false 1024 (-10) ∧ fVal fmtF16 0xBC00 = .num (!false) 1024 (-10)) ∧
    fVal fmtF16 0x8000 = .num true 0 (1 - (fmtF16.bias : Int) - fmtF16.mb) := by decide +kernel

/-- FloatOrder and FloatConditions: a signalling NaN, a number and an infinity, two numbers, and two zeros. -/
theorem witness_floatOrder : (fNan fmtF16 0x7C01 = true ∧ fSnan fmtF16 0x7C01 = true ∧ fNan fmtF16 0x7E00 = true ∧ fNan fmtF16 0x3C00 = false) ∧
    (fVal fmtF16 0x7C00 = .inf false ∧ fVal fmtF16 0xFC00 = .inf true ∧ fVal fmtF16 0x3C00 ≠ .inf false) ∧
    (fVal fmtF16 0x3C00 = .num false 1024 (-10) ∧ fVal fmtF16 0x4000 = .num false 1024 (-9) ∧
      scaledAt false 1024 (-10) (-10) < scaledAt false 1024 (-9) (-10)) ∧
    (fVal fmtF16 0x8000 = .num true 0 (-24) ∧ fVal fmtF16 0 = .num false 0 (-24)) := by decide +kernel

/-- RoundedMagnitudes: in f16, 2^17 is past the largest number, 65504; 1 is not; 2^-24 + 2^-25 is tiny; and the other kinds of format. -/
theorem witness_magnitudes :
    (∀ (b : Bool) (x : Nat) (d : Int), fVal fmtF16 (maxBits fmtF16) = .num b x d → ∀ k, k ≤ d → k ≤ 7 →
      scaledAt false x d k < scaledAt false (quanta .rne false (2 ^ 17) 0 7 false).1 7 k) ∧
    (¬ ∀ (b : Bool) (x : Nat) (d : Int), fVal fmtF16 (maxBits fmtF16) = .num b x d → ∀ k, k ≤ d → k ≤ -10 →
      scaledAt false x d k < scaledAt false (quanta .rne false 1 0 (-10) false).1 (-10) k) ∧
    ((0 : Int) + Nat.log2 (2 ^ 17) - fmtF16.mb = 7 ∧ (0 : Int) + Nat.log2 1 - fmtF16.mb = -10 ∧ (quanta .rne false 3 (-25) (-24) false).2 = true) ∧
    fmtF16.fin = .ieee ∧ fmtE4M3.fin = .nanOnly ∧ fmtE2M1.fin = .finite := by
  refine ⟨?_, ?_, by decide +kernel, rfl, rfl, rfl⟩
  · intro b x d h k hk hq
    obtain ⟨rfl, rfl, rfl⟩ : b = false ∧ x = 2047 ∧ d = 5 := by
      have e : fVal fmtF16 (maxBits fmtF16) = .num false 2047 5 := by decide +kernel
      simpa [e, eq_comm] using h
    have e : (quanta .rne false (2 ^ 17) 0 7 false).1 = 1024 := by decide +kernel
    rw [e]
    obtain ⟨n, hn⟩ : ∃ n : Nat, 5 - k = n := ⟨(5 - k).toNat, by omega⟩
    have h7 : 7 - k = (n + 2 : Nat) := by omega
    simp only [scaledAt, hn, h7, Int.toNat_natCast, Bool.false_eq_true, if_false, Nat.pow_add]
    have := Nat.two_pow_pos n
    omega
  · intro h
    exact absurd (h false 2047 5 (by decide +kernel) (-10) (by decide) (by decide)) (by decide +kernel)

/-- ExactThenRounded and ProductSpecials: numbers, zero times an infinity, a NaN among the operands, and infinities of one sign and of two. -/
theorem witness_products : (fVal fmtF16 0x3C00 = .num false 1024 (-10) ∧ fVal fmtF16 0xC000 = .num true 1024 (-9) ∧ fVal fmtF16 0 = .num false 0 (-24)) ∧
    (scaledAt false 1024 (-10) (-10) + scaledAt true 1024 (-9) (-10) ≠ 0 ∧
      scaledAt true (1024 * 1024) (-19) (-24) + scaledAt false 0 (-24) (-24) ≠ 0 ∧
      scaledAt true (1024 * 0) (-34) (-34) + scaledAt false 0 (-24) (-34) = 0) ∧
    zeroInf (fVal fmtF16 0x7C00) (fVal fmtF16 0x8000) = true ∧ [0x3C00, 0x7C01, 0].find? (fNan fmtF16) = some 0x7C01 ∧
    ([0x7C00, 0x3C00, 0xFC00].any (fNan fmtF16) = false ∧ (fNeg fmtF16 0x7C00 != fNeg fmtF16 0x3C00) = false ∧
      fVal fmtF16 0xFC00 = .inf (!false) ∧ fVal fmtF16 0x7C00 ≠ .inf (!false)) := by decide +kernel

/-- FloatConversions and MxConversions: values of each kind in each group of formats; blocks with a NaN, of zeros, and with a largest magnitude. -/
theorem witness_conversions : (tyInteger .i8 = true ∧ fmtOf .f16 = fmtF16 ∧ fmtOf .e4m3 = fmtE4M3) ∧
    (fVal fmtF16 0x3C00 = .num false 1024 (-10) ∧ fVal fmtF16 0x7C00 = .inf false ∧ fNan fmtF16 0x7C01 = true ∧ fNan fmtE4M3 0x7F = true) ∧
    (mxVal .e4m3 0x7F = .nan ∧ mxVal .e4m3 0x38 = .num false 8 (-3) ∧ mxVal .mxint8 0x40 = .num false 64 (-6)) ∧
    (127 < (quanta .rne false 1024 (-10 + (127 - 120) + 6) 0 false).1) ∧
    (∀ n m e, FVal.nan ≠ .num n m e) ∧ (0x3C00 : Nat) ≠ 0 ∧ ((-9 : Int) + Nat.log2 1024 ≤ -9 + Nat.log2 1024) := by
  refine ⟨by decide +kernel, by decide +kernel, by decide +kernel, by decide +kernel, fun _ _ _ h => by simp at h, by decide, by decide⟩

/-- IntegerConversions and SpecialFunctionPoints, at their operands in f32. -/
theorem witness_points : (tyInteger .i8 = true ∧ tyInteger .n64 = true ∧ tyInteger .f32 = false) ∧ fVal fmtF32 0x7FC00000 = .nan ∧
    fVal fmtF32 0x80000000 = .num true 0 (-149) ∧ fVal fmtF32 0x7F800000 = .inf false ∧ fVal fmtF32 0xFF800000 = .inf true ∧
    fVal fmtF32 0xBF800000 = .num true 0x800000 (-23) := by decide +kernel

/-- Shuffles, `shuf.bcast` from its lowest active lane and with none; `pfirst` with a lane and with none. -/
theorem witness_lowest :
    On (.shufBcast (vo .b64 2)) un (inAct (.shufBcast (vo .b64 2)) un (firstOf un) 0 ∧ ∀ l, inAct (.shufBcast (vo .b64 2)) un (firstOf un) l → 0 ≤ l) ∧
    On (.shufBcast { vo .b64 2 with g := b1 }) un (act (.shufBcast { vo .b64 2 with g := b1 }) un = 0) ∧
    On (.pfirst (po false)) (half un) ((predRead (half un) (po false).a).getLsbD 0 = true) ∧
    On (.pfirst (po false)) un (∀ l : Fin 32, (predRead un (po false).a).getLsbD l.val = false) :=
  ⟨meets rfl (by decide +kernel), meets rfl (by decide +kernel), meets rfl (by decide +kernel), meets rfl (by decide +kernel)⟩

/-- DecodeAndEncodeAgree: well-formed instructions of one and of two words have words. -/
theorem witness_words : (vectorForms ++ unitForms ++ jobForms).all (fun i => wellFormed i && (encode i).isSome) = true := by decide +kernel

/-- The state right after reset with an instruction placed, and its warp. -/
def placed (nbits w : Nat) : State := State.reset.withFetchWord nbits w
def placedWarp (nbits w : Nat) : Warp := placeWarp (decodeTableWord nbits w) 1 0

/-- A spot that an access comes to. -/
def gotSpot : Look → Spot
  | .ok p => p
  | _ => { part := 0, va := 0, pa := 0, e := { ctx := 0, base := 0, size := 0, pte := 0, leafAt := 0 }, kind := .package, scope := .core }

/-- What StepRunsDecoded asks of the words at a PC. -/
def runsAt (s : State) (w : Warp) (two : Bool) (i : Instr) : Prop :=
  let x := firstOf w
  let p := gotSpot (fetchLook s w x.pc)
  let q := gotSpot (fetchLook s w (x.pc + 8))
  s.turn = some (.issue w.id 0) ∧ fetchLook s w x.pc = .ok p ∧ localPa s w.core p = some 0x10000 ∧
    (readWord s.mem 0x10000).getLsbD 0 = two ∧ (two = true → fetchLook s w (x.pc + 8) = .ok q ∧ localPa s w.core q = some 0x10008) ∧
    decode (readWord s.mem 0x10000) (if two then readWord s.mem 0x10008 else 0) = .ok i

theorem witness_step : runsAt (placed 64 0x0000205000B02720) (placedWarp 64 0x0000205000B02720) false (.ld (mop g7 .n32 none 11 2)) ∧
    runsAt (placed 128 0x200002000000008131) (placedWarp 128 0x200002000000008131) true (.brd (byP 1) 8 32) ∧
    AtIssue (placed 64 0x0000205000B02720) (placedWarp 64 0x0000205000B02720) 0 (firstOf (placedWarp 64 0x0000205000B02720)) := by
  refine ⟨?_, ?_, ?_⟩
  · unfold runsAt; decide +kernel
  · unfold runsAt; decide +kernel
  · exact ⟨rfl, rfl, rfl⟩

/-! #### Control flow -/

/-- Two warps of a unit in one quadrant, and in two. -/
def un2 (id rank : Nat) (q : Fin 4) : Warp := newWarp id 0 0 q (.unit 5) rank 256 (BitVec.allOnes 32) 0 0x10000#64
def pair (w v : Warp) : State := { stage w unit0 with warps := [w, v] }

/-- A warp with an open bracket, with entries on its return stack, with its lanes in other splits, with records in use. -/
def inBr (w : Warp) : Warp := { w with bracket := some (0, 0xFF) }
def rets (n : Nat) (w : Warp) : Warp := { w with rstack := List.replicate n { link := 0x10040, mask := BitVec.allOnes 32 } }
def withSplit (k : Fin 8) (x : Split) (w : Warp) : Warp := setSplit w k (some x)
def rec0 : Rejoin := { rpc := 0x10080, dset := none, depth := 0, parent := none, memb := 3, arrn := 2, done := 0 }
def allRecs (w : Warp) : Warp := { w with recs := always 16 (some rec0) }
def recsBut15 (w : Warp) : Warp := { w with recs := tabulate 16 fun r => if r.val = 15 then none else some rec0 }

/-- A warp whose splits are parked at record 0, which still waits for a third; and one that has all three. -/
def parkedAt (m : Mask) (n : Nat) : Split := { x0 with pc := 0x10080, rpc := 0x10080, st := .parked, record := some 0, mask := m, timer := n }
def stuck : Warp :=
  { withSplit 2 (parkedAt 0xFFFF0000 2) (withSplit 0 (parkedAt 0xFFFF 1) un) with recs := un.recs.set 0 (some rec0) }
def blockedWarp : Warp := withSplit 0 { x0 with st := .blocked } un

theorem witness_oneIssue : ((attempts (pair un (un2 9 4 0))).any fun a => (attempts (pair un (un2 9 4 0))).any fun b =>
    a.w.core == b.w.core && a.w.quad == b.w.quad && a.w.id != b.w.id && b.issues && quadPick (pair un (un2 9 4 0)) (attempts (pair un (un2 9 4 0))) a) = true := by
  decide +kernel

theorem witness_issueFrame : NoDeadlock (counted (stage un unit0) un 0) (.nop g7) un 0 x0 := by
  have h : (findWarp (goOn (counted (stage un unit0) un 0) un.id 0 (x0.pc + BitVec.ofNat 64 (instrLen (.nop g7)))) un.id).all
      (fun y => (deadlocked (settleWarp (issueCount (goOn (counted (stage un unit0) un 0) un.id 0
        (x0.pc + BitVec.ofNat 64 (instrLen (.nop g7)))) y) 128 y)).isNone) = true := by decide +kernel
  intro y hy
  simpa using each h y hy

/-- RejoinDeadlock: every split parked with no record to release, and a split that is blocked. -/
theorem witness_deadlock : (findWarp (stage stuck unit0) stuck.id = some stuck ∧ validSplits stuck ≠ [] ∧
      (∀ y ∈ validSplits stuck, y.2.st = .parked) ∧ ∀ (r : Fin 16) (y : Rejoin), stuck.recs[r] = some y → releasable stuck r y = false) ∧
    findWarp (stage blockedWarp unit0) blockedWarp.id = some blockedWarp ∧ blockedWarp.live ≠ 0 ∧ (firstOf blockedWarp).st = .blocked ∧
      (∀ (j : Fin 8) (z : Split), blockedWarp.splits[j] = some z → parks blockedWarp j z = false) ∧
      ∀ (r : Fin 16) (z : Rejoin), blockedWarp.recs[r] = some z → releasable blockedWarp r z = false := by
  have a : ∀ r : Fin 16, (stuck.recs[r]).all (fun y => !releasable stuck r y) = true := by decide +kernel
  have b : ∀ j : Fin 8, (blockedWarp.splits[j]).all (fun y => !parks blockedWarp j y) = true := by decide +kernel
  have c : ∀ r : Fin 16, (blockedWarp.recs[r]).all (fun y => !releasable blockedWarp r y) = true := by decide +kernel
  exact ⟨⟨rfl, by decide +kernel, by decide +kernel, fun r y h => by simpa using each (a r) y h⟩, rfl, by decide +kernel, by decide +kernel,
    fun j z h => by simpa using each (b j) z h, fun r z h => by simpa using each (c r) z h⟩

/-- Branches: no lane, every lane and some lanes; in a bracket; and a division with a record, with the last record, and with none. -/
theorem witness_branches :
    On (.bra b1 2) un (act (.bra b1 2) un = 0) ∧ On (.bra g7 2) un (act (.bra g7 2) un ≠ 0 ∧ act (.bra g7 2) un = (firstOf un).mask) ∧
    On (.bra b1 2) (half un) (¬ oneWay (.bra b1 2) (half un) (firstOf un)) ∧
    On (.bra b1 2) (inBr (half un)) (¬ oneWay (.bra b1 2) (inBr (half un)) (firstOf un)) ∧
    On (.brd b1 2 4) (inBr un) ((inBr un).bracket ≠ none) ∧ On (.brd g7 2 4) un (un.bracket = none ∧ act (.brd g7 2 4) un = (firstOf un).mask) ∧
    On (.brd b1 2 4) un (un.bracket = none ∧ act (.brd b1 2 4) un = 0 ∧ (firstOf un).mask ≠ 0) ∧
    On (.brd b1 2 4) (half un) ((half un).bracket = none ∧ ¬ oneWay (.brd b1 2 4) (half un) (firstOf un)) :=
  ⟨meets rfl (by decide +kernel), meets rfl (by decide +kernel), meets rfl (by decide +kernel), meets rfl (by decide +kernel),
    meets rfl (by decide +kernel), meets rfl (by decide +kernel), meets rfl (by decide +kernel), meets rfl (by decide +kernel)⟩

/-- The division of the last clauses of Branches. -/
def divides (w : Warp) : Bool :=
  (divide (setSplit w 0 (some (countedSplit (stage w unit0) w (firstOf w)))) 0 { countedSplit (stage w unit0) w (firstOf w) with dr := (firstOf w).dr }
    [(0xFFFF, target (firstOf w) 2), ((firstOf w).mask &&& ~~~0xFFFF, (firstOf w).pc + 16)] (target (firstOf w) 4) ((firstOf w).pc + 16) true
    (firstOf w).depth).isSome

theorem witness_divisions : act (.brd b1 2 4) (half un) = 0xFFFF ∧ divides (half un) = true ∧
    divides (recsBut15 (half un)) = true ∧ divides (allRecs (half un)) = false ∧
    On (.brd b1 2 4) (allRecs (half un)) (¬ oneWay (.brd b1 2 4) (allRecs (half un)) (firstOf un)) :=
  ⟨by decide +kernel, by decide +kernel, by decide +kernel, by decide +kernel, meets rfl (by decide +kernel)⟩

/-- Lanes of a register that hold a target. -/
def withV (d : Fin 256) (v : Word) (w : Warp) : Warp := setV w d (BitVec.allOnes 32) fun _ => v

/-- CallsAndReturns: in a bracket, with a guard of two values, with none; at targets aligned and not; at 15 and 16 entries, at 1 and 0. -/
theorem witness_calls :
    (∀ i ∈ [Instr.jmpv b1 (.v 1) 2, .call b1 2, .callv b1 (.v 1), .ret b1],
      On i (inBr un) ((inBr un).bracket ≠ none) ∧ On i (half un) (¬ oneWay i (half un) (firstOf un)) ∧ On i un (un.bracket = none ∧ act i un = 0)) ∧
    On (.jmpv g7 (.v 1) 2) (withV 1 0x10008 un) (∀ l, reads (.jmpv g7 (.v 1) 2) (stage (withV 1 0x10008 un) unit0) (withV 1 0x10008 un) 0 (firstOf un)
      .b64 0 (.v 1) l = 0x10008 ∧ (0x10008#64).toNat % 8 = 0) ∧
    On (.jmpv g7 (.v 1) 2) (withV 1 0x10009 un) (∀ l, reads (.jmpv g7 (.v 1) 2) (stage (withV 1 0x10009 un) unit0) (withV 1 0x10009 un) 0 (firstOf un)
      .b64 0 (.v 1) l = 0x10009 ∧ (0x10009#64).toNat % 8 ≠ 0) ∧
    On (.call g7 2) (rets 15 un) ((rets 15 un).rstack.length < 16 ∧ act (.call g7 2) un = (firstOf un).mask ∧ (firstOf un).mask ≠ 0) ∧
    On (.call g7 2) (rets 16 un) (16 ≤ (rets 16 un).rstack.length) ∧
    On (.callv g7 (.v 1)) (rets 15 un) ((rets 15 un).rstack.length < 16) ∧ On (.callv g7 (.v 1)) (rets 16 un) (16 ≤ (rets 16 un).rstack.length) ∧
    On (.ret g7) (rets 1 un) ((rets 1 un).rstack = [] ++ [{ link := 0x10040, mask := (firstOf un).mask }]) ∧ On (.ret g7) un (un.rstack = []) := by
  refine ⟨?_, meets rfl (by decide +kernel), meets rfl (by decide +kernel), meets rfl (by decide +kernel), meets rfl (by decide +kernel),
    meets rfl (by decide +kernel), meets rfl (by decide +kernel), meets rfl (by decide +kernel), meets rfl (by decide +kernel)⟩
  intro i hi
  simp only [List.mem_cons, List.not_mem_nil, or_false] at hi
  rcases hi with rfl | rfl | rfl | rfl
  all_goals exact ⟨meets rfl (by decide +kernel), meets rfl (by decide +kernel), meets rfl (by decide +kernel)⟩

/-- CallsOfManyTargets: lanes with two targets, and with two entries of the return stack, of two links and of one; records and entries free, and
none. -/
def twoV (d : Fin 256) (a b : Word) (w : Warp) : Warp := setV w d (BitVec.allOnes 32) fun l => if l.val < 16 then a else b
def twoRets (a b : Word) (w : Warp) : Warp := { w with rstack := [{ link := a, mask := 0xFFFF }, { link := b, mask := 0xFFFF0000 }] }
def twoTops (a b : Word) (l : Fin 32) : RetEntry := if l.val < 16 then { link := a, mask := 0xFFFF } else { link := b, mask := 0xFFFF0000 }
def two (a b : Word) : List (Mask × Word) := [(0xFFFF, a), (0xFFFF0000, b)]
/-- A warp with every entry of its split table in use. -/
def full (w : Warp) : Warp := { w with splits := tabulate 8 fun k => if k.val = 0 then w.splits[(0 : Fin 8)] else some { x0 with mask := 0, age := 1 } }

/-- GroupsOf, as lists of lanes decide it. -/
def groupsHold (m : Mask) (f : Fin 32 → Word) (gs : List (Mask × Word)) : Bool :=
  let ls := List.finRange 32
  gs.all (fun q => q.1 != 0 && ls.all fun l => q.1.getLsbD l.val == (m.getLsbD l.val && f l == q.2)) &&
    ls.all (fun l => !m.getLsbD l.val || gs.any fun q => q.2 == f l) &&
    decide (gs.Pairwise fun a b =>
      (a.2 != b.2 && ls.any fun l => a.1.getLsbD l.val && ls.all fun k => !b.1.getLsbD k.val || decide (l.val < k.val)) = true)

theorem groups_of {m : Mask} {f : Fin 32 → Word} {gs : List (Mask × Word)} (h : groupsHold m f gs = true) : GroupsOf m f gs := by
  simp only [groupsHold, Bool.and_eq_true, Bool.or_eq_true, List.all_eq_true, List.any_eq_true, decide_eq_true_eq, bne_iff_ne,
    Bool.not_eq_true', beq_iff_eq, List.mem_finRange, true_and, true_implies] at h
  obtain ⟨⟨h1, h2⟩, h3⟩ := h
  refine ⟨fun q hq => ⟨(h1 q hq).1, fun l => ?_⟩, fun l hl => ?_, h3.imp fun hab => ⟨hab.1, ?_⟩⟩
  · rw [(h1 q hq).2 l]; simp
  · exact (h2 l).resolve_left (by simp [hl])
  · obtain ⟨l, hl, hk⟩ := hab.2
    exact ⟨l, hl, fun k hb => (hk k).resolve_left (by simp [hb])⟩

/-- What holds of every lane of a list of them holds of every lane. -/
theorem lanes {p : Fin 32 → Prop} [DecidablePred p] (h : ((List.finRange 32).all fun l => decide (p l)) = true) (l : Fin 32) : p l := by
  simpa using List.all_eq_true.mp h l (List.mem_finRange l)

theorem popped (a b : Word) : Popped (twoRets a b un).rstack (BitVec.allOnes 32) (twoTops a b) [] := by
  refine ⟨fun l => if l.val < 16 then 0 else 1, ?_, [{ link := a, mask := 0 }, { link := b, mask := 0 }], rfl, rfl, ?_⟩
  · intro l _
    have lo : ∀ l : Fin 32, l.val < 16 → (0xFFFF : Mask).getLsbD l.val = true ∧ (0xFFFF0000 : Mask).getLsbD l.val = false := lanes (by decide +kernel)
    have hi : ∀ l : Fin 32, ¬ l.val < 16 → (0xFFFF0000 : Mask).getLsbD l.val = true := lanes (by decide +kernel)
    by_cases h : l.val < 16
    · simp only [h, if_true, twoTops, twoRets]
      refine ⟨rfl, (lo l h).1, ?_⟩
      · intro j e hj he
        match j, hj with
        | 1, _ => simp at he; subst he; exact (lo l h).2
        | n + 2, _ => simp at he
    · simp only [h, if_false, twoTops, twoRets]
      refine ⟨rfl, hi l h, ?_⟩
      · intro j e hj he
        match j, hj with
        | n + 2, _ => simp at he
  · intro j e he
    match j with
    | 0 =>
      have z : ∀ l : Fin 32, (0 : Mask).getLsbD l.val = ((0xFFFF : Mask).getLsbD l.val && !((BitVec.allOnes 32).getLsbD l.val && (if l.val < 16 then 0 else 1) == 0)) :=
        lanes (by decide +kernel)
      simp [twoRets] at he; subst he; exact ⟨_, rfl, rfl, z⟩
    | 1 =>
      have z : ∀ l : Fin 32, (0 : Mask).getLsbD l.val = ((0xFFFF0000 : Mask).getLsbD l.val && !((BitVec.allOnes 32).getLsbD l.val && (if l.val < 16 then 0 else 1) == 1)) :=
        lanes (by decide +kernel)
      simp [twoRets] at he; subst he; exact ⟨_, rfl, rfl, z⟩
    | n + 2 => simp [twoRets] at he

theorem witness_manyTargets :
    (∀ i ∈ [Instr.jmpv g7 (.v 1) 2, .callv g7 (.v 1)],
      On i (twoV 1 0x10008 0x10010 un) (un.bracket = none ∧ (firstOf un).mask ≠ 0 ∧ act i (twoV 1 0x10008 0x10010 un) = (firstOf un).mask ∧ un.rstack.length < 16) ∧
      GroupsOf (firstOf un).mask (reads i (stage (twoV 1 0x10008 0x10010 un) unit0) (twoV 1 0x10008 0x10010 un) 0 x0 .b64 0 (.v 1)) (two 0x10008 0x10010)) ∧
    On (.ret g7) (twoRets 0x10040 0x10048 un) True ∧ Popped (twoRets 0x10040 0x10048 un).rstack (BitVec.allOnes 32) (twoTops 0x10040 0x10048) [] ∧
    GroupsOf (firstOf un).mask (fun l => (twoTops 0x10040 0x10048 l).link) (two 0x10040 0x10048) ∧
    GroupsOf (firstOf un).mask (fun l => (twoTops 0x10040 0x10040 l).link) [((firstOf un).mask, 0x10040)] ∧
    ((divide un 0 x0 (two 0x10008 0x10010) 0 0 true 0).isSome = true ∧ (divide (allRecs un) 0 x0 (two 0x10008 0x10010) 0 0 true 0).isNone = true ∧
      (divide un 0 x0 (two 0x10040 0x10048) 0 0 false 0).isSome = true ∧ (divide (full un) 0 x0 (two 0x10040 0x10048) 0 0 false 0).isNone = true) := by
  refine ⟨?_, meets rfl (by decide +kernel), popped _ _, groups_of (by decide +kernel), groups_of (by decide +kernel), by decide +kernel⟩
  intro i hi
  simp only [List.mem_cons, List.not_mem_nil, or_false] at hi
  rcases hi with rfl | rfl
  all_goals exact ⟨meets rfl (by decide +kernel), groups_of (by decide +kernel)⟩

/-- Brackets: each instruction in a bracket and outside one, and the other splits of a warp with an open bracket. -/
theorem witness_brackets : On .allon un (un.bracket = none) ∧ On .allon (inBr un) ((inBr un).bracket ≠ none) ∧
    On .alloff (inBr un) ((inBr un).bracket = some (0, 0xFF)) ∧ On .alloff un (un.bracket = none) ∧
    ((inBr un).handler = none ∧ mayTry (inBr un) 0 x0 = true) :=
  ⟨meets rfl (by decide +kernel), meets rfl (by decide +kernel), meets rfl (by decide +kernel), meets rfl (by decide +kernel), by decide +kernel⟩

/-- Barriers: the last arrival, one that is not, and a wait for a generation that has passed and for one that has not. -/
theorem witness_barriers : (unitOf (stage un unit0) un = some unit0 ∧ unit0.bars[(1 : Fin 16)].arr.getLsbD un.rank = false) ∧
    On (.barArv g7 1) un (act (.barArv g7 1) un ≠ 0) ∧
    On (.bar g7 1) un (act (.bar g7 1) un ≠ 0 ∧ NoLinkReads (stage un unit0) un ∧ (firstOf un).timer = 0 ∧
      expectedWarps (stage un unit0) 5 &&& ~~~(1 : Mask) = 0) ∧
    Meets (.bar g7 1) (pair un (un2 9 1 1)) un (NoLinkReads (pair un (un2 9 1 1)) un ∧ ¬ expectedWarps (pair un (un2 9 1 1)) 5 &&& ~~~(1 : Mask) = 0) ∧
    On (.barWt g7 1) un (un.last[(1 : Fin 16)] ≠ some unit0.bars[(1 : Fin 16)].gen) ∧
    On (.barWt g7 1) { un with last := un.last.set 1 (some 0) } ((un.last.set 1 (some 0))[(1 : Fin 16)] = some unit0.bars[(1 : Fin 16)].gen) ∧
    On (.bar b1 1) un (act (.bar b1 1) un = 0) :=
  ⟨⟨rfl, by decide +kernel⟩, meets rfl (by decide +kernel), meets rfl (by decide +kernel), meets rfl (by decide +kernel), meets rfl (by decide +kernel),
    meets rfl (by decide +kernel), meets rfl (by decide +kernel)⟩

/-- OtherBarriers: a job warp; a split that waits for phase 0, which is open, and for phase 1, which is not; an arrival that was made. -/
def waitsFor (n : Nat) (w : Warp) : Warp := withSplit 0 { x0 with st := .blocked, timer := n + 1 } w
def arrived (u : UnitSt) : UnitSt := { u with bars := u.bars.set 1 { gen := 0, arr := 1 } }
theorem witness_otherBarriers :
    (∀ i ∈ [Instr.bar g7 1, .barArv g7 1, .barWt g7 1], On i jw (unitOf (stage jw unit0) jw = none ∧ act i jw ≠ 0 ∧ NoLinkReads (stage jw unit0) jw ∧
      NoFarWrites (stage jw unit0) jw.ctx ∧ (firstOf jw).timer = 0)) ∧
    (∀ i ∈ [Instr.bar g7 1, .barWt g7 1], ∀ n ∈ [(0 : BitVec 32), 1], On i (waitsFor n.toNat un) ((firstOf (waitsFor n.toNat un)).timer = n.toNat + 1 ∧
      (firstOf (waitsFor n.toNat un)).st = .blocked ∧ NoLinkReads (stage (waitsFor n.toNat un) unit0) (waitsFor n.toNat un))) ∧
    unit0.bars[(1 : Fin 16)].gen = 0 ∧
    (∀ i ∈ [Instr.bar g7 1, .barArv g7 1], Meets i (stage { un with last := un.last.set 1 (some 0) } (arrived unit0)) { un with last := un.last.set 1 (some 0) }
      (unitOf (stage un (arrived unit0)) un = some (arrived unit0) ∧ (arrived unit0).bars[(1 : Fin 16)].arr.getLsbD un.rank = true ∧
        (un.last.set 1 (some 0))[(1 : Fin 16)] = some (arrived unit0).bars[(1 : Fin 16)].gen)) := by
  refine ⟨?_, ?_, rfl, ?_⟩
  · intro i hi
    simp only [List.mem_cons, List.not_mem_nil, or_false] at hi
    rcases hi with rfl | rfl | rfl
    all_goals exact meets rfl (by decide +kernel)
  · intro i hi n hn
    simp only [List.mem_cons, List.not_mem_nil, or_false] at hi hn
    rcases hi with rfl | rfl <;> rcases hn with rfl | rfl
    all_goals exact meets rfl (by decide +kernel)
  · intro i hi
    simp only [List.mem_cons, List.not_mem_nil, or_false] at hi
    rcases hi with rfl | rfl
    all_goals exact meets rfl (by decide +kernel)

/-- A warp at issue in the state of the tests. -/
theorem at_issue (w : Warp) (x : Split) (h : w.splits[(0 : Fin 8)] = some x) : AtIssue (stage w unit0) w 0 x :=
  ⟨rfl, by simp [findWarp, stage], h⟩

/-- WordFaultsAndWaits: ill-formed words; a fence at package scope in LOCAL mode; an instruction of the work group and `rett` in a warp of a
unit; a register that the warp has not; and a register that is pending. -/
theorem witness_wordFaults :
    (∀ i ∈ [Instr.vadd { vo .b64 2 with sat := true }, .vmov { vo .n32 1 with d := 255 }, .phase], (encode i).isSome = true) ∧
    wellFormed (.vadd { vo .b64 2 with sat := true }) = false ∧
    wordFault (.vadd { vo .b64 2 with sat := true }) (stage un unit0) un x0 = some 1 ∧
    (modCtx (stage un unit0) 0 fun c => { c with mode := true }).ctxs[un.ctx].mode = true ∧
    (un.kind = .unit 5 ∧ wellFormed .phase = true ∧ illegalHere .phase (stage un unit0) un = false ∧ isWork .phase = true) ∧
    (wellFormed .rett = true ∧ illegalHere .rett (stage un unit0) un = false ∧ un.handler = none) ∧
    (wellFormed (.trap g7 (.s 1) 0) = true ∧ illegalHere (.trap g7 (.s 1) 0) (stage un unit0) un = false) ∧
    (wellFormed (.vmov (vo .n32 1)) = true ∧ ({ un with vcount := 3 } : Warp).vcount ≤ (vo .n32 1).d.val ∧ un.halting = false) ∧
    (wordFault (.vmov (vo .n32 1)) (stage (pendV un 3) unit0) (pendV un 3) x0 = none ∧ pendingRegister (pendV un 3) (namedOf (.vmov (vo .n32 1))) = true) := by
  decide +kernel

/-- PrivilegeFaults and RegisterFaults: a job warp, and a warp of a unit in its handler and outside it; a warp that halts, before the drought and
at it; and forms that name registers, tiles and contexts that the unit has and has not. -/
theorem witness_registerFaults :
    (onDispatch jw = true ∧ un.kind = .unit 5 ∧ un.handler = none ∧ un.halting = false) ∧
    ([Instr.phase, .fltnext, .halt, .tlbinv g7 4 (.s 1) (.s 2) 0, .rett, .sysrd g7 3 .tepc, .syswr g7 .tepc (.s 1) 0, .trap g7 (.s 1) 0].all
      fun i => wellFormed i && !illegalHere i (stage un unit0) un) = true ∧
    (wordFault (.nop g7) (stage un unit0) { un with halting := true } { x0 with count := 1024 } = some 0x13 ∧
      wordFault (.nop g7) (stage un unit0) { un with halting := true } { x0 with count := 1023 } = none) ∧
    ([Instr.vadd (vo .n32 2), .vmad (vo .n32 3), .vcmp .lt { vo .n32 2 with d := 2 }, .ld mo, .atom .cas mo, .mzero { xo with t := 2, hn := 4 }, .xsync 1
      , .xnext 1 10 2].all fun i => wellFormed i && !illegalHere i (stage un unit0) un && !privileged i un && wordFault i (stage un unit0) un x0 == none) = true ∧
    ([Instr.vadd (vo .n32 2), .vmad (vo .n32 3), .vcmp .lt { vo .n32 2 with d := 2 }, .ld mo, .atom .cas mo, .xnext 1 10 2].all
      fun i => wordFault i (stage { un with vcount := 2 } unit0) { un with vcount := 2 } x0 == some 2) = true := by decide +kernel

/-- DivideAndRejoin: a record with its two members there, one with deferred lanes, one with no member and lanes done, one with no lane left; and
divisions that find record 0 free, record 15, and none. -/
def joinedBy (y : Rejoin) : Warp := { stuck with recs := un.recs.set 0 (some y) }
def joined : Warp := joinedBy { rec0 with memb := 2 }
def soleRec (y : Rejoin) : Warp := { un with recs := un.recs.set 0 (some y) }
def drSplit : Split := { x0 with dr := true, record := some 0 }

theorem released {w : Warp} (h : ((List.finRange 8).all fun k => w.splits[k].all fun x => !parks w k x) = true) :
    ∀ (k : Fin 8) (x : Split), w.splits[k] = some x → parks w k x = false := by
  intro k x hx
  have := List.all_eq_true.mp h k (List.mem_finRange k)
  simpa using each this x hx

theorem witness_rejoin :
    ((∀ (k : Fin 8) (x : Split), joined.splits[k] = some x → parks joined k x = false) ∧
      joined.recs[(0 : Fin 16)] = some { rec0 with memb := 2 } ∧ membersOf joined 0 = [(0, parkedAt 0xFFFF 1), (2, parkedAt 0xFFFF0000 2)] ∧
      (∀ q ∈ membersOf joined 0, q.2.depth = rec0.depth) ∧ rec0.parent ≠ some 0 ∧ rec0.dset = none ∧
      (membersOf joined 0).foldl (fun m q => m ||| q.2.mask) 0 ≠ 0 ∧ ∀ (q : Fin 16) z, q < 0 → joined.recs[q] = some z → releasable joined q z = false) ∧
    (releasable (joinedBy { rec0 with memb := 2, dset := some (1, 0x10040) }) 0 { rec0 with memb := 2, dset := some (1, 0x10040) } = true) ∧
    ((∀ (k : Fin 8) (x : Split), (soleRec { rec0 with memb := 0, arrn := 0, done := 1 }).splits[k] = some x →
        parks (soleRec { rec0 with memb := 0, arrn := 0, done := 1 }) k x = false) ∧ membersOf (soleRec { rec0 with memb := 0, arrn := 0, done := 1 }) 0 = [] ∧
      (soleRec { rec0 with memb := 0, arrn := 0 }).splits[(1 : Fin 8)] = none ∧ (soleRec { rec0 with memb := 0, arrn := 0 }).splits[(0 : Fin 8)] ≠ none) ∧
    (un.splits[(0 : Fin 8)] = some x0 ∧ x0.dr = false ∧ un.recs[(0 : Fin 16)] = none) ∧
    ((recsBut15 un).recs[(15 : Fin 16)] = none ∧ ∀ q : Fin 16, q < 15 → (recsBut15 un).recs[q] ≠ none) := by
  refine ⟨⟨released (by decide +kernel), by decide +kernel, by decide +kernel, by decide +kernel, by decide, rfl, by decide +kernel,
    fun q z hq _ => absurd hq (Fin.not_lt_zero q)⟩, by decide +kernel, ⟨released (by decide +kernel), by decide +kernel⟩, by decide +kernel, by decide +kernel⟩

/-- DivisionInRecord: a return with every entry in use; no record free; a split with DR set whose record is 0; and one of no record. -/
theorem witness_inRecord : (full un).splits[(0 : Fin 8)] = some x0 ∧ (two 0 8).drop (seats (full un) 0).length ≠ [] ∧
    (∀ q : Fin 16, (allRecs un).recs[q] ≠ none) ∧ (two 0 8).drop (seats (soleRec rec0) 0).length = [] ∧
    (drSplit.dr = true ∧ drSplit.record = some 0 ∧ (soleRec rec0).recs[(0 : Fin 16)] = some rec0) ∧ x0.record = none := by decide +kernel

/-! #### Exceptions, handles, ordering and the system group -/

def withS (d : Fin 128) (v : Word) (w : Warp) : Warp := setS w d v
def withH (n : Fin 16) (h : BitVec 32) (w : Warp) : Warp := setH w n h

/-- A handle-table entry of the warp of the tests, or of its unit. -/
def hent (slot cls : Nat) (st : HState) (cause : Nat) (o : Owner) : HEntry :=
  { slot := slot, gen := 1, st := st, cls := cls, eng := 0, owner := o, creator := 7, status := 0, cause := cause, va := 0, pte := 0, elem := 0
    finalAt := 0, cancelReq := false, wscope := .die }
def pend (n : Nat) : List HEntry := (List.range n).map fun k => hent k 1 .pending 0 (.unit 5)

/-- The state of the tests with some change to its context, and with a change to it as a whole. -/
def inCtx (w : Warp) (f : Ctx → Ctx) : State := modCtx (stage w unit0) 0 f
def withHandles (w : Warp) (hs : List HEntry) : State := inCtx w fun x => { x with handles := hs }

/-- HandlerEntry: a job warp with a handler and route 0 for cause 3; for cause 0x0016 too. -/
def handling (w : Warp) : State := inCtx w fun x => { x with route := 0, tvec := 0x10000 }

def haltingNow (s : State) : State := modCtx s 0 fun x => { x with st := .halting }

/-- SpecialValues: a warp of a unit, a job warp and a fault-service warp; a context that runs and one that halts. -/
theorem witness_special : (unitOf (stage un unit0) un = some unit0 ∧ launchOf (stage un unit0) unit0 = some wideLaunch) ∧
    (onDispatch jw = true ∧ isJob jw = true) ∧ (onDispatch sv = true ∧ isService sv = true) ∧
    (haltingNow (stage un unit0)).ctxs[un.ctx].st ∈ [CState.halting, .halted] ∧ (stage un unit0).ctxs[un.ctx].st ∉ [CState.halting, .halted] := by
  decide +kernel

theorem witness_handlerEntry : findWarp (handling jw) jw.id = some jw ∧ jw.splits[(0 : Fin 8)] = some x0 ∧
    routeOf (handling jw) jw 3 = 0 ∧ routeOf (handling jw) jw 0x16 = 0 ∧ (handling jw).ctxs[jw.ctx].st ≠ .halting ∧ (faultOf 3).ecc = none :=
  ⟨rfl, rfl, by decide +kernel, by decide +kernel, by decide +kernel, rfl⟩

/-- The fault that DriverRecord records. -/
def waits3 (w : Warp) (s : State) (cause : Nat) : WaitFault :=
  { ctx := w.ctx, cause := cause, va := 0, route := routeOf s w cause, words := recordWords s w (firstOf w).mask 0 0 (faultOf cause) (routeOf s w cause)
    split := (w.id, 0), handle := 0, elem := 0, ends := false }
/-- Route 2 for cause 3, with a fault-service vector; and a fault buffer whose slots are all taken. -/
def serviced (w : Warp) : State := inCtx w fun x => { x with route := 0x80, svec := 0x10000 }
def slotRec (n : Nat) : SlotRec :=
  { slot := n, ctx := 0, cause := 3, va := 0, route := 1, words := [], splits := [(7, 0)], handle := 0, elem := 0 }

theorem witness_driverRecord : findWarp (stage un unit0) un.id = some un ∧ un.splits[(0 : Fin 8)] = some x0 ∧ resumable 3 = true ∧
    un.handler = none ∧ isService un = false ∧ (stage un unit0).ctxs[un.ctx].st ≠ .halting ∧ routeOf (stage un unit0) un 3 = 1 ∧ routeOf (serviced un) un 3 = 2 ∧
    (joinRecord (stage un unit0) 0 (waits3 un (stage un unit0) 3)).isNone = true ∧
    freeSlot (stage un unit0).dies[(0 : Fin 2)].slots Config.faultSlots 0 = some 0 ∧
    freeSlot ((List.range 64).map slotRec) 64 0 = none ∧ freeSlot ((List.range 63).map slotRec) 64 0 = some 63 := by
  refine ⟨rfl, rfl, ?_⟩; decide +kernel

/-- FaultsWaitForResume: a fault of a context that halts, to the handler and to the driver; and one that waits with its context. -/
def awaits (route : Nat) (w : Warp) : State := inCtx w fun x =>
  { x with await := [{ die := 0, act := 1, lanes := 1, again := 0x10000, q := { waits3 w (stage w unit0) 3 with route := route } }] }
theorem witness_faultsWait : findWarp (haltingNow (handling jw)) jw.id = some jw ∧ jw.splits[(0 : Fin 8)] = some x0 ∧
    (haltingNow (handling jw)).ctxs[jw.ctx].st = .halting ∧ routeOf (haltingNow (handling jw)) jw 3 = 0 ∧ routeOf (haltingNow (stage un unit0)) un 3 = 1 ∧
    (∀ r ∈ [0, 1], ((awaits r jw).ctxs[(0 : Fin 64)].await.map fun a => (a.q.split.1, a.q.route)) = [(jw.id, r)]) ∧
    findWarp (awaits 0 jw) jw.id = some jw ∧ jw.handler = none := by
  refine ⟨rfl, rfl, by decide +kernel, by decide +kernel, by decide +kernel, by decide +kernel, rfl, rfl⟩

/-- LastFault: a cause that is not resumable, a fault in handler mode and one of a fault-service warp. -/
theorem witness_lastFault : routeOf (stage un unit0) un 1 ≠ 0 ∧ resumable 1 = false ∧ routeOf (handling { jw with handler := some 0 }) { jw with handler := some 0 } 3 ≠ 0 ∧
    routeOf (stage sv unit0) sv 3 ≠ 0 ∧ isService sv = true ∧ (placeRecord (stage un unit0) 0 { waits3 un (stage un unit0) 1 with ends := true }).isSome = true := by
  decide +kernel

/-- FaultEndsContext in each of its states, HandleAllocation with an empty table and with one whose lower slots are live, WriteBack. -/
theorem witness_ends : (stage un unit0).ctxs[(0 : Fin 64)].st = .running ∧ (inCtx un fun x => { x with st := .halting }).ctxs[(0 : Fin 64)].st = .halting ∧
    (inCtx un fun x => { x with st := .halted }).ctxs[(0 : Fin 64)].st = .halted ∧
    (∀ n, n < 3 → ((withHandles un (pend 3)).ctxs[un.ctx].handles.any fun e => e.slot == n && e.st != .free) = true) ∧
    ((withHandles un (pend 3)).ctxs[un.ctx].handles.any fun e => e.slot == 3 && e.st != .free) = false ∧
    Memory.wf (stage un unit0).mem = true := by decide +kernel

/-- A link access of the warp of the tests. -/
def link (k : LinkKind) (sys : Bool) : LinkOp :=
  { tag := 3, sys := sys, kind := k, warp := 7, lane := 0, reg := 0, result := none, copy := none, va := 0, pa := 0, bytes := 8, since := 0, op := .add
    ty := .n64, x := 0, y := 0, expect := none, die := 0, ctx := 0, wants := [], flushed := [], pages := [] }
def withLink (k : LinkKind) (sys : Bool) : State := { stage un unit0 with links := [link k sys] }
def inval (again : Bool) : Packet := { dir := 0, src := 0, dst := 0, seq := 0, flits := 1, body := .inval 0 none, again := again }
def withPacket : State := { stage un unit0 with bridge := { Bridge.reset with queue := [inval false] } }
def bridgeAt (down : Bool) : State := { stage un unit0 with bridge := { Bridge.reset with queue := [inval false], down := down } }
/-- The state of the tests with a dirty line in the L1 of core 0: one of die 1 while the bridge retrains, and while it is down. -/
def dirtyL1 (line : Nat) (s : State) : State := modCore s 0 fun c =>
  { c with l1 := [{ line := line, scope := .die, data := 0, valid := 15, dirty := 1, hint := 0, used := 0, owner := some 0, poison := 0, renewed := 0 }] }
def stalledL1 : State :=
  { modDie (dirtyL1 (2 ^ 32) (stage un unit0)) 1 (fun d => { d with dstate := .online }) with bridge := { Bridge.reset with retrain := some 0 } }
def lostL1 : State := { dirtyL1 (2 ^ 32) (stage un unit0) with bridge := { Bridge.reset with down := true } }
def lateWarp : Warp := { un with late := [{ cause := 0x19, va := 8, lanes := 1 }] }

theorem witness_fences :
    On (.fence g7 .acq .system) un (act (.fence g7 .acq .system) un ≠ 0 ∧ NoLinkReads (stage un unit0) un ∧ (stage un unit0).host.up = true) ∧
    Meets (.fence g7 .acq .domain) (withLink .read false) un (¬ NoLinkReads (withLink .read false) un) ∧
    On (.fence g7 .rel .core) un (NoLinkReads (stage un unit0) un ∧ NoFarWrites (stage un unit0) un.ctx) ∧
    On (.fence g7 .ar .package) un (NoDirty (cleaned (counted (stage un unit0) un 0) un .package) 0 wideLine ∧
      Across (cleaned (counted (stage un unit0) un 0) un .package) un.ctx ∧ NoFarWrites (stage un unit0) un.ctx ∧ NoLinkReads (stage un unit0) un) ∧
    (∀ down : Bool, Meets (.fence g7 .ar .package) (bridgeAt down) un (NoDirty (cleaned (counted (bridgeAt down) un 0) un .package) 0 wideLine ∧
      ¬ Across (cleaned (counted (bridgeAt down) un 0) un .package) un.ctx ∧ (bridgeAt down).bridge.down = down)) ∧
    Meets (.fence g7 .rel .die) (withLink .write false) un (NoDirty (cleaned (counted (withLink .write false) un 0) un .die) 0 wideLine ∧
      ¬ NoFarWrites (withLink .write false) un.ctx) ∧
    NoPosted (stage un unit0) un ∧
    On (.fence g7 .rel .system) un (NoDirty (cleaned (counted (stage un unit0) un 0) un .system) 0 wideLine ∧
      Across (cleaned (counted (stage un unit0) un 0) un .system) un.ctx ∧ un.late = []) ∧
    On (.fence g7 .rel .domain) lateWarp (lateWarp.late = [{ cause := 0x19, va := 8, lanes := 1 }]) ∧
    On (.fence b1 .rel .die) un (act (.fence b1 .rel .die) un = 0) ∧
    (∀ i ∈ [Instr.l1flush g7, .l1flushInv g7],
      Meets i (withLink .write false) un (∃ l ∈ (withLink .write false).links, l.warp = un.id ∧ l.ctx = un.ctx ∧ l.copy = none ∧ l.sys = false ∧ l.kind = .write) ∧
      On i un (NoFarWrites (stage un unit0) un.ctx ∧ NoDirty (l1Clean (counted (stage un unit0) un 0) 0 fun _ => true) 0 fun _ => true) ∧
      Meets i stalledL1 un ((∃ l ∈ (l1Clean (counted stalledL1 un 0) 0 fun _ => true).cores[(0 : Fin 384)].l1, l.dirty ≠ 0) ∧
        ∀ l ∈ (l1Clean (counted stalledL1 un 0) 0 fun _ => true).cores[(0 : Fin 384)].l1, l.dirty ≠ 0 →
          lineReach (l1Clean (counted stalledL1 un 0) 0 fun _ => true) 0 l.line = true ∧ lineFree (l1Clean (counted stalledL1 un 0) 0 fun _ => true) 0 l = false)) := by
  refine ⟨meets rfl (by decide +kernel), meets rfl (by decide +kernel), meets rfl (by decide +kernel), meets rfl (by decide +kernel), ?_,
    meets rfl (by decide +kernel), ⟨by decide +kernel, fun y hy => absurd hy (List.not_mem_nil (a := y))⟩, meets rfl (by decide +kernel),
    meets rfl (by decide +kernel), meets rfl (by decide +kernel), ?_⟩
  · intro down
    cases down
    all_goals exact meets rfl (by decide +kernel)
  intro i hi
  simp only [List.mem_cons, List.not_mem_nil, or_false] at hi
  rcases hi with rfl | rfl
  all_goals exact ⟨meets rfl (by decide +kernel), meets rfl (by decide +kernel), meets rfl (by decide +kernel)⟩

/-- WriteBack: a line that is written back, and one of the other die that the bridge, being down, keeps. -/
theorem witness_writeBack : memoryOk stalledL1 ∧ memoryOk lostL1 ∧ lostL1.bridge.down = true ∧
    (∀ l ∈ lostL1.cores[(0 : Fin 384)].l1, l.dirty ≠ 0 ∧ dieOf (l.line * 256) ≠ 0 ∧ lostL1.dies[dieOf (l.line * 256)].fwd.contains l.line = false) ∧
    (∀ l ∈ (dirtyL1 0x100 (stage un unit0)).cores[(0 : Fin 384)].l1, dieOf (l.line * 256) = 0 ∧ l.dirty.getLsbD 0 = true) := by
  unfold memoryOk; decide +kernel

/-- SystemOperations: a release that goes on; room for a handle and none; operands that `carve` and `dirtyclr` refuse, do at once and enter. -/
def partitioned (w : Warp) : State := { stage w unit0 with parts := Vector.set (always 24 Part.reset) 0 { Part.reset with valid := true, isl0 := 1 } }

theorem witness_systemOps :
    On (.tlbinv g7 4 (.s 1) (.s 2) 0) jw (act (.tlbinv g7 4 (.s 1) (.s 2) 0) jw ≠ 0 ∧ releases (counted (stage jw unit0) jw 0) jw .package = true ∧
      (handleRoom (counted (stage jw unit0) jw 0) jw 4).isSome = true) ∧
    Meets (.carve g7 4 (.s 1) (.s 2) 0) (withHandles jw (pend 16)) jw ((handleRoom (counted (withHandles jw (pend 16)) jw 0) jw 4).isNone = true) ∧
    Meets (.carve g7 4 (.s 1) (.s 2) 0) (withHandles jw (pend 15)) jw ((handleRoom (counted (withHandles jw (pend 15)) jw 0) jw 4).isSome = true) ∧
    Meets (.tlbinv g7 4 (.s 1) (.s 2) 0) (withHandles jw (pend 16)) jw
      ((match releaseAt (counted (withHandles jw (pend 16)) jw 0) jw .package with | .ok u => (handleRoom u jw 4).isNone | _ => false) = true) ∧
    Meets (.dirtyclr g7 4 (.s 1) (.s 2) (.s 3) 0) (withHandles jw (pend 16)) jw ((handleRoom (counted (withHandles jw (pend 16)) jw 0) jw 4).isNone = true) ∧
    On (.carve g7 4 (.s 1) (.s 2) 0) (withS 2 (2 ^ 21) jw) (ppwOk (2 ^ 21) = false) ∧
    On (.carve g7 4 (.s 1) (.s 2) 0) (withS 1 384 jw) (ppwOk 0 = true ∧ 384 ≤ (sreg (withS 1 384 jw) 1).toNat) ∧
    On (.carve g7 4 (.s 1) (.s 2) 0) (withS 1 383 jw) (partHolds (partOfCtx (stage jw unit0) 0) 383 = false) ∧
    Meets (.carve g7 4 (.s 1) (.s 2) 0) (partitioned (withS 1 2 jw)) (withS 1 2 jw)
      (isDispatch (partitioned jw) 2 = false ∧ partHolds (partOfCtx (partitioned jw) 0) 2 = true ∧ (partitioned jw).carves = [] ∧
        (partitioned jw).cores[(2 : Fin 384)].ppw = 0) ∧
    On (.dirtyclr g7 4 (.s 1) (.s 2) (.s 3) 0) (withS 1 1 jw) ((sreg (withS 1 1 jw) 1).toNat % 64 ≠ 0) ∧
    On (.dirtyclr g7 4 (.s 1) (.s 2) (.s 3) 0) (withS 1 (2 ^ 25) (withS 2 64 jw)) (2 ^ 25 < (2 ^ 25 : Nat) + 64) ∧
    On (.dirtyclr g7 4 (.s 1) (.s 2) (.s 3) 0) (withS 1 (2 ^ 25) jw) (sreg (withS 1 (2 ^ 25) jw) 2 = 0) ∧
    On (.dirtyclr g7 4 (.s 1) (.s 2) (.s 3) 0) (withS 2 (2 ^ 25) jw) ((sreg (withS 2 (2 ^ 25) jw) 2).toNat ≤ 2 ^ 25) :=
  ⟨meets rfl (by decide +kernel), meets rfl (by decide +kernel), meets rfl (by decide +kernel), meets rfl (by decide +kernel), meets rfl (by decide +kernel), meets rfl (by decide +kernel), meets rfl (by decide +kernel),
    meets rfl (by decide +kernel), meets rfl (by decide +kernel), meets rfl (by decide +kernel), meets rfl (by decide +kernel), meets rfl (by decide +kernel),
    meets rfl (by decide +kernel)⟩

/-- A fault-service warp that serves slot 0, with and without another slot that waits. -/
def serving (starts : List StartReq) (w : Warp := sv) : State :=
  modDie { stage w unit0 with starts := Vector.set (always 2 []) 0 starts } 0 fun d => { d with slots := [slotRec 0, slotRec 9] }

theorem witness_service :
    Meets .fltnext (serving []) sv (sv.kind = .service 0 (some 0) ∧ (sreg sv 1).toNat = 0 ∧ releases (counted (serving []) sv 0) sv .package = true ∧
      waitingSlot (retireSlot (serving []) 0 0) 0 0 = none) ∧
    Meets .fltnext (serving [.service 0 9]) sv (waitingSlot (retireSlot (serving [.service 0 9]) 0 0) 0 0 = some 9) ∧
    Meets .fltnext (serving [] (withS 1 1 sv)) (withS 1 1 sv) ((sreg (withS 1 1 sv) 1).toNat ≠ 0) :=
  ⟨meets rfl (by decide +kernel), meets rfl (by decide +kernel), meets rfl (by decide +kernel)⟩

theorem witness_halt : On .halt jw ((stage jw unit0).ctxs[jw.ctx].st = .running) ∧
    On (.ptwr g7 3 (.s 1) (.s 2) 0) (withS 1 0x10008 jw) (act (.ptwr g7 3 (.s 1) (.s 2) 0) (withS 1 0x10008 jw) ≠ 0 ∧
      (let p := gotSpot (ptwrLook (stage jw unit0) jw 0x10008)
       p.part = 0 ∧ ptwrLook (counted (stage jw unit0) jw 0) jw 0x10008 = .ok p ∧ Passes (ptwrStages (counted (stage jw unit0) jw 0) jw) p ∧
         AllDirty [((0 : Fin 32), p)] ∧ p.pa % 8 = 0) ∧
      releases (counted (stage jw unit0) jw 0) jw .package = true ∧ walkStalled (counted (stage jw unit0) jw 0) 0 = false) :=
  ⟨meets rfl (by decide +kernel), by unfold Passes; exact meets rfl (by decide +kernel)⟩

/-- FaultRouting, for each route and each kind of warp. -/
theorem witness_routes : (bitsOf (stage un unit0).ctxs[un.ctx].route 6 2 = 3 ∧ isService sv = true ∧ isJob jw = true) ∧
    ((handling jw).ctxs[jw.ctx].tvec ≠ 0 ∧ trapEnabled (handling jw) jw = true ∧ bitsOf (handling jw).ctxs[jw.ctx].route 6 2 = 0) ∧
    (trapEnabled (handling un) un = false ∧ bitsOf (handling un).ctxs[un.ctx].route 6 2 = 0) ∧
    (bitsOf (serviced un).ctxs[un.ctx].route 6 2 = 2 ∧ (serviced un).ctxs[un.ctx].svec ≠ 0) ∧
    (inCtx un fun x => { x with route := 0x80 }).ctxs[un.ctx].svec = 0 ∧
    bitsOf (inCtx un fun x => { x with route := 0x40 }).ctxs[un.ctx].route 6 2 = 1 := by decide +kernel

/-- A warp in its handler, which serves a cause. -/
def handler (cause : Nat) : Warp := { jw with handler := some 0, trec := jw.trec.set 0 (BitVec.ofNat 64 (cause * 2 ^ 48)) }

theorem witness_traps :
    On (.trap g7 (.s 1) 0) un (act (.trap g7 (.s 1) 0) un ≠ 0) ∧ On (.trap b1 (.s 1) 0) un (act (.trap b1 (.s 1) 0) un = 0) ∧
    On .rett (handler 3) ((handler 3).handler ≠ none ∧ bitsOf (handler 3).trec[0] 48 16 = 3) ∧
    On .rett (handler 1) (resumable (bitsOf (handler 1).trec[0] 48 16) = false) ∧
    (∀ n ∈ [SysReg.trec 7, .tepc, .tmask, .route, .tvec, .svec], On (.sysrd g7 3 n) (handler 3) True) ∧
    On (.syswr g7 .tepc (.s 1) 0) (handler 3) (act (.syswr g7 .tepc (.s 1) 0) (handler 3) ≠ 0 ∧ (sreg (handler 3) 1).toNat % 8 = 0) ∧
    On (.syswr g7 .tvec (.s 1) 0) (withS 1 8 jw) ((sreg (withS 1 8 jw) 1).toNat % 8 = 0) ∧
    On (.syswr g7 .svec (.s 1) 0) (withS 1 9 jw) ((sreg (withS 1 9 jw) 1).toNat % 8 ≠ 0) ∧
    On (.syswr g7 .route (.s 1) 0) (withS 1 (2 ^ 52 - 4) jw) (bitsOf (sreg (withS 1 (2 ^ 52 - 4) jw) 1) 0 2 = 0 ∧ bitsOf (sreg (withS 1 (2 ^ 52 - 4) jw) 1) 52 12 = 0) ∧
    On (.syswr g7 .route (.s 1) 0) (withS 1 (2 ^ 52) jw) (bitsOf (sreg (withS 1 (2 ^ 52) jw) 1) 52 12 ≠ 0) ∧
    (AtIssue (stage jw unit0) jw 0 x0 ∧ jw.halting = false) := by
  refine ⟨meets rfl (by decide +kernel), meets rfl (by decide +kernel), meets rfl (by decide +kernel), meets rfl (by decide +kernel), ?_,
    meets rfl (by decide +kernel), meets rfl (by decide +kernel), meets rfl (by decide +kernel), meets rfl (by decide +kernel), meets rfl (by decide +kernel),
    at_issue jw x0 rfl, rfl⟩
  intro n hn
  simp only [List.mem_cons, List.not_mem_nil, or_false] at hn
  rcases hn with rfl | rfl | rfl | rfl | rfl | rfl
  all_goals exact meets rfl (by decide +kernel)

/-- A warp whose handle register 4 names an entry, and the state with that entry. -/
def named (e : HEntry) : Warp := withH 4 (handleValue e) un
def holding (e : HEntry) : State := withHandles (named e) [e]
def entries : List HEntry :=
  [ hent 0 1 .pending 0 (.unit 5), hent 0 1 .done 0 (.unit 5), hent 0 3 .cancelled 0 (.unit 5), hent 0 1 .faulted 9 (.unit 5), hent 0 4 .faulted 0 (.unit 5)
  , hent 4095 4 .pending 0 (.unit 5), hent 0 5 .pending 0 (.unit 5) ]

/-- HandleForms: a null value, one that names nothing, one that names another owner's entry, and entries in each state, in each form. -/
theorem witness_handles :
    (∀ i ∈ [Instr.hwait g7 4, .hwaitany g7 3 (.s 5) 0, .htest g7 3 4, .hmovFromHandle g7 3 4, .hmovToHandle g7 4 (.s 2) 0, .hcancel g7 4],
      On i un (act i un ≠ 0 ∧ un.h[4] = 0 ∧ resolve (stage un unit0) un 0 = .null) ∧
      On i (withH 4 1 un) (resolve (stage un unit0) un 1 = .bad)) ∧
    entries.all (fun e => resolve (holding e) (named e) (named e).h[4] == .entry e) = true ∧
    resolve (holding (hent 0 1 .done 0 (.warp 7))) (named (hent 0 1 .done 0 (.warp 7))) (handleValue (hent 0 1 .done 0 (.warp 7))) = .bad ∧
    (∀ e ∈ entries, Issues (.hwait g7 4) (holding e) (named e) 0 x0 ∧ Issues (.htest g7 3 4) (holding e) (named e) 0 x0 ∧
      Issues (.hcancel g7 4) (holding e) (named e) 0 x0 ∧ Issues (.hmovToHandle g7 4 (.s 2) 0) (holding e) (named e) 0 x0) ∧
    GoesOn (holding (hent 0 1 .done 0 (.unit 5))) un (hent 0 1 .done 0 (.unit 5)) ∧
    GoesOn (withLink .read false) un (hent 0 3 .cancelled 0 (.unit 5)) := by
  refine ⟨?_, by decide +kernel, by decide +kernel, ?_, .inr ⟨.inl rfl, by decide +kernel, fun _ => rfl⟩, .inl ⟨rfl, rfl⟩⟩
  · intro i hi
    simp only [List.mem_cons, List.not_mem_nil, or_false] at hi
    rcases hi with rfl | rfl | rfl | rfl | rfl | rfl
    all_goals exact ⟨meets rfl (by decide +kernel), meets rfl (by decide +kernel)⟩
  · intro e he
    have h := List.all_eq_true.mp (by decide +kernel : entries.all (fun e => [Instr.hwait g7 4, .htest g7 3 4, .hcancel g7 4, .hmovToHandle g7 4 (.s 2) 0].all
      fun i => wordFault i (holding e) (named e) x0 == none && !pendingRegister (named e) (namedOf i)) = true) e he
    simp only [List.all_cons, List.all_nil, Bool.and_true, Bool.and_assoc] at h
    have h' := h
    simp only [Bool.and_eq_true] at h'
    obtain ⟨a1, a2, b1, b2, c1, c2, d1, d2⟩ := h'
    exact ⟨issues_of rfl rfl rfl (by rw [a1, a2]; rfl), issues_of rfl rfl rfl (by rw [b1, b2]; rfl), issues_of rfl rfl rfl (by rw [c1, c2]; rfl),
      issues_of rfl rfl rfl (by rw [d1, d2]; rfl)⟩

/-- HandleWaitAny: an empty mask, one that names a value that resolves to nothing, one with only pending entries, one whose highest register
is null and final. -/
theorem witness_waitAny :
    On (.hwaitany g7 3 (.s 5) 0) un (∀ n : Fin 16, (sreg un 5).getLsbD n.val = false) ∧
    On (.hwaitany g7 3 (.s 5) 0) (withS 5 0x10 (withH 4 1 un)) (resolve (stage un unit0) un 1 = .bad) ∧
    Meets (.hwaitany g7 3 (.s 5) 0) (withHandles (withS 5 0x10 (named (hent 0 1 .pending 0 (.unit 5)))) [hent 0 1 .pending 0 (.unit 5)])
      (withS 5 0x10 (named (hent 0 1 .pending 0 (.unit 5)))) (hFinal .pending = false) ∧
    On (.hwaitany g7 3 (.s 5) 0) (withS 5 0x8000 un) ((sreg (withS 5 0x8000 un) 5).getLsbD 15 = true ∧ resolve (stage un unit0) un un.h[15] = .null ∧
      ∀ k : Fin 16, k < 15 → (sreg (withS 5 0x8000 un) 5).getLsbD k.val = false) :=
  ⟨meets rfl (by decide +kernel), meets rfl (by decide +kernel), meets rfl (by decide +kernel), meets rfl (by decide +kernel)⟩

/-! #### Memory -/

/-- The state of the tests with another leaf for its page. -/
def paged (w : Warp) (p : Word) : State :=
  modCore (stage w unit0) 0 fun c => { c with tlb := [{ ctx := 0, base := placeBase, size := 0x10000, pte := p, leafAt := 0 }] }

/-- Access operands at `s11`, with no hint; a warp with an address there. -/
def ms : MOp := { mo with h := 0 }
def at11 (a : Word) : Warp := withS 11 a un
/-- Only lane 31 has predicate 1. -/
def top (w : Warp) : Warp := { w with p := w.p.set 1 0x80000000 }
def mt : MOp := { mo with g := b1 }
def inLane (l : Fin 32) (w : Warp) : Warp := { w with p := w.p.set 1 (BitVec.ofNat 32 (2 ^ l.val)) }

theorem witness_scratch :
    (∀ i ∈ [Instr.ldSp ms, .stSp ms, .atomSp .add ms], Issues i (stage (at11 0xFFFC) unit0) (at11 0xFFFC) 0 x0 ∧
      InScratch i (stage (at11 0xFFFC) unit0) (at11 0xFFFC) x0 ms unit0 ∧ activeOf i (at11 0xFFFC) x0 ≠ 0 ∧
      Issues i (stage (at11 0xFFFD) unit0) (at11 0xFFFD) 0 x0 ∧ (∀ l, wideLaunch.r.scrk * 1024 < laneOffset (at11 0xFFFD) ms l + accBytes ms) ∧
      Issues i (stage jw unit0) jw 0 x0 ∧ unitOf (stage jw unit0) jw = none) ∧
    On (.ldSp { ms with g := b1 }) un (act (.ldSp { ms with g := b1 }) un = 0) := by
  refine ⟨?_, meets rfl (by decide +kernel)⟩
  intro i hi
  simp only [List.mem_cons, List.not_mem_nil, or_false] at hi
  rcases hi with rfl | rfl | rfl
  all_goals exact ⟨issues_of rfl rfl rfl (by decide +kernel), ⟨rfl, wideLaunch, rfl, by decide +kernel⟩, by decide +kernel,
    issues_of rfl rfl rfl (by decide +kernel), by decide +kernel, issues_of rfl rfl rfl (by decide +kernel), rfl⟩

/-- What Clear, AllLocal and AllDirty ask, for the spots that a look comes to. -/
def spotsAt (look : Fin 32 → Nat → Look) (l : Fin 32) (j : Nat) : Spot := gotSpot (look l j)
def allClear (i : Instr) (w : Warp) (x : Split) (parts : Nat) (look : Fin 32 → Nat → Look) (stages : Fin 32 → List (Spot → Look)) : Bool :=
  (List.finRange 32).all fun l => !(activeOf i w x).getLsbD l.val || (List.range parts).all fun j =>
    look l j == .ok (spotsAt look l j) && (stages l).all fun f => f { spotsAt look l j with part := j } == .ok { spotsAt look l j with part := j }

theorem clear_of {i : Instr} {w : Warp} {x : Split} {parts : Nat} {look : Fin 32 → Nat → Look} {stages : Fin 32 → List (Spot → Look)}
    (h : allClear i w x parts look stages = true) : Clear i w x parts look stages (spotsAt look) := by
  intro l hl j hj
  have := List.all_eq_true.mp h l (List.mem_finRange l)
  rw [hl, Bool.not_true, Bool.false_or] at this
  have := List.all_eq_true.mp this j (List.mem_range.mpr hj)
  rw [Bool.and_eq_true, beq_iff_eq] at this
  exact ⟨this.1, fun f hf => by simpa using List.all_eq_true.mp this.2 f hf⟩

/-- The spots of an access of the warp of the tests at an address. -/
abbrev at0 (w : Warp) : State := counted (stage w unit0) w 0
abbrev loads (w : Warp) (o : MOp) : Fin 32 → Nat → Look := loadLook (at0 w) w o
abbrev stores (w : Warp) (o : MOp) : Fin 32 → Nat → Look := storeLook (at0 w) w o

/-- GlobalLoads: spots that pass their checks in this package; an address that misses; one whose check fails. -/
theorem witness_loads :
    (∀ acq : Bool, let i := if acq then Instr.ldAcq mo else .ld mo
      Issues i (stage (at11 0x10100) unit0) (at11 0x10100) 0 x0 ∧ activeOf i (at11 0x10100) x0 ≠ 0 ∧
      Clear i (at11 0x10100) x0 (accParts mo) (loads (at11 0x10100) mo) (loadStages (at0 (at11 0x10100)) (at11 0x10100) mo (atHome acq))
        (spotsAt (loads (at11 0x10100) mo)) ∧
      LinksBack (at0 (at11 0x10100)) (issOf i (at11 0x10100) 0 x0) (spotsOf (activeOf i (at11 0x10100) x0) (accParts mo) (spotsAt (loads (at11 0x10100) mo))) none
        (at0 (at11 0x10100)) ∧
      NoLinkReads (stage (at11 0x10100) unit0) (at11 0x10100)) ∧
    On (.ld mo) (at11 0x30000) (loads (at11 0x30000) mo 0 0 = .miss 3) ∧
    On (.ld { mo with g := b1 }) (inLane 3 (at11 (2 ^ 57))) ((match loads (inLane 3 (at11 (2 ^ 57))) mo 3 0 with | .bad f => f.cause | _ => 0) = 3 ∧
      (∀ k, inAct (.ld { mo with g := b1 }) (inLane 3 (at11 (2 ^ 57))) x0 k → k = 3) ∧ (accParts mo = 1) ∧
      (∀ g ∈ loadStages (at0 (inLane 3 (at11 (2 ^ 57)))) (inLane 3 (at11 (2 ^ 57))) mo (atHome false) 3,
        g (gotSpot (loads (at11 0x10100) mo 0 0)) ≠ .stall)) := by
  refine ⟨?_, meets rfl (by decide +kernel), meets rfl (by decide +kernel)⟩
  intro acq
  cases acq
  all_goals exact ⟨issues_of rfl rfl rfl (by decide +kernel), by decide +kernel, clear_of (by decide +kernel), .inl ⟨rfl, rfl, by decide +kernel⟩,
    by decide +kernel⟩

/-- LoadReturnsMemory, for lane 31 and the last element of the page; ScalarLoad. -/
theorem witness_oneLoad :
    Issues (.ld mt) (stage (top (at11 0x1FFFC)) unit0) (top (at11 0x1FFFC)) 0 x0 ∧
    (let p := spotsAt (loads (top (at11 0x1FFFC)) mt) 31 0
     activeOf (.ld mt) (top (at11 0x1FFFC)) x0 = BitVec.ofNat 32 (2 ^ 31) ∧ loadLook (stage (top (at11 0x1FFFC)) unit0) (top (at11 0x1FFFC)) mt 31 0 = .ok p ∧
      (laneAddr (top (at11 0x1FFFC)) mt 31).toNat % 4 = 0 ∧ (stage (top (at11 0x1FFFC)) unit0).dies[(0 : Fin 2)].dstate ≠ .dieOffline ∧
      (stage (top (at11 0x1FFFC)) unit0).bad.contains (p.pa / 64) = false ∧ p.kind = .package ∧ pteFmt p.e.pte = 0 ∧ dieOf p.pa = coreDie 0 ∧
      holderOf (stage (top (at11 0x1FFFC)) unit0) (p.pa / 256) = coreDie 0 ∧ l1Holds (stage (top (at11 0x1FFFC)) unit0) 0 (p.pa / 64) = false ∧ p.pa % 4 = 0) ∧
    Meets (.ldS mo) (stage (at11 0x10008) unit0) (at11 0x10008) (act (.ldS mo) (at11 0x10008) ≠ 0 ∧
      (let p := gotSpot (scalarLook (at0 (at11 0x10008)) (issOf (.ldS mo) (at11 0x10008) 0 x0) mo)
       scalarLook (at0 (at11 0x10008)) (issOf (.ldS mo) (at11 0x10008) 0 x0) mo = .ok p ∧
        Passes (scalarStages (at0 (at11 0x10008)) (issOf (.ldS mo) (at11 0x10008) 0 x0) mo) p ∧ localPa (at0 (at11 0x10008)) 0 p = some 0x10008)) :=
  ⟨issues_of rfl rfl rfl (by decide +kernel), by decide +kernel, by unfold Passes; exact meets rfl (by decide +kernel)⟩

/-- GlobalStores and GlobalAtomics: spots that pass their checks on a dirty page; and pages that refuse a store, for one lane. -/
theorem witness_stores :
    (∀ p ∈ [(Instr.st mo, storeStages (at0 (at11 0x1FFFC)) (at11 0x1FFFC) mo false), (.stRel mo, storeStages (at0 (at11 0x1FFFC)) (at11 0x1FFFC) mo true)
        , (.atom .add mo, atomStages (at0 (at11 0x1FFFC)) (at11 0x1FFFC) mo), (.red .add mo, atomStages (at0 (at11 0x1FFFC)) (at11 0x1FFFC) mo)],
      let i := p.1
      Issues i (stage (at11 0x1FFFC) unit0) (at11 0x1FFFC) 0 x0 ∧
      Clear i (at11 0x1FFFC) x0 (accParts mo) (stores (at11 0x1FFFC) mo) p.2 (spotsAt (stores (at11 0x1FFFC) mo)) ∧
      NoLinkResult (stage (at11 0x1FFFC) unit0) (at11 0x1FFFC) 0 ∧ walkStalled (at0 (at11 0x1FFFC)) 0 = false ∧
      activeOf i (at11 0x1FFFC) x0 ≠ 0 ∧ AllDirty (spotsOf (activeOf i (at11 0x1FFFC) x0) (accParts mo) (spotsAt (stores (at11 0x1FFFC) mo))) ∧
      AllLocal (counted (stage (at11 0x1FFFC) unit0) (at11 0x1FFFC) 0) (at11 0x1FFFC) (spotsOf (activeOf i (at11 0x1FFFC) x0) 1 (spotsAt (stores (at11 0x1FFFC) mo))) ∧
      releases (counted (stage (at11 0x1FFFC) unit0) (at11 0x1FFFC) 0) (at11 0x1FFFC)
        (widestOf (spotsOf (activeOf i (at11 0x1FFFC) x0) (accParts mo) (spotsAt (stores (at11 0x1FFFC) mo)))) = true) ∧
    (∀ i ∈ [Instr.st mt, .stRel mt, .atom .add mt, .red .add mt], ∀ p ∈ [placePte - 4, placePte + 2 ^ 13, placePte + 2 ^ 8],
      Issues i (paged (top (at11 0x10000)) p) (top (at11 0x10000)) 0 x0 ∧ accParts mt = 1 ∧ regionOf 0x10000 = .package ∧
      activeOf i (top (at11 0x10000)) x0 = BitVec.ofNat 32 (2 ^ 31) ∧ laneAddr (top (at11 0x10000)) mt 31 = 0x10000 ∧
      translate (paged (top (at11 0x10000)) p) 0 0 0x10000 = .ok 0x10000 { ctx := 0, base := placeBase, size := 0x10000, pte := p, leafAt := 0 }) ∧
    (pteW (placePte - 4) = false ∧ pteW (placePte + 2 ^ 13) = true ∧ pteRepl (placePte + 2 ^ 13) = 1 ∧ pteW (placePte + 2 ^ 8) = true ∧
      pteRepl (placePte + 2 ^ 8) ≠ 1 ∧ pteFmt (placePte + 2 ^ 8) ≠ 0) := by
  refine ⟨?_, ?_, by decide +kernel⟩
  · intro p hp
    simp only [List.mem_cons, List.not_mem_nil, or_false] at hp
    rcases hp with rfl | rfl | rfl | rfl
    all_goals exact ⟨issues_of rfl rfl rfl (by decide +kernel), clear_of (by decide +kernel), by decide +kernel, by decide +kernel, by decide +kernel,
      by decide +kernel, by decide +kernel, by decide +kernel⟩
  · intro i hi p hp
    simp only [List.mem_cons, List.not_mem_nil, or_false] at hi hp
    rcases hi with rfl | rfl | rfl | rfl <;> rcases hp with rfl | rfl | rfl
    all_goals exact ⟨issues_of rfl rfl rfl (by decide +kernel), by decide +kernel⟩

/-- A page of D = 0 whose entry in memory is the one that is cached, and one whose entry is another; a page in the system window. -/
def fresh (same : Bool) : State :=
  let s := paged (top (at11 0x10000)) (placePte - 0x10000)
  { s with mem := if same then writeN s.mem 0 8 (placePte - 0x10000).toNat else s.mem }
def overHost : State := paged (top (at11 0x10000)) (placePte + 2 ^ 43)
/-- A result of a link for the split of the tests: outstanding, failed, and come back for lane 31. -/
def backOf (tags : List Nat) (bad : Option LateFault) : State :=
  { overHost with results := [{ result0 (issOf (.atom .add mt) (top (at11 0x10000)) 0 x0) .link with
      id := 9, tags := tags, bad := bad, vw := [(0, always 32 5), (0, always 32 1)] }] }

theorem witness_firstStore : (∀ same : Bool, let s := fresh same
    let t := counted s (top (at11 0x10000)) 0
    let q := spotsAt (storeLook t (top (at11 0x10000)) mt)
    (∀ i ∈ [Instr.st mt, .stRel mt], Issues i s (top (at11 0x10000)) 0 x0 ∧
      Clear i (top (at11 0x10000)) x0 1 (storeLook t (top (at11 0x10000)) mt) (storeStages t (top (at11 0x10000)) mt (i == .stRel mt)) q ∧
      spotsOf (activeOf i (top (at11 0x10000)) x0) 1 q = [(31, q 31 0)] ∧ releases t (top (at11 0x10000)) (q 31 0).scope = true) ∧
    walkStalled t 0 = false ∧ markFault t 0 0 (q 31 0).e (q 31 0).pa = none ∧
    (setDirty t (some 0) 0 0 (q 31 0).e (q 31 0).pa).isSome = same ∧ pteD (q 31 0).e.pte = false ∧ pteDte (q 31 0).e.pte = false ∧
    (same = true ↔ readWord s.mem (q 31 0).e.leafAt ||| 0x18000#64 = (q 31 0).e.pte ||| 0x18000#64)) := by
  intro same
  cases same
  all_goals
    refine ⟨?_, by decide +kernel⟩
    intro i hi
    simp only [List.mem_cons, List.not_mem_nil, or_false] at hi
    rcases hi with rfl | rfl
  all_goals exact ⟨issues_of rfl rfl rfl (by decide +kernel), clear_of (by decide +kernel), by decide +kernel, by decide +kernel⟩

/-- VectorAtomics: a lane that goes over a link, before its access is sent, while it is out, when it has failed, and when it has come back. -/
theorem witness_farAtomic :
    let i := Instr.atom .add mt
    let w := top (at11 0x10000)
    let c := issOf i w 0 x0
    let t := counted overHost w 0
    let q := spotsAt (storeLook t w mt)
    (Issues i overHost w 0 x0 ∧ NoLinkResult overHost w 0 ∧ walkStalled t 0 = false ∧ localPa t 0 (q 31 0) = none ∧ AllDirty [((31 : Fin 32), q 31 0)] ∧
      storeLook t w mt 31 0 = .ok (q 31 0) ∧ Passes (atomStages t w mt 31) { q 31 0 with part := 0 }) ∧
    linkedOf (counted (backOf [4] none) w 0) c = .wait ∧
    linkedOf (counted (backOf [] (some { cause := 0x19, va := 8, lanes := 1 })) w 0) c = .bad { cause := 0x19, va := 8, lanes := 1 } ∧
    (∃ r, linkedOf (counted (backOf [] none) w 0) c = .got r ∧ resultPart r 1 31 ≠ 0) ∧ Issues i (backOf [] none) w 0 x0 := by
  refine ⟨⟨issues_of rfl rfl rfl (by decide +kernel), by decide +kernel, by decide +kernel, by decide +kernel, by decide +kernel, by decide +kernel,
    by unfold Passes; decide +kernel⟩, by decide +kernel, by decide +kernel, ⟨_, rfl, by decide +kernel⟩, issues_of rfl rfl rfl (by decide +kernel)⟩

/-- DirtyMarks: a page that is tracked, whose frame's bit is clear, and one that is not tracked. -/
theorem witness_dirtyMarks :
    let e : TlbEntry := { ctx := 0, base := 0x10000, size := 0x10000, pte := placePte ||| 0x10, leafAt := 0 }
    memoryOk (stage un unit0) ∧ pteD e.pte = true ∧ pteDte e.pte = true ∧ pteDte placePte = false ∧ (stage un unit0).ctxs[(0 : Fin 64)].part.val < 24 ∧
    regionOf 0x10000 = .package ∧ lineReach (stage un unit0) 0 (((partOfCtx (stage un unit0) 0).dbase.toNat + 1 / 8) / 256) = true := by
  unfold memoryOk; decide +kernel

/-- A core whose L1 holds the first line of the page of the tests. -/
def cached : State := modCore (stage (at11 0x10000) unit0) 0 fun c =>
  { c with l1 := [{ line := 0x100, scope := .die, data := 0, valid := 15, dirty := 0, hint := 0, used := 0, owner := none, poison := 0, renewed := 0 }] }

/-- StorePlace with hint 3 and where L1 holds the sectors; AtomicAtHome at the end of the page. -/
theorem witness_places :
    (let p := spotsAt (stores (at11 0x10000) mo) 0 0
     memoryOk cached ∧ localPa cached 0 p = some 0x10000 ∧ p.kind = .package ∧ partBytes mo ≠ 0 ∧ mo.h = 3 ∧ ms.h ≠ 3) ∧
    (∀ a, 0x10000 ≤ a → a < 0x10000 + partBytes ms → l1Holds cached 0 (a / 64) = true) ∧
    (let p := spotsAt (stores (at11 0x1FFFC) mo) 0 0
     p.kind = .package ∧ p.scope ≠ .core ∧ mo.ty ∈ [Ty.i32, .n32, .i64, .n64, .f32] ∧ (0x1FFFC : Nat) % tyBytes mo.ty = 0) ∧
    (let p := { spotsAt (stores (at11 0x10000) mo) 0 0 with scope := .core }
     p.kind = .package ∧ pteFmt p.e.pte = 0 ∧ ms.h ≠ 3 ∧ ms.ty ∈ [Ty.i32, .n32, .i64, .n64, .f32] ∧ l1Holds cached 0 (0x10000 / 64) = true) := by
  refine ⟨⟨by unfold memoryOk; decide +kernel, by decide +kernel⟩, ?_, by decide +kernel, by decide +kernel⟩
  intro a h1 h2
  have : a / 64 = 0x400 := by have : partBytes ms = 4 := by decide +kernel
                              omega
  rw [this]; decide +kernel

/-- PrefetchAndMonitorWait: lanes that miss no TLB; a wait whose value differs and one whose value does not. -/
theorem witness_waits :
    On (.prefetch { mo with data := 0 }) (at11 0x10100) (∀ l, (match locate (stage (at11 0x10100) unit0) 0 0 (laneAddr (at11 0x10100) mo l) false with
      | .miss _ => false | _ => true) = true) ∧
    (mo.h = 3 ∧ NoDirty (stage un unit0) 0 (fun _ => true) ∧ (stage un unit0).cores[(0 : Fin 384)].l1 = [] ∧ 64 ≤ l1Ways (stage un unit0).cores[(0 : Fin 384)].ppw) ∧
    (x0.timer = 0 ∧ ¬ ((5 : Nat) = 0 ∨ 5 + 1024 ≤ (stage un unit0).now + 1) ∧ NoLinkResult (stage un unit0) un 0) ∧
    (∀ w ∈ [at11 0x10100, withV 2 1 (at11 0x10100)], Clear (.waitv ms) w x0 1 (waitLook (at0 w) w ms) (waitStages (at0 w) w ms)
        (spotsAt (waitLook (at0 w) w ms)) ∧
      AllLocal (at0 w) w (spotsOf (activeOf (.waitv ms) w x0) 1 (spotsAt (waitLook (at0 w) w ms))) ∧
      NoLinkReads (stage w unit0) w) ∧
    On (.waitv ms) (withV 2 1 (at11 0x10100)) (∃ y ∈ loadLanes (at0 (withV 2 1 (at11 0x10100)))
      (issOf (.waitv ms) (withV 2 1 (at11 0x10100)) 0 x0) ms true none (spotsOf (BitVec.allOnes 32) 1
        (spotsAt (waitLook (at0 (withV 2 1 (at11 0x10100))) (withV 2 1 (at11 0x10100)) ms))),
      y.2.toNat % 2 ^ tyWidth ms.ty ≠ (vreg (withV 2 1 (at11 0x10100)) ms.data y.1).toNat % 2 ^ tyWidth ms.ty) ∧
    On (.waitv ms) (at11 0x10100) (¬ ∃ y ∈ loadLanes (at0 (at11 0x10100)) (issOf (.waitv ms) (at11 0x10100) 0 x0) ms true none
      (spotsOf (BitVec.allOnes 32) 1 (spotsAt (waitLook (at0 (at11 0x10100)) (at11 0x10100) ms))),
      y.2.toNat % 2 ^ tyWidth ms.ty ≠ (vreg (at11 0x10100) ms.data y.1).toNat % 2 ^ tyWidth ms.ty) := by
  refine ⟨meets rfl (by decide +kernel), by decide +kernel, by decide +kernel, ?_, meets rfl (by decide +kernel), meets rfl (by decide +kernel)⟩
  intro w hw
  simp only [List.mem_cons, List.not_mem_nil, or_false] at hw
  rcases hw with rfl | rfl
  all_goals exact ⟨clear_of (by decide +kernel), by decide +kernel, by decide +kernel⟩

/-! #### Chains and expand contexts -/

/-- The state of the tests with another launch of the unit. -/
def launched (w : Warp) (u : UnitSt) (la : Launch) : State := modCtx (stage w u) 0 fun x => { x with launches := [la] }
/-- The launch with items after the first warp; with one warp a unit and a chain area; and with its channels off. -/
def manyItems : Launch := { wideLaunch with r := { wideRecord with items := 256 } }
def oneWarp : Launch := { wideLaunch with r := { wideRecord with items := 256, wpu := 1 }, cd := { chainDef0 with area := 0x100000 } }
def noChannel : Launch := { wideLaunch with r := { wideRecord with chm := 14 } }

/-- A chained add on channel 0 that reads and publishes, in the lanes of predicate 1. -/
def vc : VOp := { vo .i64 2 with g := b1, chain := chainBy .a 0 }
/-- Predicate 1 true in one lane. -/
def only (l : Fin 32) (w : Warp) : Warp := { w with p := w.p.set 1 (BitVec.ofNat 32 (2 ^ l.val)) }
/-- A warp whose lanes `ls` have published an occurrence on channel 0. -/
def published (ls : List (Fin 32)) (w : Warp) : Warp := setChan w 0 (ls.foldl (fun st l => publish st l 5) w.chain[0])
def closedLanes (m : Mask) (w : Warp) : Warp := setChan w 0 { w.chain[0] with closed := m }

/-- The warp before each lane of a chained add of lane 0 alone. -/
def steps (w : Warp) (n : Nat) : Warp := if n = 0 then w else setChan w 0 (publish w.chain[0] 0 0)

theorem witness_chainedForms :
    (isChained vc = true ∧ On (.vadd vc) (only 0 un) (act (.vadd vc) (only 0 un) ≠ 0) ∧ (chainHome (stage (only 0 un) unit0) (only 0 un)).isSome = true) ∧
    (chainHome (stage un unit0) un = some (unit0, wideLaunch) ∧ ChainLegal un wideLaunch vc 1 ∧
      LaneByLane (stage un unit0) un unit0 wideLaunch vc 1 (fun _ => 0) (fun _ => 0) (steps un) ∧
      publishStalls (stage un unit0) un (steps un 32) unit0 wideLaunch 0 1 = false ∧ NoFarWrites (stage un unit0) 0 ∧ NoLinkReads (stage un unit0) un ∧ itemsAfter unit0 wideLaunch un.rank = false) ∧
    (On (.vadd vc) (only 1 un) (ChainLegal un wideLaunch vc 2 ∧ chainRead (stage un unit0) un un.chain[0] unit0 wideLaunch 0 1 = .open_)) ∧
    On (.vadd { vc with chain := { vc.chain with km1 := 7 } }) (only 31 un) (wideLaunch.cd.km1[(0 : Fin 4)] ≠ 7) ∧
    (unitOf (stage jw unit0) jw = none ∧ On (.vadd vc) (only 31 jw) (chainHome (stage (only 31 jw) unit0) (only 31 jw) = none)) := by
  refine ⟨⟨rfl, meets rfl (by decide +kernel), by decide +kernel⟩, ⟨rfl, ?_, ⟨rfl, ?_, ?_, ?_⟩, by decide +kernel, by decide +kernel, by decide +kernel, by decide +kernel⟩, ?_,
    meets rfl (by decide +kernel), rfl, meets rfl (by decide +kernel)⟩
  · unfold ChainLegal; decide +kernel
  · intro l hl
    have : l.val ≠ 0 := by intro h; rw [h] at hl; exact absurd hl (by decide)
    simp [steps, this]
  · intro l hl _
    have : ∀ l : Fin 32, (1 : Mask).getLsbD l.val = true → l = 0 := by decide
    rw [this l hl]; decide +kernel
  · intro l hl
    have : ∀ l : Fin 32, (1 : Mask).getLsbD l.val = true → l = 0 := by decide
    rw [this l hl]; rfl
  · unfold ChainLegal; exact meets rfl (by decide +kernel)

/-- ChainedSource, for a value of the next item, past a closed item, at an item that is neither, and below the first item. -/
theorem witness_chainSource :
    (0 < (published [0] un).chain[0].counts[(below 1 1 1)] ∧ (below 1 1 1, 0, (5 : Word)) ∈ (published [0] un).chain[0].occs) ∧
    (Skipped (closedLanes 2 (published [0] un)) (closedLanes 2 (published [0] un)).chain[0] 0 (below 2 1 1) ∧
      0 < (closedLanes 2 (published [0] un)).chain[0].counts[below 2 1 2]) ∧
    (un.chain[0].counts[below 31 1 1] ≤ 0 ∧ laneClosed un un.chain[0] (below 31 1 1).val = false) ∧ (un.rank = 0 ∧ unit0.index = 0) := by
  unfold Skipped; decide +kernel

/-- ChainedResults: a chained form of each kind, in lane 0; and what the add of the witness above writes there. -/
theorem witness_laneForms :
    (∀ i ∈ [Instr.vadd vc, .vand vc, .vmov { vc with b := .v 0 }, .vsel vc 1, .vrcp { vc with ty := .f32, b := .v 0, chain := { vc.chain with pub := none } }
        , .vcmp .lt { vc with d := 2, chain := { vc.chain with pub := none } }
        , .vcvt { vc with ty := .f32, b := .v 0 } .i32, .vfadd { vc with ty := .f32 }],
      On i (only 0 un) (act i (only 0 un) ≠ 0)) ∧
    (subForms.any fun p => p.1 vc == .vadd vc && p.2 vc 0 0 0 == (0, 0)) = true ∧ subCount vc.ty = 1 ∧ vc.ty ∈ [Ty.i64] := by
  refine ⟨?_, by decide +kernel, by decide +kernel, by decide +kernel⟩
  intro i hi
  simp only [List.mem_cons, List.not_mem_nil, or_false] at hi
  rcases hi with rfl | rfl | rfl | rfl | rfl | rfl | rfl | rfl
  all_goals exact meets rfl (by decide +kernel)

/-- ChainedBefore: the second warp of a unit, with a fill before it that has a value and a default, and without one; the first warp of the second unit,
with a mailbox line at a page that may be read and at one that may not, without one, and behind a fill that has failed. -/
def mail0 : Mail := { ctx := 0, launch := 0, fill := { bnd := 0, ch := 0, occ := 0, vals := [some 0, none] } }
def unit1 : UnitSt := { unit0 with id := 6, index := 1 }
def mailAt (p : Word) (ms : List Mail) (us : List UnitSt) : State :=
  { modCore (launched un unit1 oneWarp) 0 (fun c => { c with tlb := [{ ctx := 0, base := 0x100000, size := 0x10000, pte := p, leafAt := 0 }] }) with
    mails := ms, units := us }
def stuckFill : MailFault := { ch := 0, occ := 0, cause := 4, va := 0x100000, pte := 0 }

theorem witness_chainBefore : (0 % chainK wideLaunch 0 = 0 ∧ (un2 9 1 1).rank ≠ 0 ∧ unit1.index ≠ 0 ∧ un.rank = 0) ∧
    (let f : CFill := { bnd := 0, ch := 0, occ := 0, vals := [some 7, none] }
     f.bnd + 1 = (un2 9 1 1).rank ∧ f.vals[0]? = some (some 7) ∧ f.vals[1]? = some none ∧ (un2 9 1 1).chain[(0 : Fin 4)].counts[(0 : Fin 32)] = f.occ) ∧
    (mail0.ctx = unit1.ctx ∧ mail0.launch = unit1.launch ∧ mail0.fill.bnd + 1 = unit1.index ∧ mail0.fill.vals[0]? = some (some 0)) ∧
    (let s := mailAt placePte [mail0] [unit1]
     let p := gotSpot (mailRead s un (mailAddr oneWarp 0 0))
     mailRead s un (mailAddr oneWarp 0 0) = .ok p ∧ (l2Peek s (coreDie un.core) false (p.pa / 64)).toNat / 2 ^ (8 * (p.pa % 64)) % 2 ^ 64 = 0) ∧
    (match mailRead (mailAt (placePte + 2 ^ 8) [mail0] [unit1]) un (mailAddr oneWarp 0 0) with | .bad f => f.cause == 7 | _ => false) = true ∧
    (let q := { unit0 with mailFault := [stuckFill] }
     q ∈ (mailAt placePte [] [unit1, q]).units ∧ q.ctx = unit1.ctx ∧ q.launch = unit1.launch ∧ q.index + 1 = unit1.index ∧ stuckFill.occ ≤ 0 ∧
     ∀ p ∈ (mailAt placePte [] [unit1]).units, ¬ p.index + 1 = unit1.index) := by
  decide +kernel

theorem witness_chainInstructions :
    (∀ i ∈ [Instr.cdef g7 0 (.s 2) 0, .cdrop g7 0, .cquery g7 3 0 0, .cquery g7 3 0 1, .cquery g7 3 0 2],
      On i un (chainHome (stage un unit0) un = some (unit0, wideLaunch) ∧ chainOn wideLaunch 0 = true ∧ act i un ≠ 0) ∧
      Meets i (launched un unit0 noChannel) un (chainOn noChannel 0 = false) ∧ On i jw (chainHome (stage jw unit0) jw = none)) ∧
    On (.cdrop b1 0) un (act (.cdrop b1 0) un = 0) ∧ On (.cquery b1 3 0 2) (only 31 un) (inAct (.cquery b1 3 0 2) (only 31 un) x0 31) := by
  refine ⟨?_, meets rfl (by decide +kernel), meets rfl (by decide +kernel)⟩
  intro i hi
  simp only [List.mem_cons, List.not_mem_nil, or_false] at hi
  rcases hi with rfl | rfl | rfl | rfl | rfl
  all_goals exact ⟨meets rfl (by decide +kernel), meets rfl (by decide +kernel), meets rfl (by decide +kernel)⟩

/-- A die with a translation of the chain area. -/
def mailed (w : Warp) : State := modDie (launched w unit0 oneWarp) 0 fun d =>
  { d with tlb := [{ ctx := 0, base := 0x100000, size := 0x10000, pte := placePte, leafAt := 0 }] }
/-- The same with a page that may not be written; and a warp whose first occurrence on channel 0 has settled at cycle 0. -/
def unwritable (w : Warp) : State := modDie (launched w unit0 oneWarp) 0 fun d =>
  { d with tlb := [{ ctx := 0, base := 0x100000, size := 0x10000, pte := placePte - 4, leafAt := 0 }] }
def settledAt0 (w : Warp) : Warp := setChan w 0 { w.chain[0] with settled := [(0, 0)] }

theorem witness_fills :
    (let w := settledAt0 (published [31] un)
     let s := { launched w unit0 manyItems with now := 8 }
     findUnit s 5 = some unit0 ∧ launchOf s unit0 = some manyItems ∧ warpOf s 5 0 = some w ∧ findWarp s w.id = some w ∧ fillsOn s unit0 = true ∧
       un.rank + 1 < manyItems.r.wpu ∧ fillDue s w unit0 manyItems 0 = some [some 5] ∧ (∃ y ∈ w.chain[(0 : Fin 4)].settled, y.1 = 0 ∧ y.2 + 8 ≤ s.now) ∧
       (∀ y ∈ w.chain[(0 : Fin 4)].settled, y.1 = 0 → (7 : Nat) < y.2 + 8)) ∧
    fillDue (launched un unit0 manyItems) un unit0 manyItems 0 = none ∧
    (let s := mailed (published [31] un)
     (published [31] un).rank + 1 = oneWarp.r.wpu ∧ fillDue s (published [31] un) unit0 oneWarp 0 = some [some 5] ∧
       unit0.mailFault = [] ∧ mailReleased (l1Clean s 0 wideLine) unit0 = true ∧ Memory.wf s.mem = true ∧
       (let t := mailWrite (l1Clean s 0 wideLine) 0 0 (translateEng (l1Clean s 0 wideLine) 0 5 0 (mailAddr oneWarp 0 0)) (mailAddr oneWarp 0 0)
        t = .ok (gotSpot t) ∧ pteD (gotSpot t).e.pte = true ∧ pteDte (gotSpot t).e.pte = false)) ∧
    mailReleased (l1Clean { mailed un with links := [link .write false] } 0 wideLine) unit0 = false ∧
    (let s := unwritable (published [31] un)
     let t := mailWrite (l1Clean s 0 wideLine) 0 0 (translateEng (l1Clean s 0 wideLine) 0 5 0 (mailAddr oneWarp 0 0)) (mailAddr oneWarp 0 0)
     (match t with | .bad f => f.cause | _ => 0) = 4) := by
  refine ⟨⟨rfl, rfl, rfl, rfl, by decide +kernel⟩, by decide +kernel, by decide +kernel, by decide +kernel, by decide +kernel⟩

/-- A participant of expand context 1 as the warp of the tests, and as a warp 9; a context in a state, and a unit with it. -/
def part (id rounds ord : Nat) (ended : Bool) : XPart :=
  { warp := id, rank := 0, rounds := rounds, ord := ord, ended := ended, live := BitVec.allOnes 32, start := always 32 0, len := always 32 2, split := 0 }
def xc (st : XState) (g : Nat) (ps : List XPart) (ss : List XStep) : XCtx := { st := st, g := g, parts := ps, steps := ss }
def unitX (k : XCtx) : UnitSt := { unit0 with xctx := unit0.xctx.set 1 k }
def stepX (op : RedOp) : XStep :=
  { round := 0, ord := 0, op := op, ty := .n32, sat := false, vdst := 12, parts := [], contrib := [], handles := [] }

/-- `xbegin 1, v8, v9, s17` in a state of the context, with G. -/
def xb : Instr := .xbegin 1 g7 8 9 (.s 17) 0
abbrev OnX (i : Instr) (w : Warp) (k : XCtx) (p : Prop) : Prop := Meets i (stage w (unitX k)) w p
def opened (ps : List XPart) : XCtx := xc .opened ps.length ps []

theorem witness_xbegin :
    (∀ gv : Nat, gv ∈ [1, 4] → ReadsG xb (stage (withS 17 gv un) unit0) (withS 17 gv un) 0 x0 0 (.s 17) gv) ∧
    (∀ gv ∈ [0, 1, 2, 4, 5], Issues xb (stage (withS 17 (BitVec.ofNat 64 gv) un) (unitX (xc .free 0 [] []))) (withS 17 (BitVec.ofNat 64 gv) un) 0 x0) ∧
    (launchOf (stage un unit0) unit0 = some wideLaunch ∧ min wideLaunch.r.wpu 8 = 4) ∧
    OnX xb (withS 17 4 un) (xc .gathering 4 [part 9 0 0 false, part 10 0 0 false] []) (∀ l : Fin 32, (vreg un 9 l).toNat ≤ 2 ^ 32) ∧
    OnX xb (withS 17 4 un) (xc .gathering 4 [part 9 0 0 false, part 10 0 0 false, part 11 0 0 false] []) True ∧
    OnX xb (withS 17 3 un) (xc .gathering 4 [part 9 0 0 false] []) True ∧ OnX xb (withS 17 1 un) (opened [part 9 0 0 false]) True ∧
    OnX xb (withS 17 1 (withV 9 (2 ^ 32 + 1) un)) (xc .free 0 [] []) (2 ^ 32 < (vreg (withV 9 (2 ^ 32 + 1) un) 9 31).toNat) ∧
    OnX xb (withS 17 1 un) (opened [part 7 0 0 false]) (partOf (opened [part 7 0 0 false]) 7 = some (part 7 0 0 false) ∧ (firstOf un).st ≠ .blocked) := by
  refine ⟨?_, ?_, ⟨rfl, rfl⟩, meets rfl (by decide +kernel), meets rfl (by decide +kernel), meets rfl (by decide +kernel), meets rfl (by decide +kernel),
    meets rfl (by decide +kernel), meets rfl (by decide +kernel)⟩
  · intro gv h
    refine ⟨0, ?_, .inl ?_⟩
    all_goals simp only [List.mem_cons, List.not_mem_nil, or_false] at h
    all_goals rcases h with rfl | rfl <;> decide +kernel
  · intro gv h
    simp only [List.mem_cons, List.not_mem_nil, or_false] at h
    rcases h with rfl | rfl | rfl | rfl | rfl
    all_goals exact issues_of rfl rfl rfl (by decide +kernel)

/-- What Participates asks. -/
theorem participates (w : Warp) (k : XCtx) (p : XPart) (hw : w.kind = .unit 5) (h : k.st = .opened ∧ partOf k w.id = some p ∧ p.ended = false) :
    Participates (stage w (unitX k)) w 1 (unitX k) k p := by
  refine ⟨?_, ?_, h⟩
  · simp [unitOf, hw, findUnit, stage, unitX, unit0, newUnit]
  · simp [unitX]

/-- ExpandNext: four rounds ahead of a participant and five, an iteration and none; ExpandReduce at ordinal 3 and 4, before the first round, with a
step that differs; ExpandSyncAndEnd, ready and not, last and not; ExpandOutside. -/
theorem witness_expand :
    (∀ k ∈ [opened [part 7 0 0 false], opened [part 7 4 0 false, part 9 0 0 false]], ∃ p, partOf k 7 = some p ∧
      Participates (stage un (unitX k)) un 1 (unitX k) k p) ∧
    OnX (.xnext 1 10 2) un (opened [part 7 4 0 false, part 9 0 0 false]) (∃ q ∈ (opened [part 7 4 0 false, part 9 0 0 false]).parts, q.ended = false ∧ q.rounds + 4 < 4 + 1) ∧
    OnX (.xnext 1 10 2) un (opened [part 7 3 0 false, part 9 0 0 false]) (∀ q ∈ (opened [part 7 3 0 false, part 9 0 0 false]).parts, q.ended = true ∨ 3 + 1 ≤ q.rounds + 4) ∧
    ((positions (opened [part 7 0 0 false]))[31]? = some (partIndex (opened [part 7 0 0 false]) 7, 31) ∧ 0 * 32 + 31 < (ownerLens (opened [part 7 0 0 false])).sum ∧
      (ownerLens (opened [part 7 0 0 false])).sum ≤ 2 * 32) ∧
    OnX (.xred 1 g7 .add .n32 false 12 (.v 13) 0 5) un (opened [part 7 1 3 false]) ((handleRoom (counted (stage un unit0) un 0) un 5).isSome = true) ∧
    OnX (.xred 1 g7 .add .n32 false 12 (.v 13) 0 5) un (opened [part 7 1 4 false]) True ∧
    OnX (.xred 1 g7 .add .n32 false 12 (.v 13) 0 5) un (opened [part 7 0 0 false]) True ∧
    OnX (.xred 1 g7 .add .n32 false 12 (.v 13) 0 5) un (xc .opened 1 [part 7 1 0 false] [stepX .max])
      (∃ q ∈ [stepX .max], q.round = 1 - 1 ∧ q.ord = 0 ∧ ¬ (q.op = .add ∧ q.ty = .n32 ∧ q.vdst = 12)) ∧
    OnX (.xsync 1) un (opened [part 7 1 0 false, part 9 1 0 false]) (∀ q ∈ (opened [part 7 1 0 false, part 9 1 0 false]).parts, q.ended = true ∨ 1 ≤ q.rounds) ∧
    OnX (.xsync 1) un (opened [part 7 1 0 false, part 9 0 0 false]) (¬ ∀ q ∈ (opened [part 7 1 0 false, part 9 0 0 false]).parts, q.ended = true ∨ 1 ≤ q.rounds) ∧
    OnX (.xend 1) un (opened [part 7 1 0 false, part 9 0 0 true]) (∀ q ∈ (opened [part 7 1 0 false, part 9 0 0 true]).parts, q.ended = true ∨ q.warp = un.id) ∧
    OnX (.xend 1) un (opened [part 7 1 0 false, part 9 0 0 false]) (∃ q ∈ (opened [part 7 1 0 false, part 9 0 0 false]).parts, q.ended = false ∧ q.warp ≠ un.id) ∧
    OnX (.xsync 1) un (opened [part 9 1 0 false]) (partOf (opened [part 9 1 0 false]) 7 = none) ∧
    OnX (.xend 1) un (xc .gathering 2 [part 7 0 0 false] []) (partOf (xc .gathering 2 [part 7 0 0 false] []) 7 ≠ none) ∧ On (.xnext 1 10 2) un True := by
  refine ⟨?_, meets rfl (by decide +kernel), meets rfl (by decide +kernel), by decide +kernel, meets rfl (by decide +kernel), meets rfl (by decide +kernel),
    meets rfl (by decide +kernel), meets rfl (by decide +kernel), meets rfl (by decide +kernel), meets rfl (by decide +kernel), meets rfl (by decide +kernel),
    meets rfl (by decide +kernel), meets rfl (by decide +kernel), meets rfl (by decide +kernel), meets rfl (by decide +kernel)⟩
  intro k h
  simp only [List.mem_cons, List.not_mem_nil, or_false] at h
  rcases h with rfl | rfl
  · exact ⟨_, rfl, participates un _ (part 7 0 0 false) rfl (by decide +kernel)⟩
  · exact ⟨_, rfl, participates un _ (part 7 4 0 false) rfl (by decide +kernel)⟩

/-- ExpandDelivers: of two participants, a step that both have executed, with contributions to two lanes of the second, and a step of a later round;
ExpandReduce and ExpandSyncAndEnd behind a link; and a participant that has executed `xend`. -/
def stepTo (round : Nat) (cs : List (Nat × Nat × Nat × Word)) : XStep := { stepX .add with round := round, contrib := cs, handles := [handleValue (hent 0 5 .pending 0 (.unit 5))] }
def delivering : XCtx := xc .opened 2 [part 7 1 1 false, part 9 1 1 false] [stepTo 0 [(0, 0, 33, 5), (1, 40, 63, 7)], stepTo 1 []]
theorem witness_delivers :
    let s := { modCtx (pair un (un2 9 1 1)) 0 (fun x => { x with handles := [hent 0 5 .pending 0 (.unit 5)] }) with units := [unitX delivering] }
    let complete := fun (e : XStep) => ∀ p ∈ delivering.parts, p.ended = true ∨ e.round + 1 < p.rounds ∨ (p.rounds = e.round + 1 ∧ e.ord < p.ord)
    findUnit s 5 = some (unitX delivering) ∧ (unitX delivering).xctx[(1 : Fin 4)] = delivering ∧
    (∀ e ∈ delivering.steps, e.round = 0 → complete e) ∧ (∀ e ∈ delivering.steps, complete e → e.round = 0) ∧ delivering.steps.Nodup ∧
    (delivering.parts.map (·.warp)).Nodup ∧ findWarp s 9 = some (un2 9 1 1) ∧
    (entryOf s.ctxs[(0 : Fin 64)] (handleValue (hent 0 5 .pending 0 (.unit 5)))).isSome = true :=
  ⟨rfl, rfl, by decide +kernel, by decide +kernel, by decide +kernel, by decide +kernel, rfl, by decide +kernel⟩

theorem witness_expandWaits :
    (∀ i ∈ [Instr.xsync 1, .xend 1], Meets i { stage un (unitX (opened [part 7 1 0 false])) with links := [link .read false] } un
      (¬ NoLinkReads { stage un (unitX (opened [part 7 1 0 false])) with links := [link .read false] } un)) ∧
    Meets (.xred 1 g7 .add .n32 false 12 (.v 13) 0 5) { stage un (unitX (opened [part 7 1 0 false])) with links := [link .write false] } un
      (¬ NoFarWrites { stage un (unitX (opened [part 7 1 0 false])) with links := [link .write false] } un.ctx) ∧
    (opened [part 7 1 0 false]).parts = [part 7 1 0 false] ∧
    (∀ i ∈ [Instr.xnext 1 10 2, .xred 1 g7 .add .n32 false 12 (.v 13) 0 5, .xsync 1, .xend 1], OnX i un (opened [part 7 1 0 true, part 9 1 0 false])
      (partOf (opened [part 7 1 0 true, part 9 1 0 false]) un.id = some (part 7 1 0 true) ∧ (firstOf un).st ≠ .blocked)) := by
  refine ⟨?_, meets rfl (by decide +kernel), rfl, ?_⟩
  · intro i hi
    simp only [List.mem_cons, List.not_mem_nil, or_false] at hi
    rcases hi with rfl | rfl
    all_goals exact meets rfl (by decide +kernel)
  · intro i hi
    simp only [List.mem_cons, List.not_mem_nil, or_false] at hi
    rcases hi with rfl | rfl | rfl | rfl
    all_goals exact meets rfl (by decide +kernel)

/-- ExpandQuery: before the first round and after it, past the last iteration, and in a gathering context. -/
theorem witness_xquery :
    (∀ k ∈ [opened [part 7 0 0 false], opened [part 7 3 0 false], xc .gathering 2 [part 7 0 0 false] []], ∀ sel : Fin 4,
      Issues (.xquery 1 g7 14 sel) (stage un (unitX k)) un 0 x0 ∧ (partOf (unitX k).xctx[(1 : Fin 4)] un.id).isSome = true ∧
      activeOf (.xquery 1 g7 14 sel) un x0 ≠ 0) := by
  intro k h sel
  simp only [List.mem_cons, List.not_mem_nil, or_false] at h
  have hs : sel = 0 ∨ sel = 1 ∨ sel = 2 ∨ sel = 3 := by revert sel; decide
  rcases h with rfl | rfl | rfl <;> rcases hs with rfl | rfl | rfl | rfl
  all_goals exact ⟨issues_of rfl rfl rfl (by decide +kernel), by decide +kernel⟩

/-! #### Copies and the matrix unit -/

/-- A copy operation of unit 5 on engine 0 whose handle is that of slot 0, and the state of the tests with operations. -/
def h0 : HEntry := hent 0 1 .pending 0 (.unit 5)
def cpOf (id : Nat) (k : CKind) (a b c d : Word) : CopyOp :=
  { id := id, ctx := 0, handle := handleValue h0, eng := 0, unit := some 5, core := 0, kind := k, ssp := true, dsp := true, h := 0, ty := .n32, a := a
    b := b, c := c, d := d, i := 0, slot := none, faulted := false, tags := [], buf := [], sent := false, sysw := none, bad := none, ending := none, checked := none }
def copying (os : List CopyOp) : State := { withHandles un [h0] with copies := os }
def queueOf32 (n : Nat) : List CopyOp := (List.range n).map fun k => cpOf (50 + k) .plain 0 64 1 0
def queued (n : Nat) (w : Warp) : State := { stage w unit0 with copies := queueOf32 n }
/-- A copy to memory at `s2`. -/
def cg : COp := { co with dsp := false }

theorem witness_copyIssue :
    On (.cpy { co with g := b1 }) un (act (.cpy { co with g := b1 }) un = 0) ∧
    Meets (.cpy co) (queued 31 un) un (copyKind (.cpy co) = some (co, .plain) ∧ firstOperand un co .plain = none ∧
      (queueOf (queued 31 un) 0).length = 31 ∧ NoFarWrites (queued 31 un) 0 ∧ NoDirty (cleaned (counted (queued 31 un) un 0) un .die) 0 wideLine ∧ (handleRoom (counted (queued 31 un) un 0) un 4).isSome = true) ∧
    Meets (.cpy co) (queued 32 un) un ((queueOf (queued 32 un) 0).length = 32) ∧
    Meets (.cpy co) (withHandles un (pend 16)) un ((handleRoom (counted (withHandles un (pend 16)) un 0) un 4).isNone = true) ∧
    On (.cpy cg) (withS 2 0x1FFFC un) (firstOperand (withS 2 0x1FFFC un) cg .plain = some 0x1FFFC ∧
      translate (stage (withS 2 0x1FFFC un) unit0) 0 0 0x1FFFC = .ok 0x1FFFC { ctx := 0, base := placeBase, size := 0x10000, pte := placePte, leafAt := 0 } ∧
      regionOf 0x1FFFC = .package ∧ dieOf 0x1FFFC = coreDie 0) ∧
    On (.cpy cg) (withS 2 0x30000 un) (translate (stage (withS 2 0x30000 un) unit0) 0 0 0x30000 = .miss ∧ firstOperand (withS 2 0x30000 un) cg .plain = some 0x30000) ∧
    (copyCount (cpOf 1 .plain 0 0 0 0) = 0 ∧ countBad (cpOf 1 .plain 0 0 0 0) = false ∧ copyCount (cpOf 1 .plain 0 0 1 0) ≠ 0) := by
  refine ⟨meets rfl (by decide +kernel), meets rfl (by decide +kernel), meets rfl (by decide +kernel), meets rfl (by decide +kernel), meets rfl (by decide +kernel),
    meets rfl (by decide +kernel), by decide +kernel⟩

/-- What CopyInScratch asks of an operation alone in its queue. -/
def copyReady (o : CopyOp) : Bool :=
  let s := copying [o]
  s.copies.find? (fun y => y.id == o.id) == some o && copyActive s o && o.bad.isNone && !o.sent && o.sysw.isNone && o.ending.isNone &&
    !s.dies[engDie o].closing && s.dies[engDie o].dstate != .dieOffline &&
    entryOf s.ctxs[o.ctx] o.handle == some h0 && !h0.cancelReq && s.ctxs[o.ctx].handles == [h0]

/-- A raw operation whose operands lie in scratch; at the last place of scratch and past it; its last element and one before; bad counts and
addresses; the halting of its context, and the fifth of a queue. -/
theorem witness_copyElements :
    (∀ o ∈ [cpOf 1 .plain 0 65532 1 0, cpOf 1 .plain 0 65536 1 0, cpOf 1 .fill 7 64 2 0, cpOf 1 (.gather true true) 0 64 1 65528, cpOf 1 .twoD 0 64 0x100000001 0,
        cpOf 1 (.reduce .add) 0 64 1 0, cpOf 1 .plain 1 64 1 0, cpOf 1 .plain 0 64 (2 ^ 32) 0], copyReady o = true) ∧
    InUnit (copying [cpOf 1 .plain 0 65532 1 0]) (cpOf 1 .plain 0 65532 1 0) unit0 65536 ∧
    ((65532 : Nat) + tyBytes .n32 ≤ 65536 ∧ 65536 < (65536 : Nat) + tyBytes .n32) ∧
    (offset (placesOf (cpOf 1 .plain 0 65532 1 0) 0 0).2 = 65532 ∧ offset (placesOf (cpOf 1 .plain 0 65536 1 0) 0 0).2 = 65536 ∧
      copyCount (cpOf 1 .fill 7 64 2 0) = 2 ∧ countBad (cpOf 1 .plain 0 64 (2 ^ 32) 0) = true ∧ rawMisaligned (cpOf 1 .plain 1 64 1 0) ≠ none ∧
      rawMisaligned (cpOf 1 .plain 0 65532 1 0) = none) ∧
    ((modCtx (copying [cpOf 1 .plain 0 0 1 0]) 0 fun x => { x with st := .halted }).ctxs[(0 : Fin 64)].st = .halted ∧
      (haltingNow (copying [cpOf 1 .plain 0 0 1 0])).ctxs[(0 : Fin 64)].st = .halting ∧ (cpOf 1 .plain 0 0 1 0).bad = none ∧
      (findUnit { copying [cpOf 1 .plain 0 0 1 0] with units := [{ unit0 with st := .swapped }] } 5).map (·.st) = some .swapped ∧
      (queueOf (copying ((List.range 5).map fun k => cpOf k .plain 0 0 1 0)) 0).map (·.id) = [0, 1, 2, 3, 4]) := by
  refine ⟨by decide +kernel, ⟨rfl, rfl, rfl, .inl rfl, ?_, ⟨wideLaunch, rfl, by decide⟩, ?_⟩, by decide +kernel, by decide +kernel, by decide +kernel⟩
  · intro _ _ h; rcases h with h | h <;> cases h
  · intro _ _ _; exact ⟨nofun, nofun⟩

/-- CopyEnds: a cancel that is asked; an operation that ends, with a flushing read to send and with none, and one that waits for the bridge. -/
def cancelling : HEntry := { h0 with cancelReq := true, wscope := .package }
def endingCopy (pa : Option Nat) (e : HEntry) : State :=
  { withHandles un [e] with copies := [{ cpOf 1 .plain 0 0 1 0 with sysw := pa, ending := some (.done, faultOf 0) }] }
theorem witness_copyEnds :
    (let s := { withHandles un [cancelling] with copies := [cpOf 1 .plain 0 0 1 0] }
     s.copies.find? (fun y => y.id == 1) = some (cpOf 1 .plain 0 0 1 0) ∧ copyActive s (cpOf 1 .plain 0 0 1 0) = true ∧
     entryOf s.ctxs[(0 : Fin 64)] (cpOf 1 .plain 0 0 1 0).handle = some cancelling ∧ (∀ e ∈ s.ctxs[(0 : Fin 64)].handles, e.slot = cancelling.slot → e = cancelling)) ∧
    (∀ pa ∈ [none, some 4096], ∀ e ∈ [h0, cancelling], (endingCopy pa e).copies.all (fun o => copyActive (endingCopy pa e) o && o.bad.isNone && o.ending.isSome &&
      entryOf (endingCopy pa e).ctxs[(0 : Fin 64)] o.handle == some e) = true ∧ (endingCopy pa e).host.up = true ∧
      crossing (endingCopy pa e) (engDie (cpOf 1 .plain 0 0 1 0)) 0 = .free) ∧
    (scopeCode h0.wscope < scopeCode .package ∧ scopeCode .package ≤ scopeCode cancelling.wscope ∧ Across (endingCopy none h0) 0 ∧
      ¬ Across { endingCopy none cancelling with bridge := withPacket.bridge } 0) := by
  refine ⟨by decide +kernel, by decide +kernel, by decide +kernel⟩

/-- TermBlocks: a block of zeros, and one of NaNs in E4M3. -/
theorem witness_termBlocks : (List.replicate 32 (some (0 : Int))).length = 32 ∧ theld .int8 0 = true ∧
    (List.replicate 32 (none : Option Int)).length = 32 ∧ none ∈ List.replicate 32 (none : Option Int) := by decide +kernel

/-- An engine of the warp's quadrant and one of another; a queue of one and of two; configuration words that pass R205 and that do not. -/
def matOf (id : Nat) (k : MKind) : MatOp :=
  { id := id, ctx := 0, unit := 5, e := 1, kind := k, tile := some 2, bank := some 0, handle := handleValue h0, warp := 7, active := BitVec.allOnes 32
    cfg := 0x11, a := 0, b := 64, c := 0, d := 0, due := none, row := 0, blks := [], bad := none, faulted := false, tags := [], buf := [], fail := none, quad := 0, issued := 0 }
def matQueue (n : Nat) : State := { stage un unit0 with mops := (List.range n).map fun k => matOf k .zero }

theorem engine_ok (w : Warp) (hw : w.kind = .unit 5) (hq : w.quad = 0) : EngineOk (stage w unit0) w xo unit0 := by
  refine ⟨?_, wideLaunch, rfl, by decide, by rw [hq]; rfl⟩
  simp [unitOf, hw, findUnit, stage, unit0, newUnit]

theorem witness_matrixIssue :
    EngineOk (stage un unit0) un xo unit0 ∧ (∀ u, ¬ EngineOk (stage un unit0) un { xo with e := 2 } u) ∧
    On (.mcfg { xo with sa := 1 }) (withS 1 0x11 un) (act (.mcfg { xo with sa := 1 }) (withS 1 0x11 un) ≠ 0) ∧
    (¬ badConfig 0x11 ∧ badConfig 0 ∧ badConfig 0x10011) ∧
    (∀ i ∈ [Instr.mldw { xo with hn := 4, sa := 1, sb := 2, sc := 3 } 1 0 true 0 1, .mldwNorm { xo with hn := 4, sa := 1 } true
        , .mma { xo with t := 2, hn := 4, sa := 1, sb := 2 } 0 0 0, .mzero { xo with t := 2, hn := 4 }
        , .mst { xo with t := 2, hn := 4, sa := 1, sb := 2 } .i8 false false false, .mmovFromTile { xo with t := 2, hn := 4 } 1 2 9
        , .mmovToTile { xo with t := 2, hn := 4 } 1 2 9, .mtopk { xo with t := 2, hn := 4, sa := 1, sb := 2 } 3 true, .mdist { xo with t := 2, hn := 4, sa := 1 }],
      On i un ((matrixKind un i).isSome = true ∧ act i un ≠ 0)) ∧
    Meets (.mzero { xo with t := 2, hn := 4 }) (matQueue 1) un ((engineQueue (matQueue 1) 5 1).length = 1 ∧
      (handleRoom (counted (matQueue 1) un 0) un 4).isSome = true) ∧
    Meets (.mzero { xo with t := 2, hn := 4 }) (matQueue 2) un ((engineQueue (matQueue 2) 5 1).length = 2) ∧
    On (.mzero { xo with e := 2, t := 2, hn := 4 }) un (act (.mzero { xo with e := 2, t := 2, hn := 4 }) un ≠ 0) := by
  refine ⟨engine_ok un rfl rfl, ?_, meets rfl (by decide +kernel), by unfold badConfig; decide +kernel, ?_, meets rfl (by decide +kernel), meets rfl (by decide +kernel),
    meets rfl (by decide +kernel)⟩
  · rintro u ⟨_, _, _, _, h⟩; exact absurd h (by decide)
  · intro i hi
    simp only [List.mem_cons, List.not_mem_nil, or_false] at hi
    rcases hi with rfl | rfl | rfl | rfl | rfl | rfl | rfl | rfl | rfl
    all_goals exact meets rfl (by decide +kernel)

/-- A unit whose engine 1 is configured, with a tagged bank and an integer tile. -/
def unitM : UnitSt :=
  { unit0 with
    engs := unit0.engs.set 1 { Eng.reset with cfg := 0x11, banks := Vector.set (always 2 Bank.reset) 0 { Bank.reset with tag := some 1 } }
    tiles := unit0.tiles.set 2 { Tile.reset with kind := .int } }
def stageM (w : Warp) (os : List MatOp) : State := { modCtx (stage w unitM) 0 (fun x => { x with handles := [h0] }) with mops := os }

theorem witness_matrixBounds :
    On (.mbound { xo with sd := 5 } 3) un (unit0.engs[(1 : Fin 8)].cfg.toNat % 16 = 0) ∧
    Meets (.mbound { xo with sd := 5 } 3) (stageM un []) un (unitM.engs[(1 : Fin 8)].cfg.toNat % 16 = 1) ∧
    Meets (.mcount { xo with sa := 1, sb := 2, sd := 5 } 3) (stageM (withS 2 256 (withS 1 57344 un)) []) (withS 2 256 (withS 1 57344 un))
      (offset (sreg (withS 2 256 un) 2) % 64 = 0 ∧ ∀ l : Fin 32, ∀ j : Fin 4, 57344 + l.val * 256 + j.val * 64 + 64 ≤ wideLaunch.r.scrk * 1024 ∧
        theaderOk (Machine.fmtA 0x11) false (readN unitM.scratch (57344 + l.val * 256 + j.val * 64) 64) = true) :=
  ⟨meets rfl (by decide +kernel), meets rfl (by decide +kernel), meets rfl (by decide +kernel)⟩

/-- The hypotheses of a start and of an end of an operation alone in the list. -/
def matKinds : List MKind :=
  [.zero, .st .f32 false false, .dist, .fromTile 7 31 255, .toTile 7 31 (always 32 0), .topk 16 true, .mma 96 1]
def ends (k : MKind) : MatOp := { matOf 9 k with due := some 0 }

theorem witness_matrixStarts :
    (∀ k ∈ matKinds, (stageM un [matOf 9 k]).mops = [matOf 9 k] ∧ findUnit (stageM un [matOf 9 k]) 5 = some unitM ∧ unitM.st = .resident) ∧
    (∀ k ∈ matKinds, matBad (stageM un [ends k]) unitM { ends k with b := 64 * (if k = .mma 96 1 then 1 else 16) } = none) ∧
    (matBad (stageM un []) unitM (matOf 9 (.mma 128 1))).isSome = true := by decide +kernel

/-- MatrixStart, a cycle after the issue; the blocks of an `mma`, integer and MX, and its tile; a tile of f32 slots; an `insertOp` behind and before. -/
def mxUnit : UnitSt :=
  { unitM with engs := unitM.engs.set 1 { unitM.engs[(1 : Fin 8)] with cfg := 0x33 }, tiles := unitM.tiles.set 2 { Tile.reset with kind := .fp } }
def mmaOf (cfg : BitVec 16) : MatOp := { ends (.mma 0 1) with cfg := cfg, blks := startBlocks unitM { matOf 9 (.mma 0 1) with cfg := cfg } }
theorem witness_matrixMore :
    (let s := { stageM un [matOf 9 .zero] with now := 1 }
     s.mops = [matOf 9 .zero] ∧ findUnit s 5 = some unitM ∧ (matOf 9 .zero).issued < s.now ∧ (matOf 9 .zero).due = none ∧ (matOf 9 .zero).faulted = false) ∧
    isMx (cfgA 0x33) = true ∧ mxUnit.tiles[(2 : Fin 8)].kind = .fp ∧ Sparse.wf mxUnit.tiles[(2 : Fin 8)].slots = true ∧ Tile.reset.kind = .empty ∧
    (∀ y ∈ [matOf 8 .zero], ¬ (y.unit = 5 ∧ y.issued = (matOf 9 .zero).issued ∧ (matOf 9 .zero).quad < y.quad)) ∧
    (let y := { matOf 8 .zero with quad := 1 }
     y.unit = (matOf 9 .zero).unit ∧ y.issued = (matOf 9 .zero).issued ∧ (matOf 9 .zero).quad < y.quad) := by decide +kernel

theorem witness_blocks (c : BitVec 16) : (mmaOf c).blks = startBlocks unitM (mmaOf c) ∧ (mmaOf c).due = some 0 := by
  unfold mmaOf startBlocks; exact ⟨rfl, rfl⟩

/-- MxArithmetic, StoredElements and TopColumns: a NaN, a number and an infinity of f32. -/
theorem witness_f32 : fNan fmtF32 0x7FC00002 = true ∧ fNan fmtF32 0x3F800000 = false ∧ fVal fmtF32 0x3F800000 = .num false 0x800000 (-23) ∧
    fVal fmtF32 0xFF800000 = .inf true := by decide +kernel

theorem witness_matrixEnds : Ending (stageM un [ends .zero]) (ends .zero) [] unitM := by
  have h : (ends .zero).bad = none ∧ findUnit (stageM un [ends .zero]) 5 = some unitM ∧ unitM.id = 5 ∧
      (0 : Nat) ≤ (stageM un [ends .zero]).now := by decide +kernel
  obtain ⟨h1, h2, h3, h5⟩ := h
  unfold Ending
  refine ⟨rfl, ⟨0, rfl, h5⟩, h1, h2, h3, ?_⟩
  intro y hy; cases hy

theorem witness_matrixRuns :
    (isMx (cfgA 0x11) = false ∧ unitM.tiles[(2 : Fin 8)].kind = .int ∧ Sparse.wf unitM.tiles[(2 : Fin 8)].slots = true ∧ Memory.wf unitM.scratch = true) ∧
    entryOf (stageM un []).ctxs[(0 : Fin 64)] (handleValue h0) = some h0 := by decide +kernel

/-- TopColumns and MatrixRowsAndCounts: the last row of a bank, with its row at the end of scratch. -/
def lastRow : MatOp := { matOf 9 (.ldw 32 96 true 1) with due := some 0, row := 31, a := 65536 - 256 - 31 * 256, b := 256, tags := [], bad := none }

theorem witness_matrixRows : Tile.reset.kind ≠ .fp ∧ (256 : Nat) ≤ 256 ∧
    (stageM un [lastRow]).mops.find? (fun y => y.id == lastRow.id && rowReady (stageM un [lastRow]) y) = some lastRow ∧
    findUnit (stageM un [lastRow]) 5 = some unitM ∧ launchOf (stageM un [lastRow]) unitM = some wideLaunch ∧
    (∀ b : Fin 2, Sparse.wf unitM.engs[(1 : Fin 8)].banks[b].cells = true) ∧
    offset (lastRow.a + BitVec.ofNat 64 lastRow.row * lastRow.b) + rowBytes 1 ≤ wideLaunch.r.scrk * 1024 := by decide +kernel

/-- MatrixRowWrites: a row of scratch, one with its scale block, the row of norms, a row past the end of scratch, and one in memory whose page must be
walked. -/
def rowOf (k : MKind) (a : Word) : MatOp := { matOf 9 k with due := some 0, a := a, b := 256 }
def rowGot (o : MatOp) : Nat :=
  match rowRead (stageM un [o]) o with
  | .ok (_, none) _ _ => 1
  | .ok (_, some _) _ _ => 2
  | .again _ => 3
  | .bad f _ => if f.cause = 9 then 4 else 5
  | .send _ _ => 6
theorem witness_rowWrites :
    ([rowOf (.ldw 32 96 true 1) 0, rowOf (.ldw 32 96 true 4) 0, rowOf (.norm true) 0, rowOf (.ldw 32 96 true 1) 65536, rowOf (.ldw 32 96 false 1) 0x30000].map rowGot) =
      [1, 2, 1, 4, 3] ∧
    (∀ o ∈ [rowOf (.ldw 32 96 true 1) 0, rowOf (.norm true) 0, rowOf (.ldw 32 96 true 1) 65536],
      (stageM un [o]).mops.find? (fun y => y.id == o.id && rowReady (stageM un [o]) y) = some o ∧ o.fail = none) := by decide +kernel

/-- A count on its way to an s-register. -/
def countResult : Result := { result0 (issOf (.mcount xo 0) un 0 x0) .mcount with id := 1, due := some 0, sw := some (5, 9) }
theorem witness_mcountResult : ({ stage un unit0 with results := [countResult] } : State).results.find?
    (fun r => r.kind == .mcount && resultDue { stage un unit0 with results := [countResult] } r && r.due.isSome) = some countResult := by decide +kernel

/-! #### Work: launches, events, counters and ends -/

/-- A record that passes every check, and for each check one that fails it first. -/
def rec1 : LRec :=
  { wideRecord with entry := 8, items := 2 ^ 42, wpu := 1, vregs := 1, scrk := 0, te := false, emask := 0, acct := 0, chain := false, chm := 0, xc := false, ppw := 1 }
def recAt (n : Nat) : LRec :=
  match n with
  | 1 => { rec1 with items := 2 ^ 42 + 1 }
  | 2 => { rec1 with entry := 4 }
  | 3 => { rec1 with ppw := 93 }
  | 4 => { rec1 with ppw := 0 }
  | 5 => { rec1 with te := true }
  | 6 => { rec1 with chain := true }
  | 8 => { rec1 with phase := 2 }
  | 9 => { rec1 with trapen := true, tv := 0, ts := 8 }
  | _ => rec1

/-- R77: the status of each check, with the sum of the regions at 92 and at 93, and the phase at the current one and before it. -/
theorem test_launchStatus :
    ((List.range 10).map fun n => launchStatus { Ctx.reset with cph := if n = 8 then 3 else 2 } { recAt n with phase := 2 } chainDef0) = [0, 1, 2, 3, 4, 5, 6, 0, 8, 9] ∧
    launchStatus Ctx.reset { rec1 with ppw := 92 } chainDef0 = 0 ∧
    launchStatus { Ctx.reset with launches := List.replicate 1024 wideLaunch } rec1 chainDef0 = 7 := by decide +kernel

/-- Words of memory from an address on, each in its page of the tests; and a record there, with or without a chain default block. -/
def wordsFrom (s : State) (w : Warp) (a n : Nat) : List (Spot × Nat) :=
  (List.range n).map fun k => ({ gotSpot (locate s w.core w.ctx (BitVec.ofNat 64 (a + 8 * k)) false) with part := 0 }, a + 8 * k)
def recordAt (chain : Bool) : State :=
  { stage (withS 1 0x1FF80 jw) unit0 with
    mem := if chain then writeN (writeN [] (0x1FF80 + 16) 8 (2 ^ 32)) (0x1FF80 + 32) 8 0x1FF40 else [] }
abbrev lw : Warp := withS 1 0x1FF80 jw

/-- WordsAt, as a test. -/
def wordsAtOk (s : State) (w : Warp) (a : Nat) (n : Nat) : Bool :=
  (List.range n).all fun k =>
    let r := locate s w.core w.ctx (BitVec.ofNat 64 (a + 8 * k)) false
    let p := { gotSpot r with part := 0 }
    r == .ok (gotSpot r) && ((wordStages s w).all fun f => f p == .ok p) && localPa s w.core (gotSpot r) == some (a + 8 * k)

theorem wordsAt_of {s : State} {w : Warp} {a n : Nat} (h : wordsAtOk s w a n = true) :
    WordsAt s w (BitVec.ofNat 64 a) n (wordsFrom s w a n) := by
  refine ⟨by simp [wordsFrom], fun l hl => ?_⟩
  have := List.all_eq_true.mp h l.val (List.mem_range.mpr hl)
  simp only [Bool.and_eq_true, beq_iff_eq] at this
  obtain ⟨⟨h1, h2⟩, h3⟩ := this
  have e : wordAddr (BitVec.ofNat 64 a) l = BitVec.ofNat 64 (a + 8 * l.val) := by
    unfold wordAddr; apply BitVec.eq_of_toNat_eq; simp
  exact ⟨gotSpot (locate s w.core w.ctx (BitVec.ofNat 64 (a + 8 * l.val)) false), a + 8 * l.val,
    by simp [wordsFrom, List.getElem?_map, List.getElem?_range hl], by rw [e]; exact h1, fun f hf => by simpa using List.all_eq_true.mp h2 f hf, h3⟩

theorem witness_launch :
    (∀ c : Bool, WordsAt (l1Clean (counted (recordAt c) lw 0) 0 wideLine) lw (BitVec.ofNat 64 0x1FF80) 16
      (wordsFrom (l1Clean (counted (recordAt c) lw 0) 0 wideLine) lw 0x1FF80 16)) ∧
    (∀ c : Bool, Meets (.launch g7 4 1) (recordAt c) lw (act (.launch g7 4 1) lw ≠ 0 ∧ (handleRoom (counted (recordAt c) lw 0) lw 4).isSome = true ∧
      Releasable (counted (recordAt c) lw 0) lw ∧
      (let u := l1Clean (counted (recordAt c) lw 0) 0 wideLine
       let r := wordsRead u (issOf (.launch g7 4 1) lw 0 x0) (wordsFrom u lw 0x1FF80 16)
       let d := wordsRead r.2 (issOf (.launch g7 4 1) lw 0 x0) (wordsFrom r.2 lw 0x1FF40 8)
       let v := ((if c then handleRoom d.2 lw 4 else handleRoom r.2 lw 4)).getD State.reset
       (parseRecord r.1).chain = c ∧ (c = true → (parseRecord r.1).cdef = 0x1FF40 ∧ wordsAtOk r.2 lw 0x1FF40 8 = true) ∧
         (handleRoom d.2 lw 4).isSome = true ∧ (handleRoom r.2 lw 4).isSome = true ∧ (newHandle v lw 3 0).1 ≠ 0 ∧ DroverFree v lw))) ∧
    Meets (.launch g7 4 1) (modCtx (stage jw unit0) 0 fun x => { x with handles := pend 16 }) jw
      ((handleRoom (counted (modCtx (stage jw unit0) 0 fun x => { x with handles := pend 16 }) jw 0) jw 4).isNone = true) ∧
    On (.launch g7 4 1) (withS 1 0x10001 jw) ((sreg (withS 1 0x10001 jw) 1).toNat % 8 ≠ 0 ∧ ∀ l : Fin 16,
      (match locate (l1Clean (counted (stage (withS 1 0x10001 jw) unit0) (withS 1 0x10001 jw) 0) 0 wideLine) 0 0 (wordAddr 0x10001 (Fin.ofNat 32 l.val)) false with
        | .ok p => pteFmt p.e.pte == 0 | _ => false) = true) := by
  refine ⟨?_, ?_, meets rfl (by decide +kernel), meets rfl (by decide +kernel)⟩
  · intro c; cases c <;> exact wordsAt_of (by decide +kernel)
  · unfold Releasable Settled; intro c; cases c <;> exact meets rfl (by decide +kernel)

/-- Launches of a context: held with nothing awaited, held with an event awaited that has not come, and of no items. -/
def heldL : Launch := { wideLaunch with st := .held, r := { wideRecord with wait := 0 }, next := 0 }
def noItems : Launch := { heldL with total := 0, r := { wideRecord with items := 0, set := 2 } }

/-- Examination, Events with its masks set, clear and mixed. -/
theorem witness_events :
    (∀ l ∈ [heldL, { heldL with r := { wideRecord with wait := 2 ^ 255 } }], l.fin = true ∨ l.retired ≠ l.total ∨ l.st = .done ∨ l.st = .refused) ∧
    ((haltingNow (stage jw unit0)).ctxs[(0 : Fin 64)].st = .halting ∧ (stage jw unit0).ctxs[(0 : Fin 64)].st = .running) ∧
    (noItems.st = .held ∧ noItems.total = 0 ∧ noItems.retired = 0 ∧ noItems.cancel = false ∧ noItems.fin = false ∧ noItems.r.wait = 0 ∧
      noItems.r.phase ≤ (stage jw unit0).ctxs[(0 : Fin 64)].cph ∧ (stage jw unit0).links = [] ∧ noInval (stage jw unit0) = true) ∧
    (∀ i ∈ [Instr.evset eo, .evclr eo, .evwait eo], On i jw (act i jw ≠ 0)) ∧ On (.evset { eo with g := b1 }) jw (act (.evset { eo with g := b1 }) jw = 0) ∧
    (Releasable (counted (stage jw unit0) jw 0) jw ∧ DroverFree (l1Clean (counted (stage jw unit0) jw 0) 0 wideLine) jw ∧ DroverFree (stage jw unit0) jw ∧
      NoLinkReads (stage jw unit0) jw) ∧
    On (.evwait eo) (withS 4 (2 ^ 63) jw) (maskBit (withS 4 (2 ^ 63) jw) eo 255 = true ∧ (stage jw unit0).ctxs[jw.ctx].ev.getLsbD 255 = false) ∧
    Meets (.evwait eo) (modCtx (stage (withS 4 (2 ^ 63) jw) unit0) 0 fun x => { x with ev := 2 ^ 255 }) (withS 4 (2 ^ 63) jw)
      (∀ e : Fin 256, maskBit (withS 4 (2 ^ 63) jw) eo e.val = true → (2 ^ 255 : BitVec 256).getLsbD e.val = true) := by
  refine ⟨by decide +kernel, by decide +kernel, by decide +kernel, ?_, meets rfl (by decide +kernel), ?_, meets rfl (by decide +kernel), meets rfl (by decide +kernel)⟩
  · intro i hi
    simp only [List.mem_cons, List.not_mem_nil, or_false] at hi
    rcases hi with rfl | rfl | rfl
    all_goals exact meets rfl (by decide +kernel)
  · unfold Releasable Settled; decide +kernel

/-- HomeDrover: a job warp of die 0 in a context of die 1, while the bridge retrains and while it is down. -/
def afar (b : Bridge) : State := { modCtx (stage jw unit0) 0 (fun x => { x with mode := true, die := 1 }) with bridge := b }
theorem witness_homeDrover :
    (∀ i ∈ [Instr.evclr eo, .evwait eo, .cancelLaunch g7 1, .cancelGraph g7 1, .cancelPhase g7 1, .cancelJob ⟨g7, 1⟩, .cntrd .abort { eo with sa := 0, sb := 0, sc := 0 }],
      Meets i (afar { Bridge.reset with retrain := some 0 }) jw (act i jw ≠ 0) ∧ Meets i (afar { Bridge.reset with down := true }) jw (act i jw ≠ 0)) ∧
    crossing (afar { Bridge.reset with retrain := some 0 }) (coreDie jw.core) (homeDie (afar { Bridge.reset with retrain := some 0 }) 0) = .stalled ∧
    crossing (afar { Bridge.reset with down := true }) (coreDie jw.core) (homeDie (afar { Bridge.reset with down := true }) 0) = .down := by
  refine ⟨?_, by decide +kernel⟩
  intro i hi
  simp only [List.mem_cons, List.not_mem_nil, or_false] at hi
  rcases hi with rfl | rfl | rfl | rfl | rfl | rfl | rfl
  all_goals exact ⟨meets rfl (by decide +kernel), meets rfl (by decide +kernel)⟩

/-- A context whose launches are done, with its job warp alone. -/
def alone (w : Warp) : State := { modCtx (stage w unit0) 0 (fun x => { x with launches := [] }) with units := [] }

/-- A launch of handle 0x60000201 in slot 1, of the job warp. -/
def hl : HEntry := hent 1 3 .pending 0 (.warp 7)
def namedL (l : Launch) : Launch := { l with handle := handleValue hl }
def withLaunch (l : Launch) : State := modCtx (stage (withS 1 ((handleValue hl).setWidth 64) jw) unit0) 0 fun x => { x with handles := [hl], launches := [namedL l] }
abbrev cw : Warp := withS 1 ((handleValue hl).setWidth 64) jw

theorem witness_cancels :
    On (.cancelLaunch g7 1) jw (act (.cancelLaunch g7 1) jw ≠ 0 ∧ sreg jw 1 = 0) ∧
    On (.cancelLaunch g7 1) (withS 1 1 jw) ((entryOf (stage jw unit0).ctxs[(0 : Fin 64)] 1).isNone = true) ∧
    Meets (.cancelLaunch g7 1) (withLaunch heldL) cw (entryOf (withLaunch heldL).ctxs[(0 : Fin 64)] (handleValue hl) = some hl ∧ hl.owner = ownerOf jw ∧
      (withLaunch heldL).ctxs[(0 : Fin 64)].launches.reverse.find? (fun y => y.handle == handleValue hl) = some (namedL heldL)) ∧
    On (.cancelGraph g7 1) jw (act (.cancelGraph g7 1) jw ≠ 0) ∧ On (.cancelPhase g7 1) jw (act (.cancelPhase g7 1) jw ≠ 0) ∧
    (findLaunch (withLaunch heldL).ctxs[(0 : Fin 64)] 0 = some (namedL heldL) ∧ heldL.st = .held ∧ heldL.next = 0 ∧ heldL.retired = 0 ∧ heldL.total ≠ 0 ∧
      (∀ u ∈ (alone jw).units, u.ctx = 0 → u.launch ≠ 0)) ∧
    findLaunch (withLaunch { heldL with st := .done }).ctxs[(0 : Fin 64)] 0 = some (namedL { heldL with st := .done }) ∧
    (let l : Launch := { heldL with st := .running, retired := heldL.total }
     findLaunch (withLaunch l).ctxs[(0 : Fin 64)] 0 = some (namedL l) ∧ l.fin = false) ∧
    DroverFree (stage jw unit0) jw ∧ DroverFree (withLaunch heldL) cw ∧
    On (.cancelJob ⟨g7, 1⟩) jw (act (.cancelJob ⟨g7, 1⟩) jw ≠ 0 ∧ (stage jw unit0).ctxs[jw.ctx].st = .running ∧ (stage jw unit0).ctxs[jw.ctx].held = none ∧
      (stage jw unit0).host.up = true) ∧
    On (.cancelJob ⟨b1, 1⟩) jw (act (.cancelJob ⟨b1, 1⟩) jw = 0) :=
  ⟨meets rfl (by decide +kernel), meets rfl (by decide +kernel), meets rfl (by decide +kernel), meets rfl (by decide +kernel), meets rfl (by decide +kernel),
    by decide +kernel, by decide +kernel, by decide +kernel, by decide +kernel, by decide +kernel, meets rfl (by decide +kernel), meets rfl (by decide +kernel)⟩

/-- A posted write that waits to cross. -/
def heldWrite : HeldMsg := { die := 1, owner := some 0, msg := .write 0 3 0 [0] }

/-- LaunchEnds: the bounds of each clause: a write of the context to the host that is held, one that no flushing read covers, and an atomic. -/
theorem witness_launchWaits :
    heldWrite.writes 0 = true ∧ (withLink .write true).host.held = [] ∧ Across (withLink .write true) 0 ∧ ¬ Across withPacket 0 ∧ withPacket.bridge.down = false ∧
    NoFarWrites (withLink .write true) 0 ∧ (∃ y ∈ (withLink .write true).links, systemWriteOf 0 wideLaunch.age y = true) ∧
    (∀ y ∈ (withLink .write true).links, y.kind ≠ .flush) ∧ crossing (withLink .write true) (homeDie (withLink .write true) 0) 0 = .free ∧
    (∃ y ∈ (withLink .atomic true).links, y.ctx = 0 ∧ y.copy = none ∧ y.kind = .atomic) := by decide +kernel

/-- JobCancel: a job that is being cancelled, with nothing that goes on, and with a copy that does. -/
def jobEnding (n : Nat) (os : List CopyOp) : State :=
  modCtx { copying os with warps := [] } 0 fun x => { x with jobEnd := some n, launches := [], held := none, st := .running }
theorem witness_jobEnding : (∀ n ∈ [0, 1, 255], (jobEnding n []).ctxs[(0 : Fin 64)].jobEnd = some n ∧ n ≠ 3 ∧ cancelOver (jobEnding n []) 0 = true ∧
      cancelOver (jobEnding n [cpOf 1 .plain 0 0 1 0]) 0 = false ∧ (jobEnding n []).ctxs[(0 : Fin 64)].st = .running ∧
      (jobEnding n []).ctxs[(0 : Fin 64)].held = none) ∧
    cancelOver (jobEnding 3 []) 0 = true ∧ (cpOf 1 .plain 0 0 1 0).faulted = false ∧ (cpOf 1 .plain 0 0 1 0).ctx = 0 := by decide +kernel

/-- LaunchEnds: a launch whose counter is zero, with no write outstanding and with one of its context (`stage_l1`: no L1 has a line). -/
theorem witness_launchEnds : findLaunch (withLaunch { wideLaunch with retired := wideLaunch.total }).ctxs[(0 : Fin 64)] wideLaunch.id =
      some (namedL { wideLaunch with retired := wideLaunch.total }) ∧
    (withLaunch wideLaunch).links = [] ∧ noInval (withLaunch wideLaunch) = true ∧
    ((withLink .write false).links.any fun y => y.ctx == 0 && y.copy.isNone && !y.sys && y.kind == .write) = true := by decide +kernel

/-- Counters: each selector, on a null value, on one that names nothing and on one of a launch; a unit that waits, one that is gone and one that is there. -/
def ec : EvOp := { eo with sb := 0, sc := 0 }
def ec0 : EvOp := { eo with sa := 0, sb := 0, sc := 0 }
def resident : UnitSt := { unit0 with ctx := 0, launch := 0, index := 0 }

theorem witness_counters :
    (∀ sel ∈ [CntSel.graph, .phase, .ev], On (.cntrd sel ec) jw True) ∧ (∀ sel ∈ [CntSel.abort, .cph, .job], On (.cntrd sel ec0) jw True) ∧
    (∀ sel ∈ [CntSel.lcount, .lstatus], Meets (.cntrd sel ec) (withLaunch heldL) cw (handleValue hl ≠ 0) ∧ On (.cntrd sel ec) jw (sreg jw 1 = 0) ∧
      On (.cntrd sel ec) (withS 1 1 jw) (act (.cntrd sel ec) jw ≠ 0)) ∧
    Meets (.cntrd .unit { ec with sb := 2 }) (withLaunch heldL) cw (heldL.next ≤ 0 ∧ 0 < heldL.total) ∧
    Meets (.cntrd .unit { ec with sb := 2 }) (withLaunch wideLaunch) cw (¬ wideLaunch.next ≤ 0) ∧
    Meets (.cntrd .warp { ec with sb := 2, sc := 3 }) (withLaunch wideLaunch) cw (field (sreg cw 3) 0 8 < wideLaunch.r.wpu) ∧
    Meets (.cntrd .warp { ec with sb := 2, sc := 3 }) (modCtx (stage (withS 3 4 cw) unit0) 0 fun x => { x with handles := [hl], launches := [namedL wideLaunch] })
      (withS 3 4 cw) (wideLaunch.r.wpu ≤ field (sreg (withS 3 4 cw) 3) 0 8) := by
  refine ⟨?_, ?_, ?_, meets rfl (by decide +kernel), meets rfl (by decide +kernel), meets rfl (by decide +kernel), meets rfl (by decide +kernel)⟩
  · intro i hi
    simp only [List.mem_cons, List.not_mem_nil, or_false] at hi
    rcases hi with rfl | rfl | rfl
    all_goals exact meets rfl (by decide +kernel)
  · intro i hi
    simp only [List.mem_cons, List.not_mem_nil, or_false] at hi
    rcases hi with rfl | rfl | rfl
    all_goals exact meets rfl (by decide +kernel)
  · intro i hi
    simp only [List.mem_cons, List.not_mem_nil, or_false] at hi
    rcases hi with rfl | rfl
    all_goals exact ⟨meets rfl (by decide +kernel), meets rfl (by decide +kernel), meets rfl (by decide +kernel)⟩

def halting (w : Warp) : Warp := { w with halting := true }

/-- With every L1 empty a release of all cores changes nothing, and waits only for what crosses the bridge already. -/
theorem releaseCores_empty {s : State} (h : ∀ c : Fin 384, s.cores[c].l1 = []) : releaseCores s = s := by
  unfold releaseCores
  generalize List.finRange 384 = cs
  induction cs with
  | nil => rfl
  | cons c r ih => rw [List.foldl_cons, h c]; exact ih

theorem stage_l1 (w : Warp) (c : Fin 384) : (stage w unit0).cores[c].l1 = [] := by
  have h : (stage w unit0).cores =
      (always 384 Core.reset).set 0 { (always 384 Core.reset)[(0 : Fin 384)] with
        tlb := tlbEnter 1024 (always 384 Core.reset)[(0 : Fin 384)].tlb { ctx := 0, base := placeBase, size := 0x10000, pte := placePte, leafAt := 0 } } := rfl
  rw [h, Fin.getElem_fin, Vector.getElem_set]
  have e : ∀ k : Fin 384, ((always 384 Core.reset)[k]).l1 = [] := by intro k; rw [always_get]; rfl
  split
  · exact e 0
  · exact e c

theorem storesOut_empty {u : State} {c : Fin 64} (h : ∀ k : Fin 384, u.cores[k].l1 = []) (ha : Across u c) : StoresOut (releaseCores u) c := by
  rw [releaseCores_empty h]
  exact ⟨fun k => by unfold l1Lost l1Stalled; rw [h k]; exact ⟨rfl, rfl⟩, .inr ha⟩

theorem jobDone_alone : JobDone (alone jw) jw := by unfold JobDone; decide +kernel

theorem witness_ends2 :
    On (.safept 3) un (un.halting = false) ∧ On (.safept 3) (halting un) ((halting un).halting = true) ∧ On .halt jw ((stage jw unit0).ctxs[jw.ctx].st = .running) ∧
    On .phase jw (∃ l ∈ liveOf (stage jw unit0).ctxs[jw.ctx], l.r.phase = (stage jw unit0).ctxs[jw.ctx].cph) ∧
    Meets .phase (alone jw) jw (∀ l ∈ liveOf (alone jw).ctxs[jw.ctx], l.r.phase ≠ (alone jw).ctxs[jw.ctx].cph) ∧
    Meets (.jobend 1) (alone jw) jw (act (.jobend 1) jw ≠ 0 ∧ (alone jw).ctxs[jw.ctx].st = .running ∧ (alone jw).ctxs[jw.ctx].held = none ∧
      (∀ v ∈ (alone jw).warps, v.ctx = jw.ctx → v.id = jw.id) ∧ jw.late = [] ∧ heldWords (alone jw) (functionOf (alone jw) 0) < 64 ∧ (alone jw).host.owed = []) ∧
    On (.jobend 1) jw (liveOf (stage jw unit0).ctxs[jw.ctx] ≠ []) :=
  ⟨meets rfl (by decide +kernel), meets rfl (by decide +kernel), meets rfl (by decide +kernel), meets rfl (by decide +kernel), meets rfl (by decide +kernel),
    meets rfl (by decide +kernel), meets rfl (by decide +kernel)⟩

theorem counted_l1 (s : State) (w : Warp) (sp : Fin 8) (k : Fin 384) (h : ∀ k : Fin 384, s.cores[k].l1 = []) : (counted s w sp).cores[k].l1 = [] := by
  have e : (counted s w sp).cores = s.cores.set w.core.val { s.cores[w.core] with
      issue := s.cores[w.core].issue.set w.quad.val (s.cores[w.core].issue[w.quad] + 1) w.quad.isLt
      lastIssue := s.cores[w.core].lastIssue.set w.quad.val (some s.now) w.quad.isLt } w.core.isLt := rfl
  rw [e, Fin.getElem_fin, Vector.getElem_set]
  split
  · exact h w.core
  · exact h k

/-- JobEnd and Exits: with every L1 empty and no link access outstanding; with 64 words held for the function, and with one that waits for a place. -/
theorem jobEnds_alone : NoPosted (alone jw) jw ∧ StoresOut (releaseCores (counted (alone jw) jw 0)) jw.ctx :=
  ⟨⟨by decide +kernel, fun y hy => absurd hy (List.not_mem_nil (a := y))⟩, storesOut_empty (fun k => counted_l1 _ jw 0 k fun k => stage_l1 jw k) (by decide +kernel)⟩
def heldWord : HeldMsg := { die := 0, owner := some 0, msg := .completion 0 0 0 0 }
theorem witness_heldWords :
    64 ≤ heldWords { alone jw with host := { up := false, held := List.replicate 64 heldWord, owed := [], bar2 := 0 } } (functionOf (alone jw) 0) ∧
    heldWord.wordOf (functionOf (alone jw) 0) = true := by decide +kernel

/-- JobEnd: a line of the context that waits for the bridge, on one core and on no other. -/
def stalledJob : State := { stalledL1 with warps := [jw], units := [] }
theorem stalledJob_l1 (k : Fin 384) (h : k ≠ 0) : stalledJob.cores[k].l1 = [] := by
  have e : stalledJob.cores = (stage un unit0).cores.set 0 { (stage un unit0).cores[(0 : Fin 384)] with l1 := stalledJob.cores[(0 : Fin 384)].l1 } := rfl
  rw [e, Fin.getElem_fin, Vector.getElem_set, if_neg (fun x => h (Fin.ext x.symm))]
  exact stage_l1 un k

/-- Exits: in a handler, in a bracket, as a participant, with a failed write, with the last lanes and with others, and by each kind of warp. -/
theorem witness_exits :
    On (.exit b1) un (act (.exit b1) un = 0 ∧ un.handler = none ∧ un.bracket = none) ∧
    (∀ i ∈ [Instr.exit g7, .exit b1], On i (handler 3) ((handler 3).handler ≠ none) ∧ On i (inBr un) ((inBr un).handler = none ∧ (inBr un).bracket ≠ none)) ∧
    OnX (.exit g7) un (opened [part 7 0 0 false]) (inExpand (counted (stage un (unitX (opened [part 7 0 0 false]))) un 0) un = true) ∧
    On (.exit g7) lateWarp (lateWarp.late ≠ [] ∧ inExpand (counted (stage lateWarp unit0) lateWarp 0) lateWarp = false) ∧
    Meets (.exit g7) (withLink .write false) un (un.live &&& ~~~act (.exit g7) un = 0 ∧ ∃ l ∈ (withLink .write false).links, l.warp = un.id ∧ farWriteOf un.ctx l = true) ∧
    On (.exit g7) un (un.live &&& ~~~act (.exit g7) un = 0) ∧ On (.exit b1) (half un) ((half un).live &&& ~~~act (.exit b1) (half un) ≠ 0) ∧
    Meets (.exit g7) (alone jw) jw (jw.kind = .job ∧ (alone jw).links = [] ∧ jw.live &&& ~~~act (.exit g7) jw = 0 ∧ inExpand (counted (alone jw) jw 0) jw = false) ∧
    On (.exit g7) sv (isService sv = true ∧ sv.live &&& ~~~act (.exit g7) sv = 0 ∧ (∀ d : Fin 2, (stage sv unit0).dies[d].served = [])) := by
  refine ⟨meets rfl (by decide +kernel), ?_, meets rfl (by decide +kernel), meets rfl (by decide +kernel),
    meets rfl (by decide +kernel), meets rfl (by decide +kernel), meets rfl (by decide +kernel), meets rfl (by decide +kernel), meets rfl (by decide +kernel)⟩
  intro i hi
  simp only [List.mem_cons, List.not_mem_nil, or_false] at hi
  rcases hi with rfl | rfl
  all_goals exact ⟨meets rfl (by decide +kernel), meets rfl (by decide +kernel)⟩

/-! #### Results, walks, maintenance, the Drover and swaps -/

/-- A result of a kind on its way to v9, s5 and p2 of the warp of the tests. -/
def res (id : Nat) (k : RKind) (due : Option Nat) (holds : Bool) : Result :=
  { result0 (issOf (.ld mo) un 0 x0) k with id := id, due := due, holds := holds, vw := [(9, always 32 4)], sw := some (5, 6), pw := some (2, 0xFF) }
def resulting (rs : List Result) : State := { stage un unit0 with results := rs }

theorem witness_results :
    (resulting [res 1 .load none true]).results.find? (fun y => y.id == 1 && y.kind == .load) = some (res 1 .load none true) ∧
    ((res 1 .load none true).vw.map (·.1)).Nodup ∧
    (∀ k ∈ [RKind.sfu, .vtos, .chain], FirstDue (resulting [res 1 .load none false, res 2 k (some 0) true]) k (res 2 k (some 0) true)) := by
  refine ⟨by decide +kernel, by decide +kernel, ?_⟩
  intro k hk
  refine ⟨[res 1 .load none false], [], rfl, rfl, fun n hn => by cases hn; exact Nat.zero_le _, ?_, (by decide : [1, 2].Nodup), ?_⟩
  · rintro ⟨_, z, hz, h, _⟩
    rw [List.mem_singleton.mp hz] at h; cases h
  · intro u v y e h
    have hy : y ∈ [res 1 .load none false] := e ▸ List.mem_append_right u (List.mem_cons_self ..)
    rw [List.mem_singleton.mp hy] at h
    simp only [← h] at hk
    exact absurd hk (by decide)

/-- A walk that the die waits for, of a page whose table leads to a leaf, of one whose root is zero, and of one that the TLB has. -/
def walk0 : WalkReq := { ctx := 0, page := 3, cores := [0], splits := [(un.id, 0)], ops := [4] }
def walking (root : Word) (m : Memory) : State :=
  modDie { modCtx (stage un unit0) 0 (fun x => { x with root := root }) with mem := m } 0 fun d => { d with walks := [walk0] }
/-- A five-level table: each node's first entry names the next, and entry 3 of the last is a leaf with A and D clear. -/
def table : Memory :=
  [(0x20000, 0x60001), (0x30000, 0x80001), (0x40000, 0xA0001), (0x50000, 0xC0001), (0x60018, 0x20027)].foldl (fun m p => writeN m p.1 8 p.2) []

theorem witness_walks : (walking 0 []).dies[(0 : Fin 2)].walks[0]? = some walk0 ∧ (3 : Nat) < 2 ^ 41 ∧
    tlbFind (walking 0 []).dies[(0 : Fin 2)].tlb 0 0x30000 = none ∧ walk (walking 0 []) 0 0 0x30000 = .stop 3 0 ∧
    (match walk (walking 0x20000 table) 0 0 0x30000 with | .leaf a p k _ => a == 0x60018 && p == 0x20027 && k == 0 | _ => false) = true ∧
    Memory.wf table = true ∧ pteA 0x20027 = false ∧ pteA (0x20027 ||| 0x8000) = true ∧
    (tlbFind (dieEnter (walking 0 []) 0 { ctx := 0, base := 0x30000, size := 0x10000, pte := placePte, leafAt := 0 }).dies[(0 : Fin 2)].tlb 0 0x30000).isSome = true ∧
    walkStalled (walking 0 []) 0 = false ∧ walkStalled { walking 0 [] with bridge := { Bridge.reset with retrain := some 0 } } 0 = true := by
  decide +kernel

/-- A maintenance operation; a partition with a bitmap. -/
def mt0 (k : MaintKind) (i : Nat) : Maint :=
  { id := 4, ctx := 0, handle := handleValue h0, kind := k, i := i, faulted := false, core := 0, tags := [], old := none, sysw := none, bad := none, ending := none }
def maintaining (o : Maint) : State := { partitioned jw with maints := [o] }

/-- A handle whose cancel is asked, a `dirtyclr` with two words whose last element has gone, and one that ends with each state. -/
def cancelled0 (s : State) : State := modCtx s 0 fun x => { x with handles := [{ h0 with cancelReq := true }] }
def dc (vb : Word) (i : Nat) : Maint := mt0 (.dirtyclr 0 128 vb) i

theorem witness_maint :
    (maintaining (mt0 (.tlbinv 0x10000 0x10000) 0)).maints.find? (fun y => y.id == 4) = some (mt0 (.tlbinv 0x10000 0x10000) 0) ∧
    linkOutstanding (maintaining (mt0 (.tlbinv 0x10000 0x10000) 0)) 0 0x10000 0x10000 = false ∧
    linkOutstanding { withLink .read false with links := [{ link .read false with va := 0x1FFFF, pages := [(0x10000, 0x10000)] }] } 0 0x10000 0x10000 = true ∧
    l1Stalled stalledL1 0 (fun l => l.owner == some 0) = true ∧
    (∀ i ∈ [0, 1, 2], maintActive (maintaining (dc 0 i)) (dc 0 i) = true ∧ cancelAsked (maintaining (dc 0 i)) 0 (dc 0 i).handle = false ∧
      bitmapLook (maintaining (dc 0 i)) (dc 0 i) 0 = none ∧ bitmapStalled (maintaining (dc 0 i)) (dc 0 i) 0 = false) ∧
    cancelAsked (cancelled0 (maintaining (dc 0 1))) 0 (dc 0 1).handle = true ∧ ((maintaining (dc 0 1)).maints.map (·.id)).Nodup ∧ (128 : Word).toNat / 64 = 2 ∧
    (let s := dieEnter (maintaining (dc 0x10000 0)) 0 { ctx := 0, base := 0x10000, size := 0x10000, pte := placePte, leafAt := 0 }
     let checks := fun (_ : State) (p : Word) => if pteFmt p ≠ 0 then some 7 else if (0x10000 : Word).toNat % 8 ≠ 0 then some 8 else none
     match engDest s (maintCopy (dc 0x10000 0) 0x10000) 0 0x10000 8 checks with
     | .ok _ _ _ => true | _ => false) = true ∧
    (match engDest (maintaining (dc (2 ^ 57) 0)) (maintCopy (dc (2 ^ 57) 0) (2 ^ 57)) 0 (2 ^ 57) 8 (fun _ _ => none) with | .bad f _ => f.cause | _ => 0) = 3 ∧
    (∀ st ∈ [HState.done, .cancelled, .faulted], maintActive (maintaining { dc 0 2 with ending := some (st, faultOf 3) }) { dc 0 2 with ending := some (st, faultOf 3) } = true) ∧
    (∃ l ∈ stalledL1.cores[(0 : Fin 384)].l1, inFrames (2 ^ 40 / 2 ^ 16) 64 l = true ∧ l.dirty ≠ 0) := by decide +kernel

/-- A pending carve of core 0, with its unit inside the new regions and outside them, and with its context halting; the granules of a unit. -/
def carving (p : BitVec 32) : State := { stage un unit0 with carves := [{ core := 0, ctx := 0, ppw := p, handle := handleValue h0 }] }
theorem witness_carve : l1Stalled (carving 1) 0 (fun _ => true) = false ∧ NothingLost (carving 1) 0 ∧ l1Stalled stalledL1 0 (fun _ => true) = true ∧ (carving 1).carves.find? (fun y => y.core == 0) = some { core := 0, ctx := 0, ppw := 1, handle := handleValue h0 } ∧
    unit0.regs = 0 ∧ unit0.scr = 0 ∧ unit0.acc = 0 ∧ (2 ^ 16 : BitVec 1536).getLsbD 16 = true ∧ ¬ 16 < 16 * (regionsOf 1).1 := by decide +kernel

/-- WatchedSplits: 14 and 15 cycles; 1,023 and 1,024 instructions; a waiting `waitv`; a faulted operation of a warp in its handler. -/
def idleFor (n : Nat) : Warp := withSplit 0 { x0 with idle := n } un
def drought (n : Nat) : Warp := halting (withSplit 0 { x0 with count := n } un)
def monitor : Warp := withSplit 0 { x0 with st := .blocked, timer := 1 } (at11 0x10100)
def monitored : State := { stage monitor unit0 with mem := writeN [] 0x10000 8 (match encode (.waitv ms) with | some (w, _) => w.toNat | none => 0), now := 1024 }

theorem witness_watched :
    (findWarp (stage (idleFor 15) unit0) (idleFor 15).id = some (idleFor 15) ∧ (idleFor 15).splits[(0 : Fin 8)] = some { x0 with idle := 15 }) ∧
    ((drought 1024).halting = true ∧ atSafePoint (drought 1024) = false ∧ SlotFree (stage (drought 1024) unit0) 0 ∧
      ((stage (drought 1024) unit0).warps.map (·.id)).Nodup ∧ (stage (drought 1024) unit0).host.up = true ∧ (stage (drought 1024) unit0).ctxs[(0 : Fin 64)].st = .running) ∧
    (standsAt monitored monitor 0 (firstOf monitor) = some (.waitv ms) ∧ (firstOf monitor).st = .blocked ∧ (firstOf monitor).timer + 1023 ≤ monitored.now) ∧
    ((handler 3).handler ≠ none ∧ entryOf (withHandles (handler 3) [hent 0 1 .faulted 3 (.warp 7)]).ctxs[(0 : Fin 64)] (handleValue (hent 0 1 .faulted 3 (.warp 7)))
      = some (hent 0 1 .faulted 3 (.warp 7)) ∧ handleValue (hent 0 1 .faulted 3 (.warp 7)) ≠ 0 ∧ ownerOf (handler 3) = .warp 7 ∧ resumable 3 = true) := by
  refine ⟨⟨rfl, rfl⟩, by decide +kernel⟩

/-- A partition of island 0, and a launch of one unit that is ready. -/
def readyL : Launch := { heldL with st := .ready, r := { rec1 with items := 33 }, total := 2 }
/-- Of its cores only 0 to 2 are in service. -/
def fewCores (s : State) : State := modDie s 0 fun d => { d with retCores := 0xFFF8 }
def placing : State := modCtx (fewCores (partitioned jw)) 0 fun x => { x with launches := [readyL] }

theorem witness_drover : (let y : Waiting := { ctx := 0, l := readyL, index := 0, unit := none }
      nextPlace placing (homeDie placing 0) = some (y, 1) ∧ coresFor placing y = [1, 2]) ∧
    (roomOn placing 1 readyL.r).isSome = true ∧ crossing placing (homeDie placing 0) (coreDie 1) = .free ∧ NothingLost placing 1 ∧
    findLaunch placing.ctxs[(0 : Fin 64)] 0 = some readyL ∧ placing.ctxs[(0 : Fin 64)].st = .running ∧
    (waitsCore placing 0 0 1 = true ∧ usable placing 0 1 = true ∧ reservation placing 1 = none ∧ placing.ctxs[(0 : Fin 64)].resvCore = [] ∧
      (modCtx { placing with now := 65536 } 0 fun x => { x with resvUnit := some (0, 1, 0) }).ctxs[(0 : Fin 64)].resvUnit = some (0, 1, 0)) := by decide +kernel

/-- A unit whose warp has ended, first and last of its launch. -/
def endedWarp : Warp := { un with ended := true }
def retiring (l : Launch) (cancel : Bool) : State :=
  { modCtx (stage endedWarp unit0) 0 (fun x => { x with launches := [{ l with cancel := cancel }] }) with turn := none }
theorem unitDone : UnitDone (retiring wideLaunch false) unit0 := by unfold UnitDone; decide +kernel

theorem witness_retire : findUnit (retiring wideLaunch false) 5 = some unit0 ∧ unit0.st = .resident ∧ (retiring wideLaunch false).cores[unit0.core].swap = none ∧
    findLaunch (retiring wideLaunch false).ctxs[(0 : Fin 64)] 0 = some wideLaunch ∧ wideLaunch.retired + 1 = wideLaunch.total ∧
    ({ wideLaunch with total := 2 } : Launch).retired + 1 ≠ 2 ∧ wideLaunch.cancel = false ∧ (retiring wideLaunch false).ctxs[(0 : Fin 64)].mode = false ∧
    (retiring wideLaunch false).ctxs[(0 : Fin 64)].st = .running ∧ crossing (retiring wideLaunch false) 0 (homeDie (retiring wideLaunch false) 0) = .free ∧
    NoneDue (retiring wideLaunch false).ctxs[(0 : Fin 64)] ∧ wideLaunch.st = .running ∧ wideLaunch.fin = false := by
  unfold NoneDue; decide +kernel

theorem noneLost_empty {s : State} {c : Fin 64} (h : ∀ k : Fin 384, s.cores[k].l1 = []) :
    ((List.finRange 384).findSome? fun k => l1Lost s k (ownLine c)) = none ∧ ((List.finRange 384).any fun k => l1Stalled s k (ownLine c)) = false := by
  refine ⟨List.findSome?_eq_none_iff.mpr fun k _ => ?_, List.any_eq_false.mpr fun k _ => ?_⟩
  · unfold l1Lost; rw [h k]; rfl
  · unfold l1Stalled; rw [h k]; exact Bool.false_ne_true

/-- With every L1 empty and no link access the release of a launch goes on, or waits for what crosses the bridge. -/
theorem releaseLaunch_empty {s : State} {c : Fin 64} {l : Launch} (h : ∀ k : Fin 384, s.cores[k].l1 = []) (hm : s.ctxs[c].mode = false)
    (hb : s.bridge.down = false) (hl : s.links = []) (hw : s.host.held = []) :
    releaseLaunch s c l = if acrossDone s c then .ok s else .wait s := by
  unfold releaseLaunch releaseEverywhere
  dsimp only
  rw [releaseCores_empty h, (noneLost_empty h).1, (noneLost_empty h).2, hm, hb]
  cases acrossDone s c
  · rfl
  · simp [Order.bind, flushAt, hl, hw, lastLink]

/-- UnitRetires: the state in which the last unit of a launch has retired, with nothing to wait for and with an invalidation that waits. -/
def gone (b : Bridge) : State :=
  let s := { retiring wideLaunch false with bridge := b }
  readyLaunches (retireUnit (droverMessage s 0 0) unit0) 0
theorem gone_released (b : Bridge) (hb : b.down = false) :
    releaseLaunch (gone b) 0 { wideLaunch with retired := 1 } = if acrossDone (gone b) 0 then .ok (gone b) else .wait (gone b) :=
  releaseLaunch_empty (fun k => stage_l1 endedWarp k) (show (gone Bridge.reset).ctxs[(0 : Fin 64)].mode = false by decide +kernel) hb rfl rfl
theorem witness_released : acrossDone (gone Bridge.reset) 0 = true ∧ acrossDone (gone withPacket.bridge) 0 = false := by decide +kernel

theorem witness_lastUnit : noInval (releaseCores (stage endedWarp unit0)) = true ∧ noInval (releaseCores withPacket) = false := by
  rw [releaseCores_empty (stage_l1 endedWarp), releaseCores_empty (s := withPacket) (fun c => stage_l1 un c)]
  exact ⟨rfl, rfl⟩

theorem cleanFrames_empty {s : State} (f n : Nat) (h : ∀ c : Fin 384, s.cores[c].l1 = []) : cleanFrames s f n = s := by
  unfold cleanFrames
  generalize List.finRange 384 = cs
  induction cs with
  | nil => rfl
  | cons c r ih => rw [List.foldl_cons, h c]; exact ih

/-- Forgetting D in the cores' TLBs leaves the dies as they are. -/
theorem foldCores_dies {f : State → Fin 384 → State} (h : ∀ s k, (f s k).dies = s.dies) (ks : List (Fin 384)) (s : State) :
    (ks.foldl f s).dies = s.dies := by
  induction ks generalizing s with
  | nil => rfl
  | cons k r ih => rw [List.foldl_cons, ih, h]

theorem foldCores_bridge {f : State → Fin 384 → State} (h : ∀ s k, (f s k).bridge = s.bridge) (ks : List (Fin 384)) (s : State) :
    (ks.foldl f s).bridge = s.bridge := by
  induction ks generalizing s with
  | nil => rfl
  | cons k r ih => rw [List.foldl_cons, ih, h]

/-- DirtyWords: a word that goes to a buffer in package memory, on a page that the word does not tell of. -/
def dw : Maint := mt0 (.dirtyclr 0x10000 128 0x10000) 0
def buffered : State := dieEnter (maintaining dw) 0 { ctx := 0, base := 0x10000, size := 0x10000, pte := placePte, leafAt := 0 }
def bufferAt : Spot :=
  { part := 0, va := 0x10000, pa := 0x10000, e := { ctx := 0, base := 0x10000, size := 0x10000, pte := placePte, leafAt := 0 }, kind := .package
    scope := leafScope placePte }

theorem clearedTlb : (clearWord buffered dw 0x10000).2.dies[(0 : Fin 2)].tlb = [bufferAt.e] ∧ (clearWord buffered dw 0x10000).2.bridge = Bridge.reset := by
  unfold clearWord
  rw [cleanFrames_empty (s := buffered) _ _ (fun c => stage_l1 jw c)]
  unfold tlbClean
  dsimp only
  rw [foldCores_dies (fun s k => by split <;> rfl), foldCores_bridge (fun s k => by split <;> rfl)]
  decide +kernel

/-- A write through a page whose D is cached is done at once. -/
theorem engWrite_here {v z : State} {o : CopyOp} {p : Spot} {pa : Nat} (n x : Nat) (hm : markLook v (engDie o) o.ctx p = .ok p)
    (hd : setDirty v none (engDie o) o.ctx ((tlbFind v.dies[engDie o].tlb o.ctx p.va.toNat).getD p.e) p.pa = some z)
    (hl : ∀ s, localPaOf s (engDie o) p = some pa) : ∃ m z, engWrite v o (.place p) n x = .ok () m z := by
  simp only [engWrite, engDirty, hm, Look.part, hd, hl]
  exact ⟨_, _, rfl⟩

/-- On a page whose D is cached, a buffered word is written at once. -/
theorem bufferWrites (v : State) (x : Nat) (h : v.dies[(0 : Fin 2)].tlb = [bufferAt.e]) (hb : v.bridge = Bridge.reset) :
    ∃ m z, engWrite v (maintCopy dw 0x10000) (.place bufferAt) 8 x = .ok () m z := by
  have hm : markLook v 0 0 bufferAt = .ok bufferAt := by
    unfold markLook walkStalled
    rw [hb]
    have : markFault v 0 0 bufferAt.e bufferAt.pa = none := rfl
    rw [this]
    simp [show bridgeStalled Bridge.reset = false from rfl]
  have ht : (tlbFind v.dies[(0 : Fin 2)].tlb 0 bufferAt.va.toNat).getD bufferAt.e = bufferAt.e := by rw [h]; decide +kernel
  have hd : setDirty v none 0 0 bufferAt.e bufferAt.pa = some (markBitmap v 0 0 bufferAt.e bufferAt.pa) := by
    unfold setDirty; exact if_pos (by decide +kernel)
  exact engWrite_here 8 x hm (by rw [← ht] at hd; exact hd) fun s => rfl

theorem witness_dirtyBuffer :
    (match engDest buffered (maintCopy dw 0x10000) 0 0x10000 8 (fun _ _ => none) with | .ok (.place p) _ _ => p == bufferAt | _ => false) = true ∧
    ∃ m z, engWrite (clearWord buffered dw 0x10000).2 (maintCopy dw 0x10000) (.place bufferAt) 8 (clearWord buffered dw 0x10000).1.toNat = .ok () m z :=
  ⟨by decide +kernel, bufferWrites _ _ clearedTlb.1 clearedTlb.2⟩

theorem witness_starts :
    (nextStart { stage jw unit0 with starts := Vector.set (always 2 []) 0 [.job 0] } 0 = some (.job 0) ∧
      dispatchPlace { stage jw unit0 with starts := Vector.set (always 2 []) 0 [.job 0] } 0 = some (0, 0)) ∧
    (nextStart (serving [.service 0 9]) 0 = some (.service 0 9) ∧ (dispatchPlace (serving [.service 0 9]) 0).isSome = true ∧
      (serving [.service 0 9]).dies[(0 : Fin 2)].slots.find? (fun y => y.slot == 9) = some (slotRec 9)) := by decide +kernel

/-- A halting context whose warp stands at a `safept`, and one whose unit is swapped. -/
def safeWarp : Warp := halting (withSplit 0 { x0 with stop := .safept 3 } un)
def swapDue (us : List UnitSt) : State :=
  { modCore (modCtx State.reset 0 fun x => { x with st := .halting }) 0 (fun c => { c with swap := some (0, 0) }) with units := us }

/-- The state in which a swap that was the last is over. -/
def swapOver (us : List UnitSt) : State := modCore (swapDue us) 0 fun x => { x with swap := none }

theorem swapOver_swap (us : List UnitSt) (k : Fin 384) : (swapOver us).cores[k].swap = none := by
  have h : (swapOver us).cores = ((always 384 Core.reset).set 0 { (always 384 Core.reset)[(0 : Fin 384)] with swap := some (0, 0) }).set 0
      { ((always 384 Core.reset).set 0 { (always 384 Core.reset)[(0 : Fin 384)] with swap := some (0, 0) })[(0 : Fin 384)] with swap := none } := rfl
  have e : ((always 384 Core.reset)[k]).swap = none := by rw [always_get]; rfl
  rw [h, Fin.getElem_fin, Vector.getElem_set, Vector.getElem_set]
  split
  · rfl
  · exact e

theorem witness_swapDone : (swapDue [unit0]).cores[(0 : Fin 384)].swap = some (0, 0) ∧ haltComplete (swapOver [unit0]) 0 = false ∧
    haltComplete (swapOver [{ unit0 with st := .swapped }]) 0 = true := by
  refine ⟨by decide +kernel, by decide +kernel, ?_⟩
  unfold haltComplete
  rw [Bool.and_eq_true]
  exact ⟨by decide +kernel, List.all_eq_true.mpr fun k _ => by rw [swapOver_swap]⟩

def swapping (f : Core → Core) : State := modCore (modCtx (stage safeWarp unit0) 0 fun x => { x with st := .halting }) 0 f
theorem swapReady (f : Core → Core) (hs : ∀ c, (f c).swap = c.swap) (hl : ∀ c, (f c).l1 = c.l1) :
    SwapReady (swapping f) 0 0 := by
  have e : (swapping f).cores[(0 : Fin 384)] = f (stage safeWarp unit0).cores[(0 : Fin 384)] := rfl
  have s0 : (stage safeWarp unit0).cores[(0 : Fin 384)].swap = none := by decide +kernel
  have l0 : (stage safeWarp unit0).cores[(0 : Fin 384)].l1 = [] := by decide +kernel
  have w : warpsOn (swapping f) 0 0 = [safeWarp] := rfl
  refine ⟨rfl, by rw [e, hs, s0], .inl (by rw [show unitsOn (swapping f) 0 0 = [unit0] from rfl]; exact List.cons_ne_nil _ _), ?_, rfl, ?_⟩
  · rw [w]; intro v hv
    rw [List.mem_singleton] at hv; subst hv
    exact ⟨by rw [show warpSafe (swapping f) safeWarp = warpSafe (stage safeWarp unit0) safeWarp from rfl]; decide +kernel, rfl⟩
  · unfold l1Stalled; rw [e, hl, l0]; rfl

/-- CoreSwaps and SlotSpills: a slot that is free, one that another halted context holds, with an IMAGE and with none. -/
def otherSlot : Shadow := { ctx := 1, word := 0, images := [], macros := 0 }
def swapSlot (image : Word) : State := modCtx (swapping fun c => { c with slot := some otherSlot }) 1 fun x => { x with st := .halted, image := image }
theorem witness_swap : SwapReady (swapping id) 0 0 ∧ SwapReady (swapping fun c => { c with slot := some otherSlot }) 0 0 ∧
    ((swapping id).cores[(0 : Fin 384)].slot = none ∧ NothingLost (swapping id) 0 ∧ ((swapping id).warps.map (·.id)).Nodup ∧
      (match savedSet (swapping id) safeWarp with | .need _ => false | _ => true) = true ∧ unitsOn (swapping id) 0 0 ≠ []) ∧
    (∀ a ∈ [(0 : Word), 0x10000], (swapSlot a).cores[(0 : Fin 384)].slot = some otherSlot ∧ (swapSlot a).ctxs[(1 : Fin 64)].st = .halted ∧
      (swapSlot a).ctxs[(1 : Fin 64)].image = a ∧ (swapSlot a).ctxs[(1 : Fin 64)].spilled = false ∧ (swapSlot a).bridge.down = false) :=
  ⟨swapReady id (fun _ => rfl) (fun _ => rfl), swapReady (fun c => { c with slot := some otherSlot }) (fun _ => rfl) (fun _ => rfl), by decide +kernel,
    fun a h => by
      have e : a = 0 ∨ a = 0x10000 := by simpa using h
      rcases e with rfl | rfl <;> exact ⟨by decide +kernel, by decide +kernel, by decide +kernel, by decide +kernel, by decide +kernel⟩⟩

/-- CoreSwaps: the live sets of a kernel lie in the system window, and are asked for over its link. -/
def swapFar : State := dieEnter (swapping id) 0 { ctx := 0, base := 0, size := 0x10000, pte := BitVec.ofNat 64 (2 ^ 43 + 0x802F), leafAt := 0 }
theorem witness_swapFar : SwapReady swapFar 0 0 ∧ warpsOn swapFar 0 0 = [safeWarp] ∧ safeWarp.ended = false ∧
    (match savedSet swapFar safeWarp with | .need ls => ls.map (·.sys) | _ => []) = [true] :=
  have h := swapReady id (fun _ => rfl) (fun _ => rfl)
  ⟨⟨h.halting, h.free, h.some_, h.safe, h.drained, h.lines⟩, rfl, rfl, by decide +kernel⟩

/-- A swapped unit of a launch that wants little, on a core of its partition. -/
def swappedUnit : UnitSt := { unit0 with st := .swapped, core := 2 }
def returning : State := modCtx { fewCores (partitioned un) with units := [swappedUnit] } 0 fun x => { x with launches := [{ readyL with st := .running, next := 1 }] }

theorem witness_return : (let l : Launch := { readyL with st := .running, next := 1 }
      nextPlace returning (homeDie returning 0) = some ({ ctx := 0, l := l, index := 0, unit := some swappedUnit }, 2)) ∧
    (roomOn returning 2 readyL.r).isSome = true ∧ findUnit returning 5 = some swappedUnit ∧ returning.ctxs[(0 : Fin 64)].st = .running ∧
    allReturned returning 0 = false ∧ crossing returning (homeDie returning 0) (coreDie 2) = .free ∧ NothingLost returning 2 ∧
    allReturned (stage un unit0) 0 = true := by decide +kernel

/-- UnitsReturn: warps that rest when they go on, and a unit whose warps have halted. -/
def haltedWarp : Warp := { un with halted := true }
theorem witness_returnWarps : (let s : State := { returning with warps := [haltedWarp] }
      WakesToRest s 0 ∧ ∀ w ∈ s.warps, inUnit 5 w = true → w.ctx = 0 ∧ w.halted = true) ∧ AtRest un ∧ findWarp (stage un unit0) un.id = some un := by
  have a : ∀ w ∈ [wakeWarp haltedWarp, un], (validSplits w).all (fun y => !parks w y.1 y.2) = true ∧ (∀ r : Fin 16, w.recs[r] = none) ∧
      deadlocked w = none ∧ w.live ≠ 0 := by decide +kernel
  have rest : ∀ w ∈ [wakeWarp haltedWarp, un], AtRest w := fun w hw =>
    let ⟨h1, h2, h3, h4⟩ := a w hw
    { parked := fun y hy => by simpa using List.all_eq_true.mp h1 y hy
      records := fun r x h => by rw [h2 r] at h; cases h
      goes := h3, lives := .inl h4 }
  refine ⟨⟨⟨by decide +kernel, fun w hw _ _ => ?_⟩, by decide +kernel⟩, rest _ (.tail _ (.head _)), rfl⟩
  rw [List.mem_singleton.mp hw]; exact rest _ (.head _)

/-! #### Starts, health, links and the host -/

/-- Facts of a start that succeeds and of one whose image does not verify; a die after three failures; one in recovery. -/
def goodFacts : StartFacts :=
  { rsaOk := true, slhOk := true, secVer := 1, recRsaOk := true, recSlhOk := true, recSecVer := 1, romDigest := 0, fwDigest := 1, recDigest := 2
    repairDigest := 3, ucodeDigest := 4, savedOk := true, serialsMatch := true, repairOk := true, hbmTrains := true, bridgeTrains := true, ports := always 8 4, ready := true }
def badFacts : StartFacts := { goodFacts with rsaOk := false, recRsaOk := false }
def failed3 : Die := { Die.reset with fails := 3 }

theorem witness_startKinds : (startGood Die.reset true goodFacts ∧ coldStart Die.reset true goodFacts) ∧ ¬ coldStart { Die.reset with saved := some 3 } false goodFacts ∧
    (¬ recovers Die.reset ∧ ¬ startGood Die.reset true badFacts) ∧ (recovers failed3 ∧ Verifies failed3 true true 1) ∧
    (recovers failed3 ∧ ¬ Verifies failed3 badFacts.recRsaOk true 1) ∧ (goodFacts.ready = true ∧ ({ goodFacts with ready := false } : StartFacts).ready = false) ∧
    (State.reset.host.up = true ∧ ({ State.reset.host with up := false } : HostPort).up = false) ∧
    goodFacts.bridgeTrains = true ∧ ({ goodFacts with bridgeTrains := false } : StartFacts).bridgeTrains = false ∧
    (modDie State.reset 1 fun d => { d with starting := some (.warm, 4) }).dies[(1 : Fin 2)].starting = some (.warm, 4) ∧
    (State.reset.dies[(1 : Fin 2)].dstate = .dieOffline ∧ (modDie State.reset 1 fun d => { d with dstate := .online }).dies[(1 : Fin 2)].dstate ≠ .dieOffline) := by
  unfold startGood coldStart recovers Verifies; decide +kernel

/-- Errors: an error of a place that has been seen twice in the last day, the second 23 hours ago, and once 24 hours ago; a warp, and a copy, that consumes one. -/
def loc0 : ErrLoc := { res := .core 3, place := 1 }
theorem witness_errors : (([(loc0, 1), (loc0, 24)] : List (ErrLoc × Nat)).filter fun e => e.1 == loc0 && decide ((24 : Nat) < e.2 + 24)).length = 2 ∧
    (([(loc0, 0), (loc0, 24)] : List (ErrLoc × Nat)).filter fun e => e.1 == loc0 && decide ((24 : Nat) < e.2 + 24)).length = 1 ∧
    findWarp (stage un unit0) un.id = some un ∧ un.splits[(0 : Fin 8)] = some x0 ∧ (stage un unit0).ctxs[un.ctx].st = .running ∧
    (copying [cpOf 1 .plain 0 0 1 0]).copies.find? (fun y => y.id == 1) = some (cpOf 1 .plain 0 0 1 0) ∧
    (copying [cpOf 1 .plain 0 0 1 0]).ctxs[(0 : Fin 64)].st = .running ∧ SlotFree (stage un unit0) 0 ∧ SlotFree (copying [cpOf 1 .plain 0 0 1 0]) 0 := by
  refine ⟨by decide +kernel, by decide +kernel, rfl, rfl, by decide +kernel⟩

/-- DieStates: a die that is held by a context's partition and one that is not, in each of its states, and a busy die 1. -/
def dieIn (d : Fin 2) (st : DState) : State := modDie State.reset d fun x => { x with dstate := st }
theorem reset_reach {s : State} (h : s.cores = State.reset.cores) (hb : s.bridge.down = false) : AllReach s := by
  refine ⟨hb, fun k l hl => ?_⟩
  have e : s.cores[k].l1 = [] := by rw [h]; show ((always 384 Core.reset)[k]).l1 = []; rw [always_get]; rfl
  rw [e] at hl; cases hl
def onlineToo : State := modDie (dieIn 1 .coresOffline) 0 fun x => { x with dstate := .online }
theorem witness_dieHost : HostServed (dieIn 0 .online) ∧ AllReach (dieIn 0 .online) ∧ HostServed onlineToo ∧ AllReach onlineToo ∧
    onlineToo.dies[(1 : Fin 2)].dstate = .coresOffline ∧ HostServed (partitioned un) :=
  ⟨by decide +kernel, reset_reach rfl rfl, by decide +kernel, reset_reach rfl rfl, by decide +kernel, by decide +kernel⟩
theorem witness_dies : (dieIn 0 .online).dies[(0 : Fin 2)].dstate = .online ∧ (dieIn 1 .coresOffline).dies[(1 : Fin 2)].dstate = .coresOffline ∧
    State.reset.dies[(0 : Fin 2)].dstate = .dieOffline ∧ (∀ c : Fin 64, (dieIn 0 .online).ctxs[c].st = .free) ∧
    ((partitioned un).ctxs[(0 : Fin 64)].st ≠ .free ∧ (partitioned un).ctxs[(0 : Fin 64)].mode = false ∧ (partOfCtx (partitioned un) 0).isl0 ≠ 0) ∧
    (dieIn 1 .coresOffline).copies = [] ∧ engDie { cpOf 1 .plain 0 0 1 0 with eng := 128 } = 1 := by decide +kernel

/-- DieStates, PortsAndRelays, DomainRequests, LinkCompletions, HostLink, WindowRegisters and RegisterReads: die 1 in service, with the bridge
up, while it retrains, and while it is down; a copy that keeps die 1 from closing. -/
def beyond (b : Bridge) : State := { modDie (dieIn 0 .online) 1 fun x => { x with dstate := .online } with bridge := b }
def retraining : Bridge := { Bridge.reset with retrain := some 0 }
def lost : Bridge := { Bridge.reset with down := true }
theorem witness_over :
    (crossing (beyond Bridge.reset) 0 1 = .free ∧ crossing (beyond retraining) 0 1 = .stalled ∧ crossing (beyond lost) 0 1 = .down) ∧
    (∀ b ∈ [Bridge.reset, retraining, lost], HostServed (beyond b) ∧ farRead (beyond b) 0 0x2008000 8 ∧ ¬ farRead (beyond b) 0 0x2010000 8 ∧
      barDie { fn := 0, off := 0x2008000 } = 1 ∧ barDie { fn := 0, off := 0x1008000 } = 0 ∧
      (beyond b).dies[(0 : Fin 2)].dstate ≠ .dieOffline ∧ (beyond b).dies[(1 : Fin 2)].dstate ≠ .dieOffline) ∧
    (∀ b ∈ [Bridge.reset, retraining], Serves (beyond b) 0 (2 ^ 40) 64 ∧ dieOf (2 ^ 40) ≠ 0 ∧ reqCrosses (beyond b) 0 0 (.read (2 ^ 40) 64) = true) ∧
    (∀ y ∈ ({ dieIn 1 .coresOffline with copies := [{ cpOf 1 .plain 0 0 1 0 with eng := 128 }] } : State).copies,
      engDie y = 1 ∧ copyHere { dieIn 1 .coresOffline with copies := [y] } y = true) ∧
    (modDie (dieIn 1 .coresOffline) 1 fun x => { x with closing := true }).dies[(1 : Fin 2)].closing = true ∧
    (∀ b ∈ [Bridge.reset, retraining, lost], backDie (beyond b) { link .read true with die := 1 } ≠ (1 : Fin 2) ∧ backDie (beyond b) (link .read true) = 0) := by
  unfold Serves farRead; decide +kernel

/-- BridgeTraffic: an acknowledgement that makes room, with a message that waits. -/
def packed : Bridge := { Bridge.reset with replay := [{ inval true with flits := 8192 }] }
theorem witness_freed : bridgeStalled packed = true ∧
    bridgeStalled { packed with replay := packed.replay.filter fun p => !(p.dir == 0 && decide (p.seq + p.flits ≤ 8192)) } = false ∧ packed.down = false := by
  decide +kernel

/-- BridgeTraffic: a packet that fills the replay buffer and one that overfills it, and one behind another of its pair; BridgeEnds. -/
def bridgeWith (q r : List Packet) (n : Nat) : Bridge := { Bridge.reset with queue := q, replay := r, attempts := n }
theorem witness_bridge : MayArrive (bridgeWith [inval false] [{ inval true with flits := 8191 }] 0) 0 (inval false) ∧
    ¬ MayArrive (bridgeWith [inval false] [{ inval true with flits := 8192 }] 0) 0 (inval false) ∧
    ¬ MayArrive (bridgeWith [inval true, inval false] [] 0) 1 (inval false) ∧ (bridgeWith [] [] 63).attempts < 64 ∧ 64 ≤ (bridgeWith [] [] 64).attempts := by
  refine ⟨⟨rfl, rfl, by decide, ?_⟩, ?_, ?_, by decide, by decide⟩
  · intro j q h; exact absurd h (Nat.not_lt_zero j)
  · rintro ⟨_, _, h, _⟩; exact absurd h (by decide)
  · rintro ⟨_, _, _, h⟩; exact h 0 (inval true) (by decide) rfl ⟨rfl, rfl, rfl⟩

/-- BridgeTraffic and BridgeEnds: an L2 with a line; a context with an invalidation that waits, one with a write to the host that waits to cross, and one with a read. -/
def ownsPacket : State := { stage un unit0 with bridge := bridgeWith [{ inval false with body := .inval 0 (some 0) }] [] 64 }
def heldRead : HeldMsg := { heldWrite with msg := .read 0 3 0 8 }
def holdingMsgs (xs : List HeldMsg) : State :=
  { withLink .read true with bridge := bridgeWith [] [] 64, host := { State.reset.host with held := xs }, results := [res 3 .load none true] }
theorem witness_bridgeEnds : (∀ d : Fin 2, ((dieIn 0 .online).dies[d].l2.map (·.line)).Nodup) ∧
    (∃ p ∈ ownsPacket.bridge.queue, p.again = false ∧ ∃ sector, p.body = .inval sector (some 0)) ∧
    (∃ x ∈ (holdingMsgs [heldWrite]).host.held, x.die ≠ 0 ∧ x.owner = some 0 ∧ postedMsg x.msg = true) ∧
    (holdingMsgs [heldWrite]).ctxs[(0 : Fin 64)].st = .running ∧
    ((holdingMsgs [heldRead]).bridge.down = false ∧ (holdingMsgs [heldRead]).bridge.queue = [] ∧
      ∀ x ∈ (holdingMsgs [heldRead]).host.held, postedMsg x.msg = false ∧ msgTag x.msg = some (link .read true).tag) :=
  ⟨by decide +kernel, ⟨_, .head _, rfl, 0, rfl⟩, ⟨_, .head _, by decide, rfl, rfl⟩, by decide +kernel, by decide +kernel⟩

/-- PortsAndRelays and DomainRequests: ports in service; requests that this package serves, at the end of a die's memory, and that it does not. -/
def bothUp : State := modDie (dieIn 0 .online) 1 fun x => { x with dstate := .online }
theorem witness_domain : (bothUp.bridge.down = false ∧ bothUp.dies[(0 : Fin 2)].dstate ≠ .dieOffline ∧ bothUp.dies[(1 : Fin 2)].dstate ≠ .dieOffline) ∧
    ((List.finRange 8).filter fun q => bothUp.dies[(1 : Fin 2)].ports[q] != 0)[(5 ^^^ 0) % 8]? = some 5 ∧
    Serves bothUp 0 (768000000000 - 256) 256 ∧ (768000000000 - 256) % 256 = 0 ∧ ¬ Serves bothUp 0 (768000000000 - 192) 256 ∧
    ¬ Serves { bothUp with bridge := { Bridge.reset with down := true } } 0 (2 ^ 40) 64 ∧ Serves bothUp 0 (2 ^ 40) 64 ∧ (2 ^ 40 + 60) % 64 + 4 ≤ (64 : Nat) := by
  unfold Serves; decide +kernel

/-- LinkCompletions and HostLink: accesses outstanding of each kind, an operation carried as compare-and-swaps that succeeds and one that goes on. -/
def casLink (e : Option Word) : LinkOp := { link .atomic false with ty := .f32, expect := e }
theorem witness_links :
    (withLink .read false).links.find? (fun k => k.tag == 3 && !k.sys) = some (link .read false) ∧
    (withLink .read true).links.find? (fun k => k.tag == 3 && k.sys && k.kind != .write) = some (link .read true) ∧
    (swapLoop (casLink none) ∧ (casLink none).expect ≠ some (BitVec.ofNat 64 (bytesValue (broughtBytes (casLink none) (List.replicate 64 0))))) ∧
    (casLink (some 0)).expect = some (BitVec.ofNat 64 (bytesValue (broughtBytes (casLink (some 0)) [0, 0, 0, 0]))) ∧ ¬ swapLoop (link .read false) ∧
    ((withLink .read true).host.up = true ∧ ((withLink .read true).links.map (·.tag)).Nodup ∧ (2 ^ 36 - 4) + 4 ≤ (2 : Nat) ^ 36) ∧
    Serves bothUp 0 (bothUp.host.bar2.toNat + (2 ^ 36 - 4)) 4 ∧ HostServed bothUp ∧ ¬ HostServed State.reset ∧ memoryOk bothUp ∧
    ¬ Serves { bothUp with host := { bothUp.host with bar2 := 768000000000 } } 0 768000000000 4 ∧
    ((withLink .write true).links.find? (fun k => k.tag == 3 && k.sys) = some (link .write true)) := by
  unfold Serves memoryOk; decide +kernel

/-- NoBad: a range with no sector in error, and one with its sector in error. -/
theorem witness_bad : NoBad bothUp 0 256 ∧ ¬ NoBad { bothUp with bad := [3] } 192 64 := by
  unfold NoBad
  exact ⟨fun k _ _ h => absurd h (List.not_mem_nil), fun h => h 3 (by decide) (by decide) (List.mem_cons_self ..)⟩

/-- PartitionWrites: an entry as it would stand that passes every check, and one that fails each. -/
def twoParts : State :=
  { bothUp with parts := Vector.set (Vector.set (always 24 Part.reset) 0 { Part.reset with valid := true, isl0 := 1, vf := 3 }) 23 { Part.reset with isl0 := 2 } }
def word0 (v : Bool) (i1 i0 : Nat) : Word := BitVec.ofNat 64 ((if v then 2 ^ 63 else 0) + i1 * 2 ^ 16 + i0)
theorem witness_partitions :
    (∀ status ∈ [0x11, 0x12, 0x13, 0x14, 0x15, 0x16], ¬ partFails twoParts 23 (entryAfter twoParts.parts[(23 : Fin 24)] 0 (word0 true 0 2)) (malformedValue 0 (word0 true 0 2)) status) ∧
    HostServed twoParts ∧ partFails twoParts 23 (entryAfter twoParts.parts[(23 : Fin 24)] 0 (word0 true 0 3)) False 0x11 ∧
    partFails (modDie twoParts 1 fun x => { x with dstate := .coresOffline }) 23 (entryAfter twoParts.parts[(23 : Fin 24)] 0 (word0 true 0x800 0)) False 0x12 ∧
    partFails (modDie twoParts 0 fun x => { x with retCores := 0xFFFF0000 }) 23 (entryAfter twoParts.parts[(23 : Fin 24)] 0 (word0 true 0 2)) False 0x13 ∧
    partFails twoParts 23 { entryAfter twoParts.parts[(23 : Fin 24)] 1 3 with valid := true } False 0x14 ∧
    malformedValue 0 (2 ^ 62) ∧ malformedValue 1 25 ∧ ¬ malformedValue 1 24 ∧ malformedValue 2 (2 ^ 21) ∧ ¬ malformedValue 2 (2 ^ 22) ∧ malformedValue 3 1 ∧
    (((entryAfter twoParts.parts[(0 : Fin 24)] 0 0).isl0 ≠ twoParts.parts[(0 : Fin 24)].isl0) ∧ (stage un unit0).ctxs[(0 : Fin 64)].part.val = 0 ∧
      (stage un unit0).ctxs[(0 : Fin 64)].st ∈ [CState.idle, .running, .ended]) := by
  have h : ∀ k, k < 16 → (modDie twoParts 0 fun x => { x with retCores := 0xFFFF0000 }).dies[(0 : Fin 2)].retCores.getLsbD (16 * 1 + k) ≠ false := by decide +kernel
  have one : ∀ (d : Fin 2) (i : Nat), i < 12 → hasIsland (entryAfter twoParts.parts[(23 : Fin 24)] 0 (word0 true 0 2)) d i = true → d = 0 ∧ i = 1 := by decide +kernel
  have same : (entryAfter twoParts.parts[(23 : Fin 24)] 0 (word0 true 0 2)).isl0 = 2 ∧ twoParts.parts[(23 : Fin 24)].isl0 = 2 ∧
    (entryAfter twoParts.parts[(23 : Fin 24)] 0 (word0 true 0 2)).isl1 = 0 ∧ twoParts.parts[(23 : Fin 24)].isl1 = 0 := by decide +kernel
  refine ⟨?_, by decide +kernel, ?_, ?_, ?_, ?_, by unfold malformedValue; decide +kernel⟩
  · intro status hs
    simp only [List.mem_cons, List.not_mem_nil, or_false] at hs
    rcases hs with rfl | rfl | rfl | rfl | rfl | rfl
    · rintro ⟨_, d, i, m, hi, hd, ⟨hm, hv⟩, hb⟩
      obtain ⟨rfl, rfl⟩ := one d i hi hd
      have : ∀ m : Fin 24, m ≠ 23 → twoParts.parts[m].valid = true → hasIsland twoParts.parts[m] 0 1 = true → False := by decide +kernel
      exact this m hm hv hb
    · rintro ⟨_, d, i, hi, hd, hb⟩
      obtain ⟨rfl, rfl⟩ := one d i hi hd
      exact hb (by decide +kernel)
    · rintro ⟨_, d, i, hi, hd, hb⟩
      obtain ⟨rfl, rfl⟩ := one d i hi hd
      exact hb ⟨0, by decide, by decide +kernel⟩
    · rintro ⟨_, hv, _⟩; exact hv (by decide +kernel)
    · show ¬ malformedValue 0 (word0 true 0 2)
      unfold malformedValue; decide +kernel
    · rintro ⟨hv, _⟩
      rcases hv with hv | hv
      · exact hv (same.1.trans same.2.1.symm)
      · exact hv (same.2.2.1.trans same.2.2.2.symm)
  · exact ⟨by decide +kernel, 0, 0, 0, by decide, by decide +kernel, ⟨by decide, by decide +kernel⟩, by decide +kernel⟩
  · exact ⟨by decide +kernel, 1, 11, by decide, by decide +kernel, by decide +kernel⟩
  · exact ⟨by decide +kernel, 0, 1, by decide, by decide +kernel, fun ⟨k, hk, hb⟩ => h k hk hb⟩
  · exact ⟨rfl, by decide +kernel, 0, ⟨by decide, by decide +kernel⟩, by decide +kernel⟩

/-- ContextWrites and JobStarts: values that pass and that do not, in each state of a context; by the PF, by the owner and by another function. -/
def ctxIn (st : CState) : State := modCtx bothUp 0 fun x => { x with st := st }
theorem witness_contexts :
    (field (0x4000000000000000 : Word) 4 48 = 0 ∧ field (0x10 : Word) 4 48 ≠ 0 ∧ field (0x2000000000000000 : Word) 4 48 = 0 ∧ State.reset.ctxs[(0 : Fin 64)].st = .free) ∧
    ((0x1000 : Word).toNat % 2 ^ 12 = 0 ∧ (0xFFF : Word).toNat % 2 ^ 12 ≠ 0) ∧ (field (0 : Word) 60 4 = 0 ∧ 8 ≤ field (0x8000000000000000 : Word) 60 4) ∧
    ((commandOf 0 (field (0x7000000000000000 : Word) 60 4)).isSome = true ∧ field (0x7000000000000000 : Word) 0 60 = 0) ∧
    ((1 : Fin 25).val ≠ functionOf State.reset 0 ∧ functionOf State.reset 0 = 0) ∧
    (∀ st ∈ [CState.free, .idle, .running, .halting, .halted, .ended], HostServed (ctxIn st) ∧ (ctxIn st).ctxs[(0 : Fin 64)].st = st ∧ (ctxIn st).ctxs[(0 : Fin 64)].held = none) ∧
    ((0 : Word).toNat % 8 = 0 ∧ (7 : Word).toNat % 8 ≠ 0) := by decide +kernel

/-- A part on which a context can be created: a partition of island 0 of die 0, online, with a fault buffer. -/
def creating (mode : Bool) : State :=
  modCtx (modDie { bothUp with parts := Vector.set (always 24 Part.reset) 0 { Part.reset with valid := true, isl0 := 1 } } 0 fun x => { x with fbase := 0x40000 }) 0
    fun x => { x with mode := mode, image := 0x10000 }

theorem spans_creating (mode : Bool) (d : Fin 2) : spans (creating mode) 0 d → d = 0 := by
  rintro ⟨i, hi, h⟩
  have : ∀ (d : Fin 2) (i : Nat), i < 12 → hasIsland (partOfCtx (creating false) 0) d i = true → d = 0 := by decide +kernel
  have e : partOfCtx (creating mode) 0 = partOfCtx (creating false) 0 := by cases mode <;> rfl
  exact this d i hi (e ▸ h)

theorem creating_rows (mode : Bool) : (creating mode).dies[(0 : Fin 2)].retCores = 0 := by cases mode <;> decide +kernel

theorem creating_served : HostServed (creating false) ∧ HostServed (creating true) := by decide +kernel

theorem creatable (mode : Bool) : Creatable (creating mode) 0 where
  part := by cases mode <;> decide +kernel
  die := by intro _ d h; rw [spans_creating mode d h]; cases mode <;> decide +kernel
  online := by intro d h; rw [spans_creating mode d h]; cases mode <;> decide +kernel
  inService := by
    intro d i hi h
    rw [spans_creating mode d ⟨i, hi, h⟩]
    refine ⟨0, by decide, ?_⟩
    rw [creating_rows]; exact BitVec.getLsbD_zero
  buffer := by intro d h; rw [spans_creating mode d h]; cases mode <;> decide +kernel

/-- An image of no sections at IMAGE, whose digest is that of its empty body; one with a reserved field set; and a context spilled to it. -/
def header : Memory := writeN (writeN [] 0x10000 8 (0x41463932 * 2 ^ 32 + 2 ^ 16)) 0x10008 8 128
def snap0 : Snapshot :=
  { ctx := Ctx.reset, units := [], warps := [], copies := [], mops := [], maints := [], carves := [], results := [], mails := [], again := [], served := [] }
def imported : State :=
  { creating false with
    mem := writeN header 0x10018 48 (Config.sha384 []).toNat
    images := [{ pa := 0x10000, digest := Config.sha384 [], size := 128, isl0 := 0, isl1 := 0, snap := snap0 }] }
def spilled : State := modCtx imported 0 fun x => { x with st := .halted, spilled := true }

theorem imported_outside (b j : Nat) (h : b + j ≤ 0x10018 ∨ 0x10018 + 48 ≤ b) : readN imported.mem b j = readN header b j :=
  Laws.readN_writeN_outside header 0x10018 48 (Config.sha384 []).toNat b j (by decide +kernel) h

theorem imported_digest : readN imported.mem 0x10018 48 = (Config.sha384 []).toNat :=
  (Laws.readN_writeN header 0x10018 48 (Config.sha384 []).toNat (by decide +kernel)).trans (Nat.mod_eq_of_lt (by rw [show (256 : Nat) ^ 48 = 2 ^ 384 from rfl]; exact (Config.sha384 []).isLt))

theorem imported_header {s : State} (hm : s.mem = imported.mem) :
    readHeader s 0x10000 = some { size := 128, digest := Config.sha384 [], mode := 0, isl0 := 0, isl1 := 0 } := by
  have rest : readN header 0x10000 8 = 0x41463932 * 2 ^ 32 + 2 ^ 16 ∧ readN header 0x10008 8 = 128 ∧ readN header 0x10010 8 = 0 ∧ readN header 0x10048 56 = 0 := by
    decide +kernel
  unfold readHeader
  rw [hm]
  simp only [imported_outside 0x10000 8 (.inl (by decide)), imported_outside (0x10000 + 8) 8 (.inl (by decide)),
    imported_outside (0x10000 + 16) 8 (.inl (by decide)), imported_outside (0x10000 + 0x48) 56 (.inr (by decide))]
  have d := imported_digest
  have reg : inPackage 0x10000 128 = true := by decide
  simp [rest, d, reg, imageMagic, imageMajor, sectionsOk, readList]

theorem witness_import : importable imported 0 = some snap0 ∧ imported.ctxs[(0 : Fin 64)].st = .free ∧ spilledImage spilled 0 = some snap0 ∧
    spilled.ctxs[(0 : Fin 64)].st = .halted ∧ spilled.ctxs[(0 : Fin 64)].spilled = true ∧ NoneDue spilled.ctxs[(0 : Fin 64)] ∧
    spilledImage (modCtx (creating false) 0 fun x => { x with spilled := true }) 0 = none ∧ importable (creating false) 0 = none := by
  have a : imported.ctxs[(0 : Fin 64)].image.toNat = 0x10000 := by decide +kernel
  have b : spilled.ctxs[(0 : Fin 64)].image.toNat = 0x10000 := by decide +kernel
  have m : imported.ctxs[(0 : Fin 64)].mode = false := by decide +kernel
  have reg : inPackage 0x10000 128 = true := by decide
  have im : imported.images = [{ pa := 0x10000, digest := Config.sha384 [], size := 128, isl0 := 0, isl1 := 0, snap := snap0 }] := rfl
  refine ⟨?_, by decide +kernel, ?_, by decide +kernel, by decide +kernel, by unfold NoneDue; decide +kernel, by decide +kernel, by decide +kernel⟩
  · unfold importable
    simp only [a]
    have sv : imageServed imported 0 0x10000 = true := by decide +kernel
    have rg : regionOf 0x10000 = .package := by decide +kernel
    rw [imported_header rfl, sv, if_pos rg]
    simp only [Option.bind, m, imageState, im]
    simp
  · unfold spilledImage
    simp only [b, reg, imported_header (s := spilled) rfl, show spilled.images = imported.images from rfl, im]
    simp [snap0]

/-- Commands: the refusals of a create, a context that halts with a job that waits, one that resumes a held job, one that is cancelled. -/
theorem witness_commands :
    ((partOfCtx State.reset 0).valid = false ∧ State.reset.ctxs[(0 : Fin 64)].part.val < 24) ∧
    (∀ p ∈ allowedStates 0, p.2 ≠ [CState.free] → State.reset.ctxs[(0 : Fin 64)].st ∉ p.2) ∧
    ((creating true).ctxs[(0 : Fin 64)].mode = true ∧ (modCtx (creating true) 0 fun x => { x with die := 1 }).ctxs[(0 : Fin 64)].die = 1) ∧
    (modDie (creating false) 0 fun x => { x with fbase := 0 }).dies[(0 : Fin 2)].fbase = 0 ∧
    ((modCtx (stage un unit0) 0 fun x => { x with jobWait := true }).ctxs[(0 : Fin 64)].jobWait = true ∧
      (modCtx State.reset 0 fun x => { x with st := .halted, before := .idle, held := some (8, 9, 1) }).ctxs[(0 : Fin 64)].held = some (8, 9, 1)) := by
  decide +kernel

/-- Commands: a context that is being destroyed, with nothing that goes on and with a copy that does; one whose job ends. -/
theorem witness_destroys : (jobEnding 3 []).ctxs[(0 : Fin 64)].jobEnd = some 3 ∧ (jobEnding 3 []).ctxs[(0 : Fin 64)].st = .running ∧
    cancelOver (jobEnding 3 []) 0 = true ∧ liveOf (jobEnding 1 []).ctxs[(0 : Fin 64)] = [] ∧ (stage jw unit0).ctxs[(0 : Fin 64)].jobEnd = none ∧
    Hears (stage jw unit0) 0 ∧ HostServed (modDie (jobEnding 3 []) 0 fun x => { x with dstate := .online }) := by
  unfold Hears; decide +kernel

/-- Images: IMAGE at a hole, in a window that is served, and in package memory. -/
def imageAt (a : Word) : State := modCtx { imported with images := imported.images.map fun i => { i with pa := a.toNat } } 0 fun x => { x with image := a }
theorem witness_imageWindows : regionOf 768000000000 = .hole ∧ regionOf (2 ^ 42) = .system ∧ regionOf 0x10000 = .package ∧
    imageServed (imageAt (2 ^ 42)) 0 (2 ^ 42) = true ∧ ((imageAt (2 ^ 42)).images.find? fun i => i.pa == 2 ^ 42).isSome = true ∧
    (∀ i ∈ (imageAt (2 ^ 42)).images, i.snap.ctx.mode = (imageAt (2 ^ 42)).ctxs[(0 : Fin 64)].mode ∧ i.isl0 ≤ bitCount (partOfCtx (imageAt (2 ^ 42)) 0).isl0) := by
  decide +kernel

/-- WindowRegisters: warps none of whose splits stands at its rejoin point. -/
theorem witness_steady : SteadyWarp un := by
  have a : (validSplits un).all (fun y => y.2.record.isNone && y.2.st != .parked) = true ∧ (∀ r : Fin 16, un.recs[r] = none) ∧ un.live ≠ 0 ∧
      validSplits un ≠ [] := by decide +kernel
  have h : ∀ y ∈ validSplits un, y.2.record = none ∧ y.2.st ≠ .parked := fun y hy => by simpa using List.all_eq_true.mp a.1 y hy
  obtain ⟨y, hy⟩ := List.exists_mem_of_ne_nil _ a.2.2.2
  exact { away := fun y hy => .inl (h y hy).1, records := fun r x e => by rw [a.2.1 r] at e; cases e
          goes := ⟨y, hy, (h y hy).2⟩, lives := .inl a.2.2.1 }

/-- WindowRegisters: the identity register at its largest value and past it; FBASE; a slot that is taken; the host link down. -/
theorem witness_windows : (HostServed bothUp ∧ HostServed (serving []) ∧ ¬ HostServed State.reset ∧ (dieIn 0 .dieOffline).host.up = true ∧
      (∀ d : Fin 2, bothUp.dies[d].dstate ≠ .dieOffline ∧ bothUp.dies[d].slots.length ≤ 4096) ∧ (∀ n : Fin 24, bothUp.parts[n].vf < 25) ∧
      (dieIn 0 .online).dies[(1 : Fin 2)].dstate = .dieOffline) ∧ ((8191 : Word).toNat < 2 ^ 13 ∧ ¬ (8192 : Word).toNat < 2 ^ 13) ∧
    ((∀ c : Fin 64, bothUp.ctxs[c].st = .free) ∧ (0x40000 : Word).toNat % 2 ^ 18 = 0 ∧ inPackage 0x40000 (2 ^ 18) = true ∧ dieOf 0x40000 = 0) ∧
    (serving []).dies[(0 : Fin 2)].slots.find? (fun y => y.slot == 9) = some (slotRec 9) ∧ (serving []).dies[(0 : Fin 2)].faultQ = [] ∧
    Sparse.wf bothUp.dies[(0 : Fin 2)].windows = true ∧
    (Instr.contextHalt 0 ∈ hostEvents 0 0 0 0 0 none { fn := 0, off := 0 } 8 0) := by decide +kernel

/-- StepKeepsMemoryAndPartitions, from reset and from a state of a run. -/
theorem witness_invariant : (memoryOk State.reset ∧ partitionsOk State.reset) ∧
    memoryOk (placed 64 0x0000205000B02720) ∧ partitionsOk (placed 64 0x0000205000B02720) := by
  have r : ∀ m : Fin 24, State.reset.parts[m].valid = false := by decide +kernel
  have p : ∀ m n : Fin 24, (placed 64 0x0000205000B02720).parts[m].valid = true → (placed 64 0x0000205000B02720).parts[n].valid = true → m = n := by decide +kernel
  refine ⟨⟨by unfold memoryOk; decide +kernel, ?_⟩, by unfold memoryOk; decide +kernel, ?_⟩
  · intro m n _ hv
    exact absurd ((r m).symm.trans hv) Bool.false_ne_true
  · intro m n h hv hw
    exact absurd (p m n hv hw) h

/-! ### One step against the spec's worked examples -/

/-- The warp after an instruction has its effect in the state of the tests. -/
def after (i : Instr) (w : Warp) : Option Warp := match exec i (stage w unit0) with | .next t => t.warps.head? | _ => none

/-- A warp with a vector register that holds the given words in its lowest lanes, and zero in the others. -/
def lanesV (w : Warp) (n : Fin 256) (xs : List Word) : Warp := { w with v := w.v.set n (tabulate 32 fun l => xs.getD l.val 0) }
def lane (w : Option Warp) (n : Fin 256) (l : Fin 32) : Word := match w with | some w => (w.v[n])[l] | none => 0
def scalar (w : Option Warp) (n : Fin 128) : Word := match w with | some w => w.s[n] | none => 0
def flagsOf (w : Option Warp) : Nat := match w with | some w => w.flags.toNat | none => 0

/-- R294's example: `vadd.i8` with and without saturation. -/
def twoBytes : Warp := lanesV (lanesV un 1 [0x7F800102FFFE0305]) 2 [0x01FF030301017F00]
theorem test_vadd_saturates : lane (after (.vadd { vo .i8 2 with sat := true }) twoBytes) 3 0 = 0x7F80040500FF7F05 ∧
    flagsOf (after (.vadd { vo .i8 2 with sat := true }) twoBytes) ≠ 0 := by decide +kernel
theorem test_vadd_wraps : lane (after (.vadd (vo .i8 2)) twoBytes) 3 0 = 0x807F040500FF8205 ∧
    flagsOf (after (.vadd (vo .i8 2)) twoBytes) = 0 := by decide +kernel

/-- R291's example: `smov` of a constant word, signed and not. -/
def smovOf (t : Ty) : Instr := .smov { so 1 with ty := t, d := 6, a := .w1, w1 := 0x80000000 }
theorem test_smov : scalar (after (smovOf .i32) un) 6 = 0xFFFFFFFF80000000 ∧ scalar (after (smovOf .n32) un) 6 = 0x80000000 := by decide +kernel

/-- R301's example: a block of f32 values to E4M3 and back. The scale, the codes, the values read back, the flags. -/
def block : Warp := lanesV un 4 [0x42C80000, 0xBE99999A, 0x3A83126F]
def scaled : Warp := (after (.vscaleMx { vo .f32 1 with d := 5, a := .v 4 } .e4m3) block).getD un
def coded : Warp := (after (.vcvtTomx { vo .f32 2 with d := 6, a := .v 4, b := .v 5 } .e4m3) scaled).getD un
def decoded : Option Warp := after (.vcvtMx { vo .f32 2 with d := 7, a := .v 6, b := .v 5 } .e4m3) coded
theorem test_vscale : ∀ l : Fin 32, ((scaled.v[(5 : Fin 256)])[l]).toNat % 256 = 0x7D := by decide +kernel
theorem test_vcvt_tomx : lane (some coded) 6 0 = 0x7C ∧ lane (some coded) 6 1 = 0xBA ∧ lane (some coded) 6 2 = 2 ∧ lane (some coded) 6 3 = 0 ∧
    flagsOf (some coded) = 3 := by decide +kernel
theorem test_vcvt_mx : lane decoded 7 0 = 0x42C00000 ∧ lane decoded 7 1 = 0xBEA00000 ∧ lane decoded 7 2 = 0x3A800000 ∧ flagsOf decoded = 3 := by
  decide +kernel

/-- The examples of R306 and R311: lanes 28-31 not launched, lanes 8 and 9 exited. -/
def someLanes : Warp :=
  { lanesV un 3 ((List.range 28).map fun l => BitVec.ofNat 64 (if l = 8 ∨ l = 9 then 100 + l else 101 + l)) with
    launched := 0x0FFFFFFF, live := 0x0FFFFCFF
    splits := un.splits.set 0 (some { x0 with mask := 0x0FFFFCFF })
    p := (un.p.set 2 0x0F0000F0).set 1 0x04000509 }
def rotated : Option Warp := after (.shufRot { vo .b64 2 with g := byP 2, d := 4, a := .v 3, b := .int 20 }) someLanes
theorem test_shuf_rot : lane rotated 4 4 = 108 ∧ lane rotated 4 5 = 109 ∧ lane rotated 4 6 = 111 ∧ lane rotated 4 7 = 112 ∧
    lane rotated 4 24 = 0 ∧ lane rotated 4 27 = 0 ∧ lane rotated 4 3 = 0 := by decide +kernel
theorem test_ballot : scalar (after (.ballot { po false with d := 9, a := { p := 2, inv := false } }) someLanes) 9 = 0x0F0000F0 := by decide +kernel
def counted : Option Warp := after (.pcount { po false with d := 5, a := { p := 1, inv := false } }) someLanes
theorem test_pcount : lane counted 5 0 = 0x0000000400000000 ∧ lane counted 5 3 = 0x0000000400000001 ∧ lane counted 5 10 = 0x0000000400000002 ∧
    lane counted 5 26 = 0x0000000400000003 ∧ lane counted 5 27 = 0x0000000400000004 := by decide +kernel

/-- The example of R315: `jmpv` makes two groups, the first in the split's own entry. -/
def twoTargets : Warp :=
  { lanesV un 6 [0x20000, 0x20000, 0x20000, 0x20000, 0x20040, 0x20040, 0x20000, 0x20000] with splits := un.splits.set 0 (some { x0 with mask := 0xFF }) }
def groups (w : Option Warp) : List (Mask × Word) :=
  match w with | some w => w.splits.toList.filterMap fun x => x.map fun x => (x.mask, x.pc) | none => []
theorem test_jmpv : groups (after (.jmpv g7 (.v 6) 16) twoTargets) = [(0xCF, 0x20000), (0x30, 0x20040)] := by decide +kernel

/-- The example of R326: `atom.sp.add` on one scratch word, one lane after the other; what the lanes are to receive. -/
def tenAt40 : UnitSt := { newUnit 5 0 wideLaunch 0 0 { regs := 0, scr := 0, acc := 0 } with scratch := writeN [] 0x40 4 10 }
def added : Option State :=
  match exec (.atomSp .add (mop g7 .n32 none 0 4 (.short 0x40))) (stage { lanesV un 4 [1, 1, 1, 1] with splits := un.splits.set 0 (some { x0 with mask := 0xF }) } tenAt40) with
  | .next t => some t
  | _ => none
theorem test_atom_sp :
    ((added.map fun t => t.results.map fun r => r.vw.map fun y => (y.1, (y.2)[(0 : Fin 32)], (y.2)[(3 : Fin 32)])) = some [[(4, 10, 13)]]) ∧
    (added.map fun t => t.units.map fun u => readN u.scratch 0x40 4) = some [14] := by decide +kernel

/-- The examples of R63, R103, R125 and R142, and of R7: a completion word, a control charge, a handle, a term block. -/
theorem test_completionWord : completionWord 42 0 0x0105 = 0x0000002A00000105 := by decide +kernel
theorem test_controlCharge : controlCharge { wideRecord with wpu := 8, chain := false, xc := false, emask := 0x0F } = 33 := by decide +kernel
theorem test_handleValue :
    handleValue { slot := 0x2A, gen := 5, st := .pending, cls := 1, eng := 131, owner := .unit 0, creator := 0, status := 0, cause := 0, va := 0
                  pte := 0, elem := 0, finalAt := 0, cancelReq := false, wscope := .core } = 0x30605405 := by decide +kernel
/-- R15's examples, and R16: a retired pseudo-channel of stack 1 leaves in use a frame that misses that stack. -/
theorem test_spread : spread 0x12345000 = (5, 0x1845000, 36) := by decide +kernel
theorem test_withdrawn : (∀ k : Fin 12, frameWithdrawn { Die.reset with retPcs := (always 12 0).set k.val (BitVec.allOnes 64) } 0x10000 = decide (k ≠ 1)) := by
  decide +kernel

theorem test_term_block :
    let b := tencode (([85, 63, -1].map some) ++ List.replicate 29 (some 0)) 127
    b.2 = 7 ∧ b.1 % 2 ^ 128 = 0x077F000000000000000000000054 ∧ b.1 / 2 ^ 128 = 0x020806002106 := by decide +kernel

end Sys2Proof.Tests
end

/-! SUPPORT. The statements about decoding and encoding, the register files, `vcmp`, the predicate group and the scalar group,
and the facts that they need: masks of lanes, what an issued form does to its warp, exact integer results and functions on bits. -/

namespace Sys2Proof.Proofs

open Sys2Proof Sys2Proof.Machine Sys2Proof.Claims Sys2Proof.Laws

/-! ### Decoding and encoding (R256, R258, R269) -/

/-- The words of every well-formed instruction decode to it: each constructor by its own lemma. -/
theorem decode_encode (i : Instr) : RoundTrip.Statement i :=
  match i with
  | .powerOn .. => RoundTrip.powerOn _ _ | .resetRequest .. => RoundTrip.resetRequest _ _ _
  | .startTimeout .. => RoundTrip.startTimeout _ | .correctedError .. => RoundTrip.correctedError _ _ _
  | .uncorrectableError .. => RoundTrip.uncorrectableError _ _ _ | .patrolScrub .. => RoundTrip.patrolScrub _ _ _ _
  | .powerBudgetWindow .. => RoundTrip.powerBudgetWindow _ _ _ | .overshootLimit .. => RoundTrip.overshootLimit _ _
  | .junctionOver100 .. => RoundTrip.junctionOver100 _ _ | .hbmOver85 .. => RoundTrip.hbmOver85 _ _
  | .hbmOver95 .. => RoundTrip.hbmOver95 _ _ _ | .coresOfflineRequest .. => RoundTrip.coresOfflineRequest _
  | .dieOfflineRequest .. => RoundTrip.dieOfflineRequest _ | .bringUpRequest .. => RoundTrip.bringUpRequest _ _
  | .onlineRequest .. => RoundTrip.onlineRequest _ | .bridgePacket .. => RoundTrip.bridgePacket _
  | .bridgeAcknowledge .. => RoundTrip.bridgeAcknowledge _ _ | .bridgeFlitError .. => RoundTrip.bridgeFlitError _
  | .bridgeRetrain .. => RoundTrip.bridgeRetrain _ | .bridgeLaneFailure .. => RoundTrip.bridgeLaneFailure _ _ _
  | .ualinkLaneFailure .. => RoundTrip.ualinkLaneFailure _ _ _
  | .domainRequestReceived .. => RoundTrip.domainRequestReceived _ _ _ | .relayForward .. => RoundTrip.relayForward _
  | .domainCompletion .. => RoundTrip.domainCompletion _ _ _ | .systemCompletion .. => RoundTrip.systemCompletion _ _ _
  | .inboundHostWrite .. => RoundTrip.inboundHostWrite _ _ | .inboundHostRead .. => RoundTrip.inboundHostRead _ _
  | .partitionEntryWrite .. => RoundTrip.partitionEntryWrite _ _ _ | .contextEntryWrite .. => RoundTrip.contextEntryWrite _ _ _
  | .contextCreate .. => RoundTrip.contextCreate _ | .contextHalt .. => RoundTrip.contextHalt _
  | .contextResume .. => RoundTrip.contextResume _ | .contextExport .. => RoundTrip.contextExport _
  | .contextImport .. => RoundTrip.contextImport _ | .contextDestroy .. => RoundTrip.contextDestroy _
  | .contextCancelJob .. => RoundTrip.contextCancelJob _ | .startArgWrite .. => RoundTrip.startArgWrite _ _ _ _
  | .identityRegisterWrite .. => RoundTrip.identityRegisterWrite _ _ | .fbaseWrite .. => RoundTrip.fbaseWrite _ _
  | .fretWrite .. => RoundTrip.fretWrite _ _ | .registerWrite .. => RoundTrip.registerWrite _ _ _
  | .jobWarpStart .. => RoundTrip.jobWarpStart _ | .faultServiceStart .. => RoundTrip.faultServiceStart _
  | .unitDispatch .. => RoundTrip.unitDispatch _ | .dispatchReservation .. => RoundTrip.dispatchReservation _
  | .unitRetire .. => RoundTrip.unitRetire _ | .carveComplete .. => RoundTrip.carveComplete _
  | .overdueSplit .. => RoundTrip.overdueSplit _ _ | .safePointDrought .. => RoundTrip.safePointDrought _ _
  | .coreSwapStart .. => RoundTrip.coreSwapStart _ _ | .coreSwapDone .. => RoundTrip.coreSwapDone _ _
  | .unitRestore .. => RoundTrip.unitRestore _ | .pageWalk .. => RoundTrip.pageWalk _ _
  | .tlbinvComplete .. => RoundTrip.tlbinvComplete _ | .loadDataReturn .. => RoundTrip.loadDataReturn _
  | .chainBufferFill .. => RoundTrip.chainBufferFill _ _ _ _ | .mailboxFill .. => RoundTrip.mailboxFill _ _ _
  | .waitvReread .. => RoundTrip.waitvReread _ _ | .copyElement .. => RoundTrip.copyElement _
  | .dirtyclrWord .. => RoundTrip.dirtyclrWord _ | .mldwRowWrite .. => RoundTrip.mldwRowWrite _ | .vadd .. => RoundTrip.vadd _
  | .vsub .. => RoundTrip.vsub _ | .vmul .. => RoundTrip.vmul _ | .vmulh .. => RoundTrip.vmulh _ | .vmulw .. => RoundTrip.vmulw _
  | .vmad .. => RoundTrip.vmad _ | .vabs .. => RoundTrip.vabs _ | .vneg .. => RoundTrip.vneg _ | .vmin .. => RoundTrip.vmin _
  | .vmax .. => RoundTrip.vmax _ | .vavg .. => RoundTrip.vavg _ | .vsad .. => RoundTrip.vsad _ | .vdot4 .. => RoundTrip.vdot4 _
  | .vand .. => RoundTrip.vand _ | .vor .. => RoundTrip.vor _ | .vxor .. => RoundTrip.vxor _ | .vnot .. => RoundTrip.vnot _
  | .vbool .. => RoundTrip.vbool _ | .vshl .. => RoundTrip.vshl _ | .vshr .. => RoundTrip.vshr _ | .vsra .. => RoundTrip.vsra _
  | .vrot .. => RoundTrip.vrot _ | .vbfe .. => RoundTrip.vbfe _ | .vbfi .. => RoundTrip.vbfi _ | .vpopc .. => RoundTrip.vpopc _
  | .vclz .. => RoundTrip.vclz _ | .vctz .. => RoundTrip.vctz _ | .vbrev .. => RoundTrip.vbrev _ | .vsel .. => RoundTrip.vsel _ _
  | .vmov .. => RoundTrip.vmov _ | .vpack .. => RoundTrip.vpack _ | .vunpkLo .. => RoundTrip.vunpkLo _
  | .vunpkHi .. => RoundTrip.vunpkHi _ | .vfadd .. => RoundTrip.vfadd _ | .vfsub .. => RoundTrip.vfsub _
  | .vfmul .. => RoundTrip.vfmul _ | .vfma .. => RoundTrip.vfma _ | .vfmin .. => RoundTrip.vfmin _
  | .vfmax .. => RoundTrip.vfmax _ | .vfabs .. => RoundTrip.vfabs _ | .vfneg .. => RoundTrip.vfneg _
  | .vfsgn .. => RoundTrip.vfsgn _ | .vfrnd .. => RoundTrip.vfrnd _ | .vfclass .. => RoundTrip.vfclass _
  | .vfdot2 .. => RoundTrip.vfdot2 _ | .vrcp .. => RoundTrip.vrcp _ | .vrsq .. => RoundTrip.vrsq _
  | .vsqrt .. => RoundTrip.vsqrt _ | .vexp2 .. => RoundTrip.vexp2 _ | .vlog2 .. => RoundTrip.vlog2 _
  | .vsinpi .. => RoundTrip.vsinpi _ | .vcospi .. => RoundTrip.vcospi _ | .vtanh .. => RoundTrip.vtanh _
  | .vcmp .. => RoundTrip.vcmp _ _ | .vcvt .. => RoundTrip.vcvt _ _ | .vcvtMx .. => RoundTrip.vcvtMx _ _
  | .vcvtTomx .. => RoundTrip.vcvtTomx _ _ | .vscaleMx .. => RoundTrip.vscaleMx _ _ | .shuf .. => RoundTrip.shuf _
  | .shufRot .. => RoundTrip.shufRot _ | .shufBcast .. => RoundTrip.shufBcast _ | .shufBfly .. => RoundTrip.shufBfly _
  | .shufMirror .. => RoundTrip.shufMirror _ | .vpermSub .. => RoundTrip.vpermSub _ | .xsel .. => RoundTrip.xsel _ _
  | .vscan .. => RoundTrip.vscan _ _ _ | .vred .. => RoundTrip.vred _ _ | .matchv .. => RoundTrip.matchv _
  | .pand .. => RoundTrip.pand _ | .por .. => RoundTrip.por _ | .pxor .. => RoundTrip.pxor _ | .pnot .. => RoundTrip.pnot _
  | .pmov .. => RoundTrip.pmov _ | .ballot .. => RoundTrip.ballot _ | .voteAny .. => RoundTrip.voteAny _
  | .voteAll .. => RoundTrip.voteAll _ | .voteSame .. => RoundTrip.voteSame _ | .pcount .. => RoundTrip.pcount _
  | .pfirst .. => RoundTrip.pfirst _ | .xbegin .. => RoundTrip.xbegin _ _ _ _ _ _ | .xnext .. => RoundTrip.xnext _ _ _
  | .xred .. => RoundTrip.xred _ _ _ _ _ _ _ _ _ | .xsync .. => RoundTrip.xsync _ | .xend .. => RoundTrip.xend _
  | .xquery .. => RoundTrip.xquery _ _ _ _ | .sadd .. => RoundTrip.sadd _ | .ssub .. => RoundTrip.ssub _
  | .smul .. => RoundTrip.smul _ | .smulh .. => RoundTrip.smulh _ | .smin .. => RoundTrip.smin _ | .smax .. => RoundTrip.smax _
  | .sand .. => RoundTrip.sand _ | .sor .. => RoundTrip.sor _ | .sxor .. => RoundTrip.sxor _ | .snot .. => RoundTrip.snot _
  | .sshl .. => RoundTrip.sshl _ | .sshr .. => RoundTrip.sshr _ | .ssra .. => RoundTrip.ssra _ | .sbfe .. => RoundTrip.sbfe _
  | .sbfi .. => RoundTrip.sbfi _ | .spopc .. => RoundTrip.spopc _ | .sclz .. => RoundTrip.sclz _ | .sctz .. => RoundTrip.sctz _
  | .smov .. => RoundTrip.smov _ | .ssel .. => RoundTrip.ssel _ | .scmp .. => RoundTrip.scmp _ _ | .srd .. => RoundTrip.srd _ _ _
  | .srdFlags .. => RoundTrip.srdFlags _ _ | .srdFlagsClr .. => RoundTrip.srdFlagsClr _ _ _ _
  | .vtos .. => RoundTrip.vtos _ _ _ _ _ | .cdef .. => RoundTrip.cdef _ _ _ _ | .cdrop .. => RoundTrip.cdrop _ _
  | .cquery .. => RoundTrip.cquery _ _ _ _ | .hwait .. => RoundTrip.hwait _ _ | .htest .. => RoundTrip.htest _ _ _
  | .hcancel .. => RoundTrip.hcancel _ _ | .hmovToHandle .. => RoundTrip.hmovToHandle _ _ _ _
  | .hmovFromHandle .. => RoundTrip.hmovFromHandle _ _ _ | .hwaitany .. => RoundTrip.hwaitany _ _ _ _ | .ld .. => RoundTrip.ld _
  | .ldAcq .. => RoundTrip.ldAcq _ | .ldSp .. => RoundTrip.ldSp _ | .ldS .. => RoundTrip.ldS _ | .st .. => RoundTrip.st _
  | .stRel .. => RoundTrip.stRel _ | .stSp .. => RoundTrip.stSp _ | .atom .. => RoundTrip.atom _ _ | .red .. => RoundTrip.red _ _
  | .atomSp .. => RoundTrip.atomSp _ _ | .fence .. => RoundTrip.fence _ _ _ | .prefetch .. => RoundTrip.prefetch _
  | .waitv .. => RoundTrip.waitv _ | .l1flush .. => RoundTrip.l1flush _ | .l1flushInv .. => RoundTrip.l1flushInv _
  | .bra .. => RoundTrip.bra _ _ | .brd .. => RoundTrip.brd _ _ _ | .jmpv .. => RoundTrip.jmpv _ _ _
  | .call .. => RoundTrip.call _ _ | .callv .. => RoundTrip.callv _ _ | .ret .. => RoundTrip.ret _ | .exit .. => RoundTrip.exit _
  | .safept .. => RoundTrip.safept _ | .nop .. => RoundTrip.nop _ | .bar .. => RoundTrip.bar _ _
  | .barArv .. => RoundTrip.barArv _ _ | .barWt .. => RoundTrip.barWt _ _ | .cpy .. => RoundTrip.cpy _
  | .cpy2d .. => RoundTrip.cpy2d _ | .cpyGth .. => RoundTrip.cpyGth _ _ _ | .cpySct .. => RoundTrip.cpySct _ _ _
  | .cpyRed .. => RoundTrip.cpyRed _ _ | .cpyFill .. => RoundTrip.cpyFill _ | .cpyCvt .. => RoundTrip.cpyCvt _ _ _ _ _
  | .mcfg .. => RoundTrip.mcfg _ | .mldw .. => RoundTrip.mldw _ _ _ _ _ _ | .mldwNorm .. => RoundTrip.mldwNorm _ _
  | .mma .. => RoundTrip.mma _ _ _ _ | .mzero .. => RoundTrip.mzero _ | .mst .. => RoundTrip.mst _ _ _ _ _
  | .mmovFromTile .. => RoundTrip.mmovFromTile _ _ _ _ | .mmovToTile .. => RoundTrip.mmovToTile _ _ _ _
  | .mtopk .. => RoundTrip.mtopk _ _ _ | .mdist .. => RoundTrip.mdist _ | .mbound .. => RoundTrip.mbound _ _
  | .mcount .. => RoundTrip.mcount _ _ | .launch .. => RoundTrip.launch _ _ _ | .evwait .. => RoundTrip.evwait _
  | .evset .. => RoundTrip.evset _ | .evclr .. => RoundTrip.evclr _ | .cancelLaunch .. => RoundTrip.cancelLaunch _ _
  | .cancelGraph .. => RoundTrip.cancelGraph _ _ | .cancelPhase .. => RoundTrip.cancelPhase _ _
  | .cancelJob .. => RoundTrip.cancelJob _ | .cntrd .. => RoundTrip.cntrd _ _ | .jobend .. => RoundTrip.jobend _
  | .trap .. => RoundTrip.trap _ _ _ | .sysrd .. => RoundTrip.sysrd _ _ _ | .syswr .. => RoundTrip.syswr _ _ _ _
  | .tlbinv .. => RoundTrip.tlbinv _ _ _ _ _ | .ptwr .. => RoundTrip.ptwr _ _ _ _ _ | .carve .. => RoundTrip.carve _ _ _ _ _
  | .dirtyclr .. => RoundTrip.dirtyclr _ _ _ _ _ _ | .handlerRestart .. => RoundTrip.handlerRestart _ _
  | .spdmRequest => RoundTrip.spdmRequest | .thermalTrip => RoundTrip.thermalTrip | .bridgeDown => RoundTrip.bridgeDown
  | .hostLinkDown => RoundTrip.hostLinkDown | .hostLinkUp => RoundTrip.hostLinkUp
  | .domainCompletionTimeout => RoundTrip.domainCompletionTimeout | .systemReadTimeout => RoundTrip.systemReadTimeout
  | .sfuResult => RoundTrip.sfuResult | .vtosResult => RoundTrip.vtosResult | .mcountResult => RoundTrip.mcountResult
  | .chainResultWrite => RoundTrip.chainResultWrite | .matrixOpStart => RoundTrip.matrixOpStart
  | .matrixOpComplete => RoundTrip.matrixOpComplete | .allon => RoundTrip.allon | .alloff => RoundTrip.alloff
  | .phase => RoundTrip.phase | .rett => RoundTrip.rett | .fltnext => RoundTrip.fltnext | .halt => RoundTrip.halt

/-- Bit 0 of a word is its field L (R256). -/
theorem bitsOf_bit_zero (w : Word) : bitsOf w 0 1 = 1 ↔ w.getLsbD 0 = true := by
  simp [bitsOf, BitVec.getLsbD, Nat.testBit_zero]

/-- The decoder looks at the second word only where L is 1 (R256). -/
theorem decode_short {w0 : Word} (h : w0.getLsbD 0 = false) (a b : Word) : decode w0 a = decode w0 b := by
  have hl : ¬ bitsOf w0 0 1 = 1 := by rw [bitsOf_bit_zero, h]; exact Bool.false_ne_true
  simp only [decode, if_neg hl]

/-- The decoder accepts only what the encoder writes. -/
theorem encode_of_decode {w0 w1 : Word} {i : Instr} (h : decode w0 w1 = .ok i) :
    wellFormed i = true ∧ encode i = some (w0, if w0.getLsbD 0 then some w1 else none) := by
  simp only [decode, bitsOf_bit_zero] at h
  generalize (if w0.getLsbD 0 = true then some w1 else none) = y at h ⊢
  cases hc : candidate w0 y with
  | none => simp [hc] at h
  | some j =>
    by_cases hj : (wellFormed j && encode j == some (w0, y)) = true
    · obtain rfl : j = i := by simpa [hc, hj] using h
      simpa using hj
    · simp [hc, hj] at h

theorem decode_ok_iff (w0 w1 : Word) (i : Instr) : decode w0 w1 = .ok i ↔
    (wellFormed i = true ∧ encode i = some (w0, if w0.getLsbD 0 then some w1 else none)) := by
  refine ⟨encode_of_decode, fun ⟨hw, he⟩ => ?_⟩
  have hd := decode_encode i _ hw he
  cases hl : w0.getLsbD 0 with
  | true => rwa [hl, if_pos rfl] at hd
  | false => exact (decode_short hl _ _).trans hd

/-- An encoding has a second word exactly where its L is 1 (R256). -/
theorem encode_second_word {i : Instr} {w0 : Word} {y : Option Word} (hw : wellFormed i = true) (he : encode i = some (w0, y)) :
    y = if w0.getLsbD 0 then some (y.getD 0) else none := by
  have h := (encode_of_decode (decode_encode i _ hw he)).2
  exact congrArg Prod.snd (Option.some.inj (he.symm.trans h))

/-- The first word that the decoder takes from bytes (R7). -/
theorem ofBytes_take_word (w : Word) (rest : List Byte) :
    BitVec.ofNat 64 (ofBytes ((bytesOf 8 w.toNat ++ rest).take 8)) = w := by
  rw [List.take_left' (bytesOf_length 8 _), word_of_bytes]

theorem drop_word (w : Word) (rest : List Byte) : (bytesOf 8 w.toNat ++ rest).drop 8 = rest :=
  List.drop_left' (bytesOf_length 8 _)

theorem decodeBytes_short {w0 : Word} (h : w0.getLsbD 0 = false) (rest : List Byte) :
    decodeBytes (bytesOf 8 w0.toNat ++ rest) = (decode w0 0, rest) := by
  have hl : ¬ bitsOf w0 0 1 = 1 := by rw [bitsOf_bit_zero, h]; exact Bool.false_ne_true
  simp only [decodeBytes, ofBytes_take_word, drop_word, if_neg hl, decode_short h _ 0]

theorem decodeBytes_long {w0 : Word} (h : w0.getLsbD 0 = true) (w1 : Word) (rest : List Byte) :
    decodeBytes (bytesOf 8 w0.toNat ++ (bytesOf 8 w1.toNat ++ rest)) = (decode w0 w1, rest) := by
  have hl : bitsOf w0 0 1 = 1 := (bitsOf_bit_zero w0).2 h
  have hd : ∀ l : List Byte, l.drop 16 = (l.drop 8).drop 8 := fun l => by rw [List.drop_drop]
  simp only [decodeBytes, ofBytes_take_word, drop_word, if_pos hl, hd]

theorem decodeBytes_encode (i : Instr) (w0 : Word) (y : Option Word) (rest : List Byte) (hw : wellFormed i = true)
    (he : encode i = some (w0, y)) :
    decodeBytes (bytesOf 8 w0.toNat ++ (y.elim [] fun w1 => bytesOf 8 w1.toNat) ++ rest) = (.ok i, rest) := by
  have hd := decode_encode i _ hw he
  have hy := encode_second_word hw he
  cases hl : w0.getLsbD 0 with
  | true =>
    obtain ⟨w1, rfl⟩ : ∃ w1, y = some w1 := ⟨_, by rwa [hl, if_pos rfl] at hy⟩
    rw [List.append_assoc]
    exact (decodeBytes_long hl w1 rest).trans (by rw [← hd]; rfl)
  | false =>
    rw [hl, if_neg Bool.false_ne_true] at hy
    subst hy
    rw [Option.elim_none, List.append_nil, decodeBytes_short hl, ← hd]
    rfl

/-- Settles O15: `decode_encode` for each instruction, the decoder's own check of the words, and the bytes of each word. -/
theorem decodeAndEncodeAgree : Obligations.DecodeAndEncodeAgree := by
  refine ⟨fun i ws hw he => decode_encode i ws hw he, decode_ok_iff, ?_⟩
  rintro i ⟨w0, y⟩ rest hw he
  have h := decodeBytes_encode i w0 y rest hw he
  cases y <;> exact h

/-! ### Register files (R5) -/

theorem sreg_setS_of_ne {r : Fin 128} (hr : r ≠ 0) (w : Warp) (q : Fin 128) (x : Word) :
    sreg (setS w r x) q = if q = r then x else sreg w q := by
  simp [sreg_setS, hr]

/-- A predicate lane by lane after a write. -/
theorem preg_setP_lane {r : Fin 8} (hr : r ≠ 7) (w : Warp) (q : Fin 8) (m x : Mask) {l : Nat} (hl : l < 32) :
    (preg (setP w r m x) q).getLsbD l = if q = r ∧ m.getLsbD l = true then x.getLsbD l else (preg w q).getLsbD l := by
  rw [preg_setP]
  by_cases hq : q = r
  · simp only [hq, hr, ne_eq, not_false_eq_true, and_self, if_true, true_and, BitVec.getLsbD_or, BitVec.getLsbD_and,
      BitVec.getLsbD_not, hl, decide_true, Bool.true_and]
    cases m.getLsbD l <;> simp
  · simp only [hq, false_and, if_false]

/-- Settles O13, by what each write makes of each read. -/
theorem registerFiles : Obligations.RegisterFiles := fun w =>
  ⟨⟨sreg_zero w, setS_zero w⟩, ⟨preg_seven w, setP_seven w⟩, fun _ q hr v => sreg_setS_of_ne hr w q v,
    fun _ q hr m v _ hl => preg_setP_lane hr w q m v hl, vreg_setV w⟩

/-! ### Masks of lanes -/

/-- A mask is zero where it holds no lane. -/
theorem mask_eq_zero_iff (m : Mask) : m = 0 ↔ ∀ k : Fin 32, m.getLsbD k.val = false := by
  constructor
  · rintro rfl k
    exact BitVec.getLsbD_zero
  · intro h
    exact BitVec.eq_of_getLsbD_eq fun i hi => by simpa using h ⟨i, hi⟩

/-- The mask of one lane. -/
theorem getLsbD_laneBit (k l : Fin 32) : (BitVec.ofNat 32 (2 ^ k.val)).getLsbD l.val = decide (l = k) := by
  simp only [BitVec.getLsbD_ofNat, l.isLt, decide_true, Bool.true_and, Nat.testBit_two_pow, Fin.ext_iff, eq_comm]

/-- A lane of a mask to which the lanes of a list that meet a condition were added. -/
theorem getLsbD_addLanes (f : Fin 32 → Bool) (l : Fin 32) (ls : List (Fin 32)) (m : Mask) :
    (ls.foldl (fun m l => if f l then m ||| BitVec.ofNat 32 (2 ^ l.val) else m) m).getLsbD l.val
      = (m.getLsbD l.val || (decide (l ∈ ls) && f l)) := by
  induction ls generalizing m with
  | nil => simp
  | cons k ks ih =>
    rw [List.foldl_cons, ih]
    by_cases hk : l = k
    · subst hk
      cases f l <;>
        simp only [Bool.false_eq_true, if_false, if_true, BitVec.getLsbD_or, getLsbD_laneBit, decide_true, Bool.or_true,
          Bool.true_or, Bool.and_true, Bool.and_false, List.mem_cons, true_or]
    · cases f k <;>
        simp only [hk, Bool.false_eq_true, if_false, if_true, BitVec.getLsbD_or, getLsbD_laneBit, decide_false,
          Bool.or_false, List.mem_cons, false_or]

/-- A lane of the mask built from a function. -/
theorem getLsbD_ofFn (f : Fin 32 → Bool) (l : Fin 32) : (Mask.ofFn f).getLsbD l.val = f l := by
  rw [Mask.ofFn, getLsbD_addLanes]
  simp

theorem getLsbD_not_lane (m : Mask) (l : Fin 32) : (~~~m).getLsbD l.val = !m.getLsbD l.val := by
  rw [BitVec.getLsbD_not, decide_eq_true l.isLt, Bool.true_and]

theorem mask_and_eq_zero (m a : Mask) : m &&& a = 0 ↔ ∀ k : Fin 32, m.getLsbD k.val = true → a.getLsbD k.val = false := by
  simp only [mask_eq_zero_iff, BitVec.getLsbD_and, Bool.and_eq_false_imp]

theorem mask_andNot_eq_zero (m a : Mask) :
    m &&& ~~~a = 0 ↔ ∀ k : Fin 32, m.getLsbD k.val = true → a.getLsbD k.val = true := by
  simp only [mask_and_eq_zero, getLsbD_not_lane, Bool.not_eq_false']

/-- The lowest lane of a mask is the least of its lanes. -/
theorem lowest_eq_some {m : Mask} {l : Fin 32} (hl : m.getLsbD l.val = true)
    (hmin : ∀ k : Fin 32, m.getLsbD k.val = true → l ≤ k) : m.lowest = some l := by
  have hsorted : m.lanes.Pairwise (· < ·) := (List.pairwise_lt_finRange 32).filter _
  have hmem : l ∈ m.lanes := (mem_lanes m l).2 hl
  cases hm : m.lanes with
  | nil => simp [hm] at hmem
  | cons a r =>
    have ha : l ≤ a := hmin a ((mem_lanes m a).1 (by simp [hm]))
    rw [hm] at hmem hsorted
    obtain rfl : a = l := by
      rcases List.mem_cons.1 hmem with rfl | hr
      · rfl
      · exact absurd ((List.pairwise_cons.1 hsorted).1 l hr) (by omega)
    simp [Mask.lowest, hm]

theorem lowest_eq_none {m : Mask} (h : ∀ k : Fin 32, m.getLsbD k.val = false) : m.lowest = none := by
  simp only [Mask.lowest, Mask.lanes, h, List.filter_false, List.head?_nil]

theorem getLsbD_foldl_or {α : Type} (g : α → BitVec 16) (ls : List α) (z : BitVec 16) (j : Nat) :
    (ls.foldl (fun f l => f ||| g l) z).getLsbD j = true ↔ z.getLsbD j = true ∨ ∃ l ∈ ls, (g l).getLsbD j = true := by
  induction ls generalizing z with
  | nil => simp
  | cons k ks ih =>
    rw [List.foldl_cons, ih]
    simp [or_assoc]

/-- The flags of the lanes together hold what the flags of some lane hold (R193). -/
theorem flagsOver_getLsbD (m : Mask) (r : Fin 32 → Word × BitVec 16) (j : Nat) :
    (flagsOver m r).getLsbD j = true ↔ ∃ l : Fin 32, m.getLsbD l.val = true ∧ (r l).2.getLsbD j = true := by
  rw [flagsOver, getLsbD_foldl_or (fun l => (r l).2)]
  simp [mem_lanes]

/-! ### What an issued form does to its warp (R111, R113) -/

theorem setFlags_zero (w : Warp) : setFlags w 0 = w := by
  simp [setFlags]

/-- What a special warp value reads is not changed by the count of an issue (R114). -/
theorem ssrcVal_counted (s : State) (w : Warp) (sp : Fin 8) (c : Iss) (w1 : Word) (a : SSrc) :
    ssrcVal (counted s w sp) c w1 a = ssrcVal s c w1 a := by
  cases a with
  | warp k =>
    have hc : (counted s w sp).cores[c.w.core].ppw = s.cores[c.w.core].ppw ∧
        (counted s w sp).cores[c.w.core].cyc0 = s.cores[c.w.core].cyc0 := by
      by_cases hw : c.w.core = w.core
      · simp only [counted, book, modWarp_cores, hw, modCore_same, and_self]
      · simp only [counted, book, modWarp_cores, modCore_other _ _ _ _ hw, and_self]
    simp only [ssrcVal, warpVal, hc]
    rfl
  | _ => rfl

section

variable {i : Instr} {s : State} {w : Warp} {sp : Fin 8} {x : Split}

/-- An instruction that acts once for its warp and whose effect changes that warp alone (R113). -/
theorem issueWarp_writesOnce (h : Issues i s w sp x) {effect : State → Iss → Effect} (he : exec i s = issueWarp i effect s)
    {f : Warp → Warp} (hf : effect (counted s w sp) (issOf i w sp x) = .next (modWarp (counted s w sp) w.id f)) :
    WritesOnce i s w sp x f := by
  unfold WritesOnce RunsTo
  rw [he]
  by_cases ha : activeOf i w x = 0
  · rw [if_pos ha, issueWarp_idle h effect ha]
  · rw [if_neg ha, issueWarp_next h ha hf]

/-- An instruction whose effect changes its warp alone. -/
theorem issue_writes (h : Issues i s w sp x) {effect : State → Iss → Effect} (he : exec i s = issue i effect s)
    {f : Warp → Warp} (hf : effect (counted s w sp) (issOf i w sp x) = .next (modWarp (counted s w sp) w.id f)) :
    Writes i s w sp x f := by
  unfold Writes RunsTo
  rw [he, issue_next h hf]

end

/-! ### The predicate group (R311) -/

theorem getLsbD_allOf (b : Bool) (l : Fin 32) : (allOf b).getLsbD l.val = b := by
  cases b
  · exact BitVec.getLsbD_zero
  · exact (BitVec.getLsbD_allOnes (v := 32)).trans (decide_eq_true l.isLt)

section

variable {i : Instr} {s : State} {w : Warp} {sp : Fin 8} {x : Split}

/-- A form whose destination is a predicate writes its function of the operands' masks. -/
theorem runP_writes (h : Issues i s w sp x) {o : POp} {f : Mask → Mask → Mask → Mask} (he : exec i s = runP i o f s) :
    Writes i s w sp x fun y => setP y (Fin.ofNat 8 o.d.val) (activeOf i w x)
      (f (activeOf i w x) (predRead w o.a) (predRead w o.b)) :=
  issue_writes h he rfl

end

theorem voteAny_iff (m a : Mask) :
    (m &&& a != 0) = decide (∃ k : Fin 32, m.getLsbD k.val = true ∧ a.getLsbD k.val = true) := by
  rw [Bool.eq_iff_iff, bne_iff_ne, ne_eq, mask_and_eq_zero, decide_eq_true_iff]
  push Not
  simp only [Bool.not_eq_false]

theorem voteAll_iff (m a : Mask) :
    (m &&& ~~~a == 0) = decide (∀ k : Fin 32, m.getLsbD k.val = true → a.getLsbD k.val = true) := by
  rw [Bool.eq_iff_iff, beq_iff_eq, mask_andNot_eq_zero, decide_eq_true_iff]

/-- The active lanes agree where none of them holds or all of them do. -/
theorem voteSame_iff (m a : Mask) :
    (m &&& a == 0 || m &&& ~~~a == 0) = decide (∀ j k : Fin 32, m.getLsbD j.val = true → m.getLsbD k.val = true →
      a.getLsbD j.val = a.getLsbD k.val) := by
  rw [Bool.eq_iff_iff, Bool.or_eq_true, beq_iff_eq, beq_iff_eq, mask_and_eq_zero, mask_andNot_eq_zero, decide_eq_true_iff]
  constructor
  · rintro (h | h) j k hj hk
    · rw [h j hj, h k hk]
    · rw [h j hj, h k hk]
  · intro h
    by_cases hs : ∃ j : Fin 32, m.getLsbD j.val = true ∧ a.getLsbD j.val = true
    · obtain ⟨j, hj, ha⟩ := hs
      exact .inr fun k hk => (h j k hj hk).symm.trans ha
    · exact .inl fun k hk => Bool.eq_false_iff.2 fun ha => hs ⟨k, hk, ha⟩

theorem predicateForms : Claims.PredicateForms := by
  intro p hp o s w sp x h
  simp only [predForms, List.mem_cons, List.not_mem_nil, or_false] at hp
  rcases hp with rfl | rfl | rfl | rfl | rfl | rfl | rfl | rfl
  · exact ⟨_, runP_writes h (show exec (.pand o) s = execPand o s from rfl), fun l _ => BitVec.getLsbD_and⟩
  · exact ⟨_, runP_writes h (show exec (.por o) s = execPor o s from rfl), fun l _ => BitVec.getLsbD_or⟩
  · exact ⟨_, runP_writes h (show exec (.pxor o) s = execPxor o s from rfl), fun l _ => BitVec.getLsbD_xor⟩
  · exact ⟨_, runP_writes h (show exec (.pnot o) s = execPnot o s from rfl), fun l _ => getLsbD_not_lane _ _⟩
  · exact ⟨_, runP_writes h (show exec (.pmov o) s = execPmov o s from rfl), fun l _ => rfl⟩
  · exact ⟨_, runP_writes h (show exec (.voteAny o) s = execVoteAny o s from rfl), fun l _ => by
      rw [getLsbD_allOf, voteAny_iff]⟩
  · exact ⟨_, runP_writes h (show exec (.voteAll o) s = execVoteAll o s from rfl), fun l _ => by
      rw [getLsbD_allOf, voteAll_iff]⟩
  · exact ⟨_, runP_writes h (show exec (.voteSame o) s = execVoteSame o s from rfl), fun l _ => by
      rw [getLsbD_allOf, voteSame_iff]⟩

/-- The lanes below a lane, as a mask. -/
theorem getLsbD_lanesBelow (l k : Fin 32) : (BitVec.ofNat 32 (2 ^ l.val - 1)).getLsbD k.val = decide (k < l) := by
  simp only [BitVec.getLsbD_ofNat, k.isLt, decide_true, Bool.true_and, Nat.testBit_two_pow_sub_one, Fin.lt_def]

theorem predicateCounts : Claims.PredicateCounts := by
  intro o s w sp x hit
  have hhit : ∀ i (l : Fin 32), (activeOf i w x &&& predRead w o.a).getLsbD l.val = hit i l := fun _ _ => BitVec.getLsbD_and
  refine ⟨fun h => ?_, fun h => ?_, fun h => ?_⟩
  · refine ⟨(activeOf (.ballot o) w x &&& predRead w o.a).setWidth 64,
      issueWarp_writesOnce h (show exec (.ballot o) s = execBallot o s from rfl) rfl, ?_, fun l => ?_⟩
    · rw [BitVec.toNat_setWidth_of_le (by decide)]
      exact BitVec.isLt _
    · rw [BitVec.getLsbD_setWidth, hhit, decide_eq_true (by omega), Bool.true_and]
  · refine ⟨_, issueWarp_writesOnce h (show exec (.pfirst o) s = execPfirst o s from rfl) rfl, fun l hl hmin => ?_,
      fun hno => ?_⟩
    · have hm : ((issOf (.pfirst o) w sp x).act &&& pval (issOf (.pfirst o) w sp x).w o.a).lowest = some l :=
        lowest_eq_some ((hhit _ l).trans hl) fun k hk => hmin k ((hhit _ k).symm.trans hk)
      rw [hm]
    · have hm : ((issOf (.pfirst o) w sp x).act &&& pval (issOf (.pfirst o) w sp x).w o.a).lowest = none :=
        lowest_eq_none fun k => (hhit _ k).trans (hno k)
      rw [hm]
      rfl
  · have hr : Writes (.pcount o) s w sp x fun y => setV y o.d (activeOf (.pcount o) w x) fun l =>
        BitVec.ofNat 64 (Mask.count (activeOf (.pcount o) w x &&& predRead w o.a) * 2 ^ 32
          + Mask.count ((activeOf (.pcount o) w x &&& predRead w o.a) &&& BitVec.ofNat 32 (2 ^ l.val - 1))) :=
      issue_writes h (show exec (.pcount o) s = execPcount o s from rfl) rfl
    simp only [Mask.count, Mask.lanes, BitVec.getLsbD_and, getLsbD_lanesBelow] at hr
    simpa only [WritesV, setFlags_zero] using hr

/-- Settles O10, form by form of the group. -/
theorem predicates : Obligations.Predicates := ⟨predicateForms, predicateCounts⟩

/-! ### Vector forms whose destination is a predicate (R297) -/

section

variable {i : Instr} {s : State} {w : Warp} {sp : Fin 8} {x : Split}

/-- A vector form without chained lanes does what the delivery of its results does (R234, R287). -/
theorem runV_delivers (h : Issues i s w sp x) {f : VForm} (hf : vform i = some f) (hp : Plain i f.o w x) (dest : VDest)
    (g : LaneFn) :
    runV i dest g s = .next (thenNext (deliver (counted s w sp) (issOf i w sp x) f.o.d dest
      (laneRes s (issOf i w sp x) f g)) i w sp x) :=
  hp.elim (fun hc => runV_plain h hf hc dest g) fun ha => runV_idle h hf ha dest g

theorem runV_writesPred (h : Issues i s w sp x) {f : VForm} (hf : vform i = some f) (hp : Plain i f.o w x) {g : LaneFn}
    (he : exec i s = runV i .pred g s) :
    Writes i s w sp x fun y => setFlags (setP y (Fin.ofNat 8 f.o.d.val) (activeOf i w x) (predOf (laneRes s (issOf i w sp x) f g)))
      (flagsOver (activeOf i w x) (laneRes s (issOf i w sp x) f g)) :=
  he.trans (runV_delivers h hf hp .pred g)

end

theorem sub_at_zero (t : Ty) (v : Word) : sub t v 0 = bitsOf v 0 (tyWidth t) := by
  simp only [sub, Nat.zero_mul]

theorem cmpLane_holds (c : Cond) (t : Ty) (a b : Word) : (cmpLane c t a b).1.getLsbD 0 =
    if tyFloat t then (fCmp (fmtOf t) c (sub t a 0) (sub t b 0)).1
    else iCmp c (intOf t (sub t a 0)) (intOf t (sub t b 0)) := by
  have hbit : ∀ b : Bool, (if b then 1 else 0 : Word).getLsbD 0 = b := by decide
  simp only [cmpLane, sub_at_zero]
  cases tyFloat t <;> exact hbit _

theorem cmpLane_flags (c : Cond) (t : Ty) (a b : Word) :
    (cmpLane c t a b).2 = if tyFloat t then (fCmp (fmtOf t) c (sub t a 0) (sub t b 0)).2 else 0 := by
  simp only [cmpLane, sub_at_zero]
  cases tyFloat t <;> rfl

/-- Settles O1: the comparison of each lane, gathered into a mask and a flag word. -/
theorem vectorCompare : Obligations.VectorCompare := by
  intro c o s w sp x h hp
  refine ⟨_, _, runV_writesPred h rfl hp (show exec (.vcmp c o) s = execVcmp c o s from rfl), fun l _ => ?_, fun j => ?_⟩
  · exact (getLsbD_ofFn _ l).trans (cmpLane_holds c o.ty _ _)
  · rw [flagsOver_getLsbD]
    simp only [laneRes, cmpLane_flags]
    cases tyFloat o.ty with
    | true => simp only [if_true, true_and]; rfl
    | false => simp

/-! ### Exact results and their reduction (R179, R180, R288) -/

theorem intMin_nonpos (t : Ty) : intMin t ≤ 0 := by
  have h := Int.natCast_nonneg (2 ^ (tyWidth t - 1))
  unfold intMin; split <;> omega

theorem intMax_nonneg (t : Ty) : 0 ≤ intMax t := by
  have h1 : (0 : Int) < (2 ^ (tyWidth t - 1) : Nat) := Int.natCast_pos.2 (Nat.two_pow_pos _)
  have h2 : (0 : Int) < (2 ^ tyWidth t : Nat) := Int.natCast_pos.2 (Nat.two_pow_pos _)
  unfold intMax; split <;> omega

/-- The range of a type lies within its width (R179). -/
theorem neg_two_pow_le_intMin (t : Ty) : -((2 ^ tyWidth t : Nat) : Int) ≤ intMin t := by
  have h : ((2 ^ (tyWidth t - 1) : Nat) : Int) ≤ (2 ^ tyWidth t : Nat) :=
    Int.ofNat_le.2 (Nat.pow_le_pow_right (by decide) (by omega))
  have h0 := Int.natCast_nonneg (2 ^ tyWidth t)
  unfold intMin; split <;> omega

theorem intMax_lt_two_pow (t : Ty) : intMax t < (2 ^ tyWidth t : Nat) := by
  have h : ((2 ^ (tyWidth t - 1) : Nat) : Int) ≤ (2 ^ tyWidth t : Nat) :=
    Int.ofNat_le.2 (Nat.pow_le_pow_right (by decide) (by omega))
  unfold intMax; split <;> omega

/-- The model's reduction is the one of R180. -/
theorem reduceInt_eq_reduced (t : Ty) (sat : Bool) (v : Int) : reduceInt t sat v = reduced t sat v := by
  have hm := intMin_nonpos t
  have hx := intMax_nonneg t
  have hc : (if v < intMin t then intMin t else if intMax t < v then intMax t else v) = clampTo t v := by
    unfold clampTo; split_ifs <;> omega
  simp only [reduceInt, reduced, hc, flagIf, bne_iff_ne, ne_eq, ite_not]

theorem reduced_of_large {t : Ty} {u v : Int} (hu : intMax t < u) (hv : intMax t < v) : reduced t true u = reduced t true v := by
  have hm := intMin_nonpos t
  have hx := intMax_nonneg t
  have h : ∀ y, intMax t < y → clampTo t y = intMax t := fun y hy => by unfold clampTo; omega
  simp only [reduced, if_true, h u hu, h v hv, if_neg hu.ne, if_neg hv.ne]

theorem reduced_of_small {t : Ty} {u v : Int} (hu : u < intMin t) (hv : v < intMin t) : reduced t true u = reduced t true v := by
  have hm := intMin_nonpos t
  have hx := intMax_nonneg t
  have h : ∀ y, y < intMin t → clampTo t y = intMin t := fun y hy => by unfold clampTo; omega
  simp only [reduced, if_true, h u hu, h v hv, if_neg hu.ne', if_neg hv.ne']

theorem reduced_zero (t : Ty) (sat : Bool) : reduced t sat 0 = (0, 0) := by
  have hm := intMin_nonpos t
  have hx := intMax_nonneg t
  have h : clampTo t 0 = 0 := by unfold clampTo; omega
  have hl : lowBits (tyWidth t) 0 = 0 := by simp [lowBits]
  cases sat <;> simp [reduced, h, hl]

/-- Low bits depend on the value modulo the width only. -/
theorem lowBits_congr {n : Nat} {u v : Int} (h : u % (2 ^ n : Nat) = v % (2 ^ n : Nat)) : lowBits n u = lowBits n v := by
  simp only [lowBits, h]

theorem lowBits_natCast (n x : Nat) : lowBits n (x : Int) = x % 2 ^ n := by
  simp only [lowBits]
  exact_mod_cast Int.toNat_natCast _

/-- How far a shift goes: the low bits of B, whatever sign its type reads (R288). -/
theorem intOf_emod_toNat (t : Ty) (b : Nat) : (intOf t b % (2 ^ tyWidth t : Nat)).toNat = b % 2 ^ tyWidth t := by
  rw [intOf_mod, Int.toNat_natCast]

/-- A shift by more than the width leaves the same clamp, or the same zero, as a shift by twice the width. -/
theorem reduced_shl_far {t : Ty} {a n : Nat} (hn : tyWidth t < n) :
    (if intOf t a = 0 then (0, 0) else reduced t true (intOf t a * (2 ^ (2 * tyWidth t) : Nat)))
      = reduced t true (intOf t a * (2 ^ n : Nat)) := by
  have hmin := neg_two_pow_le_intMin t
  have hmax := intMax_lt_two_pow t
  have hw := tyWidth_pos t
  have far : ∀ m, tyWidth t < m → ((2 ^ tyWidth t : Nat) : Int) < (2 ^ m : Nat) := fun m hm =>
    Int.ofNat_lt.2 (Nat.pow_lt_pow_right (by decide) hm)
  have h1 := far (2 * tyWidth t) (by omega)
  have h2 := far n hn
  have below : ∀ P : Int, (2 ^ tyWidth t : Nat) < P → intOf t a < 0 → intOf t a * P < intMin t := fun P hP ha => by
    nlinarith
  have above : ∀ P : Int, (2 ^ tyWidth t : Nat) < P → 0 < intOf t a → intMax t < intOf t a * P := fun P hP ha => by
    nlinarith
  split_ifs with hz
  · rw [hz, Int.zero_mul, reduced_zero]
  · rcases Int.lt_or_gt_of_ne hz with hneg | hpos
    · exact reduced_of_small (below _ h1 hneg) (below _ h2 hneg)
    · exact reduced_of_large (above _ h1 hpos) (above _ h2 hpos)

/-- `shl` is an exact product by a power of two (R288). -/
theorem intFn_shl (t : Ty) (sat : Bool) (a b c : Nat) : intFn .shl t sat a b c
    = reduced t sat (intOf t a * (2 ^ (intOf t b % (2 ^ tyWidth t : Nat)).toNat : Nat)) := by
  rw [intOf_emod_toNat]
  simp only [intFn, reduceInt_eq_reduced]
  generalize b % 2 ^ tyWidth t = n
  cases sat with
  | true =>
    simp only [if_true]
    by_cases hn : n ≤ tyWidth t
    · rw [if_pos hn]
    · rw [if_neg hn]
      exact reduced_shl_far (by omega)
  | false =>
    simp only [Bool.false_eq_true, if_false, reduced, plainInt]
    have hmod : lowBits (tyWidth t) (intOf t a * (2 ^ n : Nat)) = a % 2 ^ tyWidth t * 2 ^ n % 2 ^ tyWidth t := by
      rw [← lowBits_natCast]
      refine lowBits_congr ?_
      rw [Int.mul_emod, intOf_mod, Nat.cast_mul, Int.mul_emod _ ((2 ^ n : Nat) : Int)]
      simp only [Int.natCast_mod, Int.emod_emod]
    by_cases hn : n < tyWidth t
    · rw [if_pos hn, hmod]
    · have hd : 2 ^ tyWidth t ∣ a % 2 ^ tyWidth t * 2 ^ n := (Nat.pow_dvd_pow 2 (by omega)).mul_left _
      rw [if_neg hn, hmod, Nat.mod_eq_zero_of_dvd hd]

/-! ### The functions on bits (R288) -/

/-- The model's function of each function on bits. -/
def intFnOf : BitFn → IntFn
  | .and => .and | .or => .or | .xor => .xor | .not => .not | .min => .min | .max => .max | .mulh => .mulh | .avg => .avg
  | .shr => .shr | .sra => .sra | .rot => .rot | .popc => .popc | .clz => .clz | .ctz => .ctz | .brev => .brev

theorem popCount_le (n x : Nat) : popCount n x ≤ n := by
  simpa [popCount] using List.length_filter_le (fun i => (x >>> i) % 2 == 1) (List.range n)

theorem popCount_eq (n x : Nat) : popCount n x = ((List.range n).filter fun j => x.testBit j).length := by
  simp only [popCount, Nat.testBit_eq_decide_div_mod_eq, Nat.shiftRight_eq_div_pow]
  rfl

theorem leadZeros_le (n x : Nat) : leadZeros n x ≤ n := by
  induction n with
  | zero => exact Nat.le_refl 0
  | succ n ih =>
    simp only [leadZeros]
    split <;> omega

/-- What the count of leading zeros says of a value. -/
theorem leadZeros_spec {n x : Nat} (hx : x < 2 ^ n) :
    x < 2 ^ (n - leadZeros n x) ∧ (leadZeros n x < n → 2 ^ (n - leadZeros n x - 1) ≤ x) := by
  induction n with
  | zero => exact ⟨hx, fun h => absurd h (Nat.lt_irrefl 0)⟩
  | succ n ih =>
    have hp := Nat.two_pow_pos n
    rw [Nat.pow_succ] at hx
    have hbit : x / 2 ^ n % 2 = x / 2 ^ n := Nat.mod_eq_of_lt (Nat.div_lt_of_lt_mul hx)
    simp only [leadZeros, Nat.shiftRight_eq_div_pow, hbit]
    split_ifs with hb
    · refine ⟨by simpa [Nat.pow_succ] using hx, fun _ => ?_⟩
      simpa [hb] using Nat.div_mul_le_self x (2 ^ n)
    · have hlt : x < 2 ^ n := (Nat.div_eq_zero_iff_lt hp).1 (by omega)
      obtain ⟨i1, i2⟩ := ih hlt
      have e : n + 1 - (1 + leadZeros n x) = n - leadZeros n x := by omega
      rw [e]
      exact ⟨i1, fun h => i2 (by omega)⟩

theorem trailZeros_le (n x : Nat) : trailZeros n x ≤ n := by
  induction n generalizing x with
  | zero => exact Nat.le_refl 0
  | succ n ih =>
    have := ih (x / 2)
    simp only [trailZeros]
    split <;> omega

/-- What the count of trailing zeros says of a value. -/
theorem trailZeros_spec (n x : Nat) :
    x % 2 ^ trailZeros n x = 0 ∧ (trailZeros n x < n → x.testBit (trailZeros n x) = true) := by
  induction n generalizing x with
  | zero => exact ⟨Nat.mod_one x, fun h => absurd h (Nat.lt_irrefl 0)⟩
  | succ n ih =>
    simp only [trailZeros]
    split_ifs with hb
    · exact ⟨Nat.mod_one x, fun _ => by simpa [Nat.testBit_zero] using hb⟩
    · obtain ⟨i1, i2⟩ := ih (x / 2)
      rw [Nat.add_comm 1]
      refine ⟨?_, fun h => ?_⟩
      · rw [Nat.pow_succ, Nat.mul_comm, Nat.mod_mul, i1]
        omega
      · rw [Nat.testBit_succ]
        exact i2 (by omega)

/-- A shift by the width or more leaves the sign alone. -/
theorem signedOf_shr {n a k : Nat} (hk : n ≤ k) : signedOf n a / (2 ^ k : Nat) = signedOf n a / (2 ^ n : Nat) := by
  have hle : 2 ^ n ≤ 2 ^ k := Nat.pow_le_pow_right (by decide) hk
  have hlt : a % 2 ^ n < 2 ^ n := Nat.mod_lt _ (Nat.two_pow_pos n)
  have hdiv : ∀ P : Nat, 2 ^ n ≤ P → signedOf n a / (P : Int) = if 2 * (a % 2 ^ n) < 2 ^ n then 0 else -1 := by
    intro P hP
    simp only [signedOf]
    split
    · exact Int.ediv_eq_zero_of_lt (by omega) (by omega)
    · rw [Int.ediv_eq_iff_of_pos (by omega)]
      omega
  rw [hdiv _ hle, hdiv _ (Nat.le_refl _)]

/-- The bits of a value gathered so far, lowest last, stand at the top of the reversed value. -/
theorem revBits_gathered (n x m : Nat) (hm : m ≤ n) :
    ∃ q, (List.range m).foldl (fun a j => a + ((x >>> j) % 2) * 2 ^ (n - 1 - j)) 0 = 2 ^ (n - m) * q
      ∧ q < 2 ^ m ∧ ∀ j, j < m → q.testBit (m - 1 - j) = x.testBit j := by
  induction m with
  | zero => exact ⟨0, rfl, Nat.one_pos, fun j hj => absurd hj (Nat.not_lt_zero j)⟩
  | succ m ih =>
    obtain ⟨q, hq, hlt, hbits⟩ := ih (by omega)
    have hb : (x >>> m) % 2 < 2 := Nat.mod_lt _ (by decide)
    refine ⟨2 * q + (x >>> m) % 2, ?_, by rw [Nat.pow_succ]; omega, fun j hj => ?_⟩
    · rw [List.range_succ, List.foldl_append, hq, List.foldl_cons, List.foldl_nil, show n - m = n - (m + 1) + 1 by omega,
        show n - 1 - m = n - (m + 1) by omega, Nat.pow_succ]
      ring
    · rcases Nat.lt_or_eq_of_le (Nat.le_of_lt_succ hj) with hlt | rfl
      · rw [show m + 1 - 1 - j = m - 1 - j + 1 by omega, Nat.testBit_succ, show (2 * q + (x >>> m) % 2) / 2 = q by omega]
        exact hbits j hlt
      · rw [show j + 1 - 1 - j = 0 by omega, Nat.testBit_zero, Nat.testBit_eq_decide_div_mod_eq, Nat.shiftRight_eq_div_pow,
          Nat.mul_add_mod, Nat.mod_mod]

theorem testBit_revBits {n j : Nat} (x : Nat) (hj : j < n) : (revBits n x).testBit (n - 1 - j) = x.testBit j := by
  obtain ⟨q, hq, _, hbits⟩ := revBits_gathered n x n (Nat.le_refl n)
  rw [Nat.sub_self, Nat.pow_zero, Nat.one_mul] at hq
  rw [revBits, hq]
  exact hbits j hj

theorem revBits_lt (n x : Nat) : revBits n x < 2 ^ n := by
  obtain ⟨q, hq, hlt, _⟩ := revBits_gathered n x n (Nat.le_refl n)
  rw [Nat.sub_self, Nat.pow_zero, Nat.one_mul] at hq
  rwa [revBits, hq]

/-- A rotation swaps the low part and the high part of a value. -/
theorem rotBits_eq {n x : Nat} (k : Nat) (hn : 0 < n) (hx : x < 2 ^ n) :
    rotBits n x k = 2 ^ (k % n) * (x % 2 ^ (n - k % n)) + x / 2 ^ (n - k % n) := by
  have hk : k % n ≤ n := (Nat.mod_lt k hn).le
  have hsplit : 2 ^ n = 2 ^ (k % n) * 2 ^ (n - k % n) := by rw [← Nat.pow_add, Nat.add_sub_cancel' hk]
  have hlow : x * 2 ^ (k % n) % 2 ^ n = 2 ^ (k % n) * (x % 2 ^ (n - k % n)) := by
    rw [Nat.mul_comm, hsplit, Nat.mul_mod_mul_left]
  simp only [rotBits, Nat.mod_eq_of_lt hx, hlow]

theorem rot_high_lt {n x r : Nat} (hr : r ≤ n) (hx : x < 2 ^ n) : x / 2 ^ (n - r) < 2 ^ r :=
  Nat.div_lt_of_lt_mul (by rwa [← Nat.pow_add, Nat.sub_add_cancel hr])

theorem testBit_rotBits {n x j : Nat} (k : Nat) (hx : x < 2 ^ n) (hj : j < n) :
    (rotBits n x k).testBit ((j + k) % n) = x.testBit j := by
  have hk : k % n < n := Nat.mod_lt _ (by omega)
  rw [rotBits_eq k (by omega) hx, Nat.testBit_two_pow_mul_add _ (rot_high_lt hk.le hx), Nat.testBit_mod_two_pow,
    Nat.testBit_div_two_pow, Nat.add_mod, Nat.mod_eq_of_lt hj]
  generalize k % n = r at *
  by_cases hlow : j + r < n
  · rw [Nat.mod_eq_of_lt hlow, if_neg (by omega), Nat.add_sub_cancel, decide_eq_true (by omega), Bool.true_and]
  · rw [Nat.mod_eq_sub_mod (by omega), Nat.mod_eq_of_lt (by omega), if_pos (by omega)]
    congr 1
    omega

theorem rotBits_lt {n x : Nat} (k : Nat) (hn : 0 < n) (hx : x < 2 ^ n) : rotBits n x k < 2 ^ n := by
  have hk : k % n ≤ n := (Nat.mod_lt k hn).le
  have hlow : x % 2 ^ (n - k % n) + 1 ≤ 2 ^ (n - k % n) := Nat.mod_lt _ (Nat.two_pow_pos _)
  calc rotBits n x k = 2 ^ (k % n) * (x % 2 ^ (n - k % n)) + x / 2 ^ (n - k % n) := rotBits_eq k hn hx
    _ < 2 ^ (k % n) * (x % 2 ^ (n - k % n)) + 2 ^ (k % n) := Nat.add_lt_add_left (rot_high_lt hk hx) _
    _ = 2 ^ (k % n) * (x % 2 ^ (n - k % n) + 1) := by ring
    _ ≤ 2 ^ (k % n) * 2 ^ (n - k % n) := Nat.mul_le_mul_left _ hlow
    _ = 2 ^ n := by rw [← Nat.pow_add, Nat.add_sub_cancel' hk]

/-! ### Bit fields (R288) -/

/-- A field starts and ends within the width (R288). -/
theorem fieldAt_le (n : Nat) (q : Word) : (fieldAt n q).1 + (fieldAt n q).2 ≤ n := by
  simp only [fieldAt]; omega

/-- A value of `m` bits read as two's complement and cut to `n` bits repeats its top bit above (R288). -/
theorem testBit_signExtend {n m x j : Nat} (hm : 0 < m) (hmn : m ≤ n) (hx : x < 2 ^ m) (hj : j < n) :
    (lowBits n (signedOf m x)).testBit j = if j < m then x.testBit j else x.testBit (m - 1) := by
  have hhalf : 2 ^ m = 2 * 2 ^ (m - 1) := by rw [← Nat.pow_succ', Nat.succ_eq_add_one, Nat.sub_add_cancel hm]
  have hle : 2 ^ m ≤ 2 ^ n := Nat.pow_le_pow_right (by decide) hmn
  simp only [signedOf, Nat.mod_eq_of_lt hx]
  by_cases hneg : 2 * x < 2 ^ m
  · have htop : x.testBit (m - 1) = false := Nat.testBit_lt_two_pow (by omega)
    rw [if_pos hneg, lowBits_natCast, Nat.mod_eq_of_lt (by omega), htop]
    split_ifs with hlow
    · rfl
    · exact Nat.testBit_lt_two_pow (hx.trans_le (Nat.pow_le_pow_right (by decide) (by omega)))
  · have htop : x.testBit (m - 1) = true := by
      have hq : x / 2 ^ (m - 1) = 1 := Nat.div_eq_of_lt_le (by omega) (by omega)
      rw [Nat.testBit_eq_decide_div_mod_eq, hq]
      rfl
    have hones : 2 ^ n - 2 ^ m = 2 ^ m * (2 ^ (n - m) - 1) := by
      rw [Nat.mul_sub, ← Nat.pow_add, Nat.add_sub_cancel' hmn, Nat.mul_one]
    have hval : lowBits n ((x : Int) - (2 ^ m : Nat)) = 2 ^ m * (2 ^ (n - m) - 1) + x := by
      have hcongr : lowBits n ((x : Int) - (2 ^ m : Nat)) = lowBits n ((2 ^ m * (2 ^ (n - m) - 1) + x : Nat) : Int) := by
        refine lowBits_congr ?_
        rw [← hones, ← Int.add_emod_right]
        congr 1
        omega
      rw [hcongr, lowBits_natCast, Nat.mod_eq_of_lt (by omega)]
    rw [if_neg hneg, hval, Nat.testBit_two_pow_mul_add _ hx, Nat.testBit_two_pow_sub_one, htop]
    split_ifs with hlow
    · rfl
    · exact decide_eq_true (by omega)

/-- The bits of a field. -/
theorem testBit_field {n p m : Nat} (h : p + m ≤ n) (a j : Nat) :
    (a % 2 ^ n / 2 ^ p % 2 ^ m).testBit j = (decide (j < m) && a.testBit (p + j)) := by
  rw [Nat.testBit_mod_two_pow, Nat.testBit_div_two_pow, Nat.testBit_mod_two_pow, Nat.add_comm j p]
  by_cases hj : j < m
  · rw [decide_eq_true (show p + j < n by omega), Bool.true_and]
  · rw [decide_eq_false hj, Bool.false_and, Bool.false_and]

/-- A field taken out, and extended where it is signed and not empty. -/
theorem testBit_extract {n p m j : Nat} (hpm : p + m ≤ n) (signed : Bool) (a : Nat) (hj : j < n) :
    (if signed && m != 0 then lowBits n (signedOf m (a % 2 ^ n / 2 ^ p % 2 ^ m)) else a % 2 ^ n / 2 ^ p % 2 ^ m).testBit j
      = if j < m then a.testBit (p + j) else signed && m != 0 && a.testBit (p + m - 1) := by
  have hfield := testBit_field hpm a
  by_cases hs : (signed && m != 0) = true
  · have hm : 0 < m := Nat.pos_of_ne_zero (bne_iff_ne.1 (Bool.and_eq_true_iff.1 hs).2)
    rw [if_pos hs, hs, testBit_signExtend hm (by omega) (Nat.mod_lt _ (Nat.two_pow_pos m)) hj, hfield, hfield,
      decide_eq_true (show m - 1 < m by omega), Bool.true_and, Bool.true_and, Nat.add_sub_assoc hm]
    split_ifs with hlow
    · rw [decide_eq_true hlow, Bool.true_and]
    · rfl
  · rw [if_neg hs, Bool.eq_false_iff.2 hs, hfield, Bool.false_and]
    split_ifs with hlow
    · rw [decide_eq_true hlow, Bool.true_and]
    · rw [decide_eq_false hlow, Bool.false_and]

theorem bfeInt_isField (t : Ty) (a : Nat) (q : Word) : isField t q a (bfeInt t a q) :=
  fun _ hj => testBit_extract (fieldAt_le _ q) (tySigned t) a hj

/-- A field replaced: what lies above it, the new bits, and what lies below it. -/
theorem replaceField_eq (x y p m : Nat) : x - (x / 2 ^ p % 2 ^ m) * 2 ^ p + y * 2 ^ p
    = 2 ^ p * (2 ^ m * (x / 2 ^ p / 2 ^ m) + y) + x % 2 ^ p := by
  have h1 : 2 ^ p * (2 ^ m * (x / 2 ^ p / 2 ^ m)) + (x / 2 ^ p % 2 ^ m) * 2 ^ p + x % 2 ^ p = x := by
    rw [Nat.mul_comm _ (2 ^ p), ← Nat.mul_add, Nat.div_add_mod, Nat.div_add_mod]
  have h2 : 2 ^ p * (2 ^ m * (x / 2 ^ p / 2 ^ m) + y) = 2 ^ p * (2 ^ m * (x / 2 ^ p / 2 ^ m)) + y * 2 ^ p := by ring
  omega

theorem testBit_replaceField (x b p m j : Nat) : (x - (x / 2 ^ p % 2 ^ m) * 2 ^ p + b % 2 ^ m * 2 ^ p).testBit j
    = if p ≤ j ∧ j < p + m then b.testBit (j - p) else x.testBit j := by
  rw [replaceField_eq, Nat.testBit_two_pow_mul_add _ (Nat.mod_lt x (Nat.two_pow_pos p)),
    Nat.testBit_two_pow_mul_add _ (Nat.mod_lt b (Nat.two_pow_pos m))]
  by_cases hlow : j < p
  · rw [if_pos hlow, if_neg (by omega), Nat.testBit_mod_two_pow, decide_eq_true hlow, Bool.true_and]
  · rw [if_neg hlow]
    by_cases hin : j - p < m
    · rw [if_pos hin, if_pos (by omega), Nat.testBit_mod_two_pow, decide_eq_true hin, Bool.true_and]
    · rw [if_neg hin, if_neg (by omega), Nat.testBit_div_two_pow, Nat.testBit_div_two_pow]
      congr 1
      omega

theorem bfiInt_isInsert (t : Ty) (a b : Nat) (q : Word) : isInsert t q a b (bfiInt t a b q) := by
  intro j hj
  refine (testBit_replaceField (a % 2 ^ tyWidth t) b _ _ j).trans ?_
  rw [Nat.testBit_mod_two_pow, decide_eq_true hj, Bool.true_and]
  rfl

/-! ### What `intFn` gives (R288, R292) -/

theorem intFn_bits_noFlag (f : BitFn) (t : Ty) (sat : Bool) (a b c : Nat) : (intFn (intFnOf f) t sat a b c).2 = 0 := by
  cases f <;> rfl

theorem intFn_bits_lt (f : BitFn) (t : Ty) (sat : Bool) (a b c : Nat) (ha : a < 2 ^ tyWidth t) (hb : b < 2 ^ tyWidth t) :
    (intFn (intFnOf f) t sat a b c).1 < 2 ^ tyWidth t := by
  have hw := Nat.lt_two_pow_self (n := tyWidth t)
  have hp := Nat.two_pow_pos (tyWidth t)
  cases f <;> simp only [intFnOf, intFn, Nat.mod_eq_of_lt ha, Nat.mod_eq_of_lt hb]
  case and => exact Nat.and_lt_two_pow _ hb
  case or => exact Nat.or_lt_two_pow ha hb
  case xor => exact Nat.xor_lt_two_pow ha hb
  case not => omega
  case min => split <;> assumption
  case max => split <;> assumption
  case mulh => exact lowBits_lt _ _
  case avg => exact lowBits_lt _ _
  case shr =>
    split
    · exact (Nat.div_le_self _ _).trans_lt ha
    · exact hp
  case sra => exact lowBits_lt _ _
  case rot => exact rotBits_lt b (tyWidth_pos t) ha
  case popc => exact (popCount_le _ a).trans_lt hw
  case clz => exact (leadZeros_le _ a).trans_lt hw
  case ctz => exact (trailZeros_le _ a).trans_lt hw
  case brev => exact revBits_lt _ a

theorem intFn_bits_holds (f : BitFn) (t : Ty) (sat : Bool) (a b c : Nat) (ha : a < 2 ^ tyWidth t) (hb : b < 2 ^ tyWidth t) :
    f.holds t a b (intFn (intFnOf f) t sat a b c).1 := by
  cases f <;> simp only [intFnOf, intFn, BitFn.holds, Nat.mod_eq_of_lt ha, Nat.mod_eq_of_lt hb]
  case not => omega
  case mulh => exact lowBits_cast _ _
  case avg => exact lowBits_cast _ _
  case shr =>
    split
    · rfl
    · exact (Nat.div_eq_of_lt (ha.trans_le (Nat.pow_le_pow_right (by decide) (by omega)))).symm
  case sra =>
    rw [lowBits_cast]
    split
    · rfl
    · rw [signedOf_shr (k := b) (by omega)]
  case rot => exact fun j hj => testBit_rotBits b ha hj
  case popc => exact popCount_eq _ a
  case clz => exact ⟨leadZeros_le _ a, leadZeros_spec ha⟩
  case ctz => exact ⟨trailZeros_le _ a, trailZeros_spec _ a⟩
  case brev => exact fun j hj => testBit_revBits a hj

/-! ### The scalar group (R288, R289) -/

theorem low_lt (t : Ty) (v : Word) : low t v < 2 ^ tyWidth t := Nat.mod_lt _ (Nat.two_pow_pos _)

section

variable {i : Instr} {s : State} {w : Warp} {sp : Fin 8} {x : Split}

/-- A scalar form writes its function of the values that its specifiers read, extended, and sets its flags. -/
theorem runS_writesOnce (h : Issues i s w sp x) {o : SOp} {f : Word → Word → Word → Res1} (he : exec i s = runS i o f s) :
    WritesOnce i s w sp x fun y =>
      let r := f (readS i s w sp x o.w1 o.a) (readS i s w sp x o.w1 o.b) (readS i s w sp x o.w1 o.c)
      setFlags (setS y o.d (wordOfInt (intOf o.ty r.1))) r.2 := by
  refine issueWarp_writesOnce h he ?_
  simp only [ssrcVal_counted]
  rfl

/-- A scalar form that sets no flag. -/
theorem runS_writesPlain (h : Issues i s w sp x) {o : SOp} {f : Word → Word → Word → Nat}
    (he : exec i s = runS i o (fun a b c => (f a b c, 0)) s) :
    WritesOnce i s w sp x fun y => setS y o.d (wordOfInt (intOf o.ty
      (f (readS i s w sp x o.w1 o.a) (readS i s w sp x o.w1 o.b) (readS i s w sp x o.w1 o.c)))) := by
  simpa only [setFlags_zero] using runS_writesOnce h he

/-- A scalar form of an integer function. -/
theorem runSInt_writesOnce (h : Issues i s w sp x) {o : SOp} {fn : IntFn} (he : exec i s = runSInt i fn o s) {r : Res1}
    (hr : intFn fn o.ty o.sat (low o.ty (readS i s w sp x o.w1 o.a)) (low o.ty (readS i s w sp x o.w1 o.b)) 0 = r) :
    WritesOnce i s w sp x fun y => setFlags (setS y o.d (wordOfInt (intOf o.ty r.1))) r.2 := by
  subst hr
  exact runS_writesOnce h (f := fun a b _ => intFn fn o.ty o.sat (low o.ty a) (low o.ty b) 0) he

/-- A scalar form of a function on bits. -/
theorem runSInt_bits (h : Issues i s w sp x) {o : SOp} (f : BitFn) (he : exec i s = runSInt i (intFnOf f) o s) :
    ∃ r, WritesOnce i s w sp x (fun y => setS y o.d (wordOfInt (intOf o.ty r))) ∧ r < 2 ^ tyWidth o.ty ∧
      f.holds o.ty (low o.ty (readS i s w sp x o.w1 o.a)) (low o.ty (readS i s w sp x o.w1 o.b)) r := by
  have ha := low_lt o.ty (readS i s w sp x o.w1 o.a)
  have hb := low_lt o.ty (readS i s w sp x o.w1 o.b)
  refine ⟨_, ?_, intFn_bits_lt f o.ty o.sat _ _ 0 ha hb, intFn_bits_holds f o.ty o.sat _ _ 0 ha hb⟩
  simpa only [intFn_bits_noFlag, setFlags_zero] using runSInt_writesOnce h he rfl

end

theorem scalarArithmetic : Claims.ScalarArithmetic := by
  constructor
  · intro p hp o s w sp x h
    simp only [exactScalars, List.mem_cons, List.not_mem_nil, or_false] at hp
    rcases hp with rfl | rfl | rfl | rfl
    · exact runSInt_writesOnce h (show exec (.sadd o) s = execSadd o s from rfl) (reduceInt_eq_reduced ..)
    · exact runSInt_writesOnce h (show exec (.ssub o) s = execSsub o s from rfl) (reduceInt_eq_reduced ..)
    · exact runSInt_writesOnce h (show exec (.smul o) s = execSmul o s from rfl) (reduceInt_eq_reduced ..)
    · exact runSInt_writesOnce h (show exec (.sshl o) s = execSshl o s from rfl) (intFn_shl ..)
  · intro p hp o s w sp x h
    simp only [bitScalars, List.mem_cons, List.not_mem_nil, or_false] at hp
    rcases hp with rfl | rfl | rfl | rfl | rfl | rfl | rfl | rfl | rfl | rfl | rfl | rfl
    · exact runSInt_bits h .mulh (show exec (.smulh o) s = execSmulh o s from rfl)
    · exact runSInt_bits h .min (show exec (.smin o) s = execSmin o s from rfl)
    · exact runSInt_bits h .max (show exec (.smax o) s = execSmax o s from rfl)
    · exact runSInt_bits h .and (show exec (.sand o) s = execSand o s from rfl)
    · exact runSInt_bits h .or (show exec (.sor o) s = execSor o s from rfl)
    · exact runSInt_bits h .xor (show exec (.sxor o) s = execSxor o s from rfl)
    · exact runSInt_bits h .not (show exec (.snot o) s = execSnot o s from rfl)
    · exact runSInt_bits h .shr (show exec (.sshr o) s = execSshr o s from rfl)
    · exact runSInt_bits h .sra (show exec (.ssra o) s = execSsra o s from rfl)
    · exact runSInt_bits h .popc (show exec (.spopc o) s = execSpopc o s from rfl)
    · exact runSInt_bits h .clz (show exec (.sclz o) s = execSclz o s from rfl)
    · exact runSInt_bits h .ctz (show exec (.sctz o) s = execSctz o s from rfl)

theorem scalarMovesAndFields : Claims.ScalarMovesAndFields := by
  intro o s w sp x
  refine ⟨fun h => ?_, fun h => ?_, fun c h => ?_, fun h => ?_, fun h => ?_⟩
  · exact runS_writesPlain h (f := fun a _ _ => low o.ty a) (show exec (.smov o) s = execSmov o s from rfl)
  · exact runS_writesPlain h (f := fun a b c => if low o.ty c = 0 then low o.ty b else low o.ty a)
      (show exec (.ssel o) s = execSsel o s from rfl)
  · exact runS_writesPlain h (f := fun a b _ => if iCmp c (intOf o.ty (low o.ty a)) (intOf o.ty (low o.ty b)) then 1 else 0)
      (show exec (.scmp c o) s = execScmp c o s from rfl)
  · exact ⟨_, runS_writesPlain h (f := fun a q _ => bfeInt o.ty (low o.ty a) q)
      (show exec (.sbfe o) s = execSbfe o s from rfl), bfeInt_isField o.ty _ _⟩
  · exact ⟨_, runS_writesPlain h (f := fun a b q => bfiInt o.ty (low o.ty a) (low o.ty b) q)
      (show exec (.sbfi o) s = execSbfi o s from rfl), bfiInt_isInsert o.ty _ _ _⟩

/-- Settles O11, by the exact results, the functions on bits, and the moves and fields. -/
theorem scalarForms : Obligations.ScalarForms := ⟨scalarArithmetic, scalarMovesAndFields⟩

end Sys2Proof.Proofs

/-! SUPPORT. What the operations of the L2 slices change (R146-R151), beyond what `OnlyCaches` says of them: the cores stay, and of a
die only the lines of its L2 and its forwarding entries change, which never grow but by a migration. With it the statement about
write-backs. -/

namespace Sys2Proof.Proofs

open Sys2Proof Sys2Proof.Machine Sys2Proof.Claims Sys2Proof.Laws

/-! ### Frames of the slices -/

/-- All of a state but the dies and the bridge. -/
def offSlices (s : State) : State := { s with dies := State.reset.dies, bridge := Bridge.reset }

/-- All of a state but the dies, the bridge, package memory and which of its sectors are in error. -/
def offHome (s : State) : State := { offSlices s with mem := [], bad := [] }

/-- All of a die but the lines of its L2 and its forwarding entries. -/
def offL2 (x : Die) : Die := { x with l2 := [], fwd := [] }

/-- Of a die only the lines of its L2 and its forwarding entries change, and no forwarding entry is new. -/
structure DieSlices (x y : Die) : Prop where
  rest : offL2 y = offL2 x
  fwd : ∀ line, y.fwd.contains line = true → x.fwd.contains line = true

theorem DieSlices.refl (x : Die) : DieSlices x x := ⟨rfl, fun _ h => h⟩

theorem DieSlices.trans {x y z : Die} (h : DieSlices x y) (g : DieSlices y z) : DieSlices x z :=
  ⟨g.rest.trans h.rest, fun n k => h.fwd n (g.fwd n k)⟩

/-- A field of a die that is not of its slices stays. -/
theorem DieSlices.field {α : Type} {x y : Die} (h : DieSlices x y) (f : Die → α) (hf : ∀ z, f (offL2 z) = f z) : f y = f x := by
  rw [← hf y, h.rest, hf x]

theorem DieSlices.dstate {x y : Die} (h : DieSlices x y) : y.dstate = x.dstate := h.field Die.dstate fun _ => rfl
theorem DieSlices.uncorr {x y : Die} (h : DieSlices x y) : y.uncorr = x.uncorr := h.field Die.uncorr fun _ => rfl

/-- From `s` to `t` the slices of the dies are used: the lines that they hold and forward, and the packets of the bridge. Beside these
only what `off` leaves out of a state changes. -/
structure Used (off : State → State) (s t : State) : Prop where
  rest : off t = off s
  die : ∀ d : Fin 2, DieSlices s.dies[d] t.dies[d]
  down : t.bridge.down = s.bridge.down

/-- Nothing but the slices changes. -/
abbrev SlicesUsed := Used offSlices

/-- Nothing but the slices, package memory and its errors changes. -/
abbrev HomeUsed := Used offHome

section

variable {off : State → State} {s t u : State}

/-- A field that is not left out of what agrees is the same. -/
theorem field_of_off {α : Type} (h : off t = off s) (f : State → α) (hf : ∀ z, f (off z) = f z) : f t = f s := by
  rw [← hf t, h, hf s]

theorem Used.refl (s : State) : Used off s s := ⟨rfl, fun _ => .refl _, rfl⟩

theorem Used.trans (h : Used off s t) (g : Used off t u) : Used off s u :=
  ⟨g.rest.trans h.rest, fun d => (h.die d).trans (g.die d), g.down.trans h.down⟩

theorem Used.fold {α : Type} {f : State → α → State} (hf : ∀ s a, Used off s (f s a)) (l : List α) (s : State) :
    Used off s (l.foldl f s) := by
  induction l generalizing s with
  | nil => exact .refl s
  | cons a r ih => exact (hf s a).trans (ih _)

theorem Used.ite {p : Prop} [Decidable p] (h : Used off s t) (g : Used off s u) : Used off s (if p then t else u) := by
  split
  · exact h
  · exact g

/-- A field of the state that is not left out stays. -/
theorem Used.field {α : Type} (h : Used off s t) (f : State → α) (hf : ∀ z, f (off z) = f z) : f t = f s := field_of_off h.rest f hf

theorem Used.dstate (h : Used off s t) (d : Fin 2) : t.dies[d].dstate = s.dies[d].dstate := (h.die d).dstate

theorem Used.home (h : SlicesUsed s t) : HomeUsed s t :=
  ⟨congrArg (fun z : State => { z with mem := [], bad := [] }) h.rest, h.die, h.down⟩

end

/-- A change of one die within its slices. -/
theorem modDie_slices {s : State} {d : Fin 2} {f : Die → Die} (hf : ∀ x, DieSlices x (f x)) : SlicesUsed s (modDie s d f) := by
  refine ⟨rfl, fun e => ?_, rfl⟩
  by_cases h : e = d
  · subst h; rw [modDie_same]; exact hf _
  · rw [modDie_other _ _ _ _ h]; exact .refl _

/-- A change of the lines that a die's L2 holds. -/
theorem modL2_slices (s : State) (d : Fin 2) (f : Die → List L2Line) : SlicesUsed s (modDie s d fun x => { x with l2 := f x }) :=
  modDie_slices fun _ => ⟨rfl, fun _ h => h⟩

theorem sendPacket_slices (s : State) (dir : Fin 2) (a : Nat) (x : PktBody) (b : Bool) : SlicesUsed s (sendPacket s dir a x b) :=
  ⟨rfl, fun _ => .refl _, rfl⟩

theorem l2Mod_slices (s : State) (d : Fin 2) (line : Nat) (f : L2Line → L2Line) : SlicesUsed s (l2Mod s d line f) := modL2_slices _ _ _
theorem l2Remove_slices (s : State) (d : Fin 2) (line : Nat) : SlicesUsed s (l2Remove s d line) := modL2_slices _ _ _
theorem l2Drop_slices (s : State) (d : Fin 2) (sec : Nat) : SlicesUsed s (l2Drop s d sec) := l2Mod_slices _ _ _ _
theorem l2Alone_slices (s : State) (line : Nat) : SlicesUsed s (l2Alone s line) := l2Mod_slices _ _ _ _

/-- A forwarding entry that is removed. -/
theorem unforward_slices (s : State) (line : Nat) : SlicesUsed s (setForward s line false) :=
  modDie_slices fun x => ⟨rfl, fun n h => by
    simp only [Bool.false_eq_true, if_false, List.contains_eq_mem, List.mem_filter, decide_eq_true_eq] at h ⊢
    exact h.1⟩

theorem arrivePacket_slices (s : State) (dir : Fin 2) (n : Nat) : SlicesUsed s (arrivePacket s dir n) := by
  have h : SlicesUsed s ((s.bridge.queue.filter fun p => p.between dir n && p.invalidates).foldl deliverPacket s) := by
    refine .fold (fun s p => ?_) _ _
    unfold deliverPacket
    split
    · exact l2Drop_slices _ _ _
    all_goals exact .refl s
  exact h.trans ⟨rfl, fun _ => .refl _, rfl⟩

theorem crossed_slices (s : State) (a b : Fin 2) (n : Nat) : SlicesUsed s (crossed s a b n) := by
  unfold crossed
  split
  · exact .refl s
  · exact ((arrivePacket_slices _ _ _).trans (arrivePacket_slices _ _ _)).trans
      ((sendPacket_slices _ _ _ _ _).trans (sendPacket_slices _ _ _ _ _))

theorem pastStall_slices {f : State → State} (hf : ∀ s, SlicesUsed s (f s)) (s : State) : SlicesUsed s (pastStall s f) := by
  unfold pastStall
  dsimp only
  split
  · have h := hf { s with bridge := { s.bridge with retrain := none, replay := [] } }
    exact ⟨h.rest, h.die, h.down⟩
  · exact hf s

theorem l2Evict_slices (s : State) (d : Fin 2) (line : Nat) : SlicesUsed s (l2Evict s d line) := by
  unfold l2Evict
  dsimp only
  refine (l2Remove_slices s d line).trans ?_
  split
  · split
    · exact (crossed_slices _ _ _ _).trans (unforward_slices _ _)
    · exact .refl _
  · exact l2Alone_slices _ _

theorem l2Room_slices (d : Fin 2) (line need fuel : Nat) (s : State) : SlicesUsed s (l2Room s d line need fuel) := by
  induction fuel generalizing s with
  | zero => exact .refl s
  | succ k ih =>
    unfold l2Room
    split
    · exact .refl s
    · exact (l2Evict_slices _ _ _).trans (ih _)

theorem l2Trim_slices (d : Fin 2) (sl : Fin 64) (fuel : Nat) (s : State) : SlicesUsed s (l2Trim s d sl fuel) := by
  induction fuel generalizing s with
  | zero => exact .refl s
  | succ k ih =>
    unfold l2Trim
    split
    · exact .refl s
    · split
      · exact .refl s
      · exact (l2Evict_slices _ _ _).trans (ih _)

theorem l2Touch_slices (s : State) (d : Fin 2) (line : Nat) (q : Acc) : SlicesUsed s (l2Touch s d line q) := by
  unfold l2Touch
  dsimp only
  split
  · refine .trans (t := ite _ _ _) (.ite (l2Room_slices _ _ _ _ _) (.refl s)) (.ite (l2Mod_slices _ _ _ _) (modL2_slices _ _ _))
  · exact (l2Room_slices _ _ _ _ _).trans (.ite (.refl _) (modL2_slices _ _ _))

theorem l2Hold_slices (s : State) (d : Fin 2) (sec : Nat) (q : Acc) (f : L2Line → L2Line) : SlicesUsed s (l2Hold s d sec q f) := by
  unfold l2Hold
  split
  · exact .refl s
  · exact (l2Touch_slices _ _ _ _).trans (l2Mod_slices _ _ _ _)

theorem noteDue_slices (s : State) (line : Nat) (q : Acc) : SlicesUsed s (noteDue s line q) := by
  unfold noteDue
  dsimp only
  split
  · split
    · exact l2Mod_slices _ _ _ _
    · exact .refl s
  · exact .refl s

/-- An access that does not count towards migration. -/
theorem countAccess_slices (s : State) (r : Fin 2) (line : Nat) : SlicesUsed s (countAccess s r line false) := by
  unfold countAccess
  dsimp only
  split
  · exact .refl s
  · simpa using Used.refl s

theorem l2Wrote_slices (s : State) (r : Fin 2) (sec : Nat) (q : Acc) (atomic : Bool) (hq : q.may = false) :
    SlicesUsed s (l2Wrote s r sec q atomic) := by
  unfold l2Wrote
  dsimp only
  rw [hq]
  refine .trans (.trans ?_ (crossed_slices _ _ _ _)) (.trans (l2Hold_slices _ _ _ _ _) (.trans (noteDue_slices _ _ _) (countAccess_slices _ _ _)))
  split
  · exact .refl s
  · split
    · exact (crossed_slices _ _ _ _).trans (l2Drop_slices _ _ _)
    · split
      · exact l2Drop_slices _ _ _
      · exact sendPacket_slices _ _ _ _ _

theorem memory_home (s : State) (m : Memory) : HomeUsed s { s with mem := m } := ⟨rfl, fun _ => .refl _, rfl⟩
theorem healSector_home (s : State) (sec : Nat) : HomeUsed s (healSector s sec) := ⟨rfl, fun _ => .refl _, rfl⟩
theorem harmSector_home (s : State) (sec : Nat) : HomeUsed s (harmSector s sec) := ⟨rfl, fun _ => .refl _, rfl⟩

theorem wroteError_home (s : State) (l : L1Line) (k : Nat) : HomeUsed s (wroteError s l k) := by
  unfold wroteError
  split
  · exact harmSector_home _ _
  · split
    · exact healSector_home _ _
    · exact .refl s

theorem homeTouch_home (r : Fin 2) (q : Acc) (atomic : Bool) (hq : q.may = false) (fuel : Nat) (s : State) (a n : Nat) :
    HomeUsed s (homeTouch s r q atomic fuel a n) := by
  induction fuel generalizing s a n with
  | zero => exact .refl s
  | succ k ih =>
    unfold homeTouch
    dsimp only
    split
    · exact .refl s
    · refine .trans ?_ (ih _ _ _)
      split
      · exact (healSector_home _ _).trans (l2Wrote_slices _ _ _ _ _ hq).home
      · exact (l2Wrote_slices _ _ _ _ _ hq).home

/-- A write of the part itself at a home slice. -/
theorem homeWrite_home (s : State) (r : Fin 2) (atomic : Bool) (a n x : Nat) : HomeUsed s (homeWrite s r Acc.plain atomic a n x) :=
  (memory_home s (homeMem s.mem Acc.plain a n x)).trans (homeTouch_home _ _ _ rfl _ _ _ _)

theorem writeBack_home (s : State) (d : Fin 2) (l : L1Line) : HomeUsed s (writeBack s d l) := by
  unfold writeBack
  split
  · exact .refl s
  · generalize writeMasked s.mem (l.line * 256) l.data.toNat l.dirty.toNat 256 = m
    refine (memory_home s m).trans (.fold (fun s k => ?_) _ _)
    exact .ite (.refl s) ((wroteError_home _ _ _).trans (l2Wrote_slices _ _ _ _ _ rfl).home)

end Sys2Proof.Proofs

/-! SUPPORT. The statement about write-backs (R26, R146, R329): the lines that are written back one after the other, what they leave
in memory, and what stays. -/

namespace Sys2Proof.Proofs

open Sys2Proof Sys2Proof.Machine Sys2Proof.Claims Sys2Proof.Laws

/-! ### Dirty bytes in memory -/

theorem writeMasked_noBits (m : Memory) (a x n : Nat) : writeMasked m a x 0 n = m := by
  induction n generalizing a x with
  | zero => rfl
  | succ n ih => exact ih _ _

/-- One byte after the bytes of a mask were written. -/
theorem readByte_writeMasked (m : Memory) (a x mask n b : Nat) (h : Memory.wf m = true) :
    readByte (writeMasked m a x mask n) b
      = if a ≤ b ∧ b < a + n ∧ mask.testBit (b - a) = true then BitVec.ofNat 8 (x / 256 ^ (b - a)) else readByte m b := by
  induction n generalizing m a x mask with
  | zero => rw [if_neg (by omega)]; rfl
  | succ n ih =>
    have one : Memory.wf (if mask % 2 = 1 then put (n := 8) m a (BitVec.ofNat 8 x) else m) = true := by
      split
      · exact put_wf _ _ h
      · exact h
    have here : readByte (if mask % 2 = 1 then put (n := 8) m a (BitVec.ofNat 8 x) else m) b
        = if b = a ∧ mask % 2 = 1 then BitVec.ofNat 8 x else readByte m b := by
      split
      · rename_i hm; simp only [hm, and_true, readByte]; exact look_put a b _ h
      · rename_i hm; simp only [hm, and_false, if_false]
    simp only [writeMasked]
    rw [ih _ _ _ _ one, here]
    rcases Nat.lt_trichotomy b a with hlt | heq | hgt
    · rw [if_neg (by omega), if_neg (by omega), if_neg (by omega)]
    · subst heq
      rw [if_neg (by omega)]
      simp [Nat.testBit_zero]
    · have e : b - a = (b - (a + 1)) + 1 := by omega
      rw [e, Nat.testBit_succ, Nat.pow_succ, Nat.mul_comm, ← Nat.div_div_eq_div_mul]
      simp only [show (a + 1 ≤ b) = (a ≤ b) by simp; omega, show (b < a + 1 + n) = (b < a + (n + 1)) by simp; omega,
        show ¬ b = a by omega, false_and, if_false]

/-- Memory with the dirty bytes of a line written (R146). -/
@[irreducible] def lineMem (m : Memory) (l : L1Line) : Memory := writeMasked m (l.line * 256) l.data.toNat l.dirty.toNat 256

/-- A line holds the byte at an address dirty. -/
def HoldsDirty (l : L1Line) (a : Nat) : Prop := l.line = a / 256 ∧ l.dirty.getLsbD (a % 256) = true

theorem HoldsDirty.dirty {l : L1Line} {a : Nat} (h : HoldsDirty l a) : l.dirty ≠ 0 := fun e => by
  simpa [e] using h.2

theorem lineMem_wf {m : Memory} (l : L1Line) (h : Memory.wf m = true) : Memory.wf (lineMem m l) = true := by
  unfold lineMem
  exact writeMasked_wf _ _ _ _ _ h

theorem lineMem_clean (m : Memory) {l : L1Line} (h : l.dirty = 0) : lineMem m l = m := by
  unfold lineMem
  rw [h]
  exact writeMasked_noBits _ _ _ _

theorem readByte_lineMem_dirty {m : Memory} {l : L1Line} {a : Nat} (h : Memory.wf m = true) (hd : HoldsDirty l a) :
    readByte (lineMem m l) a = lineByte l (a % 256) := by
  obtain ⟨hl, hb⟩ := hd
  have e : a - l.line * 256 = a % 256 := by omega
  unfold lineMem lineByte
  rw [readByte_writeMasked _ _ _ _ _ _ h, if_pos ⟨by omega, by omega, by rw [e]; exact hb⟩, e, Nat.shiftRight_eq_div_pow,
    show 2 ^ (8 * (a % 256)) = 256 ^ (a % 256) from Nat.pow_mul 2 8 _]

theorem readByte_lineMem_other {m : Memory} {l : L1Line} {a : Nat} (h : Memory.wf m = true) (hd : ¬ HoldsDirty l a) :
    readByte (lineMem m l) a = readByte m a := by
  unfold lineMem
  rw [readByte_writeMasked _ _ _ _ _ _ h, if_neg]
  rintro ⟨h1, h2, hb⟩
  have e : a - l.line * 256 = a % 256 := by omega
  exact hd ⟨by omega, by rwa [e] at hb⟩

/-- A byte that no line written holds dirty keeps its value. -/
theorem readByte_linesMem_other {ws : List L1Line} {m : Memory} {a : Nat} (h : Memory.wf m = true) (hn : ∀ l ∈ ws, ¬ HoldsDirty l a) :
    readByte (ws.foldl lineMem m) a = readByte m a := by
  induction ws generalizing m with
  | nil => rfl
  | cons l r ih =>
    rw [List.foldl_cons, ih (lineMem_wf l h) fun y hy => hn y (.tail _ hy), readByte_lineMem_other h (hn l (.head _))]

/-- A byte that some line written holds dirty has its value in such a line: the last one. -/
theorem readByte_linesMem_dirty {ws : List L1Line} {m : Memory} {a : Nat} (h : Memory.wf m = true) (hd : ∃ l ∈ ws, HoldsDirty l a) :
    ∃ l ∈ ws, HoldsDirty l a ∧ readByte (ws.foldl lineMem m) a = lineByte l (a % 256) := by
  induction ws generalizing m with
  | nil => obtain ⟨l, hl, -⟩ := hd; cases hl
  | cons l r ih =>
    by_cases hr : ∃ y ∈ r, HoldsDirty y a
    · obtain ⟨y, hy, hya, e⟩ := ih (lineMem_wf l h) hr
      exact ⟨y, .tail _ hy, hya, e⟩
    · have hr' : ∀ y ∈ r, ¬ HoldsDirty y a := fun y hy k => hr ⟨y, hy, k⟩
      obtain ⟨y, hy, hya⟩ := hd
      obtain rfl | hy := List.mem_cons.mp hy
      · exact ⟨y, .head _, hya, by rw [List.foldl_cons, readByte_linesMem_other (lineMem_wf y h) hr', readByte_lineMem_dirty h hya]⟩
      · exact absurd hya (hr' y hy)

/-! ### A core that uses the slices -/

/-- All of a state but its cores and what the slices and memory hold. -/
def offCores (s : State) : State := { offHome s with cores := State.reset.cores }

/-- From `s` to `t` one core changes, and the slices are used. -/
structure CoreUses (c : Fin 384) (s t : State) : Prop extends Used offCores s t where
  other : ∀ k, k ≠ c → t.cores[k] = s.cores[k]

theorem Used.coreUses {s t : State} (h : HomeUsed s t) (c : Fin 384) : CoreUses c s t :=
  ⟨⟨congrArg (fun z : State => { z with cores := State.reset.cores }) h.rest, h.die, h.down⟩,
    fun _ _ => by rw [h.field State.cores fun _ => rfl]⟩

theorem modCore_coreUses (c : Fin 384) (s : State) (f : Core → Core) : CoreUses c s (modCore s c f) :=
  ⟨⟨rfl, fun _ => .refl _, rfl⟩, fun k hk => modCore_other s c k f hk⟩

theorem CoreUses.refl (c : Fin 384) (s : State) : CoreUses c s s := ⟨.refl s, fun _ _ => rfl⟩

theorem CoreUses.trans {c : Fin 384} {s t u : State} (h : CoreUses c s t) (g : CoreUses c t u) : CoreUses c s u :=
  ⟨h.toUsed.trans g.toUsed, fun k hk => (g.other k hk).trans (h.other k hk)⟩

/-! ### Lines that are written back one after the other -/

/-- A line as it stands once some lines have been cleaned. -/
def cleanedLine (ws : List L1Line) (y : L1Line) : L1Line := if y ∈ ws then { y with dirty := 0 } else y

theorem cleanedLine_append (ws vs : List L1Line) (y : L1Line) : cleanedLine vs (cleanedLine ws y) = cleanedLine (ws ++ vs) y := by
  unfold cleanedLine
  by_cases hw : y ∈ ws
  · simp [hw]
  · simp [hw]

/-- The lines `ws` of a core have been written back, in this order, and left clean. -/
structure WroteBack (c : Fin 384) (ws : List L1Line) (s t : State) : Prop extends CoreUses c s t where
  mem : t.mem = ws.foldl lineMem s.mem
  lines : t.cores[c].l1 = s.cores[c].l1.map (cleanedLine ws)

theorem WroteBack.nil (c : Fin 384) (s : State) : WroteBack c [] s s :=
  ⟨.refl c s, rfl, by simp [show cleanedLine [] = id from funext fun y => by simp [cleanedLine]]⟩

theorem WroteBack.append {c : Fin 384} {ws vs : List L1Line} {s t u : State} (h : WroteBack c ws s t) (g : WroteBack c vs t u) :
    WroteBack c (ws ++ vs) s u := by
  refine ⟨h.toCoreUses.trans g.toCoreUses, by rw [g.mem, h.mem, List.foldl_append], ?_⟩
  rw [g.lines, h.lines, List.map_map]
  exact List.map_congr_left fun y _ => cleanedLine_append ws vs y

/-- The write-back of one line that can go to its home slice. -/
theorem l1CleanLine_free {s : State} {c : Fin 384} {l : L1Line} (h : lineFree s (coreDie c) l = true) :
    WroteBack c [l] s (l1CleanLine s c l) := by
  have used := writeBack_home s (coreDie c) l
  have mem : (writeBack s (coreDie c) l).mem = lineMem s.mem l := by
    rw [writeBack_mem]
    by_cases hd : l.dirty = 0
    · rw [if_pos (by rw [hd]; rfl), lineMem_clean _ hd]
    · unfold lineMem
      exact if_neg fun k => hd (by simpa [h] using k)
  unfold l1CleanLine
  rw [if_pos h]
  refine ⟨(used.coreUses c).trans (modCore_coreUses c _ _), mem, ?_⟩
  rw [modCore_same, used.field State.cores fun _ => rfl]
  exact List.map_congr_left fun y _ => by simp [cleanedLine]

theorem l1CleanLine_held {s : State} {c : Fin 384} {l : L1Line} (h : lineFree s (coreDie c) l = false) : l1CleanLine s c l = s := by
  unfold l1CleanLine
  rw [h]
  rfl

/-- The line's home is a die, and it has not migrated (R150). -/
def StaysAt (s : State) (d : Fin 2) (l : L1Line) : Prop := dieOf (l.line * 256) = d ∧ s.dies[d].fwd.contains l.line = false

theorem StaysAt.holder {s : State} {d : Fin 2} {l : L1Line} (h : StaysAt s d l) : holderOf s l.line = d := by
  obtain ⟨rfl, hf⟩ := h
  unfold holderOf
  dsimp only
  rw [hf]
  rfl

theorem StaysAt.keep {s t : State} {d : Fin 2} {l : L1Line} (h : StaysAt s d l) (g : DieSlices s.dies[d] t.dies[d]) : StaysAt t d l := by
  refine ⟨h.1, ?_⟩
  by_contra k
  exact Bool.eq_false_iff.mp h.2 (g.fwd _ (by simpa using k))

/-- A line of a core's own die that has not migrated can always be written back. -/
theorem StaysAt.free {s : State} {d : Fin 2} {l : L1Line} (h : StaysAt s d l) (ho : s.dies[d].dstate ≠ .dieOffline) :
    lineFree s d l = true := by
  have e := h.holder
  obtain ⟨rfl, -⟩ := h
  simpa [lineFree, lineReach, crossing, e] using .inr ho

/-- A dirty line of the other die that has not migrated cannot while the bridge is down (R27). -/
theorem StaysAt.held {s : State} {d e : Fin 2} {l : L1Line} (h : StaysAt s e l) (hd : e ≠ d) (hb : s.bridge.down = true)
    (hl : l.dirty ≠ 0) : lineFree s d l = false := by
  simpa [lineFree, lineReach, h.holder, hb, hd.symm] using hl

/-- What a write-back of some lines, one after the other, writes back. -/
theorem cleanLines_wroteBack (c : Fin 384) (ls : List L1Line) (s : State) :
    ∃ ws, WroteBack c ws s (ls.foldl (fun s l => l1CleanLine s c l) s) ∧ (∀ l ∈ ws, l ∈ ls) ∧
      (s.dies[coreDie c].dstate ≠ .dieOffline → ∀ l ∈ ls, StaysAt s (coreDie c) l → l ∈ ws) ∧
      (s.bridge.down = true → ∀ l ∈ ls, ∀ e, StaysAt s e l → e ≠ coreDie c → l.dirty ≠ 0 → l ∉ ws) := by
  induction ls generalizing s with
  | nil => exact ⟨[], .nil c s, by simp, by simp, by simp⟩
  | cons l r ih =>
    obtain ⟨ws, hw, hsub, hnear, hfar⟩ := ih (l1CleanLine s c l)
    cases hf : lineFree s (coreDie c) l with
    | false =>
      rw [l1CleanLine_held hf] at hw hnear hfar
      refine ⟨ws, by rw [List.foldl_cons, l1CleanLine_held hf]; exact hw, fun y hy => .tail _ (hsub y hy), fun ho y hy hn => ?_,
        fun hb y _ e he hd hl hy => hfar hb y (hsub y hy) e he hd hl hy⟩
      obtain rfl | hy := List.mem_cons.mp hy
      · rw [hn.free ho] at hf; cases hf
      · exact hnear ho y hy hn
    | true =>
      have one := l1CleanLine_free hf
      refine ⟨l :: ws, one.append hw, List.cons_subset_cons l hsub, fun ho y hy hn => ?_, fun hb y _ e he hd hl hy => ?_⟩
      · obtain rfl | hy := List.mem_cons.mp hy
        · exact .head _
        · exact .tail _ (hnear (by rwa [(one.die _).dstate]) y hy (hn.keep (one.die _)))
      · obtain rfl | hy := List.mem_cons.mp hy
        · rw [he.held hd hb hl] at hf; cases hf
        · exact hfar (by rwa [one.down]) y (hsub y hy) e (he.keep (one.die _)) hd hl hy

/-- Settles O32: the lines `ws` that the write-back could write back, in their order, give every byte its last writer; a clean line
counts as written back too, which changes nothing. -/
protected theorem writeBack : Obligations.WriteBack := by
  intro s c p hm t d
  obtain ⟨ws, hw, hsub, hnear, hfar⟩ := cleanLines_wroteBack c (s.cores[c].l1.filter fun l => p l && l.dirty != 0) s
  have taken : ∀ l ∈ ws, l ∈ s.cores[c].l1 ∧ p l = true ∧ l.dirty ≠ 0 := fun l hl => by
    simpa using List.mem_filter.mp (hsub l hl)
  have only := l1Clean_only s c p
  have isBack : ∀ l, (p l && (l.dirty == 0 || decide (l ∈ ws))) = true ↔ p l = true ∧ (l.dirty = 0 ∨ l ∈ ws) := by simp
  have written : ∀ l a, HoldsDirty l a → ((p l = true ∧ (l.dirty = 0 ∨ l ∈ ws)) ∧ l ∈ s.cores[c].l1 ↔ l ∈ ws) := fun l a ha =>
    ⟨fun h => h.1.2.resolve_left ha.dirty, fun h => ⟨⟨(taken l h).2.1, .inr h⟩, (taken l h).1⟩⟩
  refine ⟨fun l => p l && (l.dirty == 0 || decide (l ∈ ws)), ?_⟩
  simp only [isBack]
  refine ⟨fun l h => h.1, fun l hl hp hd ho hf => ⟨hp, or_iff_not_imp_left.mpr fun h0 => ?_⟩, fun hb l hl h0 hd hf => ?_,
    fun a ha => ?_, fun a ha => ?_, ?_, hw.other, only.warps, only.ctxs, only.units, only.wf hm⟩
  · exact hnear ho l (List.mem_filter.mpr ⟨hl, by simpa [hp] using h0⟩) ⟨hd, hf⟩
  · rw [Bool.eq_false_iff]
    intro h
    have hws := ((isBack l).mp h).2.resolve_left h0
    exact hfar hb l (hsub l hws) _ ⟨rfl, hf⟩ hd h0 hws
  · rw [show t.mem = _ from hw.mem]
    exact readByte_linesMem_other hm fun l hl hla => ha l ⟨((written l a hla).mpr hl).1, ((written l a hla).mpr hl).2, hla⟩
  · obtain ⟨l, hb, hl, hla⟩ := ha
    obtain ⟨y, hy, hya, e⟩ := readByte_linesMem_dirty (m := s.mem) hm ⟨l, (written l a hla).mp ⟨hb, hl⟩, hla⟩
    exact ⟨y, ⟨((written y a hya).mpr hy).1, ((written y a hya).mpr hy).2, hya⟩, by rw [show t.mem = _ from hw.mem]; exact e⟩
  · rw [show t.cores[c].l1 = _ from hw.lines]
    refine List.map_congr_left fun y _ => ?_
    by_cases hy : y ∈ ws
    · rw [cleanedLine, if_pos hy, if_pos ⟨(taken y hy).2.1, .inr hy⟩]
    · rw [cleanedLine, if_neg hy]
      split
      · rename_i hb
        rw [← hb.2.resolve_right hy]
      · rfl

end Sys2Proof.Proofs

/-! SUPPORT. Messages to the host and the health status of a die (R26, R36, R42, R50): what they change, and that a message sent is heard
of. With them the statements about starts, measurements, power and the thermal trip. -/

namespace Sys2Proof.Proofs

open Sys2Proof Sys2Proof.Machine Sys2Proof.Claims Sys2Proof.Laws

/-! ### Messages to the host -/

/-- All of a state but its dies, the bridge and the messages of the host port. -/
def offHealth (s : State) : State := { offSlices s with host := State.reset.host, hostOut := [] }

/-- From `s` to `t` only dies, the bridge and the messages of the host port change: the bridge stays up or down, the host link too, and no
message is lost. -/
structure HealthStep (s t : State) : Prop where
  rest : offHealth t = offHealth s
  down : t.bridge.down = s.bridge.down
  up : t.host.up = s.host.up
  told : ∀ m, Tells s m → Tells t m

section

variable {s t u : State}

theorem HealthStep.refl (s : State) : HealthStep s s := ⟨rfl, rfl, rfl, fun _ h => h⟩

theorem HealthStep.trans (h : HealthStep s t) (g : HealthStep t u) : HealthStep s u :=
  ⟨g.rest.trans h.rest, g.down.trans h.down, g.up.trans h.up, fun m k => g.told m (h.told m k)⟩

theorem HealthStep.field {α : Type} (h : HealthStep s t) (f : State → α) (hf : ∀ z, f (offHealth z) = f z) : f t = f s :=
  field_of_off h.rest f hf

theorem HealthStep.mem (h : HealthStep s t) : t.mem = s.mem := h.field State.mem fun _ => rfl
theorem HealthStep.ctxs (h : HealthStep s t) : t.ctxs = s.ctxs := h.field State.ctxs fun _ => rfl
theorem HealthStep.warps (h : HealthStep s t) : t.warps = s.warps := h.field State.warps fun _ => rfl
theorem HealthStep.cores (h : HealthStep s t) : t.cores = s.cores := h.field State.cores fun _ => rfl
theorem HealthStep.copies (h : HealthStep s t) : t.copies = s.copies := h.field State.copies fun _ => rfl
theorem HealthStep.units (h : HealthStep s t) : t.units = s.units := h.field State.units fun _ => rfl
theorem HealthStep.bad (h : HealthStep s t) : t.bad = s.bad := h.field State.bad fun _ => rfl

theorem HealthStep.sameWork (h : HealthStep s t) : sameWork s t :=
  ⟨h.warps, h.units, h.mem, h.ctxs, h.cores, h.copies, h.field State.mops fun _ => rfl, h.field State.results fun _ => rfl⟩

/-- A use of the slices loses no message: it leaves the host port. -/
theorem Used.health (h : SlicesUsed s t) : HealthStep s t := by
  have port : t.host = s.host := h.field State.host fun _ => rfl
  have sent : t.hostOut = s.hostOut := h.field State.hostOut fun _ => rfl
  exact ⟨congrArg (fun z : State => { z with host := State.reset.host, hostOut := [] }) h.rest, h.down, by rw [port],
    fun m k => by simpa only [Tells, port, sent] using k⟩

end

theorem modDie_health (s : State) (d : Fin 2) (f : Die → Die) : HealthStep s (modDie s d f) := ⟨rfl, rfl, rfl, fun _ h => h⟩

theorem sendPacket_health (s : State) (dir : Fin 2) (a : Nat) (x : PktBody) (b : Bool) : HealthStep s (sendPacket s dir a x b) :=
  ⟨rfl, rfl, rfl, fun _ h => h⟩

/-- A message joins those that are held. -/
theorem holdMsg_sends (s : State) (x : HeldMsg) : HealthStep s (holdMsg s x) ∧ Tells (holdMsg s x) x.msg := by
  refine ⟨⟨rfl, rfl, rfl, fun m h => ?_⟩, .inr ⟨x, by simp [holdMsg], rfl⟩⟩
  refine h.imp_right fun ⟨y, hy, e⟩ => ⟨y, ?_, e⟩
  simp only [holdMsg, List.mem_append] at hy ⊢
  exact hy.imp_left .inl

theorem atHostPort_sends (s : State) (x : HeldMsg) : HealthStep s (atHostPort s x) ∧ Tells (atHostPort s x) x.msg := by
  unfold atHostPort
  split
  · exact ⟨⟨rfl, rfl, rfl, fun m h => h.imp_left (List.mem_append_left _)⟩, .inl (List.mem_append_right _ (.head _))⟩
  · exact holdMsg_sends s { x with die := 0 }

theorem toHostFor_sends (s : State) (x : HeldMsg) :
    HealthStep s (toHostFor s x) ∧ (crossing s x.die 0 ≠ .down → Tells (toHostFor s x) x.msg) := by
  have weaken : ∀ {t : State}, HealthStep s t ∧ Tells t x.msg → HealthStep s t ∧ (crossing s x.die 0 ≠ .down → Tells t x.msg) :=
    fun h => ⟨h.1, fun _ => h.2⟩
  unfold toHostFor
  split
  · exact ⟨.refl s, fun h => absurd ‹_› h⟩
  · exact weaken (holdMsg_sends s x)
  · split
    · exact weaken (atHostPort_sends s x)
    · split
      · exact weaken (holdMsg_sends s x)
      · have h := atHostPort_sends (sendPacket s x.die hostAgent .request true) x
        exact weaken ⟨(sendPacket_health _ _ _ _ _).trans h.1, h.2⟩

theorem toHostFrom_health (s : State) (d : Fin 2) (m : HostMsg) : HealthStep s (toHostFrom s d m) := (toHostFor_sends _ _).1

theorem crossing_hears {s : State} {d : Fin 2} (h : Hears s d) : crossing s d 0 ≠ .down := by
  unfold crossing
  split
  · simp
  · rw [h.resolve_left ‹_›]
    simp only [Bool.false_eq_true, if_false]
    split <;> simp

/-- What a die sends is heard of where the bridge carries it (R10, R26, R27). -/
theorem toHostFrom_tells {s : State} {d : Fin 2} (h : Hears s d) (m : HostMsg) : Tells (toHostFrom s d m) m :=
  (toHostFor_sends s { die := d, owner := none, msg := m }).2 (crossing_hears h)

theorem toHost_tells (s : State) (m : HostMsg) : Tells (toHost s m) m := toHostFrom_tells (.inl rfl) m

/-! ### The health status of a die (R50, R53) -/

theorem tellHealth_health (s : State) (d : Fin 2) (was : Die) : HealthStep s (tellHealth s d was) := by
  unfold tellHealth
  split
  · exact .refl s
  · exact toHostFrom_health _ _ _

@[simp] theorem tellHealth_dies (s : State) (d : Fin 2) (was : Die) : (tellHealth s d was).dies = s.dies := by
  unfold tellHealth
  split
  · rfl
  · exact toHostFrom_dies _ _ _

/-- A die whose RR follows R53. -/
def withDue (y : Die) : Die := { y with rr := y.rr || replaceDue y }

theorem setHealth_eq (s : State) (d : Fin 2) (f : Die → Die) :
    setHealth s d f = tellHealth (modDie s d fun _ => withDue (f s.dies[d])) d s.dies[d] := rfl

theorem setHealth_health (s : State) (d : Fin 2) (f : Die → Die) : HealthStep s (setHealth s d f) :=
  (modDie_health _ _ _).trans (tellHealth_health _ _ _)

@[simp] theorem setHealth_same (s : State) (d : Fin 2) (f : Die → Die) : (setHealth s d f).dies[d] = withDue (f s.dies[d]) := by
  rw [setHealth_eq, tellHealth_dies, modDie_same]

@[simp] theorem setHealth_other (s : State) (d e : Fin 2) (f : Die → Die) (h : e ≠ d) : (setHealth s d f).dies[e] = s.dies[e] := by
  rw [setHealth_eq, tellHealth_dies, modDie_other _ _ _ _ h]

/-- The driver hears of a change of the health status (R50). -/
theorem setHealth_tells {s : State} {d : Fin 2} {f : Die → Die} (h : Hears s d) (hf : healthOf s.dies[d] ≠ healthOf (withDue (f s.dies[d]))) :
    Tells (setHealth s d f) (.msix 0 63) := by
  rw [setHealth_eq]
  unfold tellHealth
  rw [if_neg (by rwa [modDie_same])]
  exact toHostFrom_tells (s := modDie s d fun _ => withDue (f s.dies[d])) h _

/-! ### Starts (R43-R49) -/

/-- A die after a start that has come to its end, but for RR. -/
def endedStart (d : Die) (k : StartKind) (f : StartFacts) (up : DState) : Die :=
  let e := startEnd d k f
  let d' := { d with meas := measured d k f e, starting := none, trip := tripAfter d k }
  match e with
  | .failed => failStart { d with meas := d'.meas } k
  | .romHold => { d' with start := .romHold }
  | .recovery => { d' with start := .recovery }
  | .good =>
    let y := { d' with
      start := k, fails := 0, saved := some (repairUsed d k f), dstate := up, islands := islandsOf up
      ports := if k == StartKind.cold then trainPorts d f else d.ports }
    { y with rr := if k == StartKind.cold then replaceDue y else y.rr }

/-- The bridge after a start: a cold one that comes up trains it. -/
def trainedBridge (s : State) (good cold trains : Bool) : State :=
  if good && cold then { s with bridge := { s.bridge with down := !trains, retrain := none, attempts := 0 } } else s

theorem endStart_eq (s : State) (n : Fin 2) (k : StartKind) (f : StartFacts) (up : DState) (trains : Bool) :
    endStart s n k f up trains =
      setHealth (trainedBridge s (startEnd s.dies[n] k f == .good) (k == .cold) trains) n fun d => endedStart d k f up := rfl

/-! ### Power and temperature (R18, R22, R23) -/

theorem setClocks_clocksSet (down : Bool) (clk : List (BitVec 8)) (d : Die) : ClocksSet d (withDue (setClocks down clk d)) (down = true) := by
  refine ⟨Iff.rfl, fun i => ?_⟩
  have e : (withDue (setClocks down clk d)).clock[i] = BitVec.ofNat 8 (if down then
      max 16 (min (max 16 (min 40 (clk.getD i.val d.clock[i]).toNat)) (d.clock[i].toNat - 1)) else
      max 16 (min 40 (clk.getD i.val d.clock[i]).toNat)) := tabulate_get 12 _ i
  rw [e]
  generalize (clk.getD i.val d.clock[i]).toNat = want
  generalize d.clock[i].toNat = now
  cases down
  · simp only [Bool.false_eq_true, if_false, BitVec.toNat_ofNat]
    exact ⟨by omega, by omega, fun h => h.elim⟩
  · simp only [if_true, BitVec.toNat_ofNat, true_implies]
    exact ⟨by omega, by omega, fun h => ⟨by omega, fun k => by omega⟩⟩

/-! ### The measurements of a start (R44) -/

theorem bytesOf_zero (n : Nat) : bytesOf n 0 = List.replicate n 0 := by
  induction n with
  | zero => rfl
  | succ n ih => rw [List.replicate_succ, ← ih]; rfl

theorem extendMeas_same (m : Vector (BitVec 384) 8) (i : Fin 8) (g : BitVec 384) (h : m[i] = 0) :
    (extendMeas m i g)[i] = extended1 g := by
  have e : bytesOf 48 m[i].toNat = List.replicate 48 0 := by rw [show m[i].toNat = 0 by rw [h]; exact BitVec.toNat_zero]; exact bytesOf_zero 48
  unfold extendMeas extended1
  rw [e]
  simp

theorem extendMeas_other (m : Vector (BitVec 384) 8) (i j : Fin 8) (g : BitVec 384) (h : j ≠ i) : (extendMeas m i g)[j] = m[j] := by
  have h' : i.val ≠ j.val := fun e => h (Fin.ext e.symm)
  simp [extendMeas, h']

section

variable (x : Die) (k : StartKind) (f : StartFacts) (e : StartEnd)

/-- The registers after the ROM, the image and the kind of the start have been measured. -/
def measuredImage (n : Nat) : Vector (BitVec 384) 8 :=
  let m := extendMeas (always 8 0) 0 f.romDigest
  let m := if verifies x f then extendMeas m 1 (if wantsRecovery x then f.recDigest else f.fwDigest) else m
  extendMeas m 2 (Config.sha384 [BitVec.ofNat 8 n, BitVec.ofNat 8 x.fails.val])

theorem measured_eq : ∃ n, measured x k f e =
    if e = .good then extendMeas (extendMeas (measuredImage x f n) 3 (repairUsed x k f)) 4 f.ucodeDigest else measuredImage x f n :=
  ⟨_, rfl⟩

theorem measuredImage_rom (n : Nat) : (measuredImage x f n)[(0 : Fin 8)] = extended1 f.romDigest := by
  have h : ((always 8 0 : Vector (BitVec 384) 8))[(0 : Fin 8)] = 0 := always_get 8 0 _
  unfold measuredImage
  dsimp only
  rw [extendMeas_other _ _ _ _ (by decide)]
  split
  · rw [extendMeas_other _ _ _ _ (by decide), extendMeas_same _ _ _ h]
  · rw [extendMeas_same _ _ _ h]

theorem measuredImage_image (n : Nat) : (measuredImage x f n)[(1 : Fin 8)] =
    if verifies x f then extended1 (if wantsRecovery x then f.recDigest else f.fwDigest) else 0 := by
  have h : (extendMeas (always 8 0) 0 f.romDigest)[(1 : Fin 8)] = 0 := by
    rw [extendMeas_other _ _ _ _ (by decide)]; exact always_get 8 0 _
  unfold measuredImage
  dsimp only
  rw [extendMeas_other _ _ _ _ (by decide)]
  split
  · rw [extendMeas_same _ _ _ h]
  · exact h

theorem measuredImage_high (n : Nat) (j : Fin 8) (h : 3 ≤ j.val) : (measuredImage x f n)[j] = 0 := by
  have ne : ∀ i : Fin 8, i.val < 3 → j ≠ i := fun i hi e => by rw [e] at h; omega
  unfold measuredImage
  dsimp only
  rw [extendMeas_other _ _ _ _ (ne 2 (by decide))]
  split
  · rw [extendMeas_other _ _ _ _ (ne 1 (by decide)), extendMeas_other _ _ _ _ (ne 0 (by decide))]; exact always_get 8 0 _
  · rw [extendMeas_other _ _ _ _ (ne 0 (by decide))]; exact always_get 8 0 _

theorem measured_rom : (measured x k f e)[(0 : Fin 8)] = extended1 f.romDigest := by
  obtain ⟨n, h⟩ := measured_eq x k f e
  rw [h]
  split
  · rw [extendMeas_other _ _ _ _ (by decide), extendMeas_other _ _ _ _ (by decide), measuredImage_rom]
  · rw [measuredImage_rom]

theorem measured_image : (measured x k f e)[(1 : Fin 8)] =
    if verifies x f then extended1 (if wantsRecovery x then f.recDigest else f.fwDigest) else 0 := by
  obtain ⟨n, h⟩ := measured_eq x k f e
  rw [h, ← measuredImage_image x f n]
  split
  · rw [extendMeas_other _ _ _ _ (by decide), extendMeas_other _ _ _ _ (by decide)]
  · rfl

theorem measured_high (j : Fin 8) (hj : 5 ≤ j.val) : (measured x k f e)[j] = 0 := by
  have ne : ∀ i : Fin 8, i.val < 5 → j ≠ i := fun i hi e => by rw [e] at hj; omega
  obtain ⟨n, h⟩ := measured_eq x k f e
  rw [h]
  split
  · rw [extendMeas_other _ _ _ _ (ne 4 (by decide)), extendMeas_other _ _ _ _ (ne 3 (by decide)), measuredImage_high _ _ _ _ (by omega)]
  · rw [measuredImage_high _ _ _ _ (by omega)]

theorem measured_good_values : (measured x k f .good)[(3 : Fin 8)] = extended1 (repairUsed x k f) := by
  obtain ⟨n, h⟩ := measured_eq x k f .good
  rw [h, if_pos rfl, extendMeas_other _ _ _ _ (by decide), extendMeas_same _ _ _ (measuredImage_high _ _ _ _ (by decide))]

theorem measured_good_ucode : (measured x k f .good)[(4 : Fin 8)] = extended1 f.ucodeDigest := by
  obtain ⟨n, h⟩ := measured_eq x k f .good
  rw [h, if_pos rfl, extendMeas_same]
  rw [extendMeas_other _ _ _ _ (by decide), measuredImage_high _ _ _ _ (by decide)]

end

/-! ### How a start ends (R43, R46-R49) -/

section

variable {x : Die} {cold : Bool} {f : StartFacts}

theorem coldStart_iff : (cold || x.saved.isNone || !f.savedOk || !f.serialsMatch) = true ↔ coldStart x cold f := by
  simp [coldStart, or_assoc]

theorem startKindOf_warm (h : ¬ coldStart x cold f) : startKindOf x cold f = .warm := if_neg (mt coldStart_iff.mp h)

theorem startKindOf_cold_iff : startKindOf x cold f = .cold ↔ coldStart x cold f := by
  refine ⟨fun e => ?_, fun h => if_pos (coldStart_iff.mpr h)⟩
  by_contra h
  rw [startKindOf_warm h] at e
  cases e

theorem wantsRecovery_iff : wantsRecovery x = true ↔ recovers x := by simp [wantsRecovery, recovers]

theorem imageOk_iff (rsa slh : Bool) (v : Nat) : imageOk rsa slh v x.minVer = true ↔ Verifies x rsa slh v := by
  simp [imageOk, Verifies, and_assoc]

theorem verifies_recovery (h : recovers x) : verifies x f = true ↔ Verifies x f.recRsaOk f.recSlhOk f.recSecVer := by
  rw [verifies, if_pos (wantsRecovery_iff.mpr h), imageOk_iff]

theorem verifies_product (h : ¬ recovers x) : verifies x f = true ↔ Verifies x f.rsaOk f.slhOk f.secVer := by
  rw [verifies, if_neg (mt wantsRecovery_iff.mp h), imageOk_iff]

theorem startEnd_recovery (h : recovers x) (v : Verifies x f.recRsaOk f.recSlhOk f.recSecVer) (k : StartKind) :
    startEnd x k f = .recovery := by
  rw [startEnd, if_pos (wantsRecovery_iff.mpr h), if_pos ((verifies_recovery h).mpr v)]

theorem startEnd_romHold (h : recovers x) (v : ¬ Verifies x f.recRsaOk f.recSlhOk f.recSecVer) (k : StartKind) :
    startEnd x k f = .romHold := by
  rw [startEnd, if_pos (wantsRecovery_iff.mpr h), if_neg (mt (verifies_recovery h).mp v)]

theorem startEnd_product (h : ¬ recovers x) :
    startEnd x (startKindOf x cold f) f = .good ∧ startGood x cold f ∨
      startEnd x (startKindOf x cold f) f = .failed ∧ ¬ startGood x cold f := by
  rw [startEnd, if_neg (mt wantsRecovery_iff.mp h)]
  by_cases v : Verifies x f.rsaOk f.slhOk f.secVer
  · rw [if_neg (by simpa using (verifies_product h).mpr v)]
    by_cases hc : coldStart x cold f
    · rw [startKindOf_cold_iff.mpr hc]
      cases hr : f.repairOk <;> cases ht : f.hbmTrains <;> simp [startGood, h, v, hc, hr, ht]
    · rw [startKindOf_warm hc]
      simp [startGood, h, v, hc]
  · rw [if_pos (by simpa using mt (verifies_product h).mp v)]
    exact .inr ⟨rfl, fun g => v g.2.1⟩

theorem startEnd_good_iff : startEnd x (startKindOf x cold f) f = .good ↔ startGood x cold f := by
  by_cases h : recovers x
  · by_cases v : Verifies x f.recRsaOk f.recSlhOk f.recSecVer
    · simp [startEnd_recovery h v, startGood, h]
    · simp [startEnd_romHold h v, startGood, h]
  · obtain ⟨e, g⟩ | ⟨e, g⟩ := startEnd_product (cold := cold) (f := f) h <;> simp [e, g]

end

/-! ### What a start leaves (R43-R50, R53) -/

theorem withDue_rr (y : Die) : (withDue y).rr = true ↔ replaceDue (withDue y) = true ∨ y.rr = true := by
  rw [show replaceDue (withDue y) = replaceDue y from rfl]
  simp [withDue, or_comm]

theorem tripAfter_iff (n : Fin 2) (d : Die) (cold : Bool) (f : StartFacts) :
    tripAfter (startedFrom n d) (startKindOf (startedFrom n d) cold f) = true ↔ d.trip = true ∧ ¬ coldStart d cold f := by
  have h : startKindOf (startedFrom n d) cold f = .cold ↔ coldStart d cold f := startKindOf_cold_iff
  rw [tripAfter, Bool.and_eq_true, bne_iff_ne, ne_eq, h]
  exact Iff.rfl

theorem bootIslands_on (n : Fin 2) (k : Fin 16) (h : (bootIslands n)[k] = .on) : k.val = 15 ∨ (k.val = 14 ∧ n = 0) := by
  rw [bootIslands, tabulate_get] at h
  split at h
  · assumption
  · cases h

theorem islandsOf_on (st : DState) (k : Fin 16) (h : (islandsOf st)[k] = .on) :
    k.val = 15 ∨ (st = .coresOffline ∧ 12 ≤ k.val) ∨ st = .online := by
  rw [islandsOf, tabulate_get] at h
  cases st <;> simp at h ⊢ <;> omega

theorem trainPorts_trained (d : Die) (f : StartFacts) : Trained d.ports (trainPorts d f) f := by
  intro p
  rw [trainPorts, tabulate_get]
  dsimp only
  split
  · have := (f.ports[p]).isLt
    rw [BitVec.toNat_ofNat]
    omega
  · rfl

/-- START after a start that does not come up (R49, R50; log 66). -/
def startAfter (k : StartKind) : StartEnd → StartKind
  | .romHold => .romHold
  | .recovery => .recovery
  | _ => k

theorem endedStart_notGood {x : Die} {k : StartKind} {f : StartFacts} {e : StartEnd} (up : DState) (he : startEnd x k f = e) (hg : e ≠ .good) :
    endedStart x k f up = { x with
      meas := measured x k f e, starting := none, trip := tripAfter x k, start := startAfter k e
      fails := if e = .failed ∧ x.fails ≠ 3 then x.fails + 1 else x.fails } := by
  unfold endedStart
  rw [he]
  cases e with
  | good => exact absurd rfl hg
  | romHold => rfl
  | recovery => rfl
  | failed =>
    by_cases h : x.fails = 3
    · simp [failStart, startAfter, tripAfter, h]
    · simp [failStart, startAfter, tripAfter, h]

/-- A start that does not come up. -/
theorem notGood_outcome {n : Fin 2} {d : Die} {cold : Bool} {f : StartFacts} {up : DState} (hg : ¬ startGood d cold f) :
    StartOutcome n d (withDue (endedStart (startedFrom n d) (startKindOf (startedFrom n d) cold f) f up)) cold f up := by
  have trip := tripAfter_iff n d cold f
  have ends : startEnd (startedFrom n d) (startKindOf (startedFrom n d) cold f) f ≠ .good := mt (startEnd_good_iff (x := startedFrom n d)).mp hg
  have failed : ¬ recovers d → startEnd (startedFrom n d) (startKindOf (startedFrom n d) cold f) f = .failed := fun h =>
    (startEnd_product (x := startedFrom n d) h).elim (fun g => absurd g.2 hg) And.left
  have recovery := fun (h : recovers d) v => startEnd_recovery (x := startedFrom n d) (f := f) h v (startKindOf (startedFrom n d) cold f)
  have hold := fun (h : recovers d) v => startEnd_romHold (x := startedFrom n d) (f := f) h v (startKindOf (startedFrom n d) cold f)
  rw [endedStart_notGood up rfl ends]
  generalize startKindOf (startedFrom n d) cold f = k at *
  generalize startEnd (startedFrom n d) k f = e at *
  refine
    { kept := ⟨rfl, rfl, rfl, rfl, rfl, rfl, rfl⟩
      ports := ⟨fun g => absurd g hg, fun _ => rfl⟩
      good := fun g => absurd g hg
      failed := fun hr _ => ⟨?_, rfl, fun v => ?_, fun v => ?_⟩
      recovery := fun hr v => ⟨?_, ?_, rfl, ?_⟩
      hold := fun hr v => ⟨?_, ?_, rfl⟩
      rom := ⟨measured_rom _ _ _ _, measured_high _ _ _ _⟩
      trip := trip
      replace := (withDue_rr _).trans (or_congr_right ⟨fun h => ⟨h, fun g => hg g.1⟩, fun h => h.1⟩)
      islands := fun k h => (bootIslands_on n k h).imp_right .inl }
  · show (if e = .failed ∧ d.fails ≠ 3 then d.fails + 1 else d.fails).val = min 3 (d.fails.val + 1)
    rw [failed hr]
    generalize d.fails = m
    revert m
    decide
  · refine (measured_image _ _ _ _).trans ?_
    rw [if_pos ((verifies_product (x := startedFrom n d) hr).mpr v), if_neg (mt (wantsRecovery_iff (x := startedFrom n d)).mp hr)]
  · exact (measured_image _ _ _ _).trans (if_neg (mt (verifies_product (x := startedFrom n d) hr).mp v))
  · show startAfter k e = .recovery
    rw [recovery hr v]
    rfl
  · show (if e = .failed ∧ d.fails ≠ 3 then d.fails + 1 else d.fails) = 3
    rw [if_neg fun h => h.2 hr.1, hr.1]
  · refine (measured_image _ _ _ _).trans ?_
    rw [if_pos ((verifies_recovery (x := startedFrom n d) hr).mpr v), if_pos ((wantsRecovery_iff (x := startedFrom n d)).mpr hr)]
  · show startAfter k e = .romHold
    rw [hold hr v]
    rfl
  · show (if e = .failed ∧ d.fails ≠ 3 then d.fails + 1 else d.fails) = 3
    rw [if_neg fun h => h.2 hr.1, hr.1]

/-- A start that comes up. -/
theorem good_outcome {n : Fin 2} {d : Die} {cold : Bool} {f : StartFacts} {up : DState} (hg : startGood d cold f) :
    StartOutcome n d (withDue (endedStart (startedFrom n d) (startKindOf (startedFrom n d) cold f) f up)) cold f up := by
  obtain ⟨hr, hv, -⟩ := id hg
  have image : verifies (startedFrom n d) f = true := (verifies_product (x := startedFrom n d) hr).mpr hv
  have product : wantsRecovery (startedFrom n d) = false := Bool.eq_false_iff.mpr (mt wantsRecovery_iff.mp hr)
  have kind : startKindOf (startedFrom n d) cold f = .cold ∧ coldStart d cold f ∨
      startKindOf (startedFrom n d) cold f = .warm ∧ ¬ coldStart d cold f := by
    by_cases hc : coldStart d cold f
    · exact .inl ⟨startKindOf_cold_iff.mpr hc, hc⟩
    · exact .inr ⟨startKindOf_warm (x := startedFrom n d) hc, hc⟩
  have trip := tripAfter_iff n d cold f
  have ends := (startEnd_good_iff (x := startedFrom n d) (cold := cold)).mpr hg
  unfold endedStart
  rw [ends]
  generalize startKindOf (startedFrom n d) cold f = k at kind trip
  refine
    { kept := ⟨rfl, rfl, rfl, rfl, rfl, rfl, rfl⟩
      ports := ?_
      good := fun _ => ⟨rfl, rfl, ?_, ?_, (measured_image _ _ _ _).trans (by rw [if_pos image, product]; rfl), measured_good_ucode _ _ _,
        repairUsed (startedFrom n d) k f, rfl, measured_good_values _ _ _, ?_, ?_⟩
      failed := fun _ h => absurd hg h
      recovery := fun h => absurd h hr
      hold := fun h => absurd h hr
      rom := ⟨measured_rom _ _ _ _, measured_high _ _ _ _⟩
      trip := trip
      replace := (withDue_rr _).trans ?_
      islands := fun j h => ?_ }
  all_goals obtain ⟨rfl, hc⟩ | ⟨rfl, hc⟩ := kind
  · exact ⟨fun _ _ => trainPorts_trained _ f, fun h => absurd ⟨hg, hc⟩ h⟩
  · exact ⟨fun _ h => absurd h hc, fun _ => rfl⟩
  · exact fun _ => rfl
  · exact fun h => absurd h hc
  · exact fun h => absurd hc h
  · exact fun _ => rfl
  · exact fun _ => rfl
  · exact fun h => absurd h hc
  · exact fun h => absurd hc h
  · intro h
    have saved : d.saved ≠ none := fun e => h (.inr (.inl e))
    show d.saved = some (d.saved.getD f.repairDigest)
    cases hs : d.saved with
    | none => exact absurd hs saved
    | some v => rfl
  · exact or_congr_right' fun hno => ⟨fun h => absurd h hno, fun h => absurd ⟨hg, hc⟩ h.2⟩
  · exact or_congr_right ⟨fun h => ⟨h, fun g => hc g.2⟩, fun h => h.1⟩
  all_goals exact (islandsOf_on up j h).imp_right .inr

/-- Every start that becomes ready comes up or does not. -/
theorem endedStart_outcome (n : Fin 2) (d : Die) (cold : Bool) (f : StartFacts) (up : DState) :
    StartOutcome n d (withDue (endedStart (startedFrom n d) (startKindOf (startedFrom n d) cold f) f up)) cold f up := by
  by_cases hg : startGood d cold f
  · exact good_outcome hg
  · exact notGood_outcome hg

/-! ### Starts of dies (R43-R49) -/

/-- A start of a die, from `d`, has come to its end: only that die, the bridge and the messages of the host port change, and a cold start
that comes up trains the bridge. -/
structure DieStarted (n : Fin 2) (d : Die) (cold : Bool) (f : StartFacts) (up : DState) (trains : Bool) (s t : State) : Prop where
  rest : offHealth t = offHealth s
  port : t.host.up = s.host.up
  trained : startGood d cold f → coldStart d cold f → t.bridge.down = !trains
  untrained : ¬ (startGood d cold f ∧ coldStart d cold f) → t.bridge.down = s.bridge.down
  die : StartOutcome n d t.dies[n] cold f up
  other : ∀ e, e ≠ n → t.dies[e] = s.dies[e]

theorem trainedBridge_dies (s : State) (a b c : Bool) : (trainedBridge s a b c).dies = s.dies := by unfold trainedBridge; split <;> rfl

theorem trainedBridge_rest (s : State) (a b c : Bool) :
    offHealth (trainedBridge s a b c) = offHealth s ∧ (trainedBridge s a b c).host = s.host := by
  unfold trainedBridge
  split <;> exact ⟨rfl, rfl⟩

theorem trainedBridge_down (s : State) (a b c : Bool) :
    (trainedBridge s a b c).bridge.down = if a = true ∧ b = true then !c else s.bridge.down := by
  unfold trainedBridge
  cases a <;> cases b <;> rfl

theorem startDie_started {s : State} {n : Fin 2} {d : Die} {cold : Bool} {f : StartFacts} {up : DState} {trains : Bool}
    (hd : s.dies[n] = startedFrom n d) (hf : f.ready = true) :
    DieStarted n d cold f up trains s (startDie s n cold f up trains) := by
  have good : (startEnd s.dies[n] (startKindOf s.dies[n] cold f) f == .good) = true ↔ startGood d cold f := by
    rw [beq_iff_eq, startEnd_good_iff, hd]
    exact Iff.rfl
  have kind : (startKindOf s.dies[n] cold f == .cold) = true ↔ coldStart d cold f := by
    rw [beq_iff_eq, startKindOf_cold_iff, hd]
    exact Iff.rfl
  rw [startDie, if_pos hf, endStart_eq]
  have step := fun (u : State) (g : Die → Die) => setHealth_health u n g
  refine ⟨(step _ _).rest.trans (trainedBridge_rest _ _ _ _).1, (step _ _).up.trans (congrArg HostPort.up (trainedBridge_rest _ _ _ _).2),
    fun g c => ?_, fun h => ?_, ?_, fun e he => ?_⟩
  · rw [(step _ _).down, trainedBridge_down, if_pos ⟨good.mpr g, kind.mpr c⟩]
  · rw [(step _ _).down, trainedBridge_down, if_neg fun k => h ⟨good.mp k.1, kind.mp k.2⟩]
  · rw [setHealth_same, trainedBridge_dies, hd]
    exact endedStart_outcome n d cold f up
  · rw [setHealth_other _ _ _ _ he, trainedBridge_dies]

/-- A start leaves the other die as it is, whether it becomes ready or not. -/
theorem startDie_other (s : State) (n e : Fin 2) (cold : Bool) (f : StartFacts) (up : DState) (trains : Bool) (h : e ≠ n) :
    (startDie s n cold f up trains).dies[e] = s.dies[e] := by
  unfold startDie
  dsimp only
  split
  · rw [endStart_eq, setHealth_other _ _ _ _ h, trainedBridge_dies]
  · rw [setHealth_other _ _ _ _ h]

/-- A start that is not ready waits (R46). -/
theorem startDie_waits {s : State} {n : Fin 2} {cold : Bool} {f : StartFacts} {up : DState} {trains : Bool} (hf : f.ready = false) :
    (startDie s n cold f up trains).dies[n].starting = some (startKindOf s.dies[n] cold f, s.now) ∧
      (startDie s n cold f up trains).dies[n].fails = s.dies[n].fails := by
  rw [startDie, if_neg (by simp [hf]), setHealth_same]
  exact ⟨rfl, rfl⟩

/-- Whether the bridge trains for a start, where that is cold. -/
theorem trainsFor_iff {x : Die} {cold : Bool} {f : StartFacts} :
    (startKindOf x cold f != .cold || f.bridgeTrains) = false ↔ coldStart x cold f ∧ f.bridgeTrains = false := by
  rw [Bool.or_eq_false_iff, bne_eq_false_iff_eq, startKindOf_cold_iff]

theorem startDies_started {s : State} {d0 d1 : Die} {cold : Bool} {f0 f1 : StartFacts} (h0 : s.dies[(0 : Fin 2)] = startedFrom 0 d0)
    (h1 : s.dies[(1 : Fin 2)] = startedFrom 1 d1) (r0 : f0.ready = true) (r1 : f1.ready = true) :
    let t := startDies s cold f0 f1
    offHealth t = offHealth s ∧ t.host.up = s.host.up ∧ StartOutcome 0 d0 t.dies[(0 : Fin 2)] cold f0 .online ∧
      StartOutcome 1 d1 t.dies[(1 : Fin 2)] cold f1 .online ∧ BridgeTrained s t [(d0, cold, f0), (d1, cold, f1)] := by
  intro t
  have trains : ((startKindOf s.dies[(0 : Fin 2)] cold f0 != .cold || f0.bridgeTrains) &&
      (startKindOf s.dies[(1 : Fin 2)] cold f1 != .cold || f1.bridgeTrains)) = false ↔
      (coldStart d0 cold f0 ∧ f0.bridgeTrains = false) ∨ (coldStart d1 cold f1 ∧ f1.bridgeTrains = false) := by
    rw [Bool.and_eq_false_iff, trainsFor_iff, trainsFor_iff, h0, h1]
    exact Iff.rfl
  have e : t = startDie (startDie s 0 cold f0 .online _) 1 cold f1 .online _ := rfl
  generalize ((startKindOf s.dies[(0 : Fin 2)] cold f0 != .cold || f0.bridgeTrains) &&
      (startKindOf s.dies[(1 : Fin 2)] cold f1 != .cold || f1.bridgeTrains)) = b at trains e
  have first : DieStarted 0 d0 cold f0 .online b s (startDie s 0 cold f0 .online b) := startDie_started h0 r0
  have second : DieStarted 1 d1 cold f1 .online b (startDie s 0 cold f0 .online b) t := by
    rw [e]
    exact startDie_started ((first.other 1 (by decide)).trans h1) r1
  refine ⟨second.rest.trans first.rest, second.port.trans first.port, ?_, second.die, ?_, ?_⟩
  · rw [second.other 0 (by decide)]
    exact first.die
  · intro up
    have down : t.bridge.down = !b := by
      by_cases g1 : startGood d1 cold f1 ∧ coldStart d1 cold f1
      · exact second.trained g1.1 g1.2
      · rw [second.untrained g1]
        obtain ⟨x, hx, c, g⟩ := up
        simp only [List.mem_cons, List.not_mem_nil, or_false] at hx
        obtain rfl | rfl := hx
        · exact first.trained g c
        · exact absurd ⟨g, c⟩ g1
    rw [down, Bool.not_eq_true', trains]
    simp
  · intro up
    have none0 : ¬ (startGood d0 cold f0 ∧ coldStart d0 cold f0) := fun h => up ⟨_, .head _, h.2, h.1⟩
    have none1 : ¬ (startGood d1 cold f1 ∧ coldStart d1 cold f1) := fun h => up ⟨_, .tail _ (.head _), h.2, h.1⟩
    rw [second.untrained none1, first.untrained none0]

/-! ### The package when every die stops (R44, R46, R47) -/

theorem stopPackage_emptied (s : State) (mem : Memory) (kept : Fin 2 → Die → Die) : Emptied (stopPackage s mem kept) :=
  ⟨rfl, rfl, rfl, rfl, rfl, rfl, rfl, fun c => congrArg Ctx.st (always_get 64 Ctx.reset c), fun n => congrArg Part.valid (always_get 24 Part.reset n)⟩

theorem stopPackage_dies (s : State) (mem : Memory) (kept : Fin 2 → Die → Die) (n : Fin 2) :
    (stopPackage s mem kept).dies[n] = kept n s.dies[n] := tabulate_get 2 (fun n => kept n s.dies[n]) n

/-- Whether a state holds nothing of a job is not a matter of its dies, the bridge and the host port. -/
theorem emptied_of_offHealth {s t : State} (h : Emptied s) (e : offHealth t = offHealth s) : Emptied t := by
  have g : Emptied (offHealth s) := h
  rw [← e] at g
  exact g

theorem packageStarts : Claims.PackageStarts := by
  intro s f0 f1 from0 from1
  refine ⟨fun r0 r1 => ⟨?_, fun cold up => ?_⟩, fun cold down => ?_, fun r0 => ?_⟩
  · let u : State := { stopPackage s [] startedFrom with host := { up := true, held := [], owed := [], bar2 := 0 }, images := [] }
    obtain ⟨rest, port, die0, die1, bridge⟩ := startDies_started (s := u) (d0 := from0) (d1 := from1) (cold := true)
      (stopPackage_dies s [] startedFrom 0) (stopPackage_dies s [] startedFrom 1) r0 r1
    exact ⟨_, rfl, emptied_of_offHealth (s := u) (stopPackage_emptied s [] startedFrom) rest,
      field_of_off rest State.mem fun _ => rfl, field_of_off rest State.bad fun _ => rfl, port,
      die0, die1, bridge⟩
  · let u := stopPackage s s.mem startedFrom
    let v := tellHealth (tellHealth u 0 s.dies[(0 : Fin 2)]) 1 s.dies[(1 : Fin 2)]
    have told : HealthStep u v := (tellHealth_health _ _ _).trans (tellHealth_health _ _ _)
    have dies : v.dies = u.dies := by simp only [v, tellHealth_dies]
    obtain ⟨rest, -, die0, die1, bridge⟩ := startDies_started (s := v) (d0 := from0) (d1 := from1) (cold := cold)
      (by rw [dies]; exact stopPackage_dies s s.mem startedFrom 0) (by rw [dies]; exact stopPackage_dies s s.mem startedFrom 1) r0 r1
    refine ⟨_, if_pos up, emptied_of_offHealth (stopPackage_emptied s s.mem startedFrom) (rest.trans told.rest),
      field_of_off (rest.trans told.rest) State.mem fun _ => rfl, die0, die1, bridge.1, fun h => (bridge.2 h).trans told.down⟩
  · exact if_neg (by simp [down])
  · let u : State := { stopPackage s [] startedFrom with host := { up := true, held := [], owed := [], bar2 := 0 }, images := [] }
    have die : u.dies[(0 : Fin 2)] = startedFrom 0 s.dies[(0 : Fin 2)] := stopPackage_dies s [] startedFrom 0
    refine ⟨_, rfl, ?_⟩
    unfold startDies
    dsimp only
    rw [startDie_other _ _ _ _ _ _ _ (by decide)]
    obtain ⟨starting, fails⟩ := startDie_waits (s := u) (n := 0) (cold := true) (up := .online) (trains := _) r0
    exact ⟨starting, fails.trans (by rw [die]; rfl)⟩

theorem startTimeouts : Claims.StartTimeouts := by
  intro s d k n h
  have e : exec (.startTimeout d) s = .next (setHealth s d fun x => failStart x k) := by
    show (match s.dies[d].starting with | none => _ | some (k, _) => _) = _
    rw [h]
  refine ⟨_, e, (setHealth_health _ _ _).sameWork, ?_⟩
  rw [setHealth_same]
  refine ⟨rfl, rfl, ?_⟩
  show (if s.dies[d].fails = 3 then 3 else s.dies[d].fails + 1).val = min 3 (s.dies[d].fails.val + 1)
  generalize s.dies[d].fails = m
  revert m
  decide

/-! ### Measurements (R44, R45) -/

theorem measurements : Claims.Measurements := by
  intro s up m numbered gone
  have gone_iff : (s.dies[(1 : Fin 2)].dstate == .dieOffline && s.dies[(1 : Fin 2)].starting.isNone) = true ↔ gone := by
    rw [Bool.and_eq_true, beq_iff_eq, Option.isNone_iff_eq_none]
  have run : exec .spdmRequest s = execSpdmRequest s := rfl
  rw [run, execSpdmRequest, if_pos up]
  refine ⟨fun h => ?_, fun h => ?_⟩
  · rw [if_pos (gone_iff.mpr h), List.append_nil]
    rfl
  · rw [if_neg (mt gone_iff.mp h)]
    rfl

/-! ### Power and temperature (R18, R22, R23) -/

theorem throttleDue_iff (a : PowerAvg) (d : Fin 2) : throttleDue a d = true ↔
    (1250000 < (if d = 0 then a.die0 else a.die1) ∨ 1000000 < a.hbm ∨ 500000 < a.rest ∨ 4000000 < a.die0 + a.die1 + a.hbm + a.rest) ∨
      (if d = 0 then a.hot0 else a.hot1) = true := by
  simp only [throttleDue, overBudget, Bool.or_eq_true, decide_eq_true_eq, or_assoc]

/-- A bit that is set in a vector, beside those that were. -/
theorem setBit_iff {w : Nat} (x : BitVec w) (k j : Nat) (hj : j < w) :
    (x ||| BitVec.ofNat w (2 ^ k)).getLsbD j = true ↔ x.getLsbD j = true ∨ j = k := by
  rw [BitVec.getLsbD_or, BitVec.getLsbD_ofNat, Nat.testBit_two_pow]
  simp [hj, @eq_comm _ j]

/-- A bit that is set in one of some vectors. -/
theorem setAt_iff {w n : Nat} (v : Vector (BitVec w) n) (i q : Fin n) {k j : Nat} (hj : j < w) :
    (v.set i.val (v[i] ||| BitVec.ofNat w (2 ^ k)) i.isLt)[q].getLsbD j = true ↔ v[q].getLsbD j = true ∨ (q = i ∧ j = k) := by
  by_cases h : q = i
  · subst h
    have e : (v.set q.val (v[q] ||| BitVec.ofNat w (2 ^ k)) q.isLt)[q] = v[q] ||| BitVec.ofNat w (2 ^ k) := by simp
    rw [e, setBit_iff _ _ _ hj]
    simp
  · have e : (v.set i.val (v[i] ||| BitVec.ofNat w (2 ^ k)) i.isLt)[q] = v[q] := by simp [Fin.val_inj, Ne.symm h]
    rw [e]
    simp [h]

/-- Clocks that are lowered. -/
theorem lowered_clocksSet (clk : List (BitVec 8)) (d : Die) : ClocksSet d (withDue (setClocks true clk d)) True :=
  eq_self true ▸ setClocks_clocksSet true clk d

theorem otherDie_ne (d : Fin 2) : otherDie d ≠ d := by revert d; decide

theorem power : Claims.Power := by
  refine ⟨fun s avg clk0 clk1 => ?_, fun s d stack clk => ⟨fun i hi => ?_, ?_, ?_⟩⟩
  · refine ⟨_, rfl, ((setHealth_health _ _ _).trans (setHealth_health _ _ _)).sameWork, ?_, ?_⟩
    · rw [setHealth_other _ _ _ _ (by decide), setHealth_same]
      have h := setClocks_clocksSet (throttleDue avg 0) clk0 s.dies[(0 : Fin 2)]
      rwa [throttleDue_iff] at h
    · rw [setHealth_same, setHealth_other _ _ _ _ (by decide)]
      have h := setClocks_clocksSet (throttleDue avg 1) clk1 s.dies[(1 : Fin 2)]
      rwa [throttleDue_iff] at h
  · have e : exec i s = .next (setHealth s d (setClocks true clk)) := by
      simp only [List.mem_cons, List.not_mem_nil, or_false] at hi
      obtain rfl | rfl := hi <;> rfl
    refine ⟨_, e, (setHealth_health _ _ _).sameWork, ?_, ?_, setHealth_other _ _ _ _ (otherDie_ne d)⟩
    · rw [setHealth_same]
      exact lowered_clocksSet clk _
    · rw [setHealth_same]
      rfl
  · refine ⟨_, rfl, (modDie_health _ _ _).sameWork, ?_, modDie_other _ _ _ _ (otherDie_ne d), fun j hj => ?_⟩
    · rw [modDie_same]
    · rw [modDie_same]
      exact setBit_iff _ _ _ hj
  · refine ⟨_, rfl, ((modDie_health _ _ _).trans (setHealth_health _ _ _)).sameWork, ?_, ?_, fun j hj => ?_⟩
    · rw [setHealth_same, modDie_same]
      exact lowered_clocksSet clk { s.dies[d] with refresh2x := s.dies[d].refresh2x ||| BitVec.ofNat 12 (2 ^ stack.val) }
    · rw [setHealth_other _ _ _ _ (otherDie_ne d), modDie_other _ _ _ _ (otherDie_ne d)]
    · rw [setHealth_same, modDie_same]
      exact setBit_iff _ _ _ hj

/-- A die that a thermal trip turns off (R23). -/
def trippedDie (d : Die) : Die := { d with dstate := .dieOffline, islands := islandsOf .dieOffline, trip := true, rr := true }

/-- The package after a thermal trip, but for the host link. -/
def tripped (s : State) : State :=
  setHealth (setHealth (stopPackage s [] fun _ d => { keptBy d with meas := d.meas }) 0 trippedDie) 1 trippedDie

theorem tripped_emptied (s : State) : Emptied (tripped s) :=
  emptied_of_offHealth (stopPackage_emptied s [] _) ((setHealth_health _ _ _).trans (setHealth_health _ _ _)).rest

theorem tripped_die (s : State) (d : Fin 2) : (tripped s).dies[d] = withDue (trippedDie { keptBy s.dies[d] with meas := s.dies[d].meas }) := by
  have e := stopPackage_dies s [] (fun _ d => { keptBy d with meas := d.meas }) d
  unfold tripped
  match d with
  | 0 => rw [setHealth_other _ _ _ _ (by decide), setHealth_same, e]
  | 1 => rw [setHealth_same, setHealth_other _ _ _ _ (by decide), e]

/-- The host link goes down. -/
def linkLost (s : State) : State :=
  { s with host := { s.host with up := false, held := [], owed := [] }, hostOut := s.hostOut ++ [.linkDown] }

theorem linkLost_dies (s : State) : (linkLost s).dies = s.dies := rfl

theorem linkLost_told (s : State) : (linkLost s).host.up = false ∧ .linkDown ∈ (linkLost s).hostOut :=
  ⟨rfl, List.mem_append_right _ (.head _)⟩

theorem linkLost_emptied {s : State} (h : Emptied s) : Emptied (linkLost s) := h

theorem exec_thermalTrip (s : State) : exec .thermalTrip s = .next (linkLost (tripped s)) := rfl

theorem thermalTrips : Claims.ThermalTrips := by
  intro s
  refine ⟨_, exec_thermalTrip s, linkLost_emptied (tripped_emptied s), (linkLost_told _).1, (linkLost_told _).2, fun d => ?_⟩
  rw [linkLost_dies, tripped_die]
  exact ⟨rfl, rfl, rfl, rfl, fun k => tabulate_get 16 _ k⟩

end Sys2Proof.Proofs

/-! SUPPORT. Errors and retirement (R50-R53): what a count, a retirement and data in error change, and how a consumer's context ends. -/

namespace Sys2Proof.Proofs

open Sys2Proof Sys2Proof.Machine Sys2Proof.Claims Sys2Proof.Laws

/-! ### Counts of errors (R50) -/

theorem countUp_toNat (x : Word) : (countUp x).toNat = min (2 ^ 64 - 1) (x.toNat + 1) := by
  have lt := x.isLt
  unfold countUp
  split
  · rename_i h
    simp [h]
  · rename_i h
    have ne : x.toNat ≠ 2 ^ 64 - 1 := fun e => h (BitVec.eq_of_toNat_eq (by rw [e, BitVec.toNat_allOnes]))
    rw [BitVec.toNat_add, show (1 : Word).toNat = 1 from rfl]
    omega

theorem countUp_ne {x : Word} (h : x ≠ BitVec.allOnes 64) : countUp x ≠ x := by
  rw [countUp, if_neg h]
  intro e
  have lt := x.isLt
  have := congrArg BitVec.toNat e
  rw [BitVec.toNat_add, show (1 : Word).toNat = 1 from rfl] at this
  omega

/-- The count of corrected errors is a word of the health status. -/
theorem healthOf_corr (d : Die) : (healthOf d)[9]? = some d.corr := rfl

/-! ### Retirement (R53) -/

/-- A retirement counts from a state in which the same resources are retired and the same contexts hold cores. -/
theorem retired_of_none {s u t : State} {d : Fin 2} {r : ErrRes} (h : Retired u t d r) (e : NoneRetired s u d) (hc : u.ctxs = s.ctxs)
    (hp : u.parts = s.parts) : Retired s t d r := by
  obtain ⟨cores, pend, ways, pcs⟩ := e
  have holds : ctxHolds u = ctxHolds s := funext₂ fun k c => by simp only [ctxHolds, partOfCtx, hc, hp]
  unfold Retired at h ⊢
  rw [holds, cores, pend, ways, pcs] at h
  exact h

/-- A health status that changes its counts only. -/
theorem setHealth_none {s : State} {d : Fin 2} {f : Die → Die}
    (h : ∀ x, (f x).retCores = x.retCores ∧ (f x).pendCores = x.pendCores ∧ (f x).retWays = x.retWays ∧ (f x).retPcs = x.retPcs) :
    NoneRetired s (setHealth s d f) d := by
  unfold NoneRetired
  rw [setHealth_same]
  exact h _

/-- What a retirement changes: the health status of the die, and what the slices hold. -/
theorem retireRes_cases (s : State) (d : Fin 2) (r : ErrRes) :
    HealthStep s (retireRes s d r) ∧ (retireRes s d r).dies[d].corr = s.dies[d].corr ∧ (retireRes s d r).dies[d].uncorr = s.dies[d].uncorr ∧
      Retired s (retireRes s d r) d r := by
  cases r with
  | core c =>
    have any : ((List.finRange 64).any fun k => ctxHolds s (coreAt d c.val) k) = true ↔ ∃ k, ctxHolds s (coreAt d c.val) k = true := by simp
    unfold retireRes Retired
    dsimp only
    by_cases h : ∃ k, ctxHolds s (coreAt d c.val) k = true
    · rw [if_pos (any.mpr h), if_pos h, modDie_same]
      exact ⟨modDie_health _ _ _, rfl, rfl, rfl, fun j hj => setBit_iff _ _ _ hj⟩
    · rw [if_neg (mt any.mp h), if_neg h, setHealth_same]
      exact ⟨setHealth_health _ _ _, rfl, rfl, fun j hj => setBit_iff _ _ _ hj⟩
  | l2way slice way =>
    have trim := pastStall_slices (f := fun u => l2Trim u d slice u.dies[d].l2.length) (fun u => l2Trim_slices _ _ _ _)
      (setHealth s d fun x => { x with retWays := x.retWays.set slice.val (x.retWays[slice] ||| BitVec.ofNat 24 (2 ^ way.val)) slice.isLt })
    have die := trim.die d
    rw [setHealth_same] at die
    refine ⟨(setHealth_health _ _ _).trans trim.health, die.field Die.corr fun _ => rfl, die.uncorr, die.field Die.retCores fun _ => rfl,
      fun q j hj => ?_⟩
    rw [show (retireRes s d (.l2way slice way)).dies[d].retWays = _ from die.field Die.retWays fun _ => rfl]
    exact setAt_iff _ _ _ hj
  | channel stack pc =>
    unfold retireRes Retired
    rw [setHealth_same]
    exact ⟨setHealth_health _ _ _, rfl, rfl, rfl, fun q j hj => setAt_iff _ _ _ hj⟩

/-! ### Corrected errors (R51, R53) -/

theorem correctedErrors (s : State) (d : Fin 2) (loc : ErrLoc) (hour : Nat) :
    let n := (s.dies[d].errLog.filter fun e => e.1 == loc && decide (hour < e.2 + 24)).length
    let t := correctOne s d loc hour
    sameWork s t ∧ t.dies[d].corr.toNat = min (2 ^ 64 - 1) (s.dies[d].corr.toNat + 1) ∧ t.dies[d].uncorr = s.dies[d].uncorr ∧
      (s.dies[d].corr ≠ BitVec.allOnes 64 → Hears s d → Tells t (.msix 0 63)) ∧
      (2 ≤ n → Retired s t d loc.res) ∧ (n < 2 → NoneRetired s t d) := by
  intro n t
  let log := (s.dies[d].errLog.filter fun e => decide (hour < e.2 + 24)) ++ [(loc, hour)]
  let u := setHealth (modDie s d fun x => { x with errLog := log }) d fun x => { x with corr := countUp x.corr }
  have seen : (log.filter fun e => e.1 == loc).length = n + 1 := by
    simp only [log, n, List.filter_append, List.filter_filter, List.length_append]
    simp
  have run : t = if 3 ≤ n + 1 then retireRes u d loc.res else u := by rw [← seen]; rfl
  have step : HealthStep s u := (modDie_health _ _ _).trans (setHealth_health _ _ _)
  have die : u.dies[d] = withDue { s.dies[d] with errLog := log, corr := countUp s.dies[d].corr } := by
    simp only [u]
    rw [setHealth_same, modDie_same]
  have corr : u.dies[d].corr = countUp s.dies[d].corr := by rw [die]; rfl
  have uncorr : u.dies[d].uncorr = s.dies[d].uncorr := by rw [die]; rfl
  have none : NoneRetired s u d := by unfold NoneRetired; rw [die]; exact ⟨rfl, rfl, rfl, rfl⟩
  have tells : s.dies[d].corr ≠ BitVec.allOnes 64 → Hears s d → Tells u (.msix 0 63) := fun hc hh => by
    refine setHealth_tells (s := modDie s d fun x => { x with errLog := log }) hh fun e => countUp_ne hc ?_
    have e9 := congrArg (fun ws => ws[9]?) e
    simp only [healthOf_corr, modDie_same] at e9
    exact (Option.some.inj e9).symm
  by_cases hn : 2 ≤ n
  · obtain ⟨step', corr', uncorr', ret⟩ := retireRes_cases u d loc.res
    rw [run, if_pos (by omega)]
    exact ⟨(step.trans step').sameWork, by rw [corr', corr, countUp_toNat], uncorr'.trans uncorr, fun hc hh => step'.told _ (tells hc hh),
      fun _ => retired_of_none ret none step.ctxs (step.field State.parts fun _ => rfl), fun h => absurd h (by omega)⟩
  · rw [run, if_neg (by omega)]
    exact ⟨step.sameWork, by rw [corr, countUp_toNat], uncorr, tells, fun h => absurd h hn, fun _ => none⟩

/-! ### Uncorrectable errors without a consumer (R52, R53) -/

/-- All of a state but its dies, the bridge, the messages of the host port, its cores and the sectors in error. -/
def offErrors (s : State) : State := { offHealth s with cores := State.reset.cores, bad := [] }

theorem markBad_rest (s : State) (d : Fin 2) (loc : ErrLoc) :
    offErrors (markBad s d loc) = offErrors s ∧ (markBad s d loc).dies = s.dies := by
  unfold markBad
  split <;> exact ⟨rfl, rfl⟩

theorem markBad_cores {s : State} {d : Fin 2} {loc : ErrLoc} (h : ∀ c, loc.res ≠ .core c) : (markBad s d loc).cores = s.cores := by
  unfold markBad
  split
  · exact absurd ‹_› (h _)
  all_goals rfl

theorem markBad_bad {s : State} {d : Fin 2} {loc : ErrLoc} (h : (∃ sl way, loc.res = .l2way sl way) ∨ ∃ k pc, loc.res = .channel k pc) :
    loc.place ∈ (markBad s d loc).bad := by
  have mem : loc.place ∈ (harmSector s loc.place).bad := by
    unfold harmSector
    dsimp only
    split
    · rename_i h
      simpa using h
    · exact .head _
  obtain ⟨sl, way, e⟩ | ⟨k, pc, e⟩ := h <;> (unfold markBad; rw [e]; exact mem)

/-- A sector that a line of L1 holds is in error, and the line stays (R52). -/
theorem poisonLine_line {s : State} {k : Fin 384} {sector : Nat} {l : L1Line} (hl : l ∈ s.cores[k].l1) (e : l.line = sector / 4)
    (hv : l.valid.getLsbD (sector % 4) = true) :
    ∃ m ∈ (poisonLine s k sector).cores[k].l1, m.poison.getLsbD (sector % 4) = true ∧
      (m.line, m.data, m.dirty, m.valid) = (l.line, l.data, l.dirty, l.valid) := by
  unfold poisonLine
  rw [modCore_same]
  refine ⟨_, List.mem_map.mpr ⟨l, hl, rfl⟩, ?_⟩
  rw [if_pos (by simp [e, hv])]
  exact ⟨(setBit_iff _ _ _ (Nat.mod_lt _ (by decide))).mpr (.inr rfl), rfl⟩

theorem countError_some (s : State) (d : Fin 2) : countError s (some d) = setHealth s d fun x => { x with uncorr := countUp x.uncorr } := rfl

theorem countError_health (s : State) (d : Fin 2) : HealthStep s (countError s (some d)) := by
  rw [countError_some]
  exact setHealth_health _ _ _

/-- What an uncorrectable error leaves of the state it finds. -/
theorem uncorrectOne_step (s : State) (d : Fin 2) (loc : ErrLoc) :
    HealthStep (markBad (countError s (some d)) d loc) (uncorrectOne s d loc) ∧ offErrors (uncorrectOne s d loc) = offErrors s := by
  have step := (retireRes_cases (markBad (countError s (some d)) d loc) d loc.res).1
  have count := countError_health s d
  exact ⟨step, (congrArg (fun z : State => { z with cores := State.reset.cores, bad := [] }) step.rest).trans
    ((markBad_rest _ d loc).1.trans (congrArg (fun z : State => { z with cores := State.reset.cores, bad := [] }) count.rest))⟩

theorem uncorrectOne_uncorr (s : State) (d : Fin 2) (loc : ErrLoc) :
    (uncorrectOne s d loc).dies[d].uncorr.toNat = min (2 ^ 64 - 1) (s.dies[d].uncorr.toNat + 1) := by
  have e : (uncorrectOne s d loc).dies[d].uncorr = _ := (retireRes_cases (markBad (countError s (some d)) d loc) d loc.res).2.2.1
  rw [e, (markBad_rest _ d loc).2, countError_some, setHealth_same]
  exact countUp_toNat _

theorem uncorrectOne_retired (s : State) (d : Fin 2) (loc : ErrLoc) : Retired s (uncorrectOne s d loc) d loc.res := by
  have count := countError_health s d
  have mark := markBad_rest (countError s (some d)) d loc
  refine retired_of_none (retireRes_cases (markBad (countError s (some d)) d loc) d loc.res).2.2.2 ?_
    ((field_of_off mark.1 State.ctxs fun _ => rfl).trans count.ctxs)
    ((field_of_off mark.1 State.parts fun _ => rfl).trans (count.field State.parts fun _ => rfl))
  unfold NoneRetired
  rw [mark.2, countError_some]
  exact setHealth_none fun x => ⟨rfl, rfl, rfl, rfl⟩

theorem unconsumedErrors (s : State) (d : Fin 2) (loc : ErrLoc) :
    ∃ t, exec (.uncorrectableError d loc .nobody) s = .next t ∧ sameWork { s with cores := t.cores } t ∧
      ((∀ c, loc.res ≠ .core c) → t.cores = s.cores) ∧
      (∀ c, loc.res = .core c → let k := coreAt d c.val
        (∀ j, j ≠ k → t.cores[j] = s.cores[j]) ∧ ∀ l ∈ s.cores[k].l1, l.line = loc.place / 4 → l.valid.getLsbD (loc.place % 4) = true →
          ∃ m ∈ t.cores[k].l1, m.poison.getLsbD (loc.place % 4) = true ∧
            (m.line, m.data, m.dirty, m.valid) = (l.line, l.data, l.dirty, l.valid)) ∧
      t.dies[d].uncorr.toNat = min (2 ^ 64 - 1) (s.dies[d].uncorr.toNat + 1) ∧ Retired s t d loc.res ∧
      ((∃ sl way, loc.res = .l2way sl way) ∨ (∃ k pc, loc.res = .channel k pc) → loc.place ∈ t.bad) := by
  obtain ⟨step, rest⟩ := uncorrectOne_step s d loc
  have count := countError_health s d
  refine ⟨uncorrectOne s d loc, rfl, ?_, fun h => ?_, fun c h => ⟨fun j hj => ?_, fun l hl e hv => ?_⟩, uncorrectOne_uncorr s d loc,
    uncorrectOne_retired s d loc, fun h => ?_⟩
  · exact ⟨field_of_off rest State.warps fun _ => rfl, field_of_off rest State.units fun _ => rfl, field_of_off rest State.mem fun _ => rfl,
      field_of_off rest State.ctxs fun _ => rfl, rfl, field_of_off rest State.copies fun _ => rfl, field_of_off rest State.mops fun _ => rfl,
      field_of_off rest State.results fun _ => rfl⟩
  · rw [step.cores, markBad_cores h, count.cores]
  · rw [step.cores, ← count.cores, markBad, h]
    exact modCore_other _ _ _ _ hj
  · rw [step.cores, markBad, h]
    exact poisonLine_line (by rwa [count.cores]) e hv
  · rw [step.bad]
    exact markBad_bad h

/-! ### The end of a consumer's context (R52, R245, R250) -/

/-- From `s` to `t` no die's count of uncorrectable errors changes. -/
def SameUncorr (s t : State) : Prop := ∀ d : Fin 2, t.dies[d].uncorr = s.dies[d].uncorr

theorem SameUncorr.trans {s t u : State} (h : SameUncorr s t) (g : SameUncorr t u) : SameUncorr s u := fun d => (g d).trans (h d)

theorem SameUncorr.of_dies {s t : State} (h : t.dies = s.dies) : SameUncorr s t := fun d => by rw [h]

theorem modDie_uncorr {s : State} {d : Fin 2} {f : Die → Die} (h : ∀ x, (f x).uncorr = x.uncorr) : SameUncorr s (modDie s d f) := fun e => by
  by_cases he : e = d
  · subst he; rw [modDie_same]; exact h _
  · rw [modDie_other _ _ _ _ he]

theorem setHealth_uncorr {s : State} {d : Fin 2} {f : Die → Die} (h : ∀ x, (f x).uncorr = x.uncorr) : SameUncorr s (setHealth s d f) := fun e => by
  by_cases he : e = d
  · subst he; rw [setHealth_same]; exact h _
  · rw [setHealth_other _ _ _ _ he]

theorem Used.sameUncorr {off : State → State} {s t : State} (h : Used off s t) : SameUncorr s t := fun d => (h.die d).uncorr

/-- A step of the host port and of health that keeps the counts. -/
abbrev QuietStep (s t : State) : Prop := HealthStep s t ∧ SameUncorr s t

theorem QuietStep.trans {s t u : State} (h : QuietStep s t) (g : QuietStep t u) : QuietStep s u := ⟨h.1.trans g.1, h.2.trans g.2⟩

theorem toHostFor_quiet (s : State) (x : HeldMsg) : QuietStep s (toHostFor s x) := ⟨(toHostFor_sends s x).1, .of_dies (toHostFor_dies s x)⟩

theorem toHostFrom_quiet (s : State) (d : Fin 2) (m : HostMsg) : QuietStep s (toHostFrom s d m) := toHostFor_quiet s _

theorem sendWord_quiet (s : State) (fn : Nat) (x : HeldMsg) : QuietStep s (sendWord s fn x) := by
  unfold sendWord
  split
  · refine ⟨⟨rfl, rfl, rfl, fun m h => h.imp_right fun ⟨y, hy, e⟩ => ⟨y, ?_, e⟩⟩, .of_dies rfl⟩
    exact List.mem_append.mpr ((List.mem_append.mp hy).imp_right (List.mem_append_left _))
  · exact toHostFor_quiet _ _

theorem retirePending_quiet (s : State) : QuietStep s (retirePending s) := by
  unfold retirePending
  generalize List.finRange 2 = ds
  induction ds generalizing s with
  | nil => exact ⟨.refl s, fun _ => rfl⟩
  | cons d r ih =>
    refine QuietStep.trans ?_ (ih _)
    dsimp only
    split
    · exact ⟨.refl s, fun _ => rfl⟩
    · split
      · exact ⟨.refl s, fun _ => rfl⟩
      · exact ⟨setHealth_health _ _ _, setHealth_uncorr fun _ => rfl⟩

/-- A context that a fault ends: it and its warps are gone (R60, R245). -/
theorem endContext_ended {s : State} {c : Fin 64} {cause : Nat} (h : s.ctxs[c].st = .running) :
    (endContext s c cause).ctxs[c].st = .ended ∧ (∀ w ∈ (endContext s c cause).warps, w.ctx ≠ c) ∧ SameUncorr s (endContext s c cause) := by
  let u := modCtx (dropAll s c) c fun y => { y with
    st := .ended, held := none, jobWait := false, resvUnit := none, resvCore := [], await := [], jobEnd := y.jobEnd.filter (· == 3)
    handles := y.handles.map fun e => { e with st := .free } }
  have ended : u.ctxs[c].st = .ended := congrArg Ctx.st (modCtx_same _ c _)
  have gone : ∀ w ∈ u.warps, w.ctx ≠ c := fun w hw => by
    have := (List.mem_filter.mp (show w ∈ s.warps.filter fun w => !(w.ctx == c) from hw)).2
    simpa using this
  let forget := fun (x : Die) => { x with engFails := x.engFails.filter fun f => f.2.ctx != c }
  have dies : SameUncorr s u := (modDie_uncorr (s := s) (d := 0) (f := forget) fun _ => rfl).trans
    (modDie_uncorr (d := 1) (f := forget) fun _ => rfl)
  have run : endContext s c cause = retirePending (complete u c 2 cause) := by
    unfold endContext
    dsimp only
    rw [if_pos (by rw [h]; rfl), if_neg (by rw [h]; decide)]
  have quiet : QuietStep u (endContext s c cause) := by
    rw [run]
    exact (sendWord_quiet _ _ _).trans (retirePending_quiet _)
  exact ⟨by rw [quiet.1.ctxs]; exact ended, by rw [quiet.1.warps]; exact gone, dies.trans quiet.2⟩

theorem writeRecord_home (s : State) (d : Fin 2) (slot : Nat) (ws : List Word) : HomeUsed s (writeRecord s d slot ws) :=
  .trans (.fold (fun _ _ => homeWrite_home _ _ _ _ _ _) _ _) (homeWrite_home _ _ _ _ _ _)

/-- With a slot free a fault gets its record, which touches no context (R137, R249). -/
theorem placeRecord_free {s : State} {d : Fin 2} (q : WaitFault) (h : SlotFree s d) :
    ∃ t, placeRecord s d q = some t ∧ t.ctxs = s.ctxs ∧ SameUncorr s t := by
  obtain ⟨slot, hs⟩ := Option.isSome_iff_exists.mp h
  have home := writeRecord_home s d slot q.words
  let u := modDie (writeRecord s d slot q.words) d fun x => { x with
    slots := { slot := slot, ctx := q.ctx, cause := q.cause, va := q.va, route := q.route, words := q.words
               splits := [q.split], handle := q.handle, elem := q.elem } :: x.slots }
  have ctxs : u.ctxs = s.ctxs := home.field State.ctxs fun _ => rfl
  have dies : SameUncorr s u := home.sameUncorr.trans (modDie_uncorr fun _ => rfl)
  obtain ⟨t, ht, hc, hd⟩ : ∃ t, (if q.route = 1 then toHostFrom u d (.msix 0 61) else u) = t ∧ t.ctxs = s.ctxs ∧ SameUncorr s t := by
    refine ⟨_, rfl, ?_⟩
    split
    · exact ⟨(toHostFrom_quiet u d _).1.ctxs.trans ctxs, dies.trans (toHostFrom_quiet u d _).2⟩
    · exact ⟨ctxs, dies⟩
  unfold placeRecord
  rw [hs]
  dsimp only
  rw [ht]
  split
  · exact ⟨_, rfl, hc, hd⟩
  · exact ⟨_, rfl, hc, hd⟩

/-- A fault that ends its context does so at once where its die has a slot free (R245, R249, R250). -/
theorem recordFault_ends {s : State} {d : Fin 2} {q : WaitFault} (he : q.ends = true) (hf : SlotFree s d) (hr : s.ctxs[q.ctx].st = .running) :
    (recordFault s d q).ctxs[q.ctx].st = .ended ∧ (∀ w ∈ (recordFault s d q).warps, w.ctx ≠ q.ctx) ∧ SameUncorr s (recordFault s d q) := by
  obtain ⟨t, ht, hc, hd⟩ := placeRecord_free q hf
  have run : recordFault s d q = endContext t q.ctx q.cause := by
    rw [recordFault, settleFault, if_pos he, ht]
    rfl
  obtain ⟨ended, gone, quiet⟩ := endContext_ended (s := t) (c := q.ctx) (cause := q.cause) (by rw [hc]; exact hr)
  rw [run]
  exact ⟨ended, gone, hd.trans quiet⟩

/-- A warp takes a terminal cause in a context that runs (R243, R245). -/
theorem takeFault_terminal {s : State} {w : Warp} {sp : Fin 8} {pc next : Word} {act : Mask} {f : FaultInfo} (ht : f.cause = 0x14) (he : f.ecc = none)
    (hr : s.ctxs[w.ctx].st = .running) (hf : SlotFree s (coreDie w.core)) :
    let t := takeFault s w sp pc next act f
    t.ctxs[w.ctx].st = .ended ∧ (∀ y ∈ t.warps, y.ctx ≠ w.ctx) ∧ SameUncorr s t := by
  have route : routeOf s w f.cause = 1 := by simp [routeOf, terminal, ht]
  have ends : (1 != 0 && (!resumable f.cause || w.handler.isSome || isService w)) = true := by rw [ht]; rfl
  let q : WaitFault :=
    { ctx := w.ctx, cause := f.cause, va := f.va, route := 1, split := (w.id, sp), handle := f.handle, elem := f.elem, ends := true
      words := recordWords s w (match w.splits[sp] with | some x => x.mask | none => 0) act pc f 1 }
  let u := suspend s w.id sp (if f.cause = 0x16 then next else pc)
  have run : takeFault s w sp pc next act f = recordFault u (coreDie w.core) q := by
    unfold takeFault
    dsimp only
    rw [he, route, show countError s none = s from rfl, ends, if_neg (by rw [hr]; decide), if_neg (by decide)] <;> rfl
  intro t
  have e := recordFault_ends (s := u) (q := q) rfl hf hr
  rw [← run] at e
  exact e

/-- A copy takes a terminal cause in a context that runs (R155, R245). -/
theorem failCopy_terminal {s : State} {o : CopyOp} {f : FaultInfo} (ht : f.cause = 0x14) (he : f.ecc = none)
    (hr : s.ctxs[o.ctx].st = .running) (hf : SlotFree s (engDie o)) :
    let t := failCopy s o f
    t.ctxs[o.ctx].st = .ended ∧ (∀ y ∈ t.warps, y.ctx ≠ o.ctx) ∧ SameUncorr s t := by
  let u := dropCopy (forgetEngFails s (engDie o) o.id) o.id
  have slots : SlotFree u (engDie o) := by
    show (freeSlot (forgetEngFails s (engDie o) o.id).dies[engDie o].slots Config.faultSlots 0).isSome = true
    rw [forgetEngFails, modDie_same]
    exact hf
  have dies : SameUncorr s (forgetEngFails s (engDie o) o.id) := by
    unfold forgetEngFails
    exact modDie_uncorr fun _ => rfl
  have run : failCopy s o f = agentFault u (engDie o) o.ctx 0x14 f.va o.handle o.i := by
    rw [failCopy, he, if_pos ht]
    rfl
  intro t
  obtain ⟨ended, gone, quiet⟩ := recordFault_ends (s := u) (d := engDie o) (q :=
    { ctx := o.ctx, cause := 0x14, va := f.va, route := 1, words := _, split := (u.serial, 0), handle := o.handle, elem := o.i, ends := true })
    rfl slots hr
  rw [show t = _ from run]
  exact ⟨ended, gone, SameUncorr.trans (t := u) dies quiet⟩

/-- The count and the retirement of an error leave the end of its consumer's context as it is. -/
theorem consumed_ends {s u : State} {d : Fin 2} {loc : ErrLoc} {c : Fin 64} (h : u.ctxs[c].st = .ended) (hw : ∀ y ∈ u.warps, y.ctx ≠ c)
    (hs : SameUncorr s u) :
    (uncorrectOne u d loc).ctxs[c].st = .ended ∧ (∀ y ∈ (uncorrectOne u d loc).warps, y.ctx ≠ c) ∧
      (uncorrectOne u d loc).dies[d].uncorr.toNat = min (2 ^ 64 - 1) (s.dies[d].uncorr.toNat + 1) := by
  have rest := (uncorrectOne_step u d loc).2
  refine ⟨?_, ?_, ?_⟩
  · rw [field_of_off rest State.ctxs fun _ => rfl]
    exact h
  · rw [field_of_off rest State.warps fun _ => rfl]
    exact hw
  · rw [uncorrectOne_uncorr, hs d]

theorem errors : Claims.Errors := by
  refine ⟨fun s d loc hour => ⟨_, rfl, correctedErrors s d loc hour⟩, unconsumedErrors, fun s d loc w sp x lane va hw hx hr hf => ?_,
    fun s d loc o va ho hr hf => ?_, fun s d loc fixed bad hour => ⟨rfl, fun t h => ?_, fun t h => ?_⟩⟩
  · let f : FaultInfo := { faultOf 0x14 with va := va, lanes := BitVec.ofNat 32 (2 ^ lane.val) }
    have run : exec (.uncorrectableError d loc (.warp w.id sp lane va)) s = .next (uncorrectOne (takeFault s w sp x.pc x.pc x.mask f) d loc) := by
      show execUncorrectableError d loc (.warp w.id sp lane va) s = _
      unfold execUncorrectableError
      dsimp only
      rw [hw]
      dsimp only
      rw [hx]
    obtain ⟨ended, gone, quiet⟩ := takeFault_terminal (s := s) (w := w) (sp := sp) (pc := x.pc) (next := x.pc) (act := x.mask) (f := f) rfl rfl hr hf
    exact ⟨_, run, consumed_ends ended gone quiet⟩
  · let f : FaultInfo := { faultOf 0x14 with va := va }
    have run : exec (.uncorrectableError d loc (.copy o.id va)) s = .next (uncorrectOne (failCopy s o f) d loc) := by
      show execUncorrectableError d loc (.copy o.id va) s = _
      unfold execUncorrectableError
      dsimp only
      rw [ho]
    obtain ⟨ended, gone, quiet⟩ := failCopy_terminal (s := s) (o := o) (f := f) rfl rfl hr hf
    exact ⟨_, run, consumed_ends ended gone quiet⟩
  · cases h
    rfl
  · cases h
    rfl

end Sys2Proof.Proofs

/-! SUPPORT. The states of a die (R19-R21, R177): cores that go into reset with nothing lost, lines that return to their home, and the
close of a die. With them the statement about starts and health. -/

namespace Sys2Proof.Proofs

open Sys2Proof Sys2Proof.Machine Sys2Proof.Claims Sys2Proof.Laws

/-! ### Cores that go into reset (R19, R20) -/

/-- Past a stall a change meets a bridge that does not stall. -/
theorem pastStall_cases (s : State) (f : State → State) :
    ∃ u, bridgeStalled u.bridge = false ∧ u.cores = s.cores ∧ SlicesUsed s u ∧ ∃ b, pastStall s f = { f u with bridge := b } ∧
      b.down = (f u).bridge.down := by
  unfold pastStall
  dsimp only
  cases h : bridgeStalled s.bridge with
  | false => exact ⟨s, h, rfl, .refl s, _, rfl, rfl⟩
  | true => exact ⟨{ s with bridge := { s.bridge with retrain := none, replay := [] } }, rfl, rfl, ⟨rfl, fun _ => .refl _, rfl⟩, _, rfl, rfl⟩

/-- A line is clean, or its home is a die that is not offline. -/
def Returns (s : State) (l : L1Line) : Prop := l.dirty = 0 ∨ s.dies[dieOf (l.line * 256)].dstate ≠ .dieOffline

theorem returns_of_reach {s : State} {d : Fin 2} {l : L1Line} (h : l.dirty = 0 ∨ lineReach s d l.line = true) : Returns s l := by
  refine h.imp_right fun h => ?_
  rw [lineReach, Bool.and_eq_true, bne_iff_ne] at h
  exact h.1

theorem Returns.reach {s : State} {d : Fin 2} {l : L1Line} (h : Returns s l) (hb : s.bridge.down = false) :
    l.dirty = 0 ∨ lineReach s d l.line = true :=
  h.imp_right fun h => by simp [lineReach, hb] at h ⊢; exact h

/-- With the bridge up and trained a dirty line goes to its home slice (R26). -/
theorem Returns.free {s : State} {d : Fin 2} {l : L1Line} (h : Returns s l) (hb : s.bridge.down = false) (hs : bridgeStalled s.bridge = false) :
    lineFree s d l = true := by
  have cross : crossing s d (holderOf s l.line) = .free := by simp [crossing, hb, hs]
  rw [lineFree, cross]
  obtain h | h := h.reach (d := d) hb <;> simp [h]

/-- A write-back past a stall leaves the line clean. -/
theorem cleanPast {s : State} {c : Fin 384} {l : L1Line} (h : Returns s l) (hb : s.bridge.down = false) :
    let t := pastStall s fun s => l1CleanLine s c l
    CoreUses c s t ∧ t.cores[c].l1 = s.cores[c].l1.map (cleanedLine [l]) := by
  obtain ⟨u, hs, hc, hu, b, run, down⟩ := pastStall_cases s fun s => l1CleanLine s c l
  have w := l1CleanLine_free (c := c) ((show Returns u l from h.imp_right fun k => by rwa [hu.dstate]).free (hu.down.trans hb) hs)
  have uses := (hu.home.coreUses c).trans w.toCoreUses
  intro t
  rw [show t = _ from run]
  exact ⟨⟨⟨uses.rest, uses.die, down.trans uses.down⟩, uses.other⟩, by rw [← hc]; exact w.lines⟩

/-- Before its core goes into reset, every line of L1 is written back where none is lost. -/
theorem cleanNow_lines (c : Fin 384) (ls : List L1Line) (s : State) (hb : s.bridge.down = false) (h : ∀ l ∈ ls, Returns s l) :
    let t := ls.foldl (fun s l => pastStall s fun s => l1CleanLine s c l) s
    CoreUses c s t ∧ t.cores[c].l1 = s.cores[c].l1.map (cleanedLine ls) := by
  induction ls generalizing s with
  | nil => exact ⟨.refl c s, (WroteBack.nil c s).lines⟩
  | cons l r ih =>
    obtain ⟨uses, lines⟩ := cleanPast (c := c) (h l (.head _)) hb
    obtain ⟨uses', lines'⟩ := ih _ (uses.down.trans hb) fun y hy => (h y (.tail _ hy)).imp_right fun k => by rwa [uses.dstate]
    refine ⟨uses.trans uses', ?_⟩
    rw [List.foldl_cons, lines', lines, List.map_map]
    exact List.map_congr_left fun y _ => cleanedLine_append [l] r y

theorem modCore_same_eq {s : State} {k : Fin 384} {f : Core → Core} (h : f s.cores[k] = s.cores[k]) : modCore s k f = s := by
  have e : s.cores.set k.val (f s.cores[k]) k.isLt = s.cores := by rw [h]; simp
  rw [modCore, e]

/-- A core whose lines are clean loses none (R21, R27). -/
theorem loseLines_clean {s : State} {k : Fin 384} (h : ∀ l ∈ s.cores[k].l1, l.dirty = 0) (p : L1Line → Bool) : loseLines s k p = s := by
  have gone : (s.cores[k].l1.filter fun l => p l && l.dirty != 0 && !lineReach s (coreDie k) l.line) = [] :=
    List.filter_eq_nil_iff.mpr fun l hl => by simp [h l hl]
  unfold loseLines
  dsimp only
  rw [gone, List.foldl_nil]
  exact modCore_same_eq (by simp)

/-- A core holds no line and no translation. -/
def CoreEmpty (x : Core) : Prop := x.l1 = [] ∧ x.tlb = []

/-- One core goes into reset. -/
def resetCore (s : State) (j : Fin 384) : State :=
  let t := loseLines (l1CleanNow s j) j fun _ => true
  modCore t j fun _ => { Core.reset with cyc0 := t.now }

theorem resetCores_eq (s : State) (d : Fin 2) : resetCores s d = (List.range 192).foldl (fun s k => resetCore s (coreAt d k)) s := rfl

theorem resetCore_step {s : State} (h : AllReach s) (j : Fin 384) :
    CoreUses j s (resetCore s j) ∧ AllReach (resetCore s j) ∧ CoreEmpty (resetCore s j).cores[j] := by
  obtain ⟨hb, reach⟩ := h
  obtain ⟨uses, lines⟩ := cleanNow_lines j s.cores[j].l1 s hb fun l hl => returns_of_reach (reach j l hl)
  have clean : ∀ l ∈ (l1CleanNow s j).cores[j].l1, l.dirty = 0 := fun l hl => by
    rw [show (l1CleanNow s j).cores[j].l1 = _ from lines] at hl
    obtain ⟨y, hy, rfl⟩ := List.mem_map.mp hl
    rw [cleanedLine, if_pos hy]
  unfold resetCore
  rw [loseLines_clean clean]
  have step := uses.trans (modCore_coreUses j (l1CleanNow s j) fun _ => { Core.reset with cyc0 := (l1CleanNow s j).now })
  have empty : CoreEmpty (modCore (l1CleanNow s j) j fun _ => { Core.reset with cyc0 := (l1CleanNow s j).now }).cores[j] := by
    rw [modCore_same]
    exact ⟨rfl, rfl⟩
  refine ⟨step, ⟨step.down.trans hb, fun k l hl => ?_⟩, empty⟩
  by_cases hk : k = j
  · subst hk
    rw [empty.1] at hl
    cases hl
  · rw [step.other k hk] at hl
    exact Returns.reach ((returns_of_reach (reach k l hl)).imp_right fun e => by rwa [step.dstate]) (step.down.trans hb)

/-- The cores of a list go into reset, one after the other. -/
theorem resetCore_fold (d : Fin 2) (ks : List Nat) (s : State) (h : AllReach s) :
    let t := ks.foldl (fun s k => resetCore s (coreAt d k)) s
    Used offCores s t ∧ (∀ j : Fin 384, CoreEmpty s.cores[j] → CoreEmpty t.cores[j]) ∧ ∀ k ∈ ks, CoreEmpty t.cores[coreAt d k] := by
  induction ks generalizing s with
  | nil => exact ⟨.refl s, fun _ h => h, fun _ h => nomatch h⟩
  | cons k r ih =>
    obtain ⟨step, reach, empty⟩ := resetCore_step h (coreAt d k)
    obtain ⟨used, keeps, all⟩ := ih _ reach
    refine ⟨step.toUsed.trans used, fun j hj => keeps j ?_, fun i hi => ?_⟩
    · by_cases e : j = coreAt d k
      · rw [e]; exact empty
      · rw [step.other j e]; exact hj
    · obtain rfl | hi := List.mem_cons.mp hi
      · exact keeps _ empty
      · exact all i hi

theorem coreAt_of_die {d : Fin 2} {j : Fin 384} (h : coreDie j = d) : coreAt d (j.val % 192) = j := by
  have lt := j.isLt
  subst h
  refine Fin.ext ?_
  show (192 * (coreDie j).val + j.val % 192 % 192) % 384 = j.val
  unfold coreDie
  split
  · show (192 * 0 + j.val % 192 % 192) % 384 = j.val
    omega
  · show (192 * 1 + j.val % 192 % 192) % 384 = j.val
    omega

theorem resetCores_reach {s : State} (h : AllReach s) (d : Fin 2) :
    Used offCores s (resetCores s d) ∧ ∀ j : Fin 384, coreDie j = d → CoreEmpty (resetCores s d).cores[j] := by
  rw [resetCores_eq]
  obtain ⟨used, -, all⟩ := resetCore_fold d (List.range 192) s h
  refine ⟨used, fun j hj => ?_⟩
  obtain ⟨k, hk, rfl⟩ : ∃ k ∈ List.range 192, coreAt d k = j :=
    ⟨j.val % 192, List.mem_range.mpr (Nat.mod_lt _ (by decide)), coreAt_of_die hj⟩
  exact all k hk

/-! ### Lines that return to their home (R150, R177) -/

theorem setForward_off (s : State) (line : Nat) :
    (setForward s line false).dies[dieOf (line * 256)].fwd.contains line = false := by
  rw [setForward, modDie_same]
  simp

/-- A recall of a migrated line removes its forwarding entry, whether its holder still has the line or not. -/
theorem recallLine_unforwards {s : State} {line : Nat} (h : s.dies[dieOf (line * 256)].fwd.contains line = true) :
    ∃ u, SlicesUsed s u ∧ recallLine s line = setForward u line false := by
  have back : otherDie (holderOf s line) = dieOf (line * 256) := by
    unfold holderOf
    dsimp only
    rw [if_pos h]
    generalize dieOf (line * 256) = d
    revert d
    decide
  unfold recallLine
  rw [if_pos h]
  unfold moveLine
  dsimp only
  rw [back, show (dieOf (line * 256) != dieOf (line * 256)) = false by simp]
  split
  · exact ⟨s, .refl s, rfl⟩
  · exact ⟨_, ((l2Remove_slices _ _ _).trans (l2Remove_slices _ _ _)).trans ((l2Room_slices _ _ _ _ _).trans
      ((modL2_slices _ _ _).trans ((arrivePacket_slices _ _ _).trans (sendPacket_slices _ _ _ _ _)))), rfl⟩

theorem recallLine_slices (s : State) (line : Nat) : SlicesUsed s (recallLine s line) := by
  cases h : s.dies[dieOf (line * 256)].fwd.contains line with
  | true =>
    obtain ⟨u, hu, e⟩ := recallLine_unforwards h
    rw [e]
    exact hu.trans (unforward_slices _ _)
  | false =>
    unfold recallLine
    rw [h]
    exact .refl s

/-- A line is not forwarded from its home. -/
def AtHome (s : State) (line : Nat) : Prop := s.dies[dieOf (line * 256)].fwd.contains line = false

theorem AtHome.holder {s : State} {line : Nat} (h : AtHome s line) : holderOf s line = dieOf (line * 256) := by
  unfold holderOf
  exact if_neg (Bool.eq_false_iff.mp h)

theorem AtHome.keep {off : State → State} {s t : State} {line : Nat} (h : AtHome s line) (g : Used off s t) : AtHome t line :=
  Bool.eq_false_iff.mpr fun k => Bool.eq_false_iff.mp h ((g.die _).fwd _ k)

theorem recallLine_atHome (s : State) (line : Nat) : AtHome (recallLine s line) line := by
  cases h : s.dies[dieOf (line * 256)].fwd.contains line with
  | true =>
    obtain ⟨u, -, e⟩ := recallLine_unforwards h
    rw [AtHome, e]
    exact setForward_off u line
  | false =>
    rw [AtHome, recallLine, h]
    exact h

theorem recallLines_atHome (ls : List Nat) (s : State) : ∀ line ∈ ls, AtHome (ls.foldl recallLine s) line := by
  induction ls generalizing s with
  | nil => exact fun _ h => nomatch h
  | cons l r ih =>
    intro line hl
    obtain rfl | hl := List.mem_cons.mp hl
    · exact (recallLine_atHome s line).keep (Used.fold recallLine_slices r _)
    · exact ih _ line hl

/-- The lines that a die forwards, once they have been recalled. -/
def recallAll (s : State) (d : Fin 2) : State := pastStall s fun s => s.dies[d].fwd.foldl recallLine s

theorem recallAll_slices (s : State) (d : Fin 2) : SlicesUsed s (recallAll s d) :=
  pastStall_slices (fun s => .fold recallLine_slices _ s) s

/-- No line of a die is away once those that it forwards have been recalled. -/
theorem recallAll_atHome (s : State) (line : Nat) : AtHome (recallAll s (dieOf (line * 256))) line := by
  obtain ⟨u, -, -, -, b, run, -⟩ := pastStall_cases s fun s => s.dies[dieOf (line * 256)].fwd.foldl recallLine s
  rw [AtHome, show recallAll s (dieOf (line * 256)) = _ from run]
  show AtHome (u.dies[dieOf (line * 256)].fwd.foldl recallLine u) line
  cases h : u.dies[dieOf (line * 256)].fwd.contains line with
  | true => exact recallLines_atHome _ u line (by simpa using h)
  | false => exact AtHome.keep (s := u) h (Used.fold recallLine_slices _ u)

theorem otherDie_eq_of_ne {d x : Fin 2} (h : x ≠ d) : otherDie d = x := by
  revert d x
  decide

theorem eq_of_ne_otherDie {d x : Fin 2} (h : x ≠ otherDie d) : x = d := by
  revert d x
  decide

/-- A die holds only lines that it answers for. -/
def ownLines (s : State) (x : Fin 2) : State := modDie s x fun y => { y with l2 := y.l2.filter fun e => holderOf s e.line == x }

theorem leaveOnline_eq (s : State) (d : Fin 2) : leaveOnline s d = ownLines (ownLines (recallAll s (otherDie d)) d) (otherDie d) := rfl

theorem ownLines_slices (s : State) (x : Fin 2) : SlicesUsed s (ownLines s x) := modL2_slices _ _ _

theorem ownLines_fwd (s : State) (x d : Fin 2) : (ownLines s x).dies[d].fwd = s.dies[d].fwd := by
  by_cases h : d = x
  · subst h; rw [ownLines, modDie_same]
  · rw [ownLines, modDie_other _ _ _ _ h]

theorem holderOf_congr {s t : State} (h : ∀ d : Fin 2, t.dies[d].fwd = s.dies[d].fwd) (line : Nat) : holderOf t line = holderOf s line := by
  unfold holderOf
  dsimp only
  rw [h]

theorem ownLines_holder (s : State) (x : Fin 2) (line : Nat) : holderOf (ownLines s x) line = holderOf s line :=
  holderOf_congr (ownLines_fwd s x) line

theorem ownLines_own (s : State) (x : Fin 2) : ∀ e ∈ (ownLines s x).dies[x].l2, holderOf s e.line = x := by
  rw [ownLines, modDie_same]
  intro e he
  simpa using (List.mem_filter.mp he).2

theorem ownLines_other {s : State} {x d : Fin 2} (h : d ≠ x) : (ownLines s x).dies[d] = s.dies[d] := modDie_other _ _ _ _ h

theorem leaveOnline_slices (s : State) (d : Fin 2) : SlicesUsed s (leaveOnline s d) := by
  rw [leaveOnline_eq]
  exact (recallAll_slices _ _).trans ((ownLines_slices _ _).trans (ownLines_slices _ _))

/-- No copy of a line lies across the bridge once a die is not online (R177). -/
theorem leaveOnline_own (s : State) (d x : Fin 2) : ∀ e ∈ (leaveOnline s d).dies[x].l2, holderOf (leaveOnline s d) e.line = x := by
  rw [leaveOnline_eq]
  intro e he
  rw [ownLines_holder]
  by_cases h : x = otherDie d
  · subst h
    exact ownLines_own _ _ e he
  · obtain rfl := eq_of_ne_otherDie h
    rw [ownLines_other (otherDie_ne x).symm] at he
    rw [ownLines_holder]
    exact ownLines_own _ _ e he

/-! ### The close of a die (R21) -/

/-- What is left once a die is closed. -/
def Closed (d : Fin 2) (s t : State) : Prop :=
  t.dies[d].dstate = .dieOffline ∧ t.dies[d].closing = false ∧ t.mem = s.mem ∧ t.ctxs = s.ctxs ∧
    t.copies = s.copies ∧ (∀ k : Fin 16, t.dies[d].islands[k] = if k.val = 15 then .on else .off) ∧ t.dies[d].l2 = [] ∧ t.dies[d].tlb = [] ∧
    t.dies[d].nodes = [] ∧ (∀ line, holderOf t line = dieOf (line * 256)) ∧ Tells t (.hotplug false)

/-- A die that holds nothing any more. -/
def emptiedDie (x : Die) : Die := { x with l2 := [], fwd := [], tlb := [], nodes := [], walks := [], engFails := [] }

/-- A die that is offline. -/
def closedDie (x : Die) : Die := { x with dstate := .dieOffline, islands := islandsOf .dieOffline, closing := false }

theorem closeDie_closed (s : State) (d : Fin 2) : Closed d s (closeDie s d) := by
  let u := recallAll (leaveOnline s d) d
  have used : SlicesUsed s u := (leaveOnline_slices s d).trans (recallAll_slices _ _)
  let v := setHealth (modDie u d emptiedDie) d closedDie
  have step : HealthStep s (closeDie s d) := used.health.trans ((modDie_health u d emptiedDie).trans
    ((setHealth_health _ d closedDie).trans (toHostFrom_health v 0 _)))
  have dies : (closeDie s d).dies = v.dies := toHostFrom_dies v 0 _
  have here : (closeDie s d).dies[d] = withDue (closedDie (emptiedDie u.dies[d])) := by
    rw [dies, setHealth_same, modDie_same]
  have there : ∀ e, e ≠ d → (closeDie s d).dies[e] = u.dies[e] := fun e he => by
    rw [dies, setHealth_other _ _ _ _ he, modDie_other _ _ _ _ he]
  have home : ∀ line, AtHome (closeDie s d) line := fun line => by
    unfold AtHome
    by_cases h : dieOf (line * 256) = d
    · have none : (closeDie s d).dies[d].fwd = [] := by rw [here]; rfl
      simp only [h, none, List.contains_nil]
    · rw [there _ h]
      have away : AtHome (recallAll s (otherDie d)) line := by
        rw [otherDie_eq_of_ne h]
        exact recallAll_atHome s line
      have after : SlicesUsed (recallAll s (otherDie d)) (leaveOnline s d) := by
        rw [leaveOnline_eq]
        exact (ownLines_slices _ _).trans (ownLines_slices _ _)
      exact away.keep (after.trans (recallAll_slices _ d))
  unfold Closed
  rw [here]
  exact ⟨rfl, rfl, step.mem, step.ctxs, step.copies, fun k => tabulate_get 16 _ k, rfl, rfl, rfl, fun line => (home line).holder, toHost_tells v _⟩

/-! ### The driver's requests (R20, R21) -/

theorem pfServes_of_served {s : State} (h : HostServed s) : pfServes s = true := by
  obtain ⟨up, runs⟩ := h
  rw [pfServes, up, bne_iff_ne.mpr runs]
  rfl

/-- A context that has a core on a die (R20, R56, R59, R75). -/
def HoldsCore (s : State) (d : Fin 2) : Prop :=
  ∃ c : Fin 64, s.ctxs[c].st ≠ .free ∧ s.ctxs[c].st ≠ .ended ∧
    (((s.ctxs[c].mode = false ∨ s.ctxs[c].die = d) ∧ (if d = 0 then (partOfCtx s c).isl0 else (partOfCtx s c).isl1) ≠ 0) ∨
      ∃ w ∈ s.warps, w.ctx = c ∧ onDispatch w = true ∧ coreDie w.core = d)

theorem hasCoreOn_iff (s : State) (d : Fin 2) : ((List.finRange 64).any fun c => hasCoreOn s d c) = true ↔ HoldsCore s d := by
  simp only [List.any_eq_true, List.mem_finRange, true_and, hasCoreOn, HoldsCore, Bool.and_eq_true, Bool.or_eq_true, bne_iff_ne, ne_eq,
    beq_iff_eq, Bool.not_eq_true', and_assoc]

/-- A copy engine of a die holds an operation (R21, R341). -/
def EnginesBusy (s : State) (d : Fin 2) : Prop := ∃ o ∈ s.copies, engDie o = d ∧ copyHere s o = true

theorem enginesBusy_iff (s : State) (d : Fin 2) : (s.copies.any fun o => engDie o == d && copyHere s o) = true ↔ EnginesBusy s d := by
  simp only [List.any_eq_true, Bool.and_eq_true, beq_iff_eq, EnginesBusy]

theorem closeOn_busy {s : State} {d : Fin 2} (h : EnginesBusy s d) : closeOn s d = s := by
  rw [closeOn, (enginesBusy_iff s d).mpr h]
  simp

theorem closeOn_idle {s : State} {d : Fin 2} (hc : s.dies[d].closing = true) (h : ¬ EnginesBusy s d) : closeOn s d = closeDie s d := by
  rw [closeOn, hc, Bool.eq_false_iff.mpr (mt (enginesBusy_iff s d).mp h)]
  exact if_pos rfl

/-- A die whose close has begun. -/
def closing (s : State) (d : Fin 2) : State := modDie s d fun x => { x with closing := true }

theorem closing_closed {s t : State} {d : Fin 2} (h : Closed d (closing s d) t) : Closed d s t := h

/-- A die whose cores are in reset, with its L2 in service. -/
def coresOfflineDie (x : Die) : Die := { x with dstate := .coresOffline, islands := islandsOf .coresOffline }

/-- A die whose cores leave reset. -/
def onlineDie (x : Die) : Die := { x with dstate := .online, islands := islandsOf .online }

theorem coresOfflineDie_islands (x : Die) (k : Fin 16) : (withDue (coresOfflineDie x)).islands[k] = if k.val < 12 then .gated else .on :=
  tabulate_get 16 _ k

theorem onlineDie_islands (x : Die) (k : Fin 16) : (withDue (onlineDie x)).islands[k] = .on := tabulate_get 16 _ k

theorem online_leaves (r : State) (d : Fin 2) :
    (setHealth r d onlineDie).dies[d].dstate = .online ∧ (∀ k : Fin 16, (setHealth r d onlineDie).dies[d].islands[k] = .on) ∧
      (setHealth r d onlineDie).ctxs = r.ctxs := by
  have step := setHealth_health r d onlineDie
  rw [setHealth_same]
  exact ⟨rfl, onlineDie_islands _, step.ctxs⟩

/-- A die goes cores-offline: no copy lies across the bridge any more (R20, R177). -/
theorem coresOffline_leaves (r : State) (d : Fin 2) :
    let t := setHealth (leaveOnline r d) d coresOfflineDie
    t.dies[d].dstate = .coresOffline ∧ (∀ k : Fin 16, k.val < 12 → t.dies[d].islands[k] ≠ .on) ∧
      (∀ k : Fin 16, 12 ≤ k.val → t.dies[d].islands[k] = .on) ∧ t.ctxs = r.ctxs ∧ t.cores = r.cores ∧
      ∀ x : Fin 2, ∀ e ∈ t.dies[x].l2, holderOf t e.line = x := by
  have leave := leaveOnline_slices r d
  have own := leaveOnline_own r d
  generalize leaveOnline r d = u at leave own
  intro t
  have step : HealthStep u t := setHealth_health u d coresOfflineDie
  have here : t.dies[d] = withDue (coresOfflineDie u.dies[d]) := setHealth_same u d coresOfflineDie
  have slices : ∀ x : Fin 2, t.dies[x].l2 = u.dies[x].l2 ∧ t.dies[x].fwd = u.dies[x].fwd := fun x => by
    obtain rfl | hx := eq_or_ne x d
    · rw [here]
      exact ⟨rfl, rfl⟩
    · rw [show t.dies[x] = u.dies[x] from setHealth_other _ _ _ _ hx]
      exact ⟨rfl, rfl⟩
  refine ⟨by rw [here]; rfl, fun k hk => ?_, fun k hk => ?_, ?_, ?_, fun x e he => ?_⟩
  · rw [here, coresOfflineDie_islands, if_pos hk]
    decide
  · rw [here, coresOfflineDie_islands, if_neg (by omega)]
  · exact step.ctxs.trans (leave.field State.ctxs fun _ => rfl)
  · exact step.cores.trans (leave.field State.cores fun _ => rfl)
  · rw [(slices x).1] at he
    rw [holderOf_congr fun y => (slices y).2]
    exact own x e he

section

variable {s : State} {d : Fin 2} (hs : HostServed s)

include hs

theorem coresOffline_served (h : s.dies[d].dstate = .online) : exec (.coresOfflineRequest d) s =
    (if (List.finRange 64).any fun c => hasCoreOn s d c then .next (toHost s (.refused "partition present"))
    else if crossing s 0 1 = .stalled then .next { s with inbox := .coresOfflineRequest d :: s.inbox }
    else .next (setHealth (leaveOnline (resetCores s d) d) d coresOfflineDie)) := by
  show execCoresOfflineRequest d s = _
  rw [execCoresOfflineRequest, if_neg (by rw [pfServes_of_served hs, h]; decide)]
  rfl

theorem online_served (h : s.dies[d].dstate = .coresOffline) (hc : s.dies[d].closing = false) : exec (.onlineRequest d) s =
    .next (setHealth (resetCores s d) d onlineDie) := by
  show execOnlineRequest d s = _
  rw [execOnlineRequest, if_neg (by rw [pfServes_of_served hs, h, hc]; decide)]
  rfl

theorem dieOffline_served (h : s.dies[d].dstate = .coresOffline) (hc : s.dies[d].closing = false) : exec (.dieOfflineRequest d) s =
    if d = 0 then .next (toHost s (.refused "host die")) else .next (closeOn (closing s d) d) := by
  show execDieOfflineRequest d s = _
  rw [execDieOfflineRequest, if_neg (by rw [pfServes_of_served hs, h, hc]; decide)]
  rfl

theorem bringUp_served (h : s.dies[d].dstate = .dieOffline) (f : StartFacts) : exec (.bringUpRequest d f) s =
    let t := startDie (tellHealth (modDie s d (startedFrom d)) d s.dies[d]) d false f .coresOffline f.bridgeTrains
    .next (if t.dies[d].dstate = .coresOffline then toHost t (.hotplug true) else t) := by
  show execBringUpRequest d f s = _
  rw [execBringUpRequest, if_neg (by rw [pfServes_of_served hs, h]; decide)]

/-- A bring-up is a start of the die by its own (R20, R46; log 72). -/
theorem bringUps (h : s.dies[d].dstate = .dieOffline) (f : StartFacts) (hf : f.ready = true) :
    ∃ t, exec (.bringUpRequest d f) s = .next t ∧ t.mem = s.mem ∧ t.ctxs = s.ctxs ∧ t.warps = s.warps ∧
      StartOutcome d s.dies[d] t.dies[d] false f .coresOffline ∧ BridgeTrained s t [(s.dies[d], false, f)] ∧
      (startGood s.dies[d] false f → Tells t (.hotplug true)) := by
  let u := tellHealth (modDie s d (startedFrom d)) d s.dies[d]
  have told : HealthStep s u := (modDie_health _ _ _).trans (tellHealth_health _ _ _)
  have die : u.dies[d] = startedFrom d s.dies[d] := by
    simp only [u, tellHealth_dies]
    exact modDie_same _ _ _
  have start : DieStarted d s.dies[d] false f .coresOffline f.bridgeTrains u (startDie u d false f .coresOffline f.bridgeTrains) :=
    startDie_started die hf
  rw [bringUp_served hs h f]
  show ∃ t, Host.Outcome.next (if (startDie u d false f .coresOffline f.bridgeTrains).dies[d].dstate = .coresOffline then _ else _) = _ ∧ _
  generalize startDie u d false f .coresOffline f.bridgeTrains = v at start ⊢
  have shown : ∀ t, HealthStep v t → t.dies = v.dies → t.mem = s.mem ∧ t.ctxs = s.ctxs ∧ t.warps = s.warps ∧
      StartOutcome d s.dies[d] t.dies[d] false f .coresOffline ∧ BridgeTrained s t [(s.dies[d], false, f)] := fun t step dies => by
    have rest := step.rest.trans (start.rest.trans told.rest)
    refine ⟨field_of_off rest State.mem fun _ => rfl, field_of_off rest State.ctxs fun _ => rfl, field_of_off rest State.warps fun _ => rfl,
      by rw [dies]; exact start.die, fun up => ?_, fun up => ?_⟩
    · obtain ⟨x, hx, c, g⟩ := up
      obtain rfl := List.mem_singleton.mp hx
      have c' : coldStart s.dies[d] false f := c
      rw [step.down, start.trained g c, Bool.not_eq_true']
      exact ⟨fun h => ⟨_, .head _, c', h⟩, fun ⟨y, hy, _, h⟩ => by rwa [List.mem_singleton.mp hy] at h⟩
    · rw [step.down, start.untrained fun h => up ⟨_, .head _, h.2, h.1⟩, told.down]
  by_cases hd : v.dies[d].dstate = .coresOffline
  · rw [if_pos hd]
    obtain ⟨mem, ctxs, warps, die, bridge⟩ := shown _ (toHostFrom_health v 0 (.hotplug true)) (toHostFrom_dies _ _ _)
    exact ⟨_, rfl, mem, ctxs, warps, die, bridge, fun _ => toHost_tells v _⟩
  · rw [if_neg hd]
    obtain ⟨mem, ctxs, warps, die, bridge⟩ := shown v (.refl v) rfl
    exact ⟨_, rfl, mem, ctxs, warps, die, bridge, fun g => absurd (start.die.good g).2.1 hd⟩

end

theorem dieStates : Claims.DieStates := by
  intro s d hs held busy closed
  refine ⟨fun h => ⟨fun hh => ?_, fun hh hx => ?_, fun hh hx hr => ?_⟩, fun h hc => ⟨fun hr => ?_, fun hd => ?_, fun hd hb => ?_, fun hd hb => ?_⟩,
    fun hd hc => ⟨closeOn_busy, fun hb => ?_⟩, fun h f hf => bringUps hs h f hf⟩
  · rw [coresOffline_served hs h, if_pos ((hasCoreOn_iff s d).mpr hh)]
  · rw [coresOffline_served hs h, if_neg (mt (hasCoreOn_iff s d).mp hh), if_pos hx]
  · rw [coresOffline_served hs h, if_neg (mt (hasCoreOn_iff s d).mp hh), if_neg (by rw [hx]; decide)]
    obtain ⟨used, empty⟩ := resetCores_reach hr d
    obtain ⟨dstate, low, high, ctxs, cores, own⟩ := coresOffline_leaves (resetCores s d) d
    exact ⟨_, rfl, dstate, low, high, ctxs.trans (used.field State.ctxs fun _ => rfl), fun j hj => by rw [cores]; exact empty j hj, own⟩
  · obtain ⟨dstate, on, ctxs⟩ := online_leaves (resetCores s d) d
    exact ⟨_, online_served hs h hc, dstate, on, ctxs.trans ((resetCores_reach hr d).1.field State.ctxs fun _ => rfl)⟩
  · rw [dieOffline_served hs h hc, if_pos hd]
  · rw [dieOffline_served hs h hc, if_neg (by rw [hd]; decide), closeOn_busy (s := closing s d) hb]
    rfl
  · rw [dieOffline_served hs h hc, if_neg (by rw [hd]; decide), closeOn_idle (s := closing s d) (congrArg Die.closing (modDie_same s d _)) hb]
    exact ⟨_, rfl, closing_closed (closeDie_closed (closing s d) d)⟩
  · rw [closeOn_idle hc hb]
    exact closeDie_closed s d

/-- Settles O56: the starts, the measurements, the errors, power and temperature, the thermal trip, and the states of a die. -/
theorem startsAndHealth : Obligations.StartsAndHealth :=
  ⟨packageStarts, startTimeouts, measurements, errors, power, thermalTrips, dieStates⟩

end Sys2Proof.Proofs

/-! SUPPORT. How an issued instruction ends, whatever its effect comes to (R93, R96, R115, R137). -/

namespace Sys2Proof.Proofs

open Sys2Proof Sys2Proof.Machine Sys2Proof.Claims Sys2Proof.Laws

/-- What an instruction does whose effect comes to `e`. -/
def EndsAs (i : Instr) (s : State) (w : Warp) (sp : Fin 8) (x : Split) : Effect → Prop
  | .next t => RunsTo i s w sp x t
  | .moved t => Moves i s w t
  | .fault f => Faults i s w sp x f
  | .wait t => Waits i s w sp x t
  | .rest t => Rests i s w sp x t

section

variable {i : Instr} {s : State} {w : Warp} {sp : Fin 8} {x : Split} {effect : State → Iss → Effect} {e : Effect}

/-- An instruction that issues ends as its effect comes to. -/
theorem issue_endsAs (h : Issues i s w sp x) (he : exec i s = issue i effect s)
    (hf : effect (counted s w sp) (issOf i w sp x) = e) : EndsAs i s w sp x e := by
  have hx := he.trans (issue_effect h effect)
  rw [hf] at hx
  cases e <;> exact hx

/-- One that acts for its warp does so where a lane is active (R113). -/
theorem issueWarp_endsAs (h : Issues i s w sp x) (he : exec i s = issueWarp i effect s) (ha : activeOf i w x ≠ 0)
    (hf : effect (counted s w sp) (issOf i w sp x) = e) : EndsAs i s w sp x e :=
  issue_endsAs h he ((if_neg ha).trans hf)

/-- With no active lane it only goes on (R113). -/
theorem issueWarp_idles (h : Issues i s w sp x) (he : exec i s = issueWarp i effect s) (ha : activeOf i w x = 0) :
    RunsTo i s w sp x (counted s w sp) :=
  he.trans (issueWarp_idle h effect ha)

end

section

variable (s : State) (w : Warp) (sp : Fin 8)

@[simp] theorem counted_links : (counted s w sp).links = s.links := rfl
@[simp] theorem counted_host : (counted s w sp).host = s.host := rfl
@[simp] theorem counted_bridge : (counted s w sp).bridge = s.bridge := rfl
@[simp] theorem counted_mem : (counted s w sp).mem = s.mem := rfl
@[simp] theorem counted_ctxs : (counted s w sp).ctxs = s.ctxs := rfl
@[simp] theorem counted_units : (counted s w sp).units = s.units := rfl
@[simp] theorem counted_dies : (counted s w sp).dies = s.dies := rfl

end

/-! ### Releases and acquires (R34, R39, R161, R165) -/

theorem cleanLinks (t : State) (w : Warp) (sc : Scope) : (cleaned t w sc).links = t.links ∧ (cleaned t w sc).host = t.host ∧
    (cleaned t w sc).bridge.down = t.bridge.down := by
  unfold cleaned
  split
  · exact ⟨rfl, rfl, rfl⟩
  · obtain ⟨ws, hw, -⟩ := cleanLines_wroteBack w.core (t.cores[w.core].l1.filter fun l => wideLine l && l.dirty != 0) t
    exact ⟨hw.field State.links fun _ => rfl, hw.field State.host fun _ => rfl, hw.down⟩

/-- Where a test takes no dirty line of a core's L1, none of them is lost and none waits. -/
theorem noDirty_lost {s : State} {k : Fin 384} {p q : L1Line → Bool} (h : NoDirty s k p) (hq : ∀ l, q l = true → p l = true) :
    l1Lost s k q = none ∧ l1Stalled s k q = false := by
  have clean : ∀ l ∈ s.cores[k].l1, q l = true → l.dirty = 0 := fun l hl hp => h l hl (hq l hp)
  constructor
  · refine List.find?_eq_none.mpr fun l hl hp => ?_
    simp only [Bool.and_eq_true, bne_iff_ne] at hp
    exact hp.1.2 (clean l hl hp.1.1)
  · refine List.any_eq_false.mpr fun l hl hp => ?_
    simp only [Bool.and_eq_true, bne_iff_ne] at hp
    exact hp.1.1.2 (clean l hl hp.1.1.1)

/-- A release whose write-backs leave no dirty line goes on to the bridge and then to the links (R165). -/
theorem releaseAt_back {t : State} {w : Warp} {sc : Scope} (h : sc = .core ∨ NoDirty (cleaned t w sc) w.core wideLine) :
    releaseAt t w sc = if scopeCode .package ≤ scopeCode sc && !acrossDone (cleaned t w sc) w.ctx then
      (if (cleaned t w sc).bridge.down then .bad (faultOf 0x14) else .wait (cleaned t w sc))
      else releaseLinks (cleaned t w sc) w sc := by
  unfold releaseAt
  by_cases hc : sc = .core
  · subst hc; rfl
  · have hb := h.resolve_left hc
    simp only [cleaned, if_neg hc] at hb ⊢
    have own := noDirty_lost hb (q := ownLine w.ctx) fun l hl => by
      simp only [ownLine, Bool.and_eq_true] at hl
      exact hl.1
    have wide := noDirty_lost hb (q := wideLine) fun _ hl => hl
    simp only [releaseCaches, own.1, wide.2]
    rfl

theorem scope_wide (sc : Scope) : scopeCode .package ≤ scopeCode sc ↔ (sc = .package ∨ sc = .domain ∨ sc = .system) := by
  cases sc <;> decide

theorem noFarWrites_iff (s : State) (c : Fin 64) : NoFarWrites s c ↔ s.links.any (farWriteOf c) = false := by
  simp only [List.any_eq_false, farWriteOf, warpAccess, NoFarWrites]
  refine forall₂_congr fun l _ => ?_
  cases l.kind <;> cases l.sys <;> cases l.copy <;> simp

/-- A release goes on to its links where nothing keeps it on the bridge. -/
theorem releaseAt_links {t : State} {w : Warp} {sc : Scope} (h : sc = .core ∨ NoDirty (cleaned t w sc) w.core wideLine)
    (hx : (sc = .package ∨ sc = .domain ∨ sc = .system) → Across (cleaned t w sc) w.ctx) :
    releaseAt t w sc = releaseLinks (cleaned t w sc) w sc := by
  rw [releaseAt_back h]
  refine if_neg fun k => ?_
  simp only [Bool.and_eq_true, decide_eq_true_eq, scope_wide, Bool.not_eq_true'] at k
  exact Bool.eq_false_iff.mp k.2 (hx k.1)

theorem releaseAt_across {t : State} {w : Warp} {sc : Scope} (h : sc = .core ∨ NoDirty (cleaned t w sc) w.core wideLine)
    (hw : sc = .package ∨ sc = .domain ∨ sc = .system) (hx : ¬ Across (cleaned t w sc) w.ctx) :
    releaseAt t w sc = if t.bridge.down then .bad (faultOf 0x14) else .wait (cleaned t w sc) := by
  rw [releaseAt_back h, ← (cleanLinks t w sc).2.2]
  exact if_pos (by simpa [scope_wide, hw] using hx)

/-- The links keep a release while a domain write or an atomic of its context is outstanding (R34, R326). -/
theorem releaseLinks_far {s : State} {w : Warp} {sc : Scope} (h : ¬ NoFarWrites s w.ctx) : releaseLinks s w sc = .wait s := by
  rw [noFarWrites_iff] at h
  unfold releaseLinks
  exact if_pos (by simpa using h)

theorem releaseLinks_near {s : State} {w : Warp} {sc : Scope} (h : NoFarWrites s w.ctx) (hs : sc = .core ∨ sc = .die ∨ sc = .package) :
    releaseLinks s w sc = .ok s := by
  unfold releaseLinks
  rw [(noFarWrites_iff s w.ctx).mp h]
  obtain rfl | rfl | rfl := hs <;> rfl

/-- Nothing of a context is outstanding that a release waits for. -/
theorem noPosted_far {s : State} {w : Warp} (h : NoPosted s w) : NoFarWrites s w.ctx := fun l hl hc hn => .inl (h.1 l hl (.inl hc) hn)

theorem flushAt_noPosted {s : State} {w : Warp} (h : NoPosted s w) (d : Fin 2) : flushAt s w.ctx w.id d = .ok s := by
  have held : s.host.held.any (·.writes w.ctx) = false := by
    refine List.any_eq_false.mpr fun y hy hw => ?_
    simp only [HeldMsg.writes, Bool.and_eq_true, beq_iff_eq] at hw
    have no := h.2 y hy hw.1
    cases hm : y.msg with
    | write fn tag a data => exact no fn tag a data hm
    | _ => rw [hm] at hw; cases hw.2
  have kinds : ∀ l ∈ s.links, (l.ctx = w.ctx ∨ l.warp = w.id) → l.copy.isNone = true → l.kind = .read := fun l hl ho hn =>
    h.1 l hl ho (Option.isNone_iff_eq_none.mp hn)
  have flush : s.links.any (flushOf w.id) = false := by
    refine List.any_eq_false.mpr fun l hl hf => ?_
    simp only [flushOf, Bool.and_eq_true, beq_iff_eq] at hf
    rw [kinds l hl (.inr hf.1.1) hf.1.2] at hf
    cases hf.2
  have none : s.links.filter (systemWriteOf w.ctx w.id) = [] := by
    refine List.filter_eq_nil_iff.mpr fun l hl hf => ?_
    simp only [systemWriteOf, warpAccess, Bool.and_eq_true, beq_iff_eq] at hf
    rw [kinds l hl (.inl hf.1.1.1.1) hf.1.1.1.2] at hf
    cases hf.1.2
  simp only [flushAt, held, flush, none]
  rfl

/-- What a release at domain or system scope comes to once its context has nothing outstanding: a failed write is reported, and at system
scope the host link has to be up (R35, R42). -/
theorem releaseLinks_wide {s : State} {w : Warp} {sc : Scope} (h : NoPosted s w) (hs : sc = .domain ∨ sc = .system) :
    releaseLinks s w sc = match w.late with
      | y :: _ => .bad (lateFault y)
      | [] => if sc = .system ∧ s.host.up = false then .bad (faultOf 0x19) else .ok s := by
  unfold releaseLinks
  rw [(noFarWrites_iff s w.ctx).mp (noPosted_far h)]
  cases w.late with
  | cons y ys => obtain rfl | rfl := hs <;> rfl
  | nil =>
    obtain rfl | rfl := hs
    · rfl
    · simp only [releaseSystem, flushAt_noPosted h]
      cases s.host.up <;> rfl

/-- What an acquire comes to once the link reads of its warp have returned (R42, R165). -/
theorem acquireAt_read {s : State} {w : Warp} {sc : Scope} (h : NoLinkReads s w) :
    acquireAt s w sc = if sc = .system ∧ s.host.up = false then .bad (faultOf 0x19) else .ok (acquired s w sc) := by
  have e : (decide (sc = Scope.system) && !s.host.up) = true ↔ sc = .system ∧ s.host.up = false := by simp
  unfold acquireAt
  simp only [show s.links.any (linkReadOf w.id) = false from h, Bool.false_eq_true, if_false, e]
  rfl

/-! ### Fences and flushes (R164, R165, R329) -/

theorem flushAll_clean {s : State} {w : Warp} (h : NoFarWrites s w.ctx) (hd : NoDirty (l1Clean s w.core fun _ => true) w.core fun _ => true) :
    flushAll s w = .ok (l1Clean s w.core fun _ => true) := by
  have far : (s.links.any fun l => l.warp == w.id && farWriteOf w.ctx l) = false := by
    refine List.any_eq_false.mpr fun l hl hf => ?_
    simp only [Bool.and_eq_true] at hf
    exact List.any_eq_false.mp ((noFarWrites_iff s w.ctx).mp h) l hl hf.2
  have a := noDirty_lost hd (q := fun l => l.owner == some w.ctx) fun _ _ => rfl
  have b := noDirty_lost hd (q := fun _ => true) fun _ _ => rfl
  simp only [flushAll, far, a.1, b.2]
  rfl

theorem flushAll_stalled {s : State} {w : Warp} (h : NoFarWrites s w.ctx)
    (hd : ∃ l ∈ (l1Clean s w.core fun _ => true).cores[w.core].l1, l.dirty ≠ 0)
    (hr : ∀ l ∈ (l1Clean s w.core fun _ => true).cores[w.core].l1, l.dirty ≠ 0 →
      lineReach (l1Clean s w.core fun _ => true) (coreDie w.core) l.line = true ∧ lineFree (l1Clean s w.core fun _ => true) (coreDie w.core) l = false) :
    flushAll s w = .wait (l1Clean s w.core fun _ => true) := by
  have far : (s.links.any fun l => l.warp == w.id && farWriteOf w.ctx l) = false := by
    refine List.any_eq_false.mpr fun l hl hf => ?_
    simp only [Bool.and_eq_true] at hf
    exact List.any_eq_false.mp ((noFarWrites_iff s w.ctx).mp h) l hl hf.2
  generalize hu : (l1Clean s w.core fun _ => true) = u at hd hr
  have lost : (l1Lost u w.core fun l => l.owner == some w.ctx) = none := by
    refine List.find?_eq_none.mpr fun l hl hp => ?_
    simp only [Bool.and_eq_true, bne_iff_ne, Bool.not_eq_true'] at hp
    exact Bool.eq_false_iff.mp hp.2 (hr l hl hp.1.2).1
  have stalled : (l1Stalled u w.core fun _ => true) = true := by
    obtain ⟨l, hl, h0⟩ := hd
    exact List.any_eq_true.mpr ⟨l, hl, by simpa [(hr l hl h0).1, (hr l hl h0).2] using h0⟩
  simp only [flushAll, far, hu, lost, stalled]
  rfl

theorem fencesAcquire {g : Guard} {s : State} {w : Warp} {sp : Fin 8} {x : Split} {sc : Scope} (h : Issues (.fence g .acq sc) s w sp x)
    (ha : activeOf (.fence g .acq sc) w x ≠ 0) :
    (NoLinkReads s w → (sc = .system → s.host.up = true) → RunsTo (.fence g .acq sc) s w sp x (acquired (counted s w sp) w sc)) ∧
    (NoLinkReads s w → sc = .system → s.host.up = false → Faults (.fence g .acq sc) s w sp x (faultOf 0x19)) ∧
    (¬ NoLinkReads s w → Waits (.fence g .acq sc) s w sp x (counted s w sp)) := by
  have ends := fun {o : Order} (e : acquireAt (counted s w sp) w sc = o) =>
    issueWarp_endsAs h (show exec (.fence g .acq sc) s = execFence g .acq sc s from rfl) ha (congrArg (Order.andThen · Effect.next) e)
  have read := fun (hr : NoLinkReads s w) => acquireAt_read (s := counted s w sp) (w := w) (sc := sc) hr
  refine ⟨fun hr hs => ends ((read hr).trans (if_neg fun k => ?_)), fun hr hs hd => ends ((read hr).trans (if_pos ⟨hs, hd⟩)),
    fun hr => ends (if_pos (by simpa using hr))⟩
  obtain ⟨hk, hd⟩ := k
  rw [counted_host, hs hk] at hd
  cases hd

/-- What a fence that releases comes to once its release has. -/
theorem fence_release {g : Guard} {ord : FenceOrd} (ho : ord ∈ [FenceOrd.rel, .ar]) {s : State} {w : Warp} {sp : Fin 8} {x : Split} {sc : Scope}
    (h : Issues (.fence g ord sc) s w sp x) (ha : activeOf (.fence g ord sc) w x ≠ 0) {o : Order} (e : releaseAt (counted s w sp) w sc = o) :
    EndsAs (.fence g ord sc) s w sp x
      (o.andThen fun s => if ord = .rel then .next s else (acquireAt s w sc).andThen .next) := by
  refine issueWarp_endsAs h (show exec (.fence g ord sc) s = execFence g ord sc s from rfl) ha ?_
  subst e
  simp only [List.mem_cons, List.not_mem_nil, or_false] at ho
  obtain rfl | rfl := ho <;> rfl

/-- The release of a fence: what it writes back, waits for and reports (R34, R35, R39, R42, R165). -/
theorem fencesRelease {g : Guard} {ord : FenceOrd} (ho : ord ∈ [FenceOrd.rel, .ar]) {s : State} {w : Warp} {sp : Fin 8} {x : Split} {sc : Scope}
    (h : Issues (.fence g ord sc) s w sp x) (ha : activeOf (.fence g ord sc) w x ≠ 0) :
    let u := cleaned (counted s w sp) w sc
    let wide := sc = .package ∨ sc = .domain ∨ sc = .system
    let back := sc = .core ∨ NoDirty u w.core wideLine
    let done := RunsTo (.fence g ord sc) s w sp x (if ord = .rel then u else acquired u w sc)
    (sc = .core ∨ sc = .die ∨ sc = .package → back → (wide → Across u w.ctx) → NoFarWrites s w.ctx → NoLinkReads s w → done) ∧
    (wide → back → ¬ Across u w.ctx → s.bridge.down = false → Waits (.fence g ord sc) s w sp x u) ∧
    (wide → back → ¬ Across u w.ctx → s.bridge.down = true → Faults (.fence g ord sc) s w sp x (faultOf 0x14)) ∧
    (back → (wide → Across u w.ctx) → ¬ NoFarWrites s w.ctx → Waits (.fence g ord sc) s w sp x u) ∧
    ((sc = .domain ∨ sc = .system) → back → Across u w.ctx → NoPosted s w →
      (w.late = [] → (sc = .system → s.host.up = true) → NoLinkReads s w → done) ∧
      (w.late = [] → sc = .system → s.host.up = false → Faults (.fence g ord sc) s w sp x (faultOf 0x19)) ∧
      (∀ y ys, w.late = y :: ys →
        Faults (.fence g ord sc) s w sp x { faultOf y.cause with va := y.va, lanes := y.lanes, late := true })) := by
  intro u wide back done
  obtain ⟨hl, hh, -⟩ := cleanLinks (counted s w sp) w sc
  have links : u.links = s.links := hl
  have host : u.host = s.host := hh
  have ends := fun {o : Order} (e : releaseAt (counted s w sp) w sc = o) => fence_release ho h ha e
  have goes : releaseAt (counted s w sp) w sc = .ok u → (sc = .system → s.host.up = true) → NoLinkReads s w → done := fun e hs hr => by
    have k := ends e
    have read := acquireAt_read (s := u) (w := w) (sc := sc) (by simpa only [NoLinkReads, links] using hr)
    rw [if_neg fun k => Bool.false_ne_true ((host ▸ k.2).symm.trans (hs k.1))] at read
    simp only [Order.andThen, read] at k
    by_cases hrel : ord = .rel
    · rw [if_pos hrel] at k
      exact (congrArg (RunsTo _ s w sp x) (if_pos hrel)).mpr k
    · rw [if_neg hrel] at k
      exact (congrArg (RunsTo _ s w sp x) (if_neg hrel)).mpr k
  have far : NoFarWrites u w.ctx ↔ NoFarWrites s w.ctx := by simp only [NoFarWrites, links]
  have posted : NoPosted s w → NoPosted u w := fun k => by simpa only [NoPosted, links, host] using k
  refine ⟨fun hs hb hx hf hr => goes ((releaseAt_links hb hx).trans (releaseLinks_near (far.mpr hf) hs)) ?_ hr,
    fun hw hb hx hd => ends ((releaseAt_across hb hw hx).trans (if_neg (by simp [hd]))),
    fun hw hb hx hd => ends ((releaseAt_across hb hw hx).trans (if_pos hd)),
    fun hb hx hf => ends ((releaseAt_links hb hx).trans (releaseLinks_far (mt far.mp hf))), fun hs hb hx hp => ?_⟩
  · rintro rfl
    simp at hs
  · have e := (releaseAt_links hb fun _ => hx).trans (releaseLinks_wide (posted hp) hs)
    rw [show (cleaned (counted s w sp) w sc).host = s.host from host] at e
    refine ⟨fun hlate hup hr => goes (e.trans ?_) hup hr, fun hlate hsys hdown => ends (o := .bad (faultOf 0x19)) (e.trans ?_),
      fun y ys hlate => ends (o := .bad (lateFault y)) (e.trans ?_)⟩
    · rw [hlate]
      exact if_neg fun k => Bool.false_ne_true (k.2.symm.trans (hup k.1))
    · rw [hlate]
      exact if_pos ⟨hsys, hdown⟩
    · rw [hlate]

/-- The two forms of `l1flush` (R329). -/
theorem flushes (g : Guard) (s : State) (w : Warp) (sp : Fin 8) (x : Split) :
    let t := counted s w sp
    let u := l1Clean t w.core fun _ => true
    ∀ i ∈ [Instr.l1flush g, .l1flushInv g], Issues i s w sp x →
      (activeOf i w x = 0 → RunsTo i s w sp x t) ∧
      (activeOf i w x ≠ 0 → (∃ l ∈ s.links, l.warp = w.id ∧ l.ctx = w.ctx ∧ l.copy = none ∧ l.sys = false ∧ l.kind = .write) →
        Waits i s w sp x t) ∧
      (activeOf i w x ≠ 0 → NoFarWrites s w.ctx → NoDirty u w.core (fun _ => true) →
        (i = .l1flush g → RunsTo i s w sp x u) ∧
        (i = .l1flushInv g → ∃ v, RunsTo i s w sp x v ∧ v.cores[w.core].l1 = [] ∧ v.mem = u.mem ∧ v.warps = t.warps ∧ v.ctxs = t.ctxs)) ∧
      (activeOf i w x ≠ 0 → NoFarWrites s w.ctx → (∃ l ∈ u.cores[w.core].l1, l.dirty ≠ 0) →
        (∀ l ∈ u.cores[w.core].l1, l.dirty ≠ 0 → lineReach u (coreDie w.core) l.line = true ∧ lineFree u (coreDie w.core) l = false) →
        Waits i s w sp x u) := by
  intro t u i hi h
  obtain ⟨f, hf, hinv⟩ : ∃ f : State → State, (activeOf i w x ≠ 0 → ∀ o, flushAll t w = o → EndsAs i s w sp x (o.andThen fun s => .next (f s))) ∧
      ((i = .l1flush g ∧ f = id) ∨ (i = .l1flushInv g ∧ f = fun s => l1Drop s w.core fun _ => true)) := by
    simp only [List.mem_cons, List.not_mem_nil, or_false] at hi
    obtain rfl | rfl := hi
    · exact ⟨id, fun ha o e => issueWarp_endsAs h (show exec (.l1flush g) s = execL1flush g s from rfl) ha
        (congrArg (Order.andThen · Effect.next) e), .inl ⟨rfl, rfl⟩⟩
    · exact ⟨_, fun ha o e => issueWarp_endsAs h (show exec (.l1flushInv g) s = execL1flushInv g s from rfl) ha
        (congrArg (Order.andThen · fun s => Effect.next (l1Drop s w.core fun _ => true)) e), .inr ⟨rfl, rfl⟩⟩
  refine ⟨fun ha => ?_, fun ha ⟨l, hl, hw, hc, hn, hs, hk⟩ => hf ha _ (if_pos ?_), fun ha hn hd => ?_,
    fun ha hn hd hr => hf ha _ (flushAll_stalled hn hd hr)⟩
  · obtain ⟨rfl, -⟩ | ⟨rfl, -⟩ := hinv
    · exact issueWarp_idles h (show exec (.l1flush g) s = execL1flush g s from rfl) ha
    · exact issueWarp_idles h (show exec (.l1flushInv g) s = execL1flushInv g s from rfl) ha
  · exact List.any_eq_true.mpr ⟨l, hl, by simp [farWriteOf, warpAccess, hw, hc, hn, hs, hk]⟩
  · have k := hf ha _ (flushAll_clean hn hd)
    refine ⟨fun e => ?_, fun e => ?_⟩
    · obtain ⟨-, rfl⟩ | ⟨rfl, -⟩ := hinv
      · exact k
      · cases e
    · obtain ⟨rfl, -⟩ | ⟨-, rfl⟩ := hinv
      · cases e
      · have only := l1Clean_only t w.core fun _ => true
        exact ⟨_, k, (congrArg Core.l1 (modCore_same _ _ _)).trans (List.filter_eq_nil_iff.mpr fun _ _ => by simp), rfl, only.warps, only.ctxs⟩

/-- Settles O31: acquires, releases and flushes, each by what its ordering steps come to. -/
theorem fencesAndFlushes : Obligations.FencesAndFlushes := by
  intro g s w sp x t
  refine ⟨fun sc h ha => fencesAcquire h ha, fun ord ho sc h ha => fencesRelease ho h ha, fun ord sc h ha => ?_, flushes g s w sp x⟩
  exact issueWarp_idles h (show exec (.fence g ord sc) s = execFence g ord sc s from rfl) ha

end Sys2Proof.Proofs

/-! SUPPORT. What the caches leave of a die whatever they are used for (R146-R151), and what is sent over the links (R25-R40). -/

namespace Sys2Proof.Proofs

open Sys2Proof Sys2Proof.Machine Sys2Proof.Claims Sys2Proof.Laws

/-! ### The dies beside their slices -/

/-- From `s` to `t` the dies keep all but the lines of their L2 and their forwarding entries, of which a migration adds one. -/
def DiesAside (s t : State) : Prop := ∀ d : Fin 2, offL2 t.dies[d] = offL2 s.dies[d]

section

variable {s t u : State}

theorem DiesAside.refl (s : State) : DiesAside s s := fun _ => rfl
theorem DiesAside.trans (h : DiesAside s t) (g : DiesAside t u) : DiesAside s u := fun d => (g d).trans (h d)
theorem DiesAside.of_dies (h : t.dies = s.dies) : DiesAside s t := fun d => by rw [h]
theorem Used.aside {off : State → State} (h : Used off s t) : DiesAside s t := fun d => (h.die d).rest

theorem DiesAside.fold {α : Type} {f : State → α → State} (hf : ∀ s a, DiesAside s (f s a)) (l : List α) (s : State) :
    DiesAside s (l.foldl f s) := by
  induction l generalizing s with
  | nil => exact .refl s
  | cons a r ih => exact (hf s a).trans (ih _)

theorem DiesAside.ite {p : Prop} [Decidable p] (h : DiesAside s t) (g : DiesAside s u) : DiesAside s (if p then t else u) := by
  split
  · exact h
  · exact g

/-- A field of a die that is not of its slices stays. -/
theorem DiesAside.field {α : Type} (h : DiesAside s t) (d : Fin 2) (f : Die → α) (hf : ∀ z, f (offL2 z) = f z) :
    f t.dies[d] = f s.dies[d] := by
  rw [← hf t.dies[d], h d, hf s.dies[d]]

end

theorem setForward_aside (s : State) (line : Nat) (on : Bool) : DiesAside s (setForward s line on) := fun d => by
  unfold setForward
  by_cases h : d = dieOf (line * 256)
  · subst h; rw [modDie_same]; rfl
  · rw [modDie_other _ _ _ _ h]

theorem moveLine_aside (s : State) (line : Nat) : DiesAside s (moveLine s line) := by
  unfold moveLine
  dsimp only
  split
  · exact setForward_aside _ _ _
  · refine .trans (Used.aside (off := offSlices) ?_) (setForward_aside _ _ _)
    exact ((l2Remove_slices _ _ _).trans (l2Remove_slices _ _ _)).trans ((l2Room_slices _ _ _ _ _).trans
      ((modL2_slices _ _ _).trans ((arrivePacket_slices _ _ _).trans (sendPacket_slices _ _ _ _ _))))

theorem countAccess_aside (s : State) (r : Fin 2) (line : Nat) (may : Bool) : DiesAside s (countAccess s r line may) := by
  unfold countAccess
  dsimp only
  split
  · exact .refl s
  · exact .ite (.refl s) (.ite (l2Mod_slices _ _ _ _).aside (.ite (moveLine_aside _ _) (l2Mod_slices _ _ _ _).aside))

theorem l2Shared_slices (s : State) (d : Fin 2) (line : Nat) (repl : Bool) : SlicesUsed s (l2Shared s d line repl) := by
  unfold l2Shared
  split
  · exact l2Mod_slices _ _ _ _
  · exact .refl s

theorem l2Read_aside (s : State) (r : Fin 2) (sec : Nat) (q : Acc) : DiesAside s (l2Read s r sec q).2 := by
  unfold l2Read
  dsimp only
  split
  · exact ((l2Hold_slices _ _ _ _ _).trans (l2Shared_slices _ _ _ _)).aside.trans (countAccess_aside _ _ _ _)
  · split
    · exact (l2Touch_slices _ _ _ _).aside
    · refine .trans ?_ (countAccess_aside _ _ _ _)
      split
      · exact ((crossed_slices _ _ _ _).trans (l2Hold_slices _ _ _ _ _)).aside
      · exact ((crossed_slices _ _ _ _).trans ((l2Hold_slices _ _ _ _ _).trans (l2Hold_slices _ _ _ _ _))).aside

theorem l2Wrote_aside (s : State) (r : Fin 2) (sec : Nat) (q : Acc) (atomic : Bool) : DiesAside s (l2Wrote s r sec q atomic) := by
  unfold l2Wrote
  dsimp only
  refine .trans (.trans ?_ (crossed_slices _ _ _ _).aside)
    (.trans (l2Hold_slices _ _ _ _ _).aside (.trans (noteDue_slices _ _ _).aside (countAccess_aside _ _ _ _)))
  split
  · exact .refl s
  · exact .ite ((crossed_slices _ _ _ _).trans (l2Drop_slices _ _ _)).aside
      (.ite (l2Drop_slices _ _ _).aside (sendPacket_slices _ _ _ _ _).aside)

theorem homeTouch_aside (r : Fin 2) (q : Acc) (atomic : Bool) (fuel : Nat) (s : State) (a n : Nat) :
    DiesAside s (homeTouch s r q atomic fuel a n) := by
  induction fuel generalizing s a n with
  | zero => exact .refl s
  | succ k ih =>
    unfold homeTouch
    dsimp only
    split
    · exact .refl s
    · refine .trans ?_ (ih _ _ _)
      split
      · exact (healSector_home s _).aside.trans (l2Wrote_aside _ _ _ _ _)
      · exact l2Wrote_aside _ _ _ _ _

theorem homeWrite_aside (s : State) (r : Fin 2) (q : Acc) (atomic : Bool) (a n x : Nat) : DiesAside s (homeWrite s r q atomic a n x) :=
  (memory_home s (homeMem s.mem q a n x)).aside.trans (homeTouch_aside _ _ _ _ _ _ _)

theorem recallAt_slices (s : State) (a n : Nat) : SlicesUsed s (recallAt s a n) := .fold (fun s _ => recallLine_slices s _) _ _

theorem writeHome_aside (s : State) (d : Fin 2) (q : Acc) (p : Spot) (atomic : Bool) (a n x : Nat) :
    DiesAside s (writeHome s d q p atomic a n x) := by
  unfold writeHome
  split
  · refine .trans ?_ (homeWrite_aside _ _ _ _ _ _ _)
    exact .ite (recallAt_slices _ _ _).aside (.refl s)
  · exact ((recallAt_slices _ _ _).trans (crossed_slices _ _ _ _)).aside.trans (homeWrite_aside _ _ _ _ _ _ _)

/-! ### L1 -/

theorem l1Put_aside (s : State) (c : Fin 384) (l : L1Line) : DiesAside s (l1Put s c l) := .of_dies rfl

theorem l1Touch_aside (s : State) (c : Fin 384) (line : Nat) (q : Acc) : DiesAside s (l1Touch s c line q) := by
  unfold l1Touch
  dsimp only
  split
  · exact l1Put_aside _ _ _
  · have room : ∀ o : Option L1Line, DiesAside s (match o with
        | none => s
        | some v => modCore (writeBack s (coreDie c) v) c fun x => { x with l1 := x.l1.filter fun y => y.line != v.line }) := fun o => by
      cases o with
      | none => exact .refl s
      | some v => exact (writeBack_home s (coreDie c) v).aside.trans (.of_dies rfl)
    exact .ite (room _) ((room _).trans (l1Put_aside _ _ _))

theorem l1Fill_aside (s : State) (c : Fin 384) (sec : Nat) (q : Acc) : DiesAside s (l1Fill s c sec q) := by
  unfold l1Fill
  dsimp only
  refine (l1Touch_aside s c (sec / 4) q).trans ?_
  split
  · exact .refl _
  · exact .ite (.refl _) ((l2Read_aside _ _ _ _).trans (l1Put_aside _ _ _))

theorem l1Sector_aside (s : State) (c : Fin 384) (q : Acc) (sec : Nat) : DiesAside s (l1Sector s c q sec).2 := by
  unfold l1Sector
  dsimp only
  split
  · exact l2Read_aside _ _ _ _
  · split
    · exact l1Fill_aside _ _ _ _
    · exact (l1Fill_aside _ _ _ _).trans (l2Read_aside _ _ _ _)

theorem l1Read_aside (c : Fin 384) (q : Acc) (fuel : Nat) (s : State) (a n : Nat) : DiesAside s (l1Read s c q fuel a n).2 := by
  induction fuel generalizing s a n with
  | zero => exact .refl s
  | succ k ih =>
    unfold l1Read
    dsimp only
    split
    · exact .refl s
    · exact (l1Sector_aside _ _ _ _).trans (ih _ _ _)

theorem l1Write_aside (c : Fin 384) (q : Acc) (fuel : Nat) (s : State) (a n x : Nat) : DiesAside s (l1Write s c q fuel a n x) := by
  induction fuel generalizing s a n x with
  | zero => exact .refl s
  | succ k ih =>
    unfold l1Write
    dsimp only
    split
    · exact .refl s
    · refine .trans ?_ (ih _ _ _ _)
      split
      · refine .trans (homeWrite_aside s (coreDie c) q false a (inSector a n) x) ?_
        split
        · exact .ite (l1Put_aside _ _ _) (.refl _)
        · exact .refl _
      · refine (l1Fill_aside s c (a / 64) q).trans ?_
        split
        · exact l1Put_aside _ _ _
        · exact homeWrite_aside _ _ _ _ _ _ _

/-! ### Where a spot lies (R29-R31) -/

/-- Where a spot lies in this package does not depend on what the slices hold. -/
theorem localPa_aside {s t : State} (h : DiesAside s t) (core : Fin 384) (p : Spot) : localPa t core p = localPa s core p := by
  have ident : ∀ d : Fin 2, t.dies[d].ident = s.dies[d].ident := fun d => h.field d Die.ident fun _ => rfl
  have windows : ∀ d : Fin 2, t.dies[d].windows = s.dies[d].windows := fun d => h.field d Die.windows fun _ => rfl
  have dstate : ∀ d : Fin 2, t.dies[d].dstate = s.dies[d].dstate := fun d => h.field d Die.dstate fun _ => rfl
  have ports : ∀ d : Fin 2, t.dies[d].ports = s.dies[d].ports := fun d => h.field d Die.ports fun _ => rfl
  have peer : ∀ d pa, peerOf t d pa = peerOf s d pa := fun d pa => by unfold peerOf windowOf; rw [windows]
  have port : ∀ me pr, portTo t me pr = portTo s me pr := fun me pr => by unfold portTo portsOf; dsimp only; rw [ports, dstate]
  have route : ∀ d pa, routeTo t d pa = routeTo s d pa := fun d pa => by
    unfold routeTo; dsimp only; rw [ident, peer, port, dstate]
  unfold localPa localPaOf
  rw [route]

end Sys2Proof.Proofs

/-! SUPPORT. What one lane's atomic does at its home slice and in its core's L1 (R151, R152, R325). -/

namespace Sys2Proof.Proofs

open Sys2Proof Sys2Proof.Machine Sys2Proof.Claims Sys2Proof.Laws

/-! ### What L1 holds -/

theorem find?_cons_filter {l : L1Line} {line : Nat} (xs : List L1Line) :
    (l :: xs.filter fun y => y.line != l.line).find? (fun y => y.line == line) =
      if line = l.line then some l else xs.find? fun y => y.line == line := by
  by_cases h : line = l.line
  · rw [if_pos h, List.find?_cons_of_pos (by simp [h])]
  · rw [if_neg h, List.find?_cons_of_neg (by simpa using Ne.symm h), List.find?_filter]
    congr 1
    funext y
    by_cases hy : y.line = line
    · simp [hy, h]
    · simp [hy]

theorem l1Find_put (s : State) (c : Fin 384) (l : L1Line) (line : Nat) :
    l1Find (l1Put s c l) c line = if line = l.line then some l else l1Find s c line := by
  unfold l1Find l1Put
  rw [modCore_same]
  exact find?_cons_filter _

theorem l1Find_line {s : State} {c : Fin 384} {line : Nat} {l : L1Line} (h : l1Find s c line = some l) : l.line = line := by
  simpa using List.find?_some h

/-- A line that differs from `l` in nothing that its readers see. -/
structure SameLine (l y : L1Line) : Prop where
  line : y.line = l.line
  data : y.data = l.data
  valid : y.valid = l.valid

theorem l1Fill_held {s : State} {c : Fin 384} {sec : Nat} {l : L1Line} (q : Acc) (h : l1Find s c (sec / 4) = some l)
    (hv : l.valid.getLsbD (sec % 4) = true) : ∃ y, l1Fill s c sec q = l1Put s c y ∧ SameLine l y := by
  have touch : ∃ y, l1Touch s c (sec / 4) q = l1Put s c y ∧ SameLine l y := by
    simp only [l1Touch, h]
    exact ⟨_, rfl, rfl, rfl, rfl⟩
  obtain ⟨y, hy, same⟩ := touch
  refine ⟨y, ?_, same⟩
  have found : l1Find (l1Put s c y) c (sec / 4) = some y := by
    rw [l1Find_put, if_pos (by rw [same.line, l1Find_line h])]
  simp only [l1Fill, hy, found, same.valid, hv, if_true]

theorem heldByte_put (s : State) (c : Fin 384) (y : L1Line) (a : Nat) : heldByte (l1Put s c y) c a =
    if a / 256 = y.line then (if y.valid.getLsbD (a / 64 % 4) then some (lineByte y (a % 256)) else none) else heldByte s c a := by
  unfold heldByte
  rw [l1Find_put]
  by_cases h : a / 256 = y.line
  · rw [if_pos h, if_pos h]
  · rw [if_neg h, if_neg h]

theorem heldByte_found {s : State} {c : Fin 384} {l : L1Line} {a : Nat} (h : l1Find s c (a / 256) = some l) :
    heldByte s c a = if l.valid.getLsbD (a / 64 % 4) then some (lineByte l (a % 256)) else none := by
  simp only [heldByte, h]

/-- Putting back a line whose readers see no difference changes no byte held. -/
theorem heldByte_same {s : State} {c : Fin 384} {l y : L1Line} (h : l1Find s c l.line = some l) (same : SameLine l y) (a : Nat) :
    heldByte (l1Put s c y) c a = heldByte s c a := by
  rw [heldByte_put, same.line]
  split
  case isTrue e => rw [heldByte_found (e ▸ h), same.valid, lineByte, lineByte, same.data]
  case isFalse => rfl

/-! ### The bytes of one access -/

/-- An access of `n` bytes at `pa` that crosses no sector. -/
structure InSector (pa n : Nat) : Prop where
  pos : 0 < n
  within : pa % 64 + n ≤ 64

theorem tyBytes_inSector {t : Ty} {pa : Nat} (ht : t ∈ [Ty.i32, .n32, .i64, .n64, .f32]) (ha : pa % tyBytes t = 0) :
    InSector pa (tyBytes t) := by
  simp only [List.mem_cons, List.not_mem_nil, or_false] at ht
  obtain rfl | rfl | rfl | rfl | rfl := ht <;> constructor <;> simp only [tyBytes, tyWidth] at * <;> omega

theorem InSector.whole {pa n : Nat} (h : InSector pa n) : inSector pa n = n := by
  have := h.within
  unfold inSector
  omega

/-- The value that an access of a held sector reads. -/
def heldValue (l : L1Line) (pa n : Nat) : Nat := (l.data.toNat >>> (8 * (pa % 256))) % 2 ^ (8 * n)

/-- Byte `k` of that value is the byte held there. -/
theorem heldValue_byte (l : L1Line) (pa : Nat) {n k : Nat} (hk : k < n) :
    BitVec.ofNat 8 (heldValue l pa n >>> (8 * k)) = lineByte l (pa % 256 + k) := by
  refine BitVec.eq_of_getLsbD_eq fun j hj => ?_
  simp only [heldValue, lineByte, BitVec.getLsbD_ofNat, decide_eq_true hj, Bool.true_and, Nat.testBit_shiftRight, Nat.testBit_mod_two_pow,
    decide_eq_true (by omega : 8 * k + j < 8 * n)]
  congr 1
  omega

theorem sectorField {x pa n : Nat} (h : InSector pa n) :
    ((BitVec.ofNat 512 ((x >>> (8 * (pa / 64 % 4 * 64))) % 2 ^ (8 * 64))).toNat >>> (8 * (pa % 64))) % 2 ^ (8 * n) =
      (x >>> (8 * (pa % 256))) % 2 ^ (8 * n) := by
  have := h.within
  refine Nat.eq_of_testBit_eq fun j => ?_
  simp only [BitVec.toNat_ofNat, Nat.testBit_mod_two_pow, Nat.testBit_shiftRight]
  by_cases hj : j < 8 * n
  · have e : 8 * (pa / 64 % 4 * 64) + (8 * (pa % 64) + j) = 8 * (pa % 256) + j := by omega
    rw [e, decide_eq_true (by omega : 8 * (pa % 64) + j < 512)]
    simp
  · rw [decide_eq_false hj, Bool.false_and, Bool.false_and]

theorem l1Read_held {s : State} {c : Fin 384} {q : Acc} {pa n : Nat} {l : L1Line} (hq : q.hint ≠ 3) (hn : InSector pa n)
    (h : l1Find s c (pa / 64 / 4) = some l) (hv : l.valid.getLsbD (pa / 64 % 4) = true) :
    ∃ y, l1Read s c q (n + 1) pa n = (heldValue l pa n, l1Put s c y) ∧ SameLine l y := by
  obtain ⟨y, hy, same⟩ := l1Fill_held q h hv
  refine ⟨y, ?_, same⟩
  have found : l1Find (l1Put s c y) c (pa / 64 / 4) = some y := by
    rw [l1Find_put, if_pos (by rw [same.line, l1Find_line h])]
  have sector : l1Sector s c q (pa / 64) = (BitVec.ofNat 512 (l1Bytes y (pa / 64 % 4 * 64) 64), l1Put s c y) := by
    simp [l1Sector, hq, hy, found]
  obtain ⟨k, rfl⟩ : ∃ k, n = k + 1 := ⟨n - 1, by have := hn.pos; omega⟩
  rw [l1Read, if_neg (by omega), hn.whole, sector]
  simp only [Nat.sub_self, l1Read, if_pos, Nat.mul_zero, Nat.add_zero, l1Bytes, sectorField hn, heldValue, same.data]

theorem l1Set1_line (l : L1Line) (off n x : Nat) (d : Bool) :
    (l1Set1 l off n x d).line = l.line ∧ (l1Set1 l off n x d).valid = l.valid ∧
    (l1Set1 l off n x d).data = BitVec.ofNat 2048
      (l.data.toNat - ((l.data.toNat >>> (8 * off)) % 2 ^ (8 * n)) * 2 ^ (8 * off) + (x % 2 ^ (8 * n)) * 2 ^ (8 * off)) := by
  unfold l1Set1 L1Line.renew
  dsimp only
  split <;> exact ⟨rfl, rfl, rfl⟩

theorem lineByte_set (l : L1Line) (off n x : Nat) (d : Bool) (k : Nat) (hk : k < 256) :
    lineByte (l1Set1 l off n x d) k = if off ≤ k ∧ k < off + n then BitVec.ofNat 8 (x >>> (8 * (k - off))) else lineByte l k := by
  refine BitVec.eq_of_getLsbD_eq fun j hj => ?_
  have bit := testBit_replaceField l.data.toNat x (8 * off) (8 * n) (8 * k + j)
  simp only [lineByte, (l1Set1_line l off n x d).2.2, Nat.shiftRight_eq_div_pow, BitVec.getLsbD_ofNat, decide_eq_true hj, Bool.true_and,
    Nat.testBit_div_two_pow, BitVec.toNat_ofNat, Nat.testBit_mod_two_pow, decide_eq_true (by omega : j + 8 * k < 2048)]
  rw [Nat.add_comm j, bit]
  by_cases h : off ≤ k ∧ k < off + n
  · rw [if_pos h, if_pos (by omega), BitVec.getLsbD_ofNat, decide_eq_true hj, Bool.true_and, Nat.testBit_div_two_pow]
    congr 1
    omega
  · rw [if_neg h, if_neg (by omega), BitVec.getLsbD_ofNat, decide_eq_true hj, Bool.true_and, Nat.testBit_div_two_pow, Nat.add_comm j]

/-- A write that L1 takes in a held sector: its bytes change, and memory does not. -/
theorem l1Write_held {s : State} {c : Fin 384} {q : Acc} {pa n : Nat} {l : L1Line} (x : Nat) (hq : q.hint ≠ 3) (hn : InSector pa n)
    (h : l1Find s c (pa / 64 / 4) = some l) (hv : l.valid.getLsbD (pa / 64 % 4) = true) :
    (∀ a, heldByte (l1Write s c q (n + 1) pa n x) c a =
      if pa ≤ a ∧ a < pa + n then some (BitVec.ofNat 8 (x >>> (8 * (a - pa)))) else heldByte s c a) ∧
    (l1Write s c q (n + 1) pa n x).mem = s.mem := by
  obtain ⟨y, hy, same⟩ := l1Fill_held q h hv
  have found : l1Find (l1Put s c y) c (pa / 64 / 4) = some y := by
    rw [l1Find_put, if_pos (by rw [same.line, l1Find_line h])]
  have lineAt := l1Find_line h
  have within := hn.within
  obtain ⟨z, wrote, line, valid, byte⟩ : ∃ z : L1Line, l1Write s c q (n + 1) pa n x = l1Put (l1Put s c y) c z ∧ z.line = l.line ∧
      z.valid = l.valid ∧ ∀ k, k < 256 → lineByte z k =
        if pa % 256 ≤ k ∧ k < pa % 256 + n then BitVec.ofNat 8 (x >>> (8 * (k - pa % 256))) else lineByte y k := by
    obtain ⟨setLine, setValid, -⟩ := l1Set1_line y (pa % 256) n x true
    refine ⟨{ l1Set1 y (pa % 256) n x true with owner := q.owner }, ?_, setLine.trans same.line, setValid.trans same.valid,
      lineByte_set y (pa % 256) n x true⟩
    obtain ⟨k, rfl⟩ : ∃ k, n = k + 1 := ⟨n - 1, by have := hn.pos; omega⟩
    rw [l1Write, if_neg (by omega), hn.whole]
    simp only [if_neg hq, hy, found, Nat.sub_self, l1Write, if_pos]
  refine ⟨fun a => ?_, by rw [wrote]; rfl⟩
  have kept : heldByte s c a = heldByte (l1Put s c y) c a := (heldByte_same (by rw [lineAt]; exact h) same a).symm
  rw [wrote, heldByte_put, kept, heldByte_put, line, valid, same.line, same.valid, byte _ (Nat.mod_lt a (by omega))]
  by_cases e : a / 256 = l.line
  · rw [if_pos e, if_pos e]
    by_cases here : pa ≤ a ∧ a < pa + n
    · have inLine : pa % 256 ≤ a % 256 ∧ a % 256 < pa % 256 + n := by omega
      rw [if_pos here, if_pos inLine, show a / 64 = pa / 64 by omega, hv, if_pos rfl, show a % 256 - pa % 256 = a - pa by omega]
    · have outside : ¬ (pa % 256 ≤ a % 256 ∧ a % 256 < pa % 256 + n) := by omega
      rw [if_neg here, if_neg outside]
  · have outside : ¬ (pa ≤ a ∧ a < pa + n) := by omega
    rw [if_neg e, if_neg e, if_neg outside]

/-! ### One lane's atomic (R151, R152, R325) -/

theorem atomResult_eq (op : AtomOp) (t : Ty) (old x y : Nat) : atomNew op t old x y = atomResult op t old x y := by
  cases op <;> rfl

theorem atomArgs_eq (op : AtomOp) (w : Warp) (o : MOp) (l : Fin 32) :
    atomArgs op w o l = (atomOperand w o 0 l, if op = .cas then atomOperand w o 1 l else 0) := by
  simp [atomArgs, atomOperand]

theorem shr_bytes (x k : Nat) : x >>> (8 * k) = x / 256 ^ k := by
  rw [Nat.shiftRight_eq_div_pow, Nat.pow_mul]

/-- A write at home of plain data: its bytes, and no others. -/
theorem writeHome_bytes {s : State} (hm : memoryOk s) (d : Fin 2) (q : Acc) (p : Spot) (atomic : Bool) (a n x b : Nat)
    (hp : p.kind = .package) (hq : q.wide = false) : readByte (writeHome s d q p atomic a n x).mem b =
      if a ≤ b ∧ b < a + n then BitVec.ofNat 8 (x >>> (8 * (b - a))) else readByte s.mem b := by
  have mem : (writeHome s d q p atomic a n x).mem = writeN s.mem a n x := by
    rw [writeHome, if_pos hp, homeWrite_mem, homeMem, hq]
    cases atomic
    · rfl
    · exact congrArg (writeN · a n x) (recall_only s a n).mem
  rw [mem, readByte_writeN _ _ _ _ _ hm, shr_bytes]

theorem writeHome_only (s : State) (d : Fin 2) (q : Acc) (p : Spot) (atomic : Bool) (a n x : Nat) :
    OnlyCaches s (writeHome s d q p atomic a n x) := by
  unfold writeHome
  split
  · refine .trans ?_ (homeWrite_only _ _ _ _ _ _ _)
    split
    · exact (recall_only s a n).toCaches
    · exact .refl s
  · exact ((recall_only s a n).trans (crossed_only _ _ _ _)).toCaches.trans (homeWrite_only _ _ _ _ _ _ _)

theorem atomLane_only (s : State) (c : Iss) (op : AtomOp) (o : MOp) (l : Fin 32) (p : Spot) (pa : Nat) :
    OnlyCaches s (atomLane s c op o l p pa).2 := by
  unfold atomLane
  dsimp only
  split
  · exact (l1Read_only _ _ _ _ _ _).trans (l1Write_only _ _ _ _ _ _ _)
  · exact writeHome_only _ _ _ _ _ _ _ _

theorem atomLane_aside (s : State) (c : Iss) (op : AtomOp) (o : MOp) (l : Fin 32) (p : Spot) (pa : Nat) :
    DiesAside s (atomLane s c op o l p pa).2 := by
  unfold atomLane
  dsimp only
  split
  · exact (l1Read_aside _ _ _ _ _ _).trans (l1Write_aside _ _ _ _ _ _ _)
  · exact writeHome_aside _ _ _ _ _ _ _ _

theorem atomicAtHome : Claims.AtomicAtHome := by
  intro s c op o l p pa hm hk hf hs ht ha n r new
  have home : r = (readN s.mem pa n, writeHome s (coreDie c.w.core) (accOf s c.w.ctx o.h p) p true pa n new) := by
    simp only [r, atomLane, atomArgs_eq, atomInL1, beq_eq_false_iff_ne.mpr hs, Bool.and_false, Bool.false_eq_true, if_false,
      atomResult_eq]
    rfl
  have only : OnlyCaches s r.2 := atomLane_only s c op o l p pa
  refine ⟨by rw [home], fun a => ?_, only.warps, only.ctxs⟩
  rw [home]
  exact writeHome_bytes hm _ _ _ _ _ _ _ _ hk (by simp [accOf, hf])

theorem atomicInL1 : Claims.AtomicInL1 := by
  intro s c op o l p pa hk hf hs hh ht ha hl n r new
  have sector := tyBytes_inSector ht ha
  obtain ⟨y, found, valid⟩ : ∃ y, l1Find s c.w.core (pa / 64 / 4) = some y ∧ y.valid.getLsbD (pa / 64 % 4) = true := by
    unfold l1Holds at hl
    split at hl
    · exact ⟨_, ‹_›, hl⟩
    · cases hl
  obtain ⟨z, read, same⟩ := l1Read_held (q := accOf s c.w.ctx o.h p) hh sector found valid
  have lineAt := l1Find_line found
  have again : l1Find (l1Put s c.w.core z) c.w.core (pa / 64 / 4) = some z := by rw [l1Find_put, if_pos (by rw [same.line, lineAt])]
  have value : r.1 = heldValue y pa n := by simp only [r, n, atomLane, atomInL1, hk, hs, read]; rfl
  have stored : r.2 = l1Write (l1Put s c.w.core z) c.w.core (accOf s c.w.ctx o.h p) (n + 1) pa n new := by
    simp only [new, r, n, atomLane, atomArgs_eq, atomInL1, hk, hs, read, atomResult_eq]; rfl
  have only : OnlyCaches s r.2 := atomLane_only s c op o l p pa
  obtain ⟨bytes, mem⟩ := l1Write_held (q := accOf s c.w.ctx o.h p) new hh sector again (by rw [same.valid]; exact valid)
  have within := sector.within
  refine ⟨?_, fun k hk => ?_, fun a => ?_, (congrArg State.mem stored).trans mem, only.warps, only.ctxs⟩
  · rw [value]
    exact Nat.mod_lt _ (Nat.two_pow_pos _)
  · have hkn : k < tyBytes o.ty := hk
    rw [value, heldByte_found (by rw [show (pa + k) / 256 = pa / 64 / 4 by omega]; exact found), show (pa + k) / 64 = pa / 64 by omega,
      valid, if_pos rfl, heldValue_byte y pa hkn, show (pa + k) % 256 = pa % 256 + k by omega]
  · rw [← heldByte_same (s := s) (by rw [lineAt]; exact found) same a, stored]
    exact bytes a

end Sys2Proof.Proofs

/-! SUPPORT. The atomics of a warp in global memory (R35, R152, R325, R326). -/

namespace Sys2Proof.Proofs

open Sys2Proof Sys2Proof.Machine Sys2Proof.Claims Sys2Proof.Laws

/-! ### The checks of an access -/

theorem stagesOf_pass {fs : List (Spot → Look)} {xs : List Spot} (h : ∀ p ∈ xs, Passes fs p) :
    stagesOf fs (xs.map .ok) = xs.map .ok := by
  induction fs with
  | nil => rfl
  | cons f r ih =>
    have here : (xs.map Look.ok).map (fun x => x.then_ f) = xs.map .ok := by
      rw [List.map_map]
      exact List.map_congr_left fun p hp => h p hp f (.head r)
    have ok : (xs.map Look.ok).all Look.isOk = true := by simp [Look.isOk]
    rw [stagesOf, if_pos ok, here]
    exact ih fun p hp g hg => h p hp g (.tail f hg)

/-- An access every part of which passes its checks goes on with its places. -/
theorem withSpots_clear {s : State} {c : Iss} {parts : Nat} {m : Mask} {look : Fin 32 → Nat → Look} {stages : Fin 32 → List (Spot → Look)}
    {q : Fin 32 → Nat → Spot} (k : List (Fin 32 × Spot) → Effect)
    (h : ∀ l : Fin 32, m.getLsbD l.val = true → ∀ j, j < parts → look l j = .ok (q l j) ∧ Passes (stages l) { q l j with part := j }) :
    withSpots s c parts m.lanes look stages k = k (spotsOf m parts q) := by
  have looks : (m.lanes.flatMap fun l =>
      (stagesOf (stages l) ((List.range parts).map fun j => (look l j).then_ fun p => .ok { p with part := j })).map fun x => (l, x)) =
      (spotsOf m parts q).map fun p => (p.1, Look.ok p.2) := by
    rw [spotsOf, List.map_flatMap]
    refine List.flatMap_congr fun l hl => ?_
    have lane := h l ((mem_lanes m l).mp hl)
    have parted : ((List.range parts).map fun j => (look l j).then_ fun p => .ok { p with part := j }) =
        ((List.range parts).map fun j => { q l j with part := j }).map Look.ok := by
      rw [List.map_map]
      exact List.map_congr_left fun j hj => by rw [(lane j (List.mem_range.mp hj)).1]; rfl
    rw [parted, stagesOf_pass fun p hp => ?_, List.map_map, List.map_map, List.map_map]
    · rfl
    · obtain ⟨j, hj, rfl⟩ := List.mem_map.mp hp
      exact (lane j (List.mem_range.mp hj)).2
  have fine : verdict parts m.lanes look stages = .fine (spotsOf m parts q) := by
    have keep : ((spotsOf m parts q).map fun p => (p.1, Look.ok p.2)).filterMap
        (fun x => match x.2 with | .ok p => some (x.1, p) | _ => none) = spotsOf m parts q := by
      rw [List.filterMap_map]
      exact List.filterMap_some
    simp only [verdict, looks, List.filterMap_map, List.any_map]
    simp [Function.comp_def, lowestOf]
  simp only [withSpots, fine]

/-- The place that `locate` finds names the address and the translation that it was found by. -/
theorem locate_found {s : State} {core : Fin 384} {c : Fin 64} {va : Word} {wr : Bool} {p : Spot} (h : locate s core c va wr = .ok p) :
    p.va = va ∧ ∃ pa, translate s core c va = .ok pa p.e := by
  unfold locate Trans.spot at h
  split at h
  · cases h
  · cases h
  · rename_i pa e found
    have here : p.va = va ∧ p.e = e := by
      unfold spotChecks at h
      dsimp only at h
      split at h
      · cases h
      all_goals split_ifs at h
      all_goals (cases h; exact ⟨rfl, rfl⟩)
    exact ⟨here.1, pa, here.2 ▸ found⟩

theorem setDirty_marked {s : State} {k : Option (Fin 384)} {d : Fin 2} {c : Fin 64} {e : TlbEntry} {pa : Nat} (hd : pteD e.pte = true)
    (ht : pteDte e.pte = false) : setDirty s k d c e pa = some s := by
  rw [setDirty, if_pos hd, markBitmap, if_neg (by simp [ht])]

theorem foldl_fixed_mem {α β : Type} {f : α → β → α} {a : α} {l : List β} (h : ∀ b ∈ l, f a b = a) : l.foldl f a = a := by
  induction l with
  | nil => rfl
  | cons b r ih => rw [List.foldl_cons, h b (.head r)]; exact ih fun x hx => h x (.tail b hx)

/-- A write to pages already marked dirty, where no walk stalls, marks nothing (R65, R134). -/
theorem dirtyAll_marked {s : State} {c : Iss} {ps : List (Fin 32 × Spot)} (k : State → Effect) (hd : AllDirty ps)
    (hw : walkStalled s c.w.ctx = false) (ht : ∀ p ∈ ps, ∃ pa, translate s c.w.core c.w.ctx p.2.va = .ok pa p.2.e) :
    dirtyAll s c ps k = k s := by
  have faults : (ps.filterMap fun p => (markFault s (coreDie c.w.core) c.w.ctx p.2.e p.2.pa).map fun k => (p.1, markFaultAt k p.2)) = [] := by
    refine List.filterMap_eq_nil_iff.mpr fun p hp => ?_
    simp [markFault, (hd p hp).2]
  simp only [dirtyAll, faults, hw, lowestOf]
  rw [foldl_fixed_mem fun p hp => ?_]
  · rfl
  · obtain ⟨pa, found⟩ := ht p hp
    obtain ⟨dirty, plain⟩ := hd p hp
    simp only [found, setDirty_marked dirty plain]
    rfl

/-! ### What is sent over the links (R25-R40) -/

/-- `s` without the bridge and what waits for a link or was sent over it. -/
def offOut (s : State) : State :=
  { s with bridge := Bridge.reset, host := { s.host with held := [] }, hostOut := [], uaOut := [] }

theorem offOut_field {α : Type} {s t : State} (h : offOut t = offOut s) (f : State → α) (hf : ∀ u, f (offOut u) = f u) : f t = f s := by
  rw [← hf t, h, hf s]

theorem toHostFor_out (s : State) (x : HeldMsg) : offOut (toHostFor s x) = offOut s := by
  obtain ⟨b, h⟩ | ⟨b, d, h⟩ | ⟨h, -⟩ := toHostFor_cases s x <;> rw [h] <;> rfl

theorem transmit_out (s : State) (l : LinkOp) : offOut (transmit s l) = offOut s := by
  unfold transmit
  split
  · exact toHostFor_out _ _
  · split
    · dsimp only
      split <;> rfl
    · rfl

/-- What `sendLink` adds to the links, with the tag it gives. -/
def sentLink (s : State) (d : Fin 2) (l : LinkOp) : LinkOp := { l with tag := s.serial, since := s.now, die := d }

theorem sendLink_out (s : State) (d : Fin 2) (l : LinkOp) :
    offOut (sendLink s d l).2 = offOut { s with serial := s.serial + 1, links := s.links ++ [sentLink s d l] } := by
  unfold sendLink
  dsimp only [fresh]
  split
  · rfl
  · exact transmit_out _ _

theorem sendLink_links (s : State) (d : Fin 2) (l : LinkOp) : (sendLink s d l).2.links = s.links ++ [sentLink s d l] :=
  offOut_field (sendLink_out s d l) State.links fun _ => rfl

/-- From `s` to `t` accesses of `ls` were sent: the links hold what they held and, for each, an access that differs from it in its tag, its time, its
die and the result it answers to; memory, the cores, the warps and the contexts stay. -/
structure SentLinks (ls : List LinkOp) (s t : State) : Prop where
  mem : t.mem = s.mem
  cores : t.cores = s.cores
  old : ∀ y ∈ t.links, y ∈ s.links ∨ ∃ l ∈ ls, y.kind = l.kind ∧ y.warp = l.warp ∧ y.op = l.op ∧ y.ty = l.ty ∧ y.lane = l.lane ∧ y.va = l.va
  new : ∀ l ∈ ls, ∃ y ∈ t.links, y.kind = l.kind ∧ y.warp = l.warp ∧ y.lane = l.lane ∧ y.va = l.va
  kept : ∀ y ∈ s.links, y ∈ t.links

theorem sendLinks_sent (d : Fin 2) (id : Option Nat) (ls : List LinkOp) (a : List Nat × State) :
    SentLinks ls a.2 (ls.foldl (fun (a : List Nat × State) l =>
      let (t, s) := sendLink a.2 d { l with result := id }
      (a.1 ++ [t], s)) a).2 := by
  induction ls generalizing a with
  | nil => exact ⟨rfl, rfl, fun y hy => .inl hy, fun l hl => absurd hl List.not_mem_nil, fun y hy => hy⟩
  | cons l r ih =>
    obtain ⟨mem, cores, old, new, kept⟩ := ih ((a.1 ++ [(sendLink a.2 d { l with result := id }).1]), (sendLink a.2 d { l with result := id }).2)
    have out := sendLink_out a.2 d { l with result := id }
    have links := sendLink_links a.2 d { l with result := id }
    refine ⟨mem.trans (offOut_field out State.mem fun _ => rfl), cores.trans (offOut_field out State.cores fun _ => rfl), fun y hy => ?_,
      fun k hk => ?_, fun y hy => kept y (by rw [links]; exact List.mem_append_left _ hy)⟩
    · obtain hy | ⟨k, hk, same⟩ := old y hy
      · rw [links, List.mem_append, List.mem_singleton] at hy
        obtain hy | rfl := hy
        · exact .inl hy
        · exact .inr ⟨l, .head r, rfl, rfl, rfl, rfl, rfl, rfl⟩
      · exact .inr ⟨k, .tail l hk, same⟩
    · obtain rfl | hk := List.mem_cons.mp hk
      · exact ⟨sentLink a.2 d { k with result := id }, kept _ (by rw [links]; exact List.mem_append_right _ (.head _)), rfl, rfl, rfl, rfl⟩
      · exact new k hk

theorem startAtoms_sent (s : State) (c : Iss) (back : Option Result) (far : List LinkOp) : SentLinks far s (startAtoms s c back far) := by
  have sent := fun (a : List Nat × State) (id : Nat) => sendLinks_sent (coreDie c.w.core) (some id) far a
  cases back with
  | none =>
    obtain ⟨mem, cores, old, new, kept⟩ := sent ([], addResult s { result0 c .link with vw := [(0, always 32 0), (0, always 32 0)] }) s.serial
    exact ⟨mem, cores, old, new, kept⟩
  | some r =>
    obtain ⟨mem, cores, old, new, kept⟩ := sent ([], s) r.id
    exact ⟨mem, cores, old, new, kept⟩

/-! ### The lanes performed here -/

/-- One lane of `atomLanes`. -/
def atomStep (c : Iss) (op : AtomOp) (o : MOp) (a : List (Fin 32 × Word) × State) (x : Fin 32 × Spot) : List (Fin 32 × Word) × State :=
  match localPa a.2 c.w.core x.2 with
  | some pa => (a.1 ++ [(x.1, BitVec.ofNat 64 (atomLane a.2 c op o x.1 x.2 pa).1)], (atomLane a.2 c op o x.1 x.2 pa).2)
  | none => a

theorem atomLanes_eq (s : State) (c : Iss) (op : AtomOp) (o : MOp) (ps : List (Fin 32 × Spot)) :
    atomLanes s c op o ps = ps.foldl (atomStep c op o) ([], s) := rfl

theorem atomStep_only (c : Iss) (op : AtomOp) (o : MOp) (a : List (Fin 32 × Word) × State) (x : Fin 32 × Spot) :
    OnlyCaches a.2 (atomStep c op o a x).2 ∧ DiesAside a.2 (atomStep c op o a x).2 := by
  unfold atomStep
  split
  · exact ⟨atomLane_only _ _ _ _ _ _ _, atomLane_aside _ _ _ _ _ _ _⟩
  · exact ⟨.refl _, .refl _⟩

theorem atomSteps_only (c : Iss) (op : AtomOp) (o : MOp) (ps : List (Fin 32 × Spot)) (a : List (Fin 32 × Word) × State) :
    OnlyCaches a.2 (ps.foldl (atomStep c op o) a).2 := by
  induction ps generalizing a with
  | nil => exact .refl _
  | cons p r ih => exact (atomStep_only c op o a p).1.trans (ih _)

/-- One lane of a `red`. -/
def redStep (c : Iss) (op : AtomOp) (o : MOp) (s : State) (p : Fin 32 × Spot) : State :=
  match localPa s c.w.core p.2 with
  | some pa => (atomLane s c op o p.1 p.2 pa).2
  | none => (sendLink s (coreDie c.w.core) (atomLink c op o p.1 p.2)).2

/-- `red` performs its lanes as `atom` does, and keeps no old value. -/
theorem redSteps_eq (c : Iss) (op : AtomOp) (o : MOp) (ps : List (Fin 32 × Spot)) (a : List (Fin 32 × Word) × State)
    (h : AllLocal a.2 c.w ps) : ps.foldl (redStep c op o) a.2 = (ps.foldl (atomStep c op o) a).2 := by
  induction ps generalizing a with
  | nil => rfl
  | cons p r ih =>
    obtain ⟨pa, found⟩ := Option.isSome_iff_exists.mp (h p (.head r))
    have next := ih (atomStep c op o a p) fun x hx => by
      rw [localPa_aside (atomStep_only c op o a p).2]
      exact h x (.tail p hx)
    rw [List.foldl_cons, List.foldl_cons, ← next]
    simp only [atomStep, redStep, found]

/-! ### The old values (R325) -/

theorem laneVals_append (xs ys : List (Fin 32 × Word)) (l : Fin 32) : laneVals (xs ++ ys) l = laneVals xs l ++ laneVals ys l := by
  simp [laneVals]

theorem laneVals_map (f : Word → Word) (xs : List (Fin 32 × Word)) (l : Fin 32) :
    laneVals (xs.map fun v => (v.1, f v.2)) l = (laneVals xs l).map f := by
  simp [laneVals, List.filter_map, Function.comp_def]

/-- What the links brought of a lane. -/
theorem laneVals_back (c : Iss) (b : Option Result) (l : Fin 32) : laneVals (backLanes c b) l =
    match b with
    | some r => if c.act.getLsbD l.val = true ∧ resultPart r 1 l ≠ 0 then [resultPart r 0 l] else []
    | none => [] := by
  cases b with
  | none => rfl
  | some r =>
    have nodup : (c.act.lanes.filter fun l => resultPart r 1 l != 0).Nodup := ((List.nodup_finRange 32).filter _).filter _
    have one : laneVals (backLanes c (some r)) l =
        ((c.act.lanes.filter fun l => resultPart r 1 l != 0).filter (· == l)).map fun l => resultPart r 0 l := by
      simp [laneVals, backLanes, List.filter_map, Function.comp_def]
    rw [one, List.filter_beq]
    dsimp only
    split
    case isTrue h => rw [List.count_eq_one_of_mem nodup (by simpa [mem_lanes] using h)]; rfl
    case isFalse h => rw [List.count_eq_zero_of_not_mem (by simpa [mem_lanes] using h)]; rfl

theorem mem_backLanes (c : Iss) (b : Option Result) (l : Fin 32) : ((backLanes c b).any fun x => x.1 == l) = true ↔
    c.act.getLsbD l.val = true ∧ ∃ r, b = some r ∧ resultPart r 1 l ≠ 0 := by
  cases b with
  | none => simp [backLanes]
  | some r => simp [backLanes, mem_lanes]

theorem extendElem_eq {t : Ty} (h : t ≠ .i4) : extendElem t = extended t := by
  funext x
  cases t
  case i4 => exact absurd rfl h
  all_goals rfl

theorem extended_zero (t : Ty) : extended t 0 = 0 := by cases t <;> rfl

theorem atomLegal_type {op : AtomOp} {o : MOp} {b : Bool} (h : atomLegal op o b = true) : o.ty ≠ .i4 := by
  intro e
  simp [atomLegal, e, setAtom] at h

theorem getD_map_zero {f : Word → Word} (h : f 0 = 0) (xs : List Word) : (xs.map f).getD 0 0 = f (xs.getD 0 0) := by
  cases xs with
  | nil => exact h.symm
  | cons x r => rfl

/-- What `atom` sends to its register. -/
theorem sendRegs_sent (s : State) (c : Iss) (d : Fin 256) (f : Word → Word) (hf : f 0 = 0) (vs : List (Fin 32 × Word)) :
    LoadSent (sendRegs s c [d] (vs.map fun v => (v.1, f v.2))) s c [d] (fun l _ => f ((laneVals vs l).getD 0 0)) := by
  refine ⟨_, rfl, rfl, rfl, rfl, rfl, rfl, rfl, fun j p hp l _ => ?_, fun y hy e he => ?_⟩
  · obtain ⟨rfl, rfl⟩ : j = 0 ∧ p = (d, tabulate 32 fun l => (laneVals (vs.map fun v => (v.1, f v.2)) l).getD 0 0) := by
      cases j with
      | zero => exact ⟨rfl, (Option.some.inj hp).symm⟩
      | succ j => cases hp
    exact (tabulate_get 32 _ l).trans (by rw [laneVals_map, getD_map_zero hf])
  · obtain ⟨x, -, rfl⟩ := Option.map_eq_some_iff.mp ((findWarp_modWarp _ _ (pendV · d) fun _ => rfl).symm.trans hy)
    rw [List.mem_singleton.mp he]
    rw [pendV, BitVec.getLsbD_or, BitVec.getLsbD_ofNat, decide_eq_true d.isLt, Nat.testBit_two_pow_self, Bool.true_and, Bool.or_true]

/-! ### `atom` and `red` (R325, R326) -/

section

variable {op : AtomOp} {o : MOp} {s : State} {w : Warp} {sp : Fin 8} {x : Split} {q : Fin 32 → Nat → Spot}

theorem linkedOf_none (h : NoLinkResult s w sp) {i : Instr} : linkedOf (counted s w sp) (issOf i w sp x) = .none := by
  have none : linkResultOf (counted s w sp) (issOf i w sp x) = Option.none :=
    List.find?_eq_none.mpr fun r hr k => h r hr (by simpa [and_assoc, issOf] using k)
  simp only [linkedOf, none]

theorem issues_wellFormed {i : Instr} (h : Issues i s w sp x) : wellFormed i = true := by
  by_contra bad
  have word := h.words
  unfold wordFault at word
  rw [Bool.not_eq_true] at bad
  simp only [bad, Bool.not_false, Bool.true_or, if_true] at word
  split at word <;> cases word

theorem spots_found {t : State} {m : Mask} (h : ∀ l : Fin 32, m.getLsbD l.val = true → storeLook t w o l 0 = .ok (q l 0)) :
    ∀ p ∈ spotsOf m 1 q, ∃ pa, translate t w.core w.ctx p.2.va = .ok pa p.2.e := by
  intro p hp
  obtain ⟨l, hl, hp⟩ := List.mem_flatMap.mp hp
  obtain ⟨j, hj, rfl⟩ := List.mem_map.mp hp
  obtain rfl : j = 0 := by simpa using hj
  obtain ⟨va, pa, found⟩ := locate_found (h l ((mem_lanes m l).mp hl))
  exact ⟨pa, va ▸ found⟩

/-- `atom` once the links have answered, or had nothing to do: the lanes left pass their checks, and go on to be performed. -/
theorem atomRest_clear {t : State} {c : Iss} {b : Option Result} {rest : Mask}
    (hr : ∀ l : Fin 32, rest.getLsbD l.val = true ↔ c.act.getLsbD l.val = true ∧ ¬ ∃ r, b = some r ∧ resultPart r 1 l ≠ 0)
    (hl : ∀ l : Fin 32, rest.getLsbD l.val = true → storeLook t c.w o l 0 = .ok (q l 0) ∧ Passes (atomStages t c.w o l) { q l 0 with part := 0 })
    (hd : AllDirty (spotsOf rest 1 q)) (hw : walkStalled t c.w.ctx = false) :
    atomRest op o t c b =
      let far := ((spotsOf rest 1 q).filter fun p => isFar t c p.2).map fun p => atomLink c op o p.1 p.2
      if far.isEmpty then
        sendOld (dropLinkResult (atomLanes t c op o (spotsOf rest 1 q)).2 c) c o (backLanes c b ++ (atomLanes t c op o (spotsOf rest 1 q)).1)
      else .wait (startAtoms t c b far) := by
  have lanes : (c.act.lanes.filter fun l => !((backLanes c b).any fun x => x.1 == l)) = rest.lanes := by
    simp only [Mask.lanes, List.filter_filter]
    refine List.filter_congr fun l _ => ?_
    rw [Bool.eq_iff_iff, Bool.and_eq_true, Bool.not_eq_true', ← Bool.not_eq_true, mem_backLanes]
    rw [hr l, and_comm]
    exact and_congr_right fun ha => not_congr (and_iff_right ha)
  unfold atomRest
  dsimp only
  rw [lanes, withSpots_clear _ fun l h j hj => ?_, dirtyAll_marked _ hd hw (spots_found fun l h => (hl l h).1)]
  obtain rfl : j = 0 := by omega
  exact hl l h

theorem isFar_iff (t : State) (c : Iss) (p : Spot) : isFar t c p = true ↔ localPa t c.w.core p = none := by
  simp [isFar]

/-- The lanes of an atomic are performed here, and the old values sent (R325). -/
theorem atom_here {c : Iss} {b : Option Result} {rest : Mask}
    (hr : ∀ l : Fin 32, rest.getLsbD l.val = true ↔ c.act.getLsbD l.val = true ∧ ¬ ∃ r, b = some r ∧ resultPart r 1 l ≠ 0)
    (ht : o.ty ≠ .i4) (v : List (Fin 32 × Word) × State) :
    ∃ u, sendOld (dropLinkResult v.2 c) c o (backLanes c b ++ v.1) = .next u ∧ u.mem = v.2.mem ∧ u.ctxs = v.2.ctxs ∧
      ∃ val : Fin 32 → Word, LoadSent u (dropLinkResult v.2 c) c [o.data] (fun l _ => extended o.ty (val l).toNat) ∧
        (∀ l : Fin 32, rest.getLsbD l.val = true → val l = (laneVals v.1 l).getD 0 0) ∧
        ∀ r (l : Fin 32), b = some r → c.act.getLsbD l.val = true → (∃ r, b = some r ∧ resultPart r 1 l ≠ 0) → val l = resultPart r 0 l := by
  refine ⟨_, rfl, rfl, rfl, fun l => (laneVals (backLanes c b ++ v.1) l).getD 0 0, ?_, fun l hl => ?_, fun r l hb ha hk => ?_⟩
  · rw [extendElem_eq ht]
    exact sendRegs_sent _ c o.data (fun y => extended o.ty y.toNat) (extended_zero _) _
  · obtain ⟨-, no⟩ := (hr l).mp hl
    dsimp only
    rw [laneVals_append, laneVals_back]
    cases b with
    | none => rfl
    | some r => exact congrArg (fun xs => (xs ++ laneVals v.1 l).getD 0 0) (if_neg fun k => no ⟨r, rfl, k.2⟩)
  · subst hb
    obtain ⟨y, e, k⟩ := hk
    cases e
    dsimp only
    rw [laneVals_append, laneVals_back]
    dsimp only
    rw [if_pos ⟨ha, k⟩]
    rfl

/-- What an `atom` does that no link has failed and no link is waited for. -/
theorem atom_goes (h : Issues (.atom op o) s w sp x) (ha : activeOf (.atom op o) w x ≠ 0) {b : Option Result}
    (hb : (b = none ∧ NoLinkResult s w sp) ∨ ∃ r, b = some r ∧ linkedOf (counted s w sp) (issOf (.atom op o) w sp x) = .got r) :
    EndsAs (.atom op o) s w sp x (atomRest op o (counted s w sp) (issOf (.atom op o) w sp x) b) := by
  refine issue_endsAs h (show exec (.atom op o) s = execAtom op o s from rfl) ((if_neg ha).trans ?_)
  obtain ⟨rfl, none⟩ | ⟨r, rfl, got⟩ := hb
  · rw [linkedOf_none none]
  · rw [got]

theorem reds (h : Issues (.red op o) s w sp x) :
    let t := counted s w sp
    let c := issOf (.red op o) w sp x
    (activeOf (.red op o) w x = 0 → RunsTo (.red op o) s w sp x t) ∧
    (activeOf (.red op o) w x ≠ 0 → Clear (.red op o) w x 1 (storeLook t w o) (atomStages t w o) q → AllDirty (spotsOf c.act 1 q) →
      walkStalled t w.ctx = false → AllLocal t w (spotsOf c.act 1 q) →
      ∃ u, RunsTo (.red op o) s w sp x u ∧ u.warps = t.warps ∧ u.ctxs = s.ctxs ∧
        u.mem = (atomLanes t c op o (spotsOf c.act 1 q)).2.mem) := by
  intro t c
  have he : exec (.red op o) s = execRed op o s := rfl
  refine ⟨fun ha => issue_endsAs (e := .next t) h he (if_pos ha), fun ha hc hd hw hl => ?_⟩
  have effect : (withSpots t c 1 c.act.lanes (storeLook t c.w o) (atomStages t c.w o) fun ps =>
      dirtyAll t c ps fun s => .next (ps.foldl (redStep c op o) s)) = .next (atomLanes t c op o (spotsOf c.act 1 q)).2 := by
    have clear := withSpots_clear (s := t) (c := c) (m := c.act) (look := storeLook t c.w o) (stages := atomStages t c.w o)
      (fun ps => dirtyAll t c ps fun s => .next (ps.foldl (redStep c op o) s)) fun l hl => hc l hl
    have found := spots_found (t := t) (w := w) (o := o) (m := c.act) fun l hl => (hc l hl 0 Nat.one_pos).1
    rw [clear, dirtyAll_marked (c := c) _ hd hw found]
    exact congrArg Effect.next (redSteps_eq c op o _ ([], t) hl)
  have only : OnlyCaches t (atomLanes t c op o (spotsOf c.act 1 q)).2 := atomSteps_only c op o _ ([], t)
  exact ⟨_, issue_endsAs h he ((if_neg ha).trans effect), only.warps, only.ctxs, rfl⟩

end

theorem vectorAtomics : Claims.VectorAtomics := by
  intro op o s w sp x q t
  refine ⟨?_, fun h => reds h⟩
  intro h i c
  have he : exec i s = execAtom op o s := rfl
  refine ⟨fun ha => issue_endsAs (e := .next t) h he (if_pos ha), fun ha => ⟨fun f hf => ?_, fun hf => ?_, fun b hb => ?_⟩⟩
  · exact issue_endsAs (e := .fault _) h he ((if_neg ha).trans (by rw [hf]))
  · exact issue_endsAs (e := .wait t) h he ((if_neg ha).trans (by rw [hf]))
  intro back rest hr hl ps hd hw
  have goes := atom_goes h ha hb
  rw [atomRest_clear (c := c) hr hl hd hw] at goes
  dsimp only at goes
  refine ⟨?_, fun ⟨p, hp, gone⟩ => ?_⟩
  · intro here v
    have near : (ps.filter fun p => isFar t c p.2) = [] := List.filter_eq_nil_iff.mpr fun p hp k => by
      have some : (localPa t c.w.core p.2).isSome = true := here p hp
      rw [(isFar_iff t c p.2).mp k] at some
      cases some
    obtain ⟨u, sent, mem, ctxs, vals⟩ := atom_here (c := c) hr (atomLegal_type (issues_wellFormed h)) v
    rw [near, List.map_nil, if_pos List.isEmpty_nil, sent] at goes
    exact ⟨u, goes, mem, ctxs, vals⟩
  · have far : p ∈ ps.filter fun p => isFar t c p.2 := List.mem_filter.mpr ⟨hp, (isFar_iff t c p.2).mpr gone⟩
    rw [if_neg (by simpa using ⟨_, _, hp, (isFar_iff t c p.2).mpr gone⟩)] at goes
    obtain ⟨mem, cores, old, new, -⟩ := startAtoms_sent t c b ((ps.filter fun p => isFar t c p.2).map fun p => atomLink c op o p.1 p.2)
    refine ⟨_, goes, mem, cores, fun y hy => ?_, fun z hz lost => ?_⟩
    · refine (old y hy).imp_right fun ⟨l, hl, kind, warp, op', ty, lane, va⟩ => ?_
      obtain ⟨z, hz, rfl⟩ := List.mem_map.mp hl
      obtain ⟨hz, lost⟩ := List.mem_filter.mp hz
      exact ⟨kind, warp, op', ty, z, hz, (isFar_iff t c z.2).mp lost, lane, va⟩
    · exact new (atomLink c op o z.1 z.2) (List.mem_map.mpr ⟨z, List.mem_filter.mpr ⟨hz, (isFar_iff t c z.2).mpr lost⟩, rfl⟩)

/-- Settles O42: the lanes here one after the other, those over links first, and what one lane does at home and in L1. -/
theorem globalAtomics : Obligations.GlobalAtomics := ⟨vectorAtomics, atomicAtHome, atomicInL1⟩

end Sys2Proof.Proofs

/-! SUPPORT. The refutation of the statement about safe points and ends (R60, R96, R376): a halt in a state in which two warps have one
number. -/

namespace Sys2Proof.Proofs

open Sys2Proof Sys2Proof.Machine Sys2Proof.Claims Sys2Proof.Laws

/-! ### A halt that loses its own warp

A `halt` completes the carves of its context whose conditions hold. Here the one carve makes core 0 give up a dirty line of the context whose home die is
die-offline, so that the context ends and its job warp is gone. `findWarp` then finds what else has the warp's number: a warp of another context,
which nobody asked to halt. -/

/-- The job warp that halts, and its split. -/
def haltedJob : Warp := newWarp 7 0 0 0 .job 0 256 (BitVec.allOnes 32) 0 0x10000#64
def haltedSplit : Split := firstSplit 0 0x10000#64 (BitVec.allOnes 32)

/-- A dirty line of context 0 in memory of die 1, which is die-offline. -/
def lostLine : L1Line :=
  { line := 2 ^ 32, scope := .die, data := 0, valid := 15, dirty := 1, hint := 0, used := 0, owner := some 0, poison := 0, renewed := 0 }

/-- Context 0 runs, with that line on core 0, a carve of the core that is ready, and its job warp at issue; a warp of context 1 has the
job warp's number. -/
def twoOfOneNumber : State :=
  let s := modCtx State.reset 0 fun x => { x with st := .running }
  let s := modDie s 0 fun d => { d with dstate := .online }
  let s := modCore s 0 fun k => { k with l1 := [lostLine] }
  { s with
    warps := [haltedJob, { haltedJob with ctx := 1 }], turn := some (.issue 7 0)
    carves := [{ ctx := 0, handle := 0, core := 0, ppw := 0 }] }

theorem twoOfOneNumber_issues : Issues .halt twoOfOneNumber haltedJob 0 haltedSplit where
  turn := rfl
  warp := rfl
  split := rfl
  words := by decide +kernel
  ready := by decide +kernel

/-- After the halt the warp that has the number is not halting. -/
theorem twoOfOneNumber_halted :
    (findWarp (startHalt (counted twoOfOneNumber haltedJob 0) 0) 7).map (·.halting) = some false := by decide +kernel

/-- Refutes O52: with two warps of one number, a `halt` whose carve ends the context leaves the number to a warp that does not halt. -/
theorem not_endsOfWork : ¬ Obligations.EndsOfWork := by
  intro h
  obtain ⟨safePoints, -⟩ := h
  obtain ⟨-, halts⟩ := safePoints 0 twoOfOneNumber haltedJob 0 haltedSplit
  obtain ⟨-, asked⟩ := halts twoOfOneNumber_issues (by decide +kernel)
  obtain ⟨y, found, calm⟩ := Option.map_eq_some_iff.mp twoOfOneNumber_halted
  exact Bool.false_ne_true (calm.symm.trans (asked y found))

end Sys2Proof.Proofs

/-! SUPPORT. The forms of the work group that go to the home Drover (R85, R362, R364-R366). -/

namespace Sys2Proof.Proofs

open Sys2Proof Sys2Proof.Machine Sys2Proof.Claims Sys2Proof.Laws

/-! ### The home Drover (R26, R27, R85) -/

/-- What becomes of an effect at the home Drover: where it goes on, the message has been sent. -/
def sentBack (s : State) (w : Warp) : Effect → Effect
  | .next u => .next (toDrover s w u)
  | .moved u => .moved (toDrover s w u)
  | e => e

/-- A form that the home Drover serves does there what it does. -/
theorem atDrover_free {s t : State} {w : Warp} {sp : Fin 8} {x : Split} {i : Instr} (k : State → Effect) (hx : DroverFree t w)
    (hd : homeDie t w.ctx = homeDie s w.ctx) : atDrover t (issOf i w sp x) k = sentBack s w (k t) := by
  have free : crossing t (coreDie w.core) (homeDie t w.ctx) = .free := hx
  simp only [atDrover, issOf, free]
  cases k t <;> simp only [sentBack, toDrover, ← hd]
  all_goals rfl

/-- What `exec` makes of a form that only goes to the home Drover, once for its warp. -/
def OfDrover (i : Instr) (k : State → Iss → Effect) : Prop := ∀ s, exec i s = issueWarp i (fun s c => atDrover s c fun t => k t c) s

section

variable {i : Instr} {k : State → Iss → Effect} {s : State} {w : Warp} {sp : Fin 8} {x : Split}

theorem ofDrover_idle (he : OfDrover i k) (h : Issues i s w sp x) (ha : activeOf i w x = 0) : RunsTo i s w sp x (counted s w sp) :=
  issueWarp_idles h (he s) ha

theorem ofDrover_ends {e : Effect} (he : OfDrover i k) (h : Issues i s w sp x) (ha : activeOf i w x ≠ 0) (hx : DroverFree s w)
    (hk : k (counted s w sp) (issOf i w sp x) = e) : EndsAs i s w sp x (sentBack s w e) :=
  issueWarp_endsAs h (he s) ha ((atDrover_free (s := s) (t := counted s w sp) _ hx rfl).trans (congrArg _ hk))

theorem ofDrover_crossing (he : OfDrover i k) (h : Issues i s w sp x) (ha : activeOf i w x ≠ 0) :
    (crossing s (coreDie w.core) (homeDie s w.ctx) = .stalled → Waits i s w sp x (counted s w sp)) ∧
    (crossing s (coreDie w.core) (homeDie s w.ctx) = .down → Faults i s w sp x (faultOf 0x14)) :=
  ⟨fun hx => issueWarp_endsAs (e := .wait (counted s w sp)) h (he s) ha (by
      have stalled : crossing (counted s w sp) (coreDie w.core) (homeDie (counted s w sp) w.ctx) = .stalled := hx
      simp only [atDrover, issOf, stalled]),
    fun hx => issueWarp_endsAs (e := .fault _) h (he s) ha (by
      have down : crossing (counted s w sp) (coreDie w.core) (homeDie (counted s w sp) w.ctx) = .down := hx
      simp only [atDrover, issOf, down])⟩

end

/-! ### What each of the forms does there -/

/-- `evclr` (R364). -/
def clearEvents (o : EvOp) (s : State) (c : Iss) : Effect :=
  .next (examine (modCtx s c.w.ctx fun x => { x with ev := x.ev &&& ~~~evMask c.w o }) c.w.ctx)

/-- `evwait` (R364). -/
def awaitEvents (o : EvOp) (s : State) (c : Iss) : Effect :=
  let m := c.split.ewait.getD (evMask c.w o)
  let x := s.ctxs[c.w.ctx]
  let note := fun (k : BitVec 256) => modWarp s c.w.id fun w => modSplit w c.sp fun y => { y with ewait := some k }
  if x.ev &&& m = m then (acquireAt (note 0) c.w (widest x)).andThen .next else .rest (note m)

/-- `cancel.launch` (R365). -/
def cancelNamed (sa : Fin 128) (s : State) (c : Iss) : Effect :=
  withLaunch s c ((sreg c.w sa).setWidth 32) (.next s) fun l => .next (cancelWhere s c.w.ctx fun y => y.id == l.id)

theorem evclr_ofDrover (o : EvOp) : OfDrover (.evclr o) (clearEvents o) := fun _ => rfl
theorem evwait_ofDrover (o : EvOp) : OfDrover (.evwait o) (awaitEvents o) := fun _ => rfl
theorem cancelLaunch_ofDrover (g : Guard) (sa : Fin 128) : OfDrover (.cancelLaunch g sa) (cancelNamed sa) := fun _ => rfl
theorem cancelGraph_ofDrover (g : Guard) (sa : Fin 128) :
    OfDrover (.cancelGraph g sa) fun s c => .next (cancelWhere s c.w.ctx fun l => l.r.graph == bitsOf (sreg c.w sa) 0 16) := fun _ => rfl
theorem cancelPhase_ofDrover (g : Guard) (sa : Fin 128) :
    OfDrover (.cancelPhase g sa) fun s c => .next (cancelWhere s c.w.ctx fun l => l.r.phase == bitsOf (sreg c.w sa) 0 16) := fun _ => rfl
theorem cancelJob_ofDrover (o : CancelOp) : OfDrover (.cancelJob o) fun s c => .moved (cancelWholeJob s c.w.ctx 1) := fun _ => rfl

/-- What `cntrd` reads (R366). -/
def readCounters (sel : CntSel) (o : EvOp) (s : State) (c : Iss) : Effect :=
  let x := s.ctxs[c.w.ctx]
  let a := sreg c.w o.sa
  let put := fun (v : Word) => Effect.next (modWarp s c.w.id fun w => setS w o.sd v)
  let num := fun (n : Nat) => put (BitVec.ofNat 64 n)
  let on := fun (null : Nat) (f : Launch → Word) => withLaunch s c (a.setWidth 32) (num null) fun l => put (f l)
  match sel with
  | .lcount => on 0 fun l => BitVec.ofNat 64 (launchCounter l)
  | .lstatus => on 0x300 fun l => BitVec.ofNat 64 (lstateCode l.st * 256 + l.status)
  | .graph => num (liveCount x fun l => l.r.graph == bitsOf a 0 16)
  | .phase => num (liveCount x fun l => l.r.phase == bitsOf a 0 16)
  | .job => num (liveCount x (fun _ => true) + (if s.warps.any fun w => w.ctx == c.w.ctx && isJob w then 1 else 0))
  | .abort => num (if x.abort then 1 else 0)
  | .cph => num x.cph
  | .ev => num ((x.ev.toNat >>> (64 * bitsOf a 0 2)) % 2 ^ 64)
  | .unit => on 0 fun l => unitValue s c.w.ctx l (sreg c.w o.sb).toNat
  | .warp => on 0 fun l => warpValue s c.w.ctx l (sreg c.w o.sb).toNat (bitsOf (sreg c.w o.sc) 0 8)

theorem cntrd_ofDrover (sel : CntSel) (o : EvOp) : OfDrover (.cntrd sel o) (readCounters sel o) := fun _ => by cases sel <;> rfl

theorem homeDrover : Claims.HomeDrover := by
  rintro i s w sp x (⟨o, rfl | rfl⟩ | ⟨g, sa, rfl | rfl | rfl⟩ | ⟨o, rfl⟩ | ⟨sel, o, rfl⟩) h ha
  · exact ofDrover_crossing (evclr_ofDrover o) h ha
  · exact ofDrover_crossing (evwait_ofDrover o) h ha
  · exact ofDrover_crossing (cancelLaunch_ofDrover g sa) h ha
  · exact ofDrover_crossing (cancelGraph_ofDrover g sa) h ha
  · exact ofDrover_crossing (cancelPhase_ofDrover g sa) h ha
  · exact ofDrover_crossing (cancelJob_ofDrover o) h ha
  · exact ofDrover_crossing (cntrd_ofDrover sel o) h ha

/-! ### Events (R364) -/

theorem evMask_eq {w : Warp} {o : EvOp} {m : BitVec 256} (h : ∀ e, e < 256 → m.getLsbD e = maskBit w o e) : evMask w o = m := by
  refine BitVec.eq_of_getLsbD_eq fun e he => ?_
  let regs := [(sreg w o.sa).toNat, (sreg w o.sb).toNat, (sreg w o.sc).toNat, (sreg w o.sd).toNat]
  have bit : (joinSubs 64 regs).testBit e = (joinSubs 64 regs / 2 ^ (e / 64 * 64) % 2 ^ 64).testBit (e % 64) := by
    rw [Nat.testBit_mod_two_pow, decide_eq_true (Nat.mod_lt e (by decide)), Bool.true_and, Nat.testBit_div_two_pow]
    congr 1
    omega
  rw [h e he, evMask, BitVec.getLsbD_ofNat, decide_eq_true he, Bool.true_and, bit, joinSubs_get 64 regs (e / 64) (by simp [regs]; omega),
    Nat.testBit_mod_two_pow, decide_eq_true (Nat.mod_lt e (by decide)), Bool.true_and, maskBit]
  obtain h0 | h0 | h0 | h0 : e / 64 = 0 ∨ e / 64 = 1 ∨ e / 64 = 2 ∨ e / 64 = 3 := by omega
  all_goals simp [h0, regs, BitVec.getLsbD]

theorem and_eq_self_iff (a m : BitVec 256) : a &&& m = m ↔ ∀ e, e < 256 → m.getLsbD e = true → a.getLsbD e = true := by
  constructor
  · intro h e _ hm
    rw [← h, BitVec.getLsbD_and, Bool.and_eq_true] at hm
    exact hm.1
  · intro h
    refine BitVec.eq_of_getLsbD_eq fun e he => ?_
    rw [BitVec.getLsbD_and]
    cases hm : m.getLsbD e with
    | false => rw [Bool.and_false]
    | true => rw [h e he hm, Bool.and_true]

/-- A change of every warp that keeps their numbers finds the changed warp where it found the warp. -/
theorem findWarp_map (s : State) (f : Warp → Warp) (hf : ∀ x, (f x).id = x.id) (w : Nat) :
    findWarp { s with warps := s.warps.map f } w = (findWarp s w).map f := by
  simp only [findWarp, List.find?_map, Function.comp_def, hf]

theorem raiseEvents_raises (s : State) (c : Fin 64) (m : BitVec 256) :
    (raiseEvents s c m).ctxs[c].ev = s.ctxs[c].ev ||| m ∧ (raiseEvents s c m).mem = s.mem ∧
    (raiseEvents s c m).units = s.units ∧ ∀ w x k (n : Fin 8), findWarp s w = some x → x.ctx = c → onDispatch x = true →
      ∀ z, x.splits[n] = some z → z.ewait = some k → ∃ y z', findWarp (raiseEvents s c m) w = some y ∧ y.splits[n] = some z' ∧
        z'.ewait = some (if (s.ctxs[c].ev ||| m) &&& k = k then 0 else k) ∧ z'.pc = z.pc ∧ z'.mask = z.mask := by
  refine ⟨congrArg Ctx.ev (modCtx_same s c fun x => { x with ev := s.ctxs[c].ev ||| m }), rfl, rfl, fun w x k n hw hc hd z hz hk => ?_⟩
  let latch := fun (y : Warp) => if y.ctx == c && onDispatch y then
    { y with splits := tabulate 8 fun k => y.splits[k].map (Split.latch (s.ctxs[c].ev ||| m)) } else y
  have found : findWarp (raiseEvents s c m) w = some (latch x) := by
    refine (findWarp_map (modCtx s c fun x => { x with ev := s.ctxs[c].ev ||| m }) latch (fun y => ?_) w).trans ?_
    · show (if _ then _ else _ : Warp).id = _
      split <;> rfl
    · exact congrArg (Option.map latch) hw
  have mine : (x.ctx == c && onDispatch x) = true := by simp [hc, hd]
  refine ⟨_, z.latch (s.ctxs[c].ev ||| m), found, ?_, ?_, rfl, rfl⟩
  · simp only [latch, mine, if_true]
    exact (tabulate_get 8 _ n).trans (congrArg (Option.map _) hz)
  · simp only [Split.latch, hk, Option.map_some]

end Sys2Proof.Proofs

/-! SUPPORT. Events, cancels of launches, and counters (R71, R73, R80, R364-R366). -/

namespace Sys2Proof.Proofs

open Sys2Proof Sys2Proof.Machine Sys2Proof.Claims Sys2Proof.Laws

theorem homeDie_congr {s t : State} (hc : t.ctxs = s.ctxs) (hp : t.parts = s.parts) (c : Fin 64) : homeDie t c = homeDie s c := by
  unfold homeDie
  rw [hc, hp]

/-- `evset` releases at the widest scope inside the package and then raises its events (R85, R364). -/
theorem evset_raises {o : EvOp} {s : State} {w : Warp} {sp : Fin 8} {x : Split} {m : BitVec 256} (hm : evMask w o = m)
    (h : Issues (.evset o) s w sp x) (ha : activeOf (.evset o) w x ≠ 0) (hr : Releasable (counted s w sp) w)
    (hx : DroverFree (l1Clean (counted s w sp) w.core wideLine) w) :
    RunsTo (.evset o) s w sp x
      (toDrover s w (examine (raiseEvents (l1Clean (counted s w sp) w.core wideLine) w.ctx m) w.ctx)) := by
  subst hm
  obtain ⟨settled, clean, near⟩ := hr
  let t := counted s w sp
  have only : OnlyCaches t (l1Clean t w.core wideLine) := l1Clean_only _ _ _
  have home : homeDie (l1Clean t w.core wideLine) w.ctx = homeDie s w.ctx := homeDie_congr (s := t) only.ctxs only.parts w.ctx
  have release : releaseAt t w (widest t.ctxs[w.ctx]) = .ok (l1Clean t w.core wideLine) := by
    have sc : widest t.ctxs[w.ctx] = .die ∨ (widest t.ctxs[w.ctx] = .package ∧ t.ctxs[w.ctx].mode = false) := by
      unfold widest
      cases t.ctxs[w.ctx].mode with
      | true => exact .inl rfl
      | false => exact .inr ⟨rfl, rfl⟩
    have here : cleaned t w (widest t.ctxs[w.ctx]) = l1Clean t w.core wideLine := if_neg fun e => by rw [e] at sc; simp at sc
    have links := (cleanLinks t w (widest t.ctxs[w.ctx])).1
    rw [releaseAt_links (.inr (by rw [here]; exact clean)) fun wide => ?_, releaseLinks_near (by simpa only [NoFarWrites, links] using near) ?_, here]
    · obtain e | ⟨e, -⟩ := sc
      · exact .inr (.inl e)
      · exact .inr (.inr e)
    · obtain e | ⟨-, e⟩ := sc
      · rw [e] at wide
        simp at wide
      · rw [here]
        exact settled.resolve_left fun k => Bool.false_ne_true (e.symm.trans k)
  refine issueWarp_endsAs (e := .next _) h (show exec (.evset o) s = execEvset o s from rfl) ha ?_
  show (releaseAt t w (widest t.ctxs[w.ctx])).andThen _ = _
  rw [release]
  exact atDrover_free (fun s => .next (examine (raiseEvents s w.ctx (evMask w o)) w.ctx)) hx home

/-- `evwait` (R364). -/
theorem evwait_waits {o : EvOp} {s : State} {w : Warp} {sp : Fin 8} {x : Split} {m : BitVec 256} (hm : evMask w o = m)
    (h : Issues (.evwait o) s w sp x) (ha : activeOf (.evwait o) w x ≠ 0) (hx : DroverFree s w) :
    let t := counted s w sp
    let k := x.ewait.getD m
    let note := fun (v : BitVec 256) => modWarp t w.id fun y => modSplit y sp fun z => { z with ewait := some v }
    let met := ∀ e, e < 256 → k.getLsbD e = true → s.ctxs[w.ctx].ev.getLsbD e = true
    (met → NoLinkReads s w → RunsTo (.evwait o) s w sp x (toDrover s w (l1DropClean (note 0) w.core wideLine))) ∧
    (met → ¬ NoLinkReads s w → Waits (.evwait o) s w sp x (note 0)) ∧ (¬ met → Rests (.evwait o) s w sp x (note k)) := by
  subst hm
  intro t k note met
  have ends := fun {e : Effect} => ofDrover_ends (e := e) (evwait_ofDrover o) h ha hx
  have set : s.ctxs[w.ctx].ev &&& k = k ↔ met := and_eq_self_iff _ _
  have near : widest t.ctxs[w.ctx] ≠ .system ∧ widest t.ctxs[w.ctx] ≠ .core := by
    unfold widest
    split <;> decide
  refine ⟨fun hmet hr => ?_, fun hmet hr => ?_, fun hmet => ?_⟩
  · refine ends (e := .next _) ((if_pos (set.mpr hmet)).trans ?_)
    have read := acquireAt_read (s := note 0) (w := w) (sc := widest t.ctxs[w.ctx]) hr
    rw [if_neg fun e => near.1 e.1, acquired, if_neg near.2] at read
    exact congrArg (Order.andThen · Effect.next) read
  · refine ends (e := .wait (note 0)) ((if_pos (set.mpr hmet)).trans ?_)
    exact congrArg (Order.andThen · Effect.next) (if_pos (show s.links.any (linkReadOf w.id) = true by simpa using hr))
  · exact ends (e := .rest (note k)) (if_neg (mt set.mp hmet))

theorem events : Claims.Events := by
  refine ⟨raiseEvents_raises, fun o s w sp x m hm => ?_⟩
  have mask := evMask_eq hm
  refine ⟨fun i hi h ha => ?_, fun h ha hr => evset_raises mask h ha hr, fun h ha hx => ?_, fun h ha hx => evwait_waits mask h ha hx⟩
  · simp only [List.mem_cons, List.not_mem_nil, or_false] at hi
    obtain rfl | rfl | rfl := hi
    · exact issueWarp_idles h (show exec (.evset o) s = execEvset o s from rfl) ha
    · exact ofDrover_idle (evclr_ofDrover o) h ha
    · exact ofDrover_idle (evwait_ofDrover o) h ha
  · subst mask
    exact ofDrover_ends (e := .next _) (evclr_ofDrover o) h ha hx rfl

/-! ### Cancels of launches (R71, R73, R80, R365) -/

theorem resolve_null (s : State) (w : Warp) : resolve s w 0 = .null := if_pos rfl

theorem resolve_bad {s : State} {w : Warp} {h : BitVec 32} (h0 : h ≠ 0)
    (hb : ∀ e, entryOf s.ctxs[w.ctx] h = some e → e.owner ≠ ownerOf w) : resolve s w h = .bad := by
  rw [resolve, if_neg h0]
  cases he : entryOf s.ctxs[w.ctx] h with
  | none => rfl
  | some e => exact if_neg (hb e he)

theorem resolve_entry {s : State} {w : Warp} {h : BitVec 32} {e : HEntry} (h0 : h ≠ 0) (he : entryOf s.ctxs[w.ctx] h = some e)
    (ho : e.owner = ownerOf w) : resolve s w h = .entry e := by
  simp only [resolve, if_neg h0, he, if_pos ho]

section

variable {s : State} {c : Iss} {h : BitVec 32} {null : Effect} {k : Launch → Effect}

theorem withLaunch_null (h0 : h = 0) : withLaunch s c h null k = null := by
  subst h0
  simp only [withLaunch, resolve_null]

theorem withLaunch_bad (h0 : h ≠ 0) (hb : ∀ e, entryOf s.ctxs[c.w.ctx] h = some e → e.owner ≠ ownerOf c.w) :
    withLaunch s c h null k = .fault (faultOf 0xF) := by
  simp only [withLaunch, resolve_bad h0 hb]

theorem withLaunch_found {e : HEntry} {l : Launch} (h0 : h ≠ 0) (he : entryOf s.ctxs[c.w.ctx] h = some e) (ho : e.owner = ownerOf c.w)
    (hl : s.ctxs[c.w.ctx].launches.reverse.find? (fun y => y.handle == h) = some l) : withLaunch s c h null k = k l := by
  simp only [withLaunch, resolve_entry h0 he ho, hl]

end

/-- A launch that has ended, or whose counter is zero, does not change (R73, R80). -/
theorem cancelLaunch_over {s : State} {c : Fin 64} {l : Launch} (hl : findLaunch s.ctxs[c] l.id = some l)
    (h : l.st ∈ [LState.done, .cancelled, .refused] ∨ (l.retired = l.total ∧ l.fin = false ∧ l.st ∈ [LState.ready, .running])) :
    cancelLaunch s c l.id = s := by
  have stays : ((l.st == .held || l.st == .ready || l.st == .running) && !launchDue l) = false := by
    simp only [List.mem_cons, List.not_mem_nil, or_false] at h
    obtain (e | e | e) | ⟨ht, hf, e | e⟩ := h
    · rw [e]; rfl
    · rw [e]; rfl
    · rw [e]; rfl
    · simp [e, launchDue, ht, hf]
    · simp [e, launchDue, ht, hf]
  simp only [cancelLaunch, hl, stays, Bool.false_eq_true, if_false]

/-- One with no unit dispatched is cancelled, and its counter is zero (R80). -/
theorem cancelLaunch_undispatched {s : State} {c : Fin 64} {l : Launch} (hl : findLaunch s.ctxs[c] l.id = some l)
    (hst : l.st ∈ [LState.held, .ready]) (hr : l.retired = 0) (ht : l.total ≠ 0) (hu : ∀ u ∈ s.units, u.ctx = c → u.launch ≠ l.id) :
    cancelLaunch s c l.id = modLaunch s c l.id fun y => { y with cancel := true, st := .cancelled, next := y.total, retired := y.total } := by
  have goes : ((l.st == .held || l.st == .ready || l.st == .running) && !launchDue l) = true := by
    have due : launchDue l = false := by simp [launchDue, hr, ht.symm]
    simp only [List.mem_cons, List.not_mem_nil, or_false] at hst
    obtain e | e := hst <;> simp [e, due]
  have none : (s.units.filter fun u => u.ctx == c && u.launch == l.id) = [] :=
    List.filter_eq_nil_iff.mpr fun u hm k => by
      simp only [Bool.and_eq_true, beq_iff_eq] at k
      exact hu u hm k.1 k.2
  simp only [cancelLaunch, hl, goes, none]
  rfl

theorem bitsOf_eq_field (v : Word) (lo n : Nat) : bitsOf v lo n = field v lo n := by
  rw [bitsOf, field, Nat.shiftRight_eq_div_pow]

theorem launchCancels : Claims.LaunchCancels := by
  refine ⟨fun g sa s w sp x => ?_, fun s c l hl => ⟨fun h => cancelLaunch_over hl h, fun hst _ hr ht hu => cancelLaunch_undispatched hl hst hr ht hu⟩⟩
  intro t h
  refine ⟨fun i hi hs ha => ?_, fun hs ha hx => ?_, fun hs ha hx => ?_, fun hs ha hx => ?_⟩
  · simp only [List.mem_cons, List.not_mem_nil, or_false] at hi
    obtain rfl | rfl | rfl := hi
    · exact ofDrover_idle (cancelLaunch_ofDrover g sa) hs ha
    · exact ofDrover_idle (cancelGraph_ofDrover g sa) hs ha
    · exact ofDrover_idle (cancelPhase_ofDrover g sa) hs ha
  · have ends := fun {e : Effect} => ofDrover_ends (e := e) (cancelLaunch_ofDrover g sa) hs ha hx
    exact ⟨fun h0 => ends (e := .next _) (withLaunch_null h0), fun h0 hb => ends (e := .fault _) (withLaunch_bad h0 hb),
      fun e l h0 he ho hl => ends (e := .next _) (withLaunch_found h0 he ho hl)⟩
  · refine ofDrover_ends (e := .next _) (cancelGraph_ofDrover g sa) hs ha hx ?_
    simp only [bitsOf_eq_field]
    rfl
  · refine ofDrover_ends (e := .next _) (cancelPhase_ofDrover g sa) hs ha hx ?_
    simp only [bitsOf_eq_field]
    rfl

/-! ### Counters (R366) -/

theorem liveCount_eq (x : Ctx) (p : Launch → Bool) : liveCount x p = ((liveOf x).filter p).length := by
  rw [liveOf, List.filter_filter, liveCount]
  congr 1
  refine List.filter_congr fun l _ => ?_
  rw [Bool.and_comm]
  rfl

theorem mask_count (m : Mask) : Mask.count m = ((List.range 32).filter fun j => m.getLsbD j).length := by
  rw [← List.map_coe_finRange_eq_range, List.filter_map, List.length_map]
  rfl

/-- What a change of one of its splits leaves of a warp. -/
theorem modSplit_ident (y : Warp) (sp : Fin 8) (f : Split → Split) : (modSplit y sp f).ctx = y.ctx ∧ (modSplit y sp f).kind = y.kind ∧
    (modSplit y sp f).rank = y.rank ∧ (modSplit y sp f).ended = y.ended ∧ (modSplit y sp f).live = y.live := by
  unfold modSplit setSplit
  split <;> exact ⟨rfl, rfl, rfl, rfl, rfl⟩

/-- What the count of an issue changes of the split that issues (R94). -/
def countSplit (w : Warp) (n : BitVec 32) (x : Split) : Split :=
  { x with age := n, dr := false, idle := 0, overdue := false, fails := [], count := if w.halting then x.count + 1 else x.count }

/-- The warps of a state in which an issue has been counted are as they were, but for the split that issues. -/
theorem counted_warps (s : State) (w : Warp) (sp : Fin 8) : ∃ f : Warp → Warp, (counted s w sp).warps = s.warps.map f ∧
    ∀ y, (f y).ctx = y.ctx ∧ (f y).kind = y.kind ∧ (f y).rank = y.rank ∧ (f y).ended = y.ended ∧ (f y).live = y.live := by
  refine ⟨fun y => if y.id == w.id then modSplit y sp (countSplit w (s.cores[w.core].issue[w.quad] + 1)) else y, rfl, fun y => ?_⟩
  dsimp only
  split
  · exact modSplit_ident y sp _
  · exact ⟨rfl, rfl, rfl, rfl, rfl⟩

section

variable {s : State} {w : Warp} {sp : Fin 8}

theorem counted_anyJob (c : Fin 64) : ((counted s w sp).warps.any fun v => v.ctx == c && isJob v) = s.warps.any fun v => v.ctx == c && isJob v := by
  obtain ⟨f, e, same⟩ := counted_warps s w sp
  simp only [e, List.any_map, Function.comp_def, isJob, (same _).1, (same _).2.1]

theorem counted_unitCounter (u : UnitSt) : unitCounter (counted s w sp) u = unitCounter s u := by
  obtain ⟨f, e, same⟩ := counted_warps s w sp
  simp only [unitCounter, e, List.filter_map, List.length_map, Function.comp_def, inUnit, (same _).2.1, (same _).2.2.2.1, counted_ctxs]

theorem counted_warpOf (u rank : Nat) : (warpOf (counted s w sp) u rank).map (·.live) = (warpOf s u rank).map (·.live) := by
  obtain ⟨f, e, same⟩ := counted_warps s w sp
  simp only [warpOf, e, List.find?_map, Option.map_map, Function.comp_def, inUnit, (same _).2.1, (same _).2.2.1, (same _).2.2.2.2]

end

theorem lstateCode_eq (st : LState) : lstateCode st = stateCode st := by cases st <;> rfl

section

variable {sel : CntSel} {o : EvOp} {s : State} {w : Warp} {sp : Fin 8} {x : Split} {n : Nat}

/-- What `cntrd` does with the number it reads (R366). -/
def putNumber (o : EvOp) (s : State) (w : Warp) (n : Nat) : Effect := .next (modWarp s w.id fun y => setS y o.sd (BitVec.ofNat 64 n))

theorem cntrd_puts (h : Issues (.cntrd sel o) s w sp x) (hx : DroverFree s w)
    (hk : readCounters sel o (counted s w sp) (issOf (.cntrd sel o) w sp x) = putNumber o (counted s w sp) w n) :
    Puts (.cntrd sel o) s w sp x o.sd n := by
  unfold Puts RunsOnce
  split
  case isTrue ha => exact ofDrover_idle (cntrd_ofDrover sel o) h ha
  case isFalse ha => exact ofDrover_ends (e := .next _) (cntrd_ofDrover sel o) h ha hx hk

theorem readCounters_plain (hs : sel ∈ [CntSel.graph, .phase, .abort, .cph, .ev]) :
    readCounters sel o (counted s w sp) (issOf (.cntrd sel o) w sp x) =
      putNumber o (counted s w sp) w (counterOf s.ctxs[w.ctx] (sreg w o.sa) sel) := by
  simp only [List.mem_cons, List.not_mem_nil, or_false] at hs
  obtain rfl | rfl | rfl | rfl | rfl := hs
  · simp only [readCounters, counterOf, liveCount_eq, bitsOf_eq_field]
    rfl
  · simp only [readCounters, counterOf, liveCount_eq, bitsOf_eq_field]
    rfl
  · simp only [readCounters, counterOf, Bool.toNat, Bool.cond_eq_ite]
    rfl
  · rfl
  · simp only [readCounters, counterOf, Nat.shiftRight_eq_div_pow, bitsOf_eq_field]
    rfl

theorem readCounters_job : readCounters .job o (counted s w sp) (issOf (.cntrd .job o) w sp x) =
    putNumber o (counted s w sp) w ((liveOf s.ctxs[w.ctx]).length + if s.warps.any fun v => v.ctx == w.ctx && isJob v then 1 else 0) := by
  have live : liveCount s.ctxs[w.ctx] (fun _ => true) = (liveOf s.ctxs[w.ctx]).length := by rw [liveCount_eq, List.filter_true]
  rw [← live, ← counted_anyJob (s := s) (w := w) (sp := sp) w.ctx]
  rfl

end

theorem anyJob_iff (s : State) (c : Fin 64) : (s.warps.any fun v => v.ctx == c && isJob v) = true ↔ ∃ v ∈ s.warps, v.ctx = c ∧ isJob v = true := by
  simp only [List.any_eq_true, Bool.and_eq_true, beq_iff_eq]

theorem unitPending_iff (l : Launch) (b : Nat) : unitPending l b = true ↔
    (l.st = .held ∨ l.st = .ready ∨ l.st = .running ∨ (l.st = .cancelled ∧ l.fin = false)) ∧ l.next ≤ b ∧ b < l.total := by
  simp only [unitPending, launchLive, Bool.and_eq_true, Bool.or_eq_true, beq_iff_eq, Bool.not_eq_true', decide_eq_true_eq, or_assoc, and_assoc]

section

variable {s : State} {c : Fin 64} {l : Launch} {b rank : Nat}

theorem unitValue_pending (h : unitPending l b = true) : unitValue s c l b = BitVec.ofNat 64 (2 ^ 64 - 1) := if_pos h

theorem unitValue_none (h : ¬ unitPending l b = true) (hu : unitAt s c l b = none) : unitValue s c l b = BitVec.ofNat 64 0 := by
  simp only [unitValue, if_neg h, hu]
  rfl

theorem unitValue_found {u : UnitSt} (h : ¬ unitPending l b = true) (hu : unitAt s c l b = some u) :
    unitValue s c l b = BitVec.ofNat 64 (unitCounter s u) := by
  simp only [unitValue, if_neg h, hu]

theorem warpValue_beyond (hr : l.r.wpu ≤ rank) : warpValue s c l b rank = BitVec.ofNat 64 0 := if_pos hr

theorem warpValue_pending (hr : rank < l.r.wpu) (h : unitPending l b = true) : warpValue s c l b rank = BitVec.ofNat 64 (2 ^ 64 - 1) :=
  (if_neg (Nat.not_le.mpr hr)).trans (if_pos h)

theorem warpValue_none (hr : rank < l.r.wpu) (h : ¬ unitPending l b = true) (hu : unitAt s c l b = none) :
    warpValue s c l b rank = BitVec.ofNat 64 0 := by
  simp only [warpValue, if_neg (Nat.not_le.mpr hr), if_neg h, hu]
  rfl

theorem warpValue_found {u : UnitSt} {m : Mask} (hr : rank < l.r.wpu) (h : ¬ unitPending l b = true) (hu : unitAt s c l b = some u)
    (hv : (warpOf s u.id rank).map (·.live) = some m) : warpValue s c l b rank = BitVec.ofNat 64 (Mask.count m) := by
  obtain ⟨v, hw, rfl⟩ := Option.map_eq_some_iff.mp hv
  simp only [warpValue, if_neg (Nat.not_le.mpr hr), if_neg h, hu, hw]

end

/-- What a counter of the launch `l` reads (R366). -/
def launchValue (sel : CntSel) (o : EvOp) (s : State) (w : Warp) (l : Launch) : Word :=
  match sel with
  | .lcount => BitVec.ofNat 64 (launchCounter l)
  | .lstatus => BitVec.ofNat 64 (lstateCode l.st * 256 + l.status)
  | .unit => unitValue s w.ctx l (sreg w o.sb).toNat
  | _ => warpValue s w.ctx l (sreg w o.sb).toNat (bitsOf (sreg w o.sc) 0 8)

theorem readCounters_launch {sel : CntSel} (hs : sel ∈ [CntSel.lcount, .lstatus, .unit, .warp]) (o : EvOp) (s : State) (c : Iss) :
    readCounters sel o s c = withLaunch s c ((sreg c.w o.sa).setWidth 32) (putNumber o s c.w (if sel = .lstatus then 0x300 else 0)) fun l =>
      .next (modWarp s c.w.id fun y => setS y o.sd (launchValue sel o s c.w l)) := by
  simp only [List.mem_cons, List.not_mem_nil, or_false] at hs
  obtain rfl | rfl | rfl | rfl := hs <;> rfl

theorem counters : Claims.Counters := by
  intro sel o s w sp x h i a n k put hx
  have puts := fun {m : Nat} => cntrd_puts (n := m) h hx
  refine ⟨fun hs => puts (readCounters_plain hs), ?_, ?_, fun hs => ?_⟩
  · rintro rfl hj
    have no : (s.warps.any fun v => v.ctx == w.ctx && isJob v) = false := by
      rw [Bool.eq_false_iff, ne_eq, anyJob_iff]
      rintro ⟨v, hv, hc, he⟩
      exact Bool.false_ne_true ((hj v hv hc).symm.trans he)
    refine puts (readCounters_job.trans ?_)
    rw [no]
    rfl
  · rintro rfl hj
    refine puts (readCounters_job.trans ?_)
    rw [(anyJob_iff s w.ctx).mpr hj]
    rfl
  · have reads := readCounters_launch hs o (counted s w sp) (issOf (.cntrd sel o) w sp x)
    refine ⟨fun h0 => puts (reads.trans (withLaunch_null h0)), fun h0 ha hb =>
      ofDrover_ends (e := .fault _) (cntrd_ofDrover sel o) h ha hx (reads.trans (withLaunch_bad h0 hb)), ?_⟩
    intro e l h0 he ho hl b pending found
    have value : ∀ {m : Nat}, launchValue sel o (counted s w sp) w l = BitVec.ofNat 64 m → put m := fun hv =>
      puts (reads.trans ((withLaunch_found h0 he ho hl).trans (congrArg (fun v => Effect.next (modWarp (counted s w sp) w.id fun y => setS y o.sd v)) hv)))
    have unit : unitAt (counted s w sp) w.ctx l b = found := rfl
    have waits : unitPending l b = true ↔ pending := unitPending_iff l b
    refine ⟨?_, ?_, ?_, ?_⟩
    · rintro rfl
      exact value rfl
    · rintro rfl
      exact value (by rw [launchValue, lstateCode_eq])
    · rintro rfl
      refine ⟨fun hp => value (unitValue_pending (waits.mpr hp)), fun hp hu => value (unitValue_none (mt waits.mp hp) (unit.trans hu)),
        fun hp u hu => value ((unitValue_found (mt waits.mp hp) (unit.trans hu)).trans ?_)⟩
      rw [counted_unitCounter]
      rfl
    · rintro rfl rank
      have rank' : bitsOf (sreg w o.sc) 0 8 = rank := bitsOf_eq_field _ _ _
      have warp : ∀ {v : Word}, warpValue (counted s w sp) w.ctx l b rank = v → launchValue .warp o (counted s w sp) w l = v := fun hv => by
        rw [← hv, ← rank']
        rfl
      refine ⟨fun hr => value (warp (warpValue_beyond hr)), fun hr hp => value (warp (warpValue_pending hr (waits.mpr hp))),
        fun hr hp hu => value (warp (warpValue_none hr (mt waits.mp hp) (unit.trans hu))), fun hr hp u v hu hv => ?_⟩
      rw [← mask_count]
      exact value (warp (warpValue_found hr (mt waits.mp hp) (unit.trans hu) (by rw [counted_warpOf, hv]; rfl)))

end Sys2Proof.Proofs

/-! SUPPORT. What a context's launches come to when it is examined, and how a launch ends (R72, R73, R78-R80). -/

namespace Sys2Proof.Proofs

open Sys2Proof Sys2Proof.Machine Sys2Proof.Claims Sys2Proof.Laws

/-! ### The end of a launch (R79, R80) -/

/-- The end of a handle changes only the handles of its context, and its entry where it was pending. -/
theorem endHandle_ctx (s : State) (c : Fin 64) (h : BitVec 32) (st : HState) : ∃ hs,
    (endHandle s c h st fun e => e).ctxs[c] = { s.ctxs[c] with handles := hs } ∧
    ∀ e, entryOf s.ctxs[c] h = some e → e.st = .pending → ∃ f ∈ hs, f.slot = e.slot ∧ f.st = st := by
  unfold endHandle modEntry
  dsimp only
  cases he : entryOf s.ctxs[c] h with
  | none => exact ⟨s.ctxs[c].handles, rfl, fun e k => nomatch k⟩
  | some e =>
    refine ⟨_, modCtx_same _ _ _, fun e' k hp => ⟨_, List.mem_map.mpr ⟨e, List.mem_of_find?_eq_some he, rfl⟩, ?_⟩⟩
    obtain rfl := Option.some.inj k
    simp [hp]

theorem endHandle_aside (s : State) (c : Fin 64) (h : BitVec 32) (st : HState) :
    (endHandle s c h st fun e => e).mem = s.mem ∧ (endHandle s c h st fun e => e).units = s.units := by
  unfold endHandle modEntry
  dsimp only
  split <;> exact ⟨rfl, rfl⟩

theorem raiseEvents_ctx (s : State) (c : Fin 64) (m : BitVec 256) :
    (raiseEvents s c m).ctxs[c] = { s.ctxs[c] with ev := s.ctxs[c].ev ||| m } := modCtx_same s c fun x => { x with ev := s.ctxs[c].ev ||| m }

/-- What the end of the launch `id` makes of a launch (R80). -/
def finishOne (id : Nat) (y : Launch) : Launch :=
  if y.id == id then { y with st := if y.cancel then .cancelled else .done, fin := true } else y

theorem finishOne_id (id : Nat) (y : Launch) : (finishOne id y).id = y.id := by
  unfold finishOne
  split <;> rfl

/-- A change of every launch that keeps their numbers finds the changed launch where it found the launch. -/
theorem findLaunch_map {x y : Ctx} (f : Launch → Launch) (hf : ∀ l, (f l).id = l.id) (h : y.launches = x.launches.map f) (k : Nat) :
    findLaunch y k = (findLaunch x k).map f := by
  simp only [findLaunch, h, List.find?_map, Function.comp_def, hf]

theorem findLaunch_id {x : Ctx} {k : Nat} {l : Launch} (h : findLaunch x k = some l) : l.id = k := by
  simpa using List.find?_some h

section

variable {s : State} {c : Fin 64} {l : Launch}

/-- The state in which the launch `l` of `c` has left its units and set its events and ABORT (R72, R80). -/
def leftUnits (s : State) (c : Fin 64) (l : Launch) : State :=
  raiseEvents (modCtx (dropUnits s c l.id) c fun x => { x with abort := x.abort || l.cancel }) c l.r.set

theorem finishLaunch_eq (hl : findLaunch s.ctxs[c] l.id = some l) : finishLaunch s c l.id =
    modCtx (endHandle (leftUnits s c l) c l.handle (if l.cancel then .cancelled else .done) fun e => e) c fun x =>
      { x with launches := x.launches.map (finishOne l.id) } := by
  simp only [finishLaunch, hl]
  rfl

theorem leftUnits_ctx : (leftUnits s c l).ctxs[c] =
    { s.ctxs[c] with abort := s.ctxs[c].abort || l.cancel, ev := s.ctxs[c].ev ||| l.r.set } := by
  rw [leftUnits, raiseEvents_ctx, modCtx_same]
  rfl

theorem finishLaunch_ctx (hl : findLaunch s.ctxs[c] l.id = some l) : ∃ hs,
    (finishLaunch s c l.id).ctxs[c] = { s.ctxs[c] with
      abort := s.ctxs[c].abort || l.cancel
      ev := s.ctxs[c].ev ||| l.r.set
      handles := hs
      launches := s.ctxs[c].launches.map (finishOne l.id) } ∧
    ∀ e, entryOf s.ctxs[c] l.handle = some e → e.st = .pending →
      ∃ f ∈ hs, f.slot = e.slot ∧ f.st = if l.cancel then .cancelled else .done := by
  obtain ⟨hs, hc, he⟩ := endHandle_ctx (leftUnits s c l) c l.handle (if l.cancel then .cancelled else .done)
  rw [leftUnits_ctx] at hc he
  exact ⟨hs, by rw [finishLaunch_eq hl, modCtx_same, hc], he⟩

theorem finishLaunch_aside (hl : findLaunch s.ctxs[c] l.id = some l) : (finishLaunch s c l.id).mem = s.mem ∧
    ∀ u ∈ (finishLaunch s c l.id).units, u.ctx = c → u.launch ≠ l.id := by
  obtain ⟨mem, units⟩ := endHandle_aside (leftUnits s c l) c l.handle (if l.cancel then .cancelled else .done)
  have mem' : (leftUnits s c l).mem = s.mem := by simp only [leftUnits, raiseEvents, modCtx, dropUnits, dropWarps]
  have units' : (leftUnits s c l).units = s.units.filter fun u => !(u.ctx == c && u.launch == l.id) := by
    simp only [leftUnits, raiseEvents, modCtx, dropUnits, dropWarps]
  rw [finishLaunch_eq hl, modCtx_mem, modCtx_units, mem, units, mem', units']
  refine ⟨rfl, fun u hu hc hi => ?_⟩
  simp [hc, hi] at hu

end

/-! ### What the end of a launch waits for (R34, R39, R79) -/

section

variable {s : State} {c : Fin 64} {l : Launch}

theorem releaseCores_none (h1 : ∀ k : Fin 384, s.cores[k].l1 = []) : releaseCores s = s := by
  refine foldl_fixed_mem fun k _ => ?_
  rw [h1 k]
  rfl

/-- With no line in any L1, a release on every core waits only for what crosses the bridge (R39). -/
theorem releaseEverywhere_empty (h1 : ∀ k : Fin 384, s.cores[k].l1 = []) : releaseEverywhere s c =
    if !s.ctxs[c].mode && !acrossDone s c then (if s.bridge.down then .bad (faultOf 0x14) else .wait s) else .ok s := by
  unfold releaseEverywhere
  rw [releaseCores_none h1]
  generalize List.finRange 384 = ks
  have lost : (ks.findSome? fun k => l1Lost s k (ownLine c)) = none :=
    List.findSome?_eq_none_iff.mpr fun k _ => by rw [l1Lost, h1 k]; rfl
  have stalled : (ks.any fun k => l1Stalled s k (ownLine c)) = false :=
    List.any_eq_false.mpr fun k _ => by rw [l1Stalled, h1 k]; exact Bool.false_ne_true
  simp only [lost, stalled, Bool.false_eq_true, if_false]

theorem releaseLaunch_here (h1 : ∀ k : Fin 384, s.cores[k].l1 = []) (h : s.ctxs[c].mode = true ∨ Across s c) :
    releaseLaunch s c l = if s.links.any (farWriteOf c) then .wait s else flushAt s c l.age (homeDie s c) := by
  have open' : (!s.ctxs[c].mode && !acrossDone s c) = false := by
    obtain e | e := h
    · rw [e]; rfl
    · rw [show acrossDone s c = true from e, Bool.not_true, Bool.and_false]
  rw [releaseLaunch, releaseEverywhere_empty h1, open', if_neg Bool.false_ne_true, Order.bind]

theorem endDue_wait {t : State} (h : releaseLaunch s c l = .wait t) : endDue s c l = (t, false) := by
  unfold endDue
  rw [h]

theorem endDue_ok {t : State} (h : releaseLaunch s c l = .ok t) : endDue s c l = (readyLaunches (finishLaunch t c l.id) c, true) := by
  unfold endDue
  rw [h]

theorem flushAt_held {who : Nat} {d : Fin 2} (h : ∃ y ∈ s.host.held, y.writes c = true) : flushAt s c who d = .wait s := by
  have held : s.host.held.any (·.writes c) = true := List.any_eq_true.mpr h
  simp only [flushAt, held, Bool.true_or, if_true]

theorem noHeld (h : ∀ y ∈ s.host.held, y.writes c = false) : s.host.held.any (·.writes c) = false :=
  List.any_eq_false.mpr fun y hy e => Bool.false_ne_true ((h y hy).symm.trans e)

theorem flushAt_quiet {who : Nat} {d : Fin 2} (h : ∀ y ∈ s.host.held, y.writes c = false) (hl : s.links = []) : flushAt s c who d = .ok s := by
  simp only [flushAt, noHeld h, hl, List.any_nil, Bool.or_self, Bool.false_eq_true, if_false, List.filter_nil, lastLink, List.foldl_nil]

/-- The one of two link accesses sent last. -/
def laterOf (b : Option LinkOp) (x : LinkOp) : Option LinkOp :=
  match b with
  | none => some x
  | some y => if y.tag < x.tag then some x else some y

theorem lastLink_mem {ls : List LinkOp} (h : ls ≠ []) : ∃ l ∈ ls, lastLink ls = some l := by
  have one : ∀ (b x : LinkOp), laterOf (some b) x = some b ∨ laterOf (some b) x = some x := fun b x => by
    unfold laterOf
    dsimp only
    split
    · exact .inr rfl
    · exact .inl rfl
  have from' : ∀ (r : List LinkOp) (b : LinkOp), ∃ l ∈ b :: r, r.foldl laterOf (some b) = some l := by
    intro r
    induction r with
    | nil => exact fun b => ⟨b, List.mem_singleton_self b, rfl⟩
    | cons x r ih =>
      intro b
      rw [List.foldl_cons]
      obtain e | e := one b x
      · obtain ⟨l, hl, hf⟩ := ih b
        rw [e]
        exact ⟨l, by simp only [List.mem_cons] at hl ⊢; tauto, hf⟩
      · obtain ⟨l, hl, hf⟩ := ih x
        rw [e]
        exact ⟨l, List.mem_cons_of_mem b hl, hf⟩
  cases ls with
  | nil => exact absurd rfl h
  | cons x r => exact from' r x

/-- The flushing read goes to the place of a system write of the context, and changes nothing else (R34). -/
theorem flushAt_sends {who : Nat} {d : Fin 2} (hh : ∀ y ∈ s.host.held, y.writes c = false) (hf : ∀ y ∈ s.links, y.kind ≠ .flush)
    (hx : crossing s d 0 = .free) (hw : ∃ y ∈ s.links, systemWriteOf c who y = true) : ∃ t, flushAt s c who d = .wait t ∧ t.ctxs = s.ctxs ∧
    ∃ f ∈ t.links, f.kind = .flush ∧ f.bytes = 4 ∧ f.warp = who ∧ ∃ y ∈ s.links, systemWriteOf c who y = true ∧ f.pa = y.pa := by
  have some' : s.links.filter (systemWriteOf c who) ≠ [] := by
    obtain ⟨y, hy, hs⟩ := hw
    exact List.ne_nil_of_mem (List.mem_filter.mpr ⟨hy, hs⟩)
  obtain ⟨l, hl, last⟩ := lastLink_mem some'
  obtain ⟨hl, hs⟩ := List.mem_filter.mp hl
  have noFlush : s.links.any (flushOf who) = false := List.any_eq_false.mpr fun y hy k => by
    simp only [flushOf, Bool.and_eq_true, beq_iff_eq] at k
    exact hf y hy k.2
  refine ⟨sendFlush s c who d l, ?_, ?_, ?_⟩
  · simp only [flushAt, noHeld hh, noFlush, last, hx, Bool.or_self, Bool.false_eq_true, if_false]
  · simp only [sendFlush, toHostFor_ctxs, fresh]
  · refine ⟨flushRead { s with serial := s.serial + 1 } l s.serial who d none, ?_, rfl, rfl, rfl, l, hl, hs, rfl⟩
    simp only [sendFlush, toHostFor_links, fresh]
    exact List.mem_append_right _ (List.mem_singleton_self _)

end

theorem launchEnds : Claims.LaunchEnds := by
  intro s c l hl h1 here
  refine ⟨fun hn hb => ?_, fun hh hw => ?_, fun hh hn hw => ?_, fun hh hn hw hf hx hs => ?_, fun hn hw hh => ?_⟩
  · refine endDue_wait ?_
    have kept : (!s.ctxs[c].mode && !acrossDone s c) = true := by simpa [here, Across] using hn
    rw [releaseLaunch, releaseEverywhere_empty h1, if_pos kept, hb, if_neg Bool.false_ne_true, Order.bind]
  · refine endDue_wait ((releaseLaunch_here h1 hh).trans (if_pos (List.any_eq_true.mpr ?_)))
    obtain ⟨y, hy, rfl, hcopy, hk⟩ := hw
    refine ⟨y, hy, ?_⟩
    obtain e | ⟨e, e'⟩ := hk <;> simp [farWriteOf, warpAccess, *]
  · have near := Bool.eq_false_iff.mp ((noFarWrites_iff s c).mp hn)
    exact endDue_wait ((releaseLaunch_here h1 hh).trans ((if_neg near).trans (flushAt_held hw)))
  · have near := Bool.eq_false_iff.mp ((noFarWrites_iff s c).mp hn)
    obtain ⟨t, ht, rest⟩ := flushAt_sends hw hf hx hs
    exact ⟨t, endDue_wait ((releaseLaunch_here h1 hh).trans ((if_neg near).trans ht)), rest⟩
  · have ok : releaseLaunch s c l = .ok s := by
      rw [releaseLaunch_here h1 hh, flushAt_quiet hw hn, hn, List.any_nil, if_neg Bool.false_ne_true]
    obtain ⟨hs, ctx, handle⟩ := finishLaunch_ctx hl
    obtain ⟨mem, units⟩ := finishLaunch_aside hl
    have find := findLaunch_map (x := s.ctxs[c]) (y := (finishLaunch s c l.id).ctxs[c]) (finishOne l.id) (finishOne_id l.id) (by rw [ctx])
    refine ⟨finishLaunch s c l.id, endDue_ok ok, by rw [ctx], by rw [ctx], mem, units, ?_, by rw [ctx]; exact handle, fun k hk => ?_⟩
    · rw [find, hl]
      simp [finishOne]
    · rw [find]
      cases hf : findLaunch s.ctxs[c] k with
      | none => rfl
      | some y =>
        have other : y.id ≠ l.id := by
          rw [findLaunch_id hf]
          exact hk
        simp [finishOne, other]

/-! ### The examination of a context (R78, R80, R100) -/

/-- A held launch becomes ready when its events have come and its phase is reached (R78). -/
def Comes (x : Ctx) (l : Launch) : Prop :=
  l.st = .held ∧ (∀ e, e < 256 → l.r.wait.getLsbD e = true → x.ev.getLsbD e = true) ∧ l.r.phase ≤ x.cph

/-- What an examination makes of a launch. -/
def readyOne (x : Ctx) (l : Launch) : Launch :=
  if l.st == .held && (x.ev &&& l.r.wait) == l.r.wait && decide (l.r.phase ≤ x.cph) then { l with st := .ready } else l

theorem comes_iff (x : Ctx) (l : Launch) :
    (l.st == .held && (x.ev &&& l.r.wait) == l.r.wait && decide (l.r.phase ≤ x.cph)) = true ↔ Comes x l := by
  simp only [Comes, Bool.and_eq_true, beq_iff_eq, decide_eq_true_eq, and_eq_self_iff, and_assoc]

theorem readyOne_comes {x : Ctx} {l : Launch} (h : Comes x l) : readyOne x l = { l with st := .ready } := if_pos ((comes_iff x l).mpr h)

theorem readyOne_stays {x : Ctx} {l : Launch} (h : ¬ Comes x l) : readyOne x l = l := if_neg (mt (comes_iff x l).mp h)

theorem readyLaunches_eq (s : State) (c : Fin 64) :
    readyLaunches s c = modCtx s c fun x => { x with launches := x.launches.map (readyOne x) } := rfl

theorem launchDue_iff (l : Launch) : launchDue l = true ↔
    l.fin = false ∧ l.retired = l.total ∧ (l.st = .running ∨ l.st = .cancelled ∨ l.st = .ready) := by
  simp only [launchDue, Bool.and_eq_true, Bool.or_eq_true, beq_iff_eq, Bool.not_eq_true', and_assoc, or_assoc]

theorem examine_goes {s : State} {c : Fin 64} (hg : s.ctxs[c].st ≠ .halting) (hd : s.ctxs[c].st ≠ .halted) :
    examine s c = finishDue (readyLaunches s c) c 1024 := by
  unfold examine
  refine if_pos ?_
  rw [droverOn, Bool.and_eq_true, bne_iff_ne, bne_iff_ne]
  exact ⟨hg, hd⟩

theorem finishDue_none {s : State} {c : Fin 64} {n : Nat} (h : ∀ l ∈ s.ctxs[c].launches, launchDue l = false) : finishDue s c n = s := by
  cases n with
  | zero => rfl
  | succ n =>
    unfold finishDue
    rw [List.find?_eq_none.mpr fun l hl => Bool.eq_false_iff.mp (h l hl)]

/-- The launches that are not due are so when their held ones have become ready. -/
theorem readyOne_due {x : Ctx} {l : Launch} (h : l.fin = true ∨ l.retired ≠ l.total ∨ l.st = .done ∨ l.st = .refused) :
    launchDue (readyOne x l) = false := by
  rw [Bool.eq_false_iff, ne_eq, launchDue_iff]
  by_cases hc : Comes x l
  · rw [readyOne_comes hc]
    rintro ⟨hf, hr, -⟩
    obtain e | e | e | e := h
    · exact Bool.false_ne_true (hf.symm.trans e)
    · exact e hr
    · exact nomatch hc.1.symm.trans e
    · exact nomatch hc.1.symm.trans e
  · rw [readyOne_stays hc]
    rintro ⟨hf, hr, hst⟩
    obtain e | e | e | e := h
    · exact Bool.false_ne_true (hf.symm.trans e)
    · exact e hr
    · rw [e] at hst; simp at hst
    · rw [e] at hst; simp at hst

theorem examine_waits {s : State} {c : Fin 64} (hg : s.ctxs[c].st ≠ .halting) (hd : s.ctxs[c].st ≠ .halted)
    (hl : ∀ l ∈ s.ctxs[c].launches, l.fin = true ∨ l.retired ≠ l.total ∨ l.st = .done ∨ l.st = .refused) :
    examine s c = modCtx s c fun x => { x with launches := x.launches.map (readyOne x) } := by
  rw [examine_goes hg hd, readyLaunches_eq]
  refine finishDue_none fun l hm => ?_
  rw [modCtx_same] at hm
  obtain ⟨y, hy, rfl⟩ := List.mem_map.mp hm
  exact readyOne_due (hl y hy)

/-- The launch of no items of a context that holds no other, as it ends (R78, R80). -/
theorem examine_empty {s : State} {c : Fin 64} {l : Launch} (hl : s.ctxs[c].launches = [l]) (hst : l.st = .held) (ht : l.total = 0)
    (hr : l.retired = 0) (hc : l.cancel = false) (hf : l.fin = false) (hg : s.ctxs[c].st ≠ .halting) (hd : s.ctxs[c].st ≠ .halted)
    (h1 : ∀ k : Fin 384, s.cores[k].l1 = []) (hk : s.links = []) (hh : ∀ y ∈ s.host.held, y.writes c = false)
    (hx : s.ctxs[c].mode = true ∨ Across s c) (hw : ∀ e, e < 256 → l.r.wait.getLsbD e = true → s.ctxs[c].ev.getLsbD e = true)
    (hp : l.r.phase ≤ s.ctxs[c].cph) : ∃ hs, (examine s c).ctxs[c] =
      { s.ctxs[c] with ev := s.ctxs[c].ev ||| l.r.set, handles := hs, launches := [{ l with st := .done, fin := true }] } ∧
      ∀ e, entryOf s.ctxs[c] l.handle = some e → e.st = .pending → ∃ f ∈ hs, f.slot = e.slot ∧ f.st = .done := by
  let r : Launch := { l with st := .ready }
  let t := readyLaunches s c
  have ready : readyOne s.ctxs[c] l = r := readyOne_comes ⟨hst, hw, hp⟩
  have ctx : t.ctxs[c] = { s.ctxs[c] with launches := [r] } := by
    simp only [t, readyLaunches_eq, modCtx_same, hl, List.map_singleton, ready]
  have due : launchDue r = true := (launchDue_iff r).mpr ⟨hf, hr.trans ht.symm, .inr (.inr rfl)⟩
  have found : findLaunch t.ctxs[c] r.id = some r := by
    rw [ctx]
    simp [findLaunch]
  have here : t.ctxs[c].mode = true ∨ Across t c := by
    rw [ctx]
    exact hx
  have ok : releaseLaunch t c r = .ok t := by
    rw [releaseLaunch_here (show ∀ k : Fin 384, t.cores[k].l1 = [] from h1) here, flushAt_quiet (s := t) hh hk, show t.links = [] from hk,
      List.any_nil, if_neg Bool.false_ne_true]
  obtain ⟨hs, ended, handle⟩ := finishLaunch_ctx found
  have gone : (readyLaunches (finishLaunch t c r.id) c).ctxs[c] = { s.ctxs[c] with
      ev := s.ctxs[c].ev ||| l.r.set
      handles := hs
      launches := [{ l with st := .done, fin := true }] } := by
    rw [readyLaunches_eq, modCtx_same, ended, ctx]
    have one : finishOne r.id r = { l with st := .done, fin := true } := by simp [finishOne, r, hc]
    have stays : ∀ x, readyOne x { l with st := .done, fin := true } = { l with st := .done, fin := true } := fun x =>
      readyOne_stays fun k => nomatch k.1
    simp only [List.map_singleton, one, stays]
    simp only [r, hc, Bool.or_false]
  refine ⟨hs, ?_, ?_⟩
  · have first : finishDue t c 1024 = finishDue (readyLaunches (finishLaunch t c r.id) c) c 1023 := by
      have find : t.ctxs[c].launches.find? launchDue = some r := by
        rw [ctx]
        simp [due]
      conv_lhs => unfold finishDue
      rw [find]
      simp only [endDue_ok ok, if_true]
    rw [examine_goes hg hd, first, finishDue_none, gone]
    intro y hy
    rw [gone, List.mem_singleton] at hy
    subst hy
    rfl
  · rw [show entryOf t.ctxs[c] r.handle = entryOf s.ctxs[c] l.handle by rw [ctx]; rfl] at handle
    simpa only [r, hc, Bool.false_eq_true, if_false] using handle

theorem examination : Claims.Examination := by
  refine ⟨fun s c h => ?_, fun s c hg hd hl => (examine_waits hg hd hl).trans ?_, fun s c l hl hst ht hr hc hf hg hd h1 hk hh hx hw hp => ?_⟩
  · unfold examine
    refine if_neg ?_
    rw [droverOn, Bool.and_eq_true, bne_iff_ne, bne_iff_ne]
    rintro ⟨hg, hd⟩
    exact h.elim hg hd
  · congr 1
    funext x
    congr 2
    funext l
    split
    case isTrue hc => exact readyOne_comes hc
    case isFalse hc => exact readyOne_stays hc
  · obtain ⟨hs, ctx, handle⟩ := examine_empty hl hst ht hr hc hf hg hd h1 hk hh hx hw hp
    rw [ctx]
    exact ⟨rfl, rfl, rfl, handle⟩

end Sys2Proof.Proofs

/-! SUPPORT. How a job that is cancelled ends (R60, R63, R80, R365). -/

namespace Sys2Proof.Proofs

open Sys2Proof Sys2Proof.Machine Sys2Proof.Claims Sys2Proof.Laws

/-! ### What the cancel of a job leaves as it is -/

/-- What the parts of a job's cancel leave of the host's side, of the engines and of the contexts: only handles of the context `c` change, and matrix
operations end. -/
structure CancelStep (c : Fin 64) (s t : State) : Prop where
  host : t.host = s.host
  out : t.hostOut = s.hostOut
  down : t.bridge.down = s.bridge.down
  parts : t.parts = s.parts
  copies : t.copies = s.copies
  maints : t.maints = s.maints
  mops : ∀ o ∈ t.mops, o ∈ s.mops
  others : ∀ d, d ≠ c → t.ctxs[d] = s.ctxs[d]
  own : ∃ hs, t.ctxs[c] = { s.ctxs[c] with handles := hs }

theorem CancelStep.refl (c : Fin 64) (s : State) : CancelStep c s s :=
  ⟨rfl, rfl, rfl, rfl, rfl, rfl, fun _ h => h, fun _ _ => rfl, s.ctxs[c].handles, rfl⟩

theorem CancelStep.trans {c : Fin 64} {s t u : State} (h : CancelStep c s t) (g : CancelStep c t u) : CancelStep c s u := by
  obtain ⟨hs, hc⟩ := h.own
  obtain ⟨gs, gc⟩ := g.own
  exact ⟨g.host.trans h.host, g.out.trans h.out, g.down.trans h.down, g.parts.trans h.parts, g.copies.trans h.copies, g.maints.trans h.maints,
    fun o m => h.mops o (g.mops o m), fun d hd => (g.others d hd).trans (h.others d hd), gs, by rw [gc, hc]⟩

theorem CancelStep.fold {α : Type} {c : Fin 64} {f : State → α → State} {l : List α} (hf : ∀ s, ∀ a ∈ l, CancelStep c s (f s a)) (s : State) :
    CancelStep c s (l.foldl f s) := by
  induction l generalizing s with
  | nil => exact .refl c s
  | cons a r ih => exact (hf s a (.head r)).trans (ih (fun s x hx => hf s x (.tail a hx)) _)

section

variable (s : State) (c : Fin 64)

theorem modHandles_cancel (f : List HEntry → List HEntry) : CancelStep c s (modCtx s c fun x => { x with handles := f x.handles }) :=
  ⟨rfl, rfl, rfl, rfl, rfl, rfl, fun _ h => h, fun d hd => modCtx_other s c d _ hd, _, modCtx_same s c _⟩

theorem modEntry_cancel (h : BitVec 32) (f : HEntry → HEntry) : CancelStep c s (modEntry s c h f) := by
  unfold modEntry
  split
  · exact modHandles_cancel s c fun hs => hs.map _
  · exact .refl c s

theorem endHandle_cancel (h : BitVec 32) (st : HState) (f : HEntry → HEntry) : CancelStep c s (endHandle s c h st f) :=
  CancelStep.trans (t := { s with serial := s.serial + 1 })
    ⟨rfl, rfl, rfl, rfl, rfl, rfl, fun _ h => h, fun _ _ => rfl, _, rfl⟩ (modEntry_cancel _ c h _)

theorem cancelMat_cancel (o : MatOp) (ho : o.ctx = c) : CancelStep c s (cancelMat s o) := by
  subst ho
  unfold cancelMat dropPending
  refine CancelStep.trans ?_ (endHandle_cancel _ o.ctx _ _ _)
  split <;> split <;> try split
  all_goals exact ⟨rfl, rfl, rfl, rfl, rfl, rfl, fun x h => (List.mem_filter.mp h).1, fun _ _ => rfl, _, rfl⟩

theorem cancelOp_cancel (e : HEntry) : CancelStep c s (cancelOp s c e) := by
  unfold cancelOp
  dsimp only
  split
  · exact modEntry_cancel s c _ _
  · exact modEntry_cancel s c _ _
  · split
    case h_1 o ho =>
      have hc := List.find?_some ho
      simp only [Bool.and_eq_true, beq_iff_eq] at hc
      exact cancelMat_cancel s c o hc.1
    case h_2 => exact .refl c s
  · exact CancelStep.trans (t := { s with carves := s.carves.filter _ })
      ⟨rfl, rfl, rfl, rfl, rfl, rfl, fun _ h => h, fun _ _ => rfl, _, rfl⟩ (endHandle_cancel _ c _ _ _)
  · exact endHandle_cancel s c _ _ _
  · exact .refl c s

theorem cancelOps_cancel (o : Owner) : CancelStep c s (cancelOps s c o) := .fold (fun s e _ => cancelOp_cancel s c e) s

end

/-- What only caches and memory change leaves every other part of the state. -/
theorem onlyCaches_field {α : Type} {s t : State} (h : OnlyCaches s t) (f : State → α) (hf : ∀ z, f (aside z) = f z) : f t = f s := by
  rw [← hf t, h.rest, hf s]

theorem onlyCaches_cancel {s t : State} (h : OnlyCaches s t) (hd : t.bridge.down = s.bridge.down) (c : Fin 64) : CancelStep c s t := by
  have mops := onlyCaches_field h State.mops fun _ => rfl
  exact ⟨onlyCaches_field h State.host fun _ => rfl, onlyCaches_field h State.hostOut fun _ => rfl, hd, h.parts,
    onlyCaches_field h State.copies fun _ => rfl, onlyCaches_field h State.maints fun _ => rfl,
    fun o m => mops ▸ m, fun d _ => by rw [h.ctxs], s.ctxs[c].handles, by rw [h.ctxs]⟩

theorem homeWrite_cancel (s : State) (r : Fin 2) (a n x : Nat) (c : Fin 64) : CancelStep c s (homeWrite s r Acc.plain false a n x) :=
  onlyCaches_cancel (homeWrite_only s r Acc.plain false a n x) (homeWrite_home s r false a n x).down c

/-- To disarm the records of a context changes only memory and caches, and the records (R247). -/
theorem disarmRecords_only (s : State) (c : Fin 64) : OnlyCaches s (disarmRecords s c) :=
  .fold (fun s d => (modDie_only s d _).toCaches.trans (.fold (fun s _ => homeWrite_only s d Acc.plain false _ _ _) _ _)) _ s

theorem disarmRecords_cancel (s : State) (c : Fin 64) : CancelStep c s (disarmRecords s c) := by
  refine .fold (fun s d _ => ?_) s
  exact CancelStep.trans (onlyCaches_cancel (modDie_only s d _).toCaches rfl c) (.fold (fun s r _ => homeWrite_cancel s d _ _ _ c) _)

/-! ### The end of a job whose cancel is over (R60, R63) -/

theorem sendWord_host (s : State) (fn : Nat) (x : HeldMsg) : ∃ b h o, sendWord s fn x = { s with bridge := b, host := h, hostOut := o } := by
  unfold sendWord
  split
  · exact ⟨s.bridge, _, s.hostOut, rfl⟩
  · obtain ⟨b, e⟩ | ⟨b, d, e⟩ | ⟨e, -⟩ := toHostFor_cases s x
    · exact ⟨b, s.host, _, e⟩
    · exact ⟨b, _, s.hostOut, e⟩
    · exact ⟨s.bridge, s.host, s.hostOut, e⟩

/-- A context whose running job ends, with no start held, is idle (R60). -/
theorem setIdle_running {s : State} {c : Fin 64} (hs : s.ctxs[c].st = .running) (hh : s.ctxs[c].held = none) :
    setIdle s c = modCtx s c fun x => { x with
      st := if x.st == .running then .idle else x.st
      before := if x.st == .running then x.before else .idle
      jobWait := false, launches := [], resvUnit := none, resvCore := [], jobEnd := none
      handles := x.handles.map fun e => { e with st := .free } } := by
  unfold setIdle
  generalize ht : modCtx s c _ = t
  have st : t.ctxs[c].st = .idle := by
    rw [← ht, modCtx_same]
    show (if s.ctxs[c].st == .running then CState.idle else s.ctxs[c].st) = .idle
    rw [hs]
    rfl
  have held : t.ctxs[c].held = none := by
    rw [← ht, modCtx_same]
    exact hh
  have still : tryHalted t c = t := by
    refine if_neg ?_
    simp only [haltComplete, st]
    simp
  dsimp only
  rw [still, startHeld, st, held]

/-- The completion word of the context `c` with END and CODE (R61). -/
def endWord (s : State) (c : Fin 64) (e code : Nat) : HostMsg :=
  .completion (functionOf s c) s.ctxs[c].caddr (completionWord s.ctxs[c].seq e code) s.ctxs[c].vec.val

theorem complete_tells {s : State} {c : Fin 64} {e code : Nat} (h : Hears s (homeDie s c)) : Tells (complete s c e code) (endWord s c e code) := by
  unfold complete sendWord
  dsimp only
  split
  · exact .inr ⟨_, List.mem_append_right _ (List.mem_append_right _ (List.mem_singleton_self _)), rfl⟩
  · exact (toHostFor_sends s _).2 (crossing_hears h)

theorem complete_out {s : State} {c : Fin 64} {e code : Nat} (hu : s.host.up = true) (hd : homeDie s c = 0)
    (hh : ∀ y ∈ s.host.held, y.die ≠ 0) (hw : heldWords s (functionOf s c) < 64)
    (ho : ∀ y ∈ s.host.owed, y.wordOf (functionOf s c) = false) :
    (complete s c e code).hostOut = s.hostOut ++ [endWord s c e code] := by
  have owed : s.host.owed.any (·.wordOf (functionOf s c)) = false :=
    List.any_eq_false.mpr fun y hy k => Bool.false_ne_true ((ho y hy).symm.trans k)
  have held : (s.host.held.any fun y => y.die == 0) = false :=
    List.any_eq_false.mpr fun y hy k => hh y hy (beq_iff_eq.mp k)
  simp only [complete, sendWord, owed, Bool.or_false, decide_eq_true_eq, if_neg (Nat.not_le.mpr hw), toHostFor, hd, crossing, if_true,
    atHostPort, hu, held, Bool.not_false, Bool.and_self]
  rfl

theorem mem_filter_other {α : Type} {f : α → Fin 64} {c : Fin 64} {l : List α} {x : α} (h : x ∈ l.filter fun y => f y != c) : f x ≠ c :=
  bne_iff_ne.mp (List.mem_filter.mp h).2

theorem dropAll_gone (s : State) (c : Fin 64) : (∀ w ∈ (dropAll s c).warps, w.ctx ≠ c) ∧ (∀ u ∈ (dropAll s c).units, u.ctx ≠ c) ∧
    (∀ o ∈ (dropAll s c).copies, o.ctx ≠ c) ∧ ∀ o ∈ (dropAll s c).mops, o.ctx ≠ c :=
  ⟨fun _ h => mem_filter_other (f := Warp.ctx) (l := s.warps) h, fun _ h => mem_filter_other (f := UnitSt.ctx) (l := s.units) h,
    fun _ h => mem_filter_other (f := CopyOp.ctx) (l := s.copies) h, fun _ h => mem_filter_other (f := MatOp.ctx) (l := s.mops) h⟩

/-- The completion word of a job whose warps and operations are dropped (R42, R61). -/
theorem dropAll_sends {s : State} {c : Fin 64} {e : Nat} (he : e < 256) : ∃ m, m = HostMsg.completion (functionOf s c) s.ctxs[c].caddr
      (BitVec.ofNat 64 (s.ctxs[c].seq.toNat * 2 ^ 32 + e * 2 ^ 24 + 0)) s.ctxs[c].vec.val ∧
    (Hears s (homeDie s c) → Tells (complete (dropAll s c) c e 0) m) ∧
    (s.host.up = true → homeDie s c = 0 → (∀ y ∈ s.host.held, y.die ≠ 0) → (heldWords s (functionOf s c) < 64) →
      (∀ y ∈ s.host.owed, y.wordOf (functionOf s c) = false) → (complete (dropAll s c) c e 0).hostOut = s.hostOut ++ [m]) := by
  have fn : functionOf (dropAll s c) c = functionOf s c := rfl
  have home : homeDie (dropAll s c) c = homeDie s c := rfl
  have host : (dropAll s c).host = s.host := rfl
  have out : (dropAll s c).hostOut = s.hostOut := rfl
  have word : endWord (dropAll s c) c e 0 = HostMsg.completion (functionOf s c) s.ctxs[c].caddr
      (BitVec.ofNat 64 (s.ctxs[c].seq.toNat * 2 ^ 32 + e * 2 ^ 24 + 0)) s.ctxs[c].vec.val := by
    rw [endWord, fn, completionWord, Nat.mod_eq_of_lt he, Nat.zero_mod]
    rfl
  refine ⟨_, word, fun hr => complete_tells (by rw [home]; exact hr), fun hup hd hn hw ho => ?_⟩
  rw [complete_out (by rw [host]; exact hup) (by rw [home]; exact hd) (by rw [host]; exact hn) (by rw [fn, heldWords, host]; exact hw)
    (by rw [fn, host]; exact ho), out]

/-- The end of a job that nothing keeps any more (R60, R63). -/
theorem endCancelled_over {s : State} {c : Fin 64} {e : Nat} (hj : s.ctxs[c].jobEnd = some e) (hs : s.ctxs[c].st = .running)
    (hh : s.ctxs[c].held = none) (h3 : e ≠ 3) (he : e < 256) (ho : cancelOver s c = true) :
    JobEnds s (endCancelled s c) c e 0 ∧ (∀ u ∈ (endCancelled s c).units, u.ctx ≠ c) ∧
      (∀ o ∈ (endCancelled s c).copies, o.ctx ≠ c) ∧ ∀ o ∈ (endCancelled s c).mops, o.ctx ≠ c := by
  let d := dropAll s c
  let u := complete d c e 0
  obtain ⟨b, h, o, hu⟩ : ∃ b h o, u = { d with bridge := b, host := h, hostOut := o } := sendWord_host _ _ _
  have ctxs : u.ctxs = s.ctxs := by rw [hu]; rfl
  have eq : endCancelled s c = setIdle u c := by
    simp only [endCancelled, hj, hs, ho, if_neg h3]
    rfl
  rw [eq, setIdle_running (by rw [ctxs]; exact hs) (by rw [ctxs]; exact hh)]
  have gone := dropAll_gone s c
  refine ⟨⟨?_, ?_, ?_, ?_, dropAll_sends he, fun k hk => ?_⟩, ?_, ?_, ?_⟩
  · rw [modCtx_same, ctxs]
    show (if s.ctxs[c].st == .running then CState.idle else s.ctxs[c].st) = .idle
    rw [hs]
    rfl
  · rw [modCtx_same]
  · intro y hy
    rw [modCtx_same] at hy
    obtain ⟨z, -, rfl⟩ := List.mem_map.mp hy
    rfl
  · rw [modCtx_warps, hu]
    exact gone.1
  · rw [modCtx_other _ _ _ _ hk, ctxs]
  · rw [modCtx_units, hu]
    exact gone.2.1
  · show ∀ o ∈ u.copies, _
    rw [hu]
    exact gone.2.2.1
  · show ∀ o ∈ u.mops, _
    rw [hu]
    exact gone.2.2.2

theorem endCancelled_goes {s : State} {c : Fin 64} (hs : s.ctxs[c].st = .running) (ho : cancelOver s c = false) : endCancelled s c = s := by
  unfold endCancelled
  split
  · rfl
  · rw [hs, ho]
    rfl

/-! ### The cancel of a job (R365) -/

theorem cancelOver_iff (s : State) (c : Fin 64) : cancelOver s c = true ↔ liveOf s.ctxs[c] = [] ∧
    ¬ ((∃ o ∈ s.copies, o.ctx = c ∧ o.faulted = false) ∨ (∃ o ∈ s.mops, o.ctx = c ∧ o.faulted = false) ∨
      ∃ o ∈ s.maints, o.ctx = c ∧ o.faulted = false) := by
  have live : (s.ctxs[c].launches.any launchLive) = false ↔ liveOf s.ctxs[c] = [] := by
    rw [liveOf, List.filter_eq_nil_iff, List.any_eq_false]
    rfl
  simp only [cancelOver, Bool.and_eq_true, Bool.not_eq_true', live, ← Bool.not_eq_true, List.any_eq_true, beq_iff_eq, not_or, and_assoc]

theorem modCtx_fixed {s : State} {c : Fin 64} {f : Ctx → Ctx} (h : f s.ctxs[c] = s.ctxs[c]) : modCtx s c f = s := by
  unfold modCtx
  rw [h]
  congr 1
  exact Vector.set_getElem_self c.isLt

theorem launchLive_iff (l : Launch) :
    launchLive l = true ↔ l.st = .held ∨ l.st = .ready ∨ l.st = .running ∨ (l.st = .cancelled ∧ l.fin = false) := by
  simp only [launchLive, Bool.and_eq_true, Bool.or_eq_true, beq_iff_eq, Bool.not_eq_true', or_assoc]

section

variable {s : State} {c : Fin 64}

theorem dead_of_noLive {x : Ctx} (hl : liveOf x = []) {l : Launch} (hm : l ∈ x.launches) : ¬ launchLive l = true :=
  List.filter_eq_nil_iff.mp hl l hm

/-- A running context with no live launch has nothing to examine. -/
theorem examine_idle (hs : s.ctxs[c].st = .running) (hl : liveOf s.ctxs[c] = []) : examine s c = s := by
  have stays : ∀ l ∈ s.ctxs[c].launches, readyOne s.ctxs[c] l = l := fun l hm =>
    readyOne_stays fun k => dead_of_noLive hl hm ((launchLive_iff l).mpr (.inl k.1))
  rw [examine_waits (by rw [hs]; exact nofun) (by rw [hs]; exact nofun) fun l hm => ?_]
  · exact modCtx_fixed (by rw [List.map_congr_left stays, List.map_id'])
  · have dead := mt (launchLive_iff l).mpr (dead_of_noLive hl hm)
    cases hst : l.st <;> simp [hst] at dead ⊢
    exact .inl dead

/-- The cancel of a launch changes nothing of a context with no live launch (R80). -/
theorem cancelLaunch_idle (hl : liveOf s.ctxs[c] = []) (id : Nat) : cancelLaunch s c id = s := by
  cases hf : findLaunch s.ctxs[c] id with
  | none => simp only [cancelLaunch, hf]
  | some l =>
    obtain rfl := findLaunch_id hf
    refine cancelLaunch_over hf (.inl ?_)
    have dead := mt (launchLive_iff l).mpr (dead_of_noLive hl (List.mem_of_find?_eq_some hf))
    cases hst : l.st <;> simp [hst] at dead ⊢

end

/-- The state in which the operations and the warps of a job are gone, and its end is owed (R60, R365). -/
def jobGone (s : State) (c : Fin 64) (e : Nat) : State :=
  let t := (jobWarps s c).foldl (fun s w => cancelOps s c (.warp w.id)) s
  let u := { dropWarps t fun w => w.ctx == c && onDispatch w with
    starts := tabulate 2 fun d => t.starts[d].filter fun r => match r with | .job x => x != c | .service x _ => x != c }
  modCtx (disarmRecords u c) c fun x => { x with jobEnd := some e, jobWait := false }

section

variable {s : State} {c : Fin 64} {e : Nat}

theorem jobGone_step : ∃ u, CancelStep c s u ∧ jobGone s c e = modCtx u c fun x => { x with jobEnd := some e, jobWait := false } := by
  refine ⟨_, CancelStep.trans ?_ (disarmRecords_cancel _ c), rfl⟩
  exact CancelStep.trans (.fold (fun s w _ => cancelOps_cancel s c (.warp w.id)) s)
    ⟨rfl, rfl, rfl, rfl, rfl, rfl, fun _ h => h, fun _ _ => rfl, _, rfl⟩

theorem jobGone_warps : ∀ v ∈ (jobGone s c e).warps, v.ctx = c → onDispatch v = false := by
  intro v hv hc
  unfold jobGone at hv
  rw [modCtx_warps, (disarmRecords_only _ c).warps] at hv
  have kept := (List.mem_filter.mp hv).2
  simpa [hc] using kept

theorem jobGone_ctx : ∃ hs, (jobGone s c e).ctxs[c] = { s.ctxs[c] with handles := hs, jobEnd := some e, jobWait := false } := by
  obtain ⟨u, step, eq⟩ := jobGone_step (s := s) (c := c) (e := e)
  obtain ⟨hs, own⟩ := step.own
  exact ⟨hs, by rw [eq, modCtx_same, own]⟩

/-- Where no launch of the job is live, its cancel is to drop it and to end it once its operations are over. -/
theorem cancelWholeJob_idle (hs : s.ctxs[c].st = .running) (hl : liveOf s.ctxs[c] = []) :
    cancelWholeJob s c e = endCancelled (jobGone s c e) c := by
  have launches : s.ctxs[c].launches.foldl (fun s l => cancelLaunch s c l.id) s = s :=
    foldl_fixed_mem fun l _ => cancelLaunch_idle hl l.id
  obtain ⟨_, ctx⟩ := jobGone_ctx (s := s) (c := c) (e := e)
  unfold cancelWholeJob
  rw [launches]
  show endCancelled (examine (jobGone s c e) c) c = _
  rw [examine_idle (by rw [ctx]; exact hs) (by rw [ctx]; exact hl)]

theorem jobGone_over (hl : liveOf s.ctxs[c] = []) (hg : ¬ ((∃ o ∈ s.copies, o.ctx = c ∧ o.faulted = false) ∨
    (∃ o ∈ s.mops, o.ctx = c ∧ o.faulted = false) ∨ ∃ o ∈ s.maints, o.ctx = c ∧ o.faulted = false)) :
    cancelOver (jobGone s c e) c = true := by
  obtain ⟨u, step, eq⟩ := jobGone_step (s := s) (c := c) (e := e)
  obtain ⟨_, ctx⟩ := jobGone_ctx (s := s) (c := c) (e := e)
  rw [cancelOver_iff]
  refine ⟨by rw [ctx]; exact hl, fun h => hg ?_⟩
  rw [eq] at h
  refine h.imp (fun ⟨o, ho, k⟩ => ⟨o, ?_, k⟩) (.imp (fun ⟨o, ho, k⟩ => ⟨o, step.mops o ho, k⟩) fun ⟨o, ho, k⟩ => ⟨o, ?_, k⟩)
  · rw [← step.copies]; exact ho
  · rw [← step.maints]; exact ho

theorem jobGone_copying (h : ∃ o ∈ s.copies, o.ctx = c ∧ o.faulted = false) : cancelOver (jobGone s c e) c = false := by
  obtain ⟨u, step, eq⟩ := jobGone_step (s := s) (c := c) (e := e)
  rw [← Bool.not_eq_true, cancelOver_iff]
  rintro ⟨-, no⟩
  refine no (.inl ?_)
  rw [eq]
  show ∃ o ∈ u.copies, _
  rw [step.copies]
  exact h

/-- The end of a job whose warps and operations are gone is the end of the job. -/
theorem jobEnds_gone {t : State} {k : Nat} (h : JobEnds (jobGone s c e) t c k 0) : JobEnds s t c k 0 := by
  obtain ⟨u, step, eq⟩ := jobGone_step (s := s) (c := c) (e := e)
  obtain ⟨hs, ctx⟩ := jobGone_ctx (s := s) (c := c) (e := e)
  have fn : functionOf (jobGone s c e) c = functionOf s c := by
    simp only [functionOf, ctx, show (jobGone s c e).parts = s.parts by rw [eq]; exact step.parts]
  have home : homeDie (jobGone s c e) c = homeDie s c := by
    simp only [homeDie, ctx, show (jobGone s c e).parts = s.parts by rw [eq]; exact step.parts]
  have host : (jobGone s c e).host = s.host := by rw [eq]; exact step.host
  have out : (jobGone s c e).hostOut = s.hostOut := by rw [eq]; exact step.out
  have down : (jobGone s c e).bridge.down = s.bridge.down := by rw [eq]; exact step.down
  obtain ⟨idle, launches, handles, warps, ⟨m, hm, tells, sends⟩, others⟩ := h
  simp only [Hears, heldWords, fn, home, host, out, down, ctx] at hm tells sends
  refine ⟨idle, launches, handles, warps, ⟨m, hm, tells, sends⟩, fun d hd => (others d hd).trans ?_⟩
  rw [eq, modCtx_other _ _ _ _ hd, step.others d hd]

end

/-- The message to the home Drover changes only the bridge. -/
theorem jobEnds_toDrover {s t u : State} {w : Warp} {c : Fin 64} {e k : Nat} (h : JobEnds s t c e k) : JobEnds s (toDrover u w t) c e k := by
  unfold toDrover
  split
  · exact h
  · exact ⟨h.idle, h.launches, h.handles, h.warps, h.sent, h.others⟩

theorem jobEnds_counted {s t : State} {w : Warp} {sp : Fin 8} {c : Fin 64} {e k : Nat} (h : JobEnds (counted s w sp) t c e k) :
    JobEnds s t c e k := ⟨h.idle, h.launches, h.handles, h.warps, h.sent, h.others⟩

theorem jobCancel : Claims.JobCancel := by
  refine ⟨fun o s w sp x h => ?_, fun s c e hj hs hh h3 he => ⟨endCancelled_goes hs, fun ho => endCancelled_over hj hs hh h3 he ho⟩⟩
  intro i goes
  refine ⟨ofDrover_idle (cancelJob_ofDrover o) h, fun ha hx => ⟨ofDrover_ends (e := .moved _) (cancelJob_ofDrover o) h ha hx rfl, ?_, ?_⟩⟩
  · intro hs hh hl hg
    let u := counted s w sp
    obtain ⟨hs', ctx⟩ := jobGone_ctx (s := u) (c := w.ctx) (e := 1)
    have ends := (endCancelled_over (s := jobGone u w.ctx 1) (c := w.ctx) (e := 1) (by rw [ctx]) (by rw [ctx]; exact hs) (by rw [ctx]; exact hh)
      (by decide) (by decide) (jobGone_over hl hg)).1
    rw [cancelWholeJob_idle (s := u) hs hl]
    exact jobEnds_toDrover (jobEnds_counted (jobEnds_gone ends))
  · intro hs hl hc t
    let u := counted s w sp
    obtain ⟨hs', ctx⟩ := jobGone_ctx (s := u) (c := w.ctx) (e := 1)
    obtain ⟨v, step, eq⟩ := jobGone_step (s := u) (c := w.ctx) (e := 1)
    have stays : t = jobGone u w.ctx 1 := by
      exact (cancelWholeJob_idle (s := u) hs hl).trans (endCancelled_goes (by rw [ctx]; exact hs) (jobGone_copying hc))
    rw [stays]
    refine ⟨by rw [ctx]; exact hs, by rw [ctx], ?_, jobGone_warps⟩
    rw [eq]
    exact step.out
/-- Settles O51: the forms of the work group go through what the home Drover makes of them, the end of a launch through what its release waits
for, and the cancel of a job through what it leaves as it is. -/
theorem eventsCancelsAndCounters : Obligations.EventsCancelsAndCounters :=
  ⟨examination, events, homeDrover, launchCancels, launchEnds, jobCancel, counters⟩

end Sys2Proof.Proofs

/-! SUPPORT. The traffic of the bridge (R25-R27): packets that are sent, arrive and are replayed, and what had waited to cross. -/

namespace Sys2Proof.Proofs

open Sys2Proof Sys2Proof.Machine Sys2Proof.Claims Sys2Proof.Laws

/-! ### Packets that leave a die (R25, R26) -/

/-- Packets have left: they stand at the end of the sender's queue or of the replay buffer, and nothing else of the bridge changes but the
sequence numbers. -/
def Left (b b' : Bridge) : Prop :=
  ∃ sq xs ys, b' = { b with seq := sq, queue := b.queue ++ xs, replay := b.replay ++ ys }

theorem Left.refl (b : Bridge) : Left b b := ⟨b.seq, [], [], by simp⟩

theorem Left.trans {b b' b'' : Bridge} (h : Left b b') (g : Left b' b'') : Left b b'' := by
  obtain ⟨_, xs, ys, rfl⟩ := h
  obtain ⟨sq, xs', ys', rfl⟩ := g
  exact ⟨sq, xs ++ xs', ys ++ ys', by simp⟩

theorem sendPacket_left (s : State) (dir : Fin 2) (a : Nat) (body : PktBody) (now : Bool) : Left s.bridge (sendPacket s dir a body now).bridge := by
  unfold sendPacket
  dsimp only
  split
  · exact ⟨_, [], [_], by rw [List.append_nil]⟩
  · exact ⟨_, [_], [], by rw [List.append_nil]⟩

theorem atHostPort_bridge (s : State) (x : HeldMsg) : (atHostPort s x).bridge = s.bridge := by
  unfold atHostPort
  split <;> rfl

theorem toHostFor_left (s : State) (x : HeldMsg) : Left s.bridge (toHostFor s x).bridge := by
  unfold toHostFor
  split
  · exact .refl _
  · exact .refl _
  · split
    · rw [atHostPort_bridge]; exact .refl _
    · split
      · exact .refl _
      · rw [atHostPort_bridge]; exact sendPacket_left _ _ _ _ _

/-- A message of die 0 does not cross the bridge. -/
theorem toHostFor_near {s : State} {x : HeldMsg} (h : x.die = 0) : (toHostFor s x).bridge = s.bridge := by
  simp only [toHostFor, h, crossing, if_true, atHostPort_bridge]

theorem sendWord_left (s : State) (fn : Nat) (x : HeldMsg) : Left s.bridge (sendWord s fn x).bridge := by
  unfold sendWord
  split
  · exact .refl _
  · exact toHostFor_left s x

theorem sendWord_near {s : State} {fn : Nat} {x : HeldMsg} (h : x.die = 0) : (sendWord s fn x).bridge = s.bridge := by
  unfold sendWord
  split
  · rfl
  · exact toHostFor_near h

/-! ### What waited to cross, or for the host (R26, R42) -/

/-- A word that waited for a place, or another message, is sent again. -/
def sendOwed (s : State) (x : HeldMsg) : State :=
  match x.msg with
  | .completion fn _ _ _ => sendWord s fn x
  | _ => toHostFor s x

/-- A state with no message that waits. -/
def noneWaits (s : State) : State := { s with host := { s.host with held := [], owed := [] } }

theorem sendHeld_eq (s : State) : sendHeld s = s.host.owed.foldl sendOwed (s.host.held.foldl toHostFor (noneWaits s)) := rfl

theorem sendWord_sends (s : State) (fn : Nat) (x : HeldMsg) :
    HealthStep s (sendWord s fn x) ∧ (crossing s x.die 0 ≠ .down → Tells (sendWord s fn x) x.msg) := by
  refine ⟨(sendWord_quiet s fn x).1, fun h => ?_⟩
  unfold sendWord
  split
  · exact .inr ⟨x, List.mem_append_right _ (List.mem_append_right _ (List.mem_singleton_self x)), rfl⟩
  · exact (toHostFor_sends s x).2 h

theorem sendOwed_sends (s : State) (x : HeldMsg) :
    HealthStep s (sendOwed s x) ∧ (crossing s x.die 0 ≠ .down → Tells (sendOwed s x) x.msg) := by
  unfold sendOwed
  split
  · exact sendWord_sends s _ x
  · exact toHostFor_sends s x

theorem sendOwed_left (s : State) (x : HeldMsg) : Left s.bridge (sendOwed s x).bridge := by
  unfold sendOwed
  split
  · exact sendWord_left s _ x
  · exact toHostFor_left s x

theorem sendOwed_near {s : State} {x : HeldMsg} (h : x.die = 0) : (sendOwed s x).bridge = s.bridge := by
  unfold sendOwed
  split
  · exact sendWord_near h
  · exact toHostFor_near h

section

variable {send : State → HeldMsg → State}

theorem foldl_left (h : ∀ s x, Left s.bridge (send s x).bridge) (xs : List HeldMsg) (s : State) : Left s.bridge (xs.foldl send s).bridge := by
  induction xs generalizing s with
  | nil => exact .refl _
  | cons x r ih => exact (h s x).trans (ih _)

theorem foldl_near (h : ∀ s x, x.die = 0 → (send s x).bridge = s.bridge) {xs : List HeldMsg} (hx : ∀ x ∈ xs, x.die = 0) (s : State) :
    (xs.foldl send s).bridge = s.bridge := by
  induction xs generalizing s with
  | nil => rfl
  | cons x r ih => exact (ih (fun y hy => hx y (.tail x hy)) _).trans (h s x (hx x (.head r)))

theorem foldl_sends (h : ∀ s x, HealthStep s (send s x) ∧ (crossing s x.die 0 ≠ .down → Tells (send s x) x.msg)) (xs : List HeldMsg) (s : State) :
    HealthStep s (xs.foldl send s) ∧ (s.bridge.down = false → ∀ x ∈ xs, Tells (xs.foldl send s) x.msg) := by
  induction xs generalizing s with
  | nil => exact ⟨.refl s, fun _ x hx => nomatch hx⟩
  | cons x r ih =>
    obtain ⟨step, tells⟩ := h s x
    obtain ⟨steps, rest⟩ := ih (send s x)
    refine ⟨step.trans steps, fun hd y hy => ?_⟩
    obtain rfl | hy := List.mem_cons.mp hy
    · exact steps.told _ (tells (crossing_hears (.inr hd)))
    · exact rest (step.down.trans hd) y hy

end

theorem sendHeld_left (s : State) : Left s.bridge (sendHeld s).bridge := by
  rw [sendHeld_eq]
  exact (foldl_left toHostFor_left _ (noneWaits s)).trans (foldl_left sendOwed_left _ _)

theorem sendHeld_near {s : State} (h : ∀ x ∈ s.host.held ++ s.host.owed, x.die = 0) : (sendHeld s).bridge = s.bridge := by
  rw [sendHeld_eq, foldl_near (fun _ _ => sendOwed_near) fun x hx => h x (List.mem_append_right _ hx),
    foldl_near (fun _ _ => toHostFor_near) fun x hx => h x (List.mem_append_left _ hx)]
  rfl

/-- Nothing that waits is sent where nothing does. -/
theorem sendHeld_none {s : State} (hh : s.host.held = []) (ho : s.host.owed = []) : sendHeld s = s := by
  have host : { s.host with held := [], owed := [] } = s.host := by
    generalize s.host = h at hh ho ⊢
    cases h
    cases hh
    cases ho
    rfl
  rw [sendHeld_eq, hh, ho]
  show { s with host := _ } = s
  rw [host]

/-- What waited is heard of, or waits on: while the bridge is up, nothing is lost (R26). -/
theorem sendHeld_sends {s : State} : sameWork s (sendHeld s) ∧ (sendHeld s).bridge.down = s.bridge.down ∧ (sendHeld s).host.up = s.host.up ∧
    (s.bridge.down = false → ∀ y ∈ s.host.held ++ s.host.owed, Tells (sendHeld s) y.msg) := by
  obtain ⟨first, held⟩ := foldl_sends toHostFor_sends s.host.held (noneWaits s)
  obtain ⟨then', owed⟩ := foldl_sends sendOwed_sends s.host.owed (s.host.held.foldl toHostFor (noneWaits s))
  rw [sendHeld_eq]
  refine ⟨(first.trans then').sameWork, (first.trans then').down, (first.trans then').up, fun hd y hy => ?_⟩
  obtain hy | hy := List.mem_append.mp hy
  · exact then'.told _ (held hd y hy)
  · exact owed (first.down.trans hd) y hy

/-! ### Packets that arrive (R25, R26, R149) -/

theorem mayDeliver_iff {b : Bridge} {i : Nat} {p : Packet} : mayDeliver b i p = true ↔ MayArrive b i p := by
  have before : ((b.queue.take i).all fun q => !(q.dir == p.dir && q.src == p.src && q.dst == p.dst)) = true ↔
      ∀ (j : Nat) (q : Packet), j < i → b.queue[j]? = some q → ¬ (q.dir = p.dir ∧ q.src = p.src ∧ q.dst = p.dst) := by
    rw [List.all_eq_true]
    simp only [Bool.not_eq_true', Bool.and_eq_false_iff, beq_eq_false_iff_ne, not_and_or, or_assoc]
    constructor
    · intro h j q hj hq
      exact h q (List.mem_of_getElem? ((List.getElem?_take_of_lt hj).trans hq))
    · intro h q hq
      obtain ⟨j, hj⟩ := List.mem_iff_getElem?.mp hq
      rw [List.getElem?_take] at hj
      split at hj
      case isTrue hi => exact h j q hi hj
      case isFalse => cases hj
  simp only [mayDeliver, Bool.and_eq_true, Bool.not_eq_true', Option.isNone_iff_eq_none, decide_eq_true_eq, before, and_assoc]
  rfl

theorem deliverPacket_slices (s : State) (p : Packet) : SlicesUsed s (deliverPacket s p) := by
  unfold deliverPacket
  split
  · exact l2Drop_slices _ _ _
  all_goals exact .refl s

theorem deliverPacket_bridge (s : State) (p : Packet) : (deliverPacket s p).bridge = s.bridge := by
  unfold deliverPacket
  split <;> rfl

/-- A packet that is no invalidation does nothing where it arrives (log 16). -/
theorem deliverPacket_plain {s : State} {p : Packet} (h : ∀ sector owner, p.body ≠ .inval sector owner) : deliverPacket s p = s := by
  unfold deliverPacket
  split
  case h_1 sector owner e => exact absurd e (h sector owner)
  all_goals rfl

/-- Of lines that differ, the one found among some of them is the one found among all, where it is kept. -/
theorem find?_filter_line {ls : List L2Line} (h : (ls.map (·.line)).Nodup) (p : L2Line → Bool) (k : Nat) :
    (ls.filter p).find? (fun y => y.line == k) = (ls.find? fun y => y.line == k).filter p := by
  induction ls with
  | nil => rfl
  | cons x r ih =>
    obtain ⟨hx, hr⟩ := List.nodup_cons.mp h
    by_cases hk : x.line = k
    · have only : (r.filter p).find? (fun y => y.line == k) = none := List.find?_eq_none.mpr fun y hy e =>
        hx (List.mem_map.mpr ⟨y, (List.mem_filter.mp hy).1, (beq_iff_eq.mp e).trans hk.symm⟩)
      cases hp : p x <;> simp [hk, hp, only, Option.filter]
    · cases hp : p x <;> simp [hk, hp, ih hr]

/-- The line of an L2 that a change of one line leaves. -/
theorem l2Find_l2Mod {s : State} {d : Fin 2} {line : Nat} {f : L2Line → L2Line} (h : (s.dies[d].l2.map (·.line)).Nodup)
    (hf : ∀ y, (f y).line = y.line) (k : Nat) : l2Find (l2Mod s d line f) d k =
      ((l2Find s d k).map fun y => if y.line == line then f y else y).filter fun y => y.st.toList.any (·.isSome) := by
  have keeps : ∀ y : L2Line, (if y.line == line then f y else y).line = y.line := fun y => by
    split
    · exact hf y
    · rfl
  have lines : ((s.dies[d].l2.map fun y => if y.line == line then f y else y).map (·.line)).Nodup := by
    rw [List.map_map]
    simpa only [Function.comp_def, keeps] using h
  unfold l2Find l2Mod
  rw [modDie_same, find?_filter_line lines, List.find?_map]
  simp only [Function.comp_def, keeps]

/-- A line with no sector holds no sector. -/
theorem sector_filter (o : Option L2Line) (k : Nat) :
    (o.filter fun y => y.st.toList.any (·.isSome)).bind (·.sector k) = o.bind (·.sector k) := by
  cases o with
  | none => rfl
  | some y =>
    cases hp : y.st.toList.any (·.isSome) with
    | true => simp [Option.filter, hp]
    | false =>
      have none' : y.sector k = none := by
        have mem : y.sector k ∈ y.st.toList := by
          unfold L2Line.sector
          exact Vector.mem_toList_iff.mpr (Vector.getElem_mem _)
        simpa using List.any_eq_false.mp hp _ mem
      simp [Option.filter, hp, none']

/-- The sectors of a line with the state of one replaced. -/
theorem mark_sector (y : L2Line) (a b : Nat) (st : Option L2St) :
    (y.mark a st).sector b = if b % 4 = a % 4 then st else y.sector b := by
  unfold L2Line.mark L2Line.sector
  show (y.st.set (a % 4) st (Nat.mod_lt _ (by decide)))[b % 4]'(Nat.mod_lt _ (by decide)) =
    if b % 4 = a % 4 then st else y.st[b % 4]'(Nat.mod_lt _ (by decide))
  rw [Vector.getElem_set]
  simp only [eq_comm]

/-- What an L2 holds of a sector once another sector of it is dropped (R149). -/
theorem l2State_l2Drop {s : State} {d : Fin 2} {sector : Nat} (h : (s.dies[d].l2.map (·.line)).Nodup) (e : Fin 2) (k : Nat) :
    l2State (l2Drop s d sector) e k = if e = d ∧ k = sector then none else l2State s e k := by
  by_cases he : e = d
  · subst he
    unfold l2State l2Drop
    rw [l2Find_l2Mod h (f := fun y => y.mark sector none) (fun _ => rfl), sector_filter]
    cases hy : l2Find s e (k / 4) with
    | none => simp
    | some y =>
      have line : y.line = k / 4 := by
        unfold l2Find at hy
        simpa using List.find?_some hy
      by_cases hk : k / 4 = sector / 4
      · have same : k % 4 = sector % 4 ↔ k = sector := by omega
        simp [line, hk, mark_sector, same]
      · have differ : k ≠ sector := fun c => hk (by rw [c])
        simp [line, hk, differ]
  · rw [if_neg fun c => he c.1]
    unfold l2State l2Find l2Drop l2Mod
    rw [modDie_other _ _ _ _ he]

/-- What a packet does where it arrives, if it does anything there: a replay does nothing more (R26). -/
def arrived (s : State) (p : Packet) : State := if p.again then s else deliverPacket s p

theorem arrived_slices (s : State) (p : Packet) : SlicesUsed s (arrived s p) := by
  unfold arrived
  split
  · exact .refl s
  · exact deliverPacket_slices s p

theorem arrived_bridge (s : State) (p : Packet) : (arrived s p).bridge = s.bridge := by
  unfold arrived
  split
  · rfl
  · exact deliverPacket_bridge s p

theorem arrived_plain {s : State} {p : Packet} (h : p.again = true ∨ ∀ sector owner, p.body ≠ .inval sector owner) : arrived s p = s := by
  unfold arrived
  split
  · rfl
  · exact deliverPacket_plain (h.resolve_left ‹_›)

theorem otherDie_iff (d e : Fin 2) : e = otherDie d ↔ e ≠ d := by
  revert d e
  decide

theorem packetArrives {s : State} {i : Nat} {p : Packet} (hp : s.bridge.queue[i]? = some p) (h : MayArrive s.bridge i p) :
    ∃ t, exec (.bridgePacket i) s = .next t ∧ sameWork s t ∧ t.bridge.queue = s.bridge.queue.eraseIdx i ∧
      t.bridge.replay = s.bridge.replay ++ [p] ∧ ((p.again = true ∨ ∀ sector owner, p.body ≠ .inval sector owner) → t.dies = s.dies) ∧
      (∀ sector owner, p.body = .inval sector owner → p.again = false → (∀ d : Fin 2, (s.dies[d].l2.map (·.line)).Nodup) →
        ∀ (d : Fin 2) k, l2State t d k = if d ≠ p.dir ∧ k = sector then none else l2State s d k) := by
  refine ⟨modBridge (arrived s p) fun b => { dropPacket b i with replay := b.replay ++ [p] }, ?_, ?_, ?_, ?_, fun hq => ?_, fun sector owner hb ha hn d k => ?_⟩
  · show execBridgePacket i s = _
    simp only [execBridgePacket, hp, mayDeliver_iff.mpr h, if_true]
    rfl
  · exact (arrived_slices s p).health.sameWork
  · exact congrArg (fun b : Bridge => b.queue.eraseIdx i) (arrived_bridge s p)
  · exact congrArg (fun b : Bridge => b.replay ++ [p]) (arrived_bridge s p)
  · show (arrived s p).dies = s.dies
    rw [arrived_plain hq]
  · have drop : arrived s p = l2Drop s (otherDie p.dir) sector := by
      simp only [arrived, ha, deliverPacket, hb, Bool.false_eq_true, if_false]
    show l2State (arrived s p) d k = _
    rw [drop, l2State_l2Drop (hn _)]
    simp only [otherDie_iff]

theorem packetWaits {s : State} {i : Nat} {p : Packet} (hp : s.bridge.queue[i]? = some p) (h : ¬ MayArrive s.bridge i p) :
    exec (.bridgePacket i) s = .next s := by
  show execBridgePacket i s = _
  simp only [execBridgePacket, hp, if_neg (mt mayDeliver_iff.mp h)]

/-! ### Acknowledgements, replays and lanes (R26, R27) -/

theorem bridgeAcknowledged (s : State) (dir : Fin 2) (seq : Nat) :
    let b := { s.bridge with replay := s.bridge.replay.filter fun p => !(p.dir == dir && decide (p.seq + p.flits ≤ seq)) }
    let freed := bridgeStalled s.bridge = true ∧ bridgeStalled b = false
    (¬ freed ∨ (s.host.held = [] ∧ s.host.owed = []) → exec (.bridgeAcknowledge dir seq) s = .next { s with bridge := b }) ∧
    (freed → s.bridge.down = false → ∃ t, exec (.bridgeAcknowledge dir seq) s = .next t ∧ sameWork s t ∧
      ∀ y ∈ s.host.held ++ s.host.owed, Tells t y.msg) := by
  intro b freed
  have eq : exec (.bridgeAcknowledge dir seq) s = .next (if bridgeStalled s.bridge && !bridgeStalled b then sendHeld { s with bridge := b } else { s with bridge := b }) := rfl
  have test : (bridgeStalled s.bridge && !bridgeStalled b) = true ↔ freed := by simp [freed]
  refine ⟨fun h => ?_, fun hf hd => ?_⟩
  · rw [eq]
    split
    case isTrue hf =>
      obtain ⟨hh, ho⟩ := h.resolve_left (not_not_intro (test.mp hf))
      rw [sendHeld_none (s := { s with bridge := b }) hh ho]
    case isFalse => rfl
  · obtain ⟨work, -, -, tells⟩ := sendHeld_sends (s := { s with bridge := b })
    exact ⟨_, eq.trans (congrArg _ (if_pos (test.mpr hf))), work, tells hd⟩

/-- What both senders replay after a good training (R26). -/
theorem replayBoth (b : Bridge) : (replayDir (replayDir b 0) 1).queue = replaysOf b 1 ++ (replaysOf b 0 ++ b.queue) ∧
    (replayDir (replayDir b 0) 1).replay = [] := by
  have one : (b.replay.filter fun p => p.dir != 0).filter (fun p => p.dir == 1) = b.replay.filter fun p => p.dir == 1 := by
    rw [List.filter_filter]
    refine List.filter_congr fun p _ => ?_
    generalize p.dir = d
    revert d
    decide
  refine ⟨?_, ?_⟩
  · simp only [replayDir, replaysOf, one]
  · simp only [replayDir, List.filter_filter, List.filter_eq_nil_iff]
    intro p _
    generalize p.dir = d
    revert d
    decide

theorem bridgeRetrained {s : State} (hd : s.bridge.down = false) :
    ∃ t, exec (.bridgeRetrain true) s = .next t ∧ sameWork s t ∧ t.bridge.retrain = none ∧ t.bridge.attempts = 0 ∧
      replaysOf s.bridge 1 ++ (replaysOf s.bridge 0 ++ s.bridge.queue) <+: t.bridge.queue ∧
      ((∀ x ∈ s.host.held ++ s.host.owed, x.die = 0) → t.bridge.replay = [] ∧
        t.bridge.queue = replaysOf s.bridge 1 ++ (replaysOf s.bridge 0 ++ s.bridge.queue)) ∧
      ∀ y ∈ s.host.held ++ s.host.owed, Tells t y.msg := by
  let u := modBridge s fun b => { replayDir (replayDir b 0) 1 with retrain := none, attempts := 0 }
  obtain ⟨queue, replay⟩ := replayBoth s.bridge
  obtain ⟨work, -, -, tells⟩ := sendHeld_sends (s := u)
  obtain ⟨sq, xs, ys, left⟩ := sendHeld_left u
  refine ⟨sendHeld u, ?_, work, by rw [left]; rfl, by rw [left]; rfl, ?_, fun hn => ?_, tells hd⟩
  · show execBridgeRetrain true s = _
    simp only [execBridgeRetrain, hd, Bool.false_eq_true, if_false, if_true]
    rfl
  · rw [left, ← queue]
    exact ⟨xs, rfl⟩
  · rw [sendHeld_near (s := u) hn]
    exact ⟨replay, queue⟩

theorem withDue_modules {y : Die} (h : y.modules ≠ BitVec.allOnes 96) : (withDue y).rr = true := by
  rw [withDue_rr]
  refine .inl ?_
  simp only [replaceDue, Bool.or_eq_true]
  exact .inl (.inr (bne_iff_ne.mpr h))

@[simp] theorem withDue_same_modules (y : Die) : (withDue y).modules = y.modules := by simp only [withDue]

/-- A module is retired (R27). -/
def withoutModule (module : Fin 96) (x : Die) : Die := { x with modules := x.modules &&& ~~~BitVec.ofNat 96 (2 ^ module.val) }

theorem withoutModule_bits (module : Fin 96) (x : Die) (j : Nat) (hj : j < 96) :
    (withoutModule module x).modules.getLsbD j = true ↔ x.modules.getLsbD j = true ∧ j ≠ module.val := by
  show (x.modules &&& ~~~BitVec.ofNat 96 (2 ^ module.val)).getLsbD j = true ↔ _
  rw [BitVec.getLsbD_and, BitVec.getLsbD_not, BitVec.getLsbD_ofNat, Nat.testBit_two_pow]
  simp only [hj, decide_true, Bool.true_and, Bool.and_eq_true, Bool.not_eq_true', decide_eq_false_iff_not, ne_eq, eq_comm (a := module.val)]

theorem withoutModule_due (module : Fin 96) (x : Die) : (withDue (withoutModule module x)).rr = true := by
  refine withDue_modules fun h => ?_
  have off := withoutModule_bits module x module.val module.isLt
  rw [h, BitVec.getLsbD_allOnes, decide_eq_true module.isLt] at off
  exact (off.mp rfl).2 rfl

/-- A module is retired on both dies (R27). -/
def retireModule (s : State) (d : Fin 2) (module : Fin 96) : State :=
  setHealth (setHealth s d (withoutModule module)) (otherDie d) (withoutModule module)

theorem retireModule_dies (s : State) (d e : Fin 2) (module : Fin 96) :
    (retireModule s d module).dies[e] = withDue (withoutModule module s.dies[e]) := by
  unfold retireModule
  by_cases he : e = d
  · subst he
    rw [setHealth_other _ _ _ _ (otherDie_ne e).symm, setHealth_same]
  · obtain rfl := (otherDie_iff d e).mpr he
    rw [setHealth_same, setHealth_other _ _ _ _ he]

theorem retireModule_health (s : State) (d : Fin 2) (module : Fin 96) : HealthStep s (retireModule s d module) :=
  (setHealth_health _ _ _).trans (setHealth_health _ _ _)

theorem laneFails_eq (s : State) (d : Fin 2) (module : Fin 96) :
    exec (.bridgeLaneFailure d module false) s = .next (retireModule s d module) := by
  show execBridgeLaneFailure d module false s = _
  unfold execBridgeLaneFailure
  exact if_neg Bool.false_ne_true

theorem laneFails (s : State) (d : Fin 2) (module : Fin 96) : ∃ t, exec (.bridgeLaneFailure d module false) s = .next t ∧ sameWork s t ∧
    ∀ e : Fin 2, t.dies[e].rr = true ∧
      ∀ j, j < 96 → (t.dies[e].modules.getLsbD j = true ↔ s.dies[e].modules.getLsbD j = true ∧ j ≠ module.val) := by
  refine ⟨_, laneFails_eq s d module, (retireModule_health s d module).sameWork, fun e => ?_⟩
  rw [retireModule_dies, withDue_same_modules]
  exact ⟨withoutModule_due module _, withoutModule_bits module _⟩

theorem bridgeTraffic : Claims.BridgeTraffic := by
  refine ⟨fun s i p hp => ⟨packetArrives hp, packetWaits hp⟩, fun s dir seq => ?_, fun s hd => ⟨bridgeRetrained hd, ?_⟩, fun s ok hd => ?_,
    fun s d module => ⟨rfl, laneFails s d module⟩⟩
  · obtain ⟨stays, sends⟩ := bridgeAcknowledged s dir seq
    exact ⟨stays, sends, _, rfl, ⟨rfl, rfl, rfl, rfl, rfl, rfl, rfl, rfl⟩, rfl, rfl⟩
  · refine ⟨modBridge s fun b => { b with retrain := some s.now, attempts := b.attempts + 1 }, ?_, ⟨rfl, rfl, rfl, rfl, rfl, rfl, rfl, rfl⟩, rfl,
      Option.some_ne_none _, rfl, rfl⟩
    show execBridgeRetrain false s = _
    simp only [execBridgeRetrain, hd, Bool.false_eq_true, if_false]
  · show execBridgeRetrain ok s = _
    exact if_pos hd

end Sys2Proof.Proofs

/-! SUPPORT. The ports of UALink and the packets that pass through (R25-R28, R31). -/

namespace Sys2Proof.Proofs

open Sys2Proof Sys2Proof.Machine Sys2Proof.Claims Sys2Proof.Laws

/-! ### Inputs that cross the bridge (R26, R27) -/

section

variable {s : State} {far : Bool} {e : Instr} {down ok : State → State}

theorem crossIn_near (h : far = true → crossing s 0 1 = .free) : crossIn s far e down ok = .next (ok s) := by
  unfold crossIn
  cases far with
  | false => rfl
  | true => simp only [h rfl, if_true]

theorem crossIn_stalled (hf : far = true) (h : crossing s 0 1 = .stalled) : crossIn s far e down ok = .next { s with inbox := e :: s.inbox } := by
  simp only [crossIn, hf, h, if_true]

theorem crossIn_down (hf : far = true) (h : crossing s 0 1 = .down) : crossIn s far e down ok = .next (down s) := by
  simp only [crossIn, hf, h, if_true]

end

/-! ### Ports (R28) -/

/-- The width of a port after a failure of a lane (R28). -/
def trainedTo (trains : Bool) (w : BitVec 8) : BitVec 8 := if trains && w == 4 then 2 else if trains && w == 2 then 1 else 0

/-- A die of which a port trains again. -/
def retrain (port : Fin 8) (trains : Bool) (x : Die) : Die :=
  { x with ports := x.ports.set port.val (trainedTo trains x.ports[port]) port.isLt }

@[simp] theorem withDue_same_ports (y : Die) : (withDue y).ports = y.ports := by simp only [withDue]

theorem withDue_ports {y : Die} {port : Fin 8} (h : y.ports[port] = 0) : (withDue y).rr = true := by
  rw [withDue_rr]
  refine .inl ?_
  simp only [replaceDue, Bool.or_eq_true]
  exact .inr (List.any_eq_true.mpr ⟨port, List.mem_finRange port, beq_iff_eq.mpr h⟩)

theorem retrain_same (port : Fin 8) (trains : Bool) (x : Die) : (retrain port trains x).ports[port] = trainedTo trains x.ports[port] :=
  Vector.getElem_set_self port.isLt

theorem retrain_other {port q : Fin 8} (h : q ≠ port) (trains : Bool) (x : Die) : (retrain port trains x).ports[q] = x.ports[q] :=
  Vector.getElem_set_ne port.isLt q.isLt fun e => h (Fin.ext e.symm)

theorem portFails (s : State) (d : Fin 2) (port : Fin 8) (trains : Bool) :
    ∃ t, exec (.ualinkLaneFailure d port trains) s = .next t ∧ sameWork s t ∧ (∀ q : Fin 8, q ≠ port → t.dies[d].ports[q] = s.dies[d].ports[q]) ∧
      t.dies[d].ports[port] = (if trains = true ∧ s.dies[d].ports[port] = 4 then 2 else if trains = true ∧ s.dies[d].ports[port] = 2 then 1 else 0) ∧
      (t.dies[d].ports[port] = 0 → t.dies[d].rr = true) := by
  have eq : exec (.ualinkLaneFailure d port trains) s = .next (setHealth s d (retrain port trains)) := rfl
  refine ⟨_, eq, (setHealth_health s d _).sameWork, fun q hq => ?_, ?_, fun h => ?_⟩
  · rw [setHealth_same, withDue_same_ports]
    exact retrain_other hq trains _
  · rw [setHealth_same, withDue_same_ports]
    refine (retrain_same port trains _).trans ?_
    simp only [trainedTo, Bool.and_eq_true, beq_iff_eq]
  · rw [setHealth_same] at h ⊢
    rw [withDue_same_ports] at h
    exact withDue_ports h

/-! ### Relays (R31) -/

/-- A packet goes on from die 1 by a port (R31). -/
def sendRelay (p : UaPkt) (ps : List (Fin 8)) (s : State) : State :=
  let port := ps.getD ((p.src.toNat ^^^ p.dst.toNat) % ps.length) 0
  let s := sendPacket s 0 (portAgent port.val) (if p.resp then PktBody.response else .request) true
  { s with uaOut := s.uaOut ++ [.request 1 port.val p] }

theorem relays (s : State) (p : UaPkt) :
    let ps := (List.finRange 8).filter fun q => s.dies[(1 : Fin 2)].ports[q] != 0
    let up := s.dies[(0 : Fin 2)].dstate ≠ .dieOffline ∧ s.dies[(1 : Fin 2)].dstate ≠ .dieOffline
    (up → ps ≠ [] → crossing s 0 1 = .stalled → exec (.relayForward p) s = .next { s with inbox := .relayForward p :: s.inbox }) ∧
    (up → crossing s 0 1 = .free → ∀ q, ps[(p.src.toNat ^^^ p.dst.toNat) % ps.length]? = some q →
      ∃ t, exec (.relayForward p) s = .next t ∧ sameWork s t ∧ t.uaOut = s.uaOut ++ [.request 1 q.val p] ∧ t.hostOut = s.hostOut ∧ t.links = s.links) ∧
    (¬ up ∨ ps = [] ∨ crossing s 0 1 = .down → exec (.relayForward p) s = .next s) := by
  intro ps up
  have eq : exec (.relayForward p) s = if ps.isEmpty || s.dies[(0 : Fin 2)].dstate == .dieOffline || s.dies[(1 : Fin 2)].dstate == .dieOffline
      then .next s else crossIn s true (.relayForward p) id (sendRelay p ps) := rfl
  have test : (ps.isEmpty || s.dies[(0 : Fin 2)].dstate == .dieOffline || s.dies[(1 : Fin 2)].dstate == .dieOffline) = true ↔ ps = [] ∨ ¬ up := by
    simp only [Bool.or_eq_true, List.isEmpty_iff, beq_iff_eq, up, not_and_or, not_not, or_assoc]
  rw [eq]
  refine ⟨fun hu hp hx => ?_, fun hu hx q hq => ?_, fun h => ?_⟩
  · rw [if_neg fun c => (test.mp c).elim hp (not_not_intro hu), crossIn_stalled rfl hx]
  · have some' : ps ≠ [] := fun c => by
      rw [c] at hq
      cases hq
    have port : ps.getD ((p.src.toNat ^^^ p.dst.toNat) % ps.length) 0 = q := by
      rw [List.getD_eq_getElem?_getD, hq]
      rfl
    refine ⟨sendRelay p ps s, ?_, ⟨rfl, rfl, rfl, rfl, rfl, rfl, rfl, rfl⟩, ?_, rfl, rfl⟩
    · rw [if_neg fun c => (test.mp c).elim some' (not_not_intro hu), crossIn_near fun _ => hx]
    · show s.uaOut ++ [.request 1 (ps.getD _ 0).val p] = _
      rw [port]
  · by_cases hc : ps = [] ∨ ¬ up
    · rw [if_pos (test.mpr hc)]
    · rw [if_neg (mt test.mp hc)]
      have hx : crossing s 0 1 = .down := by tauto
      rw [crossIn_down rfl hx]
      rfl

theorem portsAndRelays : Claims.PortsAndRelays := ⟨portFails, relays⟩

end Sys2Proof.Proofs

/-! SUPPORT. How an access of a link ends (R33-R35, R39, R40, R124). -/

namespace Sys2Proof.Proofs

open Sys2Proof Sys2Proof.Machine Sys2Proof.Claims Sys2Proof.Laws

theorem ofBytes_eq (bs : List Byte) : ofBytes bs = bytesValue bs := by
  induction bs with
  | nil => rfl
  | cons b r ih => rw [ofBytes, bytesValue, ih]

/-! ### What becomes of a register result (R33, R158) -/

/-- A part of a lane's access as it is filled. -/
theorem fillResult_part (r : Result) (reg : Nat) (lane : Fin 32) (v : Word) {k : Nat} {p : Fin 256 × Lanes Word} (hp : r.vw[k]? = some p) :
    ∃ z, (fillResult r reg lane v).vw[k]? = some z ∧ z.1 = p.1 ∧ ∀ j : Fin 32, z.2[j] = if k = reg ∧ j = lane then v else p.2[j] := by
  refine ⟨if k = reg then (p.1, p.2.set lane.val v lane.isLt) else p, ?_, ?_, fun j => ?_⟩
  · simp only [fillResult, List.getElem?_map, List.getElem?_zipIdx, hp, Option.map_some, Nat.zero_add]
  · split <;> rfl
  · by_cases hk : k = reg
    · rw [if_pos hk]
      show (p.2.set lane.val v lane.isLt)[j.val] = _
      rw [Vector.getElem_set]
      simp only [hk, true_and, Fin.ext_iff, eq_comm (a := lane.val)]
      rfl
    · rw [if_neg hk, if_neg fun c => hk c.1]

/-- What a read brings to a part of a lane's access, of those that want something of it. -/
def wanted (data : List Byte) (ws : List Want) (k : Nat) (j : Fin 32) (old : Word) : Word :=
  match (ws.filter fun w => w.reg == k && w.lane == j).getLast? with
  | some w => wantValue data w
  | none => old

/-- Fill the parts that some reads want. -/
def fillWants (data : List Byte) (ws : List Want) (r : Result) : Result :=
  ws.foldl (fun r w => fillResult r w.reg w.lane (wantValue data w)) r

theorem wanted_append (data : List Byte) (ws : List Want) (w : Want) (k : Nat) (j : Fin 32) (old : Word) :
    wanted data (ws ++ [w]) k j old = if k = w.reg ∧ j = w.lane then wantValue data w else wanted data ws k j old := by
  by_cases h : k = w.reg ∧ j = w.lane
  · obtain ⟨rfl, rfl⟩ := h
    simp [wanted]
  · have other : (w.reg == k && w.lane == j) = false := by
      rw [Bool.eq_false_iff, ne_eq, Bool.and_eq_true, beq_iff_eq, beq_iff_eq]
      exact fun c => h ⟨c.1.symm, c.2.symm⟩
    simp [wanted, other, h]

theorem fillWants_part (data : List Byte) (ws : List Want) (r : Result) {k : Nat} {p : Fin 256 × Lanes Word} (hp : r.vw[k]? = some p) :
    ∃ z, (fillWants data ws r).vw[k]? = some z ∧ z.1 = p.1 ∧ ∀ j : Fin 32, z.2[j] = wanted data ws k j p.2[j] := by
  induction ws using List.reverseRecOn with
  | nil => exact ⟨p, hp, rfl, fun j => rfl⟩
  | append_singleton ws w ih =>
    obtain ⟨z, hz, reg, lanes⟩ := ih
    obtain ⟨y, hy, reg', lanes'⟩ := fillResult_part (fillWants data ws r) w.reg w.lane (wantValue data w) hz
    refine ⟨y, ?_, reg'.trans reg, fun j => ?_⟩
    · rw [fillWants, List.foldl_append]
      exact hy
    · rw [lanes', lanes, wanted_append]

theorem fillWants_rest (data : List Byte) (ws : List Want) (r : Result) :
    (fillWants data ws r).id = r.id ∧ (fillWants data ws r).tags = r.tags ∧ (fillWants data ws r).bad = r.bad := by
  unfold fillWants
  induction ws generalizing r with
  | nil => exact ⟨rfl, rfl, rfl⟩
  | cons w ws ih => exact ih _

/-- What an access that has come back makes of the result that waits for it. -/
def backInto (l : LinkOp) (x : Except LateFault (List Byte)) (r : Result) : Result :=
  let r := { r with tags := r.tags.filter fun t => t != l.tag }
  match x with
  | .ok data =>
    if l.wants.isEmpty then fillResult r l.reg l.lane (BitVec.ofNat 64 (ofBytes data)) else fillWants data l.wants r
  | .error f => { r with bad := some (mergeFault r.bad f), tags := if l.kind == .atomic then [] else r.tags }

theorem resultBack_eq (s : State) (l : LinkOp) (id : Nat) (x : Except LateFault (List Byte)) :
    resultBack s l id x = modResult s id (backInto l x) := rfl

theorem backInto_ok (l : LinkOp) (data : List Byte) (r : Result) : (backInto l (.ok data) r).id = r.id ∧
    (backInto l (.ok data) r).tags = r.tags.filter (fun g => g != l.tag) ∧ (backInto l (.ok data) r).bad = r.bad ∧
    ∀ (k : Nat) p, r.vw[k]? = some p → ∃ z, (backInto l (.ok data) r).vw[k]? = some z ∧ z.1 = p.1 ∧
      ∀ j : Fin 32, z.2[j] = broughtTo l data k j p.2[j] := by
  let r' : Result := { r with tags := r.tags.filter fun t => t != l.tag }
  by_cases hw : l.wants = []
  · have eq : backInto l (.ok data) r = fillResult r' l.reg l.lane (BitVec.ofNat 64 (ofBytes data)) := by
      simp only [backInto, hw, List.isEmpty_nil, if_true, r']
    rw [eq]
    refine ⟨rfl, rfl, rfl, fun k p hp => ?_⟩
    obtain ⟨z, hz, reg, lanes⟩ := fillResult_part r' l.reg l.lane (BitVec.ofNat 64 (ofBytes data)) hp
    exact ⟨z, hz, reg, fun j => by rw [lanes, broughtTo, if_pos hw, ofBytes_eq]⟩
  · have eq : backInto l (.ok data) r = fillWants data l.wants r' := by
      simp only [backInto, List.isEmpty_iff, if_neg hw]
      rfl
    obtain ⟨id, tags, bad⟩ := fillWants_rest data l.wants r'
    rw [eq]
    refine ⟨id, tags, bad, fun k p hp => ?_⟩
    obtain ⟨z, hz, reg, lanes⟩ := fillWants_part data l.wants r' hp
    refine ⟨z, hz, reg, fun j => ?_⟩
    rw [lanes, broughtTo, if_neg hw]
    simp only [wanted, wantValue, ofBytes_eq] <;> rfl

theorem backInto_error (l : LinkOp) (f : LateFault) (r : Result) : (backInto l (.error f) r).id = r.id ∧ (backInto l (.error f) r).vw = r.vw ∧
    (l.kind ≠ .atomic → (backInto l (.error f) r).tags = r.tags.filter fun g => g != l.tag) ∧
    (l.kind = .atomic → (backInto l (.error f) r).tags = []) ∧ (backInto l (.error f) r).bad = some (mergeFault r.bad f) := by
  refine ⟨rfl, rfl, fun h => ?_, fun h => ?_, rfl⟩
  · exact if_neg fun c => h (beq_iff_eq.mp c)
  · exact if_pos (beq_iff_eq.mpr h)

theorem modResult_mem {s : State} {id : Nat} {f : Result → Result} {r : Result} (h : r ∈ s.results) (hid : r.id = id) :
    f r ∈ (modResult s id f).results :=
  List.mem_map.mpr ⟨r, h, if_pos (beq_iff_eq.mpr hid)⟩

/-! ### What becomes of the links (R124, R162) -/

/-- The links once an access has left them, of those that it does not keep from being carried out. -/
def withoutAccess (s : State) (l : LinkOp) (ok : Bool) : State := { s with links := s.links.filter fun k => k.tag != l.tag && (ok || !laneBefore l k) }

/-- What waited behind an access has gone out. -/
def sendBehind (s : State) (l : LinkOp) (ok : Bool) : State :=
  ((withoutAccess s l ok).links.filter fun k => heldBack s.links k && !heldBack (withoutAccess s l ok).links k).foldl transmit (withoutAccess s l ok)

theorem accessOver_eq (s : State) (l : LinkOp) (x : Except LateFault (List Byte)) :
    accessOver s l x = deliverOver (sendBehind s l x.toOption.isSome) l x := rfl

theorem foldl_transmit_out (ls : List LinkOp) (s : State) : offOut (ls.foldl transmit s) = offOut s := by
  induction ls generalizing s with
  | nil => rfl
  | cons l r ih => exact (ih _).trans (transmit_out s l)

/-- What leaves on a link changes only the bridge and what is sent. -/
theorem sendBehind_field {α : Type} (s : State) (l : LinkOp) (ok : Bool) (f : State → α) (hf : ∀ u, f (offOut u) = f u) :
    f (sendBehind s l ok) = f (withoutAccess s l ok) := offOut_field (foldl_transmit_out _ _) f hf

theorem sendBehind_quiet {s : State} {l : LinkOp} {ok : Bool} (h : ∀ k ∈ s.links, heldBack s.links k = false) : sendBehind s l ok = withoutAccess s l ok := by
  unfold sendBehind
  rw [List.filter_eq_nil_iff.mpr fun k hk c => ?_]
  · rfl
  · rw [h k (List.mem_filter.mp hk).1] at c
    cases c

/-! ### The end of an access (R33, R35, R39) -/

/-- An access that has ended changes only whoever waits for it, and the writes that it covers. -/
theorem deliverOver_frame (s : State) (l : LinkOp) (x : Except LateFault (List Byte)) :
    (deliverOver s l x).mem = s.mem ∧ (deliverOver s l x).ctxs = s.ctxs ∧ (deliverOver s l x).units = s.units ∧
    (deliverOver s l x).cores = s.cores ∧ (deliverOver s l x).dies = s.dies ∧ (deliverOver s l x).hostOut = s.hostOut ∧
    (deliverOver s l x).uaOut = s.uaOut := by
  unfold deliverOver
  split
  · exact ⟨rfl, rfl, rfl, rfl, rfl, rfl, rfl⟩
  · exact ⟨rfl, rfl, rfl, rfl, rfl, rfl, rfl⟩
  · split
    · split <;> exact ⟨rfl, rfl, rfl, rfl, rfl, rfl, rfl⟩
    · exact ⟨rfl, rfl, rfl, rfl, rfl, rfl, rfl⟩

theorem deliverOver_result {s : State} {l : LinkOp} {id : Nat} (h : l.result = some id) (x : Except LateFault (List Byte)) :
    deliverOver s l x = modResult s id (backInto l x) := by
  simp only [deliverOver, h]
  rfl

theorem deliverOver_engine {s : State} {l : LinkOp} {id : Nat} (h : l.result = none) (hc : l.copy = some id) (x : Except LateFault (List Byte)) :
    deliverOver s l x = engineBack s l id x := by
  simp only [deliverOver, h, hc]

theorem deliverOver_posted {s : State} {l : LinkOp} (h : l.result = none) (hc : l.copy = none) (f : LateFault) :
    deliverOver s l (.error f) = modWarp s l.warp fun w => { w with late := w.late ++ [f] } := by
  simp only [deliverOver, h, hc]

theorem deliverOver_good {s : State} {l : LinkOp} (h : l.result = none) (hc : l.copy = none) (data : List Byte) : deliverOver s l (.ok data) =
    if l.kind = .flush then { s with links := s.links.filter fun k => !(k.kind == .write && k.flushed.contains l.warp) } else s := by
  simp only [deliverOver, h, hc]

/-- Whether an access has come back good. -/
def cameGood : Except LateFault (List Byte) → Bool
  | .ok _ => true
  | .error _ => false

theorem deliverOver_links (s : State) (l : LinkOp) (x : Except LateFault (List Byte)) : (deliverOver s l x).links =
    if cameGood x ∧ l.kind = .flush ∧ l.result = none ∧ l.copy = none then s.links.filter fun k => !(k.kind == .write && k.flushed.contains l.warp)
    else s.links := by
  cases hr : l.result with
  | some id => rw [deliverOver_result hr]; simp [modResult]
  | none =>
    cases hc : l.copy with
    | some id => rw [deliverOver_engine hr hc]; simp [engineBack]
    | none =>
      cases x with
      | error f => rw [deliverOver_posted hr hc]; simp [cameGood, modWarp]
      | ok data =>
        rw [deliverOver_good hr hc]
        by_cases hk : l.kind = .flush <;> simp [cameGood, hk]

theorem accessOver_result {s : State} {l : LinkOp} {x : Except LateFault (List Byte)} {id : Nat} (h : l.result = some id) :
    (accessOver s l x).warps = s.warps ∧ (accessOver s l x).copies = s.copies ∧ ∀ r ∈ s.results, r.id = id →
    ∃ q ∈ (accessOver s l x).results, q.id = id ∧ ((∃ data, x = .ok data) ∨ l.kind ≠ .atomic → q.tags = r.tags.filter fun g => g != l.tag) ∧
      ((∃ f, x = .error f) → l.kind = .atomic → q.tags = []) ∧
      (∀ data, x = .ok data → q.bad = r.bad ∧ ∀ (k : Nat) p, r.vw[k]? = some p → ∃ z, q.vw[k]? = some z ∧ z.1 = p.1 ∧
        ∀ j : Fin 32, z.2[j] = broughtTo l data k j p.2[j]) ∧
      ∀ f, x = .error f → q.vw = r.vw ∧ ∃ g, q.bad = some g ∧ (r.bad = none → g = f) := by
  have field := fun {α : Type} => sendBehind_field (α := α) s l x.toOption.isSome
  rw [accessOver_eq, deliverOver_result h]
  refine ⟨field State.warps fun _ => rfl, field State.copies fun _ => rfl, fun r hr hid => ?_⟩
  have mem : r ∈ (sendBehind s l x.toOption.isSome).results := by
    rw [field State.results fun _ => rfl]
    exact hr
  refine ⟨_, modResult_mem mem hid, ?_⟩
  cases x with
  | ok data =>
    obtain ⟨id', tags, bad, vw⟩ := backInto_ok l data r
    refine ⟨id'.trans hid, fun _ => tags, (fun ⟨f, e⟩ => nomatch e), fun d e => ?_, fun f e => nomatch e⟩
    cases e
    exact ⟨bad, vw⟩
  | error f =>
    obtain ⟨id', vw, tags, none', bad⟩ := backInto_error l f r
    refine ⟨id'.trans hid, fun e => tags (e.resolve_left fun ⟨d, e⟩ => nomatch e), fun _ hk => none' hk, (fun d e => nomatch e), fun g e => ?_⟩
    cases e
    refine ⟨vw, _, bad, fun hn => ?_⟩
    rw [hn]
    rfl

theorem accessOver_engine {s : State} {l : LinkOp} {x : Except LateFault (List Byte)} {id : Nat} (h : l.result = none) (hc : l.copy = some id) :
    (accessOver s l x).warps = s.warps ∧ (accessOver s l x).results = s.results ∧ ∀ o ∈ s.copies, o.id = id →
    ∃ q ∈ (accessOver s l x).copies, q.id = id ∧ q.i = o.i ∧ q.tags = o.tags.filter (fun g => g != l.tag) ∧
      (∀ data, x = .ok data → q.bad = o.bad ∧
        q.buf = if l.kind = .read then o.buf ++ l.wants.map (fun w => BitVec.ofNat 64 (bytesValue ((data.drop w.off).take w.bytes))) else o.buf) ∧
      ∀ f, x = .error f → q.buf = o.buf ∧ q.bad ≠ none := by
  have field := fun {α : Type} => sendBehind_field (α := α) s l x.toOption.isSome
  rw [accessOver_eq, deliverOver_engine h hc]
  refine ⟨field State.warps fun _ => rfl, field State.results fun _ => rfl, fun o ho hid => ?_⟩
  have mem : o ∈ (sendBehind s l x.toOption.isSome).copies := by
    rw [field State.copies fun _ => rfl]
    exact ho
  refine ⟨_, List.mem_map.mpr ⟨o, mem, if_pos (beq_iff_eq.mpr hid)⟩, hid, rfl, rfl, fun d e => ?_, fun f e => ?_⟩
  · subst e
    refine ⟨rfl, ?_⟩
    have values : wantValue d = fun w => BitVec.ofNat 64 (bytesValue ((d.drop w.off).take w.bytes)) :=
      funext fun w => by rw [wantValue, ofBytes_eq]
    simp only [beq_iff_eq, values]
  · subst e
    exact ⟨rfl, Option.some_ne_none _⟩

theorem accessOver_posted {s : State} {l : LinkOp} {x : Except LateFault (List Byte)} (h : l.result = none) (hc : l.copy = none) :
    (accessOver s l x).results = s.results ∧ (accessOver s l x).copies = s.copies ∧ (∀ data, x = .ok data → (accessOver s l x).warps = s.warps) ∧
    ∀ f w, x = .error f → findWarp s l.warp = some w → findWarp (accessOver s l x) l.warp = some { w with late := w.late ++ [f] } := by
  have field := fun {α : Type} => sendBehind_field (α := α) s l x.toOption.isSome
  rw [accessOver_eq]
  cases x with
  | ok data =>
    rw [deliverOver_good h hc]
    split
    · exact ⟨field State.results fun _ => rfl, field State.copies fun _ => rfl, fun _ _ => field State.warps fun _ => rfl, fun f w e => nomatch e⟩
    · exact ⟨field State.results fun _ => rfl, field State.copies fun _ => rfl, fun _ _ => field State.warps fun _ => rfl, fun f w e => nomatch e⟩
  | error f =>
    rw [deliverOver_posted h hc]
    refine ⟨field State.results fun _ => rfl, field State.copies fun _ => rfl, (fun _ e => nomatch e), fun g w e hw => ?_⟩
    cases e
    refine (findWarp_modWarp _ _ (fun w => { w with late := w.late ++ [f] }) fun _ => rfl).trans ?_
    rw [findWarp, field State.warps fun _ => rfl]
    exact congrArg (Option.map _) hw

/-- The end of an access of a link (R33-R35, R39, R124, R162). -/
theorem accessOver_over (s : State) (l : LinkOp) (x : Except LateFault (List Byte)) : Over s (accessOver s l x) l x := by
  have field := fun {α : Type} => sendBehind_field (α := α) s l x.toOption.isSome
  have good : x.toOption.isSome = cameGood x := by cases x <;> rfl
  obtain ⟨mem, ctxs, units, cores, dies, out, ua⟩ := deliverOver_frame (sendBehind s l x.toOption.isSome) l x
  refine ⟨?_, ⟨mem.trans (field State.mem fun _ => rfl), ctxs.trans (field State.ctxs fun _ => rfl), units.trans (field State.units fun _ => rfl),
    cores.trans (field State.cores fun _ => rfl), dies.trans (field State.dies fun _ => rfl)⟩, fun h => ?_, fun id h => accessOver_result h,
    fun id h hc => accessOver_engine h hc, fun h hc => accessOver_posted h hc⟩
  · rw [accessOver_eq, deliverOver_links, field State.links fun _ => rfl, good]
    cases x <;> rfl
  · have quiet := sendBehind_quiet (l := l) (ok := x.toOption.isSome) h
    rw [accessOver_eq]
    exact ⟨out.trans (by rw [quiet]; rfl), ua.trans (by rw [quiet]; rfl)⟩

/-! ### Completions (R33-R35, R40) -/

theorem lanesFold_bits (ws : List Want) (m : Mask) (j : Fin 32) :
    (ws.foldl (fun (m : Mask) w => m ||| BitVec.ofNat 32 (2 ^ w.lane.val)) m).getLsbD j.val = true ↔
      m.getLsbD j.val = true ∨ ∃ w ∈ ws, w.lane = j := by
  induction ws generalizing m with
  | nil => simp
  | cons w ws ih =>
    rw [List.foldl_cons, ih, BitVec.getLsbD_or, getLsbD_laneBit]
    simp only [Bool.or_eq_true, decide_eq_true_eq, List.mem_cons, exists_eq_or_imp, or_assoc, eq_comm (a := j)]

/-- The lanes of a failure are those that the access serves. -/
theorem lanesOf_bits (l : LinkOp) (j : Fin 32) :
    (Machine.lanesOf l).getLsbD j.val = true ↔ (l.wants = [] ∧ j = l.lane) ∨ ∃ w ∈ l.wants, w.lane = j := by
  unfold Machine.lanesOf
  by_cases h : l.wants = []
  · rw [if_pos (List.isEmpty_iff.mpr h), getLsbD_laneBit, h]
    simp
  · rw [if_neg (mt List.isEmpty_iff.mp h), lanesFold_bits]
    simp [h]

theorem badBack_fails (s : State) (l : LinkOp) (cause : Nat) : FailsWith s (badBack s l cause) l cause :=
  ⟨failureOf l cause, accessOver_over _ _ _, rfl, rfl, lanesOf_bits l⟩

theorem looped_iff (l : LinkOp) : looped l = true ↔ swapLoop l := by
  unfold looped swapLoop pcieAtomic
  cases l.kind <;> cases l.sys <;> cases l.op <;> simp

theorem broughtBy_eq (l : LinkOp) (data : List Byte) : broughtBy l data = broughtBytes l data := by
  have test : (!l.sys && looped l && l.expect.isNone) = true ↔ l.sys = false ∧ swapLoop l ∧ l.expect = none := by
    simp only [Bool.and_eq_true, Bool.not_eq_true', looped_iff, Option.isNone_iff_eq_none, and_assoc]
  have kinds : l.kind = .atomic ∨ l.kind = .read ∨ l.kind = .write ∨ l.kind = .flush := by cases l.kind <;> simp
  unfold broughtBytes
  obtain hk | hk | hk | hk := kinds
  · have eq : broughtBy l data = (if !l.sys && looped l && l.expect.isNone then data.drop (l.pa % 64) else data).take (tyBytes l.ty) := by
      simp only [broughtBy, hk]
    rw [eq, if_pos hk]
    exact congrArg (List.take _) (if_congr test rfl rfl)
  · rw [if_neg (by rw [hk]; exact nofun), if_pos hk]
    simp only [broughtBy, hk]
  all_goals
    rw [if_neg (by rw [hk]; exact nofun), if_neg (by rw [hk]; exact nofun)]
    simp only [broughtBy, hk]

section

variable {s : State} {l : LinkOp} {data : List Byte}

theorem goodBack_over (h : ¬ (swapLoop l ∧ l.expect ≠ some (BitVec.ofNat 64 (bytesValue (broughtBytes l data))))) :
    goodBack s l data = accessOver s l (.ok (broughtBytes l data)) := by
  have test : ¬ (looped l && l.expect != some (BitVec.ofNat 64 (ofBytes (broughtBy l data)))) = true := by
    rw [Bool.and_eq_true, looped_iff, bne_iff_ne, broughtBy_eq, ofBytes_eq]
    exact h
  rw [← broughtBy_eq]
  exact if_neg test

/-- The compare-and-swap that goes out next (R33, R40). -/
def nextSwap (l : LinkOp) (v : Nat) : LinkOp := { l with expect := some (BitVec.ofNat 64 v), y := BitVec.ofNat 64 (atomResult l.op l.ty v l.x.toNat 0) }

theorem goodBack_again (h : swapLoop l ∧ l.expect ≠ some (BitVec.ofNat 64 (bytesValue (broughtBytes l data)))) : goodBack s l data =
    transmit { s with links := s.links.map fun k => if k.tag == l.tag then nextSwap l (bytesValue (broughtBytes l data)) else k }
      (nextSwap l (bytesValue (broughtBytes l data))) := by
  have test : (looped l && l.expect != some (BitVec.ofNat 64 (ofBytes (broughtBy l data)))) = true := by
    rw [Bool.and_eq_true, looped_iff, bne_iff_ne, broughtBy_eq, ofBytes_eq]
    exact h
  have swap : nextSwap l (bytesValue (broughtBytes l data)) = { l with
      expect := some (BitVec.ofNat 64 (ofBytes (broughtBy l data)))
      y := BitVec.ofNat 64 (atomNew l.op l.ty (ofBytes (broughtBy l data)) l.x.toNat 0) } := by
    rw [broughtBy_eq, ofBytes_eq, atomResult_eq]
    rfl
  rw [swap]
  exact if_pos test

theorem goodBack_goesOn (hl : l ∈ s.links) (h : swapLoop l ∧ l.expect ≠ some (BitVec.ofNat 64 (bytesValue (broughtBytes l data)))) :
    (goodBack s l data).warps = s.warps ∧ (goodBack s l data).results = s.results ∧ (goodBack s l data).mem = s.mem ∧
    ∃ m ∈ (goodBack s l data).links, m.tag = l.tag ∧ m.expect = some (BitVec.ofNat 64 (bytesValue (broughtBytes l data))) ∧
      m.y = BitVec.ofNat 64 (atomResult l.op l.ty (bytesValue (broughtBytes l data)) l.x.toNat 0) := by
  rw [goodBack_again h]
  have out := transmit_out { s with links := s.links.map fun k => if k.tag == l.tag then nextSwap l (bytesValue (broughtBytes l data)) else k }
    (nextSwap l (bytesValue (broughtBytes l data)))
  refine ⟨offOut_field out State.warps fun _ => rfl, offOut_field out State.results fun _ => rfl, offOut_field out State.mem fun _ => rfl,
    nextSwap l (bytesValue (broughtBytes l data)), ?_, rfl, rfl, rfl⟩
  rw [offOut_field out State.links fun _ => rfl]
  exact List.mem_map.mpr ⟨l, hl, if_pos (beq_iff_eq.mpr rfl)⟩

end

/-! ### Completions of the other die (R26, R27) -/

/-- No invalidation arrives where none waits to cross. -/
theorem arrivePacket_none {s : State} (h : noInval s = true) (dir : Fin 2) (a : Nat) : arrivePacket s dir a = s := by
  have none' : ∀ p ∈ s.bridge.queue, (p.between dir a && p.invalidates) = false := fun p hp => by
    have keep := List.all_eq_true.mp h p hp
    rw [Bool.not_eq_true'] at keep
    rw [keep, Bool.and_false]
  have same : (s.bridge.queue.map fun p => if p.between dir a && p.invalidates then { p with again := true } else p) = s.bridge.queue :=
    (List.map_congr_left fun p hp => if_neg (Bool.eq_false_iff.mp (none' p hp))).trans (List.map_id' _)
  unfold arrivePacket
  dsimp only
  rw [List.filter_eq_nil_iff.mpr fun p hp => Bool.eq_false_iff.mp (none' p hp), List.foldl_nil, same]

theorem over_ofBridge {s t : State} {b : Bridge} {l : LinkOp} {x : Except LateFault (List Byte)} (h : Over { s with bridge := b } t l x) :
    Over s t l x := ⟨h.gone, h.frame, h.quiet, h.result, h.engine, h.posted⟩

theorem failsWith_ofBridge {s t : State} {b : Bridge} {l : LinkOp} {cause : Nat} (h : FailsWith { s with bridge := b } t l cause) :
    FailsWith s t l cause := by
  obtain ⟨f, hf, rest⟩ := h
  exact ⟨f, over_ofBridge hf, rest⟩

section

variable {s : State} {l : LinkOp} {e : Instr} {k : State → State}

theorem comeBack_here (h : ¬ backDie s l ≠ l.die ∨ (crossing s 0 1 = .free ∧ noInval s = true)) :
    ∃ b, comeBack s l e k = .next (k { s with bridge := b }) := by
  by_cases hd : backDie s l = l.die
  · refine ⟨s.bridge, ?_⟩
    unfold comeBack
    dsimp only
    rw [crossIn_near fun c => absurd hd (bne_iff_ne.mp c), if_pos hd]
  · obtain ⟨hx, hn⟩ := h.resolve_left (not_not_intro hd)
    refine ⟨(sendPacket s (backDie s l) (backAgent s l) .response true).bridge, ?_⟩
    unfold comeBack
    dsimp only
    rw [crossIn_near fun _ => hx, if_neg hd, arrivePacket_none hn]
    rfl

theorem comeBack_turned (hd : backDie s l ≠ l.die) :
    (crossing s 0 1 = .stalled → comeBack s l e k = .next { s with inbox := e :: s.inbox }) ∧
    (crossing s 0 1 = .down → ∃ t, comeBack s l e k = .next t ∧ FailsWith s t l 0x14) := by
  have far : (backDie s l != l.die) = true := bne_iff_ne.mpr hd
  unfold comeBack
  exact ⟨crossIn_stalled far, fun hx => ⟨_, crossIn_down far hx, badBack_fails s l 0x14⟩⟩

/-- A good completion that has arrived, or gone across (R33, R40). -/
theorem comeBack_good {data : List Byte} (hl : l ∈ s.links) (h : ¬ backDie s l ≠ l.die ∨ (crossing s 0 1 = .free ∧ noInval s = true)) :
    (¬ (swapLoop l ∧ l.expect ≠ some (BitVec.ofNat 64 (bytesValue (broughtBytes l data)))) →
      ∃ t, comeBack s l e (fun s => goodBack s l data) = .next t ∧ Over s t l (.ok (broughtBytes l data))) ∧
    (swapLoop l ∧ l.expect ≠ some (BitVec.ofNat 64 (bytesValue (broughtBytes l data))) →
      ∃ t, comeBack s l e (fun s => goodBack s l data) = .next t ∧ t.warps = s.warps ∧ t.results = s.results ∧ t.mem = s.mem ∧
        ∃ m ∈ t.links, m.tag = l.tag ∧ m.expect = some (BitVec.ofNat 64 (bytesValue (broughtBytes l data))) ∧
          m.y = BitVec.ofNat 64 (atomResult l.op l.ty (bytesValue (broughtBytes l data)) l.x.toNat 0)) := by
  obtain ⟨b, eq⟩ := comeBack_here (e := e) (k := fun s => goodBack s l data) h
  refine ⟨fun ha => ⟨_, eq, ?_⟩, fun ha => ⟨_, eq, goodBack_goesOn (s := { s with bridge := b }) hl ha⟩⟩
  rw [goodBack_over ha]
  exact over_ofBridge (accessOver_over { s with bridge := b } l _)

theorem comeBack_bad {cause : Nat} (h : ¬ backDie s l ≠ l.die ∨ (crossing s 0 1 = .free ∧ noInval s = true)) :
    ∃ t, comeBack s l e (fun s => badBack s l cause) = .next t ∧ FailsWith s t l cause := by
  obtain ⟨b, eq⟩ := comeBack_here (e := e) (k := fun s => badBack s l cause) h
  exact ⟨_, eq, failsWith_ofBridge (badBack_fails { s with bridge := b } l cause)⟩

end

theorem linkCompletions : Claims.LinkCompletions := by
  intro s l data brought again far here turned goes fails refused
  have good : ∀ (i : Instr), l ∈ s.links → exec i s = comeBack s l i (fun s => goodBack s l data) → goes i := fun i hl hi => by
    simp only [goes, turned, hi]
    exact ⟨comeBack_turned, comeBack_good hl⟩
  have bad : ∀ (i : Instr) (cause : Nat), exec i s = comeBack s l i (fun s => badBack s l cause) → refused i cause := fun i cause hi => by
    simp only [refused, turned, fails, hi]
    exact ⟨comeBack_turned, comeBack_bad⟩
  refine ⟨fun hs hf => ⟨good _ (List.mem_of_find?_eq_some hf) ?_, bad _ _ ?_⟩, fun hf => ⟨badBack s l 0x19, ?_, badBack_fails s l 0x19⟩,
    fun hs hf => ⟨fun hk => good _ (List.mem_of_find?_eq_some hf) ?_, fun hk => ?_, fun st hst => bad _ _ ?_⟩,
    fun hf => ⟨badBack s l 0x19, ?_, badBack_fails s l 0x19⟩⟩
  · show execDomainCompletion l.tag true data s = _
    simp only [execDomainCompletion, hf, if_true]
  · show execDomainCompletion l.tag false data s = _
    simp only [execDomainCompletion, hf, Bool.false_eq_true, if_false]
  · show execDomainCompletionTimeout s = _
    simp only [execDomainCompletionTimeout, hf]
  · show execSystemCompletion l.tag .ok data s = _
    have nw : (l.kind == .write) = false := by simpa using hk
    simp only [execSystemCompletion, hf, nw, Bool.and_false, Bool.false_eq_true, if_false, if_true]
  · show execSystemCompletion l.tag .ok data s = _
    simp only [execSystemCompletion, hf, hk]
    rfl
  · show execSystemCompletion l.tag st data s = _
    simp only [execSystemCompletion, hf, hst, decide_false, Bool.false_and, Bool.false_eq_true, if_false, beq_iff_eq]
  · show execSystemReadTimeout s = _
    simp only [execSystemReadTimeout, hf]

end Sys2Proof.Proofs

/-! SUPPORT. What a bridge that goes down, and a host link that goes down, end (R27, R35, R42). -/

namespace Sys2Proof.Proofs

open Sys2Proof Sys2Proof.Machine Sys2Proof.Claims Sys2Proof.Laws

/-! ### Steps that keep the contexts and the faults that wait for a slot -/

/-- From `s` to `t` the bridge stays up or down, and the contexts and the faults that wait for a slot stay as they are. -/
structure QueueStep (s t : State) : Prop where
  down : t.bridge.down = s.bridge.down
  ctxs : t.ctxs = s.ctxs
  queue : ∀ d : Fin 2, t.dies[d].faultQ = s.dies[d].faultQ

theorem QueueStep.refl (s : State) : QueueStep s s := ⟨rfl, rfl, fun _ => rfl⟩

theorem QueueStep.trans {s t u : State} (h : QueueStep s t) (g : QueueStep t u) : QueueStep s u :=
  ⟨g.down.trans h.down, g.ctxs.trans h.ctxs, fun d => (g.queue d).trans (h.queue d)⟩

theorem HealthStep.queueStep {s t : State} (h : HealthStep s t) (hd : t.dies = s.dies) : QueueStep s t := ⟨h.down, h.ctxs, fun d => by rw [hd]⟩

theorem homeUsed_queueStep {s t : State} (h : HomeUsed s t) : QueueStep s t :=
  ⟨h.down, h.field State.ctxs fun _ => rfl, fun d => (h.die d).field Die.faultQ fun _ => rfl⟩

theorem modDie_queueStep {s : State} {d : Fin 2} {f : Die → Die} (h : ∀ x, (f x).faultQ = x.faultQ) : QueueStep s (modDie s d f) := by
  refine ⟨rfl, rfl, fun e => ?_⟩
  by_cases he : e = d
  · subst he
    rw [modDie_same, h]
  · rw [modDie_other _ _ _ _ he]

@[simp] theorem withDue_same_faultQ (y : Die) : (withDue y).faultQ = y.faultQ := by simp only [withDue]

theorem setHealth_queueStep {s : State} {d : Fin 2} {f : Die → Die} (h : ∀ x, (f x).faultQ = x.faultQ) : QueueStep s (setHealth s d f) := by
  refine ⟨(setHealth_health s d f).down, (setHealth_health s d f).ctxs, fun e => ?_⟩
  by_cases he : e = d
  · subst he
    rw [setHealth_same, withDue_same_faultQ, h]
  · rw [setHealth_other _ _ _ _ he]

theorem toHostFrom_queueStep (s : State) (d : Fin 2) (m : HostMsg) : QueueStep s (toHostFrom s d m) :=
  (toHostFrom_health s d m).queueStep (toHostFrom_dies s d m)

theorem sendWord_dies (s : State) (fn : Nat) (x : HeldMsg) : (sendWord s fn x).dies = s.dies := by
  obtain ⟨b, h, o, e⟩ := sendWord_host s fn x
  rw [e]

theorem complete_queueStep (s : State) (c : Fin 64) (e k : Nat) : QueueStep s (complete s c e k) :=
  (sendWord_quiet s _ _).1.queueStep (sendWord_dies s _ _)

theorem retirePending_queueStep (s : State) : QueueStep s (retirePending s) := by
  unfold retirePending
  generalize List.finRange 2 = ds
  induction ds generalizing s with
  | nil => exact .refl s
  | cons d r ih =>
    refine QueueStep.trans ?_ (ih _)
    dsimp only
    split
    · exact .refl s
    · split
      · exact .refl s
      · exact setHealth_queueStep fun _ => rfl

/-! ### Faults that end a context (R245, R250) -/

/-- From `s` to `t` the bridge stays up or down, the contexts but `c` stay as they are, and the faults that wait for a slot wait on. -/
structure EndStep (c : Fin 64) (s t : State) : Prop where
  down : t.bridge.down = s.bridge.down
  others : ∀ d, d ≠ c → t.ctxs[d] = s.ctxs[d]
  waits : ∀ (d : Fin 2), ∀ q ∈ s.dies[d].faultQ, q ∈ t.dies[d].faultQ

theorem EndStep.refl (c : Fin 64) (s : State) : EndStep c s s := ⟨rfl, fun _ _ => rfl, fun _ _ h => h⟩

theorem EndStep.trans {c : Fin 64} {s t u : State} (h : EndStep c s t) (g : EndStep c t u) : EndStep c s u :=
  ⟨g.down.trans h.down, fun d hd => (g.others d hd).trans (h.others d hd), fun d q hq => g.waits d q (h.waits d q hq)⟩

theorem QueueStep.ends {s t : State} (h : QueueStep s t) (c : Fin 64) : EndStep c s t :=
  ⟨h.down, fun d _ => by rw [h.ctxs], fun d q hq => by rw [h.queue d]; exact hq⟩

theorem modCtx_endStep (s : State) (c : Fin 64) (f : Ctx → Ctx) : EndStep c s (modCtx s c f) :=
  ⟨rfl, fun d hd => modCtx_other s c d f hd, fun _ _ h => h⟩

theorem dropAll_queueStep (s : State) (c : Fin 64) : QueueStep s (dropAll s c) := by
  let forget := fun (x : Die) => { x with engFails := x.engFails.filter fun f => f.2.ctx != c }
  have dies := (modDie_queueStep (s := s) (d := 0) (f := forget) fun _ => rfl).trans (modDie_queueStep (d := 1) (f := forget) fun _ => rfl)
  exact ⟨rfl, rfl, dies.queue⟩

theorem endContext_step (s : State) (c : Fin 64) (cause : Nat) : EndStep c s (endContext s c cause) := by
  unfold endContext
  dsimp only
  split
  · refine EndStep.trans ?_ ((retirePending_queueStep _).ends c)
    have mine : EndStep c s (complete (modCtx (dropAll s c) c fun y => { y with
        st := .ended, held := none, jobWait := false, resvUnit := none, resvCore := [], await := [], jobEnd := y.jobEnd.filter (· == 3)
        handles := y.handles.map fun e => { e with st := .free } }) c 2 cause) :=
      ((dropAll_queueStep s c).ends c).trans ((modCtx_endStep _ c _).trans ((complete_queueStep _ c 2 cause).ends c))
    split
    · exact mine.trans ((toHostFrom_queueStep _ _ _).ends c)
    · exact mine
  · exact .refl c s

theorem endContext_stays {s : State} {c : Fin 64} {cause : Nat} (h : s.ctxs[c].st = .ended) : endContext s c cause = s := by
  unfold endContext
  exact if_neg (by rw [h]; decide)

theorem placeRecord_queueStep {s t : State} {d : Fin 2} {q : WaitFault} (h : placeRecord s d q = some t) : QueueStep s t := by
  unfold placeRecord at h
  split at h
  · cases h
  · rename_i slot _
    let u := modDie (writeRecord s d slot q.words) d fun x => { x with
      slots := { slot := slot, ctx := q.ctx, cause := q.cause, va := q.va, route := q.route, words := q.words
                 splits := [q.split], handle := q.handle, elem := q.elem } :: x.slots }
    have written : QueueStep s u := (homeUsed_queueStep (writeRecord_home s d slot q.words)).trans (modDie_queueStep fun _ => rfl)
    have told : QueueStep s (if q.route = 1 then toHostFrom u d (.msix 0 61) else u) := by
      split
      · exact written.trans (toHostFrom_queueStep _ _ _)
      · exact written
    dsimp only at h
    split at h <;> cases h
    · exact ⟨told.down, told.ctxs, told.queue⟩
    · exact told

/-- A fault that ends its context does so at once, or waits for a slot (R137, R245, R250). -/
theorem recordFault_step {s : State} {d : Fin 2} {q : WaitFault} (he : q.ends = true) : EndStep q.ctx s (recordFault s d q) ∧
    (s.ctxs[q.ctx].st = .ended → (recordFault s d q).ctxs[q.ctx].st = .ended) ∧
    (s.ctxs[q.ctx].st = .running → (recordFault s d q).ctxs[q.ctx].st = .ended ∨ q ∈ (recordFault s d q).dies[d].faultQ) := by
  unfold recordFault settleFault
  rw [if_pos he]
  cases hp : placeRecord s d q with
  | none =>
    rw [Option.map_none, Option.getD_none]
    refine ⟨⟨rfl, fun _ _ => rfl, fun e r hr => ?_⟩, fun h => h, fun _ => .inr ?_⟩
    · by_cases hd : e = d
      · subst hd
        rw [modDie_same]
        exact List.mem_append_left _ hr
      · rw [modDie_other _ _ _ _ hd]
        exact hr
    · rw [modDie_same]
      exact List.mem_append_right _ (List.mem_singleton_self q)
  | some t =>
    have placed := placeRecord_queueStep hp
    refine ⟨(placed.ends _).trans (endContext_step t _ _), fun h => ?_, fun h => .inl ?_⟩
    · have ended : t.ctxs[q.ctx].st = .ended := by rw [placed.ctxs]; exact h
      show (endContext t q.ctx q.cause).ctxs[q.ctx].st = .ended
      rw [endContext_stays ended]
      exact ended
    · exact (endContext_ended (by rw [placed.ctxs]; exact h)).1

/-! ### Accesses that fail together (R35, R42) -/

/-- An access fails with a cause. -/
def failOne (cause : Nat) (s : State) (l : LinkOp) : State := deliverOver s l (.error (failureOf l cause))

theorem failAll_eq (s : State) (p : LinkOp → Bool) (cause : Nat) :
    failAll s p cause = (s.links.filter p).foldl (failOne cause) { s with links := s.links.filter fun l => !p l } := rfl

/-- All of a state but the warps, the results and the engines' operations. -/
def offWaiters (s : State) : State := { s with warps := [], results := [], copies := [], mops := [], maints := [] }

theorem failOne_off (cause : Nat) (s : State) (l : LinkOp) : offWaiters (failOne cause s l) = offWaiters s := by
  unfold failOne deliverOver
  split
  · rfl
  · rfl
  · rfl

theorem failAll_off (s : State) (p : LinkOp → Bool) (cause : Nat) :
    offWaiters (failAll s p cause) = offWaiters { s with links := s.links.filter fun l => !p l } := by
  rw [failAll_eq]
  generalize ({ s with links := s.links.filter fun l => !p l } : State) = u
  induction s.links.filter p generalizing u with
  | nil => rfl
  | cons l r ih => exact (ih _).trans (failOne_off cause u l)

theorem failAll_field {α : Type} (s : State) (p : LinkOp → Bool) (cause : Nat) (f : State → α) (hf : ∀ z, f (offWaiters z) = f z) :
    f (failAll s p cause) = f { s with links := s.links.filter fun l => !p l } := field_of_off (failAll_off s p cause) f hf

/-- A result that is left or that has met failures with a cause. -/
structure Met (cause : Nat) (failed : Prop) (r q : Result) : Prop where
  id : q.id = r.id
  bad : r.bad ≠ none ∨ failed → q.bad ≠ none
  cause : (∀ f, r.bad = some f → f.cause = cause) → ∀ f, q.bad = some f → f.cause = cause

theorem mergeFault_cause {old : Option LateFault} {f : LateFault} {cause : Nat} (h : ∀ g, old = some g → g.cause = cause) (hf : f.cause = cause) :
    (mergeFault old f).cause = cause := by
  unfold mergeFault
  split
  · exact hf
  · rename_i g
    dsimp only
    split
    · exact hf
    · exact h g rfl

theorem failOne_meets (cause : Nat) (s : State) (l : LinkOp) {r : Result} (hr : r ∈ s.results) :
    ∃ q ∈ (failOne cause s l).results, Met cause (l.result = some r.id) r q := by
  by_cases h : l.result = some r.id
  · obtain ⟨id, -, -, -, bad⟩ := backInto_error l (failureOf l cause) r
    refine ⟨backInto l (.error (failureOf l cause)) r, ?_, id, fun _ => by rw [bad]; exact Option.some_ne_none _, fun hc f hf => ?_⟩
    · rw [failOne, deliverOver_result h]
      exact modResult_mem hr rfl
    · rw [bad] at hf
      cases hf
      exact mergeFault_cause hc rfl
  · refine ⟨r, ?_, rfl, fun k => k.resolve_right h, fun hc => hc⟩
    cases hl : l.result with
    | some id =>
      rw [failOne, deliverOver_result hl]
      exact List.mem_map.mpr ⟨r, hr, if_neg fun c => h (hl.trans (congrArg some (beq_iff_eq.mp c).symm))⟩
    | none =>
      unfold failOne
      cases hc : l.copy with
      | some id =>
        rw [deliverOver_engine hl hc]
        exact hr
      | none =>
        rw [deliverOver_posted hl hc]
        exact hr

theorem failAll_meets (s : State) (p : LinkOp → Bool) (cause : Nat) {r : Result} (hr : r ∈ s.results) :
    ∃ q ∈ (failAll s p cause).results, Met cause (∃ l ∈ s.links, p l = true ∧ l.result = some r.id) r q := by
  have all : ∀ (ls : List LinkOp) (u : State) (r : Result), r ∈ u.results →
      ∃ q ∈ (ls.foldl (failOne cause) u).results, Met cause (∃ l ∈ ls, l.result = some r.id) r q := by
    intro ls
    induction ls with
    | nil => exact fun u r hr => ⟨r, hr, rfl, (fun h => h.resolve_right fun ⟨_, hl, _⟩ => nomatch hl), fun h => h⟩
    | cons l ls ih =>
      intro u r hr
      obtain ⟨q, hq, first⟩ := failOne_meets cause u l hr
      obtain ⟨z, hz, rest⟩ := ih _ q hq
      refine ⟨z, hz, rest.id.trans first.id, fun h => rest.bad ?_, fun h => rest.cause (first.cause h)⟩
      obtain h | ⟨k, hk, hkr⟩ := h
      · exact .inl (first.bad (.inl h))
      · obtain rfl | hk := List.mem_cons.mp hk
        · exact .inl (first.bad (.inr hkr))
        · exact .inr ⟨k, hk, hkr.trans (congrArg some first.id.symm)⟩
  obtain ⟨q, hq, met⟩ := all (s.links.filter p) { s with links := s.links.filter fun l => !p l } r hr
  refine ⟨q, hq, met.id, fun h => met.bad (h.imp_right fun ⟨l, hl, hp, e⟩ => ⟨l, List.mem_filter.mpr ⟨hl, hp⟩, e⟩), met.cause⟩

/-! ### The host link goes down (R42) -/

theorem postedMsg_iff (m : HostMsg) : postedMsg m = true ↔ (∀ fn g a n, m ≠ .read fn g a n) ∧ ∀ fn g o ty a v y, m ≠ .atomicOp fn g o ty a v y := by
  cases m <;> simp [postedMsg]

theorem hostLinkFalls {s : State} (hu : s.host.up = true) :
    ∃ t, exec .hostLinkDown s = .next t ∧ t.host.up = false ∧ t.mem = s.mem ∧ t.ctxs = s.ctxs ∧ t.hostOut = s.hostOut ∧
      (∀ l, l ∈ t.links ↔ l ∈ s.links ∧ (l.sys = false ∨ l.kind = .write)) ∧
      (∀ x, x ∈ t.host.held ↔ x ∈ s.host.held ∧ (∀ fn g a n, x.msg ≠ .read fn g a n) ∧ ∀ fn g o ty a v y, x.msg ≠ .atomicOp fn g o ty a v y) ∧
      ∀ l ∈ s.links, l.sys = true → l.kind ≠ .write → ∀ r ∈ s.results, l.result = some r.id → ∃ q ∈ t.results, q.id = r.id ∧ q.bad ≠ none := by
  let u : State := { s with host := { s.host with up := false, held := s.host.held.filter fun x => postedMsg x.msg } }
  let p := fun (l : LinkOp) => l.sys && l.kind != .write
  have field := fun {α : Type} => failAll_field (α := α) u p 0x19
  refine ⟨failAll u p 0x19, if_pos hu, ?_, field State.mem fun _ => rfl, field State.ctxs fun _ => rfl, field State.hostOut fun _ => rfl, fun l => ?_,
    fun x => ?_, fun l hl hs hk r hr e => ?_⟩
  · rw [field State.host fun _ => rfl]
  · rw [field State.links fun _ => rfl]
    show l ∈ s.links.filter (fun l => !p l) ↔ _
    rw [List.mem_filter]
    simp [p]
  · rw [field State.host fun _ => rfl]
    show x ∈ s.host.held.filter (fun x => postedMsg x.msg) ↔ _
    rw [List.mem_filter, postedMsg_iff]
  · obtain ⟨q, hq, met⟩ := failAll_meets u p 0x19 hr
    have hp : p l = true := by simp [p, hs, hk]
    exact ⟨q, hq, met.id, met.bad (.inr ⟨l, hl, hp, e⟩)⟩

/-! ### The bridge goes down (R27) -/

/-- The contexts that a bridge that goes down ends, each with the die whose packet waited to cross. -/
def bridgeOwners (s : State) : List (Fin 2 × Fin 64) :=
  waitingOwners s.bridge ++ ((s.host.held.filter fun x => x.die != 0).filter fun x => postedMsg x.msg).filterMap fun x => x.owner.map fun c => (x.die, c)

/-- Whether the message of an access waited to cross. -/
def lostTag (s : State) (l : LinkOp) : Bool := ((s.host.held.filter fun x => x.die != 0).filterMap fun x => msgTag x.msg).contains l.tag

/-- The state in which the bridge is down, with no packet. -/
def bridgeCut (s : State) : State := { s with
  host := { s.host with held := s.host.held.filter fun x => x.die == 0 }
  bridge := { s.bridge with down := true, queue := [], replay := [] } }

/-- The state in which the bridge is down and what waited to cross is lost. -/
def bridgeLost (s : State) : State := failAll (bridgeCut s) (lostTag s) 0x14

/-- A context ends for a packet that was lost. -/
def loseOwner (s : State) (x : Fin 2 × Fin 64) : State := agentFault s x.1 x.2 0x14 0 0 0

theorem bridgeDown_eq {s : State} (hd : s.bridge.down = false) (h : 64 ≤ s.bridge.attempts) :
    exec .bridgeDown s = .next ((bridgeOwners s).eraseDups.foldl loseOwner (bridgeLost s)) := by
  refine if_neg fun c => ?_
  rw [hd, Bool.false_or, decide_eq_true_eq] at c
  exact absurd c (Nat.not_lt.mpr h)

/-- A context has ended, or its fault waits for a slot. -/
def Ending (t : State) (c : Fin 64) : Prop :=
  t.ctxs[c].st = .ended ∨ ∃ d : Fin 2, ∃ q ∈ t.dies[d].faultQ, q.ctx = c ∧ q.cause = 0x14 ∧ q.ends = true

/-- A fault that an agent takes ends its context (R245). -/
theorem agentFault_record (s : State) (d : Fin 2) (c : Fin 64) (cause : Nat) (va : Word) (h : BitVec 32) (elem : Nat) : ∃ q : WaitFault,
    q.ctx = c ∧ q.cause = cause ∧ q.ends = true ∧ agentFault s d c cause va h elem = recordFault s d q := ⟨_, rfl, rfl, rfl, rfl⟩

theorem loseOwner_step (s : State) (x : Fin 2 × Fin 64) : EndStep x.2 s (loseOwner s x) ∧ (∀ c, Ending s c → Ending (loseOwner s x) c) ∧
    (s.ctxs[x.2].st = .running → Ending (loseOwner s x) x.2) := by
  obtain ⟨d, c⟩ := x
  obtain ⟨q, rfl, hcause, hends, eq⟩ := agentFault_record s d c 0x14 0 0 0
  obtain ⟨step, stays, ends⟩ := recordFault_step (s := s) (d := d) hends
  rw [loseOwner, eq]
  refine ⟨step, fun e he => ?_, fun h => (ends h).imp_right fun hq => ⟨d, q, hq, rfl, hcause, hends⟩⟩
  obtain he | ⟨d', _, hq, rest⟩ := he
  · by_cases hc : e = q.ctx
    · subst hc
      exact .inl (stays he)
    · exact .inl (by rw [step.others e hc]; exact he)
  · exact .inr ⟨d', _, step.waits d' _ hq, rest⟩

/-- What becomes of the contexts that lose a packet, and of the others. -/
theorem loseOwners (xs : List (Fin 2 × Fin 64)) (s : State) : (xs.foldl loseOwner s).bridge.down = s.bridge.down ∧
    (∀ c, (∀ d, (d, c) ∉ xs) → (xs.foldl loseOwner s).ctxs[c] = s.ctxs[c]) ∧ (∀ c, Ending s c → Ending (xs.foldl loseOwner s) c) ∧
    ∀ c d, (d, c) ∈ xs → s.ctxs[c].st = .running → Ending (xs.foldl loseOwner s) c := by
  induction xs generalizing s with
  | nil => exact ⟨rfl, fun _ _ => rfl, fun _ h => h, fun c d h => nomatch h⟩
  | cons x r ih =>
    obtain ⟨step, stays, ends⟩ := loseOwner_step s x
    obtain ⟨down, others, stays', ends'⟩ := ih (loseOwner s x)
    refine ⟨down.trans step.down, fun c h => ?_, fun c h => stays' c (stays c h), fun c d h hr => ?_⟩
    · have differ : c ≠ x.2 := fun e => h x.1 (by rw [e]; exact .head r)
      exact (others c fun d hd => h d (.tail x hd)).trans (step.others c differ)
    · by_cases hc : c = x.2
      · subst hc
        exact stays' _ (ends hr)
      · have later : (d, c) ∈ r := (List.mem_cons.mp h).resolve_left fun e => hc (congrArg Prod.snd e)
        exact ends' c d later (by rw [step.others c hc]; exact hr)

/-- The context that a packet that waits to cross belongs to, with the die that sent it. -/
def packetOwner (p : Packet) : Option (Fin 2 × Fin 64) :=
  if p.again then none else match p.body with | .inval _ (some c) => some (p.dir, c) | _ => none

theorem packetOwner_some {p : Packet} {x : Fin 2 × Fin 64} (h : packetOwner p = some x) :
    p.again = false ∧ ∃ sector, p.body = .inval sector (some x.2) := by
  unfold packetOwner at h
  split at h
  · cases h
  case isFalse ha =>
    split at h
    case h_1 sector c hb =>
      cases h
      exact ⟨Bool.eq_false_iff.mpr ha, sector, hb⟩
    · cases h

theorem packetOwner_inval {p : Packet} {sector : Nat} {c : Fin 64} (ha : p.again = false) (hb : p.body = .inval sector (some c)) :
    packetOwner p = some (p.dir, c) := by
  simp only [packetOwner, ha, hb, Bool.false_eq_true, if_false]

/-- The context of a packet, or of a message for the host, that waited to cross (R27). -/
def OwnsLost (s : State) (c : Fin 64) : Prop :=
  (∃ p ∈ s.bridge.queue, p.again = false ∧ ∃ sector, p.body = .inval sector (some c)) ∨
    ∃ x, (x ∈ s.host.held ∧ x.die ≠ 0) ∧ x.owner = some c ∧ postedMsg x.msg = true

theorem bridgeOwners_iff (s : State) (c : Fin 64) : (∃ d, (d, c) ∈ (bridgeOwners s).eraseDups) ↔ OwnsLost s c := by
  have queue : waitingOwners s.bridge = (s.bridge.queue.filterMap packetOwner).eraseDups := rfl
  have mem : ∀ d, (d, c) ∈ (bridgeOwners s).eraseDups ↔ (∃ p ∈ s.bridge.queue, packetOwner p = some (d, c)) ∨
      ∃ x, (x ∈ s.host.held ∧ x.die ≠ 0) ∧ postedMsg x.msg = true ∧ x.owner = some c ∧ x.die = d := fun d => by
    rw [List.mem_eraseDups, bridgeOwners, queue, List.mem_append, List.mem_eraseDups, List.mem_filterMap, List.mem_filterMap]
    refine or_congr_right (exists_congr fun x => ?_)
    rw [List.mem_filter, List.mem_filter, bne_iff_ne, and_assoc]
    refine and_congr_right fun _ => and_congr_right fun _ => ?_
    cases x.owner <;> simp [and_comm]
  simp only [mem]
  constructor
  · rintro ⟨d, ⟨p, hp, ho⟩ | ⟨x, hx, hm, ho, -⟩⟩
    · exact .inl ⟨p, hp, packetOwner_some ho⟩
    · exact .inr ⟨x, hx, ho, hm⟩
  · rintro (⟨p, hp, ha, sector, hb⟩ | ⟨x, hx, ho, hm⟩)
    · exact ⟨p.dir, .inl ⟨p, hp, packetOwner_inval ha hb⟩⟩
    · exact ⟨x.die, .inr ⟨x, hx, hm, ho, rfl⟩⟩

theorem lostTag_iff (s : State) (l : LinkOp) : lostTag s l = true ↔ ∃ x, (x ∈ s.host.held ∧ x.die ≠ 0) ∧ msgTag x.msg = some l.tag := by
  unfold lostTag
  rw [List.contains_iff_mem, List.mem_filterMap]
  simp only [List.mem_filter, bne_iff_ne]

theorem bridgeLost_field {α : Type} (s : State) (f : State → α) (hf : ∀ z, f (offWaiters z) = f z) :
    f (bridgeLost s) = f { bridgeCut s with links := s.links.filter fun l => !lostTag s l } := failAll_field (bridgeCut s) (lostTag s) 0x14 f hf

/-- Where no context loses a packet, what is left of a bridge that goes down (R27). -/
theorem bridgeLost_rest (s : State) : (bridgeLost s).bridge.queue = [] ∧ (bridgeLost s).bridge.replay = [] ∧ (bridgeLost s).mem = s.mem ∧
    (bridgeLost s).units = s.units ∧ (∀ l, l ∈ (bridgeLost s).links ↔ l ∈ s.links ∧ ¬ lostTag s l = true) ∧ ∀ x ∈ (bridgeLost s).host.held, x.die = 0 := by
  refine ⟨bridgeLost_field s (fun u => u.bridge.queue) fun _ => rfl, bridgeLost_field s (fun u => u.bridge.replay) fun _ => rfl,
    bridgeLost_field s State.mem fun _ => rfl, bridgeLost_field s State.units fun _ => rfl, fun l => ?_, fun x hx => ?_⟩
  · rw [bridgeLost_field s State.links fun _ => rfl]
    show l ∈ s.links.filter (fun l => !lostTag s l) ↔ _
    rw [List.mem_filter, Bool.not_eq_true', Bool.not_eq_true]
  · rw [bridgeLost_field s State.host fun _ => rfl] at hx
    exact beq_iff_eq.mp (List.mem_filter.mp hx).2

theorem bridgeEnds : Claims.BridgeEnds := by
  intro s hd waits owns lost
  have owner : ∀ c, (∃ d, (d, c) ∈ (bridgeOwners s).eraseDups) ↔ owns c := bridgeOwners_iff s
  have tag : ∀ l, lostTag s l = true ↔ lost l := lostTag_iff s
  have ctxs : (bridgeLost s).ctxs = s.ctxs := bridgeLost_field s State.ctxs fun _ => rfl
  obtain ⟨down, others, -, ends⟩ := loseOwners (bridgeOwners s).eraseDups (bridgeLost s)
  refine ⟨fun h => ?_, fun h => ⟨_, bridgeDown_eq hd h, ?_, fun c hc => ?_, fun c hc hr => ?_, fun hn => ?_⟩⟩
  · show execBridgeDown s = _
    refine if_pos ?_
    rw [hd, Bool.false_or, decide_eq_true_eq]
    exact h
  · exact down.trans (bridgeLost_field s (fun u => u.bridge.down) fun _ => rfl)
  · rw [others c fun d hm => hc ((owner c).mp ⟨d, hm⟩), ctxs]
  · obtain ⟨d, hm⟩ := (owner c).mpr hc
    exact ends c d hm (by rw [ctxs]; exact hr)
  · have none' : (bridgeOwners s).eraseDups = [] := List.eq_nil_iff_forall_not_mem.mpr fun x hm => hn x.2 ((owner x.2).mp ⟨x.1, hm⟩)
    obtain ⟨queue, replay, mem, units, links, held⟩ := bridgeLost_rest s
    rw [none']
    refine ⟨queue, replay, mem, units, fun l => (links l).trans (by rw [tag]), held, fun l hl hw r hr e => ?_⟩
    obtain ⟨q, hq, met⟩ := failAll_meets (bridgeCut s) (lostTag s) 0x14 hr
    obtain ⟨f, hf⟩ := Option.ne_none_iff_exists'.mp (met.bad (.inr ⟨l, hl, (tag l).mpr hw, e⟩))
    exact ⟨q, hq, met.id, f, hf, fun hb => met.cause (fun g hg => by rw [hb] at hg; cases hg) f hf⟩

end Sys2Proof.Proofs

/-! SUPPORT. Accesses of package memory from outside (R13, R21, R33, R41, R52): requests of other packages, and their answers. -/

namespace Sys2Proof.Proofs

open Sys2Proof Sys2Proof.Machine Sys2Proof.Claims Sys2Proof.Laws

/-! ### What may be accessed (R21, R27, R52) -/

theorem crossing_down_iff (s : State) (a b : Fin 2) : crossing s a b = .down ↔ a ≠ b ∧ s.bridge.down = true := by
  unfold crossing
  split
  case isTrue h => simp [h]
  case isFalse h => split <;> (try split) <;> simp [*]

theorem servable_iff (s : State) (g : Fin 2) (a n : Nat) : servable s g a n = true ↔ Serves s g a n := by
  have reach : (crossing s g (dieOf a) != .down) = true ↔ (dieOf a = g ∨ s.bridge.down = false) := by
    rw [bne_iff_ne, ne_eq, crossing_down_iff, not_and_or, not_not, Bool.not_eq_true, eq_comm]
  simp only [servable, Bool.and_eq_true, beq_iff_eq, decide_eq_true_eq, bne_iff_ne, reach, and_assoc]
  rfl

theorem badRange_iff {a n : Nat} (s : State) (h : a / 64 ≤ (a + n - 1) / 64) : badRange s a n = false ↔ NoBad s a n := by
  unfold badRange sectorsOf NoBad
  simp only [List.any_eq_false, List.mem_map, List.mem_range, List.contains_iff_mem, forall_exists_index, and_imp]
  constructor
  · intro k x hl hu
    exact k x (x - a / 64) (by omega) (by omega)
  · rintro k x j hj rfl
    exact k _ (by omega) (by omega)

/-! ### Reads and writes at the home slice (R33, R41) -/

theorem l2Read_slices (s : State) (r : Fin 2) (sec : Nat) (q : Acc) (hq : q.may = false) : SlicesUsed s (l2Read s r sec q).2 := by
  unfold l2Read
  dsimp only
  rw [hq]
  split
  · exact ((l2Hold_slices _ _ _ _ _).trans (l2Shared_slices _ _ _ _)).trans (countAccess_slices _ _ _)
  · split
    · exact l2Touch_slices _ _ _ _
    · refine .trans ?_ (countAccess_slices _ _ _)
      split
      · exact (crossed_slices _ _ _ _).trans (l2Hold_slices _ _ _ _ _)
      · exact (crossed_slices _ _ _ _).trans ((l2Hold_slices _ _ _ _ _).trans (l2Hold_slices _ _ _ _ _))

theorem windowTouch_slices (s : State) (d : Fin 2) (a n : Nat) : SlicesUsed s (windowTouch s d a n) :=
  (recallAt_slices s a n).trans (.fold (fun _ _ => (crossed_slices _ _ _ _).trans (l2Read_slices _ _ _ _ rfl)) _ _)

theorem windowTouch_mem (s : State) (d : Fin 2) (a n : Nat) : (windowTouch s d a n).mem = s.mem :=
  (windowTouch_slices s d a n).field State.mem fun _ => rfl

theorem outsideWrite_home (s : State) (g : Fin 2) (atomic : Bool) (a n x : Nat) : HomeUsed s (outsideWrite s g atomic a n x) :=
  ((recallAt_slices s a n).trans (crossed_slices _ _ _ _)).home.trans (homeWrite_home _ _ _ _ _ _)

theorem outsideWrite_mem (s : State) (g : Fin 2) (atomic : Bool) (a n x : Nat) : (outsideWrite s g atomic a n x).mem = writeN s.mem a n x := by
  have before : (crossed (recallAt s a n) g (dieOf a) (lineSlice (a / 256)).val).mem = s.mem :=
    ((recallAt_slices s a n).trans (crossed_slices _ _ _ _)).field State.mem fun _ => rfl
  rw [outsideWrite, homeWrite_mem, before]
  rfl

theorem outsideRead_good {s : State} {g : Fin 2} {a n : Nat} (h : Serves s g a n) (hn : a / 64 ≤ (a + n - 1) / 64) (hb : NoBad s a n) :
    outsideRead s g a n = (some (readN s.mem a n), windowTouch s g a n) := by
  refine if_pos ?_
  rw [(servable_iff s g a n).mpr h, (badRange_iff s hn).mpr hb]
  rfl

theorem outsideRead_bad {s : State} {g : Fin 2} {a n : Nat} (hn : a / 64 ≤ (a + n - 1) / 64) (h : ¬ Serves s g a n ∨ ¬ NoBad s a n) :
    outsideRead s g a n = (none, s) := by
  refine if_neg fun c => ?_
  rw [Bool.and_eq_true, servable_iff, Bool.not_eq_true', badRange_iff s hn] at c
  exact h.elim (· c.1) (· c.2)

/-! ### Bytes (R33) -/

theorem ofBytes_byte {bs : List Byte} {j : Nat} {b : Byte} (h : bs[j]? = some b) : BitVec.ofNat 8 (ofBytes bs / 256 ^ j) = b := by
  induction bs generalizing j with
  | nil => cases h
  | cons x r ih =>
    have low : x.toNat < 256 := x.isLt
    cases j with
    | zero =>
      obtain rfl := Option.some.inj h
      rw [pow_zero, Nat.div_one, ofBytes]
      refine BitVec.eq_of_toNat_eq ?_
      rw [BitVec.toNat_ofNat]
      omega
    | succ j =>
      have rest : ofBytes (x :: r) / 256 ^ (j + 1) = ofBytes r / 256 ^ j := by
        rw [ofBytes, Nat.pow_succ, Nat.mul_comm (256 ^ j), ← Nat.div_div_eq_div_mul]
        congr 1
        omega
      rw [rest]
      exact ih h

theorem writeN_ofBytes {m : Memory} (hm : Memory.wf m = true) (a : Nat) (bs : List Byte) :
    (∀ (j : Nat) b, bs[j]? = some b → readByte (writeN m a bs.length (ofBytes bs)) (a + j) = b) ∧
    ∀ b, (b < a ∨ a + bs.length ≤ b) → readByte (writeN m a bs.length (ofBytes bs)) b = readByte m b := by
  refine ⟨fun j b hj => ?_, fun b hb => readByte_writeN_outside _ _ _ _ _ hm hb⟩
  have lt : j < bs.length := (List.getElem?_eq_some_iff.mp hj).1
  rw [readByte_writeN _ _ _ _ _ hm, if_pos (by omega), Nat.add_sub_cancel_left]
  exact ofBytes_byte hj

/-- What the enabled bytes of a write leave in memory. -/
structure Enabled (m m' : Memory) (a : Nat) (data : List Byte) (en : List Bool) : Prop where
  wf : Memory.wf m' = true
  bytes : ∀ (j : Nat) b, data[j]? = some b → readByte m' (a + j) = if en[j]? = some true then b else readByte m (a + j)
  rest : ∀ b, (b < a ∨ a + data.length ≤ b) → readByte m' b = readByte m b

theorem writeEnabled_home (g : Fin 2) (data : List Byte) (en : List Bool) (s : State) (a : Nat) : HomeUsed s (writeEnabled s g a data en) := by
  induction data generalizing s a en with
  | nil => unfold writeEnabled; exact .refl s
  | cons b r ih =>
    cases en with
    | nil => unfold writeEnabled; exact .refl s
    | cons e es =>
      unfold writeEnabled
      exact Used.trans (.ite (outsideWrite_home _ _ _ _ _ _) (.refl s)) (ih _ _ _)

theorem writeEnabled_bytes (g : Fin 2) (data : List Byte) (en : List Bool) (s : State) (a : Nat) (hm : memoryOk s) (he : en.length = data.length) :
    Enabled s.mem (writeEnabled s g a data en).mem a data en := by
  induction data generalizing s a en with
  | nil =>
    unfold writeEnabled
    exact ⟨hm, (fun j b h => nomatch h), fun _ _ => rfl⟩
  | cons b r ih =>
    cases en with
    | nil => cases he
    | cons e es =>
      let u := if e then outsideWrite s g false a 1 b.toNat else s
      have mem : u.mem = if e then writeN s.mem a 1 b.toNat else s.mem := by
        cases e
        · rfl
        · exact outsideWrite_mem _ _ _ _ _ _
      have byte : ∀ x, readByte u.mem x = if x = a ∧ e = true then b else readByte s.mem x := fun x => by
        rw [mem]
        cases e with
        | false => simp
        | true =>
          rw [if_pos rfl, readByte_writeN _ _ _ _ _ hm]
          by_cases hx : x = a
          · subst hx
            simp
          · rw [if_neg (by omega), if_neg (by omega)]
      have wf : memoryOk u := by
        unfold memoryOk
        rw [mem]
        cases e
        · exact hm
        · exact writeN_wf _ _ _ _ hm
      obtain ⟨wf', bytes, rest⟩ := ih es u (a + 1) wf (Nat.succ.inj he)
      have step : writeEnabled s g a (b :: r) (e :: es) = writeEnabled u g (a + 1) r es := by conv_lhs => unfold writeEnabled
      rw [step]
      refine ⟨wf', fun j y hj => ?_, fun x hx => ?_⟩
      · cases j with
        | zero =>
          obtain rfl := Option.some.inj hj
          show readByte _ a = if some e = some true then b else readByte s.mem a
          rw [rest a (.inl (by omega)), byte]
          cases e <;> simp
        | succ j =>
          have old : readByte u.mem (a + 1 + j) = readByte s.mem (a + 1 + j) :=
            (byte _).trans (if_neg fun c => absurd c.1 (by omega))
          rw [show a + (j + 1) = a + 1 + j by omega, bytes j y hj, old]
          rfl
      · rw [List.length_cons] at hx
        rw [rest x (by omega), byte, if_neg fun c => absurd c.1 (by omega)]

/-! ### What a request does (R33) -/

/-- A request has been served, from `s` to `t`, with its data or an error. -/
structure Served (s : State) (r : UaReq) (g : Fin 2) (data : Option (List Byte)) (t : State) : Prop where
  eq : serveUa s g r = (data, t)
  home : HomeUsed s t

section

variable {s : State} {g : Fin 2}

theorem serveUa_other (k : Nat) : Served s (.other k) g none s := ⟨rfl, .refl s⟩

theorem sectors_forward {a n : Nat} (h : 0 < n) : a / 64 ≤ (a + n - 1) / 64 := Nat.div_le_div_right (by omega)

theorem serveUa_read {a : BitVec 41} {n : Nat} (hn : n = 64 ∨ n = 256) (ha : a.toNat % n = 0) (hs : Serves s g a.toNat n) (hb : NoBad s a.toNat n) :
    Served s (.read a n) g (some (bytesOf n (readN s.mem a.toNat n))) (windowTouch s g a.toNat n) := by
  refine ⟨?_, (windowTouch_slices s g a.toNat n).home⟩
  have test : ((n == 64 || n == 256) && a.toNat % n == 0) = true := by
    rw [Bool.and_eq_true, Bool.or_eq_true, beq_iff_eq, beq_iff_eq, beq_iff_eq]
    exact ⟨hn, ha⟩
  simp only [serveUa, test, if_true, outsideRead_good hs (sectors_forward (by omega)) hb]
  rfl

theorem serveUa_readError {a : BitVec 41} {n : Nat} (h : (n ≠ 64 ∧ n ≠ 256) ∨ a.toNat % n ≠ 0 ∨ ¬ Serves s g a.toNat n ∨ ¬ NoBad s a.toNat n) :
    Served s (.read a n) g none s := by
  refine ⟨?_, .refl s⟩
  simp only [serveUa]
  split
  case isFalse => rfl
  case isTrue c =>
    rw [Bool.and_eq_true, Bool.or_eq_true, beq_iff_eq, beq_iff_eq, beq_iff_eq] at c
    obtain ⟨hn, ha⟩ := c
    have bad : ¬ Serves s g a.toNat n ∨ ¬ NoBad s a.toNat n := by
      obtain h | h | h := h
      · exact absurd hn (by omega)
      · exact absurd ha h
      · exact h
    rw [outsideRead_bad (sectors_forward (by omega)) bad]
    rfl

theorem serveUa_writeError {a : BitVec 41} {data : List Byte} {en : List Bool}
    (h : 64 < a.toNat % 64 + data.length ∨ ¬ Serves s g a.toNat data.length) : Served s (.write a data en) g none s := by
  refine ⟨if_neg fun c => ?_, .refl s⟩
  rw [Bool.and_eq_true, decide_eq_true_eq, servable_iff] at c
  exact h.elim (fun h => absurd c.1 (by omega)) (· c.2)

theorem serveUa_write {a : BitVec 41} {data : List Byte} {en : List Bool} (hm : memoryOk s) (ha : a.toNat % 64 + data.length ≤ 64)
    (he : en.length = data.length) (hs : Serves s g a.toNat data.length) :
    ∃ t, Served s (.write a data en) g (some []) t ∧ Enabled s.mem t.mem a.toNat data en := by
  have test : (decide (a.toNat % 64 + data.length ≤ 64) && servable s g a.toNat data.length) = true := by
    rw [Bool.and_eq_true, decide_eq_true_eq, servable_iff]
    exact ⟨ha, hs⟩
  by_cases hw : (data.length = 64 && en == List.replicate 64 true) = true
  · have whole := hw
    rw [Bool.and_eq_true, decide_eq_true_eq, beq_iff_eq] at whole
    obtain ⟨len, all⟩ := whole
    refine ⟨outsideWrite s g false a.toNat 64 (ofBytes data), ⟨?_, outsideWrite_home _ _ _ _ _ _⟩, ?_⟩
    · simp only [serveUa, test, hw, if_true]
    · rw [outsideWrite_mem, ← len]
      obtain ⟨bytes, rest⟩ := writeN_ofBytes hm a.toNat data
      refine ⟨writeN_wf _ _ _ _ hm, fun j b hj => ?_, rest⟩
      have lt : j < 64 := by
        have := (List.getElem?_eq_some_iff.mp hj).1
        omega
      have on : (List.replicate 64 true)[j]? = some true := by rw [List.getElem?_replicate, if_pos lt]
      rw [bytes j b hj, all, if_pos on]
  · refine ⟨writeEnabled s g a.toNat data en, ⟨?_, writeEnabled_home _ _ _ _ _⟩, writeEnabled_bytes g data en s a.toNat hm he⟩
    simp only [serveUa, test, if_true, if_neg hw]

theorem uaAtomicOk_iff (ty : Ty) (a : Nat) : uaAtomicOk ty a = true ↔ ty ∈ [Ty.i32, .n32, .i64, .n64] ∧ a % tyBytes ty = 0 := by
  simp only [uaAtomicOk, Bool.and_eq_true, Bool.or_eq_true, beq_iff_eq, List.mem_cons, List.not_mem_nil, or_false, or_assoc]

theorem tyBytes_word {ty : Ty} (h : ty ∈ [Ty.i32, .n32, .i64, .n64]) : tyFloat ty = false ∧ 256 ^ tyBytes ty = 2 ^ tyWidth ty ∧ 0 < tyBytes ty := by
  simp only [List.mem_cons, List.not_mem_nil, or_false] at h
  obtain rfl | rfl | rfl | rfl := h <;> exact ⟨rfl, by decide, by decide⟩

/-- The result of an atomic on integers fits its type. -/
theorem atomResult_fits {op : AtomOp} {ty : Ty} {old x y : Nat} (hf : tyFloat ty = false) (ho : old < 2 ^ tyWidth ty) (hx : x < 2 ^ tyWidth ty)
    (hy : y < 2 ^ tyWidth ty) : atomResult op ty old x y < 2 ^ tyWidth ty := by
  cases op with
  | add =>
    rw [atomResult, hf]
    exact Nat.mod_lt _ (Nat.two_pow_pos _)
  | min => rw [atomResult]; split <;> assumption
  | max => rw [atomResult]; split <;> assumption
  | and => exact Nat.and_lt_two_pow _ hx
  | or => exact Nat.or_lt_two_pow ho hx
  | xor => exact Nat.xor_lt_two_pow ho hx
  | xchg => exact hx
  | cas => rw [atomResult]; split <;> assumption

theorem readN_fits (m : Memory) (a n : Nat) : readN m a n < 256 ^ n := by
  induction n generalizing a with
  | zero => exact Nat.one_pos
  | succ n ih =>
    have low : (readByte m a).toNat < 256 := (readByte m a).isLt
    have high := ih (a + 1)
    rw [readN, Nat.pow_succ]
    omega

theorem serveUa_atomic {op : AtomOp} {ty : Ty} {a : BitVec 41} {x y : Word} (hm : memoryOk s) (ht : ty ∈ [Ty.i32, .n32, .i64, .n64])
    (ha : a.toNat % tyBytes ty = 0) (hs : Serves s g a.toNat (tyBytes ty)) (hb : NoBad s a.toNat (tyBytes ty)) :
    ∃ t, Served s (.atomic op ty a x y) g (some (bytesOf (tyBytes ty) (readN s.mem a.toNat (tyBytes ty)))) t ∧
      readN t.mem a.toNat (tyBytes ty) = atomResult op ty (readN s.mem a.toNat (tyBytes ty)) (x.toNat % 2 ^ tyWidth ty) (y.toNat % 2 ^ tyWidth ty) ∧
      ∀ b, (b < a.toNat ∨ a.toNat + tyBytes ty ≤ b) → readByte t.mem b = readByte s.mem b := by
  obtain ⟨int, size, pos⟩ := tyBytes_word ht
  let v := atomNew op ty (readN s.mem a.toNat (tyBytes ty)) (x.toNat % 2 ^ tyWidth ty) (y.toNat % 2 ^ tyWidth ty)
  have mem : (outsideWrite (windowTouch s g a.toNat (tyBytes ty)) g true a.toNat (tyBytes ty) v).mem = writeN s.mem a.toNat (tyBytes ty) v := by
    rw [outsideWrite_mem, windowTouch_mem]
  have fits : v < 256 ^ tyBytes ty := by
    have old : readN s.mem a.toNat (tyBytes ty) < 2 ^ tyWidth ty := by
      rw [← size]
      exact readN_fits _ _ _
    show atomNew op ty _ _ _ < _
    rw [size, atomResult_eq]
    exact atomResult_fits int old (Nat.mod_lt _ (Nat.two_pow_pos _)) (Nat.mod_lt _ (Nat.two_pow_pos _))
  refine ⟨outsideWrite (windowTouch s g a.toNat (tyBytes ty)) g true a.toNat (tyBytes ty) v, ⟨?_, ?_⟩, ?_, fun b hb => ?_⟩
  · simp only [serveUa, (uaAtomicOk_iff ty a.toNat).mpr ⟨ht, ha⟩, if_true, outsideRead_good hs (sectors_forward pos) hb]
    rfl
  · exact (windowTouch_slices s g a.toNat (tyBytes ty)).home.trans (outsideWrite_home _ _ _ _ _ _)
  · rw [mem, readN_writeN _ _ _ _ hm, Nat.mod_eq_of_lt fits]
    exact atomResult_eq op ty _ _ _
  · rw [mem]
    exact readByte_writeN_outside _ _ _ _ _ hm hb

end

/-! ### The answer (R31, R33) -/

theorem identOf_eq (w : Word) : identOf w = field w 0 12 := bitsOf_eq_field w 0 12

theorem arrivalDie_eq (s : State) (src : BitVec 12) : arrivalDie s src = arrivesAt s src := by
  have ident : identOf s.dies[(0 : Fin 2)].ident = s.dies[(0 : Fin 2)].ident.toNat % 2 ^ 12 := by
    rw [identOf_eq, field, pow_zero, Nat.div_one]
  rw [arrivalDie, arrivesAt, ident]

/-- What an answer sends, where it goes by a port (R31). -/
def answerBy (t : State) (g d : Fin 2) (p : Fin 8) (me : BitVec 12) (src : BitVec 12) (tag : Nat) (data : Option (List Byte)) : State :=
  if crossing t g d = .down then t
  else
    let u := if d = g then t else sendPacket t g (portAgent p.val) .response true
    { u with uaOut := u.uaOut ++ [.response d p.val me src tag data.isSome (data.getD [])] }

/-- An answer by a port of the die `d`, where there is one (R31). -/
def answerFrom (t : State) (g d : Fin 2) (me : Nat) (src : BitVec 12) (tag : Nat) (data : Option (List Byte)) : State :=
  if (portsOf t d).isEmpty || t.dies[d].dstate == .dieOffline then t
  else answerBy t g d ((portsOf t d).getD ((me ^^^ src.toNat) % (portsOf t d).length) 0) (BitVec.ofNat 12 me) src tag data

theorem respond_eq (t : State) (g : Fin 2) (src : BitVec 12) (tag : Nat) (data : Option (List Byte)) : respond t g src tag data =
    answerFrom t g (groupDie (field t.dies[g].ident 0 12) src.toNat) (field t.dies[g].ident 0 12) src tag data := by
  have small : identOf t.dies[g].ident < 2 ^ 12 := Nat.mod_lt _ (Nat.two_pow_pos 12)
  have me : (BitVec.ofNat 12 (identOf t.dies[g].ident)).toNat = identOf t.dies[g].ident := by
    rw [BitVec.toNat_ofNat, Nat.mod_eq_of_lt small]
  rw [← identOf_eq, respond, me, portTo, answerFrom]
  dsimp only
  by_cases hn : ((portsOf t (groupDie (identOf t.dies[g].ident) src.toNat)).isEmpty ||
    t.dies[groupDie (identOf t.dies[g].ident) src.toNat].dstate == .dieOffline) = true
  · rw [if_pos hn, if_pos hn]
  · rw [if_neg hn, if_neg hn]
    rfl

theorem answerBy_uaOut (t : State) (g d : Fin 2) (p : Fin 8) (me src : BitVec 12) (tag : Nat) (data : Option (List Byte)) :
    (answerBy t g d p me src tag data).uaOut =
      if d ≠ g ∧ t.bridge.down = true then t.uaOut else t.uaOut ++ [.response d p.val me src tag data.isSome (data.getD [])] := by
  have down : crossing t g d = .down ↔ d ≠ g ∧ t.bridge.down = true := by rw [crossing_down_iff, ne_comm]
  unfold answerBy
  by_cases h : crossing t g d = .down
  · rw [if_pos h, if_pos (down.mp h)]
  · rw [if_neg h, if_neg (mt down.mpr h)]
    dsimp only
    split <;> rfl

theorem answerBy_rest (t : State) (g d : Fin 2) (p : Fin 8) (me src : BitVec 12) (tag : Nat) (data : Option (List Byte)) :
    ∃ b out, answerBy t g d p me src tag data = { t with bridge := b, uaOut := out } := by
  unfold answerBy
  split
  · exact ⟨_, _, rfl⟩
  · dsimp only
    split
    · exact ⟨_, _, rfl⟩
    · exact ⟨_, _, rfl⟩

theorem respond_rest (t : State) (g : Fin 2) (src : BitVec 12) (tag : Nat) (data : Option (List Byte)) :
    ∃ b out, respond t g src tag data = { t with bridge := b, uaOut := out } := by
  rw [respond_eq]
  unfold answerFrom
  split
  · exact ⟨_, _, rfl⟩
  · exact answerBy_rest _ _ _ _ _ _ _ _

theorem answerFrom_uaOut {s t : State} (h : HomeUsed s t) (g d : Fin 2) (me : Nat) (src : BitVec 12) (tag : Nat) (data : Option (List Byte)) :
    (answerFrom t g d me src tag data).uaOut =
      if portsOf s d = [] ∨ s.dies[d].dstate = .dieOffline ∨ (d ≠ g ∧ s.bridge.down = true) then s.uaOut
      else s.uaOut ++ [.response d ((portsOf s d).getD ((me ^^^ src.toNat) % (portsOf s d).length) 0).val (BitVec.ofNat 12 me) src tag
        data.isSome (data.getD [])] := by
  have ports : portsOf t d = portsOf s d := by
    unfold portsOf
    rw [(h.die d).field Die.ports fun _ => rfl]
  have out : t.uaOut = s.uaOut := h.field State.uaOut fun _ => rfl
  have closed : ((portsOf s d).isEmpty || s.dies[d].dstate == .dieOffline) = true ↔ portsOf s d = [] ∨ s.dies[d].dstate = .dieOffline := by
    rw [Bool.or_eq_true, List.isEmpty_iff, beq_iff_eq]
  rw [answerFrom, ports, h.dstate]
  by_cases hc : portsOf s d = [] ∨ s.dies[d].dstate = .dieOffline
  · rw [if_pos (closed.mpr hc), if_pos (or_assoc.mp (.inl hc)), out]
  · have same : portsOf s d = [] ∨ s.dies[d].dstate = .dieOffline ∨ (d ≠ g ∧ s.bridge.down = true) ↔ d ≠ g ∧ s.bridge.down = true := by
      rw [← or_assoc]
      exact or_iff_right hc
    rw [if_neg (mt closed.mp hc), answerBy_uaOut, h.down, out]
    exact if_congr same.symm rfl rfl

/-- The answer to a request that was served goes out by the port that leads back (R31). -/
theorem respond_answers {s t : State} {g : Fin 2} {src : BitVec 12} {tag : Nat} {data : Option (List Byte)} (h : HomeUsed s t) :
    Answered s (respond t g src tag data) g src tag data.isSome (data.getD []) := by
  have ident : t.dies[g].ident = s.dies[g].ident := (h.die g).field Die.ident fun _ => rfl
  have sent := answerFrom_uaOut h g (groupDie (field s.dies[g].ident 0 12) src.toNat) (field s.dies[g].ident 0 12) src tag data
  rw [respond_eq, ident]
  unfold Answered
  intro me d ps
  refine ⟨fun hc => sent.trans (if_pos hc), fun p hp hd hr => sent.trans ((if_neg fun hc => ?_).trans ?_)⟩
  · obtain hc | hc | ⟨hg, hb⟩ := hc
    · rw [show ps = [] from hc] at hp
      cases hp
    · exact hd hc
    · exact hr.elim hg fun hb' => Bool.false_ne_true (hb'.symm.trans hb)
  · have port : ps.getD ((me ^^^ src.toNat) % ps.length) 0 = p := by
      rw [List.getD_eq_getElem?_getD, hp]
      rfl
    exact congrArg (fun p : Fin 8 => s.uaOut ++ [UaMsg.response d p.val (BitVec.ofNat 12 me) src tag data.isSome (data.getD [])]) port

/-! ### Requests of other packages (R33, R34) -/

/-- A request is served and answered, or waits while the bridge that it crosses stalls (R26, R33). -/
theorem requestServed {s : State} {src : BitVec 12} {tag : Nat} {r : UaReq} {data : Option (List Byte)} {u : State}
    (h : Served s r (arrivesAt s src) data u) :
    let t := respond u (arrivesAt s src) src tag data
    let waits := reqCrosses s (arrivesAt s src) src r = true ∧ crossing s 0 1 = .stalled
    (waits → exec (.domainRequestReceived src tag r) s = .next { s with inbox := .domainRequestReceived src tag r :: s.inbox }) ∧
    (¬ waits → exec (.domainRequestReceived src tag r) s = .next t) ∧
    Answered s t (arrivesAt s src) src tag data.isSome (data.getD []) ∧ t.warps = s.warps ∧ t.ctxs = s.ctxs ∧ t.units = s.units ∧
    t.cores = s.cores ∧ t.mem = u.mem := by
  intro t waits
  let serve := fun (s' : State) => respond (serveUa s' (arrivesAt s src) r).2 (arrivesAt s src) src tag (serveUa s' (arrivesAt s src) r).1
  have eq : exec (.domainRequestReceived src tag r) s =
      crossIn s (reqCrosses s (arrivesAt s src) src r) (.domainRequestReceived src tag r) serve serve := by
    show execDomainRequestReceived src tag r s = _
    rw [execDomainRequestReceived, arrivalDie_eq]
  have done : serve s = t := by
    show respond (serveUa s _ r).2 _ src tag (serveUa s _ r).1 = t
    rw [h.eq]
  obtain ⟨b, out, rest⟩ := respond_rest u (arrivesAt s src) src tag data
  have field := fun {α : Type} => h.home.field (α := α)
  refine ⟨fun hw => eq.trans (crossIn_stalled hw.1 hw.2), fun hw => eq.trans ?_, respond_answers h.home, ?_⟩
  · rw [← done]
    cases hx : crossing s 0 1 with
    | free => exact crossIn_near fun _ => hx
    | stalled => exact crossIn_near fun c => absurd ⟨c, hx⟩ hw
    | down =>
      cases hc : reqCrosses s (arrivesAt s src) src r with
      | false => exact crossIn_near fun c => absurd c Bool.false_ne_true
      | true => exact crossIn_down rfl hx
  · show (respond u _ src tag data).warps = _ ∧ (respond u _ src tag data).ctxs = _ ∧ (respond u _ src tag data).units = _ ∧
      (respond u _ src tag data).cores = _ ∧ (respond u _ src tag data).mem = _
    rw [rest]
    exact ⟨field State.warps fun _ => rfl, field State.ctxs fun _ => rfl, field State.units fun _ => rfl, field State.cores fun _ => rfl, rfl⟩

theorem domainRequests : Claims.DomainRequests := by
  intro s src tag hm g waits answers
  have served : ∀ {r : UaReq} {data : Option (List Byte)} {u : State}, Served s r g data u →
      ∃ t, answers r data.isSome (data.getD []) t ∧ t.mem = u.mem := fun {r data u} h => by
    obtain ⟨stalls, goes, answered, warps, ctxs, units, cores, mem⟩ := requestServed (tag := tag) h
    exact ⟨respond u g src tag data, ⟨stalls, goes, answered, warps, ctxs, units, cores⟩, mem⟩
  refine ⟨fun a n hn ha hs hb => ?_, fun a data en ha he hs => ?_, fun op ty a x y ht ha hs hb => ?_, fun k => served (serveUa_other k),
    fun a n h => served (serveUa_readError h), fun a data en h => served (serveUa_writeError h)⟩
  · obtain ⟨t, answer, mem⟩ := served (serveUa_read hn ha hs hb)
    exact ⟨t, answer, mem.trans (windowTouch_mem _ _ _ _)⟩
  · obtain ⟨u, serve, bytes⟩ := serveUa_write hm ha he hs
    obtain ⟨t, answer, mem⟩ := served serve
    exact ⟨t, answer, by rw [mem]; exact bytes.bytes, by rw [mem]; exact bytes.rest⟩
  · intro old
    obtain ⟨u, serve, value, rest⟩ := serveUa_atomic (op := op) (x := x) (y := y) hm ht ha hs hb
    obtain ⟨t, answer, mem⟩ := served serve
    exact ⟨t, answer, by rw [mem]; exact value, by rw [mem]; exact rest⟩

end Sys2Proof.Proofs

/-! SUPPORT. The host's accesses of package memory, and its link (R36, R41, R42). -/

namespace Sys2Proof.Proofs

open Sys2Proof Sys2Proof.Machine Sys2Proof.Claims Sys2Proof.Laws

/-! ### The BAR2 aperture (R36, R41, R49) -/

section

variable {s : State} {off n : Nat} {data : List Byte}

theorem pfServes_iff (s : State) : pfServes s = true ↔ HostServed s := by
  rw [pfServes, Bool.and_eq_true, bne_iff_ne]

theorem apertureAddr_served (h : HostServed s) (hn : off + n ≤ 2 ^ 36) : apertureAddr s off n = some (s.host.bar2.toNat + off) := by
  refine if_pos ?_
  rw [Bool.and_eq_true, pfServes_iff, decide_eq_true_eq]
  exact ⟨h, hn⟩

theorem apertureAddr_closed (h : ¬ HostServed s) (off n : Nat) : apertureAddr s off n = none := by
  refine if_neg fun c => ?_
  rw [Bool.and_eq_true, pfServes_iff] at c
  exact h c.1

/-- Whether an access of the host goes to die 1. -/
def farAccess (s : State) (a n : Nat) : Bool := servable s 0 a n && dieOf a != 0

theorem farAccess_iff (s : State) (a n : Nat) : farAccess s a n = true ↔ Serves s 0 a n ∧ dieOf a ≠ 0 := by
  rw [farAccess, Bool.and_eq_true, servable_iff, bne_iff_ne]

/-- What a write of the host does to memory (R41). -/
def hostWrite (a : Nat) (data : List Byte) (s : State) : State :=
  if servable s 0 a data.length then outsideWrite s 0 false a data.length (ofBytes data) else s

theorem inboundWrite_eq (h : HostServed s) (hn : off + data.length ≤ 2 ^ 36) : exec (.inboundHostWrite off data) s =
    crossIn s (farAccess s (s.host.bar2.toNat + off) data.length) (.inboundHostWrite off data) id (hostWrite (s.host.bar2.toNat + off) data) := by
  show execInboundHostWrite off data s = _
  simp only [execInboundHostWrite, apertureAddr_served h hn]
  rfl

theorem hostWrites (hm : memoryOk s) (h : HostServed s) (hn : off + data.length ≤ 2 ^ 36) :
    let a := s.host.bar2.toNat + off
    let far := Serves s 0 a data.length ∧ dieOf a ≠ 0
    (far → crossing s 0 1 = .stalled → exec (.inboundHostWrite off data) s = .next { s with inbox := .inboundHostWrite off data :: s.inbox }) ∧
    (Serves s 0 a data.length → (far → crossing s 0 1 = .free) → ∃ t, exec (.inboundHostWrite off data) s = .next t ∧ t.warps = s.warps ∧
      t.ctxs = s.ctxs ∧ t.cores = s.cores ∧ (∀ (j : Nat) b, data[j]? = some b → readByte t.mem (a + j) = b) ∧
      ∀ b, (b < a ∨ a + data.length ≤ b) → readByte t.mem b = readByte s.mem b) ∧
    (¬ Serves s 0 a data.length → exec (.inboundHostWrite off data) s = .next s) := by
  intro a far
  rw [inboundWrite_eq h hn]
  refine ⟨fun hf hx => crossIn_stalled ((farAccess_iff s a _).mpr hf) hx, fun hs hx => ⟨hostWrite a data s, ?_, ?_⟩, fun hs => ?_⟩
  · exact crossIn_near fun c => hx ((farAccess_iff s a _).mp c)
  · have home := outsideWrite_home s 0 false a data.length (ofBytes data)
    rw [hostWrite, if_pos ((servable_iff s 0 a data.length).mpr hs), outsideWrite_mem]
    exact ⟨home.field State.warps fun _ => rfl, home.field State.ctxs fun _ => rfl, home.field State.cores fun _ => rfl, writeN_ofBytes hm a data⟩
  · rw [crossIn_near fun c => absurd ((farAccess_iff s a _).mp c).1 hs, hostWrite, if_neg (mt (servable_iff s 0 a data.length).mp hs)]

theorem inboundRead_eq (h : HostServed s) (hn : off + n ≤ 2 ^ 36) : exec (.inboundHostRead (.aperture off) n) s =
    crossIn s (farAccess s (s.host.bar2.toNat + off) n) (.inboundHostRead (.aperture off) n) (fun s => { s with hostOut := s.hostOut ++ [.readError] })
      fun s => readAperture s off n := by
  have far : readCrosses s (.aperture off) n = farAccess s (s.host.bar2.toNat + off) n := by
    simp only [readCrosses, apertureAddr_served h hn]
    rfl
  rw [← far]
  exact if_pos h.1

theorem readAperture_good (h : HostServed s) (hn : off + n ≤ 2 ^ 36) (hs : Serves s 0 (s.host.bar2.toNat + off) n) (h0 : 0 < n)
    (hb : NoBad s (s.host.bar2.toNat + off) n) : readAperture s off n =
      { windowTouch s 0 (s.host.bar2.toNat + off) n with
        hostOut := (windowTouch s 0 (s.host.bar2.toNat + off) n).hostOut ++ [.readData (bytesOf n (readN s.mem (s.host.bar2.toNat + off) n))] } := by
  simp only [readAperture, apertureAddr_served h hn, outsideRead_good hs (sectors_forward h0) hb]

theorem readAperture_bad (h : HostServed s) (hn : off + n ≤ 2 ^ 36)
    (hb : ¬ Serves s 0 (s.host.bar2.toNat + off) n ∨ (0 < n ∧ ¬ NoBad s (s.host.bar2.toNat + off) n)) :
    readAperture s off n = { s with hostOut := s.hostOut ++ [.readError] } := by
  have none' : outsideRead s 0 (s.host.bar2.toNat + off) n = (none, s) := by
    by_cases hs : Serves s 0 (s.host.bar2.toNat + off) n
    · obtain ⟨h0, hb⟩ := hb.resolve_left (not_not_intro hs)
      exact outsideRead_bad (sectors_forward h0) (.inr hb)
    · refine if_neg fun c => ?_
      rw [Bool.and_eq_true, servable_iff] at c
      exact hs c.1
  simp only [readAperture, apertureAddr_served h hn, none']

theorem hostReads (h : HostServed s) (hn : off + n ≤ 2 ^ 36) :
    let a := s.host.bar2.toNat + off
    let brings := fun (m : HostMsg) => ∃ t, exec (.inboundHostRead (.aperture off) n) s = .next t ∧ t.hostOut = s.hostOut ++ [m] ∧ t.mem = s.mem ∧
      t.warps = s.warps ∧ t.ctxs = s.ctxs
    let far := Serves s 0 a n ∧ dieOf a ≠ 0
    let i := Instr.inboundHostRead (.aperture off) n
    (far → crossing s 0 1 = .stalled → exec i s = .next { s with inbox := i :: s.inbox }) ∧
    ((far → crossing s 0 1 = .free) →
      (Serves s 0 a n → 0 < n → NoBad s a n → brings (.readData (bytesOf n (readN s.mem a n)))) ∧
      (¬ Serves s 0 a n ∨ (0 < n ∧ ¬ NoBad s a n) → brings .readError)) := by
  intro a brings far i
  have eq := inboundRead_eq h hn
  refine ⟨fun hf hx => eq.trans (crossIn_stalled ((farAccess_iff s a n).mpr hf) hx), fun hx => ?_⟩
  have near := eq.trans (crossIn_near fun c => hx ((farAccess_iff s a n).mp c))
  refine ⟨fun hs h0 hb => ⟨_, near.trans (congrArg _ (readAperture_good h hn hs h0 hb)), ?_⟩,
    fun hb => ⟨_, near.trans (congrArg _ (readAperture_bad h hn hb)), rfl, rfl, rfl, rfl⟩⟩
  have used := windowTouch_slices s 0 a n
  exact ⟨congrArg (· ++ _) (used.field State.hostOut fun _ => rfl), used.field State.mem fun _ => rfl, used.field State.warps fun _ => rfl,
    used.field State.ctxs fun _ => rfl⟩

theorem hostClosed (h : ¬ HostServed s) :
    exec (.inboundHostRead (.aperture off) n) s = .next s ∧ exec (.inboundHostWrite off data) s = .next s := by
  constructor
  · show execInboundHostRead (.aperture off) n s = _
    have near : readCrosses s (.aperture off) n = false := by simp only [readCrosses, apertureAddr_closed h]
    unfold execInboundHostRead
    split
    · rw [crossIn_near fun c => absurd (near.symm.trans c) Bool.false_ne_true]
      simp only [readAperture, apertureAddr_closed h]
    · rfl
  · show execInboundHostWrite off data s = _
    simp only [execInboundHostWrite, apertureAddr_closed h]

end

/-! ### The host link comes up (R42) -/

/-- The messages of a die. -/
def ofDie (d : Fin 2) (xs : List HeldMsg) : List HeldMsg := xs.filter fun x => x.die == d

/-- A state with the host link up, in which nothing of die 0 waits. -/
structure PortFree (s : State) : Prop where
  up : s.host.up = true
  near : ∀ y ∈ s.host.held, y.die ≠ 0

/-- What becomes of a message that is sent: it goes out behind none of its die, or is held, or is lost over a bridge that is down. -/
theorem toHostFor_free {s : State} (h : PortFree s) (x : HeldMsg) :
    ((toHostFor s x).hostOut = s.hostOut ++ [x.msg] ∧ (toHostFor s x).host = s.host ∧ ofDie x.die s.host.held = []) ∨
    ((toHostFor s x).hostOut = s.hostOut ∧ (toHostFor s x).host = { s.host with held := s.host.held ++ [x] } ∧ x.die ≠ 0) ∨
    ((toHostFor s x).hostOut = s.hostOut ∧ (toHostFor s x).host = s.host ∧ x.die ≠ 0 ∧ s.bridge.down = true) := by
  have none' : (s.host.held.any fun y => y.die == 0) = false := List.any_eq_false.mpr fun y hy c => h.near y hy (beq_iff_eq.mp c)
  have port : ∀ t : State, t.host = s.host → atHostPort t x = { t with hostOut := t.hostOut ++ [x.msg] } := fun t ht => by
    refine if_pos ?_
    rw [ht, h.up, none']
    rfl
  unfold toHostFor
  cases hx : crossing s x.die 0 with
  | down =>
    obtain ⟨hd, hb⟩ := (crossing_down_iff s x.die 0).mp hx
    exact .inr (.inr ⟨rfl, rfl, hd, hb⟩)
  | stalled =>
    refine .inr (.inl ⟨rfl, rfl, fun c => ?_⟩)
    rw [c, crossing, if_pos rfl] at hx
    cases hx
  | free =>
    dsimp only
    split
    case isTrue hd =>
      rw [port s rfl]
      refine .inl ⟨rfl, rfl, List.filter_eq_nil_iff.mpr fun y hy c => h.near y hy ?_⟩
      rw [← hd]
      exact beq_iff_eq.mp c
    case isFalse hd =>
      split
      · exact .inr (.inl ⟨rfl, rfl, hd⟩)
      case isFalse ha =>
        rw [port (sendPacket s x.die hostAgent .request true) rfl]
        exact .inl ⟨rfl, rfl, List.filter_eq_nil_iff.mpr fun y hy c => ha (List.any_eq_true.mpr ⟨y, hy, c⟩)⟩

theorem ofDie_append (d : Fin 2) (xs ys : List HeldMsg) : ofDie d (xs ++ ys) = ofDie d xs ++ ofDie d ys := List.filter_append ..

theorem ofDie_cons_same {d : Fin 2} {x : HeldMsg} (h : x.die = d) (xs : List HeldMsg) : ofDie d (x :: xs) = x :: ofDie d xs :=
  List.filter_cons_of_pos (beq_iff_eq.mpr h)

theorem ofDie_cons_other {d : Fin 2} {x : HeldMsg} (h : x.die ≠ d) (xs : List HeldMsg) : ofDie d (x :: xs) = ofDie d xs :=
  List.filter_cons_of_neg fun c => h (beq_iff_eq.mp c)

/-- Messages of a list have been sent, from `s` to `t`: those of `out` have gone out, the rest of each die waits behind what waited, and nothing
goes out past what its die has waiting. -/
structure SentOut (xs : List HeldMsg) (s t : State) (out : List HeldMsg) : Prop where
  hostOut : t.hostOut = s.hostOut ++ out.map (·.msg)
  free : PortFree t
  order : ∀ d, Hears s d → ∃ rest, ofDie d t.host.held = ofDie d s.host.held ++ rest ∧ ofDie d out ++ rest = ofDie d xs ∧
    (ofDie d s.host.held ≠ [] → ofDie d out = [])
  near : (∀ x ∈ xs, x.die = 0) → out = xs

section

variable {s u t : State} {x : HeldMsg} {xs out : List HeldMsg}

/-- A message has gone out, and then the others of its list are sent. -/
theorem SentOut.sends (h : SentOut xs u t out) (hb : u.bridge.down = s.bridge.down) (ho : u.hostOut = s.hostOut ++ [x.msg]) (hh : u.host = s.host)
    (hn : ofDie x.die s.host.held = []) : SentOut (x :: xs) s t (x :: out) := by
  refine ⟨by rw [h.hostOut, ho, List.map_cons, List.append_assoc, List.singleton_append], h.free, fun d hd => ?_,
    fun hx => by rw [h.near fun y hy => hx y (.tail x hy)]⟩
  obtain ⟨rest, held, order, none'⟩ := h.order d (by rw [Hears, hb]; exact hd)
  rw [hh] at held none'
  refine ⟨rest, held, ?_, fun hw => ?_⟩
  · by_cases hxd : x.die = d
    · rw [ofDie_cons_same hxd, ofDie_cons_same hxd, List.cons_append, order]
    · rw [ofDie_cons_other hxd, ofDie_cons_other hxd, order]
  · have hxd : x.die ≠ d := fun e => hw (e ▸ hn)
    rw [ofDie_cons_other hxd]
    exact none' hw

/-- A message is held, and then the others of its list are sent. -/
theorem SentOut.holds (h : SentOut xs u t out) (hb : u.bridge.down = s.bridge.down) (ho : u.hostOut = s.hostOut)
    (hh : u.host = { s.host with held := s.host.held ++ [x] }) (hx : x.die ≠ 0) : SentOut (x :: xs) s t out := by
  refine ⟨by rw [h.hostOut, ho], h.free, fun d hd => ?_, fun hn => absurd (hn x (.head xs)) hx⟩
  obtain ⟨rest, held, order, none'⟩ := h.order d (by rw [Hears, hb]; exact hd)
  rw [hh, ofDie_append] at held none'
  by_cases hxd : x.die = d
  · have one : ofDie d [x] = [x] := ofDie_cons_same hxd []
    rw [one] at held none'
    have quiet := none' (List.append_ne_nil_of_right_ne_nil _ (List.cons_ne_nil x []))
    refine ⟨x :: rest, by rw [held, List.append_assoc, List.singleton_append], ?_, fun _ => quiet⟩
    rw [quiet, List.nil_append] at order ⊢
    rw [ofDie_cons_same hxd, order]
  · have no : ofDie d [x] = [] := ofDie_cons_other hxd []
    rw [no, List.append_nil] at held none'
    exact ⟨rest, held, by rw [order, ofDie_cons_other hxd], none'⟩

/-- A message is lost, and then the others of its list are sent. -/
theorem SentOut.loses (h : SentOut xs u t out) (hb : u.bridge.down = s.bridge.down) (ho : u.hostOut = s.hostOut) (hh : u.host = s.host)
    (hx : x.die ≠ 0) (hd : s.bridge.down = true) : SentOut (x :: xs) s t out := by
  refine ⟨by rw [h.hostOut, ho], h.free, fun d hr => ?_, fun hn => absurd (hn x (.head xs)) hx⟩
  obtain ⟨rest, held, order, none'⟩ := h.order d (by rw [Hears, hb]; exact hr)
  rw [hh] at held none'
  have hxd : x.die ≠ d := fun e => hr.elim (fun h0 => hx (e.trans h0)) fun h1 => Bool.false_ne_true (h1.symm.trans hd)
  exact ⟨rest, held, by rw [order, ofDie_cons_other hxd], none'⟩

end

theorem PortFree.send {s : State} (h : PortFree s) (x : HeldMsg) : PortFree (toHostFor s x) := by
  obtain ⟨-, hh, -⟩ | ⟨-, hh, hx⟩ | ⟨-, hh, -, -⟩ := toHostFor_free h x
  · exact ⟨by rw [hh]; exact h.up, by rw [hh]; exact h.near⟩
  · refine ⟨by rw [hh]; exact h.up, fun y hy => ?_⟩
    rw [hh] at hy
    obtain hy | hy := List.mem_append.mp hy
    · exact h.near y hy
    · rw [List.mem_singleton.mp hy]
      exact hx
  · exact ⟨by rw [hh]; exact h.up, by rw [hh]; exact h.near⟩

theorem foldl_sentOut (xs : List HeldMsg) {s : State} (h : PortFree s) : ∃ out, SentOut xs s (xs.foldl toHostFor s) out := by
  induction xs generalizing s with
  | nil => exact ⟨[], by simp, h, fun d _ => ⟨[], by simp [ofDie], rfl, fun _ => rfl⟩, fun _ => rfl⟩
  | cons x r ih =>
    obtain ⟨out, sent⟩ := ih (h.send x)
    have down := (toHostFor_sends s x).1.down
    obtain ⟨ho, hh, hn⟩ | ⟨ho, hh, hx⟩ | ⟨ho, hh, hx, hd⟩ := toHostFor_free h x
    · exact ⟨x :: out, sent.sends down ho hh hn⟩
    · exact ⟨out, sent.holds down ho hh hx⟩
    · exact ⟨out, sent.loses down ho hh hx hd⟩

theorem sendOwed_out (s : State) (x : HeldMsg) : ∃ out : List HeldMsg, (sendOwed s x).hostOut = s.hostOut ++ out.map (·.msg) := by
  have sent : ∃ out : List HeldMsg, (toHostFor s x).hostOut = s.hostOut ++ out.map (·.msg) := by
    obtain ⟨b, e⟩ | ⟨b, d, e⟩ | ⟨e, -⟩ := toHostFor_cases s x
    · exact ⟨[x], by rw [e]; rfl⟩
    · exact ⟨[], by rw [e, List.map_nil, List.append_nil]⟩
    · exact ⟨[], by rw [e, List.map_nil, List.append_nil]⟩
  unfold sendOwed
  split
  · unfold sendWord
    split
    · exact ⟨[], by rw [List.map_nil, List.append_nil]⟩
    · exact sent
  · exact sent

theorem foldl_sendOwed_out (xs : List HeldMsg) (s : State) : ∃ out : List HeldMsg, (xs.foldl sendOwed s).hostOut = s.hostOut ++ out.map (·.msg) := by
  induction xs generalizing s with
  | nil => exact ⟨[], by simp⟩
  | cons x r ih =>
    obtain ⟨out, first⟩ := sendOwed_out s x
    obtain ⟨out', rest⟩ := ih (sendOwed s x)
    exact ⟨out ++ out', by rw [List.foldl_cons, rest, first, List.map_append, List.append_assoc]⟩

theorem hostLinkRises {s : State} (hu : s.host.up = false) :
    ∃ t, ∃ out : List HeldMsg, exec .hostLinkUp s = .next t ∧ sameWork s t ∧ t.host.up = true ∧ t.hostOut = s.hostOut ++ out.map (·.msg) ∧
      (s.bridge.down = false → ∀ y ∈ s.host.held ++ s.host.owed, Tells t y.msg) ∧
      (s.host.owed = [] → (∀ d : Fin 2, Hears s d →
        (out.filter fun x => x.die == d) ++ (t.host.held.filter fun x => x.die == d) = s.host.held.filter fun x => x.die == d) ∧
        ((∀ x ∈ s.host.held, x.die = 0) → out = s.host.held)) := by
  let u : State := { s with host := { s.host with up := true } }
  have eq : exec .hostLinkUp s = .next (sendHeld u) := if_neg (by rw [hu]; exact Bool.false_ne_true)
  obtain ⟨work, -, up, tells⟩ := sendHeld_sends (s := u)
  obtain ⟨out, sent⟩ := foldl_sentOut s.host.held (s := noneWaits u) ⟨rfl, fun y hy => nomatch hy⟩
  obtain ⟨out', later⟩ := foldl_sendOwed_out s.host.owed (s.host.held.foldl toHostFor (noneWaits u))
  have all : (sendHeld u).hostOut = s.hostOut ++ (out ++ out').map (·.msg) := by
    rw [List.map_append, ← List.append_assoc]
    exact later.trans (congrArg (· ++ _) sent.hostOut)
  by_cases ho : s.host.owed = []
  · have first : sendHeld u = s.host.held.foldl toHostFor (noneWaits u) := by
      rw [sendHeld_eq]
      show s.host.owed.foldl sendOwed _ = _
      rw [ho]
      rfl
    refine ⟨sendHeld u, out, eq, work, up, by rw [first]; exact sent.hostOut, tells, fun _ => ⟨fun d hd => ?_, sent.near⟩⟩
    obtain ⟨rest, held, order, -⟩ := sent.order d hd
    rw [first]
    show ofDie d out ++ ofDie d _ = ofDie d s.host.held
    rw [held, ← order]
    rfl
  · exact ⟨sendHeld u, out ++ out', eq, work, up, all, tells, fun e => absurd e ho⟩

theorem hostLink : Claims.HostLink :=
  ⟨fun _ _ _ hm h hn => hostWrites hm h hn, fun _ _ _ h hn => hostReads h hn, fun _ _ _ _ h => hostClosed h, fun _ h => hostLinkFalls h,
    fun _ h => hostLinkRises h⟩

/-- Settles O57: the traffic of the bridge and of the ports, the requests of other packages, the completions, and what a link that goes down
leaves, each from what its messages change. -/
theorem links : Obligations.Links := ⟨bridgeTraffic, bridgeEnds, portsAndRelays, domainRequests, linkCompletions, hostLink⟩

end Sys2Proof.Proofs

/-! SUPPORT. The refutation of the statement about the host's writes, commands and reads (R117, R137, R249, R250): a write of FRET whose slot is
taken again at once. -/

namespace Sys2Proof.Proofs

open Sys2Proof Sys2Proof.Machine Sys2Proof.Claims Sys2Proof.Laws

/-! ### A slot that a replay takes again

`WindowRegisters` has a retired slot's word read zero, and no record at that slot, whatever the splits suspended on the record go on to do; only its
clause about the splits assumes warps that have nothing to settle. Here the one split of a warp goes on where its record retires and stands
at its rejoin point: it parks there, every split of the warp is parked and the rejoin record awaits another, which is the fault of a rejoin
deadlock. The record of that fault takes the lowest free slot, and this is the one just retired. -/

/-- The fault record at slot 0 of die 0, on which the warp's split is suspended. -/
def heldRecord : SlotRec :=
  { slot := 0, ctx := 0, cause := 0x16, va := 0, route := 1, words := [], splits := [(7, 0)], handle := 0, elem := 0 }

/-- A suspended split at its rejoin point. -/
def lastSplit : Split :=
  { firstSplit 0 0x10000#64 (BitVec.allOnes 32) with rpc := 0x10000#64, st := .blocked, susp := true, record := some 0 }

/-- Its rejoin record, which awaits two splits. -/
def awaitsTwo : Rejoin := { rpc := 0x10000#64, dset := none, depth := 0, parent := none, memb := 2, arrn := 0, done := 0 }

/-- The warp of that split. -/
def deadlocks : Warp :=
  { newWarp 7 0 0 0 .job 0 256 (BitVec.allOnes 32) 0 0x10000#64 with
    splits := tabulate 8 fun i => if i = 0 then some lastSplit else none
    recs := tabulate 16 fun r => if r = 0 then some awaitsTwo else none }

/-- Die 0 is online, context 0 runs with that warp, and the record of the warp's split is at slot 0. -/
def slotTakenAgain : State :=
  let s := modCtx State.reset 0 fun x => { x with st := .running }
  let s := modDie s 0 fun d => { d with dstate := .online, slots := [heldRecord] }
  { s with warps := [deadlocks] }

/-- A write of FRET of die 0 retires the slot (R249, R250). -/
theorem fretWrite_die0 {s : State} (h : HostServed s) (v : Word) : exec (.fretWrite 0 v) s = .next (retireSlot s 0 v.toNat) := by
  have run : exec (.fretWrite 0 v) s = crossIn s ((0 : Fin 2) != 0 && windowOpen s 0) (.fretWrite 0 v) id _ := if_pos ((pfServes_iff s).mpr h)
  have here : ((0 : Fin 2) != 0 && windowOpen s 0) = false := rfl
  exact run.trans (crossIn_near fun e => absurd (here.symm.trans e) Bool.false_ne_true)

/-- After the write of FRET a record has the slot that was retired. -/
theorem slotTakenAgain_taken : ∀ t, exec (.fretWrite 0 0) slotTakenAgain = .next t → t.dies[(0 : Fin 2)].slots.any (fun y => y.slot == 0) = true := by
  intro t ht
  obtain rfl := Host.Outcome.next.inj ((fretWrite_die0 ⟨rfl, by decide⟩ 0).symm.trans ht)
  decide +kernel

/-- Refutes O58: a split that replays when its fault record is retired faults at once, and the new record takes the slot. -/
theorem not_hostCommands : ¬ Obligations.HostCommands := by
  rintro ⟨-, -, -, -, -, -, ⟨-, near, -⟩, -⟩
  obtain ⟨-, -, -, -, -, retires⟩ := near slotTakenAgain 0 0 ⟨rfl, by decide⟩ (.inl rfl)
  obtain ⟨t, run, -, gone, -⟩ := retires (.inl rfl) rfl rfl heldRecord rfl
  obtain ⟨y, hy, slot⟩ := List.any_eq_true.mp (slotTakenAgain_taken t run)
  exact gone y hy (beq_iff_eq.mp slot)

end Sys2Proof.Proofs

/-! SUPPORT. The state right after reset (R43, R56, R58, R91, R249): each element of its tables, and its soundness. -/

namespace Sys2Proof.Proofs

open Sys2Proof Sys2Proof.Machine Sys2Proof.Claims Sys2Proof.Laws

@[simp] theorem reset_ctxs_get (c : Fin 64) : State.reset.ctxs[c] = Ctx.reset := always_get 64 Ctx.reset c

@[simp] theorem reset_parts_get (n : Fin 24) : State.reset.parts[n] = Part.reset := always_get 24 Part.reset n

@[simp] theorem reset_dies_get (d : Fin 2) : State.reset.dies[d] = Die.reset := always_get 2 Die.reset d

@[simp] theorem reset_cores_get (k : Fin 384) : State.reset.cores[k] = Core.reset := always_get 384 Core.reset k

@[simp] theorem dieReset_meas_get (k : Fin 8) : Die.reset.meas[k] = 0 := always_get 8 0 k

theorem readByte_nil (a : Nat) : readByte [] a = 0 := rfl

theorem partitionsOk_of_noneValid {s : State} (h : ∀ n : Fin 24, s.parts[n].valid = false) : partitionsOk s :=
  fun m _ _ hm => absurd ((h m).symm.trans hm) Bool.false_ne_true

theorem zeroOk_of_noWarps {s : State} (h : s.warps = []) : zeroOk s := by
  intro w hw
  rw [h] at hw
  nomatch hw

theorem reset_parts_invalid (n : Fin 24) : State.reset.parts[n].valid = false := by
  rw [reset_parts_get]
  rfl

theorem resetValues : Claims.ResetValues := by
  refine ⟨fun c => ?ctx, reset_parts_invalid, fun d => ?die, fun k => ?core, rfl, rfl, rfl, rfl, rfl, rfl, rfl, readByte_nil⟩
  case ctx =>
    rw [reset_ctxs_get]
    rfl
  case die =>
    rw [reset_dies_get]
    exact ⟨rfl, rfl, rfl, rfl, dieReset_meas_get⟩
  case core =>
    rw [reset_cores_get]
    exact ⟨rfl, rfl⟩

/-- With memory listing nothing, no valid partition and no warp, nothing can break the soundness of the state after reset. -/
theorem resetSound : Claims.ResetSound := ⟨nil_wf, partitionsOk_of_noneValid reset_parts_invalid, zeroOk_of_noWarps rfl⟩

/-- Settles O24: every table of the state after reset holds its reset element throughout, and the state is sound. -/
theorem resetState : Obligations.ResetState := ⟨resetValues, resetSound⟩

end Sys2Proof.Proofs

/-! SUPPORT. What the caches, the walks, releases, barriers and faults keep (R7, R56, R57): the canonical form of package memory and the
partition table, carried through every operation that an instruction or an event is made of. -/

namespace Sys2Proof.Proofs

open Sys2Proof Sys2Proof.Machine Sys2Proof.Claims Sys2Proof.Laws

/-! ### Choices and sequences of operations -/

/-- The last operation first: what `Keeps.trans` says, for a goal whose intermediate states follow from its end. -/
theorem keeps_last {s t u : State} (g : Keeps t u) (h : Keeps s t) : Keeps s u := h.trans g

theorem keeps_ite {p : Prop} [Decidable p] {s t u : State} (h : Keeps s t) (g : Keeps s u) : Keeps s (if p then t else u) := by
  split
  · exact h
  · exact g

theorem effectKeeps_next {s t : State} (h : Keeps s t) : EffectKeeps s (.next t) := h
theorem effectKeeps_moved {s t : State} (h : Keeps s t) : EffectKeeps s (.moved t) := h
theorem effectKeeps_rest {s t : State} (h : Keeps s t) : EffectKeeps s (.rest t) := h
theorem effectKeeps_fault (s : State) (f : FaultInfo) : EffectKeeps s (.fault f) := trivial

theorem effectKeeps_ite {p : Prop} [Decidable p] {s : State} {e f : Effect} (h : EffectKeeps s e) (g : EffectKeeps s f) :
    EffectKeeps s (if p then e else f) := by
  split
  · exact h
  · exact g

theorem effectKeeps_after {s t : State} (h : Keeps s t) {e : Effect} (g : EffectKeeps t e) : EffectKeeps s e := by
  cases e with
  | next u => exact Keeps.trans h g
  | moved u => exact Keeps.trans h g
  | wait u => exact Keeps.trans h g
  | rest u => exact Keeps.trans h g
  | fault f => trivial

/-- A fold that carries a value beside the state. -/
theorem keeps_foldSnd {α β : Type} {f : β × State → α → β × State} (hf : ∀ p a, Keeps p.2 (f p a).2) (l : List α) (p : β × State) :
    Keeps p.2 (l.foldl f p).2 := by
  induction l generalizing p with
  | nil => exact .refl _
  | cons a r ih => exact (hf p a).trans (ih _)

/-! ### Caches (R146-R151) -/

theorem fresh_keeps (s : State) : Keeps s (fresh s).2 := .same rfl rfl

theorem pastStall_keeps {f : State → State} (hf : ∀ s, Keeps s (f s)) (s : State) : Keeps s (pastStall s f) := by
  unfold pastStall
  dsimp only
  split
  · exact ⟨(hf { s with bridge := { s.bridge with retrain := none, replay := [] } }).wf,
      (hf { s with bridge := { s.bridge with retrain := none, replay := [] } }).parts⟩
  · exact hf s

theorem l2Trim_keeps (d : Fin 2) (sl : Fin 64) (n : Nat) (s : State) : Keeps s (l2Trim s d sl n) := by
  induction n generalizing s with
  | zero => exact .refl s
  | succ k ih =>
    unfold l2Trim
    split
    · exact .refl s
    · split
      · exact .refl s
      · exact (l2Evict_only _ _ _).keeps.trans (ih _)

theorem recallAt_keeps (s : State) (a n : Nat) : Keeps s (recallAt s a n) := (recall_only s a n).keeps

theorem recallDue_keeps (s : State) : Keeps s (recallDue s) :=
  .fold (fun s line => keeps_ite (recallLine_only s line).keeps (.refl s)) _ _

theorem homeWrite_keeps (s : State) (r : Fin 2) (q : Acc) (b : Bool) (a n x : Nat) : Keeps s (homeWrite s r q b a n x) :=
  (homeWrite_only s r q b a n x).keeps

theorem l1CleanLine_keeps (s : State) (c : Fin 384) (l : L1Line) : Keeps s (l1CleanLine s c l) :=
  keeps_ite ((writeBack_only s _ l).keeps.trans (modCore_keeps _ _ _)) (.refl s)

theorem l1CleanNow_keeps (s : State) (c : Fin 384) : Keeps s (l1CleanNow s c) :=
  .fold (fun s l => pastStall_keeps (fun s => l1CleanLine_keeps s c l) s) _ _

theorem l1Clean_keeps (s : State) (c : Fin 384) (p : L1Line → Bool) : Keeps s (l1Clean s c p) := (l1Clean_only s c p).keeps

theorem l1Drop_keeps (s : State) (c : Fin 384) (p : L1Line → Bool) : Keeps s (l1Drop s c p) := (l1Drop_only s c p).keeps

theorem l1DropClean_keeps (s : State) (c : Fin 384) (p : L1Line → Bool) : Keeps s (l1DropClean s c p) := (l1DropClean_only s c p).keeps

/-! ### Translations (R129-R135) -/

theorem setEntry_keeps (s : State) (d : Fin 2) (c : Fin 64) (a : Nat) (p : Word) : Keeps s (setEntry s d c a p) := by
  unfold setEntry
  exact (recallAt_keeps s a 8).trans (homeWrite_keeps _ _ _ _ _ _ _)

theorem shareCopies_keeps (s : State) (e : TlbEntry) : Keeps s (shareCopies s e) := by
  unfold shareCopies
  split
  · exact .refl s
  · extract_lets frame here u v
    have hu : Keeps s u := .fold (fun s d => .fold (fun s line => pastStall_keeps (fun s => (recallLine_only s line).keeps) s) _ s) _ s
    have hv : Keeps u v := .fold (fun s d => .fold (fun s line => (l2Shared_only s d line true).keeps) _ s) _ u
    clear_value v
    exact hu.trans (hv.trans (.same rfl rfl))

theorem dieEnter_keeps (s : State) (d : Fin 2) (e : TlbEntry) : Keeps s (dieEnter s d e) := modDie_keeps _ _ _

theorem nodesEnter_keeps (s : State) (d : Fin 2) (c : Fin 64) (va : Nat) (via : List (Nat × Word)) : Keeps s (nodesEnter s d c va via) :=
  modDie_keeps _ _ _

theorem walkNow_keeps (s : State) (d : Fin 2) (c : Fin 64) (va : Word) : Keeps s (walkNow s d c va).2 := by
  unfold walkNow
  dsimp only
  split
  · exact .refl s
  · split
    · exact .refl s
    · split
      · exact .refl s
      · refine keeps_last (shareCopies_keeps _ _) (keeps_last (dieEnter_keeps _ _ _) (keeps_last (nodesEnter_keeps _ _ _ _ _) ?_))
        split
        · exact (crossed_only _ _ _ _).keeps
        · exact keeps_last (setEntry_keeps _ _ _ _ _) (crossed_only _ _ _ _).keeps

theorem coreEnter_keeps (s : State) (k : Fin 384) (e : TlbEntry) : Keeps s (coreEnter s k e) := modCore_keeps _ _ _

theorem askWalkFor_keeps (s : State) (d : Fin 2) (who : Asker) (c : Fin 64) (page : Nat) : Keeps s (askWalkFor s d who c page) :=
  modDie_keeps _ _ _

theorem askWalk_keeps (s : State) (k : Fin 384) (w : Nat) (sp : Fin 8) (c : Fin 64) (page : Nat) : Keeps s (askWalk s k w sp c page) :=
  askWalkFor_keeps _ _ _ _ _

theorem runWalk_keeps (s : State) (d : Fin 2) (r : WalkReq) : Keeps s (runWalk s d r) := by
  refine keeps_ite (.refl s) ?_
  refine (modDie_keeps s d fun x => { x with walks := x.walks.filter fun y => !(y.ctx == r.ctx && y.page == r.page) }).trans ?_
  refine (walkNow_keeps _ d r.ctx (BitVec.ofNat 64 (r.page * 2 ^ 16))).trans ?_
  dsimp only
  split
  · exact .fold (fun s k => coreEnter_keeps s k _) _ _
  · exact .same rfl rfl
  · exact .refl _

theorem forgetEngFails_keeps (s : State) (d : Fin 2) (id : Nat) : Keeps s (forgetEngFails s d id) := modDie_keeps _ _ _

theorem forgetWalks_keeps (s : State) (c : Fin 64) : Keeps s (forgetWalks s c) := .same rfl rfl

theorem markBitmap_keeps (s : State) (d : Fin 2) (c : Fin 64) (e : TlbEntry) (pa : Nat) : Keeps s (markBitmap s d c e pa) := by
  refine keeps_ite ?_ (.refl s)
  split
  · exact keeps_ite (.refl s) ((recallAt_keeps _ _ _).trans (homeWrite_keeps _ _ _ _ _ _ _))
  · exact .refl s

theorem setDirty_keeps {s t : State} {k : Option (Fin 384)} {d : Fin 2} {c : Fin 64} {e : TlbEntry} {pa : Nat}
    (h : setDirty s k d c e pa = some t) : Keeps s t := by
  unfold setDirty at h
  dsimp only at h
  split at h
  · cases h
    exact markBitmap_keeps _ _ _ _ _
  · split at h
    · cases h
      refine Keeps.trans ?_ (markBitmap_keeps _ _ _ _ _)
      split
      · exact (setEntry_keeps _ _ _ _ _).trans ((modDie_keeps _ _ _).trans (modCore_keeps _ _ _))
      · exact (setEntry_keeps _ _ _ _ _).trans (modDie_keeps _ _ _)
    · cases h

theorem tlbForget_keeps (s : State) (k : Option (Fin 384)) (d : Fin 2) (c : Fin 64) (va : Nat) : Keeps s (tlbForget s k d c va) := by
  unfold tlbForget
  dsimp only
  split
  · exact .same rfl rfl
  · exact modDie_keeps _ _ _

theorem tlbInvalidate_keeps (s : State) (c : Fin 64) (lo len : Nat) : Keeps s (tlbInvalidate s c lo len) := by
  unfold tlbInvalidate
  extract_lets hit drop old one u v x
  have hu : Keeps s u := keeps_last (modDie_keeps _ _ _) (modDie_keeps _ _ _)
  have hv : Keeps u v := .fold (fun s d => modDie_keeps s d _) _ u
  have hx : Keeps v x := keeps_last (forgetWalks_keeps _ _) (.same rfl rfl)
  exact hu.trans (hv.trans (hx.trans (.fold (fun s k => keeps_ite (.refl s) (modCore_keeps _ _ _)) _ x)))

theorem tlbClean_keeps (s : State) (p : TlbEntry → Bool) : Keeps s (tlbClean s p) := by
  unfold tlbClean
  extract_lets one u
  have hu : Keeps s u := keeps_last (modDie_keeps _ _ _) (modDie_keeps _ _ _)
  exact hu.trans (.fold (fun s k => keeps_ite (.refl s) (modCore_keeps _ _ _)) _ u)

/-! ### Reads and their places (R12-R14, R147) -/

theorem touchSector_keeps (s : State) (k : Fin 384) (q : Acc) (home : Bool) (sec : Nat) : Keeps s (touchSector s k q home sec) :=
  keeps_ite (l2Read_only _ _ _ _).keeps (l1Sector_only _ _ _ _).keeps

theorem windowTouch_keeps (s : State) (d : Fin 2) (a n : Nat) : Keeps s (windowTouch s d a n) :=
  (recallAt_keeps s a n).trans (.fold (fun s _ => (crossed_only s _ _ _).keeps.trans (l2Read_only _ _ _ _).keeps) _ _)

theorem touchBytes_keeps (s : State) (k : Fin 384) (home : Bool) (q : Acc) (p : Spot) (a n : Nat) :
    Keeps s (touchBytes s k home q p a n) :=
  keeps_ite (.fold (fun s => touchSector_keeps s k q home) _ _) (windowTouch_keeps _ _ _ _)

/-! ### Releases and acquires (R161, R165) -/

theorem releaseSystem_keeps (s : State) (w : Warp) : OrderKeeps s (releaseSystem s w) := by
  unfold releaseSystem
  split
  · exact .bad _
  · exact flushAt_keeps _ _ _ _

theorem releaseLinks_keeps (s : State) (w : Warp) (sc : Scope) : OrderKeeps s (releaseLinks s w sc) := by
  unfold releaseLinks
  split
  · exact .wait (.refl s)
  · split
    · exact .ok (.refl s)
    · split
      · exact .bad _
      · split
        · exact releaseSystem_keeps _ _
        · exact .ok (.refl s)

theorem releaseCaches_keeps (s : State) (w : Warp) : OrderKeeps s (releaseCaches s w) := by
  unfold releaseCaches
  dsimp only
  split
  · exact .bad _
  · split
    · exact .wait (l1Clean_keeps _ _ _)
    · exact .ok (l1Clean_keeps _ _ _)

theorem releaseAt_keeps (s : State) (w : Warp) (sc : Scope) : OrderKeeps s (releaseAt s w sc) := by
  refine OrderKeeps.bind ?_ fun t => ?_
  · split
    · exact .ok (.refl s)
    · exact releaseCaches_keeps _ _
  · split
    · split
      · exact .bad _
      · exact .wait (.refl t)
    · exact releaseLinks_keeps _ _ _

theorem acquireAt_keeps (s : State) (w : Warp) (sc : Scope) : OrderKeeps s (acquireAt s w sc) := by
  unfold acquireAt
  split
  · exact .wait (.refl s)
  · split
    · exact .bad _
    · exact .ok (keeps_ite (.refl s) (l1DropClean_keeps _ _ _))

theorem flushAll_keeps (s : State) (w : Warp) : OrderKeeps s (flushAll s w) := by
  unfold flushAll
  split
  · exact .wait (.refl s)
  · dsimp only
    split
    · exact .bad _
    · split
      · exact .wait (l1Clean_keeps _ _ _)
      · exact .ok (l1Clean_keeps _ _ _)

theorem andThen_keeps {s : State} {o : Order} {k : State → Effect} (h : OrderKeeps s o) (g : ∀ t, EffectKeeps t (k t)) :
    EffectKeeps s (o.andThen k) := by
  cases h with
  | ok h => exact effectKeeps_after h (g _)
  | wait h => exact h
  | bad f => trivial

/-! ### Barriers (R330-R333) -/

theorem examineBars_keeps (s : State) (u : Nat) : Keeps s (examineBars s u) := modUnit_keeps _ _ _

theorem arrive_keeps (s : State) (w : Warp) (b : Fin 16) : Keeps s (arrive s w b) := by
  unfold arrive
  split
  · exact keeps_ite (.refl s) ((modWarp_keeps _ _ _).trans ((modUnit_keeps _ _ _).trans (examineBars_keeps _ _)))
  · exact modWarp_keeps _ _ _

theorem awaitGen_keeps (s : State) (c : Iss) (b : Fin 16) (g : BitVec 32) : EffectKeeps s (awaitGen s c b g) := by
  unfold awaitGen
  split
  · split
    · exact modWarp_keeps _ _ _
    · exact Keeps.refl s
  · exact Keeps.refl s

theorem barWait_keeps (s : State) (c : Iss) (b : Fin 16) : EffectKeeps s (barWait s c b) := by
  unfold barWait
  split
  · exact awaitGen_keeps _ _ _ _
  · exact Keeps.refl s

/-! ### Boundary fills (R238, R239) -/

theorem countFill_keeps (s : State) (w : Nat) (c : Fin 4) : Keeps s (countFill s w c) := modWarp_keeps _ _ _

theorem writeMail_keeps (d : Fin 2) (vs : List (Option Word)) (s : State) (a : Nat) : Keeps s (writeMail s d a vs) := by
  induction vs generalizing s a with
  | nil => exact .refl s
  | cons v r ih =>
    cases v with
    | none => exact ih _ _
    | some v => exact (homeWrite_keeps _ _ _ _ _ _ _).trans (ih _ _)

theorem putMail_keeps (s : State) (x : UnitSt) (w : Warp) (ch : Fin 4) (occ : Nat) (vs : List (Option Word)) (p : Spot) :
    Keeps s (putMail s x w ch occ vs p) := by
  unfold putMail
  dsimp only
  split
  · exact tlbForget_keeps _ _ _ _ _
  · rename_i h
    refine (setDirty_keeps h).trans (.trans (t := countFill (writeMail _ _ _ _) w.id ch) ?_ (.same rfl rfl))
    exact keeps_last (countFill_keeps _ _ _) (writeMail_keeps _ _ _ _)

end Sys2Proof.Proofs

/-! SUPPORT. What the instructions of a warp keep (R7, R56, R57): vector forms, links, loads and stores, chains, expand contexts and fetches. -/

namespace Sys2Proof.Proofs

open Sys2Proof Sys2Proof.Machine Sys2Proof.Claims Sys2Proof.Laws

/-- An outcome that keeps memory's form and the partition table, where it is a next state. -/
def OutcomeKeeps (s : State) (o : Host.Outcome State Fault Refusal) : Prop := ∀ t, o = .next t → Keeps s t

theorem outcomeKeeps_next {s t : State} (h : Keeps s t) : OutcomeKeeps s (.next t) := by
  intro u hu
  cases hu
  exact h

theorem outcomeKeeps_ite {p : Prop} [Decidable p] {s : State} {a b : Host.Outcome State Fault Refusal} (h : OutcomeKeeps s a)
    (g : OutcomeKeeps s b) : OutcomeKeeps s (if p then a else b) := by
  split
  · exact h
  · exact g

theorem issue_outcome {i : Instr} {effect : State → Iss → Effect} (h : ∀ s c, EffectKeeps s (effect s c)) {s : State} :
    OutcomeKeeps s (issue i effect s) := fun _ e => issue_keeps h e

theorem issueWarp_outcome {i : Instr} {effect : State → Iss → Effect} (h : ∀ s c, EffectKeeps s (effect s c)) {s : State} :
    OutcomeKeeps s (issueWarp i effect s) := fun _ e => issueWarp_keeps h e

/-! ### Vector, scalar and predicate forms (R283-R311) -/

theorem addResult_keeps (s : State) (r : Result) : Keeps s (addResult s r) := .same rfl rfl

theorem deliver_keeps (s : State) (c : Iss) (d : Fin 256) (dest : VDest) (r : Fin 32 → Word × BitVec 16) : Keeps s (deliver s c d dest r) := by
  cases dest with
  | reg => exact modWarp_keeps _ _ _
  | pred => exact modWarp_keeps _ _ _
  | queue => exact (addResult_keeps _ _).trans (modWarp_keeps _ _ _)

theorem deliverChained_keeps (s : State) (i : Instr) (c : Iss) (o : VOp) (dest : VDest) (w : Warp) (rs : List (Fin 32 × Word × BitVec 16)) :
    Keeps s (deliverChained s i c o dest w rs) :=
  keeps_last (modWarp_keeps _ _ _) (addResult_keeps _ _)

theorem finishChained_keeps (s : State) (i : Instr) (c : Iss) (f : VForm) (dest : VDest) (u : UnitSt) (la : Launch) (w : Warp)
    (rs : List (Fin 32 × Word × BitVec 16)) : EffectKeeps s (finishChained s i c f dest u la w rs) := by
  unfold finishChained
  split
  · exact deliverChained_keeps _ _ _ _ _ _ _
  · split
    · exact Keeps.refl s
    · split
      · exact deliverChained_keeps _ _ _ _ _ _ _
      · exact askWalk_keeps _ _ _ _ _ _
      · exact Keeps.refl s
      · trivial
      · exact deliverChained_keeps _ _ _ _ _ _ _

theorem chainStop_keeps (s : State) (c : Iss) (e : ChainRead × Fin 32) : EffectKeeps s (chainStop s c e) := by
  unfold chainStop
  split
  · exact askWalk_keeps _ _ _ _ _ _
  · trivial
  · exact Keeps.refl s
  · exact Keeps.refl s

theorem chainOrder_keeps (s : State) (c : Iss) (u : UnitSt) (o : VOp) {k : State → Effect} (h : ∀ t, EffectKeeps t (k t)) :
    EffectKeeps s (chainOrder s c u o k) := by
  have acquires : ∀ t, EffectKeeps t (if (cchOf o).isSome then (acquireAt t c.w (chainScope t.ctxs[c.w.ctx] u)).andThen k else k t) :=
    fun t => effectKeeps_ite (andThen_keeps (acquireAt_keeps _ _ _) h) (h t)
  exact effectKeeps_ite (andThen_keeps (releaseAt_keeps _ _ _) acquires) (acquires s)

theorem chainEffect_keeps (s : State) (i : Instr) (c : Iss) (f : VForm) (g : LaneFn) (dest : VDest) :
    EffectKeeps s (chainEffect s i c f g dest) := by
  unfold chainEffect
  split
  · trivial
  · split
    · trivial
    · split
      · exact chainStop_keeps _ _ _
      · exact chainOrder_keeps _ _ _ _ fun t => finishChained_keeps _ _ _ _ _ _ _ _ _

theorem vEffect_keeps (i : Instr) (f : VForm) (dest : VDest) (g : LaneFn) (s : State) (c : Iss) : EffectKeeps s (vEffect i f dest g s c) :=
  effectKeeps_ite (chainEffect_keeps _ _ _ _ _ _) (deliver_keeps _ _ _ _ _)

theorem runV_keeps (i : Instr) (dest : VDest) (g : LaneFn) (s : State) : OutcomeKeeps s (runV i dest g s) := by
  refine issue_outcome fun s c => ?_
  split
  · exact vEffect_keeps _ _ _ _ _ _
  · exact Keeps.refl s

theorem runX_keeps (i : Instr) (o : VOp) (h : State → Iss → (Fin 32 → Word) × BitVec 16) (s : State) : OutcomeKeeps s (runX i o h s) := by
  refine issue_outcome fun _ _ => ?_
  exact modWarp_keeps _ _ _

/-! ### Links (R28-R40) -/

theorem transmit_keeps (s : State) (l : LinkOp) : Keeps s (transmit s l) := by
  unfold transmit
  split
  · exact toHostFor_keeps _ _
  · split
    · dsimp only
      split
      · exact .same rfl rfl
      · exact .same rfl rfl
    · exact .refl s

theorem sendLink_keeps (s : State) (d : Fin 2) (l : LinkOp) : Keeps s (sendLink s d l).2 := by
  unfold sendLink
  dsimp only
  split
  · exact .same rfl rfl
  · exact keeps_last (transmit_keeps _ _) (.same rfl rfl)

theorem modResult_keeps (s : State) (id : Nat) (f : Result → Result) : Keeps s (modResult s id f) := .same rfl rfl

theorem dropLinkResult_keeps (s : State) (c : Iss) : Keeps s (dropLinkResult s c) := .same rfl rfl

/-- The accesses that an instruction sends one after the other, with their tags. -/
theorem sendLinks_keeps (d : Fin 2) (f : LinkOp → LinkOp) (ls : List LinkOp) (a : List Nat × State) :
    Keeps a.2 (ls.foldl (fun (a : List Nat × State) l =>
      let (t, s) := sendLink a.2 d (f l)
      (a.1 ++ [t], s)) a).2 :=
  keeps_foldSnd (β := List Nat) (fun a l => sendLink_keeps a.2 d (f l)) ls a

theorem startLinks_keeps (s : State) (c : Iss) (n : Nat) (ls : List LinkOp) : Keeps s (startLinks s c n ls) :=
  keeps_last (modResult_keeps _ _ _) (keeps_last (sendLinks_keeps _ _ _ _) (addResult_keeps _ _))

/-! ### Accesses of lanes (R133, R158) -/

theorem askAll_keeps (s : State) (c : Iss) (pages : List Nat) : EffectKeeps s (askAll s c pages) :=
  Keeps.fold (fun s p => askWalk_keeps s _ _ _ _ p) _ _

theorem withSpots_keeps (s : State) (c : Iss) (parts : Nat) (lanes : List (Fin 32)) (look : Fin 32 → Nat → Look)
    (stages : Fin 32 → List (Spot → Look)) {k : List (Fin 32 × Spot) → Effect} (h : ∀ ps, EffectKeeps s (k ps)) :
    EffectKeeps s (withSpots s c parts lanes look stages k) := by
  unfold withSpots
  split
  · exact askAll_keeps _ _ _
  · exact Keeps.refl s
  · trivial
  · exact h _

theorem markLanes_keeps (c : Iss) (d : Fin 2) (ps : List (Fin 32 × Spot)) (a : State × Bool) :
    Keeps a.1 (ps.foldl (fun (a : State × Bool) p =>
      if a.2 then a
      else
        match translate a.1 c.w.core c.w.ctx p.2.va with
        | .ok _ e =>
          (match setDirty a.1 (some c.w.core) d c.w.ctx e p.2.pa with
            | some s => (s, false)
            | none => (tlbForget a.1 (some c.w.core) d c.w.ctx p.2.va.toNat, true))
        | _ => (a.1, true)) a).1 := by
  induction ps generalizing a with
  | nil => exact .refl _
  | cons p r ih =>
    refine Keeps.trans ?_ (ih _)
    dsimp only
    split
    · exact .refl _
    · split
      · split
        · rename_i h
          exact setDirty_keeps h
        · dsimp only
          exact tlbForget_keeps _ _ _ _ _
      · exact .refl _

theorem dirtyAll_keeps (s : State) (c : Iss) (ps : List (Fin 32 × Spot)) {k : State → Effect} (h : ∀ t, EffectKeeps t (k t)) :
    EffectKeeps s (dirtyAll s c ps k) := by
  have marks := markLanes_keeps c (coreDie c.w.core) ps (s, false)
  unfold dirtyAll
  dsimp only
  split
  · exact Keeps.refl s
  · split
    · trivial
    · split
      · exact marks
      · exact effectKeeps_after marks (h _)

theorem touchParts_keeps (s : State) (c : Iss) (o : MOp) (home : Spot → Bool) (ps : List (Fin 32 × Spot)) :
    Keeps s (touchParts s c o home ps) := by
  refine keeps_foldSnd (fun a x => ?_) ps ([], s)
  dsimp only
  split
  · exact .refl _
  · split
    · exact keeps_foldSnd (fun a sec => touchSector_keeps _ _ _ _ _) _ a
    · split
      · exact .refl _
      · exact windowTouch_keeps _ _ _ _

theorem withScratch_keeps (s : State) (c : Iss) (o : MOp) {k : UnitSt → Effect} (h : ∀ u, EffectKeeps s (k u)) :
    EffectKeeps s (withScratch s c o k) := by
  unfold withScratch
  dsimp only
  split
  · trivial
  · exact h _
  · trivial

theorem overLinks_keeps (s : State) (c : Iss) (parts : Nat) (ls : List LinkOp) {k : State → Option Result → Effect}
    (h : ∀ t r, EffectKeeps t (k t r)) : EffectKeeps s (overLinks s c parts ls k) := by
  unfold overLinks
  split
  · exact h _ _
  · split
    · exact startLinks_keeps _ _ _ _
    · exact Keeps.refl s
    · trivial
    · exact effectKeeps_after (dropLinkResult_keeps _ _) (h _ _)

theorem sendRegs_keeps (s : State) (c : Iss) (regs : List (Fin 256)) (vs : List (Fin 32 × Word)) : Keeps s (sendRegs s c regs vs) :=
  keeps_last (modWarp_keeps _ _ _) (addResult_keeps _ _)

theorem acquireWidest_keeps (s : State) (c : Iss) (ps : List (Fin 32 × Spot)) : Keeps s (acquireWidest s c ps) :=
  keeps_ite (.refl s) (l1DropClean_keeps _ _ _)

/-! ### Loads, stores and atomics (R318-R328) -/

theorem loadEffect_keeps (o : MOp) (acq : Bool) (s : State) (c : Iss) : EffectKeeps s (loadEffect o acq s c) := by
  refine effectKeeps_ite (Keeps.refl s) (withSpots_keeps _ _ _ _ _ _ fun ps => effectKeeps_ite (Keeps.refl s) ?_)
  refine overLinks_keeps _ _ _ _ fun t r => ?_
  refine keeps_last (sendRegs_keeps _ _ _ _) ?_
  split
  · exact keeps_last (acquireWidest_keeps _ _ _) (touchParts_keeps _ _ _ _ _)
  · exact touchParts_keeps _ _ _ _ _

theorem loadScalar_keeps (o : MOp) (s : State) : OutcomeKeeps s (execLdS o s) := by
  refine issueWarp_outcome fun s c => ?_
  refine withSpots_keeps _ _ _ _ _ _ fun ps => overLinks_keeps _ _ _ _ fun t r => ?_
  split
  · exact Keeps.refl t
  · exact keeps_last (modWarp_keeps _ _ _) (keeps_last (addResult_keeps _ _) (touchParts_keeps _ _ _ _ _))

theorem loadScratch_keeps (o : MOp) (s : State) : OutcomeKeeps s (execLdSp o s) := by
  refine issue_outcome fun s _ => ?_
  exact effectKeeps_ite (Keeps.refl s) (withScratch_keeps _ _ _ fun _ => sendRegs_keeps _ _ _ _)

theorem storePart_keeps (s : State) (c : Iss) (o : MOp) (rel : Bool) (l : Fin 32) (p : Spot) : Keeps s (storePart s c o rel l p) := by
  unfold storePart
  dsimp only
  split
  · split
    · exact (l1Write_only _ _ _ _ _ _ _).keeps
    · split
      · exact keeps_last (l1Refresh_only _ _ _ _ _).keeps (writeHome_only _ _ _ _ _ _ _ _).keeps
      · exact (writeHome_only _ _ _ _ _ _ _ _).keeps
  · exact sendLink_keeps _ _ _

theorem storeEffect_keeps (o : MOp) (rel : Bool) (s : State) (c : Iss) : EffectKeeps s (storeEffect o rel s c) := by
  refine effectKeeps_ite (Keeps.refl s) (withSpots_keeps _ _ _ _ _ _ fun ps => ?_)
  have stores : ∀ t, EffectKeeps t (dirtyAll t c ps fun s => .next (ps.foldl (fun s p => storePart s c o rel p.1 p.2) s)) :=
    fun t => dirtyAll_keeps _ _ _ fun u => effectKeeps_next (.fold (fun s p => storePart_keeps s c o rel p.1 p.2) ps u)
  exact effectKeeps_ite (andThen_keeps (releaseAt_keeps _ _ _) stores) (stores s)

theorem storeScratch_keeps (o : MOp) (s : State) : OutcomeKeeps s (execStSp o s) := by
  refine issue_outcome fun s _ => ?_
  exact effectKeeps_ite (Keeps.refl s) (withScratch_keeps _ _ _ fun _ => modUnit_keeps _ _ _)

theorem atomLane_keeps (s : State) (c : Iss) (op : AtomOp) (o : MOp) (l : Fin 32) (p : Spot) (pa : Nat) :
    Keeps s (atomLane s c op o l p pa).2 := (atomLane_only s c op o l p pa).keeps

theorem atomLanes_keeps (s : State) (c : Iss) (op : AtomOp) (o : MOp) (ps : List (Fin 32 × Spot)) : Keeps s (atomLanes s c op o ps).2 := by
  refine keeps_foldSnd (fun a x => ?_) ps ([], s)
  dsimp only
  split
  · exact atomLane_keeps _ _ _ _ _ _ _
  · exact .refl _

theorem startAtoms_keeps (s : State) (c : Iss) (back : Option Result) (far : List LinkOp) : Keeps s (startAtoms s c back far) := by
  cases back with
  | none => exact keeps_last (modResult_keeps _ _ _) (keeps_last (sendLinks_keeps _ _ _ _) (addResult_keeps _ _))
  | some r => exact keeps_last (modResult_keeps _ _ _) (sendLinks_keeps _ _ _ ([], s))

theorem atomRest_keeps (op : AtomOp) (o : MOp) (s : State) (c : Iss) (back : Option Result) : EffectKeeps s (atomRest op o s c back) := by
  refine withSpots_keeps _ _ _ _ _ _ fun ps => dirtyAll_keeps _ _ _ fun t => effectKeeps_ite ?_ (startAtoms_keeps _ _ _ _)
  exact keeps_last (sendRegs_keeps _ _ _ _) (keeps_last (dropLinkResult_keeps _ _) (atomLanes_keeps _ _ _ _ _))

theorem atom_keeps (op : AtomOp) (o : MOp) (s : State) : OutcomeKeeps s (execAtom op o s) := by
  refine issue_outcome fun s c => ?_
  refine effectKeeps_ite (Keeps.refl s) ?_
  split
  · exact Keeps.refl s
  · trivial
  · exact atomRest_keeps _ _ _ _ _
  · exact atomRest_keeps _ _ _ _ _

theorem red_keeps (op : AtomOp) (o : MOp) (s : State) : OutcomeKeeps s (execRed op o s) := by
  refine issue_outcome fun s c => ?_
  refine effectKeeps_ite (Keeps.refl s) ?_
  refine withSpots_keeps _ _ _ _ _ _ fun ps => dirtyAll_keeps _ _ _ fun t => Keeps.fold (fun s p => ?_) ps t
  split
  · exact atomLane_keeps _ _ _ _ _ _ _
  · exact sendLink_keeps _ _ _

theorem atomScratch_keeps (op : AtomOp) (o : MOp) (s : State) : OutcomeKeeps s (execAtomSp op o s) := by
  refine issue_outcome fun s _ => ?_
  exact effectKeeps_ite (Keeps.refl s)
    (withScratch_keeps _ _ _ fun _ => keeps_last (sendRegs_keeps _ _ _ _) (modUnit_keeps _ _ _))

theorem prefetchLane_keeps (s : State) (c : Iss) (o : MOp) (l : Fin 32) : Keeps s (prefetchLane s c o l) := by
  unfold prefetchLane
  split
  · exact .fold (fun s sec => keeps_ite (l2Read_only _ _ _ _).keeps (l1Fill_only _ _ _ _).keeps) _ _
  · exact .refl s

theorem prefetch_keeps (o : MOp) (s : State) : OutcomeKeeps s (execPrefetch o s) := by
  refine issue_outcome fun _ c => ?_
  exact effectKeeps_ite (Keeps.fold (fun s l => prefetchLane_keeps s c o l) _ _) (askAll_keeps _ _ _)

theorem waitTry_keeps (o : MOp) (s : State) (c : Iss) (r : Option Result) (ps : List (Fin 32 × Spot)) : EffectKeeps s (waitTry o s c r ps) := by
  unfold waitTry
  dsimp only
  split
  · refine keeps_last (modWarp_keeps _ _ _) ?_
    have dropped : Keeps s (if r.isSome then dropLinkResult s c else s) := keeps_ite (dropLinkResult_keeps _ _) (.refl s)
    exact dropped.trans (keeps_ite (touchParts_keeps _ _ _ _ _) (.refl _))
  · exact keeps_last (acquireWidest_keeps _ _ _) (keeps_last (modWarp_keeps _ _ _)
      (keeps_last (touchParts_keeps _ _ _ _ _) (dropLinkResult_keeps _ _)))

theorem waitv_keeps (o : MOp) (s : State) : OutcomeKeeps s (execWaitv o s) := by
  refine issue_outcome fun s c => ?_
  refine effectKeeps_ite (Keeps.refl s) (withSpots_keeps _ _ _ _ _ _ fun ps => ?_)
  dsimp only
  split
  · trivial
  · exact waitTry_keeps _ _ _ _ _
  · exact effectKeeps_ite (Keeps.refl s) (waitTry_keeps _ _ _ _ _)
  · exact effectKeeps_ite (Keeps.refl s) (effectKeeps_ite (startLinks_keeps _ _ _ _) (waitTry_keeps _ _ _ _ _))

theorem waitvReread_keeps (w : Nat) (sp : Fin 8) (s : State) : OutcomeKeeps s (execWaitvReread w sp s) := by
  unfold execWaitvReread
  split
  · exact outcomeKeeps_next (.refl s)
  · split
    · exact outcomeKeeps_next (.refl s)
    · split
      · exact outcomeKeeps_ite (outcomeKeeps_next (modWarp_keeps _ _ _)) (outcomeKeeps_next (.refl s))
      · exact outcomeKeeps_next (.refl s)

/-! ### Fences and barriers (R329-R333) -/

theorem fence_keeps (g : Guard) (ord : FenceOrd) (sc : Scope) (s : State) : OutcomeKeeps s (execFence g ord sc s) := by
  refine issueWarp_outcome fun s c => ?_
  cases ord with
  | rel => exact andThen_keeps (releaseAt_keeps _ _ _) fun t => Keeps.refl t
  | acq => exact andThen_keeps (acquireAt_keeps _ _ _) fun t => Keeps.refl t
  | ar => exact andThen_keeps (releaseAt_keeps _ _ _) fun t => andThen_keeps (acquireAt_keeps _ _ _) fun u => Keeps.refl u

theorem l1flush_keeps (g : Guard) (s : State) : OutcomeKeeps s (execL1flush g s) := by
  refine issueWarp_outcome fun _ _ => ?_
  exact andThen_keeps (flushAll_keeps _ _) fun t => Keeps.refl t

theorem l1flushInv_keeps (g : Guard) (s : State) : OutcomeKeeps s (execL1flushInv g s) := by
  refine issueWarp_outcome fun _ _ => ?_
  exact andThen_keeps (flushAll_keeps _ _) fun _ => l1Drop_keeps _ _ _

theorem bar_keeps (g : Guard) (b : Fin 16) (s : State) : OutcomeKeeps s (execBar g b s) := by
  refine issueWarp_outcome fun s c => ?_
  refine effectKeeps_ite (Keeps.refl s) ?_
  split
  · exact awaitGen_keeps _ _ _ _
  · exact andThen_keeps (releaseAt_keeps _ _ _) fun t => effectKeeps_after (arrive_keeps _ _ _) (barWait_keeps _ _ _)

theorem barArv_keeps (g : Guard) (b : Fin 16) (s : State) : OutcomeKeeps s (execBarArv g b s) := by
  refine issueWarp_outcome fun _ _ => ?_
  exact andThen_keeps (releaseAt_keeps _ _ _) fun _ => arrive_keeps _ _ _

theorem barWt_keeps (g : Guard) (b : Fin 16) (s : State) : OutcomeKeeps s (execBarWt g b s) := by
  refine issueWarp_outcome fun s c => ?_
  refine effectKeeps_ite (Keeps.refl s) ?_
  split
  · exact awaitGen_keeps _ _ _ _
  · exact barWait_keeps _ _ _

/-! ### Chains (R233-R241) -/

theorem withChannel_keeps (s : State) (c : Iss) (ch : Fin 4) {k : UnitSt → Launch → Effect} (h : ∀ u l, EffectKeeps s (k u l)) :
    EffectKeeps s (withChannel s c ch k) := by
  unfold withChannel
  split
  · exact effectKeeps_ite (h _ _) trivial
  · trivial

theorem chainBufferFill_keeps (u : Nat) (rank : Fin 32) (ch : Fin 4) (occ : Nat) (s : State) :
    OutcomeKeeps s (execChainBufferFill u rank ch occ s) := by
  unfold execChainBufferFill
  split
  · split
    · exact outcomeKeeps_next (.refl s)
    · split
      · split
        · exact outcomeKeeps_next (.refl s)
        · exact outcomeKeeps_next (keeps_last (modUnit_keeps _ _ _) (countFill_keeps _ _ _))
      · exact outcomeKeeps_next (.refl s)
  · exact outcomeKeeps_next (.refl s)

theorem mailboxFill_keeps (u : Nat) (ch : Fin 4) (occ : Nat) (s : State) : OutcomeKeeps s (execMailboxFill u ch occ s) := by
  unfold execMailboxFill
  cases findUnit s u with
  | none => exact outcomeKeeps_next (.refl s)
  | some x =>
    dsimp only
    split
    · exact outcomeKeeps_next (.refl s)
    · refine outcomeKeeps_ite ?_ (outcomeKeeps_next (.refl s))
      split
      · exact outcomeKeeps_next (.refl s)
      · have clean : Keeps s (l1Clean s x.core wideLine) := l1Clean_keeps _ _ _
        generalize l1Clean s x.core wideLine = t at clean ⊢
        refine outcomeKeeps_ite (outcomeKeeps_next clean) ?_
        split
        · exact outcomeKeeps_next (clean.trans (askWalkFor_keeps _ _ _ _ _))
        · exact outcomeKeeps_next clean
        · exact outcomeKeeps_next (clean.trans (keeps_last (modUnit_keeps _ _ _) (forgetEngFails_keeps _ _ _)))
        · exact outcomeKeeps_next (clean.trans (putMail_keeps _ _ _ _ _ _ _))

/-! ### Fetches (R131-R133, R256) -/

theorem startFetch_keeps (s : State) (w : Warp) (sp : Fin 8) (pc : Word) (l : LinkOp) : Keeps s (startFetch s w sp pc l) := by
  unfold startFetch
  dsimp only
  split
  · exact keeps_last (modResult_keeps _ _ _) (sendLink_keeps _ _ _)
  · exact keeps_last (modResult_keeps _ _ _) (keeps_last (sendLink_keeps _ _ _) (addResult_keeps _ _))

theorem dropFetch_keeps (s : State) (w : Nat) (sp : Fin 8) : Keeps s (dropFetch s w sp) := .same rfl rfl

theorem fetchStop_keeps (s : State) (c : Iss) (x : FetchWord) : Keeps s (fetchStop s c x) := by
  unfold fetchStop
  split
  · exact conclude_keeps (e := .wait _) (askWalk_keeps _ _ _ _ _ _)
  · exact conclude_keeps (e := .wait _) (startFetch_keeps _ _ _ _ _)
  · exact (dropFetch_keeps _ _ _).trans (conclude_keeps (e := .fault _) trivial)
  · exact conclude_keeps (e := .wait _) (Keeps.refl s)
  · exact conclude_keeps (e := .wait _) (Keeps.refl s)
  · exact conclude_keeps (e := .wait _) (Keeps.refl s)

/-! ### Expand contexts (R222-R232) -/

theorem modX_keeps (s : State) (u : Nat) (x : Fin 4) (f : XCtx → XCtx) : Keeps s (modX s u x f) := modUnit_keeps _ _ _

theorem moveOn_keeps (s : State) (w : Nat) (sp : Fin 8) : Keeps s (moveOn s w sp) := (modWarp_keeps _ _ _).trans (settle_keeps _ _)

theorem restHere_keeps (s : State) (c : Iss) (i : Instr) : EffectKeeps s (restHere s c i) := modWarp_keeps _ _ _

theorem joinExpand_keeps (s : State) (c : Iss) (i : Instr) (u : UnitSt) (x : Fin 4) (k : XCtx) (n : Nat) (p : XPart) :
    EffectKeeps s (joinExpand s c i u x k n p) :=
  effectKeeps_ite (effectKeeps_after (modX_keeps _ _ _ _) (restHere_keeps _ _ _))
    ((modX_keeps s u.id x _).trans (.fold (fun s (q : XPart) => moveOn_keeps s q.warp q.split) _ _))

theorem xbegin_keeps (x : Fin 4) (g : Guard) (st ln : Fin 256) (n : Src) (imm : BitVec 32) (s : State) :
    OutcomeKeeps s (execXbegin x g st ln n imm s) := by
  refine issue_outcome fun s c => ?_
  dsimp only
  split
  · trivial
  · split
    · exact effectKeeps_ite (restHere_keeps _ _ _) trivial
    · exact effectKeeps_ite trivial (effectKeeps_ite trivial (joinExpand_keeps _ _ _ _ _ _ _ _))

theorem inContext_keeps (s : State) (c : Iss) (x : Fin 4) {k : UnitSt → XCtx → XPart → Effect} (h : ∀ u y p, EffectKeeps s (k u y p)) :
    EffectKeeps s (inContext s c x k) := by
  unfold inContext
  split
  · trivial
  · split
    · trivial
    · split
      · trivial
      · exact Keeps.refl s
      · exact effectKeeps_ite trivial (h _ _ _)

theorem deliverOwner_keeps (s : State) (k : XCtx) (t : XStep) (o : Nat) : Keeps s (deliverOwner s k t o) := by
  unfold deliverOwner
  dsimp only
  split
  · exact .refl s
  · exact modWarp_keeps _ _ _

theorem deliverStep_keeps (s : State) (c : Fin 64) (k : XCtx) (t : XStep) : Keeps s (deliverStep s c k t) :=
  Keeps.trans (.fold (fun s o => deliverOwner_keeps s k t o) _ s) (.fold (fun s h => endHandle_keeps s c h .done _) _ _)

theorem deliverSteps_keeps (s : State) (u : Nat) (x : Fin 4) : Keeps s (deliverSteps s u x) := by
  unfold deliverSteps
  split
  · exact .refl s
  · exact (modX_keeps s u x _).trans (.fold (fun s t => deliverStep_keeps s _ _ t) _ _)

theorem xnext_keeps (x : Fin 4) (d : Fin 256) (pe : Fin 8) (s : State) : OutcomeKeeps s (execXnext x d pe s) := by
  refine issue_outcome fun s c => ?_
  refine inContext_keeps _ _ _ fun u k p => effectKeeps_ite (Keeps.refl s) ?_
  exact keeps_last (deliverSteps_keeps _ _ _) (keeps_last (modX_keeps _ _ _ _) (modWarp_keeps _ _ _))

theorem xred_keeps (x : Fin 4) (g : Guard) (op : RedOp) (ty : Ty) (sat : Bool) (vd : Fin 256) (v : Src) (imm : BitVec 32) (hn : Fin 16)
    (s : State) : OutcomeKeeps s (execXred x g op ty sat vd v imm hn s) := by
  refine issue_outcome fun s c => ?_
  refine inContext_keeps _ _ _ fun u k p => effectKeeps_ite trivial ?_
  refine andThen_keeps (releaseAt_keeps _ _ _) fun t => ?_
  dsimp only
  split
  · exact Keeps.refl t
  · rename_i h
    refine Keeps.trans (handleRoom_keeps h) ?_
    exact keeps_last (deliverSteps_keeps _ _ _) (keeps_last (modX_keeps _ _ _ _) (keeps_last (modWarp_keeps _ _ _) (newHandle_keeps _ _ _ _)))

theorem xsync_keeps (x : Fin 4) (s : State) : OutcomeKeeps s (execXsync x s) := by
  refine issue_outcome fun s _ => ?_
  exact inContext_keeps _ _ _ fun _ _ _ =>
    effectKeeps_ite (Keeps.refl s) (andThen_keeps (acquireAt_keeps _ _ _) fun t => Keeps.refl t)

theorem xend_keeps (x : Fin 4) (s : State) : OutcomeKeeps s (execXend x s) := by
  refine issue_outcome fun s c => ?_
  refine inContext_keeps _ _ _ fun u k p => effectKeeps_ite (restHere_keeps _ _ _) ?_
  refine andThen_keeps (acquireAt_keeps _ _ _) fun t => ?_
  extract_lets a b d
  have hd : Keeps t d := keeps_last (deliverSteps_keeps _ _ _) (keeps_last (modX_keeps _ _ _ _) (modWarp_keeps _ _ _))
  refine effectKeeps_after hd (effectKeeps_ite ?_ (restHere_keeps _ _ _))
  exact (modX_keeps d u.id x _).trans (.fold (fun s (q : XPart) => moveOn_keeps s q.warp q.split) _ _)

theorem xquery_keeps (x : Fin 4) (g : Guard) (d : Fin 256) (sel : Fin 4) (s : State) : OutcomeKeeps s (execXquery x g d sel s) := by
  refine issueWarp_outcome fun s c => ?_
  dsimp only
  split
  · trivial
  · split
    · exact modWarp_keeps _ _ _
    · trivial

/-! ### The pool of a core (R86-R90) -/

theorem loseLines_keeps (s : State) (k : Fin 384) (p : L1Line → Bool) : Keeps s (loseLines s k p) := by
  refine (modCore_keeps s k _).trans (.fold (fun s l => ?_) _ _)
  split
  · exact agentFault_keeps _ _ _ _ _ _ _
  · exact .refl s

theorem l1Trim_keeps (k : Fin 384) (ways n : Nat) (s : State) : Keeps s (l1Trim s k ways n) := by
  induction n generalizing s with
  | zero => exact .refl s
  | succ n ih =>
    unfold l1Trim
    split
    · exact .refl s
    · split
      · exact .refl s
      · exact keeps_last (ih _) (keeps_last (modCore_keeps _ _ _) (pastStall_keeps (fun s => (writeBack_only s _ _).keeps) s))

theorem takeWord_keeps (s : State) (k : Fin 384) (p : BitVec 32) : Keeps s (takeWord s k p) := by
  unfold takeWord
  exact keeps_last (modCore_keeps _ _ _) (keeps_last (l1Trim_keeps _ _ _ _) (loseLines_keeps _ _ _))

theorem carveDone_keeps (s : State) (o : CarveOp) : Keeps s (carveDone s o) :=
  keeps_last (endHandle_keeps _ _ _ _ _) (keeps_last (takeWord_keeps _ _ _) (.same rfl rfl))

theorem carveComplete_keeps (k : Fin 384) (s : State) : OutcomeKeeps s (execCarveComplete k s) := by
  unfold execCarveComplete
  split
  · exact outcomeKeeps_next (.refl s)
  · exact outcomeKeeps_ite (outcomeKeeps_next (carveDone_keeps _ _)) (outcomeKeeps_next (.refl s))

end Sys2Proof.Proofs

/-! SUPPORT. What the work and system groups, the Drover, fault records and save images keep (R7, R56, R57). -/

namespace Sys2Proof.Proofs

open Sys2Proof Sys2Proof.Machine Sys2Proof.Claims Sys2Proof.Laws

/-! ### Halts and the ends of jobs (R60, R62, R96) -/

theorem tryHalted_keeps (s : State) (c : Fin 64) : Keeps s (tryHalted s c) :=
  keeps_ite (keeps_last (toHostFor_keeps _ _) (modCtx_keeps _ _ _)) (.refl s)

theorem startHalt_keeps (s : State) (c : Fin 64) : Keeps s (startHalt s c) := by
  unfold startHalt
  extract_lets x now u v z
  have hu : Keeps s u := .fold carveDone_keeps _ s
  have hv : Keeps u v := modCtx_keeps _ _ _
  clear_value v
  exact hu.trans (hv.trans (keeps_last (tryHalted_keeps _ _) (.same rfl rfl)))

theorem safept_keeps (idx : BitVec 16) (s : State) : OutcomeKeeps s (execSafept idx s) := by
  refine issue_outcome fun s c => ?_
  exact effectKeeps_ite (keeps_last (modWarp_keeps _ _ _) (goOn_keeps _ _ _ _)) (Keeps.refl s)

theorem halt_keeps (s : State) : OutcomeKeeps s (execHalt s) := by
  refine issue_outcome fun s c => ?_
  have halted : Keeps s (if s.ctxs[c.w.ctx].st == .running then startHalt s c.w.ctx else s) := keeps_ite (startHalt_keeps _ _) (.refl s)
  exact effectKeeps_moved (keeps_last (modWarp_keeps _ _ _) (keeps_last (goOn_keeps _ _ _ _) halted))

theorem acceptStart_keeps (s : State) (c : Fin 64) (entry arg : Word) (seq : BitVec 32) : Keeps s (acceptStart s c entry arg seq) :=
  .same rfl rfl

theorem startHeld_keeps (s : State) (c : Fin 64) : Keeps s (startHeld s c) := by
  unfold startHeld
  split
  · exact acceptStart_keeps _ _ _ _ _
  · exact .refl s

theorem setIdle_keeps (s : State) (c : Fin 64) : Keeps s (setIdle s c) := by
  unfold setIdle
  exact keeps_last (startHeld_keeps _ _) (keeps_last (tryHalted_keeps _ _) (modCtx_keeps _ _ _))

theorem freeCtx_keeps (s : State) (c : Fin 64) : Keeps s (freeCtx s c) := by
  unfold freeCtx
  extract_lets u src v
  have hu : Keeps s u := keeps_last (tlbInvalidate_keeps _ _ _ _) (keeps_last (disarmRecords_keeps _ _) (dropAll_keeps _ _))
  have hv : Keeps u v := modCtx_keeps _ _ _
  clear_value v
  exact hu.trans (hv.trans (keeps_last (retirePending_keeps _) (.same rfl rfl)))

theorem endCancelled_keeps (s : State) (c : Fin 64) : Keeps s (endCancelled s c) := by
  unfold endCancelled
  split
  · exact .refl s
  · refine keeps_ite (freeCtx_keeps _ _) (keeps_ite ?_ (.refl s))
    have told : ∀ e, Keeps s (complete (dropAll s c) c e 0) := fun e => keeps_last (complete_keeps _ _ _ _) (dropAll_keeps _ _)
    exact keeps_ite ((told _).trans (freeCtx_keeps _ _)) ((told _).trans (setIdle_keeps _ _))

theorem endCancels_keeps (s : State) : Keeps s (endCancels s) :=
  .fold (fun s c => keeps_ite (endCancelled_keeps s c) (.refl s)) _ s

theorem cancelWholeJob_keeps (s : State) (c : Fin 64) (e : Nat) : Keeps s (cancelWholeJob s c e) := by
  unfold cancelWholeJob
  extract_lets a b src d u
  have ha : Keeps s a := .fold (fun s (l : Launch) => cancelLaunch_keeps s c l.id) _ s
  have hb : Keeps a b := .fold (fun s (w : Warp) => cancelOps_keeps s c (.warp w.id)) _ a
  clear_value b
  have hd : Keeps b d := .same rfl rfl
  have hu : Keeps d u := keeps_last (modCtx_keeps _ _ _) (disarmRecords_keeps _ _)
  exact ha.trans (hb.trans (hd.trans (hu.trans (keeps_last (endCancelled_keeps _ _) (examine_keeps _ _)))))

theorem jobRelease_keeps (s : State) (w : Warp) : OrderKeeps s (jobRelease s w) :=
  (releaseEverywhere_keeps _ _).bind fun _ => releaseLinks_keeps _ _ _

theorem endJob_keeps (s : State) (c : Iss) (v : Word) : EffectKeeps s (endJob s c v) := by
  unfold endJob
  split
  · exact Keeps.refl s
  · have released := jobRelease_keeps s c.w
    generalize jobRelease s c.w = o at released ⊢
    refine andThen_keeps released fun t => ?_
    dsimp only
    split
    · exact effectKeeps_rest (.refl t)
    · exact effectKeeps_moved (keeps_last (setIdle_keeps _ _) (keeps_last (dropWarps_keeps _ _) (complete_keeps _ _ _ _)))

theorem jobend_keeps (sa : Fin 128) (s : State) : OutcomeKeeps s (execJobend sa s) := issueWarp_outcome fun _ _ => endJob_keeps _ _ _

theorem dropServed_keeps (s : State) (d : Fin 2) (slot : Nat) : Keeps s (dropServed s d slot) := modDie_keeps _ _ _

theorem leaveServed_keeps (s : State) (w : Warp) : Keeps s (leaveServed s w) := by
  unfold leaveServed
  split
  · split
    · exact .refl s
    · exact (dropServed_keeps _ _ _).trans (.fold (fun s _ => recordFault_keeps s _ _) _ _)
  · exact .refl s

theorem exit_keeps (g : Guard) (s : State) : OutcomeKeeps s (execExit g s) := by
  refine issue_outcome fun s c => ?_
  refine effectKeeps_ite trivial (effectKeeps_ite trivial (effectKeeps_ite (Keeps.refl s) (effectKeeps_ite trivial ?_)))
  split
  · trivial
  · refine effectKeeps_ite (Keeps.refl s) (effectKeeps_ite (endJob_keeps _ _ _) (effectKeeps_ite ?_ (modWarp_keeps _ _ _)))
    exact keeps_last (freeHandles_keeps _ _ _) (keeps_last (dropWarps_keeps _ _) (leaveServed_keeps _ _))

/-! ### The home Drover and launches (R76-R80, R85) -/

theorem droverMessage_keeps (s : State) (a b : Fin 2) : Keeps s (droverMessage s a b) := keeps_ite (.refl s) (.same rfl rfl)

theorem atDrover_keeps (s : State) (c : Iss) {k : State → Effect} (h : EffectKeeps s (k s)) : EffectKeeps s (atDrover s c k) := by
  have sent : ∀ t, Keeps s t → Keeps s (if coreDie c.w.core = homeDie s c.w.ctx then t
      else sendPacket t (coreDie c.w.core) droverAgent .drover true) := fun t ht => keeps_ite ht (ht.trans (.same rfl rfl))
  unfold atDrover
  dsimp only
  split
  · exact Keeps.refl s
  · trivial
  · generalize k s = e at h
    cases e with
    | next t => exact sent t h
    | moved t => exact sent t h
    | wait t => exact h
    | rest t => exact h
    | fault f => trivial

theorem atDrover_outcome {i : Instr} {k : State → Iss → Effect} (h : ∀ s c, EffectKeeps s (k s c)) {s : State} :
    OutcomeKeeps s (issueWarp i (fun s c => atDrover s c fun s => k s c) s) :=
  issueWarp_outcome fun s c => atDrover_keeps s c (h s c)

theorem moreLinks_keeps (s : State) (c : Iss) (r : Result) (ls : List LinkOp) : Keeps s (moreLinks s c r ls) :=
  keeps_last (modResult_keeps _ _ _) (sendLinks_keeps _ _ _ ([], s))

theorem whole_keeps {s : State} {e : Effect} (h : EffectKeeps s e) : EffectKeeps s e.whole := by
  cases e with
  | fault f => trivial
  | next t => exact h
  | moved t => exact h
  | wait t => exact h
  | rest t => exact h

theorem readWords_keeps (s : State) (c : Iss) (part : Nat) (a : Word) (n : Nat) {k : State → List Word → Effect}
    (h : ∀ t ws, EffectKeeps t (k t ws)) : EffectKeeps s (readWords s c part a n k) := by
  refine whole_keeps (withSpots_keeps _ _ _ _ _ _ fun ps => ?_)
  refine effectKeeps_ite (effectKeeps_after (touchParts_keeps _ _ _ _ _) (h _ _)) ?_
  split
  · exact startLinks_keeps _ _ _ _
  · exact Keeps.refl s
  · trivial
  · exact effectKeeps_ite (moreLinks_keeps _ _ _ _) (effectKeeps_after (touchParts_keeps _ _ _ _ _) (h _ _))

theorem enterLaunch_keeps (s : State) (c : Iss) (hn : Fin 16) (r : LRec) (d : ChainDef) : Keeps s (enterLaunch s c hn r d) := by
  have entered : ∀ (g : Warp → Warp) (f : Ctx → Ctx),
      Keeps s (modCtx (fresh (modWarp (newHandle s c.w 3 (homeDie s c.w.ctx).val).2 c.w.id g)).2 c.w.ctx f) := fun g f =>
    keeps_last (modCtx_keeps _ _ _) (keeps_last (fresh_keeps _) (keeps_last (modWarp_keeps _ _ _) (newHandle_keeps _ _ _ _)))
  unfold enterLaunch
  refine keeps_last (examine_keeps _ _) ?_
  split
  · exact entered _ _
  · exact keeps_last (raiseEvents_keeps _ _ _) (keeps_last (modCtx_keeps _ _ _) (keeps_last (endHandle_keeps _ _ _ _ _) (entered _ _)))

theorem launchWith_keeps (s : State) (c : Iss) (hn : Fin 16) (r : LRec) (d : ChainDef) : EffectKeeps s (launchWith s c hn r d) := by
  unfold launchWith
  split
  · exact Keeps.refl s
  · rename_i h
    refine effectKeeps_after (handleRoom_keeps h) (atDrover_keeps _ _ ?_)
    exact effectKeeps_next (keeps_last (enterLaunch_keeps _ _ _ _ _) (dropLinkResult_keeps _ _))

theorem launch_keeps (g : Guard) (hn : Fin 16) (sa : Fin 128) (s : State) : OutcomeKeeps s (execLaunch g hn sa s) := by
  refine issueWarp_outcome fun s c => ?_
  refine effectKeeps_ite (Keeps.refl s) (andThen_keeps (releaseAt_keeps _ _ _) fun t => readWords_keeps _ _ _ _ _ fun u ws => ?_)
  exact effectKeeps_ite (readWords_keeps _ _ _ _ _ fun _ _ => launchWith_keeps _ _ _ _ _) (launchWith_keeps _ _ _ _ _)

theorem evwait_keeps (o : EvOp) (s : State) : OutcomeKeeps s (execEvwait o s) := by
  refine atDrover_outcome fun s c => ?_
  refine effectKeeps_ite (andThen_keeps ((acquireAt_keeps _ _ _).after (modWarp_keeps _ _ _)) fun t => Keeps.refl t) ?_
  exact effectKeeps_rest (modWarp_keeps _ _ _)

theorem evset_keeps (o : EvOp) (s : State) : OutcomeKeeps s (execEvset o s) := by
  refine issueWarp_outcome fun s c => andThen_keeps (releaseAt_keeps _ _ _) fun t => atDrover_keeps _ _ ?_
  exact effectKeeps_next (keeps_last (examine_keeps _ _) (raiseEvents_keeps _ _ _))

theorem evclr_keeps (o : EvOp) (s : State) : OutcomeKeeps s (execEvclr o s) := by
  refine atDrover_outcome fun s c => ?_
  exact effectKeeps_next (keeps_last (examine_keeps _ _) (modCtx_keeps _ _ _))

theorem withLaunch_keeps (s : State) (c : Iss) (h : BitVec 32) {null : Effect} {k : Launch → Effect} (hn : EffectKeeps s null)
    (hk : ∀ l, EffectKeeps s (k l)) : EffectKeeps s (withLaunch s c h null k) := by
  unfold withLaunch
  split
  · exact hn
  · trivial
  · split
    · exact hk _
    · trivial

theorem cancelWhere_keeps (s : State) (c : Fin 64) (p : Launch → Bool) : Keeps s (cancelWhere s c p) :=
  keeps_last (examine_keeps _ _) (.fold (fun s (l : Launch) => cancelLaunch_keeps s c l.id) _ s)

theorem cancelLaunchForm_keeps (g : Guard) (sa : Fin 128) (s : State) : OutcomeKeeps s (execCancelLaunch g sa s) := by
  refine atDrover_outcome fun s c => ?_
  exact withLaunch_keeps _ _ _ (Keeps.refl s) fun l => cancelWhere_keeps _ _ _

theorem cancelGraph_keeps (g : Guard) (sa : Fin 128) (s : State) : OutcomeKeeps s (execCancelGraph g sa s) := by
  refine atDrover_outcome fun s c => ?_
  exact cancelWhere_keeps _ _ _

theorem cancelPhase_keeps (g : Guard) (sa : Fin 128) (s : State) : OutcomeKeeps s (execCancelPhase g sa s) := by
  refine atDrover_outcome fun s c => ?_
  exact cancelWhere_keeps _ _ _

theorem cancelJob_keeps (o : CancelOp) (s : State) : OutcomeKeeps s (execCancelJob o s) := by
  refine atDrover_outcome fun s c => ?_
  exact cancelWholeJob_keeps _ _ _

theorem cntrd_keeps (sel : CntSel) (o : EvOp) (s : State) : OutcomeKeeps s (execCntrd sel o s) := by
  refine atDrover_outcome fun s c => ?_
  have put : ∀ v, EffectKeeps s (.next (modWarp s c.w.id fun w => setS w o.sd v)) := fun v => modWarp_keeps _ _ _
  have named : ∀ (n : Nat) (f : Launch → Word), EffectKeeps s (withLaunch s c ((sreg c.w o.sa).setWidth 32)
      (.next (modWarp s c.w.id fun w => setS w o.sd (BitVec.ofNat 64 n))) fun l => .next (modWarp s c.w.id fun w => setS w o.sd (f l))) :=
    fun n f => withLaunch_keeps _ _ _ (put _) fun l => put _
  cases sel with
  | lcount => exact named _ _
  | lstatus => exact named _ _
  | graph => exact put _
  | phase => exact put _
  | job => exact put _
  | abort => exact put _
  | cph => exact put _
  | ev => exact put _
  | unit => exact named _ _
  | warp => exact named _ _

theorem phase_keeps (s : State) : OutcomeKeeps s (execPhase s) := by
  refine issueWarp_outcome fun s c => ?_
  exact effectKeeps_ite (keeps_last (examine_keeps _ _) (modCtx_keeps _ _ _)) (Keeps.refl s)

/-! ### Fault records and handlers (R137, R249-R254) -/

theorem restartOp_keeps (s : State) (c : Fin 64) (h : BitVec 32) : Keeps s (restartOp s c h) := by
  unfold restartOp
  split
  · exact .refl s
  · exact keeps_ite (.same rfl rfl) (.refl s)

theorem replay_keeps (s : State) (w : Nat) (sp : Fin 8) : Keeps s (replay s w sp) := keeps_last (settle_keeps _ _) (modWarp_keeps _ _ _)

theorem retryFills_keeps (s : State) (c : Fin 64) (va : Word) : Keeps s (retryFills s c va) := keeps_ite (.same rfl rfl) (.refl s)

theorem placeWaiting_keeps (d : Fin 2) (n : Nat) (s : State) : Keeps s (placeWaiting s d n) := by
  induction n generalizing s with
  | zero => exact .refl s
  | succ n ih =>
    unfold placeWaiting
    split
    · exact .refl s
    · split
      · rename_i h
        exact keeps_last (ih _) ((modDie_keeps _ _ _).trans (settleFault_keeps h))
      · exact .refl s

theorem releaseRecord_keeps (s : State) (r : SlotRec) : Keeps s (releaseRecord s r) := by
  unfold releaseRecord
  extract_lets still u
  have hu : Keeps s u := keeps_ite (restartOp_keeps _ _ _) (.refl s)
  exact hu.trans ((retryFills_keeps _ _ _).trans (.fold (fun s (x : Nat × Fin 8) => replay_keeps s x.1 x.2) _ _))

theorem retireSlot_keeps (s : State) (d : Fin 2) (slot : Nat) : Keeps s (retireSlot s d slot) := by
  unfold retireSlot
  split
  · exact .refl s
  · rename_i r _
    extract_lets u v z
    have hu : Keeps s u := homeWrite_keeps _ _ _ _ _ _ _
    have hv : Keeps u v := modDie_keeps _ _ _
    have hz : Keeps v z := releaseRecord_keeps _ _
    clear_value z
    exact hu.trans (hv.trans (hz.trans (keeps_last (placeWaiting_keeps _ _ _) (.same rfl rfl))))

theorem retireHeld_keeps (s : State) (d : Fin 2) (slot : Nat) : Keeps s (retireHeld s d slot) := by
  refine keeps_ite (retireSlot_keeps _ _ _) ?_
  split
  · exact .refl s
  · exact keeps_last (releaseRecord_keeps _ _) (dropServed_keeps _ _ _)

theorem handlerRestart_keeps (w : Nat) (h : BitVec 32) (s : State) : OutcomeKeeps s (execHandlerRestart w h s) := by
  unfold execHandlerRestart
  split
  · exact outcomeKeeps_next (.refl s)
  · split
    · exact outcomeKeeps_ite (outcomeKeeps_next (restartOp_keeps _ _ _)) (outcomeKeeps_next (.refl s))
    · exact outcomeKeeps_next (.refl s)

theorem rett_keeps (s : State) : OutcomeKeeps s (execRett s) := by
  refine issue_outcome fun s c => ?_
  refine effectKeeps_ite trivial (effectKeeps_ite ?_ (endContext_keeps _ _ _))
  extract_lets u v
  have hv : Keeps s v := keeps_last (modWarp_keeps _ _ _) (keeps_last (goOn_keeps _ _ _ _) (retryFills_keeps _ _ _))
  exact effectKeeps_moved (keeps_ite hv (hv.trans (deliverAwait_keeps _ _)))

/-! ### The system group (R368-R376) -/

theorem sysWrite_keeps (s : State) (w : Warp) (n : SysReg) (v : Word) : Keeps s (sysWrite s w n v) := by
  cases n with
  | trec k => exact .refl s
  | tmask => exact .refl s
  | tepc => exact modWarp_keeps _ _ _
  | route => exact modCtx_keeps s w.ctx fun x => { x with route := v }
  | tvec => exact modCtx_keeps s w.ctx fun x => { x with tvec := v }
  | svec => exact modCtx_keeps s w.ctx fun x => { x with svec := v }

theorem giveHandle_keeps (s : State) (c : Iss) (hn : Fin 16) (cls eng : Nat) : Keeps s (giveHandle s c hn cls eng).2 :=
  keeps_last (modWarp_keeps _ _ _) (newHandle_keeps _ _ _ _)

theorem tlbinv_keeps (g : Guard) (hn : Fin 16) (a b : SSrc) (w1 : Word) (s : State) : OutcomeKeeps s (execTlbinv g hn a b w1 s) := by
  refine issueWarp_outcome fun s c => andThen_keeps (releaseAt_keeps _ _ _) fun t => ?_
  dsimp only
  split
  · exact Keeps.refl t
  · rename_i h
    exact (handleRoom_keeps h).trans (.trans (giveHandle_keeps _ c hn 6 1) (.same rfl rfl))

theorem ptwr_keeps (g : Guard) (d : Fin 128) (a b : SSrc) (w1 : Word) (s : State) : OutcomeKeeps s (execPtwr g d a b w1 s) := by
  refine issueWarp_outcome fun s c => withSpots_keeps _ _ _ _ _ _ fun ps => andThen_keeps (releaseAt_keeps _ _ _) fun t => ?_
  refine dirtyAll_keeps _ _ _ fun u => ?_
  split
  · exact Keeps.refl u
  · exact keeps_last (modWarp_keeps _ _ _) (keeps_last (l1Refresh_only _ _ _ _ _).keeps (writeHome_only _ _ _ _ _ _ _ _).keeps)

theorem carve_keeps (g : Guard) (hn : Fin 16) (a b : SSrc) (w1 : Word) (s : State) : OutcomeKeeps s (execCarve g hn a b w1 s) := by
  refine issueWarp_outcome fun s c => ?_
  dsimp only
  split
  · exact Keeps.refl s
  · rename_i t h
    refine effectKeeps_after ((handleRoom_keeps h).trans (giveHandle_keeps t c hn 4 0)) ?_
    split
    · exact endHandle_keeps _ _ _ _ _
    · exact endHandle_keeps _ _ _ _ _
    · exact effectKeeps_next (.same rfl rfl)

theorem dirtyclr_keeps (g : Guard) (hn : Fin 16) (a b x : SSrc) (w1 : Word) (s : State) : OutcomeKeeps s (execDirtyclr g hn a b x w1 s) := by
  refine issueWarp_outcome fun s c => ?_
  dsimp only
  split
  · exact Keeps.refl s
  · rename_i t h
    refine effectKeeps_after ((handleRoom_keeps h).trans (giveHandle_keeps t c hn 6 0)) ?_
    split
    · exact endHandle_keeps _ _ _ _ _
    · exact effectKeeps_ite (endHandle_keeps _ _ _ _ _) (effectKeeps_next (.same rfl rfl))

theorem fltnext_keeps (s : State) : OutcomeKeeps s (execFltnext s) := by
  refine issue_outcome fun s c => ?_
  split
  · refine effectKeeps_ite trivial (andThen_keeps (releaseAt_keeps _ _ _) fun t => ?_)
    dsimp only
    split
    · exact effectKeeps_next (keeps_last (modWarp_keeps _ _ _) (.trans (retireHeld_keeps t _ _) (.same rfl rfl)))
    · exact effectKeeps_next (keeps_last (modWarp_keeps _ _ _) (retireHeld_keeps t _ _))
  · trivial

/-! ### The Drover (R62, R71-R92, R251) -/

theorem readyCore_keeps (s : State) (k : Fin 384) (r : LRec) : Keeps s (readyCore s k r) := by
  unfold readyCore
  exact keeps_last (l1DropClean_keeps _ _ _) (keeps_ite (takeWord_keeps _ _ _) (.refl s))

theorem startUnitWarp_keeps (s : State) (c : Fin 64) (id u : Nat) (r : LRec) (k : Fin 384) (rank : Nat) :
    Keeps s (startUnitWarp s c id u r k rank) := .same rfl rfl

theorem placedUnit_keeps (s : State) (y : Waiting) (first : Bool) : Keeps s (placedUnit s y first) := by
  unfold placedUnit
  exact keeps_last (modCtx_keeps _ _ _) (keeps_ite (.same rfl rfl) (.refl s))

theorem placeUnit_keeps (s : State) (c : Fin 64) (l : Launch) (k : Fin 384) : Keeps s (placeUnit s c l k) := by
  unfold placeUnit
  split
  · exact .refl s
  · refine keeps_last (modLaunch_keeps _ _ _ _) ?_
    refine keeps_last (.fold (fun s rank => startUnitWarp_keeps s c _ l.next l.r k rank) _ _) ?_
    exact .trans (t := (fresh (readyCore s k l.r)).2) (keeps_last (fresh_keeps _) (readyCore_keeps _ _ _)) (.same rfl rfl)

theorem unitDispatch_keeps (c : Fin 64) (s : State) : OutcomeKeeps s (execUnitDispatch c s) := by
  unfold execUnitDispatch
  dsimp only
  split
  · exact outcomeKeeps_next (.refl s)
  · refine outcomeKeeps_ite (outcomeKeeps_next ?_) (outcomeKeeps_next (.refl s))
    exact keeps_last (placedUnit_keeps _ _ _) (keeps_last (droverMessage_keeps _ _ _) (placeUnit_keeps _ _ _ _))

theorem countFirst_keeps (s : State) : Keeps s (countFirst s) := keeps_ite (.refl s) (.same rfl rfl)

theorem dispatchReservation_keeps (c : Fin 64) (s : State) : OutcomeKeeps s (execDispatchReservation c s) := by
  unfold execDispatchReservation
  dsimp only
  split
  · exact outcomeKeeps_next (.refl s)
  · refine outcomeKeeps_ite ?_ (outcomeKeeps_next (.refl s))
    split
    · exact outcomeKeeps_next (modCtx_keeps _ _ _)
    · exact outcomeKeeps_next (.refl s)

theorem retireUnit_keeps (s : State) (u : UnitSt) : Keeps s (retireUnit s u) := by
  unfold retireUnit
  refine keeps_last (modLaunch_keeps _ _ _ _) ?_
  split
  · exact keeps_ite (.same rfl rfl) (.same rfl rfl)
  · exact keeps_ite (.same rfl rfl) (.same rfl rfl)

theorem unitRetire_keeps (u : Nat) (s : State) : OutcomeKeeps s (execUnitRetire u s) := by
  unfold execUnitRetire
  split
  · exact outcomeKeeps_next (.refl s)
  · refine outcomeKeeps_ite ?_ (outcomeKeeps_next (.refl s))
    dsimp only
    split
    · exact outcomeKeeps_next (.refl s)
    · exact outcomeKeeps_next (agentFault_keeps _ _ _ _ _ _ _)
    · exact outcomeKeeps_next (keeps_last (examine_keeps _ _) (keeps_last (retireUnit_keeps _ _) (droverMessage_keeps _ _ _)))

theorem takeStart_keeps (s : State) (d : Fin 2) (q : StartReq) : Keeps s (takeStart s d q) := .same rfl rfl

theorem startDispatch_keeps (s : State) (c : Fin 64) (k : Fin 384 × Fin 16) (kind : WKind) (pc : Word) (regs : Warp → Warp) :
    Keeps s (startDispatch s c k kind pc regs) := .same rfl rfl

theorem jobWarpStart_keeps (d : Fin 2) (s : State) : OutcomeKeeps s (execJobWarpStart d s) := by
  unfold execJobWarpStart
  split
  · exact outcomeKeeps_next (keeps_last (startDispatch_keeps _ _ _ _ _ _) (keeps_last (modCtx_keeps _ _ _) (takeStart_keeps _ _ _)))
  · exact outcomeKeeps_next (.refl s)

theorem faultServiceStart_keeps (d : Fin 2) (s : State) : OutcomeKeeps s (execFaultServiceStart d s) := by
  unfold execFaultServiceStart
  split
  · exact outcomeKeeps_next (keeps_last (startDispatch_keeps _ _ _ _ _ _) (takeStart_keeps _ _ _))
  · exact outcomeKeeps_next (.refl s)

/-! ### Save images (R66-R68, R105) -/

theorem placeImage_keeps (s : State) (c : Fin 64) (a : Nat) (bytes : List Byte) : Keeps s (placeImage s c a bytes) := by
  unfold placeImage
  dsimp only
  refine keeps_ite (homeWrite_keeps _ _ _ _ _ _ _) (keeps_ite ?_ (.refl s))
  exact (fresh_keeps s).trans (.fold (fun s _ => sendLink_keeps s _ _) _ _)

theorem writeImage_keeps (s : State) (c : Fin 64) (x : Snapshot) : Keeps s (writeImage s c x) :=
  .trans (t := placeImage s c _ _) (placeImage_keeps _ _ _ _) (.same rfl rfl)

theorem unspill_keeps {s t : State} {c : Fin 64} (h : unspill s c = some t) : Keeps s t := by
  unfold unspill at h
  split at h
  · obtain ⟨x, -, rfl⟩ := Option.map_eq_some_iff.mp h
    exact .same rfl rfl
  · cases h
    exact .refl s

theorem exportImage_keeps (s : State) (c : Fin 64) : Keeps s (exportImage s c) := writeImage_keeps _ _ _

theorem spillCtx_keeps (s : State) (c : Fin 64) : Keeps s (spillCtx s c) := by
  refine keeps_ite (.refl s) ?_
  exact .trans (t := exportImage s c) (exportImage_keeps _ _) (.same rfl rfl)

theorem seatWarp_keeps (s : State) (w : Warp) : Keeps s (seatWarp s w) := by
  unfold seatWarp
  split
  · exact modWarp_keeps _ _ _
  · exact .refl s

theorem seatWarps_keeps (s : State) (c : Fin 64) : Keeps s (seatWarps s c) := .fold seatWarp_keeps _ s

theorem loadImage_keeps (s : State) (c : Fin 64) (x : Snapshot) : Keeps s (loadImage s c x) := by
  unfold loadImage
  extract_lets b y d dieOf_ u v eng at_
  have hu : Keeps s u := .same rfl rfl
  have hv : Keeps u v := .fold (fun s _ => modDie_keeps s _ _) _ u
  clear_value v
  exact hu.trans (hv.trans (keeps_last (seatWarps_keeps _ _) (.same rfl rfl)))

end Sys2Proof.Proofs

/-! SUPPORT. What the copy engines, the term engines, handles and the MMU-maintenance operations keep (R7, R56, R57). -/

namespace Sys2Proof.Proofs

open Sys2Proof Sys2Proof.Machine Sys2Proof.Claims Sys2Proof.Laws

/-! ### Parts of an element (R342-R347) -/

/-- A part of an element keeps memory's form and the partition table, however it ends. -/
def PartKeeps {α : Type} (s : State) : Part1 α → Prop
  | .ok _ _ t | .send _ t | .bad _ t | .again t => Keeps s t

section

variable {α β : Type} {s t : State}

theorem partKeeps_ok {x : α} {k : Nat} (h : Keeps s t) : PartKeeps s (.ok x k t) := h
theorem partKeeps_send {l : LinkOp} (h : Keeps s t) : PartKeeps s (.send l t : Part1 α) := h
theorem partKeeps_bad {f : FaultInfo} (h : Keeps s t) : PartKeeps s (.bad f t : Part1 α) := h
theorem partKeeps_again (h : Keeps s t) : PartKeeps s (.again t : Part1 α) := h

theorem partKeeps_after (h : Keeps s t) {p : Part1 α} (g : PartKeeps t p) : PartKeeps s p := by
  cases p with
  | ok x k u => exact Keeps.trans h g
  | send l u => exact Keeps.trans h g
  | bad f u => exact Keeps.trans h g
  | again u => exact Keeps.trans h g

theorem partKeeps_last {p : Part1 α} (g : PartKeeps t p) (h : Keeps s t) : PartKeeps s p := partKeeps_after h g

theorem partKeeps_bind {p : Part1 α} {f : α → Nat → State → Part1 β} (h : PartKeeps s p) (g : ∀ x k t, PartKeeps t (f x k t)) :
    PartKeeps s (p.bind f) := by
  cases p with
  | ok x k t => exact partKeeps_after h (g x k t)
  | send l t => exact h
  | bad f t => exact h
  | again t => exact h

theorem partKeeps_ite {p : Prop} [Decidable p] {a b : Part1 α} (h : PartKeeps s a) (g : PartKeeps s b) : PartKeeps s (if p then a else b) := by
  split
  · exact h
  · exact g

theorem partKeeps_look (x : Look) (o : CopyOp) {k : Spot → Part1 α} (h : ∀ p, PartKeeps s (k p)) : PartKeeps s (x.part s o k) := by
  cases x with
  | ok p => exact h p
  | miss page => exact askWalkFor_keeps _ _ _ _ _
  | stall => exact Keeps.refl s
  | bad f => exact Keeps.refl s

end

theorem engBytes_keeps (s : State) (d : Fin 2) (q : Acc) (p : Spot) (a n : Nat) : Keeps s (engBytes s d q p a n).2 := by
  unfold engBytes
  split
  · exact .fold (fun s sec => (l2Read_only s d sec q).keeps) _ s
  · exact windowTouch_keeps _ _ _ _

theorem engRead_keeps (s : State) (o : CopyOp) (k : Nat) (sp raw : Bool) (a : Word) (n : Nat) : PartKeeps s (engRead s o k sp raw a n) := by
  unfold engRead
  refine partKeeps_ite ?_ (partKeeps_look _ _ fun p => ?_)
  · split
    · exact partKeeps_bad (.refl s)
    · exact partKeeps_ok (.refl s)
  · split
    · exact partKeeps_ok (engBytes_keeps _ _ _ _ _ _)
    · split
      · exact partKeeps_ok (.refl s)
      · exact partKeeps_send (.refl s)

theorem engDest_keeps (s : State) (o : CopyOp) (k : Nat) (a : Word) (n : Nat) (allow : State → Word → Option Nat) :
    PartKeeps s (engDest s o k a n allow) := by
  unfold engDest
  refine partKeeps_ite ?_ (partKeeps_look _ _ fun p => partKeeps_ok (.refl s))
  split
  · exact partKeeps_bad (.refl s)
  · exact partKeeps_ok (.refl s)

theorem engDirty_keeps {α : Type} (s : State) (o : CopyOp) (p : Spot) {k : State → Part1 α} (h : ∀ t, PartKeeps t (k t)) :
    PartKeeps s (engDirty s o p k) := by
  refine partKeeps_look _ _ fun p => ?_
  split
  · exact partKeeps_again (tlbForget_keeps _ _ _ _ _)
  · rename_i g
    exact partKeeps_after (setDirty_keeps g) (h _)

theorem noteScope_keeps (s : State) (c : Fin 64) (h : BitVec 32) (sc : Scope) : Keeps s (noteScope s c h sc) := modEntry_keeps _ _ _ _

theorem engWrite_keeps (s : State) (o : CopyOp) (t : Dest) (n x : Nat) : PartKeeps s (engWrite s o t n x) := by
  cases t with
  | scratch off =>
    unfold engWrite
    dsimp only
    split
    · exact partKeeps_ok (modUnit_keeps _ _ _)
    · exact partKeeps_ok (.refl s)
  | place p =>
    refine engDirty_keeps _ _ _ fun t => partKeeps_after (noteScope_keeps t o.ctx o.handle p.scope) ?_
    dsimp only
    split
    · exact partKeeps_ok (writeHome_only _ _ _ _ _ _ _ _).keeps
    · exact partKeeps_send (.refl _)

theorem engReduce_keeps (s : State) (o : CopyOp) (t : Dest) (op : AtomOp) (x : Nat) : PartKeeps s (engReduce s o t op x) := by
  cases t with
  | scratch off =>
    unfold engReduce
    dsimp only
    split
    · exact partKeeps_ok (modUnit_keeps _ _ _)
    · exact partKeeps_ok (.refl s)
  | place p =>
    refine engDirty_keeps _ _ _ fun t => partKeeps_after (noteScope_keeps t o.ctx o.handle p.scope) ?_
    dsimp only
    split
    · exact partKeeps_ok (writeHome_only _ _ _ _ _ _ _ _).keeps
    · exact partKeeps_send (.refl _)

theorem elemIndex_keeps (s : State) (o : CopyOp) (e : Nat) : PartKeeps s (elemIndex s o e) := by
  unfold elemIndex
  split
  · exact engRead_keeps _ _ _ _ _ _ _
  · exact engRead_keeps _ _ _ _ _ _ _
  · exact partKeeps_ok (.refl s)

theorem rawElem_keeps (s : State) (o : CopyOp) : PartKeeps s (rawElem s o) := by
  unfold rawElem
  refine partKeeps_bind ?_ fun idx k t => ?_
  · split
    · exact partKeeps_bad (.refl s)
    · exact elemIndex_keeps _ _ _
  · dsimp only
    split
    · exact partKeeps_bad (.refl t)
    · refine partKeeps_bind (partKeeps_ite (partKeeps_ok (.refl t)) (engRead_keeps _ _ _ _ _ _ _)) fun x k u => ?_
      refine partKeeps_bind (engDest_keeps _ _ _ _ _ _) fun d k v => ?_
      split
      · exact engReduce_keeps _ _ _ _ _
      · exact engWrite_keeps _ _ _ _ _

theorem plainRead_keeps (s : State) (o : CopyOp) (k e : Nat) : PartKeeps s (plainRead s o k e) :=
  partKeeps_ite (partKeeps_bind (engRead_keeps _ _ _ _ _ _ _) fun _ _ t => partKeeps_ok (.refl t)) (engRead_keeps _ _ _ _ _ _ _)

theorem plainList_keeps (o : CopyOp) (n : Nat) (s : State) (e k : Nat) : PartKeeps s (plainList s o e n k) := by
  induction n generalizing s e k with
  | zero => exact Keeps.refl s
  | succ n ih =>
    exact partKeeps_bind (plainRead_keeps _ _ _ _) fun _ _ t => partKeeps_bind (ih _ _ _) fun _ _ u => partKeeps_ok (.refl u)

theorem slotRead_keeps (o : CopyOp) (n : Nat) (s : State) (a : Word) (k : Nat) : PartKeeps s (slotRead s o a n k) := by
  induction n generalizing s a k with
  | zero => exact Keeps.refl s
  | succ n ih =>
    exact partKeeps_bind (engRead_keeps _ _ _ _ _ _ _) fun _ _ t => partKeeps_bind (ih _ _ _) fun _ _ u => partKeeps_ok (.refl u)

theorem encodeBlock_keeps (s : State) (o : CopyOp) (sat : Bool) (f : TFmt) (slot : Nat) : PartKeeps s (encodeBlock s o sat f slot) := by
  unfold encodeBlock
  dsimp only
  split
  · exact partKeeps_bad (.refl s)
  · refine partKeeps_bind (plainList_keeps _ _ _ _ _) fun xs k t => partKeeps_bind (engDest_keeps _ _ _ _ _ _) fun d k u => ?_
    exact partKeeps_ite (partKeeps_bad (.refl u)) (engWrite_keeps _ _ _ _ _)

theorem plainWrite_keeps (s : State) (o : CopyOp) (k e x : Nat) : PartKeeps s (plainWrite s o k e x) := by
  refine partKeeps_ite ?_ (partKeeps_bind (engDest_keeps _ _ _ _ _ _) fun _ _ _ => engWrite_keeps _ _ _ _ _)
  exact partKeeps_bind (engDest_keeps _ _ _ _ _ _) fun _ _ _ =>
    partKeeps_bind (engRead_keeps _ _ _ _ _ _ _) fun _ _ _ => engWrite_keeps _ _ _ _ _

theorem decodeOne_keeps (s : State) (o : CopyOp) (sat : Bool) (f : TFmt) (slot : Nat) : PartKeeps s (decodeOne s o sat f slot) := by
  unfold decodeOne
  dsimp only
  split
  · exact partKeeps_bad (.refl s)
  · refine partKeeps_bind (partKeeps_ite (partKeeps_ok (.refl s)) (partKeeps_look _ _ fun _ => partKeeps_ok (.refl s))) fun _ k t => ?_
    exact partKeeps_bind (slotRead_keeps _ _ _ _ _) fun blk k u => partKeeps_ite (partKeeps_bad (.refl u)) (plainWrite_keeps _ _ _ _ _)

theorem slotOf_keeps (s : State) (o : CopyOp) (sp wide : Bool) (a : Word) (plain : List (Nat × Nat)) :
    PartKeeps s (slotOf s o sp wide a plain) := by
  unfold slotOf
  split
  · exact partKeeps_ok (.refl s)
  · refine partKeeps_ite (partKeeps_ok (.refl s)) ?_
    split
    · exact partKeeps_ok (.refl s)
    · split
      · exact partKeeps_bad (.refl s)
      · exact partKeeps_look _ _ fun _ => partKeeps_ok (.refl s)

theorem slotFor_keeps (s : State) (o : CopyOp) : PartKeeps s (slotFor s o) := by
  have fits : ∀ (a : Word) (p : Part1 Nat), PartKeeps s p → PartKeeps s (p.bind fun n k s =>
      if o.slot.isNone && a.toNat % n != 0 then .bad (alignFault a) s else .ok (some n) k s) := fun a p hp =>
    partKeeps_bind hp fun n k t => partKeeps_ite (partKeeps_bad (.refl t)) (partKeeps_ok (.refl t))
  unfold slotFor
  dsimp only
  split
  · exact fits _ _ (slotOf_keeps _ _ _ _ _ _)
  · exact fits _ _ (slotOf_keeps _ _ _ _ _ _)
  · exact partKeeps_ok (.refl s)

theorem elemOf_keeps (s : State) (o : CopyOp) (slot : Option Nat) : PartKeeps s (elemOf s o slot) := by
  unfold elemOf
  split
  · exact encodeBlock_keeps _ _ _ _ _
  · exact decodeOne_keeps _ _ _ _ _
  · exact rawElem_keeps _ _

theorem elemStep_keeps (s : State) (o : CopyOp) : PartKeeps s (elemStep s o) := by
  unfold elemStep
  split
  · exact partKeeps_bad (.refl s)
  · exact partKeeps_bind (slotFor_keeps _ _) fun slot k t =>
      partKeeps_last (elemOf_keeps _ _ _) (.same rfl rfl)

/-! ### Copies (R340-R348) -/

theorem issueCopy_keeps (s : State) (c : Iss) (o : COp) (k : CKind) : EffectKeeps s (issueCopy s c o k) := by
  unfold issueCopy
  split
  · exact askAll_keeps _ _ _
  · rename_i e _
    refine effectKeeps_ite (Keeps.refl s) ?_
    split
    · exact Keeps.refl s
    · rename_i t h
      refine effectKeeps_after (handleRoom_keeps h) (andThen_keeps (releaseAt_keeps _ _ _) fun u => ?_)
      refine effectKeeps_after (giveHandle_keeps u c o.hn 1 e) (effectKeeps_after (fresh_keeps _) ?_)
      exact effectKeeps_ite (endHandle_keeps _ _ _ _ _) (effectKeeps_next (.same rfl rfl))

theorem modCopy_keeps (s : State) (id : Nat) (f : CopyOp → CopyOp) : Keeps s (modCopy s id f) := .same rfl rfl
theorem dropCopy_keeps (s : State) (id : Nat) : Keeps s (dropCopy s id) := .same rfl rfl
theorem endCopy_keeps (s : State) (o : CopyOp) (st : HState) (f : FaultInfo) : Keeps s (endCopy s o st f) := modCopy_keeps _ _ _

theorem commitCopy_keeps (s : State) (o : CopyOp) : Keeps s (commitCopy s o) :=
  keeps_ite (modCopy_keeps _ _ _) (keeps_last (endCopy_keeps _ _ _ _) (modCopy_keeps _ _ _))

theorem failCopy_keeps (s : State) (o : CopyOp) (f : FaultInfo) : Keeps s (failCopy s o f) := by
  have counted : Keeps s (countError (forgetEngFails s (engDie o) o.id) f.ecc) := keeps_last (countError_keeps _ _) (forgetEngFails_keeps _ _ _)
  exact counted.trans (keeps_ite (keeps_last (agentFault_keeps _ _ _ _ _ _ _) (dropCopy_keeps _ _)) (endCopy_keeps _ _ _ _))

theorem sendElem_keeps (s : State) (o : CopyOp) (l : LinkOp) : Keeps s (sendElem s o l) :=
  keeps_last (modCopy_keeps _ _ _) (sendLink_keeps _ _ _)

theorem settleCopy_keeps (s : State) (o : CopyOp) (st : HState) (f : FaultInfo) : Keeps s (settleCopy s o st f) := by
  unfold settleCopy
  exact keeps_last (endHandle_keeps _ _ _ _ _) (keeps_ite (modCopy_keeps _ _ _) (dropCopy_keeps _ _))

theorem finishCopy_keeps (s : State) (o : CopyOp) (st : HState) (f : FaultInfo) : Keeps s (finishCopy s o st f) := by
  unfold finishCopy
  extract_lets wide
  split
  · split
    · exact .refl s
    · exact keeps_ite (keeps_last (agentFault_keeps _ _ _ _ _ _ _) (dropCopy_keeps _ _)) (modCopy_keeps _ _ _)
    · rename_i pa _ _ _
      exact (sendLink_keeps s (engDie o) (engFlush o.ctx o.id pa o.b)).trans (modCopy_keeps _ _ _)
  · exact keeps_ite (.refl s) (settleCopy_keeps _ _ _ _)

theorem copyElement_keeps (op : Nat) (s : State) : OutcomeKeeps s (execCopyElement op s) := by
  unfold execCopyElement
  split
  · exact outcomeKeeps_next (.refl s)
  · refine outcomeKeeps_ite (outcomeKeeps_next (.refl s)) ?_
    split
    · exact outcomeKeeps_next (failCopy_keeps _ _ _)
    · exact outcomeKeeps_next (modCopy_keeps _ _ _)
    · exact outcomeKeeps_next (finishCopy_keeps _ _ _ _)
    · rename_i o _ _ _ _ _
      have forgot := fun st f => outcomeKeeps_next (keeps_last (endCopy_keeps _ o st f) (forgetEngFails_keeps s (engDie o) o.id))
      refine outcomeKeeps_ite (outcomeKeeps_next (commitCopy_keeps _ _)) (outcomeKeeps_ite (forgot _ _)
        (outcomeKeeps_ite (outcomeKeeps_next (endCopy_keeps _ _ _ _)) (outcomeKeeps_ite (forgot _ _) ?_)))
      have step := elemStep_keeps s o
      split
      · rename_i e
        rw [e] at step
        exact outcomeKeeps_next (Keeps.trans step (commitCopy_keeps _ _))
      · rename_i e
        rw [e] at step
        exact outcomeKeeps_next (Keeps.trans step (sendElem_keeps _ _ _))
      · rename_i e
        rw [e] at step
        exact outcomeKeeps_next (Keeps.trans step (failCopy_keeps _ _ _))
      · rename_i e
        rw [e] at step
        exact outcomeKeeps_next step

/-! ### Handles (R334-R339) -/

theorem actOn_keeps (s : State) (c : Iss) (e : HEntry) {k : State → Effect} (h : ∀ t, EffectKeeps t (k t)) : EffectKeeps s (actOn s c e k) :=
  effectKeeps_ite (effectKeeps_ite (h s) trivial) (effectKeeps_ite (h s)
    (effectKeeps_ite (andThen_keeps (acquireAt_keeps _ _ _) h) (andThen_keeps (acquireAt_keeps _ _ _) h)))

theorem hwait_keeps (g : Guard) (n : Fin 16) (s : State) : OutcomeKeeps s (execHwait g n s) := by
  refine issueWarp_outcome fun s c => ?_
  split
  · trivial
  · exact Keeps.refl s
  · exact effectKeeps_ite (actOn_keeps _ _ _ fun t => Keeps.refl t) (Keeps.refl s)

theorem htest_keeps (g : Guard) (d : Fin 128) (n : Fin 16) (s : State) : OutcomeKeeps s (execHtest g d n s) := by
  refine issueWarp_outcome fun s c => ?_
  split
  · trivial
  · exact modWarp_keeps _ _ _
  · exact modWarp_keeps _ _ _

theorem cancelEntry_keeps (s : State) (c : Fin 64) (e : HEntry) : Keeps s (cancelEntry s c e) := by
  unfold cancelEntry
  split
  · split
    · exact keeps_last (examine_keeps _ _) (cancelLaunch_keeps _ _ _)
    · exact .refl s
  · exact cancelOp_keeps _ _ _

theorem hcancel_keeps (g : Guard) (n : Fin 16) (s : State) : OutcomeKeeps s (execHcancel g n s) := by
  refine issueWarp_outcome fun s c => ?_
  split
  · trivial
  · exact Keeps.refl s
  · exact effectKeeps_ite trivial (effectKeeps_ite (cancelEntry_keeps _ _ _) (Keeps.refl s))

theorem hmovToHandle_keeps (g : Guard) (n : Fin 16) (a : SSrc) (w1 : Word) (s : State) : OutcomeKeeps s (execHmovToHandle g n a w1 s) := by
  refine issueWarp_outcome fun s c => ?_
  exact effectKeeps_ite (Keeps.refl s) (modWarp_keeps _ _ _)

theorem hmovFromHandle_keeps (g : Guard) (d : Fin 128) (n : Fin 16) (s : State) : OutcomeKeeps s (execHmovFromHandle g d n s) := by
  refine issueWarp_outcome fun s c => ?_
  split
  · trivial
  · exact modWarp_keeps _ _ _

theorem hwaitany_keeps (g : Guard) (d : Fin 128) (a : SSrc) (w1 : Word) (s : State) : OutcomeKeeps s (execHwaitany g d a w1 s) := by
  refine issueWarp_outcome fun s c => ?_
  have put : ∀ (k : Nat) (t : State), EffectKeeps t (.next (modWarp t c.w.id fun w => setS w d (BitVec.ofNat 64 k))) :=
    fun k t => modWarp_keeps _ _ _
  refine effectKeeps_ite trivial (effectKeeps_ite (put 16 s) ?_)
  split
  · exact Keeps.refl s
  · split
    · exact actOn_keeps _ _ _ (put _)
    · exact put _ s

/-! ### Term engines (R202-R221, R349-R359) -/

theorem withEngine_keeps (s : State) (c : Iss) (o : XOp) {k : UnitSt → Effect} (h : ∀ u, EffectKeeps s (k u)) :
    EffectKeeps s (withEngine s c o k) := by
  unfold withEngine
  split
  · trivial
  · split
    · trivial
    · exact effectKeeps_ite (h _) trivial

theorem enqueue_keeps (s : State) (c : Iss) (o : XOp) (kind : MKind) (tile : Option (Fin 8)) (bank : Option (Fin 2)) :
    EffectKeeps s (enqueue s c o kind tile bank) := by
  refine withEngine_keeps _ _ _ fun u => effectKeeps_ite (Keeps.refl s) ?_
  split
  · exact Keeps.refl s
  · rename_i t h
    refine effectKeeps_after (handleRoom_keeps h) (effectKeeps_after (giveHandle_keeps t c o.hn 2 o.e.val) ?_)
    exact effectKeeps_next (.same rfl rfl)

theorem mcfg_keeps (o : XOp) (s : State) : OutcomeKeeps s (execMcfg o s) := by
  refine issueWarp_outcome fun s c => ?_
  exact withEngine_keeps _ _ _ fun u => effectKeeps_ite (modUnit_keeps _ _ _) trivial

theorem mmovFromTile_keeps (o : XOp) (j : Fin 8) (m : Fin 32) (vr : Fin 256) (s : State) : OutcomeKeeps s (execMmovFromTile o j m vr s) := by
  refine issueWarp_outcome fun s c => ?_
  have queued := enqueue_keeps s c o (.fromTile j.val m.val vr.val) (some o.t) none
  generalize enqueue s c o (.fromTile j.val m.val vr.val) (some o.t) none = e at queued
  cases e with
  | next t => exact Keeps.trans queued (modWarp_keeps _ _ _)
  | moved t => exact queued
  | wait t => exact queued
  | rest t => exact queued
  | fault f => trivial

theorem mbound_keeps (o : XOp) (kbm1 : Fin 4) (s : State) : OutcomeKeeps s (execMbound o kbm1 s) := by
  refine issueWarp_outcome fun s c => withEngine_keeps _ _ _ fun u => ?_
  exact effectKeeps_ite (effectKeeps_fault s _) (modWarp_keeps _ _ _)

theorem mcount_keeps (o : XOp) (kbm1 : Fin 4) (s : State) : OutcomeKeeps s (execMcount o kbm1 s) := by
  refine issueWarp_outcome fun s c => withEngine_keeps _ _ _ fun u => effectKeeps_ite (effectKeeps_fault s _) ?_
  split
  · trivial
  · exact keeps_last (modWarp_keeps _ _ _) (addResult_keeps _ _)

theorem modMat_keeps (s : State) (id : Nat) (f : MatOp → MatOp) : Keeps s (modMat s id f) := .same rfl rfl
theorem dropMat_keeps (s : State) (id : Nat) : Keeps s (dropMat s id) := .same rfl rfl

theorem tagBank_keeps (s : State) (o : MatOp) : Keeps s (tagBank s o) := by
  unfold tagBank
  split
  · exact modUnit_keeps _ _ _
  · exact .refl s

theorem matrixOpStart_keeps (s : State) : OutcomeKeeps s (execMatrixOpStart s) := by
  unfold execMatrixOpStart
  dsimp only
  split
  · exact outcomeKeeps_next (.refl s)
  · split
    · exact outcomeKeeps_next (dropMat_keeps _ _)
    · split
      · exact outcomeKeeps_next (modMat_keeps _ _ _)
      · exact outcomeKeeps_next (keeps_last (tagBank_keeps _ _) (modMat_keeps _ _ _))

theorem setTile_keeps (s : State) (o : MatOp) (t : Tile) : Keeps s (setTile s o t) := by
  unfold setTile
  split
  · exact modUnit_keeps _ _ _
  · exact .refl s

theorem matEffect_keeps (s : State) (u : UnitSt) (o : MatOp) : Keeps s (matEffect s u o).1 := by
  unfold matEffect
  dsimp only
  split
  · exact setTile_keeps _ _ _
  · exact setTile_keeps _ _ _
  · exact keeps_last (setTile_keeps _ _ _) (modUnit_keeps _ _ _)
  · exact modWarp_keeps _ _ _
  · exact setTile_keeps _ _ _
  · exact modUnit_keeps _ _ _
  · exact setTile_keeps _ _ _
  · exact .refl s
  · exact .refl s

theorem failMat_keeps (s : State) (o : MatOp) (f : FaultInfo) : Keeps s (failMat s o f) := by
  unfold failMat
  extract_lets d u
  have hu : Keeps s u := keeps_last (countError_keeps _ _) (forgetEngFails_keeps _ _ _)
  have dropped : Keeps u (dropMat (dropPending u o) o.id) := keeps_last (dropMat_keeps _ _) (dropPending_keeps _ _)
  refine hu.trans (keeps_ite (keeps_last (agentFault_keeps _ _ _ _ _ _ _) dropped) ?_)
  exact keeps_last (endHandle_keeps _ _ _ _ _) (keeps_ite (modMat_keeps _ _ _) dropped)

theorem matrixOpComplete_keeps (s : State) : OutcomeKeeps s (execMatrixOpComplete s) := by
  unfold execMatrixOpComplete
  split
  · exact outcomeKeeps_next (.refl s)
  · split
    · exact outcomeKeeps_next (dropMat_keeps _ _)
    · split
      · exact outcomeKeeps_next (failMat_keeps _ _ _)
      · exact outcomeKeeps_next (keeps_last (endHandle_keeps _ _ _ _ _) (keeps_last (dropMat_keeps _ _) (matEffect_keeps _ _ _)))

theorem pieceRead_keeps (o : CopyOp) (n : Nat) (s : State) (a : Word) (k : Nat) : PartKeeps s (pieceRead s o a n k) := by
  induction n generalizing s a k with
  | zero => exact Keeps.refl s
  | succ n ih =>
    exact partKeeps_bind (engRead_keeps _ _ _ _ _ _ _) fun _ _ t => partKeeps_bind (ih _ _ _) fun _ _ u => partKeeps_ok (.refl u)

theorem rangeRead_keeps (s : State) (o : CopyOp) (a : Word) (n k : Nat) : PartKeeps s (rangeRead s o a n k) := by
  unfold rangeRead
  split
  · exact partKeeps_bad (.refl s)
  · exact pieceRead_keeps _ _ _ _ _

theorem rowRead_keeps (s : State) (o : MatOp) : PartKeeps s (rowRead s o) := by
  unfold rowRead
  split
  · refine partKeeps_bind (rangeRead_keeps _ _ _ _ _) fun x k t => partKeeps_ite ?_ (partKeeps_ok (.refl t))
    exact partKeeps_bind (rangeRead_keeps _ _ _ _ _) fun y k u => partKeeps_ok (.refl u)
  · exact partKeeps_bind (rangeRead_keeps _ _ _ _ _) fun x k t => partKeeps_ok (.refl t)
  · exact partKeeps_ok (.refl s)

theorem rowWrite_keeps (s : State) (o : MatOp) (x : Nat) (scales : Option Nat) : Keeps s (rowWrite s o x scales) := modUnit_keeps _ _ _

theorem mldwRowWrite_keeps (op : Nat) (s : State) : OutcomeKeeps s (execMldwRowWrite op s) := by
  unfold execMldwRowWrite
  split
  · exact outcomeKeeps_next (.refl s)
  · split
    · exact outcomeKeeps_next (failMat_keeps _ _ _)
    · rename_i o _ _ _
      have row := rowRead_keeps s o
      split
      · rename_i e
        rw [e] at row
        exact outcomeKeeps_next row
      · rename_i e
        rw [e] at row
        exact outcomeKeeps_next (Keeps.trans row (failMat_keeps _ _ _))
      · rename_i e
        rw [e] at row
        exact outcomeKeeps_next (Keeps.trans row (keeps_last (modMat_keeps _ _ _) (sendLink_keeps _ _ _)))
      · rename_i e
        rw [e] at row
        have wrote := fun x y => Keeps.trans row (rowWrite_keeps _ o x y)
        exact outcomeKeeps_ite (outcomeKeeps_next (keeps_last (modMat_keeps _ _ _) (wrote _ _)))
          (outcomeKeeps_next (keeps_last (endHandle_keeps _ _ _ _ _) (keeps_last (dropMat_keeps _ _) (wrote _ _))))

theorem mcountResult_keeps (s : State) : OutcomeKeeps s (execMcountResult s) := by
  unfold execMcountResult
  split
  · exact outcomeKeeps_next (.refl s)
  · dsimp only
    split
    · exact outcomeKeeps_next (keeps_last (modWarp_keeps _ _ _) (.same rfl rfl))
    · exact outcomeKeeps_next (.same rfl rfl)

/-! ### Walks, `tlbinv` and `dirtyclr` (R65, R134-R136, R372, R374) -/

theorem pageWalk_keeps (d : Fin 2) (i : Fin 64) (s : State) : OutcomeKeeps s (execPageWalk d i s) := by
  unfold execPageWalk
  split
  · exact outcomeKeeps_next (runWalk_keeps _ _ _)
  · exact outcomeKeeps_next (.refl s)

theorem dropMaint_keeps (s : State) (id : Nat) : Keeps s (dropMaint s id) := .same rfl rfl
theorem modMaint_keeps (s : State) (id : Nat) (f : Maint → Maint) : Keeps s (modMaint s id f) := .same rfl rfl

theorem cleanCores_keeps (s : State) : Keeps s (cleanCores s) := .fold (fun s _ => keeps_ite (.refl s) (l1Clean_keeps _ _ _)) _ s

theorem cleanFrames_keeps (s : State) (f n : Nat) : Keeps s (cleanFrames s f n) :=
  .fold (fun s _ => keeps_ite (.refl s) (l1Clean_keeps _ _ _)) _ s

theorem tlbinvComplete_keeps (op : Nat) (s : State) : OutcomeKeeps s (execTlbinvComplete op s) := by
  unfold execTlbinvComplete
  split
  · exact outcomeKeeps_next (.refl s)
  · rename_i o _
    split
    · exact outcomeKeeps_next (.refl s)
    · rename_i lo len _
      have clean : Keeps s (cleanCores (tlbInvalidate s o.ctx lo.toNat len.toNat)) :=
        keeps_last (cleanCores_keeps _) (tlbInvalidate_keeps _ _ _ _)
      generalize cleanCores (tlbInvalidate s o.ctx lo.toNat len.toNat) = t at clean ⊢
      generalize List.finRange 384 = ks
      refine outcomeKeeps_ite (outcomeKeeps_next (.refl s)) (outcomeKeeps_ite (outcomeKeeps_next clean) (outcomeKeeps_next ?_))
      exact clean.trans (keeps_last (endHandle_keeps _ _ _ _ _) (dropMaint_keeps _ _))

theorem clearWord_keeps (s : State) (o : Maint) (first : Word) : Keeps s (clearWord s o first).2 := by
  have clean : Keeps s (cleanFrames s (wordFrame o first) 64) := cleanFrames_keeps _ _ _
  unfold clearWord
  generalize cleanFrames s (wordFrame o first) 64 = t at clean ⊢
  dsimp only
  refine clean.trans (keeps_last (tlbClean_keeps _ _) (keeps_last (homeWrite_keeps _ _ _ _ _ _ _) ?_))
  exact keeps_last (crossed_only _ _ _ _).keeps (recallAt_keeps _ _ _)

theorem restoreWord_keeps (s : State) (o : Maint) (first old : Word) : Keeps s (restoreWord s o first old) := homeWrite_keeps _ _ _ _ _ _ _

theorem endMaint_keeps (s : State) (o : Maint) (st : HState) (f : FaultInfo) : Keeps s (endMaint s o st f) := modMaint_keeps _ _ _

theorem failMaint_keeps (s : State) (o : Maint) (f : FaultInfo) : Keeps s (failMaint s o f) := by
  have counted : Keeps s (countError (forgetEngFails s (coreDie o.core) o.id) f.ecc) :=
    keeps_last (countError_keeps _ _) (forgetEngFails_keeps _ _ _)
  exact counted.trans (keeps_ite (keeps_last (agentFault_keeps _ _ _ _ _ _ _) (dropMaint_keeps _ _)) (endMaint_keeps _ _ _ _))

theorem commitMaint_keeps (s : State) (o : Maint) (count : Word) : Keeps s (commitMaint s o count) :=
  keeps_ite (modMaint_keeps _ _ _) (keeps_last (endMaint_keeps _ _ _ _) (modMaint_keeps _ _ _))

theorem settleMaint_keeps (s : State) (o : Maint) (st : HState) (f : FaultInfo) : Keeps s (settleMaint s o st f) := by
  unfold settleMaint
  exact keeps_last (endHandle_keeps _ _ _ _ _) (keeps_ite (modMaint_keeps _ _ _) (dropMaint_keeps _ _))

theorem finishMaint_keeps (s : State) (o : Maint) (first vb : Word) (st : HState) (f : FaultInfo) : Keeps s (finishMaint s o first vb st f) := by
  unfold finishMaint
  split
  · dsimp only
    split
    · exact .refl s
    · exact keeps_ite (keeps_last (agentFault_keeps _ _ _ _ _ _ _) (dropMaint_keeps _ _)) (modMaint_keeps _ _ _)
    · exact keeps_last (modMaint_keeps _ _ _) (sendLink_keeps _ _ _)
  · have clean := cleanFrames_keeps s (64 * (first.toNat / 64)) (64 * o.i)
    dsimp only
    generalize cleanFrames s (64 * (first.toNat / 64)) (64 * o.i) = t at clean ⊢
    generalize List.finRange 384 = ks
    exact keeps_ite clean (clean.trans (settleMaint_keeps _ _ _ _))

theorem bufferedWord_keeps (s : State) (o : Maint) (first count vb : Word) : Keeps s (bufferedWord s o first count vb) := by
  unfold bufferedWord
  extract_lets q va plain
  have dest := engDest_keeps s q 0 va 8 plain
  split
  · rename_i e
    rw [e] at dest
    exact dest
  · rename_i e
    rw [e] at dest
    exact dest
  · rename_i e
    rw [e] at dest
    exact Keeps.trans dest (failMaint_keeps _ _ _)
  · rename_i t _ u e
    rw [e] at dest
    refine Keeps.trans dest ((clearWord_keeps u o first).trans ?_)
    have wrote := engWrite_keeps (clearWord u o first).2 q t 8 (clearWord u o first).1.toNat
    generalize clearWord u o first = p at wrote ⊢
    dsimp only
    split
    · rename_i e
      rw [e] at wrote
      exact Keeps.trans wrote (commitMaint_keeps _ _ _)
    · rename_i e
      rw [e] at wrote
      exact Keeps.trans wrote (keeps_last (modMaint_keeps _ _ _) (sendLink_keeps _ _ _))
    · rename_i e
      rw [e] at wrote
      exact Keeps.trans wrote (keeps_last (failMaint_keeps _ _ _) (restoreWord_keeps _ _ _ _))
    · rename_i e
      rw [e] at wrote
      exact Keeps.trans wrote (restoreWord_keeps _ _ _ _)

theorem nextWord_keeps (s : State) (o : Maint) (first count vb : Word) : Keeps s (nextWord s o first count vb) := by
  unfold nextWord
  split
  · exact failMaint_keeps _ _ _
  · exact keeps_ite (.refl s) (keeps_ite (keeps_last (commitMaint_keeps _ _ _) (clearWord_keeps _ _ _)) (bufferedWord_keeps _ _ _ _ _))

theorem dirtyclrWord_keeps (op : Nat) (s : State) : OutcomeKeeps s (execDirtyclrWord op s) := by
  unfold execDirtyclrWord
  split
  · exact outcomeKeeps_next (.refl s)
  · split
    · exact outcomeKeeps_next (.refl s)
    · refine outcomeKeeps_ite (outcomeKeeps_next (.refl s)) ?_
      split
      · exact outcomeKeeps_next (keeps_last (failMaint_keeps _ _ _) (restoreWord_keeps _ _ _ _))
      · exact outcomeKeeps_next (failMaint_keeps _ _ _)
      · exact outcomeKeeps_next (modMaint_keeps _ _ _)
      · exact outcomeKeeps_next (commitMaint_keeps _ _ _)
      · exact outcomeKeeps_next (finishMaint_keeps _ _ _ _ _ _)
      · exact outcomeKeeps_ite (outcomeKeeps_next (endMaint_keeps _ _ _ _))
          (outcomeKeeps_ite (outcomeKeeps_next (endMaint_keeps _ _ _ _)) (outcomeKeeps_next (nextWord_keeps _ _ _ _ _)))

end Sys2Proof.Proofs

/-! SUPPORT. What starts, errors, the power and die states and the links keep (R7, R56, R57). -/

namespace Sys2Proof.Proofs

open Sys2Proof Sys2Proof.Machine Sys2Proof.Claims Sys2Proof.Laws

/-! ### Starts (R45-R48) -/

/-- What every step preserves: the canonical form of package memory, and a partition table without shared islands or VFs. -/
structure Retains (s t : State) : Prop where
  mem : memoryOk s → memoryOk t
  parts : partitionsOk s → partitionsOk t

section

variable {s t u : State}

theorem Retains.refl (s : State) : Retains s s := ⟨id, id⟩

theorem Retains.trans (h : Retains s t) (g : Retains t u) : Retains s u := ⟨g.mem ∘ h.mem, g.parts ∘ h.parts⟩

theorem retains_last (g : Retains t u) (h : Retains s t) : Retains s u := h.trans g

theorem keeps_retains (h : Keeps s t) : Retains s t := by
  refine ⟨h.wf, fun ok => ?_⟩
  unfold partitionsOk
  rw [h.parts]
  exact ok

end

/-- An outcome that preserves them, where it is a next state. -/
def OutcomeRetains (s : State) (o : Host.Outcome State Fault Refusal) : Prop := ∀ t, o = .next t → Retains s t

section

variable {s t : State} {a b : Host.Outcome State Fault Refusal}

theorem OutcomeKeeps.retains (h : OutcomeKeeps s a) : OutcomeRetains s a := fun t e => keeps_retains (h t e)

theorem outcomeRetains_next (h : Retains s t) : OutcomeRetains s (.next t) := by
  intro u hu
  cases hu
  exact h

theorem outcomeRetains_ite {p : Prop} [Decidable p] (h : OutcomeRetains s a) (g : OutcomeRetains s b) : OutcomeRetains s (if p then a else b) := by
  split
  · exact h
  · exact g

end

theorem endStart_keeps (s : State) (n : Fin 2) (k : StartKind) (f : StartFacts) (up : DState) (trains : Bool) :
    Keeps s (endStart s n k f up trains) := by
  unfold endStart
  exact keeps_last (setHealth_keeps _ _ _) (keeps_ite (.same rfl rfl) (.refl s))

theorem startDie_keeps (s : State) (n : Fin 2) (cold : Bool) (f : StartFacts) (up : DState) (trains : Bool) :
    Keeps s (startDie s n cold f up trains) :=
  keeps_ite (endStart_keeps _ _ _ _ _ _) (setHealth_keeps _ _ _)

theorem startDies_keeps (s : State) (cold : Bool) (f0 f1 : StartFacts) : Keeps s (startDies s cold f0 f1) :=
  keeps_last (startDie_keeps _ _ _ _ _ _) (startDie_keeps _ _ _ _ _ _)

/-- With every partition gone, none shares an island or a VF. -/
theorem stopPackage_retains {s : State} {mem : Memory} (kept : Fin 2 → Die → Die) (h : memoryOk s → Memory.wf mem = true) :
    Retains s (stopPackage s mem kept) :=
  ⟨h, fun _ => partitionsOk_of_noneValid reset_parts_invalid⟩

theorem powerOn_retains (f0 f1 : StartFacts) (s : State) : OutcomeRetains s (execPowerOn f0 f1 s) := by
  refine outcomeRetains_next (.trans ?_ (keeps_retains (startDies_keeps _ _ _ _)))
  exact .trans (stopPackage_retains startedFrom fun _ => nil_wf) (keeps_retains (.same rfl rfl))

theorem resetRequest_retains (cold : Bool) (f0 f1 : StartFacts) (s : State) : OutcomeRetains s (execResetRequest cold f0 f1 s) := by
  refine outcomeRetains_ite (outcomeRetains_next ?_) (outcomeRetains_next (.refl s))
  refine .trans (stopPackage_retains startedFrom id) (keeps_retains ?_)
  exact keeps_last (startDies_keeps _ _ _ _) (keeps_last (tellHealth_keeps _ _ _) (tellHealth_keeps _ _ _))

theorem startTimeout_keeps (d : Fin 2) (s : State) : OutcomeKeeps s (execStartTimeout d s) := by
  unfold execStartTimeout
  split
  · exact outcomeKeeps_next (.refl s)
  · exact outcomeKeeps_next (setHealth_keeps _ _ _)

theorem spdmRequest_keeps (s : State) : OutcomeKeeps s (execSpdmRequest s) :=
  outcomeKeeps_ite (outcomeKeeps_next (.same rfl rfl)) (outcomeKeeps_next (.refl s))

/-! ### Errors (R51-R53) -/

theorem trimSlice_keeps (s : State) (d : Fin 2) (slice : Fin 64) : Keeps s (pastStall s fun s => l2Trim s d slice s.dies[d].l2.length) :=
  pastStall_keeps (fun s => l2Trim_keeps _ _ _ s) s

theorem retireRes_keeps (s : State) (d : Fin 2) (r : ErrRes) : Keeps s (retireRes s d r) := by
  unfold retireRes
  split
  · exact keeps_ite (modDie_keeps _ _ _) (setHealth_keeps _ _ _)
  · exact keeps_last (trimSlice_keeps _ _ _) (setHealth_keeps _ _ _)
  · exact setHealth_keeps _ _ _

theorem correctOne_keeps (s : State) (d : Fin 2) (loc : ErrLoc) (hour : Nat) : Keeps s (correctOne s d loc hour) := by
  unfold correctOne
  extract_lets log t
  have counted : Keeps s t := keeps_last (setHealth_keeps _ _ _) (modDie_keeps _ _ _)
  exact keeps_ite (keeps_last (retireRes_keeps _ _ _) counted) counted

theorem poisonLine_keeps (s : State) (c : Fin 384) (sector : Nat) : Keeps s (poisonLine s c sector) := modCore_keeps _ _ _

theorem markBad_keeps (s : State) (d : Fin 2) (loc : ErrLoc) : Keeps s (markBad s d loc) := by
  unfold markBad
  split
  · exact poisonLine_keeps _ _ _
  · exact (harmSector_only _ _).keeps
  · exact (harmSector_only _ _).keeps

theorem uncorrectOne_keeps (s : State) (d : Fin 2) (loc : ErrLoc) : Keeps s (uncorrectOne s d loc) :=
  keeps_last (retireRes_keeps _ _ _) (keeps_last (markBad_keeps _ _ _) (countError_keeps _ _))

theorem correctedError_keeps (d : Fin 2) (loc : ErrLoc) (hour : Nat) (s : State) : OutcomeKeeps s (execCorrectedError d loc hour s) :=
  outcomeKeeps_next (correctOne_keeps _ _ _ _)

theorem uncorrectableError_keeps (d : Fin 2) (loc : ErrLoc) (use : ErrUse) (s : State) : OutcomeKeeps s (execUncorrectableError d loc use s) := by
  refine outcomeKeeps_next (keeps_last (uncorrectOne_keeps _ _ _) ?_)
  cases use with
  | nobody => exact .refl s
  | warp w sp lane va =>
    dsimp only
    split
    · exact .refl s
    · split
      · exact .refl s
      · exact takeFault_keeps _ _ _ _ _ _ _
  | copy op va =>
    dsimp only
    split
    · exact failCopy_keeps _ _ _
    · exact .refl s

theorem patrolScrub_keeps (d : Fin 2) (fixed bad : List ErrLoc) (hour : Nat) (s : State) : OutcomeKeeps s (execPatrolScrub d fixed bad hour s) := by
  refine outcomeKeeps_next (keeps_last (.fold (fun s l => uncorrectOne_keeps s d l) _ _) ?_)
  exact .fold (fun s l => correctOne_keeps s d l hour) _ _

/-! ### Power, temperature and die states (R18-R23) -/

theorem powerBudgetWindow_keeps (avg : PowerAvg) (clk0 clk1 : List (BitVec 8)) (s : State) :
    OutcomeKeeps s (execPowerBudgetWindow avg clk0 clk1 s) :=
  outcomeKeeps_next (keeps_last (setHealth_keeps _ _ _) (setHealth_keeps _ _ _))

theorem clocksLowered_keeps (d : Fin 2) (clk : List (BitVec 8)) (s : State) : OutcomeKeeps s (.next (setHealth s d (setClocks true clk))) :=
  outcomeKeeps_next (setHealth_keeps _ _ _)

theorem hbmOver85_keeps (d : Fin 2) (stack : Fin 12) (s : State) : OutcomeKeeps s (execHbmOver85 d stack s) :=
  outcomeKeeps_next (modDie_keeps _ _ _)

theorem hbmOver95_keeps (d : Fin 2) (stack : Fin 12) (clk : List (BitVec 8)) (s : State) : OutcomeKeeps s (execHbmOver95 d stack clk s) :=
  outcomeKeeps_next (keeps_last (setHealth_keeps _ _ _) (modDie_keeps _ _ _))

/-- What is told to the host, and whether its link is up, touch neither memory nor the partitions. -/
theorem hostChanged_keeps (s : State) (h : HostPort) (out : List HostMsg) : Keeps s { s with host := h, hostOut := out } := .same rfl rfl

theorem thermalTrip_retains (s : State) : OutcomeRetains s (execThermalTrip s) := by
  have stopped : Retains s (stopPackage s [] fun _ d => { keptBy d with meas := d.meas }) := stopPackage_retains _ fun _ => nil_wf
  refine outcomeRetains_next (stopped.trans (keeps_retains ?_))
  exact keeps_last (hostChanged_keeps _ _ _) (keeps_last (setHealth_keeps _ _ _) (setHealth_keeps _ _ _))

theorem resetCores_keeps (s : State) (d : Fin 2) : Keeps s (resetCores s d) :=
  .fold (fun _ _ => keeps_last (modCore_keeps _ _ _) (keeps_last (loseLines_keeps _ _ _) (l1CleanNow_keeps _ _))) _ s

theorem recallMoved_keeps (l : List Nat) (s : State) : Keeps s (l.foldl recallLine s) := .fold (fun s k => (recallLine_only s k).keeps) _ s

theorem leaveOnline_keeps (s : State) (d : Fin 2) : Keeps s (leaveOnline s d) := by
  unfold leaveOnline
  extract_lets o t own
  have recalled : Keeps s t := pastStall_keeps (fun t => recallMoved_keeps _ t) s
  clear_value t
  exact recalled.trans (keeps_last (modDie_keeps _ _ _) (modDie_keeps _ _ _))

theorem coresOfflineRequest_keeps (d : Fin 2) (s : State) : OutcomeKeeps s (execCoresOfflineRequest d s) := by
  refine outcomeKeeps_ite (outcomeKeeps_next (.refl s)) (outcomeKeeps_ite (outcomeKeeps_next (toHost_keeps _ _))
    (outcomeKeeps_ite (outcomeKeeps_next (.same rfl rfl)) (outcomeKeeps_next ?_)))
  exact keeps_last (setHealth_keeps _ _ _) (keeps_last (leaveOnline_keeps _ _) (resetCores_keeps _ _))

theorem closeDie_keeps (s : State) (d : Fin 2) : Keeps s (closeDie s d) := by
  refine keeps_last (toHost_keeps _ _) (keeps_last (setHealth_keeps _ _ _) (keeps_last (modDie_keeps _ _ _) ?_))
  exact keeps_last (pastStall_keeps (fun s => recallMoved_keeps _ s) _) (leaveOnline_keeps _ _)

theorem closeOn_keeps (s : State) (d : Fin 2) : Keeps s (closeOn s d) := keeps_ite (closeDie_keeps _ _) (.refl s)

theorem dieOfflineRequest_keeps (d : Fin 2) (s : State) : OutcomeKeeps s (execDieOfflineRequest d s) :=
  outcomeKeeps_ite (outcomeKeeps_next (.refl s)) (outcomeKeeps_ite (outcomeKeeps_next (toHost_keeps _ _))
    (outcomeKeeps_next (keeps_last (closeOn_keeps _ _) (modDie_keeps _ _ _))))

theorem bringUpRequest_keeps (d : Fin 2) (f : StartFacts) (s : State) : OutcomeKeeps s (execBringUpRequest d f s) := by
  refine outcomeKeeps_ite (outcomeKeeps_next (.refl s)) ?_
  extract_lets t u
  have up : Keeps s u := keeps_last (startDie_keeps _ _ _ _ _ _) (keeps_last (tellHealth_keeps _ _ _) (modDie_keeps _ _ _))
  exact outcomeKeeps_next (keeps_ite (keeps_last (toHost_keeps _ _) up) up)

theorem onlineRequest_keeps (d : Fin 2) (s : State) : OutcomeKeeps s (execOnlineRequest d s) :=
  outcomeKeeps_ite (outcomeKeeps_next (.refl s)) (outcomeKeeps_next (keeps_last (setHealth_keeps _ _ _) (resetCores_keeps _ _)))

/-! ### The bridge and UALink (R24-R35) -/

theorem modBridge_keeps (s : State) (f : Bridge → Bridge) : Keeps s (modBridge s f) := .same rfl rfl

theorem deliverPacket_keeps (s : State) (p : Packet) : Keeps s (deliverPacket s p) := by
  unfold deliverPacket
  split
  · exact (l2Drop_only _ _ _).keeps
  all_goals exact .refl s

theorem bridgePacket_keeps (i : Nat) (s : State) : OutcomeKeeps s (execBridgePacket i s) := by
  unfold execBridgePacket
  split
  · exact outcomeKeeps_next (.refl s)
  · refine outcomeKeeps_ite (outcomeKeeps_next ?_) (outcomeKeeps_next (.refl s))
    exact keeps_last (modBridge_keeps _ _) (keeps_ite (.refl s) (deliverPacket_keeps _ _))

theorem bridgeAcknowledge_keeps (dir : Fin 2) (seq : Nat) (s : State) : OutcomeKeeps s (execBridgeAcknowledge dir seq s) :=
  outcomeKeeps_next (keeps_ite (keeps_last (sendHeld_keeps _) (modBridge_keeps _ _)) (modBridge_keeps _ _))

theorem bridgeFlitError_keeps (dir : Fin 2) (s : State) : OutcomeKeeps s (execBridgeFlitError dir s) := outcomeKeeps_next (modBridge_keeps _ _)

theorem bridgeRetrain_keeps (ok : Bool) (s : State) : OutcomeKeeps s (execBridgeRetrain ok s) :=
  outcomeKeeps_ite (outcomeKeeps_next (.refl s)) (outcomeKeeps_ite
    (outcomeKeeps_next (keeps_last (sendHeld_keeps _) (modBridge_keeps _ _))) (outcomeKeeps_next (modBridge_keeps _ _)))

theorem bridgeLaneFailure_keeps (d : Fin 2) (module : Fin 96) (spare : Bool) (s : State) :
    OutcomeKeeps s (execBridgeLaneFailure d module spare s) :=
  outcomeKeeps_ite (outcomeKeeps_next (.refl s)) (outcomeKeeps_next (keeps_last (setHealth_keeps _ _ _) (setHealth_keeps _ _ _)))

/-- An input that crosses, stalls or finds the bridge down keeps what its two continuations keep. -/
theorem crossIn_outcome {s : State} {far : Bool} {e : Instr} {down ok : State → State} (h : Keeps s (down s)) (g : Keeps s (ok s)) :
    OutcomeKeeps s (crossIn s far e down ok) := by
  unfold crossIn
  split
  · exact outcomeKeeps_next g
  · exact outcomeKeeps_next (.same rfl rfl)
  · exact outcomeKeeps_next h

theorem ualinkLaneFailure_keeps (d : Fin 2) (port : Fin 8) (trains : Bool) (s : State) :
    OutcomeKeeps s (execUalinkLaneFailure d port trains s) := outcomeKeeps_next (setHealth_keeps _ _ _)

theorem outsideRead_keeps (s : State) (g : Fin 2) (a n : Nat) : Keeps s (outsideRead s g a n).2 := by
  unfold outsideRead
  split
  · exact windowTouch_keeps _ _ _ _
  · exact .refl s

theorem outsideWrite_keeps (s : State) (g : Fin 2) (atomic : Bool) (a n x : Nat) : Keeps s (outsideWrite s g atomic a n x) :=
  keeps_last (homeWrite_keeps _ _ _ _ _ _ _) (keeps_last (crossed_only _ _ _ _).keeps (recallAt_keeps _ _ _))

theorem writeEnabled_keeps (g : Fin 2) (data : List Byte) (en : List Bool) (s : State) (a : Nat) : Keeps s (writeEnabled s g a data en) := by
  induction data generalizing s a en with
  | nil =>
    unfold writeEnabled
    exact .refl s
  | cons b r ih =>
    cases en with
    | nil =>
      unfold writeEnabled
      exact .refl s
    | cons e es =>
      unfold writeEnabled
      exact (keeps_ite (outsideWrite_keeps _ _ _ _ _ _) (.refl s)).trans (ih _ _ _)

theorem serveUa_keeps (s : State) (g : Fin 2) (r : UaReq) : Keeps s (serveUa s g r).2 := by
  cases r with
  | read addr bytes =>
    unfold serveUa
    dsimp only
    split
    · exact outsideRead_keeps _ _ _ _
    · exact .refl s
  | write addr data enable =>
    unfold serveUa
    dsimp only
    split
    · exact keeps_ite (outsideWrite_keeps _ _ _ _ _ _) (writeEnabled_keeps _ _ _ _ _)
    · exact .refl s
  | atomic op ty addr x y =>
    have read := outsideRead_keeps s g addr.toNat (tyBytes ty)
    unfold serveUa
    dsimp only
    split
    · split
      · rename_i e
        rw [e] at read
        exact read.trans (outsideWrite_keeps _ _ _ _ _ _)
      · rename_i e
        rw [e] at read
        exact read
    · exact .refl s
  | other _ => exact .refl s

theorem respond_keeps (s : State) (g : Fin 2) (src : BitVec 12) (tag : Nat) (data : Option (List Byte)) : Keeps s (respond s g src tag data) := by
  unfold respond
  dsimp only
  split
  · rename_i d p _
    refine keeps_ite (.refl s) (.trans (t := if d = g then s else sendPacket s g (portAgent p.val) .response true) ?_ (.same rfl rfl))
    exact keeps_ite (.refl s) (sendPacket_only _ _ _ _ _).keeps
  · exact .refl s

theorem domainRequestReceived_keeps (src : BitVec 12) (tag : Nat) (r : UaReq) (s : State) :
    OutcomeKeeps s (execDomainRequestReceived src tag r s) := by
  have serve := (serveUa_keeps s (arrivalDie s src) r).trans (respond_keeps _ (arrivalDie s src) src tag (serveUa s (arrivalDie s src) r).1)
  unfold execDomainRequestReceived
  exact crossIn_outcome serve serve

theorem relayForward_keeps (p : UaPkt) (s : State) : OutcomeKeeps s (execRelayForward p s) := by
  refine outcomeKeeps_ite (outcomeKeeps_next (.refl s)) (crossIn_outcome (.refl s) ?_)
  extract_lets t
  have ht : Keeps s t := (sendPacket_only _ _ _ _ _).keeps
  clear_value t
  exact ht.trans (.same rfl rfl)

/-! ### Completions (R34, R35, R40) -/

theorem resultBack_keeps (s : State) (l : LinkOp) (id : Nat) (x : Except LateFault (List Byte)) : Keeps s (resultBack s l id x) :=
  modResult_keeps _ _ _

theorem engineBack_keeps (s : State) (l : LinkOp) (id : Nat) (x : Except LateFault (List Byte)) : Keeps s (engineBack s l id x) := .same rfl rfl

theorem deliverOver_keeps (s : State) (l : LinkOp) (x : Except LateFault (List Byte)) : Keeps s (deliverOver s l x) := by
  unfold deliverOver
  split
  · exact resultBack_keeps _ _ _ _
  · exact engineBack_keeps _ _ _ _
  · split
    · exact keeps_ite (.same rfl rfl) (.refl s)
    · exact modWarp_keeps _ _ _

theorem accessOver_keeps (s : State) (l : LinkOp) (x : Except LateFault (List Byte)) : Keeps s (accessOver s l x) := by
  refine keeps_last (deliverOver_keeps _ _ _) (keeps_last (.fold (fun s k => transmit_keeps s k) _ _) ?_)
  exact .same rfl rfl

theorem goodBack_keeps (s : State) (l : LinkOp) (data : List Byte) : Keeps s (goodBack s l data) :=
  keeps_ite (keeps_last (transmit_keeps _ _) (.same rfl rfl)) (accessOver_keeps _ _ _)

theorem badBack_keeps (s : State) (l : LinkOp) (cause : Nat) : Keeps s (badBack s l cause) := accessOver_keeps _ _ _

theorem failAll_keeps (s : State) (p : LinkOp → Bool) (cause : Nat) : Keeps s (failAll s p cause) :=
  keeps_last (.fold (fun s l => deliverOver_keeps s l _) _ _) (.same rfl rfl)

theorem comeBack_outcome (s : State) (l : LinkOp) (e : Instr) {k : State → State} (h : ∀ t, Keeps t (k t)) : OutcomeKeeps s (comeBack s l e k) := by
  unfold comeBack
  refine crossIn_outcome (badBack_keeps _ _ _) (keeps_last (h _) ?_)
  refine keeps_ite (.refl s) ?_
  exact keeps_last (sendPacket_only _ _ _ _ _).keeps (arrivePacket_only _ _ _).keeps

theorem domainCompletion_keeps (tag : Nat) (ok : Bool) (data : List Byte) (s : State) : OutcomeKeeps s (execDomainCompletion tag ok data s) := by
  unfold execDomainCompletion
  split
  · exact outcomeKeeps_next (.refl s)
  · refine comeBack_outcome _ _ _ fun t => ?_
    exact keeps_ite (goodBack_keeps _ _ _) (badBack_keeps _ _ _)

theorem domainCompletionTimeout_keeps (s : State) : OutcomeKeeps s (execDomainCompletionTimeout s) := by
  unfold execDomainCompletionTimeout
  split
  · exact outcomeKeeps_next (.refl s)
  · exact outcomeKeeps_next (badBack_keeps _ _ _)

theorem systemCompletion_keeps (tag : Nat) (st : CplStatus) (data : List Byte) (s : State) :
    OutcomeKeeps s (execSystemCompletion tag st data s) := by
  unfold execSystemCompletion
  split
  · exact outcomeKeeps_next (.refl s)
  · refine outcomeKeeps_ite (outcomeKeeps_next (.refl s)) ?_
    refine comeBack_outcome _ _ _ fun t => ?_
    exact keeps_ite (goodBack_keeps _ _ _) (badBack_keeps _ _ _)

theorem systemReadTimeout_keeps (s : State) : OutcomeKeeps s (execSystemReadTimeout s) := by
  unfold execSystemReadTimeout
  split
  · exact outcomeKeeps_next (.refl s)
  · exact outcomeKeeps_next (badBack_keeps _ _ _)

/-! ### The host port and the loss of the bridge (R27, R41, R42) -/

theorem inboundHostWrite_keeps (off : Nat) (data : List Byte) (s : State) : OutcomeKeeps s (execInboundHostWrite off data s) := by
  unfold execInboundHostWrite
  split
  · exact outcomeKeeps_next (.refl s)
  · exact crossIn_outcome (.refl s) (keeps_ite (outsideWrite_keeps _ _ _ _ _ _) (.refl s))

theorem readAperture_keeps (s : State) (off bytes : Nat) : Keeps s (readAperture s off bytes) := by
  unfold readAperture
  split
  · exact .refl s
  · rename_i a _
    have read := outsideRead_keeps s 0 a bytes
    split
    · rename_i e
      rw [e] at read
      exact read.trans (.same rfl rfl)
    · rename_i e
      rw [e] at read
      exact read.trans (.same rfl rfl)

theorem hostLinkDown_keeps (s : State) : OutcomeKeeps s (execHostLinkDown s) :=
  outcomeKeeps_ite (outcomeKeeps_next (keeps_last (failAll_keeps _ _ _) (.same rfl rfl))) (outcomeKeeps_next (.refl s))

theorem hostLinkUp_keeps (s : State) : OutcomeKeeps s (execHostLinkUp s) :=
  outcomeKeeps_ite (outcomeKeeps_next (.refl s)) (outcomeKeeps_next (keeps_last (sendHeld_keeps _) (.same rfl rfl)))

theorem bridgeDown_keeps (s : State) : OutcomeKeeps s (execBridgeDown s) := by
  refine outcomeKeeps_ite (outcomeKeeps_next (.refl s)) ?_
  extract_lets gone tags posted owners src t u v
  have down : Keeps s u := .same rfl rfl
  have failed : Keeps u v := failAll_keeps _ _ _
  clear_value u v
  refine outcomeKeeps_next (down.trans (failed.trans ?_))
  exact .fold (fun s (x : Fin 2 × Fin 64) => agentFault_keeps s x.1 x.2 0x14 0 0 0) _ _

end Sys2Proof.Proofs

/-! SUPPORT. What swaps, the commands and registers of the host, control flow and results keep (R7, R56, R57). -/

namespace Sys2Proof.Proofs

open Sys2Proof Sys2Proof.Machine Sys2Proof.Claims Sys2Proof.Laws

/-! ### Halts, swaps and restores (R94-R107) -/

theorem safePointDrought_keeps (w : Nat) (sp : Fin 8) (s : State) : OutcomeKeeps s (execSafePointDrought w sp s) := by
  unfold execSafePointDrought
  split
  · exact outcomeKeeps_next (.refl s)
  · split
    · exact outcomeKeeps_next (.refl s)
    · exact outcomeKeeps_ite (outcomeKeeps_next (keeps_last (settle_keeps _ _) (takeFault_keeps _ _ _ _ _ _ _))) (outcomeKeeps_next (.refl s))

theorem overdueSplit_keeps (w : Nat) (sp : Fin 8) (s : State) : OutcomeKeeps s (execOverdueSplit w sp s) := outcomeKeeps_next (modWarp_keeps _ _ _)

theorem askQuiet_keeps (s : State) (w : Warp) (ls : List LinkOp) : Keeps s (askQuiet s w ls) := by
  refine keeps_ite (.refl s) (keeps_last (modResult_keeps _ _ _) ?_)
  refine keeps_last (sendLinks_keeps (coreDie w.core) (fun l => { l with result := some _ }) _ ([], _)) ?_
  dsimp only
  split
  · exact .refl s
  · exact addResult_keeps _ _

theorem saveWarps_keeps (s : State) (ws : List Warp) : Keeps s (saveWarps s ws).2 := .same rfl rfl

theorem freeSlotOf_keeps {s t : State} {c : Fin 64} {k : Fin 384} (h : freeSlotOf s c k = some t) : Keeps s t := by
  unfold freeSlotOf at h
  dsimp only at h
  split at h
  · cases h
    exact .refl s
  · split at h
    · cases h
      exact .refl s
    · split at h
      · cases h
        exact keeps_last (modCore_keeps _ _ _) (spillCtx_keeps _ _)
      · cases h

theorem beginSwap_keeps (s : State) (c : Fin 64) (k : Fin 384) : Keeps s (beginSwap s c k) := by
  unfold beginSwap
  extract_lets us ws sectors t bytes unsaved u
  have ht : Keeps s t := keeps_last (l1Drop_keeps _ _ _) (keeps_last (l1CleanNow_keeps _ _) (loseLines_keeps _ _ _))
  have hu : Keeps t u := .same rfl rfl
  clear_value t u
  exact ht.trans (hu.trans (keeps_last (modCore_keeps _ _ _) (saveWarps_keeps _ _)))

theorem coreSwapStart_keeps (core : Fin 384) (c : Fin 64) (s : State) : OutcomeKeeps s (execCoreSwapStart core c s) := by
  refine outcomeKeeps_ite ?_ (outcomeKeeps_next (.refl s))
  split
  · exact outcomeKeeps_next (askQuiet_keeps _ _ _)
  · refine outcomeKeeps_ite (outcomeKeeps_next (beginSwap_keeps _ _ _)) ?_
    split
    · rename_i t h
      exact outcomeKeeps_next ((freeSlotOf_keeps h).trans (beginSwap_keeps _ _ _))
    · exact outcomeKeeps_next (.refl s)

theorem coreSwapDone_keeps (core : Fin 384) (c : Fin 64) (s : State) : OutcomeKeeps s (execCoreSwapDone core c s) := by
  unfold execCoreSwapDone
  split
  · refine outcomeKeeps_ite (outcomeKeeps_next ?_) (outcomeKeeps_next (.refl s))
    exact keeps_last (tryHalted_keeps _ _) (keeps_last (modCore_keeps _ _ _) (.same rfl rfl))
  · exact outcomeKeeps_next (tryHalted_keeps _ _)

theorem settleAll_keeps (s : State) (ws : List Warp) : Keeps s (settleAll s ws) := .fold (fun s (w : Warp) => settle_keeps s w.id) _ s

theorem wakeDispatch_keeps (s : State) (c : Fin 64) : Keeps s (wakeDispatch s c) := by
  unfold wakeDispatch
  extract_lets t wakes
  have ht : Keeps s t := seatWarps_keeps _ _
  clear_value t
  exact ht.trans (keeps_last (settleAll_keeps _ _) (.same rfl rfl))

theorem restoreOn_keeps (s : State) (u : UnitSt) (r : LRec) (k : Fin 384) : Keeps s (restoreOn s u r k) := by
  unfold restoreOn
  split
  · exact .refl s
  · extract_lets since t live v w
    have ht : Keeps s t := readyCore_keeps _ _ _
    have hv : Keeps t v := modUnit_keeps _ _ _
    have hw : Keeps v w := .same rfl rfl
    clear_value t v w
    exact ht.trans (hv.trans (hw.trans (settleAll_keeps _ _)))

theorem unitRestore_keeps (c : Fin 64) (s : State) : OutcomeKeeps s (execUnitRestore c s) := by
  refine outcomeKeeps_ite (outcomeKeeps_ite (outcomeKeeps_next (wakeDispatch_keeps _ _)) ?_) (outcomeKeeps_next (.refl s))
  split
  · split
    · refine outcomeKeeps_ite ?_ (outcomeKeeps_next (.refl s))
      extract_lets t u
      have hu : Keeps s u := keeps_last (placedUnit_keeps _ _ _) (keeps_last (restoreOn_keeps _ _ _ _) (droverMessage_keeps _ _ _))
      exact outcomeKeeps_next (keeps_ite (keeps_last (wakeDispatch_keeps _ _) hu) hu)
    · exact outcomeKeeps_next (.refl s)
  · exact outcomeKeeps_next (.refl s)

/-! ### The commands of the host (R55-R63) -/

theorem refuse_keeps (s : State) (status : Nat) : Keeps s (refuse s status) := .same rfl rfl
theorem accept_keeps (s : State) : Keeps s (accept s) := refuse_keeps _ _
theorem commandDone_keeps (s : State) : Keeps s (commandDone s) := keeps_last (toHost_keeps _ _) (accept_keeps _)

theorem fromHost_outcome {s : State} {k : State → State} (h : Keeps s (k s)) : OutcomeKeeps s (fromHost s k) :=
  outcomeKeeps_ite (outcomeKeeps_next h) (outcomeKeeps_next (.refl s))

theorem writeArg_keeps (s : State) (c : Fin 64) (arg : Word) : Keeps s (writeArg s c arg) := by
  unfold writeArg
  extract_lets t x last u
  have hu : Keeps s u := keeps_last (modCtx_keeps _ _ _) (modCtx_keeps _ _ _)
  clear_value u
  exact hu.trans (keeps_ite (acceptStart_keeps _ _ _ _ _) (keeps_ite (modCtx_keeps _ _ _) (.refl u)))

theorem startArgWrite_keeps (fn : Fin 25) (c : Fin 64) (entry : Option Word) (arg : Word) (s : State) :
    OutcomeKeeps s (execStartArgWrite fn c entry arg s) := by
  refine fromHost_outcome (keeps_ite (.refl s) (keeps_last (writeArg_keeps _ _ _) ?_))
  split
  · exact modCtx_keeps _ _ _
  · exact .refl s

theorem inStates_keeps (s : State) (c : Fin 64) (ok : CState → Bool) {k : State → State} (h : Keeps s (k s)) : Keeps s (inStates s c ok k) :=
  keeps_ite h (refuse_keeps _ _)

theorem doCreate_keeps (s : State) (c : Fin 64) : Keeps s (doCreate s c) := by
  refine inStates_keeps _ _ _ ?_
  split
  · exact keeps_last (commandDone_keeps _) (modCtx_keeps _ _ _)
  · exact refuse_keeps _ _

theorem doHalt_keeps (s : State) (c : Fin 64) : Keeps s (doHalt s c) := inStates_keeps _ _ _ (keeps_last (startHalt_keeps _ _) (accept_keeps _))

theorem emptyL1_keeps (s : State) : Keeps s (emptyL1 s) :=
  .fold (fun s _ => keeps_ite (keeps_last (l1Drop_keeps _ _ _) (keeps_last (loseLines_keeps _ _ _) (l1CleanNow_keeps _ _))) (.refl s)) _ s

theorem coresChanged_keeps (s : State) (cs : Vector Core 384) : Keeps s { s with cores := cs } := .same rfl rfl

theorem resumeCtx_keeps (s : State) (c : Fin 64) : Keeps s (resumeCtx s c) := by
  unfold resumeCtx
  extract_lets t u v w
  have empty : Keeps s t := keeps_last (emptyL1_keeps _) (tlbInvalidate_keeps _ _ _ _)
  have hu : Keeps t u := modCtx_keeps _ _ _
  have hv : Keeps u v := coresChanged_keeps _ _
  have hw : Keeps v w := keeps_last (examine_keeps _ _) (deliverAwait_keeps _ _)
  clear_value t u v w
  refine empty.trans (keeps_ite (.refl t) ?_)
  exact hu.trans (hv.trans (hw.trans (keeps_last (startHeld_keeps _ _) (keeps_ite (wakeDispatch_keeps _ _) (.refl w)))))

theorem withUnits_keeps (s : State) (c : Fin 64) {k : State → State} (h : ∀ t, Keeps t (k t)) : Keeps s (withUnits s c k) := by
  unfold withUnits
  split
  · rename_i t e
    exact (unspill_keeps e).trans (keeps_last (commandDone_keeps _) (h t))
  · exact refuse_keeps _ _

theorem doResume_keeps (s : State) (c : Fin 64) : Keeps s (doResume s c) :=
  inStates_keeps _ _ _ (withUnits_keeps _ _ fun _ => resumeCtx_keeps _ _)

theorem doExport_keeps (s : State) (c : Fin 64) : Keeps s (doExport s c) := by
  refine inStates_keeps _ _ _ ?_
  unfold withUnits
  split
  · exact keeps_last (commandDone_keeps _) (writeImage_keeps _ _ _)
  · exact refuse_keeps _ _

theorem doImport_keeps (s : State) (c : Fin 64) : Keeps s (doImport s c) := by
  refine inStates_keeps _ _ _ ?_
  split
  · split
    · exact keeps_last (commandDone_keeps _) (loadImage_keeps _ _ _)
    · exact refuse_keeps _ _
  · exact refuse_keeps _ _

theorem abandonHalt_keeps (s : State) (c : Fin 64) : Keeps s (abandonHalt s c) := by
  unfold abandonHalt
  extract_lets t
  have ht : Keeps s t := modCtx_keeps _ _ _
  clear_value t
  exact ht.trans (coresChanged_keeps _ _)

theorem doDestroy_keeps (s : State) (c : Fin 64) : Keeps s (doDestroy s c) := by
  refine inStates_keeps _ _ _ (keeps_last (commandDone_keeps _) (keeps_ite ?_ (freeCtx_keeps _ _)))
  exact keeps_last (cancelWholeJob_keeps _ _ _) (abandonHalt_keeps _ _)

theorem doCancelJob_keeps (s : State) (c : Fin 64) : Keeps s (doCancelJob s c) :=
  inStates_keeps _ _ _ (keeps_last (commandDone_keeps _) (keeps_ite (.refl s) (cancelWholeJob_keeps _ _ _)))

theorem writeCommand_keeps (s : State) (c : Fin 64) (v : Word) : Keeps s (writeCommand s c v) := by
  refine keeps_ite (refuse_keeps _ _) ?_
  split
  · exact accept_keeps _
  · exact doCreate_keeps _ _
  · exact doHalt_keeps _ _
  · exact doResume_keeps _ _
  · exact doExport_keeps _ _
  · exact doImport_keeps _ _
  · exact doDestroy_keeps _ _
  · exact doCancelJob_keeps _ _
  · exact refuse_keeps _ _

theorem writeEntry_keeps (s : State) (c : Fin 64) (v : Word) : Keeps s (writeEntry s c v) :=
  keeps_ite (refuse_keeps _ _) (keeps_last (accept_keeps _) (modCtx_keeps _ _ _))

theorem contextEntryWrite_keeps (c : Fin 64) (reg : Fin 8) (v : Word) (s : State) : OutcomeKeeps s (execContextEntryWrite c reg v s) := by
  refine fromHost_outcome ?_
  split
  · exact writeEntry_keeps _ _ _
  · exact writeCommand_keeps _ _ _
  · exact keeps_ite (keeps_last (accept_keeps _) (modCtx_keeps _ _ _)) (refuse_keeps _ _)
  · exact keeps_ite (keeps_last (accept_keeps _) (modCtx_keeps _ _ _)) (refuse_keeps _ _)
  · exact keeps_ite (accept_keeps _) (refuse_keeps _ _)

/-! ### The partition table (R56, R57) -/

theorem anyIsland_iff (p : Part) (f : Fin 2 → Nat → Bool) : anyIsland p f = true ↔
    ∃ i < 12, (p.isl0.getLsbD i = true ∧ f 0 i = true) ∨ (p.isl1.getLsbD i = true ∧ f 1 i = true) := by
  simp only [anyIsland, List.any_eq_true, List.mem_range, Bool.or_eq_true, Bool.and_eq_true]

/-- What the checks of R57 leave of an entry: it shares no island and no VF with a valid one. -/
theorem partStatus_zero {s : State} {n : Fin 24} {p : Part} {ok : Bool} (h : partStatus s n p ok = 0) (hp : p.valid = true)
    {m : Fin 24} (hm : m ≠ n) (hv : s.parts[m].valid = true) :
    p.isl0 &&& s.parts[m].isl0 = 0 ∧ p.isl1 &&& s.parts[m].isl1 = 0 ∧ (p.vf ≠ 0 → s.parts[m].vf ≠ p.vf) := by
  have listed : m ∈ (List.finRange 24).filter fun m => m != n && s.parts[m].valid := by
    simpa [hm] using hv
  unfold partStatus at h
  dsimp only at h
  split at h
  · cases h
  rename_i free
  split at h
  · cases h
  split at h
  · cases h
  split at h
  · cases h
  rename_i own
  rw [hp, Bool.true_and] at free own
  have apart : ∀ i < 12, ¬(p.isl0.getLsbD i = true ∧ s.parts[m].isl0.getLsbD i = true)
      ∧ ¬(p.isl1.getLsbD i = true ∧ s.parts[m].isl1.getLsbD i = true) := by
    intro i hi
    have shared := fun a => free ((anyIsland_iff _ _).mpr ⟨i, hi, a⟩)
    exact ⟨fun ⟨a, b⟩ => shared (.inl ⟨a, List.any_eq_true.mpr ⟨m, listed, b⟩⟩),
      fun ⟨a, b⟩ => shared (.inr ⟨a, List.any_eq_true.mpr ⟨m, listed, b⟩⟩)⟩
  refine ⟨?_, ?_, fun nonzero same => own ?_⟩
  · refine BitVec.eq_of_getLsbD_eq fun i hi => ?_
    have := (apart i hi).1
    simpa using this
  · refine BitVec.eq_of_getLsbD_eq fun i hi => ?_
    have := (apart i hi).2
    simpa using this
  · rw [Bool.and_eq_true]
    exact ⟨by simpa using nonzero, List.any_eq_true.mpr ⟨m, listed, by simpa using same⟩⟩

theorem retains_writePart {s : State} {n : Fin 24} {p : Part} {ok : Bool} (h : partStatus s n p ok = 0) :
    Retains s { s with parts := s.parts.set n.val p n.isLt } := by
  refine ⟨id, fun sound a b hab ha hb => ?_⟩
  have at_ : ∀ m : Fin 24, (s.parts.set n.val p n.isLt)[m] = if m = n then p else s.parts[m] := fun m => by
    simp [Vector.getElem_set, Fin.ext_iff, eq_comm]
  simp only [at_] at ha hb ⊢
  by_cases ea : a = n
  · have eb : b ≠ n := fun e => hab (ea.trans e.symm)
    rw [if_pos ea] at ha ⊢
    rw [if_neg eb] at hb ⊢
    obtain ⟨low, high, vf⟩ := partStatus_zero h ha eb hb
    exact ⟨low, high, fun nonzero => (vf nonzero).symm⟩
  · rw [if_neg ea] at ha ⊢
    by_cases eb : b = n
    · rw [if_pos eb] at hb ⊢
      obtain ⟨low, high, vf⟩ := partStatus_zero h hb ea ha
      exact ⟨(BitVec.and_comm _ _).trans low, (BitVec.and_comm _ _).trans high, fun nonzero same => vf (same ▸ nonzero) same⟩
    · rw [if_neg eb] at hb ⊢
      exact sound a b hab ha hb

theorem partitionEntryWrite_retains (n : Fin 24) (reg : Fin 8) (v : Word) (s : State) : OutcomeRetains s (execPartitionEntryWrite n reg v s) := by
  refine outcomeRetains_ite (outcomeRetains_next ?_) (outcomeRetains_next (.refl s))
  dsimp only
  split
  · rename_i h
    exact retains_last (keeps_retains (keeps_last (retirePending_keeps _) (accept_keeps _))) (retains_writePart h)
  · exact keeps_retains (refuse_keeps _ _)

/-! ### Registers (R29, R30, R36, R37, R55, R249, R250) -/

theorem writeIdentity_keeps (s : State) (d : Fin 2) (v : Word) : Keeps s (writeIdentity s d v) := keeps_ite (modDie_keeps _ _ _) (.refl s)
theorem writeFbase_keeps (s : State) (d : Fin 2) (v : Word) : Keeps s (writeFbase s d v) := keeps_ite (modDie_keeps _ _ _) (.refl s)
theorem writeFret_keeps (s : State) (d : Fin 2) (v : Word) : Keeps s (writeFret s d v) := keeps_ite (retireSlot_keeps _ _ _) (.refl s)
theorem writeWindow_keeps (s : State) (d : Fin 2) (n : Nat) (v : Word) : Keeps s (writeWindow s d n v) := keeps_ite (modDie_keeps _ _ _) (.refl s)

theorem toDie_outcome {s : State} {d : Fin 2} {e : Instr} {k : State → State} (h : ∀ t, Keeps t (k t)) : OutcomeKeeps s (toDie s d e k) :=
  outcomeKeeps_ite (crossIn_outcome (.refl s) (keeps_last (h _) (keeps_ite (sendPacket_only _ _ _ _ _).keeps (.refl s))))
    (outcomeKeeps_next (.refl s))

theorem crossIn_retains {s : State} {far : Bool} {e : Instr} {down ok : State → State} (h : Retains s (down s)) (g : Retains s (ok s)) :
    OutcomeRetains s (crossIn s far e down ok) := by
  unfold crossIn
  split
  · exact outcomeRetains_next g
  · exact outcomeRetains_next (keeps_retains (.same rfl rfl))
  · exact outcomeRetains_next h

theorem toDie_retains {s : State} {d : Fin 2} {e : Instr} {k : State → State} (h : ∀ t, Retains t (k t)) : OutcomeRetains s (toDie s d e k) := by
  refine outcomeRetains_ite (crossIn_retains (.refl s) (retains_last (h _) (keeps_retains ?_))) (outcomeRetains_next (.refl s))
  exact keeps_ite (sendPacket_only _ _ _ _ _).keeps (.refl s)

theorem identityRegisterWrite_keeps (d : Fin 2) (v : Word) (s : State) : OutcomeKeeps s (execIdentityRegisterWrite d v s) :=
  toDie_outcome fun _ => writeIdentity_keeps _ _ _

theorem fbaseWrite_keeps (d : Fin 2) (v : Word) (s : State) : OutcomeKeeps s (execFbaseWrite d v s) :=
  toDie_outcome fun _ => writeFbase_keeps _ _ _

theorem fretWrite_keeps (d : Fin 2) (v : Word) (s : State) : OutcomeKeeps s (execFretWrite d v s) :=
  toDie_outcome fun _ => writeFret_keeps _ _ _

theorem writeStart_keeps (s : State) (c : Fin 64) (off : Nat) (v : Word) : Keeps s (writeStart s c off v) :=
  keeps_ite (modCtx_keeps _ _ _) (keeps_ite (writeArg_keeps _ _ _) (keeps_ite (modCtx_keeps _ _ _) (.refl s)))

theorem writeDie_keeps (s : State) (d : Fin 2) (off : Nat) (v : Word) : Keeps s (writeDie s d off v) :=
  keeps_ite (writeWindow_keeps _ _ _ _) (keeps_ite (writeIdentity_keeps _ _ _)
    (keeps_ite (writeFbase_keeps _ _ _) (keeps_ite (writeFret_keeps _ _ _) (.refl s))))

theorem writeContext_keeps (s : State) (c : Fin 64) (reg : Nat) (v : Word) : Keeps s (writeContext s c reg v) := by
  unfold writeContext
  split
  · rename_i t e
    exact contextEntryWrite_keeps _ _ _ _ t e
  · exact .refl s

theorem writePart_retains (s : State) (n : Fin 24) (reg : Nat) (v : Word) : Retains s (writePart s n reg v) := by
  unfold writePart
  split
  · rename_i t e
    exact partitionEntryWrite_retains _ _ _ _ t e
  · exact .refl s

theorem retains_ite {p : Prop} [Decidable p] {s t u : State} (h : Retains s t) (g : Retains s u) : Retains s (if p then t else u) := by
  split
  · exact h
  · exact g

theorem writeBar0_retains (s : State) (off : Nat) (v : Word) : Retains s (writeBar0 s off v) := by
  refine retains_ite (keeps_retains (writeContext_keeps _ _ _ _)) (retains_ite (writePart_retains _ _ _ _) (keeps_retains ?_))
  refine keeps_ite (writeStart_keeps _ _ _ _) (keeps_ite (.same rfl rfl) ?_)
  exact keeps_ite (writeDie_keeps _ _ _ _) (keeps_ite (writeDie_keeps _ _ _ _) (.refl s))

theorem registerWrite_retains (a : BarAddr) (bytes : Nat) (v : Word) (s : State) : OutcomeRetains s (execRegisterWrite a bytes v s) := by
  refine toDie_retains fun t => retains_ite (.refl t) (retains_ite (writeBar0_retains _ _ _) (keeps_retains ?_))
  exact keeps_ite (writeStart_keeps _ _ _ _) (.refl t)

theorem inboundHostRead_keeps (a : HostRead) (bytes : Nat) (s : State) : OutcomeKeeps s (execInboundHostRead a bytes s) := by
  refine outcomeKeeps_ite (crossIn_outcome (.same rfl rfl) ?_) (outcomeKeeps_next (.refl s))
  cases a with
  | aperture off => exact readAperture_keeps _ _ _
  | register x =>
    dsimp -zeta only
    extract_lets v t
    have ht : Keeps s t := keeps_ite (crossed_only _ _ _ _).keeps (.refl s)
    clear_value t
    exact ht.trans (.same rfl rfl)

/-! ### Control flow and predicates (R116-R122, R311) -/

theorem jump_keeps (s : State) (c : Iss) (pc : Word) : EffectKeeps s (jump s c pc) := goOn_keeps _ _ _ _

theorem divideOr_keeps (s : State) (c : Iss) (gs : List Group) (rpc dpc : Word) (mk : Bool) (depth : Nat) (k : Warp → Mask → Warp) :
    EffectKeeps s (divideOr s c gs rpc dpc mk depth k) := by
  unfold divideOr
  split
  · trivial
  · split
    · trivial
    · exact modWarp_keeps _ _ _

theorem bra_keeps (g : Guard) (disp : BitVec 28) (s : State) : OutcomeKeeps s (execBra g disp s) := by
  refine issue_outcome fun s c => ?_
  exact effectKeeps_ite (effectKeeps_fault s _) (effectKeeps_ite (effectKeeps_next (.refl s)) (jump_keeps _ _ _))

theorem brd_keeps (g : Guard) (disp rejoin : BitVec 28) (s : State) : OutcomeKeeps s (execBrd g disp rejoin s) := by
  refine issue_outcome fun s c => ?_
  exact effectKeeps_ite (effectKeeps_fault s _) (effectKeeps_ite (jump_keeps _ _ _)
    (effectKeeps_ite (effectKeeps_next (.refl s)) (divideOr_keeps _ _ _ _ _ _ _ _)))

theorem jmpv_keeps (g : Guard) (a : Src) (rejoin : BitVec 28) (s : State) : OutcomeKeeps s (execJmpv g a rejoin s) := by
  refine issue_outcome fun s c => ?_
  refine effectKeeps_ite (effectKeeps_fault s _) (effectKeeps_ite (effectKeeps_next (.refl s)) (effectKeeps_ite (effectKeeps_fault s _) ?_))
  split
  · exact jump_keeps _ _ _
  · exact divideOr_keeps _ _ _ _ _ _ _ _

theorem call_keeps (g : Guard) (disp : BitVec 28) (s : State) : OutcomeKeeps s (execCall g disp s) := by
  refine issue_outcome fun s c => ?_
  refine effectKeeps_ite (effectKeeps_fault s _) (effectKeeps_ite (effectKeeps_next (.refl s)) (effectKeeps_ite (effectKeeps_fault s _) ?_))
  exact effectKeeps_moved (keeps_last (modWarp_keeps _ _ _) (goOn_keeps _ _ _ _))

theorem callv_keeps (g : Guard) (a : Src) (s : State) : OutcomeKeeps s (execCallv g a s) := by
  refine issue_outcome fun s c => ?_
  refine effectKeeps_ite (effectKeeps_fault s _) (effectKeeps_ite (effectKeeps_next (.refl s))
    (effectKeeps_ite (effectKeeps_fault s _) (effectKeeps_ite (effectKeeps_fault s _) ?_)))
  split
  · exact effectKeeps_moved (keeps_last (modWarp_keeps _ _ _) (goOn_keeps _ _ _ _))
  · exact divideOr_keeps _ _ _ _ _ _ _ _

theorem ret_keeps (g : Guard) (s : State) : OutcomeKeeps s (execRet g s) := by
  refine issue_outcome fun s c => ?_
  refine effectKeeps_ite (effectKeeps_fault s _) (effectKeeps_ite (effectKeeps_next (.refl s)) (effectKeeps_ite (effectKeeps_fault s _) ?_))
  split
  · exact effectKeeps_moved (keeps_last (modWarp_keeps _ _ _) (goOn_keeps _ _ _ _))
  · exact divideOr_keeps _ _ _ _ _ _ _ _

theorem allon_keeps (s : State) : OutcomeKeeps s (execAllon s) := by
  refine issue_outcome fun s c => ?_
  exact effectKeeps_ite (effectKeeps_fault s _) (modWarp_keeps _ _ _)

theorem alloff_keeps (s : State) : OutcomeKeeps s (execAlloff s) := by
  refine issue_outcome fun s c => ?_
  split
  · trivial
  · exact modWarp_keeps _ _ _

theorem nop_keeps (g : Guard) (s : State) : OutcomeKeeps s (execNop g s) := by
  refine issue_outcome fun s c => ?_
  exact Keeps.refl s

theorem runP_keeps (i : Instr) (o : POp) (h : Mask → Mask → Mask → Mask) (s : State) : OutcomeKeeps s (runP i o h s) := by
  refine issue_outcome fun s c => ?_
  exact modWarp_keeps _ _ _

/-! ### Results, scalars and block scales (R123, R289-R291, R302) -/

theorem finishResult_keeps (s : State) (r : Result) : Keeps s (finishResult s r) := by
  unfold finishResult
  extract_lets t more u
  have hu : Keeps s u := keeps_last (modWarp_keeps _ _ _) (.same rfl rfl)
  clear_value u
  exact hu.trans (keeps_ite (settle_keeps _ _) (.refl u))

theorem firstResult_keeps (s : State) (k : RKind) : Keeps s (firstResult s k) := by
  unfold firstResult
  split
  · exact finishResult_keeps _ _
  · exact .refl s

theorem loadDataReturn_keeps (id : Nat) (s : State) : OutcomeKeeps s (execLoadDataReturn id s) := by
  unfold execLoadDataReturn
  split
  · exact outcomeKeeps_next (finishResult_keeps _ _)
  · exact outcomeKeeps_next (.refl s)

theorem resultReturn_keeps (k : RKind) (s : State) : OutcomeKeeps s (.next (firstResult s k)) := outcomeKeeps_next (firstResult_keeps _ _)

/-- An instruction of a warp that writes registers of it and nothing else. -/
theorem warpWrite_keeps {i : Instr} {f : State → Iss → Warp → Warp} (s : State) :
    OutcomeKeeps s (issueWarp i (fun s c => .next (modWarp s c.w.id (f s c))) s) := by
  refine issueWarp_outcome fun s c => ?_
  exact modWarp_keeps _ _ _

theorem runS_keeps (i : Instr) (o : SOp) (h : Word → Word → Word → Res1) (s : State) : OutcomeKeeps s (runS i o h s) := warpWrite_keeps s

theorem vtos_keeps (g : Guard) (d : Fin 128) (va : Fin 256) (b : SSrc) (w1 : Word) (s : State) : OutcomeKeeps s (execVtos g d va b w1 s) := by
  refine issueWarp_outcome fun s c => ?_
  exact effectKeeps_next (keeps_last (modWarp_keeps _ _ _) (addResult_keeps _ _))

theorem scaleChained_keeps (i : Instr) (k : MxFmt) (o : VOp) (f : VForm) (s : State) (c : Iss) : EffectKeeps s (scaleChained i k o f s c) := by
  unfold scaleChained
  split
  · trivial
  · split
    · trivial
    · split
      · exact chainStop_keeps _ _ _
      · dsimp only
        split
        · exact chainStop_keeps _ _ _
        · exact chainOrder_keeps _ _ _ _ fun t => finishChained_keeps _ _ _ _ _ _ _ _ _

theorem vscaleMx_keeps (o : VOp) (f : MxFmt) (s : State) : OutcomeKeeps s (execVscaleMx o f s) := by
  refine issue_outcome fun s c => ?_
  split
  · exact Keeps.refl s
  · exact effectKeeps_ite (scaleChained_keeps _ _ _ _ _ _) (modWarp_keeps _ _ _)

theorem cdef_keeps (g : Guard) (c : Fin 4) (b : SSrc) (w1 : Word) (s : State) : OutcomeKeeps s (execCdef g c b w1 s) := by
  refine issueWarp_outcome fun s x => withChannel_keeps _ _ _ fun u la => ?_
  exact modUnit_keeps _ _ _

theorem cdrop_keeps (g : Guard) (c : Fin 4) (s : State) : OutcomeKeeps s (execCdrop g c s) := by
  refine issueWarp_outcome fun s x => withChannel_keeps _ _ _ fun u la => ?_
  exact modWarp_keeps _ _ _

theorem cquery_keeps (g : Guard) (d : Fin 128) (c : Fin 4) (sel : Fin 3) (s : State) : OutcomeKeeps s (execCquery g d c sel s) := by
  refine issueWarp_outcome fun s x => withChannel_keeps _ _ _ fun u la => ?_
  exact modWarp_keeps _ _ _

theorem trap_keeps (g : Guard) (a : SSrc) (w1 : Word) (s : State) : OutcomeKeeps s (execTrap g a w1 s) := by
  refine issueWarp_outcome fun s c => ?_
  exact effectKeeps_fault s _

theorem syswr_keeps (g : Guard) (n : SysReg) (b : SSrc) (w1 : Word) (s : State) : OutcomeKeeps s (execSyswr g n b w1 s) := by
  refine issueWarp_outcome fun s c => ?_
  exact effectKeeps_ite (sysWrite_keeps _ _ _ _) (effectKeeps_fault s _)

end Sys2Proof.Proofs

/-! SUPPORT. What every instruction and event, every issue and every step preserve (R9, R56, R57, R93). -/

namespace Sys2Proof.Proofs

open Sys2Proof Sys2Proof.Machine Sys2Proof.Claims Sys2Proof.Laws

theorem pcount_keeps (o : POp) (s : State) : OutcomeKeeps s (execPcount o s) := by
  refine issue_outcome fun s c => ?_
  exact modWarp_keeps _ _ _

theorem runShuf_keeps (i : Instr) (o : VOp) (h : Fin 32 → Word → Nat) (s : State) : OutcomeKeeps s (runShuf i o h s) := runX_keeps _ _ _ _

theorem runCombine_keeps (i : Instr) (o : VOp) (op : RedOp) (excl all : Bool) (s : State) : OutcomeKeeps s (runCombine i o op excl all s) :=
  runX_keeps _ _ _ _

theorem runSInt_keeps (i : Instr) (fn : IntFn) (o : SOp) (s : State) : OutcomeKeeps s (runSInt i fn o s) := runS_keeps _ _ _ _

/-- One line for each lemma about instructions of one kind, in the order of the instructions. -/
theorem exec_retains (i : Instr) (s : State) : OutcomeRetains s (exec i s) := by
  unfold exec
  cases i with
  | powerOn => exact powerOn_retains _ _ _
  | resetRequest => exact resetRequest_retains _ _ _ _
  | startTimeout => exact (startTimeout_keeps _ _).retains
  | correctedError => exact (correctedError_keeps _ _ _ _).retains
  | uncorrectableError => exact (uncorrectableError_keeps _ _ _ _).retains
  | patrolScrub => exact (patrolScrub_keeps _ _ _ _ _).retains
  | powerBudgetWindow => exact (powerBudgetWindow_keeps _ _ _ _).retains
  | overshootLimit | junctionOver100 => exact (clocksLowered_keeps _ _ _).retains
  | hbmOver85 => exact (hbmOver85_keeps _ _ _).retains
  | hbmOver95 => exact (hbmOver95_keeps _ _ _ _).retains
  | coresOfflineRequest => exact (coresOfflineRequest_keeps _ _).retains
  | dieOfflineRequest => exact (dieOfflineRequest_keeps _ _).retains
  | bringUpRequest => exact (bringUpRequest_keeps _ _ _).retains
  | onlineRequest => exact (onlineRequest_keeps _ _).retains
  | bridgePacket => exact (bridgePacket_keeps _ _).retains
  | bridgeAcknowledge => exact (bridgeAcknowledge_keeps _ _ _).retains
  | bridgeFlitError => exact (bridgeFlitError_keeps _ _).retains
  | bridgeRetrain => exact (bridgeRetrain_keeps _ _).retains
  | bridgeLaneFailure => exact (bridgeLaneFailure_keeps _ _ _ _).retains
  | ualinkLaneFailure => exact (ualinkLaneFailure_keeps _ _ _ _).retains
  | domainRequestReceived => exact (domainRequestReceived_keeps _ _ _ _).retains
  | relayForward => exact (relayForward_keeps _ _).retains
  | domainCompletion => exact (domainCompletion_keeps _ _ _ _).retains
  | systemCompletion => exact (systemCompletion_keeps _ _ _ _).retains
  | inboundHostWrite => exact (inboundHostWrite_keeps _ _ _).retains
  | inboundHostRead => exact (inboundHostRead_keeps _ _ _).retains
  | partitionEntryWrite => exact partitionEntryWrite_retains _ _ _ _
  | contextEntryWrite => exact (contextEntryWrite_keeps _ _ _ _).retains
  | contextCreate => exact (fromHost_outcome (k := fun s => doCreate s _) (doCreate_keeps s _)).retains
  | contextHalt => exact (fromHost_outcome (k := fun s => doHalt s _) (doHalt_keeps s _)).retains
  | contextResume => exact (fromHost_outcome (k := fun s => doResume s _) (doResume_keeps s _)).retains
  | contextExport => exact (fromHost_outcome (k := fun s => doExport s _) (doExport_keeps s _)).retains
  | contextImport => exact (fromHost_outcome (k := fun s => doImport s _) (doImport_keeps s _)).retains
  | contextDestroy => exact (fromHost_outcome (k := fun s => doDestroy s _) (doDestroy_keeps s _)).retains
  | contextCancelJob => exact (fromHost_outcome (k := fun s => doCancelJob s _) (doCancelJob_keeps s _)).retains
  | startArgWrite => exact (startArgWrite_keeps _ _ _ _ _).retains
  | identityRegisterWrite => exact (identityRegisterWrite_keeps _ _ _).retains
  | fbaseWrite => exact (fbaseWrite_keeps _ _ _).retains
  | fretWrite => exact (fretWrite_keeps _ _ _).retains
  | registerWrite => exact registerWrite_retains _ _ _ _
  | jobWarpStart => exact (jobWarpStart_keeps _ _).retains
  | faultServiceStart => exact (faultServiceStart_keeps _ _).retains
  | unitDispatch => exact (unitDispatch_keeps _ _).retains
  | dispatchReservation => exact (dispatchReservation_keeps _ _).retains
  | unitRetire => exact (unitRetire_keeps _ _).retains
  | carveComplete => exact (carveComplete_keeps _ _).retains
  | overdueSplit => exact (overdueSplit_keeps _ _ _).retains
  | safePointDrought => exact (safePointDrought_keeps _ _ _).retains
  | coreSwapStart => exact (coreSwapStart_keeps _ _ _).retains
  | coreSwapDone => exact (coreSwapDone_keeps _ _ _).retains
  | unitRestore => exact (unitRestore_keeps _ _).retains
  | pageWalk => exact (pageWalk_keeps _ _ _).retains
  | tlbinvComplete => exact (tlbinvComplete_keeps _ _).retains
  | loadDataReturn => exact (loadDataReturn_keeps _ _).retains
  | chainBufferFill => exact (chainBufferFill_keeps _ _ _ _ _).retains
  | mailboxFill => exact (mailboxFill_keeps _ _ _ _).retains
  | waitvReread => exact (waitvReread_keeps _ _ _).retains
  | copyElement => exact (copyElement_keeps _ _).retains
  | dirtyclrWord => exact (dirtyclrWord_keeps _ _).retains
  | mldwRowWrite => exact (mldwRowWrite_keeps _ _).retains
  | vadd | vsub | vmul | vmulh | vmulw | vmad | vabs | vneg | vmin | vmax | vavg | vsad | vdot4 | vand | vor | vxor | vnot | vbool |
      vshl | vshr | vsra | vrot | vbfe | vbfi | vpopc | vclz | vctz | vbrev | vsel | vmov | vpack | vunpkLo | vunpkHi | vfadd | vfsub |
      vfmul | vfma | vfmin | vfmax | vfabs | vfneg | vfsgn | vfrnd | vfclass | vfdot2 | vrcp | vrsq | vsqrt | vexp2 | vlog2 | vsinpi |
      vcospi | vtanh | vcmp | vcvt | vcvtMx | vcvtTomx =>
    exact (runV_keeps _ _ _ _).retains
  | vscaleMx => exact (vscaleMx_keeps _ _ _).retains
  | shuf | shufRot | shufBfly | shufMirror => exact (runShuf_keeps _ _ _ _).retains
  | shufBcast | vpermSub | xsel | matchv => exact (runX_keeps _ _ _ _).retains
  | vscan | vred => exact (runCombine_keeps _ _ _ _ _ _).retains
  | pand | por | pxor | pnot | pmov | voteAny | voteAll | voteSame => exact (runP_keeps _ _ _ _).retains
  | ballot | pfirst | srd | srdFlags | srdFlagsClr | sysrd => exact (warpWrite_keeps _).retains
  | pcount => exact (pcount_keeps _ _).retains
  | xbegin => exact (xbegin_keeps _ _ _ _ _ _ _).retains
  | xnext => exact (xnext_keeps _ _ _ _).retains
  | xred => exact (xred_keeps _ _ _ _ _ _ _ _ _ _).retains
  | xsync => exact (xsync_keeps _ _).retains
  | xend => exact (xend_keeps _ _).retains
  | xquery => exact (xquery_keeps _ _ _ _ _).retains
  | sadd | ssub | smul | smulh | smin | smax | sand | sor | sxor | snot | sshl | sshr | ssra | spopc | sclz | sctz =>
    exact (runSInt_keeps _ _ _ _).retains
  | sbfe | sbfi | smov | ssel | scmp => exact (runS_keeps _ _ _ _).retains
  | vtos => exact (vtos_keeps _ _ _ _ _ _).retains
  | cdef => exact (cdef_keeps _ _ _ _ _).retains
  | cdrop => exact (cdrop_keeps _ _ _).retains
  | cquery => exact (cquery_keeps _ _ _ _ _).retains
  | hwait => exact (hwait_keeps _ _ _).retains
  | htest => exact (htest_keeps _ _ _ _).retains
  | hcancel => exact (hcancel_keeps _ _ _).retains
  | hmovToHandle => exact (hmovToHandle_keeps _ _ _ _ _).retains
  | hmovFromHandle => exact (hmovFromHandle_keeps _ _ _ _).retains
  | hwaitany => exact (hwaitany_keeps _ _ _ _ _).retains
  | ld | ldAcq => exact (issue_outcome (loadEffect_keeps _ _)).retains
  | ldSp => exact (loadScratch_keeps _ _).retains
  | ldS => exact (loadScalar_keeps _ _).retains
  | st | stRel => exact (issue_outcome (storeEffect_keeps _ _)).retains
  | stSp => exact (storeScratch_keeps _ _).retains
  | atom => exact (atom_keeps _ _ _).retains
  | red => exact (red_keeps _ _ _).retains
  | atomSp => exact (atomScratch_keeps _ _ _).retains
  | fence => exact (fence_keeps _ _ _ _).retains
  | prefetch => exact (prefetch_keeps _ _).retains
  | waitv => exact (waitv_keeps _ _).retains
  | l1flush => exact (l1flush_keeps _ _).retains
  | l1flushInv => exact (l1flushInv_keeps _ _).retains
  | bra => exact (bra_keeps _ _ _).retains
  | brd => exact (brd_keeps _ _ _ _).retains
  | jmpv => exact (jmpv_keeps _ _ _ _).retains
  | call => exact (call_keeps _ _ _).retains
  | callv => exact (callv_keeps _ _ _).retains
  | ret => exact (ret_keeps _ _).retains
  | exit => exact (exit_keeps _ _).retains
  | safept => exact (safept_keeps _ _).retains
  | nop => exact (nop_keeps _ _).retains
  | bar => exact (bar_keeps _ _ _).retains
  | barArv => exact (barArv_keeps _ _ _).retains
  | barWt => exact (barWt_keeps _ _ _).retains
  | cpy | cpy2d | cpyGth | cpySct | cpyRed | cpyFill | cpyCvt => exact (issueWarp_outcome fun _ _ => issueCopy_keeps _ _ _ _).retains
  | mcfg => exact (mcfg_keeps _ _).retains
  | mldw | mldwNorm | mma | mzero | mst | mmovToTile | mtopk | mdist => exact (issueWarp_outcome fun _ _ => enqueue_keeps _ _ _ _ _ _).retains
  | mmovFromTile => exact (mmovFromTile_keeps _ _ _ _ _).retains
  | mbound => exact (mbound_keeps _ _ _).retains
  | mcount => exact (mcount_keeps _ _ _).retains
  | launch => exact (launch_keeps _ _ _ _).retains
  | evwait => exact (evwait_keeps _ _).retains
  | evset => exact (evset_keeps _ _).retains
  | evclr => exact (evclr_keeps _ _).retains
  | cancelLaunch => exact (cancelLaunchForm_keeps _ _ _).retains
  | cancelGraph => exact (cancelGraph_keeps _ _ _).retains
  | cancelPhase => exact (cancelPhase_keeps _ _ _).retains
  | cancelJob => exact (cancelJob_keeps _ _).retains
  | cntrd => exact (cntrd_keeps _ _ _).retains
  | jobend => exact (jobend_keeps _ _).retains
  | trap => exact (trap_keeps _ _ _ _).retains
  | syswr => exact (syswr_keeps _ _ _ _ _).retains
  | tlbinv => exact (tlbinv_keeps _ _ _ _ _ _).retains
  | ptwr => exact (ptwr_keeps _ _ _ _ _ _).retains
  | carve => exact (carve_keeps _ _ _ _ _ _).retains
  | dirtyclr => exact (dirtyclr_keeps _ _ _ _ _ _ _).retains
  | handlerRestart => exact (handlerRestart_keeps _ _ _).retains
  | spdmRequest => exact (spdmRequest_keeps _).retains
  | thermalTrip => exact thermalTrip_retains _
  | bridgeDown => exact (bridgeDown_keeps _).retains
  | hostLinkDown => exact (hostLinkDown_keeps _).retains
  | hostLinkUp => exact (hostLinkUp_keeps _).retains
  | domainCompletionTimeout => exact (domainCompletionTimeout_keeps _).retains
  | systemReadTimeout => exact (systemReadTimeout_keeps _).retains
  | sfuResult | vtosResult | chainResultWrite => exact (resultReturn_keeps _ _).retains
  | mcountResult => exact (mcountResult_keeps _).retains
  | matrixOpStart => exact (matrixOpStart_keeps _).retains
  | matrixOpComplete => exact (matrixOpComplete_keeps _).retains
  | allon => exact (allon_keeps _).retains
  | alloff => exact (alloff_keeps _).retains
  | phase => exact (phase_keeps _).retains
  | rett => exact (rett_keeps _).retains
  | fltnext => exact (fltnext_keeps _).retains
  | halt => exact (halt_keeps _).retains

/-! ### The choice of a step (R9, R93-R95) -/

theorem afterIssue_keeps (w : Nat) (sp : Fin 8) (s : State) : Keeps s (afterIssue w sp s) :=
  keeps_ite (keeps_ite (.refl s) (dropFetch_keeps _ _ _)) (.refl s)

theorem mapNext_retains {s : State} {o : Host.Outcome State Fault Refusal} {f : State → State} (h : OutcomeRetains s o)
    (g : ∀ t, Keeps t (f t)) : OutcomeRetains s (mapNext o f) := by
  cases o with
  | next t => exact outcomeRetains_next ((h t rfl).trans (keeps_retains (g t)))
  | fault r => exact fun t e => nomatch (e : Host.Outcome.fault r = .next t)
  | refused r => exact fun t e => nomatch (e : Host.Outcome.refused r = .next t)

theorem setFails_keeps (s : State) (k : Fin 384) (fs : List WalkFail) : Keeps s (setFails s k fs) := keeps_ite (.refl s) (modCore_keeps _ _ _)

theorem touchFetch_keeps (s t : State) (w : Warp) (pc : Word) (len : Nat) : Keeps t (touchFetch s t w pc len) := by
  unfold touchFetch
  extract_lets one u
  have read : ∀ t a, Keeps t (one t a) := fun t a => by
    dsimp only [one]
    split
    · split
      · exact touchBytes_keeps _ _ _ _ _ _ _
      · exact .refl t
    · exact .refl t
  exact (read t pc).trans (keeps_ite (read _ _) (.refl _))

theorem afterTry_keeps (s : State) (x : Warp) (sp : Fin 8) (pc : Word) (len : Nat) (t : State) : Keeps t (afterTry s x sp pc len t) := by
  unfold afterTry
  extract_lets u
  have hu : Keeps t u := keeps_last (setFails_keeps _ _ _) (afterIssue_keeps _ _ _)
  exact hu.trans (keeps_ite (.refl u) (touchFetch_keeps _ _ _ _ _))

theorem runSplit_retains (w : Nat) (sp : Fin 8) (s : State) : OutcomeRetains s (runSplit w sp s) := by
  have idle : Retains s { s with turn := none } := keeps_retains (.same rfl rfl)
  unfold runSplit
  generalize ({ s with turn := none } : State) = t at idle ⊢
  dsimp only
  split
  · exact outcomeRetains_next idle
  · split
    · exact outcomeRetains_next idle
    · rename_i x _ _ y _
      have set : Retains s (setFails t x.core y.fails) := idle.trans (keeps_retains (setFails_keeps _ _ _))
      generalize setFails t x.core y.fails = u at set ⊢
      split
      · rename_i i _
        have turned : Retains s { u with turn := some (.issue w sp) } := set.trans (keeps_retains (.same rfl rfl))
        exact mapNext_retains (fun v e => turned.trans (exec_retains i _ v e)) fun v => afterTry_keeps _ _ _ _ _ v
      · refine outcomeRetains_next (set.trans (keeps_retains ?_))
        exact keeps_last (afterTry_keeps _ _ _ _ _ _) (keeps_last (dropFetch_keeps _ _ _) (conclude_keeps trivial))
      · exact outcomeRetains_next (set.trans (keeps_retains (keeps_last (setFails_keeps _ _ _) (fetchStop_keeps _ _ _))))

theorem attempt_retains {s : State} {w : Warp} {sp : Fin 8} {x : Split} {a : Try} (h : attempt s w sp x = some a) : Retains s a.after := by
  unfold attempt at h
  split at h
  · rename_i t e
    cases h
    exact runSplit_retains w.id sp s t e
  · cases h

theorem attempts_retains {s : State} {a : Try} (h : a ∈ attempts s) : Retains s a.after := by
  obtain ⟨w, _, hw⟩ := List.mem_flatMap.mp h
  split at hw
  · obtain ⟨y, _, hy⟩ := List.mem_filterMap.mp hw
    split at hy
    · exact attempt_retains hy
    · cases hy
  · cases hw

theorem inboxLeft_keeps (s : State) (es : List Instr) : Keeps s { s with inbox := es } := .same rfl rfl

theorem takeInput_retains {s t : State} {pre es : List Instr} (h : takeInput s pre es = some t) : Retains s t := by
  induction es generalizing pre with
  | nil => cases h
  | cons e r ih =>
    unfold takeInput at h
    split at h
    · exact ih h
    · split at h
      · rename_i u hu
        split at h
        · exact ih h
        · cases h
          exact retains_last (exec_retains e _ _ hu) (keeps_retains (inboxLeft_keeps s _))
      · cases h

theorem cycleOver_keeps (s : State) (now : Nat) (ws : List Warp) : Keeps s { s with now := now, warps := ws } := .same rfl rfl

theorem tick_keeps (s : State) (xs : List Try) : Keeps s (tick s xs) := by
  unfold tick
  extract_lets warps
  clear_value warps
  refine keeps_last (countFirst_keeps _) (keeps_last (endCancels_keeps _) (keeps_last (finishAll_keeps _) (keeps_last (closeOn_keeps _ _) ?_)))
  exact keeps_last (recallDue_keeps _) (cycleOver_keeps _ _ _)

/-- An event of the next step, where it changes the state. -/
theorem eventSteps_retains {s t : State} {es : List Instr}
    (h : t ∈ es.filterMap fun e => match exec e s with | .next t => if t = s then none else some t | _ => none) : Retains s t := by
  obtain ⟨e, _, he⟩ := List.mem_filterMap.mp h
  split at he
  · rename_i u hu
    split at he
    · cases he
    · cases he
      exact exec_retains e s t hu
  · cases he

theorem possibleSteps_retains {s t : State} (h : t ∈ possibleSteps s (attempts s)) : Retains s t := by
  unfold possibleSteps at h
  dsimp only at h
  split at h
  · simp only [List.mem_append] at h
    obtain ((tried | free) | input) | next := h
    · obtain ⟨a, ha, rfl⟩ := List.mem_map.mp tried
      exact attempts_retains (List.mem_of_mem_filter ha)
    · exact eventSteps_retains free
    · exact takeInput_retains (Option.mem_toList.mp input)
    · split at next
      · cases next
      · rw [List.mem_singleton.mp next]
        exact keeps_retains (tick_keeps _ _)
  · exact eventSteps_retains h

theorem choiceMade_keeps (s : State) (n : Nat) : Keeps s { s with choices := n } := .same rfl rfl

/-- The entry at a place of a list, or its first one, is of the list. -/
theorem getD_mem_cons {α : Type} (t : α) (ts : List α) (n : Nat) : (t :: ts).getD n t ∈ t :: ts := by
  rw [List.getD_eq_getElem?_getD]
  cases h : (t :: ts)[n]? with
  | none => exact List.mem_cons_self
  | some u => exact List.mem_of_getElem? h

theorem nextStep_retains (s : State) : Retains s (nextStep s) := by
  unfold nextStep
  dsimp only
  split
  · exact keeps_retains (tick_keeps _ _)
  · rename_i t e
    exact possibleSteps_retains (e ▸ List.mem_singleton_self t)
  · rename_i t ts _ e
    refine retains_last (keeps_retains (choiceMade_keeps _ _)) (possibleSteps_retains ?_)
    rw [e]
    exact getD_mem_cons _ _ _

theorem step_retains (s : State) : OutcomeRetains s (step s) := by
  unfold step
  split
  · exact runSplit_retains _ _ _
  · exact fun t e => retains_last (exec_retains _ _ t e) (keeps_retains (.same rfl rfl))
  · exact outcomeRetains_next (nextStep_retains s)

/-- Settles O59: each instruction and event either leaves the partition table and writes memory in its canonical form, or stops the package, or
writes one entry after the checks of R57; a step is one of them, or a choice among them. -/
theorem stepKeepsMemoryAndPartitions : Obligations.StepKeepsMemoryAndPartitions := by
  intro s t mem parts e
  have kept := step_retains s t e
  exact ⟨kept.mem mem, kept.parts parts⟩

end Sys2Proof.Proofs

/-! SUPPORT. The reads of warp state (R62, R72, R114, R290, R291): what `srd`, `srd.flags` and `vtos` write, and the special values. -/

namespace Sys2Proof.Proofs

open Sys2Proof Sys2Proof.Machine Sys2Proof.Claims Sys2Proof.Laws

/-! ### One warp for each number that goes on (R117)

A warp that goes on is settled, and its settled form stands for its number: two changes of a warp that agree on the warp that is found come to the same. -/

theorem modWarp_modWarp (s : State) (k : Nat) (f g : Warp → Warp) (hf : ∀ y, (f y).id = y.id) :
    modWarp (modWarp s k f) k g = modWarp s k (g ∘ f) := by
  unfold modWarp
  simp only [List.map_map]
  refine congrArg (fun ws => { s with warps := ws }) (List.map_congr_left fun y _ => ?_)
  by_cases h : (y.id == k) = true
  · have h' : ((f y).id == k) = true := by rw [hf, h]
    simp only [Function.comp_apply, h, h', if_true]
  · simp only [Function.comp_apply, h, if_false, Bool.false_eq_true]

theorem modWarp_none {s : State} {k : Nat} (h : findWarp s k = none) (f : Warp → Warp) : modWarp s k f = s := by
  have away : ∀ y ∈ s.warps, (if (y.id == k) = true then f y else y) = y := fun y hy => if_neg (List.find?_eq_none.mp h y hy)
  unfold modWarp
  rw [List.map_congr_left away, List.map_id']

theorem settle_congr {s : State} {k : Nat} {f g : Warp → Warp} (hf : ∀ y, (f y).id = y.id) (hg : ∀ y, (g y).id = y.id)
    (same : ∀ y, findWarp s k = some y → f y = g y) : settle (modWarp s k f) k = settle (modWarp s k g) k := by
  cases h : findWarp s k with
  | none => rw [modWarp_none h, modWarp_none h]
  | some y =>
    have found : ∀ e : Warp → Warp, (∀ y, (e y).id = y.id) → findWarp (modWarp s k e) k = some (e y) := fun e he => by
      rw [findWarp_modWarp s k e he, h]
      rfl
    unfold settle
    rw [found f hf, found g hg, same y h]
    dsimp only
    rw [modWarp_modWarp s k f _ hf, modWarp_modWarp s k g _ hg]
    rfl

theorem thenNext_congr {t : State} {i : Instr} {w : Warp} {sp : Fin 8} {x : Split} {f g : Warp → Warp} (hf : ∀ y, (f y).id = y.id)
    (hg : ∀ y, (g y).id = y.id) (same : ∀ y, findWarp t w.id = some y → f y = g y) :
    thenNext (modWarp t w.id f) i w sp x = thenNext (modWarp t w.id g) i w sp x := by
  unfold thenNext goOn
  rw [modWarp_modWarp _ _ _ _ hf, modWarp_modWarp _ _ _ _ hg]
  exact settle_congr (fun y => (modSplit_id _ _ _).trans (hf y)) (fun y => (modSplit_id _ _ _).trans (hg y))
    fun y hy => by rw [Function.comp_apply, Function.comp_apply, same y hy]

theorem modSplit_flags (y : Warp) (k : Fin 8) (f : Split → Split) : (modSplit y k f).flags = y.flags := by
  unfold modSplit
  split <;> rfl

section

variable {i : Instr} {s : State} {w : Warp} {sp : Fin 8} {x : Split}

/-- The warp of an issue that is counted has the flags that it had. -/
theorem findWarp_counted_flags (h : AtIssue s w sp x) {y : Warp} (hy : findWarp (counted s w sp) w.id = some y) : y.flags = w.flags := by
  have found : findWarp (counted s w sp) w.id = (findWarp s w.id).map _ := findWarp_modWarp _ _ _ fun y => modSplit_id _ _ _
  rw [h.warp, hy] at found
  rw [Option.some.inj found]
  exact modSplit_flags _ _ _

/-- What a special value reads is not changed by the count of an issue (R114). -/
theorem warpVal_counted (s : State) (w : Warp) (sp : Fin 8) (c : Iss) (k : Fin 17) : warpVal (counted s w sp) c k = warpVal s c k :=
  ssrcVal_counted s w sp c 0 (.warp k)

end

/-- The flags that remain where six bits of a value name those to clear. -/
theorem getLsbD_clearFlags (f : BitVec 16) (v : Word) (j : Nat) :
    (f &&& ~~~BitVec.ofNat 16 (bitsOf v 0 6)).getLsbD j = (f.getLsbD j && !(decide (j < 6) && v.getLsbD j)) := by
  by_cases h : j < 16
  · have named : (BitVec.ofNat 16 (bitsOf v 0 6)).getLsbD j = (decide (j < 6) && v.getLsbD j) := by
      rw [BitVec.getLsbD_ofNat, decide_eq_true h, Bool.true_and, bitsOf, Nat.testBit_mod_two_pow, Nat.shiftRight_zero]
      rfl
    rw [BitVec.getLsbD_and, BitVec.getLsbD_not, named, decide_eq_true h, Bool.true_and]
  · have high : f.getLsbD j = false := BitVec.getLsbD_of_ge _ _ (by omega)
    rw [BitVec.getLsbD_and, high, Bool.false_and, Bool.false_and]

theorem stateReads : Claims.StateReads := by
  intro g d s w sp x
  refine ⟨fun k h => ?_, fun h => ?_, fun b w1 h => ?_, fun va b w1 h => ?_⟩
  · refine issueWarp_writesOnce h (show exec (.srd g d k) s = execSrd g d k s from rfl) ?_
    rw [warpVal_counted]
    rfl
  · exact issueWarp_writesOnce h (show exec (.srdFlags g d) s = execSrdFlags g d s from rfl) rfl
  · let i := Instr.srdFlagsClr g d b w1
    let left := w.flags &&& ~~~BitVec.ofNat 16 (bitsOf (readS i s w sp x w1 b) 0 6)
    refine ⟨left, ?_, getLsbD_clearFlags _ _⟩
    have run : WritesOnce i s w sp x fun y => { setS y d (y.flags.setWidth 64) with
        flags := y.flags &&& ~~~BitVec.ofNat 16 (bitsOf (readS i s w sp x w1 b) 0 6) } :=
      issueWarp_writesOnce h (show exec i s = execSrdFlagsClr g d b w1 s from rfl) (by rw [ssrcVal_counted]; rfl)
    unfold WritesOnce RunsTo at run ⊢
    by_cases ha : activeOf i w x = 0
    · rw [if_pos ha] at run ⊢
      exact run
    · rw [if_neg ha] at run ⊢
      refine run.trans (congrArg Host.Outcome.next (thenNext_congr (fun y => setS_id _ _ _) (fun y => setS_id _ _ _) fun y hy => ?_))
      rw [findWarp_counted_flags h.toAtIssue hy]
  · intro i lane
    have eq : exec i s = execVtos g d va b w1 s := rfl
    unfold RunsTo
    by_cases ha : activeOf i w x = 0
    · rw [if_pos ha]
      exact eq.trans (issueWarp_idle h _ ha)
    · rw [if_neg ha]
      refine eq.trans (issueWarp_next h ha ?_)
      rw [ssrcVal_counted]
      rfl

/-! ### Special values (R62, R72, R114) -/

section

variable {s : State} {w : Warp}

theorem unitOf_dispatch (h : onDispatch w = true) : unitOf s w = none := by
  unfold onDispatch at h
  unfold unitOf
  cases e : w.kind with
  | unit u =>
    rw [e] at h
    cases h
  | job => rfl
  | service d r => rfl

theorem validSplits_length (w : Warp) : (validSplits w).length = ((List.finRange 8).filter fun k => w.splits[k].isSome).length := by
  unfold validSplits
  rw [List.length_filterMap_eq_countP, ← List.countP_eq_length_filter]
  exact List.countP_congr fun k _ => by rw [Option.isSome_map]

theorem isJob_not_service (h : isService w = true) : isJob w = false := by
  unfold isService at h
  unfold isJob
  split at h
  · rename_i e
    rw [e]
  · cases h

theorem clockOf_halt {c : Fin 64} (h : s.ctxs[c].st ∈ [CState.halting, .halted]) : clockOf s c = s.ctxs[c].clock := by
  refine if_pos ?_
  simpa using h

theorem clockOf_runs {c : Fin 64} (h : s.ctxs[c].st ∉ [CState.halting, .halted]) :
    clockOf s c = s.ctxs[c].clock + Config.elapsed s.ctxs[c].clockAt s.now := by
  refine if_neg ?_
  simpa using h

/-- The lanes below, up to and above a lane, as the special values give them. -/
theorem laneMasks (s : State) (w : Warp) (l : Fin 32) {j : Nat} (hj : j < 64) :
    (laneVal s w 5 l).getLsbD j = decide (j < l.val) ∧ (laneVal s w 6 l).getLsbD j = decide (j ≤ l.val) ∧
      (laneVal s w 7 l).getLsbD j = (decide (l.val < j) && decide (j < 32)) := by
  have low : ∀ k, (BitVec.ofNat 64 (2 ^ k - 1)).getLsbD j = decide (j < k) := fun k => by
    rw [BitVec.getLsbD_ofNat, decide_eq_true hj, Bool.true_and, Nat.testBit_two_pow_sub_one]
  refine ⟨low _, (low _).trans (decide_eq_decide.mpr Nat.lt_succ_iff), ?_⟩
  have above : (2 : Nat) ^ 32 - 2 ^ (l.val + 1) = 2 ^ (l.val + 1) * (2 ^ (31 - l.val) - 1) := by
    rw [Nat.mul_sub, ← pow_add, Nat.mul_one]
    congr 2
    omega
  show (BitVec.ofNat 64 (2 ^ 32 - 2 ^ (l.val + 1))).getLsbD j = _
  rw [above, BitVec.getLsbD_ofNat, decide_eq_true hj, Bool.true_and, Nat.testBit_two_pow_mul, Nat.testBit_two_pow_sub_one]
  grind

end

theorem specialValues : Claims.SpecialValues := by
  intro i s w sp x n v
  have wide {k : Nat} (y : BitVec k) : n y.toNat = y.setWidth 64 := BitVec.ofNat_toNat 64 y
  refine ⟨fun u la hu hl => ?_, fun h => ?_, wide _, fun h => congrArg n (clockOf_halt h), fun h => congrArg n (clockOf_runs h), rfl,
    wide _, wide _, wide _, rfl, congrArg n (validSplits_length w), rfl, rfl, fun l => ⟨rfl, rfl, fun j hj => laneMasks s w l hj⟩⟩
  · have id : u.launch = la.id := 
      (beq_iff_eq.mp (List.find?_some (p := fun y : Launch => y.id == u.launch) hl)).symm
    have index : unitIndexOf s w = u.index := by rw [unitIndexOf, hu]
    have launch : launchIdOf s w = la.id := by rw [launchIdOf, hu, ← id]
    have item : ∀ k, itemOf s w k = (u.index * la.r.wpu + w.rank) * 32 + k := fun k => by
      simp only [itemOf, hu, hl]
    refine ⟨rfl, congrArg n index, congrArg n launch, congrArg n (item 0), ?items, ?args, ?wpu,
      fun l => ⟨congrArg n (item l.val), congrArg n index, congrArg n launch⟩⟩
    case items => simp [v, n, warpVal, issOf, hu, hl]
    case args => simp [v, warpVal, issOf, hu, hl]
    case wpu => simp [v, n, warpVal, issOf, hu, hl]
  · have none := unitOf_dispatch (s := s) h
    have item : ∀ k, itemOf s w k = k := fun k => by rw [itemOf, none]
    have index : unitIndexOf s w = 0 := by rw [unitIndexOf, none]
    have launch : launchIdOf s w = 0 := by rw [launchIdOf, none]
    refine ⟨congrArg n index, congrArg n launch, congrArg n (item 0), ?items, ?wpu, fun job => ?jobArg, fun service => ?serviceArg,
      fun l => ⟨congrArg n (item l.val), congrArg n index, congrArg n launch⟩⟩
    case items => simp [v, warpVal, issOf, none]
    case wpu => simp [v, warpVal, issOf, none]
    case jobArg => simp [v, warpVal, issOf, none, job]
    case serviceArg => simp [v, warpVal, issOf, none, isJob_not_service service]

/-- Settles O3: the forms write once for the warp, and a special value is read off its definition. -/
theorem warpStateReads : Obligations.WarpStateReads := ⟨stateReads, specialValues⟩

end Sys2Proof.Proofs

/-! SUPPORT. Faults that end their contexts (R60, R63, R245, R246, R250): what the end of a context leaves, and the record that comes before it. -/

namespace Sys2Proof.Proofs

open Sys2Proof Sys2Proof.Machine Sys2Proof.Claims Sys2Proof.Laws

/-! ### Records in their slots -/

/-- The records in the fault buffers stay as they are. -/
def SameSlots (s t : State) : Prop := ∀ d : Fin 2, t.dies[d].slots = s.dies[d].slots

theorem SameSlots.trans {s t u : State} (h : SameSlots s t) (g : SameSlots t u) : SameSlots s u := fun d => (g d).trans (h d)

theorem SameSlots.of_dies {s t : State} (h : t.dies = s.dies) : SameSlots s t := fun d => by rw [h]

theorem modDie_sameSlots {s : State} {d : Fin 2} {f : Die → Die} (h : ∀ x, (f x).slots = x.slots) : SameSlots s (modDie s d f) := fun e => by
  by_cases he : e = d
  · subst he; rw [modDie_same, h]
  · rw [modDie_other _ _ _ _ he]

theorem setHealth_sameSlots {s : State} {d : Fin 2} {f : Die → Die} (h : ∀ x, (f x).slots = x.slots) : SameSlots s (setHealth s d f) := fun e => by
  by_cases he : e = d
  · subst he; rw [setHealth_same]; exact h _
  · rw [setHealth_other _ _ _ _ he]

theorem retirePending_sameSlots (s : State) : SameSlots s (retirePending s) := by
  unfold retirePending
  generalize List.finRange 2 = ds
  induction ds generalizing s with
  | nil => exact fun _ => rfl
  | cons d r ih =>
    refine SameSlots.trans ?_ (ih _)
    dsimp only
    split
    · exact fun _ => rfl
    · split
      · exact fun _ => rfl
      · exact setHealth_sameSlots fun _ => rfl

theorem dropAll_sameSlots (s : State) (c : Fin 64) : SameSlots s (dropAll s c) := by
  let forget := fun (x : Die) => { x with engFails := x.engFails.filter fun f => f.2.ctx != c }
  have near : SameSlots s (modDie s 0 forget) := modDie_sameSlots fun _ => rfl
  have far : SameSlots (modDie s 0 forget) (modDie (modDie s 0 forget) 1 forget) := modDie_sameSlots fun _ => rfl
  exact near.trans far

/-! ### The end of a context (R60, R63, R245) -/

/-- A context that a fault ends: one that runs, halts or is halted (R60). -/
abbrev Ends (s : State) (c : Fin 64) : Prop := s.ctxs[c].st = .running ∨ s.ctxs[c].st = .halting ∨ s.ctxs[c].st = .halted

/-- A context as its end by a fault leaves it. -/
def endedCtx (y : Ctx) : Ctx :=
  { y with
    st := .ended, held := none, jobWait := false, resvUnit := none, resvCore := [], await := [], jobEnd := y.jobEnd.filter (· == 3)
    handles := y.handles.map fun e => { e with st := .free } }

/-- The state in which a context has ended, before the host hears of it. -/
def endMarked (s : State) (c : Fin 64) : State := modCtx (dropAll s c) c endedCtx

/-- The end of a context marks it, and tells the host. -/
theorem endContext_tells {s : State} {c : Fin 64} {cause : Nat} (h : Ends s c) :
    HealthStep (complete (endMarked s c) c 2 cause) (endContext s c cause) ∧ SameSlots (endMarked s c) (endContext s c cause) := by
  let u := complete (endMarked s c) c 2 cause
  let v := if s.ctxs[c].st == .halting then toHostFrom u (homeDie u c) (.msix 0 62) else u
  have run : endContext s c cause = retirePending v := if_pos (by obtain h | h | h := h <;> rw [h] <;> rfl)
  have ended : SameSlots (endMarked s c) u := .of_dies (sendWord_dies _ _ _)
  have told : HealthStep u v ∧ SameSlots u v := by
    dsimp only [v]
    split
    · exact ⟨toHostFrom_health _ _ _, .of_dies (toHostFrom_dies _ _ _)⟩
    · exact ⟨.refl u, fun _ => rfl⟩
  rw [run]
  exact ⟨told.1.trans (retirePending_quiet v).1, ended.trans (told.2.trans (retirePending_sameSlots v))⟩

/-- What is not of the dies, the bridge and the host port is as the mark of the end leaves it. -/
theorem endContext_health {s : State} {c : Fin 64} {cause : Nat} (h : Ends s c) : HealthStep (endMarked s c) (endContext s c cause) :=
  (sendWord_quiet _ _ _).1.trans (endContext_tells h).1

theorem endMarked_ctx (s : State) (c : Fin 64) : (endMarked s c).ctxs[c] = endedCtx s.ctxs[c] := modCtx_same (dropAll s c) c endedCtx

theorem endMarked_other (s : State) {c k : Fin 64} (h : k ≠ c) : (endMarked s c).ctxs[k] = s.ctxs[k] := modCtx_other (dropAll s c) c k endedCtx h

theorem endMarked_sameSlots (s : State) (c : Fin 64) : SameSlots s (endMarked s c) := dropAll_sameSlots s c

/-- The end of a context keeps the records in the fault buffers. -/
theorem endContext_sameSlots (s : State) (c : Fin 64) (cause : Nat) : SameSlots s (endContext s c cause) := by
  by_cases h : Ends s c
  · exact (endMarked_sameSlots s c).trans (endContext_tells h).2
  · have stays : endContext s c cause = s := if_neg fun e => h (by simpa [Ends, or_assoc] using e)
    rw [stays]
    exact fun _ => rfl

theorem endContext_st {s : State} {c : Fin 64} {cause : Nat} (h : Ends s c) : (endContext s c cause).ctxs[c].st = .ended := by
  rw [(endContext_health h).ctxs, endMarked_ctx]
  rfl

/-- Where a context's partition and mode are the same, its function, its home die and its completion word are. -/
theorem endMarked_home (s : State) (c : Fin 64) : homeDie (endMarked s c) c = homeDie s c := by
  unfold homeDie
  rw [endMarked_ctx]
  rfl

theorem endMarked_word (s : State) (c : Fin 64) (code : Nat) : endWord (endMarked s c) c 2 code = endWord s c 2 code := by
  unfold endWord functionOf
  rw [endMarked_ctx]
  rfl

theorem contextEnds : Claims.ContextEnds := by
  intro s c cause h t
  have health := endContext_health (cause := cause) h
  obtain ⟨warps, units, copies, mops⟩ := dropAll_gone s c
  refine ⟨endContext_st h, ?_, fun k hk => ?_, ?_, ?_, ?_, ?_, fun w hw away => ?_, health.mem, fun hears => ?_⟩
  · rw [health.ctxs, endMarked_ctx]
    intro e he
    obtain ⟨y, -, rfl⟩ := List.mem_map.mp he
    rfl
  · rw [health.ctxs, endMarked_other s hk]
  · rw [health.warps]
    exact warps
  · rw [health.units]
    exact units
  · rw [health.copies]
    exact copies
  · rw [health.field State.mops fun _ => rfl]
    exact mops
  · rw [health.warps]
    exact List.mem_filter.mpr ⟨hw, by simpa using away⟩
  · have said : Tells (complete (endMarked s c) c 2 cause) (endWord (endMarked s c) c 2 cause) := complete_tells (by
      rw [endMarked_home]
      exact hears)
    rw [endMarked_word] at said
    exact (endContext_tells h).1.told _ said

/-! ### The last fault of a context (R245, R246, R250) -/

theorem placeRecord_none {s : State} {d : Fin 2} {q : WaitFault} (h : freeSlot s.dies[d].slots Config.faultSlots 0 = none) :
    placeRecord s d q = none := by
  unfold placeRecord
  rw [h]

/-- The record that a fault leaves in its slot. -/
def slotRecord (q : WaitFault) (n : Nat) : SlotRec :=
  { slot := n, ctx := q.ctx, cause := q.cause, va := q.va, route := q.route, words := q.words, splits := [q.split], handle := q.handle, elem := q.elem }

theorem placeRecord_some {s : State} {d : Fin 2} {n : Nat} (q : WaitFault) (h : freeSlot s.dies[d].slots Config.faultSlots 0 = some n) :
    ∃ u, placeRecord s d q = some u ∧ u.ctxs = s.ctxs ∧ slotRecord q n ∈ u.dies[d].slots := by
  let v := modDie (writeRecord s d n q.words) d fun x => { x with slots := slotRecord q n :: x.slots }
  let t := if q.route = 1 then toHostFrom v d (.msix 0 61) else v
  have written : v.ctxs = s.ctxs := (writeRecord_home s d n q.words).field State.ctxs fun _ => rfl
  have listed : slotRecord q n ∈ v.dies[d].slots := by
    rw [modDie_same]
    exact List.mem_cons_self
  have told : t.ctxs = v.ctxs ∧ t.dies = v.dies := by
    dsimp only [t]
    split
    · exact ⟨toHostFrom_ctxs _ _ _, toHostFrom_dies _ _ _⟩
    · exact ⟨rfl, rfl⟩
  have place : placeRecord s d q = if (q.route = 2 && resumable q.cause) = true then
      some { t with starts := t.starts.set d.val (t.starts[d] ++ [.service q.ctx n]) d.isLt } else some t := by
    unfold placeRecord
    rw [h]
    rfl
  obtain ⟨ctxs, dies⟩ := told
  rw [place]
  split
  · exact ⟨_, rfl, ctxs.trans written, by rw [show (_ : State).dies = v.dies from dies]; exact listed⟩
  · exact ⟨t, rfl, ctxs.trans written, by rw [dies]; exact listed⟩

theorem settleFault_last {s : State} {d : Fin 2} {q : WaitFault} (he : q.ends = true) :
    settleFault s d q = (placeRecord s d q).map fun u => endContext u q.ctx q.cause := if_pos he

/-- What ends a context at its record, or waits for the slot that it needs. -/
theorem recordFault_last {s : State} {d : Fin 2} {q : WaitFault} (he : q.ends = true) :
    (∀ n, freeSlot s.dies[d].slots Config.faultSlots 0 = some n → slotRecord q n ∈ (recordFault s d q).dies[d].slots ∧
      (Ends s q.ctx → (recordFault s d q).ctxs[q.ctx].st = .ended)) ∧
    (freeSlot s.dies[d].slots Config.faultSlots 0 = none →
      recordFault s d q = modDie s d fun x => { x with faultQ := x.faultQ ++ [q] }) := by
  unfold recordFault
  rw [settleFault_last he]
  refine ⟨fun n h => ?_, fun h => ?_⟩
  · obtain ⟨u, placed, ctxs, listed⟩ := placeRecord_some q h
    rw [placed]
    refine ⟨?_, fun k => endContext_st (s := u) ?_⟩
    · show _ ∈ (endContext u q.ctx q.cause).dies[d].slots
      rw [endContext_sameSlots]
      exact listed
    · unfold Ends
      rw [ctxs]
      exact k
  · rw [placeRecord_none h]
    rfl

/-- The fault of a split that ends its context is recorded once the split is suspended. -/
theorem takeFault_last {s : State} {w : Warp} {sp : Fin 8} {x : Split} {pc next : Word} {act : Mask} {f : FaultInfo}
    (hx : w.splits[sp] = some x) (hr : routeOf s w f.cause ≠ 0) (hl : resumable f.cause = false ∨ w.handler ≠ none ∨ isService w = true)
    (he : f.ecc = none) :
    takeFault s w sp pc next act f = recordFault (suspend s w.id sp (if f.cause = 0x16 then next else pc)) (coreDie w.core)
      { ctx := w.ctx, cause := f.cause, va := f.va, route := routeOf s w f.cause, split := (w.id, sp), handle := f.handle, elem := f.elem
        words := recordWords s w x.mask act pc f (routeOf s w f.cause), ends := true } := by
  have ends : (routeOf s w f.cause != 0 && (!resumable f.cause || w.handler.isSome || isService w)) = true := by
    rw [bne_iff_ne.mpr hr, Bool.true_and]
    obtain h | h | h := hl
    · rw [h]
      rfl
    · rw [Option.isSome_iff_ne_none.mpr h, Bool.or_true, Bool.true_or]
    · rw [h, Bool.or_true]
  unfold takeFault
  dsimp only
  rw [ends, he, hx, show countError s none = s from rfl, Bool.not_true, Bool.and_false, if_neg Bool.false_ne_true, if_neg hr]

theorem lastFault : Claims.LastFault := by
  intro s w sp x pc next act f _ hx hr hl he t d words q
  have run : t = recordFault (suspend s w.id sp (if f.cause = 0x16 then next else pc)) d q := takeFault_last hx hr hl he
  obtain ⟨placed, waits⟩ := recordFault_last (s := suspend s w.id sp (if f.cause = 0x16 then next else pc)) (d := d) (q := q) rfl
  rw [run]
  refine ⟨fun n h => ?_, fun h => ?_, fun u h => ?_⟩
  · obtain ⟨listed, ended⟩ := placed n h
    exact ⟨⟨_, listed, rfl, rfl, rfl⟩, ended⟩
  · rw [waits h]
    refine ⟨rfl, ?_⟩
    rw [modDie_same]
    rfl
  · rw [settleFault_last rfl, h]
    rfl

/-- Settles O29: a fault that ends its context takes no other way than its record, and the end drops what the context has. -/
theorem faultEndsContext : Obligations.FaultEndsContext := ⟨contextEnds, lastFault⟩

end Sys2Proof.Proofs


/-! SUPPORT. What a use of the home slices leaves of a state whatever its hints (R146-R151): of the dies all but L2 and the forwarding entries,
and of the rest all but the bridge and package memory. -/

namespace Sys2Proof.Proofs

open Sys2Proof Sys2Proof.Machine Sys2Proof.Claims Sys2Proof.Laws

/-- From `s` to `t` the slices of the dies, the bridge, package memory and its errors change, and nothing else; a line may migrate. -/
structure HomeKept (s t : State) : Prop where
  rest : offHome t = offHome s
  die : DiesAside s t

section

variable {s t u : State}

theorem HomeKept.refl (s : State) : HomeKept s s := ⟨rfl, .refl s⟩
theorem HomeKept.trans (h : HomeKept s t) (g : HomeKept t u) : HomeKept s u := ⟨g.rest.trans h.rest, h.die.trans g.die⟩

theorem HomeKept.fold {α : Type} {f : State → α → State} (hf : ∀ s a, HomeKept s (f s a)) (l : List α) (s : State) :
    HomeKept s (l.foldl f s) := by
  induction l generalizing s with
  | nil => exact .refl s
  | cons a r ih => exact (hf s a).trans (ih _)

theorem HomeKept.ite {p : Prop} [Decidable p] (h : HomeKept s t) (g : HomeKept s u) : HomeKept s (if p then t else u) := by
  split
  · exact h
  · exact g

theorem Used.homeKept (h : HomeUsed s t) : HomeKept s t := ⟨h.rest, h.aside⟩
theorem slicesUsed_homeKept (h : SlicesUsed s t) : HomeKept s t := h.home.homeKept

theorem HomeKept.field {α : Type} (h : HomeKept s t) (f : State → α) (hf : ∀ z, f (offHome z) = f z) : f t = f s := field_of_off h.rest f hf

theorem HomeKept.cores (h : HomeKept s t) : t.cores = s.cores := h.field State.cores fun _ => rfl
theorem HomeKept.warps (h : HomeKept s t) : t.warps = s.warps := h.field State.warps fun _ => rfl
theorem HomeKept.ctxs (h : HomeKept s t) : t.ctxs = s.ctxs := h.field State.ctxs fun _ => rfl
theorem HomeKept.units (h : HomeKept s t) : t.units = s.units := h.field State.units fun _ => rfl
theorem HomeKept.maints (h : HomeKept s t) : t.maints = s.maints := h.field State.maints fun _ => rfl

theorem HomeKept.tlb (h : HomeKept s t) (d : Fin 2) : t.dies[d].tlb = s.dies[d].tlb := h.die.field d Die.tlb fun _ => rfl
theorem HomeKept.nodes (h : HomeKept s t) (d : Fin 2) : t.dies[d].nodes = s.dies[d].nodes := h.die.field d Die.nodes fun _ => rfl
theorem HomeKept.walks (h : HomeKept s t) (d : Fin 2) : t.dies[d].walks = s.dies[d].walks := h.die.field d Die.walks fun _ => rfl
theorem HomeKept.engFails (h : HomeKept s t) (d : Fin 2) : t.dies[d].engFails = s.dies[d].engFails :=
  h.die.field d Die.engFails fun _ => rfl

theorem HomeKept.l1Find (h : HomeKept s t) (c : Fin 384) (line : Nat) : l1Find t c line = l1Find s c line := by
  unfold Machine.l1Find
  rw [h.cores]

theorem HomeKept.heldByte (h : HomeKept s t) (c : Fin 384) (a : Nat) : heldByte t c a = heldByte s c a := by
  unfold Claims.heldByte
  rw [h.l1Find]

end

theorem setForward_kept (s : State) (line : Nat) (on : Bool) : HomeKept s (setForward s line on) := ⟨rfl, setForward_aside s line on⟩

theorem moveLine_kept (s : State) (line : Nat) : HomeKept s (moveLine s line) := by
  unfold moveLine
  dsimp only
  split
  · exact setForward_kept _ _ _
  · refine .trans (slicesUsed_homeKept ?_) (setForward_kept _ _ _)
    exact ((l2Remove_slices _ _ _).trans (l2Remove_slices _ _ _)).trans ((l2Room_slices _ _ _ _ _).trans
      ((modL2_slices _ _ _).trans ((arrivePacket_slices _ _ _).trans (sendPacket_slices _ _ _ _ _))))

theorem countAccess_kept (s : State) (r : Fin 2) (line : Nat) (may : Bool) : HomeKept s (countAccess s r line may) := by
  unfold countAccess
  dsimp only
  split
  · exact .refl s
  · exact .ite (.refl s) (.ite (slicesUsed_homeKept (l2Mod_slices _ _ _ _))
      (.ite (moveLine_kept _ _) (slicesUsed_homeKept (l2Mod_slices _ _ _ _))))

theorem l2Wrote_kept (s : State) (r : Fin 2) (sec : Nat) (q : Acc) (atomic : Bool) : HomeKept s (l2Wrote s r sec q atomic) := by
  unfold l2Wrote
  dsimp only
  refine .trans (.trans ?_ (slicesUsed_homeKept (crossed_slices _ _ _ _)))
    (.trans (slicesUsed_homeKept (l2Hold_slices _ _ _ _ _)) (.trans (slicesUsed_homeKept (noteDue_slices _ _ _)) (countAccess_kept _ _ _ _)))
  split
  · exact .refl s
  · exact .ite (slicesUsed_homeKept ((crossed_slices _ _ _ _).trans (l2Drop_slices _ _ _)))
      (.ite (slicesUsed_homeKept (l2Drop_slices _ _ _)) (slicesUsed_homeKept (sendPacket_slices _ _ _ _ _)))

theorem homeTouch_kept (r : Fin 2) (q : Acc) (atomic : Bool) (fuel : Nat) (s : State) (a n : Nat) :
    HomeKept s (homeTouch s r q atomic fuel a n) := by
  induction fuel generalizing s a n with
  | zero => exact .refl s
  | succ k ih =>
    unfold homeTouch
    dsimp only
    exact .ite (.refl s) (.trans (.trans (.ite (healSector_home s _).homeKept (.refl s)) (l2Wrote_kept _ _ _ _ _)) (ih _ _ _))

theorem homeWrite_kept (s : State) (r : Fin 2) (q : Acc) (atomic : Bool) (a n x : Nat) : HomeKept s (homeWrite s r q atomic a n x) :=
  (memory_home s (homeMem s.mem q a n x)).homeKept.trans (homeTouch_kept _ _ _ _ _ _ _)

theorem recallAt_kept (s : State) (a n : Nat) : HomeKept s (recallAt s a n) := slicesUsed_homeKept (recallAt_slices s a n)

theorem writeHome_kept (s : State) (d : Fin 2) (q : Acc) (p : Spot) (atomic : Bool) (a n x : Nat) :
    HomeKept s (writeHome s d q p atomic a n x) := by
  unfold writeHome
  refine .ite (.trans (.ite (recallAt_kept _ _ _) (.refl s)) (homeWrite_kept _ _ _ _ _ _ _)) ?_
  exact (slicesUsed_homeKept ((recallAt_slices _ _ _).trans (crossed_slices _ _ _ _))).trans (homeWrite_kept _ _ _ _ _ _ _)

theorem writeBack_kept (s : State) (d : Fin 2) (l : L1Line) : HomeKept s (writeBack s d l) := (writeBack_home s d l).homeKept

/-- A walker's write of an entry: the bytes of the entry change in memory, and no others (R134). -/
theorem setEntry_kept (s : State) (d : Fin 2) (c : Fin 64) (a : Nat) (p : Word) : HomeKept s (setEntry s d c a p) :=
  (recallAt_kept s a 8).trans (homeWrite_kept _ _ _ _ _ _ _)

theorem setEntry_mem (s : State) (d : Fin 2) (c : Fin 64) (a : Nat) (p : Word) : (setEntry s d c a p).mem = writeN s.mem a 8 p.toNat := by
  rw [setEntry, homeWrite_mem, (recall_only s a 8).mem]
  rfl

end Sys2Proof.Proofs


/-! SUPPORT. Where one part of a store goes (R146, R147, R323): the bytes of home and of L1 that it writes. -/

namespace Sys2Proof.Proofs

open Sys2Proof Sys2Proof.Machine Sys2Proof.Claims Sys2Proof.Laws

/-! ### The pieces of a write, sector by sector -/

theorem inSector_fits {a n : Nat} (h : 0 < n) : InSector a (inSector a n) := by
  constructor <;> unfold inSector <;> omega

theorem inSector_le (a n : Nat) : inSector a n ≤ n := Nat.min_le_left _ _

/-- The first piece of a write through L1, and the rest. -/
theorem l1Write_cut (s : State) (c : Fin 384) (q : Acc) (fuel : Nat) {a n : Nat} (x : Nat) (h : 0 < n) :
    l1Write s c q (fuel + 1) a n x =
      l1Write (l1Write s c q (inSector a n + 1) a (inSector a n) x) c q fuel (a + inSector a n) (n - inSector a n)
        (x >>> (8 * inSector a n)) := by
  have piece := inSector_fits (a := a) h
  obtain ⟨k, hk⟩ : ∃ k, inSector a n = k + 1 := ⟨inSector a n - 1, by have := piece.pos; omega⟩
  have done : ∀ t : State, l1Write t c q (inSector a n) (a + inSector a n) 0 (x >>> (8 * inSector a n)) = t := fun t => by
    rw [hk, l1Write, if_pos rfl]
  rw [l1Write, if_neg (by omega), l1Write, if_neg (by have := piece.pos; omega), piece.whole]
  dsimp only
  rw [Nat.sub_self, done]

/-- The byte of a value at a place is that of the rest of it, past its first bytes. -/
theorem byte_past (x k a b : Nat) (h : a + k ≤ b) : BitVec.ofNat 8 ((x >>> (8 * k)) >>> (8 * (b - (a + k)))) = BitVec.ofNat 8 (x >>> (8 * (b - a))) := by
  rw [← Nat.shiftRight_add]
  congr 2
  omega

/-! ### With hint 3: the home slice -/

/-- One piece of a write with hint 3 goes to memory. -/
theorem l1Write_home_piece (s : State) (c : Fin 384) {q : Acc} {a n : Nat} (x : Nat) (hq : q.hint = 3) (hw : q.wide = false) (hn : InSector a n) :
    (l1Write s c q (n + 1) a n x).mem = writeN s.mem a n x := by
  obtain ⟨k, rfl⟩ : ∃ k, n = k + 1 := ⟨n - 1, by have := hn.pos; omega⟩
  rw [l1Write, if_neg (by omega), hn.whole]
  dsimp only
  rw [if_pos hq, Nat.sub_self, l1Write, if_pos rfl]
  have home : (homeWrite s (coreDie c) q false a (k + 1) x).mem = writeN s.mem a (k + 1) x := by
    rw [homeWrite_mem, homeMem, hw]
    rfl
  split
  · split
    · exact home
    · exact home
  · exact home

/-- A write with hint 3: its bytes change in memory, and no others (R147). -/
theorem l1Write_home {c : Fin 384} {q : Acc} (hq : q.hint = 3) (hw : q.wide = false) (fuel : Nat) {s : State} {a n : Nat} (x : Nat)
    (hm : memoryOk s) (hf : n < fuel) (b : Nat) : readByte (l1Write s c q fuel a n x).mem b =
      if a ≤ b ∧ b < a + n then BitVec.ofNat 8 (x >>> (8 * (b - a))) else readByte s.mem b := by
  induction fuel generalizing s a n x with
  | zero => omega
  | succ f ih =>
    by_cases hn : n = 0
    · rw [l1Write, if_pos hn, if_neg (by omega)]
    · have pos : 0 < n := by omega
      have piece := inSector_fits (a := a) pos
      have le := inSector_le a n
      have first := l1Write_home_piece s c x hq hw piece
      rw [l1Write_cut s c q f x pos]
      generalize l1Write s c q (inSector a n + 1) a (inSector a n) x = t at first ⊢
      have ok : memoryOk t := by
        unfold memoryOk
        rw [first]
        exact writeN_wf _ _ _ _ hm
      rw [ih _ ok (by have := piece.pos; omega), first, readByte_writeN _ _ _ _ _ hm, ← shr_bytes]
      generalize inSector a n = k at le ⊢
      by_cases late : a + k ≤ b ∧ b < a + k + (n - k)
      · rw [if_pos late, if_pos (by omega), byte_past _ _ _ _ late.1]
      · rw [if_neg late]
        by_cases early : a ≤ b ∧ b < a + k
        · rw [if_pos early, if_pos (by omega)]
        · rw [if_neg early, if_neg (by omega)]

/-! ### With another hint: a line that L1 holds -/

theorem l1Holds_held (s : State) (c : Fin 384) (a : Nat) : l1Holds s c (a / 64) = (heldByte s c a).isSome := by
  unfold l1Holds heldByte
  rw [show a / 64 / 4 = a / 256 by omega]
  split
  · split <;> simp_all
  · rfl

theorem l1Holds_found {s : State} {c : Fin 384} {a : Nat} (h : l1Holds s c (a / 64) = true) :
    ∃ l, l1Find s c (a / 64 / 4) = some l ∧ l.valid.getLsbD (a / 64 % 4) = true := by
  unfold l1Holds at h
  split at h
  · exact ⟨_, ‹_›, h⟩
  · cases h

/-- A byte of L1 waits to be written back. -/
def DirtyByte (s : State) (c : Fin 384) (a : Nat) : Prop := ∃ y, l1Find s c (a / 256) = some y ∧ y.dirty.getLsbD (a % 256) = true

theorem maskByte (off n k : Nat) (hk : k < 256) : (BitVec.ofNat 256 ((2 ^ n - 1) * 2 ^ off)).getLsbD k = decide (off ≤ k ∧ k < off + n) := by
  rw [BitVec.getLsbD_ofNat, decide_eq_true hk, Bool.true_and, ← Nat.shiftLeft_eq, Nat.testBit_shiftLeft, Nat.testBit_two_pow_sub_one,
    ← Bool.decide_and]
  exact decide_eq_decide.mpr (by omega)

theorem l1Set1_dirty (l : L1Line) (off n x : Nat) (d : Bool) (k : Nat) (hk : k < 256) :
    (l1Set1 l off n x d).dirty.getLsbD k = if off ≤ k ∧ k < off + n then d else l.dirty.getLsbD k := by
  have same : (l1Set1 l off n x d).dirty = if d then l.dirty ||| BitVec.ofNat 256 ((2 ^ n - 1) * 2 ^ off)
      else l.dirty &&& ~~~BitVec.ofNat 256 ((2 ^ n - 1) * 2 ^ off) := by
    unfold l1Set1 L1Line.renew
    dsimp only
    split <;> rfl
  rw [same]
  by_cases h : off ≤ k ∧ k < off + n
  · rw [if_pos h]
    cases d
    · simp [hk, maskByte _ _ _ hk, h]
    · simp [maskByte _ _ _ hk, h]
  · rw [if_neg h]
    cases d
    · rw [if_neg Bool.false_ne_true, BitVec.getLsbD_and, BitVec.getLsbD_not, maskByte _ _ _ hk, decide_eq_false h, decide_eq_true hk]
      simp
    · rw [if_pos rfl, BitVec.getLsbD_or, maskByte _ _ _ hk, decide_eq_false h, Bool.or_false]

/-- A fill of a sector that L1 holds makes no byte clean. -/
theorem l1Fill_dirty {s : State} {c : Fin 384} {sec : Nat} {l : L1Line} (q : Acc) (h : l1Find s c (sec / 4) = some l)
    (hv : l.valid.getLsbD (sec % 4) = true) :
    ∃ y, l1Fill s c sec q = l1Put s c y ∧ y.line = l.line ∧ y.valid = l.valid ∧ y.dirty = l.dirty := by
  have touch : ∃ y, l1Touch s c (sec / 4) q = l1Put s c y ∧ y.line = l.line ∧ y.valid = l.valid ∧ y.dirty = l.dirty := by
    simp only [l1Touch, h]
    exact ⟨_, rfl, rfl, rfl, rfl⟩
  obtain ⟨y, hy, line, valid, dirty⟩ := touch
  refine ⟨y, ?_, line, valid, dirty⟩
  have found : l1Find (l1Put s c y) c (sec / 4) = some y := by rw [l1Find_put, if_pos (by rw [line, l1Find_line h])]
  simp only [l1Fill, hy, found, valid, hv, if_true]

/-- One piece of a write that L1 takes in a held sector: its bytes are dirty, and no byte becomes clean. -/
theorem l1Write_dirty_piece {s : State} {c : Fin 384} {q : Acc} {pa n : Nat} {l : L1Line} (x : Nat) (hq : q.hint ≠ 3) (hn : InSector pa n)
    (h : l1Find s c (pa / 64 / 4) = some l) (hv : l.valid.getLsbD (pa / 64 % 4) = true) (a : Nat)
    (ha : DirtyByte s c a ∨ (pa ≤ a ∧ a < pa + n)) : DirtyByte (l1Write s c q (n + 1) pa n x) c a := by
  obtain ⟨y, hy, line, valid, dirty⟩ := l1Fill_dirty q h hv
  have found : l1Find (l1Put s c y) c (pa / 64 / 4) = some y := by rw [l1Find_put, if_pos (by rw [line, l1Find_line h])]
  have lineAt := l1Find_line h
  have within := hn.within
  have wrote : l1Write s c q (n + 1) pa n x = l1Put (l1Put s c y) c { l1Set1 y (pa % 256) n x true with owner := q.owner } := by
    obtain ⟨k, rfl⟩ : ∃ k, n = k + 1 := ⟨n - 1, by have := hn.pos; omega⟩
    rw [l1Write, if_neg (by omega), hn.whole]
    simp only [if_neg hq, hy, found, Nat.sub_self, l1Write, if_pos]
  unfold DirtyByte
  rw [wrote, l1Find_put, show ({ l1Set1 y (pa % 256) n x true with owner := q.owner } : L1Line).line = l.line from
    (l1Set1_line y _ n x true).1.trans line, l1Find_put, line]
  by_cases e : a / 256 = l.line
  · rw [if_pos e]
    refine ⟨_, rfl, ?_⟩
    show (l1Set1 y (pa % 256) n x true).dirty.getLsbD (a % 256) = true
    rw [l1Set1_dirty _ _ _ _ _ _ (Nat.mod_lt a (by omega)), dirty]
    split
    case isTrue => rfl
    case isFalse out =>
      obtain ⟨z, hz, hd⟩ | here := ha
      · rw [e, lineAt, h] at hz
        cases hz
        exact hd
      · exact absurd ⟨by omega, by omega⟩ out
  · rw [if_neg e, if_neg e]
    obtain hd | here := ha
    · exact hd
    · exact absurd (by omega) e

/-- A write that L1 takes in held sectors: its bytes change in L1 and are dirty, and memory keeps every byte (R146). -/
theorem l1Write_inL1 {c : Fin 384} {q : Acc} (hq : q.hint ≠ 3) (fuel : Nat) {s : State} {pa n : Nat} (x : Nat) (hf : n < fuel)
    (hh : ∀ a, pa ≤ a → a < pa + n → (heldByte s c a).isSome = true) :
    (l1Write s c q fuel pa n x).mem = s.mem ∧
    (∀ a, heldByte (l1Write s c q fuel pa n x) c a =
      if pa ≤ a ∧ a < pa + n then some (BitVec.ofNat 8 (x >>> (8 * (a - pa)))) else heldByte s c a) ∧
    ∀ a, DirtyByte s c a ∨ (pa ≤ a ∧ a < pa + n) → DirtyByte (l1Write s c q fuel pa n x) c a := by
  induction fuel generalizing s pa n x with
  | zero => omega
  | succ f ih =>
    by_cases hn : n = 0
    · rw [l1Write, if_pos hn]
      exact ⟨rfl, fun a => by rw [if_neg (by omega)], fun a ha => ha.resolve_right (by omega)⟩
    · have pos : 0 < n := by omega
      have piece := inSector_fits (a := pa) pos
      have le := inSector_le pa n
      have := piece.pos
      obtain ⟨l, found, valid⟩ := l1Holds_found ((l1Holds_held s c pa).trans (hh pa le_rfl (by omega)))
      obtain ⟨bytes, mem⟩ := l1Write_held x hq piece found valid
      have dirty := l1Write_dirty_piece x hq piece found valid
      rw [l1Write_cut s c q f x pos]
      generalize l1Write s c q (inSector pa n + 1) pa (inSector pa n) x = t at bytes mem dirty ⊢
      generalize inSector pa n = k at *
      obtain ⟨mem', bytes', dirty'⟩ := ih (s := t) (pa := pa + k) (n := n - k) (x >>> (8 * k)) (by omega) fun a h1 h2 => by
        rw [bytes, if_neg (by omega)]
        exact hh a (by omega) (by omega)
      refine ⟨mem'.trans mem, fun a => ?_, fun a ha => ?_⟩
      · rw [bytes', bytes]
        by_cases late : pa + k ≤ a ∧ a < pa + k + (n - k)
        · rw [if_pos late, if_pos (by omega), byte_past _ _ _ _ late.1]
        · rw [if_neg late]
          by_cases early : pa ≤ a ∧ a < pa + k
          · rw [if_pos early, if_pos (by omega)]
          · rw [if_neg early, if_neg (by omega)]
      · by_cases late : pa + k ≤ a ∧ a < pa + k + (n - k)
        · exact dirty' a (.inr late)
        · exact dirty' a (.inl (dirty a (ha.imp_right fun h => by omega)))

/-! ### What a write at the home slice refreshes in L1 -/

/-- L1 takes what its core has written at the home slice where it holds the sector, and those bytes are clean. -/
theorem l1Refresh_held (s : State) (c : Fin 384) {pa n : Nat} (x : Nat) (hn : InSector pa n) :
    (∀ a, heldByte (l1Refresh s c pa n x) c a =
      if pa ≤ a ∧ a < pa + n ∧ (heldByte s c a).isSome = true then some (BitVec.ofNat 8 (x >>> (8 * (a - pa)))) else heldByte s c a) ∧
    ∀ a y, pa ≤ a → a < pa + n → (heldByte s c a).isSome = true → l1Find (l1Refresh s c pa n x) c (a / 256) = some y →
      y.dirty.getLsbD (a % 256) = false := by
  have within := hn.within
  by_cases held : (heldByte s c pa).isSome = true
  · obtain ⟨l, found, valid⟩ := l1Holds_found ((l1Holds_held s c pa).trans held)
    rw [show pa / 64 / 4 = pa / 256 by omega] at found
    have lineAt := l1Find_line found
    have setLine := l1Set1_line l (pa % 256) n x false
    have put : l1Refresh s c pa n x = l1Put s c (l1Set1 l (pa % 256) n x false) := by simp only [l1Refresh, found, valid, if_true]
    have whole : ∀ a, pa ≤ a → a < pa + n → (heldByte s c a).isSome = true := fun a h1 h2 => by
      rw [← l1Holds_held, show a / 64 = pa / 64 by omega, l1Holds_held, held]
    rw [put]
    refine ⟨fun a => ?_, fun a y h1 h2 _ hy => ?_⟩
    · rw [heldByte_put, setLine.1, setLine.2.1, lineByte_set _ _ _ _ _ _ (Nat.mod_lt a (by omega))]
      by_cases e : a / 256 = l.line
      · rw [if_pos e, heldByte_found (l := l) (by rw [e, lineAt, found])]
        by_cases here : pa ≤ a ∧ a < pa + n
        · have inLine : pa % 256 ≤ a % 256 ∧ a % 256 < pa % 256 + n := by omega
          have v : l.valid.getLsbD (a / 64 % 4) = true := by rw [show a / 64 = pa / 64 by omega, valid]
          rw [if_pos inLine, v, if_pos rfl, if_pos rfl, if_pos ⟨here.1, here.2, rfl⟩, show a % 256 - pa % 256 = a - pa by omega]
        · have outside : ¬ (pa % 256 ≤ a % 256 ∧ a % 256 < pa % 256 + n) := by omega
          rw [if_neg outside]
          exact (if_neg fun h => here ⟨h.1, h.2.1⟩).symm
      · rw [if_neg e, if_neg fun h => e (by omega)]
    · rw [l1Find_put, setLine.1, if_pos (by omega)] at hy
      cases hy
      rw [l1Set1_dirty _ _ _ _ _ _ (Nat.mod_lt a (by omega)), if_pos (by omega)]
  · have keep : l1Refresh s c pa n x = s := by
      have none : l1Holds s c (pa / 64) = false := (l1Holds_held s c pa).trans (Bool.not_eq_true _ ▸ held)
      unfold l1Holds at none
      unfold l1Refresh
      rw [show pa / 64 / 4 = pa / 256 by omega] at none
      split
      · rename_i l found
        rw [found] at none
        dsimp only at none
        rw [none]
        rfl
      · rfl
    have whole : ∀ a, pa ≤ a → a < pa + n → ¬ (heldByte s c a).isSome = true := fun a h1 h2 => by
      rw [← l1Holds_held, show a / 64 = pa / 64 by omega, l1Holds_held]
      exact held
    rw [keep]
    exact ⟨fun a => (if_neg fun h => whole a h.1 h.2.1 h.2.2).symm, fun a y h1 h2 h => absurd h (whole a h1 h2)⟩

/-! ### One part of a store -/

theorem partBytes_inSector {o : MOp} {pa : Nat} (hn : partBytes o ≠ 0) (ha : pa % partBytes o = 0) : InSector pa (partBytes o) := by
  unfold partBytes at *
  split at hn
  case isTrue e =>
    rw [if_pos e] at ha ⊢
    generalize o.ty = t at *
    cases t <;> constructor <;> simp only [tyBytes, tyWidth] at * <;> omega
  case isFalse e =>
    rw [if_neg e] at ha ⊢
    constructor <;> omega

section

variable {o : MOp} {s : State} {c : Iss} {l : Fin 32} {p : Spot} {pa : Nat}

theorem storePart_cached (hl : localPa s c.w.core p = some pa) (hk : p.kind = .package) {rel : Bool} (hr : rel = false ∨ p.scope = .core) :
    storePart s c o rel l p = l1Write s c.w.core (accOf s c.w.ctx o.h p) (partBytes o + 1) pa (partBytes o) (partValue c.w o l p.part) := by
  have through : (p.kind == .package && !(rel && p.scope != .core)) = true := by
    rw [hk]
    obtain rfl | h := hr
    · rfl
    · rw [h]
      simp
  unfold storePart
  dsimp only
  rw [hl]
  dsimp only
  rw [if_pos through]

theorem storePart_released (hl : localPa s c.w.core p = some pa) (hk : p.kind = .package) (hs : p.scope ≠ .core) :
    storePart s c o true l p = l1Refresh (writeHome s (coreDie c.w.core) (accOf s c.w.ctx o.h p) p false pa (partBytes o) (partValue c.w o l p.part))
      c.w.core pa (partBytes o) (partValue c.w o l p.part) := by
  unfold storePart
  dsimp only
  rw [hl]
  dsimp only
  rw [hk, if_neg (by simpa using hs)]
  rfl

end

theorem storePlace : Claims.StorePlace := by
  intro o s c l p pa hm hl hk hf hn n v byte t
  have cached : t = l1Write s c.w.core (accOf s c.w.ctx o.h p) (n + 1) pa n v := storePart_cached hl hk (.inl rfl)
  have plain : (accOf s c.w.ctx o.h p).wide = false := by simp [accOf, hf]
  have only : OnlyCaches s t := cached ▸ l1Write_only _ _ _ _ _ _ _
  refine ⟨fun h a => ?_, fun h hh => ?_, only.warps, only.ctxs, only.units, ?_⟩
  · rw [cached]
    exact l1Write_home h plain (n + 1) v hm n.lt_succ_self a
  · rw [cached]
    obtain ⟨mem, bytes, dirty⟩ := l1Write_inL1 (c := c.w.core) (q := accOf s c.w.ctx o.h p) h (n + 1) v n.lt_succ_self fun a h1 h2 =>
      (l1Holds_held s c.w.core a) ▸ hh a h1 h2
    exact ⟨mem, bytes, fun a h1 h2 => dirty a (.inr ⟨h1, h2⟩)⟩
  · intro z
    refine ⟨fun hs => (storePart_cached hl hk (.inr hs)).trans cached.symm, fun hs ha => ?_⟩
    have released : z = l1Refresh (writeHome s (coreDie c.w.core) (accOf s c.w.ctx o.h p) p false pa n v) c.w.core pa n v :=
      storePart_released hl hk hs
    have sector : InSector pa n := partBytes_inSector hn ha
    have home := writeHome_kept s (coreDie c.w.core) (accOf s c.w.ctx o.h p) p false pa n v
    have bytes := fun b => writeHome_bytes hm (coreDie c.w.core) (accOf s c.w.ctx o.h p) p false pa n v b hk plain
    rw [released]
    generalize writeHome s (coreDie c.w.core) (accOf s c.w.ctx o.h p) p false pa n v = u at home bytes ⊢
    obtain ⟨held, clean⟩ := l1Refresh_held u c.w.core v sector
    simp only [home.heldByte] at held clean
    have only := l1Refresh_only u c.w.core pa n v
    exact ⟨fun a => by rw [only.mem]; exact bytes a, held, clean, only.toCaches.warps.trans home.warps, only.toCaches.ctxs.trans home.ctxs,
      only.toCaches.units.trans home.units⟩

end Sys2Proof.Proofs


/-! SUPPORT. What a write through a translation marks before it is performed: the entry's A and D, and the frame's bit of the dirty bitmap
(R65, R134). -/

namespace Sys2Proof.Proofs

open Sys2Proof Sys2Proof.Machine Sys2Proof.Claims Sys2Proof.Laws

/-! ### The bits of an entry -/

theorem sameLeaf_iff (p q : Word) : sameLeaf p q = true ↔ p ||| 0x18000#64 = q ||| 0x18000#64 := beq_iff_eq

theorem pteD_marked (p : Word) : pteD (p ||| 0x10000#64) = true := by
  rw [pteD, BitVec.getLsbD_or]
  simp

theorem mem_cacheDirty {t : List TlbEntry} {e y : TlbEntry} (h : y ∈ cacheDirty t e) (hc : y.ctx = e.ctx) (hb : y.base = e.base)
    (hs : y.size = e.size) : pteD y.pte = true := by
  obtain ⟨z, -, rfl⟩ := List.mem_map.mp h
  split at hc
  case isTrue match_ => rw [if_pos match_]; exact pteD_marked _
  case isFalse other =>
    rw [if_neg other] at hb hs
    simp [hc, hb, hs] at other

/-! ### The first write of a page -/

/-- What the marking of an entry leaves, once the entry is written: memory, the warps and the contexts, and D in the core's cached copy. -/
structure EntryMarked (u t : State) (k : Fin 384) (e : TlbEntry) : Prop where
  mem : t.mem = u.mem
  warps : t.warps = u.warps
  ctxs : t.ctxs = u.ctxs
  tlb : t.cores[k].tlb = cacheDirty u.cores[k].tlb e

theorem entryMarked (u : State) (k : Fin 384) (d : Fin 2) (e : TlbEntry)  :
    EntryMarked u (modCore (modDie u d fun x => { x with tlb := cacheDirty x.tlb e }) k fun x => { x with tlb := cacheDirty x.tlb e }) k e :=
  ⟨rfl, rfl, rfl, congrArg Core.tlb (modCore_same _ _ _)⟩

/-- A page of D = 0 that is not tracked, whose entry stands as it was cached: A and D are set there and in the cached copies (R134). -/
theorem setDirty_first {s : State} {k : Fin 384} {d : Fin 2} {c : Fin 64} {e : TlbEntry} {pa : Nat} (hd : pteD e.pte = false)
    (ht : pteDte e.pte = false) (hs : sameLeaf (readWord s.mem e.leafAt) e.pte = true) (hr : homeReach s d e.leafAt = true) :
    ∃ t, setDirty s (some k) d c e pa = some t ∧ EntryMarked (setEntry s d c e.leafAt (readWord s.mem e.leafAt ||| 0x18000#64)) t k e := by
  refine ⟨_, ?_, entryMarked _ k d e⟩
  unfold setDirty markBitmap
  dsimp only
  rw [hd, if_neg Bool.false_ne_true, hs, hr, ht]
  rfl

theorem setDirty_changed {s : State} {k : Option (Fin 384)} {d : Fin 2} {c : Fin 64} {e : TlbEntry} {pa : Nat} (hd : pteD e.pte = false)
    (hs : sameLeaf (readWord s.mem e.leafAt) e.pte = false) : setDirty s k d c e pa = none := by
  unfold setDirty
  dsimp only
  rw [hd, if_neg Bool.false_ne_true, hs]
  rfl

/-! ### The dirty bitmap -/

theorem and_twoPow_eq_iff (n j : Nat) : n &&& 2 ^ j = 2 ^ j ↔ n.testBit j = true := by
  rw [Nat.and_two_pow]
  cases n.testBit j
  · simpa using (Nat.two_pow_pos j).ne
  · simp

theorem bitmapBit_of {s : State} {c : Fin 64} {pa : Nat} (hn : s.ctxs[c].part.val < 24) (hp : regionOf pa = .package) :
    bitmapBit s s.ctxs[c] pa = some ((partOfCtx s c).dbase.toNat + pa / 2 ^ 16 / 8, 2 ^ (pa / 2 ^ 16 % 8)) := by
  have part : partOfCtx s c = s.parts[s.ctxs[c].part.val] := dif_pos hn
  rw [bitmapBit, dif_pos hn, if_pos hp, part]

theorem markBitmap_set {s : State} {d : Fin 2} {c : Fin 64} {e : TlbEntry} {pa a j : Nat} (hb : bitmapBit s s.ctxs[c] pa = some (a, 2 ^ j))
    (h : (readByte s.mem a).getLsbD j = true) : markBitmap s d c e pa = s := by
  unfold markBitmap
  rw [hb]
  dsimp only
  rw [if_pos ((and_twoPow_eq_iff _ j).mpr h), ite_self]

theorem markBitmap_sets {s : State} {d : Fin 2} {c : Fin 64} {e : TlbEntry} {pa a j : Nat} (ht : pteDte e.pte = true)
    (hb : bitmapBit s s.ctxs[c] pa = some (a, 2 ^ j)) (h : (readByte s.mem a).getLsbD j = false) :
    markBitmap s d c e pa = homeWrite (recallAt s a 1) d (Acc.of c) true a 1 ((readByte s.mem a).toNat ||| 2 ^ j) := by
  have clear : ¬ (readByte s.mem a).toNat &&& 2 ^ j = 2 ^ j := by
    rw [and_twoPow_eq_iff]
    exact Bool.eq_false_iff.mp h
  unfold markBitmap
  rw [if_pos ht, hb]
  dsimp only
  rw [if_neg clear]

/-- Bit `i` of a byte with bit `j` set. -/
theorem orBit_getLsbD (b : Byte) (i j : Nat) (hi : i < 8) :
    (BitVec.ofNat 8 (b.toNat ||| 2 ^ j)).getLsbD i = (b.getLsbD i || decide (i = j)) := by
  rw [BitVec.getLsbD_ofNat, decide_eq_true hi, Bool.true_and, Nat.testBit_or, Nat.testBit_two_pow, BitVec.getLsbD]
  simp [eq_comm]

/-- The byte of a frame in the bitmap gets the frame's bit, and no other byte changes (R64, R65). -/
theorem markBitmap_bytes {s : State} {d : Fin 2} {c : Fin 64} {e : TlbEntry} {pa a j : Nat} (hm : memoryOk s) (ht : pteDte e.pte = true)
    (hb : bitmapBit s s.ctxs[c] pa = some (a, 2 ^ j)) :
    (∀ i, i < 8 → (readByte (markBitmap s d c e pa).mem a).getLsbD i = ((readByte s.mem a).getLsbD i || decide (i = j))) ∧
    (∀ b, b ≠ a → readByte (markBitmap s d c e pa).mem b = readByte s.mem b) := by
  cases h : (readByte s.mem a).getLsbD j with
  | true =>
    rw [markBitmap_set hb h]
    refine ⟨fun i _ => ?_, fun _ _ => rfl⟩
    by_cases e : i = j
    · rw [e, h, Bool.true_or]
    · rw [decide_eq_false e, Bool.or_false]
  | false =>
    have mem : (markBitmap s d c e pa).mem = writeN s.mem a 1 ((readByte s.mem a).toNat ||| 2 ^ j) := by
      rw [markBitmap_sets ht hb h, homeWrite_mem, (recall_only s a 1).mem]
      rfl
    rw [mem]
    refine ⟨fun i hi => ?_, fun b hb => readByte_writeN_outside _ _ _ _ _ hm (by omega)⟩
    rw [readByte_writeN _ _ _ _ _ hm, if_pos (by omega), Nat.sub_self, Nat.pow_zero, Nat.div_one, orBit_getLsbD _ _ _ hi]

theorem markBitmap_kept (s : State) (d : Fin 2) (c : Fin 64) (e : TlbEntry) (pa : Nat) : HomeKept s (markBitmap s d c e pa) := by
  unfold markBitmap
  refine .ite ?_ (.refl s)
  split
  · exact .ite (.refl s) ((recallAt_kept _ _ _).trans (homeWrite_kept _ _ _ _ _ _ _))
  · exact .refl s

theorem dirtyMarks : Claims.DirtyMarks := by
  refine ⟨?_, ?_⟩
  · intro s k c e pa hm hd ht d p same
    refine ⟨fun hs ho hb => ?_, fun hs => setDirty_changed hd (Bool.eq_false_iff.mpr fun h => hs ((sameLeaf_iff _ _).mp h))⟩
    have reach : homeReach s d e.leafAt = true := by
      rw [homeReach, hb, bne_iff_ne.mpr ho, Bool.not_false, Bool.or_true]
      rfl
    have kept := setEntry_kept s d c e.leafAt (p ||| 0x18000#64)
    have mem := setEntry_mem s d c e.leafAt (p ||| 0x18000#64)
    obtain ⟨t, run, marked⟩ := setDirty_first (k := k) (c := c) (pa := pa) hd ht ((sameLeaf_iff _ _).mpr hs) reach
    refine ⟨t, run, marked.warps.trans kept.warps, marked.ctxs.trans kept.ctxs, fun j hj => ?_, fun a ha => ?_, fun y hy => ?_⟩
    · rw [marked.mem, mem, readByte_writeN _ _ _ _ _ hm, if_pos (by omega), Nat.add_sub_cancel_left, shr_bytes]
    · rw [marked.mem, mem, readByte_writeN_outside _ _ _ _ _ hm ha]
    · exact mem_cacheDirty (marked.tlb ▸ hy)
  · intro s k c e pa hm hd n frame a d
    refine ⟨fun ht => setDirty_marked hd ht, fun ht hn hp _ => ?_⟩
    have bit := bitmapBit_of hn hp
    have marked : setDirty s (some k) d c e pa = some (markBitmap s d c e pa) := if_pos hd
    have kept := markBitmap_kept s d c e pa
    obtain ⟨here, elsewhere⟩ := markBitmap_bytes (d := d) hm ht bit
    exact ⟨_, marked, here, elsewhere, kept.warps, kept.ctxs, markBitmap_set bit⟩

end Sys2Proof.Proofs


/-! SUPPORT. What write-backs leave of the caches of translations (R135, R161, R165). -/

namespace Sys2Proof.Proofs

open Sys2Proof Sys2Proof.Machine Sys2Proof.Claims Sys2Proof.Laws

/-- All of a core but the lines of its L1. -/
def offL1 (x : Core) : Core := { x with l1 := [] }

/-- From `s` to `t` only the data caches, the bridge and package memory change. -/
structure LinesKept (s t : State) : Prop where
  rest : aside t = aside s
  die : DiesAside s t
  core : ∀ k : Fin 384, offL1 t.cores[k] = offL1 s.cores[k]

section

variable {s t u : State}

theorem LinesKept.refl (s : State) : LinesKept s s := ⟨rfl, .refl s, fun _ => rfl⟩
theorem LinesKept.trans (h : LinesKept s t) (g : LinesKept t u) : LinesKept s u :=
  ⟨g.rest.trans h.rest, h.die.trans g.die, fun k => (g.core k).trans (h.core k)⟩

theorem LinesKept.fold {α : Type} {f : State → α → State} (hf : ∀ s a, LinesKept s (f s a)) (l : List α) (s : State) :
    LinesKept s (l.foldl f s) := by
  induction l generalizing s with
  | nil => exact .refl s
  | cons a r ih => exact (hf s a).trans (ih _)

theorem LinesKept.ite {p : Prop} [Decidable p] (h : LinesKept s t) (g : LinesKept s u) : LinesKept s (if p then t else u) := by
  split
  · exact h
  · exact g

theorem HomeKept.lines (h : HomeKept s t) : LinesKept s t :=
  ⟨field_of_off h.rest aside fun _ => rfl, h.die, fun k => by rw [h.cores]⟩

/-- A change of the lines of one L1. -/
theorem modL1_lines (s : State) (c : Fin 384) (f : Core → List L1Line) : LinesKept s (modCore s c fun x => { x with l1 := f x }) := by
  refine ⟨rfl, .of_dies rfl, fun k => ?_⟩
  by_cases h : k = c
  · subst h
    rw [modCore_same]
    rfl
  · rw [modCore_other _ _ _ _ h]

theorem LinesKept.field {α : Type} (h : LinesKept s t) (f : State → α) (hf : ∀ z, f (aside z) = f z) : f t = f s := field_of_off h.rest f hf

theorem LinesKept.warps (h : LinesKept s t) : t.warps = s.warps := h.field State.warps fun _ => rfl
theorem LinesKept.ctxs (h : LinesKept s t) : t.ctxs = s.ctxs := h.field State.ctxs fun _ => rfl
theorem LinesKept.units (h : LinesKept s t) : t.units = s.units := h.field State.units fun _ => rfl
theorem LinesKept.maints (h : LinesKept s t) : t.maints = s.maints := h.field State.maints fun _ => rfl

theorem LinesKept.dieTlb (h : LinesKept s t) (d : Fin 2) : t.dies[d].tlb = s.dies[d].tlb := h.die.field d Die.tlb fun _ => rfl
theorem LinesKept.nodes (h : LinesKept s t) (d : Fin 2) : t.dies[d].nodes = s.dies[d].nodes := h.die.field d Die.nodes fun _ => rfl

theorem LinesKept.coreField {α : Type} (h : LinesKept s t) (k : Fin 384) (f : Core → α) (hf : ∀ z, f (offL1 z) = f z) :
    f t.cores[k] = f s.cores[k] := by
  rw [← hf t.cores[k], h.core k, hf s.cores[k]]

theorem LinesKept.tlb (h : LinesKept s t) (k : Fin 384) : t.cores[k].tlb = s.cores[k].tlb := h.coreField k Core.tlb fun _ => rfl

theorem LinesKept.translate (h : LinesKept s t) (k : Fin 384) (c : Fin 64) (va : Word) : translate t k c va = translate s k c va := by
  unfold Machine.translate
  rw [h.tlb, h.dieTlb, h.coreField k Core.fails fun _ => rfl]

end

theorem l1CleanLine_lines (s : State) (c : Fin 384) (l : L1Line) : LinesKept s (l1CleanLine s c l) := by
  unfold l1CleanLine
  exact .ite ((writeBack_kept s (coreDie c) l).lines.trans (modL1_lines _ c _)) (.refl s)

theorem l1Clean_lines (s : State) (c : Fin 384) (p : L1Line → Bool) : LinesKept s (l1Clean s c p) := .fold (fun s l => l1CleanLine_lines s c l) _ s

theorem cleaned_lines (t : State) (w : Warp) (sc : Scope) : LinesKept t (cleaned t w sc) := .ite (.refl t) (l1Clean_lines t w.core wideLine)

/-! ### A release that is made has written back, and changed nothing else (R165) -/

section

variable {s t : State} {w : Warp} {sc : Scope}

theorem flushAt_ok {c : Fin 64} {who : Nat} {d : Fin 2} (h : flushAt s c who d = .ok t) : t = s := by
  unfold flushAt at h
  split at h
  · cases h
  · split at h
    · split at h <;> cases h
    · cases h
      rfl

theorem releaseLinks_ok (h : releaseLinks s w sc = .ok t) : t = s := by
  unfold releaseLinks releaseSystem at h
  split at h
  · cases h
  · split at h
    · cases h
      rfl
    · split at h
      · cases h
      · split at h
        · split at h
          · cases h
          · exact flushAt_ok h
        · cases h
          rfl

theorem releaseCaches_ok (h : releaseCaches s w = .ok t) : t = l1Clean s w.core wideLine := by
  unfold releaseCaches at h
  dsimp only at h
  split at h
  · cases h
  · split at h <;> cases h
    rfl

theorem releaseAt_ok (h : releaseAt s w sc = .ok t) : t = cleaned s w sc := by
  obtain ⟨u, back, links⟩ : ∃ u, (if sc = .core then Order.ok s else releaseCaches s w) = .ok u ∧
      (if scopeCode .package ≤ scopeCode sc && !acrossDone u w.ctx then (if u.bridge.down then Order.bad (faultOf 0x14) else .wait u)
        else releaseLinks u w sc) = .ok t := by
    unfold releaseAt Order.bind at h
    split at h
    · exact ⟨_, ‹_›, h⟩
    · cases h
    · cases h
  have clean : u = cleaned s w sc := by
    unfold cleaned
    split at back
    case isTrue e => rw [if_pos e]; cases back; rfl
    case isFalse e => rw [if_neg e]; exact releaseCaches_ok back
  subst clean
  split at links
  · split at links <;> cases links
  · exact releaseLinks_ok links

end

end Sys2Proof.Proofs


/-! SUPPORT. The stores of a warp to global memory: their checks, their marks and their order (R133, R134, R138, R153, R158, R323). -/

namespace Sys2Proof.Proofs

open Sys2Proof Sys2Proof.Machine Sys2Proof.Claims Sys2Proof.Laws

/-! ### The marks of the parts -/

/-- Every place of an access was found by translating its address. -/
theorem spots_translated {t : State} {w : Warp} {o : MOp} {m : Mask} {parts : Nat} {q : Fin 32 → Nat → Spot}
    (h : ∀ l : Fin 32, m.getLsbD l.val = true → ∀ j, j < parts → storeLook t w o l j = .ok (q l j)) :
    ∀ p ∈ spotsOf m parts q, ∃ pa, translate t w.core w.ctx p.2.va = .ok pa p.2.e := by
  intro p hp
  obtain ⟨l, hl, hp⟩ := List.mem_flatMap.mp hp
  obtain ⟨j, hj, rfl⟩ := List.mem_map.mp hp
  obtain ⟨va, pa, found⟩ := locate_found (h l ((mem_lanes m l).mp hl) j (List.mem_range.mp hj))
  exact ⟨pa, va ▸ found⟩

/-- The marks of a store of one part: its page is marked and the store goes on, or its translation is forgotten and the store waits (R134). -/
theorem dirtyAll_one {u : State} {c : Iss} {l : Fin 32} {p : Spot} (k : State → Effect) (hw : walkStalled u c.w.ctx = false)
    (hf : markFault u (coreDie c.w.core) c.w.ctx p.e p.pa = none) (ht : ∃ pa, translate u c.w.core c.w.ctx p.va = .ok pa p.e) :
    dirtyAll u c [(l, p)] k = match setDirty u (some c.w.core) (coreDie c.w.core) c.w.ctx p.e p.pa with
      | some v => k v
      | none => .wait (tlbForget u (some c.w.core) (coreDie c.w.core) c.w.ctx p.va.toNat) := by
  obtain ⟨pa, found⟩ := ht
  unfold dirtyAll
  simp only [List.filterMap_cons, List.filterMap_nil, hf, Option.map_none, hw, lowestOf, List.foldl_cons, List.foldl_nil, found]
  cases setDirty u (some c.w.core) (coreDie c.w.core) c.w.ctx p.e p.pa <;> rfl

theorem widestOf_one (l : Fin 32) (p : Spot) : widestOf [(l, p)] = p.scope := by
  simp only [widestOf, List.foldl_cons, List.foldl_nil, Nat.zero_max]
  cases p.scope <;> rfl

/-! ### `st` and `st.rel` -/

section

variable {o : MOp} {rel : Bool} {t u : State} {c : Iss} {q : Fin 32 → Nat → Spot}

/-- What a store does once its parts pass their checks: the release of `st.rel`, the marks, and the parts in ascending lane order. -/
theorem storeEffect_clear (ha : c.act ≠ 0) (hc : ∀ l : Fin 32, c.act.getLsbD l.val = true → ∀ j, j < accParts o →
      storeLook t c.w o l j = .ok (q l j) ∧ Passes (storeStages t c.w o rel l) { q l j with part := j })
    (hu : if rel then releaseAt t c.w (widestOf (spotsOf c.act (accParts o) q)) = .ok u else u = t) :
    storeEffect o rel t c = dirtyAll u c (spotsOf c.act (accParts o) q) fun s =>
      .next ((spotsOf c.act (accParts o) q).foldl (fun s p => storePart s c o rel p.1 p.2) s) := by
  unfold storeEffect
  rw [if_neg ha, withSpots_clear _ hc]
  dsimp only
  cases rel with
  | false => rw [show u = t from hu]; rfl
  | true => rw [show releaseAt t c.w _ = .ok u from hu]; rfl

/-- The release of `st.rel` keeps every translation. -/
theorem storeRelease_translates {sc : Scope} {w : Warp} (hu : if rel then releaseAt t w sc = .ok u else u = t) (k : Fin 384) (b : Fin 64) (va : Word) :
    translate u k b va = translate t k b va := by
  cases rel with
  | false => rw [show u = t from hu]
  | true => rw [releaseAt_ok (show releaseAt t w sc = .ok u from hu)]; exact (cleaned_lines t w sc).translate k b va

end

section

variable {o : MOp} {rel : Bool} {s : State} {w : Warp} {sp : Fin 8} {x : Split} {i : Instr} {q : Fin 32 → Nat → Spot}

/-- What a store whose parts pass their checks comes to, in the state `u` that its release leaves. -/
theorem store_clear (he : exec i s = issue i (storeEffect o rel) s) (h : Issues i s w sp x) (ha : activeOf i w x ≠ 0)
    (hc : Clear i w x (accParts o) (storeLook (counted s w sp) w o) (storeStages (counted s w sp) w o rel) q) {u : State}
    (hu : if rel then releaseAt (counted s w sp) w (widestOf (spotsOf (activeOf i w x) (accParts o) q)) = .ok u else u = counted s w sp) :
    EndsAs i s w sp x (dirtyAll u (issOf i w sp x) (spotsOf (activeOf i w x) (accParts o) q) fun s =>
      .next ((spotsOf (activeOf i w x) (accParts o) q).foldl
        (fun s p => storePart s (issOf i w sp x) o rel p.1 p.2) s)) :=
  issue_endsAs h (he) (storeEffect_clear (c := issOf i w sp x) ha hc hu)

theorem vectorStore (he : exec i s = issue i (storeEffect o rel) s) (h : Issues i s w sp x) :
    let t := counted s w sp
    let c := issOf i w sp x
    (activeOf i w x = 0 → RunsTo i s w sp x t) ∧
    (activeOf i w x ≠ 0 → ∀ q, Clear i w x (accParts o) (storeLook t w o) (storeStages t w o rel) q →
      let ps := spotsOf c.act (accParts o) q
      AllDirty ps → ∀ u, (if rel then releaseAt t w (widestOf ps) = .ok u else u = t) → walkStalled u w.ctx = false →
        RunsTo i s w sp x (ps.foldl (fun s p => storePart s c o rel p.1 p.2) u)) ∧
    (activeOf i w x ≠ 0 → ∀ q l p, Clear i w x (accParts o) (storeLook t w o) (storeStages t w o rel) q →
      spotsOf c.act (accParts o) q = [(l, p)] → ∀ u, (if rel then releaseAt t w p.scope = .ok u else u = t) → walkStalled u w.ctx = false →
        markFault u (coreDie w.core) w.ctx p.e p.pa = none →
        (∀ v, setDirty u (some w.core) (coreDie w.core) w.ctx p.e p.pa = some v → RunsTo i s w sp x (storePart v c o rel l p)) ∧
        (setDirty u (some w.core) (coreDie w.core) w.ctx p.e p.pa = none → ∃ v, Waits i s w sp x v ∧ v.mem = u.mem ∧ v.warps = u.warps)) := by
  intro t c
  refine ⟨fun ha => issue_endsAs (e := .next t) h (he) (if_pos ha), ?_, ?_⟩
  · intro ha q hc ps hd u hu hw
    have ends : EndsAs i s w sp x (dirtyAll u c ps fun s => .next (ps.foldl (fun s p => storePart s c o rel p.1 p.2) s)) :=
      store_clear he h ha hc hu
    rw [dirtyAll_marked (c := c) _ hd hw fun p hp => ?_] at ends
    · exact ends
    · obtain ⟨pa, found⟩ := spots_translated (fun l hl j hj => (hc l hl j hj).1) p hp
      exact ⟨pa, (storeRelease_translates hu _ _ _).trans found⟩
  · intro ha q l p hc one u hu hw hf
    have one' : spotsOf (activeOf i w x) (accParts o) q = [(l, p)] := one
    have ends := store_clear (u := u) he h ha hc (by rw [one', widestOf_one]; exact hu)
    obtain ⟨pa, found⟩ := spots_translated (fun l hl j hj => (hc l hl j hj).1) (l, p) (one' ▸ .head _)
    rw [one', dirtyAll_one (c := c) _ hw hf ⟨pa, (storeRelease_translates hu _ _ _).trans found⟩] at ends
    refine ⟨fun v hv => ?_, fun none => ?_⟩
    · rw [show setDirty u (some c.w.core) (coreDie c.w.core) c.w.ctx p.e p.pa = some v from hv] at ends
      exact ends
    · rw [show setDirty u (some c.w.core) (coreDie c.w.core) c.w.ctx p.e p.pa = Option.none from none] at ends
      exact ⟨_, ends, rfl, rfl⟩

end

/-! ### The page of a store or an atomic (R133, R138, R153, R158) -/

theorem stagesOf_bad (fs : List (Spot → Look)) (f : FaultInfo) : stagesOf fs [.bad f] = [.bad f] := by
  cases fs <;> rfl

/-- A mask of one lane. -/
theorem lanes_one {m : Mask} {l : Fin 32} (hl : m.getLsbD l.val = true) (h : ∀ k : Fin 32, m.getLsbD k.val = true → k = l) : m.lanes = [l] := by
  have same : m.lanes = (List.finRange 32).filter (· == l) :=
    List.filter_congr fun k _ => Bool.eq_iff_iff.mpr ⟨fun e => beq_iff_eq.mpr (h k e), fun e => (beq_iff_eq.mp e) ▸ hl⟩
  rw [same, List.filter_beq, List.count_eq_one_of_mem (List.nodup_finRange 32) (List.mem_finRange l)]
  rfl

/-- An access of one lane and one part that a check stops takes its fault. -/
theorem withSpots_bad {s : State} {c : Iss} {l : Fin 32} {look : Fin 32 → Nat → Look} {stages : Fin 32 → List (Spot → Look)}
    (k : List (Fin 32 × Spot) → Effect) {f : FaultInfo}
    (h : stagesOf (stages l) [(look l 0).then_ fun p => .ok { p with part := 0 }] = [.bad f]) :
    withSpots s c 1 [l] look stages k = .fault { f with lanes := BitVec.ofNat 32 (2 ^ l.val) } := by
  have fault : verdict 1 [l] look stages = .faulty { f with lanes := BitVec.ofNat 32 (2 ^ l.val) } := by
    simp [verdict, h, lowestOf]
  rw [withSpots, fault]

/-- The page of an address in package memory, for a write: what its W and REPL bits answer. -/
theorem locate_package {s : State} {core : Fin 384} {c : Fin 64} {va : Word} {pa : Nat} {e : TlbEntry} (ht : translate s core c va = .ok pa e)
    (hp : regionOf pa = .package) (hm : s.ctxs[c].mode = false ∨ dieOf pa = s.ctxs[c].die) :
    (pteW e.pte = false → locate s core c va true = .bad { faultOf 4 with va := va, pte := e.pte }) ∧
    (pteW e.pte = true → pteRepl e.pte = 1 → locate s core c va true = .bad { faultOf 5 with va := va, pte := e.pte }) ∧
    (pteW e.pte = true → pteRepl e.pte ≠ 1 → ∃ p, locate s core c va true = .ok p ∧ p.va = va ∧ p.e = e) := by
  have mode : (s.ctxs[c].mode && dieOf pa != s.ctxs[c].die) = false := by
    obtain h | h := hm
    · rw [h, Bool.false_and]
    · rw [h, bne_self_eq_false, Bool.and_false]
  have spot : locate s core c va true = if pteW e.pte = false then .bad { faultOf 4 with va := va, pte := e.pte }
      else if pteRepl e.pte = 1 then .bad { faultOf 5 with va := va, pte := e.pte }
      else .ok { part := 0, va := va, pa := pa, e := e, kind := .package, scope := spotScope .package e.pte } := by
    unfold locate Trans.spot
    rw [ht]
    dsimp only
    unfold spotChecks
    simp only [hp, mode]
    simp
  rw [spot]
  refine ⟨fun w => if_pos w, fun w r => ?_, fun w r => ⟨_, (if_neg (by simp [w])).trans (if_neg r), rfl, rfl⟩⟩
  rw [if_neg (by simp [w]), if_pos r]

/-- The fault of the page that a store or an atomic of one lane meets first: no W, read-duplicate, or of terms. -/
def PageFault (e : TlbEntry) (va : Word) (f : FaultInfo) : Prop :=
  (pteW e.pte = false ∧ f = { faultOf 4 with va := va, pte := e.pte }) ∨
  (pteW e.pte = true ∧ pteRepl e.pte = 1 ∧ f = { faultOf 5 with va := va, pte := e.pte }) ∨
  (pteW e.pte = true ∧ pteRepl e.pte ≠ 1 ∧ pteFmt e.pte ≠ 0 ∧ f = { faultOf 7 with va := va, pte := e.pte })

/-- Where the format is the first check after the page, a page fault stops the access. -/
theorem pageFault_stages {s : State} {core : Fin 384} {c : Fin 64} {va : Word} {pa : Nat} {e : TlbEntry} {f : FaultInfo}
    (ht : translate s core c va = .ok pa e) (hp : regionOf pa = .package) (hm : s.ctxs[c].mode = false ∨ dieOf pa = s.ctxs[c].die)
    (h : PageFault e va f) (r : List (Spot → Look)) :
    stagesOf (plainPage :: r) [(locate s core c va true).then_ fun p => .ok { p with part := 0 }] = [.bad f] := by
  obtain ⟨noW, dup, ok⟩ := locate_package ht hp hm
  obtain ⟨w, rfl⟩ | ⟨w, repl, rfl⟩ | ⟨w, repl, fmt, rfl⟩ := h
  · rw [noW w]
    exact stagesOf_bad _ _
  · rw [dup w repl]
    exact stagesOf_bad _ _
  · obtain ⟨p, found, rfl, rfl⟩ := ok w repl
    rw [found]
    have term : plainPage { p with part := 0 } = .bad { faultOf 7 with va := p.va, pte := p.e.pte } := if_neg fmt
    show stagesOf r [plainPage { p with part := 0 }] = _
    rw [term, stagesOf_bad]

section

variable {op : AtomOp} {o : MOp} {s : State} {w : Warp} {sp : Fin 8} {x : Split} {i : Instr} {l : Fin 32} {va : Word} {pa : Nat} {e : TlbEntry}
  {f : FaultInfo}

theorem storeLook_counted (s : State) (w : Warp) (sp : Fin 8) (o : MOp) (l : Fin 32) :
    storeLook (counted s w sp) w o l 0 = locate (counted s w sp) w.core w.ctx (laneAddr w o l) true := by
  rw [storeLook, partAddr]
  simp

/-- Counting an issue keeps what a core has cached and found of translations. -/
theorem counted_walks (s : State) (w : Warp) (sp : Fin 8) (k : Fin 384) :
    (counted s w sp).cores[k].tlb = s.cores[k].tlb ∧ (counted s w sp).cores[k].fails = s.cores[k].fails := by
  have cores : ∀ (t : State) (f : Core → Core), (∀ x, (f x).tlb = x.tlb ∧ (f x).fails = x.fails) → t.cores = (modCore s w.core f).cores →
      t.cores[k].tlb = s.cores[k].tlb ∧ t.cores[k].fails = s.cores[k].fails := fun t f hf ht => by
    rw [ht]
    by_cases h : k = w.core
    · subst h
      rw [modCore_same]
      exact hf _
    · rw [modCore_other _ _ _ _ h]
      exact ⟨rfl, rfl⟩
  exact cores _ (fun c => { c with
    issue := c.issue.set w.quad.val (s.cores[w.core].issue[w.quad] + 1) w.quad.isLt
    lastIssue := c.lastIssue.set w.quad.val (some s.now) w.quad.isLt }) (fun _ => ⟨rfl, rfl⟩) rfl

theorem translate_counted (s : State) (w : Warp) (sp : Fin 8) (k : Fin 384) (c : Fin 64) (va : Word) :
    Machine.translate (counted s w sp) k c va = Machine.translate s k c va := by
  unfold Machine.translate
  rw [(counted_walks s w sp k).1, (counted_walks s w sp k).2, counted_dies]

variable (hi : i = .st o ∨ i = .stRel o ∨ ∃ op, i = .atom op o ∨ i = .red op o) (h : Issues i s w sp x) (hn : NoLinkResult s w sp)
  (hl : inAct i w x l) (one : ∀ k, inAct i w x k → k = l) (parts : accParts o = 1)
  (stop : ∀ r, stagesOf (plainPage :: r) [(storeLook (counted s w sp) w o l 0).then_ fun p => .ok { p with part := 0 }] = [.bad f])

include hi h hn hl one parts stop in
/-- A store or an atomic of one lane and one part whose page stops it takes the fault of that lane. -/
theorem page_stops : Faults i s w sp x { f with lanes := BitVec.ofNat 32 (2 ^ l.val) } := by
  have act : activeOf i w x ≠ 0 := fun e => by
    have z : (activeOf i w x).getLsbD l.val = true := hl
    rw [e] at z
    simp at z
  have lanes : (issOf i w sp x).act.lanes = [l] := lanes_one hl one
  have spots : ∀ (stages : Fin 32 → List (Spot → Look)) (k : List (Fin 32 × Spot) → Effect), (∃ r, stages l = plainPage :: r) →
      withSpots (counted s w sp) (issOf i w sp x) 1 (issOf i w sp x).act.lanes (storeLook (counted s w sp) (issOf i w sp x).w o) stages k =
        .fault { f with lanes := BitVec.ofNat 32 (2 ^ l.val) } := fun stages k ⟨r, first⟩ => by
    rw [lanes]
    exact withSpots_bad k (first ▸ stop r)
  have store : ∀ rel, storeEffect o rel (counted s w sp) (issOf i w sp x) = .fault { f with lanes := BitVec.ofNat 32 (2 ^ l.val) } := fun rel => by
    unfold storeEffect
    rw [if_neg (show (issOf i w sp x).act ≠ 0 from act), parts]
    exact spots _ _ ⟨_, rfl⟩
  obtain rfl | rfl | ⟨op, rfl | rfl⟩ := hi
  · exact issue_endsAs (e := .fault _) h (show exec (.st o) s = execSt o s from rfl) (store false)
  · exact issue_endsAs (e := .fault _) h (show exec (.stRel o) s = execStRel o s from rfl) (store true)
  · have rest := atom_goes (b := none) h act (.inl ⟨rfl, hn⟩)
    have all : ((issOf (.atom op o) w sp x).act.lanes.filter fun l => !((backLanes (issOf (.atom op o) w sp x) none).any fun y => y.1 == l)) =
        (issOf (.atom op o) w sp x).act.lanes := List.filter_eq_self.mpr fun _ _ => rfl
    unfold atomRest at rest
    dsimp only at rest
    rw [all] at rest
    rw [spots (atomStages (counted s w sp) (issOf (.atom op o) w sp x).w o) _ ⟨_, rfl⟩] at rest
    exact rest
  · exact issue_endsAs (e := .fault _) h (show exec (.red op o) s = execRed op o s from rfl) ((if_neg act).trans (spots _ _ ⟨_, rfl⟩))

end

theorem vectorStores : Claims.VectorStores := by
  intro o s w sp x
  refine ⟨fun rel => ?_, ?_⟩
  · have he : exec (if rel then Instr.stRel o else .st o) s = issue (if rel then Instr.stRel o else .st o) (storeEffect o rel) s := by
      cases rel
      · show exec (.st o) s = execSt o s
        rfl
      · show exec (.stRel o) s = execStRel o s
        rfl
    generalize (if rel then Instr.stRel o else .st o) = i at he ⊢
    intro j c h
    exact vectorStore he h
  · intro i hi h hn l va pa e hl one hva parts ht hp hm
    subst hva
    have stops : ∀ f, PageFault e (laneAddr w o l) f → Faults i s w sp x { f with lanes := BitVec.ofNat 32 (2 ^ l.val) } := fun f hf =>
      page_stops hi h hn hl one parts fun r => by
        rw [storeLook_counted]
        exact pageFault_stages ((translate_counted s w sp _ _ _).trans ht) hp hm hf r
    refine ⟨fun a => ?_, fun a b => ?_, fun a b c => ?_⟩
    · exact stops { faultOf 4 with va := laneAddr w o l, pte := e.pte } (.inl ⟨a, rfl⟩)
    · exact stops { faultOf 5 with va := laneAddr w o l, pte := e.pte } (.inr (.inl ⟨a, b, rfl⟩))
    · exact stops { faultOf 7 with va := laneAddr w o l, pte := e.pte } (.inr (.inr ⟨a, b, c, rfl⟩))

/-- Settles O41: a store is its checks, its release, its marks and its parts; each part is a write of home or of L1. -/
theorem globalStores : Obligations.GlobalStores := ⟨vectorStores, dirtyMarks, storePlace⟩

end Sys2Proof.Proofs


/-! SUPPORT. A result returns to its registers (R123, R237, R254, R291, R303). -/

namespace Sys2Proof.Proofs

open Sys2Proof Sys2Proof.Machine Sys2Proof.Claims Sys2Proof.Laws

/-! ### The registers of a result -/

/-- All of a warp but its registers and what is pending in them. -/
def offRegs (w : Warp) : Warp := { w with v := always 256 (always 32 0), s := always 128 0, p := always 8 0, vpend := 0, spend := 0 }

/-- The `v` part of a result. -/
def writeVs (m : Mask) (vs : List (Fin 256 × Vector Word 32)) (w : Warp) : Warp :=
  vs.foldl (fun w p => clearV (setV w p.1 m fun l => p.2[l]) p.1) w

/-- The `s` part of a result. -/
def writeSOf (o : Option (Fin 128 × Word)) (w : Warp) : Warp := match o with | some (d, v) => clearS (setS w d v) d | none => w

/-- The predicate part of a result. -/
def writePOf (m : Mask) (o : Option (Fin 8 × Mask)) (w : Warp) : Warp := match o with | some (d, x) => setP w d m x | none => w

theorem writeResult_eq (r : Result) (w : Warp) : writeResult r w = writePOf r.mask r.pw (writeSOf r.sw (writeVs r.mask r.vw w)) := rfl

theorem clearedBit {n : Nat} (x : BitVec n) (d k : Nat) (hk : k < n) :
    (x &&& ~~~BitVec.ofNat n (2 ^ d)).getLsbD k = (x.getLsbD k && decide (k ≠ d)) := by
  rw [BitVec.getLsbD_and, BitVec.getLsbD_not, BitVec.getLsbD_ofNat, decide_eq_true hk, Nat.testBit_two_pow]
  simp [eq_comm]

theorem writeVs_other (m : Mask) (vs : List (Fin 256 × Vector Word 32)) (w : Warp) {d : Fin 256} (h : ∀ p ∈ vs, p.1 ≠ d) :
    (∀ l, vreg (writeVs m vs w) d l = vreg w d l) ∧ (writeVs m vs w).vpend.getLsbD d.val = w.vpend.getLsbD d.val := by
  induction vs generalizing w with
  | nil => exact ⟨fun _ => rfl, rfl⟩
  | cons p r ih =>
    obtain ⟨reg, pend⟩ := ih (clearV (setV w p.1 m fun l => p.2[l]) p.1) fun y hy => h y (.tail _ hy)
    have other : d ≠ p.1 := fun e => h p (.head _) e.symm
    refine ⟨fun l => (reg l).trans ?_, pend.trans ?_⟩
    · exact (vreg_setV w p.1 d m _ l).trans (if_neg fun k => other k.1)
    · exact (clearedBit w.vpend p.1.val d.val d.isLt).trans (by simp [Fin.val_inj, other])

theorem writeVs_same (m : Mask) (vs : List (Fin 256 × Vector Word 32)) (w : Warp) (hn : (vs.map (·.1)).Nodup) {p : Fin 256 × Vector Word 32} (h : p ∈ vs) :
    (writeVs m vs w).vpend.getLsbD p.1.val = false ∧
      ∀ l, vreg (writeVs m vs w) p.1 l = if m.getLsbD l.val then p.2[l] else vreg w p.1 l := by
  induction vs generalizing w with
  | nil => cases h
  | cons y r ih =>
    obtain ⟨fresh, rest⟩ := List.nodup_cons.mp hn
    have distinct : ∀ z ∈ r, z.1 ≠ y.1 := fun z hz e => fresh (List.mem_map.mpr ⟨z, hz, e⟩)
    obtain rfl | hp := List.mem_cons.mp h
    · obtain ⟨reg, pend⟩ := writeVs_other m r (clearV (setV w p.1 m fun l => p.2[l]) p.1) distinct
      refine ⟨pend.trans ?_, fun l => (reg l).trans ?_⟩
      · exact (clearedBit w.vpend p.1.val p.1.val p.1.isLt).trans (by simp)
      · exact (vreg_setV w p.1 p.1 m _ l).trans (by simp)
    · obtain ⟨pend, reg⟩ := ih (clearV (setV w y.1 m fun l => y.2[l]) y.1) rest hp
      refine ⟨pend, fun l => (reg l).trans ?_⟩
      rw [show vreg (clearV (setV w y.1 m fun l => y.2[l]) y.1) p.1 l = vreg w p.1 l from
        (vreg_setV w y.1 p.1 m _ l).trans (if_neg fun k => distinct p hp k.1)]

/-- Beside `v` registers and what is pending in them a `v` part changes nothing. -/
theorem writeVs_rest (m : Mask) (vs : List (Fin 256 × Vector Word 32)) (w : Warp) :
    { writeVs m vs w with v := w.v, vpend := w.vpend } = w := by
  induction vs generalizing w with
  | nil => rfl
  | cons p r ih =>
    have step := ih (clearV (setV w p.1 m fun l => p.2[l]) p.1)
    exact congrArg (fun y : Warp => { y with v := w.v, vpend := w.vpend }) step

theorem writeVs_field {α : Type} (m : Mask) (vs : List (Fin 256 × Vector Word 32)) (w : Warp) (f : Warp → α)
    (hf : ∀ y : Warp, f { y with v := w.v, vpend := w.vpend } = f y) : f (writeVs m vs w) = f w := by
  rw [← hf (writeVs m vs w), writeVs_rest]

theorem writeSOf_v (o : Option (Fin 128 × Word)) (w : Warp) : (writeSOf o w).v = w.v ∧ (writeSOf o w).vpend = w.vpend := by
  unfold writeSOf setS clearS
  split
  · split <;> exact ⟨rfl, rfl⟩
  · exact ⟨rfl, rfl⟩

theorem writeSOf_same (w : Warp) {o : Option (Fin 128 × Word)} {d : Fin 128} {v : Word} (h : o = some (d, v)) (hd : d ≠ 0) :
    sreg (writeSOf o w) d = v ∧ (writeSOf o w).spend.getLsbD d.val = false := by
  subst h
  refine ⟨(sreg_setS w d d v).trans (if_pos ⟨rfl, hd⟩), ?_⟩
  exact (clearedBit (setS w d v).spend d.val d.val d.isLt).trans (by simp)

theorem setS_spend (w : Warp) (d : Fin 128) (v : Word) : (setS w d v).spend = w.spend := by
  unfold setS
  split <;> rfl

theorem writeSOf_other (w : Warp) {o : Option (Fin 128 × Word)} {d : Fin 128} (h : ∀ v, o ≠ some (d, v)) :
    sreg (writeSOf o w) d = sreg w d ∧ (writeSOf o w).spend.getLsbD d.val = w.spend.getLsbD d.val := by
  obtain _ | ⟨k, v⟩ := o
  · exact ⟨rfl, rfl⟩
  · have other : d ≠ k := fun e => h v (by rw [e])
    refine ⟨(sreg_setS w k d v).trans (if_neg fun e => other e.1), ?_⟩
    refine (clearedBit (setS w k v).spend k.val d.val d.isLt).trans ?_
    rw [setS_spend]
    simp [Fin.val_inj, other]

theorem writePOf_same (m : Mask) (w : Warp) {o : Option (Fin 8 × Mask)} {d : Fin 8} {x : Mask} (h : o = some (d, x)) (hd : d ≠ 7) (l : Nat)
    (hl : l < 32) : (preg (writePOf m o w) d).getLsbD l = if m.getLsbD l then x.getLsbD l else (preg w d).getLsbD l := by
  subst h
  show (preg (setP w d m x) d).getLsbD l = _
  rw [preg_setP, if_pos ⟨rfl, hd⟩]
  simp only [BitVec.getLsbD_or, BitVec.getLsbD_and, BitVec.getLsbD_not, decide_eq_true hl, Bool.true_and]
  cases m.getLsbD l <;> simp

theorem writePOf_other (m : Mask) (w : Warp) {o : Option (Fin 8 × Mask)} {d : Fin 8} (h : ∀ x, o ≠ some (d, x)) :
    preg (writePOf m o w) d = preg w d := by
  obtain _ | ⟨k, x⟩ := o
  · rfl
  · exact (preg_setP w k d m x).trans (if_neg fun e => h x (by rw [e.1]))

theorem writePOf_regs (m : Mask) (o : Option (Fin 8 × Mask)) (w : Warp) : (writePOf m o w).v = w.v ∧ (writePOf m o w).vpend = w.vpend ∧
    (writePOf m o w).s = w.s ∧ (writePOf m o w).spend = w.spend := by
  unfold writePOf setP
  split
  · split <;> exact ⟨rfl, rfl, rfl, rfl⟩
  · exact ⟨rfl, rfl, rfl, rfl⟩

/-- Beside registers and what is pending in them a result changes nothing of its warp. -/
theorem writeResult_rest (r : Result) (w : Warp) : offRegs (writeResult r w) = offRegs w := by
  have s : ∀ w, offRegs (writeSOf r.sw w) = offRegs w := fun w => by
    unfold writeSOf setS clearS
    split
    · split <;> rfl
    · rfl
  have p : ∀ w, offRegs (writePOf r.mask r.pw w) = offRegs w := fun w => by
    unfold writePOf setP
    split
    · split <;> rfl
    · rfl
  rw [writeResult_eq, p, s]
  exact writeVs_field _ _ _ offRegs fun _ => rfl

theorem writeResult_field {α : Type} (r : Result) (w : Warp) (f : Warp → α) (hf : ∀ y, f (offRegs y) = f y) : f (writeResult r w) = f w := by
  rw [← hf (writeResult r w), writeResult_rest, hf]

/-! ### The return -/

/-- A result still outstanding keeps a split of a warp from going on. -/
def stillHeld (s : State) (r : Result) : Bool := (s.results.filter fun x => x.id != r.id).any fun x => x.warp == r.warp && x.sp == r.sp && x.holds

/-- The warp of a result once it has returned. -/
def returnedWarp (s : State) (r : Result) (w : Warp) : Warp :=
  if r.holds && !stillHeld s r then modSplit (writeResult r w) r.sp fun x => { x with held := false } else writeResult r w

/-- The state once a result has returned, before its warp is settled. -/
def delivered (s : State) (r : Result) : State :=
  modWarp { s with results := s.results.filter fun x => x.id != r.id } r.warp (returnedWarp s r)

theorem finishResult_eq (s : State) (r : Result) : finishResult s r = if r.holds then settle (delivered s r) r.warp else delivered s r := rfl

theorem returnedWarp_field {α : Type} (s : State) (r : Result) (w : Warp) (f : Warp → α)
    (hs : ∀ (y : Warp) (k : Fin 8) (g : Split → Split), f (modSplit y k g) = f y) : f (returnedWarp s r w) = f (writeResult r w) := by
  unfold returnedWarp
  split
  · exact hs _ _ _
  · rfl

theorem modSplit_field {α : Type} (w : Warp) (k : Fin 8) (g : Split → Split) (f : Warp → α) (hf : ∀ (y : Warp) x, f { y with splits := x } = f y) :
    f (modSplit w k g) = f w := by
  unfold modSplit
  split
  · exact hf w _
  · rfl

theorem returnedWarp_id (s : State) (r : Result) (w : Warp) : (returnedWarp s r w).id = w.id :=
  (returnedWarp_field s r w Warp.id fun _ _ _ => modSplit_id _ _ _).trans (writeResult_field r w Warp.id fun _ => rfl)

theorem stillHeld_iff (s : State) (r : Result) : stillHeld s r = false ↔ ∀ q ∈ s.results, q.id ≠ r.id → q.warp = r.warp → q.sp = r.sp → q.holds = false := by
  simp only [stillHeld, List.any_eq_false, List.mem_filter, bne_iff_ne, Bool.and_eq_true, beq_iff_eq, and_imp, not_and, Bool.not_eq_true]

/-- A split goes on where the last result that held it has returned. -/
theorem returnedWarp_split (s : State) (r : Result) (w : Warp) {k : Fin 8} {x : Split} (h : w.splits[k] = some x) :
    ∃ z, (returnedWarp s r w).splits[k] = some z ∧ { z with held := x.held } = x ∧
      (z.held = true ↔ x.held = true ∧ ¬ (k = r.sp ∧ r.holds = true ∧ ∀ q ∈ s.results, q.id ≠ r.id → q.warp = r.warp → q.sp = r.sp →
        q.holds = false)) := by
  have splits : (writeResult r w).splits = w.splits := writeResult_field r w Warp.splits fun _ => rfl
  rw [← stillHeld_iff]
  unfold returnedWarp
  split
  case isTrue go =>
    obtain ⟨holds, last⟩ := Bool.and_eq_true_iff.mp go
    rw [Bool.not_eq_true'] at last
    by_cases hk : k = r.sp
    · subst hk
      refine ⟨{ x with held := false }, ?_, rfl, ?_⟩
      · rw [modSplit_same, splits, h]
        rfl
      · simp [holds, last]
    · refine ⟨x, ?_, rfl, ?_⟩
      · rw [modSplit_other _ _ _ _ hk, splits, h]
      · simp [hk]
  case isFalse stay =>
    refine ⟨x, (congrArg (·[k]) splits).trans h, rfl, ?_⟩
    have no : ¬ (k = r.sp ∧ r.holds = true ∧ stillHeld s r = false) := fun ⟨_, holds, last⟩ => stay (by rw [holds, last]; rfl)
    exact (and_iff_left no).symm

theorem vreg_congr {w y : Warp} (h : y.v = w.v) (d : Fin 256) (l : Fin 32) : vreg y d l = vreg w d l := by
  unfold vreg
  rw [h]

theorem sreg_congr {w y : Warp} (h : y.s = w.s) (d : Fin 128) : sreg y d = sreg w d := by
  unfold sreg
  rw [h]

theorem preg_congr {w y : Warp} (h : y.p = w.p) (d : Fin 8) : preg y d = preg w d := by
  unfold preg
  rw [h]

section

variable (s : State) (r : Result) (w : Warp)

theorem returnedWarp_v : (returnedWarp s r w).v = (writeVs r.mask r.vw w).v ∧ (returnedWarp s r w).vpend = (writeVs r.mask r.vw w).vpend := by
  have last := writePOf_regs r.mask r.pw (writeSOf r.sw (writeVs r.mask r.vw w))
  have mid := writeSOf_v r.sw (writeVs r.mask r.vw w)
  refine ⟨(returnedWarp_field s r w Warp.v fun y k g => modSplit_field y k g _ fun _ _ => rfl).trans (last.1.trans mid.1), ?_⟩
  exact (returnedWarp_field s r w Warp.vpend fun y k g => modSplit_field y k g _ fun _ _ => rfl).trans (last.2.1.trans mid.2)

theorem returnedWarp_s : (returnedWarp s r w).s = (writeSOf r.sw (writeVs r.mask r.vw w)).s ∧
    (returnedWarp s r w).spend = (writeSOf r.sw (writeVs r.mask r.vw w)).spend := by
  obtain ⟨-, -, regs, pend⟩ := writePOf_regs r.mask r.pw (writeSOf r.sw (writeVs r.mask r.vw w))
  exact ⟨(returnedWarp_field s r w Warp.s fun y k g => modSplit_field y k g _ fun _ _ => rfl).trans regs,
    (returnedWarp_field s r w Warp.spend fun y k g => modSplit_field y k g _ fun _ _ => rfl).trans pend⟩

theorem returnedWarp_p : (returnedWarp s r w).p = (writePOf r.mask r.pw (writeSOf r.sw (writeVs r.mask r.vw w))).p :=
  returnedWarp_field s r w Warp.p fun y k g => modSplit_field y k g _ fun _ _ => rfl

/-- The predicates that a result's other parts meet are those of its warp. -/
theorem otherParts_p : (writeSOf r.sw (writeVs r.mask r.vw w)).p = w.p := by
  have p : ∀ y, (writeSOf r.sw y).p = y.p := fun y => by
    unfold writeSOf
    split
    · exact setS_p _ _ _
    · rfl
  exact (p _).trans (writeVs_field _ _ _ Warp.p fun _ => rfl)

end

/-- A result has returned (R123). -/
theorem delivered_returned (s : State) (r : Result) (hn : (r.vw.map (·.1)).Nodup) : Returned s (delivered s r) r where
  gone y hy := bne_iff_ne.mp (List.mem_filter.mp hy).2
  others y hy h := List.mem_filter.mpr ⟨hy, bne_iff_ne.mpr h⟩
  frame := ⟨rfl, rfl, rfl, rfl⟩
  warps k hk := findWarp_modWarp_other _ _ _ _ (returnedWarp_id s r) hk
  regs w hw := by
    obtain ⟨v, vpend⟩ := returnedWarp_v s r w
    obtain ⟨sr, spend⟩ := returnedWarp_s s r w
    have p := returnedWarp_p s r w
    have s0 : (writeVs r.mask r.vw w).s = w.s := writeVs_field _ _ _ Warp.s fun _ => rfl
    have spend0 : (writeVs r.mask r.vw w).spend = w.spend := writeVs_field _ _ _ Warp.spend fun _ => rfl
    have p0 := otherParts_p r w
    refine ⟨returnedWarp s r w, ?_, fun p hp => ?_, fun d hd => ?_, fun d v hr hd => ?_, fun d hd => ?_, fun d m hr hd l hl => ?_, fun d hd => ?_,
      ?_, ?_, fun k x hx => returnedWarp_split s r w hx⟩
    · exact (findWarp_modWarp _ _ _ (returnedWarp_id s r)).trans (congrArg (Option.map _) hw)
    · rw [vpend]
      simp only [vreg_congr v]
      exact writeVs_same r.mask r.vw w hn hp
    · rw [vpend]
      simp only [vreg_congr v]
      exact writeVs_other r.mask r.vw w hd
    · rw [spend, sreg_congr sr]
      exact writeSOf_same _ hr hd
    · rw [spend, sreg_congr sr, ← sreg_congr s0, ← spend0]
      exact writeSOf_other _ hd
    · rw [preg_congr p, ← preg_congr p0]
      exact writePOf_same _ _ hr hd l hl
    · rw [preg_congr p, ← preg_congr p0]
      exact writePOf_other _ _ hd
    · exact (returnedWarp_field s r w Warp.live fun y k g => modSplit_field y k g _ fun _ _ => rfl).trans
        (writeResult_field r w Warp.live fun _ => rfl)
    · exact (returnedWarp_field s r w Warp.h fun y k g => modSplit_field y k g _ fun _ _ => rfl).trans
        (writeResult_field r w Warp.h fun _ => rfl)

/-! ### Which result returns -/

/-- A special-function result passes none of its warp (R303). -/
theorem inOrder_iff {s : State} {r : Result} {a b : List Result} (hs : s.results = a ++ r :: b) (hn : (s.results.map (·.id)).Nodup) :
    inOrder s r = true ↔ ¬ (r.kind = .sfu ∧ ∃ z ∈ a, z.kind = .sfu ∧ z.warp = r.warp) := by
  by_cases hk : r.kind = .sfu
  · have order : inOrder s r = ((s.results.find? fun x => x.kind == .sfu && x.warp == r.warp).map (·.id) == some r.id) := by
      rw [inOrder, hk]
      rfl
    rw [order, beq_iff_eq, hs, List.find?_append]
    cases hz : a.find? fun x => x.kind == .sfu && x.warp == r.warp with
    | none =>
      rw [List.find?_eq_none] at hz
      have first : (r :: b).find? (fun x => x.kind == .sfu && x.warp == r.warp) = some r := List.find?_cons_of_pos (by simp [hk])
      rw [Option.none_or, first]
      refine iff_of_true rfl fun ⟨_, z, hza, hzk, hzw⟩ => hz z hza (by simp [hzk, hzw])
    | some z =>
      have taken := List.find?_some hz
      have mem := List.mem_of_find?_eq_some hz
      rw [Bool.and_eq_true, beq_iff_eq, beq_iff_eq] at taken
      refine iff_of_false (fun e => ?_) fun no => no ⟨hk, z, mem, taken⟩
      rw [hs, List.map_append, List.nodup_append] at hn
      exact hn.2.2 z.id (List.mem_map_of_mem mem) r.id (List.mem_map_of_mem (List.mem_cons_self ..)) (Option.some.inj e)
  · refine iff_of_true ?_ fun h => hk h.1
    rw [inOrder, bne_iff_ne.mpr hk]
    rfl

theorem resultDue_iff (s : State) (r : Result) : resultDue s r = true ↔ ∀ n, r.due = some n → n ≤ s.now := by
  unfold resultDue
  cases r.due <;> simp

/-- The first result of a path that may return is the one that returns. -/
theorem firstResult_due {s : State} {k : RKind} {r : Result} (h : FirstDue s k r) : firstResult s k = finishResult s r := by
  obtain ⟨a, b, hs, hk, due, noPass, hn, before⟩ := h
  have found : s.results.find? (fun r => r.kind == k && resultDue s r && inOrder s r) = some r := by
    refine List.find?_eq_some_iff_append.mpr ⟨?_, a, b, hs, fun y hy => ?_⟩
    · rw [(inOrder_iff hs hn).mpr fun e => noPass ⟨hk.symm.trans e.1, e.2⟩, (resultDue_iff s r).mpr due, hk]
      simp
    · obtain ⟨u, v, split⟩ := List.append_of_mem hy
      rw [Bool.not_eq_true', Bool.eq_false_iff]
      intro returns
      simp only [Bool.and_eq_true, beq_iff_eq] at returns
      obtain ⟨⟨yk, yDue⟩, order⟩ := returns
      obtain ⟨n, hd, late⟩ | passes := before u v y split yk
      · exact absurd ((resultDue_iff s y).mp yDue n hd) (by omega)
      · refine (inOrder_iff (a := u) (b := v ++ r :: b) ?_ hn).mp order ⟨yk.trans passes.1, passes.2⟩
        rw [hs, split, List.append_assoc, List.cons_append]
  rw [firstResult, found]

theorem resultsReturn : Claims.ResultsReturn := by
  refine ⟨fun s r h hn => ⟨delivered s r, ?_, delivered_returned s r hn⟩, fun s i k r hi h hn => ⟨delivered s r, ?_, delivered_returned s r hn⟩⟩
  · show execLoadDataReturn r.id s = _
    rw [execLoadDataReturn, h, ← finishResult_eq]
  · have run : exec i s = .next (firstResult s k) := by
      simp only [List.mem_cons, Prod.mk.injEq, List.not_mem_nil, or_false] at hi
      obtain ⟨rfl, rfl⟩ | ⟨rfl, rfl⟩ | ⟨rfl, rfl⟩ := hi <;> rfl
    rw [run, firstResult_due h, finishResult_eq]

end Sys2Proof.Proofs


/-! SUPPORT. The walks of the tables (R132, R134-R137). -/

namespace Sys2Proof.Proofs

open Sys2Proof Sys2Proof.Machine Sys2Proof.Claims Sys2Proof.Laws

/-! ### Translations entered -/

/-- A translation that covers an address of its context. -/
def Covers (e : TlbEntry) (c : Fin 64) (va : Nat) : Prop := e.ctx = c ∧ e.base ≤ va ∧ va < e.base + e.size

theorem tlbFind_covers {t : List TlbEntry} {c : Fin 64} {va : Nat} {e : TlbEntry} (h : tlbFind t c va = some e) : Covers e c va := by
  simpa [Covers, and_assoc] using List.find?_some h

theorem tlbFind_head {t : List TlbEntry} {c : Fin 64} {va : Nat} {e : TlbEntry} (h : t.head? = some e) (hc : Covers e c va) :
    tlbFind t c va = some e := by
  obtain ⟨r, rfl⟩ := List.head?_eq_some_iff.mp h
  exact List.find?_cons_of_pos (by simp [hc.1, hc.2.1, hc.2.2])

theorem tlbEnter_head {n : Nat} (t : List TlbEntry) (e : TlbEntry) (hn : 0 < n) : (tlbEnter n t e).head? = some e := by
  obtain ⟨k, rfl⟩ : ∃ k, n = k + 1 := ⟨n - 1, by omega⟩
  rfl

/-- The cores that waited for a walk translate by what it found; the rest of the state stays. -/
theorem coresEnter (ks : List (Fin 384)) (s : State) (e : TlbEntry) :
    { ks.foldl (fun s c => coreEnter s c e) s with cores := s.cores } = s ∧
    ∀ k : Fin 384, k ∈ ks ∨ s.cores[k].tlb.head? = some e → (ks.foldl (fun s c => coreEnter s c e) s).cores[k].tlb.head? = some e := by
  induction ks generalizing s with
  | nil => exact ⟨rfl, fun k h => h.resolve_left List.not_mem_nil⟩
  | cons c r ih =>
    obtain ⟨rest, heads⟩ := ih (coreEnter s c e)
    refine ⟨congrArg (fun z : State => { z with cores := s.cores }) rest, fun k h => heads k ?_⟩
    by_cases hk : k = c
    · subst hk
      right
      rw [coreEnter, modCore_same]
      exact tlbEnter_head _ _ (by omega)
    · obtain h | h := h
      · exact .inl ((List.mem_cons.mp h).resolve_left hk)
      · right
        rw [coreEnter, modCore_other _ _ _ _ hk]
        exact h

theorem coresEnter_field {α : Type} (ks : List (Fin 384)) (s : State) (e : TlbEntry) (f : State → α)
    (hf : ∀ z : State, f { z with cores := s.cores } = f z) : f (ks.foldl (fun s c => coreEnter s c e) s) = f s := by
  rw [← hf (ks.foldl (fun s c => coreEnter s c e) s), (coresEnter ks s e).1]

theorem coresEnter_finds {ks : List (Fin 384)} {s : State} {e : TlbEntry} {c : Fin 64} {va : Nat} (he : Covers e c va) :
    ∀ k ∈ ks, tlbFind (ks.foldl (fun s c => coreEnter s c e) s).cores[k].tlb c va = some e := fun k hk =>
  tlbFind_head ((coresEnter ks s e).2 k (.inl hk)) he

/-! ### What a walk reads -/

/-- What a walk reads of a state is the same. -/
structure SameTables (s t : State) : Prop where
  mem : t.mem = s.mem
  bad : t.bad = s.bad
  ctxs : t.ctxs = s.ctxs
  down : t.bridge.down = s.bridge.down
  dstate : ∀ d : Fin 2, t.dies[d].dstate = s.dies[d].dstate
  fwd : ∀ d : Fin 2, t.dies[d].fwd = s.dies[d].fwd
  nodes : ∀ d : Fin 2, t.dies[d].nodes = s.dies[d].nodes

section

variable {s t : State}

theorem SameTables.entryFault (h : SameTables s t) (d : Fin 2) (a : Nat) : entryFault t d a = entryFault s d a := by
  have holder : holderOf t (a / 256) = holderOf s (a / 256) := by
    unfold holderOf
    simp only [h.fwd]
  unfold Machine.entryFault
  rw [h.dstate, h.bad, h.down, holder]

theorem SameTables.walkFrom (h : SameTables s t) (d : Fin 2) (x : Ctx) (va : Nat) (from_ : Word) (via : List (Nat × Word)) (level node : Nat) :
    walkFrom t d x va from_ via level node = walkFrom s d x va from_ via level node := by
  induction level generalizing from_ via node with
  | zero => simp only [Machine.walkFrom, h.entryFault, h.mem]
  | succ n ih => simp only [Machine.walkFrom, h.entryFault, h.mem, ih]

theorem SameTables.walk (h : SameTables s t) (d : Fin 2) (c : Fin 64) (va : Nat) : walk t d c va = walk s d c va := by
  unfold Machine.walk
  simp only [h.ctxs, h.nodes, h.walkFrom]

end

/-- The walks asked of a die, without one. -/
def withoutWalk (s : State) (d : Fin 2) (r : WalkReq) : State :=
  modDie s d fun x => { x with walks := x.walks.filter fun y => !(y.ctx == r.ctx && y.page == r.page) }

theorem modDie_field {α : Type} (s : State) (d e : Fin 2) (g : Die → Die) (f : Die → α) (hf : ∀ z, f (g z) = f z) :
    f (modDie s d g).dies[e] = f s.dies[e] := by
  by_cases h : e = d
  · subst h
    rw [modDie_same, hf]
  · rw [modDie_other _ _ _ _ h]

theorem withoutWalk_tables (s : State) (d : Fin 2) (r : WalkReq) : SameTables s (withoutWalk s d r) :=
  ⟨rfl, rfl, rfl, rfl, fun e => modDie_field s d e _ Die.dstate fun _ => rfl, fun e => modDie_field s d e _ Die.fwd fun _ => rfl,
    fun e => modDie_field s d e _ Die.nodes fun _ => rfl⟩

theorem withoutWalk_walks (s : State) (d : Fin 2) (r : WalkReq) : ∀ y ∈ (withoutWalk s d r).dies[d].walks, ¬ (y.ctx = r.ctx ∧ y.page = r.page) := by
  intro y hy
  rw [withoutWalk, modDie_same] at hy
  simpa [imp_iff_not_or] using (List.mem_filter.mp hy).2

theorem withoutWalk_tlb (s : State) (d : Fin 2) (r : WalkReq) : (withoutWalk s d r).dies[d].tlb = s.dies[d].tlb :=
  modDie_field s d d _ Die.tlb fun _ => rfl

/-! ### Read-duplicate pages -/

/-- Only the slices change, and what the part remembers of read-duplicate pages. -/
theorem shareCopies_used (s : State) (e : TlbEntry) : ∃ u x, SlicesUsed s u ∧ shareCopies s e = { u with dups := x } := by
  unfold shareCopies
  split
  · exact ⟨s, s.dups, .refl s, rfl⟩
  · have recalled : ∀ (s : State) (here : Nat → Bool), SlicesUsed s ((List.finRange 2).foldl
        (fun s d => (s.dies[d].fwd.filter here).foldl (fun s line => pastStall s (recallLine · line)) s) s) := fun s here =>
      .fold (fun s d => .fold (fun s line => pastStall_slices (fun s => recallLine_slices s line) s) _ _) _ _
    have shared : ∀ (s : State) (here : Nat → Bool), SlicesUsed s ((List.finRange 2).foldl
        (fun s d => ((s.dies[d].l2.map (·.line)).filter here).foldl (fun s line => l2Shared s d line true) s) s) := fun s here =>
      .fold (fun s d => .fold (fun s line => l2Shared_slices s d line true) _ _) _ _
    exact ⟨_, _, (recalled s _).trans (shared _ _), rfl⟩

/-! ### What a walk leaves -/

section

variable {s : State} {d : Fin 2} {r : WalkReq} {va : Nat}

/-- The page of a walk as an address. -/
theorem pageAddr (hr : r.page < 2 ^ 41) : (BitVec.ofNat 64 (r.page * 2 ^ 16)).toNat = r.page * 2 ^ 16 := by
  rw [BitVec.toNat_ofNat]
  exact Nat.mod_eq_of_lt (by omega)

/-- The leaf that a walk found, as the TLBs take it: with A set. -/
abbrev foundLeaf (c : Fin 64) (va level : Nat) (p : Word) (a : Nat) : TlbEntry := tlbOf c va level (p ||| 0x8000#64) a

theorem foundLeaf_covers (c : Fin 64) (va level : Nat) (p : Word) (a : Nat) : Covers (foundLeaf c va level p a) c va := by
  have pos : 0 < pageSize level := by
    unfold pageSize
    split_ifs <;> decide
  refine ⟨rfl, Nat.div_mul_le_self _ _, ?_⟩
  exact Nat.lt_div_mul_add pos

/-- A is set in the entry that a walk found, where it was not. -/
def entrySeen (s : State) (d : Fin 2) (c : Fin 64) (a : Nat) (p : Word) : State :=
  let t := crossed s d (holderOf s (a / 256)) (lineSlice (a / 256)).val
  if pteA p then t else setEntry t d c a (p ||| 0x8000#64)

theorem entrySeen_kept (s : State) (d : Fin 2) (c : Fin 64) (a : Nat) (p : Word) : HomeKept s (entrySeen s d c a p) :=
  (slicesUsed_homeKept (crossed_slices _ _ _ _)).trans (.ite (.refl _) (setEntry_kept _ _ _ _ _))

theorem entrySeen_mem (s : State) (d : Fin 2) (c : Fin 64) (a : Nat) (p : Word) :
    (entrySeen s d c a p).mem = if pteA p then s.mem else writeN s.mem a 8 (p ||| 0x8000#64).toNat := by
  have mem : (crossed s d (holderOf s (a / 256)) (lineSlice (a / 256)).val).mem = s.mem := (crossed_only _ _ _ _).mem
  unfold entrySeen
  dsimp only
  split
  · exact mem
  · rw [setEntry_mem, mem]

/-- What a walk that ends at a leaf leaves of its die, once the leaf is entered there. -/
structure LeafEntered (s t : State) (d : Fin 2) (e : TlbEntry) : Prop where
  mem : t.mem = s.mem
  warps : t.warps = s.warps
  ctxs : t.ctxs = s.ctxs
  units : t.units = s.units
  walks : t.dies[d].walks = s.dies[d].walks
  head : t.dies[d].tlb.head? = some e

theorem leafEntered (s : State) (d : Fin 2) (c : Fin 64) (va : Nat) (via : List (Nat × Word)) (e : TlbEntry) :
    LeafEntered s (shareCopies (dieEnter (nodesEnter s d c va via) d e) e) d e := by
  obtain ⟨u, x, used, share⟩ := shareCopies_used (dieEnter (nodesEnter s d c va via) d e) e
  rw [share]
  have kept := slicesUsed_homeKept used
  have dieKept := fun {α : Type} (f : Die → α) hf => kept.die.field d f hf
  refine ⟨used.field State.mem fun _ => rfl, kept.warps, kept.ctxs, kept.units, ?_, ?_⟩
  · refine (kept.walks d).trans ?_
    rw [dieEnter, modDie_same, nodesEnter, modDie_same]
  · show u.dies[d].tlb.head? = _
    rw [kept.tlb, dieEnter, modDie_same]
    exact tlbEnter_head _ _ (by omega)

/-- The state of a walk that found a leaf, before the cores that wait take it. -/
theorem walkNow_leaf {s : State} {d : Fin 2} {c : Fin 64} {va : Word} {a level : Nat} {p : Word} {via : List (Nat × Word)} (hv : va.toNat < 2 ^ 57)
    (hf : tlbFind s.dies[d].tlb c va.toNat = none) (hw : walk s d c va.toNat = .leaf a p level via) :
    ∃ pa, walkNow s d c va = (.ok pa (foundLeaf c va.toNat level p a),
      shareCopies (dieEnter (nodesEnter (entrySeen s d c a p) d c va.toNat via) d (foundLeaf c va.toNat level p a)) (foundLeaf c va.toNat level p a)) := by
  refine ⟨physical (foundLeaf c va.toNat level p a) va.toNat d, ?_⟩
  unfold walkNow
  dsimp only
  rw [if_neg (by omega), hf]
  dsimp only
  rw [hw]
  rfl

theorem walkNow_stop {s : State} {d : Fin 2} {c : Fin 64} {va : Word} {cause : Nat} {p : Word} (hv : va.toNat < 2 ^ 57)
    (hf : tlbFind s.dies[d].tlb c va.toNat = none) (hw : walk s d c va.toNat = .stop cause p) : walkNow s d c va = (.bad cause p, s) := by
  unfold walkNow
  dsimp only
  rw [if_neg (by omega), hf]
  dsimp only
  rw [hw]

theorem walkNow_hit {s : State} {d : Fin 2} {c : Fin 64} {va : Word} {e : TlbEntry} (hv : va.toNat < 2 ^ 57)
    (hf : tlbFind s.dies[d].tlb c va.toNat = some e) : walkNow s d c va = (.ok (physical e va.toNat d) e, s) := by
  unfold walkNow
  dsimp only
  rw [if_neg (by omega), hf]

/-- The splits and the operations that wait learn of a walk that stopped. -/
def walkFailed (s : State) (d : Fin 2) (r : WalkReq) (f : WalkFail) : State :=
  modDie { s with warps := if r.splits.isEmpty then s.warps else s.warps.map (·.failed r.splits f) } d
    fun x => { x with engFails := r.ops.map (fun id => (id, f)) ++ x.engFails }

section

variable {s : State} {d : Fin 2} {r : WalkReq} (hw : walkStalled s r.ctx = false)

include hw

theorem runWalk_ok {e : TlbEntry} {pa : Nat} {t : State}
    (h : walkNow (withoutWalk s d r) d r.ctx (BitVec.ofNat 64 (r.page * 2 ^ 16)) = (.ok pa e, t)) :
    runWalk s d r = r.cores.foldl (fun s c => coreEnter s c e) t := by
  unfold withoutWalk at h
  unfold runWalk
  rw [hw, if_neg Bool.false_ne_true]
  dsimp only
  rw [h]

theorem runWalk_bad {cause : Nat} {p : Word} {t : State}
    (h : walkNow (withoutWalk s d r) d r.ctx (BitVec.ofNat 64 (r.page * 2 ^ 16)) = (.bad cause p, t)) :
    runWalk s d r = walkFailed t d r { ctx := r.ctx, page := r.page, cause := cause, pte := p } := by
  unfold withoutWalk at h
  unfold runWalk walkFailed
  rw [hw, if_neg Bool.false_ne_true]
  dsimp only
  rw [h]

end

/-! ### What the waiting ones learn -/

theorem failed_split (w : Warp) (who : List (Nat × Fin 8)) (f : WalkFail) {n : Fin 8} {z : Split} (h : w.splits[n] = some z) :
    (w.failed who f).splits[n] = some (if (w.id, n) ∈ who ∧ z.st = .blocked then { z with fails := f :: z.fails } else z) := by
  rw [Warp.failed, tabulate_get, h, Option.map_some]
  simp only [Bool.and_eq_true, List.contains_iff_mem, beq_iff_eq]

theorem walkFailed_split (s : State) (d : Fin 2) (r : WalkReq) (f : WalkFail) {w : Warp} {n : Fin 8} {z : Split} (hw : findWarp s w.id = some w)
    (h : w.splits[n] = some z) : ∃ y, findWarp (walkFailed s d r f) w.id = some y ∧
      y.splits[n] = some (if (w.id, n) ∈ r.splits ∧ z.st = .blocked then { z with fails := f :: z.fails } else z) := by
  cases hr : r.splits with
  | nil =>
    refine ⟨w, ?_, ?_⟩
    · unfold walkFailed
      rw [hr]
      exact hw
    · rw [h, if_neg fun e => List.not_mem_nil e.1]
  | cons a b =>
    refine ⟨w.failed r.splits f, ?_, hr ▸ failed_split w r.splits f h⟩
    have warps : (walkFailed s d r f).warps = s.warps.map (·.failed r.splits f) := by
      unfold walkFailed
      rw [hr]
      rfl
    unfold findWarp
    rw [warps, List.find?_map]
    exact congrArg (Option.map _) hw

theorem walkFailed_engFails (s : State) (d : Fin 2) (r : WalkReq) (f : WalkFail) (id : Nat) (g : WalkFail) :
    (id, g) ∈ (walkFailed s d r f).dies[d].engFails ↔ (id ∈ r.ops ∧ g = f) ∨ (id, g) ∈ s.dies[d].engFails := by
  rw [walkFailed, modDie_same, List.mem_append, List.mem_map]
  refine or_congr ⟨?_, fun h => ⟨id, h.1, by rw [h.2]⟩⟩ Iff.rfl
  rintro ⟨k, hk, e⟩
  cases e
  exact ⟨hk, rfl⟩

theorem pageWalks : Claims.PageWalks := by
  intro s d i r hi hr va
  have run : exec (.pageWalk d i) s = .next (runWalk s d r) := by
    show execPageWalk d i s = _
    rw [execPageWalk, hi]
  have addr : (BitVec.ofNat 64 (r.page * 2 ^ 16)).toNat = va := pageAddr hr
  have bound : (BitVec.ofNat 64 (r.page * 2 ^ 16)).toNat < 2 ^ 57 := by rw [addr]; show r.page * 2 ^ 16 < _; omega
  have tlb := withoutWalk_tlb s d r
  have walks := withoutWalk_walks s d r
  refine ⟨fun hw => ?_, fun hw => ⟨runWalk s d r, run, ?_⟩⟩
  · rw [run, runWalk, hw]
    rfl
  cases hf : tlbFind s.dies[d].tlb r.ctx va with
  | some e =>
    have now := walkNow_hit (c := r.ctx) bound (by rw [tlb, addr, hf])
    rw [runWalk_ok hw now]
    have kept := fun {α : Type} (f : State → α) hf => coresEnter_field r.cores (withoutWalk s d r) e f hf
    refine ⟨kept State.ctxs fun _ => rfl, kept State.units fun _ => rfl, ?_, fun e' he => ?_, fun a p level via no => by simp at no,
      fun cause p no => by simp at no⟩
    · rw [kept State.dies fun _ => rfl]
      exact walks
    · cases he
      exact ⟨kept State.mem fun _ => rfl, kept State.warps fun _ => rfl, coresEnter_finds (tlbFind_covers hf)⟩
  | none =>
    have hf' : tlbFind (withoutWalk s d r).dies[d].tlb r.ctx (BitVec.ofNat 64 (r.page * 2 ^ 16)).toNat = none := by rw [tlb, addr, hf]
    have same := (withoutWalk_tables s d r).walk d r.ctx va
    cases hk : walk s d r.ctx va with
    | leaf a p level via =>
      obtain ⟨pa, now⟩ := walkNow_leaf bound hf' (by rw [addr, same, hk])
      rw [addr] at now
      rw [runWalk_ok hw now]
      have entered := leafEntered (entrySeen (withoutWalk s d r) d r.ctx a p) d r.ctx va via (foundLeaf r.ctx va level p a)
      generalize shareCopies _ _ = u at entered
      have seen := entrySeen_kept (withoutWalk s d r) d r.ctx a p
      have seenMem : (entrySeen (withoutWalk s d r) d r.ctx a p).mem = if pteA p then s.mem else writeN s.mem a 8 (p ||| 0x8000#64).toNat :=
        entrySeen_mem (withoutWalk s d r) d r.ctx a p
      generalize entrySeen (withoutWalk s d r) d r.ctx a p = v at entered seen seenMem
      have kept := fun {α : Type} (f : State → α) hf => coresEnter_field r.cores u (foundLeaf r.ctx va level p a) f hf
      have mem := (kept State.mem fun _ => rfl).trans (entered.mem.trans seenMem)
      have dies := kept State.dies fun _ => rfl
      refine ⟨(kept State.ctxs fun _ => rfl).trans (entered.ctxs.trans seen.ctxs), (kept State.units fun _ => rfl).trans
        (entered.units.trans seen.units), ?_, fun e no => by simp at no, fun a' p' level' via' _ he hm => ?_, fun cause p' _ no => by simp at no⟩
      · rw [dies, entered.walks, seen.walks]
        exact walks
      · cases he
        have covers := foundLeaf_covers r.ctx va level p a
        refine ⟨?_, coresEnter_finds covers, (kept State.warps fun _ => rfl).trans (entered.warps.trans seen.warps), fun set => ?_,
          fun clear => ?_, fun b hb => ?_⟩
        · rw [dies]
          exact tlbFind_head entered.head covers
        · rw [mem, set, if_pos rfl]
        · rw [mem, clear, if_neg Bool.false_ne_true, readWord, readN_writeN _ _ _ _ hm]
          exact BitVec.eq_of_toNat_eq (by rw [BitVec.toNat_ofNat]; omega)
        · rw [mem]
          split
          · rfl
          · exact readByte_writeN_outside _ _ _ _ _ hm hb
    | stop cause p =>
      have now := walkNow_stop bound hf' (by rw [addr, same, hk])
      rw [runWalk_bad hw now]
      refine ⟨rfl, rfl, ?_, fun e no => by simp at no, fun a p level via _ no => by simp at no, fun cause' p' _ he => ?_⟩
      · rw [walkFailed, modDie_same]
        exact walks
      · cases he
        refine ⟨rfl, rfl, fun w n z hw hz => walkFailed_split _ d r _ hw hz, fun id g => ?_⟩
        rw [walkFailed_engFails]
        have engs : (withoutWalk s d r).dies[d].engFails = s.dies[d].engFails := modDie_field s d d _ Die.engFails fun _ => rfl
        rw [engs]

end

end Sys2Proof.Proofs


/-! SUPPORT. The end of a `tlbinv` (R135, R337, R372). -/

namespace Sys2Proof.Proofs

open Sys2Proof Sys2Proof.Machine Sys2Proof.Claims Sys2Proof.Laws

/-! ### The final state of a handle -/

section

variable (s : State) (c : Fin 64) (h : BitVec 32) (st : HState) (f : HEntry → HEntry)

/-- The end of a handle changes handles only, and the serial number that orders the ends. -/
theorem endHandle_rest : { endHandle s c h st f with ctxs := s.ctxs, serial := s.serial } = s := by
  unfold endHandle modEntry
  dsimp only
  split <;> rfl

theorem endHandle_field {α : Type} (g : State → α) (hg : ∀ z : State, g { z with ctxs := s.ctxs, serial := s.serial } = g z) :
    g (endHandle s c h st f) = g s := by
  rw [← hg (endHandle s c h st f), endHandle_rest]

/-- The handle of an operation takes its final state, where it was pending. -/
theorem endHandle_ends {s u : State} {c : Fin 64} (hu : u.ctxs = s.ctxs) (h : BitVec 32) (st : HState) {f : HEntry → HEntry}
    (hf : ∀ e, (f e).slot = e.slot) : HandleEnds s (endHandle u c h st f) c h st := by
  intro e he hp
  rw [← hu] at he
  unfold endHandle modEntry
  dsimp only
  rw [show entryOf ({ u with serial := u.serial + 1 } : State).ctxs[c] h = some e from he]
  dsimp only
  rw [modHandle, modCtx_same]
  refine ⟨_, List.mem_map.mpr ⟨e, List.mem_of_find?_eq_some he, rfl⟩, ?_⟩
  simp [hp, hf]

end

/-- Whether a handle reads cancelled when its operation ends. -/
theorem cancelAsked_entry {s : State} {c : Fin 64} {h : BitVec 32} {e : HEntry} (he : entryOf s.ctxs[c] h = some e) (hp : e.st = .pending) :
    cancelAsked s c h = e.cancelReq := by
  unfold cancelAsked
  rw [he]
  simp [hp]

theorem cancelAsked_ctxs {s u : State} (hu : u.ctxs = s.ctxs) (c : Fin 64) (h : BitVec 32) : cancelAsked u c h = cancelAsked s c h := by
  unfold cancelAsked
  rw [hu]

/-! ### Write-backs of every core -/

theorem cleanCores_lines (s : State) : LinesKept s (cleanCores s) := .fold (fun s k => .ite (.refl s) (l1Clean_lines s k _)) _ s

/-! ### What an invalidation leaves (R135, R372) -/

/-- An entry that an invalidation of a context's range drops. -/
def hitBy (c : Fin 64) (lo len : Nat) (e : TlbEntry) : Bool := e.ctx == c && coversRange lo len e.base e.size

theorem hitBy_iff (c : Fin 64) (lo len : Word) (e : TlbEntry) : hitBy c lo.toNat len.toNat e = false ↔ Claims.outside c lo len e := by
  have zero : len.toNat = 0 ↔ len = 0 := by rw [← BitVec.toNat_inj]; rfl
  unfold hitBy coversRange Claims.outside
  by_cases hc : e.ctx = c
  · by_cases hl : len = 0
    · simp [hc, hl]
    · have hl' : len.toNat ≠ 0 := fun k => hl (zero.mp k)
      simp only [hc, hl, beq_self_eq_true, Bool.true_and, Bool.or_eq_false_iff, beq_eq_false_iff_ne, Bool.and_eq_false_iff, decide_eq_false_iff_not,
        ne_eq, not_false_eq_true, true_and, forall_const, hl']
      omega
  · simp [hc]

/-- One core's TLB without the entries of an invalidation. -/
def coreDrop (hit : TlbEntry → Bool) (s : State) (k : Fin 384) : State :=
  if s.cores[k].tlb.isEmpty then s else modCore s k fun x => { x with tlb := x.tlb.filter fun e => !hit e }

theorem coreDrop_tlb (hit : TlbEntry → Bool) (s : State) (k j : Fin 384) :
    (coreDrop hit s k).cores[j].tlb = if j = k then s.cores[j].tlb.filter fun e => !hit e else s.cores[j].tlb := by
  unfold coreDrop
  split
  case isTrue empty =>
    split
    case isTrue same => rw [same, List.isEmpty_iff.mp empty]; rfl
    case isFalse => rfl
  case isFalse =>
    split
    case isTrue same => subst same; rw [modCore_same]
    case isFalse other => rw [modCore_other _ _ _ _ other]

theorem coreDrop_rest (hit : TlbEntry → Bool) (s : State) (k : Fin 384) : { coreDrop hit s k with cores := s.cores } = s := by
  unfold coreDrop
  split <;> rfl

theorem coresDrop_rest (hit : TlbEntry → Bool) (ks : List (Fin 384)) (s : State) : { ks.foldl (coreDrop hit) s with cores := s.cores } = s := by
  induction ks generalizing s with
  | nil => rfl
  | cons c r ih =>
    have step := congrArg (fun z : State => { z with cores := s.cores }) (ih (coreDrop hit s c))
    exact step.trans (coreDrop_rest hit s c)

/-- A pass over every core that drops entries drops them from every TLB. -/
theorem coresDrop_tlb (hit : TlbEntry → Bool) (ks : List (Fin 384)) (s : State) (j : Fin 384) (e : TlbEntry) :
    e ∈ (ks.foldl (coreDrop hit) s).cores[j].tlb ↔ e ∈ s.cores[j].tlb ∧ (j ∈ ks → hit e = false) := by
  induction ks generalizing s with
  | nil => simp
  | cons c r ih =>
    rw [List.foldl_cons, ih, coreDrop_tlb]
    by_cases h : j = c
    · simp [h]
      tauto
    · simp [h]

/-- Warps of a context forget the walks that failed (R137). -/
def calmWarp (c : Fin 64) (x : Warp) : Warp :=
  if x.ctx = c then { x with splits := tabulate 8 fun k => x.splits[k].map fun (y : Split) => { y with fails := [] } } else x

/-- What an invalidation of a context's range leaves. -/
structure Invalidated (s t : State) (c : Fin 64) (hit : TlbEntry → Bool) : Prop where
  ctxs : t.ctxs = s.ctxs
  units : t.units = s.units
  maints : t.maints = s.maints
  warps : t.warps = s.warps.map (calmWarp c)
  dieTlb : ∀ (d : Fin 2) e, e ∈ t.dies[d].tlb ↔ e ∈ s.dies[d].tlb ∧ hit e = false
  nodes : ∀ d : Fin 2, ∀ e ∈ t.dies[d].nodes, e.ctx ≠ c
  coreTlb : ∀ (k : Fin 384) e, e ∈ t.cores[k].tlb ↔ e ∈ s.cores[k].tlb ∧ hit e = false

/-- One change of both dies, as each of them sees it. -/
theorem bothDies (s : State) (f : Die → Die) (d : Fin 2) : (modDie (modDie s 0 f) 1 f).dies[d] = f s.dies[d] := by
  obtain rfl | rfl : d = 0 ∨ d = 1 := by omega
  · rw [modDie_other _ _ _ _ (by decide), modDie_same]
  · rw [modDie_same, modDie_other _ _ _ _ (by decide)]

/-- The dies without the translations and the pointer entries that an invalidation drops. -/
def diesDrop (s : State) (c : Fin 64) (hit : TlbEntry → Bool) : State :=
  let one := fun (x : Die) => { x with tlb := x.tlb.filter fun e => !hit e, nodes := x.nodes.filter fun e => e.ctx != c }
  modDie (modDie s 0 one) 1 one

/-- With them the lines of copies that a collapse has dropped. -/
def copiesDrop (s : State) (c : Fin 64) (hit : TlbEntry → Bool) : State :=
  (List.finRange 2).foldl (fun t d => modDie t d fun x => { x with l2 := x.l2.filter fun e => !droppedCopy t d (s.dups.filter hit) e.line })
    (diesDrop s c hit)

theorem copiesDrop_used (s : State) (c : Fin 64) (hit : TlbEntry → Bool) : SlicesUsed (diesDrop s c hit) (copiesDrop s c hit) :=
  .fold (fun t d => modL2_slices t d fun x => x.l2.filter fun e => !droppedCopy t d (s.dups.filter hit) e.line) _ _

theorem tlbInvalidate_eq (s : State) (c : Fin 64) (lo len : Nat) : tlbInvalidate s c lo len =
    (List.finRange 384).foldl (coreDrop (hitBy c lo len)) (forgetWalks { copiesDrop s c (hitBy c lo len) with
      dups := (copiesDrop s c (hitBy c lo len)).dups.filter fun e => !(hitBy c lo len e && stale (copiesDrop s c (hitBy c lo len)) e) } c) := by
  unfold copiesDrop diesDrop coreDrop hitBy
  rfl

theorem tlbInvalidate_leaves (s : State) (c : Fin 64) (lo len : Nat) : Invalidated s (tlbInvalidate s c lo len) c (hitBy c lo len) := by
  obtain ⟨u, x, used, run⟩ : ∃ u x, SlicesUsed (diesDrop s c (hitBy c lo len)) u ∧
      tlbInvalidate s c lo len = (List.finRange 384).foldl (coreDrop (hitBy c lo len)) (forgetWalks { u with dups := x } c) :=
    ⟨_, _, copiesDrop_used s c (hitBy c lo len), tlbInvalidate_eq s c lo len⟩
  have kept := slicesUsed_homeKept used
  have rest := coresDrop_rest (hitBy c lo len) (List.finRange 384) (forgetWalks { u with dups := x } c)
  have field := fun {α : Type} (f : State → α) (hf : ∀ z : State, f { z with cores := (forgetWalks { u with dups := x } c).cores } = f z) =>
    (hf _).symm.trans (congrArg f rest)
  have dies : ∀ d : Fin 2, (tlbInvalidate s c lo len).dies[d].tlb = s.dies[d].tlb.filter (fun e => !hitBy c lo len e) ∧
      (tlbInvalidate s c lo len).dies[d].nodes = s.dies[d].nodes.filter fun e => e.ctx != c := fun d => by
    rw [run, field State.dies fun _ => rfl]
    unfold forgetWalks
    dsimp only
    rw [bothDies]
    dsimp only
    rw [kept.tlb, kept.nodes, diesDrop, bothDies]
    exact ⟨rfl, rfl⟩
  refine ⟨?_, ?_, ?_, ?_, fun d e => ?_, fun d e he => ?_, fun k e => ?_⟩
  · rw [run, field State.ctxs fun _ => rfl]
    exact kept.ctxs
  · rw [run, field State.units fun _ => rfl]
    exact kept.units
  · rw [run, field State.maints fun _ => rfl]
    exact kept.maints
  · rw [run, field State.warps fun _ => rfl]
    exact congrArg (List.map (calmWarp c)) kept.warps
  · rw [(dies d).1, List.mem_filter, Bool.not_eq_true']
  · rw [(dies d).2] at he
    exact bne_iff_ne.mp (List.mem_filter.mp he).2
  · rw [run, coresDrop_tlb]
    have cores : (forgetWalks { u with dups := x } c).cores = s.cores := kept.cores
    rw [cores]
    simp

/-! ### The end -/

section

variable {s : State} {o : Maint} {lo len : Word}

/-- A `tlbinv` that ends. -/
theorem tlbinv_run (hf : s.maints.find? (fun y => y.id == o.id) = some o) (hk : o.kind = .tlbinv lo len) :
    exec (.tlbinvComplete o.id) s = .next (
      let u := cleanCores (tlbInvalidate s o.ctx lo.toNat len.toNat)
      if linkOutstanding s o.ctx lo.toNat len.toNat then s
      else if (List.finRange 384).any fun k => l1Stalled u k fun l => l.owner == some o.ctx then u
      else endHandle (dropMaint u o.id) o.ctx o.handle (if maintCancel u o then .cancelled else .done) fun e => e) := by
  show execTlbinvComplete o.id s = _
  unfold execTlbinvComplete
  rw [hf]
  dsimp only
  rw [hk]
  dsimp only
  split
  · rfl
  · split <;> rfl

end

theorem calm_calmWarp (c : Fin 64) (calm : Warp → Warp)
    (hc : calm = fun w => { w with splits := tabulate 8 fun k => w.splits[k].map fun (y : Split) => { y with fails := [] } }) (w : Warp) :
    calm (calmWarp c w) = calm w := by
  subst hc
  unfold calmWarp
  split
  · simp only [tabulate_get, Option.map_map, Function.comp_def]
  · rfl

theorem calmWarp_ctx (c : Fin 64) (w : Warp) : (calmWarp c w).ctx = w.ctx := by
  unfold calmWarp
  split <;> rfl

theorem calmWarp_fails {c : Fin 64} {w : Warp} (hc : w.ctx = c) {k : Fin 8} {z : Split} (h : (calmWarp c w).splits[k] = some z) : z.fails = [] := by
  rw [calmWarp, if_pos hc, tabulate_get] at h
  obtain ⟨y, -, rfl⟩ := Option.map_eq_some_iff.mp h
  rfl

theorem anyCore_iff (p : Fin 384 → Bool) : (List.finRange 384).any p = true ↔ ∃ k, p k = true :=
  List.any_eq_true.trans ⟨fun ⟨k, _, h⟩ => ⟨k, h⟩, fun ⟨k, h⟩ => ⟨k, List.mem_finRange k, h⟩⟩

/-- Where a `tlbinv` ends: it is gone, its handle takes its final state, and nothing else changes. -/
theorem tlbinv_ended {s u : State} {o : Maint} (ctxs : u.ctxs = s.ctxs) :
    ∃ t, endHandle (dropMaint u o.id) o.ctx o.handle (if maintCancel u o then .cancelled else .done) (fun e => e) = t ∧
      { t with ctxs := u.ctxs, serial := u.serial, maints := u.maints } = u ∧ (∀ y ∈ t.maints, y.id ≠ o.id) ∧
      HandleEnds s t o.ctx o.handle (if cancelAsked s o.ctx o.handle then .cancelled else .done) := by
  have rest := endHandle_rest (dropMaint u o.id) o.ctx o.handle (if maintCancel u o then .cancelled else .done) fun e => e
  refine ⟨_, rfl, congrArg (fun z : State => { z with maints := u.maints }) rest, fun y hy => ?_, ?_⟩
  · rw [endHandle_field _ _ _ _ _ State.maints fun _ => rfl] at hy
    exact bne_iff_ne.mp (List.mem_filter.mp hy).2
  · rw [maintCancel, cancelAsked_ctxs ctxs]
    exact endHandle_ends (u := dropMaint u o.id) ctxs _ _ fun _ => rfl

/-- What the end of a `tlbinv` leaves of the translations and of the warps. -/
structure TlbinvLeft (s t : State) (c : Fin 64) (lo len : Word) : Prop where
  units : t.units = s.units
  warps : t.warps = s.warps.map (calmWarp c)
  dieTlb : ∀ (d : Fin 2) e, e ∈ t.dies[d].tlb ↔ e ∈ s.dies[d].tlb ∧ Claims.outside c lo len e
  coreTlb : ∀ (k : Fin 384) e, e ∈ t.cores[k].tlb ↔ e ∈ s.cores[k].tlb ∧ Claims.outside c lo len e
  nodes : ∀ d : Fin 2, ∀ e ∈ t.dies[d].nodes, e.ctx ≠ c

theorem tlbinv_left (s : State) (c : Fin 64) (lo len : Word) : TlbinvLeft s (cleanCores (tlbInvalidate s c lo.toNat len.toNat)) c lo len := by
  have lines := cleanCores_lines (tlbInvalidate s c lo.toNat len.toNat)
  have inv := tlbInvalidate_leaves s c lo.toNat len.toNat
  refine ⟨lines.units.trans inv.units, lines.warps.trans inv.warps, fun d e => ?_, fun k e => ?_, fun d e he => ?_⟩
  · rw [lines.dieTlb, inv.dieTlb, hitBy_iff]
  · rw [lines.tlb, inv.coreTlb, hitBy_iff]
  · rw [lines.nodes] at he
    exact inv.nodes d e he

theorem TlbinvLeft.keep {s t u : State} {c : Fin 64} {lo len : Word} (h : TlbinvLeft s u c lo len)
    (ht : { t with ctxs := u.ctxs, serial := u.serial, maints := u.maints } = u) : TlbinvLeft s t c lo len := by
  have field := fun {α : Type} (f : State → α) (hf : ∀ z : State, f { z with ctxs := u.ctxs, serial := u.serial, maints := u.maints } = f z) =>
    (hf _).symm.trans (congrArg f ht)
  have dies := field State.dies fun _ => rfl
  have cores := field State.cores fun _ => rfl
  exact ⟨(field State.units fun _ => rfl).trans h.units, (field State.warps fun _ => rfl).trans h.warps, by rw [dies]; exact h.dieTlb,
    by rw [cores]; exact h.coreTlb, by rw [dies]; exact h.nodes⟩

section

variable {s t : State} {c : Fin 64} {lo len : Word} (h : TlbinvLeft s t c lo len)

include h

theorem TlbinvLeft.calm (calm : Warp → Warp)
    (hc : calm = fun w => { w with splits := tabulate 8 fun k => w.splits[k].map fun (y : Split) => { y with fails := [] } }) :
    t.warps.map calm = s.warps.map calm := by
  rw [h.warps, List.map_map]
  exact List.map_congr_left fun w _ => calm_calmWarp c calm hc w

theorem TlbinvLeft.fails : ∀ w ∈ t.warps, w.ctx = c → ∀ (k : Fin 8) (z : Split), w.splits[k] = some z → z.fails = [] := by
  intro w hw hc k z hz
  rw [h.warps] at hw
  obtain ⟨y, -, rfl⟩ := List.mem_map.mp hw
  exact calmWarp_fails (calmWarp_ctx c y ▸ hc) hz

theorem TlbinvLeft.others : ∀ w ∈ t.warps, w.ctx ≠ c → w ∈ s.warps := by
  intro w hw hc
  rw [h.warps] at hw
  obtain ⟨y, hy, rfl⟩ := List.mem_map.mp hw
  rw [calmWarp_ctx] at hc
  rw [calmWarp, if_neg hc]
  exact hy

end

theorem tlbinvEnds : Claims.TlbinvEnds := by
  intro s o lo len hf hk
  refine ⟨fun out => ?_, fun near => ?_⟩
  · rw [tlbinv_run hf hk]
    dsimp only
    rw [out, if_pos rfl]
  have run := tlbinv_run hf hk
  have left := tlbinv_left s o.ctx lo len
  have ctxs : (cleanCores (tlbInvalidate s o.ctx lo.toNat len.toNat)).ctxs = s.ctxs :=
    (cleanCores_lines _).ctxs.trans (tlbInvalidate_leaves s o.ctx lo.toNat len.toNat).ctxs
  dsimp only at run
  rw [near, if_neg Bool.false_ne_true] at run
  generalize cleanCores (tlbInvalidate s o.ctx lo.toNat len.toNat) = u at run left ctxs ⊢
  intro u' waits calm
  have any : ((List.finRange 384).any fun k => l1Stalled u k fun l => l.owner == some o.ctx) = true ↔ waits := anyCore_iff _
  by_cases hw : waits
  · rw [if_pos (any.mpr hw)] at run
    exact ⟨u, run, left.units, left.calm calm rfl, left.fails, left.others, left.dieTlb, left.coreTlb, left.nodes, fun _ => rfl, fun no => absurd hw no⟩
  · rw [if_neg fun e => hw (any.mp e)] at run
    obtain ⟨t, ended, rest, gone, final⟩ := tlbinv_ended (o := o) ctxs
    rw [ended] at run
    have left := left.keep rest
    refine ⟨t, run, left.units, left.calm calm rfl, left.fails, left.others, left.dieTlb, left.coreTlb, left.nodes, fun yes => absurd yes hw,
      fun _ => ⟨gone, fun e he hp => ?_⟩⟩
    obtain ⟨f, hf, slot, st⟩ := final e he hp
    exact ⟨f, hf, slot, by rw [st, cancelAsked_entry he hp]⟩

end Sys2Proof.Proofs


/-! SUPPORT. The words of a `dirtyclr` and its end (R65, R126, R374). -/

namespace Sys2Proof.Proofs

open Sys2Proof Sys2Proof.Machine Sys2Proof.Claims Sys2Proof.Laws

/-! ### The operation in its list -/

theorem maint_found {s : State} {o : Maint} (hf : s.maints.find? (fun y => y.id == o.id) = some o) : o ∈ s.maints := List.mem_of_find?_eq_some hf

theorem mem_modMaint {s : State} {o : Maint} (h : o ∈ s.maints) (f : Maint → Maint) : f o ∈ (modMaint s o.id f).maints :=
  List.mem_map.mpr ⟨o, h, if_pos (beq_self_eq_true _)⟩

theorem endMaint_ending {s : State} {o : Maint} (h : o ∈ s.maints) (st : HState) (cause : Nat) :
    Claims.ending (endMaint s o st (faultOf cause)) o.id st cause :=
  ⟨_, mem_modMaint h _, rfl, _, rfl, rfl⟩

/-- The commit of an element: the next one follows, or the operation ends (R374). -/
theorem commitMaint_leaves {s : State} {o : Maint} (h : o ∈ s.maints) (he : o.ending = none) (count : Word) :
    (commitMaint s o count).mem = s.mem ∧ (commitMaint s o count).warps = s.warps ∧
    (o.i + 1 < count.toNat / 64 → ∃ y ∈ (commitMaint s o count).maints, y.id = o.id ∧ y.i = o.i + 1 ∧ y.ending = none) ∧
    (count.toNat / 64 ≤ o.i + 1 → Claims.ending (commitMaint s o count) o.id .done 0) := by
  unfold commitMaint
  dsimp only
  have next := mem_modMaint h fun x => { x with i := x.i + 1, old := none, tags := [] }
  split
  case isTrue more => exact ⟨rfl, rfl, fun _ => ⟨_, next, rfl, rfl, he⟩, fun last => absurd more (by omega)⟩
  case isFalse last =>
    refine ⟨rfl, rfl, fun more => absurd more last, fun _ => ⟨_, List.mem_map.mpr ⟨_, next, if_pos (beq_self_eq_true _)⟩, rfl, _, rfl, rfl⟩⟩

/-! ### The clear of a word -/

theorem cleanFrames_lines (s : State) (f n : Nat) : LinesKept s (cleanFrames s f n) := .fold (fun s k => .ite (.refl s) (l1Clean_lines s k _)) _ s

theorem cleanFrames_only (s : State) (f n : Nat) : OnlyCaches s (cleanFrames s f n) := by
  refine .fold (fun s k => ?_) _ s
  split
  · exact .refl s
  · exact l1Clean_only s k _

/-- A pass over every core changes nothing but the cores. -/
theorem foldCores_rest {f : State → Fin 384 → State} (hf : ∀ s k, { f s k with cores := s.cores } = s) (ks : List (Fin 384)) (s : State) :
    { ks.foldl f s with cores := s.cores } = s := by
  induction ks generalizing s with
  | nil => rfl
  | cons k r ih => exact (congrArg (fun z : State => { z with cores := s.cores }) (ih (f s k))).trans (hf s k)

/-- Cached D bits of some translations are forgotten in a core. -/
def coreForgets (p : TlbEntry → Bool) (s : State) (k : Fin 384) : State :=
  if s.cores[k].tlb.isEmpty then s
  else modCore s k fun x => { x with tlb := x.tlb.map fun e => if p e then { e with pte := e.pte &&& ~~~0x10000#64 } else e }

/-- They are forgotten in both dies. -/
def diesForget (p : TlbEntry → Bool) (s : State) : State :=
  let one := fun (e : TlbEntry) => if p e then { e with pte := e.pte &&& ~~~0x10000#64 } else e
  modDie (modDie s 0 fun x => { x with tlb := x.tlb.map one }) 1 fun x => { x with tlb := x.tlb.map one }

theorem tlbClean_eq (s : State) (p : TlbEntry → Bool) : tlbClean s p = (List.finRange 384).foldl (coreForgets p) (diesForget p s) := by
  unfold coreForgets diesForget
  rfl

theorem tlbClean_rest (s : State) (p : TlbEntry → Bool) : { tlbClean s p with dies := s.dies, cores := s.cores } = s := by
  rw [tlbClean_eq]
  generalize List.finRange 384 = ks
  have cores := foldCores_rest (f := coreForgets p) (fun s k => by unfold coreForgets; split <;> rfl) ks (diesForget p s)
  exact congrArg (fun z : State => { z with dies := s.dies }) cores

theorem tlbClean_field {α : Type} (s : State) (p : TlbEntry → Bool) (f : State → α)
    (hf : ∀ z : State, f { z with dies := s.dies, cores := s.cores } = f z) : f (tlbClean s p) = f s := by
  rw [← hf (tlbClean s p), tlbClean_rest]

/-- The word of an element reads zero once it is cleared, and the warps and the operations stay (R374). -/
theorem clearWord_leaves {s : State} (o : Maint) (first : Word) (hm : memoryOk s) :
    readWord (clearWord s o first).2.mem (bitmapWord s o first) = 0 ∧ (clearWord s o first).2.warps = s.warps ∧
      (clearWord s o first).2.maints = s.maints := by
  have lines := cleanFrames_lines s (wordFrame o first) 64
  have wf : Memory.wf (cleanFrames s (wordFrame o first) 64).mem = true := (cleanFrames_only s _ _).wf hm
  unfold clearWord
  dsimp only
  generalize cleanFrames s (wordFrame o first) 64 = t at lines wf
  generalize bitmapWord s o first = a
  have kept := (recallAt_kept t a 8).trans ((slicesUsed_homeKept (crossed_slices (recallAt t a 8) (coreDie o.core) (dieOf a) (lineSlice (a / 256)).val)).trans
    (homeWrite_kept _ (dieOf a) (Acc.of o.ctx) true a 8 0))
  have mem : (homeWrite (crossed (recallAt t a 8) (coreDie o.core) (dieOf a) (lineSlice (a / 256)).val) (dieOf a) (Acc.of o.ctx) true a 8 0).mem =
      writeN t.mem a 8 0 := by
    rw [homeWrite_mem, (crossed_only _ _ _ _).mem, (recall_only _ _ _).mem]
    rfl
  generalize homeWrite _ (dieOf a) (Acc.of o.ctx) true a 8 0 = u at kept mem
  rw [tlbClean_field _ _ State.mem fun _ => rfl, tlbClean_field _ _ State.warps fun _ => rfl, tlbClean_field _ _ State.maints fun _ => rfl]
  refine ⟨?_, kept.warps.trans lines.warps, kept.maints.trans lines.maints⟩
  rw [mem, readWord, readN_writeN _ _ _ _ wf]
  rfl

/-! ### A step of the operation -/

section

variable {s : State} {o : Maint} {first count vb : Word} (hf : s.maints.find? (fun y => y.id == o.id) = some o)
  (hk : o.kind = .dirtyclr first count vb) (ha : maintActive s o = true) (hb : o.bad = none) (ho : o.old = none)

include hf hk ha hb ho

theorem dirtyclr_next (he : o.ending = none) : exec (.dirtyclrWord o.id) s = .next (if maintCancel s o then endMaint s o .cancelled (faultOf 0)
    else if count.toNat / 64 ≤ o.i then endMaint s o .done (faultOf 0) else nextWord s o first count vb) := by
  show execDirtyclrWord o.id s = _
  unfold execDirtyclrWord
  simp only [hf, hk, ha, hb, ho, he, Bool.not_true, Bool.false_eq_true, if_false]
  split_ifs <;> rfl

theorem dirtyclr_ending {st : HState} {f : FaultInfo} (he : o.ending = some (st, f)) :
    exec (.dirtyclrWord o.id) s = .next (finishMaint s o first vb st f) := by
  show execDirtyclrWord o.id s = _
  unfold execDirtyclrWord
  simp only [hf, hk, ha, hb, ho, he, Bool.not_true, Bool.false_eq_true, if_false]

end

theorem dirtyWords : Claims.DirtyWords := by
  intro s o first count vb hf hk ha hb ho he _
  have run := dirtyclr_next hf hk ha hb ho he
  have mem := maint_found hf
  refine ⟨fun hc => ?_, fun hc hi => ?_, fun hc hi hl hs => ⟨fun hv hm => ?_, fun hv => ?_⟩⟩
  · rw [show maintCancel s o = true from hc, if_pos rfl] at run
    exact ⟨_, run, rfl, endMaint_ending mem _ _⟩
  · rw [show maintCancel s o = false from hc, if_neg Bool.false_ne_true, if_pos hi] at run
    exact ⟨_, run, rfl, endMaint_ending mem _ _⟩
  · have next : nextWord s o first count vb = commitMaint (clearWord s o first).2 o count := by
      unfold nextWord
      rw [hl]
      dsimp only
      rw [hs, if_neg Bool.false_ne_true, if_pos hv]
    rw [show maintCancel s o = false from hc, if_neg Bool.false_ne_true, if_neg (by omega), next] at run
    obtain ⟨zero, warps, maints⟩ := clearWord_leaves o first hm
    generalize (clearWord s o first).2 = v at run zero warps maints
    obtain ⟨mem', warps', more, last⟩ := commitMaint_leaves (s := v) (by rw [maints]; exact mem) he count
    exact ⟨_, run, by rw [mem']; exact zero, warps'.trans warps, more, last⟩
  · have next : nextWord s o first count vb = bufferedWord s o first count vb := by
      unfold nextWord
      rw [hl]
      dsimp only
      rw [hs, if_neg Bool.false_ne_true, if_neg hv]
    rw [show maintCancel s o = false from hc, if_neg Bool.false_ne_true, if_neg (by omega), next] at run
    intro q va checks
    refine ⟨fun f u bad => ?_, fun p n u ok m z wrote => ?_⟩
    · rw [run]
      unfold bufferedWord
      dsimp only
      rw [show engDest s (maintCopy o vb) 0 (vb + BitVec.ofNat 64 (8 * o.i)) 8 checks = .bad f u from bad]
    · rw [run]
      unfold bufferedWord
      dsimp only
      rw [show engDest s (maintCopy o vb) 0 (vb + BitVec.ofNat 64 (8 * o.i)) 8 checks = .ok p n u from ok]
      dsimp only
      rw [show engWrite (clearWord u o first).2 (maintCopy o vb) p 8 (clearWord u o first).1.toNat = .ok () m z from wrote]

/-! ### The end -/

/-- The final state of a `dirtyclr`: cancelled where that was asked. -/
def endState (s : State) (o : Maint) (st : HState) : HState := if cancelAsked s o.ctx o.handle = true then .cancelled else st

/-- An ended `dirtyclr` takes its final state, and keeps its place only after a resumable fault (R126, R155). -/
theorem settleMaint_leaves {s u : State} {o : Maint} (hu : u.ctxs = s.ctxs) (h : o ∈ u.maints) (st : HState) (f : FaultInfo) :
    (settleMaint u o st f).mem = u.mem ∧ HandleEnds s (settleMaint u o st f) o.ctx o.handle (endState s o st) ∧
    (¬ (endState s o st = .faulted ∧ resumable f.cause = true) → ∀ y ∈ (settleMaint u o st f).maints, y.id ≠ o.id) ∧
    (endState s o st = .faulted → resumable f.cause = true →
      ∃ y ∈ (settleMaint u o st f).maints, y.id = o.id ∧ y.faulted = true ∧ y.i = o.i) := by
  have state : (if maintCancel u o then HState.cancelled else st) = endState s o st := by
    rw [maintCancel, cancelAsked_ctxs hu]
    rfl
  unfold settleMaint
  dsimp only
  rw [state]
  generalize endState s o st = q
  have slot : ∀ e : HEntry, (if q = .faulted then { e with cause := f.cause, va := f.va, pte := f.pte, elem := o.i } else e).slot = e.slot :=
    fun e => by split <;> rfl
  split
  case isTrue stays =>
    refine ⟨endHandle_field _ _ _ _ _ State.mem fun _ => rfl,
      endHandle_ends (s := s) (u := modMaint u o.id fun x => { x with faulted := true, ending := none }) hu _ _ slot, fun no => absurd stays no, fun _ _ => ?_⟩
    rw [endHandle_field _ _ _ _ _ State.maints fun _ => rfl]
    exact ⟨_, mem_modMaint h _, rfl, rfl, rfl⟩
  case isFalse gone =>
    refine ⟨endHandle_field _ _ _ _ _ State.mem fun _ => rfl, endHandle_ends (s := s) (u := dropMaint u o.id) hu _ _ slot, fun _ y hy => ?_,
      fun a b => absurd ⟨a, b⟩ gone⟩
    rw [endHandle_field _ _ _ _ _ State.maints fun _ => rfl] at hy
    exact bne_iff_ne.mp (List.mem_filter.mp hy).2

theorem dirtyEnds : Claims.DirtyEnds := by
  intro s o first count vb st f hf hk ha hb ho he hs f0
  have lines := cleanFrames_lines s f0 (64 * o.i)
  have run := dirtyclr_ending hf hk ha hb ho he
  have finish : finishMaint s o first vb st f = if (List.finRange 384).any fun k => l1Stalled (cleanFrames s f0 (64 * o.i)) k (inFrames f0 (64 * o.i))
      then cleanFrames s f0 (64 * o.i) else settleMaint (cleanFrames s f0 (64 * o.i)) o st f := by
    unfold finishMaint
    rw [hs]
  rw [finish] at run
  generalize cleanFrames s f0 (64 * o.i) = v at lines run ⊢
  intro u end_
  refine ⟨fun stalled => ?_, fun free => ?_⟩
  · rw [if_pos ((anyCore_iff _).mpr stalled)] at run
    exact run
  · rw [if_neg fun e => ?_] at run
    · exact ⟨_, run, settleMaint_leaves lines.ctxs (lines.maints ▸ maint_found hf) st f⟩
    · obtain ⟨k, hk⟩ := (anyCore_iff _).mp e
      exact Bool.false_ne_true ((free k).symm.trans hk)

end Sys2Proof.Proofs


/-! SUPPORT. The end of a `carve` (R87-R90, R100), and what is watched of a split (R94, R97, R126, R253, R328). -/

namespace Sys2Proof.Proofs

open Sys2Proof Sys2Proof.Machine Sys2Proof.Claims Sys2Proof.Laws

/-! ### Granules inside regions -/

theorem span_testBit {lo hi : Nat} (h : lo ≤ hi) (i : Nat) : (span lo hi).testBit i = decide (lo ≤ i ∧ i < hi) := by
  have e : span lo hi = (2 ^ (hi - lo) - 1) <<< lo := by
    rw [span, Nat.shiftLeft_eq, Nat.sub_mul, Nat.one_mul, ← Nat.pow_add, Nat.sub_add_cancel h]
  rw [e, Nat.testBit_shiftLeft, Nat.testBit_two_pow_sub_one, ← Bool.decide_and]
  exact decide_eq_decide.mpr (by omega)

theorem and_eq_left_iff (n m : Nat) : n &&& m = n ↔ ∀ i, n.testBit i = true → m.testBit i = true := by
  refine ⟨fun e i hi => ?_, fun h => Nat.eq_of_testBit_eq fun i => ?_⟩
  · have bit := congrArg (Nat.testBit · i) e
    simp only [Nat.testBit_and, hi, Bool.true_and] at bit
    exact bit
  · rw [Nat.testBit_and]
    cases hn : n.testBit i with
    | false => rfl
    | true => rw [h i hn]; rfl

/-- A set of granules lies in a span of them. -/
theorem inSpan_iff {lo hi : Nat} (h : lo ≤ hi) (g : BitVec 1536) :
    g.toNat &&& span lo hi = g.toNat ↔ ∀ i, i < 1536 → g.getLsbD i = true → lo ≤ i ∧ i < hi := by
  rw [and_eq_left_iff]
  refine ⟨fun all i _ hi => ?_, fun all i hi => ?_⟩
  · simpa [span_testBit h] using all i hi
  · rw [span_testBit h, decide_eq_true (all i (BitVec.lt_of_getLsbD hi) hi)]

theorem insideWord_iff (p : BitVec 32) (u : UnitSt) : insideWord p u = true ↔ InsideRegions p u := by
  have scr : ppwScr p = p.toNat / 2 ^ 7 % 2 ^ 7 := by simp [ppwScr, Nat.shiftRight_eq_div_pow]
  have acc : ppwAcc p = p.toNat / 2 ^ 14 % 2 ^ 7 := by simp [ppwAcc, Nat.shiftRight_eq_div_pow]
  have reg : ppwReg p = p.toNat % 2 ^ 7 := rfl
  simp only [insideWord, regSpan, scrSpan, accSpan, Bool.and_eq_true, beq_iff_eq]
  rw [inSpan_iff (Nat.zero_le _), inSpan_iff (by omega), inSpan_iff (by omega), reg, scr, acc]
  unfold InsideRegions regionsOf
  dsimp only
  constructor
  · rintro ⟨⟨a, b⟩, c⟩ i hi
    exact ⟨fun h => (a i hi h).2, fun h => b i hi h, fun h => c i hi h⟩
  · intro h
    exact ⟨⟨fun i hi k => ⟨Nat.zero_le _, (h i hi).1 k⟩, fun i hi => (h i hi).2.1⟩, fun i hi => (h i hi).2.2⟩

/-! ### A core takes a word (R87, R89) -/

theorem pastStall_home {f : State → State} (hf : ∀ s, HomeUsed s (f s)) (s : State) : HomeUsed s (pastStall s f) := by
  obtain ⟨u, -, -, used, b, run, down⟩ := pastStall_cases s f
  rw [run]
  refine (used.home.trans (hf u)).trans ⟨rfl, fun _ => .refl _, down⟩

theorem l1Trim_uses (k : Fin 384) (ways n : Nat) (s : State) : CoreUses k s (l1Trim s k ways n) := by
  induction n generalizing s with
  | zero => exact .refl k s
  | succ n ih =>
    unfold l1Trim
    split
    · exact .refl k s
    · split
      · exact .refl k s
      · exact (((pastStall_home (fun s => writeBack_home s (coreDie k) _) s).coreUses k).trans (modCore_coreUses k _ _)).trans (ih _)

theorem loseLines_kept {s : State} {k : Fin 384} (h : NothingLost s k) (p : L1Line → Bool) : loseLines s k p = s := by
  have gone : (s.cores[k].l1.filter fun l => p l && l.dirty != 0 && !lineReach s (coreDie k) l.line) = [] :=
    List.filter_eq_nil_iff.mpr fun l hl => by obtain h | h := h l hl <;> simp [h]
  unfold loseLines
  dsimp only
  rw [gone, List.foldl_nil]
  exact modCore_same_eq (by simp)

/-- A core that loses no line takes a word, and nothing else of the state changes but its L1 and what the write-backs use. -/
theorem takeWord_leaves {s : State} {k : Fin 384} (h : NothingLost s k) (p : BitVec 32) :
    CoreUses k s (takeWord s k p) ∧ (takeWord s k p).cores[k].ppw = p := by
  unfold takeWord
  dsimp only
  rw [loseLines_kept h]
  exact ⟨(l1Trim_uses k _ _ s).trans (modCore_coreUses k _ _), congrArg Core.ppw (modCore_same _ _ _)⟩

theorem carveReady_iff (s : State) (o : CarveOp) : carveReady s o = true ↔
    (∀ u ∈ s.units, u.core = o.core → (u.st = .resident ∨ u.st = .retiring) → InsideRegions o.ppw u) ∧ ¬ l1Stalled s o.core (fun _ => true) = true := by
  simp only [carveReady, l1Ready, residents, Bool.and_eq_true, List.all_eq_true, List.mem_filter, insideWord_iff, beq_iff_eq, Bool.or_eq_true,
    Bool.not_eq_true', Bool.not_eq_true, and_imp]

theorem carveEnds : Claims.CarveEnds := by
  intro s o hf inside halts stalls
  have run : exec (.carveComplete o.core) s = .next (if carveReady s o && s.ctxs[o.ctx].st != .halting && s.ctxs[o.ctx].st != .halted
      then carveDone s o else s) := by
    show execCarveComplete o.core s = _
    unfold execCarveComplete
    rw [hf]
    dsimp only
    split <;> rfl
  have ready : (carveReady s o && s.ctxs[o.ctx].st != .halting && s.ctxs[o.ctx].st != .halted) = true ↔ inside ∧ ¬ halts ∧ ¬ stalls := by
    rw [Bool.and_eq_true, Bool.and_eq_true, carveReady_iff, bne_iff_ne, bne_iff_ne]
    show ((inside ∧ ¬ stalls) ∧ _) ∧ _ ↔ inside ∧ ¬ (_ ∨ _) ∧ ¬ stalls
    tauto
  refine ⟨fun no => ?_, fun hi hh hs lost => ?_⟩
  · rw [run, if_neg fun e => ?_]
    obtain ⟨a, b, c⟩ := ready.mp e
    tauto
  · rw [if_pos (ready.mpr ⟨hi, hh, hs⟩)] at run
    obtain ⟨uses, word⟩ := takeWord_leaves (s := { s with carves := s.carves.filter fun x => !(x.ctx == o.ctx && x.handle == o.handle) }) (k := o.core) lost o.ppw
    unfold carveDone at run
    generalize takeWord { s with carves := s.carves.filter fun x => !(x.ctx == o.ctx && x.handle == o.handle) } o.core o.ppw = u at run uses word
    have ends := endHandle_ends (s := s) (u := u) (c := o.ctx) (uses.field State.ctxs fun _ => rfl) o.handle .done (f := fun e => e) fun _ => rfl
    have field := fun {α : Type} (f : State → α) hf => endHandle_field u o.ctx o.handle .done (fun e => e) f hf
    refine ⟨_, run, ?_, ?_, ?_, fun k hk => ?_, fun y hy => ?_, ends⟩
    · rw [field State.cores fun _ => rfl, word]
    · rw [field State.units fun _ => rfl, uses.field State.units fun _ => rfl]
    · rw [field State.warps fun _ => rfl, uses.field State.warps fun _ => rfl]
    · rw [field State.cores fun _ => rfl, uses.other k hk]
    · rw [field State.carves fun _ => rfl, uses.field State.carves fun _ => rfl] at hy
      simpa [imp_iff_not_or] using (List.mem_filter.mp hy).2

end Sys2Proof.Proofs


/-! SUPPORT. What is watched of a split (R94, R97, R126, R253, R328). -/

namespace Sys2Proof.Proofs

open Sys2Proof Sys2Proof.Machine Sys2Proof.Claims Sys2Proof.Laws

/-! ### The record of a fault, and the end that follows -/

/-- The placing of a record leaves contexts, partitions and warps, and the bridge up or down. -/
theorem placeRecord_frame {s u : State} {d : Fin 2} {q : WaitFault} (h : placeRecord s d q = some u) :
    u.ctxs = s.ctxs ∧ u.parts = s.parts ∧ u.warps = s.warps ∧ u.bridge.down = s.bridge.down := by
  unfold placeRecord at h
  split at h
  · cases h
  · rename_i n _
    have wrote := writeRecord_home s d n q.words
    have tells : ∀ v : State, v.ctxs = s.ctxs ∧ v.parts = s.parts ∧ v.warps = s.warps ∧ v.bridge.down = s.bridge.down →
        (if q.route = 1 then toHostFrom v d (.msix 0 61) else v).ctxs = s.ctxs ∧
        (if q.route = 1 then toHostFrom v d (.msix 0 61) else v).parts = s.parts ∧
        (if q.route = 1 then toHostFrom v d (.msix 0 61) else v).warps = s.warps ∧
        (if q.route = 1 then toHostFrom v d (.msix 0 61) else v).bridge.down = s.bridge.down := fun v ⟨ctxs, parts, warps, down⟩ => by
      split
      · exact ⟨(toHostFrom_ctxs _ _ _).trans ctxs, (toHostFrom_parts _ _ _).trans parts, (toHostFrom_warps _ _ _).trans warps,
          (toHostFrom_health _ _ _).down.trans down⟩
      · exact ⟨ctxs, parts, warps, down⟩
    have base : ∀ f : Die → Die, (modDie (writeRecord s d n q.words) d f).ctxs = s.ctxs ∧ (modDie (writeRecord s d n q.words) d f).parts = s.parts ∧
        (modDie (writeRecord s d n q.words) d f).warps = s.warps ∧ (modDie (writeRecord s d n q.words) d f).bridge.down = s.bridge.down := fun f =>
      ⟨wrote.field State.ctxs fun _ => rfl, wrote.field State.parts fun _ => rfl, wrote.field State.warps fun _ => rfl, wrote.down⟩
    dsimp only at h
    split at h
    · cases h
      exact tells _ (base _)
    · cases h
      exact tells _ (base _)

/-- A fault that ends its context and has a slot: the context ends once the record is placed. -/
theorem recordFault_placed {s : State} {d : Fin 2} {q : WaitFault} (he : q.ends = true) (hd : SlotFree s d) :
    ∃ u, placeRecord s d q = some u ∧ recordFault s d q = endContext u q.ctx q.cause := by
  obtain ⟨n, hn⟩ := Option.isSome_iff_exists.mp hd
  obtain ⟨u, placed, -⟩ := placeRecord_some q hn
  exact ⟨u, placed, by rw [recordFault, settleFault_last he, placed]; rfl⟩

theorem endContext_warps {s : State} {c : Fin 64} {cause : Nat} (h : Ends s c) : (endContext s c cause).warps = s.warps.filter fun w => w.ctx != c :=
  (endContext_health h).warps.trans rfl

/-- With the end of its context a warp is gone, and nothing of its number is left to settle. -/
theorem settle_gone {s : State} {w : Nat} (h : ∀ y ∈ s.warps, y.id ≠ w) : settle s w = s := by
  have none : findWarp s w = none := List.find?_eq_none.mpr fun y hy => by simpa using h y hy
  rw [settle, none]

/-- A warp of the number of one suspended is that warp, as suspended: where numbers are distinct, it has its context. -/
theorem suspend_ctx {s : State} {w y : Warp} {sp : Fin 8} {pc : Word} (hw : findWarp s w.id = some w) (hn : (s.warps.map (·.id)).Nodup)
    (hy : y ∈ (suspend s w.id sp pc).warps) (hi : y.id = w.id) : y.ctx = w.ctx := by
  obtain ⟨z, mem, rfl⟩ := List.mem_map.mp hy
  have keeps : ∀ g : Warp → Warp, (∀ v, (g v).id = v.id ∧ (g v).ctx = v.ctx) → (if (z.id == w.id) = true then g z else z).id = w.id →
      (if (z.id == w.id) = true then g z else z).ctx = w.ctx := fun g hg h => by
    have same : z.id = w.id := by
      split at h
      · exact (hg z).1.symm.trans h
      · exact h
    rw [List.inj_on_of_nodup_map hn mem (List.mem_of_find?_eq_some hw) same]
    split
    · exact (hg w).2
    · rfl
  exact keeps _ (fun v => ⟨modSplit_id v sp _, (modSplit_ident v sp _).1⟩) hi

/-- What a drought does: the context of the warp ends with cause 0x0013, and nothing of the warp is left to settle (R97, R245). -/
theorem drought_ends {s : State} {w : Warp} {sp : Fin 8} {x : Split} (hw : findWarp s w.id = some w) (hx : w.splits[sp] = some x)
    (hn : (s.warps.map (·.id)).Nodup) (hs : s.ctxs[w.ctx].st = .running ∨ s.ctxs[w.ctx].st = .halting) (hd : SlotFree s (coreDie w.core)) :
    let t := settle (takeFault s w sp x.pc x.pc x.mask (faultOf 0x13)) w.id
    t.ctxs[w.ctx].st = .ended ∧ (∀ y ∈ t.warps, y.ctx ≠ w.ctx) ∧ (Hears s (homeDie s w.ctx) →
      Tells t (.completion (functionOf s w.ctx) s.ctxs[w.ctx].caddr (completionWord s.ctxs[w.ctx].seq 2 0x13) s.ctxs[w.ctx].vec.val)) := by
  have route : routeOf s w (faultOf 0x13).cause = 1 := by simp [routeOf, terminal, faultOf]
  have fault := takeFault_last (s := s) (pc := x.pc) (next := x.pc) (act := x.mask) (f := faultOf 0x13) hx (by rw [route]; decide) (.inl rfl) rfl
  obtain ⟨u, placed, ended⟩ := recordFault_placed (s := suspend s w.id sp x.pc) (d := coreDie w.core)
    (q := { ctx := w.ctx, cause := 0x13, va := 0, route := routeOf s w 0x13, split := (w.id, sp), handle := 0, elem := 0
            words := recordWords s w x.mask x.mask x.pc (faultOf 0x13) (routeOf s w 0x13), ends := true }) rfl hd
  obtain ⟨ctxs, parts, warps, down⟩ := placeRecord_frame placed
  have ctx : u.ctxs = s.ctxs := ctxs
  have run : takeFault s w sp x.pc x.pc x.mask (faultOf 0x13) = endContext u w.ctx 0x13 := fault.trans ended
  have ends : u.ctxs[w.ctx].st = .running ∨ u.ctxs[w.ctx].st = .halting ∨ u.ctxs[w.ctx].st = .halted := by
    rw [ctx]
    exact hs.imp_right .inl
  obtain ⟨st, -, -, gone, -, -, -, -, -, tells⟩ := contextEnds u w.ctx 0x13 ends
  have left : ∀ y ∈ (endContext u w.ctx 0x13).warps, y.id ≠ w.id := fun y hy same => by
    refine gone y hy (suspend_ctx (sp := sp) (pc := x.pc) hw hn ?_ same)
    rw [endContext_warps ends, warps] at hy
    exact List.mem_of_mem_filter hy
  have home : homeDie u w.ctx = homeDie s w.ctx := homeDie_congr ctx parts w.ctx
  have func : functionOf u w.ctx = functionOf s w.ctx := by
    unfold functionOf
    rw [ctx, show u.parts = s.parts from parts]
  rw [run, settle_gone left]
  refine ⟨st, gone, fun hears => ?_⟩
  rw [home, func, ctx] at tells
  exact tells (hears.imp_right (down.trans ·))

/-! ### The restart of a faulted operation (R126, R253) -/

/-- The operations of a context under a handle value that go on again. -/
def goesOn (c : Fin 64) (h : BitVec 32) (s : State) : State :=
  { s with
    copies := s.copies.map fun o => if o.ctx == c && o.handle == h then { o with faulted := false } else o
    mops := s.mops.map fun o => if o.ctx == c && o.handle == h then { o with faulted := false } else o
    maints := s.maints.map fun o => if o.ctx == c && o.handle == h then { o with faulted := false } else o }

theorem restartOp_faulted {s : State} {c : Fin 64} {h : BitVec 32} {e : HEntry} (he : entryOf s.ctxs[c] h = some e) (hs : e.st = .faulted)
    (hr : resumable e.cause = true) : restartOp s c h = goesOn c h (modHandle s c e.slot fun y => { y with st := .pending }) := by
  unfold restartOp
  rw [he]
  exact if_pos (by rw [hs, hr]; rfl)

/-- An operation of a list whose named ones go on again is not faulted where it is one of those. -/
theorem cleared_of_mem {α : Type} {l : List α} {c : Fin 64} {h : BitVec 32} {ctx : α → Fin 64} {handle : α → BitVec 32} {faulted : α → Bool}
    {g : α → α} (hg : ∀ o, faulted (g o) = false) {o : α} (ho : o ∈ l.map fun o => if ctx o == c && handle o == h then g o else o)
    (hc : ctx o = c) (hh : handle o = h) : faulted o = false := by
  obtain ⟨y, -, rfl⟩ := List.mem_map.mp ho
  split at hc
  · rw [if_pos ‹_›]
    exact hg y
  · rename_i other
    rw [if_neg other] at hh
    exact absurd (by rw [hc, hh]; simp) other

theorem watchedSplits : Claims.WatchedSplits := by
  refine ⟨fun s w sp x hw hx => ⟨?_, fun hh ha hc hn => ⟨_, ?_, rfl, fun hs hd => drought_ends hw hx hn hs hd⟩, fun o ho hb ht hl => ?_⟩,
    fun s w h e hw hh h0 he howner hs hr => ⟨goesOn w.ctx h (modHandle s w.ctx e.slot fun y => { y with st := .pending }), ?_, rfl, rfl, ?_,
      fun o ho => cleared_of_mem (ctx := CopyOp.ctx) (handle := CopyOp.handle) (fun _ => rfl) ho,
      fun o ho => cleared_of_mem (ctx := MatOp.ctx) (handle := MatOp.handle) (fun _ => rfl) ho,
      fun o ho => cleared_of_mem (ctx := Maint.ctx) (handle := Maint.handle) (fun _ => rfl) ho⟩⟩
  · show Host.Outcome.next (modWarp s w.id fun x => modSplit x sp fun y => if 15 ≤ y.idle then { y with overdue := true } else y) = _
    congr 3
    funext y
    congr 1
    funext z
    by_cases late : 15 ≤ z.idle
    · rw [if_pos late, decide_eq_true late, Bool.or_true]
    · rw [if_neg late, decide_eq_false late, Bool.or_false]
  · show execSafePointDrought w.id sp s = _
    unfold execSafePointDrought
    rw [hw]
    dsimp only
    rw [hx]
    exact if_pos (by rw [hh, ha, decide_eq_true (show Config.droughtLimit ≤ x.count from hc)]; rfl)
  · show execWaitvReread w.id sp s = _
    unfold execWaitvReread
    rw [hw]
    dsimp only
    rw [hx]
    dsimp only
    rw [ho]
    exact if_pos (by rw [hb, decide_eq_true (show x.timer + 1024 ≤ s.now + 1 by omega), bne_iff_ne.mpr ht]; rfl)
  · have named : resolve s w h = .entry e := by
      unfold resolve
      rw [if_neg h0, he]
      exact if_pos howner
    show execHandlerRestart w.id h s = _
    unfold execHandlerRestart
    rw [hw]
    dsimp only
    rw [named, ← restartOp_faulted he hs hr]
    exact if_pos (by rw [Option.isSome_iff_ne_none.mpr hh, hs]; rfl)
  · have written : (goesOn w.ctx h (modHandle s w.ctx e.slot fun y => { y with st := .pending })).ctxs[w.ctx].handles =
        s.ctxs[w.ctx].handles.map fun y => if y.slot == e.slot then { y with st := .pending } else y :=
      congrArg Ctx.handles (modCtx_same s w.ctx fun x =>
        { x with handles := x.handles.map fun y => if y.slot == e.slot then { y with st := .pending } else y })
    rw [written]
    exact ⟨{ e with st := .pending }, List.mem_map.mpr ⟨e, List.mem_of_find?_eq_some he, if_pos (beq_self_eq_true _)⟩, rfl, rfl⟩

/-- Settles O53: each result, walk and operation of the system group is run from the equation of its case, and what it leaves is read off the
one change that it makes. -/
theorem resultsWalksAndMaintenance : Obligations.ResultsWalksAndMaintenance :=
  ⟨resultsReturn, pageWalks, tlbinvEnds, dirtyWords, dirtyEnds, carveEnds, watchedSplits⟩

end Sys2Proof.Proofs


/-! SUPPORT. The order in which the Drover examines the units that wait, and the cores that it takes for them (R82-R85, R106). -/

namespace Sys2Proof.Proofs

open Sys2Proof Sys2Proof.Machine Sys2Proof.Claims Sys2Proof.Laws

/-! ### The first of the least of a list -/

/-- One step of the search: the one that is strictly less replaces what was found. -/
def lesser {α : Type} (f : α → Nat) (b : Option α) (k : α) : Option α :=
  match b with
  | none => some k
  | some j => if f k < f j then some k else some j

/-- The search for the least leaves nothing only in an empty list, and otherwise the first of the least. -/
theorem foldl_lesser {α : Type} (f : α → Nat) (ks : List α) :
    (ks.foldl (lesser f) none = none ∧ ks = []) ∨
    ∃ k l r, ks.foldl (lesser f) none = some k ∧ ks = l ++ k :: r ∧ (∀ j ∈ l, f k < f j) ∧ ∀ j ∈ r, f k ≤ f j := by
  induction ks using List.reverseRecOn with
  | nil => exact .inl ⟨rfl, rfl⟩
  | append_singleton ks a ih =>
    right
    rw [List.foldl_append]
    obtain ⟨none, rfl⟩ | ⟨k, l, r, found, rfl, before, after⟩ := ih
    · exact ⟨a, [], [], rfl, rfl, by simp, by simp⟩
    · rw [found]
      by_cases less : f a < f k
      · refine ⟨a, l ++ k :: r, [], if_pos less, rfl, fun j hj => ?_, by simp⟩
        obtain hj | hj := List.mem_append.mp hj
        · exact less.trans (before j hj)
        · obtain rfl | hj := List.mem_cons.mp hj
          · exact less
          · exact less.trans_le (after j hj)
      · refine ⟨k, l, r ++ [a], if_neg less, by simp, before, fun j hj => ?_⟩
        obtain hj | hj := List.mem_append.mp hj
        · exact after j hj
        · obtain rfl := List.mem_singleton.mp hj
          exact Nat.le_of_not_lt less

theorem foldl_lesser_some {α : Type} {f : α → Nat} {ks : List α} {k : α} (h : ks.foldl (lesser f) none = some k) :
    k ∈ ks ∧ ∀ j ∈ ks, f k ≤ f j := by
  obtain ⟨none, -⟩ | ⟨i, l, r, found, rfl, before, after⟩ := foldl_lesser f ks
  · rw [none] at h
    cases h
  · cases found.symm.trans h
    refine ⟨by simp, fun j hj => ?_⟩
    obtain hj | hj := List.mem_append.mp hj
    · exact (before j hj).le
    · obtain rfl | hj := List.mem_cons.mp hj
      · exact le_rfl
      · exact after j hj

/-- Of a list in order, the search finds the lowest of the least. -/
theorem foldl_lesser_lowest {n : Nat} {f : Fin n → Nat} {ks : List (Fin n)} {k : Fin n} (hs : ks.Pairwise (· < ·))
    (h : ks.foldl (lesser f) none = some k) : ∀ j ∈ ks, f k < f j ∨ (f k = f j ∧ k ≤ j) := by
  obtain ⟨none, -⟩ | ⟨i, l, r, found, rfl, before, after⟩ := foldl_lesser f ks
  · rw [none] at h
    cases h
  · cases found.symm.trans h
    intro j hj
    obtain hj | hj := List.mem_append.mp hj
    · exact .inl (before j hj)
    · obtain rfl | hj := List.mem_cons.mp hj
      · exact .inr ⟨rfl, le_rfl⟩
      · have later := (List.pairwise_cons.mp (List.pairwise_append.mp hs).2.1).1 j hj
        exact (Nat.lt_or_eq_of_le (after j hj)).imp_right fun e => ⟨e, later.le⟩

theorem foldl_lesser_isSome {α : Type} (f : α → Nat) {ks : List α} {j : α} (hj : j ∈ ks) : ∃ k, ks.foldl (lesser f) none = some k := by
  obtain ⟨-, rfl⟩ | ⟨k, _, _, found, -⟩ := foldl_lesser f ks
  · cases hj
  · exact ⟨k, found⟩

/-! ### The order of R83 -/

theorem waitsBefore_iff (a b : Waiting) : waitsBefore a b = true ↔ Claims.earlier a b := by
  simp [waitsBefore, Claims.earlier]

theorem earlier_trans {a b c : Waiting} (h : Claims.earlier a b) (k : Claims.earlier b c) : Claims.earlier a c := by
  unfold Claims.earlier at *
  omega

theorem not_earlier_self (a : Waiting) : ¬ Claims.earlier a a := by
  unfold Claims.earlier
  omega

/-- A list in which none comes before one that stands ahead of it. -/
def InOrder (ys : List Waiting) : Prop := ys.Pairwise fun a b => ¬ Claims.earlier b a

theorem mem_insertWaiting {x y : Waiting} {ys : List Waiting} : y ∈ insertWaiting x ys ↔ y = x ∨ y ∈ ys := by
  induction ys with
  | nil => simp [insertWaiting]
  | cons z r ih =>
    rw [insertWaiting]
    split
    · rw [List.mem_cons]
    · rw [List.mem_cons, ih, List.mem_cons]
      exact or_left_comm

theorem insertWaiting_inOrder {x : Waiting} {ys : List Waiting} (h : InOrder ys) : InOrder (insertWaiting x ys) := by
  induction ys with
  | nil => exact List.pairwise_singleton _ _
  | cons y r ih =>
    obtain ⟨ahead, rest⟩ := List.pairwise_cons.mp h
    rw [insertWaiting]
    split
    · rename_i before
      have first := (waitsBefore_iff x y).mp before
      refine List.pairwise_cons.mpr ⟨fun z hz late => ?_, h⟩
      obtain rfl | hz := List.mem_cons.mp hz
      · exact not_earlier_self x (earlier_trans first late)
      · exact ahead z hz (earlier_trans late first)
    · rename_i after
      refine List.pairwise_cons.mpr ⟨fun z hz late => ?_, ih rest⟩
      obtain rfl | hz := mem_insertWaiting.mp hz
      · exact after ((waitsBefore_iff _ _).mpr late)
      · exact ahead z hz late

/-- The units of a list put in their places among others. -/
def insertAll (ys xs : List Waiting) : List Waiting := ys.foldl (fun xs y => insertWaiting y xs) xs

theorem mem_insertAll {y : Waiting} {ys xs : List Waiting} : y ∈ insertAll ys xs ↔ y ∈ ys ∨ y ∈ xs := by
  induction ys generalizing xs with
  | nil => simp [insertAll]
  | cons z r ih =>
    show y ∈ insertAll r (insertWaiting z xs) ↔ _
    rw [ih, mem_insertWaiting, List.mem_cons]
    exact or_left_comm.trans or_assoc.symm

theorem insertAll_inOrder {ys xs : List Waiting} (h : InOrder xs) : InOrder (insertAll ys xs) := by
  induction ys generalizing xs with
  | nil => exact h
  | cons z r ih => exact ih (insertWaiting_inOrder h)

/-! ### What waits -/

/-- The units of a context that its home Drover examines join the list. -/
def examineCtx (s : State) (d : Fin 2) (xs : List Waiting) (c : Fin 64) : List Waiting :=
  if s.ctxs[c].st == .running && homeDie s c == d then insertAll (s.ctxs[c].launches.flatMap (waitingOf s c)) xs else xs

theorem examined_eq (s : State) (d : Fin 2) : examined s d = (List.finRange 64).foldl (examineCtx s d) [] := rfl

theorem foldl_examineCtx_inOrder {s : State} {d : Fin 2} (cs : List (Fin 64)) {xs : List Waiting} (h : InOrder xs) :
    InOrder (cs.foldl (examineCtx s d) xs) := by
  induction cs generalizing xs with
  | nil => exact h
  | cons c r ih =>
    refine ih ?_
    unfold examineCtx
    split
    · exact insertAll_inOrder h
    · exact h

theorem mem_foldl_examineCtx {s : State} {d : Fin 2} {y : Waiting} (cs : List (Fin 64)) {xs : List Waiting}
    (h : y ∈ xs ∨ ∃ c ∈ cs, s.ctxs[c].st = .running ∧ homeDie s c = d ∧ y ∈ s.ctxs[c].launches.flatMap (waitingOf s c)) :
    y ∈ cs.foldl (examineCtx s d) xs := by
  induction cs generalizing xs with
  | nil =>
    obtain h | ⟨_, hc, -⟩ := h
    · exact h
    · cases hc
  | cons c r ih =>
    refine ih ?_
    unfold examineCtx
    obtain h | ⟨k, hk, running, home, mem⟩ := h
    · left
      split
      · exact mem_insertAll.mpr (.inr h)
      · exact h
    · obtain rfl | hk := List.mem_cons.mp hk
      · left
        rw [if_pos (by rw [running, home]; simp)]
        exact mem_insertAll.mpr (.inl mem)
      · exact .inr ⟨k, hk, running, home, mem⟩

theorem examined_inOrder (s : State) (d : Fin 2) : InOrder (examined s d) := examined_eq s d ▸ foldl_examineCtx_inOrder _ .nil

theorem mem_examined {s : State} {d : Fin 2} {c : Fin 64} {l : Launch} {y : Waiting} (hr : s.ctxs[c].st = .running) (hh : homeDie s c = d)
    (hl : l ∈ s.ctxs[c].launches) (hy : y ∈ waitingOf s c l) : y ∈ examined s d :=
  examined_eq s d ▸ mem_foldl_examineCtx _ (.inr ⟨c, List.mem_finRange c, hr, hh, List.mem_flatMap.mpr ⟨l, hl, hy⟩⟩)

/-- A swapped unit of a launch, as it waits. -/
def swappedOut (c : Fin 64) (l : Launch) (u : UnitSt) : Waiting := { ctx := c, l := l, index := u.index, unit := some u }

/-- The swapped units of a launch, in their order. -/
def outOf (s : State) (c : Fin 64) (l : Launch) : List Waiting :=
  insertAll ((s.units.filter fun u => u.ctx == c && u.launch == l.id && u.st == .swapped).map (swappedOut c l)) []

/-- The unit of a launch that is next to dispatch. -/
def nextOf (c : Fin 64) (l : Launch) : List Waiting :=
  if (l.st == .ready || l.st == .running) && decide (l.next < l.total) then [{ ctx := c, l := l, index := l.next, unit := none }] else []

theorem waitingOf_eq (s : State) (c : Fin 64) (l : Launch) :
    waitingOf s c l = if l.r.chain then (outOf s c l ++ nextOf c l).take 1 else outOf s c l ++ nextOf c l := rfl

theorem mem_outOf {s : State} {c : Fin 64} {l : Launch} {y : Waiting} :
    y ∈ outOf s c l ↔ ∃ u ∈ s.units, (u.ctx = c ∧ u.launch = l.id ∧ u.st = .swapped) ∧ swappedOut c l u = y := by
  unfold outOf
  rw [mem_insertAll]
  simp [and_assoc]

theorem mem_nextOf {c : Fin 64} {l : Launch} (hs : l.st = .ready ∨ l.st = .running) (hn : l.next < l.total) :
    { ctx := c, l := l, index := l.next, unit := none } ∈ nextOf c l := by
  have goes : ((l.st == .ready || l.st == .running) && decide (l.next < l.total)) = true := by
    rw [decide_eq_true hn]
    obtain hs | hs := hs <;> rw [hs] <;> rfl
  rw [nextOf, if_pos goes]
  exact List.mem_singleton.mpr rfl

/-- Of a launch's swapped units the one that waits first has the lowest index. -/
theorem outOf_first {s : State} {c : Fin 64} {l : Launch} {y : Waiting} {r : List Waiting} (h : outOf s c l = y :: r) :
    y.unit ≠ none ∧ ∀ z ∈ outOf s c l, y.index ≤ z.index := by
  have made : ∀ z ∈ outOf s c l, z.l = l ∧ z.unit ≠ none := fun z hz => by
    obtain ⟨u, -, -, rfl⟩ := mem_outOf.mp hz
    exact ⟨rfl, Option.some_ne_none u⟩
  have head : y ∈ outOf s c l := h ▸ List.mem_cons_self
  have order : InOrder (outOf s c l) := insertAll_inOrder .nil
  refine ⟨(made y head).2, fun z hz => ?_⟩
  obtain ⟨ofY, -⟩ := made y head
  obtain ⟨ofZ, -⟩ := made z hz
  rw [h] at hz order
  obtain rfl | later := List.mem_cons.mp hz
  · exact le_rfl
  · refine Nat.le_of_not_lt fun less => (List.pairwise_cons.mp order).1 z later ?_
    unfold Claims.earlier
    rw [ofY, ofZ]
    exact .inr ⟨rfl, .inr ⟨rfl, less⟩⟩

/-! ### The core for a unit -/

/-- A core's place among those that can take a unit: by load, then the job warp's die, then number. -/
def coreKey (s : State) (jd : Fin 2) (k : Fin 384) : Nat := (2 * warpLoad s k + (if coreDie k = jd then 0 else 1)) * 384 + k.val

theorem bestCore_eq (s : State) (jd : Fin 2) (ks : List (Fin 384)) : bestCore s jd ks = ks.foldl (lesser (coreKey s jd)) none := by
  unfold bestCore
  dsimp only
  congr 1
  funext b k
  cases b <;> rfl

theorem coreBefore_of_key {s : State} {jd : Fin 2} {a b : Fin 384} (h : coreKey s jd a ≤ coreKey s jd b) : CoreBefore s jd a b := by
  unfold CoreBefore
  unfold coreKey at h
  have := a.isLt
  have := b.isLt
  simp only [Fin.le_def]
  split at h <;> split at h <;> rename_i ha hb <;> simp only [ha, hb, iff_true, not_true, not_false_eq_true, true_and, and_true, and_false,
    false_and, iff_false, or_false, false_or, ne_eq] <;> omega

theorem coreFor_some {s : State} {y : Waiting} {k : Fin 384} (h : coreFor s y = some k) :
    k ∈ coresFor s y ∧ (∀ u, y.unit = some u → u.core ∈ coresFor s y → k = u.core) ∧
    ((∀ u, y.unit = some u → u.core ∉ coresFor s y) → ∀ j ∈ coresFor s y, CoreBefore s (homeDie s y.ctx) k j) := by
  have best : bestCore s (homeDie s y.ctx) (coresFor s y) = some k → k ∈ coresFor s y ∧
      ∀ j ∈ coresFor s y, CoreBefore s (homeDie s y.ctx) k j := fun found => by
    rw [bestCore_eq] at found
    obtain ⟨mem, least⟩ := foldl_lesser_some found
    exact ⟨mem, fun j hj => coreBefore_of_key (least j hj)⟩
  unfold coreFor at h
  cases unit : y.unit with
  | none =>
    rw [unit] at h
    obtain ⟨mem, least⟩ := best h
    exact ⟨mem, fun _ hu _ => (nomatch hu), fun _ => least⟩
  | some u =>
    rw [unit] at h
    by_cases on : u.core ∈ coresFor s y
    · have core : u.core = k := Option.some.inj ((if_pos (List.contains_iff_mem.mpr on)).symm.trans h)
      exact ⟨core ▸ on, fun v hv _ => core.symm.trans (congrArg UnitSt.core (Option.some.inj hv)), fun off => absurd on (off u rfl)⟩
    · obtain ⟨mem, least⟩ := best ((if_neg fun c => on (List.contains_iff_mem.mp c)).symm.trans h)
      exact ⟨mem, fun v hv former => absurd (Option.some.inj hv ▸ former) on, fun _ => least⟩

/-- What can take a unit: a usable core within reach that is reserved for none or for it, with room. -/
theorem mem_coresFor {s : State} {y : Waiting} {k : Fin 384} (h : k ∈ coresFor s y) :
    usable s y.ctx k = true ∧ (reservation s k = none ∨ reservation s k = some (y.ctx, y.l.id, y.index)) ∧ (roomOn s k y.l.r).isSome = true := by
  have passes := (List.mem_filter.mp h).2
  simp only [Bool.and_eq_true] at passes
  obtain ⟨⟨⟨use, -⟩, free⟩, room⟩ := passes
  refine ⟨use, ?_, room⟩
  cases held : reservation s k with
  | none => exact .inl rfl
  | some x =>
    rw [held] at free
    exact .inr (congrArg some (beq_iff_eq.mp free))

theorem nextPlace_some {s : State} {d : Fin 2} {y : Waiting} {k : Fin 384} (h : nextPlace s d = some (y, k)) :
    ∃ l r, examined s d = l ++ y :: r ∧ coreFor s y = some k ∧ ∀ z ∈ l, coreFor s z = none := by
  obtain ⟨l, a, r, split, found, none⟩ := List.findSome?_eq_some_iff.mp h
  obtain ⟨j, core, same⟩ := Option.map_eq_some_iff.mp found
  cases same
  exact ⟨l, r, split, core, fun z hz => by simpa using none z hz⟩

theorem nextPlace_first {s : State} {d : Fin 2} {y : Waiting} {k : Fin 384} (h : nextPlace s d = some (y, k)) {z : Waiting} (hz : z ∈ examined s d)
    (he : Claims.earlier z y) : coreFor s z = none := by
  obtain ⟨l, r, split, -, none⟩ := nextPlace_some h
  have order := examined_inOrder s d
  unfold InOrder at order
  rw [split] at hz order
  obtain hz | hz := List.mem_append.mp hz
  · exact none z hz
  · obtain rfl | hz := List.mem_cons.mp hz
    · exact absurd he (not_earlier_self z)
    · exact absurd he ((List.pairwise_cons.mp (List.pairwise_append.mp order).2.1).1 z hz)

theorem placementOrder : Claims.PlacementOrder := by
  refine ⟨fun s d y k h => ?_, fun s c l => ⟨fun plain => ⟨fun u hu hc hl hs => ?_, fun hs hn => ?_⟩, fun chained => ⟨?_, fun u hu hc hl hs => ?_⟩⟩⟩
  · obtain ⟨-, -, -, core, -⟩ := nextPlace_some h
    obtain ⟨mem, former, best⟩ := coreFor_some core
    exact ⟨fun b l z running home hl hz before => nextPlace_first h (mem_examined running home hl hz) before, mem, (mem_coresFor mem).2.2, former, best⟩
  · rw [waitingOf_eq, plain, if_neg Bool.false_ne_true]
    exact List.mem_append_left _ (mem_outOf.mpr ⟨u, hu, ⟨hc, hl, hs⟩, rfl⟩)
  · rw [waitingOf_eq, plain, if_neg Bool.false_ne_true]
    exact List.mem_append_right _ (mem_nextOf hs hn)
  · rw [waitingOf_eq, if_pos chained]
    exact List.length_take_le _ _
  · have mem : swappedOut c l u ∈ outOf s c l := mem_outOf.mpr ⟨u, hu, ⟨hc, hl, hs⟩, rfl⟩
    rw [waitingOf_eq, if_pos chained]
    cases out : outOf s c l with
    | nil =>
      rw [out] at mem
      cases mem
    | cons y r =>
      obtain ⟨unit, least⟩ := outOf_first out
      exact ⟨y, by simp, unit, least _ mem⟩

theorem leastCore_eq (s : State) (c : Fin 64) : leastCore s c =
    ((List.finRange 384).filter fun k => usable s c k && (reservation s k).isNone).foldl (lesser (warpLoad s)) none := by
  unfold leastCore
  congr 1
  funext b k
  cases b <;> rfl

theorem reservations : Claims.Reservations := by
  refine ⟨fun s c l u since resv running waits late apart free => ?_, fun s y k h => ?_⟩
  · obtain ⟨j, use, open_⟩ := free
    have mem : ∀ j, j ∈ ((List.finRange 384).filter fun k => usable s c k && (reservation s k).isNone) ↔
        usable s c j = true ∧ reservation s j = none := fun j => by
      rw [List.mem_filter, Bool.and_eq_true, Option.isNone_iff_eq_none]
      exact and_iff_right (List.mem_finRange j)
    obtain ⟨k, found⟩ := foldl_lesser_isSome (warpLoad s) ((mem j).mpr ⟨use, open_⟩)
    obtain ⟨can, no⟩ := (mem k).mp (foldl_lesser_some found).1
    have lowest := foldl_lesser_lowest ((List.pairwise_lt_finRange 384).filter _) found
    refine ⟨k, ?_, can, no, fun j hj hn => lowest j ((mem j).mpr ⟨hj, hn⟩)⟩
    rw [← leastCore_eq] at found
    have asks : (s.ctxs[c].st == .running && waitsCore s c l u && decide (since + Config.reserveAfter ≤ s.now) &&
        !(s.ctxs[c].resvCore.any fun y => y.1 == l && y.2.1 == u)) = true := by
      rw [running, waits, decide_eq_true (show since + Config.reserveAfter ≤ s.now from late)]
      simpa using apart
    show execDispatchReservation c s = _
    unfold execDispatchReservation
    dsimp only
    rw [resv]
    dsimp only
    rw [if_pos asks, found]
  · obtain ⟨use, held, -⟩ := mem_coresFor h
    exact ⟨use, held⟩

end Sys2Proof.Proofs


/-! SUPPORT. What a placed unit starts with, and the job and fault-service warps (R62, R72, R75, R79, R91, R92, R251). -/

namespace Sys2Proof.Proofs

open Sys2Proof Sys2Proof.Machine Sys2Proof.Claims Sys2Proof.Laws

/-! ### A new warp -/

/-- A new warp starts as R62 and R91 say, whatever its scalar registers and its slot are. -/
theorem newWarp_starts (id : Nat) (c : Fin 64) (k : Fin 384) (q : Fin 4) (kind : WKind) (rank vcount : Nat) (lanes : Mask) (age : BitVec 32)
    (pc : Word) (v : Vector Word 128) (i : Option (Fin 16)) :
    Starts { newWarp id c k q kind rank vcount lanes age pc with s := v, sub := i } pc lanes where
  live := rfl
  split := ⟨firstSplit age pc lanes, by
    show (tabulate 8 fun i => if i = 0 then some (firstSplit age pc lanes) else none)[(0 : Fin 8)] = _
    rw [tabulate_get]
    rfl, rfl, rfl, rfl, rfl, rfl⟩
  one := fun j hj => by
    show (tabulate 8 fun i => if i = 0 then some (firstSplit age pc lanes) else none)[j] = _
    rw [tabulate_get]
    exact if_neg hj
  v := fun d l => by
    show (always 256 (always 32 (0 : Word)))[d][l] = 0
    rw [always_get, always_get]
  p := fun d hd => (if_neg hd).trans (always_get 8 _ d)
  h := fun d => always_get 16 _ d
  rest := ⟨rfl, rfl, rfl, rfl, rfl, rfl, rfl, rfl⟩

theorem sreg_newWarp (id : Nat) (c : Fin 64) (k : Fin 384) (q : Fin 4) (kind : WKind) (rank vcount : Nat) (lanes : Mask) (age : BitVec 32)
    (pc : Word) (d : Fin 128) : sreg (newWarp id c k q kind rank vcount lanes age pc) d = 0 := by
  unfold sreg
  split
  · rfl
  · exact always_get 128 _ d

theorem setS_same (w : Warp) (r : Fin 128) (x : Word) : ∃ v, setS w r x = { w with s := v } := by
  unfold setS
  split
  · exact ⟨w.s, rfl⟩
  · exact ⟨_, rfl⟩

/-! ### The start of a unit (R72, R79, R91, R92) -/

theorem launchedLanes_iff (r : LRec) (u rank : Nat) (j : Fin 32) :
    (launchedLanes r u rank).getLsbD j.val = true ↔ (u * r.wpu + rank) * 32 + j.val < r.items := by
  unfold launchedLanes
  rw [getLsbD_ofFn, decide_eq_true_iff]

/-- The warps of a unit's ranks, as they start. -/
def UnitWarps (c : Fin 64) (uid u : Nat) (r : LRec) (k : Fin 384) (ws : List Warp) : Prop :=
  ∀ rank w, ws[rank]? = some w → ∃ id age,
    w = newWarp id c k (Fin.ofNat 4 rank) (.unit uid) rank (16 * r.vregs) (launchedLanes r u rank) age r.entry

theorem startUnitWarps (s : State) (c : Fin 64) (uid u : Nat) (r : LRec) (k : Fin 384) (n : Nat) :
    ∃ serial ws, (List.range n).foldl (fun s rank => startUnitWarp s c uid u r k rank) s = { s with serial := serial, warps := s.warps ++ ws } ∧
      ws.length = n ∧ UnitWarps c uid u r k ws := by
  induction n with
  | zero => exact ⟨s.serial, [], by rw [List.append_nil]; rfl, rfl, nofun⟩
  | succ n ih =>
    obtain ⟨serial, ws, run, len, made⟩ := ih
    let w := newWarp serial c k (Fin.ofNat 4 n) (.unit uid) n (16 * r.vregs) (launchedLanes r u n) s.cores[k].issue[(Fin.ofNat 4 n : Fin 4)] r.entry
    refine ⟨serial + 1, ws ++ [w], ?_, by rw [List.length_append, len]; rfl, fun rank y hy => ?_⟩
    · rw [List.range_succ, List.foldl_append, run, ← List.append_assoc]
      rfl
    · by_cases old : rank < ws.length
      · exact made rank y (by rwa [List.getElem?_append_left old] at hy)
      · obtain ⟨len', last⟩ := List.getElem?_eq_some_iff.mp hy
        have same : rank = n := by
          rw [List.length_append, List.length_singleton] at len'
          omega
        subst same
        rw [List.getElem?_append_right (Nat.le_of_not_lt old), len, Nat.sub_self] at hy
        exact ⟨serial, _, (Option.some.inj hy).symm⟩

theorem coreIdle_iff (s : State) (k : Fin 384) : coreIdle s k = true ↔ ¬ (residents s k ≠ [] ∨ ∃ o ∈ s.carves, o.core = k) := by
  unfold coreIdle
  rw [Bool.and_eq_true, List.isEmpty_iff, Bool.not_eq_true', List.any_eq_false, not_or, not_not]
  simp

theorem l1DropClean_modCore (s : State) (k : Fin 384) (p : L1Line → Bool) :
    ∃ f : Core → Core, l1DropClean s k p = modCore s k f ∧ ∀ x, (f x).ppw = x.ppw := by
  unfold l1DropClean
  exact ⟨_, rfl, fun _ => rfl⟩

/-- A core made ready for a unit: only it and what the write-backs use change, and it adopts the word where it is idle (R79, R89). -/
theorem readyCore_uses {s : State} {k : Fin 384} (r : LRec) (h : NothingLost s k) : CoreUses k s (readyCore s k r) ∧
    (readyCore s k r).cores[k].ppw =
      if s.cores[k].ppw = r.ppw ∨ residents s k ≠ [] ∨ (∃ o ∈ s.carves, o.core = k) then s.cores[k].ppw else r.ppw := by
  have drop : ∀ u : State, CoreUses k s u → CoreUses k s (l1DropClean u k wideLine) ∧ (l1DropClean u k wideLine).cores[k].ppw = u.cores[k].ppw :=
    fun u uses => by
      obtain ⟨f, run, word⟩ := l1DropClean_modCore u k wideLine
      rw [run]
      exact ⟨uses.trans (modCore_coreUses k u f), (congrArg Core.ppw (modCore_same u k f)).trans (word _)⟩
  have asks : (coreIdle s k && s.cores[k].ppw != r.ppw) = true ↔
      ¬ (s.cores[k].ppw = r.ppw ∨ residents s k ≠ [] ∨ ∃ o ∈ s.carves, o.core = k) := by
    rw [Bool.and_eq_true, coreIdle_iff, bne_iff_ne, not_or (p := _ = _)]
    exact and_comm
  unfold readyCore
  by_cases keeps : s.cores[k].ppw = r.ppw ∨ residents s k ≠ [] ∨ ∃ o ∈ s.carves, o.core = k
  · rw [if_pos keeps, if_neg fun a => asks.mp a keeps]
    exact drop s (.refl k s)
  · rw [if_neg keeps, if_pos (asks.mpr keeps)]
    obtain ⟨uses, word⟩ := takeWord_leaves h r.ppw
    obtain ⟨all, kept⟩ := drop _ uses
    exact ⟨all, kept.trans word⟩

/-- A launch whose next unit has been placed. -/
def goesOnWith (l : Launch) : Launch := { l with st := .running, next := l.next + 1 }

theorem modLaunch_ctxs {s t : State} (h : s.ctxs = t.ctxs) (c : Fin 64) (id : Nat) (f : Launch → Launch) :
    (modLaunch s c id f).ctxs = (modLaunch t c id f).ctxs := by
  unfold modLaunch modCtx
  rw [h]

/-- A launch that is changed without its number is found changed. -/
theorem findLaunch_modLaunch {s : State} {c : Fin 64} {l : Launch} {id : Nat} (h : findLaunch s.ctxs[c] id = some l) {f : Launch → Launch}
    (hf : ∀ l, (f l).id = l.id) : findLaunch (modLaunch s c id f).ctxs[c] id = some (f l) := by
  have changed : (modLaunch s c id f).ctxs[c].launches = s.ctxs[c].launches.map fun l => if l.id == id then f l else l :=
    congrArg Ctx.launches (modCtx_same s c _)
  rw [findLaunch_map _ (fun y => by split <;> simp [hf]) changed, h]
  exact congrArg some (if_pos (beq_iff_eq.mpr (findLaunch_id h)))

/-- A state that a unit with the next number joins. -/
def joinUnit (s : State) (y : UnitSt) : State := { s with serial := s.serial + 1, units := s.units ++ [y] }

/-- The warps of the unit start before the launch goes on with its next. -/
theorem placeUnit_eq {s : State} {c : Fin 64} {l : Launch} {k : Fin 384} {g : Granules} (hg : roomOn s k l.r = some g) :
    placeUnit s c l k = modLaunch ((List.range (warpCount l.r l.next)).foldl
      (fun t rank => startUnitWarp t c (readyCore s k l.r).serial l.next l.r k rank)
      (joinUnit (readyCore s k l.r) (newUnit (readyCore s k l.r).serial c l l.next k g))) c l.id goesOnWith := by
  unfold placeUnit
  rw [hg]
  rfl

/-- The next unit of a launch on a core: what it and its warps are, the core's word, and the launch. -/
theorem placeUnit_starts {s : State} {c : Fin 64} {l : Launch} {k : Fin 384} {g : Granules} (hg : roomOn s k l.r = some g) (hn : NothingLost s k) :
    ∃ id ws, (placeUnit s c l k).units = s.units ++ [newUnit id c l l.next k g] ∧ (placeUnit s c l k).warps = s.warps ++ ws ∧
      ws.length = warpCount l.r l.next ∧ UnitWarps c id l.next l.r k ws ∧
      (placeUnit s c l k).cores[k].ppw =
        (if s.cores[k].ppw = l.r.ppw ∨ residents s k ≠ [] ∨ (∃ o ∈ s.carves, o.core = k) then s.cores[k].ppw else l.r.ppw) ∧
      (placeUnit s c l k).ctxs = (modLaunch s c l.id goesOnWith).ctxs := by
  obtain ⟨uses, word⟩ := readyCore_uses l.r hn
  rw [placeUnit_eq hg]
  generalize readyCore s k l.r = u at uses word
  obtain ⟨serial, ws, run, len, made⟩ := startUnitWarps (joinUnit u (newUnit u.serial c l l.next k g)) c u.serial l.next l.r k (warpCount l.r l.next)
  rw [run]
  have units : u.units = s.units := uses.field State.units fun _ => rfl
  have warps : u.warps = s.warps := uses.field State.warps fun _ => rfl
  have ctxs : u.ctxs = s.ctxs := uses.field State.ctxs fun _ => rfl
  refine ⟨u.serial, ws, congrArg (· ++ _) units, congrArg (· ++ ws) warps, len, made, word, modLaunch_ctxs (t := s) ctxs c l.id goesOnWith⟩

/-- Of a state whose unit has been placed only the reservations of its contexts change. -/
theorem placedUnit_rest (s : State) (y : Waiting) (first : Bool) : { placedUnit s y first with ctxs := s.ctxs } = s := by
  cases first <;> rfl

theorem placedUnit_launches (s : State) (y : Waiting) (first : Bool) (c : Fin 64) : (placedUnit s y first).ctxs[c].launches = s.ctxs[c].launches := by
  have base : ∀ t : State, t.ctxs[c].launches = s.ctxs[c].launches → (placedUnit t y false).ctxs[c].launches = s.ctxs[c].launches := fun t same => by
    by_cases own : c = y.ctx
    · subst own
      exact (congrArg Ctx.launches (modCtx_same t y.ctx _)).trans same
    · exact (congrArg Ctx.launches (modCtx_other t y.ctx c _ own)).trans same
  cases first with
  | false => exact base s rfl
  | true =>
    refine base { s with ctxs := tabulate 64 fun c =>
      if (homeDie s c == homeDie s y.ctx) = true then { s.ctxs[c] with resvUnit := none } else s.ctxs[c] } ?_
    dsimp only
    rw [tabulate_get]
    split <;> rfl

theorem droverMessage_rest (s : State) (a b : Fin 2) : { droverMessage s a b with bridge := s.bridge } = s := by
  unfold droverMessage
  split <;> rfl

theorem droverMessage_field (s : State) (a b : Fin 2) {α : Type} (f : State → α) (hf : ∀ t : State, f { t with bridge := s.bridge } = f t) :
    f (droverMessage s a b) = f s := by
  rw [← hf (droverMessage s a b), droverMessage_rest]

/-- What is neither the reservations nor the bridge is after a placement as placing the unit left it. -/
theorem placed_field (s : State) (y : Waiting) (first : Bool) (a b : Fin 2) {α : Type} (f : State → α)
    (hf : ∀ (t : State) x, f { t with bridge := x } = f t) (hc : ∀ (t : State) x, f { t with ctxs := x } = f t) :
    f (placedUnit (droverMessage s a b) y first) = f s := by
  rw [← hc _ (droverMessage s a b).ctxs, placedUnit_rest]
  exact droverMessage_field s a b f fun t => hf t _

theorem unitDispatch_places {s : State} {c : Fin 64} {l : Launch} {k : Fin 384}
    (next : nextPlace s (homeDie s c) = some ({ ctx := c, l := l, index := l.next, unit := none }, k))
    (cross : crossing s (homeDie s c) (coreDie k) = .free) : ∃ first, exec (.unitDispatch c) s =
      .next (placedUnit (droverMessage (placeUnit s c l k) (homeDie s c) (coreDie k)) { ctx := c, l := l, index := l.next, unit := none } first) := by
  refine ⟨(examined s (homeDie s c)).head? == some { ctx := c, l := l, index := l.next, unit := none }, ?_⟩
  show execUnitDispatch c s = _
  unfold execUnitDispatch
  dsimp only
  rw [show firstPlace s (examined s (homeDie s c)) = _ from next]
  exact if_pos (by rw [cross, decide_eq_true rfl]; rfl)

theorem unitStarts : Claims.UnitStarts := by
  intro s c l k g next cross room found lost
  obtain ⟨first, run⟩ := unitDispatch_places next cross
  obtain ⟨id, ws, units, warps, len, made, word, ctxs⟩ := placeUnit_starts (c := c) (l := l) room lost
  have rest := fun {α : Type} (f : State → α) hf hc =>
    placed_field (placeUnit s c l k) { ctx := c, l := l, index := l.next, unit := none } first (homeDie s c) (coreDie k) f hf hc
  have launches := placedUnit_launches (droverMessage (placeUnit s c l k) (homeDie s c) (coreDie k))
    { ctx := c, l := l, index := l.next, unit := none } first c
  rw [droverMessage_field _ _ _ State.ctxs fun _ => rfl, ctxs] at launches
  refine ⟨_, newUnit id c l l.next k g, ws, run, ?_, ?_, ⟨rfl, rfl, rfl, rfl, rfl, rfl, rfl, rfl⟩,
    ⟨BitVec.toNat_ofNat _ _, BitVec.toNat_ofNat _ _, BitVec.toNat_ofNat _ _⟩, fun a => ⟨always_get 8 _ a, always_get 8 _ a⟩, fun b => always_get 16 _ b,
    ?_, ?_, len, fun rank w hw => ?_⟩
  · rw [rest State.units (fun _ _ => rfl) fun _ _ => rfl, units]
  · rw [rest State.warps (fun _ _ => rfl) fun _ _ => rfl, warps]
  · rw [rest State.cores (fun _ _ => rfl) fun _ _ => rfl, word]
  · unfold findLaunch
    rw [launches]
    exact findLaunch_modLaunch found fun _ => rfl
  · obtain ⟨wid, age, rfl⟩ := made rank w hw
    refine ⟨newWarp_starts wid c k _ _ rank _ _ age _ _ none, sreg_newWarp wid c k _ _ rank _ _ age _, rfl, rfl, rfl, rfl, rfl, rfl, fun j => ?_⟩
    exact launchedLanes_iff l.r l.next rank j

/-! ### Job and fault-service warps (R62, R75, R251) -/

theorem sreg_setSs (w : Warp) (f : Nat → Word) (n : Nat) (hn : n ≤ 125) (q : Fin 128) :
    sreg ((List.range n).foldl (fun w k => setS w (Fin.ofNat 128 (3 + k)) (f k)) w) q =
      if 3 ≤ q.val ∧ q.val < 3 + n then f (q.val - 3) else sreg w q := by
  induction n with
  | zero => exact (if_neg (by omega)).symm
  | succ n ih =>
    have val : (Fin.ofNat 128 (3 + n)).val = 3 + n := Nat.mod_eq_of_lt (by omega)
    have pos : Fin.ofNat 128 (3 + n) ≠ 0 := fun h => by
      have := congrArg Fin.val h
      rw [val] at this
      exact absurd this (by simp)
    rw [List.range_succ, List.foldl_append, List.foldl_cons, List.foldl_nil, sreg_setS_of_ne pos, ih (by omega)]
    by_cases last : q = Fin.ofNat 128 (3 + n)
    · have at_ : q.val = 3 + n := last ▸ val
      rw [if_pos last, if_pos (by omega), at_, Nat.add_sub_cancel_left]
    · have apart : q.val ≠ 3 + n := fun h => last (Fin.ext (h.trans val.symm))
      rw [if_neg last]
      congr 1
      exact propext (by omega)

theorem setSs_same (w : Warp) (f : Nat → Word) (ks : List Nat) : ∃ v, ks.foldl (fun w k => setS w (Fin.ofNat 128 (3 + k)) (f k)) w = { w with s := v } := by
  induction ks generalizing w with
  | nil => exact ⟨w.s, rfl⟩
  | cons k r ih =>
    obtain ⟨v, one⟩ := setS_same w (Fin.ofNat 128 (3 + k)) (f k)
    rw [List.foldl_cons, one]
    exact ih _

theorem sreg_serviceRegs (w : Warp) (x : Word) (words : List Word) (q : Fin 128) :
    sreg (serviceRegs w x words) q = if 3 ≤ q.val ∧ q.val < 11 then words.getD (q.val - 3) 0 else if q = 1 then x else sreg w q := by
  unfold serviceRegs
  rw [sreg_setSs _ (fun k => words.getD k 0) 8 (by omega), sreg_setS_of_ne (by decide)]

/-- The first found of a list in order: none lower passes. -/
theorem find?_lowest {n : Nat} {p : Fin n → Bool} {i j : Fin n} (h : (List.finRange n).find? p = some i) (hj : j < i) : p j = false := by
  obtain ⟨-, l, r, split, before⟩ := List.find?_eq_some_iff_append.mp h
  have order := List.pairwise_lt_finRange n
  have mem := List.mem_finRange j
  rw [split] at order mem
  obtain mem | mem := List.mem_append.mp mem
  · simpa using before j mem
  · obtain rfl | mem := List.mem_cons.mp mem
    · exact absurd hj (lt_irrefl _)
    · exact absurd hj ((List.pairwise_cons.mp (List.pairwise_append.mp order).2.1).1 j mem).asymm

theorem slotTaken_iff (s : State) (k : Fin 384) (i : Fin 16) :
    (s.warps.any fun w => holdsSlot k w && w.sub == some i) = true ↔ ∃ w ∈ s.warps, holdsSlot k w = true ∧ w.sub = some i := by
  simp

theorem freeSub_some {s : State} {k : Fin 384} {i : Fin 16} (h : freeSub s k = some i) :
    (∀ w ∈ s.warps, holdsSlot k w = true → w.sub ≠ some i) ∧ ∀ j : Fin 16, j < i → ∃ w ∈ s.warps, holdsSlot k w = true ∧ w.sub = some j := by
  refine ⟨fun w hw holds sub => ?_, fun j hj => ?_⟩
  · have taken := (slotTaken_iff s k i).mpr ⟨w, hw, holds, sub⟩
    have free := List.find?_some h
    rw [taken] at free
    exact Bool.false_ne_true free
  · have taken := find?_lowest h hj
    exact (slotTaken_iff s k j).mp (by simpa using taken)

theorem dispatchPlace_some {s : State} {d : Fin 2} {k : Fin 384} {i : Fin 16} (h : dispatchPlace s d = some (k, i)) :
    s.dies[d].dstate = .online ∧ freeSub s k = some i ∧
      ((dispatchCores s d).filter fun k => (freeSub s k).isSome).foldl (lesser (dispatchLoad s)) none = some k := by
  have fold : ∀ ks : List (Fin 384), ks.foldl (fun (b : Option (Fin 384)) k =>
      match b with
      | none => some k
      | some j => if dispatchLoad s k < dispatchLoad s j then some k else some j) none = ks.foldl (lesser (dispatchLoad s)) none := fun ks => by
    congr 1
    funext b k
    cases b <;> rfl
  unfold dispatchPlace at h
  split at h
  · cases h
  · rename_i up
    obtain ⟨j, found, slot⟩ := Option.bind_eq_some_iff.mp h
    obtain ⟨n, free, same⟩ := Option.map_eq_some_iff.mp slot
    cases same
    exact ⟨by simpa using up, free, (fold _).symm.trans found⟩

/-- The state that a start leaves: its queue is without it. -/
theorem takeStart_starts (s : State) (d : Fin 2) (q : StartReq) : (takeStart s d q).starts[d] = s.starts[d].erase q :=
  Vector.getElem_set_self d.isLt

theorem jobRegs_same (w : Warp) (x y : Word) : ∃ v, setS (setS w 1 x) 2 y = { w with s := v } := by
  obtain ⟨v, one⟩ := setS_same w 1 x
  rw [one]
  exact setS_same _ 2 y

theorem serviceRegs_same (w : Warp) (x y : Word) (words : List Word) : ∃ v, setS (serviceRegs w x words) 2 y = { w with s := v } := by
  obtain ⟨v, one⟩ := setS_same w 1 x
  obtain ⟨u, more⟩ := setSs_same { w with s := v } (fun k => words.getD k 0) (List.range 8)
  unfold serviceRegs
  rw [one, more]
  exact setS_same _ 2 y

/-- A start on a dispatch core adds one warp to the state. -/
def joinWarp (s : State) (w : Warp) : State := { s with serial := s.serial + 1, warps := s.warps ++ [w] }

/-- The warp that a start on a dispatch core adds. -/
def dispatchWarp (s : State) (c : Fin 64) (k : Fin 384) (i : Fin 16) (kind : WKind) (pc : Word) (regs : Warp → Warp) : Warp :=
  { regs (newWarp s.serial c k 0 kind 0 256 (BitVec.allOnes 32) s.cores[k].issue[(0 : Fin 4)] pc) with sub := some i }

/-- The warp of a start on a dispatch core, where what it begins with is put in its scalar registers. -/
theorem dispatchWarp_starts {s : State} {c : Fin 64} {k : Fin 384} {i : Fin 16} {kind : WKind} {pc : Word} {regs : Warp → Warp}
    (h : ∀ y, ∃ v, regs y = { y with s := v }) :
    Starts (dispatchWarp s c k i kind pc regs) pc (BitVec.allOnes 32) ∧ (dispatchWarp s c k i kind pc regs).kind = kind ∧
      (dispatchWarp s c k i kind pc regs).ctx = c ∧ (dispatchWarp s c k i kind pc regs).core = k ∧
      (dispatchWarp s c k i kind pc regs).sub = some i ∧ (dispatchWarp s c k i kind pc regs).vcount = 256 := by
  obtain ⟨v, same⟩ := h (newWarp s.serial c k 0 kind 0 256 (BitVec.allOnes 32) s.cores[k].issue[(0 : Fin 4)] pc)
  unfold dispatchWarp
  rw [same]
  exact ⟨newWarp_starts s.serial c k 0 kind 0 256 _ _ pc v (some i), rfl, rfl, rfl, rfl, rfl⟩

theorem sreg_dispatchWarp (s : State) (c : Fin 64) (k : Fin 384) (i : Fin 16) (kind : WKind) (pc : Word) (regs : Warp → Warp) (q : Fin 128) :
    sreg (dispatchWarp s c k i kind pc regs) q =
      sreg (regs (newWarp s.serial c k 0 kind 0 256 (BitVec.allOnes 32) s.cores[k].issue[(0 : Fin 4)] pc)) q := rfl

theorem startDispatch_eq (s : State) (c : Fin 64) (k : Fin 384) (i : Fin 16) (kind : WKind) (pc : Word) (regs : Warp → Warp) :
    startDispatch s c (k, i) kind pc regs = joinWarp s (dispatchWarp s c k i kind pc regs) := rfl

theorem jobStarts (s : State) (d : Fin 2) (c : Fin 64) (k : Fin 384) (i : Fin 16) (next : nextStart s d = some (.job c))
    (place : dispatchPlace s d = some (k, i)) :
    ∃ t w, exec (.jobWarpStart d) s = .next t ∧ t.warps = s.warps ++ [w] ∧ Starts w s.ctxs[c].jobEntry (BitVec.allOnes 32) ∧
      w.kind = .job ∧ w.ctx = c ∧ w.core = k ∧ w.sub = some i ∧ w.vcount = 256 ∧ sreg w 1 = s.ctxs[c].jobArg ∧
      (sreg w 2).toNat = s.ctxs[c].seq.toNat ∧ (∀ q : Fin 128, 3 ≤ q.val → sreg w q = 0) ∧ t.ctxs[c].jobWait = false ∧ t.mem = s.mem ∧
      t.starts[d] = s.starts[d].erase (.job c) := by
  let x := s.ctxs[c]
  let u := modCtx (takeStart s d (.job c)) c fun x => { x with jobWait := false }
  let w := dispatchWarp u c k i .job x.jobEntry fun w => setS (setS w 1 x.jobArg) 2 (x.seq.setWidth 64)
  have run : exec (.jobWarpStart d) s = .next (joinWarp u w) := by
    show execJobWarpStart d s = _
    unfold execJobWarpStart
    rw [next, place]
    exact congrArg Host.Outcome.next (startDispatch_eq u c k i .job x.jobEntry _)
  obtain ⟨starts, kind, ctx, core, sub, count⟩ : Starts w x.jobEntry (BitVec.allOnes 32) ∧ w.kind = .job ∧ w.ctx = c ∧ w.core = k ∧
      w.sub = some i ∧ w.vcount = 256 := dispatchWarp_starts fun y => jobRegs_same y _ _
  have reads : ∀ q, sreg w q = if q = 2 then x.seq.setWidth 64 else if q = 1 then x.jobArg else 0 := fun q => by
    rw [sreg_dispatchWarp, sreg_setS_of_ne (by decide), sreg_setS_of_ne (by decide), sreg_newWarp]
  refine ⟨joinWarp u w, w, run, rfl, starts, kind, ctx, core, sub, count, (reads 1).trans rfl, ?_, fun q hq => ?_, ?_, rfl, takeStart_starts s d _⟩
  · rw [reads 2, if_pos rfl]
    exact BitVec.toNat_setWidth_of_le (by decide)
  · rw [reads q, if_neg (by rintro rfl; exact absurd hq (by decide)), if_neg (by rintro rfl; exact absurd hq (by decide))]
  · exact congrArg Ctx.jobWait (modCtx_same (takeStart s d (.job c)) c fun x => { x with jobWait := false })

theorem serviceStarts (s : State) (d : Fin 2) (c : Fin 64) (slot : Nat) (r : SlotRec) (k : Fin 384) (i : Fin 16)
    (next : nextStart s d = some (.service c slot)) (place : dispatchPlace s d = some (k, i))
    (found : s.dies[d].slots.find? (fun y => y.slot == slot) = some r) :
    ∃ t w, exec (.faultServiceStart d) s = .next t ∧ t.warps = s.warps ++ [w] ∧ Starts w s.ctxs[c].svec (BitVec.allOnes 32) ∧
      w.kind = .service d (some slot) ∧ w.ctx = c ∧ w.core = k ∧ w.sub = some i ∧ sreg w 1 = BitVec.ofNat 64 slot ∧
      (sreg w 2).toNat = s.ctxs[c].seq.toNat ∧ (∀ j : Fin 8, sreg w (Fin.ofNat 128 (3 + j.val)) = r.words.getD j.val 0) ∧
      (∀ q : Fin 128, 11 ≤ q.val → sreg w q = 0) ∧ t.mem = s.mem := by
  let x := s.ctxs[c]
  let u := takeStart s d (.service c slot)
  let w := dispatchWarp u c k i (.service d (some slot)) x.svec fun w => setS (serviceRegs w (BitVec.ofNat 64 slot) r.words) 2 (x.seq.setWidth 64)
  have words : slotWords s d slot = r.words := by
    unfold slotWords
    rw [found]
  have run : exec (.faultServiceStart d) s = .next (joinWarp u w) := by
    show execFaultServiceStart d s = _
    unfold execFaultServiceStart
    rw [next, place]
    dsimp only
    rw [words]
    exact congrArg Host.Outcome.next (startDispatch_eq u c k i (.service d (some slot)) x.svec _)
  obtain ⟨starts, kind, ctx, core, sub, -⟩ : Starts w x.svec (BitVec.allOnes 32) ∧ w.kind = .service d (some slot) ∧ w.ctx = c ∧ w.core = k ∧
      w.sub = some i ∧ w.vcount = 256 := dispatchWarp_starts fun y => serviceRegs_same y _ _ _
  have reads : ∀ q, sreg w q = if q = 2 then x.seq.setWidth 64 else if 3 ≤ q.val ∧ q.val < 11 then r.words.getD (q.val - 3) 0
      else if q = 1 then BitVec.ofNat 64 slot else 0 := fun q => by
    rw [sreg_dispatchWarp, sreg_setS_of_ne (by decide), sreg_serviceRegs, sreg_newWarp]
  clear_value w
  refine ⟨joinWarp u w, w, run, rfl, starts, kind, ctx, core, sub, ?_, ?_, fun j => ?_, fun q hq => ?_, rfl⟩
  · rw [reads, if_neg (by decide), if_neg (by decide), if_pos rfl]
  · rw [reads, if_pos rfl]
    exact BitVec.toNat_setWidth_of_le (by decide)
  · have val : (Fin.ofNat 128 (3 + j.val)).val = 3 + j.val := Nat.mod_eq_of_lt (by omega)
    have apart : Fin.ofNat 128 (3 + j.val) ≠ 2 := fun h => by
      have same : 3 + j.val = 2 := val.symm.trans (congrArg Fin.val h)
      omega
    rw [reads, if_neg apart, val, if_pos (by omega), Nat.add_sub_cancel_left]
  · rw [reads q, if_neg (by rintro rfl; exact absurd hq (by decide)), if_neg (by omega), if_neg (by rintro rfl; exact absurd hq (by decide))]

theorem dispatchStarts : Claims.DispatchStarts := by
  refine ⟨jobStarts, serviceStarts, fun s d k i place => ?_⟩
  obtain ⟨up, slot, least⟩ := dispatchPlace_some place
  obtain ⟨mem, load⟩ := foldl_lesser_some least
  obtain ⟨free, lower⟩ := freeSub_some slot
  exact ⟨up, (List.mem_filter.mp mem).1, free, lower, fun j hj room => load j (List.mem_filter.mpr ⟨hj, room⟩)⟩

end Sys2Proof.Proofs


/-! SUPPORT. The retirement of a unit, and the end of the launch that it is the last of (R71, R79, R80, R92). -/

namespace Sys2Proof.Proofs

open Sys2Proof Sys2Proof.Machine Sys2Proof.Claims Sys2Proof.Laws

/-! ### What a unit's retirement leaves -/

/-- A state in which nothing of a unit's own is left outstanding: its handles are free and its operations gone. -/
def ownFreed (s : State) (u : UnitSt) : State :=
  { freeHandles s u.ctx (.unit u.id) with
    copies := (freeHandles s u.ctx (.unit u.id)).copies.filter fun o => !(o.ctx == u.ctx && o.unit == some u.id)
    mops := (freeHandles s u.ctx (.unit u.id)).mops.filter fun o => o.unit != u.id }

/-- A unit of a chained launch that has retired: it stays listed, and holds nothing. -/
def emptied (x : UnitSt) : UnitSt :=
  { x with
    st := .retired, regs := 0, scr := 0, acc := 0, scratch := [], tiles := always 8 Tile.reset, engs := always 8 Eng.reset
    xctx := always 4 XCtx.reset }

/-- A state that a unit has left with its warps. -/
def unlisted (s : State) (u : Nat) : State := { dropWarps s (inUnit u) with units := s.units.filter fun x => x.id != u }

/-- A launch of which one more unit has retired. -/
def oneMore (l : Launch) : Launch := { l with retired := l.retired + 1 }

/-- A context in which the entries of an owner are free. -/
def freedOf (o : Owner) (x : Ctx) : Ctx := { x with handles := x.handles.map fun e => if e.owner = o then { e with st := .free } else e }

theorem ownFreed_ctx (s : State) (u : UnitSt) : (ownFreed s u).ctxs[u.ctx] = freedOf (.unit u.id) s.ctxs[u.ctx] := by
  show (modCtx s u.ctx (freedOf (.unit u.id))).ctxs[u.ctx] = _
  exact modCtx_same s u.ctx _

theorem freedOf_handles {o : Owner} {x : Ctx} : ∀ e ∈ (freedOf o x).handles, e.owner = o → e.st = .free := by
  intro e he owner
  obtain ⟨y, -, rfl⟩ := List.mem_map.mp he
  by_cases own : y.owner = o
  · rw [if_pos own]
  · rw [if_neg own] at owner
    exact absurd owner own

theorem retireUnit_eq {s : State} {u : UnitSt} {l : Launch} (h : findLaunch s.ctxs[u.ctx] u.launch = some l) :
    retireUnit s u = modLaunch (if l.r.chain then modUnit (ownFreed s u) u.id emptied else unlisted (ownFreed s u) u.id) u.ctx u.launch oneMore := by
  have named : recordOf (ownFreed s u) u = some l.r := by
    unfold recordOf launchOf
    rw [ownFreed_ctx]
    exact congrArg (Option.map Launch.r) h
  have chained : (match recordOf (ownFreed s u) u with | some r => r.chain | none => false) = l.r.chain := by rw [named]
  show modLaunch (if (match recordOf (ownFreed s u) u with | some r => r.chain | none => false) = true then modUnit (ownFreed s u) u.id emptied
    else unlisted (ownFreed s u) u.id) u.ctx u.launch oneMore = _
  rw [chained]

section

variable {s : State} {u : UnitSt} {l : Launch}

theorem retireUnit_ctxs (h : findLaunch s.ctxs[u.ctx] u.launch = some l) :
    (retireUnit s u).ctxs = (modLaunch (ownFreed s u) u.ctx u.launch oneMore).ctxs := by
  rw [retireUnit_eq h]
  refine modLaunch_ctxs ?_ _ _ _
  split <;> rfl

/-- The launches of a context after a unit of `id` has retired. -/
def retiredOne (id : Nat) (y : Launch) : Launch := if y.id == id then oneMore y else y

theorem retiredOne_id (id : Nat) (y : Launch) : (retiredOne id y).id = y.id := by
  unfold retiredOne
  split <;> rfl

theorem retireUnit_ctx (h : findLaunch s.ctxs[u.ctx] u.launch = some l) : (retireUnit s u).ctxs[u.ctx] =
    { freedOf (.unit u.id) s.ctxs[u.ctx] with launches := s.ctxs[u.ctx].launches.map (retiredOne u.launch) } := by
  rw [retireUnit_ctxs h]
  exact (modCtx_same (ownFreed s u) u.ctx _).trans (by rw [ownFreed_ctx]; rfl)

theorem retireUnit_mem (h : findLaunch s.ctxs[u.ctx] u.launch = some l) : (retireUnit s u).mem = s.mem := by
  rw [retireUnit_eq h]
  show (if l.r.chain = true then _ else _ : State).mem = _
  split <;> rfl

/-- A unit of a launch that is not chained is gone with its warps. -/
theorem retireUnit_gone (h : findLaunch s.ctxs[u.ctx] u.launch = some l) (hc : l.r.chain = false) :
    (∀ y ∈ (retireUnit s u).units, y.id ≠ u.id) ∧ ∀ w ∈ (retireUnit s u).warps, inUnit u.id w = false := by
  rw [retireUnit_eq h, hc, if_neg Bool.false_ne_true]
  refine ⟨fun y hy => ?_, fun w hw => ?_⟩
  · exact bne_iff_ne.mp (List.mem_filter.mp hy).2
  · simpa using (List.mem_filter.mp hw).2

/-- A unit of a chained launch stays listed and holds nothing. -/
theorem retireUnit_listed (hu : findUnit s u.id = some u) (h : findLaunch s.ctxs[u.ctx] u.launch = some l) (hc : l.r.chain = true) :
    findUnit (retireUnit s u) u.id = some (emptied u) := by
  rw [retireUnit_eq h, if_pos hc]
  show (s.units.map fun x => if x.id == u.id then emptied x else x).find? (fun x => x.id == u.id) = _
  have keeps : ((fun x : UnitSt => x.id == u.id) ∘ fun x => if x.id == u.id then emptied x else x) = fun x => x.id == u.id := by
    funext x
    show ((if (x.id == u.id) = true then emptied x else x : UnitSt).id == u.id) = (x.id == u.id)
    split <;> rfl
  rw [List.find?_map, keeps, show s.units.find? (fun x => x.id == u.id) = _ from hu]
  exact congrArg some (if_pos (beq_self_eq_true _))

end

/-! ### An examination that finds one launch to end -/

section

variable {x : Ctx} {l : Launch} {id : Nat}

theorem found_unique (hn : (x.launches.map (·.id)).Nodup) (h : findLaunch x id = some l) {y : Launch} (hy : y ∈ x.launches) (hi : y.id = id) : y = l :=
  List.inj_on_of_nodup_map hn hy (List.mem_of_find?_eq_some h) (hi.trans (findLaunch_id h).symm)

/-- Where nothing was due, only the launch whose unit retired can have come due. -/
theorem due_retired (hx : Claims.NoneDue x) (h : findLaunch x id = some l) {y : Launch} (hy : y ∈ x.launches.map (retiredOne id))
    (hd : launchDue y = true) : y = oneMore l := by
  obtain ⟨z, hz, rfl⟩ := List.mem_map.mp hy
  by_cases own : z.id = id
  · rw [found_unique hx.1 h hz own, retiredOne, if_pos (beq_iff_eq.mpr (findLaunch_id h))]
  · rw [retiredOne, if_neg fun e => own (beq_iff_eq.mp e), (hx.2 z hz).2] at hd
    cases hd

theorem retired_mem (h : findLaunch x id = some l) : oneMore l ∈ x.launches.map (retiredOne id) :=
  List.mem_map.mpr ⟨l, List.mem_of_find?_eq_some h, if_pos (beq_iff_eq.mpr (findLaunch_id h))⟩

theorem retired_notHeld (hx : Claims.NoneDue x) : ∀ y ∈ x.launches.map (retiredOne id), y.st ≠ .held := fun y hy => by
  obtain ⟨z, hz, rfl⟩ := List.mem_map.mp hy
  unfold retiredOne
  split <;> exact (hx.2 z hz).1

theorem find_due (hx : Claims.NoneDue x) (h : findLaunch x id = some l) (hd : launchDue (oneMore l) = true) :
    (x.launches.map (retiredOne id)).find? launchDue = some (oneMore l) := by
  cases found : (x.launches.map (retiredOne id)).find? launchDue with
  | none => exact absurd hd (List.find?_eq_none.mp found _ (retired_mem h))
  | some y => exact congrArg some (due_retired hx h (List.mem_of_find?_eq_some found) (List.find?_some found))

end

/-- Where no launch is held, none becomes ready. -/
theorem readyLaunches_ctx {s : State} {c : Fin 64} (h : ∀ l ∈ s.ctxs[c].launches, l.st ≠ .held) : (readyLaunches s c).ctxs[c] = s.ctxs[c] := by
  rw [readyLaunches_eq, modCtx_same]
  have same : s.ctxs[c].launches.map (readyOne s.ctxs[c]) = s.ctxs[c].launches :=
    (List.map_congr_left fun l hl => readyOne_stays fun k => h l hl k.1).trans (List.map_id _)
  rw [same]

theorem releaseCores_lines (s : State) : LinesKept s (releaseCores s) :=
  .fold (fun s c => .ite (.refl s) (l1Clean_lines s c wideLine)) _ s

/-- The checks of a release pass its state on. -/
theorem releaseEverywhere_ok {s t : State} {c : Fin 64} (h : releaseEverywhere s c = .ok t) : t = releaseCores s := by
  unfold releaseEverywhere at h
  generalize releaseCores s = r at h ⊢
  dsimp only at h
  generalize ((List.finRange 384).findSome? fun k => l1Lost r k (ownLine c)) = lost at h
  generalize ((List.finRange 384).any fun k => l1Stalled r k (ownLine c)) = stalled at h
  cases lost with
  | some x => cases h
  | none =>
    dsimp only at h
    split at h
    · cases h
    · split at h
      · split at h <;> cases h
      · cases h
        rfl

/-- A release of a launch that is made leaves the contexts as they are. -/
theorem releaseLaunch_ctxs {s t : State} {c : Fin 64} {l : Launch} (h : releaseLaunch s c l = .ok t) : t.ctxs = s.ctxs := by
  unfold releaseLaunch Order.bind at h
  split at h
  · rename_i u made
    rw [releaseEverywhere_ok made] at h
    dsimp only at h
    split at h
    · cases h
    · rw [flushAt_ok h]
      exact (releaseCores_lines s).ctxs
  · cases h
  · cases h

/-- What an examination does that finds one launch to end. -/
theorem finishDue_found {s : State} {c : Fin 64} {l : Launch} (n : Nat) (h : s.ctxs[c].launches.find? launchDue = some l) :
    finishDue s c (n + 1) = if (endDue s c l).2 then finishDue (endDue s c l).1 c n else (endDue s c l).1 := by
  conv_lhs => unfold finishDue
  rw [h]

/-! ### The retirement (R71, R79, R92) -/

theorem unitQuiet_of_done {s : State} {u : UnitSt} (h : UnitDone s u) : unitQuiet s u = true := by
  obtain ⟨warps, mops, copies, handles⟩ := h
  unfold unitQuiet warpsOf
  simp only [Bool.and_eq_true, List.all_eq_true, Bool.not_eq_true', List.any_eq_false, List.mem_filter, beq_iff_eq, decide_eq_true_eq,
    Bool.not_eq_false, not_and, and_imp]
  exact ⟨⟨⟨warps, fun o ho unit => by simp [mops o ho unit]⟩, fun o ho ctx unit => by simp [copies o ho ctx unit]⟩,
    fun e he pending owner => handles e he owner pending⟩

theorem unitRetire_examines {s : State} {u : UnitSt} (hu : findUnit s u.id = some u) (hs : u.st = .resident ∨ u.st = .retiring)
    (hd : UnitDone s u) (hw : ∀ c n, s.cores[u.core].swap = some (c, n) → c ≠ u.ctx) (hg : s.ctxs[u.ctx].st ≠ .halting)
    (hh : s.ctxs[u.ctx].st ≠ .halted) (hc : crossing s (coreDie u.core) (homeDie s u.ctx) = .free) :
    exec (.unitRetire u.id) s = .next (examine (retireUnit (droverMessage s (coreDie u.core) (homeDie s u.ctx)) u) u.ctx) := by
  have live : (u.st == .resident || u.st == .retiring) = true := by
    obtain e | e := hs <;> rw [e] <;> rfl
  have on : droverOn s.ctxs[u.ctx] = true := by
    rw [droverOn, bne_iff_ne.mpr hg, bne_iff_ne.mpr hh]
    rfl
  have run : ∀ (b : Bool) (t : Host.Outcome State Fault Refusal), b = false →
      (if ((u.st == .resident || u.st == .retiring) && unitQuiet s u && !b && droverOn s.ctxs[u.ctx]) = true then t else .next s) = t :=
    fun b t hb => if_pos (by rw [live, unitQuiet_of_done hd, hb, on]; rfl)
  show execUnitRetire u.id s = _
  unfold execUnitRetire
  rw [hu]
  dsimp only
  rw [hc]
  refine run _ _ ?_
  cases swap : s.cores[u.core].swap with
  | none => rfl
  | some p => exact beq_eq_false_iff_ne.mpr (hw p.1 p.2 swap)

section

variable {s : State} {u : UnitSt} {l : Launch}

/-- A unit that retires and is not the last of its launch. -/
theorem examine_retired (hu : findUnit s u.id = some u) (hl : findLaunch s.ctxs[u.ctx] u.launch = some l)
    (hg : s.ctxs[u.ctx].st ≠ .halting) (hh : s.ctxs[u.ctx].st ≠ .halted) (hx : Claims.NoneDue s.ctxs[u.ctx]) (hn : l.retired + 1 ≠ l.total) :
    let t := examine (retireUnit s u) u.ctx
    t.mem = s.mem ∧ findLaunch t.ctxs[u.ctx] u.launch = some (oneMore l) ∧ (∀ e ∈ t.ctxs[u.ctx].handles, e.owner = .unit u.id → e.st = .free) ∧
      (l.r.chain = false → (∀ y ∈ t.units, y.id ≠ u.id) ∧ ∀ w ∈ t.warps, inUnit u.id w = false) ∧
      (l.r.chain = true → findUnit t u.id = some (emptied u)) := by
  have ctx := retireUnit_ctx hl
  have st : (retireUnit s u).ctxs[u.ctx].st = s.ctxs[u.ctx].st := by rw [ctx]; rfl
  have launches : (retireUnit s u).ctxs[u.ctx].launches = s.ctxs[u.ctx].launches.map (retiredOne u.launch) := congrArg Ctx.launches ctx
  have kept : (readyLaunches (retireUnit s u) u.ctx).ctxs[u.ctx] = (retireUnit s u).ctxs[u.ctx] :=
    readyLaunches_ctx fun y hy => retired_notHeld hx y (launches ▸ hy)
  have run : examine (retireUnit s u) u.ctx = readyLaunches (retireUnit s u) u.ctx := by
    rw [examine_goes (by rwa [st]) (by rwa [st])]
    refine finishDue_none fun y hy => Bool.eq_false_iff.mpr fun due => ?_
    rw [kept, launches] at hy
    obtain rfl := due_retired hx hl hy due
    exact hn ((launchDue_iff _).mp due).2.1
  intro t
  have at_ : t.ctxs[u.ctx] = { freedOf (.unit u.id) s.ctxs[u.ctx] with launches := s.ctxs[u.ctx].launches.map (retiredOne u.launch) } := by
    rw [show t = _ from run, kept, ctx]
  have same : ∀ {α : Type} (f : State → α), (∀ (z : State) y, f { z with ctxs := y } = f z) → f t = f (retireUnit s u) := fun f hf => by
    rw [show t = _ from run, readyLaunches_eq]
    exact hf _ _
  refine ⟨?_, ?_, ?_, fun plain => ?_, fun chained => ?_⟩
  · rw [same State.mem fun _ _ => rfl, retireUnit_mem hl]
  · rw [at_, findLaunch_map (retiredOne u.launch) (retiredOne_id _) rfl, hl]
    exact congrArg some (if_pos (beq_iff_eq.mpr (findLaunch_id hl)))
  · rw [at_]
    exact freedOf_handles
  · rw [same State.units fun _ _ => rfl, same State.warps fun _ _ => rfl]
    exact retireUnit_gone hl plain
  · rw [same (fun z => findUnit z u.id) fun _ _ => rfl]
    exact retireUnit_listed hu hl chained

/-- The last unit of a launch: the examination ends it, where the release is made, and waits where that waits. -/
theorem examine_last (hl : findLaunch s.ctxs[u.ctx] u.launch = some l) (hg : s.ctxs[u.ctx].st ≠ .halting) (hh : s.ctxs[u.ctx].st ≠ .halted)
    (hr : l.st = .running) (hf : l.fin = false) (hx : Claims.NoneDue s.ctxs[u.ctx]) (hn : l.retired + 1 = l.total) :
    let v := readyLaunches (retireUnit s u) u.ctx
    (∀ o, releaseLaunch v u.ctx (oneMore l) = .ok o → l.cancel = false →
      let t := examine (retireUnit s u) u.ctx
      (findLaunch t.ctxs[u.ctx] u.launch).map (·.st) = some .done ∧ (∀ y ∈ t.units, y.ctx = u.ctx → y.launch ≠ u.launch) ∧
        ∀ e, e < 256 → l.r.set.getLsbD e = true → t.ctxs[u.ctx].ev.getLsbD e = true) ∧
    ∀ o, releaseLaunch v u.ctx (oneMore l) = .wait o → examine (retireUnit s u) u.ctx = o := by
  have ctx := retireUnit_ctx hl
  have st : (retireUnit s u).ctxs[u.ctx].st = s.ctxs[u.ctx].st := by rw [ctx]; rfl
  have launches : (retireUnit s u).ctxs[u.ctx].launches = s.ctxs[u.ctx].launches.map (retiredOne u.launch) := congrArg Ctx.launches ctx
  intro v
  have listed : v.ctxs[u.ctx].launches = s.ctxs[u.ctx].launches.map (retiredOne u.launch) :=
    (congrArg Ctx.launches (readyLaunches_ctx fun y hy => retired_notHeld hx y (launches ▸ hy))).trans launches
  have due : launchDue (oneMore l) = true := (launchDue_iff _).mpr ⟨hf, hn, .inl hr⟩
  have run : examine (retireUnit s u) u.ctx =
      if (endDue v u.ctx (oneMore l)).2 then finishDue (endDue v u.ctx (oneMore l)).1 u.ctx 1023 else (endDue v u.ctx (oneMore l)).1 := by
    rw [examine_goes (by rwa [st]) (by rwa [st])]
    exact finishDue_found 1023 (by rw [listed, find_due hx hl due])
  have own : (oneMore l).id = u.launch := show l.id = u.launch from findLaunch_id hl
  refine ⟨fun o made plain => ?_, fun o waits => by rw [run, endDue_wait waits]; rfl⟩
  have ctxs : o.ctxs = v.ctxs := releaseLaunch_ctxs made
  have found : findLaunch o.ctxs[u.ctx] (oneMore l).id = some (oneMore l) := by
    rw [own, findLaunch_map (x := s.ctxs[u.ctx]) (retiredOne u.launch) (retiredOne_id _) (by rw [ctxs, listed]), hl]
    exact congrArg some (if_pos (beq_iff_eq.mpr (findLaunch_id hl)))
  obtain ⟨hs, ended, -⟩ := finishLaunch_ctx found
  obtain ⟨-, units⟩ := finishLaunch_aside found
  have others : ∀ y ∈ (finishLaunch o u.ctx (oneMore l).id).ctxs[u.ctx].launches, y.st ≠ .held ∧ launchDue y = false := fun y hy => by
    rw [ended] at hy
    obtain ⟨z, hz, rfl⟩ := List.mem_map.mp hy
    rw [ctxs, listed] at hz
    by_cases this : z.id = (oneMore l).id
    · rw [finishOne, if_pos (beq_iff_eq.mpr this)]
      refine ⟨?_, Bool.eq_false_iff.mpr fun d => ?_⟩
      · dsimp only
        split <;> exact fun h => nomatch h
      · exact absurd ((launchDue_iff _).mp d).1 (by simp)
    · rw [finishOne, if_neg fun e => this (beq_iff_eq.mp e)]
      exact ⟨retired_notHeld hx z hz, Bool.eq_false_iff.mpr fun d => this (by rw [due_retired hx hl hz d])⟩
  have ready := readyLaunches_ctx fun y hy => (others y hy).1
  intro t
  have final : t = readyLaunches (finishLaunch o u.ctx (oneMore l).id) u.ctx := by
    rw [show t = _ from run, endDue_ok made]
    exact finishDue_none fun y hy => (others y (ready ▸ hy)).2
  have at_ : t.ctxs[u.ctx] = _ := (congrArg (fun z : State => z.ctxs[u.ctx]) final).trans (ready.trans ended)
  refine ⟨?_, fun y hy hc => ?_, fun e he set => ?_⟩
  · rw [at_, findLaunch_map (finishOne (oneMore l).id) (finishOne_id _) rfl, ← own, found]
    show some (finishOne (oneMore l).id (oneMore l)).st = _
    rw [finishOne, if_pos (beq_self_eq_true _)]
    exact congrArg some (if_neg (by rw [show (oneMore l).cancel = false from plain]; exact Bool.false_ne_true))
  · rw [final] at hy
    exact own ▸ units y hy hc
  · rw [at_]
    show (_ ||| l.r.set).getLsbD e = true
    rw [BitVec.getLsbD_or, set, Bool.or_true]

end

theorem unitRetires : Claims.UnitRetires := by
  intro s u l hu hs hd hw hl hg hh hc hr hf hx
  have run := unitRetire_examines hu hs hd hw hg hh hc
  have field := fun {α : Type} (f : State → α) hf => droverMessage_field s (coreDie u.core) (homeDie s u.ctx) f hf
  have ctxs : (droverMessage s (coreDie u.core) (homeDie s u.ctx)).ctxs = s.ctxs := field State.ctxs fun _ => rfl
  have mem : (droverMessage s (coreDie u.core) (homeDie s u.ctx)).mem = s.mem := field State.mem fun _ => rfl
  have unit : findUnit (droverMessage s (coreDie u.core) (homeDie s u.ctx)) u.id = some u := (field (fun z => findUnit z u.id) fun _ => rfl).trans hu
  generalize droverMessage s (coreDie u.core) (homeDie s u.ctx) = v at run ctxs mem unit
  rw [← ctxs] at hl hg hh hx
  refine ⟨fun more => ?_, fun last => ?_⟩
  · obtain ⟨same, found, free, plain, chained⟩ := examine_retired unit hl hg hh hx more
    exact ⟨_, run, same.trans mem, found, free, plain, fun c => ⟨_, chained c, rfl, rfl, rfl, rfl⟩⟩
  · obtain ⟨ends, waits⟩ := examine_last hl hg hh hr hf hx last
    exact ⟨fun o made plain => ⟨_, run, ends o made plain⟩, fun o held => run.trans (congrArg _ (waits o held))⟩

/-- Settles O54: the order and the searches are read off the lists that they run over, and each start and retirement off the equation of its
case. -/
theorem drover : Obligations.Drover := ⟨placementOrder, unitStarts, reservations, unitRetires, dispatchStarts⟩

end Sys2Proof.Proofs
